-- ==== Sys2Proof/Word.lean ====
section
/-! DEFINITION. The plain word types of the machine (R8, R9, R30). -/

namespace Sys2Proof

/-- One byte (R8). -/
abbrev Byte := BitVec 8
/-- One 32-bit row of one lane of a vector register (R30). -/
abbrev Row := BitVec 32
/-- One uniform register (R30, R32). -/
abbrev Word := BitVec 64
/-- One bit per lane of a crew; bits at and above the crew's width are 0 (R42). -/
abbrev Lanes := BitVec 128
/-- A layout record (R30, R274). -/
abbrev LayRec := BitVec 256
/-- A sparse table: key and value pairs, keys strictly rising. -/
abbrev Table (β : Type) := List (Nat × β)

end Sys2Proof
end

