-- ==== Sys2Proof/Fields.lean ====
section
/-! DEFINITION. The fields of an instruction: types, operand classes, the guard, hints, winch fields, packet fields. -/

namespace Sys2Proof

/-- The types of R144. -/
inductive Ty where
  | s8 | s16 | s32 | s64 | n8 | n16 | n32 | n64 | b8 | b16 | b32 | b64 | b128
  | f16 | bf16 | f32 | f64 | bfp2 | bfp3 | bfp4 | bfp5 | bfp6 | bfp7 | bfp8
deriving DecidableEq, Repr

/-- The kinds of types (R76, R78, R88). -/
inductive Kind where
  | signed | natural | bits | float | bfp
deriving DecidableEq, Repr

namespace Ty

/-- The kind of a type. -/
def kind : Ty → Kind
  | s8 | s16 | s32 | s64 => .signed
  | n8 | n16 | n32 | n64 => .natural
  | b8 | b16 | b32 | b64 | b128 => .bits
  | f16 | bf16 | f32 | f64 => .float
  | bfp2 | bfp3 | bfp4 | bfp5 | bfp6 | bfp7 | bfp8 => .bfp

/-- The width n of a type in bits (R76, R78); for a block type its mantissa width b (R88). -/
def bits : Ty → Nat
  | s8 | n8 | b8 => 8
  | s16 | n16 | b16 | f16 | bf16 => 16
  | s32 | n32 | b32 | f32 => 32
  | s64 | n64 | b64 | f64 => 64
  | b128 => 128
  | bfp2 => 2 | bfp3 => 3 | bfp4 => 4 | bfp5 => 5 | bfp6 => 6 | bfp7 => 7 | bfp8 => 8

/-- 32-bit rows a vector operand of the type fills (R76, R172). -/
def rows (t : Ty) : Nat := if t.bits = 128 then 4 else if t.bits = 64 then 2 else 1

/-- Bytes of one element in memory (R9, R221). -/
def bytes (t : Ty) : Nat := t.bits / 8

end Ty

/-- MOD[4:0]: a type, or the VAR field of an untyped instruction (R144, R145). -/
inductive Sel where
  | ty (t : Ty)
  | var (n : BitVec 5)
deriving DecidableEq, Repr

/-- GUARD (R147). -/
structure Guard where
  pred : BitVec 3
  neg  : Bool
  uni  : Bool
deriving DecidableEq, Repr

/-- HINT (R151). `resv` is HINT[15:9], ignored. -/
structure Hint where
  resv  : BitVec 7
  cc    : BitVec 2
  yield : Bool
  keepB : Bool
  keepA : Bool
  la    : BitVec 4
deriving DecidableEq, Repr

/-- One operand field (R137). A wide immediate (R141) stands in A as `w` and leaves B as `none`; a class-5 code in another
field is `badWide`, kept because it is illegal-operand and no illegal encoding (R141). -/
inductive Operand where
  | v (idx : BitVec 8) (swz : BitVec 3) (abs neg : Bool)
  | s (n : BitVec 6)
  | p (n : BitVec 3) (neg : Bool)
  | x (sel : BitVec 15)
  | i (imm : BitVec 15)
  | w (x : BitVec 32)
  | badWide (payload : BitVec 15)
  | m (t : BitVec 4)
  | none
deriving DecidableEq, Repr

/-- The operand classes of R137 as the instruction tables name them (R169); class 5 outside A is `badWide`. -/
inductive Cls where
  | v | s | p | x | i | w | badWide | m | none
deriving DecidableEq, Repr

/-- The class of an operand field. -/
def Operand.cls : Operand → Cls
  | .v .. => .v
  | .s _ => .s
  | .p .. => .p
  | .x _ => .x
  | .i _ => .i
  | .w _ => .w
  | .badWide _ => .badWide
  | .m _ => .m
  | .none => .none

/-- The fields of one crew instruction beside its mnemonic (R135). -/
structure Fields where
  sel   : Sel
  f     : Bool
  guard : Guard
  d     : Operand
  a     : Operand
  b     : Operand
  ext   : BitVec 5
  hint  : Hint
deriving DecidableEq, Repr

/-- The fields of one winch instruction beside its op (R317); [31:29] is always 0 in an instruction. -/
structure WFields where
  hd   : BitVec 4
  ha   : BitVec 4
  hb   : BitVec 4
  modf : BitVec 4
  cty  : BitVec 3
  cop  : BitVec 2
  imm  : BitVec 32
deriving DecidableEq, Repr

/-- A LAUNCH packet (R332, R399). -/
structure LaunchPkt where
  kernel  : BitVec 32
  object  : BitVec 64
  args    : BitVec 64
  params  : BitVec 64
  done    : BitVec 64
  doneVal : BitVec 32
deriving DecidableEq, Repr

/-- A WSET packet (R356, R400). -/
structure WsetPkt where
  set : BitVec 8
  arg : BitVec 64
deriving DecidableEq, Repr

/-- A COPY packet (R401). -/
structure CopyPkt where
  dst : BitVec 64
  src : BitVec 64
  len : BitVec 32
deriving DecidableEq, Repr

/-- Who accesses a system register (R367, R368, R484): the firmware, the board controller, the host of a virtual interface, or a crew of a service
context. -/
inductive Writer where
  | firmware
  | board
  | host (vi : Nat)
  | ctx (c : Nat)
deriving DecidableEq, Repr

/-- The conditions of WAITV, `flagwait` and `waitf` (R260, R402). -/
inductive FlagCond where
  | eq | ne | ge | lt
deriving DecidableEq, Repr

/-- A WAITV packet (R402). -/
structure WaitvPkt where
  cond : FlagCond
  size : Bool
  addr : BitVec 64
  value : BitVec 64
  mask : BitVec 64
deriving DecidableEq, Repr

/-- A SIGNAL packet (R403). -/
structure SignalPkt where
  add   : Bool
  size  : Bool
  irq   : Bool
  addr  : BitVec 64
  value : BitVec 64
deriving DecidableEq, Repr

/-- What a store-queue entry or pass does at the home (R244, R245, R258). -/
inductive MemOp where
  | store | add | min | max | and | or | xor | exch | cas
deriving DecidableEq, Repr

/-- The instructions that send passes (R296, R301). -/
inductive PassKind where
  | rld | rst | ratom | gld | gst
deriving DecidableEq, Repr

/-- Where the bytes of an access live: a home on a module (HBM and seam, R103), a byte of a team's scratch, or another
module's address. -/
inductive Loc where
  | home (k : Nat)
  | scratch (team off : Nat)
  | far (peer : Nat) (va : BitVec 64)
deriving DecidableEq, Repr

/-- Who makes an access tracked by R74: the crew, its phase, the phases it is ordered after, and the writes that order only
themselves before it, and the number of the access among those of the module (R133). -/
structure TrackBy where
  no    : Nat
  inst  : Nat
  epoch : Nat
  vc    : Table Nat
  seen  : List (Nat × Nat × Loc)
deriving DecidableEq, Repr

/-- One lane of a pass: its address (a window pass: the scratch offset), its datum and the expected value. -/
structure PassLane where
  lane   : Nat
  addr   : BitVec 64
  data   : Nat
  expect : Nat
deriving DecidableEq, Repr

/-- A pass as it arrives at its target (R296, R301): the source module, its number there, what it does and for whom: `ident` is
the crew's identifier (R373), `crew` its instance. `gang` and `rank` name the member of a window pass; `track` is the crew
in determinism tracking (R132) where its kernel is D-class; `vc` what a release hands on; `launch` is its launch, by home module and
number there; `mirror` the peer that keeps the mirror of the page (R128); `wait` the condition of a waiting instruction that
reads a word again. -/
structure PassIn where
  src    : Nat
  id     : Nat
  kind   : PassKind
  ctx    : Nat
  ty     : Ty
  op     : MemOp
  scope  : Nat
  ordered : Bool
  crew   : Nat
  ident  : Nat
  clock  : Nat
  dclass : Bool
  gang   : Nat
  rank   : Nat
  track  : Option TrackBy
  vc     : Table Nat
  launch : Option (Nat × Nat)
  mirror : Option Nat
  wait   : Option (FlagCond × Nat)
  lanes  : List PassLane
  /-- a store of data in which an uncorrectable error was read (R268) -/
  poison : Bool := false
deriving DecidableEq, Repr

/-- An acknowledgement of a lane group by another module (R105, R363): the target, the line, the completion times, and the
old values by lane where the operation returns them. -/
structure FarAck where
  peer : Nat
  line : Nat
  gwctMod : Nat
  gwctFab : Nat
  olds : List (Nat × Nat)
  /-- the lanes in which an atomic read an uncorrectable error (R389) -/
  bad : List Nat := []
deriving DecidableEq, Repr

/-- Who asks for a name (R307): a crew, by identifier, place, handle index and claim sequence number, or a link. -/
inductive Requester where
  | crew (place inst handle seq : Nat)
  | link (l : Nat)
deriving DecidableEq, Repr

/-- A name: name space, key (NM.TENSOR, NM.TILE) and iteration (R304). -/
structure TileName where
  ns   : Nat
  key  : BitVec 64
  iter : Nat
deriving DecidableEq, Repr

/-- An arriving claim or extension (R307, R462). -/
structure ClaimIn where
  name   : TileName
  expiry : Nat
  from_  : Requester
deriving DecidableEq, Repr

/-- An arriving tile (R309). -/
structure TileIn where
  name : TileName
  data : List Byte
deriving DecidableEq, Repr

/-- What RESERVE tells a member module of a gang (R419). -/
structure GangMsg where
  gang    : Nat
  stack   : Nat
  pool    : BitVec 64
  idem    : Bool
  retry   : Nat
  time    : Nat
  coord   : Nat
  no      : Nat
  ctx     : Nat
  object  : Nat
  kernel  : Nat
  launch  : Nat
  home    : Nat
  prio    : Nat
  args    : BitVec 64
  first   : Nat
  nteams  : Nat
  grid    : Nat
  clock   : Nat
  key     : List Nat
  members : List Nat
deriving DecidableEq, Repr

/-- A flit (R453): its 256 bytes, or, where its payload is in clear, the header and the 208 bytes of payload; and for a flit in
transit the path, the hops made, source and target (R487); `acc` is the access that a flit of this module carries: the crew's
place, the number of its pass set and the target line. -/
structure FlitIn where
  raw    : List Byte
  src    : Nat
  target : Nat
  path   : Nat
  hops   : Nat
  acc    : Option (Nat × Nat × Nat)
deriving DecidableEq, Repr

/-- A native image, taken apart (R408, R475): text, kernel descriptors whose KD.ENTRY is a byte offset in the text, the kernels' constant
banks, the data segment, the functions by entry offset and frame size (none where the function is external), and the binding records
by function. -/
structure NativeImage where
  text  : List Byte
  descs : List (BitVec 256)
  banks : List (List Byte)
  data  : List Byte
  fns   : List (Option (Nat × Nat))
  binds : Table (List Byte)
deriving DecidableEq, Repr

/-- Who a HOLD_RELEASE_NOTICE comes from (R419, R420; log 31): a module that let go of its hold, or the member of a rank that runs there. -/
structure NoticeFrom where
  sender : Nat
  member : Option Nat
deriving DecidableEq, Repr

/-- Where an uncorrectable error strikes (R389). -/
inductive ErrorSite where
  | team (t : Nat)
  | copy (core line : Nat)
  | data (key : Nat)
deriving DecidableEq, Repr

end Sys2Proof
end

