-- ==== Sys2Proof/Machine/Bits.lean ====
section
/-! DEFINITION. Bit strings as numbers: truncation, sign extension, fields, saturation (R16, R76, R77). A value of a type of
n bits is the number below 2^n that its bits stand for. -/

namespace Sys2Proof.Machine

/-- The low `n` bits of an integer (R16 Trunc). -/
def trunc (x : Int) (n : Nat) : Nat := (x % (2 ^ n : Nat)).toNat

/-- `n` bits read as two's complement (R16 SExt). -/
def sext (x n : Nat) : Int := if x % 2 ^ n < 2 ^ (n - 1) then (x % 2 ^ n : Nat) else (x % 2 ^ n : Nat) - (2 ^ n : Nat)

/-- A signed type (R76). -/
def Ty.isSigned (t : Ty) : Bool := t.kind == .signed

/-- Bits read as a value of an integer type: signed types as two's complement (R76). -/
def intVal (t : Ty) (x : Nat) : Int := if Ty.isSigned t then sext x t.bits else (x % 2 ^ t.bits : Nat)

/-- Fills the bits above a result of the type up to `m` bits: sign extension for signed types (R76). -/
def extend (t : Ty) (x m : Nat) : Nat := if Ty.isSigned t then trunc (sext x t.bits) m else x % 2 ^ t.bits

/-- The range of an integer type (R77). -/
def tyMin (t : Ty) : Int := if Ty.isSigned t then -(2 ^ (t.bits - 1) : Nat) else 0
def tyMax (t : Ty) : Int := if Ty.isSigned t then (2 ^ (t.bits - 1) : Nat) - 1 else (2 ^ t.bits : Nat) - 1

/-- An exact value fitted to the type: clamped or wrapped (R77). -/
def fit (sat : Bool) (t : Ty) (x : Int) : Nat :=
  trunc (if sat then max (tyMin t) (min (tyMax t) x) else x) t.bits

/-- How many of the low `n` bits are 1. -/
def popCount (x : Nat) : Nat → Nat
  | 0 => 0
  | n + 1 => popCount x n + x / 2 ^ n % 2

/-- The number of bits up to the highest 1 bit; 0 for 0. -/
def bitLen (x : Nat) : Nat := if x = 0 then 0 else Nat.log2 x + 1

/-- The low `n` bits in reverse order. -/
def bitRev (x : Nat) : Nat → Nat
  | 0 => 0
  | n + 1 => bitRev (x / 2) n + x % 2 * 2 ^ n

/-- The integer square root, one result bit at a time: `n` bits still to decide, `r` decided so far. -/
def isqrtLoop (x r : Nat) : Nat → Nat
  | 0 => r
  | n + 1 => let t := r + 2 ^ n
             if t * t ≤ x then isqrtLoop x t n else isqrtLoop x r n

/-- The largest number whose square is at most `x`. -/
def isqrt (x : Nat) : Nat := isqrtLoop x 0 (bitLen x / 2 + 1)

/-- `n` bits of a number from bit `lo` on. -/
def bitf (x lo n : Nat) : Nat := x / 2 ^ lo % 2 ^ n

/-- The element `i` of `n` bits of a bit string. -/
def elem (x n i : Nat) : Nat := x / 2 ^ (n * i) % 2 ^ n

/-- Numbers of `n` bits laid side by side, the first lowest. -/
def joinElems (n : Nat) : List Nat → Nat
  | [] => 0
  | x :: xs => x % 2 ^ n + 2 ^ n * joinElems n xs

/-- The bytes of a number, lowest first, as bytes (R9). -/
def leBytes (x : Nat) : Nat → List Byte
  | 0 => []
  | n + 1 => BitVec.ofNat 8 (x % 256) :: leBytes (x / 256) n

/-- The number that bytes, lowest first, stand for (R9). -/
def leNat : List Byte → Nat
  | [] => 0
  | b :: bs => b.toNat + 256 * leNat bs

end Sys2Proof.Machine
end

