-- ==== Sys2Proof/Machine/Float.lean ====
section
/-! DEFINITION. The IEEE binary formats: unpacking, one correct rounding of an exact value, the arithmetic of R80 to R86 and
R98, classification. An exact value is (-1)^neg times (m + t) times 2^e, where t is 0 or, with `sticky`, lies strictly
between 0 and 1. -/

namespace Sys2Proof.Machine

/-- A format: exponent and fraction bits (R78). -/
structure Fmt where
  eb : Nat
  fb : Nat
deriving DecidableEq, Repr

/-- The formats of R78. -/
def fmtOf : Ty → Fmt
  | .f16 => ⟨5, 10⟩
  | .bf16 => ⟨8, 7⟩
  | .f64 => ⟨11, 52⟩
  | _ => ⟨8, 23⟩

namespace Fmt

def width (F : Fmt) : Nat := 1 + F.eb + F.fb
def bias (F : Fmt) : Int := (2 ^ (F.eb - 1) : Nat) - 1
def signBit (F : Fmt) : Nat := 2 ^ (F.eb + F.fb)
def infBits (F : Fmt) : Nat := (2 ^ F.eb - 1) * 2 ^ F.fb
def maxBits (F : Fmt) : Nat := F.infBits - 1
/-- The canonical NaN (R84). -/
def nan (F : Fmt) : Nat := F.infBits + 2 ^ (F.fb - 1)
def withSign (F : Fmt) (neg : Bool) (x : Nat) : Nat := if neg then F.signBit + x else x

end Fmt

/-- An unpacked number. A finite nonzero number is m times 2^e. -/
inductive FVal where
  | nan (quiet : Bool)
  | inf (neg : Bool)
  | zero (neg : Bool)
  | fin (neg : Bool) (m : Nat) (e : Int)
deriving DecidableEq, Repr

/-- Reads a pattern of the format; with `ftz` a denormal is zero of its sign (R82). -/
def unpack (F : Fmt) (ftz : Bool) (x : Nat) : FVal :=
  let neg := x / F.signBit % 2 == 1
  let ex := x / 2 ^ F.fb % 2 ^ F.eb
  let fr := x % 2 ^ F.fb
  if ex = 2 ^ F.eb - 1 then
    if fr = 0 then .inf neg else .nan (fr / 2 ^ (F.fb - 1) == 1)
  else if ex = 0 then
    if fr = 0 || ftz then .zero neg else .fin neg fr (1 - F.bias - F.fb)
  else .fin neg (2 ^ F.fb + fr) (ex - F.bias - F.fb)

def FVal.isNan : FVal → Bool
  | .nan _ => true
  | _ => false

/-- The magnitude m·2^e rounded to a multiple of 2^q, as a multiple: modes 0 nearest even, 1 toward zero, 2 up, 3 down
(R35). -/
def roundAt (rm : Nat) (neg : Bool) (m : Nat) (e : Int) (sticky : Bool) (q : Int) : Nat :=
  if q ≤ e then m * 2 ^ (e - q).toNat
  else
    let d := (q - e).toNat
    let fl := m / 2 ^ d
    let rem := m % 2 ^ d
    let half := 2 ^ (d - 1)
    let inexact := rem != 0 || sticky
    let up := match rm with
      | 0 => half < rem || (rem == half && (sticky || fl % 2 == 1))
      | 1 => false
      | 2 => !neg && inexact
      | _ => neg && inexact
    if up then fl + 1 else fl

/-- A magnitude beyond the largest finite value (R81). -/
def overflow (F : Fmt) (rm : Nat) (neg : Bool) : Nat :=
  let toInf := match rm with
    | 0 => true
    | 1 => false
    | 2 => !neg
    | _ => neg
  F.withSign neg (if toInf then F.infBits else F.maxBits)

/-- RoundF (R80 to R82): an exact value rounded once, tininess detected after rounding. -/
def roundF (F : Fmt) (rm : Nat) (ftz : Bool) (neg : Bool) (m : Nat) (e : Int) (sticky : Bool := false) : Nat :=
  if m = 0 then F.withSign neg 0
  else
    let top := (bitLen m : Int) - 1 + e
    let emin := 1 - F.bias
    let r := roundAt rm neg m e sticky (top - F.fb)
    let carry := r == 2 ^ (F.fb + 1)
    let top' := if carry then top + 1 else top
    if top' < emin then
      if ftz then F.withSign neg 0
      else F.withSign neg (roundAt rm neg m e sticky (emin - F.fb))
    else if F.bias < top' then overflow F rm neg
    else
      let frac := if carry then 0 else r - 2 ^ F.fb
      F.withSign neg ((top' + F.bias).toNat * 2 ^ F.fb + frac)

/-- An exact integer multiple of 2^e rounded; `zneg` is the sign of an exact zero. -/
def roundInt (F : Fmt) (rm : Nat) (ftz : Bool) (x : Int) (e : Int) (zneg : Bool) : Nat :=
  if x = 0 then F.withSign zneg 0 else roundF F rm ftz (x < 0) x.natAbs e

/-- Packs an unpacked number that needs no rounding in its own format; NaNs become canonical. -/
def pack (F : Fmt) (rm : Nat) (ftz : Bool) : FVal → Nat
  | .nan _ => F.nan
  | .inf n => F.withSign n F.infBits
  | .zero n => F.withSign n 0
  | .fin n m e => roundF F rm ftz n m e

/-- Signed mantissa. -/
def signed (neg : Bool) (m : Nat) : Int := if neg then -(m : Int) else m

/-- The sum of two finite numbers as an integer times 2^(the lower exponent). -/
def addExact (n1 : Bool) (m1 : Nat) (e1 : Int) (n2 : Bool) (m2 : Nat) (e2 : Int) : Int × Int :=
  let e := min e1 e2
  (signed n1 m1 * (2 ^ (e1 - e).toNat : Nat) + signed n2 m2 * (2 ^ (e2 - e).toNat : Nat), e)

/-- a + b (R80 to R85). -/
def fAddV (F : Fmt) (rm : Nat) (ftz : Bool) (a b : FVal) : Nat :=
  match a, b with
  | .nan _, _ => F.nan
  | _, .nan _ => F.nan
  | .inf n1, .inf n2 => if n1 = n2 then F.withSign n1 F.infBits else F.nan
  | .inf n, _ => F.withSign n F.infBits
  | _, .inf n => F.withSign n F.infBits
  | .zero n1, .zero n2 => F.withSign (if n1 = n2 then n1 else rm == 3) 0
  | .zero _, .fin n m e => roundF F rm ftz n m e
  | .fin n m e, .zero _ => roundF F rm ftz n m e
  | .fin n1 m1 e1, .fin n2 m2 e2 =>
      let x := addExact n1 m1 e1 n2 m2 e2
      roundInt F rm ftz x.1 x.2 (rm == 3)

/-- The negative of an unpacked number. -/
def FVal.negate : FVal → FVal
  | .nan q => .nan q
  | .inf n => .inf !n
  | .zero n => .zero !n
  | .fin n m e => .fin (!n) m e

/-- The exact product, NaN where 0 meets infinity (R85). -/
def mulV (a b : FVal) : FVal :=
  match a, b with
  | .nan q, _ => .nan q
  | _, .nan q => .nan q
  | .inf n1, .inf n2 => .inf (n1 != n2)
  | .inf _, .zero _ => .nan true
  | .zero _, .inf _ => .nan true
  | .inf n1, .fin n2 .. => .inf (n1 != n2)
  | .fin n1 .., .inf n2 => .inf (n1 != n2)
  | .zero n1, .zero n2 => .zero (n1 != n2)
  | .zero n1, .fin n2 .. => .zero (n1 != n2)
  | .fin n1 .., .zero n2 => .zero (n1 != n2)
  | .fin n1 m1 e1, .fin n2 m2 e2 => .fin (n1 != n2) (m1 * m2) (e1 + e2)

def fAdd (F : Fmt) (rm : Nat) (ftz : Bool) (a b : Nat) : Nat := fAddV F rm ftz (unpack F ftz a) (unpack F ftz b)
def fSub (F : Fmt) (rm : Nat) (ftz : Bool) (a b : Nat) : Nat :=
  fAddV F rm ftz (unpack F ftz a) (unpack F ftz b).negate
def fMul (F : Fmt) (rm : Nat) (ftz : Bool) (a b : Nat) : Nat := pack F rm ftz (mulV (unpack F ftz a) (unpack F ftz b))
/-- a × b + c, rounded once (R80). -/
def fMa (F : Fmt) (rm : Nat) (ftz : Bool) (a b c : Nat) : Nat :=
  fAddV F rm ftz (mulV (unpack F ftz a) (unpack F ftz b)) (unpack F ftz c)

/-- The quotient of two finite nonzero numbers: enough quotient bits, and whether a remainder is left. -/
def divExact (m1 : Nat) (e1 : Int) (m2 : Nat) (e2 : Int) : Nat × Int × Bool :=
  let k := 120 + bitLen m2
  let q := m1 * 2 ^ k / m2
  (q, e1 - e2 - k, q * m2 != m1 * 2 ^ k)

/-- a / b (R80, R85). -/
def fDivV (F : Fmt) (rm : Nat) (ftz : Bool) (a b : FVal) : Nat :=
  match a, b with
  | .nan _, _ => F.nan
  | _, .nan _ => F.nan
  | .inf _, .inf _ => F.nan
  | .zero _, .zero _ => F.nan
  | .inf n1, .zero n2 => F.withSign (n1 != n2) F.infBits
  | .inf n1, .fin n2 .. => F.withSign (n1 != n2) F.infBits
  | .zero n1, .inf n2 => F.withSign (n1 != n2) 0
  | .zero n1, .fin n2 .. => F.withSign (n1 != n2) 0
  | .fin n1 .., .inf n2 => F.withSign (n1 != n2) 0
  | .fin n1 .., .zero n2 => F.withSign (n1 != n2) F.infBits
  | .fin n1 m1 e1, .fin n2 m2 e2 =>
      let x := divExact m1 e1 m2 e2
      roundF F rm ftz (n1 != n2) x.1 x.2.1 x.2.2

def fDiv (F : Fmt) (rm : Nat) (ftz : Bool) (a b : Nat) : Nat := fDivV F rm ftz (unpack F ftz a) (unpack F ftz b)

/-- The square root of m·2^e: root bits, exponent, whether inexact. -/
def sqrtExact (m : Nat) (e : Int) : Nat × Int × Bool :=
  let k : Nat := 240 + (if (e - 240) % 2 = 0 then 0 else 1)
  let x := m * 2 ^ k
  let r := isqrt x
  (r, (e - k) / 2, r * r != x)

/-- √a (R80, R85). -/
def fSqrt (F : Fmt) (rm : Nat) (ftz : Bool) (a : Nat) : Nat :=
  match unpack F ftz a with
  | .nan _ => F.nan
  | .zero n => F.withSign n 0
  | .inf true => F.nan
  | .inf false => F.infBits
  | .fin true .. => F.nan
  | .fin false m e =>
      let x := sqrtExact m e
      roundF F rm ftz false x.1 x.2.1 x.2.2

/-- The order of two numbers that are no NaNs, −0 and +0 equal: is a below b? -/
def ltV (a b : FVal) : Bool :=
  match a, b with
  | .nan _, _ => false
  | _, .nan _ => false
  | .inf n1, .inf n2 => n1 && !n2
  | .inf n1, _ => n1
  | _, .inf n2 => !n2
  | .zero _, .zero _ => false
  | .zero _, .fin n .. => !n
  | .fin n .., .zero _ => n
  | .fin n1 m1 e1, .fin n2 m2 e2 => (addExact n1 m1 e1 (!n2) m2 e2).1 < 0

/-- Equality, −0 and +0 equal; a NaN equals nothing. -/
def eqV (a b : FVal) : Bool := !a.isNan && !b.isNan && !ltV a b && !ltV b a

/-- The sign of an unpacked number. -/
def FVal.sign : FVal → Bool
  | .nan _ => false
  | .inf n => n
  | .zero n => n
  | .fin n .. => n

/-- The order that min and max use: −0 below +0 (R86, R98). -/
def ltTotal (a b : FVal) : Bool := ltV a b || (eqV a b && a.sign && !b.sign)

/-- A denormal replaced by zero of its sign under FTZ (R82, R86); other patterns unchanged. -/
def flush (F : Fmt) (ftz : Bool) (x : Nat) : Nat :=
  match unpack F ftz x with
  | .zero n => F.withSign n 0
  | _ => x % 2 ^ F.width

/-- fmin and fmax (R86): one operand, bit for bit, or the canonical NaN. -/
def fMinMax (F : Fmt) (ftz : Bool) (isMax : Bool) (a b : Nat) : Nat :=
  let a := flush F ftz a
  let b := flush F ftz b
  let va := unpack F ftz a
  let vb := unpack F ftz b
  if va.isNan && vb.isNan then F.nan
  else if va.isNan then b
  else if vb.isNan then a
  else if (if isMax then ltTotal va vb else ltTotal vb va) then b else a

/-- The conditions of R189. -/
def fCmp (F : Fmt) (ftz : Bool) (cc a b : Nat) : Bool :=
  let va := unpack F ftz a
  let vb := unpack F ftz b
  let un := va.isNan || vb.isNan
  match cc with
  | 0 => eqV va vb
  | 1 => !eqV va vb
  | 2 => ltV va vb
  | 3 => ltV va vb || eqV va vb
  | 4 => ltV vb va
  | 5 => ltV vb va || eqV va vb
  | 6 => un
  | _ => !un

/-- Rounding to an integral value of the same format (R191). -/
def fRnd (F : Fmt) (rm : Nat) (ftz : Bool) (a : Nat) : Nat :=
  match unpack F ftz a with
  | .nan _ => F.nan
  | .inf n => F.withSign n F.infBits
  | .zero n => F.withSign n 0
  | .fin n m e => roundInt F rm ftz (signed n (roundAt rm n m e false 0)) 0 n

/-- The class bit of R192. -/
def fClass (F : Fmt) (ftz : Bool) (a : Nat) : Nat :=
  match unpack F ftz a with
  | .nan false => 1
  | .nan true => 2
  | .inf true => 4
  | .zero true => 32
  | .zero false => 64
  | .inf false => 512
  | .fin n .. =>
      let denormal := a / 2 ^ F.fb % 2 ^ F.eb == 0
      match n, denormal with
      | true, false => 8
      | true, true => 16
      | false, true => 128
      | false, false => 256

/-- A conversion between formats (R87). -/
def fConv (F G : Fmt) (rm : Nat) (ftz : Bool) (a : Nat) : Nat := pack G rm ftz (unpack F ftz a)

/-- An integer as a number of the format (R87). -/
def fOfInt (F : Fmt) (rm : Nat) (ftz : Bool) (x : Int) : Nat := roundInt F rm ftz x 0 false

/-- A number rounded to an integer type, saturating (R87). -/
def fToInt (F : Fmt) (rm : Nat) (ftz : Bool) (t : Ty) (a : Nat) : Nat :=
  match unpack F ftz a with
  | .nan _ => 0
  | .zero _ => 0
  | .inf n => trunc (if n then tyMin t else tyMax t) t.bits
  | .fin n m e => fit true t (signed n (roundAt rm n m e false 0))

/-- Floating-point atomics (R98): add rounds to nearest even with denormals honoured. -/
def fAtomAdd (F : Fmt) (a b : Nat) : Nat := fAdd F 0 false a b

/-- min and max of R98: the stored value, none where the word keeps its bits. -/
def fAtomMinMax (F : Fmt) (isMax : Bool) (old b : Nat) : Option Nat :=
  let vo := unpack F false old
  let vb := unpack F false b
  if vo.isNan && vb.isNan then some F.nan
  else if vb.isNan then none
  else if vo.isNan then some b
  else if (if isMax then ltTotal vo vb else ltTotal vb vo) then some b
  else none

end Sys2Proof.Machine
end

