-- ==== Sys2Proof/Machine/FloatFns.lean ====
section
/-! DEFINITION. The approximate functions of R99 and R100: on the silicon these files describe the exact result rounded to
nearest even. A value is held as an integer multiple of 2^-450, far finer than any rounding boundary lies to a result that
is not exact (log 21), and then rounded once with its inexactness noted. -/

namespace Sys2Proof.Machine

/-- Fraction bits of the working precision. -/
def fxBits : Nat := 450
def fxOne : Nat := 2 ^ 450

/-- Terms of the sum of atanh: with `p` the current odd power, `k` the current odd denominator, `z2` the squared argument. -/
def atanhLoop (z2 : Nat) (p k acc : Nat) : Nat → Nat
  | 0 => acc
  | n + 1 => atanhLoop z2 (p * z2 / fxOne) (k + 2) (acc + p / k) n

/-- ln((1+z)/(1-z)) = 2 atanh z, for a fixed-point z of at most 1/3. -/
def lnRatio (z : Nat) : Nat := 2 * atanhLoop (z * z / fxOne) z 1 0 150

/-- ln 2, as 2 atanh(1/3). -/
def fxLn2 : Nat := lnRatio (fxOne / 3)

/-- The terms of an alternating arctangent sum of 1/q, signed. -/
def atanLoop (q2 : Nat) (p k : Nat) (neg : Bool) (acc : Int) : Nat → Int
  | 0 => acc
  | n + 1 => atanLoop q2 (p / q2) (k + 2) (!neg) (if neg then acc - (p / k : Nat) else acc + (p / k : Nat)) n

/-- Pi with `2^b` as the unit (Machin's formula). -/
def fxPi (b : Nat) : Nat :=
  let one := 2 ^ (b + 16)
  let a := 16 * atanLoop 25 (one / 5) 1 false 0 (b / 4 + 20) - 4 * atanLoop 57121 (one / 239) 1 false 0 (b / 14 + 20)
  a.toNat / 2 ^ 16

/-- The Taylor sum of exp at a fixed-point x below 1. -/
def expLoop (x : Nat) (t k acc : Nat) : Nat → Nat
  | 0 => acc
  | n + 1 => let t' := t * x / fxOne / k
             expLoop x t' (k + 1) (acc + t') n

/-- e^x for 0 ≤ x < 1. -/
def fxExp (x : Nat) : Nat := expLoop x fxOne 1 fxOne 110

/-- The Taylor sum of sine or cosine at a fixed-point x: the next term from `t` divides by k(k+1). -/
def trigLoop (x2 : Nat) (t k : Nat) (neg : Bool) (acc : Int) : Nat → Int
  | 0 => acc
  | n + 1 =>
      let t' := t * x2 / fxOne / (k * (k + 1))
      trigLoop x2 t' (k + 2) (!neg) (if neg then acc - t' else acc + t') n

def fxSin (x : Nat) : Int := trigLoop (x * x / fxOne) x 2 true x 60
def fxCos (x : Nat) : Int := trigLoop (x * x / fxOne) fxOne 1 true fxOne 60

/-- A fixed-point value rounded to nearest even; the value is not exact. -/
def fxRound (F : Fmt) (ftz : Bool) (x : Int) : Nat := roundF F 0 ftz (x < 0) x.natAbs (-(fxBits : Int)) true

/-- 1/x (R99). -/
def fRcp (F : Fmt) (ftz : Bool) (a : Nat) : Nat := fDivV F 0 ftz (.fin false 1 0) (unpack F ftz a)

/-- 1/√x (R99). -/
def fRsq (F : Fmt) (ftz : Bool) (a : Nat) : Nat :=
  match unpack F ftz a with
  | .nan _ => F.nan
  | .zero n => F.withSign n F.infBits
  | .inf true => F.nan
  | .inf false => 0
  | .fin true .. => F.nan
  | .fin false m e =>
      -- e made even, then the root of 2^600 / m
      let m' := if e % 2 = 0 then m else 2 * m
      let e' := if e % 2 = 0 then e else e - 1
      let r := isqrt (2 ^ 600 / m')
      roundF F 0 ftz false r (-300 - e' / 2) (r * r * m' != 2 ^ 600)

/-- 2^x (R99). -/
def fExp2 (F : Fmt) (ftz : Bool) (a : Nat) : Nat :=
  match unpack F ftz a with
  | .nan _ => F.nan
  | .zero _ => roundF F 0 ftz false 1 0
  | .inf true => 0
  | .inf false => F.infBits
  | .fin n m e =>
      if 12 ≤ (bitLen m : Int) + e then
        -- |x| ≥ 2^11: beyond every exponent of the formats of group 2
        if n then roundF F 0 ftz false 1 (-4000) true else overflow F 0 false
      else
        let x := signed n m
        let fx := if 0 ≤ e then x * (2 ^ (e.toNat + fxBits) : Nat)
                  else x * (2 ^ fxBits : Nat) / (2 ^ (-e).toNat : Nat)
        let exact := 0 ≤ e || x % (2 ^ (-e).toNat : Nat) == 0
        let k := fx / (fxOne : Int)
        let f := (fx % (fxOne : Int)).toNat
        if exact then roundF F 0 ftz false 1 k
        else roundF F 0 ftz false (fxExp (f * fxLn2 / fxOne)) (k - fxBits) true

/-- log2 x (R99). -/
def fLog2 (F : Fmt) (ftz : Bool) (a : Nat) : Nat :=
  match unpack F ftz a with
  | .nan _ => F.nan
  | .zero _ => F.withSign true F.infBits
  | .inf true => F.nan
  | .inf false => F.infBits
  | .fin true .. => F.nan
  | .fin false m e =>
      let k : Int := (bitLen m : Int) - 1 + e
      let p := 2 ^ (bitLen m - 1)
      if m = p then roundInt F 0 ftz k 0 false
      else
        let z := (m - p) * fxOne / (m + p)
        fxRound F ftz (k * fxOne + (lnRatio z * fxOne / fxLn2 : Nat))

/-- The quadrant of x = m·2^e and the rest below pi/2, in fixed point: x is taken modulo pi/2 with a pi long enough for
any exponent of the formats. -/
def trigReduce (m : Nat) (e : Int) : Nat × Nat :=
  if e < -(fxBits : Int) then (0, m / 2 ^ (-e - fxBits).toNat)
  else
    let b := fxBits + 200
    let hp := fxPi b / 2
    -- x in units of 2^-b
    let x := m * 2 ^ (e + b).toNat
    (x / hp % 4, x % hp / 2 ^ 200)

/-- Sine of a finite number: quadrants of R99's reduction. -/
def sinQuad (q r : Nat) : Int :=
  match q with
  | 0 => fxSin r
  | 1 => fxCos r
  | 2 => - fxSin r
  | _ => - fxCos r

/-- sin x and cos x (R99, R100). -/
def fSin (F : Fmt) (ftz : Bool) (a : Nat) : Nat :=
  match unpack F ftz a with
  | .nan _ => F.nan
  | .inf _ => F.nan
  | .zero n => F.withSign n 0
  | .fin n m e =>
      let x := trigReduce m e
      let v := sinQuad x.1 x.2
      fxRound F ftz (if n then -v else v)

def fCos (F : Fmt) (ftz : Bool) (a : Nat) : Nat :=
  match unpack F ftz a with
  | .nan _ => F.nan
  | .inf _ => F.nan
  | .zero _ => roundF F 0 ftz false 1 0
  | .fin _ m e =>
      let x := trigReduce m e
      fxRound F ftz (sinQuad ((x.1 + 1) % 4) x.2)

end Sys2Proof.Machine
end

