-- ==== Sys2Proof/Syntax.lean ====
section
/-! DEFINITION. The instructions: one constructor per row of spec/opcode_table.json. The 145 crew instructions carry the
fields of their word (R135), the 20 winch instructions those of R317, the 8 queue packets those of R398 to R404; every
other row is an event of the hardware, and its arguments name the object it happens to and what arrives with it. -/

namespace Sys2Proof

inductive Instr where
  | iadd (f : Fields)
  | isub (f : Fields)
  | imul (f : Fields)
  | imulhi (f : Fields)
  | imad (f : Fields)
  | imin (f : Fields)
  | imax (f : Fields)
  | iabs (f : Fields)
  | ineg (f : Fields)
  | and (f : Fields)
  | or (f : Fields)
  | xor (f : Fields)
  | not (f : Fields)
  | shl (f : Fields)
  | shr (f : Fields)
  | sar (f : Fields)
  | rot (f : Fields)
  | popc (f : Fields)
  | clz (f : Fields)
  | brev (f : Fields)
  | bfx (f : Fields)
  | bfi (f : Fields)
  | lea (f : Fields)
  | icmp (f : Fields)
  | sel (f : Fields)
  | pand (f : Fields)
  | por (f : Fields)
  | pxor (f : Fields)
  | pnot (f : Fields)
  | pmov (f : Fields)
  | fadd (f : Fields)
  | fsub (f : Fields)
  | fmul (f : Fields)
  | fma (f : Fields)
  | fmin (f : Fields)
  | fmax (f : Fields)
  | fcmp (f : Fields)
  | fdiv (f : Fields)
  | fsqrt (f : Fields)
  | frcp (f : Fields)
  | frsq (f : Fields)
  | fexp2 (f : Fields)
  | flog2 (f : Fields)
  | fsin (f : Fields)
  | fcos (f : Fields)
  | frnd (f : Fields)
  | fclass (f : Fields)
  | dadd (f : Fields)
  | dsub (f : Fields)
  | dmul (f : Fields)
  | dfma (f : Fields)
  | dmin (f : Fields)
  | dmax (f : Fields)
  | dcmp (f : Fields)
  | ddiv (f : Fields)
  | dsqrt (f : Fields)
  | cvt (f : Fields)
  | pack2 (f : Fields)
  | unpack2 (f : Fields)
  | bfpack (f : Fields)
  | bfunpack (f : Fields)
  | bfexp (f : Fields)
  | shfl (f : Fields)
  | vote (f : Fields)
  | bcast (f : Fields)
  | redux (f : Fields)
  | scan (f : Fields)
  | matchv (f : Fields)
  | mov (f : Fields)
  | movw (f : Fields)
  | rdsr (f : Fields)
  | wrsr (f : Fields)
  | setfmt (f : Fields)
  | setfmtRm (f : Fields)
  | getfmt (f : Fields)
  | nop (f : Fields)
  | bra (f : Fields)
  | brx (f : Fields)
  | call (f : Fields)
  | callx (f : Fields)
  | ret (f : Fields)
  | exit (f : Fields)
  | spawn (f : Fields)
  | yield (f : Fields)
  | brk (f : Fields)
  | trap (f : Fields)
  | ld (f : Fields)
  | st (f : Fields)
  | lds (f : Fields)
  | sts (f : Fields)
  | ldb (f : Fields)
  | stb (f : Fields)
  | ldc (f : Fields)
  | pref (f : Fields)
  | qwait (f : Fields)
  | atom (f : Fields)
  | atomf (f : Fields)
  | cas (f : Fields)
  | red (f : Fields)
  | atoms (f : Fields)
  | fence (f : Fields)
  | bar (f : Fields)
  | knotinit (f : Fields)
  | knotarr (f : Fields)
  | knotwait (f : Fields)
  | knotfree (f : Fields)
  | cwait (f : Fields)
  | flagsig (f : Fields)
  | flagwait (f : Fields)
  | copy (f : Fields)
  | copyg (f : Fields)
  | batch (f : Fields)
  | bwait (f : Fields)
  | kick (f : Fields)
  | setlay (f : Fields)
  | mma (f : Fields)
  | mmaw (f : Fields)
  | mld (f : Fields)
  | mst (f : Fields)
  | mzero (f : Fields)
  | mget (f : Fields)
  | mgetTry (f : Fields)
  | mrel (f : Fields)
  | lstat (f : Fields)
  | rld (f : Fields)
  | rst (f : Fields)
  | ratom (f : Fields)
  | rfence (f : Fields)
  | gld (f : Fields)
  | gst (f : Fields)
  | gdetach (f : Fields)
  | claim (f : Fields)
  | clwait (f : Fields)
  | clwaitTest (f : Fields)
  | announce (f : Fields)
  | wstart (f : Fields)
  | rdpr (f : Fields)
  | wrpr (f : Fields)
  | eret (f : Fields)
  | tinvPage (f : Fields)
  | tinvCtx (f : Fields)
  | tinvPart (f : Fields)
  | csave (f : Fields)
  | crest (f : Fields)
  | halt (f : Fields)
  | xmit (f : WFields)
  | store (f : WFields)
  | comb (f : WFields)
  | combf (f : WFields)
  | fwd (f : WFields)
  | waitf (f : WFields)
  | sigf (f : WFields)
  | loop (f : WFields)
  | winchBra (f : WFields)
  | brc (f : WFields)
  | addh (f : WFields)
  | subh (f : WFields)
  | movh (f : WFields)
  | lih (f : WFields)
  | cmph (f : WFields)
  | ldh (f : WFields)
  | setc (f : WFields)
  | yld (f : WFields)
  | winchHalt (f : WFields)
  | nopw (f : WFields)
  | merge (c k : Nat)
  | priorityBoost (c : Nat)
  | ordRelease (c k : Nat)
  | crewRetire (c : Nat)
  | spawnReport (launch from_ : Nat) (delta : Int) (gwct : Nat) (peers : List Nat)
  | launchComplete (launch : Nat)
  | loadReturn (c id : Nat)
  | storePerform (c id line : Nat)
  | storeAck (c id : Nat) (far : Option FarAck)
  | fenceComplete (c k : Nat)
  | leaseExpiry (core line : Nat)
  | exclusiveLeaseEnd (core line : Nat)
  | waitReread (c k : Nat)
  | engineTransfer (core op unit : Nat)
  | requestListElement (core op : Nat)
  | batchComplete (c : Nat)
  | matrixOpStart (team op : Nat)
  | matrixBlock (team op : Nat)
  | matrixOpRetire (team op : Nat)
  | remotePassArrive (p : PassIn)
  | windowPassArrive (p : PassIn)
  | passReply (pass : Nat) (refused data : List (Nat × Nat)) (bad : List Nat) (clock : Nat) (vc : Table Nat)
  | passCommit (from_ pass : Nat) (group : Option (Nat × Nat)) (before : List Nat)
  | passCancel (from_ pass : Nat)
  | passTimeout (pass : Nat)
  | orderedFlagRelease (from_ pass : Nat)
  | claimArrive (j : Nat) (r : ClaimIn)
  | announceAccept (j id : Nat)
  | claimDelivered (j id : Nat)
  | requesterExpiry (j entry req : Nat)
  | neverProduced (j : Nat) (name : TileName) (expiry : Nat) (ans : Option Requester)
  | stockpileExpiry (j tile : Nat)
  | winchForcedYield (w : Nat)
  | waitfReread (w c : Nat)
  | viFlr (vi : Nat)
  | abort (ctx crew : Nat)
  | faultRecordCommit (ctx : Nat)
  | faultRingRetry (ctx : Nat)
  | launch (p : LaunchPkt)
  | wset (p : WsetPkt)
  | copyPacket (p : CopyPkt)
  | copyPacketComplete (q n : Nat)
  | waitv (p : WaitvPkt)
  | waitvReread (q : Nat)
  | signal (p : SignalPkt)
  | signalComplete (q n : Nat)
  | fencePacket
  | replay
  | nopk
  | queueSchedule (slot q : Nat)
  | forcedUnmap (q : Nat)
  | eclassAging (q : Nat)
  | distributorPlace (part : Nat)
  | reserve (m : GangMsg)
  | held (gang from_ : Nat)
  | gangCommit (gang : Nat)
  | placed (gang from_ : Nat)
  | refusedMsg (gang from_ : Nat)
  | gangCancel (gang : Nat)
  | gangGo (gang : Nat)
  | gangSaved (gang from_ : Nat)
  | gangwaitExpiry (part gang : Nat)
  | drainExpiry (gang : Nat)
  | teamRestore (team : Nat)
  | colocationWindow (part : Nat)
  | pathsDownExpiry (peer : Nat)
  | replayTimeout (link : Nat)
  | flitForward (link : Nat) (x : FlitIn)
  | returnedFlit (link : Nat) (x : FlitIn)
  | laneHealthWindow (link : Nat)
  | install (vi : Nat)
  | load (vi : Nat)
  | unload (vi : Nat)
  | attest (vi : Nat)
  | tableWalk (unit ctx : Nat) (va : BitVec 64)
  | gangSave (gang : Nat)
  | holdReleaseNotice (gang : Nat) (from_ : NoticeFrom)
  | deliveryHandedOn (j entry : Nat)
  | gwctReached (c k : Nat)
  | tileArrive (j : Nat) (t : TileIn)
  | withdrawal (j : Nat) (name : TileName) (link : Nat)
  | claimRefusal (j : Nat) (name : TileName)
  | chunkArrive (w ch set cs : Nat) (data : List (BitVec 8))
  | creditReturn (link ch n : Nat)
  | wsetStartFlit (ctx set : Nat) (arg : BitVec 64) (from_ : Nat)
  | wsetDone (ctx set from_ : Nat)
  | wcLoad (w c : Nat)
  | wcRun (w c : Nat)
  | wcStep (w c : Nat)
  | wcStop (w c : Nat)
  | wcClear (w c : Nat)
  | partControlWrite (p : Nat) (value : BitVec 64)
  | ctxCreate (vi : Nat)
  | ctxRelease (vi ctx : Nat)
  | resume (ctx crew : Nat)
  | skip (ctx crew : Nat)
  | exitAction (ctx crew : Nat)
  | ctxWake (ctx : Nat)
  | uncorrectableError (site : ErrorSite)
  | qControlWrite (q : Nat) (mayVi : Bool) (value : BitVec 64)
  | qTailKick (q : Nat) (value : BitVec 64)
  | qResumeSkip (q : Nat)
  | qResumeRetry (q : Nat)
  | dvGo (part : Nat) (value : BitVec 64)
  | ftHoldoverExpiry
  | trReplay (ctx : Nat)
  | tagAddrWrite (ctx : Nat) (value : BitVec 64)
  | tagDataWrite (ctx : Nat) (value : BitVec 64)
  | ptFlush
  | flitReceive (link : Nat) (x : FlitIn)
  | nak (link seq : Nat)
  | lnkEnable (link : Nat) (on : Bool)
  | trainingComplete (link : Nat) (lanes : BitVec 16) (failed : Bool)
  | keySlotWrite (link slot : Nat) (tx : Bool) (value : BitVec 64)
  | txselWrite (link : Nat) (sel : Bool)
  | keydone (link slot : Nat)
  | ftControlFlit (link : Nat) (time : Nat) (offset : Int) (bound trip : Nat)
  | ftNowWrite (value : BitVec 64)
  | reset
  | fatalError (code : Nat)
  | pwrThrottle (now temp throt : Nat)
  | hostLinkDown
  | readClear (w : Writer) (addr : Nat)
  | systemRegisterWrite (w : Writer) (addr : Nat) (value : BitVec 64)
  | hostLinkRetrain
  | powerLoss
deriving DecidableEq, Repr

end Sys2Proof
end

