-- ==== Sys2Proof/Config.lean ====
section
/-! DEFINITION. What the manual leaves open: constants without a body, so that nothing can be proved of a value.
Every one is named in the assumption log (log 5). The first argument is the state's counter of free values
(`State.fresh`), so that two uses need not agree. -/

namespace Sys2Proof.Config

/-- A bit the manual leaves open: which of two allowed outcomes happens. -/
opaque freeBit : Nat → Bool
/-- A number the manual leaves open: which of several allowed outcomes happens. -/
opaque freeNat : Nat → Nat
/-- A value of `w` bits the manual leaves open. -/
opaque freeBits : (w : Nat) → Nat → BitVec w
/-- Bytes the manual leaves open. -/
opaque freeBytes : Nat → List (BitVec 8)

/-- The high and the low result of `mmaw` on a low tile that is infinite where no case of R95 applies: the bits of the high and the low
operand, and the block's products (sign and kind, significand, exponent); a result of its operands alone (R75). -/
opaque wideInf : Nat → Nat → List (Nat × Nat × Int) → BitVec 64

/-- The bytes of a section of a save image whose layout the manual does not give (R385, R386, R424): the section and its
fields in; the bytes out. -/
opaque packFields : Nat → List Nat → List (BitVec 8)
/-- The fields that such bytes stand for. -/
opaque unpackFields : Nat → List (BitVec 8) → List Nat

/-- The AES-256-GCM cipher of the links (R454): key, salt and number, associated data, text; the sealed text. -/
opaque gcmSeal : BitVec 256 → BitVec 96 → List (BitVec 8) → List (BitVec 8) → List (BitVec 8)
/-- The AES-256-GCM opening: none where the tag does not match (R454). -/
opaque gcmOpen : BitVec 256 → BitVec 96 → List (BitVec 8) → List (BitVec 8) → Option (List (BitVec 8))
/-- The private values of the module's two HSS keys (R473: 1 identity, 2 installation): the name of a tree, element `i` of one-time key `q` of
it, and the salt of that key's signature. -/
opaque hssName : Nat → Nat → BitVec 128
opaque hssSecret : Nat → Nat → Nat → Nat → BitVec 256
opaque hssSalt : Nat → Nat → Nat → BitVec 256
/-- Can a firmware image be read, the public key that comes with it, what is signed of it and the signature, its revision, its security
version, and the hashes of its parts (R471, R473, R476, R477). -/
opaque imageReadable : List (BitVec 8) → Bool
opaque imageKey : List (BitVec 8) → List (BitVec 8)
opaque imageSigned : List (BitVec 8) → List (BitVec 8)
opaque imageSignature : List (BitVec 8) → List (BitVec 8)
opaque imageRevision : List (BitVec 8) → BitVec 32
opaque imageVersion : List (BitVec 8) → BitVec 64
opaque imagePart : List (BitVec 8) → Nat → BitVec 256
/-- What the board controller did to its flash before a reset (R478): nothing, or it restored the previous image, or it wrote an update record
(the new image, the target of FUSE.SVN, and the firmware key's signature over that target). -/
opaque boardFlash : Nat → Option (Option (List (BitVec 8) × Nat × List (BitVec 8)))
/-- The translator of the installation service (R164, R165, R167, R481): portable text in; out a native image and, for each word of its
text, the number of the portable instruction that it comes from, or a refusal. -/
opaque translator : List (BitVec 8) → Option (NativeImage × List (Option Nat))
/-- The translator's own security version (R481). -/
opaque translatorVersion : Nat
/-- What the loader binds to an external function (R227, R444): context and binding record in; entry address and frame size out. -/
opaque binding : Nat → List (BitVec 8) → Option (BitVec 64 × Nat)
/-- What the payload of a flit asks of the module's units, by its type and FL.INFO (R453, R454). -/
opaque flitEvent : Nat → Nat → List (BitVec 8) → Option Instr
/-- The FEC decoder of a link (R453): the received symbols; none where they cannot be corrected. -/
opaque fecDecode : List (BitVec 8) → Option (List (BitVec 8))

/-- The FEC parity bytes of a flit's first 244 bytes (R453). -/
opaque fecParity : List (BitVec 8) → List (BitVec 8)

end Sys2Proof.Config
end

