-- ==== Sys2Proof/Machine/Mnemonics.lean ====
section
/-! DEFINITION. The encoding tables of the crew instructions (R149, R174, R182, R186, R193, R194, R201, R210, R224, R235,
R242, R248, R263, R279, R293, R374), one row per mnemonic of spec/opcode_table.json, with the latency class of R152. -/

namespace Sys2Proof.Machine

/-- The crew mnemonics: the rows of spec/opcode_table.json that are a 96-bit word. -/
inductive Mn where
  | iadd | isub | imul | imulhi | imad | imin | imax | iabs | ineg | and | or | xor | not | shl | shr | sar | rot
  | popc | clz | brev | bfx | bfi | lea | icmp | sel | pand | por | pxor | pnot | pmov | fadd | fsub | fmul | fma
  | fmin | fmax | fcmp | fdiv | fsqrt | frcp | frsq | fexp2 | flog2 | fsin | fcos | frnd | fclass | dadd | dsub
  | dmul | dfma | dmin | dmax | dcmp | ddiv | dsqrt | cvt | pack2 | unpack2 | bfpack | bfunpack | bfexp | shfl
  | vote | bcast | redux | scan | matchv | mov | movw | rdsr | wrsr | setfmt | setfmtRm | getfmt | nop | bra | brx
  | call | callx | ret | exit | spawn | yield | brk | trap | ld | st | lds | sts | ldb | stb | ldc | pref | qwait
  | atom | atomf | cas | red | atoms | fence | bar | knotinit | knotarr | knotwait | knotfree | cwait | flagsig
  | flagwait | copy | copyg | batch | bwait | kick | setlay | mma | mmaw | mld | mst | mzero | mget | mgetTry | mrel
  | lstat | rld | rst | ratom | rfence | gld | gst | gdetach | claim | clwait | clwaitTest | announce | wstart
  | rdpr | wrpr | eret | tinvPage | tinvCtx | tinvPart | csave | crest | halt
deriving DecidableEq, Repr

/-- The latency classes of R152. -/
inductive Latency where
  | short | long | decoupled | closing
deriving DecidableEq, Repr

/-- A row of the encoding tables with the columns of R169; `types` lists TYPE codes, `vars` VAR values, `fBit` says that
F has a meaning, `extMask` the EXT bits defined, `hasScope` that EXT[2:0] is a scope (R146). -/
structure OpRow where
  opc     : Nat
  types   : List Ty
  vars    : List Nat
  fBit    : Bool
  extMask : Nat
  hasScope : Bool
  d       : List Cls
  a       : List Cls
  b       : List Cls
  modA    : Bool
  modB    : Bool
  lat     : Latency
deriving DecidableEq, Repr

/-- The row of a mnemonic. -/
def Mn.row : Mn → OpRow
  | .iadd => ⟨0x1, [.s8, .s16, .s32, .s64, .n8, .n16, .n32, .n64], [], true, 0, false, [.v, .s], [.v, .s], [.v, .s, .i], true, true, .short⟩
  | .isub => ⟨0x2, [.s8, .s16, .s32, .s64, .n8, .n16, .n32, .n64], [], true, 0, false, [.v, .s], [.v, .s], [.v, .s, .i], true, true, .short⟩
  | .imul => ⟨0x3, [.s8, .s16, .s32, .s64, .n8, .n16, .n32, .n64], [], true, 0, false, [.v, .s], [.v, .s], [.v, .s, .i], true, true, .long⟩
  | .imulhi => ⟨0x4, [.s8, .s16, .s32, .s64, .n8, .n16, .n32, .n64], [], false, 0, false, [.v, .s], [.v, .s], [.v, .s, .i], true, true, .long⟩
  | .imad => ⟨0x5, [.s8, .s16, .s32, .s64, .n8, .n16, .n32, .n64], [], true, 0, false, [.v, .s], [.v, .s], [.v, .s, .i], true, true, .long⟩
  | .imin => ⟨0x6, [.s8, .s16, .s32, .s64, .n8, .n16, .n32, .n64], [], false, 0, false, [.v, .s], [.v, .s], [.v, .s, .i], true, true, .short⟩
  | .imax => ⟨0x7, [.s8, .s16, .s32, .s64, .n8, .n16, .n32, .n64], [], false, 0, false, [.v, .s], [.v, .s], [.v, .s, .i], true, true, .short⟩
  | .iabs => ⟨0x8, [.s8, .s16, .s32, .s64], [], true, 0, false, [.v, .s], [.v, .s, .i], [.none], true, false, .short⟩
  | .ineg => ⟨0x9, [.s8, .s16, .s32, .s64], [], true, 0, false, [.v, .s], [.v, .s, .i], [.none], true, false, .short⟩
  | .and => ⟨0xa, [.b8, .b16, .b32, .b64, .b128], [], false, 0, false, [.v, .s], [.v, .s], [.v, .s, .i], false, false, .short⟩
  | .or => ⟨0xb, [.b8, .b16, .b32, .b64, .b128], [], false, 0, false, [.v, .s], [.v, .s], [.v, .s, .i], false, false, .short⟩
  | .xor => ⟨0xc, [.b8, .b16, .b32, .b64, .b128], [], false, 0, false, [.v, .s], [.v, .s], [.v, .s, .i], false, false, .short⟩
  | .not => ⟨0xd, [.b8, .b16, .b32, .b64, .b128], [], false, 0, false, [.v, .s], [.v, .s, .i], [.none], false, false, .short⟩
  | .shl => ⟨0xe, [.b8, .b16, .b32, .b64], [], false, 0, false, [.v, .s], [.v, .s], [.v, .s, .i], false, false, .short⟩
  | .shr => ⟨0xf, [.b8, .b16, .b32, .b64], [], false, 0, false, [.v, .s], [.v, .s], [.v, .s, .i], false, false, .short⟩
  | .sar => ⟨0x10, [.s8, .s16, .s32, .s64], [], false, 0, false, [.v, .s], [.v, .s], [.v, .s, .i], false, false, .short⟩
  | .rot => ⟨0x11, [.b32, .b64], [], true, 0, false, [.v, .s], [.v, .s], [.v, .s, .i], false, false, .short⟩
  | .popc => ⟨0x12, [.b32, .b64], [], false, 0, false, [.v, .s], [.v, .s], [.none], false, false, .short⟩
  | .clz => ⟨0x13, [.b32, .b64], [], false, 0, false, [.v, .s], [.v, .s], [.none], false, false, .short⟩
  | .brev => ⟨0x14, [.b32, .b64], [], false, 0, false, [.v, .s], [.v, .s], [.none], false, false, .short⟩
  | .bfx => ⟨0x15, [.s32, .n32, .s64, .n64], [], false, 0, false, [.v, .s], [.v, .s], [.v, .s, .i], true, false, .short⟩
  | .bfi => ⟨0x16, [.b32, .b64], [], false, 0, false, [.v, .s], [.v, .s, .i], [.v, .s, .i], false, false, .short⟩
  | .lea => ⟨0x17, [.n32, .n64], [], true, 31, false, [.v, .s], [.v, .s], [.v, .s, .i], false, false, .short⟩
  | .icmp => ⟨0x41, [.s8, .s16, .s32, .s64, .n8, .n16, .n32, .n64, .b32, .b64], [], false, 7, false, [.p], [.v, .s], [.v, .s, .i], true, true, .short⟩
  | .sel => ⟨0x42, [.b32, .b64], [], false, 15, false, [.v], [.v, .s, .i], [.v, .s, .i], false, false, .short⟩
  | .pand => ⟨0x43, [], [0], false, 0, false, [.p], [.p], [.p], false, false, .short⟩
  | .por => ⟨0x44, [], [0], false, 0, false, [.p], [.p], [.p], false, false, .short⟩
  | .pxor => ⟨0x45, [], [0], false, 0, false, [.p], [.p], [.p], false, false, .short⟩
  | .pnot => ⟨0x46, [], [0], false, 0, false, [.p], [.p], [.none], false, false, .short⟩
  | .pmov => ⟨0x47, [], [0], false, 0, false, [.p], [.p, .s, .i], [.none], false, false, .short⟩
  | .fadd => ⟨0x81, [.f32, .f16, .bf16], [], false, 0, false, [.v], [.v, .s], [.v, .s, .i], true, true, .long⟩
  | .fsub => ⟨0x82, [.f32, .f16, .bf16], [], false, 0, false, [.v], [.v, .s], [.v, .s, .i], true, true, .long⟩
  | .fmul => ⟨0x83, [.f32, .f16, .bf16], [], false, 0, false, [.v], [.v, .s], [.v, .s, .i], true, true, .long⟩
  | .fma => ⟨0x84, [.f32, .f16, .bf16], [], false, 0, false, [.v], [.v, .s], [.v, .s, .i], true, true, .long⟩
  | .fmin => ⟨0x85, [.f32, .f16, .bf16], [], false, 0, false, [.v], [.v, .s], [.v, .s, .i], true, true, .long⟩
  | .fmax => ⟨0x86, [.f32, .f16, .bf16], [], false, 0, false, [.v], [.v, .s], [.v, .s, .i], true, true, .long⟩
  | .fcmp => ⟨0x87, [.f32, .f16, .bf16], [], false, 15, false, [.p], [.v, .s], [.v, .s, .i], true, true, .long⟩
  | .fdiv => ⟨0x88, [.f32, .f16, .bf16], [], false, 0, false, [.v], [.v, .s], [.v, .s, .i], true, true, .long⟩
  | .fsqrt => ⟨0x89, [.f32, .f16, .bf16], [], false, 0, false, [.v], [.v, .s], [.none], true, false, .long⟩
  | .frcp => ⟨0x8a, [.f32, .f16, .bf16], [], false, 0, false, [.v], [.v, .s], [.none], true, false, .long⟩
  | .frsq => ⟨0x8b, [.f32, .f16, .bf16], [], false, 0, false, [.v], [.v, .s], [.none], true, false, .long⟩
  | .fexp2 => ⟨0x8c, [.f32, .f16, .bf16], [], false, 0, false, [.v], [.v, .s], [.none], true, false, .long⟩
  | .flog2 => ⟨0x8d, [.f32, .f16, .bf16], [], false, 0, false, [.v], [.v, .s], [.none], true, false, .long⟩
  | .fsin => ⟨0x8e, [.f32, .f16, .bf16], [], false, 0, false, [.v], [.v, .s], [.none], true, false, .long⟩
  | .fcos => ⟨0x8f, [.f32, .f16, .bf16], [], false, 0, false, [.v], [.v, .s], [.none], true, false, .long⟩
  | .frnd => ⟨0x90, [.f32, .f16, .bf16], [], false, 7, false, [.v], [.v, .s], [.none], true, false, .long⟩
  | .fclass => ⟨0x91, [.f32, .f16, .bf16], [], false, 0, false, [.v], [.v, .s], [.none], true, false, .long⟩
  | .dadd => ⟨0xc1, [.f64], [], false, 0, false, [.v], [.v, .s], [.v, .s, .i], true, true, .long⟩
  | .dsub => ⟨0xc2, [.f64], [], false, 0, false, [.v], [.v, .s], [.v, .s, .i], true, true, .long⟩
  | .dmul => ⟨0xc3, [.f64], [], false, 0, false, [.v], [.v, .s], [.v, .s, .i], true, true, .long⟩
  | .dfma => ⟨0xc4, [.f64], [], false, 0, false, [.v], [.v, .s], [.v, .s, .i], true, true, .long⟩
  | .dmin => ⟨0xc5, [.f64], [], false, 0, false, [.v], [.v, .s], [.v, .s, .i], true, true, .long⟩
  | .dmax => ⟨0xc6, [.f64], [], false, 0, false, [.v], [.v, .s], [.v, .s, .i], true, true, .long⟩
  | .dcmp => ⟨0xc7, [.f64], [], false, 7, false, [.p], [.v, .s], [.v, .s, .i], true, true, .long⟩
  | .ddiv => ⟨0xc8, [.f64], [], false, 0, false, [.v], [.v, .s], [.v, .s, .i], true, true, .long⟩
  | .dsqrt => ⟨0xc9, [.f64], [], false, 0, false, [.v], [.v, .s], [.none], true, false, .long⟩
  | .cvt => ⟨0x101, [.s8, .s16, .s32, .s64, .n8, .n16, .n32, .n64, .f16, .bf16, .f32, .f64], [], true, 31, false, [.v], [.v, .s], [.none, .i], true, false, .long⟩
  | .pack2 => ⟨0x102, [.b16, .f16, .bf16, .s16, .n16], [], true, 0, false, [.v], [.v, .s, .i], [.v, .s, .i], false, false, .long⟩
  | .unpack2 => ⟨0x103, [.b16, .s16, .f16, .bf16], [], false, 0, false, [.v], [.v, .s], [.none], false, false, .long⟩
  | .bfpack => ⟨0x104, [.f32], [], true, 0, false, [.v], [.v], [.s, .none], false, false, .long⟩
  | .bfunpack => ⟨0x105, [.f32], [], true, 0, false, [.v], [.v], [.v, .s], false, false, .long⟩
  | .bfexp => ⟨0x106, [.f32], [], false, 0, false, [.v, .s], [.v], [.none], false, false, .long⟩
  | .shfl => ⟨0x141, [.b32, .b64], [], false, 31, false, [.v], [.v], [.v, .s, .i], false, false, .long⟩
  | .vote => ⟨0x142, [], [0, 1, 2, 3], false, 0, false, [.p, .v, .s], [.p], [.none], false, false, .long⟩
  | .bcast => ⟨0x143, [.b32, .b64], [], false, 0, false, [.v, .s], [.v], [.s, .i], false, false, .long⟩
  | .redux => ⟨0x144, [.s32, .n32, .s64, .n64, .b32, .b64, .f16, .bf16, .f32, .f64], [], true, 7, false, [.v, .s], [.v], [.none], true, false, .long⟩
  | .scan => ⟨0x145, [.s32, .n32, .s64, .n64, .b32, .b64, .f16, .bf16, .f32, .f64], [], true, 15, false, [.v], [.v], [.none], true, false, .long⟩
  | .matchv => ⟨0x146, [.b32, .b64], [], true, 0, false, [.v, .p, .s], [.v], [.none], false, false, .long⟩
  | .mov => ⟨0x181, [.b32, .b64, .b128], [], false, 0, false, [.v, .s], [.v, .s, .i, .w], [.none], false, false, .short⟩
  | .movw => ⟨0x182, [.b64], [], true, 0, false, [.v, .s], [.i, .w], [.none], false, false, .short⟩
  | .rdsr => ⟨0x183, [], [0], false, 0, false, [.v, .s], [.x], [.none], false, false, .short⟩
  | .wrsr => ⟨0x184, [], [0], false, 0, false, [.x], [.s], [.i], false, false, .short⟩
  | .setfmt => ⟨0x185, [], [0], false, 0, false, [.none], [.s, .i, .w], [.none], false, false, .short⟩
  | .setfmtRm => ⟨0x185, [], [1], false, 0, false, [.none], [.s, .i, .w], [.none], false, false, .short⟩
  | .getfmt => ⟨0x186, [], [0], false, 0, false, [.v, .s], [.none], [.none], false, false, .short⟩
  | .nop => ⟨0x187, [], [0], false, 0, false, [.none], [.none], [.none], false, false, .short⟩
  | .bra => ⟨0x1c1, [], [0], false, 0, false, [.i, .none], [.i, .w], [.none], false, false, .closing⟩
  | .brx => ⟨0x1c2, [], [0], false, 0, false, [.i], [.v, .s], [.none], false, false, .closing⟩
  | .call => ⟨0x1c3, [], [0], false, 0, false, [.none], [.i, .w], [.none], false, false, .closing⟩
  | .callx => ⟨0x1c4, [], [0], false, 0, false, [.none], [.v, .s], [.none], false, false, .closing⟩
  | .ret => ⟨0x1c5, [], [0], false, 0, false, [.none], [.none], [.none], false, false, .closing⟩
  | .exit => ⟨0x1c6, [], [0], false, 0, false, [.none], [.none], [.none], false, false, .closing⟩
  | .spawn => ⟨0x1c7, [], [0], false, 0, false, [.s], [.s], [.none], false, false, .closing⟩
  | .yield => ⟨0x1c8, [], [0], false, 0, false, [.none], [.none], [.none], false, false, .closing⟩
  | .brk => ⟨0x1c9, [], [0], false, 0, false, [.none], [.i], [.none], false, false, .closing⟩
  | .trap => ⟨0x1ca, [], [0], false, 0, false, [.none], [.i], [.none], false, false, .closing⟩
  | .ld => ⟨0x201, [.b8, .b16, .b32, .b64, .b128, .s8, .s16, .n8, .n16], [], false, 7, true, [.v, .s], [.v, .s], [.v, .s, .i, .none], false, false, .decoupled⟩
  | .st => ⟨0x202, [.b8, .b16, .b32, .b64, .b128], [], false, 15, true, [.v, .s, .i], [.v, .s], [.v, .s, .i, .none], false, false, .decoupled⟩
  | .lds => ⟨0x203, [.b8, .b16, .b32, .b64, .b128, .s8, .s16, .n8, .n16], [], false, 0, false, [.v], [.v, .s, .i], [.v, .s, .i, .none], false, false, .long⟩
  | .sts => ⟨0x204, [.b8, .b16, .b32, .b64, .b128], [], false, 0, false, [.v, .s, .i], [.v, .s, .i], [.v, .s, .i, .none], false, false, .long⟩
  | .ldb => ⟨0x205, [.b8, .b16, .b32, .b64, .b128, .s8, .s16, .n8, .n16], [], false, 7, true, [.v], [.s], [.v, .s, .i], false, false, .decoupled⟩
  | .stb => ⟨0x206, [.b8, .b16, .b32, .b64, .b128], [], false, 15, true, [.v, .s, .i], [.s], [.v, .s, .i], false, false, .decoupled⟩
  | .ldc => ⟨0x207, [.b8, .b16, .b32, .b64, .b128, .s8, .s16, .n8, .n16], [], false, 0, false, [.v, .s], [.v, .s, .i], [.i, .none], false, false, .decoupled⟩
  | .pref => ⟨0x208, [], [0], false, 3, false, [.none], [.v, .s], [.v, .s, .i, .none], false, false, .decoupled⟩
  | .qwait => ⟨0x209, [], [0], false, 0, false, [.none], [.i], [.none], false, false, .closing⟩
  | .atom => ⟨0x241, [.s32, .n32, .s64, .n64, .b32, .b64], [], true, 31, true, [.v, .s, .none], [.v, .s], [.v, .s, .i], false, false, .decoupled⟩
  | .atomf => ⟨0x242, [.f32, .f64, .f16, .bf16], [], true, 31, true, [.v, .s], [.v, .s], [.v, .s, .i], false, false, .decoupled⟩
  | .cas => ⟨0x243, [.b32, .b64, .b128], [], true, 7, true, [.v, .s], [.v, .s], [.v, .s, .i], false, false, .decoupled⟩
  | .red => ⟨0x244, [.s32, .n32, .s64, .n64, .b32, .b64, .f32, .f64, .f16, .bf16], [], true, 31, true, [.none], [.v, .s], [.v, .s, .i], false, false, .decoupled⟩
  | .atoms => ⟨0x245, [.s32, .n32, .s64, .n64, .b32, .b64], [], false, 7, false, [.v, .s, .none], [.v, .s, .i], [.v, .s, .i], false, false, .long⟩
  | .fence => ⟨0x281, [], [0], false, 7, true, [.none], [.none], [.none], false, false, .closing⟩
  | .bar => ⟨0x282, [], [0], false, 0, false, [.none], [.s, .i], [.s, .none], false, false, .closing⟩
  | .knotinit => ⟨0x283, [], [0], false, 0, false, [.none], [.s, .i], [.s, .i], false, false, .closing⟩
  | .knotarr => ⟨0x284, [], [0], false, 0, false, [.s, .i, .none], [.s, .i], [.s, .none], false, false, .closing⟩
  | .knotwait => ⟨0x285, [], [0], false, 0, false, [.s, .i], [.s, .i], [.s, .none], false, false, .closing⟩
  | .knotfree => ⟨0x286, [], [0], false, 0, false, [.none], [.s, .i], [.none], false, false, .closing⟩
  | .cwait => ⟨0x287, [], [0], false, 15, true, [.none], [.s, .i], [.s, .i], false, false, .closing⟩
  | .flagsig => ⟨0x288, [], [0], false, 15, true, [.none], [.s], [.s, .i], false, false, .closing⟩
  | .flagwait => ⟨0x289, [], [0], false, 31, true, [.none], [.s], [.s, .i], false, false, .closing⟩
  | .copy => ⟨0x2c1, [], [0], false, 3, false, [.s, .i], [.s, .i], [.s, .i], false, false, .closing⟩
  | .copyg => ⟨0x2c2, [], [2, 3, 4, 5, 6, 7, 8, 9, 10, 11, 12], false, 3, false, [.s, .i], [.s, .i], [.v], false, false, .closing⟩
  | .batch => ⟨0x2c3, [], [0], false, 0, false, [.s, .none], [.none], [.none], false, false, .closing⟩
  | .bwait => ⟨0x2c4, [], [0], false, 0, false, [.none], [.s, .i], [.none], false, false, .closing⟩
  | .kick => ⟨0x2c5, [], [0], false, 0, false, [.none], [.s, .i], [.none], false, false, .closing⟩
  | .setlay => ⟨0x301, [], [0], false, 0, false, [.x], [.s], [.none], false, false, .long⟩
  | .mma => ⟨0x302, [.f16, .bf16, .bfp2, .bfp3, .bfp4, .bfp5, .bfp6, .bfp7, .bfp8], [], true, 1, false, [.m], [.v], [.x], false, false, .long⟩
  | .mmaw => ⟨0x303, [.f16, .bf16, .bfp2, .bfp3, .bfp4, .bfp5, .bfp6, .bfp7, .bfp8], [], true, 1, false, [.m], [.v], [.x], false, false, .long⟩
  | .mld => ⟨0x304, [], [0, 1, 2], false, 0, false, [.m], [.s, .i], [.s, .i], false, false, .long⟩
  | .mst => ⟨0x305, [], [0, 1, 2], false, 0, false, [.m], [.s, .i], [.s, .i], false, false, .long⟩
  | .mzero => ⟨0x306, [], [0, 1, 2], false, 0, false, [.m], [.none], [.none], false, false, .long⟩
  | .mget => ⟨0x307, [], [0], false, 0, false, [.s, .none], [.s, .i], [.none], false, false, .closing⟩
  | .mgetTry => ⟨0x307, [], [1], false, 0, false, [.s, .none], [.s, .i], [.none], false, false, .closing⟩
  | .mrel => ⟨0x308, [], [0], false, 0, false, [.none], [.s, .i], [.none], false, false, .long⟩
  | .lstat => ⟨0x309, [], [0], false, 0, false, [.s], [.x], [.none], false, false, .long⟩
  | .rld => ⟨0x341, [.b8, .b16, .b32, .b64, .b128, .s8, .s16, .n8, .n16], [], false, 7, true, [.v, .s], [.v, .s], [.v, .s], false, false, .decoupled⟩
  | .rst => ⟨0x342, [.b8, .b16, .b32, .b64, .b128], [], false, 15, true, [.v, .s, .i], [.v, .s], [.v, .s], false, false, .decoupled⟩
  | .ratom => ⟨0x343, [.s32, .n32, .s64, .n64, .b32, .b64, .f32, .f64, .f16, .bf16], [], true, 31, true, [.v, .s, .i], [.v, .s], [.v, .s], false, false, .decoupled⟩
  | .rfence => ⟨0x344, [], [0], false, 0, false, [.none], [.s, .i, .none], [.none], false, false, .closing⟩
  | .gld => ⟨0x345, [.b8, .b16, .b32, .b64, .b128, .s8, .s16, .n8, .n16], [], false, 7, true, [.v, .s], [.v, .s, .i], [.v, .s, .i], false, false, .decoupled⟩
  | .gst => ⟨0x346, [.b8, .b16, .b32, .b64, .b128], [], false, 7, true, [.v, .s, .i], [.v, .s, .i], [.v, .s, .i], false, false, .decoupled⟩
  | .gdetach => ⟨0x347, [], [0], false, 0, false, [.none], [.none], [.none], false, false, .closing⟩
  | .claim => ⟨0x348, [], [0], false, 1, false, [.s], [.s], [.s], false, false, .closing⟩
  | .clwait => ⟨0x349, [], [0], false, 0, false, [.s, .none], [.s], [.none], false, false, .closing⟩
  | .clwaitTest => ⟨0x349, [], [1], false, 0, false, [.s, .none], [.s], [.none], false, false, .closing⟩
  | .announce => ⟨0x34a, [], [0], false, 1, false, [.none], [.s], [.s], false, false, .closing⟩
  | .wstart => ⟨0x34b, [], [0], false, 0, false, [.s, .none], [.s, .i], [.s, .i, .none], false, false, .closing⟩
  | .rdpr => ⟨0x381, [], [0], false, 0, false, [.s], [.s, .w], [.none], false, false, .closing⟩
  | .wrpr => ⟨0x382, [], [0], false, 0, false, [.s], [.s, .w], [.none], false, false, .closing⟩
  | .eret => ⟨0x383, [], [0], false, 0, false, [.s, .none], [.s], [.i], false, false, .closing⟩
  | .tinvPage => ⟨0x384, [], [0], false, 0, false, [.none], [.s], [.s], false, false, .closing⟩
  | .tinvCtx => ⟨0x384, [], [1], false, 0, false, [.none], [.none], [.s], false, false, .closing⟩
  | .tinvPart => ⟨0x384, [], [2], false, 0, false, [.none], [.none], [.none], false, false, .closing⟩
  | .csave => ⟨0x385, [], [0], false, 0, false, [.s, .none], [.s], [.s], false, false, .closing⟩
  | .crest => ⟨0x386, [], [0], false, 0, false, [.s, .none], [.s], [.s], false, false, .closing⟩
  | .halt => ⟨0x387, [], [0], false, 0, false, [.none], [.none], [.none], false, false, .closing⟩

/-- The mnemonic of an OPC value and the VAR field (R149): the rows that share an OPC differ in VAR. -/
def Mn.ofOpc (opc var : Nat) : Option Mn :=
  match opc with
  | 0x1 => some .iadd
  | 0x2 => some .isub
  | 0x3 => some .imul
  | 0x4 => some .imulhi
  | 0x5 => some .imad
  | 0x6 => some .imin
  | 0x7 => some .imax
  | 0x8 => some .iabs
  | 0x9 => some .ineg
  | 0xa => some .and
  | 0xb => some .or
  | 0xc => some .xor
  | 0xd => some .not
  | 0xe => some .shl
  | 0xf => some .shr
  | 0x10 => some .sar
  | 0x11 => some .rot
  | 0x12 => some .popc
  | 0x13 => some .clz
  | 0x14 => some .brev
  | 0x15 => some .bfx
  | 0x16 => some .bfi
  | 0x17 => some .lea
  | 0x41 => some .icmp
  | 0x42 => some .sel
  | 0x43 => some .pand
  | 0x44 => some .por
  | 0x45 => some .pxor
  | 0x46 => some .pnot
  | 0x47 => some .pmov
  | 0x81 => some .fadd
  | 0x82 => some .fsub
  | 0x83 => some .fmul
  | 0x84 => some .fma
  | 0x85 => some .fmin
  | 0x86 => some .fmax
  | 0x87 => some .fcmp
  | 0x88 => some .fdiv
  | 0x89 => some .fsqrt
  | 0x8a => some .frcp
  | 0x8b => some .frsq
  | 0x8c => some .fexp2
  | 0x8d => some .flog2
  | 0x8e => some .fsin
  | 0x8f => some .fcos
  | 0x90 => some .frnd
  | 0x91 => some .fclass
  | 0xc1 => some .dadd
  | 0xc2 => some .dsub
  | 0xc3 => some .dmul
  | 0xc4 => some .dfma
  | 0xc5 => some .dmin
  | 0xc6 => some .dmax
  | 0xc7 => some .dcmp
  | 0xc8 => some .ddiv
  | 0xc9 => some .dsqrt
  | 0x101 => some .cvt
  | 0x102 => some .pack2
  | 0x103 => some .unpack2
  | 0x104 => some .bfpack
  | 0x105 => some .bfunpack
  | 0x106 => some .bfexp
  | 0x141 => some .shfl
  | 0x142 => some .vote
  | 0x143 => some .bcast
  | 0x144 => some .redux
  | 0x145 => some .scan
  | 0x146 => some .matchv
  | 0x181 => some .mov
  | 0x182 => some .movw
  | 0x183 => some .rdsr
  | 0x184 => some .wrsr
  | 0x185 => some (if var = 1 then .setfmtRm else .setfmt)
  | 0x186 => some .getfmt
  | 0x187 => some .nop
  | 0x1c1 => some .bra
  | 0x1c2 => some .brx
  | 0x1c3 => some .call
  | 0x1c4 => some .callx
  | 0x1c5 => some .ret
  | 0x1c6 => some .exit
  | 0x1c7 => some .spawn
  | 0x1c8 => some .yield
  | 0x1c9 => some .brk
  | 0x1ca => some .trap
  | 0x201 => some .ld
  | 0x202 => some .st
  | 0x203 => some .lds
  | 0x204 => some .sts
  | 0x205 => some .ldb
  | 0x206 => some .stb
  | 0x207 => some .ldc
  | 0x208 => some .pref
  | 0x209 => some .qwait
  | 0x241 => some .atom
  | 0x242 => some .atomf
  | 0x243 => some .cas
  | 0x244 => some .red
  | 0x245 => some .atoms
  | 0x281 => some .fence
  | 0x282 => some .bar
  | 0x283 => some .knotinit
  | 0x284 => some .knotarr
  | 0x285 => some .knotwait
  | 0x286 => some .knotfree
  | 0x287 => some .cwait
  | 0x288 => some .flagsig
  | 0x289 => some .flagwait
  | 0x2c1 => some .copy
  | 0x2c2 => some .copyg
  | 0x2c3 => some .batch
  | 0x2c4 => some .bwait
  | 0x2c5 => some .kick
  | 0x301 => some .setlay
  | 0x302 => some .mma
  | 0x303 => some .mmaw
  | 0x304 => some .mld
  | 0x305 => some .mst
  | 0x306 => some .mzero
  | 0x307 => some (if var = 1 then .mgetTry else .mget)
  | 0x308 => some .mrel
  | 0x309 => some .lstat
  | 0x341 => some .rld
  | 0x342 => some .rst
  | 0x343 => some .ratom
  | 0x344 => some .rfence
  | 0x345 => some .gld
  | 0x346 => some .gst
  | 0x347 => some .gdetach
  | 0x348 => some .claim
  | 0x349 => some (if var = 1 then .clwaitTest else .clwait)
  | 0x34a => some .announce
  | 0x34b => some .wstart
  | 0x381 => some .rdpr
  | 0x382 => some .wrpr
  | 0x383 => some .eret
  | 0x384 => some (if var = 1 then .tinvCtx else if var = 2 then .tinvPart else .tinvPage)
  | 0x385 => some .csave
  | 0x386 => some .crest
  | 0x387 => some .halt
  | _ => none

/-- The instruction of a mnemonic and its fields. -/
def Mn.instr (m : Mn) (f : Fields) : Instr :=
  match m with
  | .iadd => .iadd f
  | .isub => .isub f
  | .imul => .imul f
  | .imulhi => .imulhi f
  | .imad => .imad f
  | .imin => .imin f
  | .imax => .imax f
  | .iabs => .iabs f
  | .ineg => .ineg f
  | .and => .and f
  | .or => .or f
  | .xor => .xor f
  | .not => .not f
  | .shl => .shl f
  | .shr => .shr f
  | .sar => .sar f
  | .rot => .rot f
  | .popc => .popc f
  | .clz => .clz f
  | .brev => .brev f
  | .bfx => .bfx f
  | .bfi => .bfi f
  | .lea => .lea f
  | .icmp => .icmp f
  | .sel => .sel f
  | .pand => .pand f
  | .por => .por f
  | .pxor => .pxor f
  | .pnot => .pnot f
  | .pmov => .pmov f
  | .fadd => .fadd f
  | .fsub => .fsub f
  | .fmul => .fmul f
  | .fma => .fma f
  | .fmin => .fmin f
  | .fmax => .fmax f
  | .fcmp => .fcmp f
  | .fdiv => .fdiv f
  | .fsqrt => .fsqrt f
  | .frcp => .frcp f
  | .frsq => .frsq f
  | .fexp2 => .fexp2 f
  | .flog2 => .flog2 f
  | .fsin => .fsin f
  | .fcos => .fcos f
  | .frnd => .frnd f
  | .fclass => .fclass f
  | .dadd => .dadd f
  | .dsub => .dsub f
  | .dmul => .dmul f
  | .dfma => .dfma f
  | .dmin => .dmin f
  | .dmax => .dmax f
  | .dcmp => .dcmp f
  | .ddiv => .ddiv f
  | .dsqrt => .dsqrt f
  | .cvt => .cvt f
  | .pack2 => .pack2 f
  | .unpack2 => .unpack2 f
  | .bfpack => .bfpack f
  | .bfunpack => .bfunpack f
  | .bfexp => .bfexp f
  | .shfl => .shfl f
  | .vote => .vote f
  | .bcast => .bcast f
  | .redux => .redux f
  | .scan => .scan f
  | .matchv => .matchv f
  | .mov => .mov f
  | .movw => .movw f
  | .rdsr => .rdsr f
  | .wrsr => .wrsr f
  | .setfmt => .setfmt f
  | .setfmtRm => .setfmtRm f
  | .getfmt => .getfmt f
  | .nop => .nop f
  | .bra => .bra f
  | .brx => .brx f
  | .call => .call f
  | .callx => .callx f
  | .ret => .ret f
  | .exit => .exit f
  | .spawn => .spawn f
  | .yield => .yield f
  | .brk => .brk f
  | .trap => .trap f
  | .ld => .ld f
  | .st => .st f
  | .lds => .lds f
  | .sts => .sts f
  | .ldb => .ldb f
  | .stb => .stb f
  | .ldc => .ldc f
  | .pref => .pref f
  | .qwait => .qwait f
  | .atom => .atom f
  | .atomf => .atomf f
  | .cas => .cas f
  | .red => .red f
  | .atoms => .atoms f
  | .fence => .fence f
  | .bar => .bar f
  | .knotinit => .knotinit f
  | .knotarr => .knotarr f
  | .knotwait => .knotwait f
  | .knotfree => .knotfree f
  | .cwait => .cwait f
  | .flagsig => .flagsig f
  | .flagwait => .flagwait f
  | .copy => .copy f
  | .copyg => .copyg f
  | .batch => .batch f
  | .bwait => .bwait f
  | .kick => .kick f
  | .setlay => .setlay f
  | .mma => .mma f
  | .mmaw => .mmaw f
  | .mld => .mld f
  | .mst => .mst f
  | .mzero => .mzero f
  | .mget => .mget f
  | .mgetTry => .mgetTry f
  | .mrel => .mrel f
  | .lstat => .lstat f
  | .rld => .rld f
  | .rst => .rst f
  | .ratom => .ratom f
  | .rfence => .rfence f
  | .gld => .gld f
  | .gst => .gst f
  | .gdetach => .gdetach f
  | .claim => .claim f
  | .clwait => .clwait f
  | .clwaitTest => .clwaitTest f
  | .announce => .announce f
  | .wstart => .wstart f
  | .rdpr => .rdpr f
  | .wrpr => .wrpr f
  | .eret => .eret f
  | .tinvPage => .tinvPage f
  | .tinvCtx => .tinvCtx f
  | .tinvPart => .tinvPart f
  | .csave => .csave f
  | .crest => .crest f
  | .halt => .halt f

/-- The mnemonic and fields of a crew instruction. -/
def crewParts : Instr → Option (Mn × Fields)
  | .iadd f => some (.iadd, f)
  | .isub f => some (.isub, f)
  | .imul f => some (.imul, f)
  | .imulhi f => some (.imulhi, f)
  | .imad f => some (.imad, f)
  | .imin f => some (.imin, f)
  | .imax f => some (.imax, f)
  | .iabs f => some (.iabs, f)
  | .ineg f => some (.ineg, f)
  | .and f => some (.and, f)
  | .or f => some (.or, f)
  | .xor f => some (.xor, f)
  | .not f => some (.not, f)
  | .shl f => some (.shl, f)
  | .shr f => some (.shr, f)
  | .sar f => some (.sar, f)
  | .rot f => some (.rot, f)
  | .popc f => some (.popc, f)
  | .clz f => some (.clz, f)
  | .brev f => some (.brev, f)
  | .bfx f => some (.bfx, f)
  | .bfi f => some (.bfi, f)
  | .lea f => some (.lea, f)
  | .icmp f => some (.icmp, f)
  | .sel f => some (.sel, f)
  | .pand f => some (.pand, f)
  | .por f => some (.por, f)
  | .pxor f => some (.pxor, f)
  | .pnot f => some (.pnot, f)
  | .pmov f => some (.pmov, f)
  | .fadd f => some (.fadd, f)
  | .fsub f => some (.fsub, f)
  | .fmul f => some (.fmul, f)
  | .fma f => some (.fma, f)
  | .fmin f => some (.fmin, f)
  | .fmax f => some (.fmax, f)
  | .fcmp f => some (.fcmp, f)
  | .fdiv f => some (.fdiv, f)
  | .fsqrt f => some (.fsqrt, f)
  | .frcp f => some (.frcp, f)
  | .frsq f => some (.frsq, f)
  | .fexp2 f => some (.fexp2, f)
  | .flog2 f => some (.flog2, f)
  | .fsin f => some (.fsin, f)
  | .fcos f => some (.fcos, f)
  | .frnd f => some (.frnd, f)
  | .fclass f => some (.fclass, f)
  | .dadd f => some (.dadd, f)
  | .dsub f => some (.dsub, f)
  | .dmul f => some (.dmul, f)
  | .dfma f => some (.dfma, f)
  | .dmin f => some (.dmin, f)
  | .dmax f => some (.dmax, f)
  | .dcmp f => some (.dcmp, f)
  | .ddiv f => some (.ddiv, f)
  | .dsqrt f => some (.dsqrt, f)
  | .cvt f => some (.cvt, f)
  | .pack2 f => some (.pack2, f)
  | .unpack2 f => some (.unpack2, f)
  | .bfpack f => some (.bfpack, f)
  | .bfunpack f => some (.bfunpack, f)
  | .bfexp f => some (.bfexp, f)
  | .shfl f => some (.shfl, f)
  | .vote f => some (.vote, f)
  | .bcast f => some (.bcast, f)
  | .redux f => some (.redux, f)
  | .scan f => some (.scan, f)
  | .matchv f => some (.matchv, f)
  | .mov f => some (.mov, f)
  | .movw f => some (.movw, f)
  | .rdsr f => some (.rdsr, f)
  | .wrsr f => some (.wrsr, f)
  | .setfmt f => some (.setfmt, f)
  | .setfmtRm f => some (.setfmtRm, f)
  | .getfmt f => some (.getfmt, f)
  | .nop f => some (.nop, f)
  | .bra f => some (.bra, f)
  | .brx f => some (.brx, f)
  | .call f => some (.call, f)
  | .callx f => some (.callx, f)
  | .ret f => some (.ret, f)
  | .exit f => some (.exit, f)
  | .spawn f => some (.spawn, f)
  | .yield f => some (.yield, f)
  | .brk f => some (.brk, f)
  | .trap f => some (.trap, f)
  | .ld f => some (.ld, f)
  | .st f => some (.st, f)
  | .lds f => some (.lds, f)
  | .sts f => some (.sts, f)
  | .ldb f => some (.ldb, f)
  | .stb f => some (.stb, f)
  | .ldc f => some (.ldc, f)
  | .pref f => some (.pref, f)
  | .qwait f => some (.qwait, f)
  | .atom f => some (.atom, f)
  | .atomf f => some (.atomf, f)
  | .cas f => some (.cas, f)
  | .red f => some (.red, f)
  | .atoms f => some (.atoms, f)
  | .fence f => some (.fence, f)
  | .bar f => some (.bar, f)
  | .knotinit f => some (.knotinit, f)
  | .knotarr f => some (.knotarr, f)
  | .knotwait f => some (.knotwait, f)
  | .knotfree f => some (.knotfree, f)
  | .cwait f => some (.cwait, f)
  | .flagsig f => some (.flagsig, f)
  | .flagwait f => some (.flagwait, f)
  | .copy f => some (.copy, f)
  | .copyg f => some (.copyg, f)
  | .batch f => some (.batch, f)
  | .bwait f => some (.bwait, f)
  | .kick f => some (.kick, f)
  | .setlay f => some (.setlay, f)
  | .mma f => some (.mma, f)
  | .mmaw f => some (.mmaw, f)
  | .mld f => some (.mld, f)
  | .mst f => some (.mst, f)
  | .mzero f => some (.mzero, f)
  | .mget f => some (.mget, f)
  | .mgetTry f => some (.mgetTry, f)
  | .mrel f => some (.mrel, f)
  | .lstat f => some (.lstat, f)
  | .rld f => some (.rld, f)
  | .rst f => some (.rst, f)
  | .ratom f => some (.ratom, f)
  | .rfence f => some (.rfence, f)
  | .gld f => some (.gld, f)
  | .gst f => some (.gst, f)
  | .gdetach f => some (.gdetach, f)
  | .claim f => some (.claim, f)
  | .clwait f => some (.clwait, f)
  | .clwaitTest f => some (.clwaitTest, f)
  | .announce f => some (.announce, f)
  | .wstart f => some (.wstart, f)
  | .rdpr f => some (.rdpr, f)
  | .wrpr f => some (.wrpr, f)
  | .eret f => some (.eret, f)
  | .tinvPage f => some (.tinvPage, f)
  | .tinvCtx f => some (.tinvCtx, f)
  | .tinvPart f => some (.tinvPart, f)
  | .csave f => some (.csave, f)
  | .crest f => some (.crest, f)
  | .halt f => some (.halt, f)
  | .xmit _ => none
  | .store _ => none
  | .comb _ => none
  | .combf _ => none
  | .fwd _ => none
  | .waitf _ => none
  | .sigf _ => none
  | .loop _ => none
  | .winchBra _ => none
  | .brc _ => none
  | .addh _ => none
  | .subh _ => none
  | .movh _ => none
  | .lih _ => none
  | .cmph _ => none
  | .ldh _ => none
  | .setc _ => none
  | .yld _ => none
  | .winchHalt _ => none
  | .nopw _ => none
  | .merge .. => none
  | .priorityBoost .. => none
  | .ordRelease .. => none
  | .crewRetire .. => none
  | .spawnReport .. => none
  | .launchComplete .. => none
  | .loadReturn .. => none
  | .storePerform .. => none
  | .storeAck .. => none
  | .fenceComplete .. => none
  | .leaseExpiry .. => none
  | .exclusiveLeaseEnd .. => none
  | .waitReread .. => none
  | .engineTransfer .. => none
  | .requestListElement .. => none
  | .batchComplete .. => none
  | .matrixOpStart .. => none
  | .matrixBlock .. => none
  | .matrixOpRetire .. => none
  | .remotePassArrive .. => none
  | .windowPassArrive .. => none
  | .passReply .. => none
  | .passCommit .. => none
  | .passCancel .. => none
  | .passTimeout .. => none
  | .orderedFlagRelease .. => none
  | .claimArrive .. => none
  | .announceAccept .. => none
  | .tileArrive .. => none
  | .claimDelivered .. => none
  | .requesterExpiry .. => none
  | .neverProduced .. => none
  | .withdrawal .. => none
  | .claimRefusal .. => none
  | .stockpileExpiry .. => none
  | .chunkArrive .. => none
  | .creditReturn .. => none
  | .winchForcedYield .. => none
  | .waitfReread .. => none
  | .wsetStartFlit .. => none
  | .wsetDone .. => none
  | .wcLoad .. => none
  | .wcRun .. => none
  | .wcStep .. => none
  | .wcStop .. => none
  | .wcClear .. => none
  | .partControlWrite .. => none
  | .viFlr .. => none
  | .ctxCreate .. => none
  | .ctxRelease .. => none
  | .resume .. => none
  | .skip .. => none
  | .exitAction .. => none
  | .abort .. => none
  | .ctxWake .. => none
  | .faultRecordCommit .. => none
  | .faultRingRetry .. => none
  | .uncorrectableError .. => none
  | .qControlWrite .. => none
  | .qTailKick .. => none
  | .qResumeSkip .. => none
  | .qResumeRetry .. => none
  | .launch .. => none
  | .wset .. => none
  | .copyPacket .. => none
  | .copyPacketComplete .. => none
  | .waitv .. => none
  | .waitvReread .. => none
  | .signal .. => none
  | .signalComplete .. => none
  | .fencePacket .. => none
  | .replay .. => none
  | .nopk .. => none
  | .queueSchedule .. => none
  | .forcedUnmap .. => none
  | .eclassAging .. => none
  | .distributorPlace .. => none
  | .reserve .. => none
  | .held .. => none
  | .gangCommit .. => none
  | .placed .. => none
  | .refusedMsg .. => none
  | .gangCancel .. => none
  | .gangGo .. => none
  | .gangSaved .. => none
  | .gangwaitExpiry .. => none
  | .drainExpiry .. => none
  | .dvGo .. => none
  | .teamRestore .. => none
  | .colocationWindow .. => none
  | .tableWalk .. => none
  | .trReplay .. => none
  | .tagAddrWrite .. => none
  | .tagDataWrite .. => none
  | .ptFlush .. => none
  | .pathsDownExpiry .. => none
  | .flitReceive .. => none
  | .nak .. => none
  | .replayTimeout .. => none
  | .flitForward .. => none
  | .returnedFlit .. => none
  | .lnkEnable .. => none
  | .trainingComplete .. => none
  | .laneHealthWindow .. => none
  | .keySlotWrite .. => none
  | .txselWrite .. => none
  | .keydone .. => none
  | .ftControlFlit .. => none
  | .ftNowWrite .. => none
  | .install .. => none
  | .load .. => none
  | .unload .. => none
  | .attest .. => none
  | .reset .. => none
  | .fatalError .. => none
  | .pwrThrottle .. => none
  | .hostLinkDown .. => none
  | .readClear .. => none
  | .systemRegisterWrite .. => none
  | .ftHoldoverExpiry .. => none
  | .hostLinkRetrain .. => none
  | .powerLoss .. => none
  | .gangSave .. => none
  | .holdReleaseNotice .. => none
  | .deliveryHandedOn .. => none
  | .gwctReached .. => none

/-- The op byte and fields of a winch instruction (R318). -/
def winchParts : Instr → Option (Nat × WFields)
  | .xmit f => some (1, f)
  | .store f => some (2, f)
  | .comb f => some (3, f)
  | .combf f => some (4, f)
  | .fwd f => some (5, f)
  | .waitf f => some (6, f)
  | .sigf f => some (7, f)
  | .loop f => some (8, f)
  | .winchBra f => some (9, f)
  | .brc f => some (10, f)
  | .addh f => some (11, f)
  | .subh f => some (12, f)
  | .movh f => some (13, f)
  | .lih f => some (14, f)
  | .cmph f => some (15, f)
  | .ldh f => some (16, f)
  | .setc f => some (17, f)
  | .yld f => some (18, f)
  | .winchHalt f => some (19, f)
  | .nopw f => some (20, f)
  | .iadd _ => none
  | .isub _ => none
  | .imul _ => none
  | .imulhi _ => none
  | .imad _ => none
  | .imin _ => none
  | .imax _ => none
  | .iabs _ => none
  | .ineg _ => none
  | .and _ => none
  | .or _ => none
  | .xor _ => none
  | .not _ => none
  | .shl _ => none
  | .shr _ => none
  | .sar _ => none
  | .rot _ => none
  | .popc _ => none
  | .clz _ => none
  | .brev _ => none
  | .bfx _ => none
  | .bfi _ => none
  | .lea _ => none
  | .icmp _ => none
  | .sel _ => none
  | .pand _ => none
  | .por _ => none
  | .pxor _ => none
  | .pnot _ => none
  | .pmov _ => none
  | .fadd _ => none
  | .fsub _ => none
  | .fmul _ => none
  | .fma _ => none
  | .fmin _ => none
  | .fmax _ => none
  | .fcmp _ => none
  | .fdiv _ => none
  | .fsqrt _ => none
  | .frcp _ => none
  | .frsq _ => none
  | .fexp2 _ => none
  | .flog2 _ => none
  | .fsin _ => none
  | .fcos _ => none
  | .frnd _ => none
  | .fclass _ => none
  | .dadd _ => none
  | .dsub _ => none
  | .dmul _ => none
  | .dfma _ => none
  | .dmin _ => none
  | .dmax _ => none
  | .dcmp _ => none
  | .ddiv _ => none
  | .dsqrt _ => none
  | .cvt _ => none
  | .pack2 _ => none
  | .unpack2 _ => none
  | .bfpack _ => none
  | .bfunpack _ => none
  | .bfexp _ => none
  | .shfl _ => none
  | .vote _ => none
  | .bcast _ => none
  | .redux _ => none
  | .scan _ => none
  | .matchv _ => none
  | .mov _ => none
  | .movw _ => none
  | .rdsr _ => none
  | .wrsr _ => none
  | .setfmt _ => none
  | .setfmtRm _ => none
  | .getfmt _ => none
  | .nop _ => none
  | .bra _ => none
  | .brx _ => none
  | .call _ => none
  | .callx _ => none
  | .ret _ => none
  | .exit _ => none
  | .spawn _ => none
  | .yield _ => none
  | .brk _ => none
  | .trap _ => none
  | .ld _ => none
  | .st _ => none
  | .lds _ => none
  | .sts _ => none
  | .ldb _ => none
  | .stb _ => none
  | .ldc _ => none
  | .pref _ => none
  | .qwait _ => none
  | .atom _ => none
  | .atomf _ => none
  | .cas _ => none
  | .red _ => none
  | .atoms _ => none
  | .fence _ => none
  | .bar _ => none
  | .knotinit _ => none
  | .knotarr _ => none
  | .knotwait _ => none
  | .knotfree _ => none
  | .cwait _ => none
  | .flagsig _ => none
  | .flagwait _ => none
  | .copy _ => none
  | .copyg _ => none
  | .batch _ => none
  | .bwait _ => none
  | .kick _ => none
  | .setlay _ => none
  | .mma _ => none
  | .mmaw _ => none
  | .mld _ => none
  | .mst _ => none
  | .mzero _ => none
  | .mget _ => none
  | .mgetTry _ => none
  | .mrel _ => none
  | .lstat _ => none
  | .rld _ => none
  | .rst _ => none
  | .ratom _ => none
  | .rfence _ => none
  | .gld _ => none
  | .gst _ => none
  | .gdetach _ => none
  | .claim _ => none
  | .clwait _ => none
  | .clwaitTest _ => none
  | .announce _ => none
  | .wstart _ => none
  | .rdpr _ => none
  | .wrpr _ => none
  | .eret _ => none
  | .tinvPage _ => none
  | .tinvCtx _ => none
  | .tinvPart _ => none
  | .csave _ => none
  | .crest _ => none
  | .halt _ => none
  | .merge .. => none
  | .priorityBoost .. => none
  | .ordRelease .. => none
  | .crewRetire .. => none
  | .spawnReport .. => none
  | .launchComplete .. => none
  | .loadReturn .. => none
  | .storePerform .. => none
  | .storeAck .. => none
  | .fenceComplete .. => none
  | .leaseExpiry .. => none
  | .exclusiveLeaseEnd .. => none
  | .waitReread .. => none
  | .engineTransfer .. => none
  | .requestListElement .. => none
  | .batchComplete .. => none
  | .matrixOpStart .. => none
  | .matrixBlock .. => none
  | .matrixOpRetire .. => none
  | .remotePassArrive .. => none
  | .windowPassArrive .. => none
  | .passReply .. => none
  | .passCommit .. => none
  | .passCancel .. => none
  | .passTimeout .. => none
  | .orderedFlagRelease .. => none
  | .claimArrive .. => none
  | .announceAccept .. => none
  | .tileArrive .. => none
  | .claimDelivered .. => none
  | .requesterExpiry .. => none
  | .neverProduced .. => none
  | .withdrawal .. => none
  | .claimRefusal .. => none
  | .stockpileExpiry .. => none
  | .chunkArrive .. => none
  | .creditReturn .. => none
  | .winchForcedYield .. => none
  | .waitfReread .. => none
  | .wsetStartFlit .. => none
  | .wsetDone .. => none
  | .wcLoad .. => none
  | .wcRun .. => none
  | .wcStep .. => none
  | .wcStop .. => none
  | .wcClear .. => none
  | .partControlWrite .. => none
  | .viFlr .. => none
  | .ctxCreate .. => none
  | .ctxRelease .. => none
  | .resume .. => none
  | .skip .. => none
  | .exitAction .. => none
  | .abort .. => none
  | .ctxWake .. => none
  | .faultRecordCommit .. => none
  | .faultRingRetry .. => none
  | .uncorrectableError .. => none
  | .qControlWrite .. => none
  | .qTailKick .. => none
  | .qResumeSkip .. => none
  | .qResumeRetry .. => none
  | .launch .. => none
  | .wset .. => none
  | .copyPacket .. => none
  | .copyPacketComplete .. => none
  | .waitv .. => none
  | .waitvReread .. => none
  | .signal .. => none
  | .signalComplete .. => none
  | .fencePacket .. => none
  | .replay .. => none
  | .nopk .. => none
  | .queueSchedule .. => none
  | .forcedUnmap .. => none
  | .eclassAging .. => none
  | .distributorPlace .. => none
  | .reserve .. => none
  | .held .. => none
  | .gangCommit .. => none
  | .placed .. => none
  | .refusedMsg .. => none
  | .gangCancel .. => none
  | .gangGo .. => none
  | .gangSaved .. => none
  | .gangwaitExpiry .. => none
  | .drainExpiry .. => none
  | .dvGo .. => none
  | .teamRestore .. => none
  | .colocationWindow .. => none
  | .tableWalk .. => none
  | .trReplay .. => none
  | .tagAddrWrite .. => none
  | .tagDataWrite .. => none
  | .ptFlush .. => none
  | .pathsDownExpiry .. => none
  | .flitReceive .. => none
  | .nak .. => none
  | .replayTimeout .. => none
  | .flitForward .. => none
  | .returnedFlit .. => none
  | .lnkEnable .. => none
  | .trainingComplete .. => none
  | .laneHealthWindow .. => none
  | .keySlotWrite .. => none
  | .txselWrite .. => none
  | .keydone .. => none
  | .ftControlFlit .. => none
  | .ftNowWrite .. => none
  | .install .. => none
  | .load .. => none
  | .unload .. => none
  | .attest .. => none
  | .reset .. => none
  | .fatalError .. => none
  | .pwrThrottle .. => none
  | .hostLinkDown .. => none
  | .readClear .. => none
  | .systemRegisterWrite .. => none
  | .ftHoldoverExpiry .. => none
  | .hostLinkRetrain .. => none
  | .powerLoss .. => none
  | .gangSave .. => none
  | .holdReleaseNotice .. => none
  | .deliveryHandedOn .. => none
  | .gwctReached .. => none

/-- The winch instruction of an op byte and its fields (R318). -/
def winchInstr (op : Nat) (f : WFields) : Option Instr :=
  match op with
  | 1 => some (.xmit f)
  | 2 => some (.store f)
  | 3 => some (.comb f)
  | 4 => some (.combf f)
  | 5 => some (.fwd f)
  | 6 => some (.waitf f)
  | 7 => some (.sigf f)
  | 8 => some (.loop f)
  | 9 => some (.winchBra f)
  | 10 => some (.brc f)
  | 11 => some (.addh f)
  | 12 => some (.subh f)
  | 13 => some (.movh f)
  | 14 => some (.lih f)
  | 15 => some (.cmph f)
  | 16 => some (.ldh f)
  | 17 => some (.setc f)
  | 18 => some (.yld f)
  | 19 => some (.winchHalt f)
  | 20 => some (.nopw f)
  | _ => none

end Sys2Proof.Machine
end

