-- ==== Sys2Proof/Machine/CrewState.lean ====
section
/-! DEFINITION. The state of a crew, a team and a core: what the spec gives each of them (R19 to R72, R111, R121, R153,
R154, R267, R273, R277, R285, R299). -/

namespace Sys2Proof.Machine

/-- The states of a split (R42). -/
inductive SplitSt where
  | ready | blocked | mergeWait | frameWait | stopped
deriving DecidableEq, Repr

/-- A mask-stack entry (R43, R48): `path` is a PATH entry with its target, `rj` an RJ entry. -/
inductive MaskEntry where
  | path (target : BitVec 56) (lanes : Lanes) (merge : BitVec 56) (fmt : BitVec 32) (wbase : Nat)
  | rj (merge : BitVec 56) (union : Lanes) (fmt : BitVec 32) (wbase : Nat)
deriving DecidableEq, Repr

/-- What a spill wrote: where, the bytes, and the contents kept (R51, R52; log 20). -/
structure SpillRec (β : Type) where
  base  : BitVec 64
  bytes : List Byte
  kept  : β
deriving DecidableEq, Repr

/-- A frame record (R50): return PC, the callee's F, the caller's window base; `spilled` holds the rows of the callee's
caller chain frame that R51 spilled, none while the frame is resident. -/
structure Frame where
  ret      : BitVec 56
  size     : Nat
  base     : Nat
  spilled  : Option (SpillRec (Table Row))
deriving DecidableEq, Repr

/-- What blocks a split (R59, R53, R71, R115) until an event ends it. `word` is `cwait` or `flagwait`; `fence` holds
when the fence started; `tinv` its number and what it names; `ea` is the virtual address of a word that is not in scratch. -/
inductive Wait where
  | none
  | bar (b : Nat)
  | knotArrive (off : Nat)
  | knot (off : Nat) (q : Bool)
  | qwait (n : Nat)
  | bwait (n : Nat) (lanes : Lanes)
  | word (cond : FlagCond) (at_ : Loc) (ea value scope : Nat)
  | clwait (handle : Nat) (lanes : Lanes) (dest : Option Nat)
  | mget (mask no : Nat) (dest : Option Nat)
  | tiles
  | gdetach
  | halt
  | ord (m : Mn) (f : Fields)
  | ordAtom (id : Nat)
  | fence (id scope start : Nat)
  | passes (id : Nat)
  | tinv (id what : Nat)
deriving DecidableEq, Repr

/-- A window of a long instruction (R153): instructions left in it, the register rows it reads and writes, and what the
cells of the rows it writes held before. The rest says how the instruction came to its result, so that a source overwritten in the window can be
read as either value: the instruction, its active mask, format register and window base, the cells of A, of B and of its other sources as
it read them, what its cells held after it, the layout counters it found, and, for one that reaches scratch or tiles, the team's scratch and
tiles as it found them. Rows and cells are the register keys of Regs.lean. -/
structure LongWindow where
  left   : Nat
  reads  : List Nat
  writes : List Nat
  old    : List (Nat × Nat)
  m      : Mn
  f      : Fields
  act    : Lanes
  fmt    : BitVec 32
  wbase  : Nat
  srcA   : List (Nat × Nat)
  srcB   : List (Nat × Nat)
  src    : List (Nat × Nat)
  res    : List (Nat × Nat)
  lstat  : Table (Nat × Nat)
  scr    : Table Byte
  tiles  : Table Row
deriving DecidableEq, Repr

/-- A load that no `qwait` covers yet (R112): its destination rows, what the cells held before its data came and what was
loaded into them, the cells written since it issued, and the lanes whose data had an uncorrectable error (R241). -/
structure Uncovered where
  id     : Nat
  rows   : List Nat
  old    : List (Nat × Nat)
  loaded : List (Nat × Nat)
  wrote  : List Nat
  poison : Lanes
deriving DecidableEq, Repr

/-- An operand latch (R154): the class and register number latched, the rows and cells it holds, and whether one of the
rows has been written since. -/
structure Latch where
  cls   : Cls
  num   : Nat
  rows  : List Nat
  data  : List (Nat × Nat)
  stale : Bool
deriving DecidableEq, Repr

/-- A split table entry (R42); the frame records above its base and what blocks it stand with it. -/
structure Split where
  st     : SplitSt
  pc     : BitVec 56
  mask   : Lanes
  fmt    : BitVec 32
  wbase  : Nat
  depth  : Nat
  join   : Option Nat
  clock  : Nat
  mstack : List MaskEntry
  mspill : List (SpillRec MaskEntry)
  frames : List Frame
  wait   : Wait
  /-- the lanes in which the instruction that it waits in takes effect -/
  run    : Lanes
  /-- the state a fault or a `csave` stopped, to be taken up again (R70) -/
  held   : SplitSt
  /-- stopped by its own fault, with the code of a `trap` (R234, R376) -/
  faulted : Bool
  trapped : Bool
  windows : List LongWindow
  latchA  : Option Latch
  latchB  : Option Latch
deriving DecidableEq, Repr

/-- A join record (R42). -/
structure JoinRec where
  mergePc : BitVec 56
  fmt     : BitVec 32
  base    : Nat
  depth   : Nat
  parent  : Option Nat
  sides   : Nat
deriving DecidableEq, Repr

/-- Where loaded data goes: from a physical row on in each lane, to a uniform register, or nowhere. -/
inductive Dest where
  | rows (row n : Nat)
  | uni (n : Nat)
  | none
deriving DecidableEq, Repr

/-- One access of a queue entry: its lane (128 where the instruction is uniform), where its first byte lives, the datum, the
expected value of a `cas`. -/
structure LaneAcc where
  lane   : Nat
  loc    : Loc
  data   : Nat
  expect : Nat
deriving DecidableEq, Repr

/-- A load-queue entry (R111). `got` are the values by lane that are known so far; `acquire` says that later accesses
wait for it (R116); `back` that its data has returned. -/
structure LoadEntry where
  id      : Nat
  ty      : Ty
  scope   : Nat
  dest    : Dest
  lanes   : List LaneAcc
  got     : List (Nat × Nat)
  poison  : Lanes
  acquire : Bool
  /-- the entry's data comes from an atomic: the store entry of the same number -/
  atomic  : Bool
  /-- the constant bank's bytes (`ldc`), or no L1 allocation (R151): the load takes no new L1 copy -/
  noAlloc : Bool
  back    : Bool
deriving DecidableEq, Repr

/-- A store-queue entry (R111). `left` are the 64-byte lines still to perform, `release` says that it waits as R116
gives, `home` that it takes no exclusive lease (R258), `ret` that a load entry of the same number takes its old values; `clock`, `vc` and `who` are what its write carries to
a wait (R72, R133). -/
structure StoreEntry where
  id      : Nat
  ty      : Ty
  op      : MemOp
  scope   : Nat
  lanes   : List LaneAcc
  left    : List Nat
  release : Bool
  ordered : Bool
  ret     : Bool
  home    : Bool
  gwctMod : Nat
  gwctFab : Nat
  clock   : Nat
  vc      : Table Nat
  who     : Nat × Nat
  acked   : Bool
deriving DecidableEq, Repr

/-- A crew's states (R61). -/
inductive CrewSt where
  | running | stopped | draining
deriving DecidableEq, Repr

/-- A fault record (R381), before it is laid out. -/
structure FaultRec where
  any    : Lanes
  lanes  : Lanes
  addr   : BitVec 64
  time   : Nat
  pc     : BitVec 56
  id     : Nat
  kind   : Nat
  split  : Nat
  access : Nat
  cause  : Nat
  code   : Nat
deriving DecidableEq, Repr

/-- A piece of a translated range (R262): where its first byte lives, its length, the table leaf, and for a FABRIC-WINDOW page
the peers it goes to. -/
structure Piece where
  loc   : Loc
  len   : Nat
  leaf  : Nat
  peers : List Nat
deriving DecidableEq, Repr

/-- A translated range: consecutive pieces. -/
abbrev Pieces := List Piece

/-- A claim handle (R306): its sequence number, the number of its range lock, the name claimed, the translated destination with its first
byte and capacity, and the value `clwait.test` gives once the claim has ended (R311). -/
structure Handle where
  seq    : Nat
  tag    : Nat
  name   : TileName
  dest   : Pieces
  base   : Nat
  cap    : Nat
  result : Option Nat
deriving DecidableEq, Repr

/-- A target record (R299): the peer, the counts of outstanding stores and atomics per path, and when they last became
zero. -/
structure Target where
  peer   : Nat
  counts : List Nat
  zeroAt : Nat
deriving DecidableEq, Repr

/-- A lane group of a committed pass that its target has not acknowledged (R363): the pass, the target (a rank for a window
pass), the line, its path, the queue entry. -/
structure FarGroup where
  pass   : Nat
  peer   : Nat
  line   : Nat
  path   : Nat
  store  : Nat
  /-- the store also went to another peer (R128) -/
  mirrored : Bool
  /-- homed on this module (R106) -/
  near   : Bool
  /-- counted in a target record (R299) -/
  counted : Bool
deriving DecidableEq, Repr

/-- A batch of engine operations that is closed and not complete (R124, R267): operations not finished, the first times past the
largest GWCT pair of those that finished, whether a destination lies off the module, whether poisoned source data was read. -/
structure Batch where
  left   : List Nat
  gwctMod : Nat
  gwctFab : Nat
  off    : Bool
  poison : Bool
deriving DecidableEq, Repr

/-- A barrier-class instruction that lanes of its mask have executed in the current phase of its barrier or knot (R54): what they wait
for, the mask, the lanes so far, the bytes of a `knotarr`, the largest clock, whether the crew has arrived, the number of the
fence that an arrival completed by an exit still waits for (R117), and for an arrival at a knot the number of its phase. -/
structure Arrival where
  what  : Wait
  mask  : Lanes
  lanes : Lanes
  bytes : Nat
  clock : Nat
  done  : Bool := false
  fence : Option Nat := none
  phase : Nat := 0
deriving DecidableEq, Repr

/-- A crew, resident or in a saved team's image. -/
structure Crew where
  inst    : Nat
  ctx     : Nat
  team    : Nat
  crewNo  : Nat
  width   : Nat
  wrows   : Nat
  entryF  : Nat
  st      : CrewSt
  splits  : Table Split
  joins   : Table JoinRec
  v       : Table Row
  s       : Table Word
  p       : Table Lanes
  lay     : Table LayRec
  lstat   : Table (Nat × Nat)
  gmod    : Nat
  gfab    : Nat
  minGrant : Nat
  open_   : List Nat
  openOff : Bool
  openGm  : Nat
  openGf  : Nat
  openPoison : Bool
  closed  : Nat
  done    : Nat
  batches : List Batch
  poisonBatch : List Nat
  claimSeq : Nat
  handles : Table Handle
  spillTop : BitVec 64
  stackBase : BitVec 64
  stackTop : BitVec 64
  loadq   : List LoadEntry
  storeq  : List StoreEntry
  targets : Table Target
  sent    : List FarGroup
  /-- groups sent so far by target and path (R364) -/
  totals  : Table (List Nat)
  exited  : Lanes
  /-- the slot's cycle count when the crew last issued, and when it last issued or became ready (R65) -/
  age     : Nat
  passed  : Nat
  boosted : Bool
  /-- it executed `yield` and its slot has not issued since (R233) -/
  yielded : Bool
  uncov   : List Uncovered
  frec    : Option FaultRec
  recSent : Bool
  /-- older fault records that are not written yet, in the order of their events (R383, R384) -/
  unsent  : List FaultRec
  fb      : Bool
  replayed : Bool
  key     : List Nat
  vc      : Table Nat
  epoch   : Nat
  /-- writes that order only themselves before the crew (R133): writer, number of the access, word -/
  seen    : List (Nat × Nat × Loc)
  /-- ordering points whose later accesses may not perform yet: acquire loads and fences, by id (R115, R116) -/
  order   : List Nat
  /-- barrier-class instructions that not every lane of the mask has executed (R54) -/
  arriving : List Arrival
  /-- the crew whose `csave` stopped it and waits for its accesses (R378, R384) -/
  saver   : Option Nat := none
  /-- the crew whose `csave` waits for this crew, which was stopped already (R384) -/
  asked   : Option Nat := none
deriving DecidableEq, Repr

/-- The arrivals at a team barrier (R55): the crews that arrived, the largest clock, the merged vector clock. -/
structure BarSt where
  crews : List Nat
  clock : Nat
  vc    : Table Nat
deriving DecidableEq, Repr

/-- The bookkeeping of a knot beside its 16 bytes (R58, R72, R117): clocks, vector clocks and the scope of engine writes of
the running phase and of the last completion, the arrivals that wait for the phase to complete, and how many phases have completed. -/
structure KnotSt where
  clock   : Nat
  vc      : Table Nat
  scope   : Nat
  lastClock : Nat
  lastVc  : Table Nat
  lastScope : Nat
  waiting : List (Nat × Arrival)
  phases  : Nat := 0
deriving DecidableEq, Repr

/-- A matrix operation (R285): KIND as `wide` (`mmaw`) and `single` (`.s`), TYPE, Z, the tile, the first physical row of the A
image, the captured fields, K/32 as `blocks`, PROG, whether it runs; `core` is the issuing core; `crew` the place whose rows hold
A, `inst` the crew there; `locked` says that its hull stands in the range-lock tables (R122). -/
structure MatOp where
  id     : Nat
  wide   : Bool
  single : Bool
  ty     : Ty
  z      : Bool
  tile   : Nat
  arow   : Nat
  aw     : Nat
  bw     : Nat
  orient : Bool
  layout : LayRec
  lreg   : Nat
  blocks : Nat
  prog   : Nat
  running : Bool
  locked : Bool
  core   : Nat
  crew   : Nat
  inst   : Nat
deriving DecidableEq, Repr

/-- An instruction that waits in issue for a tile (R34): its crew, split and PC, and the tiles it names. -/
structure TileWait where
  place : Nat
  inst  : Nat
  split : Nat
  pc    : BitVec 56
  mask  : Nat
deriving DecidableEq, Repr

/-- A write to a 32-bit word, kept for contributing writes (R72): values before and after, the launch and clock of a crew
write, its scope, the writer's vector clock where the write is a release, the writing crew and the number of the access, its core
and team. -/
structure WriteRec where
  old    : Nat
  new    : Nat
  launch : Option Nat
  clock  : Nat
  vc     : Table Nat
  scope  : Nat
  who    : Option (Nat × Nat)
  core   : Nat
  team   : Nat
deriving DecidableEq, Repr

/-- A determinism record (R74, R132): the number of the access (R133), the crew, its launch and epoch, the bytes of the line read and
written, and the operation of a commuting atomic. -/
structure Track where
  no    : Nat
  inst  : Nat
  launch : Nat
  epoch : Nat
  read  : BitVec 64
  write : BitVec 64
  op    : Option (MemOp × Ty)
deriving DecidableEq, Repr

/-- One tracked access (R74): where, its size, what it does, the operation of a commuting atomic. -/
structure Tracked where
  loc   : Loc
  size  : Nat
  read  : Bool
  write : Bool
  op    : Option (MemOp × Ty)
deriving DecidableEq, Repr

/-- A team. -/
structure Team where
  launch  : Nat
  grid    : Nat
  teamNo  : Nat
  nteams  : Nat
  kernel  : Nat
  object  : Nat
  ctx     : Nat
  pair    : Bool
  cores   : List Nat
  slots   : List Nat
  crews   : List Nat
  ncrews  : Nat
  scratchSize : Nat
  scratch : Table Byte
  /-- scratch bytes that hold the result of an uncorrectable error (R268) -/
  poison  : Table Unit
  guards  : Table Unit
  knots   : Table KnotSt
  bars    : Table BarSt
  tilesHeld : BitVec 16
  /-- tile contents: key 65536 * side + 4096 * tile + 64 * row + column, side 1 the follower's -/
  tiles   : Table Row
  opq     : List MatOp
  /-- instructions that wait in issue for a tile, in the order in which they issued (R34) -/
  tileq   : List TileWait
  spilled : Bool
  gang    : Option Nat
  rank    : Nat
  gangSize : Nat
  detached : Bool
  gdetach : List Nat
  gdetachClock : Nat
  lost    : Bool
  /-- the largest GWCT_fab of the stores of its retired crews (R63, R64) -/
  gwct    : Nat
  relaunchOk : Bool
  relaunches : Nat
  key     : List Nat
  startClock : Nat
  args    : BitVec 64
  prio    : Nat
  order   : Nat
  saved   : Bool
  wlog    : Table (List WriteRec)
  tracks  : Table (List Track)
  /-- its crews may issue: not before its gang's GO (R419), and no more once its pre-emption has begun (R423) -/
  started : Bool
  /-- it is being pre-empted: its work drains and its image is not written yet (R423) -/
  leaving : Bool
deriving DecidableEq, Repr

/-- A range-lock entry (R121); TAG is the operation's number. `ctx` is the context of a team that has retired while its entry stands (R312). -/
structure RangeLock where
  dest  : Bool
  virt  : Bool
  team  : Nat
  base  : Nat
  len   : Nat
  tag   : Nat
  ctx   : Option Nat := none
deriving DecidableEq, Repr

/-- One run of bytes an engine moves; `sbase` and `dbase` are the first addresses or offsets, which fix the 16-byte units
(R264). -/
structure EngSeg where
  src   : Pieces
  dst   : Pieces
  sbase : Nat
  dbase : Nat
  len   : Nat
deriving DecidableEq, Repr

/-- An engine operation: a `copy`, a `copyg`, one element of a request list (R264, R265, R272), or the copy of a COPY packet, whose
`crew` is its context (R401). `left` are the
destination units still to write, `buf` the source units read so far, `far` the passes and peers that have not acknowledged; `knot`
counts its bytes; `after` says which stores of its crew come before it; `refused` is the cause with which another module refused one of its
passes, 0 for none; `both` numbers the passes that go to the two peers of a MIRROR page (R128). -/
structure EngOp where
  crew    : Nat
  inst    : Nat
  team    : Nat
  launch  : Nat
  epoch   : Nat
  segs    : List EngSeg
  left    : List Nat
  buf     : Table (List Byte × Bool)
  far     : List (Nat × Nat)
  list    : Option Nat
  knot    : Option Nat
  clock   : Nat
  gwctMod : Nat
  gwctFab : Nat
  off     : Bool
  poison  : Bool
  after   : Nat
  refused : Nat := 0
  both    : List Nat := []
deriving DecidableEq, Repr

/-- A leased L1 copy of a line (R104). -/
structure Copy where
  data    : List Byte
  granted : Nat
  expiry  : Nat
deriving DecidableEq, Repr

/-- The state of a core beside its crews and teams (R121, R273, R289, R417, R433). -/
structure CoreSt where
  kickTeam : Nat
  kickList : Nat
  ranges   : List RangeLock
  ops      : Table EngOp
  lists    : Table Nat
  copies   : Table Copy
  vacating : Bool
  reserved : Bool
  heldBy   : Option Nat
deriving DecidableEq, Repr

end Sys2Proof.Machine
end

