-- ==== Sys2Proof/Machine/FabState.lean ====
section
/-! DEFINITION. The state of the junction dies: passes, links, claims and stockpiles, winches, fabric time; and the messages
that leave the module (R296 to R328, R363, R364, R451 to R470). -/

namespace Sys2Proof.Machine

/-- How one pass of an instruction stands (R296, R299). -/
inductive PassSt where
  | sent (at_ : Nat)
  | accepted (data : List (Nat × Nat)) (bad : List Nat) (clock : Nat) (vc : Table Nat)
  | refused (causes : List (Nat × Nat))
  | committed
deriving DecidableEq, Repr

/-- One pass of an instruction: its target peer (or member rank) and lanes. -/
structure PassOut where
  peer  : Nat
  lanes : List PassLane
  st    : PassSt
deriving DecidableEq, Repr

/-- What made a set of passes: an instruction, an engine operation for one unit (core, operation, unit), a waiting instruction
that reads its word again, or the write of an atomic's result to a mirror (the pass that the atomic came with, its line). -/
inductive Origin where
  | instr (loadId storeId : Option Nat)
  | engine (core op unit : Nat)
  | reread
  | mirror (src pass : Nat) (ack : FarAck)
deriving DecidableEq, Repr

/-- The passes of one instruction that waits in issue for their replies (R296). -/
structure PassSet where
  crew   : Nat
  split  : Nat
  /-- the address of each lane as the instruction names it, for its fault record -/
  eas    : List (Nat × Nat)
  passes : List PassOut
  origin : Origin
  access : Nat
  /-- the store goes to two peers (R128) -/
  twice  : Bool
  /-- what every pass carries; its lanes stand in `passes` -/
  pass   : PassIn
  /-- the accesses here that are recorded when the instruction retires (R74) -/
  tracked : List Tracked := []
deriving DecidableEq, Repr

/-- A committed lane group that waits at its target (R126): the groups of its crew it waits for on each path, its own path and line, and its number
among the groups of its crew that came by that path. -/
structure HeldGroup where
  before : List Nat
  path   : Nat
  line   : Nat
  no     : Nat
deriving DecidableEq, Repr

/-- A pass held at this module as its target (R296, R364): the place of each lane, the lines not performed yet, and the committed groups
that wait, ordered flags and what comes after one on its line (R126). -/
structure HeldPass where
  pass   : PassIn
  locs   : List (Nat × Loc)
  lines  : List Nat
  flags  : List HeldGroup
deriving DecidableEq, Repr

/-- A link's registers and protocol state (R316, R453 to R458): `held` is the replay buffer (number, the flit as it was sent, resends), `todo` the
sequenced flits that wait for room in it (type, FL.INFO, payload, what stands beside it), `chunks` the bytes of each channel's
chunk that have arrived so far. -/
structure Link where
  lanes   : BitVec 16
  retire  : BitVec 8
  en      : Bool
  active  : BitVec 16
  width   : Nat
  errCnt  : BitVec 32
  err     : BitVec 4
  state   : BitVec 3
  health  : Table Nat
  replays : BitVec 64
  marked  : BitVec 16
  corrected : Table Nat
  window  : Nat
  allowed : BitVec 16
  txKey   : Table (BitVec 256 × BitVec 32)
  rxKey   : Table (BitVec 256 × BitVec 32)
  txWords : Table Word
  rxWords : Table Word
  txSalt  : BitVec 32
  rxSalt  : BitVec 32
  txRet   : Option (Nat × Nat)
  rxCur   : Option Nat
  rxRet   : Option Nat
  txSel   : Nat
  txIvc   : Table Nat
  seq     : Nat
  held    : List (Nat × FlitIn × Nat)
  heldAt  : Nat
  todo    : List (Nat × Nat × List Byte × FlitIn) := []
  chunks  : Table (List Byte) := []
  expect  : Nat
  seen    : List (Nat × Nat)
  tagFail : List Nat
  credits : Table Nat
  downAt  : Nat
deriving DecidableEq, Repr

/-- The reset values of R456 and R458 (log 6 for those the spec gives none). -/
def Link.reset : Link :=
  { lanes := 0xFFFF, retire := 160, en := false, active := 0, width := 0, errCnt := 0, err := 0, state := 0
    health := [], replays := 0, marked := 0, corrected := [], window := 0, allowed := 0, txKey := [], rxKey := [], txWords := [], rxWords := []
    txSalt := 0, rxSalt := 0, txRet := none, rxCur := none, rxRet := none, txSel := 0, txIvc := [], seq := 0, held := []
    heldAt := 0, expect := 0, seen := [], tagFail := [], credits := [], downAt := 0 }

/-- A winch context's registers (R315, R468) and what it has outstanding (R316, R323, R325, R469): `cmd` is a stop not yet in effect, `stepping` a
pending step, `rx` the receive queue of its channel (log2 of the size, bytes), `sigf` the first time past the largest GWCT_fab of its writes, `burst` the instructions
since its last chunk boundary, `held` that a fault left its chunk at the head of the queue. -/
structure Wctx where
  fcode   : BitVec 8
  wait    : BitVec 4
  cmd     : Option Nat
  stepping : Bool
  state   : BitVec 3
  hi      : BitVec 13
  lo      : BitVec 13
  pc      : BitVec 13
  tid     : BitVec 16
  set     : BitVec 8
  cs      : BitVec 5
  c       : Bool
  fAddr   : Word
  h       : Table Word
  rx      : List (Nat × List Byte)
  sigf    : Nat
  burst   : Nat
  recs    : List FaultRec
  held    : Bool := false
deriving DecidableEq, Repr

/-- The reset values of R468. -/
def Wctx.reset : Wctx :=
  { fcode := 0, wait := 0, cmd := none, stepping := false, state := 0, hi := 0, lo := 0, pc := 0, tid := 0, set := 0
    cs := 6, c := false, fAddr := 0, h := [], rx := [], sigf := 0, burst := 0, recs := [] }

/-- A running winch set (R312, R470): peers whose DONE is awaited, the module it was started from (none: here), the number of the range
locks or the packet that its completion ends. -/
structure WinchSet where
  ctx     : Nat
  set     : Nat
  peers   : List Nat
  origin  : Option Nat
  tag     : Nat
  queue   : Option (Nat × Nat)
deriving DecidableEq, Repr

/-- The states of a claim entry that is in use (R462). -/
inductive ClaimSt where
  | waiting | forwarded | delivering
deriving DecidableEq, Repr

/-- A record of the requester pool (R307, R463). -/
structure ReqRec where
  from_  : Requester
  expiry : Nat
  started : Bool
deriving DecidableEq, Repr

/-- A claim entry (R462, R463): its requesters are numbers of the pool, in join order. -/
structure ClaimEntry where
  name  : TileName
  st    : ClaimSt
  reqs  : List Nat
  hop   : Option Nat
  sent  : Nat
  data  : List Byte
deriving DecidableEq, Repr

/-- A stockpiled tile (R308, R464). -/
structure StockTile where
  name    : TileName
  data    : List Byte
  retain  : Nat
  taken   : Nat
  expired : Bool
  readers : Nat
deriving DecidableEq, Repr

/-- An announcement on its way to its keeper (R308); its source is read through the engine operation of the same number. -/
structure Announce where
  crew   : Nat
  inst   : Nat
  team   : Nat
  ctx    : Nat
  name   : TileName
  retain : Nat
  supersede : Bool
  after  : Nat
deriving DecidableEq, Repr

/-- A tile being delivered to a crew of this module (R309), by the engine operation of the same number. -/
structure Delivery where
  crew   : Nat
  inst   : Nat
  handle : Nat
  seq    : Nat
  size   : Nat
deriving DecidableEq, Repr

/-- A junction die's keeper and counters (R305, R463, R464, R470). -/
structure Jd where
  claims  : Table ClaimEntry
  pool    : Table ReqRec
  stock   : Table StockTile
  waiting : List Nat
  deliv   : Table Delivery
  cltSel  : BitVec 16
  cltRsel : BitVec 17
  merged  : BitVec 32
  expired : BitVec 32
  refused : BitVec 32
  dup     : BitVec 32
  evicted : BitVec 32
  wsetRefused : BitVec 64
  noLease : BitVec 32
deriving DecidableEq, Repr

/-- The reset values of R463, R465, R470. -/
def Jd.reset : Jd :=
  { claims := [], pool := [], stock := [], waiting := [], deliv := [], cltSel := 0, cltRsel := 0, merged := 0
    expired := 0, refused := 0, dup := 0, evicted := 0, wsetRefused := 0, noLease := 0 }

/-- Fabric time (R466, R467) beside the counter itself. -/
structure FabTime where
  backup : BitVec 5
  src    : BitVec 5
  root   : Bool
  run    : Bool
  offset : BitVec 32
  bound  : BitVec 8
  fail   : Bool
  hold   : Bool
  /-- when the holdover began and how often FT.BOUND has grown in it -/
  holdFrom : Nat
  holdSteps : Nat
  /-- since when |FT.OFFSET| + FT.BOUND has stayed within 8 ns, less 1; 0 while it has not -/
  within : Nat
  /-- the correction in force, in ns for each µs -/
  slew   : Int
deriving DecidableEq, Repr

/-- The reset values of R466. -/
def FabTime.reset : FabTime :=
  { backup := 0, src := 0, root := false, run := false, offset := 0, bound := 0, fail := false, hold := false
    holdFrom := 0, holdSteps := 0, within := 1, slew := 0 }

/-- An entry of the name-routing table (R461). -/
structure NameRoute where
  key   : BitVec 64
  ns    : BitVec 12
  valid : Bool
  len   : BitVec 7
  loc   : Bool
  link  : BitVec 5
deriving DecidableEq, Repr

/-- An entry of a mirror table (R460). -/
structure Mirror where
  primary : BitVec 18
  mirror  : BitVec 18
  lost    : Bool
  valid   : Bool
deriving DecidableEq, Repr

/-- A message that leaves the module, to a peer, over a link, or to the host. -/
inductive Msg where
  | pass (peer : Nat) (p : PassIn)
  | reply (peer id : Nat) (refused : List (Nat × Nat)) (data : List (Nat × Nat)) (bad : List Nat) (clock : Nat) (vc : Table Nat)
  | commit (peer id : Nat) (group : Option (Nat × Nat)) (before : List Nat)
  | cancel (peer id : Nat)
  | ack (peer id : Nat) (a : FarAck)
  | claim (link : Nat) (name : TileName) (expiry : Nat)
  | withdraw (link : Nat) (name : TileName)
  | withdrawn (link : Nat) (name : TileName) (expiry : Nat)
  | neverProduced (link : Nat) (name : TileName) (expiry : Nat)
  | claimRefused (link : Nat) (name : TileName)
  | tile (link : Nat) (t : TileIn)
  | chunk (link ch set cs : Nat) (data : List Byte)
  | credit (link ch n : Nat)
  | startFlit (peer ctx set : Nat) (arg : BitVec 64)
  | setDone (peer ctx set : Nat)
  | reserve (peer : Nat) (g : GangMsg)
  | gang (peer : Nat) (what : String) (gang : Nat)
  | spawnReport (peer launch : Nat) (delta : Int) (gwct : Nat) (peers : List Nat)
  | flit (link : Nat) (x : FlitIn)
  | flitBack (link : Nat) (x : FlitIn)
  | linkControl (link : Nat) (what : String) (n : Nat)
  | fabricTime (link time : Nat) (offset : Int) (bound : Nat)
  | delivered (link : Nat) (payload : List Byte)
  | regValue (w : Writer) (addr : Nat) (value : Word)
  | detached (peer gang rank : Nat)
  | msix (vi vector : Nat)
  | i3cAlert
deriving DecidableEq, Repr

/-- An entry of the translation cache (R443, R475, R481): its key, the native image, the certificate with the leaf that signed it, and when
it was last loaded. -/
structure CacheEntry where
  portable : BitVec 256
  svn    : Nat
  native : NativeImage
  /-- where its bytes begin in the region, text before certificate -/
  off    : Nat
  cert   : List Byte
  leaf   : Nat
  used   : Nat
deriving DecidableEq, Repr

/-- A flit of this module that came back from a path (R487): the paths it has come back from, and since when. -/
structure Returned where
  flit  : FlitIn
  tried : List Nat
  since : Nat
deriving DecidableEq, Repr

/-- Module identity, installation, power, boot and measurement registers (R471 to R485) and the translation cache (R443). -/
structure ModuleSt where
  idModule  : BitVec 64
  silicon   : BitVec 16
  firmware  : BitVec 32
  fuseSvn   : BitVec 64
  fuseLeft  : Nat
  bootErr   : BitVec 8
  bootStage : BitVec 8
  pwrCap    : BitVec 16
  pwrThrot  : BitVec 8
  pwrTemp   : BitVec 8
  pwrNow    : BitVec 16
  errCe     : BitVec 32
  errFatal  : BitVec 8
  meas      : Table (BitVec 256)
  tcBase    : Word
  tcSize    : BitVec 32
  cache     : Table CacheEntry
  idLeaf    : Nat
  instLeaf  : Nat
  /-- the fused hash of the firmware key, and that key once an image has been verified (R473, R476) -/
  fuseKey   : BitVec 256
  fwKey     : List Byte
  image     : List Byte
  /-- the update record in flash: the new image, the target of FUSE.SVN, the signature over it (R478) -/
  update    : Option (List Byte × Nat × List Byte)
  modid     : Nat
  hostUp    : Bool
  /-- host accesses withheld: the interface, the address, the value of a write (R483) -/
  withheld  : List (Nat × Nat × Option Word)
  ptBase    : Word
  ptCount   : BitVec 18
  ptCache   : Table Word
  names     : Table NameRoute
  mirrors   : Table Mirror
  returned  : List Returned
deriving DecidableEq, Repr

/-- Is the module ready (R476): has it booted to stage 7? -/
def ModuleSt.ready (m : ModuleSt) : Bool := m.bootStage == 7

/-- The reset values of R443, R459, R471, R484, R485; the values the spec gives none are named in log 6. -/
def ModuleSt.reset : ModuleSt :=
  { idModule := 0, silicon := 0, firmware := 0, fuseSvn := 0, fuseLeft := 256, bootErr := 0, bootStage := 0
    pwrCap := 6000, pwrThrot := 0, pwrTemp := 0, pwrNow := 0, errCe := 0, errFatal := 0, meas := [], tcBase := 0
    tcSize := 0, cache := [], idLeaf := 0, instLeaf := 0, fuseKey := 0, fwKey := [], image := [], update := none, modid := 0, hostUp := true
    withheld := [], ptBase := 0, ptCount := 0, ptCache := [], names := [], mirrors := [], returned := [] }

end Sys2Proof.Machine
end

