-- ==== Sys2Proof/Machine/SysState.lean ====
section
/-! DEFINITION. The state above the cores: partitions, virtual interfaces, contexts, queues, loaded objects, launches,
gangs and translation units (R60 to R64, R367 to R373, R379, R383, R394 to R425, R429 to R445, R479 to R486). -/

namespace Sys2Proof.Machine

/-- A partition's registers (R370, R411, R417, R429, R465). -/
structure Part where
  dies     : BitVec 8
  scratch  : BitVec 2
  debug    : Bool
  active   : Bool
  qsaCount : Nat
  qsaMin   : List Nat
  qsaAge   : Nat
  gangWait : Nat
  drain    : Nat
  dvBusy   : Bool
  dvDone   : Nat
  /-- the cores of the vacate in progress -/
  dvCores  : List Nat
  colEn    : Bool
  colThresh : Nat
  hbmBase  : Nat
  hbmLimit : Nat
  lseInit  : Nat
deriving DecidableEq, Repr

/-- The reset values of R370, R411, R417, R429, R465. -/
def Part.reset : Part :=
  { dies := 0, scratch := 2, debug := false, active := false, qsaCount := 0, qsaMin := [0, 0, 0, 0], qsaAge := 1000
    gangWait := 2000, drain := 500, dvBusy := false, dvDone := 0, dvCores := [], colEn := true, colThresh := 64
    hbmBase := 0, hbmLimit := 0, lseInit := 16 }

/-- A virtual interface's registers (R371, R479, R486). -/
structure Vi where
  part     : BitVec 4
  en       : Bool
  flrBusy  : Bool
  /-- the context that a release tears down (R486) -/
  releasing : Option Nat
  ctxStat  : BitVec 4
  ctxRes   : BitVec 12
  ctxMax   : BitVec 12
  /-- the request record, read when the request starts (R480) -/
  instRec  : BitVec 512
  instCtx  : BitVec 12
  instHandle : BitVec 32
  instStatus : BitVec 8
  instBusy : Bool
  /-- the address of a request record that is still on its way from another module -/
  instReq  : Option Word := none
  instDataSize : BitVec 32
deriving DecidableEq, Repr

/-- The reset values of R371, R479, R486. -/
def Vi.reset : Vi :=
  { part := 0, en := false, flrBusy := false, releasing := none, ctxStat := 0, ctxRes := 0, ctxMax := 0
    instRec := 0, instCtx := 0, instHandle := 0
    instStatus := 0, instBusy := false, instDataSize := 0 }

/-- A fault-buffer entry (R436). -/
structure FbEntry where
  peer   : Nat
  remote : Bool
  crew   : Nat
  page   : Nat
  joins  : Nat
  kinds  : BitVec 3
  level  : Nat
deriving DecidableEq, Repr

/-- A context's registers and records (R372, R379, R383, R406, R432, R436, R442, R452). -/
structure Ctx where
  hen      : Bool
  handler  : BitVec 12
  part     : BitVec 4
  vi       : BitVec 6
  level    : Bool
  state    : BitVec 3
  frLost   : Bool
  frFull   : Bool
  dupAnn   : Bool
  frBad    : Bool
  frBase   : Word
  frProd   : BitVec 16
  frCons   : BitVec 16
  msix     : BitVec 8
  frSize   : BitVec 4
  saveBase : Word
  cmdStat  : BitVec 2
  wake     : Bool
  /-- kinds 1, 3 and 4 waiting for room (R383) -/
  kept     : List FaultRec
  /-- records that crews which have left their places still had to deliver (R383) -/
  left     : List FaultRec
  /-- records written whose CTX.FRPROD has not advanced, with their GWCT_fab (R383) -/
  writing  : List Nat
  stackPool : Word
  stackMax : BitVec 32
  saveSize : Word
  ns       : BitVec 12
  wsetBase : Word
  trRoot   : Word
  trEn     : Bool
  fbDropped : Bool
  trMsix   : BitVec 8
  fb       : Table FbEntry
  tagAddr  : Word
  tagStat  : BitVec 2
  /-- the home of the block that TAG.ADDR names, once it was written and translated (R442) -/
  tagHome  : Option Nat
  /-- fabric groups of crews that were killed, with their launches, not acknowledged yet (R63, R371, R390) -/
  orphans  : List (Nat × FarGroup) := []
deriving DecidableEq, Repr

/-- The reset values of R372, R406, R432, R452; CTX.PART, CTX.VI and CTX.LEVEL have none and are 0 (log 6). -/
def Ctx.reset : Ctx :=
  { hen := false, handler := 0, part := 0, vi := 0, level := false, state := 0, frLost := false, frFull := false
    dupAnn := false, frBad := false, frBase := 0, frProd := 0, frCons := 0, msix := 0, frSize := 4, saveBase := 0
    cmdStat := 0, wake := false, kept := [], left := [], writing := [], stackPool := 0, stackMax := 4096, saveSize := 0, ns := 0
    wsetBase := 0, trRoot := 0, trEn := false, fbDropped := false, trMsix := 0, fb := [], tagAddr := 0, tagStat := 0, tagHome := none }

/-- An issued packet that has not completed (R396): its number, what it waits for, whether it is a SIGNAL. -/
structure PktRun where
  no      : Nat
  launch  : Option Nat
  op      : Option Nat
  set     : Option Nat
  gwct    : Nat
  signal  : Bool
  irq     : Bool
deriving DecidableEq, Repr

/-- A queue's registers (R394) and what its slot keeps (R396, R413). -/
structure Queue where
  vi      : BitVec 6
  ctx     : BitVec 12
  size    : BitVec 4
  cls     : BitVec 2
  en      : Bool
  base    : Word
  tail    : BitVec 16
  head    : BitVec 16
  slot    : BitVec 8
  ecls    : BitVec 2
  errType : BitVec 8
  err     : BitVec 4
  waiting : Bool
  pending : Bool
  mapped  : Bool
  halted  : Bool
  qcb     : Word
  msix    : BitVec 8
  /-- the packet waiting in WAITV (1) or FENCE (2), and its bits -/
  saved   : Option (Nat × BitVec 512)
  since   : Nat
  agedAt  : Nat
  mappedAt : Nat
  next    : Nat
  runs    : List PktRun
  /-- it is to be unmapped at its next packet boundary -/
  leaves  : Bool := false
deriving DecidableEq, Repr

/-- The reset values of R394. -/
def Queue.reset : Queue :=
  { vi := 0, ctx := 0, size := 4, cls := 3, en := false, base := 0, tail := 0, head := 0, slot := 0xFF, ecls := 3
    errType := 0, err := 0, waiting := false, pending := false, mapped := false, halted := false, qcb := 0, msix := 0
    saved := none, since := 0, agedAt := 0, mappedAt := 0, next := 0, runs := [] }

/-- A slot's registers (R415). -/
structure Slot where
  time  : BitVec 32
  busy  : Bool
  cls   : BitVec 2
  queue : BitVec 10
deriving DecidableEq, Repr

/-- The reset values of R415. -/
def Slot.reset : Slot := { time := 0, busy := false, cls := 0, queue := 0 }

/-- A kernel descriptor (R408); `width` is in lanes, `uclass` is KD.CLASS. -/
structure Kd where
  entry   : BitVec 64
  scratch : Nat
  argSize : Nat
  frame   : Nat
  wrows   : Nat
  gang    : Nat
  tiles   : Nat
  uclass  : Bool
  pair    : Bool
  crews   : Nat
  width   : Nat
deriving DecidableEq, Repr

/-- A loaded object (R227, R238, R408, R444, R481): its function table holds an entry address and a frame size, none where
unresolved. -/
structure Obj where
  ctx      : Nat
  textBase : BitVec 64
  textSize : Nat
  kernels  : List Kd
  funcs    : List (Option (BitVec 64 × Nat))
  banks    : List (List Byte)
  database : BitVec 64
  portable : BitVec 256
  svn      : Nat
  retired  : Bool
deriving DecidableEq, Repr

/-- A launch (R60, R63, R64, R399, R405): `home` is the module that holds the counter, none for this one. -/
structure Launch where
  ctx     : Nat
  object  : Nat
  kernel  : Nat
  home    : Option Nat
  homeNo  : Nat
  counter : Nat
  prio    : Nat
  args    : Word
  done    : Word
  doneVal : BitVec 32
  retry   : Nat
  idem    : Bool
  stack   : Nat
  pool    : Word
  reported : Table Nat
  gwct    : Nat
  broken  : Bool
  /-- what this module still has to report home, in order: the change, the GWCT_fab it waits for, the modules of new teams (R64) -/
  reports : List (Int × Nat × List Nat)
deriving DecidableEq, Repr

/-- Teams that one `spawn`, LAUNCH or relaunch created and that are not placed yet (R71, R416): numbers `next` to
`total - 1` of the grid. -/
structure Pend where
  launch  : Nat
  grid    : Nat
  kernel  : Nat
  object  : Nat
  ctx     : Nat
  prio    : Nat
  time    : Nat
  order   : Nat
  next    : Nat
  last    : Nat
  nteams  : Nat
  args    : Word
  key     : List Nat
  clock   : Nat
  relaunches : Nat
  gang    : Nat
  peers   : List Nat
deriving DecidableEq, Repr

/-- The states of a gang (R420). -/
inductive GangSt where
  | unplaced | reserving | running | closing | saved
deriving DecidableEq, Repr

/-- A gang (R418 to R422): its key is time, coordinator, number; `members` gives the module of each rank; `window` the first
core held here. -/
structure Gang where
  pend     : Pend
  first    : Nat
  time     : Nat
  coord    : Nat
  no       : Nat
  members  : List Nat
  st       : GangSt
  prev     : GangSt
  window   : Option Nat
  committed : Bool
  go       : Bool
  heldFrom : List Nat
  placedFrom : List Nat
  savedFrom : List Nat
  since    : Nat
  reservedAt : Option (Nat × Nat)
  detached : List Nat
  lost     : List Nat
  teams    : Table Nat
  /-- a pre-emption asked for it before GO (R421) -/
  wanted   : Bool := false
deriving DecidableEq, Repr

/-- An entry of a TLB (R433): context, page address and size, and the leaf found. -/
structure TlbEntry where
  ctx   : Nat
  page  : Nat
  size  : Nat
  leaf  : Word
deriving DecidableEq, Repr

/-- How a translation ends: with a leaf and its page size, not-present at a level, or permission (R428, R435). -/
inductive Trans where
  | ok (e size : Nat)
  | absent (level : Nat)
  | bad
deriving DecidableEq, Repr

/-- A walk in flight (R433): the unit (an L2 TLB or a junction die's), the context, the 64 KiB page, and what it found. -/
structure WalkRun where
  unit : Nat
  ctx  : Nat
  page : Nat
  res  : Trans
deriving DecidableEq, Repr

/-- The lease state of a line at its home (R104, R105, R119): the lease length in units of 256 ns, whether a store was
performed since the last grant, the latest expiry of leases on this module and elsewhere, the last write of each core
(640: any other agent), and the exclusive lease: its core and expiry. -/
structure Line where
  n        : Nat
  stored   : Bool
  expMod   : Nat
  expFab   : Nat
  writes   : Table Nat
  excl     : Option (Nat × Nat)
deriving DecidableEq, Repr

/-- A co-location measurement (R425): operations and bytes of the running window, and the last class, true for compute-bound. -/
structure Coloc where
  ops   : Nat
  bytes : Nat
  cls   : Option Bool
deriving DecidableEq, Repr

/-- An image in a context's save area (R385, R424): the directory entry, the offset and size of its extent, the kind (1 pre-emption, 2
tile spill), and, for a pre-emption, the crews by place and the team's range-lock entries; `writes` are the engine operations that write it where the
save area lies on another module. -/
structure SavedTeam where
  ctx   : Nat
  entry : Nat
  base  : Nat
  size  : Nat
  kind  : Nat
  crews : Table Crew
  locks : List RangeLock
  writes : List Nat := []
deriving DecidableEq, Repr

end Sys2Proof.Machine
end

