-- ==== Sys2Proof/Machine/Table.lean ====
section
/-! DEFINITION. Operations on sparse tables: sorted key and value lists. A table with a default value lists no entry equal
to the default, so that equal contents are equal data. -/

namespace Sys2Proof.Machine

variable {β : Type}

/-- The value at a key, where the table lists one. -/
def Tab.find : Table β → Nat → Option β
  | [], _ => none
  | (k', v) :: t, k => if k = k' then some v else Tab.find t k

/-- The value at a key, `d` where the table lists none. -/
def Tab.get (d : β) (t : Table β) (k : Nat) : β :=
  match Tab.find t k with
  | some v => v
  | none => d

/-- Sets a key, keeping the keys in order. -/
def Tab.put : Table β → Nat → β → Table β
  | [], k, v => [(k, v)]
  | (k', v') :: t, k, v =>
      if k < k' then (k, v) :: (k', v') :: t
      else if k = k' then (k, v) :: t
      else (k', v') :: Tab.put t k v

/-- Removes a key. -/
def Tab.del : Table β → Nat → Table β
  | [], _ => []
  | (k', v') :: t, k => if k = k' then Tab.del t k else (k', v') :: Tab.del t k

/-- Sets a key of a table with default `d`: the default itself is not listed. -/
def Tab.set [DecidableEq β] (d : β) (t : Table β) (k : Nat) (v : β) : Table β :=
  if v = d then Tab.del t k else Tab.put t k v

/-- The keys, in rising order. -/
def Tab.keys (t : Table β) : List Nat := t.map Prod.fst
/-- The values, by rising key. -/
def Tab.vals (t : Table β) : List β := t.map Prod.snd

/-- Every key of the table lies above `k`. -/
def Tab.above (k : Nat) (t : Table β) : Bool := t.all fun e => decide (k < e.1)

/-- The keys rise strictly. -/
def Tab.sorted : Table β → Bool
  | [] => true
  | (k, _) :: t => Tab.above k t && Tab.sorted t

/-- The canonical form of a table with default `d`: keys rise strictly and no entry holds the default. -/
def Tab.wf [DecidableEq β] (d : β) (t : Table β) : Bool :=
  Tab.sorted t && t.all fun e => decide (e.2 ≠ d)

/-- The smallest number, from `lo` on among `n` candidates, that is no key. -/
def Tab.freeKey (t : Table β) : Nat → Nat → Option Nat
  | _, 0 => none
  | lo, n + 1 => match Tab.find t lo with
    | none => some lo
    | some _ => Tab.freeKey t (lo + 1) n

end Sys2Proof.Machine
end

