-- ==== Sys2Proof/Machine/State.lean ====
section
/-! DEFINITION. The state of one module, all of it plain data, and the state right after reset. -/

namespace Sys2Proof.Machine

/-- Why the machine stops. -/
inductive Fault where
  /-- Raised by `step` on a module whose supply was lost (POWER_LOSS) unless the next turn is RESET. Safe: such a module
  does nothing at all. -/
  | unpowered
deriving DecidableEq, Repr

/-- Why the model has no meaning to give. -/
inductive Refusal where
  /-- Raised only by the dispatch, for an instruction without a meaning. Safe: nothing is claimed of it. -/
  | notModelled (mnemonic : String)
deriving DecidableEq, Repr

/-- Whose turn it is (log 3): a split issues, a winch context issues, a queue's slot goes on, an event of the hardware
happens, or fabric time passes. -/
inductive Turn where
  | issue (place split : Nat)
  | winch (w c : Nat)
  | queue (q : Nat)
  | event (i : Instr)
  | elapse (ns : Nat)
deriving DecidableEq, Repr

/-- Who issues the instruction being executed. -/
inductive Who where
  | none
  | crew (place split : Nat)
  | winch (w c : Nat)
  | queue (q : Nat)
deriving DecidableEq, Repr

/-- The state of a module. Key numbers: crews by place 64 * core + 8 * slot + index; winch contexts 4 * winch + context;
memory by HBM physical address, seam frames from 2^48 on; TLBs by unit: core c is c, die d 1000 + d, junction die j
2000 + j; cycles of a slot 8 * core + slot. `now` is fabric time (R8): a count without a bound, so that no comparison wraps past 2^64;
FT.NOW reads it modulo 2^64 (DESIGN CHOICE, unsafe past 2^64 ns, log 58). -/
structure State where
  mem      : List Host.Cell
  tags     : Table (BitVec 4)
  poison   : Table Unit
  lines    : Table Line
  wlog     : Table (List WriteRec)
  tracks   : Table (List Track)
  tlbs     : Table (List TlbEntry)
  walks    : List WalkRun
  crews    : Table Crew
  teams    : Table Team
  cores    : Table CoreSt
  launches : Table Launch
  pends    : List Pend
  gangs    : Table Gang
  saved    : Table SavedTeam
  coloc    : Table Coloc
  cycles   : Table Nat
  parts    : Table Part
  vis      : Table Vi
  ctxs     : Table Ctx
  objs     : Table Obj
  queues   : Table Queue
  slots    : Table Slot
  engines  : Table EngOp
  passes   : Table PassSet
  held     : List HeldPass
  groups   : Table (List Nat)
  announces : Table Announce
  jds      : Table Jd
  links    : Table Link
  wctxs    : Table Wctx
  wcur     : Table Nat
  imem     : Table Word
  wsets    : List WinchSet
  ft       : FabTime
  now      : Nat
  mod      : ModuleSt
  seq      : Nat
  powered  : Bool
  agenda   : List Turn
  cur      : Who
  fresh    : Nat
  outbox   : List Msg
deriving DecidableEq, Repr

/-- A core's state at reset: nothing resident, nothing locked (R121, R273, R417). -/
def CoreSt.reset : CoreSt :=
  { kickTeam := 0, kickList := 0, ranges := [], ops := [], lists := [], copies := [], vacating := false
    reserved := false, heldBy := none }

/-- The module service context at reset: service level, partition 0xF (R368); its other registers as every context. -/
def Ctx.service : Ctx := { Ctx.reset with level := true, part := 0xF }

/-- The state right after reset: no crew, team or launch exists, memory lists nothing, every register holds its reset
value. Tables list only entries that differ from their reset value. -/
def State.reset : State :=
  { mem := [], tags := [], poison := [], lines := [], wlog := [], tracks := [], tlbs := [], walks := [], crews := [], teams := []
    cores := [], launches := [], pends := [], gangs := [], saved := [], coloc := [], cycles := [], parts := [], vis := []
    ctxs := [(4095, Ctx.service)], objs := [], queues := [], slots := [], engines := [], passes := [], held := []
    groups := [], announces := [], jds := [], links := [], wctxs := [], wcur := [], imem := [], wsets := []
    ft := FabTime.reset, now := 0, mod := ModuleSt.reset, seq := 0, powered := true, agenda := [], cur := .none
    fresh := 0, outbox := [] }

end Sys2Proof.Machine
end

