-- ==== Sys2Proof/Machine/Go.lean ====
section
/-! DEFINITION. The one way in which the state changes: a step is a list of primitive updates, one kind per component of the
state, and a path carries the state it has reached with the fact that updates lead there. Whatever every update keeps,
every instruction and event keeps. -/

namespace Sys2Proof.Machine

/-- Sets or removes a key. -/
def Tab.upd {β : Type} (t : Table β) (k : Nat) (v : Option β) : Table β :=
  match v with
  | some b => Tab.put t k b
  | none => Tab.del t k

/-- The primitive updates: one per component of the state. `restart` is the loss of everything that RESET
or a loss of power loses; `keep` says that memory stays. -/
inductive Upd where
  | mem (k : Nat) (b : Byte)
  | tag (k : Nat) (v : BitVec 4)
  | poison (k : Nat) (on : Bool)
  | line (k : Nat) (v : Option Line)
  | wlog (k : Nat) (v : List WriteRec)
  | track (k : Nat) (v : List Track)
  | tlb (k : Nat) (v : List TlbEntry)
  | walks (v : List WalkRun)
  | crew (x : Nat) (v : Option Crew)
  | team (t : Nat) (v : Option Team)
  | core (k : Nat) (v : CoreSt)
  | launch (l : Nat) (v : Option Launch)
  | pends (v : List Pend)
  | gang (n : Nat) (v : Option Gang)
  | saved (t : Nat) (v : Option SavedTeam)
  | coloc (k : Nat) (v : Option Coloc)
  | cycle (k : Nat) (v : Nat)
  | part (p : Nat) (v : Part)
  | vi (n : Nat) (v : Vi)
  | ctx (c : Nat) (v : Ctx)
  | obj (h : Nat) (v : Option Obj)
  | queue (q : Nat) (v : Queue)
  | slot (n : Nat) (v : Slot)
  | engine (n : Nat) (v : Option EngOp)
  | passSet (n : Nat) (v : Option PassSet)
  | held (v : List HeldPass)
  | groups (k : Nat) (v : List Nat)
  | announce (n : Nat) (v : Option Announce)
  | jd (j : Nat) (v : Jd)
  | link (k : Nat) (v : Link)
  | wctx (k : Nat) (v : Wctx)
  | wcur (w : Nat) (c : Nat)
  | imem (k : Nat) (v : Word)
  | wsets (v : List WinchSet)
  | ft (v : FabTime)
  | now (v : Nat)
  | mod (v : ModuleSt)
  | seq
  | powered (v : Bool)
  | agenda (v : List Turn)
  | cur (v : Who)
  | fresh
  | outbox (v : List Msg)
  | restart (keep : Bool)
deriving Repr

/-- What an update does to the state. -/
def Upd.apply (u : Upd) (s : State) : State :=
  match u with
  | .mem k b => { s with mem := Tab.set 0 s.mem k b }
  | .tag k v => { s with tags := Tab.set 0 s.tags k v }
  | .poison k on => { s with poison := if on then Tab.put s.poison k () else Tab.del s.poison k }
  | .line k v => { s with lines := Tab.upd s.lines k v }
  | .wlog k v => { s with wlog := Tab.set [] s.wlog k v }
  | .track k v => { s with tracks := Tab.set [] s.tracks k v }
  | .tlb k v => { s with tlbs := Tab.set [] s.tlbs k v }
  | .walks v => { s with walks := v }
  | .crew x v => { s with crews := Tab.upd s.crews x v }
  | .team t v => { s with teams := Tab.upd s.teams t v }
  | .core k v => { s with cores := Tab.set CoreSt.reset s.cores k v }
  | .launch l v => { s with launches := Tab.upd s.launches l v }
  | .pends v => { s with pends := v }
  | .gang n v => { s with gangs := Tab.upd s.gangs n v }
  | .saved t v => { s with saved := Tab.upd s.saved t v }
  | .coloc k v => { s with coloc := Tab.upd s.coloc k v }
  | .cycle k v => { s with cycles := Tab.set 0 s.cycles k v }
  | .part p v => { s with parts := Tab.set Part.reset s.parts p v }
  | .vi n v => { s with vis := Tab.set Vi.reset s.vis n v }
  | .ctx c v => { s with ctxs := Tab.set Ctx.reset s.ctxs c v }
  | .obj h v => { s with objs := Tab.upd s.objs h v }
  | .queue q v => { s with queues := Tab.set Queue.reset s.queues q v }
  | .slot n v => { s with slots := Tab.set Slot.reset s.slots n v }
  | .engine n v => { s with engines := Tab.upd s.engines n v }
  | .passSet n v => { s with passes := Tab.upd s.passes n v }
  | .held v => { s with held := v }
  | .groups k v => { s with groups := Tab.set [] s.groups k v }
  | .announce n v => { s with announces := Tab.upd s.announces n v }
  | .jd j v => { s with jds := Tab.set Jd.reset s.jds j v }
  | .link k v => { s with links := Tab.set Link.reset s.links k v }
  | .wctx k v => { s with wctxs := Tab.set Wctx.reset s.wctxs k v }
  | .wcur w c => { s with wcur := Tab.set 0 s.wcur w c }
  | .imem k v => { s with imem := Tab.set 0 s.imem k v }
  | .wsets v => { s with wsets := v }
  | .ft v => { s with ft := v }
  | .now v => { s with now := v }
  | .mod v => { s with mod := v }
  | .seq => { s with seq := s.seq + 1 }
  | .powered v => { s with powered := v }
  | .agenda v => { s with agenda := v }
  | .cur v => { s with cur := v }
  | .fresh => { s with fresh := s.fresh + 1 }
  | .outbox v => { s with outbox := v }
  | .restart keep =>
    { State.reset with
      mem := if keep then s.mem else [], tags := if keep then s.tags else [], poison := if keep then s.poison else []
      mod := s.mod, seq := s.seq, cur := s.cur, fresh := s.fresh, outbox := s.outbox }

/-- `t` is reached from `s` by updates. -/
inductive Reach (s : State) : State → Prop where
  | refl : Reach s s
  | step {t : State} (u : Upd) (h : Reach s t) : Reach s (u.apply t)

/-- A path from `s`: the state reached so far. Every meaning is built of paths, so that its result is reached by
updates. -/
structure Go (s : State) where
  st : State
  reach : Reach s st

variable {s0 : State}

/-- The empty path. -/
def Go.start (s : State) : Go s := ⟨s, .refl⟩

/-- One more update. -/
def Go.put (g : Go s0) (u : Upd) : Go s0 := ⟨u.apply g.st, .step u g.reach⟩

/-- A path for each element of a list in turn. -/
def Go.each {α : Type} (g : Go s0) (xs : List α) (f : α → Go s0 → Go s0) : Go s0 :=
  match xs with
  | [] => g
  | x :: xs => Go.each (f x g) xs f

/-- The outcome of a meaning: the state its path reaches. -/
def Go.done (g : Go s0) : Host.Outcome State Fault Refusal := .next g.st

end Sys2Proof.Machine
end

