-- ==== Sys2Proof/Machine/Regs.lean ====
section
/-! DEFINITION. The registers of a crew: rows and windows (R30, R31, R49), uniform registers (R32), predicates (R33), layout
registers, lane sets, and what an instruction writes to them. -/

namespace Sys2Proof.Machine

/-- The low `w` lanes. -/
def laneMask (w : Nat) : Lanes := BitVec.ofNat 128 (2 ^ w - 1)

/-- Is the lane in the set? -/
def hasLane (m : Lanes) (l : Nat) : Bool := m.getLsbD l

/-- The lanes of a set below `w`, in increasing order (R16). -/
def lanesOf (m : Lanes) (w : Nat) : List Nat := (List.range w).filter fun l => hasLane m l

/-- One lane as a set. -/
def lane1 (l : Nat) : Lanes := BitVec.ofNat 128 (2 ^ l)

/-- A set from a list of lanes. -/
def laneSet : List Nat → Lanes
  | [] => 0
  | l :: ls => lane1 l ||| laneSet ls

/-- The lowest lane of a set below `w`. -/
def lowest (m : Lanes) (w : Nat) : Option Nat := (List.range w).find? fun l => hasLane m l

/-- The physical row of an operand row (R49). -/
def physRow (wbase wrows i : Nat) : Nat := (wbase + i) % wrows

/-- One row of one lane; rows that nothing wrote read 0 (R38, R49). -/
def Crew.row (c : Crew) (r l : Nat) : Row := Tab.get 0 c.v (r * 128 + l)

/-- A uniform register; `s0` reads 0 (R32). -/
def Crew.uni (c : Crew) (n : Nat) : Word := if n = 0 then 0 else Tab.get 0 c.s n

/-- The lanes in which a predicate is true; `p0` is true in every lane (R33). -/
def Crew.predSet (c : Crew) (n : Nat) : Lanes := if n = 0 then laneMask c.width else Tab.get 0 c.p n

/-- A predicate in one lane. -/
def Crew.pred (c : Crew) (n l : Nat) : Bool := hasLane (c.predSet n) l

/-- A layout register (R30, R274). -/
def Crew.layReg (c : Crew) (n : Nat) : LayRec := Tab.get 0 c.lay n

/-- `n` consecutive operand rows of one lane from index `i` on, joined low row first (R76). -/
def Crew.rowsVal (c : Crew) (wbase i n l : Nat) : Nat :=
  joinElems 32 ((List.range n).map fun j => (c.row (physRow wbase c.wrows (i + j)) l).toNat)

/-- Writes one row of one lane. -/
def Crew.setRow (c : Crew) (r l : Nat) (v : Nat) : Crew := { c with v := Tab.set 0 c.v (r * 128 + l) (BitVec.ofNat 32 v) }

/-- Writes a uniform register; a write to `s0` is discarded (R32). -/
def Crew.setUni (c : Crew) (n v : Nat) : Crew := if n = 0 then c else { c with s := Tab.set 0 c.s n (BitVec.ofNat 64 v) }

/-- Writes a predicate in the lanes of `m`; a write to `p0` is discarded (R33). -/
def Crew.setPred (c : Crew) (n : Nat) (m vals : Lanes) : Crew :=
  if n = 0 then c else { c with p := Tab.set 0 c.p n ((c.predSet n &&& ~~~m) ||| (vals &&& m)) }

/-- Writes a layout register. -/
def Crew.setLay (c : Crew) (n : Nat) (v : LayRec) : Crew := { c with lay := Tab.set 0 c.lay n v }

/-- What an instruction writes to the registers: physical rows by row and lane, uniform registers, predicates in a set of
lanes, layout registers, and the issuing split's format register. -/
structure RegOut where
  v   : List (Nat × Nat × Nat) := []
  s   : List (Nat × Nat) := []
  p   : List (Nat × Lanes × Lanes) := []
  lay : List (Nat × LayRec) := []
  fmt : Option (BitVec 32) := none
deriving DecidableEq, Repr

/-- Writes rows of lanes in order. -/
def Crew.putRows (c : Crew) : List (Nat × Nat × Nat) → Crew
  | [] => c
  | (r, l, x) :: t => Crew.putRows (c.setRow r l x) t

/-- Writes uniform registers in order. -/
def Crew.putUnis (c : Crew) : List (Nat × Nat) → Crew
  | [] => c
  | (n, x) :: t => Crew.putUnis (c.setUni n x) t

/-- Writes predicates in order. -/
def Crew.putPreds (c : Crew) : List (Nat × Lanes × Lanes) → Crew
  | [] => c
  | (n, m, x) :: t => Crew.putPreds (c.setPred n m x) t

/-- Writes layout registers in order. -/
def Crew.putLays (c : Crew) : List (Nat × LayRec) → Crew
  | [] => c
  | (n, x) :: t => Crew.putLays (c.setLay n x) t

/-- Writes everything of a `RegOut` but the format register, which belongs to the split. -/
def Crew.putOut (c : Crew) (o : RegOut) : Crew :=
  (((c.putRows o.v).putUnis o.s).putPreds o.p).putLays o.lay

/-! Register keys (R153): a row of a vector register is its physical number, uniform register n is 1024 + n, predicate n
is 2048 + n, layout register n is 4096 + n. A cell is a key times 128 plus the lane. -/

def keyS (n : Nat) : Nat := 1024 + n
def keyP (n : Nat) : Nat := 2048 + n
def keyL (n : Nat) : Nat := 4096 + n

/-- What a cell holds. -/
def Crew.cell (c : Crew) (k : Nat) : Nat :=
  let key := k / 128
  if key < 1024 then (c.row key (k % 128)).toNat
  else if key < 2048 then (c.uni (key - 1024)).toNat
  else if key < 4096 then (if c.pred (key - 2048) (k % 128) then 1 else 0)
  else (c.layReg (key - 4096)).toNat

/-- Sets a cell. -/
def Crew.setCell (c : Crew) (k x : Nat) : Crew :=
  let key := k / 128
  if key < 1024 then c.setRow key (k % 128) x
  else if key < 2048 then c.setUni (key - 1024) x
  else if key < 4096 then c.setPred (key - 2048) (lane1 (k % 128)) (if x = 1 then lane1 (k % 128) else 0)
  else c.setLay (key - 4096) (BitVec.ofNat 256 x)

/-- The cells of a key in a crew of width `w`. -/
def cellsOf (w key : Nat) : List Nat :=
  if 1024 ≤ key && key < 2048 || 4096 ≤ key then [key * 128] else (List.range w).map fun l => key * 128 + l

/-- The keys a `RegOut` writes. -/
def RegOut.keys (o : RegOut) : List Nat :=
  (o.v.map fun e => e.1) ++ (o.s.map fun e => keyS e.1) ++ (o.p.map fun e => keyP e.1) ++ (o.lay.map fun e => keyL e.1)

/-- The cells a `RegOut` writes in a crew of width `w`. -/
def RegOut.cells (w : Nat) (o : RegOut) : List Nat :=
  (o.v.map fun e => e.1 * 128 + e.2.1) ++ (o.s.map fun e => keyS e.1 * 128)
    ++ (o.p.map fun e => (lanesOf e.2.1 w).map fun l => keyP e.1 * 128 + l).flatten ++ (o.lay.map fun e => keyL e.1 * 128)

/-- The argument of a free value: the state's counter, what kind of choice it is, and which one of that kind (log 5). -/
def State.salt (s : State) (kind n : Nat) : Nat := 2 ^ 192 * s.fresh + 2 ^ 128 * kind + n

/-- Splits, joins and crews of the state. -/
def State.crew? (s : State) (x : Nat) : Option Crew := Tab.find s.crews x
def Crew.split? (c : Crew) (k : Nat) : Option Split := Tab.find c.splits k
def Crew.setSplit (c : Crew) (k : Nat) (sp : Split) : Crew := { c with splits := Tab.put c.splits k sp }
def State.team? (s : State) (t : Nat) : Option Team := Tab.find s.teams t
def State.coreOf (s : State) (n : Nat) : CoreSt := Tab.get CoreSt.reset s.cores n
def State.ctx (s : State) (c : Nat) : Ctx := Tab.get Ctx.reset s.ctxs c
def State.part (s : State) (p : Nat) : Part := Tab.get Part.reset s.parts p
def State.vi (s : State) (n : Nat) : Vi := Tab.get Vi.reset s.vis n
def State.queue (s : State) (q : Nat) : Queue := Tab.get Queue.reset s.queues q
def State.jd (s : State) (j : Nat) : Jd := Tab.get Jd.reset s.jds j
def State.link (s : State) (k : Nat) : Link := Tab.get Link.reset s.links k
def State.wctx (s : State) (w c : Nat) : Wctx := Tab.get Wctx.reset s.wctxs (4 * w + c)

/-- The core, the slot and the index of a place (R19, R373), and the place's die. -/
def placeCore (x : Nat) : Nat := x / 64
def placeSlot (x : Nat) : Nat := x / 8 % 8
def placeIdx (x : Nat) : Nat := x % 8
def placeDie (x : Nat) : Nat := x / 64 / 80

/-- The crew identifier of R373. -/
def crewId (ctx x : Nat) : Nat := ctx * 2 ^ 20 + placeIdx x * 2 ^ 13 + placeSlot x * 2 ^ 10 + placeCore x

/-- The winch-context identifier of R373. -/
def winchId (tid w c : Nat) : Nat := tid * 2 ^ 20 + w * 4 + c

end Sys2Proof.Machine
end

