-- ==== Sys2Proof/Machine/Translate.lean ====
section
/-! DEFINITION. Address translation: partitions and their memory (R102, R370, R429, R430), table walks (R426 to R428, R434),
the translation units (R433) and what a translated page says (R427, R431). -/

namespace Sys2Proof.Machine

/-- HBM bytes of the module (R4). -/
def hbmSize : Nat := 768 * 2 ^ 30
/-- Home keys of seam bytes start here: the frame address of R430 is added. -/
def seamBase : Nat := 2 ^ 48

/-- The scratch part and the seam part of a core's slice (R102, R370). -/
def Part.scratchPart (p : Part) : Nat := (2 + 2 * p.scratch.toNat) * 2 ^ 20
def Part.seamPart (p : Part) : Nat := 10 * 2 ^ 20 - p.scratchPart

/-- The partition that owns a die (R368, R370). -/
def State.partOfDie (s : State) (d : Nat) : Option Nat := (List.range 8).find? fun p => (s.part p).dies.getLsbD d
/-- The partition that owns a core. -/
def State.partOfCore (s : State) (c : Nat) : Option Nat := s.partOfDie (c / 80)
/-- The partition whose HBM range or cores hold a home byte (R429, R430). -/
def State.partOfHome (s : State) (k : Nat) : Option Nat :=
  if seamBase ≤ k then s.partOfCore ((k - seamBase) / 2 ^ 24)
  else (List.range 8).find? fun p => (s.part p).hbmBase ≤ k && k < (s.part p).hbmLimit

/-- Does the number of a context name the module service context, whose scope is the whole module (R368)? -/
def isService (ctx : Nat) : Bool := ctx == 4095

/-- Bytes from `a` on lie in the HBM that the context's tables and frames may use (R429). -/
def State.hbmOk (s : State) (ctx a n : Nat) : Bool :=
  if isService ctx then a + n ≤ hbmSize
  else let p := s.part (s.ctx ctx).part.toNat
       p.hbmBase ≤ a && a + n ≤ min p.hbmLimit hbmSize

/-- A SEAM frame that the context may use (R430): a core of its partition, for the module service context any core of the module. A
core whose die no partition owns has the seam part of R370's reset split. -/
def State.seamOk (s : State) (ctx frame size : Nat) : Bool :=
  let core := bitf frame 24 10
  let owner := s.partOfCore core
  let part := match owner with | some p => s.part p | none => Part.reset
  frame < 2 ^ 34 && core < 640 && size != 2 ^ 30 && (isService ctx || owner == some (s.ctx ctx).part.toNat)
    && bitf frame 0 24 + size ≤ part.seamPart

/-- The compute die whose L2 is the home of a byte (R103, R429, R430): of a seam byte the die of its core, of an HBM byte the die that
its partition's dies take in turn, or all eight outside every partition. -/
def State.homeDie (s : State) (k : Nat) : Nat :=
  if seamBase ≤ k then (k - seamBase) / 2 ^ 24 / 80
  else
    let dies := match s.partOfHome k with
      | some p => (List.range 8).filter fun d => (s.part p).dies.getLsbD d
      | none => List.range 8
    dies.getD (k / 65536 % dies.length) (k / 65536 % 8)

/-- The bytes from a home key on; an unlisted byte reads 0 (log 1). -/
def State.bytesAt (s : State) (k : Nat) : Nat → List Byte
  | 0 => []
  | n + 1 => Tab.get 0 s.mem k :: State.bytesAt s (k + 1) n

/-! The fields of a table entry (R427). -/
def pteLeaf (e : Nat) : Bool := bitf e 1 1 == 1
def pteRo (e : Nat) : Bool := bitf e 2 1 == 1
def pteXn (e : Nat) : Bool := bitf e 3 1 == 1
def pteType (e : Nat) : Nat := bitf e 4 2
def pteTagen (e : Nat) : Bool := bitf e 6 1 == 1
def pteDet (e : Nat) : Bool := bitf e 7 1 == 1
def pteMirror (e : Nat) : Bool := bitf e 8 1 == 1
def pteMidx (e : Nat) : Nat := bitf e 10 6
def pteFrame (e : Nat) : Nat := bitf e 16 30 * 2 ^ 16
def ptePeer (e : Nat) : Nat := bitf e 46 18
def pteNext (e : Nat) : Nat := bitf e 8 38 * 2 ^ 8

/-- A table level (R426): the lowest index bit, the index bits, and whether a leaf may stand there. -/
structure WalkLevel where
  shift : Nat
  bits  : Nat
  leaf  : Bool
deriving DecidableEq, Repr

/-- The five levels of R426. -/
def walkLevels : List WalkLevel :=
  [⟨48, 8, false⟩, ⟨39, 9, false⟩, ⟨30, 9, true⟩, ⟨21, 9, true⟩, ⟨16, 5, true⟩]

/-- A valid leaf of the given page size is well formed (R428, R429, R430; log 14 for a PEER or MIDX that must be 0). -/
def State.leafOk (s : State) (ctx e size : Nat) : Bool :=
  bitf e 9 1 == 0 && pteType e != 3 && pteFrame e % size == 0
    && (pteType e == 2 || (ptePeer e == 0 && !pteMirror e)) && (pteMirror e || pteMidx e == 0)
    && (pteType e != 0 || s.hbmOk ctx (pteFrame e) size) && (pteType e != 1 || s.seamOk ctx (pteFrame e) size)

/-- The walk from a table on (R426, R428): reads entries at their homes and ends at the first invalid entry or leaf. -/
def State.walkFrom (s : State) (ctx va table level : Nat) : List WalkLevel → Trans
  | [] => .bad
  | l :: ls =>
    if s.hbmOk ctx table (8 * 2 ^ l.bits) then
      let e := leNat (s.bytesAt (table + 8 * bitf va l.shift l.bits) 8)
      if e % 2 = 0 then .absent level
      else if pteLeaf e then
        if l.leaf && s.leafOk ctx e (2 ^ l.shift) then .ok e (2 ^ l.shift) else .bad
      else
        match ls with
        | [] => .bad
        | l' :: _ =>
          if bitf e 2 6 = 0 && ptePeer e = 0 && pteNext e % (8 * 2 ^ l'.bits) = 0 then
            State.walkFrom s ctx va (pteNext e) (level + 1) ls
          else .bad
    else .bad

/-- A walk of a context's tables (R426, R432): with TR.EN = 0 every walk ends not-present at level 0. -/
def State.walk (s : State) (ctx va : Nat) : Trans :=
  if (s.ctx ctx).trEn then s.walkFrom ctx va (s.ctx ctx).trRoot.toNat 0 walkLevels else .absent 0

/-- The capacity of a translation unit (R433): a core's L1 TLB, a die's L2 TLB (1000 + d), a junction die's TLB (2000 + j). -/
def tlbCap (u : Nat) : Nat := if u < 1000 then 512 else if u < 2000 then 16384 else 4096

/-- Does a held translation cover the address? -/
def TlbEntry.covers (e : TlbEntry) (ctx va : Nat) : Bool := e.ctx == ctx && e.page ≤ va && va < e.page + e.size

/-- The entry of a unit that an access uses: a held translation may have been evicted, so whether it is still there is
left open (R433, R434). -/
def State.tlbHit (s : State) (u ctx va : Nat) : Option TlbEntry :=
  match (Tab.get [] s.tlbs u).find? fun e => e.covers ctx va with
  | some e => if Config.freeBit (s.salt 1 (va / 2 ^ 16)) then some e else none
  | none => none

/-- A unit's entries with one more, in place of an older one of the same page, and at capacity of some other. -/
def State.tlbAdd (s : State) (u : Nat) (e : TlbEntry) : List TlbEntry :=
  let l := (Tab.get [] s.tlbs u).filter fun x => !(x.ctx == e.ctx && x.page == e.page && x.size == e.size)
  e :: (if l.length < tlbCap u then l else l.eraseIdx (Config.freeNat (s.salt 2 u) % tlbCap u))

variable {s0 : State}

/-- Takes a translation into the units. -/
def fillTlbs (g : Go s0) (us : List Nat) (e : TlbEntry) : Go s0 :=
  g.each us fun u g => g.put (.tlb u (g.st.tlbAdd u e))

/-- Bits [55:0] of an address: what translation reads (R426). -/
def va56 (a : Nat) : Nat := a % 2 ^ 56

/-- A walk in flight, at the last of the units asked, for the address's 64 KiB page (R433). -/
def State.walking (s : State) (us : List Nat) (ctx va : Nat) : Option WalkRun :=
  s.walks.find? fun w => us.getLast? == some w.unit && w.ctx == ctx && w.page == va / 65536

/-- The translation of an address through units asked in order, then a walk, which a miss that finds one in flight for its page joins;
what a walk found is taken into the units (R433, R434). -/
def translate (g : Go s0) (us : List Nat) (ctx a : Nat) : Trans × Go s0 :=
  let va := va56 a
  match us.findSome? fun u => g.st.tlbHit u ctx va with
  | some e => (.ok e.leaf.toNat e.size, g)
  | none =>
    let r := match g.st.walking us ctx va with
      | some w => w.res
      | none => g.st.walk ctx va
    match r with
    | .ok e size =>
        (.ok e size, fillTlbs g us { ctx := ctx, page := va - va % size, size := size, leaf := BitVec.ofNat 64 e })
    | r => (r, g)

/-- The units of a crew at a core (R433), and of a junction die. -/
def coreUnits (core : Nat) : List Nat := [core, 1000 + core / 80]
def jdUnits (j : Nat) : List Nat := [2000 + j]

/-- Where the byte of an address lives under a leaf (R428 to R431). -/
def leafLoc (e size a : Nat) : Loc :=
  let off := va56 a % size
  match pteType e with
  | 0 => .home (pteFrame e + off)
  | 1 => .home (seamBase + pteFrame e + off)
  | _ => .far (ptePeer e) (BitVec.ofNat 64 (pteFrame e + off))

/-- The tag of the granule that holds a home byte (R441). -/
def State.tagAt (s : State) (k : Nat) : Nat := (Tab.get 0 s.tags (k / 32)).toNat

end Sys2Proof.Machine
end

