-- ==== Sys2Proof/Machine/Ops.lean ====
section
/-! DEFINITION. The shared operations on memory at its homes (R103 to R105, R118), on fault records and the fault buffer
(R380 to R383, R436 to R438), taking a fault (R67, R68, R381) and resuming from one (R376). -/

namespace Sys2Proof.Machine

variable {s0 : State}

/-! ### Messages and interrupts -/

/-- Sends a message out of the module. -/
def send (g : Go s0) (m : Msg) : Go s0 := g.put (.outbox (g.st.outbox ++ [m]))
/-- Queues an event of this module as a turn. -/
def later (g : Go s0) (i : Instr) : Go s0 := g.put (.agenda (g.st.agenda ++ [.event i]))
/-- Raises an interrupt vector of a context's virtual interface. -/
def msixOf (g : Go s0) (ctx : Nat) (vector : BitVec 8) : Go s0 := send g (.msix (g.st.ctx ctx).vi.toNat vector.toNat)

/-! ### Updating one object -/

def modCrew (g : Go s0) (x : Nat) (f : Crew → Crew) : Go s0 :=
  match g.st.crew? x with
  | some c => g.put (.crew x (some (f c)))
  | none => g

def modTeam (g : Go s0) (t : Nat) (f : Team → Team) : Go s0 :=
  match g.st.team? t with
  | some c => g.put (.team t (some (f c)))
  | none => g

def modSplit (g : Go s0) (x k : Nat) (f : Split → Split) : Go s0 :=
  modCrew g x fun c => match c.split? k with
    | some sp => c.setSplit k (f sp)
    | none => c

def modCtx (g : Go s0) (c : Nat) (f : Ctx → Ctx) : Go s0 := g.put (.ctx c (f (g.st.ctx c)))
def modCore (g : Go s0) (n : Nat) (f : CoreSt → CoreSt) : Go s0 := g.put (.core n (f (g.st.coreOf n)))
def modLaunch (g : Go s0) (l : Nat) (f : Launch → Launch) : Go s0 :=
  match Tab.find g.st.launches l with
  | some v => g.put (.launch l (some (f v)))
  | none => g

/-! ### Homes -/

/-- The 64-byte line of a home byte (R104). -/
def lineOf (k : Nat) : Nat := k / 64

/-- The distinct numbers of a list, in order of first appearance. -/
def distinct : List Nat → List Nat
  | [] => []
  | x :: xs => x :: (distinct xs).filter fun y => y != x

/-- Insertion into a rising list. -/
def insertNat (x : Nat) : List Nat → List Nat
  | [] => [x]
  | y :: ys => if x ≤ y then x :: y :: ys else y :: insertNat x ys
/-- The numbers of a list in rising order. -/
def sortNat : List Nat → List Nat
  | [] => []
  | x :: xs => insertNat x (sortNat xs)

/-- Who writes at a home: the core (640 for an agent that is no core), whether from another module, the launch and clock of
a crew's write (R72), the scope it releases at and what it is ordered after, the crew with the number of its access, and its team. -/
structure By where
  core   : Nat := 640
  remote : Bool := false
  launch : Option Nat := none
  clock  : Nat := 0
  scope  : Nat := 0
  vc     : Table Nat := []
  who    : Option (Nat × Nat) := none
  team   : Nat := 2 ^ 64
deriving DecidableEq, Repr

/-- The record of a write (R72). -/
def By.record (b : By) (old new : Nat) : WriteRec :=
  { old := old, new := new, launch := b.launch, clock := b.clock, vc := b.vc, scope := b.scope, who := b.who
    core := b.core, team := b.team }

/-- The lease state of a line; a line without a lease or write so far. -/
def State.lineAt (s : State) (ln : Nat) : Line :=
  match Tab.find s.lines ln with
  | some l => l
  | none => { n := 0, stored := true, expMod := 0, expFab := 0, writes := [], excl := none }

/-- The initial lease length of a line: LSE.INIT of the partition that holds it (R104, R465), 16 where none does. -/
def State.leaseInit (s : State) (ln : Nat) : Nat :=
  match s.partOfHome (ln * 64) with
  | some p => max 1 (min 250 (s.part p).lseInit)
  | none => 16

/-- The lease length of the next grant (R104). -/
def State.leaseLen (s : State) (ln : Nat) : Nat :=
  let l := s.lineAt ln
  if l.n = 0 then s.leaseInit ln
  else if max l.expMod l.expFab + 64000 ≤ s.now then s.leaseInit ln
  else if l.stored then l.n
  else min 250 (2 * l.n)

/-- Grants a lease on a line, to a core of this module or to another module (R104). -/
def grantLease (g : Go s0) (ln : Nat) (remote : Bool) : Go s0 :=
  let l := g.st.lineAt ln
  let n := g.st.leaseLen ln
  let e := g.st.now + 256 * n
  g.put (.line ln (some { l with n := n, stored := false, expMod := if remote then l.expMod else max l.expMod e
                                 expFab := if remote then max l.expFab e else l.expFab }))

/-- A line after a store performed at its home (R104, R119). -/
def Line.afterStore (l : Line) (now core : Nat) : Line :=
  { l with n := if now < max l.expMod l.expFab then max 1 (l.n / 2) else l.n, stored := true
           writes := Tab.put l.writes core now }

/-- No other core and no other agent has written the line within the last 4096 ns (R119). -/
def Line.quiet (l : Line) (now core : Nat) : Bool := l.writes.all fun e => e.1 == core || e.2 + 4096 ≤ now

/-- Is a line held by another core's exclusive lease (R119)? -/
def State.heldLine (s : State) (ln core : Nat) : Bool :=
  match (s.lineAt ln).excl with
  | some (c, e) => c != core && s.now < e
  | none => false

/-- The write completion times of a store that performed at `tperf` (R105): the latest unexpired lease on the module, and anywhere plus
the skew where the issuer or a holder is on another module. -/
def State.gwct (s : State) (ln tperf : Nat) (remote : Bool) : Nat × Nat :=
  let l := s.lineAt ln
  (max tperf l.expMod, max tperf (max l.expMod l.expFab) + if remote || tperf < l.expFab then 50 else 0)

/-- The completion times of a store over several lines that performed at `tperf`: the largest of each (R105). -/
def State.gwctAt (s : State) (lns : List Nat) (tperf : Nat) (remote : Bool) : Nat × Nat :=
  lns.foldl (fun a ln => let b := s.gwct ln tperf remote; (max a.1 b.1, max a.2 b.2)) (tperf, tperf)
/-- The same for a store that performs now. -/
def State.gwctOf (s : State) (lns : List Nat) (remote : Bool) : Nat × Nat := s.gwctAt lns s.now remote

/-- The 64-byte lines of homes that accesses touch. -/
def homeLines (ls : List LaneAcc) : List Nat :=
  distinct (ls.filterMap fun l => match l.loc with | .home k => some (lineOf k) | _ => none)

/-- An exclusive lease ends: the completion times of the atomics it covered are formed with its end, now or at its expiry (R119). -/
def endLease (g : Go s0) (ln : Nat) : Go s0 :=
  match (g.st.lineAt ln).excl with
  | none => g
  | some (core, expiry) =>
    let g := g.put (.line ln (some { g.st.lineAt ln with excl := none }))
    let t := g.st.gwctAt [ln] (min g.st.now expiry) false
    g.each (g.st.crews.filter fun e => placeCore e.1 == core) fun e g =>
      modCrew g e.1 fun c => { c with storeq := c.storeq.map fun (q : StoreEntry) =>
        if q.op != .store && !q.acked && (homeLines q.lanes).contains ln && !q.left.contains ln then
          { q with gwctMod := max q.gwctMod t.1, gwctFab := max q.gwctFab t.2 } else q }

/-- A line is accessed at its home by a core (640: another agent, R119): a lease that has expired, or that another core holds and now returns,
ends first. -/
def settleLease (g : Go s0) (ln core : Nat) : Go s0 :=
  match (g.st.lineAt ln).excl with
  | some (c, e) => if c ≠ core || e ≤ g.st.now then endLease g ln else g
  | none => g

/-- The value of an aligned word of home bytes. -/
def State.wordAt (s : State) (w : Nat) : Nat := leNat (s.bytesAt (4 * w) 4)

/-- Writes bytes at their homes (R103): the bytes and the coherence order of their words; written bytes carry no poison. -/
def homeCells (g : Go s0) (by_ : By) (cells : List (Nat × Byte)) : Go s0 :=
  let words := distinct (cells.map fun e => e.1 / 4)
  let olds := words.map fun w => (w, g.st.wordAt w)
  let g := g.each cells fun e g => (g.put (.mem e.1 e.2)).put (.poison e.1 false)
  g.each olds fun e g => g.put (.wlog e.1 (Tab.get [] g.st.wlog e.1 ++
    [by_.record e.2 (g.st.wordAt e.1)]))

/-- Performs a store at the homes of its bytes (R103, R105): the bytes, and the lease state of their lines. -/
def homeStore (g : Go s0) (by_ : By) (cells : List (Nat × Byte)) : Go s0 :=
  let lns := distinct (cells.map fun e => lineOf e.1)
  (homeCells (g.each lns fun ln g => settleLease g ln by_.core) by_ cells).each lns fun ln g =>
    g.put (.line ln (some ((g.st.lineAt ln).afterStore g.st.now by_.core)))

/-- Bytes laid from a home key on. -/
def cellsFrom (k : Nat) : List Byte → List (Nat × Byte)
  | [] => []
  | b :: bs => (k, b) :: cellsFrom (k + 1) bs

/-- Is any byte of a list of home bytes poisoned (R389)? -/
def State.poisoned (s : State) (k n : Nat) : Bool := (List.range n).any fun i => (Tab.find s.poison (k + i)).isSome

/-! ### Reading for an agent that uses no leased copy -/

/-- How an access of an agent that is no crew ends at translation: the first byte's place, or the cause (R220). -/
inductive Place where
  | at_ (loc : Loc) (e : Nat)
  | cause (n level : Nat)
deriving DecidableEq, Repr

/-- Checks and translates one access by the rules of R220 for causes 4 to 8, without taking it: misaligned, bounds,
not-present, permission, tag-mismatch; `det` says that the page must carry determinism tracking (R132). -/
def placeOf (g : Go s0) (us : List Nat) (ctx a size : Nat) (write : Bool) (det : Bool := false) : Place × Go s0 :=
  if a % size ≠ 0 then (.cause 4 0, g)
  else if bitf a 56 4 ≠ 0 then (.cause 5 0, g)
  else
    match translate g us ctx a with
    | (.absent l, g) => (.cause 6 l, g)
    | (.bad, g) => (.cause 7 0, g)
    | (.ok e psize, g) =>
      if write && pteRo e then (.cause 7 0, g)
      else if det && pteType e != 2 && !pteDet e then (.cause 7 0, g)
      else
        match leafLoc e psize a with
        | .home k => if pteTagen e && g.st.tagAt k ≠ bitf a 60 4 then (.cause 8 0, g) else (.at_ (.home k) e, g)
        | l => (.at_ l e, g)

/-- Why an operation stops: the cause, the address, for not-present the level, and whether the access is a write. -/
structure Stop where
  cause : Nat
  addr  : Nat := 0
  level : Nat := 0
  write : Bool := false
deriving DecidableEq, Repr

/-- Does some granule of a piece of home bytes carry another tag than the pointer's (R441)? -/
def State.tagClash (s : State) (k n tag : Nat) : Bool :=
  (List.range ((k + n + 31) / 32 - k / 32)).any fun i => (Tab.get 0 s.tags (k / 32 + i)).toNat != tag

/-- Checks and translates a range of bytes page by page (R220, R262): what stops it, and the pieces it lies in; `det` says that every
page that is not in a FABRIC-WINDOW must carry determinism tracking (R132). Each unit of fuel is one page; after a page that is not
mapped the check goes on at the next 64 KiB boundary. -/
def rangePiecesDet (g : Go s0) (us : List Nat) (ctx a len : Nat) (write det : Bool) : Nat → (List Stop × Pieces) × Go s0
  | 0 => (([], []), g)
  | fuel + 1 =>
    let stop := fun cause level => ({ cause := cause, addr := a, level := level, write := write } : Stop)
    if len = 0 then (([], []), g)
    else if bitf a 56 4 ≠ 0 then (([stop 5 0], []), g)
    else
      let step := min len (65536 - a % 65536)
      match translate g us ctx a with
      | (.absent l, g) =>
        let ((es, ps), g) := rangePiecesDet g us ctx ((a + step) % 2 ^ 64) (len - step) write det fuel
        ((stop 6 l :: es, ps), g)
      | (.bad, g) =>
        let ((es, ps), g) := rangePiecesDet g us ctx ((a + step) % 2 ^ 64) (len - step) write det fuel
        ((stop 7 0 :: es, ps), g)
      | (.ok e psize, g) =>
        let n := min len (psize - va56 a % psize)
        let loc := leafLoc e psize a
        let clash := match loc with
          | .home k => pteTagen e && g.st.tagClash k n (bitf a 60 4)
          | _ => false
        let mine : List Stop :=
          if (write && pteRo e) || (det && pteType e != 2 && !pteDet e) then [stop 7 0] else if clash then [stop 8 0] else []
        let ((es, ps), g) := rangePiecesDet g us ctx ((a + n) % 2 ^ 64) (len - n) write det fuel
        ((mine ++ es, { loc := loc, len := n, leaf := e, peers := [] } :: ps), g)

/-- The same for an agent that is no crew of a D-class kernel. -/
def rangePieces (g : Go s0) (us : List Nat) (ctx a len : Nat) (write : Bool) (fuel : Nat) : (List Stop × Pieces) × Go s0 :=
  rangePiecesDet g us ctx a len write false fuel

/-- A whole range: the pieces, or every stop. -/
def rangeOf (g : Go s0) (us : List Nat) (ctx a len : Nat) (write : Bool) (det : Bool := false) : Except (List Stop) Pieces × Go s0 :=
  let ((es, ps), g) := rangePiecesDet g us ctx a len write det (len / 2 ^ 16 + 2)
  (if es.isEmpty then .ok ps else .error es, g)

/-- The place `n` bytes on. -/
def Loc.plus (n : Nat) : Loc → Loc
  | .home k => .home (k + n)
  | .scratch t off => .scratch t (off + n)
  | .far p va => .far p (va + BitVec.ofNat 64 n)

/-- Does a byte live on another module? -/
def Loc.isFar : Loc → Bool
  | .far .. => true
  | _ => false

/-- Does a range leave the module? -/
def Pieces.off (ps : Pieces) : Bool := ps.any fun p => Loc.isFar p.loc

/-- Marks a team not relaunch-eligible (R232, R314). -/
def noRelaunch (g : Go s0) (t : Nat) : Go s0 := modTeam g t fun tm => { tm with relaunchOk := false }

/-- An access to a FABRIC-WINDOW page ends the team's relaunch eligibility (R232). -/
def offRelaunch (g : Go s0) (t : Nat) (ps : Pieces) : Go s0 := if Pieces.off ps then noRelaunch g t else g

/-- Insertion of a number in a rising list without repeats. -/
def numInto (p : Nat) : List Nat → List Nat
  | [] => [p]
  | q :: qs => if p < q then p :: q :: qs else if p = q then q :: qs else q :: numInto p qs

/-- Looks 64 KiB pages up in increasing order, each once (R433). -/
def lookUp (g : Go s0) (us : List Nat) (ctx : Nat) (ps : List Nat) : Go s0 :=
  g.each (ps.foldr numInto []) fun p g => (translate g us ctx (65536 * p)).2

/-- The pages of ranges of bytes, looked up in increasing order (R433). -/
def lookRanges (g : Go s0) (us : List Nat) (ctx : Nat) (rs : List (Nat × Nat)) : Go s0 :=
  lookUp g us ctx ((rs.filter fun r => r.2 != 0 && bitf r.1 56 4 == 0).map fun r =>
    (List.range ((r.1 % 65536 + r.2 + 65535) / 65536)).map fun k => va56 (r.1 + 65536 * k) / 65536).flatten

/-- The place of byte `o` of a range, with the peers of its page. -/
def placeIn : Pieces → Nat → Option (Loc × List Nat)
  | [], _ => none
  | p :: ps, o => if o < p.len then some (Loc.plus o p.loc, p.peers) else placeIn ps (o - p.len)

/-- The home bytes of pieces, with how many follow from each key. -/
def homeRuns (ps : Pieces) : List (Nat × Nat) :=
  ps.filterMap fun p => match p.loc with
    | .home k => some (k, p.len)
    | _ => none

/-- The bytes of home runs. -/
def State.runBytes (s : State) (rs : List (Nat × Nat)) : List Byte := (rs.map fun r => s.bytesAt r.1 r.2).flatten

/-- The bytes of home pieces. -/
def State.piecesBytes (s : State) (ps : Pieces) : List Byte := s.runBytes (homeRuns ps)

/-- The lines of home runs. -/
def runLines (rs : List (Nat × Nat)) : List Nat :=
  distinct ((rs.map fun r => (List.range (lineOf (r.1 + r.2 - 1) + 1 - lineOf r.1)).map fun i => lineOf r.1 + i).flatten)

/-- Exclusive leases on the lines of runs that an agent of no core is about to read are returned (R119). -/
def returnLeases (g : Go s0) (rs : List (Nat × Nat)) : Go s0 := g.each (runLines rs) fun ln g => settleLease g ln 640

/-- Bytes laid over home pieces. -/
def pieceCells : List (Nat × Nat) → List Byte → List (Nat × Byte)
  | [], _ => []
  | (k, n) :: t, bs => cellsFrom k (bs.take n) ++ pieceCells t (bs.drop n)

/-! ### L1 copies -/

/-- A core's live copy of a line that a crew may use: not expired (R104), granted at or after the crew's T_f (R115). -/
def State.liveCopy (s : State) (core ln minGrant : Nat) : Option Copy :=
  match Tab.find (s.coreOf core).copies ln with
  | some c => if s.now < c.expiry && minGrant ≤ c.granted then some c else none
  | none => none

/-- The 64 bytes of a line as a core reads them: its live copy, where it still holds it, or the home, which grants a lease for
a new copy (R104); without a new copy an older one is dropped. -/
def coreLine (g : Go s0) (core ln minGrant : Nat) (alloc : Bool) : List Byte × Go s0 :=
  let home := fun g : Go s0 =>
    let g := settleLease g ln core
    let bs := g.st.bytesAt (64 * ln) 64
    if alloc then
      let g := grantLease g ln false
      let new : Copy := { data := bs, granted := g.st.now, expiry := g.st.now + 256 * (g.st.lineAt ln).n }
      (bs, modCore g core fun v => { v with copies := Tab.put v.copies ln new })
    else (bs, modCore g core fun v => { v with copies := Tab.del v.copies ln })
  match g.st.liveCopy core ln minGrant with
  | some c => if Config.freeBit (g.st.salt 4 ln) then (c.data, g) else home g
  | none => home g

/-- Replaces bytes of a line's copy. -/
def overlay (data : List Byte) (cells : List (Nat × Byte)) : List Byte :=
  cells.foldl (fun d e => d.set (e.1 % 64) e.2) data

/-- The L1 copies of a core that stores to their lines take the stored bytes (R109). -/
def updateCopies (g : Go s0) (core : Nat) (cells : List (Nat × Byte)) : Go s0 :=
  g.each (distinct (cells.map fun e => lineOf e.1)) fun ln g =>
    match Tab.find (g.st.coreOf core).copies ln with
    | some c =>
      let new := { c with data := overlay c.data (cells.filter fun e => lineOf e.1 == ln) }
      modCore g core fun v => { v with copies := Tab.put v.copies ln new }
    | none => g

/-- Raises GMOD and GFAB of a crew by a completion time pair; a store homed elsewhere raises GFAB only (R106). -/
def Crew.raise (c : Crew) (gm gf : Nat) (off : Bool) : Crew :=
  { c with gmod := if off then c.gmod else max c.gmod gm, gfab := max c.gfab gf }

/-! ### Fault records -/

/-- The 64 bytes of a fault record (R381). -/
def FaultRec.bytes (r : FaultRec) : List Byte :=
  leBytes (r.code % 2 ^ 16 + 2 ^ 16 * (r.cause % 2 ^ 8) + 2 ^ 24 * (r.access % 4) + 2 ^ 26 * (r.split % 4)
    + 2 ^ 28 * (r.kind % 16) + 2 ^ 32 * (r.id % 2 ^ 32) + 2 ^ 64 * r.pc.toNat + 2 ^ 128 * (r.time % 2 ^ 64)
    + 2 ^ 192 * r.addr.toNat + 2 ^ 256 * r.lanes.toNat + 2 ^ 384 * r.any.toNat) 64

/-- A record without lanes. -/
def FaultRec.event (kind code : Nat) (id : Nat) (addr : Nat) (now : Nat) : FaultRec :=
  { any := 0, lanes := 0, addr := BitVec.ofNat 64 addr, time := now, pc := 0, id := id, kind := kind, split := 0
    access := 0, cause := 0, code := code }

/-- A split whose wait has ended (R72): its clock becomes the largest of its own plus one and those of the event. -/
def Split.goOn (clock : Nat) (sp : Split) : Split :=
  { sp with st := .ready, wait := .none, pc := sp.pc + 12, clock := max (sp.clock + 1) clock }

/-- Every split of a stopped crew is stopped; what it was is kept for its resumption (R67, R70). A stop releases the operand
latches (R154). -/
def stopSplit (sp : Split) : Split :=
  { sp with held := if sp.st = .stopped then sp.held else sp.st, st := .stopped, latchA := none, latchB := none }

/-- Stops a crew at its instruction boundary (R67, R378, R392). -/
def Crew.stop (c : Crew) : Crew := { c with st := .stopped, splits := c.splits.map fun e => (e.1, stopSplit e.2) }

/-- The larger of two vector clocks, crew by crew. -/
def vcJoin (a b : Table Nat) : Table Nat := b.foldl (fun a e => Tab.put a e.1 (max (Tab.get 0 a e.1) e.2)) a

/-- A released crew is ordered after what the release hands on. -/
def Crew.acquire (c : Crew) (vc : Table Nat) : Crew := { c with vc := vcJoin c.vc vc }

/-- The crew after the wait of a split has ended: its instruction retires (R72), in a stopped crew too, whose splits stay stopped
(R67). -/
def Crew.endWait (cyc clock : Nat) (vc : Table Nat) (k : Nat) (c : Crew) : Crew :=
  match c.split? k with
  | none => c
  | some sp =>
    let d := (c.setSplit k (sp.goOn clock)).acquire vc
    if c.st = .running then { d with passed := max c.passed cyc } else d.stop

/-- A crew that becomes able to issue is passed over from now on only (R65). -/
def readyFrom (g : Go s0) (x : Nat) : Go s0 :=
  let cyc := Tab.get 0 g.st.cycles (x / 8)
  modCrew g x fun c => { c with passed := cyc }

/-- Ends the wait of a split of a resident crew. -/
def endWait (g : Go s0) (x k clock : Nat) (vc : Table Nat) : Go s0 :=
  let cyc := Tab.get 0 g.st.cycles (x / 8)
  modCrew g x fun c => c.endWait cyc clock vc k

/-- Sets a wake latch (R379): one crew halted on it, where there is one, clears it and retires its `halt`. -/
def setWake (g : Go s0) (ctx : Nat) : Go s0 :=
  let waiting := (g.st.crews.filter fun e => e.2.ctx == ctx).filterMap fun e =>
    (e.2.splits.find? fun p => p.2.wait == .halt).map fun p => (e.1, p.1)
  match waiting[if waiting.length < 2 then 0 else Config.freeNat (g.st.salt 3 ctx) % waiting.length]? with
  | some (x, k) => endWait g x k 0 []
  | none => modCtx g ctx fun v => { v with wake := true }

/-- The interrupt and the handler's wake latch of a context (R383, R438). -/
def notify (g : Go s0) (ctx : Nat) (vector : BitVec 8) : Go s0 :=
  let v := g.st.ctx ctx
  let g := msixOf g ctx vector
  if v.hen then setWake g v.handler.toNat else g

/-- A record could not be written to its ring entry (R383). -/
def ringBad (g : Go s0) (ctx : Nat) : Go s0 :=
  let was := (g.st.ctx ctx).frBad
  let g := modCtx g ctx fun v => { v with frBad := true }
  if was then g else notify g ctx (g.st.ctx ctx).msix

/-- Tries to write a record to its context's ring (R383 step 1): whether it was written. A ring whose base is no multiple of 64 takes
no record, as though its entry could not be written (DESIGN CHOICE, unsafe, log 50). -/
def tryRecord (g : Go s0) (ctx : Nat) (r : FaultRec) : Bool × Go s0 :=
  let v := g.st.ctx ctx
  let size := 2 ^ v.frSize.toNat
  let idx := (v.frProd.toNat + v.writing.length) % size
  if (idx + 1) % size = v.frCons.toNat then (false, modCtx g ctx fun v => { v with frFull := true })
  else
    let a := v.frBase.toNat + 64 * idx
    match placeOf g [] ctx a 64 true with
    | (.at_ (.home k) e, g) =>
      if pteTagen e && g.st.tagAt (k + 32) ≠ bitf a 60 4 then (false, ringBad g ctx)
      else
        let g := homeStore g {} (cellsFrom k r.bytes)
        let t := (g.st.gwctOf [lineOf k] false).2
        (true, modCtx g ctx fun v => { v with writing := v.writing ++ [t] })
    | (_, g) => (false, ringBad g ctx)

/-- Where a kept record is: with a crew, with a winch context, in the context's queue, or left by a crew that has retired. -/
inductive Keeper where
  | crew (x : Nat)
  | winch (key : Nat)
  | queue
  | gone
deriving DecidableEq, Repr

/-- Insertion by time. -/
def insertRec (e : Keeper × FaultRec) : List (Keeper × FaultRec) → List (Keeper × FaultRec)
  | [] => [e]
  | f :: fs => if e.2.time ≤ f.2.time then e :: f :: fs else f :: insertRec e fs

/-- The records that a crew still has to deliver, in the order of their events (R383, R384). -/
def Crew.keptRecs (c : Crew) : List FaultRec := c.unsent ++ if c.recSent || c.fb then [] else c.frec.toList

/-- The records of a context that are kept, in order of their time (R383). -/
def State.keptRecords (s : State) (ctx : Nat) : List (Keeper × FaultRec) :=
  let crews := (s.crews.map fun e => if e.2.ctx = ctx then e.2.keptRecs.map fun r => (Keeper.crew e.1, r) else []).flatten
  let winches := (s.wctxs.map fun e => if e.2.tid.toNat = ctx then e.2.recs.map fun r => (Keeper.winch e.1, r) else []).flatten
  let gone := (s.ctx ctx).left.map fun r => (Keeper.gone, r)
  ((s.ctx ctx).kept.map fun r => (Keeper.queue, r)).foldr insertRec ((gone ++ crews ++ winches).foldr insertRec [])

/-- A crew whose oldest kept record was written. -/
def Crew.recordSent (c : Crew) : Crew := if c.unsent.isEmpty then { c with recSent := true } else { c with unsent := c.unsent.tail }

/-- Delivers kept records in order until one cannot be written (R383). -/
def deliverKept (g : Go s0) (ctx : Nat) : List (Keeper × FaultRec) → Go s0
  | [] => g
  | (k, r) :: t =>
    match tryRecord g ctx r with
    | (false, g) => g
    | (true, g) =>
      deliverKept (match k with
        | .crew x => modCrew g x Crew.recordSent
        | .winch key => let v := Tab.get Wctx.reset g.st.wctxs key
                        g.put (.wctx key { v with recs := v.recs.tail })
        | .queue => modCtx g ctx fun v => { v with kept := v.kept.tail }
        | .gone => modCtx g ctx fun v => { v with left := v.left.tail }) ctx t

/-- A crew that leaves its place leaves the records that it still has to deliver (R383). -/
def leaveRecords (g : Go s0) (c : Crew) : Go s0 :=
  if c.keptRecs.isEmpty then g else modCtx g c.ctx fun v => { v with left := v.left ++ c.keptRecs }

/-- Tries the kept records again (R383). -/
def retryRing (g : Go s0) (ctx : Nat) : Go s0 := deliverKept g ctx (g.st.keptRecords ctx)

/-- Does an older record of the same crew or winch context wait (R383)? A later one then waits too. -/
def State.recordWaits (s : State) (ctx id : Nat) : Bool := (s.keptRecords ctx).any fun e => e.2.id == id

/-- A record of kind 1, 3 or 4 (R383): written, and the kept ones after it, or kept in the queue of 64, or dropped. -/
def sendRecord (g : Go s0) (ctx : Nat) (r : FaultRec) : Go s0 :=
  match if g.st.recordWaits ctx r.id then (false, g) else tryRecord g ctx r with
  | (true, g) => retryRing g ctx
  | (false, g) => modCtx g ctx fun v =>
      if v.kept.length < 64 then { v with kept := v.kept ++ [r] } else { v with frLost := true }

/-! ### The fault buffer -/

/-- One not-present page of a faulting instruction: its page number (bits [55:16]), the level, the kinds of access: bit 0 read, bit 1
write or atomic, bit 2 fetch. -/
structure NpPage where
  page  : Nat
  level : Nat
  kinds : Nat
deriving DecidableEq, Repr

/-- Presents one page to the fault buffer of a context (R437, R438). -/
def presentPage (g : Go s0) (ctx peer : Nat) (remote : Bool) (crew : Nat) (p : NpPage) : Go s0 :=
  let v := g.st.ctx ctx
  match v.fb.find? fun e => e.2.page == p.page with
  | some (i, e) =>
      modCtx g ctx fun v => { v with fb := Tab.put v.fb i { e with joins := min 255 (e.joins + 1)
                                                                   kinds := e.kinds ||| BitVec.ofNat 3 p.kinds } }
  | none =>
    match Tab.freeKey v.fb 0 8 with
    | some i =>
      let g := modCtx g ctx fun v => { v with fb := Tab.put v.fb i { peer := peer, remote := remote, crew := crew
                                                                     page := p.page, joins := 1
                                                                     kinds := BitVec.ofNat 3 p.kinds, level := p.level } }
      notify g ctx v.trMsix
    | none =>
      let g := modCtx g ctx fun v => { v with fbDropped := true }
      if v.fbDropped then g else notify g ctx v.trMsix

/-- Insertion of a page by its number; an equal page is kept once, with the kinds of both. -/
def insertPage (p : NpPage) : List NpPage → List NpPage
  | [] => [p]
  | q :: qs => if p.page < q.page then p :: q :: qs else if p.page = q.page then { q with kinds := q.kinds ||| p.kinds } :: qs else q :: insertPage p qs

/-- Presents the distinct pages of an instruction in increasing order (R437). -/
def presentPages (g : Go s0) (ctx peer : Nat) (remote : Bool) (crew : Nat) (ps : List NpPage) : Go s0 :=
  g.each (ps.foldr insertPage []) fun p g => presentPage g ctx peer remote crew p

/-! ### Taking a fault -/

/-- What one lane meets: its lowest cause, the address a record gives, for not-present the level of the walk's end, and whether the
page is a range's destination, written whatever the instruction's other accesses are (R436). -/
structure LaneFault where
  lane  : Nat
  cause : Nat
  addr  : Nat := 0
  level : Nat := 0
  write : Bool := false
deriving DecidableEq, Repr

/-- The winning cause: the lowest number (R68). -/
def winner (fs : List LaneFault) : Nat := fs.foldl (fun a f => min a f.cause) 22

/-- The lanes of a list of faults. -/
def faultLanes (fs : List LaneFault) : Lanes := laneSet (fs.map fun f => f.lane)

/-- The fault of the lowest lane. -/
def lowestFault : List LaneFault → Option LaneFault
  | [] => none
  | f :: fs => match lowestFault fs with
    | some e => if e.lane < f.lane then some e else some f
    | none => some f

/-- Taking a fault (R67, R68, R381): the crew stops with nothing of the instruction done, the split's PC stays on it, and
the record is made, or, where not-present wins, the pages go to the fault buffer (R435), which for a refused pass is the
target's, and the context's walks in flight have ended (R433). `access` is FR.ACCESS, `code` FR.CODE, `trapped` says that the instruction was a `trap` (R234). -/
def takeFault (g : Go s0) (x k : Nat) (fs : List LaneFault) (access code : Nat) (trapped : Bool) (remote : Bool := false) : Go s0 :=
  match g.st.crew? x with
  | none => g
  | some c =>
    match c.split? k with
    | none => g
    | some sp =>
      let cause := winner fs
      let won := fs.filter fun f => f.cause == cause
      let id := crewId c.ctx x
      let r : FaultRec :=
        { any := faultLanes fs, lanes := faultLanes won, time := g.st.now, pc := sp.pc, id := id, kind := 0, split := k
          addr := BitVec.ofNat 64 (match lowestFault won with | some f => f.addr | none => 0)
          access := if access = 0 && (match lowestFault won with | some f => f.write | none => false) then 1 else access
          cause := cause, code := code }
      let older := c.keptRecs
      let waits := g.st.recordWaits c.ctx id
      let c := { c.stop with unsent := older }
      let c := c.setSplit k { stopSplit sp with held := .ready, wait := .none, faulted := true, trapped := trapped }
      if cause = 6 then
        let g := g.put (.crew x (some { c with frec := none, recSent := true, fb := true, replayed := false }))
        let g := if g.st.walks.isEmpty then g else g.put (.walks (g.st.walks.filter fun w => w.ctx != c.ctx))
        if remote then g else presentPages g c.ctx g.st.mod.modid false id
          (won.map fun f => { page := bitf f.addr 16 40, level := f.level
                              kinds := if access = 3 then 4 else if f.write || access ≠ 0 then 2 else 1 })
      else
        let g := g.put (.crew x (some { c with frec := some r, recSent := false, fb := false }))
        match if waits then (false, g) else tryRecord g c.ctx r with
        | (true, g) => retryRing (modCrew g x fun c => { c with recSent := true }) c.ctx
        | (false, g) => g

/-! ### Resuming -/

/-- A stopped split taken up again (R376): a faulted one issues again from its PC, at the next instruction where it is
skipped or was a `trap`; any other one is what it was. -/
def resumeSplit (skip : Bool) (sp : Split) : Split :=
  if sp.faulted then
    { sp with st := .ready, wait := .none, faulted := false, trapped := false
              pc := if skip || sp.trapped then sp.pc + 12 else sp.pc }
  else { sp with st := sp.held }

/-- A crew that leaves stopped (R376 RESUME and SKIP). -/
def Crew.resume (skip : Bool) (c : Crew) : Crew :=
  { c with st := .running, unsent := c.keptRecs, frec := none, recSent := true, fb := false, saver := none, asked := none
           splits := c.splits.map fun e => (e.1, resumeSplit skip e.2) }

end Sys2Proof.Machine
end

