-- ==== Sys2Proof/Machine/Words.lean ====
section
/-! DEFINITION. The decode causes of R148 and R150 on the fields of a crew instruction: which fields are no instruction
(illegal-encoding, cause 1) and which are an instruction whose operands are refused (illegal-operand, cause 3). -/

namespace Sys2Proof.Machine

/-- The value of a class-4 immediate: 15 bits, signed (R137). -/
def imm15 (i : BitVec 15) : Int := i.toInt

/-- The scope code of EXT[2:0] and the second modifier of EXT[4:3] on a scoped instruction (R146). -/
def extScope (e : BitVec 5) : Nat := e.toNat % 8
def extHigh (e : BitVec 5) : Nat := e.toNat / 8

/-- The TYPE of typed fields; untyped fields answer none. -/
def Sel.ty? : Sel → Option Ty
  | .ty t => some t
  | .var _ => none

/-- The kind of the fields' type, where they have one. -/
def Sel.kind? (s : Sel) : Option Kind := (Sel.ty? s).map Ty.kind

/-- The VAR value; 0 for typed fields. -/
def Sel.varNo : Sel → Nat
  | .ty _ => 0
  | .var n => n.toNat

/-- MOD[4:0] is listed by the row (R144, R145). -/
def selOk (r : OpRow) : Sel → Bool
  | .ty t => r.types.contains t
  | .var n => r.types.isEmpty && r.vars.contains n.toNat

/-- The field carries no modifier that the instruction does not allow there (R137, R138, R150). `cs` are the classes that the
row accepts in the field: a predicate's NEG is a modifier too, which a field that takes predicates allows. -/
def modOk (allowed : Bool) (cs : List Cls) (k : Option Kind) : Operand → Bool
  | .v _ swz abs neg =>
      (swz == 0 && !abs && !neg) || (allowed && k != some .bits && k != some .bfp)
  | .p _ neg => !neg || cs.contains .p || (allowed && k != some .bits && k != some .bfp)
  | _ => true

/-- D carries no modifier and no predicate NEG (R137). -/
def dOk : Operand → Bool
  | .v _ swz abs neg => swz == 0 && !abs && !neg
  | .p _ neg => !neg
  | _ => true

/-- The encodings that a single instruction's description refuses beyond its table row, all illegal-encoding. -/
def specialOk (m : Mn) (f : Fields) : Bool :=
  let e := f.ext.toNat
  let k := Sel.kind? f.sel
  match m with
  | .icmp => e % 8 < 6 && !(k == some .bits && 2 ≤ e % 8)                      -- R183
  | .fcmp => !(e / 8 % 2 == 1 && f.sel == .ty .f32)                            -- R189
  | .frnd => !(1 ≤ e % 8 && e % 8 ≤ 3)                                         -- R191
  | .shfl => e / 4 != 7                                                        -- R203
  | .pref => e % 4 < 2                                                         -- R240
  | .redux | .scan =>                                                          -- R201
      let op := e % 8
      (if k == some .bits then op == 0 || (3 ≤ op && op ≤ 5) else op ≤ 2)
        && !(f.f && (k == some .bits || (k != some .float && op != 0)))
  | .cvt =>                                                                    -- R194, R195
      (match e with
       | 0 | 1 | 2 | 3 | 4 | 5 | 6 | 7 => !(f.f && k == some .float)
       | 13 | 14 | 15 | 16 => !f.f
       | _ => false)
  | .pack2 => !f.f || f.sel == .ty .s16 || f.sel == .ty .n16                   -- R194
  | .atom => !(f.f && f.d.cls == .none)                                        -- R242
  | .atomf => e / 8 != 3                                                       -- R243
  | .red => e / 8 != 3 && !(f.f && k != some .float)                           -- R242, R243
  | .ratom => !(k == some .float && e / 8 == 3) && !(f.f && f.d.cls != .v && k != some .float)  -- R293, R298
  | .atoms =>                                                                  -- R243
      let op := e % 8
      (if k == some .bits then 3 ≤ op else op ≤ 2 || 6 ≤ op) && !(op == 7 && f.d.cls == .none)
  | _ => true

/-- The fields are an encoding of the mnemonic: none of the illegal-encoding rows of R150 applies. A wide immediate takes
B's place (R141), so B is none beside it. -/
def encodingOk (m : Mn) (f : Fields) : Bool :=
  let r := m.row
  let k := Sel.kind? f.sel
  selOk r f.sel && (r.fBit || !f.f) && (f.ext.toNat &&& (31 - r.extMask)) == 0
    && (!r.hasScope || extScope f.ext < 6)
    && dOk f.d && modOk r.modA r.a k f.a && modOk r.modB r.b k f.b
    && (match f.d with | .w _ => false | _ => true)
    && (match f.b with | .w _ => false | _ => true)
    && (match f.a with | .w _ => f.b == .none | .badWide _ => false | _ => true)
    && specialOk m f

/-- The first vector row an operand names, and how many the operand holds, lie below the crew's maximum window (R31). -/
def maxWindow (width : Nat) : Nat := if width = 128 then 128 else 256

/-- Rows of a class-v operand that must start at a multiple of the same number (R31, R76, R172): 1, 2 or 4. -/
def rowsOk (n width : Nat) : Operand → Bool
  | .v idx .. => idx.toNat < maxWindow width && idx.toNat % n == 0
  | _ => true

/-- How many rows the D, A and B operands of a mnemonic hold when they are class v. Data operands take the type's rows;
counts, indices, bit-field operands and `lea` offsets are one 32-bit row (log 11). -/
def operandRows (m : Mn) (f : Fields) (width : Nat) : Nat × Nat × Nat :=
  let t := match Sel.ty? f.sel with
    | some t => t.rows
    | none => 1
  match m with
  | .shl | .shr | .sar | .rot | .bfx | .bfi | .lea => (t, t, 1)
  | .shfl => (t, t, 1)
  | .bcast => (t, t, 1)
  | .popc | .clz => (1, t, 1)
  | .cvt =>
      let src := match f.ext.toNat with | 3 | 7 | 16 => 2 | _ => 1
      (t, src, 1)
  | .pack2 => (1, 1, 1)
  | .unpack2 => (2, 1, 1)
  | .vote => (if Sel.varNo f.sel = 3 then width / 32 else 1, 1, 1)
  | .matchv => (if f.f then 1 else width / 32, t, 1)
  | .movw => (2, 1, 1)
  | .rdsr => ((match f.a with | .x s => if 0xC ≤ s.toNat then 2 else 1 | _ => 1), 1, 1)
  | .brx => (1, 2, 1)
  | .callx => (1, 1, 1)
  | .ld | .st => (t, 2, 1)
  | .pref => (1, 2, 1)
  | .lds | .sts | .ldb | .stb | .ldc => (t, 1, 1)
  | .atom | .atomf | .cas | .red => (t, 2, t)
  | .atoms => (t, 1, t)
  | .rld | .rst | .ratom => (t, 1, 2)
  | .gld | .gst => (t, 1, 1)
  | .mma | .mmaw => (1, 1, 1)
  | _ => (t, t, t)

/-- Does a class-s destination beside a class-v source raise illegal-operand (R143, R222, R294)? -/
def uniformDest : Mn → Bool
  | .iadd | .isub | .imul | .imulhi | .imad | .imin | .imax | .iabs | .ineg | .and | .or | .xor | .not | .shl | .shr
  | .sar | .rot | .popc | .clz | .brev | .bfx | .bfi | .lea | .mov | .movw | .ld | .ldc | .atom | .atomf | .cas
  | .atoms | .rld | .gld => true
  | _ => false

/-- Is the field a special operand that the mnemonic accepts: the registers of R36 in `rdsr`, a layout register
elsewhere (R137, R213, R214)? -/
def selectorOk (m : Mn) : Operand → Bool
  | .x s => if m = .rdsr then s.toNat ≤ 0xE else 0x100 ≤ s.toNat && s.toNat ≤ 0x103
  | _ => true

/-- The 32-bit value that `setfmt` is given is one R35 and R215 accept. -/
def fmtOk (rmOnly : Bool) (v : Nat) : Bool :=
  if rmOnly then v < 4
  else v < 0x2000 && v / 8 % 2 == 0
    && 2 ≤ v / 16 % 16 && v / 16 % 16 ≤ 8 && 2 ≤ v / 256 % 16 && v / 256 % 16 ≤ 8

/-- The operand's immediate value, where it is class 4 or 5. -/
def immOf : Operand → Option Int
  | .i v => some (imm15 v)
  | .w x => some (x.toNat : Int)
  | _ => none

/-- `p` of the operand's class-4 value; true where the operand is no class-4 immediate. -/
def immOk (o : Operand) (p : Int → Bool) : Bool :=
  match o with
  | .i v => p (imm15 v)
  | _ => true

/-- A uniform register number that is a multiple of `n`; true for other classes. -/
def sMult (o : Operand) (n : Nat) : Bool :=
  match o with
  | .s r => r.toNat % n == 0
  | _ => true

/-- The operand conditions of single instructions that R148 makes decode causes. -/
def specialOperandOk (m : Mn) (f : Fields) (width : Nat) : Bool :=
  match m with
  | .vote => if Sel.varNo f.sel = 3 then f.d.cls != .p && !(width = 128 && !sMult f.d 2) else f.d.cls != .v  -- R201, R204
  | .matchv => (f.d.cls == .v) != f.f                                                      -- R201
  | .pmov => !(width = 128 && !sMult f.a 2)                                                -- R185
  | .bar | .knotarr =>
      !(width = 128 && !sMult f.b 2) && (m != .bar || immOk f.a fun v => 0 ≤ v && v ≤ 15)  -- R249, R251
  | .knotwait => !(width = 128 && !sMult f.b 2) && immOk f.d fun v => v == 0 || v == 1     -- R255
  | .knotinit => immOk f.b fun v => 1 ≤ v                                                  -- R253
  | .qwait => immOk f.a fun v => 0 ≤ v && v ≤ 15                                           -- R241
  | .brk | .trap => immOk f.a fun v => 0 ≤ v                                               -- R234
  | .cvt | .eret | .wrsr => immOk f.b fun v => 0 ≤ v && v ≤ 3                              -- R195, R374, R214
  | .cwait => !(f.a.cls == .i && f.ext.toNat / 8 % 2 == 0)                                 -- R257
  | .copy => (f.d.cls != .i || f.ext.toNat % 2 == 1) && (f.a.cls != .i || f.ext.toNat / 2 % 2 == 1)
      && immOk f.b fun v => 0 ≤ v                                                          -- R263
  | .copyg => (f.d.cls != .i || f.ext.toNat % 2 == 1) && (f.a.cls != .i || f.ext.toNat / 2 % 2 == 1)
  | .bwait => immOk f.a fun v => 0 ≤ v                                                     -- R263
  | .rfence | .gld | .gst => immOk f.a fun v => 0 ≤ v                                      -- R293
  | .wstart => immOk f.a fun v => 0 ≤ v && v ≤ 255                                         -- R293, R312
  | .ldb | .stb => immOk f.b (fun v => 0 ≤ v) && f.a != .s 63                              -- R237
  | .setfmt | .setfmtRm =>
      (match immOf f.a with
       | some v => fmtOk (m = .setfmtRm) (v % 2 ^ 32).toNat
       | none => true)                                                                     -- R35, R215
  | .claim | .announce => sMult f.a 2 && (m = .announce || true) && sMult f.b 2            -- R293
  | .setlay => sMult f.a 4                                                                 -- R276
  | .mmaw => (match f.d with | .m t => t.toNat % 2 == 0 | _ => true)                       -- R280
  | .mget | .mgetTry | .mrel => immOk f.a (fun v => 1 ≤ v) && (m != .mgetTry || f.d.cls == .s)  -- R289, R292
  | .clwaitTest => f.d.cls == .s                                                           -- R293
  | .mld | .mst => immOk f.b fun v => 256 ≤ v % 2 ^ 32                                           -- R287
  | .tinvPage | .tinvCtx | .tinvPart => true                                               -- R374: the rows
  | .ld | .st | .pref => !(f.a.cls == .v && f.b.cls == .s)                                 -- R218 (log 12)
  | _ => true

/-- The fields that hold the data of the instruction's type: all of them, but for memory accesses their data fields, an
address field being no part of the 128-bit value (log 13). -/
def dataFields (m : Mn) (f : Fields) : List Cls :=
  match m with
  | .ld | .st | .lds | .sts | .ldb | .stb | .ldc | .rld | .rst | .gld | .gst => [f.d.cls]
  | .cas => [f.d.cls, f.b.cls]
  | _ => [f.d.cls, f.a.cls, f.b.cls]

/-- The fields in which `.b128` refuses class s (R172, R221): all of them, but for the scratch address of R329's listing and the
record of `ldb` and `stb`, which is always class s (log 13). -/
def wideFields (m : Mn) (f : Fields) : List Cls :=
  match m with
  | .lds | .sts | .ldc => [f.d.cls]
  | .ldb | .stb => [f.d.cls, f.b.cls]
  | _ => [f.d.cls, f.a.cls, f.b.cls]

/-- The `.b128` and block-type conditions (R140, R141, R172, R221): no immediate in a data field and, under `.b128`, no class-s
register. -/
def wideTypeOk (m : Mn) (f : Fields) : Bool :=
  let data := dataFields m f
  match f.sel with
  | .ty t =>
      if t = .b128 then !data.contains .i && !data.contains .w && !(wideFields m f).contains .s
      else if t.kind = .bfp then !data.contains .i && !data.contains .w
      else true
  | .var _ => true

/-- No decode cause 3 holds of the fields at the crew's width (R148): the classes of the row, the rows and parity of vector
operands, selectors, immediates. -/
def operandOk (m : Mn) (f : Fields) (width : Nat) : Bool :=
  let r := m.row
  let n := operandRows m f width
  r.d.contains f.d.cls && r.a.contains f.a.cls && (f.a.cls == .w || r.b.contains f.b.cls)
    && rowsOk n.1 width f.d && rowsOk n.2.1 width f.a && rowsOk n.2.2 width f.b
    && selectorOk m f.d && selectorOk m f.a && selectorOk m f.b
    && !(uniformDest m && f.d.cls == .s && (f.a.cls == .v || f.b.cls == .v))
    && wideTypeOk m f && specialOperandOk m f width

end Sys2Proof.Machine
end

