-- ==== Sys2Proof/Machine/Operands.lean ====
section
/-! DEFINITION. The operand forms of a crew instruction (R137 to R143): what a source field reads in a lane, and what a
destination field takes. -/

namespace Sys2Proof.Machine

/-- An instruction being issued: the place and split, the crew as sources outside A and B read it and as A and B read it (R112,
R153, R154), the split, the instruction, the active lanes and the lanes in which it takes effect (R40, R147, R202). -/
structure Issue where
  x   : Nat
  k   : Nat
  c   : Crew
  ca  : Crew
  cb  : Crew
  sp  : Split
  m   : Mn
  f   : Fields
  act : Lanes
  run : Lanes
deriving Repr

/-- The TYPE of the instruction; an untyped one reads whole 64-bit values. -/
def Issue.ty (i : Issue) : Ty := match Sel.ty? i.f.sel with
  | some t => t
  | none => .b64

/-- The lanes in which the instruction takes effect, in increasing order. -/
def Issue.lanes (i : Issue) : List Nat := lanesOf i.run i.c.width

/-- The rounding mode and the denormal flush of the split's format register (R35). -/
def rmode (fmt : BitVec 32) : Nat := fmt.toNat % 4
def ftzBit (fmt : BitVec 32) : Bool := fmt.getLsbD 2
def fmtAw (fmt : BitVec 32) : Nat := bitf fmt.toNat 4 4
def fmtBw (fmt : BitVec 32) : Nat := bitf fmt.toNat 8 4
def fmtOrient (fmt : BitVec 32) : Bool := fmt.getLsbD 12

/-- The lane that SWZ reads (R138). -/
def swzLane (swz l : Nat) : Nat :=
  let b := l - l % 4
  match swz with
  | 0 => l
  | 1 => b | 2 => b + 1 | 3 => b + 2 | 4 => b + 3
  | 5 => b + (l % 4 ^^^ 1) | 6 => b + (l % 4 ^^^ 2) | _ => b + (l % 4 ^^^ 3)

/-- ABS and NEG of an integer (R138), wrapped to the type. -/
def intMods (t : Ty) (abs neg : Bool) (x : Nat) : Nat :=
  let v := intVal t x
  let v := if abs then (v.natAbs : Int) else v
  trunc (if neg then -v else v) t.bits

/-- ABS clears and NEG inverts the sign bit of a value of `n` bits (R138). -/
def signMods (n : Nat) (abs neg : Bool) (x : Nat) : Nat :=
  let y := if abs then x % 2 ^ (n - 1) else x % 2 ^ n
  if neg then (if y < 2 ^ (n - 1) then y + 2 ^ (n - 1) else y - 2 ^ (n - 1)) else y

/-- Is the type a 16-bit floating-point type, whose group 2 forms hold two elements in a row (R79)? -/
def isHalf (t : Ty) : Bool := t == .f16 || t == .bf16

/-- Bits of an operand of the type; `packed` forms of the half types hold two elements. -/
def opBits (t : Ty) (packed : Bool) : Nat := if packed && isHalf t then 32 else t.bits

/-- The source modifiers of R138 on a value of the type. -/
def srcMods (t : Ty) (packed abs neg : Bool) (x : Nat) : Nat :=
  match t.kind with
  | .float => if packed && isHalf t then
        joinElems 16 [signMods 16 abs neg (elem x 16 0), signMods 16 abs neg (elem x 16 1)]
      else signMods t.bits abs neg x
  | .signed | .natural => intMods t abs neg x
  | _ => x % 2 ^ opBits t packed

/-- The value of a class-4 immediate (R140). -/
def immValue (t : Ty) (packed : Bool) (v : Int) : Nat :=
  match t.kind with
  | .float =>
      let x := fOfInt (fmtOf t) 0 false v
      if packed && isHalf t then joinElems 16 [x, x] else x
  | _ => trunc v t.bits

/-- The value of a wide immediate (R141). -/
def wideValue (t : Ty) (x : Nat) : Nat :=
  match t with
  | .f64 => x * 2 ^ 32
  | .s64 => trunc (sext x 32) 64
  | _ => x % 2 ^ opBits t true

/-- What a source field reads in lane `l` (R138 to R141), under a type. -/
def operandVal (c : Crew) (wbase : Nat) (t : Ty) (packed : Bool) (o : Operand) (l : Nat) : Nat :=
  match o with
  | .v idx swz abs neg =>
      srcMods t packed abs neg (c.rowsVal wbase idx.toNat t.rows (swzLane swz.toNat l) % 2 ^ opBits t packed)
  | .s n => (c.uni n.toNat).toNat % 2 ^ opBits t packed
  | .i v => immValue t packed (imm15 v)
  | .w x => wideValue t x.toNat
  | _ => 0

/-- A source field read as one 32-bit row, the low half of a uniform register, or a sign-extended immediate (R140, log 11). -/
def operand32 (c : Crew) (wbase : Nat) (o : Operand) (l : Nat) : Nat :=
  match o with
  | .v idx .. => c.rowsVal wbase idx.toNat 1 l
  | .s n => (c.uni n.toNat).toNat % 2 ^ 32
  | .i v => trunc (imm15 v) 32
  | .w x => x.toNat
  | _ => 0

/-- A uniform or immediate field of an untyped instruction as 64 bits (R140, R141): a wide value is not extended. -/
def operand64 (c : Crew) (o : Operand) : Nat :=
  match o with
  | .s n => (c.uni n.toNat).toNat
  | .i v => trunc (imm15 v) 64
  | .w x => x.toNat
  | _ => 0

/-- A predicate source in a lane, with its NEG (R138). -/
def operandPred (c : Crew) (o : Operand) (l : Nat) : Bool :=
  match o with
  | .p n neg => c.pred n.toNat l != neg
  | _ => false

/-- The A and B values of an instruction under its type, and D read as a source (R142). -/
def Issue.a (i : Issue) (t : Ty) (packed : Bool) (l : Nat) : Nat := operandVal i.ca i.sp.wbase t packed i.f.a l
def Issue.b (i : Issue) (t : Ty) (packed : Bool) (l : Nat) : Nat := operandVal i.cb i.sp.wbase t packed i.f.b l
def Issue.dv (i : Issue) (t : Ty) (packed : Bool) (l : Nat) : Nat := operandVal i.c i.sp.wbase t packed i.f.d l
def Issue.b32 (i : Issue) (l : Nat) : Nat := operand32 i.cb i.sp.wbase i.f.b l
def Issue.a32 (i : Issue) (l : Nat) : Nat := operand32 i.ca i.sp.wbase i.f.a l

/-- The rows that a value of `n` rows writes from operand index `idx` on in lane `l`. -/
def rowsOut (c : Crew) (wbase idx n l x : Nat) : List (Nat × Nat × Nat) :=
  (List.range n).map fun j => (physRow wbase c.wrows (idx + j), l, elem x 32 j)

/-- Writes a value of `bits` bits, already extended to whole rows or to 64 bits, to D: in each lane that takes effect under class v, once
under class s (R41, R171). -/
def Issue.putD (i : Issue) (n : Nat) (x : Nat → Nat) : RegOut :=
  match i.f.d with
  | .v idx .. => { v := (i.lanes.map fun l => rowsOut i.c i.sp.wbase idx.toNat n l (x l)).flatten }
  | .s r => if i.run = 0 then {} else { s := [(r.toNat, x ((lowest i.run i.c.width).getD 0) % 2 ^ 64)] }
  | _ => {}

/-- Writes a value of a type to D, extended by R76; a floating-point result in a uniform register is zero-extended (DESIGN CHOICE, unsafe, log 71). -/
def Issue.putTy (i : Issue) (t : Ty) (x : Nat → Nat) : RegOut :=
  let fill := fun v n => if isHalf t then v % 2 ^ 32 else extend t v n
  match i.f.d with
  | .s _ => i.putD 1 fun l => fill (x l) 64
  | _ => i.putD t.rows fun l => fill (x l) (32 * t.rows)

/-- Writes a predicate in each lane that takes effect (R33). -/
def Issue.putP (i : Issue) (x : Nat → Bool) : RegOut :=
  match i.f.d with
  | .p n _ => { p := [(n.toNat, i.run, laneSet (i.lanes.filter x))] }
  | _ => {}

/-- Writes one result for the whole crew: to each lane of C under class v or p, once under class s (R202). -/
def Issue.putAll (i : Issue) (t : Ty) (x : Nat) : RegOut := i.putTy t fun _ => x
def Issue.putBit (i : Issue) (b : Bool) : RegOut :=
  match i.f.d with
  | .p .. => i.putP fun _ => b
  | _ => i.putD 1 fun _ => if b then 1 else 0

/-- The lanes that a guard selects among the active ones (R147). -/
def guardLanes (c : Crew) (g : Guard) (act : Lanes) : Lanes :=
  let p := c.predSet g.pred.toNat
  if g.uni then
    match lowest act c.width with
    | some l => if hasLane p l != g.neg then act else 0
    | none => 0
  else act &&& (if g.neg then laneMask c.width &&& ~~~p else p)

end Sys2Proof.Machine
end

