-- ==== Sys2Proof/Machine/Flags.lean ====
section
/-! DEFINITION. The conditions that instructions compute: integer comparison (R183), floating-point comparison (R189),
predicate logic (R184, R185), flag conditions (R259, R402). -/

namespace Sys2Proof.Machine

/-- `icmp` (R183): CC under the signedness of the type. -/
def icmpCond (cc : Nat) (a b : Int) : Bool :=
  match cc with
  | 0 => a == b
  | 1 => a != b
  | 2 => decide (a < b)
  | 3 => decide (a ≤ b)
  | 4 => decide (b < a)
  | _ => decide (b ≤ a)

/-- `fcmp` and `dcmp` (R189): CC of the element that EL selects. -/
def fcmpCond (t : Ty) (ftz : Bool) (cc el a b : Nat) : Bool :=
  if isHalf t then fCmp (fmtOf t) ftz cc (elem a 16 el) (elem b 16 el) else fCmp (fmtOf t) ftz cc a b

/-- Which source `sel` takes (R184): EXT[2:0] names the predicate, EXT[3] complements it. -/
def selTakesA (c : Crew) (ext : Nat) (l : Nat) : Bool := c.pred (ext % 8) l != (ext / 8 % 2 == 1)

/-- A class-s or class-i source of `pmov` in a lane (R185). -/
def pmovBit (c : Crew) (o : Operand) (l : Nat) : Bool :=
  match o with
  | .p .. => operandPred c o l
  | .s n => if l < 64 then (c.uni n.toNat).getLsbD l else (c.uni (n.toNat + 1)).getLsbD (l - 64)
  | .i v => v != 0
  | _ => false

/-- A flag condition on an unsigned word (R259, R402). -/
def flagHolds (cond : FlagCond) (word value : Nat) : Bool :=
  match cond with
  | .eq => word == value
  | .ne => word != value
  | .ge => decide (value ≤ word)
  | .lt => decide (word < value)

/-- The condition of `flagwait`'s EXT[4:3] (R259). -/
def condOfCode (n : Nat) : FlagCond :=
  match n with
  | 0 => .eq
  | 1 => .ne
  | 2 => .ge
  | _ => .lt

end Sys2Proof.Machine
end

