-- ==== Sys2Proof/Machine/Layout.lean ====
section
/-! DEFINITION. Layout records (R274, R275): their fields, the stream they walk, and the size they give a matrix operation. -/

namespace Sys2Proof.Machine

/-! ### Layout records -/

/-- A layout record's fields (R274). -/
structure Lay where
  base   : Int
  ebase  : Int
  ext    : List Nat
  stride : List Int
  resv   : Bool
deriving DecidableEq, Repr

/-- Decodes a record: extents and strides of dimensions 0 to 3. -/
def layOf (r : LayRec) : Lay :=
  let v := r.toNat
  { base := (bitf v 0 23 : Nat), ebase := (bitf v 24 23 : Nat)
    ext := [bitf v 192 16, bitf v 208 16, bitf v 224 16, bitf v 240 16]
    stride := [sext (bitf v 64 24) 24, sext (bitf v 88 24) 24, sext (bitf v 128 24) 24, sext (bitf v 152 24) 24]
    resv := bitf v 176 16 ≠ 0 || bitf v 112 16 ≠ 0 || bitf v 47 17 ≠ 0 || bitf v 23 1 ≠ 0 }

/-- Bits of a record that must be 0 (R274, R276). -/
def layReserved (r : LayRec) : Bool := (layOf r).resv

/-- A stream index over extents, innermost first (R275): the sum of indices times strides. -/
def layWalk : Nat → List Nat → List Int → Int
  | t, e :: es, s :: ss => ((if es.isEmpty then t else t % e : Nat) : Int) * s + layWalk (t / e) es ss
  | _, _, _ => 0

/-- Addr(t) − BASE (R275). -/
def Lay.addr (l : Lay) (t : Nat) : Int := layWalk t l.ext l.stride

/-- The address of the string of block q, column j, less BASE, under FMT.ORIENT (R275). -/
def Lay.blockAddr (l : Lay) (orient : Bool) (J q j : Nat) : Int :=
  if orient then
    layWalk j [l.ext.getD 0 1, l.ext.getD 2 1, l.ext.getD 3 1] [l.stride.getD 0 0, l.stride.getD 2 0, l.stride.getD 3 0]
      + (q : Int) * l.stride.getD 1 0
  else l.addr (J * q + j)

/-- The number P of the record, and K/32 for an operation's type and J; none where the record is rejected (R275). -/
def Lay.blocks (l : Lay) (bfp orient : Bool) (bw J : Nat) : Option Nat :=
  let P := l.ext.foldl (fun a e => a * e) 1
  if l.resv || P = 0 then none
  else if !bfp then
    if P % (32 * J) = 0 && P / J ≤ 4096 then some (P / (32 * J)) else none
  else
    let nq := P / J
    if P % J ≠ 0 || 128 < nq then none
    else if orient && !(l.ext.getD 1 0 == nq && l.ext.getD 0 0 * l.ext.getD 2 0 * l.ext.getD 3 0 == J) then none
    else if (l.ext.zip l.stride).any fun e => 1 < e.1 && e.2 % (4 * bw : Nat) ≠ 0 then none
    else some nq

/-- The hull of a record, less scratch base: its first byte and the byte after its last (R275). -/
def Lay.hull (l : Lay) (bfp : Bool) (bw : Nat) : Int × Int :=
  let d := l.ext.zip l.stride
  let lo := d.foldl (fun a e => a + min 0 (((e.1 - 1 : Nat) : Int) * e.2)) 0
  let hi := d.foldl (fun a e => a + max 0 (((e.1 - 1 : Nat) : Int) * e.2)) 0
  if bfp then
    let w : Int := (4 * bw : Nat)
    (min (l.base + lo) (l.ebase + lo / w), max (l.base + hi + w) (l.ebase + hi / w + 1))
  else (l.base + lo, l.base + hi + 2)

/-- Does a record break the alignment of R280? -/
def Lay.odd (l : Lay) (bfp : Bool) : Bool :=
  let n : Int := if bfp then 4 else 2
  l.base % n ≠ 0 || l.stride.any fun s => s % n ≠ 0

end Sys2Proof.Machine
end

