-- ==== Sys2Proof/Machine/Fp.lean ====
section
/-! DEFINITION. Group 2, single and half precision (R186 to R192), and group 3, double precision (R193). -/

namespace Sys2Proof.Machine

/-- The rounding mode and flush of the issuing split (R80, R82). -/
def Issue.rm (i : Issue) : Nat := rmode i.sp.fmt
def Issue.ftz (i : Issue) : Bool := ftzBit i.sp.fmt

/-- An operation on one value, or on both packed elements of a half type (R79). -/
def onElems (t : Ty) (op : Nat → Nat) (a : Nat) : Nat :=
  if isHalf t then joinElems 16 [op (elem a 16 0), op (elem a 16 1)] else op a

/-- The same for two and three operands. -/
def onElems2 (t : Ty) (op : Nat → Nat → Nat) (a b : Nat) : Nat :=
  if isHalf t then joinElems 16 [op (elem a 16 0) (elem b 16 0), op (elem a 16 1) (elem b 16 1)] else op a b
def onElems3 (t : Ty) (op : Nat → Nat → Nat → Nat) (a b d : Nat) : Nat :=
  if isHalf t then
    joinElems 16 [op (elem a 16 0) (elem b 16 0) (elem d 16 0), op (elem a 16 1) (elem b 16 1) (elem d 16 1)]
  else op a b d

/-- A floating-point result in each lane: D takes whole rows. -/
def Issue.fp1 (i : Issue) (op : Fmt → Nat → Nat) : RegOut :=
  i.putD i.ty.rows fun l => onElems i.ty (op (fmtOf i.ty)) (i.a i.ty true l)
def Issue.fp2 (i : Issue) (op : Fmt → Nat → Nat → Nat) : RegOut :=
  i.putD i.ty.rows fun l => onElems2 i.ty (op (fmtOf i.ty)) (i.a i.ty true l) (i.b i.ty true l)
def Issue.fp3 (i : Issue) (op : Fmt → Nat → Nat → Nat → Nat) : RegOut :=
  i.putD i.ty.rows fun l => onElems3 i.ty (op (fmtOf i.ty)) (i.a i.ty true l) (i.b i.ty true l) (i.dv i.ty true l)

/-- The arithmetic of R187, rounded once in FMT.RMODE. -/
def faddOut (i : Issue) : RegOut := i.fp2 fun F => fAdd F i.rm i.ftz
def fsubOut (i : Issue) : RegOut := i.fp2 fun F => fSub F i.rm i.ftz
def fmulOut (i : Issue) : RegOut := i.fp2 fun F => fMul F i.rm i.ftz
def fmaOut (i : Issue) : RegOut := i.fp3 fun F => fMa F i.rm i.ftz
def fdivOut (i : Issue) : RegOut := i.fp2 fun F => fDiv F i.rm i.ftz
def fsqrtOut (i : Issue) : RegOut := i.fp1 fun F => fSqrt F i.rm i.ftz
/-- Minimum and maximum (R188). -/
def fminOut (i : Issue) : RegOut := i.fp2 fun F => fMinMax F i.ftz false
def fmaxOut (i : Issue) : RegOut := i.fp2 fun F => fMinMax F i.ftz true
/-- Comparison (R189): EXT[2:0] is CC, EXT[3] the element. -/
def fcmpOut (i : Issue) : RegOut :=
  i.putP fun l => fcmpCond i.ty i.ftz (i.f.ext.toNat % 8) (i.f.ext.toNat / 8 % 2) (i.a i.ty true l) (i.b i.ty true l)
/-- The approximate functions (R190). -/
def frcpOut (i : Issue) : RegOut := i.fp1 fun F => fRcp F i.ftz
def frsqOut (i : Issue) : RegOut := i.fp1 fun F => fRsq F i.ftz
def fexp2Out (i : Issue) : RegOut := i.fp1 fun F => fExp2 F i.ftz
def flog2Out (i : Issue) : RegOut := i.fp1 fun F => fLog2 F i.ftz
def fsinOut (i : Issue) : RegOut := i.fp1 fun F => fSin F i.ftz
def fcosOut (i : Issue) : RegOut := i.fp1 fun F => fCos F i.ftz
/-- The rounding mode that `frnd` names (R191): RM 0 takes FMT.RMODE. -/
def frndMode (ext rm : Nat) : Nat := if ext % 8 = 0 then rm else ext % 8 - 4
def frndOut (i : Issue) : RegOut := i.fp1 fun F => fRnd F (frndMode i.f.ext.toNat i.rm) i.ftz
/-- `fclass` (R192). -/
def fclassOut (i : Issue) : RegOut := i.fp1 fun F => fClass F i.ftz

/-- Group 3 repeats the arithmetic of group 2 at `.f64` (R193). -/
def daddOut (i : Issue) : RegOut := i.fp2 fun F => fAdd F i.rm i.ftz
def dsubOut (i : Issue) : RegOut := i.fp2 fun F => fSub F i.rm i.ftz
def dmulOut (i : Issue) : RegOut := i.fp2 fun F => fMul F i.rm i.ftz
def dfmaOut (i : Issue) : RegOut := i.fp3 fun F => fMa F i.rm i.ftz
def dminOut (i : Issue) : RegOut := i.fp2 fun F => fMinMax F i.ftz false
def dmaxOut (i : Issue) : RegOut := i.fp2 fun F => fMinMax F i.ftz true
def dcmpOut (i : Issue) : RegOut :=
  i.putP fun l => fcmpCond i.ty i.ftz (i.f.ext.toNat % 8) 0 (i.a i.ty true l) (i.b i.ty true l)
def ddivOut (i : Issue) : RegOut := i.fp2 fun F => fDiv F i.rm i.ftz
def dsqrtOut (i : Issue) : RegOut := i.fp1 fun F => fSqrt F i.rm i.ftz

end Sys2Proof.Machine
end

