-- ==== Sys2Proof/Machine/CrewOps.lean ====
section
/-! DEFINITION. Group 5, crew operations (R96, R97, R201 to R209). -/

namespace Sys2Proof.Machine

/-- The lane that `shfl` reads (R203). -/
def shflLane (w mode seg l k : Nat) : Nat :=
  let c := if seg = 0 then w else min (2 ^ seg) w
  let i := l % c
  let base := l - i
  match mode with
  | 0 => base + k % c
  | 1 => if k ≤ i then l - k else l
  | 2 => if i + k < c then l + k else l
  | _ => base + (i ^^^ k % c)

def shflOut (i : Issue) : RegOut :=
  let e := i.f.ext.toNat
  i.putTy i.ty fun l => i.a i.ty false (shflLane i.c.width (e % 4) (e / 4) l (i.b32 l))

/-- The crew's bits as rows for class v, or as one or two uniform registers for class s (R204). -/
def Issue.putMask (i : Issue) (m : Nat → Lanes) : RegOut :=
  match i.f.d with
  | .s r =>
    if i.run = 0 then {}
    else
      let v := (m ((lowest i.run i.c.width).getD 0)).toNat
      { s := (r.toNat, v % 2 ^ 64) :: (if i.c.width = 128 then [(r.toNat + 1, v / 2 ^ 64)] else []) }
  | _ => i.putD (i.c.width / 32) fun l => (m l).toNat

/-- `vote` (R204). -/
def voteOut (i : Issue) : RegOut :=
  let yes := i.lanes.filter fun l => operandPred i.ca i.f.a l
  match Sel.varNo i.f.sel with
  | 0 => i.putBit (yes.length == i.lanes.length)
  | 1 => i.putBit (!yes.isEmpty)
  | 2 => i.putBit (yes.isEmpty || yes.length == i.lanes.length)
  | _ => i.putMask fun _ => laneSet yes

/-- `bcast` (R205). -/
def bcastOut (i : Issue) : RegOut := i.putTy i.ty fun l => i.a i.ty false (i.b32 l % i.c.width)

/-- The integer operations of `redux` and `scan` on two values, by OP (R201, R206). -/
def reduxInt (op : Nat) (a b : Int) : Int := if op = 0 then a + b else if op = 1 then min a b else max a b
def reduxBits (op a b : Nat) : Nat := if op = 3 then a &&& b else if op = 4 then a ||| b else a ^^^ b

/-- The identities of R207. -/
def reduxIdent (t : Ty) (op : Nat) : Nat :=
  match t.kind with
  | .float =>
      let F := fmtOf t
      if op = 0 then 0 else if op = 1 then F.infBits else F.withSign true F.infBits
  | .bits => if op = 3 then 2 ^ t.bits - 1 else 0
  | _ => if op = 0 then 0 else trunc (if op = 1 then tyMax t else tyMin t) t.bits

/-- The combination of integer or bit values in any order (R96, R206): the exact total, then fitted. -/
def reduxExact (t : Ty) (sat : Bool) (op : Nat) (xs : List Nat) : Nat :=
  match xs with
  | [] => reduxIdent t op
  | x :: rest =>
    if 3 ≤ op then rest.foldl (reduxBits op) x
    else fit sat t ((rest.map (intVal t)).foldl (reduxInt op) (intVal t x))

/-- Combine of R97 on one element: add in FMT.RMODE, minimum or maximum by R86. -/
def fpCombine (F : Fmt) (rm : Nat) (ftz : Bool) (op a b : Nat) : Nat :=
  if op = 0 then fAdd F rm ftz a b else fMinMax F ftz (op == 2) a b

/-- Combine with absent lanes (R97). -/
def combineOpt (f : Nat → Nat → Nat) : Option Nat → Option Nat → Option Nat
  | none, y => y
  | x, none => x
  | some x, some y => some (f x y)

/-- One level of the tree (R97): neighbours combined. -/
def pairUp (f : Nat → Nat → Nat) : List (Option Nat) → List (Option Nat)
  | x :: y :: t => combineOpt f x y :: pairUp f t
  | t => t

/-- The tree over all lane positions (R97). Fuel: levels. -/
def treeReduce (f : Nat → Nat → Nat) : Nat → List (Option Nat) → Option Nat
  | 0, xs => xs.headD none
  | n + 1, xs => treeReduce f n (pairUp f xs)

/-- One step of the ladder at distance `d` (R97). -/
def ladderStep (f : Nat → Nat → Nat) (d : Nat) (xs : List (Option Nat)) : List (Option Nat) :=
  List.zipWith (combineOpt f) (List.replicate d none ++ xs) xs

/-- The ladder (R97): distances 1, 2, 4 up to half the width. -/
def ladder (f : Nat → Nat → Nat) (w : Nat) (xs : List (Option Nat)) : List (Option Nat) :=
  [1, 2, 4, 8, 16, 32, 64].foldl (fun xs d => if d < w then ladderStep f d xs else xs) xs

/-- The combination of values in an order that is left open (R96): two of them at a time. Fuel: their number. -/
def freeReduce (s : State) (salt : Nat) (f : Nat → Nat → Nat) : Nat → List Nat → Option Nat
  | 0, xs => xs.head?
  | n + 1, xs =>
    match xs with
    | [] => none
    | [x] => some x
    | _ =>
      let i := Config.freeNat (s.salt 40 (salt + 2 * n)) % xs.length
      let x := xs.getD i 0
      let rest := xs.eraseIdx i
      let j := Config.freeNat (s.salt 40 (salt + 2 * n + 1)) % rest.length
      freeReduce s salt f n (f x (rest.getD j 0) :: rest.eraseIdx j)

/-- A value as an FP instruction takes and delivers it where nothing is combined with it: a denormal is zero under FMT.FTZ
(R82), a NaN is canonical (R84). -/
def fpNorm (F : Fmt) (ftz : Bool) (x : Nat) : Nat := if (unpack F ftz x).isNan then F.nan else flush F ftz x

/-- The values of A by lane position, absent outside C; element `el` of a half type (R206). -/
def Issue.reduxVals (i : Issue) (el : Nat) : List (Option Nat) :=
  (List.range i.c.width).map fun l =>
    if hasLane i.run l then
      some (fpNorm (fmtOf i.ty) i.ftz (if isHalf i.ty then elem (i.a i.ty true l) 16 el else i.a i.ty true l))
    else none

/-- A floating-point reduction of one element (R96, R97, R206). -/
def Issue.reduxFp (i : Issue) (s : State) (op el : Nat) : Nat :=
  let f := fpCombine (fmtOf i.ty) i.rm i.ftz op
  let r := if i.f.f || op ≠ 0 then treeReduce f 7 (i.reduxVals el)
    else freeReduce s (1000 * el) f i.c.width ((i.reduxVals el).filterMap id)
  r.getD (reduxIdent i.ty op)

/-- `redux` (R206). -/
def reduxOut (s : State) (i : Issue) : RegOut :=
  let op := i.f.ext.toNat % 8
  match i.ty.kind with
  | .float =>
      i.putTy i.ty fun _ => if isHalf i.ty then joinElems 16 [i.reduxFp s op 0, i.reduxFp s op 1] else i.reduxFp s op 0
  | _ => i.putTy i.ty fun _ => reduxExact i.ty i.f.f op (i.lanes.map fun l => i.a i.ty false l)

/-- A floating-point scan of one element in lane `l` (R96, R97, R207): inclusive up to `l`, or up to the nearest lower lane of
C. -/
def Issue.scanFp (i : Issue) (s : State) (op el l : Nat) (excl : Bool) : Nat :=
  let f := fpCombine (fmtOf i.ty) i.rm i.ftz op
  let at_ := if excl then (i.lanes.filter fun j => j < l).getLast? else some l
  match at_ with
  | none => reduxIdent i.ty op
  | some j =>
    let r := if i.f.f || op ≠ 0 then (ladder f i.c.width (i.reduxVals el)).getD j none
      else freeReduce s (100000 * (el + 1) + 1000 * j) f i.c.width (((i.reduxVals el).take (j + 1)).filterMap id)
    r.getD (reduxIdent i.ty op)

/-- `scan` (R207). -/
def scanOut (s : State) (i : Issue) : RegOut :=
  let op := i.f.ext.toNat % 8
  let excl := i.f.ext.toNat / 8 % 2 == 1
  match i.ty.kind with
  | .float =>
      i.putTy i.ty fun l =>
        if isHalf i.ty then joinElems 16 [i.scanFp s op 0 l excl, i.scanFp s op 1 l excl] else i.scanFp s op 0 l excl
  | _ => i.putTy i.ty fun l =>
      reduxExact i.ty i.f.f op ((i.lanes.filter fun j => j < l || (!excl && j == l)).map fun j => i.a i.ty false j)

/-- `match` (R208). -/
def matchOut (i : Issue) : RegOut :=
  let v := fun l => i.a i.ty false l
  if i.f.f then
    match i.lanes with
    | [] => {}
    | l :: ls => i.putBit (ls.all fun j => v j == v l)
  else i.putMask fun l => laneSet (i.lanes.filter fun j => v j == v l)

end Sys2Proof.Machine
end

