-- ==== Sys2Proof/WellFormed.lean ====
section
/-! DEFINITION. Which instructions are well formed: the ones that some word of R135 or R317, or some packet of R398,
stands for and whose operands no decode cause of R148 refuses. -/

namespace Sys2Proof

open Machine

/-- The fields a winch op leaves at 0, and the modifier values it defines (R318): no winch-illegal condition. -/
def winchOk (op : Nat) (f : WFields) : Bool :=
  let c0 := f.cop == 0 && f.cty == 0
  let m := f.modf.toNat
  let val := m / 8 == 1
  let pick := (val && f.imm == 0) || (!val && f.hb == 0)
  match op with
  | 0x01 => f.hd == 0 && f.hb == 0 && m < 8 && c0 && f.imm.toNat < 32
  | 0x02 => f.hd == 0 && f.hb == 0 && (m == 0 || m == 4) && c0 && f.imm == 0
  | 0x03 => f.hd == 0 && f.hb == 0 && (m == 0 || m == 4) && f.cop != 3 && f.cty.toNat < 5 && f.imm == 0
  | 0x04 => f.hd == 0 && f.hb == 0 && m < 8 && f.cop != 3 && f.cty.toNat < 5 && f.imm.toNat < 32
  | 0x05 => f.hd == 0 && f.ha == 0 && f.hb == 0 && m < 4 && c0 && f.imm.toNat < 32
  | 0x06 => f.hd == 0 && m / 4 % 2 == 0 && pick && c0
  | 0x07 => f.hd == 0 && m / 2 % 4 == 0 && pick && c0
  | 0x08 => f.ha == 0 && f.hb == 0 && m == 0 && c0
  | 0x09 => f.hd == 0 && f.ha == 0 && f.hb == 0 && m == 0 && c0
  | 0x0A => f.hd == 0 && f.ha == 0 && f.hb == 0 && m < 2 && c0
  | 0x0B | 0x0C => m % 8 == 0 && pick && c0
  | 0x0D => f.hb == 0 && m == 0 && c0 && f.imm == 0
  | 0x0E => f.ha == 0 && f.hb == 0 && m < 2 && c0
  | 0x0F => f.hd == 0 && m % 8 < 6 && pick && c0
  | 0x10 => f.hb == 0 && m == 0 && c0
  | 0x11 => f.hd == 0 && f.ha == 0 && f.hb == 0 && m < 2 && c0 && f.imm == 0
  | 0x12 | 0x13 | 0x14 => f.hd == 0 && f.ha == 0 && f.hb == 0 && m == 0 && c0 && f.imm == 0
  | _ => false

/-- A queue packet (R398). -/
def isPacket : Instr → Bool
  | .launch _ | .wset _ | .copyPacket _ | .waitv _ | .signal _ | .fencePacket | .replay | .nopk => true
  | _ => false

/-- The instruction is a word or packet of the encoding: some bits stand for it (R150, R318, R398). -/
def Instr.encodable (i : Instr) : Bool :=
  match crewParts i with
  | some (m, f) => encodingOk m f
  | none =>
    match winchParts i with
    | some (op, f) => winchOk op f
    | none => isPacket i

/-- The instruction is encodable and, in a crew of the given width, raises no decode cause 3 (R148). Queue packets have no
operand conditions of their own; an event of the hardware is no word of any program. -/
def Instr.wellFormed (width : Nat) (i : Instr) : Bool :=
  i.encodable &&
  match crewParts i with
  | some (m, f) => operandOk m f width
  | none => true

end Sys2Proof
end

