-- ==== Sys2Proof/Decode.lean ====
section
/-! DEFINITION. The decoder, total on any bits, and after it the encoder: the 96-bit crew word (R134 to R150), the 64-bit
winch word (R317, R318) and the 64-byte queue packet (R398 to R404). -/

namespace Sys2Proof

open Machine

/-- Why bits are no instruction. The crew reasons are all illegal-encoding, cause 1 (R150); the winch reason is
winch-illegal (R318); the packet reasons are errors 1 and 2 (R397, R398). -/
inductive DecodeError where
  | unassignedOpcode | typeCode | payload | notEncoding | word74 | tooShort
  | winchIllegal
  | packetType | packetField
deriving DecidableEq, Repr

/-- `n` bits of `w` from bit `lo` on, as a number. -/
def bitsAt (w lo n : Nat) : Nat := (w >>> lo) % 2 ^ n
/-- Are the bits of `w` from bit `lo` on 0? -/
def zeroFrom (w lo : Nat) : Bool := w >>> lo == 0

/-- A TYPE code of R144; 24 to 31 are reserved. -/
def tyOfCode : Nat → Option Ty
  | 0 => some .s8 | 1 => some .s16 | 2 => some .s32 | 3 => some .s64
  | 4 => some .n8 | 5 => some .n16 | 6 => some .n32 | 7 => some .n64
  | 8 => some .b8 | 9 => some .b16 | 10 => some .b32 | 11 => some .b64 | 12 => some .b128
  | 13 => some .f16 | 14 => some .bf16 | 15 => some .f32 | 16 => some .f64
  | 17 => some .bfp2 | 18 => some .bfp3 | 19 => some .bfp4 | 20 => some .bfp5
  | 21 => some .bfp6 | 22 => some .bfp7 | 23 => some .bfp8
  | _ => none

/-- The TYPE code of a type (R144). -/
def tyCode : Ty → Nat
  | .s8 => 0 | .s16 => 1 | .s32 => 2 | .s64 => 3 | .n8 => 4 | .n16 => 5 | .n32 => 6 | .n64 => 7
  | .b8 => 8 | .b16 => 9 | .b32 => 10 | .b64 => 11 | .b128 => 12
  | .f16 => 13 | .bf16 => 14 | .f32 => 15 | .f64 => 16
  | .bfp2 => 17 | .bfp3 => 18 | .bfp4 => 19 | .bfp5 => 20 | .bfp6 => 21 | .bfp7 => 22 | .bfp8 => 23

/-- An 18-bit operand field (R137); none where a reserved payload bit is set or a class-7 payload is not 0. -/
def decodeOperand (n : Nat) : Option Operand :=
  let pay := n % 32768
  match n / 32768 % 8 with
  | 0 =>
      if pay / 8192 = 0 then
        some (.v (BitVec.ofNat 8 (pay % 256)) (BitVec.ofNat 3 (pay / 1024 % 8)) (pay / 512 % 2 == 1) (pay / 256 % 2 == 1))
      else none
  | 1 => if pay / 64 = 0 then some (.s (BitVec.ofNat 6 pay)) else none
  | 2 => if pay / 16 = 0 then some (.p (BitVec.ofNat 3 (pay % 8)) (pay / 8 % 2 == 1)) else none
  | 3 => some (.x (BitVec.ofNat 15 pay))
  | 4 => some (.i (BitVec.ofNat 15 pay))
  | 5 => some (.badWide (BitVec.ofNat 15 pay))
  | 6 => if pay / 16 = 0 then some (.m (BitVec.ofNat 4 pay)) else none
  | _ => if pay = 0 then some .none else none

/-- The guard field (R147). -/
def decodeGuard (n : Nat) : Guard :=
  { pred := BitVec.ofNat 3 (n % 8), neg := n / 8 % 2 == 1, uni := n / 16 % 2 == 1 }

/-- The hint layer (R151). -/
def decodeHint (n : Nat) : Hint :=
  { resv := BitVec.ofNat 7 (n / 512 % 128), cc := BitVec.ofNat 2 (n / 128 % 4), yield := n / 64 % 2 == 1
    keepB := n / 32 % 2 == 1, keepA := n / 16 % 2 == 1, la := BitVec.ofNat 4 (n % 16) }

/-- MOD[4:0] of a row: a TYPE where the row has types, else VAR (R144, R145). -/
def decodeSel (r : OpRow) (n : Nat) : Option Sel :=
  if r.types.isEmpty then some (.var (BitVec.ofNat 5 n)) else (tyOfCode n).map .ty

/-- The A and B fields: class 5 in A joins B's bits into a 32-bit value, and word bit 74 must then be 0 (R141). -/
def decodeAB (na nb : Nat) : Except DecodeError (Operand × Operand) :=
  if na / 32768 % 8 = 5 then
    if nb / 131072 % 2 = 1 then .error .word74
    else .ok (.w (BitVec.ofNat 32 (na % 32768 + 32768 * (nb % 131072))), .none)
  else
    match decodeOperand na, decodeOperand nb with
    | some a, some b => .ok (a, b)
    | _, _ => .error .payload

/-- The crew instruction of a 96-bit word (R135). -/
def decodeCrew (w : Nat) : Except DecodeError Instr :=
  match Mn.ofOpc (bitsAt w 0 10) (bitsAt w 10 5) with
  | none => .error .unassignedOpcode
  | some m =>
    match decodeSel m.row (bitsAt w 10 5) with
    | none => .error .typeCode
    | some sel =>
      match decodeOperand (bitsAt w 21 18), decodeAB (bitsAt w 39 18) (bitsAt w 57 18) with
      | some d, .ok (a, b) =>
          let f : Fields :=
            { sel := sel, f := bitsAt w 15 1 == 1, guard := decodeGuard (bitsAt w 16 5), d := d, a := a, b := b
              ext := BitVec.ofNat 5 (bitsAt w 75 5), hint := decodeHint (bitsAt w 80 16) }
          if encodingOk m f then .ok (m.instr f) else .error .notEncoding
      | none, _ => .error .payload
      | _, .error e => .error e

/-- The winch instruction of a 64-bit word (R317, R318). -/
def decodeWinch (w : Nat) : Except DecodeError Instr :=
  let f : WFields :=
    { hd := BitVec.ofNat 4 (bitsAt w 8 4), ha := BitVec.ofNat 4 (bitsAt w 12 4), hb := BitVec.ofNat 4 (bitsAt w 16 4)
      modf := BitVec.ofNat 4 (bitsAt w 20 4), cty := BitVec.ofNat 3 (bitsAt w 24 3), cop := BitVec.ofNat 2 (bitsAt w 27 2)
      imm := BitVec.ofNat 32 (bitsAt w 32 32) }
  if bitsAt w 29 3 = 0 && winchOk (bitsAt w 0 8) f then
    match winchInstr (bitsAt w 0 8) f with
    | some i => .ok i
    | none => .error .winchIllegal
  else .error .winchIllegal

/-- A WAITV condition (R402); 4 to 15 are refused. -/
def condOf : Nat → Option FlagCond
  | 0 => some .eq | 1 => some .ne | 2 => some .ge | 3 => some .lt | _ => none

/-- The queue packet of 512 bits (R398 to R404, R332, R356). -/
def decodePacket (w : Nat) : Except DecodeError Instr :=
  match bitsAt w 0 8 with
  | 1 =>
      if bitsAt w 8 24 = 0 && zeroFrom w 352 then
        .ok (.launch { kernel := BitVec.ofNat 32 (bitsAt w 32 32), object := BitVec.ofNat 64 (bitsAt w 64 64)
                       args := BitVec.ofNat 64 (bitsAt w 128 64), params := BitVec.ofNat 64 (bitsAt w 192 64)
                       done := BitVec.ofNat 64 (bitsAt w 256 64), doneVal := BitVec.ofNat 32 (bitsAt w 320 32) })
      else .error .packetField
  | 2 =>
      if bitsAt w 16 48 = 0 && zeroFrom w 128 then
        .ok (.wset { set := BitVec.ofNat 8 (bitsAt w 8 8), arg := BitVec.ofNat 64 (bitsAt w 64 64) })
      else .error .packetField
  | 3 =>
      if bitsAt w 8 56 = 0 && zeroFrom w 224 then
        .ok (.copyPacket { dst := BitVec.ofNat 64 (bitsAt w 64 64), src := BitVec.ofNat 64 (bitsAt w 128 64)
                           len := BitVec.ofNat 32 (bitsAt w 192 32) })
      else .error .packetField
  | 4 =>
      match condOf (bitsAt w 8 4) with
      | some c =>
          if bitsAt w 13 51 = 0 && zeroFrom w 256 then
            .ok (.waitv { cond := c, size := bitsAt w 12 1 == 1, addr := BitVec.ofNat 64 (bitsAt w 64 64)
                          value := BitVec.ofNat 64 (bitsAt w 128 64), mask := BitVec.ofNat 64 (bitsAt w 192 64) })
          else .error .packetField
      | none => .error .packetField
  | 5 =>
      if bitsAt w 8 2 < 2 && bitsAt w 10 2 = 0 && bitsAt w 14 50 = 0 && zeroFrom w 192 then
        .ok (.signal { add := bitsAt w 8 2 == 1, size := bitsAt w 12 1 == 1, irq := bitsAt w 13 1 == 1
                       addr := BitVec.ofNat 64 (bitsAt w 64 64), value := BitVec.ofNat 64 (bitsAt w 128 64) })
      else .error .packetField
  | 6 => if zeroFrom w 8 then .ok .fencePacket else .error .packetField
  | 7 => if zeroFrom w 8 then .ok .replay else .error .packetField
  | 8 => if zeroFrom w 8 then .ok .nopk else .error .packetField
  | _ => .error .packetType

/-- The number little-endian bytes stand for (R9). -/
def natOfBytes : List Byte → Nat
  | [] => 0
  | b :: bs => b.toNat + 256 * natOfBytes bs

/-- `n` little-endian bytes of a number (R9). -/
def bytesOfNat : Nat → Nat → List Byte
  | 0, _ => []
  | n + 1, x => BitVec.ofNat 8 (x % 256) :: bytesOfNat n (x / 256)

/-- The crew instruction at the head of a list of bytes, with the bytes after it (R134). -/
def decodeBytes (bs : List Byte) : Except DecodeError (Instr × List Byte) :=
  if bs.length < 12 then .error .tooShort
  else
    match decodeCrew (natOfBytes (bs.take 12)) with
    | .ok i => .ok (i, bs.drop 12)
    | .error e => .error e

/-! ### The encoder -/

/-- An operand field as 18 bits (R137, R141): A's share of a wide immediate. -/
def encodeOperand : Operand → Nat
  | .v idx swz abs neg => idx.toNat + 256 * neg.toNat + 512 * abs.toNat + 1024 * swz.toNat
  | .s n => 0x08000 + n.toNat
  | .p n neg => 0x10000 + n.toNat + 8 * neg.toNat
  | .x sel => 0x18000 + sel.toNat
  | .i imm => 0x20000 + imm.toNat
  | .w x => 0x28000 + x.toNat % 32768
  | .badWide pay => 0x28000 + pay.toNat
  | .m t => 0x30000 + t.toNat
  | .none => 0x38000

/-- The B field: the high part of a wide immediate where A holds one (R141). -/
def encodeB (a b : Operand) : Nat :=
  match a with
  | .w x => x.toNat / 32768
  | _ => encodeOperand b

/-- GUARD (R147) and HINT (R151) as numbers. -/
def encodeGuard (g : Guard) : Nat := g.pred.toNat + 8 * g.neg.toNat + 16 * g.uni.toNat
def encodeHint (h : Hint) : Nat :=
  h.la.toNat + 16 * h.keepA.toNat + 32 * h.keepB.toNat + 64 * h.yield.toNat + 128 * h.cc.toNat + 512 * h.resv.toNat

/-- MOD[4:0] (R144, R145). -/
def encodeSel : Sel → Nat
  | .ty t => tyCode t
  | .var n => n.toNat

/-- The 96-bit word of a crew instruction (R135). -/
def encodeCrew (m : Mn) (f : Fields) : Nat :=
  m.row.opc + 2 ^ 10 * encodeSel f.sel + 2 ^ 15 * f.f.toNat + 2 ^ 16 * encodeGuard f.guard
    + 2 ^ 21 * encodeOperand f.d + 2 ^ 39 * encodeOperand f.a + 2 ^ 57 * encodeB f.a f.b
    + 2 ^ 75 * f.ext.toNat + 2 ^ 80 * encodeHint f.hint

/-- The 64-bit word of a winch instruction (R317). -/
def encodeWinch (op : Nat) (f : WFields) : Nat :=
  op + 2 ^ 8 * f.hd.toNat + 2 ^ 12 * f.ha.toNat + 2 ^ 16 * f.hb.toNat + 2 ^ 20 * f.modf.toNat
    + 2 ^ 24 * f.cty.toNat + 2 ^ 27 * f.cop.toNat + 2 ^ 32 * f.imm.toNat

/-- The number of a condition (R402). -/
def condCode : FlagCond → Nat
  | .eq => 0 | .ne => 1 | .ge => 2 | .lt => 3

/-- The 512 bits of a queue packet (R398 to R404); none for other instructions. -/
def encodePacket : Instr → Option Nat
  | .launch p => some (1 + 2 ^ 32 * p.kernel.toNat + 2 ^ 64 * p.object.toNat + 2 ^ 128 * p.args.toNat
      + 2 ^ 192 * p.params.toNat + 2 ^ 256 * p.done.toNat + 2 ^ 160 * 2 ^ 160 * p.doneVal.toNat)
  | .wset p => some (2 + 2 ^ 8 * p.set.toNat + 2 ^ 64 * p.arg.toNat)
  | .copyPacket p => some (3 + 2 ^ 64 * p.dst.toNat + 2 ^ 128 * p.src.toNat + 2 ^ 192 * p.len.toNat)
  | .waitv p => some (4 + 2 ^ 8 * condCode p.cond + 2 ^ 12 * p.size.toNat + 2 ^ 64 * p.addr.toNat
      + 2 ^ 128 * p.value.toNat + 2 ^ 192 * p.mask.toNat)
  | .signal p => some (5 + 2 ^ 8 * p.add.toNat + 2 ^ 12 * p.size.toNat + 2 ^ 13 * p.irq.toNat
      + 2 ^ 64 * p.addr.toNat + 2 ^ 128 * p.value.toNat)
  | .fencePacket => some 6
  | .replay => some 7
  | .nopk => some 8
  | _ => none

/-- The bits of an instruction and how many there are; none for an event of the hardware and for fields that are no
encoding. -/
def encode (i : Instr) : Option (Nat × Nat) :=
  if i.encodable then
    match crewParts i with
    | some (m, f) => some (96, encodeCrew m f)
    | none =>
      match winchParts i with
      | some (op, f) => some (64, encodeWinch op f)
      | none => (encodePacket i).map fun w => (512, w)
  else none

/-- The instruction read from bits numbered as spec/opcode_table.json numbers them, by the number of its bits: 64 a winch
word, 512 a packet, otherwise a crew word. The bits lie in the hardware's byte order (R9), low bytes first, so they are the
number the decoders read. -/
def decodeTableWord (nbits w : Nat) : Option Instr :=
  let r := if nbits = 64 then decodeWinch (natOfBytes (bytesOfNat 8 w))
    else if nbits = 512 then decodePacket (natOfBytes (bytesOfNat 64 w))
    else decodeCrew (natOfBytes (bytesOfNat 12 w))
  match r with
  | .ok i => some i
  | .error _ => none

end Sys2Proof
end

