-- ==== Sys2Proof/Machine/Cvt.lean ====
section
/-! DEFINITION. Group 4, conversions and the block floating-point pack and unpack (R88 to R91, R194 to R200). -/

namespace Sys2Proof.Machine

/-- `cvt` of one value (R87, R195): integer to integer wraps or saturates; to and from floating point it rounds. -/
def cvtVal (td ts : Ty) (sat : Bool) (rm : Nat) (ftz : Bool) (x : Nat) : Nat :=
  match ts.kind, td.kind with
  | .float, .float => fConv (fmtOf ts) (fmtOf td) rm ftz x
  | .float, _ => fToInt (fmtOf ts) rm ftz td x
  | _, .float => fOfInt (fmtOf td) rm ftz (intVal ts x)
  | _, _ => fit sat td (intVal ts x)

/-- The source type in EXT and the rounding mode in B (R195). -/
def cvtSource (ext : BitVec 5) : Ty := match tyOfCode ext.toNat with
  | some t => t
  | none => .b32
def cvtMode (b : Operand) (rm : Nat) : Nat := match b with
  | .i v => v.toNat % 4
  | _ => rm

def cvtOut (i : Issue) : RegOut :=
  let ts := cvtSource i.f.ext
  i.putTy i.ty fun l => cvtVal i.ty ts i.f.f (cvtMode i.f.b i.rm) i.ftz (i.a ts false l)

/-- The source type of `pack2` (R196). -/
def packSource (t : Ty) : Ty :=
  match t with
  | .f16 | .bf16 => .f32
  | .s16 | .n16 => .s32
  | _ => .b32

/-- One element of `pack2` (R196). -/
def packElem (t : Ty) (sat : Bool) (rm : Nat) (ftz : Bool) (x : Nat) : Nat :=
  match t with
  | .f16 | .bf16 => fConv (fmtOf .f32) (fmtOf t) rm ftz x
  | .s16 | .n16 => fit sat t (sext x 32)
  | _ => x % 2 ^ 16

def pack2Out (i : Issue) : RegOut :=
  let ts := packSource i.ty
  let p := packElem i.ty i.f.f i.rm i.ftz
  i.putD 1 fun l => joinElems 16 [p (i.a ts false l), p (i.b ts false l)]

/-- One element of `unpack2` (R197), as a 32-bit row. -/
def unpackElem (t : Ty) (rm : Nat) (ftz : Bool) (x : Nat) : Nat :=
  match t with
  | .f16 | .bf16 => fConv (fmtOf t) (fmtOf .f32) rm ftz x
  | .s16 => trunc (sext x 16) 32
  | _ => x

def unpack2Out (i : Issue) : RegOut :=
  let u := unpackElem i.ty i.rm i.ftz
  i.putD 2 fun l => let a := i.a32 l
                    joinElems 32 [u (elem a 16 0), u (elem a 16 1)]

/-! ### Block floating point -/

/-- The exponent E of a block of FP32 values (R90). -/
def bfpExp (xs : List Nat) : Nat :=
  let vs := xs.map fun x => unpack (fmtOf .f32) false x
  if vs.any fun v => v.isNan || (match v with | .inf _ => true | _ => false) then 0xFF
  else
    let logs := vs.filterMap fun v => match v with
      | .fin _ m e => some ((bitLen m : Int) - 1 + e)
      | _ => none
    match logs with
    | [] => 0
    | l :: ls => (min (max (ls.foldl max l + 128) 0) 254).toNat

/-- The mantissa of one value in a block of exponent E at width b (R90), as b bits. -/
def bfpMant (b ex : Nat) (x : Nat) : Nat :=
  if ex = 0xFF then 0
  else
    match unpack (fmtOf .f32) false x with
    | .fin n m e =>
      let q := signed n (roundAt 0 n m (e - ((ex : Int) - 127 - (b - 1))) false 0)
      trunc (min (max q (-(2 ^ (b - 1) : Nat))) ((2 ^ (b - 1) : Nat) - 1)) b
    | _ => 0

/-- The FP32 value of a mantissa (R88, R91). -/
def bfpValue (b ex m : Nat) : Nat :=
  if ex = 0xFF then (fmtOf .f32).nan
  else roundInt (fmtOf .f32) 0 false (sext m b) ((ex : Int) - 127 - (b - 1)) false

/-- The width that `.a` or `.b` selects (R198). -/
def Issue.bfpWidth (i : Issue) : Nat := if i.f.f then fmtBw i.sp.fmt else fmtAw i.sp.fmt

/-- The FP32 inputs of block q: lanes in which the instruction takes no effect supply +0 (R90, R198). -/
def Issue.block (i : Issue) (q : Nat) : List Nat :=
  (List.range 32).map fun j => let l := 32 * q + j
                               if hasLane i.run l then i.a .f32 false l else 0

/-- The blocks' exponents, one per byte (R198, R200). -/
def Issue.blockExps (i : Issue) : List Nat := (List.range (i.c.width / 32)).map fun q => bfpExp (i.block q)

/-- `bfpack` (R198). -/
def bfpackOut (i : Issue) : RegOut :=
  let b := i.bfpWidth
  let exps := i.blockExps
  let words := exps.zipIdx.map fun e => joinElems b ((i.block e.2).map (bfpMant b e.1))
  let o := i.putD 1 fun l => let j := l % 32
                             if j < b then elem (words.getD (l / 32) 0) 32 j else 0
  match i.f.b with
  | .s r => if i.run = 0 then o else { o with s := [(r.toNat, joinElems 8 exps)] }
  | _ => o

/-- `bfunpack` (R199). -/
def bfunpackOut (i : Issue) : RegOut :=
  let b := i.bfpWidth
  i.putD 1 fun l =>
    let q := l / 32
    let str := joinElems 32 ((List.range b).map fun j => i.a .b32 false (32 * q + j))
    let ex := match i.f.b with
      | .s r => elem (i.cb.uni r.toNat).toNat 8 q
      | o => operand32 i.cb i.sp.wbase o (32 * q) % 256
    bfpValue b ex (elem str b (l % 32))

/-- `bfexp` (R200). -/
def bfexpOut (i : Issue) : RegOut :=
  match i.f.d with
  | .s _ => i.putD 1 fun _ => joinElems 8 i.blockExps
  | _ => i.putD 1 fun l => i.blockExps.getD (l / 32) 0

end Sys2Proof.Machine
end

