-- ==== Sys2Proof/Machine/Int.lean ====
section
/-! DEFINITION. Group 0, integer and bit operations (R174 to R181), and group 1, compare, select and predicates (R182 to
R185). -/

namespace Sys2Proof.Machine

/-- The exact results of R175 fitted to the type: wrapped, or clamped where F selects saturation. -/
def Issue.intOut (i : Issue) (op : Int → Int → Int → Int) : RegOut :=
  let t := i.ty
  i.putTy t fun l => fit i.f.f t (op (intVal t (i.a t false l)) (intVal t (i.b t false l)) (intVal t (i.dv t false l)))

/-- `iadd`, `isub`, `imul`, `imad`, `imin`, `imax` of R175: F is saturation where the row has it. -/
def iaddOut (i : Issue) : RegOut := i.intOut fun a b _ => a + b
def isubOut (i : Issue) : RegOut := i.intOut fun a b _ => a - b
def imulOut (i : Issue) : RegOut := i.intOut fun a b _ => a * b
def imadOut (i : Issue) : RegOut := i.intOut fun a b d => a * b + d
def iminOut (i : Issue) : RegOut := i.intOut fun a b _ => min a b
def imaxOut (i : Issue) : RegOut := i.intOut fun a b _ => max a b
/-- `iabs` and `ineg` of R175. -/
def iabsOut (i : Issue) : RegOut := i.intOut fun a _ _ => (a.natAbs : Int)
def inegOut (i : Issue) : RegOut := i.intOut fun a _ _ => -a

/-- `imulhi` (R176): the high half of the exact product. -/
def imulhiOut (i : Issue) : RegOut :=
  let t := i.ty
  i.putTy t fun l => trunc (intVal t (i.a t false l) * intVal t (i.b t false l) / (2 ^ t.bits : Nat)) t.bits

/-- A bit operation on the two sources. -/
def Issue.bitOut (i : Issue) (op : Nat → Nat → Nat) : RegOut :=
  let t := i.ty
  i.putTy t fun l => op (i.a t false l) (i.b t false l) % 2 ^ t.bits

/-- `and`, `or`, `xor`, `not` (R177). -/
def andOut (i : Issue) : RegOut := i.bitOut fun a b => a &&& b
def orOut (i : Issue) : RegOut := i.bitOut fun a b => a ||| b
def xorOut (i : Issue) : RegOut := i.bitOut fun a b => a ^^^ b
def notOut (i : Issue) : RegOut := i.putTy i.ty fun l => 2 ^ i.ty.bits - 1 - i.a i.ty false l

/-- A shift by the 32-bit count of B (R178). -/
def Issue.shiftOut (i : Issue) (op : Nat → Nat → Nat → Nat) : RegOut :=
  let t := i.ty
  i.putTy t fun l => op t.bits (i.a t false l) (i.b32 l)

/-- `shl`, `shr`, `sar`, `rot` (R178): type width, value, count. -/
def shlVal (n a c : Nat) : Nat := if n ≤ c then 0 else a * 2 ^ c % 2 ^ n
def shrVal (n a c : Nat) : Nat := if n ≤ c then 0 else a / 2 ^ c
def sarVal (n a c : Nat) : Nat := if n ≤ c then (if sext a n < 0 then 2 ^ n - 1 else 0) else trunc (sext a n / (2 ^ c : Nat)) n
def rotVal (right : Bool) (n a c : Nat) : Nat :=
  let k := c % n
  if right then a / 2 ^ k ||| (a * 2 ^ (n - k) % 2 ^ n) else (a * 2 ^ k % 2 ^ n) ||| a / 2 ^ (n - k)

def shlOut (i : Issue) : RegOut := i.shiftOut shlVal
def shrOut (i : Issue) : RegOut := i.shiftOut shrVal
def sarOut (i : Issue) : RegOut := i.shiftOut sarVal
def rotOut (i : Issue) : RegOut := i.shiftOut (rotVal i.f.f)

/-- `popc` and `clz` (R179): 32-bit counts whatever the type. -/
def popcOut (i : Issue) : RegOut := i.putD 1 fun l => popCount (i.a i.ty false l) i.ty.bits
def clzOut (i : Issue) : RegOut := i.putD 1 fun l => i.ty.bits - bitLen (i.a i.ty false l)
/-- `brev` (R179). -/
def brevOut (i : Issue) : RegOut := i.putTy i.ty fun l => bitRev (i.a i.ty false l) i.ty.bits

/-- The field of `bfx` (R180): extended from its highest bit for signed types. -/
def bfxVal (t : Ty) (a b : Nat) : Nat :=
  let pos := b % 256
  let len := b / 256 % 256
  if len = 0 ∨ t.bits ≤ pos then 0
  else
    let k := min len (t.bits - pos)
    let f := bitf a pos k
    if Ty.isSigned t then trunc (sext f k) t.bits else f

/-- `bfi` (R180): the low bits of `a` laid over the base. -/
def bfiVal (n d a b : Nat) : Nat :=
  let pos := b % 256
  let len := b / 256 % 256
  if len = 0 ∨ n ≤ pos then d
  else
    let k := min len (n - pos)
    d % 2 ^ pos + bitf a 0 k * 2 ^ pos + d / 2 ^ (pos + k) * 2 ^ (pos + k)

def bfxOut (i : Issue) : RegOut := i.putTy i.ty fun l => bfxVal i.ty (i.a i.ty false l) (i.b32 l)
def bfiOut (i : Issue) : RegOut := i.putTy i.ty fun l => bfiVal i.ty.bits (i.dv i.ty false l) (i.a i.ty false l) (i.b32 l)

/-- `lea` (R181): the 32-bit index extended as F says, scaled by EXT. -/
def leaVal (n : Nat) (sx : Bool) (shift a b : Nat) : Nat :=
  trunc ((a : Int) + (if sx then sext b 32 else (b : Int)) * (2 ^ shift : Nat)) n
def leaOut (i : Issue) : RegOut := i.putTy i.ty fun l => leaVal i.ty.bits i.f.f i.f.ext.toNat (i.a i.ty false l) (i.b32 l)

/-- `icmp` (R183). -/
def icmpOut (i : Issue) : RegOut :=
  let t := i.ty
  i.putP fun l => icmpCond (i.f.ext.toNat % 8) (intVal t (i.a t false l)) (intVal t (i.b t false l))

/-- `sel` (R184). -/
def selOut (i : Issue) : RegOut :=
  i.putTy i.ty fun l => if selTakesA i.c i.f.ext.toNat l then i.a i.ty false l else i.b i.ty false l

/-- `pand`, `por`, `pxor`, `pnot`, `pmov` (R185). -/
def Issue.pa (i : Issue) (l : Nat) : Bool := operandPred i.c i.f.a l
def Issue.pb (i : Issue) (l : Nat) : Bool := operandPred i.c i.f.b l
def pandOut (i : Issue) : RegOut := i.putP fun l => i.pa l && i.pb l
def porOut (i : Issue) : RegOut := i.putP fun l => i.pa l || i.pb l
def pxorOut (i : Issue) : RegOut := i.putP fun l => i.pa l != i.pb l
def pnotOut (i : Issue) : RegOut := i.putP fun l => !i.pa l
def pmovOut (i : Issue) : RegOut := i.putP fun l => pmovBit i.ca i.f.a l

end Sys2Proof.Machine
end

