-- ==== Sys2Proof/Machine/TeamMem.lean ====
section
/-! DEFINITION. What `lds`, `sts`, `atoms`, `mld` and `mst` read and write in a team's scratch and tiles, as functions of the team and of the
operands alone (R223, R239, R243, R287): the instructions perform by them, and so does one that reads a source again (R153). -/

namespace Sys2Proof.Machine

/-! ### Scratch -/

/-- Scratch bytes from an offset on. -/
def Team.bytesAt (t : Team) (off : Nat) : Nat → List Byte
  | 0 => []
  | n + 1 => Tab.get 0 t.scratch off :: Team.bytesAt t (off + 1) n

/-- Does a byte range touch an active knot (R57)? -/
def Team.guarded (t : Team) (off n : Nat) : Bool :=
  (List.range ((off + n + 15) / 16 - off / 16)).any fun i => (Tab.find t.guards (off / 16 + i)).isSome

/-- Scratch bytes laid over others. -/
def putBytes (t : Table Byte) (cells : List (Nat × Byte)) : Table Byte := cells.foldl (fun t e => Tab.set 0 t e.1 e.2) t

/-! ### Lanes and operands -/

/-- The lane whose operands an access evaluates: any lane for a uniform one. -/
def evalLane (l : Nat) : Nat := if l = 128 then 0 else l

/-- The scratch-form offset in a lane (R218). -/
def scratchOff (i : Issue) (l : Nat) : Nat := (i.a32 l + i.b32 l) % 2 ^ 32

/-- Is the instruction uniform by R222: a class-s destination or data field, and no class-v one? -/
def uniformAccess (m : Mn) (f : Fields) : Bool :=
  let plain := fun o : Operand => o.cls == .s || o.cls == .i || o.cls == .none
  match m with
  | .ld | .st | .sts | .stb | .ldc => f.d.cls == .s && plain f.a && plain f.b
  | .atom | .atomf | .cas | .atoms => (f.d.cls == .s || f.b.cls == .s) && plain f.d && plain f.a && plain f.b
  | .rld | .rst | .ratom | .gld | .gst => plain f.d && plain f.a && plain f.b
  | _ => false

/-- The accesses of an instruction: its lanes, or the one of a uniform instruction, numbered 128 (R41, R222). -/
def accLanes (i : Issue) : List Nat := if uniformAccess i.m i.f then (if i.run = 0 then [] else [128]) else i.lanes

/-- The datum of a store in a lane, read from D at issue (R111, R140). -/
def storeData (i : Issue) (l : Nat) : Nat := i.dv i.ty true (evalLane l)

/-- The scratch bytes that an `sts` stores: lane, offset and bytes (R223, R239). -/
def stsCells (i : Issue) : List (Nat × Nat × List Byte) :=
  (accLanes i).map fun l => (l, scratchOff i (evalLane l), leBytes (storeData i l) i.ty.bytes)

/-- Where `lds`, `sts` and `atoms` reach in a lane: `atoms` has no offset field (R243). -/
def Issue.scratchAt (i : Issue) (l : Nat) : Nat := scratchOff (if i.m = .atoms then { i with f := { i.f with b := .none } } else i) (evalLane l)

/-- A scratch value as D takes it (R76). -/
def scratchVal (i : Issue) (off : Nat) (t : Team) : Nat := leNat (t.bytesAt off i.ty.bytes)

/-! ### Atomics -/

/-- Bytes of one access: an atomic on a half type updates two packed elements in four bytes (R244). -/
def accBytes (t : Ty) : Nat := if isHalf t then 4 else t.bytes

/-- The new value of an atomic, none where it stores nothing (R98, R244, R245). -/
def atomicNew (t : Ty) (op : MemOp) (old b expect : Nat) : Option Nat :=
  let n := 8 * accBytes t
  match op with
  | .store | .exch => some (b % 2 ^ n)
  | .cas => if old = expect % 2 ^ n then some (b % 2 ^ n) else none
  | .and => some (old &&& b % 2 ^ n)
  | .or => some (old ||| b % 2 ^ n)
  | .xor => some (old ^^^ b % 2 ^ n)
  | .add =>
    match t.kind with
    | .float =>
        if isHalf t then some (joinElems 16 [fAtomAdd (fmtOf t) (elem old 16 0) (elem b 16 0), fAtomAdd (fmtOf t) (elem old 16 1) (elem b 16 1)])
        else some (fAtomAdd (fmtOf t) old b)
    | _ => some (trunc ((old : Int) + b) n)
  | .min | .max =>
    let isMax := op == .max
    match t.kind with
    | .float =>
        if isHalf t then
          some (joinElems 16 [(fAtomMinMax (fmtOf t) isMax (elem old 16 0) (elem b 16 0)).getD (elem old 16 0),
            (fAtomMinMax (fmtOf t) isMax (elem old 16 1) (elem b 16 1)).getD (elem old 16 1)])
        else fAtomMinMax (fmtOf t) isMax old b
    | _ =>
        let x := intVal t old
        let y := intVal t b
        some (trunc (if isMax then max x y else min x y) n)

/-- The operation of `atoms` (R243). -/
def opOfScratch (n : Nat) : MemOp :=
  match n with
  | 0 => .add | 1 => .min | 2 => .max | 3 => .and | 4 => .or | 5 => .xor | 6 => .exch | _ => .cas

/-- The operand of an atomic in a lane. -/
def atomData (i : Issue) (l : Nat) : Nat := i.b i.ty true (evalLane l)

/-- One lane of an `atoms`: the old value, and the bytes it stores (R244). -/
def atomsLane (i : Issue) (t : Team) (l off : Nat) : Nat × List (Nat × Byte) :=
  let old := scratchVal i off t
  match atomicNew i.ty (opOfScratch (i.f.ext.toNat % 8)) old (atomData i l) (i.dv i.ty true (evalLane l)) with
  | some v => (old, cellsFrom off (leBytes v i.ty.bytes))
  | none => (old, [])

/-- An `atoms` lane by lane (R223): the old values, and the team. -/
def atomsTeam (i : Issue) : List Nat → Team → List (Nat × Nat) × Team
  | [], t => ([], t)
  | l :: ls, t =>
    let r := atomsLane i t l (i.scratchAt l)
    let rest := atomsTeam i ls { t with scratch := putBytes t.scratch r.2 }
    ((l, r.1) :: rest.1, rest.2)

/-- The old value that a lane's destination takes. -/
def oldIn (olds : List (Nat × Nat)) (l : Nat) : Nat := ((olds.find? fun p => p.1 == l || p.1 == 128).map Prod.snd).getD 0

/-! ### Tiles -/

/-- The key of a tile element; side 1 is the follower's. -/
def tileKey (side tile i j : Nat) : Nat := 65536 * side + 4096 * tile + 64 * i + j
def Team.tileElem (t : Team) (side tile i j : Nat) : Nat := (Tab.get 0 t.tiles (tileKey side tile i j)).toNat
def Team.setTile (t : Team) (side tile i j v : Nat) : Team :=
  { t with tiles := Tab.set 0 t.tiles (tileKey side tile i j) (BitVec.ofNat 32 v) }

/-- Every element of a tile. -/
def tileCells : List (Nat × Nat) := ((List.range 64).map fun i => (List.range 64).map fun j => (i, j)).flatten
/-- A tile set to +0.0. -/
def Team.zeroTile (side tile : Nat) (t : Team) : Team := tileCells.foldl (fun (t : Team) p => t.setTile side tile p.1 p.2 0) t

/-- Tile number of a class-m field. -/
def tileNo : Operand → Nat
  | .m t => t.toNat
  | _ => 0

/-- The sides that VAR names, with the image bytes of each row (R287). -/
def tileSides (t : Team) (var : Nat) : List Nat := if var = 1 then [0] else if var = 2 then [1] else if t.pair then [0, 1] else [0]

/-- The image of a transfer: its offset, stride and row bytes (R287). -/
structure TileImage where
  off    : Nat
  stride : Nat
  row    : Nat
deriving DecidableEq, Repr

def tileImage (i : Issue) (t : Team) : TileImage :=
  { off := operand64 i.ca i.f.a % 2 ^ 32, stride := operand64 i.cb i.f.b % 2 ^ 32
    row := 256 * (tileSides t (Sel.varNo i.f.sel)).length }

/-- The first byte of each row. -/
def TileImage.rows (m : TileImage) : List Nat := (List.range 64).map fun r => m.off + r * m.stride

/-- The tiles that `mld` writes (R287). -/
def mldTeam (i : Issue) (t : Team) (m : TileImage) (sides : List Nat) : Team :=
  (sides.zip (List.range 2)).foldl (fun (u : Team) sd =>
    tileCells.foldl (fun (u' : Team) p =>
      u'.setTile sd.1 (tileNo i.f.d) p.1 p.2 (leNat (t.bytesAt (m.off + p.1 * m.stride + 256 * sd.2 + 4 * p.2) 4))) u) t

/-- The bytes that `mst` writes (R287). -/
def mstCells (i : Issue) (t : Team) (m : TileImage) (sides : List Nat) : List (Nat × Byte) :=
  ((sides.zip (List.range 2)).map fun sd => (tileCells.map fun p =>
    cellsFrom (m.off + p.1 * m.stride + 256 * sd.2 + 4 * p.2) (leBytes (t.tileElem sd.1 (tileNo i.f.d) p.1 p.2) 4)).flatten).flatten

/-! ### Whole instructions -/

/-- Would the instruction's accesses pass their checks with its operands (R218, R221, R257, R287)? -/
def teamOk (i : Issue) (t : Team) : Bool :=
  match i.m with
  | .lds | .sts | .atoms => (accLanes i).all fun l =>
      let off := i.scratchAt l
      off % i.ty.bytes == 0 && off + i.ty.bytes ≤ t.scratchSize && (i.m == .lds || !t.guarded off i.ty.bytes)
  | .mld | .mst =>
      let m := tileImage i t
      m.off % 16 == 0 && m.stride % 16 == 0 && m.row ≤ m.stride && m.off + 63 * m.stride + m.row ≤ t.scratchSize
        && (i.m == .mld || m.rows.all fun a => !t.guarded a m.row)
  | _ => false

/-- The team after the instruction. -/
def teamOut (i : Issue) (t : Team) : Team :=
  if i.run = 0 then t
  else
    match i.m with
    | .sts => { t with scratch := putBytes t.scratch ((stsCells i).map fun e => cellsFrom e.2.1 e.2.2).flatten }
    | .atoms => (atomsTeam i (accLanes i) t).2
    | .mld => mldTeam i t (tileImage i t) (tileSides t (Sel.varNo i.f.sel))
    | .mst => { t with scratch := putBytes t.scratch (mstCells i t (tileImage i t) (tileSides t (Sel.varNo i.f.sel))) }
    | _ => t

end Sys2Proof.Machine
end

