-- ==== Sys2Proof/Machine/LongOut.lean ====
section
/-! DEFINITION. What a long instruction gives for its sources, apart from issuing it: the registers it writes, so that a source
overwritten in its window can be read as either value (R152, R153). -/

namespace Sys2Proof.Machine

/-- The layout record that `setlay` makes (R276), and the number of the register. -/
def setlayRecord (i : Issue) : LayRec :=
  match i.f.a with
  | .s a => BitVec.ofNat 256 (joinElems 64 ((List.range 4).map fun j => (i.ca.uni (a.toNat + j)).toNat))
  | _ => 0
def layoutNo : Operand → Nat
  | .x sel => sel.toNat - 0x100
  | _ => 0

/-- What `lstat` gives D (R278). -/
def lstatOut (i : Issue) : RegOut :=
  let v := Tab.get (0, 0) i.c.lstat (layoutNo i.f.a)
  match i.f.d with | .s r => { s := [(r.toNat, v.1 * 2 ^ 32 + v.2)] } | _ => {}

/-- The registers that a long instruction writes on a team as it found it (R152); none where it would not pass its checks with these operands, or
reads its operands for good at issue (log 15). -/
def longOut (s : State) (i : Issue) (t : Team) : Option RegOut :=
  match i.m with
  | .lds => if teamOk i t then some (i.putTy i.ty fun l => scratchVal i (i.scratchAt l) t) else none
  | .atoms => if teamOk i t then some (i.putTy i.ty (oldIn (atomsTeam i (accLanes i) t).1)) else none
  | .sts | .mld | .mst => if teamOk i t then some {} else none
  | .setlay => if i.run = 0 then some {} else if layReserved (setlayRecord i) then none else some { lay := [(layoutNo i.f.d, setlayRecord i)] }
  | .lstat => if i.run = 0 then some {} else some (lstatOut i)
  | .imul => some (imulOut i)
  | .imulhi => some (imulhiOut i)
  | .imad => some (imadOut i)
  | .fadd => some (faddOut i)
  | .fsub => some (fsubOut i)
  | .fmul => some (fmulOut i)
  | .fma => some (fmaOut i)
  | .fmin => some (fminOut i)
  | .fmax => some (fmaxOut i)
  | .fcmp => some (fcmpOut i)
  | .fdiv => some (fdivOut i)
  | .fsqrt => some (fsqrtOut i)
  | .frcp => some (frcpOut i)
  | .frsq => some (frsqOut i)
  | .fexp2 => some (fexp2Out i)
  | .flog2 => some (flog2Out i)
  | .fsin => some (fsinOut i)
  | .fcos => some (fcosOut i)
  | .frnd => some (frndOut i)
  | .fclass => some (fclassOut i)
  | .dadd => some (daddOut i)
  | .dsub => some (dsubOut i)
  | .dmul => some (dmulOut i)
  | .dfma => some (dfmaOut i)
  | .dmin => some (dminOut i)
  | .dmax => some (dmaxOut i)
  | .dcmp => some (dcmpOut i)
  | .ddiv => some (ddivOut i)
  | .dsqrt => some (dsqrtOut i)
  | .cvt => some (cvtOut i)
  | .pack2 => some (pack2Out i)
  | .unpack2 => some (unpack2Out i)
  | .bfpack => some (bfpackOut i)
  | .bfunpack => some (bfunpackOut i)
  | .bfexp => some (bfexpOut i)
  | .shfl => some (shflOut i)
  | .vote => some (voteOut i)
  | .bcast => some (bcastOut i)
  | .redux => some (reduxOut s i)
  | .scan => some (scanOut s i)
  | .matchv => some (matchOut i)
  | _ => none

end Sys2Proof.Machine
end

