-- ==== Sys2Proof/Machine/Issue.lean ====
section
/-! DEFINITION. Issuing an instruction of a crew: what it may find of long instructions, loads and latches whose results are
not settled (R112, R153, R154, R156), the decode causes (R148), the guard, and retirement (R67, R71). -/

namespace Sys2Proof.Machine

variable {s0 : State}

/-! ### The registers an instruction names -/

/-- Is D read (a third source, a datum, a partial write: R142, R212, R230 and the tables)? -/
def dIsSource : Mn → Bool
  | .imad | .fma | .dfma | .bfi | .movw | .cas | .atoms | .st | .sts | .stb | .rst | .gst | .ratom | .wrpr | .knotarr
  | .knotwait | .copy | .copyg | .claim | .mld | .mst | .mma | .mmaw | .bra | .brx => true
  | _ => false

/-- Is D written? -/
def dIsDest : Mn → Bool
  | .st | .sts | .stb | .rst | .gst | .wrpr | .knotarr | .knotwait | .copy | .copyg | .claim | .mld | .mst | .mma
  | .mmaw | .bra | .brx => false
  | _ => true

/-- How many consecutive uniform registers an A or B field of class s stands for. -/
def uniRun (m : Mn) (width : Nat) (isA : Bool) : Nat :=
  match m with
  | .setlay => 4
  | .ldb | .stb => if isA then 2 else 1
  | .claim | .announce => 2
  | .pmov => if width = 128 then 2 else 1
  | .bar | .knotarr | .knotwait => if width = 128 && !isA then 2 else 1
  | _ => 1

/-- The register keys of an operand of `n` rows or `u` uniform registers; `p0` is no storage (R33). -/
def operandKeys (wbase wrows n u : Nat) : Operand → List Nat
  | .v idx .. => (List.range n).map fun j => physRow wbase wrows (idx.toNat + j)
  | .s r => (List.range u).map fun j => keyS (r.toNat + j)
  | .p r _ => if r = 0 then [] else [keyP r.toNat]
  | .x sel => if 0x100 ≤ sel.toNat then [keyL (sel.toNat - 0x100)] else []
  | _ => []

/-- The words of an A image (R281). -/
def imageWords (bfp : Bool) (blocks aw : Nat) : Nat := if bfp then blocks * (64 * aw + 16) else 1024 * blocks

/-- The rows of the A image that an `mma` or `mmaw` reads (R281): its layout register, type and FMT give K. -/
def imageRows (c : Crew) (sp : Split) (f : Fields) : Nat :=
  let bfp := Sel.kind? f.sel == some .bfp
  let lay := match f.b with | .x sel => layOf (c.layReg (sel.toNat - 0x100)) | _ => layOf 0
  let blocks := (lay.blocks bfp (fmtOrient sp.fmt) (fmtBw sp.fmt) (if f.f then 64 else 128)).getD 0
  (imageWords bfp blocks (fmtAw sp.fmt) + c.width - 1) / c.width

/-- How many rows a class-v A field of the issuing split stands for. -/
def rowsA (c : Crew) (sp : Split) (m : Mn) (f : Fields) : Nat :=
  if m = .mma || m = .mmaw then imageRows c sp f else (operandRows m f c.width).2.1

/-- The keys an instruction reads in its A field, its B field and elsewhere, its guard among them. A class-v `movw` reads no row
(R212), `bfpack` writes B (R198). -/
def readsA (c : Crew) (sp : Split) (m : Mn) (f : Fields) : List Nat :=
  operandKeys sp.wbase c.wrows (rowsA c sp m f) (uniRun m c.width true) f.a
def readsB (c : Crew) (sp : Split) (m : Mn) (f : Fields) : List Nat :=
  if m = .bfpack then [] else operandKeys sp.wbase c.wrows (operandRows m f c.width).2.2 (uniRun m c.width false) f.b
def readsElse (c : Crew) (sp : Split) (m : Mn) (f : Fields) : List Nat :=
  (if dIsSource m && !(m == .movw && f.d.cls == .v) then operandKeys sp.wbase c.wrows (operandRows m f c.width).1 1 f.d else [])
    ++ (([f.guard.pred.toNat] ++ if m = .sel then [f.ext.toNat % 8] else []).filter fun n => n != 0).map keyP

/-- The keys an instruction reads. -/
def readKeys (c : Crew) (sp : Split) (m : Mn) (f : Fields) : List Nat := readsA c sp m f ++ readsB c sp m f ++ readsElse c sp m f

/-- How many uniform registers a D field of class s takes: a width-128 `vote.mask` writes two (R204). -/
def uniDest (m : Mn) (f : Fields) (width : Nat) : Nat := if m = .vote && Sel.varNo f.sel = 3 && width = 128 then 2 else 1

/-- The row of a class-v pair that `movw` writes (R212). -/
def movwRow (c : Crew) (sp : Split) (f : Fields) (idx : Nat) : Nat := physRow sp.wbase c.wrows (idx + if f.f then 1 else 0)

/-- The keys of D as a destination. -/
def destKeys (c : Crew) (sp : Split) (m : Mn) (f : Fields) : List Nat :=
  match m, f.d with
  | .movw, .v idx .. => [movwRow c sp f idx.toNat]
  | _, _ => operandKeys sp.wbase c.wrows (operandRows m f c.width).1 (uniDest m f c.width) f.d

/-- The keys an instruction writes; `bfpack` also writes B (R198). -/
def writeKeys (c : Crew) (sp : Split) (m : Mn) (f : Fields) : List Nat :=
  (if dIsDest m then destKeys c sp m f else [])
    ++ if m = .bfpack then operandKeys sp.wbase c.wrows 0 1 f.b else []

/-- Do two lists of keys share one? -/
def meets (a b : List Nat) : Bool := a.any fun x => b.contains x

/-! ### What is not settled -/

/-- Takes what cells held before in place of what they hold, each as the manual leaves open; a cell that holds the same value
either way needs no choice. -/
def mixCells (s : State) (kind : Nat) (c : Crew) : List (Nat × Nat) → Crew
  | [] => c
  | (k, v) :: t =>
    mixCells s kind (if c.cell k = v then c else if Config.freeBit (s.salt kind k) then c.setCell k v else c) t

/-- The crew as an instruction of the split may read it: inside a window either value of what the long instruction wrote
(R153), and of an uncovered load either the old or the loaded value (R112). -/
def crewView (s : State) (c : Crew) (windows : List LongWindow) : Crew :=
  mixCells s 11 (mixCells s 10 c (windows.map fun w => w.old).flatten) (c.uncov.map fun u => u.old).flatten

/-- The class and number of the register that a field names (R154); an immediate or an empty field names none. -/
def namedReg : Operand → Option (Cls × Nat)
  | .v idx .. => some (.v, idx.toNat)
  | .s r => some (.s, r.toNat)
  | .p r _ => some (.p, r.toNat)
  | .x sel => some (.x, sel.toNat)
  | .m t => some (.m, t.toNat)
  | _ => none

/-- Does the field name the register that a latch holds (R154)? -/
def Latch.holds (l : Latch) (o : Operand) : Bool := namedReg o == some (l.cls, l.num)

/-- The crew as an operand read through its latch finds it: either the latched or the newer value (R154). -/
def latchView (s : State) (kind : Nat) (c : Crew) (l : Option Latch) (o : Operand) : Crew :=
  match l with
  | some l => if l.holds o then mixCells s kind c l.data else c
  | none => c

/-- What the cells of some register keys hold. -/
def cellData (c : Crew) (keys : List Nat) : List (Nat × Nat) := ((keys.map (cellsOf c.width)).flatten).map fun k => (k, c.cell k)

/-- The latch after an operand was read whose register keys are `rows` (R154): kept, made anew, released, or untouched where the
field names no register. -/
def nextLatch (c : Crew) (l : Option Latch) (keep : Bool) (rows : List Nat) (o : Operand) : Option Latch :=
  match namedReg o with
  | none => l
  | some (cls, num) =>
    if !keep then none
    else if (match l with | some l => l.holds o | none => false) then l
    else some { cls := cls, num := num, rows := rows, stale := false, data := cellData c rows }

/-- The hazard detector (R156): a breach of R153, a stale latch, or an uncovered load's row. -/
def hazard (c : Crew) (sp : Split) (m : Mn) (f : Fields) : Bool :=
  let rd := readKeys c sp m f
  let wr := writeKeys c sp m f
  let closing := m.row.lat == .closing
  (!closing && sp.windows.any fun w => meets rd w.writes || meets wr w.reads || meets wr w.writes)
    || (match sp.latchA with | some l => l.holds f.a && l.stale | none => false)
    || (match sp.latchB with | some l => l.holds f.b && l.stale | none => false)
    || c.uncov.any fun u => meets rd u.rows || meets wr u.rows

/-- Writes to cells that a long instruction writes too leave either value (R153): `was` is the crew before the writes. -/
def settle (s : State) (was : Crew) (keys : List Nat) (c : Crew) : List Nat → Crew
  | [] => c
  | k :: t =>
    settle s was keys (if keys.contains (k / 128) && was.cell k != c.cell k && Config.freeBit (s.salt 14 k)
      then c.setCell k (was.cell k) else c) t

/-- What uncovered loads brought into the cells that an instruction now writes: each such cell holds either value (R112). -/
def loadedInto (us : List Uncovered) (cells : List Nat) : List (Nat × Nat) :=
  ((us.map fun u => u.loaded).flatten).filter fun e => cells.contains e.1

/-- Sources as a long instruction may have read them once `cells` were written: in each such cell either value (R153). -/
def rereadCells (pick : Nat → Bool) (c : Crew) (cells : List Nat) (l : List (Nat × Nat)) : List (Nat × Nat) :=
  l.map fun e => if cells.contains e.1 && c.cell e.1 != e.2 && pick e.1 then (e.1, c.cell e.1) else e

/-- Sets cells to the values given. -/
def Crew.putCells (c : Crew) : List (Nat × Nat) → Crew
  | [] => c
  | (k, v) :: t => (c.setCell k v).putCells t

/-- A long instruction of the split as it issued, its sources those of its window. -/
def LongWindow.issue (w : LongWindow) (i : Issue) (c : Crew) : Issue :=
  let src := { c.putCells w.src with lstat := w.lstat }
  { i with c := src, ca := { c.putCells w.srcA with lstat := w.lstat }, cb := c.putCells w.srcB, m := w.m, f := w.f, act := w.act
           run := guardLanes src w.f.guard w.act, sp := { i.sp with fmt := w.fmt, wbase := w.wbase } }

/-- The team as a long instruction found it. -/
def LongWindow.team (w : LongWindow) (t : Team) : Team := { t with scratch := w.scr, tiles := w.tiles }

/-- A window after its split's next instruction wrote `cells`, the `n`-th of the split, with its sources, its guard among them, as the long
instruction may have read them: each cell overwritten is read as either value (R153). The counters of a layout register that `setlay` wrote
since are 0 (R278). An instruction that would fail its checks with these sources read the old ones (log 15). -/
def LongWindow.reread (s : State) (i : Issue) (cells : List Nat) (n : Nat) (c : Crew) (w : LongWindow) : LongWindow :=
  let pick := fun k => Config.freeBit (s.salt 15 (2 ^ 32 * n + k))
  let srcA := rereadCells pick c cells w.srcA
  let w' := { w with srcA := srcA, srcB := rereadCells pick c cells w.srcB, src := rereadCells pick c cells w.src
                     lstat := if w.m = .lstat && srcA ≠ w.srcA then [] else w.lstat }
  match s.team? c.team with
  | some t => if (longOut s (w'.issue i c) (w.team t)).isSome then w' else w
  | none => w

/-- What the counters of a layout register become where `setlay` or `lstat`, which clear them, turns out to have run or not (R276, R278). -/
def LongWindow.counters (w : LongWindow) (was now : Bool) (c : Crew) : Crew :=
  let n := layoutNo (if w.m = .setlay then w.f.d else w.f.a)
  if (w.m ≠ .setlay && w.m ≠ .lstat) || was == now then c
  else if now then { c with lstat := Tab.del c.lstat n }
  else
    let a := Tab.get (0, 0) c.lstat n
    let b := Tab.get (0, 0) w.lstat n
    { c with lstat := Tab.set (0, 0) c.lstat n (min (2 ^ 32 - 1) (a.1 + b.1), min (2 ^ 32 - 1) (a.2 + b.2)) }

/-- A window and the crew after `cells` were written: what the long instruction wrote, where it still stands, is its result for the sources it
read (R153). -/
def LongWindow.redo (s : State) (i : Issue) (cells : List Nat) (n : Nat) (c : Crew) (w : LongWindow) : LongWindow × Crew :=
  let w' := w.reread s i cells n c
  if w' = w then (w, c)
  else
    let v := w'.issue i c
    match (s.team? c.team).bind fun t => longOut s v (w.team t) with
    | none => (w, c)
    | some o =>
      let d := (v.c.putCells w.old).putOut o
      let res := w.old.map fun e => (e.1, d.cell e.1)
      let c' := c.putCells (((w.res.zip res).filter fun e => c.cell e.1.1 == e.1.2 && !cells.contains e.1.1).map Prod.snd)
      ({ w' with res := res }, w.counters ((w.issue i c).run != 0) (v.run != 0) c')

/-- Every window of the split after an instruction wrote `cells`, and the crew. -/
def redoAll (s : State) (i : Issue) (cells : List Nat) : Nat → Crew → List LongWindow → List LongWindow × Crew
  | _, c, [] => ([], c)
  | n, c, w :: ws =>
    let r := w.redo s i cells n c
    let rest := redoAll s i cells (n + 1) r.2 ws
    (r.1 :: rest.1, rest.2)

/-- A load that no `qwait` covers notes the cells written since (R112): what they held before its data came is no longer read. -/
def Uncovered.note (cells : List Nat) (u : Uncovered) : Uncovered :=
  { u with wrote := u.wrote ++ cells.filter fun k => u.rows.contains (k / 128)
           old := u.old.filter fun e => !cells.contains e.1 }

/-! ### Retirement -/

/-- Is the crew parked (R59)? A split that waits for its crew's other splits to arrive (R54), that waits in issue or in an
`.ord` operation does not keep them from issuing. -/
def Wait.parks : Wait → Bool
  | .none | .ord .. | .ordAtom _ | .fence .. | .passes _ | .tinv .. => false
  | _ => true

/-- The waits of barrier-class instructions (R54). -/
def Wait.barrier : Wait → Bool
  | .bar _ | .knotArrive _ | .knot .. => true
  | _ => false

/-- Does an arrival still wait for lanes of the crew's other splits, or for its fence (R54, R117)? -/
def Crew.awaited (c : Crew) (w : Wait) : Bool := c.arriving.any fun a => a.what == w && !a.done

/-- Is some split of the crew parked, and with it the crew (R59)? -/
def Crew.parked (c : Crew) : Bool := c.splits.any fun e => e.2.st == .blocked && e.2.wait.parks && !c.awaited e.2.wait

/-- The passes of an instruction that issue (R20, R40). -/
def passCount (act : Lanes) (w : Nat) : Nat :=
  ((List.range (w / 32)).filter fun p => act &&& BitVec.ofNat 128 ((2 ^ 32 - 1) * 2 ^ (32 * p)) != 0).length

/-- What an instruction's writes leave (R112, R153): the windows of its split, and the crew. -/
def Issue.writes (i : Issue) (s : State) (o : RegOut) (c : Crew) : List LongWindow × Crew :=
  let cells := o.cells c.width
  let d := settle s c (i.sp.windows.map fun w => w.writes).flatten (c.putOut o) cells
  redoAll s i cells 0 (mixCells s 11 d (loadedInto c.uncov cells)) i.sp.windows

/-- The window that a long instruction opens (R153); `was` is the crew before it wrote. -/
def Issue.window (i : Issue) (o : RegOut) (was : Crew) : LongWindow :=
  let keys := distinct (writeKeys i.c i.sp i.m i.f ++ o.keys)
  let cells := (keys.map (cellsOf i.c.width)).flatten
  { left := i.f.hint.la.toNat, reads := readKeys i.c i.sp i.m i.f, writes := writeKeys i.c i.sp i.m i.f
    old := cells.map fun k => (k, was.cell k), m := i.m, f := i.f, act := i.act, fmt := i.sp.fmt, wbase := i.sp.wbase
    srcA := cellData i.ca (readsA i.c i.sp i.m i.f), srcB := cellData i.cb (readsB i.c i.sp i.m i.f)
    src := cellData i.c (readsElse i.c i.sp i.m i.f), res := cells.map fun k => (k, (was.putOut o).cell k)
    lstat := i.c.lstat, scr := [], tiles := [] }

/-- The split after it retired an instruction (R71, R153, R154). -/
def Issue.nextSplit (i : Issue) (s : State) (o : RegOut) (was : Crew) (pc : BitVec 56) (sp : Split) : Split :=
  let open_ := ((i.writes s o was).1.map fun w => { w with left := w.left - 1 }).filter fun w => w.left != 0
  { sp with
    pc := pc, clock := sp.clock + 1
    fmt := match o.fmt with | some v => v | none => sp.fmt
    windows := if i.m.row.lat = .long && i.f.hint.la ≠ 0 then open_ ++ [i.window o was] else open_
    latchA := if i.m = .mma || i.m = .mmaw then none else nextLatch i.ca i.sp.latchA i.f.hint.keepA (readsA i.c i.sp i.m i.f) i.f.a
    latchB := nextLatch i.cb i.sp.latchB i.f.hint.keepB (readsB i.c i.sp i.m i.f) i.f.b }

/-- A split's latches after registers were written, and after another split of the crew issued (R154). -/
def latchAfter (own : Bool) (wr : List Nat) (sp : Split) : Split :=
  let mark := fun l : Latch => { l with stale := l.stale || meets wr l.rows }
  if own then { sp with latchA := sp.latchA.map mark, latchB := sp.latchB.map mark }
  else { sp with latchA := none, latchB := none }

/-- The crew with what an instruction writes (R112, R153). -/
def Issue.written (i : Issue) (s : State) (o : RegOut) (c : Crew) : Crew :=
  let d := (i.writes s o c).2
  { d with uncov := d.uncov.map (Uncovered.note (o.cells c.width)) }

/-- The crew after an instruction retired: registers written, the split advanced, the crew no longer passed over (R65). -/
def Issue.retired (i : Issue) (s : State) (o : RegOut) (pc : BitVec 56) (cyc : Nat) (c : Crew) : Crew :=
  let c' := i.written s o c
  let wr := o.keys
  { c' with
    splits := c'.splits.map fun e =>
      (e.1, latchAfter (e.1 == i.k) wr (if e.1 = i.k then i.nextSplit s o c pc e.2 else e.2))
    age := cyc, passed := cyc, boosted := false, yielded := false }

/-- The slot's cycle count after an issue. -/
def Issue.cyclesAfter (i : Issue) (s : State) : Nat := Tab.get 0 s.cycles (i.x / 8) + passCount i.act i.c.width

/-- Adds to the co-location measurement of a team's kernel (R425). -/
def countWork (g : Go s0) (team ops bytes : Nat) : Go s0 :=
  match g.st.team? team with
  | none => g
  | some t =>
    let k := t.object * 2 ^ 32 + t.kernel
    let v := Tab.get { ops := 0, bytes := 0, cls := none } g.st.coloc k
    if ops = 0 && bytes = 0 then g else g.put (.coloc k (some { v with ops := v.ops + ops, bytes := v.bytes + bytes }))

/-- What an instruction counts (R425): the lane operations of groups 0 to 5, and the bytes of a decoupled instruction, which a uniform one moves
once (R222). -/
def Issue.work (i : Issue) : Nat × Nat :=
  let lanes := (lanesOf i.run i.c.width).length
  (if i.m.row.opc < 0x180 then lanes else 0,
   if i.m.row.lat == .decoupled then (accLanes i).length * (match Sel.ty? i.f.sel with | some t => accBytes t | none => 0) else 0)

/-- A table with the entries in which two others differ, where it still holds the first one's. -/
def patch {α : Type} [DecidableEq α] (d : α) (old new t : Table α) : Table α :=
  (distinct (old.map Prod.fst ++ new.map Prod.fst)).foldl (fun t k =>
    if Tab.get d old k ≠ Tab.get d new k ∧ Tab.get d t k = Tab.get d old k then Tab.set d t k (Tab.get d new k) else t) t

/-- Does the instruction write scratch or tiles? -/
def writesTeam (m : Mn) : Bool := m == .sts || m == .atoms || m == .mld || m == .mst

/-- The team of an `sts`, `atoms`, `mld` or `mst` whose sources were read again (R153): what it wrote, where it still stands, is what it writes
for the sources it read. -/
def restoreTeamMem (g : Go s0) (i : Issue) (c : Crew) (w w' : LongWindow) : Go s0 :=
  if !writesTeam w.m || w' = w then g
  else modTeam g i.c.team fun t =>
    let old := teamOut (w.issue i c) (w.team t)
    let new := teamOut (w'.issue i c) (w.team t)
    { t with scratch := patch 0 old.scratch new.scratch t.scratch, tiles := patch 0 old.tiles new.tiles t.tiles }

/-- The windows of the split whose scratch and tile writes the instruction broke. -/
def restoreAll (g : Go s0) (i : Issue) (o : RegOut) : Go s0 :=
  if i.sp.windows.any fun w => writesTeam w.m then
    match g.st.crew? i.x with
    | some c => g.each (i.sp.windows.zip (i.writes g.st o c).1) fun e g => restoreTeamMem g i c e.1 e.2
    | none => g
  else g

/-- Retires an instruction that goes on at `pc`. -/
def retireAt (g : Go s0) (i : Issue) (o : RegOut) (pc : BitVec 56) : Go s0 :=
  let g := countWork g i.c.team i.work.1 i.work.2
  let g := restoreAll g i o
  let cyc := i.cyclesAfter g.st
  (modCrew g i.x fun c => i.retired g.st o pc cyc c).put (.cycle (i.x / 8) cyc)

/-- Retires an instruction that goes on at the next one (R134). -/
def retire (g : Go s0) (i : Issue) (o : RegOut) : Go s0 := retireAt g i o (i.sp.pc + 12)

/-! ### Issue -/

/-- The decode cause of an instruction in its crew (R148, R150, R374): illegal-encoding, privileged, illegal-operand. -/
def decodeCause (s : State) (c : Crew) (m : Mn) (f : Fields) : Option Nat :=
  if !encodingOk m f then some 1
  else if 0x380 ≤ m.row.opc && !(s.ctx c.ctx).level then some 2
  else if !operandOk m f c.width then some 3
  else none

/-- One cause in every lane of a set. -/
def allFault (lanes : List Nat) (cause : Nat) : List LaneFault := lanes.map fun l => { lane := l, cause := cause }

/-- Is the hazard detector on for the context (R156, R370)? -/
def debugOn (s : State) (ctx : Nat) : Bool := (s.part (s.ctx ctx).part.toNat).debug

/-- The issue record of an instruction in a split. -/
def issueOf (s : State) (m : Mn) (f : Fields) (x k : Nat) (c : Crew) (sp : Split) : Issue :=
  let closing := m.row.lat == .closing
  let sp := { sp with windows := if closing then [] else sp.windows }
  let v := crewView s c sp.windows
  { x := x, k := k, c := v, ca := latchView s 12 v sp.latchA f.a, cb := latchView s 13 v sp.latchB f.b, sp := sp, m := m
    f := f, act := sp.mask, run := guardLanes v f.guard sp.mask }

/-- The words of an operation's A image (R281). -/
def MatOp.words (o : MatOp) : Nat := imageWords (o.ty.kind == .bfp) o.blocks o.aw

/-- The vector rows that the A images of a crew's unretired matrix operations fill (R281, R284). -/
def State.matRows (s : State) (x : Nat) (c : Crew) : List Nat :=
  match s.team? c.team with
  | none => []
  | some t => ((t.opq.filter fun o => o.crew == x && o.inst == c.inst).map fun o =>
      (List.range ((o.words + c.width - 1) / c.width)).map fun j => (o.arow + j) % c.wrows).flatten

/-- Does the instruction write a row of an A image that a matrix operation still reads (R284)? It then waits in issue. -/
def imageWaits (s : State) (i : Issue) : Bool :=
  i.run != 0 && meets (writeKeys i.c i.sp i.m i.f) (s.matRows i.x i.c)

/-- Issues an instruction in a split: the decode causes, the hazard detector, then the instruction's own body. -/
def issue (s : State) (m : Mn) (f : Fields) (x k : Nat) (c : Crew) (sp : Split) (body : Issue → Go s → Go s) : Go s :=
  let act := lanesOf sp.mask c.width
  match decodeCause s c m f with
  | some n => takeFault (Go.start s) x k (allFault act n) 0 0 false
  | none =>
    if debugOn s c.ctx && hazard c sp m f then takeFault (Go.start s) x k (allFault act 21) 0 0 false
    else if imageWaits s (issueOf s m f x k c sp) then Go.start s
    else body (issueOf s m f x k c sp) (Go.start s)

/-- May the crews of a crew's team issue (R419, R423)? -/
def State.teamRuns (s : State) (c : Crew) : Bool := match s.team? c.team with | some t => t.started | none => false

/-- The split whose turn it is, where it can issue (R45, R59, R61). -/
def State.issuer (s : State) : Option (Nat × Nat × Crew × Split) :=
  match s.cur with
  | .crew x k =>
    match s.crew? x with
    | some c =>
      match c.split? k with
      | some sp => if c.st = .running && sp.st = .ready && !c.parked && s.teamRuns c then some (x, k, c, sp) else none
      | none => none
    | none => none
  | _ => none

/-- One crew instruction: nothing happens where no split can issue it. -/
def crewStep (m : Mn) (f : Fields) (s : State) (body : Issue → Go s → Go s) : Host.Outcome State Fault Refusal :=
  match s.issuer with
  | some (x, k, c, sp) => (issue s m f x k c sp body).done
  | none => .next s

/-- An instruction that only reads and writes registers. -/
def regStep (m : Mn) (f : Fields) (s : State) (out : Issue → RegOut) : Host.Outcome State Fault Refusal :=
  crewStep m f s fun i g => retire g i (out i)

end Sys2Proof.Machine
end

