-- ==== Sys2Proof/Machine/Ord.lean ====
section
/-! DEFINITION. The `.ord` comparison of R71: which splits count, which one is ahead, and the wait of an `.ord` operation in a
D-class kernel. -/

namespace Sys2Proof.Machine

variable {s0 : State}

/-- The kernel descriptor of a kernel of an object (R408). -/
def State.kd? (s : State) (object kernel : Nat) : Option Kd := (Tab.find s.objs object).bind fun o => o.kernels[kernel]?

/-- Is the kernel of the crew's team D-class (R409)? -/
def State.dclass (s : State) (c : Crew) : Bool :=
  match (s.team? c.team).bind fun t => s.kd? t.object t.kernel with
  | some kd => !kd.uclass
  | none => false

/-- Lexicographic order of keys (R71). -/
def keyLt : List Nat → List Nat → Bool
  | _, [] => false
  | [], _ :: _ => true
  | a :: as, b :: bs => a < b || (a == b && keyLt as bs)

/-- A place in the order of R71: clock, key, lowest active lane. -/
structure OrdPlace where
  clock : Nat
  key   : List Nat
  lane  : Nat
deriving DecidableEq, Repr

/-- Is `a` ahead of `b` (R71)? -/
def OrdPlace.ahead (a b : OrdPlace) : Bool :=
  a.clock < b.clock || (a.clock == b.clock && (keyLt a.key b.key || (a.key == b.key && a.lane < b.lane)))

/-- The place of a split. -/
def ordPlace (c : Crew) (sp : Split) : OrdPlace := ⟨sp.clock, c.key, (lowest sp.mask c.width).getD 0⟩

/-- Does a wait leave a split in the comparison (R59, R71)? A wait in issue is no blocked state. -/
def Wait.counts : Wait → Bool
  | .none | .ord .. | .ordAtom _ | .fence .. | .passes _ | .tinv .. => true
  | _ => false

/-- Does a split count (R71)? A split at a merge or waiting for a frame is blocked (R59), and so is every split of a parked crew; every
split of a stopped crew counts (R380). -/
def splitCounts (c : Crew) (sp : Split) : Bool :=
  c.st != .draining && (c.st == .stopped || ((sp.st == .ready || sp.st == .blocked && sp.wait.counts) && !c.parked))

/-- The key of team `k` of a batch (R71); only the seed starts at clock 0, and its key is empty. -/
def Pend.teamKey (p : Pend) (k : Nat) : List Nat := if p.clock = 0 then [] else p.key ++ [p.clock, k]
/-- The key of a crew of a team. -/
def crewKey (team : List Nat) (crewNo : Nat) : List Nat := if team.isEmpty then [] else team ++ [crewNo]

/-- The places that count in the comparison for a launch's kernel, but for split `k` of crew `inst` (R71): resident and saved splits, and the
first crew of the teams not yet placed, of a gang those whose module is this one. -/
def State.ordOthers (s : State) (launch kernel inst k : Nat) : List OrdPlace :=
  let resident := ((s.crews ++ (s.saved.map fun v => v.2.crews).flatten).map fun e =>
    match s.team? e.2.team with
    | some t => if t.launch = launch && t.kernel = kernel then
        e.2.splits.filterMap fun p =>
          if (e.2.inst == inst && p.1 == k) || !splitCounts e.2 p.2 then none else some (ordPlace e.2 p.2)
        else []
    | none => []).flatten
  let unplaced := s.pends.filterMap fun p =>
    if p.launch = launch && p.kernel = kernel && p.next < p.last then
      some ⟨p.clock, crewKey (p.teamKey p.next) 0, 0⟩ else none
  let gangs := s.gangs.filterMap fun e =>
    let p := e.2.pend
    if p.launch = launch && p.kernel = kernel && (e.2.st == .unplaced || e.2.st == .reserving) then
      (e.2.members.idxOf? s.mod.modid).map fun rank => ⟨p.clock, crewKey (p.teamKey (e.2.first + rank)) 0, 0⟩
    else none
  resident ++ unplaced ++ gangs

/-- No counting split is ahead of the split (R71). -/
def State.ordFirst (s : State) (k : Nat) (c : Crew) (sp : Split) : Bool :=
  match s.team? c.team with
  | some t => (s.ordOthers t.launch t.kernel c.inst k).all fun o => !o.ahead (ordPlace c sp)
  | none => true

/-- Must an `.ord` form of the issuing split wait (R209, R246)? -/
def ordWaits (s : State) (i : Issue) : Bool := i.f.f && s.dclass i.c && !s.ordFirst i.k i.c i.sp

/-- An `.ord` operation: it waits in place, or performs (R71). -/
def ordGate (g : Go s0) (i : Issue) (perform : Go s0 → Go s0) : Go s0 :=
  if ordWaits g.st i then modSplit g i.x i.k fun sp => { sp with st := .blocked, wait := .ord i.m i.f } else perform g

end Sys2Proof.Machine
end

