-- ==== Sys2Proof/Machine/Arith.lean ====
section
/-! DEFINITION. The instructions of groups 0 to 5: each issues, writes what its result function gives, and retires (R174 to
R209). -/

namespace Sys2Proof.Machine

/-! Groups 0 and 1 (R174 to R185). -/

def execIadd (f : Fields) (s : State) : Host.Outcome State Fault Refusal := regStep .iadd f s iaddOut
def execIsub (f : Fields) (s : State) : Host.Outcome State Fault Refusal := regStep .isub f s isubOut
def execImul (f : Fields) (s : State) : Host.Outcome State Fault Refusal := regStep .imul f s imulOut
def execImulhi (f : Fields) (s : State) : Host.Outcome State Fault Refusal := regStep .imulhi f s imulhiOut
def execImad (f : Fields) (s : State) : Host.Outcome State Fault Refusal := regStep .imad f s imadOut
def execImin (f : Fields) (s : State) : Host.Outcome State Fault Refusal := regStep .imin f s iminOut
def execImax (f : Fields) (s : State) : Host.Outcome State Fault Refusal := regStep .imax f s imaxOut
def execIabs (f : Fields) (s : State) : Host.Outcome State Fault Refusal := regStep .iabs f s iabsOut
def execIneg (f : Fields) (s : State) : Host.Outcome State Fault Refusal := regStep .ineg f s inegOut
def execAnd (f : Fields) (s : State) : Host.Outcome State Fault Refusal := regStep .and f s andOut
def execOr (f : Fields) (s : State) : Host.Outcome State Fault Refusal := regStep .or f s orOut
def execXor (f : Fields) (s : State) : Host.Outcome State Fault Refusal := regStep .xor f s xorOut
def execNot (f : Fields) (s : State) : Host.Outcome State Fault Refusal := regStep .not f s notOut
def execShl (f : Fields) (s : State) : Host.Outcome State Fault Refusal := regStep .shl f s shlOut
def execShr (f : Fields) (s : State) : Host.Outcome State Fault Refusal := regStep .shr f s shrOut
def execSar (f : Fields) (s : State) : Host.Outcome State Fault Refusal := regStep .sar f s sarOut
def execRot (f : Fields) (s : State) : Host.Outcome State Fault Refusal := regStep .rot f s rotOut
def execPopc (f : Fields) (s : State) : Host.Outcome State Fault Refusal := regStep .popc f s popcOut
def execClz (f : Fields) (s : State) : Host.Outcome State Fault Refusal := regStep .clz f s clzOut
def execBrev (f : Fields) (s : State) : Host.Outcome State Fault Refusal := regStep .brev f s brevOut
def execBfx (f : Fields) (s : State) : Host.Outcome State Fault Refusal := regStep .bfx f s bfxOut
def execBfi (f : Fields) (s : State) : Host.Outcome State Fault Refusal := regStep .bfi f s bfiOut
def execLea (f : Fields) (s : State) : Host.Outcome State Fault Refusal := regStep .lea f s leaOut
def execIcmp (f : Fields) (s : State) : Host.Outcome State Fault Refusal := regStep .icmp f s icmpOut
def execSel (f : Fields) (s : State) : Host.Outcome State Fault Refusal := regStep .sel f s selOut
def execPand (f : Fields) (s : State) : Host.Outcome State Fault Refusal := regStep .pand f s pandOut
def execPor (f : Fields) (s : State) : Host.Outcome State Fault Refusal := regStep .por f s porOut
def execPxor (f : Fields) (s : State) : Host.Outcome State Fault Refusal := regStep .pxor f s pxorOut
def execPnot (f : Fields) (s : State) : Host.Outcome State Fault Refusal := regStep .pnot f s pnotOut
def execPmov (f : Fields) (s : State) : Host.Outcome State Fault Refusal := regStep .pmov f s pmovOut

/-! Groups 2 and 3 (R186 to R193). -/

def execFadd (f : Fields) (s : State) : Host.Outcome State Fault Refusal := regStep .fadd f s faddOut
def execFsub (f : Fields) (s : State) : Host.Outcome State Fault Refusal := regStep .fsub f s fsubOut
def execFmul (f : Fields) (s : State) : Host.Outcome State Fault Refusal := regStep .fmul f s fmulOut
def execFma (f : Fields) (s : State) : Host.Outcome State Fault Refusal := regStep .fma f s fmaOut
def execFmin (f : Fields) (s : State) : Host.Outcome State Fault Refusal := regStep .fmin f s fminOut
def execFmax (f : Fields) (s : State) : Host.Outcome State Fault Refusal := regStep .fmax f s fmaxOut
def execFcmp (f : Fields) (s : State) : Host.Outcome State Fault Refusal := regStep .fcmp f s fcmpOut
def execFdiv (f : Fields) (s : State) : Host.Outcome State Fault Refusal := regStep .fdiv f s fdivOut
def execFsqrt (f : Fields) (s : State) : Host.Outcome State Fault Refusal := regStep .fsqrt f s fsqrtOut
def execFrcp (f : Fields) (s : State) : Host.Outcome State Fault Refusal := regStep .frcp f s frcpOut
def execFrsq (f : Fields) (s : State) : Host.Outcome State Fault Refusal := regStep .frsq f s frsqOut
def execFexp2 (f : Fields) (s : State) : Host.Outcome State Fault Refusal := regStep .fexp2 f s fexp2Out
def execFlog2 (f : Fields) (s : State) : Host.Outcome State Fault Refusal := regStep .flog2 f s flog2Out
def execFsin (f : Fields) (s : State) : Host.Outcome State Fault Refusal := regStep .fsin f s fsinOut
def execFcos (f : Fields) (s : State) : Host.Outcome State Fault Refusal := regStep .fcos f s fcosOut
def execFrnd (f : Fields) (s : State) : Host.Outcome State Fault Refusal := regStep .frnd f s frndOut
def execFclass (f : Fields) (s : State) : Host.Outcome State Fault Refusal := regStep .fclass f s fclassOut
def execDadd (f : Fields) (s : State) : Host.Outcome State Fault Refusal := regStep .dadd f s daddOut
def execDsub (f : Fields) (s : State) : Host.Outcome State Fault Refusal := regStep .dsub f s dsubOut
def execDmul (f : Fields) (s : State) : Host.Outcome State Fault Refusal := regStep .dmul f s dmulOut
def execDfma (f : Fields) (s : State) : Host.Outcome State Fault Refusal := regStep .dfma f s dfmaOut
def execDmin (f : Fields) (s : State) : Host.Outcome State Fault Refusal := regStep .dmin f s dminOut
def execDmax (f : Fields) (s : State) : Host.Outcome State Fault Refusal := regStep .dmax f s dmaxOut
def execDcmp (f : Fields) (s : State) : Host.Outcome State Fault Refusal := regStep .dcmp f s dcmpOut
def execDdiv (f : Fields) (s : State) : Host.Outcome State Fault Refusal := regStep .ddiv f s ddivOut
def execDsqrt (f : Fields) (s : State) : Host.Outcome State Fault Refusal := regStep .dsqrt f s dsqrtOut

/-! Group 4 (R194 to R200). -/

def execCvt (f : Fields) (s : State) : Host.Outcome State Fault Refusal := regStep .cvt f s cvtOut
def execPack2 (f : Fields) (s : State) : Host.Outcome State Fault Refusal := regStep .pack2 f s pack2Out
def execUnpack2 (f : Fields) (s : State) : Host.Outcome State Fault Refusal := regStep .unpack2 f s unpack2Out
def execBfpack (f : Fields) (s : State) : Host.Outcome State Fault Refusal := regStep .bfpack f s bfpackOut
def execBfunpack (f : Fields) (s : State) : Host.Outcome State Fault Refusal := regStep .bfunpack f s bfunpackOut
def execBfexp (f : Fields) (s : State) : Host.Outcome State Fault Refusal := regStep .bfexp f s bfexpOut

/-! Group 5 (R201 to R209). -/

/-- `redux` and `scan` perform: what an `.ord` form does once no split is ahead (R209). -/
def reduxBody {s0 : State} (i : Issue) (g : Go s0) : Go s0 := retire g i (reduxOut g.st i)
def scanBody {s0 : State} (i : Issue) (g : Go s0) : Go s0 := retire g i (scanOut g.st i)

/-- Is the form order-sensitive (R209)? Integer F is saturation. -/
def Issue.fpOrd (i : Issue) : Bool := i.ty.kind == .float

def execShfl (f : Fields) (s : State) : Host.Outcome State Fault Refusal := regStep .shfl f s shflOut
def execVote (f : Fields) (s : State) : Host.Outcome State Fault Refusal := regStep .vote f s voteOut
def execBcast (f : Fields) (s : State) : Host.Outcome State Fault Refusal := regStep .bcast f s bcastOut
def execMatchv (f : Fields) (s : State) : Host.Outcome State Fault Refusal := regStep .matchv f s matchOut
def execRedux (f : Fields) (s : State) : Host.Outcome State Fault Refusal :=
  crewStep .redux f s fun i g => if i.fpOrd then ordGate g i (reduxBody i) else reduxBody i g
def execScan (f : Fields) (s : State) : Host.Outcome State Fault Refusal :=
  crewStep .scan f s fun i g => if i.fpOrd then ordGate g i (scanBody i) else scanBody i g

end Sys2Proof.Machine
end

