-- ==== Sys2Proof/Machine/Splits.lean ====
section
/-! DEFINITION. Splits and frames: divergence (R43, R44), the merge check (R46), lanes that exit (R47), the mask stack and its
spill (R48, R52), calls and returns (R49 to R53). -/

namespace Sys2Proof.Machine

variable {s0 : State}

/-! ### The spill area -/

/-- The end of the last record the spill area holds (R52). -/
def Crew.spillEnd (c : Crew) : Nat :=
  let ends := c.splits.map fun e =>
    (e.2.mspill.map fun r => r.base.toNat + r.bytes.length) ++
    (e.2.frames.filterMap fun f => f.spilled.map fun r => r.base.toNat + r.bytes.length)
  ends.flatten.foldl max c.stackBase.toNat

/-- Writes one record of `n` bytes at the spill top (R52): the bytes are not published, so they are left open (log 20). -/
def spillWrite (g : Go s0) (x : Nat) (c : Crew) (salt n : Nat) : Except (List Stop) (BitVec 64 × List Byte) × Go s0 :=
  let a := c.spillTop.toNat
  if (c.uni 63).toNat ≤ a + n - 1 then (.error [{ cause := 19 }], g)
  else
    match rangeOf g (coreUnits (placeCore x)) c.ctx a n true (g.st.dclass c) with
    | (.error e, g) => (.error e, g)
    | (.ok ps, g) =>
      let bs := ((Config.freeBytes (g.st.salt 20 salt)).take n ++ List.replicate n 0).take n
      let cells := pieceCells (homeRuns ps) bs
      let g := updateCopies (homeStore g { core := placeCore x } cells) (placeCore x) cells
      let t := g.st.gwctOf (distinct (cells.map fun e => lineOf e.1)) false
      (.ok (c.spillTop, bs), offRelaunch (modCrew g x fun c => c.raise t.1 t.2 false) c.team ps)

/-- Reads a record back (R52): whether its bytes are still those written. A stack on another module may have been written there, which is left
open (log 20). -/
def spillRead (g : Go s0) (x : Nat) (c : Crew) (base : BitVec 64) (bs : List Byte) : Except (List Stop) Bool × Go s0 :=
  match rangeOf g (coreUnits (placeCore x)) c.ctx base.toNat bs.length false (g.st.dclass c) with
  | (.error e, g) => (.error e, g)
  | (.ok ps, g) =>
    let far := ps.any fun p => Loc.isFar p.loc
    let g := offRelaunch g c.team ps
    (.ok (if far then Config.freeBit (g.st.salt 26 base.toNat) else g.st.piecesBytes ps == bs), g)

/-- A mask-stack entry that was damaged in memory (R52): lanes that have not exited, a target in the crew's text, a window base
below W and an accepted format, all left open. -/
def freeEntry (s : State) (c : Crew) (salt : Nat) (e : MaskEntry) : MaskEntry :=
  let lanes := Config.freeBits 128 (s.salt 21 salt) &&& laneMask c.width &&& ~~~c.exited
  let (tb, tn) := match (s.team? c.team).bind fun t => Tab.find s.objs t.object with
    | some o => (o.textBase, o.textSize / 12)
    | none => (0, 1)
  let pcOf := fun n => BitVec.ofNat 56 (tb.toNat + 12 * (Config.freeNat (s.salt 22 (4 * salt + n)) % max 1 tn))
  let fmt : BitVec 32 :=
    let v := Config.freeNat (s.salt 23 salt)
    BitVec.ofNat 32 (v % 8 + 16 * (2 + v / 8 % 7) + 256 * (2 + v / 64 % 7) + 4096 * (v / 512 % 2))
  let wb := Config.freeNat (s.salt 24 salt) % c.wrows
  match e with
  | .path .. => .path (pcOf 0) lanes (pcOf 1) fmt wb
  | .rj .. => .rj (pcOf 0) lanes fmt wb

/-- Pushes one entry (R48): a ninth one spills the oldest on chip. -/
def pushMask (g : Go s0) (x k salt : Nat) (e : MaskEntry) : Except (List Stop) Unit × Go s0 :=
  match g.st.crew? x with
  | none => (.ok (), g)
  | some c =>
    match c.split? k with
    | none => (.ok (), g)
    | some sp =>
      if sp.mstack.length < 8 then (.ok (), modSplit g x k fun sp => { sp with mstack := e :: sp.mstack })
      else
        match spillWrite g x c salt 48 with
        | (.error st, g) => (.error st, g)
        | (.ok (base, bs), g) =>
          match sp.mstack.getLast? with
          | none => (.ok (), g)
          | some old =>
            let r : SpillRec MaskEntry := { base := base, bytes := bs, kept := old }
            (.ok (), modCrew g x fun c =>
              { c.setSplit k { sp with mstack := e :: sp.mstack.dropLast, mspill := r :: sp.mspill } with
                spillTop := base + BitVec.ofNat 64 bs.length })

/-- Pushes entries one after another. -/
def pushMasks (g : Go s0) (x k : Nat) : List MaskEntry → Except (List Stop) Unit × Go s0
  | [] => (.ok (), g)
  | e :: es =>
    match pushMask g x k es.length e with
    | (.ok _, g) => pushMasks g x k es
    | r => r

/-- Pops the top entry (R48): where that empties the chip's part, the most recently spilled entry is refilled. -/
def popMask (g : Go s0) (x k : Nat) : Except (List Stop) (Option MaskEntry) × Go s0 :=
  match g.st.crew? x with
  | none => (.ok none, g)
  | some c =>
    match c.split? k with
    | none => (.ok none, g)
    | some sp =>
      match sp.mstack with
      | [] => (.ok none, g)
      | [e] =>
        match sp.mspill with
        | [] => (.ok (some e), modSplit g x k fun sp => { sp with mstack := [] })
        | r :: rs =>
          match spillRead g x c r.base r.bytes with
          | (.error st, g) => (.error st, g)
          | (.ok same, g) =>
            let e' := if same then r.kept else freeEntry g.st c k r.kept
            (.ok (some e), modCrew g x fun c =>
              let c := c.setSplit k { sp with mstack := [e'], mspill := rs }
              { c with spillTop := BitVec.ofNat 64 c.spillEnd })
      | e :: es => (.ok (some e), modSplit g x k fun sp => { sp with mstack := es })

/-! ### Divergence -/

/-- A fault in every lane of a set for each stop. -/
def stopFaults (lanes : List Nat) (es : List Stop) : List LaneFault :=
  (lanes.map fun l => es.map fun e => { lane := l, cause := e.cause, addr := e.addr, level := e.level, write := e.write }).flatten

/-- Two or more paths (R43): where an entry and a join record are free the second path becomes a new split, and the rest stands on the mask
stack of the dividing split. The new split takes the lowest free entry and the divergence the lowest free join record (DESIGN CHOICE, unsafe, log 69).
The dividing split has retired; a divergence releases its latches (R154). -/
def divide (g : Go s0) (x k : Nat) (merge : BitVec 56) (p1 : BitVec 56 × Lanes) (rest : List (BitVec 56 × Lanes)) :
    Except (List Stop) Unit × Go s0 :=
  match g.st.crew? x with
  | none => (.ok (), g)
  | some c =>
    match c.split? k with
    | none => (.ok (), g)
    | some sp =>
      let sp := { sp with latchA := none, latchB := none, windows := [] }
      let free := (List.range 4).filter fun e => (c.split? e).isNone
      match (List.range 3).find? fun j => (Tab.find c.joins j).isNone, free with
      | some j, _ :: _ =>
        let n := min rest.length (min free.length 1)
        let r : JoinRec :=
          { mergePc := merge, fmt := sp.fmt, base := sp.wbase, depth := sp.depth, parent := sp.join, sides := 1 + n }
        let sp := { sp with join := some j }
        let c := { c with joins := Tab.put c.joins j r }
        let c := (free.zip (rest.take n)).foldl (fun c e =>
          c.setSplit e.1 { sp with mstack := [], mspill := [], pc := e.2.1, mask := e.2.2 }) c
        let serial := rest.drop n
        let g := g.put (.crew x (some (c.setSplit k { sp with pc := p1.1, mask := p1.2 })))
        if serial.isEmpty then (.ok (), g)
        else pushMasks g x k (.rj merge (serial.foldl (fun a p => a ||| p.2) p1.2) sp.fmt sp.wbase ::
            (serial.reverse.map fun p => .path p.1 p.2 merge sp.fmt sp.wbase))
      | _, _ =>
        let g := g.put (.crew x (some (c.setSplit k { sp with pc := p1.1, mask := p1.2 })))
        pushMasks g x k (.rj merge (rest.foldl (fun a p => a ||| p.2) p1.2) sp.fmt sp.wbase ::
            (rest.reverse.map fun p => .path p.1 p.2 merge sp.fmt sp.wbase))

/-- A branch with its paths in order (R43, R44): with one path the split goes on there. A spill that faults leaves the branch
unretired (R48). -/
def branch (g : Go s0) (i : Issue) (merge : BitVec 56) (paths : List (BitVec 56 × Lanes)) : Go s0 :=
  match paths with
  | [] => retire g i {}
  | [p] => retireAt g i {} p.1
  | p :: ps =>
    match divide (retireAt g i {} p.1) i.x i.k merge p ps with
    | (.ok _, g) => g
    | (.error e, _) => takeFault g i.x i.k (stopFaults (lanesOf i.act i.c.width) e) 1 0 false

/-! ### Merging -/

/-- Splits of a crew that wait at a join record. -/
def Crew.waitingAt (c : Crew) (j : Nat) : List (Nat × Split) :=
  c.splits.filter fun e => e.2.st == .mergeWait && e.2.join == some j

/-- Only one split left, waiting for a spill or refill (R53): it goes on. -/
def Crew.wakeFrameWait (c : Crew) : Crew :=
  match c.splits with
  | [(k, sp)] => if sp.st = .frameWait then c.setSplit k { sp with st := .ready } else c
  | _ => c

/-- All splits waiting at a record whose last side has come merge into the lowest entry (R46), with that entry's mask stack and frames; those of
the others go (DESIGN CHOICE, unsafe, log 70). -/
def Crew.mergeAt (c : Crew) (j : Nat) (r : JoinRec) : Crew :=
  match c.waitingAt j with
  | [] => c
  | (k, sp) :: ws =>
    let merged := { sp with
      st := .ready, fmt := r.fmt, join := r.parent, latchA := none, latchB := none, windows := []
      mask := ws.foldl (fun (a : Lanes) (e : Nat × Split) => a ||| e.2.mask) sp.mask
      clock := ws.foldl (fun (a : Nat) (e : Nat × Split) => max a e.2.clock) sp.clock }
    let c := { c with joins := Tab.del c.joins j, splits := ws.foldl (fun (t : Table Split) (e : Nat × Split) => Tab.del t e.1) c.splits }
    (c.setSplit k merged).wakeFrameWait

/-- Every split waits for a frame or at a merge: the ones waiting for a frame can never go on (R53). -/
def Crew.frameDeadlock (c : Crew) : Bool :=
  c.splits.all (fun e => e.2.st == .frameWait || e.2.st == .mergeWait) && c.splits.any fun e => e.2.st == .frameWait

/-- Raises stack-limit in the lanes of the splits in frame-wait (R53). DESIGN CHOICE, unsafe (log 51): one record, with the PC and number of the lowest of them and
the lanes of all. -/
def frameDeadlock (g : Go s0) (x : Nat) : Go s0 :=
  match g.st.crew? x with
  | none => g
  | some c =>
    if c.st = .running && c.frameDeadlock then
      let waiting := c.splits.filter fun e => e.2.st == .frameWait
      match waiting with
      | [] => g
      | (k, _) :: _ =>
        let g := takeFault g x k (allFault (lanesOf (waiting.foldl (fun a e => a ||| e.2.mask) 0) c.width) 19) 0 0 false
        modCrew g x fun c' => { c' with splits := c'.splits.map fun e =>
          if (waiting.any fun w => w.1 == e.1) then (e.1, { e.2 with faulted := true, held := .ready }) else e }
    else g

/-- Is the merge check of R46 due before the split's next instruction? -/
def Crew.mergeDue (c : Crew) (sp : Split) : Bool :=
  (match sp.mstack with
   | .path _ _ m _ b :: _ => m == sp.pc && b == sp.wbase
   | .rj m _ _ b :: _ => m == sp.pc && b == sp.wbase
   | [] => false) ||
  (match sp.join.bind fun j => Tab.find c.joins j with
   | some r => sp.pc == r.mergePc && sp.wbase == r.base && sp.depth == r.depth
   | none => false)

/-- A split with what a popped entry gives it (R46, R47): `leave` says that an RJ entry is popped by an exit, which also moves
the PC to the merge point. -/
def popInto (leave : Bool) (e : MaskEntry) (sp : Split) : Split :=
  match e with
  | .path t lanes _ fmt _ => { sp with pc := t, mask := lanes, fmt := fmt, latchA := none, latchB := none }
  | .rj m union fmt _ => { sp with pc := if leave then m else sp.pc, mask := union, fmt := fmt, latchA := none, latchB := none }

/-! ### Lanes that leave -/

/-- Removes lanes from a mask-stack entry (R47). -/
def MaskEntry.without (lanes : Lanes) : MaskEntry → MaskEntry
  | .path t m p f b => .path t (m &&& ~~~lanes) p f b
  | .rj p m f b => .rj p (m &&& ~~~lanes) f b

/-- A side of a divergence that will not arrive (R47): the record counts one side less; the last one merges those that wait,
or, where none waits, frees the record and leaves the record it hangs under in the same way. -/
def Crew.sideGone (c : Crew) : Nat → Option Nat → Crew
  | 0, _ => c
  | _, none => c
  | fuel + 1, some j =>
    match Tab.find c.joins j with
    | none => c
    | some r =>
      if 1 < r.sides then { c with joins := Tab.put c.joins j { r with sides := r.sides - 1 } }
      else if (c.waitingAt j).isEmpty then Crew.sideGone { c with joins := Tab.del c.joins j } fuel r.parent
      else c.mergeAt j { r with sides := 0 }

/-- A split whose mask is empty (R47): it pops its stack until lanes are left, or its entry is freed. Fuel: its entries. -/
def emptySplit (g : Go s0) (x k : Nat) : Nat → Except (List Stop) Unit × Go s0
  | 0 => (.ok (), g)
  | fuel + 1 =>
    match (g.st.crew? x).bind fun c => c.split? k with
    | none => (.ok (), g)
    | some sp =>
      if sp.mask ≠ 0 then (.ok (), g)
      else
        match popMask g x k with
        | (.error e, g) => (.error e, g)
        | (.ok (some e), g) => emptySplit (modSplit g x k (popInto true e)) x k fuel
        | (.ok none, g) =>
          (.ok (), modCrew g x fun c =>
            ({ c with splits := Tab.del c.splits k }.sideGone 4 sp.join).wakeFrameWait)

/-- Lanes of a split exit (R47, R229): they leave its mask and its mask stack; a crew without splits drains (R61). -/
def exitLanes (g : Go s0) (x k : Nat) (lanes : Lanes) : Except (List Stop) Unit × Go s0 :=
  let g := modCrew g x fun c => { c with exited := c.exited ||| lanes }
  let g := modSplit g x k fun sp =>
    { sp with mask := sp.mask &&& ~~~lanes, mstack := sp.mstack.map (MaskEntry.without lanes)
              mspill := sp.mspill.map fun r => { r with kept := r.kept.without lanes } }
  let depth := match (g.st.crew? x).bind fun c => c.split? k with
    | some sp => sp.mstack.length + sp.mspill.length + 1
    | none => 0
  match emptySplit g x k depth with
  | (.error e, g) => (.error e, g)
  | (.ok _, g) =>
    (.ok (), modCrew g x fun c => if c.splits.isEmpty then { c with st := .draining } else c)

/-- The merge check of R46: pops every entry that is due, then waits at the record, and merges where this was the last side.
Fuel: the stack's entries. -/
def mergeCheck (g : Go s0) (x k : Nat) : Nat → Except (List Stop) Unit × Go s0
  | 0 => (.ok (), g)
  | fuel + 1 =>
    match g.st.crew? x with
    | none => (.ok (), g)
    | some c =>
      match c.split? k with
      | none => (.ok (), g)
      | some sp =>
        let due := match sp.mstack with
          | .path _ _ m _ b :: _ => m == sp.pc && b == sp.wbase
          | .rj m _ _ b :: _ => m == sp.pc && b == sp.wbase
          | [] => false
        if due then
          match popMask g x k with
          | (.error e, g) => (.error e, g)
          | (.ok none, g) => (.ok (), g)
          | (.ok (some e), g) =>
            match emptySplit (modSplit g x k (popInto false e)) x k (fuel + 1) with
            | (.error e, g) => (.error e, g)
            | (.ok _, g) => mergeCheck g x k fuel
        else
          match sp.join.bind fun j => (Tab.find c.joins j).map fun r => (j, r) with
          | some (j, r) =>
            if sp.pc = r.mergePc && sp.wbase = r.base && sp.depth = r.depth then
              let r := { r with sides := r.sides - 1 }
              let c := ({ c with joins := Tab.put c.joins j r }).setSplit k
                { sp with st := .mergeWait, latchA := none, latchB := none }
              (.ok (), g.put (.crew x (some (if r.sides = 0 then c.mergeAt j r else c))))
            else (.ok (), g)
          | none => (.ok (), g)

/-! ### Frames -/

/-- The sizes of a split's frames, newest first, with the record that called each; the entry frame is last (R49). -/
def frameSizes (entryF : Nat) : List Frame → List Nat
  | [] => [entryF]
  | f :: fs => f.size :: frameSizes entryF fs

/-- The frames below the newest, newest first: how deep the record that called above lies, where the frame starts, its size, and whether it
was spilled. -/
def olderFrames (entryF : Nat) : Nat → List Frame → List (Nat × Nat × Nat × Bool)
  | _, [] => []
  | n, f :: fs =>
    (n, f.base, (match fs with | [] => entryF | f' :: _ => f'.size), f.spilled.isSome) :: olderFrames entryF (n + 1) fs

/-- The cells of a frame (R49, R51): every row of it in every lane. -/
def frameCells (c : Crew) (base size : Nat) : Table Row :=
  ((List.range size).map fun j =>
    let r := physRow base c.wrows j
    (List.range c.width).filterMap fun l =>
      let v := c.row r l
      if v = 0 then none else some (r * 128 + l, v)).flatten

/-- The physical rows of a frame. -/
def frameRows (c : Crew) (base size : Nat) : List Nat := (List.range size).map fun j => physRow base c.wrows j

/-- Which of the resident older frames a call must spill, oldest first, until the rest and the callee's frame fit (R51). The
caller's frame is never spilled. -/
def toSpill (w total : Nat) : List (Nat × Nat × Nat × Bool) → List (Nat × Nat × Nat)
  | [] => []
  | (n, b, size, _) :: rest => if total ≤ w then [] else (n, b, size) :: toSpill w (total - size) rest

/-- Replaces the record at a depth. -/
def setFrame (n : Nat) (f : Frame → Frame) : List Frame → List Frame
  | [] => []
  | x :: xs => match n with
    | 0 => f x :: xs
    | n + 1 => x :: setFrame n f xs

/-- Spills frames one by one (R51). -/
def spillFrames (g : Go s0) (x k : Nat) : List (Nat × Nat × Nat) → Except (List Stop) Unit × Go s0
  | [] => (.ok (), g)
  | (n, b, size) :: rest =>
    match g.st.crew? x with
    | none => (.ok (), g)
    | some c =>
      match spillWrite g x c (1000 + n) (size * c.width * 4 + 16) with
      | (.error e, g) => (.error e, g)
      | (.ok (base, bs), g) =>
        let r : SpillRec (Table Row) := { base := base, bytes := bs, kept := frameCells c b size }
        let g := modSplit g x k fun sp => { sp with frames := setFrame n (fun f => { f with spilled := some r }) sp.frames }
        spillFrames (modCrew g x fun c => { c with spillTop := base + BitVec.ofNat 64 bs.length }) x k rest

/-- A call of a function of frame size `size` at `entry` (R50, R51, R53, R284): the frames spilled, the record made, the window slid.
`none` says that the split waits for the crew to hold one split. -/
def callFrame (g : Go s0) (i : Issue) (entry : BitVec 56) (size : Nat) : Go s0 :=
  let act := lanesOf i.act i.c.width
  let own := (frameSizes i.c.entryF i.sp.frames).headD 0
  if i.c.wrows < size + own then takeFault g i.x i.k (allFault act 19) 0 0 false
  else
    let older := (olderFrames i.c.entryF 0 i.sp.frames).filter fun e => !e.2.2.2
    let total := older.foldl (fun a e => a + e.2.2.1) (own + size)
    let spills := toSpill i.c.wrows total older.reverse
    if !spills.isEmpty && 1 < i.c.splits.length then
      frameDeadlock (modSplit g i.x i.k fun sp => { sp with st := .frameWait }) i.x
    else if meets (spills.map fun e => frameRows i.c e.2.1 e.2.2).flatten (g.st.matRows i.x i.c) then g
    else
      match spillFrames g i.x i.k spills with
      | (.error e, _) => takeFault g i.x i.k (stopFaults act e) 1 0 false
      | (.ok _, g) =>
        let g := retireAt g i {} entry
        modSplit g i.x i.k fun sp =>
          { sp with wbase := (sp.wbase + i.c.wrows - size) % i.c.wrows, depth := sp.depth + 1
                    frames := { ret := i.sp.pc + 12, size := size, base := i.sp.wbase, spilled := none } :: sp.frames }

/-- The rows of a frame come back (R51); where the memory was damaged they hold unspecified values (R52). -/
def refill (s : State) (c : Crew) (base size : Nat) (same : Bool) (kept : Table Row) : Crew :=
  (List.range size).foldl (fun c j =>
    let r := physRow base c.wrows j
    (List.range c.width).foldl (fun c l =>
      c.setRow r l (if same then (Tab.get 0 kept (r * 128 + l)).toNat
        else (Config.freeBits 32 (s.salt 25 (r * 128 + l))).toNat)) c) c

/-- A return (R50, R51, R53, R228). -/
def retFrame (g : Go s0) (i : Issue) : Go s0 :=
  let act := lanesOf i.act i.c.width
  match i.sp.frames with
  | [] => takeFault g i.x i.k (allFault act 20) 0 0 false
  | f :: fs =>
    let back := fun g : Go s0 => modSplit (retireAt g i {} f.ret) i.x i.k fun sp =>
      { sp with wbase := f.base, depth := sp.depth - 1, frames := fs }
    if f.ret.toNat % 4 ≠ 0 then takeFault g i.x i.k (allFault act 4) 0 0 false
    else
      match f.spilled with
      | none => back g
      | some r =>
        if 1 < i.c.splits.length then
          frameDeadlock (modSplit g i.x i.k fun sp => { sp with st := .frameWait }) i.x
        else if meets (frameRows i.c f.base ((frameSizes i.c.entryF fs).headD 0)) (g.st.matRows i.x i.c) then g
        else
          match spillRead g i.x i.c r.base r.bytes with
          | (.error e, _) => takeFault g i.x i.k (stopFaults act e) 0 0 false
          | (.ok same, g) =>
            let g := back g
            modCrew g i.x fun c =>
              let c := refill g.st c f.base ((frameSizes c.entryF fs).headD 0) same r.kept
              { c with spillTop := BitVec.ofNat 64 c.spillEnd }

end Sys2Proof.Machine
end

