-- ==== Sys2Proof/Machine/Fetch.lean ====
section
/-! DEFINITION. Fetching a crew instruction's bytes (R134, R136). -/

namespace Sys2Proof.Machine

variable {s0 : State}

/-- `n` home bytes, at most 64, as a core reads them (R104). -/
def coreRead (g : Go s0) (core minGrant : Nat) (alloc : Bool) (k n : Nat) : List Byte × Go s0 :=
  let (d0, g) := coreLine g core (lineOf k) minGrant alloc
  if (k + n - 1) / 64 = lineOf k then ((d0.drop (k % 64)).take n, g)
  else
    let (d1, g) := coreLine g core (lineOf k + 1) minGrant alloc
    (((d0 ++ d1).drop (k % 64)).take n, g)

/-- The home byte of a parcel's page, or why it cannot be fetched (R136): not-present, or permission for an XN page, a page outside the
partition, and a page of another module (log 16). Tags are not checked (R441). -/
def fetchPlace (g : Go s0) (core ctx a : Nat) : Except Stop Nat × Go s0 :=
  match translate g (coreUnits core) ctx a with
  | (.absent l, g) => (.error { cause := 6, addr := a, level := l }, g)
  | (.bad, g) => (.error { cause := 7, addr := a }, g)
  | (.ok e psize, g) =>
    if pteXn e then (.error { cause := 7, addr := a }, g)
    else match leafLoc e psize a with
      | .home k => (.ok k, g)
      | _ => (.error { cause := 7, addr := a }, g)

/-- The 12 bytes at a PC, or what the fetch meets on the pages of its parcels (R134, R136). -/
def fetchBytes (g : Go s0) (core ctx pc : Nat) : Except (List Stop) (List Byte) × Go s0 :=
  let n := min 12 (65536 - pc % 65536)
  match fetchPlace g core ctx pc with
  | (r1, g) =>
    if n = 12 then
      match r1 with
      | .error e => (.error [e], g)
      | .ok k => let (bs, g) := coreRead g core 0 true k 12
                 (.ok bs, g)
    else
      match r1, fetchPlace g core ctx (va56 (pc + n)) with
      | .ok k, (.ok k', g) =>
        let (bs, g) := coreRead g core 0 true k n
        let (bs', g) := coreRead g core 0 true k' (12 - n)
        (.ok (bs ++ bs'), g)
      | .ok _, (.error e, g) => (.error [e], g)
      | .error e, (.ok _, g) => (.error [e], g)
      | .error e, (.error e', g) => (.error [e, e'], g)

/-- A fetch that failed: the fault of R136 in every active lane. -/
def fetchFault (g : Go s0) (x k : Nat) (lanes : List Nat) (es : List Stop) : Go s0 :=
  takeFault g x k (stopFaults lanes es) 3 0 false

end Sys2Proof.Machine
end

