-- ==== Sys2Proof/Machine/Waits.lean ====
section
/-! DEFINITION. Waiting: parking a split, ending a wait (R59, R70, R72), what a release orders (R72, R74, R132, R133), the
conditions of fences (R114, R115), and the writes that contribute to a wait. -/

namespace Sys2Proof.Machine

variable {s0 : State}

/-! ### Vector clocks -/

/-- What a release of the crew hands on: what it is ordered after, and its own accesses so far. -/
def Crew.snapshot (c : Crew) : Table Nat := Tab.put c.vc c.inst (c.epoch + 1)

/-- The crew after a release: its next access belongs to a new phase (R74). -/
def Crew.released (c : Crew) : Crew := { c with epoch := c.epoch + 1 }

/-! ### Parking and going on -/

/-- The split after its instruction issued and blocks it: a closing instruction leaves no window open (R153). -/
def Issue.blocked (i : Issue) (s : State) (w : Wait) (sp : Split) : Split :=
  { i.nextSplit s {} i.c sp.pc sp with st := .blocked, wait := w, run := i.run, clock := sp.clock }

/-- Blocks the issuing split (R59); the issue releases the latches of the crew's other splits (R154). -/
def park (g : Go s0) (i : Issue) (w : Wait) : Go s0 :=
  let g := countWork g i.c.team i.work.1 i.work.2
  let cyc := i.cyclesAfter g.st
  (modCrew (modSplit g i.x i.k (i.blocked g.st w)) i.x fun c =>
    { c with splits := c.splits.map fun e => (e.1, latchAfter (e.1 == i.k) [] e.2), age := cyc, passed := cyc, boosted := false, yielded := false }).put
    (.cycle (i.x / 8) cyc)

/-- Ends the waits of every split of a crew that waits for `w`. -/
def endWaits (g : Go s0) (x : Nat) (w : Wait) (clock : Nat) (vc : Table Nat) : Go s0 :=
  let cyc := Tab.get 0 g.st.cycles (x / 8)
  modCrew g x fun c => (c.splits.filter fun e => e.2.wait == w).foldl (fun c e => c.endWait cyc clock vc e.1) c

/-- From now on the crew uses no L1 copy granted before (R115 step 3, R117). -/
def dropCopies (g : Go s0) (x : Nat) : Go s0 :=
  let now := g.st.now
  modCrew g x fun c => { c with minGrant := max c.minGrant now }

/-! ### Fences -/

/-- Is the crew's team a pair (R22)? -/
def State.pairTeam (s : State) (c : Crew) : Bool := match s.team? c.team with | some t => t.pair | none => false

/-- The scope a code stands for in a crew (R114): `.team` is `.core`, or `.die` in a pair team. -/
def State.scopeOf (s : State) (c : Crew) (scope : Nat) : Nat := if scope = 1 then (if s.pairTeam c then 3 else 2) else scope

/-- Does a queue entry have bytes that it stores to their homes here itself? -/
def StoreEntry.near (e : StoreEntry) : Bool := e.lanes.any fun l => match l.loc with | .far .. => false | _ => true

/-- Does a set of passes belong to a queue entry? -/
def Origin.entry (o : Origin) (id : Nat) : Bool := match o with
  | .instr l t => l == some id || t == some id
  | _ => false

/-- Does a set of passes belong to a store or an atomic? -/
def Origin.stores (o : Origin) : Bool := match o with
  | .instr _ t => t.isSome
  | _ => false

/-- Has a queue entry passes that are not all committed (R296, R299)? -/
def State.inPasses (s : State) (id : Nat) : Bool := s.passes.any fun e => e.2.origin.entry id

/-- Is the instruction of a queue entry still undecided: it waits in issue for its passes (R296)? -/
def State.undecided (s : State) (id : Nat) : Bool := s.inPasses id

/-- Is a store of the crew to this module outstanding that left its core by passes, to the module's own number or to a gang member
here (R106, R130)? -/
def State.windowStore (s : State) (c : Crew) (id : Nat) : Bool :=
  s.inPasses id || c.sent.any fun f => f.store == id && f.near

/-- Has an engine operation writes that are not acknowledged (R115): those to this module, or with `all` to any? The high part of a unit's
number is its segment (R264). -/
def EngOp.writing (o : EngOp) (all : Bool) : Bool :=
  (all && !o.far.isEmpty) || o.left.any fun u => all ||
    match o.segs[u / 2 ^ 40]? with
    | some seg => (match placeIn seg.dst (u % 2 ^ 40) with | some (l, _) => !Loc.isFar l | none => false)
    | none => false

/-- Is an engine operation of the crew, made before number `id`, still writing (R115)? -/
def State.enginesBefore (s : State) (c : Crew) (x id : Nat) (all : Bool) : Bool :=
  (s.coreOf (placeCore x)).ops.any fun e => e.1 < id && e.2.inst == c.inst && e.2.writing all

/-- Has an earlier store entry reached what a scope wider than the core asks (R114): acknowledged, at `.fab` wherever homed? -/
def State.storeSettled (s : State) (c : Crew) (fab : Bool) (e : StoreEntry) : Bool :=
  !fab && (e.acked || !e.near) && !s.windowStore c e.id

/-- Steps 1 and 2 of R115 for the crew's accesses with numbers below `id`, at a scope of R114 (`.team` resolved). -/
def State.fenceReady (s : State) (x : Nat) (c : Crew) (id scope : Nat) : Bool :=
  scope = 0 ||
  (c.loadq.all (fun e => id ≤ e.id || e.back) &&
   (scope = 2 ||
    (c.storeq.all (fun e => id ≤ e.id || s.storeSettled c (scope == 5) e) &&
     !s.enginesBefore c x id (scope == 5) &&
     (if scope = 5 then c.gfab < s.now && c.sent.all (fun e => id ≤ e.store) else c.gmod < s.now))))

/-- Does an earlier acquire or fence keep the crew's accesses numbered `id` from performing (R115, R116)? -/
def Crew.heldBack (c : Crew) (id : Nat) : Bool := c.order.any fun o => o < id

/-! ### Contributing writes -/

/-- Does a word satisfy a condition against a value (R259)? -/
def condOk (cond : FlagCond) (word value : Nat) : Bool :=
  match cond with
  | .eq => word == value
  | .ne => word != value
  | .ge => value ≤ word
  | .lt => word < value

/-- A list up to and including the first element with a property; none where no element has it. -/
def upToFirst {α : Type} (p : α → Bool) : List α → Option (List α)
  | [] => none
  | x :: xs => if p x then some [x] else (upToFirst p xs).map fun l => x :: l

/-- A list after its last element with a property. -/
def afterLast {α : Type} (p : α → Bool) (l : List α) : List α := (l.reverse.takeWhile fun x => !p x).reverse

/-- The contributing writes of a wait (R72), from the word's coherence order: those up to the first write after which the word satisfies the
condition; none where it satisfied it before any write of the launch. Writes before the launch's first one carry no clock of it, but order
what they release (R133); those before the word last satisfied the condition belong to earlier uses of it (DEDUCED, log 23). -/
def contributing (launch : Option Nat) (cond : FlagCond) (value : Nat) (log : List WriteRec) : List WriteRec :=
  let other := fun w : WriteRec => w.launch.isNone || w.launch != launch
  let ok := fun r : WriteRec => condOk cond r.new value
  match log.dropWhile other with
  | [] => []
  | w :: ws => if condOk cond w.old value then [] else afterLast ok (log.takeWhile other) ++ (upToFirst ok (w :: ws)).getD []

/-- Does a scope of a write made at `core` in `team` reach a crew (R114, R133)? An agent of another module has no core of this one. -/
def scopeReaches (scope core team : Nat) (x : Nat) (c : Crew) : Bool :=
  match scope with
  | 0 => false
  | 1 => team == c.team
  | 2 => core == placeCore x
  | 3 => core / 80 == placeDie x
  | 4 => core < 640
  | _ => true

/-- What the end of a `cwait` or `flagwait` gives the crew (R72, R133): the largest clock of its own launch, what the releasing
writes hand on, and the writes that order only themselves. -/
structure Contribution where
  clock : Nat
  vc    : Table Nat
  seen  : List (Nat × Nat × Loc)
deriving DecidableEq, Repr

def contribution (s : State) (x : Nat) (c : Crew) (loc : Loc) (ws : List WriteRec) : Contribution :=
  let launch := (s.team? c.team).map fun t => t.launch
  ws.foldl (fun a w =>
    { clock := if w.launch.isSome && w.launch == launch then max a.clock w.clock else a.clock
      vc := if scopeReaches w.scope w.core w.team x c then vcJoin a.vc w.vc else a.vc
      seen := if scopeReaches w.scope w.core w.team x c then a.seen else
        match w.who with
        | some (inst, no) => a.seen ++ [(inst, no, loc)]
        | none => a.seen })
    { clock := 0, vc := [], seen := [] }

/-- Ends a `cwait` or `flagwait` of a split on a word whose coherence order is `log` (R72, R117). -/
def endWordWait (g : Go s0) (x k : Nat) (loc : Loc) (cond : FlagCond) (value scope : Nat) (log : List WriteRec) : Go s0 :=
  match g.st.crew? x with
  | none => g
  | some c =>
    let a := contribution g.st x c loc (contributing ((g.st.team? c.team).map fun t => t.launch) cond value log)
    let g := endWait g x k a.clock a.vc
    let g := modCrew g x fun c => { c with seen := c.seen ++ a.seen }
    if 3 ≤ g.st.scopeOf c scope then dropCopies g x else g

end Sys2Proof.Machine
end

