-- ==== Sys2Proof/Machine/Scratch.lean ====
section
/-! DEFINITION. Team scratch (R27, R28, R110): its bytes, its words' coherence order, knots (R56 to R58) and team barriers (R55);
determinism records (R74, R132). -/

namespace Sys2Proof.Machine

variable {s0 : State}

/-- A scratch word (R56, R257). -/
def Team.word (t : Team) (w : Nat) : Nat := leNat (t.bytesAt (4 * w) 4)

/-- Writes scratch bytes, and notes the writes of their words (R72). -/
def Team.write (t : Team) (by_ : By) (cells : List (Nat × Byte)) : Team :=
  let words := distinct (cells.map fun e => e.1 / 4)
  let new := { t with scratch := cells.foldl (fun (m : Table Byte) (e : Nat × Byte) => Tab.set 0 m e.1 e.2) t.scratch
                      poison := cells.foldl (fun (m : Table Unit) (e : Nat × Byte) => Tab.del m e.1) t.poison }
  { new with wlog := words.foldl (fun (l : Table (List WriteRec)) (w : Nat) => Tab.put l w (Tab.get [] l w ++ [by_.record (t.word w) (new.word w)])) t.wlog }

/-- The splits of a team's crews that wait on a scratch word which the word now satisfies (R257). -/
def State.scratchWaiters (s : State) (t : Nat) (words : List Nat) : List (Nat × Nat × FlagCond × Nat × Nat × Nat) :=
  (s.crews.map fun e =>
    if e.2.team = t then
      e.2.splits.filterMap fun p =>
        match p.2.wait with
        | .word cond (.scratch t' off) _ value scope =>
            match s.team? t with
            | some tm =>
              if t' = t && words.contains (off / 4) && condOk cond (tm.word (off / 4)) value then
                some (e.1, p.1, cond, value, scope, off)
              else none
            | none => none
        | _ => none
    else []).flatten

/-- Performs a write to scratch: a scratch `cwait` that it satisfies ends (R257, R260). -/
def scratchStore (g : Go s0) (t : Nat) (by_ : By) (cells : List (Nat × Byte)) : Go s0 :=
  let g := modTeam g t fun tm => tm.write by_ cells
  g.each (g.st.scratchWaiters t (distinct (cells.map fun e => e.1 / 4))) fun w g =>
    match g.st.team? t with
    | some tm => endWordWait g w.1 w.2.1 (.scratch t w.2.2.2.2.2) w.2.2.1 w.2.2.2.1 w.2.2.2.2.1
        (Tab.get [] tm.wlog (w.2.2.2.2.2 / 4))
    | none => g

/-! ### Knots -/

/-- The fields of a knot (R56). -/
structure Knot where
  expect  : Nat
  arrived : Nat
  debt    : Nat
  phase   : Bool
  guard   : Nat
deriving DecidableEq, Repr

/-- The knot at an offset. -/
def Team.knot (t : Team) (off : Nat) : Knot :=
  let w := off / 4
  { expect := t.word w, arrived := t.word (w + 1), debt := t.word (w + 2), phase := t.word (w + 3) % 2 == 1
    guard := t.word (w + 3) / 2 ^ 16 }

/-- The bytes of a knot. -/
def Knot.bytes (k : Knot) : List Byte :=
  leBytes (k.expect % 2 ^ 32 + 2 ^ 32 * (k.arrived % 2 ^ 32) + 2 ^ 64 * (k.debt % 2 ^ 32) + 2 ^ 96 * (if k.phase then 1 else 0)
    + 2 ^ 112 * (k.guard % 2 ^ 16)) 16

/-- Is the knot at the offset active (R57)? -/
def Team.active (t : Team) (off : Nat) : Bool := (Tab.find t.guards (off / 16)).isSome

/-- The bookkeeping of a knot without arrivals. -/
def KnotSt.start : KnotSt :=
  { clock := 0, vc := [], scope := 0, lastClock := 0, lastVc := [], lastScope := 0, waiting := [] }

def Team.knotSt (t : Team) (off : Nat) : KnotSt := Tab.get KnotSt.start t.knots off
def Team.setKnotSt (t : Team) (off : Nat) (k : KnotSt) : Team := { t with knots := Tab.put t.knots off k }

/-- Sets a knot's fields. -/
def setKnot (g : Go s0) (t off : Nat) (k : Knot) : Go s0 := scratchStore g t {} (cellsFrom off k.bytes)

/-- An arrival at a knot (R254, R72): its count, its debt, the clock and order it hands to the phase. -/
def knotArrive (g : Go s0) (t off : Nat) (x : Nat) (a : Arrival) : Go s0 :=
  match g.st.team? t, g.st.crew? x with
  | some tm, some c =>
    let k := tm.knot off
    let g := setKnot g t off { k with arrived := k.arrived + 1, debt := (k.debt + a.bytes) % 2 ^ 32 }
    let g := modTeam g t fun tm =>
      let st := tm.knotSt off
      tm.setKnotSt off { st with clock := max st.clock a.clock, vc := vcJoin st.vc c.snapshot }
    modCrew g x Crew.released
  | _, _ => g

/-- Is a wait one on the knot at an offset? -/
def Wait.onKnot (off : Nat) : Wait → Bool
  | .knotArrive o | .knot o _ => o == off
  | _ => false

/-- The number of the phase that an instruction executed now on a knot belongs to (R54, R58, R255): the running phase is 1 past those that have
completed, an arrival at a full phase is of the next one, and a `knotwait` whose parity has passed is of the one before. -/
def Team.phaseNow (t : Team) : Wait → Nat
  | .knotArrive off => (t.knotSt off).phases + if (t.knot off).expect ≤ (t.knot off).arrived then 2 else 1
  | .knot off q => (t.knotSt off).phases + if (t.knot off).phase = q then 1 else 0
  | _ => 0

/-- A crew's arrivals at a knot after phase `n` has completed (R54): those of older phases are forgotten. -/
def Crew.knotPhase (off n : Nat) (c : Crew) : Crew :=
  { c with arriving := c.arriving.filter fun a => !(a.done && Wait.onKnot off a.what && a.phase < n) }

/-- An arrival that waits for the next phase waits for another one. -/
def Crew.putOff (a : Arrival) (c : Crew) : Crew :=
  { c with arriving := c.arriving.map fun b => if b = a then { b with phase := b.phase + 1 } else b }

/-- A crew at the end of a phase of a barrier, or whose knot begins or ends: its arrivals there belong to the past (R54). -/
def Crew.phaseEnd (of_ : Wait → Bool) (c : Crew) : Crew := { c with arriving := c.arriving.filter fun a => !(a.done && of_ a.what) }

/-- Completes the knot's phase where it is due (R58), and lets the arrivals that waited for it arrive at the next one. Each
unit of fuel is one completion. -/
def knotCheck (g : Go s0) (t off : Nat) : Nat → Go s0
  | 0 => g
  | fuel + 1 =>
    match g.st.team? t with
    | none => g
    | some tm =>
      let k := tm.knot off
      if tm.active off && k.arrived = k.expect && k.debt = 0 then
        let st := tm.knotSt off
        let g := setKnot g t off { k with phase := !k.phase, arrived := 0 }
        let g := modTeam g t fun tm => tm.setKnotSt off
          { clock := 0, vc := [], scope := 0, lastClock := st.clock, lastVc := st.vc, lastScope := st.scope, waiting := [], phases := st.phases + 1 }
        let g := g.each (g.st.crews.filter fun e => e.2.team == t) fun e g =>
          let woken := e.2.splits.any (fun p => p.2.wait == .knot off k.phase) && !e.2.awaited (.knot off k.phase)
          let g := modCrew g e.1 (Crew.knotPhase off (st.phases + 1))
          if woken then
            let g := endWaits g e.1 (.knot off k.phase) st.clock st.vc
            if tm.pair || 3 ≤ st.scope then dropCopies g e.1 else g
          else g
        let now := st.waiting.take k.expect
        let g := g.each now fun e g => endWaits (knotArrive g t off e.1 e.2) e.1 (.knotArrive off) 0 []
        let later := st.waiting.drop k.expect
        let g := g.each later fun e g => modCrew g e.1 (Crew.putOff e.2)
        let g := modTeam g t fun tm =>
          let s2 := tm.knotSt off
          tm.setKnotSt off { s2 with waiting := later.map fun e => (e.1, { e.2 with phase := e.2.phase + 1 }) }
        knotCheck g t off fuel
      else g

/-- A knot's checks after a change: at most one completion for each arrival that waits, and one more. -/
def knotSettle (g : Go s0) (t off : Nat) : Go s0 :=
  match g.st.team? t with
  | some tm => knotCheck g t off ((tm.knotSt off).waiting.length + 1)
  | none => g

/-- Engine bytes counted on a knot (R58, R124): bytes, and the clock, order and scope of their writes. A knot that is not active counts
nothing. -/
def knotPay (g : Go s0) (t off bytes clock : Nat) (vc : Table Nat) (scope : Nat) : Go s0 :=
  match g.st.team? t with
  | none => g
  | some tm =>
    if tm.active off then
      let k := tm.knot off
      let g := setKnot g t off { k with debt := (k.debt + 2 ^ 32 - bytes % 2 ^ 32) % 2 ^ 32 }
      let g := modTeam g t fun tm =>
        let st := tm.knotSt off
        tm.setKnotSt off { st with clock := max st.clock clock, vc := vcJoin st.vc vc, scope := max st.scope scope }
      knotSettle g t off
    else g

/-! ### Team barriers -/

/-- The crews of a team that have not exited (R55). -/
def State.liveCrews (s : State) (t : Nat) : List (Nat × Crew) :=
  s.crews.filter fun e => e.2.team == t && e.2.st != .draining

/-- Completes a barrier at which every crew that has not exited has arrived (R55). -/
def barCheck (g : Go s0) (t b : Nat) : Go s0 :=
  match g.st.team? t with
  | none => g
  | some tm =>
    match Tab.find tm.bars b with
    | none => g
    | some bs =>
      if (g.st.liveCrews t).all fun e => bs.crews.contains e.1 then
        let g := modTeam g t fun tm => { tm with bars := Tab.del tm.bars b }
        g.each bs.crews fun x g =>
          let g := endWaits (modCrew g x (Crew.phaseEnd (· == .bar b))) x (.bar b) bs.clock bs.vc
          if tm.pair then dropCopies g x else g
      else g

/-- A crew arrives at a team barrier (R55, R72). -/
def barArrive (g : Go s0) (t b x : Nat) (a : Arrival) : Go s0 :=
  match g.st.crew? x with
  | none => g
  | some c =>
    let g := modTeam g t fun tm =>
      let old := (Tab.find tm.bars b).getD { crews := [], clock := 0, vc := [] }
      { tm with bars := Tab.put tm.bars b { crews := old.crews ++ [x], clock := max old.clock a.clock, vc := vcJoin old.vc c.snapshot } }
    barCheck (modCrew g x Crew.released) t b

/-- The crew has arrived: the arrival stands for its phase (R54). -/
def Crew.noteArrived (w : Wait) (phase : Nat) (c : Crew) : Crew :=
  { c with arriving := c.arriving.map fun a => if a.what = w && !a.done then { a with done := true, fence := none, phase := phase } else a
           order := c.order.filter fun o => !c.arriving.any fun a => a.what == w && a.fence == some o }

/-- Every lane of an arrival's mask that has not exited has executed the instruction (R54): the crew arrives. An arrival that would bring
a knot above its count waits, and joins the next phase (R58). -/
def arrived (g : Go s0) (x : Nat) (a : Arrival) : Go s0 :=
  match g.st.crew? x with
  | none => g
  | some c =>
    let phase := match g.st.team? c.team with | some tm => tm.phaseNow a.what | none => 0
    let g := modCrew g x (Crew.noteArrived a.what phase)
    match a.what with
    | .bar b => barArrive g c.team b x a
    | .knotArrive off =>
      match g.st.team? c.team with
      | none => g
      | some tm =>
        let k := tm.knot off
        if k.expect ≤ k.arrived then modTeam g c.team fun tm =>
          let st := tm.knotSt off
          tm.setKnotSt off { st with waiting := st.waiting ++ [(x, { a with done := true, fence := none, phase := phase })] }
        else
          let g := endWaits (knotArrive g c.team off x a) x (.knotArrive off) 0 []
          knotSettle g c.team off
    | .knot off q =>
      match g.st.team? c.team with
      | none => g
      | some tm =>
        if (tm.knot off).phase != q then
          let st := tm.knotSt off
          let g := endWaits g x (.knot off q) st.lastClock st.lastVc
          if tm.pair || 3 ≤ st.lastScope then dropCopies g x else g
        else g
    | _ => g

/-- Does an arrival act as a `.team` fence (R117)? -/
def Wait.fences : Wait → Bool
  | .bar _ | .knot .. => true
  | _ => false

/-- An arrival that the exit of lanes completes (R54) counts once the fence of R117 holds; until then the crew's later accesses wait. -/
def exitArrival (g : Go s0) (x : Nat) (a : Arrival) : Go s0 :=
  match g.st.crew? x with
  | none => g
  | some c =>
    let id := g.st.seq
    if a.what.fences && !g.st.fenceReady x c id (g.st.scopeOf c 1) then
      modCrew (g.put .seq) x fun c =>
        { c with arriving := c.arriving.map fun b => if b = a then { b with fence := some id } else b, order := c.order ++ [id] }
    else arrived g x a

/-- Takes a crew that has exited out of what it arrived at (R55, R302). -/
def Team.forget (x : Nat) (t : Team) : Team :=
  { t with bars := t.bars.map fun e => (e.1, { e.2 with crews := e.2.crews.filter fun y => y != x })
           gdetach := t.gdetach.filter fun y => y != x }

/-- Arrivals of a crew that its exited lanes complete (R54), and barriers of its team that its exit completes (R55). -/
def exitArrivals (g : Go s0) (x : Nat) : Go s0 :=
  match g.st.crew? x with
  | none => g
  | some c =>
    let gone := c.st == .draining
    let due := c.arriving.filter fun a => !a.done && a.fence.isNone && a.mask &&& ~~~c.exited &&& ~~~a.lanes == 0 && !(gone && a.what.fences)
    let g := g.each due fun a g => exitArrival g x a
    if gone then g.each (List.range 16) fun b g => barCheck (modTeam g c.team (Team.forget x)) c.team b else g

end Sys2Proof.Machine
end

