-- ==== Sys2Proof/Machine/Track.lean ====
section
/-! DEFINITION. Determinism tracking in D-class kernels (R74, R132, R133, R247). -/

namespace Sys2Proof.Machine

variable {s0 : State}

/-- A crew as determinism tracking knows it, making access number `no`. -/
def Crew.trackBy (c : Crew) (no : Nat) : TrackBy := { no := no, inst := c.inst, epoch := c.epoch, vc := c.vc, seen := c.seen }

/-- Is a recorded access ordered before a crew (R74): by a release, or as a write that orders only itself (R133)? -/
def TrackBy.after (b : TrackBy) (loc : Loc) (t : Track) : Bool :=
  t.epoch < Tab.get 0 b.vc t.inst || b.seen.any fun e => e.1 == t.inst && e.2.1 == t.no && e.2.2 == loc

/-- Two accesses of one commuting operation and type do not conflict (R247, R258). -/
def commutes (a b : Option (MemOp × Ty)) : Bool := a.isSome && a == b

/-- Does a recorded access conflict with an access of the crew to bytes `m` of the line (R74)? `loc` is the word that holds
them. -/
def Track.conflicts (t : Track) (s : State) (c : TrackBy) (loc : Loc) (m : BitVec 64) (write : Bool) (op : Option (MemOp × Ty)) : Bool :=
  t.inst != c.inst && (Tab.find s.launches t.launch).isSome && !TrackBy.after c loc t
    && ((t.write &&& m != 0 && !commutes t.op op) || (write && t.read &&& m != 0))

/-- The byte number in its line, and the aligned word. -/
def Loc.inLine : Loc → Nat
  | .home k => k % 64
  | .scratch _ off => off % 64
  | .far .. => 0

/-- The accesses of window passes that are held for a line of a team's scratch (R132, R301): each performs once it is committed. -/
def State.heldTracks (s : State) (t line launch : Nat) : List Track :=
  (s.held.map fun h => match h.pass.track with
    | some b => h.locs.filterMap fun l => match l.2 with
      | .scratch u off =>
        if u = t && off / 64 = line then
          let m := BitVec.ofNat 64 ((2 ^ h.pass.ty.bytes - 1) * 2 ^ (off % 64))
          some { no := b.no, inst := b.inst, launch := launch, epoch := b.epoch, read := if h.pass.kind = .gst then 0 else m
                 write := if h.pass.kind = .gst then m else 0, op := none }
        else none
      | _ => none
    | none => []).flatten

/-- The records of the line that holds a byte: its table is the module's or the team's. -/
def State.tracksAt (s : State) : Loc → List Track
  | .home k => Tab.get [] s.tracks (k / 64)
  | .scratch t off => match s.team? t with
    | some tm => Tab.get [] tm.tracks (off / 64) ++ s.heldTracks t (off / 64) tm.launch
    | none => []
  | .far .. => []

/-- The aligned word. -/
def Loc.word : Loc → Loc
  | .home k => .home (k / 4 * 4)
  | .scratch t off => .scratch t (off / 4 * 4)
  | l => l

/-- The bytes of an access in its line. -/
def Tracked.mask (a : Tracked) : BitVec 64 := BitVec.ofNat 64 ((2 ^ a.size - 1) * 2 ^ Loc.inLine a.loc)

/-- An access word by word. -/
def Tracked.words (a : Tracked) : List Tracked :=
  if a.size ≤ 4 then [a] else (List.range (a.size / 4)).map fun i => { a with loc := Loc.plus (4 * i) a.loc, size := 4 }

/-- Does an access conflict with a recorded one (R74)? An access that also reads commutes with nothing. -/
def State.clashBy (s : State) (b : TrackBy) (a : Tracked) : Bool :=
  a.words.any fun w => (s.tracksAt w.loc).any fun t =>
    t.conflicts s b (Loc.word w.loc) w.mask w.write (if w.read then none else w.op)
def State.trackClash (s : State) (c : Crew) (a : Tracked) : Bool := s.clashBy (c.trackBy s.seq) a

/-- The records of a line with one more access, joined to that of the same access to other bytes of the line; records of launches that have
completed go (R132). -/
def addTrack (s : State) (c : TrackBy) (launch : Nat) (a : Tracked) (l : List Track) : List Track :=
  let l := l.filter fun t => (Tab.find s.launches t.launch).isSome
  let new : Track := { no := c.no, inst := c.inst, launch := launch, epoch := c.epoch, read := if a.read then a.mask else 0
                       write := if a.write then a.mask else 0, op := if a.read then none else a.op }
  if l.any fun t => t.inst == new.inst && t.no == new.no && t.op == new.op then
    l.map fun t => if t.inst = new.inst && t.no = new.no && t.op = new.op then
      { t with read := t.read ||| new.read, write := t.write ||| new.write } else t
  else l ++ [new]

/-- Records an access (R74). -/
def trackOne (g : Go s0) (c : TrackBy) (launch : Nat) (a : Tracked) : Go s0 :=
  match a.loc with
  | .home k => g.put (.track (k / 64) (addTrack g.st c launch a (Tab.get [] g.st.tracks (k / 64))))
  | .scratch t off =>
    let s := g.st
    modTeam g t fun tm => { tm with tracks := Tab.set [] tm.tracks (off / 64) (addTrack s c launch a (Tab.get [] tm.tracks (off / 64))) }
  | .far .. => g

/-- Is an access of the crew tracked (R74)? `.ord` operations are exempt. -/
def tracks (s : State) (c : Crew) (exempt : Bool) : Bool := s.dclass c && !exempt

/-- The launch of a crew's team. -/
def State.launchOf (s : State) (c : Crew) : Nat := match s.team? c.team with | some t => t.launch | none => 0

/-- Records the accesses of an instruction, whose number is `no`. -/
def trackAll (g : Go s0) (c : Crew) (no : Nat) (accs : List Tracked) : Go s0 :=
  let launch := g.st.launchOf c
  g.each accs fun a g => trackOne g (c.trackBy no) launch a

/-- Records the accesses of an instruction that performs now, which takes the next number. -/
def trackNow (g : Go s0) (i : Issue) (exempt : Bool) (accs : List Tracked) : Go s0 :=
  if tracks g.st i.c exempt then (trackAll g i.c g.st.seq accs).put .seq else g

end Sys2Proof.Machine
end

