-- ==== Sys2Proof/Machine/Access.lean ====
section
/-! DEFINITION. Lane accesses to memory: addresses (R218, R219), the checks of R220 at issue, the queues (R111), and the passes
that leave the core for other modules and gang members (R126, R296, R299, R301, R363). -/

namespace Sys2Proof.Machine

variable {s0 : State}

/-! ### Addresses -/

/-- Base plus offset of an address form in a lane (R218, R219). -/
def virtAddr (i : Issue) (l : Nat) : Nat :=
  let base := match i.f.a with
    | .v idx .. => i.ca.rowsVal i.sp.wbase idx.toNat 2 l
    | .s n => (i.ca.uni n.toNat).toNat
    | _ => 0
  let off := match i.f.b with
    | .v idx .. => trunc (sext (i.cb.rowsVal i.sp.wbase idx.toNat 1 l) 32) 64
    | .s n => (i.cb.uni n.toNat).toNat
    | .i v => trunc (imm15 v) 64
    | _ => 0
  (base + off) % 2 ^ 64

/-- The address of an atomic, a flag or a `cwait`: A alone (R218). -/
def virtAddrA (i : Issue) (l : Nat) : Nat := virtAddr { i with f := { i.f with b := .none } } l

/-- Faults of accesses as faults of lanes: those of a uniform access lie in every lane that takes effect. -/
def Issue.spread (i : Issue) (fs : List LaneFault) : List LaneFault :=
  (fs.map fun f => if f.lane = 128 then i.lanes.map fun l => { f with lane := l } else [f]).flatten

/-- FR.ACCESS of an operation (R381). -/
def accessOf : MemOp → Nat
  | .store => 1
  | _ => 2

/-! ### Peers -/

/-- The key of a peer's entry in the peer-table cache of junction die `j` (R459). -/
def peerKey (j p : Nat) : Nat := 2 ^ 18 * j + p

/-- A junction die keeps a peer-table entry in its cache of 4096 (R459); which one makes room is open. -/
def cachePeer (s : State) (t : Table Word) (j p : Nat) (v : Word) : Table Word :=
  let mine := t.filter fun e => e.1 / 2 ^ 18 == j && e.1 != peerKey j p
  Tab.put (if 4096 ≤ mine.length then Tab.del t (mine.getD (Config.freeNat (s.salt 53 j) % 4096) (0, 0)).1 else t) (peerKey j p) v

/-- A peer-table entry as a junction die reads it: one in the die's own cache may have been replaced there (R459). Which die acts for a crew or the
distributor is open (log 86). -/
def peerEntry (g : Go s0) (p : Nat) (j : Nat := Config.freeNat (g.st.salt 52 p) % 4) : Nat × Go s0 :=
  let m := g.st.mod
  if m.ptCount.toNat ≤ p then (0, g)
  else
    let home := fun g : Go s0 =>
      let v := leNat (g.st.bytesAt (m.ptBase.toNat + 8 * p) 8)
      (v, g.put (.mod { m with ptCache := cachePeer g.st m.ptCache j p (BitVec.ofNat 64 v) }))
    match Tab.find m.ptCache (peerKey j p) with
    | some v => if Config.freeBit (g.st.salt 51 p) then (v.toNat, g) else home g
    | none => home g

/-- Is a link up (R456)? -/
def State.linkUp (s : State) (l : Nat) : Bool := (s.link l).state == 2

/-- The paths of an entry whose links are up (R459). -/
def State.pathsUp (s : State) (e : Nat) : List Nat := (List.range 4).filter fun k => s.linkUp (bitf e (24 + 5 * k) 5)

/-- Is the peer absent for the context (R230, R296, R300, R459): unpopulated, disabled, lost, without a path, or outside the
context's partition? -/
def peerAbsent (g : Go s0) (ctx p : Nat) : Bool × Go s0 :=
  let (e, g) := peerEntry g p
  let part := (g.st.ctx ctx).part.toNat
  (bitf e 0 2 != 1 || (part < 8 && bitf e (56 + part) 1 = 0) || (p != g.st.mod.modid && (g.st.pathsUp e).isEmpty), g)

/-- The mirror-table entry of a context's partition (R460). -/
def State.mirror (s : State) (ctx idx : Nat) : Mirror :=
  Tab.get { primary := 0, mirror := 0, lost := false, valid := false } s.mod.mirrors (64 * (s.ctx ctx).part.toNat + idx)

/-! ### The checks at issue -/

/-- One access after its checks: its lane, the address as the instruction names it, where its bytes live, and the peers a
FABRIC-WINDOW access goes to. -/
structure Checked where
  lane  : Nat
  ea    : Nat
  loc   : Loc
  peers : List Nat := []
  mirror : Option Nat := none
deriving DecidableEq, Repr

/-- Do two ranges of bytes meet? -/
def overlaps (a n b m : Nat) : Bool := a < b + m && b < a + n

/-- The context of a team. -/
def State.teamCtx (s : State) (t : Nat) : Nat := match s.team? t with | some tm => tm.ctx | none => 4096

/-- Does an access by a crew of the core meet the range-lock table (R123)? -/
def State.rangeClash (s : State) (core : Nat) (virt : Bool) (ctx team a n : Nat) (write : Bool) : Bool :=
  (s.coreOf core).ranges.any fun r =>
    r.virt == virt && (if virt then r.ctx.getD (s.teamCtx r.team) == ctx else r.team == team) && overlaps a n r.base r.len && (r.dest || write)

/-- The peers of a FABRIC-WINDOW access, or its cause (R296, R431, R460): a store to a MIRROR page goes to both peers, another access to
the primary, or to the mirror once the primary is lost. -/
def farPeers (g : Go s0) (ctx e : Nat) (store : Bool) : Except Nat (List Nat × Option Nat) × Go s0 :=
  if pteMirror e then
    let m := g.st.mirror ctx (pteMidx e)
    if !m.valid || m.primary.toNat ≠ ptePeer e then (.error 7, g)
    else if m.lost then
      let (bad, g) := peerAbsent g ctx m.mirror.toNat
      (if bad then .error 9 else .ok ([m.mirror.toNat], none), g)
    else
      let (bad, g) := peerAbsent g ctx m.primary.toNat
      let (bad2, g) := if store then peerAbsent g ctx m.mirror.toNat else (false, g)
      (if bad || bad2 then .error 9
       else .ok (if store then [m.primary.toNat, m.mirror.toNat] else [m.primary.toNat], some m.mirror.toNat), g)
  else
    let (bad, g) := peerAbsent g ctx (ptePeer e)
    (if bad then .error 9 else .ok ([ptePeer e], none), g)

/-- What an access does, for its checks; `exempt` ones are not tracked (R74). -/
structure AccKind where
  size  : Nat
  read  : Bool
  write : Bool
  store : Bool
  ord   : Bool
  exempt : Bool := ord
  op    : Option (MemOp × Ty)
deriving DecidableEq, Repr

/-- Checks one access to a virtual address (R220), lowest cause first. -/
def checkVirt (g : Go s0) (i : Issue) (k : AccKind) (lane a : Nat) : Except LaneFault Checked × Go s0 :=
  let core := placeCore i.x
  let bad := fun n level => (.error { lane := lane, cause := n, addr := a, level := level } : Except LaneFault Checked)
  let dc := g.st.dclass i.c
  match placeOf g (coreUnits core) i.c.ctx a k.size k.write dc with
  | (.cause n level, g) => (bad n level, g)
  | (.at_ loc e, g) =>
    match loc with
    | .far p va =>
      match farPeers g i.c.ctx e k.store with
      | (.error n, g) => (bad n 0, g)
      | (.ok (ps, m), g) =>
        if g.st.rangeClash core true i.c.ctx i.c.team (va56 a) k.size k.write then (bad 11 0, g)
        else if k.ord then (bad 14 0, g)
        else (.ok { lane := lane, ea := a, loc := .far p (va + BitVec.ofNat 64 (bitf a 60 4 * 2 ^ 60)), peers := ps, mirror := m }, g)
    | _ =>
      if g.st.rangeClash core true i.c.ctx i.c.team (va56 a) k.size k.write then (bad 11 0, g)
      else if tracks g.st i.c k.exempt && g.st.trackClash i.c { loc := loc, size := k.size, read := k.read, write := k.write, op := k.op } then
        (bad 13 0, g)
      else (.ok { lane := lane, ea := a, loc := loc }, g)

/-- The pages of an instruction's lanes are looked up in increasing order of page address (R433). -/
def lookPages (g : Go s0) (core ctx size : Nat) (as : List Nat) : Go s0 :=
  lookUp g (coreUnits core) ctx ((as.filter fun a => a % size = 0 && bitf a 56 4 = 0).map fun a => va56 a / 65536)

/-- Checks one scratch access (R220, R239, R252): misaligned, bounds, range locks, knots for a write, determinism. -/
def checkScratch (s : State) (i : Issue) (k : AccKind) (lane off : Nat) : Except LaneFault Checked :=
  let bad := fun n => (.error { lane := lane, cause := n, addr := off } : Except LaneFault Checked)
  match s.team? i.c.team with
  | none => bad 5
  | some t =>
    if off % k.size ≠ 0 then bad 4
    else if t.scratchSize < off + k.size then bad 5
    else if s.rangeClash (placeCore i.x) false i.c.ctx i.c.team off k.size k.write then bad 11
    else if k.write && t.guarded off k.size then bad 12
    else if tracks s i.c k.exempt && s.trackClash i.c { loc := .scratch i.c.team off, size := k.size, read := k.read, write := k.write, op := k.op } then
      bad 13
    else .ok { lane := lane, ea := off, loc := .scratch i.c.team off }

/-- Checks accesses one after another: the faults, and the accesses that passed. -/
def checkAll (g : Go s0) (f : Go s0 → Nat → Except LaneFault Checked × Go s0) : List Nat → (List LaneFault × List Checked) × Go s0
  | [] => (([], []), g)
  | l :: ls =>
    let (r, g) := f g l
    let ((fs, cs), g) := checkAll g f ls
    match r with
    | .error e => ((e :: fs, cs), g)
    | .ok c => ((fs, c :: cs), g)

/-! ### The queues -/

/-- A memory operation as it enters the queues: what an instruction reads and writes through them. -/
structure MemAccess where
  ty      : Ty
  op      : Option MemOp          -- none for a load
  ret     : Bool                  -- old values are returned
  scope   : Nat
  ordered : Bool
  dest    : Dest
  ord     : Bool
  data    : Nat → Nat
  expect  : Nat → Nat
  home    : Bool := false       -- an add made at the home, which only releases (R258)

/-- Room in the queues of R111. -/
def Crew.roomFor (c : Crew) (load store : Bool) : Bool := (!load || c.loadq.length < 16) && (!store || c.storeq.length < 16)

/-- The destination of a loaded value. -/
def destOf (i : Issue) (t : Ty) : Dest :=
  match i.f.d with
  | .v idx .. => .rows (i.sp.wbase + idx.toNat) t.rows
  | .s n => .uni n.toNat
  | _ => .none

/-- The lane accesses of a queue entry. -/
def laneAccs (a : MemAccess) (cs : List Checked) : List LaneAcc :=
  cs.map fun c => { lane := c.lane, loc := c.loc, data := a.data c.lane, expect := a.expect c.lane }

/-- Is a memory operation a release, an acquire (R116)? An add made at the home releases only (R258). -/
def MemAccess.releases (a : MemAccess) : Bool := a.op.isSome && a.scope != 0
def MemAccess.acquires (a : MemAccess) : Bool := a.scope != 0 && a.op != some .store && !a.home

/-- What a crew takes for a memory operation numbered `id` (R111, R112, R116): its entries, the rows not settled until a `qwait`, and the
ordering of an acquire. -/
def Crew.enqueue (c : Crew) (i : Issue) (a : MemAccess) (id : Nat) (cs : List Checked) : Crew :=
  let accs := laneAccs a cs
  let load := a.op.isNone || a.ret
  let release := a.releases
  let acquire := a.acquires
  let le : LoadEntry := { id := id, ty := a.ty, scope := a.scope, dest := a.dest, lanes := accs, got := [], poison := 0
                          acquire := acquire, atomic := a.op.isSome, noAlloc := i.f.hint.cc == 3, back := false }
  let se : StoreEntry := { id := id, ty := a.ty, op := a.op.getD .store, scope := a.scope, lanes := accs, left := homeLines accs
                           release := release, ordered := a.ordered, ret := a.ret, home := a.home, gwctMod := 0, gwctFab := 0
                           clock := i.sp.clock + 1, vc := if release then c.snapshot else [], who := (c.inst, id)
                           acked := false }
  { c with
    loadq := if load then c.loadq ++ [le] else c.loadq
    storeq := if a.op.isSome then c.storeq ++ [se] else c.storeq
    uncov := if load then c.uncov ++ [{ id := id, rows := writeKeys c i.sp i.m i.f, old := [], loaded := [], wrote := [], poison := 0 }]
      else c.uncov
    order := if acquire then c.order ++ [id] else c.order }

/-! ### Passes -/

/-- Insertion of a lane into the pass of its peer, by rising peer number (R296). -/
def addPass (peer : Nat) (l : PassLane) : List PassOut → List PassOut
  | [] => [{ peer := peer, lanes := [l], st := .sent 0 }]
  | p :: ps =>
    if peer < p.peer then { peer := peer, lanes := [l], st := .sent 0 } :: p :: ps
    else if peer = p.peer then { p with lanes := p.lanes ++ [l] } :: ps
    else p :: addPass peer l ps

/-- Sends a message of a pass to its target: to this module as an event, else out (R295). -/
def toPeer (g : Go s0) (peer : Nat) (m : Msg) (ev : Instr) : Go s0 := if peer = g.st.mod.modid then later g ev else send g m

/-- The module a pass goes to: the peer, or the module of the member of that rank. -/
def State.passModule (s : State) (p : PassIn) (peer : Nat) : Nat :=
  match p.kind with
  | .gld | .gst => match Tab.find s.gangs p.gang with
    | some gg => gg.members.getD peer s.mod.modid
    | none => s.mod.modid
  | _ => peer

/-- The event by which a pass arrives. -/
def passEvent (p : PassIn) : Instr :=
  match p.kind with
  | .gld | .gst => .windowPassArrive p
  | _ => .remotePassArrive p

/-- The pass of one peer; its number on the wire is that of the set and the peer. -/
def passFor (set : PassSet) (o : PassOut) : PassIn :=
  { set.pass with id := set.pass.id * 2 ^ 18 + o.peer, lanes := o.lanes, rank := o.peer }

/-- Sends every pass of a set (R296 stage 2). -/
def sendPasses (g : Go s0) (n : Nat) (set : PassSet) : Go s0 :=
  let now := g.st.now
  let g := g.put (.passSet n (some { set with passes := set.passes.map fun o => { o with st := .sent now } }))
  g.each set.passes fun o g =>
    let p := passFor set o
    let peer := g.st.passModule p o.peer
    toPeer g peer (.pass peer p) (passEvent p)

/-- The launch of a crew as other modules know it (R64). -/
def State.launchName (s : State) (c : Crew) : Option (Nat × Nat) :=
  (Tab.find s.launches (s.launchOf c)).map fun l => (l.home.getD s.mod.modid, if l.home.isSome then l.homeNo else s.launchOf c)

/-- A pass without lanes of a crew. -/
def Crew.pass (c : Crew) (s : State) (x : Nat) (kind : PassKind) (ty : Ty) (n : Nat) : PassIn :=
  { src := s.mod.modid, id := n, kind := kind, ctx := c.ctx, ty := ty, op := .store, scope := 0, ordered := false
    crew := c.inst, ident := crewId c.ctx x, clock := 0, dclass := false, gang := 0, rank := 0, track := none, vc := []
    launch := s.launchName c, mirror := none, wait := none, lanes := [] }

/-- What the passes of an instruction carry. -/
def passOf (s : State) (i : Issue) (a : MemAccess) (kind : PassKind) (n : Nat) (mirror : Option Nat) : PassIn :=
  let c := i.c
  let release := a.releases
  { c.pass s i.x kind a.ty n with
    op := a.op.getD .store, scope := a.scope, ordered := a.ordered, clock := i.sp.clock + 1, dclass := s.dclass c
    gang := match (s.team? c.team).bind fun t => t.gang with | some n => n | none => 0
    track := if s.dclass c then some (c.trackBy n) else none
    vc := if release then c.snapshot else [], mirror := mirror }

/-- The kind of pass that an operation on a FABRIC-WINDOW page makes (R431). -/
def farKind (a : MemAccess) : PassKind :=
  match a.op with
  | none => .rld
  | some .store => .rst
  | some _ => .ratom

/-- The passes of the accesses that leave the module. -/
def passesOf (a : MemAccess) (cs : List Checked) : List PassOut :=
  cs.foldl (fun ps c =>
    match c.loc with
    | .far _ va => c.peers.foldl (fun ps p =>
        addPass p { lane := c.lane, addr := va, data := a.data c.lane, expect := a.expect c.lane } ps) ps
    | _ => ps) []

/-- The 64-byte line of an address at its target, whatever its tag (R126, R363). -/
def farLine (a : Nat) : Nat := a % 2 ^ 60 / 64

/-- Does the crew have to wait in issue before a memory operation: for room in a queue (R111), or, for an access that leaves its
core by passes, for an earlier acquire or fence (R115, R116), and, where a pass goes to its own module, for its own earlier accesses
there (R108)? -/
def waitsInIssue (s : State) (i : Issue) (a : MemAccess) (peers : List Nat) : Bool :=
  !i.c.roomFor (a.op.isNone || a.ret) a.op.isSome || (!peers.isEmpty && i.c.heldBack s.seq) ||
    (peers.contains s.mod.modid && !(i.c.storeq.all (fun q => q.left.isEmpty) && i.c.loadq.all fun q => q.back))

/-- Does an access have to wait behind a returned flit of its crew for the same line (R487)? -/
def State.behindFlit (s : State) (i : Issue) (cs : List Checked) : Bool :=
  s.mod.returned.any fun r => match r.flit.acc with
    | some (x, n, ln) =>
      x == i.x && (i.c.sent.any (fun f => f.pass == n && f.line == ln) || (Tab.find s.passes n).isSome)
        && cs.any fun d => match d.loc with | .far _ va => farLine va.toNat == ln | _ => false
    | none => false

/-- Does an access meet a line of another split's passes that are not all committed? Accesses of a crew to one line keep program order (R126). -/
def State.behindPasses (s : State) (i : Issue) (cs : List Checked) : Bool :=
  s.passes.any fun e => e.2.crew == i.x && e.2.pass.crew == i.c.inst && e.2.passes.any fun o =>
    o.lanes.any fun l => cs.any fun d => match d.loc with
      | .far p va => (e.2.pass.kind == .gst) == decide (2 ^ 20 ≤ p) && d.peers.contains o.peer && farLine va.toNat == farLine l.addr.toNat
      | _ => false

/-- Does a checked memory operation have to wait in issue? `modules` are those that its passes go to. -/
def State.mustWait (s : State) (i : Issue) (a : MemAccess) (cs : List Checked) (modules : List Nat) : Bool :=
  waitsInIssue s i a modules || s.behindFlit i cs || s.behindPasses i cs

/-- A checked memory operation (R111, R236): its entries, and either its retirement, with its records (R74) and, for a release, the end of
its phase (R133), or, where lanes leave the module, the passes it waits for (R296). An `.ord` operation of a D-class kernel retires once it has performed (R246). -/
def memIssue (g : Go s0) (i : Issue) (a : MemAccess) (kind : PassKind) (cs : List Checked) (tracked : List Tracked) : Go s0 :=
  let far := passesOf a cs
  if cs.isEmpty then retire g i {}
  else
    let id := g.st.seq
    let s := g.st
    let g := g.put .seq
    let g := modCrew g i.x fun c => c.enqueue i a id cs
    let tracked := if tracks s i.c a.ord then tracked else []
    if far.isEmpty then
      let g := trackAll g i.c id tracked
      let g := if a.releases then modCrew g i.x Crew.released else g
      if a.ord && s.dclass i.c then park g i (.ordAtom id) else retire g i {}
    else
      let set : PassSet :=
        { crew := i.x, split := i.k, eas := cs.map fun c => (c.lane, c.ea), passes := far
          origin := .instr (if a.op.isNone || a.ret then some id else none) (if a.op.isSome then some id else none)
          access := match a.op with | none => 0 | some o => accessOf o
          twice := cs.any fun c => 1 < c.peers.length
          pass := passOf s i a kind id (cs.findSome? fun c => c.mirror), tracked := tracked }
      sendPasses (park g i (.passes id)) id set

/-- What a memory operation does, for its checks. -/
def MemAccess.kind (a : MemAccess) : AccKind :=
  { size := accBytes a.ty, read := a.op.isNone || a.ret, write := a.op.isSome, store := a.op == some .store, ord := a.ord
    op := match a.op with
      | some .store => none
      | some o => some (o, a.ty)
      | none => none }

/-- A memory operation on virtual addresses (R220, R236, R244): checks, then the queues. -/
def virtAccess (g : Go s0) (i : Issue) (a : MemAccess) (addr : Nat → Nat) (lanes : List Nat) : Go s0 :=
  let k := a.kind
  let ((fs, cs), g1) := checkAll (lookPages g (placeCore i.x) i.c.ctx k.size (lanes.map addr)) (fun g l => checkVirt g i k l (addr l)) lanes
  if !fs.isEmpty then takeFault g1 i.x i.k (i.spread fs) (match a.op with | none => 0 | some o => accessOf o) 0 false
  else if g1.st.mustWait i a cs (cs.map fun c => c.peers).flatten then g
  else memIssue g1 i a (farKind a) cs
    (cs.map fun c => { loc := c.loc, size := k.size, read := k.read, write := k.write, op := k.op })

end Sys2Proof.Machine
end

