-- ==== Sys2Proof/Machine/Perform.lean ====
section
/-! DEFINITION. What the queues do after issue: loads that return (R111, R112), stores and atomics that perform at their home
(R105, R118, R119), acknowledgements (R106), the ends of leases (R104, R119). -/

namespace Sys2Proof.Machine

variable {s0 : State}

/-! ### Results of atomics -/

/-- Performs one atomic on home bytes: the old value, and the bytes stored (R118). -/
def atomicAt (g : Go s0) (by_ : By) (t : Ty) (op : MemOp) (k b expect : Nat) : (Nat × List (Nat × Byte)) × Go s0 :=
  let n := accBytes t
  let old := leNat (g.st.bytesAt k n)
  match atomicNew t op old b expect with
  | some v =>
    let cells := cellsFrom k (leBytes v n)
    ((old, cells), homeCells g by_ cells)
  | none => ((old, []), g)

/-! ### Loads -/

/-- Do two accesses of a crew belong to one thread (R108)? A uniform access belongs to every one. -/
def sameThread (a b : LaneAcc) : Bool := a.lane == b.lane || a.lane == 128 || b.lane == 128

/-- Do two accesses touch a common home byte? -/
def LaneAcc.meets (n m : Nat) (a b : LaneAcc) : Bool :=
  match a.loc, b.loc with
  | .home j, .home k => overlaps j n k m
  | _, _ => false

/-- Must an access list wait for another one of the same crew, made earlier (R108)? -/
def ordered (n m : Nat) (a b : List LaneAcc) : Bool := a.any fun x => b.any fun y => sameThread x y && x.meets n m y

/-- The lane accesses of a store entry whose lines are still to perform. -/
def StoreEntry.pending (e : StoreEntry) : List LaneAcc :=
  e.lanes.filter fun l => match l.loc with | .home k => e.left.contains (lineOf k) | _ => false

/-- Has the thread of an access to its team's scratch an own window store to one of its bytes that is not acknowledged (R108, R130)? `ls` are the
lanes with their offsets. -/
def State.windowAhead (s : State) (c : Crew) (n : Nat) (ls : List (Nat × Nat)) : Bool :=
  match s.team? c.team with
  | some t => c.storeq.any fun q => q.lanes.any fun a => match a.loc with
      | .far p va => p == 2 ^ 20 + t.rank && ls.any fun l =>
          (l.1 == a.lane || l.1 == 128 || a.lane == 128) && overlaps va.toNat (accBytes q.ty) l.2 n
      | _ => false
  | none => false

/-- Is an earlier pass of the crew to its own module still to perform on a home byte (R108)? -/
def State.passAhead (s : State) (c : Crew) (id n : Nat) (ls : List LaneAcc) : Bool :=
  s.held.any fun h => h.pass.src == s.mod.modid && h.pass.crew == c.inst && h.pass.id / 2 ^ 18 < id && h.locs.any fun p =>
    match p.2 with
    | .home k => ls.any fun l => match l.loc with | .home j => overlaps k (accBytes h.pass.ty) j n | _ => false
    | _ => false

/-- The bytes a store entry holds in the store path, lane by lane (R109, R223). -/
def StoreEntry.cells (e : StoreEntry) : List (Nat × Byte × LaneAcc) :=
  (e.lanes.map fun l => match l.loc with
    | .home k => (cellsFrom k (leBytes l.data (accBytes e.ty))).map fun p => (p.1, p.2, l)
    | _ => []).flatten

/-- The bytes that it holds for another module, or the scratch of a gang member, by peer and address. -/
def StoreEntry.farCells (e : StoreEntry) (peer : Nat) : List (Nat × Byte × LaneAcc) :=
  (e.lanes.map fun l => match l.loc with
    | .far p va => if p = peer then (cellsFrom (va.toNat % 2 ^ 60) (leBytes l.data (accBytes e.ty))).map fun q => (q.1, q.2, l) else []
    | _ => []).flatten

/-- Store entries of a core's crews, oldest first. -/
def insertStore (e : Crew × StoreEntry) : List (Crew × StoreEntry) → List (Crew × StoreEntry)
  | [] => [e]
  | f :: fs => if e.2.id ≤ f.2.id then e :: f :: fs else f :: insertStore e fs
def State.storePath (s : State) (core : Nat) : List (Crew × StoreEntry) :=
  ((s.crews.map fun e => if placeCore e.1 = core then e.2.storeq.map fun q => (e.2, q) else []).flatten).foldr insertStore []

/-- The held bytes with those of one more entry of the store path (R109): a store lays its bytes over older ones, and the bytes of an
atomic that has performed are no longer what older entries hold. A store that comes later in the load's own thread gives it nothing
(R108). -/
def layEntry (c : Crew) (id : Nat) (l : LaneAcc) (t : Table Byte) (e : Crew × StoreEntry) (cells : List (Nat × Byte × LaneAcc)) : Table Byte :=
  if e.2.op = .store then
    (cells.filter fun x => !(e.1.inst == c.inst && id < e.2.id && sameThread l x.2.2)).foldl (fun t x => Tab.put t x.1 x.2.1) t
  else cells.foldl (fun t x => Tab.del t x.1) t

/-- What the store path gives a load's lane on a line: the newest held bytes (R108, R109). -/
def State.heldBytes (s : State) (core : Nat) (c : Crew) (id : Nat) (l : LaneAcc) (ln : Nat) : Table Byte :=
  (s.storePath core).foldl (fun t e =>
    if s.undecided e.2.id then t
    else layEntry c id l t e (e.2.cells.filter fun x => lineOf x.1 == ln && (e.2.op == .store || !e.2.left.contains ln))) []

/-- Do two crews name the same memory by a far place: a page or peer of their context, or a member of their gang? -/
def State.sameFar (s : State) (peer : Nat) (a b : Crew) : Bool :=
  let gang := fun (c : Crew) => (s.team? c.team).bind fun t => t.gang
  a.ctx == b.ctx && (peer < 2 ^ 20 || gang a == gang b)

/-- Has another crew of the core an older store in the store path to a byte of one of another module or a gang's scratch that entry `id` of a crew
also stores to (R108, R109; DEDUCED, log 79)? -/
def State.farAhead (s : State) (core : Nat) (c : Crew) (id : Nat) : Bool :=
  c.storeq.any fun q => q.id == id && s.crews.any fun e => placeCore e.1 == core && e.2.inst != c.inst && e.2.storeq.any fun p =>
    p.id < id && p.lanes.any fun a => q.lanes.any fun b => match a.loc, b.loc with
      | .far m va, .far n vb => m == n && s.sameFar m c e.2
          && overlaps (va.toNat % 2 ^ 60) (accBytes p.ty) (vb.toNat % 2 ^ 60) (accBytes q.ty)
      | _, _ => false

/-- What the store path gives a load's lane on another module: the held bytes by address. An atomic on its way there is before the load (R126). -/
def State.heldFar (s : State) (core : Nat) (c : Crew) (id : Nat) (l : LaneAcc) (peer : Nat) : Table Byte :=
  (s.storePath core).foldl (fun t e =>
    if s.undecided e.2.id || !s.sameFar peer c e.1 then t else layEntry c id l t e (e.2.farCells peer)) []

/-- A value loaded from another module with what the store path holds of its bytes (R109). -/
def State.withHeld (s : State) (core : Nat) (c : Crew) (e : LoadEntry) (lane v : Nat) : Nat :=
  match e.lanes.find? fun l => l.lane == lane with
  | some l => match l.loc with
    | .far p va =>
      let n := accBytes e.ty
      let t := s.heldFar core c e.id l p
      leNat (((leBytes v n).zip (List.range n)).map fun b => Tab.get b.1 t (va.toNat % 2 ^ 60 + b.2))
    | _ => v
  | none => v

/-- Lines as a core reads them, one after another (R104). -/
def readLines (g : Go s0) (core minGrant : Nat) (alloc : Bool) : List Nat → List (Nat × List Byte) × Go s0
  | [] => ([], g)
  | ln :: lns =>
    let (bs, g) := coreLine g core ln minGrant alloc
    let (t, g) := readLines g core minGrant alloc lns
    ((ln, bs) :: t, g)

/-- The values of a load's home lanes. -/
def loadValues (s : State) (core : Nat) (c : Crew) (e : LoadEntry) (lines : List (Nat × List Byte)) : List (Nat × Nat) :=
  e.lanes.filterMap fun l => match l.loc with
    | .home k =>
      (lines.find? fun p => p.1 == lineOf k).map fun p =>
        (l.lane, leNat (((overlay p.2 (s.heldBytes core c e.id l (lineOf k))).drop (k % 64)).take (accBytes e.ty)))
    | _ => none

/-- The lanes of a load whose bytes are poisoned (R389). -/
def State.poisonLanes (s : State) (n w : Nat) (ls : List LaneAcc) : Lanes :=
  ls.foldl (fun m l => match l.loc with
    | .home k => if s.poisoned k n then m ||| (if l.lane = 128 then laneMask w else lane1 l.lane) else m
    | _ => m) 0

/-- What a load writes to its destination (R76, R217): loaded values by lane. -/
def LoadEntry.out (e : LoadEntry) (wrows : Nat) : RegOut :=
  match e.dest with
  | .rows r n => { v := (e.got.map fun p =>
      (List.range n).map fun j => ((r + j) % wrows, p.1, elem (if isHalf e.ty then p.2 else extend e.ty p.2 (32 * n)) 32 j)).flatten }
  | .uni n => { s := e.got.map fun p => (n, if isHalf e.ty then p.2 else extend e.ty p.2 64) }
  | .none => {}

/-- Poisoned values are left open (R241). -/
def LoadEntry.spoilt (s : State) (e : LoadEntry) : LoadEntry :=
  { e with got := e.got.map fun p =>
      if hasLane e.poison (p.1 % 128) then (p.1, (Config.freeBits 128 (s.salt 17 (128 * e.id + p.1 % 128))).toNat) else p }

/-- The head entry of the load queue retires: its values go to the registers, where a cell written since holds either value
(R112); a draining crew discards them (R229). -/
def Crew.retireLoad (s : State) (c : Crew) (e : LoadEntry) : Crew :=
  let c := { c with loadq := c.loadq.filter fun q => q.id != e.id }
  if c.st = .draining then { c with uncov := c.uncov.filter fun u => u.id != e.id }
  else
    let e := e.spoilt s
    let o := e.out c.wrows
    let cells := o.cells c.width
    let wrote := match c.uncov.find? fun u => u.id == e.id with | some u => u.wrote | none => []
    let new := cells.foldl (fun (d : Crew) k =>
      if wrote.contains k && c.cell k != d.cell k && Config.freeBit (s.salt 16 k) then d.setCell k (c.cell k) else d) (c.putOut o)
    { new with
      uncov := c.uncov.map fun u => if u.id = e.id then { u with old := cells.map fun k => (k, c.cell k), loaded := cells.map fun k => (k, (c.putOut o).cell k), poison := e.poison } else u
      splits := c.splits.map fun p => (p.1, latchAfter true o.keys p.2) }

/-- Entries whose data and that of all older ones have returned retire in order (R111). Fuel: the entries. -/
def Crew.retireLoads (s : State) (c : Crew) : Nat → Crew
  | 0 => c
  | n + 1 => match c.loadq with
    | e :: _ => if e.back then (c.retireLoad s e).retireLoads s n else c
    | [] => c

/-- What a `qwait` covers: all uncovered loads but the `n` youngest (R112). -/
def Crew.covered (c : Crew) (n : Nat) : List Uncovered := c.uncov.take (c.uncov.length - n)

/-- The poisoned loads a `qwait` covers are reported and gone (R241). -/
def qwaitFault (g : Go s0) (x k : Nat) (c : Crew) (bad : List Uncovered) : Go s0 :=
  let lanes := lanesOf (bad.foldl (fun m u => m ||| u.poison) 0) c.width
  takeFault (modCrew g x fun c => { c with uncov := c.uncov.filter fun u => !bad.contains u }) x k (allFault lanes 18) 0 0 false

/-- Ends the `qwait`s of a crew whose condition holds (R112, R241). -/
def endQwaits (g : Go s0) (x : Nat) : Go s0 :=
  match g.st.crew? x with
  | none => g
  | some c =>
    g.each c.splits fun e g =>
      match e.2.wait, g.st.crew? x with
      | .qwait n, some c =>
        if c.loadq.length ≤ n then
          let bad := (c.covered n).filter fun u => u.poison != 0
          if !bad.isEmpty then qwaitFault g x e.1 c bad
          else
            let cov := c.covered n
            endWait (modCrew g x fun c => { c with uncov := c.uncov.filter fun u => !cov.contains u }) x e.1 0 []
        else g
      | _, _ => g

/-- After an acquire performed (R116). -/
def acquired (g : Go s0) (x id scope : Nat) : Go s0 :=
  let g := modCrew g x fun c => { c with order := c.order.filter fun o => o != id }
  match g.st.crew? x with
  | some c => if 3 ≤ g.st.scopeOf c scope then dropCopies g x else g
  | none => g

/-- May a load perform now (R108, R115, R116, R119, R296)? -/
def loadReady (s : State) (x : Nat) (c : Crew) (e : LoadEntry) : Bool :=
  let n := accBytes e.ty
  !e.back && !s.undecided e.id && !c.heldBack e.id && !s.passAhead c e.id n e.lanes &&
  (e.lanes.all fun l => (match l.loc with | .home _ => !e.atomic | _ => false) || e.got.any fun p => p.1 == l.lane) &&
  (e.atomic ||
    ((homeLines e.lanes).all (fun ln => !s.heldLine ln (placeCore x)) &&
     c.storeq.all (fun q => e.id ≤ q.id || q.op == .store || !ordered n (accBytes q.ty) e.lanes q.pending) &&
     c.loadq.all (fun q => e.id ≤ q.id || q.back || !ordered n (accBytes q.ty) e.lanes q.lanes)))

/-- A load's data returns (R104, R108, R109, R111). -/
def loadReturn (g : Go s0) (x : Nat) (c : Crew) (e : LoadEntry) : Go s0 :=
  let core := placeCore x
  let (lines, g) := if e.atomic then ([], g) else readLines g core c.minGrant (!e.noAlloc) (homeLines e.lanes)
  let s := g.st
  let e' := { e with
    got := if e.atomic then e.got else e.got ++ loadValues s core c e lines
    poison := if e.atomic then e.poison else e.poison ||| s.poisonLanes (accBytes e.ty) c.width e.lanes
    back := true }
  let g := modCrew g x fun c => { c with loadq := c.loadq.map fun (q : LoadEntry) => if q.id = e.id then e' else q }
  let g := if e.acquire then acquired g x e.id e.scope else g
  let s := g.st
  endQwaits (modCrew g x fun c => c.retireLoads s c.loadq.length) x

/-- LOAD_RETURN (R111). -/
def execLoadReturn (x id : Nat) (s : State) : Host.Outcome State Fault Refusal :=
  match s.crew? x with
  | none => .next s
  | some c =>
    match c.loadq.find? fun e => e.id == id with
    | some e => if loadReady s x c e then (loadReturn (Go.start s) x c e).done else .next s
    | none => .next s

/-! ### Stores and atomics -/

/-- Who performs a store entry's writes. -/
def StoreEntry.by_ (s : State) (x : Nat) (c : Crew) (e : StoreEntry) : By :=
  { core := placeCore x, launch := some (s.launchOf c), clock := e.clock, scope := e.scope, vc := e.vc, who := some e.who, team := c.team }

/-- Is an older store or atomic of the core's store path still to perform on a byte of these accesses (R108, R109)? The core's newest held value
of a byte is then the one that comes last in coherence order (DEDUCED, log 79). -/
def State.pathAhead (s : State) (core id n : Nat) (ls : List LaneAcc) : Bool :=
  s.crews.any fun e => placeCore e.1 == core && e.2.storeq.any fun q => q.id < id && q.pending.any fun a => ls.any fun l => l.meets n (accBytes q.ty) a

/-- May a line of a store entry perform now (R108, R109, R115, R116, R119, R296)? -/
def storeReady (s : State) (x : Nat) (c : Crew) (e : StoreEntry) (ln : Nat) : Bool :=
  let n := accBytes e.ty
  let mine := e.lanes.filter fun l => match l.loc with | .home k => lineOf k == ln | _ => false
  e.left.contains ln && !s.undecided e.id && !c.heldBack e.id && !s.passAhead c e.id n mine &&
  (!e.release || s.fenceReady x c e.id (s.scopeOf c e.scope)) && !s.heldLine ln (placeCore x) &&
  !s.pathAhead (placeCore x) e.id n mine &&
  c.loadq.all (fun q => e.id ≤ q.id || q.back || !ordered n (accBytes q.ty) mine q.lanes)

/-- Performs the lanes of an atomic entry one after another (R223): old values by lane, and the bytes stored. -/
def atomicLanes (g : Go s0) (by_ : By) (e : StoreEntry) : List LaneAcc → (List (Nat × Nat) × List (Nat × Byte)) × Go s0
  | [] => (([], []), g)
  | l :: ls =>
    match l.loc with
    | .home k =>
      let ((old, cells), g) := atomicAt g by_ e.ty e.op k l.data l.expect
      let ((olds, rest), g) := atomicLanes g by_ e ls
      (((l.lane, old) :: olds, cells ++ rest), g)
    | _ => atomicLanes g by_ e ls

/-- Takes an exclusive lease for an atomic on a quiet line (R119); its end is left open within 256 to 4096 ns. -/
def exclusive (g : Go s0) (core ln : Nat) (quiet : Bool) : Go s0 :=
  let l := g.st.lineAt ln
  match l.excl with
  | some _ => g
  | none =>
    if quiet then
      g.put (.line ln (some { l with excl := some (core, g.st.now + 256 + Config.freeNat (g.st.salt 18 ln) % 3841) }))
    else g

/-- A line of a store entry performs at its home (R103, R105, R118, R119). -/
def storePerform (g : Go s0) (x : Nat) (c : Crew) (e : StoreEntry) (ln : Nat) : Go s0 :=
  let core := placeCore x
  let by_ := e.by_ g.st x c
  let mine := e.lanes.filter fun l => match l.loc with | .home k => lineOf k == ln | _ => false
  let n := accBytes e.ty
  let quiet := (g.st.lineAt ln).quiet g.st.now core
  let bad := g.st.poisonLanes n c.width mine
  let g := settleLease g ln core
  let (olds, cells, g) :=
    if e.op = .store then
      let cells := (mine.map fun l => match l.loc with | .home k => cellsFrom k (leBytes l.data n) | _ => []).flatten
      let t : Table Byte := cells.foldl (fun (t : Table Byte) (p : Nat × Byte) => Tab.put t p.1 p.2) []
      (([] : List (Nat × Nat)), t, homeStore g by_ t)
    else
      let ((olds, cells), g) := atomicLanes g by_ e mine
      let g := g.put (.line ln (some ((g.st.lineAt ln).afterStore g.st.now core)))
      (olds, cells, exclusive g core ln (quiet && !e.home))
  let g := updateCopies g core cells
  let t := g.st.gwctOf [ln] false
  let left := e.left.filter fun n => n != ln
  let g := modCrew g x fun c => { c with
    storeq := c.storeq.map fun (q : StoreEntry) => if q.id = e.id then
      { q with left := left, gwctMod := max q.gwctMod t.1, gwctFab := max q.gwctFab t.2 } else q
    loadq := if e.ret then c.loadq.map fun (q : LoadEntry) =>
      if q.id = e.id then { q with got := q.got ++ olds, poison := q.poison ||| bad } else q else c.loadq }
  if left.isEmpty then
    let g := if e.op != .store && e.release && !e.ret && !e.home && e.lanes.all (fun l => match l.loc with | .home _ => true | _ => false) then
      acquired g x e.id e.scope else g
    endWaits (if e.ret then noRelaunch g c.team else g) x (.ordAtom e.id) 0 []
  else g

/-- The entries that nothing is outstanding for are freed (R111). -/
def Crew.freeStores (c : Crew) (s : State) : Crew :=
  { c with storeq := c.storeq.filter fun e =>
      !(e.left.isEmpty && (e.acked || !e.near) && !c.sent.any (fun t => t.store == e.id) && !s.inPasses e.id) }

/-- Is a line of the entry still under the exclusive lease of its core (R119)? -/
def StoreEntry.leased (e : StoreEntry) (s : State) (core : Nat) : Bool :=
  e.op != .store && (homeLines e.lanes).any fun ln => match (s.lineAt ln).excl with | some (c, _) => c == core | none => false

/-- An acknowledgement by this module's homes (R106). -/
def nearAck (g : Go s0) (x : Nat) (e : StoreEntry) : Go s0 :=
  let s := g.st
  modCrew g x fun c =>
    ({ c.raise e.gwctMod e.gwctFab false with
       storeq := c.storeq.map fun (q : StoreEntry) => if q.id = e.id then { q with acked := true } else q }).freeStores s

/-- STORE_ACK (R106) of an entry whose lines have performed here. -/
def storeAckNear (x id : Nat) (s : State) : Host.Outcome State Fault Refusal :=
  match s.crew? x with
  | none => .next s
  | some c =>
    match c.storeq.find? fun e => e.id == id with
    | some e =>
      if e.left.isEmpty && e.near && !e.acked && !e.leased s (placeCore x) && !s.undecided id then (nearAck (Go.start s) x e).done
      else .next s
    | none => .next s

/-- LEASE_EXPIRY (R104): a copy past its lease is dead. -/
def execLeaseExpiry (core ln : Nat) (s : State) : Host.Outcome State Fault Refusal :=
  match Tab.find (s.coreOf core).copies ln with
  | some c => if c.expiry ≤ s.now then (modCore (Go.start s) core fun v => { v with copies := Tab.del v.copies ln }).done else .next s
  | none => .next s

/-- EXCLUSIVE_LEASE_END (R119): at its expiry or earlier, when the core returns it. -/
def execExclusiveLeaseEnd (core ln : Nat) (s : State) : Host.Outcome State Fault Refusal :=
  match (s.lineAt ln).excl with
  | some (c, _) => if c = core then (endLease (Go.start s) ln).done else .next s
  | none => .next s

end Sys2Proof.Machine
end

