-- ==== Sys2Proof/Machine/Mem.lean ====
section
/-! DEFINITION. Group 8, loads and stores (R217 to R223, R235 to R241). -/

namespace Sys2Proof.Machine

variable {s0 : State}

/-- The memory operation of a load and of a store (R236). -/
def loadAccess (i : Issue) : MemAccess :=
  { ty := i.ty, op := none, ret := false, scope := extScope i.f.ext, ordered := false, dest := destOf i i.ty, ord := false
    data := fun _ => 0, expect := fun _ => 0 }
def storeAccess (i : Issue) : MemAccess :=
  { ty := i.ty, op := some .store, ret := false, scope := extScope i.f.ext, ordered := i.f.ext.toNat / 8 % 2 == 1
    dest := .none, ord := false, data := storeData i, expect := fun _ => 0 }

/-- `ld` and `st` (R236). -/
def ldBody (i : Issue) (g : Go s0) : Go s0 := virtAccess g i (loadAccess i) (fun l => virtAddr i (evalLane l)) (accLanes i)
def stBody (i : Issue) (g : Go s0) : Go s0 := virtAccess g i (storeAccess i) (fun l => virtAddr i (evalLane l)) (accLanes i)

/-! ### Buffer records -/

/-- A buffer record (R237). -/
structure BufRec where
  base   : Nat
  stride : Nat
  count  : Nat
deriving DecidableEq, Repr

/-- The record in `s(a)` and `s(a + 1)`. -/
def bufRec (i : Issue) : BufRec :=
  match i.f.a with
  | .s n =>
    let w := (i.ca.uni (n.toNat + 1)).toNat
    { base := (i.ca.uni n.toNat).toNat, stride := bitf w 32 32, count := bitf w 0 32 }
  | _ => { base := 0, stride := 0, count := 0 }

/-- The address of a lane's element (R237). -/
def bufAddr (i : Issue) (l : Nat) : Nat := ((bufRec i).base + i.b32 (evalLane l) * (bufRec i).stride) % 2 ^ 64

/-- Is a lane's element outside its buffer (R237)? -/
def bufOut (i : Issue) (k : AccKind) (l : Nat) : Bool := (bufRec i).count ≤ i.b32 (evalLane l) || (bufRec i).stride < k.size

/-- A buffer access of a lane: its check goes before translation (R237). -/
def checkBuf (i : Issue) (k : AccKind) (g : Go s0) (l : Nat) : Except LaneFault Checked × Go s0 :=
  let a := bufAddr i l
  if bufOut i k l then
    (.error { lane := l, cause := if a % k.size ≠ 0 then 4 else 5, addr := a }, g)
  else checkVirt g i k l a

/-- `ldb` and `stb` (R237). -/
def bufAccess (g : Go s0) (i : Issue) (a : MemAccess) : Go s0 :=
  let k := a.kind
  let g0 := lookPages g (placeCore i.x) i.c.ctx k.size (((accLanes i).filter fun l => !bufOut i k l).map (bufAddr i))
  let ((fs, cs), g1) := checkAll g0 (checkBuf i k) (accLanes i)
  if !fs.isEmpty then takeFault g1 i.x i.k (i.spread fs) (if k.write then 1 else 0) 0 false
  else if g1.st.mustWait i a cs (cs.map fun c => c.peers).flatten then g
  else memIssue g1 i a (farKind a) cs (cs.map fun c => { loc := c.loc, size := k.size, read := k.read, write := k.write, op := none })

def ldbBody (i : Issue) (g : Go s0) : Go s0 := bufAccess g i (loadAccess i)
def stbBody (i : Issue) (g : Go s0) : Go s0 := bufAccess g i (storeAccess i)

/-! ### The constant bank -/

/-- The constant bank of the crew's kernel (R238). -/
def State.bank (s : State) (c : Crew) : List Byte :=
  match s.team? c.team with
  | some t => match Tab.find s.objs t.object with
    | some o => o.banks.getD t.kernel []
    | none => []
  | none => []

/-- `ldc` (R238): its value is fixed at load, and returns through the load queue. -/
def ldcBody (i : Issue) (g : Go s0) : Go s0 :=
  let n := i.ty.bytes
  let bank := g.st.bank i.c
  let off := fun l => scratchOff i (evalLane l)
  let fs : List LaneFault := (accLanes i).filterMap fun l =>
    if off l % n ≠ 0 then some { lane := l, cause := 4, addr := off l }
    else if bank.length < off l + n then some { lane := l, cause := 5, addr := off l } else none
  if !fs.isEmpty then takeFault g i.x i.k (i.spread fs) 0 0 false
  else if accLanes i = [] then retire g i {}
  else if !i.c.roomFor true false then g
  else
    let id := g.st.seq
    let a := { loadAccess i with scope := 0 }
    let got := (accLanes i).map fun l => (l, leNat ((bank.drop (off l)).take n))
    let g := modCrew (g.put .seq) i.x fun c =>
      let c := c.enqueue i a id []
      { c with loadq := c.loadq.map fun (q : LoadEntry) => if q.id = id then { q with got := got } else q }
    retire g i {}

/-! ### Scratch -/

/-- Must an access that performs at once wait in issue for an acquire or a fence of the crew (R115, R116)? -/
def orderWaits (s : State) (i : Issue) : Bool := i.c.heldBack s.seq

/-- The same for accesses of `n` bytes to the team's scratch, which also follow their thread's own window stores there (R108, R130). -/
def scratchWaits (s : State) (i : Issue) (n : Nat) (cs : List Checked) : Bool :=
  orderWaits s i || s.windowAhead i.c n (cs.map fun c => (c.lane, c.ea))

/-- Has the issuing split retired its instruction: it is past it, and waits for nothing? -/
def Issue.past (i : Issue) (s : State) : Bool := match (s.crew? i.x).bind fun c => c.split? i.k with
  | some sp => sp.st == .ready && sp.pc != i.sp.pc
  | none => false

/-- Who writes for the issuing crew at once: its clock after the instruction, ordering only the write itself (R72, R133). -/
def writer (s : State) (i : Issue) : By :=
  { core := placeCore i.x, launch := some (s.launchOf i.c), clock := i.sp.clock + 1, scope := 0, vc := []
    who := some (i.c.inst, s.seq), team := i.c.team }

/-- The checked scratch accesses of an instruction: faults, or the offsets by lane. -/
def scratchChecks (s : State) (i : Issue) (k : AccKind) (lanes : List Nat) : List LaneFault × List Checked :=
  lanes.foldr (fun l (a : List LaneFault × List Checked) =>
    match checkScratch s i k l (scratchOff i (evalLane l)) with
    | .error e => (e :: a.1, a.2)
    | .ok c => (a.1, c :: a.2)) ([], [])

/-- A long instruction that opened a window keeps there the team's scratch and tiles as it found them (R153). -/
def noteTeam (g : Go s0) (i : Issue) (was : Option Team) : Go s0 :=
  match was with
  | some t =>
    if i.f.hint.la = 0 then g
    else modSplit g i.x i.k fun sp =>
      { sp with windows := sp.windows.dropLast ++ (sp.windows.getLast?.map fun w => { w with scr := t.scratch, tiles := t.tiles }).toList }
  | none => g

/-- `lds` (R239). -/
def ldsBody (i : Issue) (g : Go s0) : Go s0 :=
  let k : AccKind := { size := i.ty.bytes, read := true, write := false, store := false, ord := false, op := none }
  let (fs, cs) := scratchChecks g.st i k i.lanes
  if !fs.isEmpty then takeFault g i.x i.k fs 0 0 false
  else if scratchWaits g.st i k.size cs then g
  else
    match g.st.team? i.c.team with
    | none => g
    | some t =>
      let o := i.putTy i.ty fun l => scratchVal i (i.scratchAt l) t
      let g := trackNow g i false (cs.map fun c => { loc := c.loc, size := k.size, read := true, write := false, op := none })
      noteTeam (retire g i o) i (some t)

/-- A scratch write of a crew that performs now forms a completion time pair like any other (R105, R106): no lease stands on scratch. -/
def scratchPair (g : Go s0) (x : Nat) : Go s0 := modCrew g x fun c => c.raise g.st.now g.st.now false

/-- `sts` (R223, R239). -/
def stsBody (i : Issue) (g : Go s0) : Go s0 :=
  let k : AccKind := { size := i.ty.bytes, read := false, write := true, store := true, ord := false, op := none }
  let (fs, cs) := scratchChecks g.st i k (accLanes i)
  if !fs.isEmpty then takeFault g i.x i.k (i.spread fs) 1 0 false
  else if scratchWaits g.st i k.size cs then g
  else
    let by_ := writer g.st i
    let g := trackNow g i false (cs.map fun c => { loc := c.loc, size := k.size, read := false, write := true, op := none })
    let was := g.st.team? i.c.team
    let g := g.each cs fun c g => scratchStore g i.c.team by_ (cellsFrom c.ea (leBytes (storeData i c.lane) k.size))
    let g := if cs.isEmpty then g else scratchPair g i.x
    noteTeam (retire g i {}) i was

/-! ### Prefetch and `qwait` -/

/-- `pref` (R240): each line of a lane that passes the checks is asked for. -/
def prefBody (i : Issue) (g : Go s0) : Go s0 :=
  let k : AccKind := { size := 1, read := true, write := false, store := false, ord := true, exempt := true, op := none }
  let g := lookPages g (placeCore i.x) i.c.ctx 1 (i.lanes.map (virtAddr i))
  let ((_, cs), g) := checkAll g (fun g l => checkVirt g i k l (virtAddr i l)) i.lanes
  let lns := homeLines (cs.map fun c => { lane := c.lane, loc := c.loc, data := 0, expect := 0 })
  let g := if i.f.ext.toNat % 4 = 0 && i.f.hint.cc ≠ 3 then (readLines g (placeCore i.x) i.c.minGrant true lns).2 else g
  retire g i {}

/-- `qwait` (R112, R241). -/
def qwaitBody (i : Issue) (g : Go s0) : Go s0 :=
  if i.run = 0 then retire g i {}
  else
    let n := match i.f.a with | .i v => v.toNat | _ => 0
    if n < i.c.loadq.length then park g i (.qwait n)
    else
      let bad := (i.c.covered n).filter fun u => u.poison != 0
      if !bad.isEmpty then qwaitFault g i.x i.k i.c bad
      else
        let cov := i.c.covered n
        modCrew (retire g i {}) i.x fun c => { c with uncov := c.uncov.filter fun u => !cov.any fun v => v.id == u.id }

def execLd (f : Fields) (s : State) : Host.Outcome State Fault Refusal := crewStep .ld f s ldBody
def execSt (f : Fields) (s : State) : Host.Outcome State Fault Refusal := crewStep .st f s stBody
def execLds (f : Fields) (s : State) : Host.Outcome State Fault Refusal := crewStep .lds f s ldsBody
def execSts (f : Fields) (s : State) : Host.Outcome State Fault Refusal := crewStep .sts f s stsBody
def execLdb (f : Fields) (s : State) : Host.Outcome State Fault Refusal := crewStep .ldb f s ldbBody
def execStb (f : Fields) (s : State) : Host.Outcome State Fault Refusal := crewStep .stb f s stbBody
def execLdc (f : Fields) (s : State) : Host.Outcome State Fault Refusal := crewStep .ldc f s ldcBody
def execPref (f : Fields) (s : State) : Host.Outcome State Fault Refusal := crewStep .pref f s prefBody
def execQwait (f : Fields) (s : State) : Host.Outcome State Fault Refusal := crewStep .qwait f s qwaitBody

end Sys2Proof.Machine
end

