-- ==== Sys2Proof/Machine/Atomics.lean ====
section
/-! DEFINITION. Group 9, atomics (R242 to R247), and the release of an `.ord` operation (R71). -/

namespace Sys2Proof.Machine

variable {s0 : State}

/-- The operation that EXT[4:3] names under a type's set (R243). -/
def opOf (t : Ty) (n : Nat) : MemOp :=
  match t.kind with
  | .bits => (match n with | 0 => .and | 1 => .or | 2 => .xor | _ => .exch)
  | _ => (match n with | 0 => .add | 1 => .min | 2 => .max | _ => .exch)

/-- The memory operation of an atomic (R244 to R246). F is the ordering bit of the order-sensitive forms. -/
def atomAccess (i : Issue) (op : MemOp) : MemAccess :=
  { ty := i.ty, op := some op, ret := i.f.d.cls != .none, scope := extScope i.f.ext, ordered := false, dest := destOf i i.ty
    ord := i.f.f, data := atomData i, expect := fun l => i.dv i.ty true (evalLane l) }

/-- Marks a team that retires an atomic with return (R232). -/
def atomMark (g : Go s0) (i : Issue) : Go s0 :=
  if i.f.d.cls != .none && i.run != 0 then noRelaunch g i.c.team else g

/-- An atomic at virtual addresses (R244): a FABRIC-WINDOW page refuses an `.ord` form (R120). One that waits for its passes or for its
performance marks its team when it retires. -/
def atomPerform (op : MemOp) (i : Issue) (g : Go s0) : Go s0 :=
  let g' := virtAccess g i (atomAccess i op) (fun l => virtAddrA i (evalLane l)) (accLanes i)
  if i.past g'.st then atomMark g' i else g'

/-- `atom`, `atomf`, `red` and `cas` once they may perform. -/
def atomBody (i : Issue) (g : Go s0) : Go s0 := atomPerform (opOf i.ty (extHigh i.f.ext)) i g
def atomfBody (i : Issue) (g : Go s0) : Go s0 := atomPerform (opOf i.ty (extHigh i.f.ext)) i g
def redBody (i : Issue) (g : Go s0) : Go s0 := atomPerform (opOf i.ty (extHigh i.f.ext)) i g
def casBody (i : Issue) (g : Go s0) : Go s0 := atomPerform .cas i g

/-- Performs scratch atomics lane by lane (R223, R244): the old values. -/
def atomsLanes (i : Issue) (by_ : By) : List Checked → Go s0 → List (Nat × Nat) × Go s0
  | [], g => ([], g)
  | c :: cs, g =>
    match g.st.team? i.c.team with
    | none => ([], g)
    | some t =>
      let r := atomsLane i t c.lane c.ea
      let g := if r.2.isEmpty then g else scratchStore g i.c.team by_ r.2
      let (olds, g) := atomsLanes i by_ cs g
      ((c.lane, r.1) :: olds, g)

/-- `atoms` (R110, R243, R244): with return it counts as a read and a write (R247). -/
def atomsBody (i : Issue) (g : Go s0) : Go s0 :=
  let ret := i.f.d.cls != .none
  let k : AccKind := { size := i.ty.bytes, read := ret, write := true, store := false, ord := false, op := some (opOfScratch (i.f.ext.toNat % 8), i.ty) }
  let i' := { i with f := { i.f with b := .none } }
  let (fs, cs) := scratchChecks g.st i' k (accLanes i)
  if !fs.isEmpty then takeFault g i.x i.k (i.spread fs) 2 0 false
  else if scratchWaits g.st i k.size cs then g
  else
    let by_ := writer g.st i
    let g := trackNow g i false (cs.map fun c => { loc := c.loc, size := k.size, read := ret, write := true, op := k.op })
    let was := g.st.team? i.c.team
    let (olds, g) := atomsLanes i by_ cs g
    let g := if cs.isEmpty then g else scratchPair g i.x
    noteTeam (retire g i (i.putTy i.ty (oldIn olds))) i was

def execAtom (f : Fields) (s : State) : Host.Outcome State Fault Refusal :=
  crewStep .atom f s fun i g => ordGate g i (atomBody i)
def execAtomf (f : Fields) (s : State) : Host.Outcome State Fault Refusal :=
  crewStep .atomf f s fun i g => ordGate g i (atomfBody i)
def execCas (f : Fields) (s : State) : Host.Outcome State Fault Refusal :=
  crewStep .cas f s fun i g => ordGate g i (casBody i)
def execRed (f : Fields) (s : State) : Host.Outcome State Fault Refusal :=
  crewStep .red f s fun i g => ordGate g i (redBody i)
def execAtoms (f : Fields) (s : State) : Host.Outcome State Fault Refusal := crewStep .atoms f s atomsBody

/-- What an `.ord` operation does once no split is ahead (R71, R209, R246). -/
def ordBody (m : Mn) (i : Issue) (g : Go s0) : Go s0 :=
  match m with
  | .redux => reduxBody i g
  | .scan => scanBody i g
  | .atom => atomBody i g
  | .atomf => atomfBody i g
  | .cas => casBody i g
  | .red => redBody i g
  | _ => g

/-- Takes up a split that waits in an `.ord` operation. -/
def ordRelease (g : Go s0) (x k : Nat) (c : Crew) (sp : Split) (m : Mn) (f : Fields) : Go s0 :=
  let sp := { sp with st := .ready, wait := .none }
  let c := c.setSplit k sp
  let g := g.put (.crew x (some c))
  let g := ordBody m (issueOf g.st m f x k c sp) g
  modCrew g x fun c => if c.st = .stopped then c.stop else c

/-- ORD_RELEASE (R71): the lowest waiting split performs, in a stopped crew too (R67, R380). -/
def execOrdRelease (x k : Nat) (s : State) : Host.Outcome State Fault Refusal :=
  match s.crew? x with
  | none => .next s
  | some c =>
    match c.split? k with
    | none => .next s
    | some sp =>
      match sp.wait with
      | .ord m f =>
        if s.ordFirst k c sp then (ordRelease (Go.start s) x k c sp m f).done else .next s
      | _ => .next s

end Sys2Proof.Machine
end

