-- ==== Sys2Proof/Machine/Hash.lean ====
section
/-! DEFINITION. SHA-256 (FIPS 180-4), which R443, R475 and R477 name, and the CRC-32 of R453. -/

namespace Sys2Proof.Machine

/-- The largest number below `m + 2 ^ n` that keeps `ok`, found bit by bit from `m`, which keeps it. -/
def topNat (ok : Nat → Bool) (m : Nat) : Nat → Nat
  | 0 => m
  | n + 1 => topNat ok (if ok (m + 2 ^ n) then m + 2 ^ n else m) n

/-- The first 32 bits after the binary point of the `d`-th root of `p`: the low half of the integer root of `p * 2 ^ (32 * d)`. -/
def rootWord (d p : Nat) : BitVec 32 := BitVec.ofNat 32 (topNat (fun x => x ^ d ≤ p * 2 ^ (32 * d)) 0 38)

/-- The primes below `n`, in order. -/
def primesBelow (n : Nat) : List Nat :=
  ((List.range n).drop 2).filter fun p => (List.range p).all fun q => q < 2 || p % q ≠ 0

/-- `n` bytes of a number, the most significant first. -/
def beBytes (x : Nat) : Nat → List Byte
  | 0 => []
  | n + 1 => BitVec.ofNat 8 (x / 256 ^ n) :: beBytes x n

/-- The number that bytes stand for, the most significant first. -/
def beNat (bs : List Byte) : Nat := bs.foldl (fun a b => 256 * a + b.toNat) 0

/-- The working variables of SHA-256. -/
structure HashVars where
  a : BitVec 32
  b : BitVec 32
  c : BitVec 32
  d : BitVec 32
  e : BitVec 32
  f : BitVec 32
  g : BitVec 32
  h : BitVec 32
deriving DecidableEq, Repr

/-- The initial hash value: the square roots of the first eight primes. -/
def HashVars.init : HashVars :=
  let r := fun k => rootWord 2 ((primesBelow 20).getD k 0)
  ⟨r 0, r 1, r 2, r 3, r 4, r 5, r 6, r 7⟩

/-- Three rotations of a word combined. -/
def turn3 (x : BitVec 32) (i j k : Nat) : BitVec 32 := x.rotateRight i ^^^ (x.rotateRight j ^^^ x.rotateRight k)

/-- A round, `m` the sum of its schedule word and its constant: `b` picks between `c` and `a` where they differ, `e` between `f`
and `g`. -/
def HashVars.round (v : HashVars) (m : BitVec 32) : HashVars :=
  let pick := v.g ^^^ (v.e &&& (v.f ^^^ v.g))
  let most := v.b ^^^ ((v.a ^^^ v.b) &&& (v.b ^^^ v.c))
  let t := m + v.h + pick + turn3 v.e 6 11 25
  { a := t + most + turn3 v.a 2 13 22, b := v.a, c := v.b, d := v.c, e := v.d + t, f := v.e, g := v.f, h := v.g }

/-- The sum of two sets of variables. -/
def HashVars.add (v w : HashVars) : HashVars :=
  ⟨v.a + w.a, v.b + w.b, v.c + w.c, v.d + w.d, v.e + w.e, v.f + w.f, v.g + w.g, v.h + w.h⟩

/-- One round for each constant. `win` holds the sixteen schedule words from the current one on; the word that enters it comes from
those 0, 1, 9 and 14 places after the current one. -/
def hashRounds (win : List (BitVec 32)) (v : HashVars) : List (BitVec 32) → HashVars
  | [] => v
  | k :: ks =>
    match win with
    | [] => v
    | x :: rest =>
      let early := rest.getD 0 0
      let late := rest.getD 13 0
      let new := x + rest.getD 8 0 + (early.rotateRight 7 ^^^ early.rotateRight 18 ^^^ early >>> 3)
        + (late.rotateRight 17 ^^^ late.rotateRight 19 ^^^ late >>> 10)
      hashRounds (rest ++ [new]) (HashVars.round v (k + x)) ks

/-- The padded bytes, 64 at a time; the constants are the cube roots of the first 64 primes. -/
def hashBlocks (ks : List (BitVec 32)) (v : HashVars) (bs : List Byte) : Nat → HashVars
  | 0 => v
  | n + 1 =>
    let win := (List.range 16).map fun k => BitVec.ofNat 32 (beNat ((bs.drop (4 * k)).take 4))
    hashBlocks ks (HashVars.add v (hashRounds win v ks)) (bs.drop 64) n

/-- The SHA-256 hash of bytes; byte k of the 32-byte hash is bits [8k + 7 : 8k]. -/
def sha256 (bs : List Byte) : BitVec 256 :=
  let n := bs.length
  let padded := bs ++ (0x80 : Byte) :: List.replicate ((119 - n % 64) % 64) 0 ++ beBytes (8 * n) 8
  let v := hashBlocks ((primesBelow 312).map (rootWord 3)) HashVars.init padded (padded.length / 64)
  let out := ([v.a, v.b, v.c, v.d, v.e, v.f, v.g, v.h].map fun w => beBytes w.toNat 4).flatten
  BitVec.ofNat 256 (out.foldr (fun b a => 256 * a + b.toNat) 0)

/-- One byte of the CRC-32 of IEEE 802.3, bit by bit. -/
def crcBits (c : BitVec 32) : Nat → BitVec 32
  | 0 => c
  | n + 1 => crcBits (if c.getLsbD 0 then (c >>> 1) ^^^ 0xEDB88320 else c >>> 1) n

/-- The CRC-32 of bytes (R453). -/
def crc32 (bs : List Byte) : BitVec 32 :=
  ~~~(bs.foldl (fun c b => crcBits (c ^^^ b.setWidth 32) 8) (0xFFFFFFFF : BitVec 32))

end Sys2Proof.Machine
end

