-- ==== Sys2Proof/Machine/Hss.lean ====
section
/-! DEFINITION. The HSS signatures that R473 names: two levels, LMS_SHA256_M32_H20 over LMS_SHA256_M32_H15, LMOTS_SHA256_N32_W8 at both; their
layout and arithmetic are those of RFC 8554 (PRESUMED, log 82). -/

namespace Sys2Proof.Machine

/-- SHA-256 as bytes. -/
def digest (bs : List Byte) : List Byte := leBytes (sha256 bs).toNat 32

/-! ### One-time signatures -/

/-- `n` steps, from step `j` on, of the chain of element `i` of one-time key `q` in the tree named `id`. -/
def otsChain (id : List Byte) (q i : Nat) : Nat → Nat → List Byte → List Byte
  | _, 0, t => t
  | j, n + 1, t => otsChain id q i (j + 1) n (digest (id ++ beBytes q 4 ++ beBytes i 2 ++ beBytes j 1 ++ t))

/-- The 34 digits that a one-time signature signs: the salted hash of the message and its checksum. -/
def otsDigits (id : List Byte) (q : Nat) (salt msg : List Byte) : List Nat :=
  let h := (digest (id ++ beBytes q 4 ++ beBytes 0x8181 2 ++ salt ++ msg)).map BitVec.toNat
  let sum := (h.map fun x => 255 - x).sum
  h ++ [sum / 256, sum % 256]

/-- The public hash of a one-time key from the ends of its chains. -/
def otsHash (id : List Byte) (q : Nat) (ends : List (List Byte)) : List Byte :=
  digest (id ++ beBytes q 4 ++ beBytes 0x8080 2 ++ ends.flatten)

/-- The public hash to which a one-time signature of a message leads. -/
def otsCandidate (id : List Byte) (q : Nat) (msg sig : List Byte) : List Byte :=
  otsHash id q ((otsDigits id q ((sig.drop 4).take 32) msg).zipIdx.map fun d =>
    otsChain id q d.2 d.1 (255 - d.1) ((sig.drop (36 + 32 * d.2)).take 32))

/-! ### Trees -/

/-- A leaf and an inner node of a tree of height `h`. -/
def lmsLeaf (id : List Byte) (h q : Nat) (key : List Byte) : List Byte := digest (id ++ beBytes (2 ^ h + q) 4 ++ beBytes 0x8282 2 ++ key)
def lmsInner (id : List Byte) (r : Nat) (left right : List Byte) : List Byte := digest (id ++ beBytes r 4 ++ beBytes 0x8383 2 ++ left ++ right)

/-- The node `n` levels above node `r`, whose hash is `t`, by the hashes of the siblings on the way. -/
def lmsClimb (id : List Byte) : Nat → Nat → List Byte → List Byte → List Byte
  | 0, _, _, t => t
  | n + 1, r, path, t =>
    lmsClimb id n (r / 2) (path.drop 32) (if r % 2 = 1 then lmsInner id (r / 2) (path.take 32) t else lmsInner id (r / 2) t (path.take 32))

/-- Does a signature of one tree verify: public key, message, signature? `ty` is the tree's type code. -/
def lmsVerify (h ty : Nat) (pub msg sig : List Byte) : Bool :=
  let q := beNat (sig.take 4)
  let id := (pub.drop 8).take 16
  pub.length == 56 && sig.length == 1132 + 32 * h && beNat (pub.take 4) == ty && beNat ((pub.drop 4).take 4) == 4
    && beNat ((sig.drop 4).take 4) == 4 && beNat ((sig.drop 1128).take 4) == ty && q < 2 ^ h
    && lmsClimb id h (2 ^ h + q) (sig.drop 1132) (lmsLeaf id h q (otsCandidate id q msg ((sig.drop 4).take 1124))) == pub.drop 24

/-- Does an HSS signature verify under a 60-byte public key (R473)? -/
def hssVerify (pub msg sig : List Byte) : Bool :=
  let lower := (sig.drop 1776).take 56
  pub.length == 60 && sig.length == 3444 && beNat (pub.take 4) == 2 && beNat (sig.take 4) == 1
    && lmsVerify 20 8 (pub.drop 4) lower ((sig.drop 4).take 1772) && lmsVerify 15 7 lower msg (sig.drop 1832)

/-! ### The module's own keys: 1 identity, 2 installation -/

/-- A tree of a key: 0 is the upper one, `1 + q` the one that its leaf `q` signs. Its name, its secrets and the salts are private values. -/
def hssId (key tree : Nat) : List Byte := leBytes (Config.hssName key tree).toNat 16
def hssSecret (key tree q i : Nat) : List Byte := leBytes (Config.hssSecret key tree q i).toNat 32
def hssSalt (key tree q : Nat) : List Byte := leBytes (Config.hssSalt key tree q).toNat 32

/-- The public hash of a one-time key, and its signature of a message. -/
def otsPublic (key tree q : Nat) : List Byte :=
  otsHash (hssId key tree) q ((List.range 34).map fun i => otsChain (hssId key tree) q i 0 255 (hssSecret key tree q i))
def otsSign (key tree q : Nat) (msg : List Byte) : List Byte :=
  beBytes 4 4 ++ (hssSalt key tree q ++ ((otsDigits (hssId key tree) q (hssSalt key tree q) msg).zipIdx.map fun d =>
    otsChain (hssId key tree) q d.2 0 d.1 (hssSecret key tree q d.2)).flatten)

/-- Node `r` of a tree of height `h`, `n` levels above the leaves. -/
def lmsNode (key tree h : Nat) : Nat → Nat → List Byte
  | 0, r => lmsLeaf (hssId key tree) h (r - 2 ^ h) (otsPublic key tree (r - 2 ^ h))
  | n + 1, r => lmsInner (hssId key tree) r (lmsNode key tree h n (2 * r)) (lmsNode key tree h n (2 * r + 1))

/-- The siblings on the way of `n` levels up from node `r`, which lies `j` levels above the leaves. -/
def lmsPath (key tree h : Nat) : Nat → Nat → Nat → List Byte
  | _, _, 0 => []
  | j, r, n + 1 => lmsNode key tree h j (if r % 2 = 1 then r - 1 else r + 1) ++ lmsPath key tree h (j + 1) (r / 2) n

/-- The public key of a tree, and its signature with leaf `q`. -/
def lmsPublic (key tree h ty : Nat) : List Byte := beBytes ty 4 ++ (beBytes 4 4 ++ (hssId key tree ++ lmsNode key tree h h 1))
def lmsSign (key tree h ty q : Nat) (msg : List Byte) : List Byte :=
  beBytes q 4 ++ (otsSign key tree q msg ++ (beBytes ty 4 ++ lmsPath key tree h 0 (2 ^ h + q) h))

/-- The public key of a key of the module, and its signature with leaf `leaf` (R473, R474). -/
def hssPublic (key : Nat) : List Byte := beBytes 2 4 ++ lmsPublic key 0 20 8
def hssSign (key leaf : Nat) (msg : List Byte) : List Byte :=
  let q := leaf / 2 ^ 15
  let lower := lmsPublic key (1 + q) 15 7
  beBytes 1 4 ++ (lmsSign key 0 20 8 q lower ++ (lower ++ lmsSign key (1 + q) 15 7 (leaf % 2 ^ 15) msg))

end Sys2Proof.Machine
end

