-- ==== Sys2Proof/Machine/Text.lean ====
section
/-! DEFINITION. Assembly text (R157 to R160): characters, words, names, the parts of a line and its hints. -/

namespace Sys2Proof.Machine

open Sys2Proof

/-! ### Characters and words (R157, R158) -/

/-- A piece of text, by its bytes. -/
abbrev Tok := List Nat

/-- The bytes of a word. -/
def tok (s : String) : Tok := s.toList.map Char.toNat

def isBlank (c : Nat) : Bool := c == 32 || c == 9 || c == 13
def isDigit (c : Nat) : Bool := 48 ≤ c && c ≤ 57
def isLetter (c : Nat) : Bool := (65 ≤ c && c ≤ 90) || (97 ≤ c && c ≤ 122) || c == 95

/-- The parts of a text between the characters with a property. -/
def splitAt (p : Nat → Bool) : Tok → List Tok
  | [] => [[]]
  | c :: cs => match splitAt p cs with
    | [] => [[c]]
    | t :: ts => if p c then [] :: t :: ts else (c :: t) :: ts

/-- The words of a text. -/
def wordsOf (t : Tok) : List Tok := (splitAt isBlank t).filter fun w => !w.isEmpty

/-- A text without the blanks at its ends. -/
def trim (t : Tok) : Tok := ((t.dropWhile isBlank).reverse.dropWhile isBlank).reverse

/-- A line without its comment. -/
def uncomment : Tok → Tok
  | [] => []
  | 59 :: _ => []
  | 47 :: 47 :: _ => []
  | c :: cs => c :: uncomment cs

/-- A label or symbol name. -/
def isName : Tok → Bool
  | [] => false
  | c :: cs => isLetter c && cs.all fun d => isLetter d || isDigit d

/-- A number in decimal digits. -/
def decimal (t : Tok) : Option Nat :=
  if t.isEmpty || !t.all isDigit then none else some (t.foldl (fun a d => 10 * a + (d - 48)) 0)

/-- The value of a hexadecimal digit. -/
def hexDigit (c : Nat) : Option Nat :=
  if isDigit c then some (c - 48) else if 97 ≤ c && c ≤ 102 then some (c - 87) else if 65 ≤ c && c ≤ 70 then some (c - 55) else none

/-- A literal integer without a sign; none where the text is none, a constant expression too. -/
def literal (t : Tok) : Option Nat :=
  match t with
  | 48 :: 120 :: ds =>
    let hs := ds.filter fun c => c != 95
    if hs.isEmpty || hs.any fun c => (hexDigit c).isNone then none else some (hs.foldl (fun a c => 16 * a + (hexDigit c).getD 0) 0)
  | _ => decimal t

/-! ### The names of the text (R149, R158, R161, R319) -/

/-- The mnemonics of each group of R149, and the instructions that they name; a suffix tells `setfmt.rm`, `mget.try`, `clwait.test` and the
forms of `tinv` apart. -/
def groupNames : List (Nat × String × List Mn) :=
  [ (0, "iadd isub imul imulhi imad imin imax iabs ineg and or xor not shl shr sar rot popc clz brev bfx bfi lea",
      [.iadd, .isub, .imul, .imulhi, .imad, .imin, .imax, .iabs, .ineg, .and, .or, .xor, .not, .shl, .shr, .sar, .rot, .popc, .clz, .brev, .bfx, .bfi, .lea]),
    (1, "icmp sel pand por pxor pnot pmov", [.icmp, .sel, .pand, .por, .pxor, .pnot, .pmov]),
    (2, "fadd fsub fmul fma fmin fmax fcmp fdiv fsqrt frcp frsq fexp2 flog2 fsin fcos frnd fclass",
      [.fadd, .fsub, .fmul, .fma, .fmin, .fmax, .fcmp, .fdiv, .fsqrt, .frcp, .frsq, .fexp2, .flog2, .fsin, .fcos, .frnd, .fclass]),
    (3, "dadd dsub dmul dfma dmin dmax dcmp ddiv dsqrt", [.dadd, .dsub, .dmul, .dfma, .dmin, .dmax, .dcmp, .ddiv, .dsqrt]),
    (4, "cvt pack2 unpack2 bfpack bfunpack bfexp", [.cvt, .pack2, .unpack2, .bfpack, .bfunpack, .bfexp]),
    (5, "shfl vote bcast redux scan match", [.shfl, .vote, .bcast, .redux, .scan, .matchv]),
    (6, "mov movw rdsr wrsr setfmt getfmt nop", [.mov, .movw, .rdsr, .wrsr, .setfmt, .getfmt, .nop]),
    (7, "bra brx call callx ret exit spawn yield brk trap", [.bra, .brx, .call, .callx, .ret, .exit, .spawn, .yield, .brk, .trap]),
    (8, "ld st lds sts ldb stb ldc pref qwait", [.ld, .st, .lds, .sts, .ldb, .stb, .ldc, .pref, .qwait]),
    (9, "atom atomf cas red atoms", [.atom, .atomf, .cas, .red, .atoms]),
    (10, "fence bar knotinit knotarr knotwait knotfree cwait flagsig flagwait",
      [.fence, .bar, .knotinit, .knotarr, .knotwait, .knotfree, .cwait, .flagsig, .flagwait]),
    (11, "copy copyg batch bwait kick", [.copy, .copyg, .batch, .bwait, .kick]),
    (12, "setlay mma mmaw mld mst mzero mget mrel lstat", [.setlay, .mma, .mmaw, .mld, .mst, .mzero, .mget, .mrel, .lstat]),
    (13, "rld rst ratom rfence gld gst gdetach claim clwait announce wstart",
      [.rld, .rst, .ratom, .rfence, .gld, .gst, .gdetach, .claim, .clwait, .announce, .wstart]),
    (14, "rdpr wrpr eret tinv csave crest halt", [.rdpr, .wrpr, .eret, .tinvPage, .csave, .crest, .halt]) ]

/-- The words that a string lists. -/
def listed (s : String) : List Tok := wordsOf (tok s)

/-- The group of a crew mnemonic. -/
def groupOf (t : Tok) : Option Nat := (groupNames.find? fun g => (listed g.2.1).contains t).map Prod.fst

/-- The instruction that a mnemonic names. -/
def mnNamed (t : Tok) : Option Mn :=
  groupNames.findSome? fun g => ((listed g.2.1).zip g.2.2).findSome? fun e => if e.1 == t then some e.2 else none

def winchNames : List Tok :=
  listed "xmit store comb combf fwd waitf sigf loop bra brc addh subh movh lih cmph ldh setc yld halt nopw"

/-- A letter and a number below a bound. -/
def isReg (c n : Nat) (t : Tok) : Bool :=
  match t with
  | d :: ds => d == c && (match decimal ds with | some k => k < n && (ds.length == 1 || ds.head? != some 48) | none => false)
  | [] => false

/-- A register name of crew text, or of winch text. -/
def isRegister (winch : Bool) (t : Tok) : Bool :=
  if winch then isReg 104 16 t else isReg 118 256 t || isReg 115 64 t || isReg 112 8 t || isReg 109 16 t || isReg 76 4 t

/-- A name that is taken in the text it stands in (R158). -/
def isTaken (winch : Bool) (t : Tok) : Bool := isRegister winch t || if winch then winchNames.contains t else (groupOf t).isSome

/-! ### A line (R157) -/

/-- A line taken apart: its labels, whether what stands before the statement is well formed, the statement's first word and the rest. -/
structure TextLine where
  labels : List Tok
  ok     : Bool
  guard  : Bool
  head   : Tok
  rest   : Tok
deriving DecidableEq, Repr

/-- Is a word a guard: `?` with `^` and `!` where they stand, and a predicate? -/
def isGuard (t : Tok) : Bool :=
  match t with
  | 63 :: r =>
    let r := match r with | 94 :: q => q | q => q
    isReg 112 8 (match r with | 33 :: q => q | q => q)
  | _ => false

def readLine (line : Tok) : TextLine :=
  let parts := splitAt (fun c => c == 58) (uncomment line)
  let labels := parts.dropLast.map trim
  let body := trim (parts.getLastD [])
  let guard := body.head? == some 63
  let g := body.takeWhile fun c => !isBlank c
  let stmt := if guard then (body.drop g.length).dropWhile isBlank else body
  let head := stmt.takeWhile fun c => !isBlank c
  { labels := labels, ok := labels.all isName && (!guard || (isGuard g && !head.isEmpty && head.head? != some 46)), guard := guard
    head := head, rest := trim (stmt.drop head.length) }

/-- The mnemonic of a statement, without its suffixes. -/
def TextLine.base (l : TextLine) : Tok := l.head.takeWhile fun c => c != 46

/-- The suffixes of a statement. -/
def TextLine.suffixes (l : TextLine) : List Tok := (splitAt (fun c => c == 46) l.head).drop 1

/-- Is a word of a statement a hint or what stands for one (R160): `!` and no predicate? -/
def isHintWord (w : Tok) : Bool := w.head? == some 33 && !isReg 112 8 ((splitAt (fun c => c == 44) (w.drop 1)).headD [])

/-- The words of a statement from its first hint on. -/
def TextLine.hints (l : TextLine) : List Tok := (wordsOf l.rest).dropWhile fun w => !isHintWord w

/-- The operands of a directive or statement. -/
def TextLine.args (l : TextLine) : List Tok :=
  match (wordsOf l.rest).takeWhile fun w => !isHintWord w with
  | [] => []
  | ws => (splitAt (fun c => c == 44) (List.intercalate [32] ws)).map trim

/-- Is a hint one of R160's? -/
def isHint (w : Tok) : Bool :=
  (listed "!ra !rb !yield !cc=normal !cc=stream !cc=keep !cc=noalloc").contains w
    || (w.take 4 == tok "!la=" && match decimal (w.drop 4) with | some n => n < 16 | none => false)

end Sys2Proof.Machine
end

