-- ==== Sys2Proof/Machine/Assemble.lean ====
section
/-! DEFINITION. The statements of assembly text (R157 to R163, R217, R218, R319): the fields that a statement's suffixes and operands fill, and
the statements that no instruction answers. What the text alone does not fix, such as the offset of a label, is taken as any value (log 67). -/

namespace Sys2Proof.Machine

open Sys2Proof

/-! ### Constant expressions (R158) -/

/-- The symbols of a file: each with its value, none where only the translation fixes it (a label). -/
abbrev Symbols := List (Tok × Option Int)

/-- An atom or operator of an expression. -/
inductive ETok where
  | num (n : Nat)
  | sym (t : Tok)
  | op (c : Nat)
deriving DecidableEq, Repr

/-- Is a character part of a number or name? -/
def isWordChar (c : Nat) : Bool := isLetter c || isDigit c

/-- The atoms and operators of an expression; `<<` and `>>` stand as `<` and `>`. -/
def lexExpr : Nat → Tok → Option (List ETok)
  | _, [] => some []
  | 0, _ => none
  | n + 1, c :: cs =>
    if isBlank c then lexExpr n cs
    else if isWordChar c then
      let w := (c :: cs).takeWhile isWordChar
      let rest := lexExpr n ((c :: cs).drop w.length)
      if isDigit c then (literal w).bind fun v => rest.map (.num v :: ·) else rest.map (.sym w :: ·)
    else if c == 60 || c == 62 then
      if cs.head? == some c then (lexExpr n (cs.drop 1)).map (.op c :: ·) else none
    else if (tok "+-*&|()").contains c then (lexExpr n cs).map (.op c :: ·)
    else none

/-- 64-bit two's complement. -/
def wrap64 (v : Int) : Int := (BitVec.ofInt 64 v).toInt

/-- The last operator of a class that stands between two operands outside parentheses: what is before it, it, and what is after. `r` is the
rest in reverse, `d` the parentheses open, `right` what was passed. -/
def lastOp (cls : Tok) : List ETok → Nat → List ETok → Option (List ETok × Nat × List ETok)
  | [], _, _ => none
  | t :: r, d, right =>
    match t with
    | .op 41 => lastOp cls r (d + 1) (t :: right)
    | .op 40 => lastOp cls r (d - 1) (t :: right)
    | .op c =>
      let operand := match r.head? with | some (.num _) | some (.sym _) | some (.op 41) => true | _ => false
      if d = 0 && cls.contains c && operand then some (r.reverse, c, right) else lastOp cls r d (t :: right)
    | _ => lastOp cls r d (t :: right)

/-- The value of an operator's operands; none where the count of a shift is out of range (R158). -/
def applyOp (c : Nat) (a b : Option Int) : Option (Option Int) :=
  match a, b with
  | some x, some y =>
    let u (v : Int) := (BitVec.ofInt 64 v).toNat
    if c == 43 then some (some (wrap64 (x + y)))
    else if c == 45 then some (some (wrap64 (x - y)))
    else if c == 42 then some (some (wrap64 (x * y)))
    else if c == 38 then some (some (wrap64 (u x &&& u y : Nat)))
    else if c == 124 then some (some (wrap64 (u x ||| u y : Nat)))
    else if y < 0 || 63 < y then none
    else if c == 60 then some (some (wrap64 (x * 2 ^ y.toNat)))
    else some (some (wrap64 x / 2 ^ y.toNat))
  | _, some y => if (c == 60 || c == 62) && (y < 0 || 63 < y) then none else some none
  | _, none => some none

/-- The operators from the weakest to the strongest (DESIGN CHOICE, log 67: R158 gives no precedence): `|`, `&`, `<< >>`, `+ -`, `*`. -/
def opClasses : List Tok := [[124], [38], [60, 62], [43, 45], [42]]

/-- The value of an expression: none where it is none or names what is not defined, none inside where its value is not fixed. -/
def evalExpr (syms : Symbols) : Nat → List ETok → Option (Option Int)
  | 0, _ => none
  | n + 1, ts =>
    match opClasses.findSome? fun cls => lastOp cls ts.reverse 0 [] with
    | some (l, c, r) => (evalExpr syms n l).bind fun a => (evalExpr syms n r).bind fun b => applyOp c a b
    | none =>
      match ts with
      | [.num v] => some (some v)
      | [.sym t] => (syms.find? fun e => e.1 == t).map Prod.snd
      | .op 45 :: r => (evalExpr syms n r).map fun v => v.map fun x => wrap64 (-x)
      | .op 40 :: r => if r.getLast? == some (.op 41) then evalExpr syms n r.dropLast else none
      | _ => none

/-- The value of an expression as written. -/
def exprValue (syms : Symbols) (t : Tok) : Option (Option Int) :=
  (lexExpr (t.length + 1) t).bind fun ts => evalExpr syms (2 * ts.length + 2) ts

/-! ### Floating-point literals (R158, R159) -/

/-- A literal with a point or an exponent: its sign, its digits as one number and the power of ten. -/
def fpLiteral (t : Tok) : Option (Bool × Nat × Int) :=
  let neg := t.head? == some 45
  let t := if neg then t.drop 1 else t
  let mant := t.takeWhile fun c => c != 101 && c != 69
  let exp := (t.drop mant.length).drop 1
  let parts := splitAt (fun c => c == 46) mant
  let digits := parts.flatten
  let e : Option Int :=
    if t.length = mant.length then some 0
    else match exp with
      | 45 :: ds => (decimal ds).map fun n => -(n : Int)
      | 43 :: ds => (decimal ds).map Int.ofNat
      | ds => (decimal ds).map Int.ofNat
  if (parts.length = 1 && t.length = mant.length) || 2 < parts.length || parts.any List.isEmpty then none
  else
    (decimal digits).bind fun m => e.map fun e => (neg, m, if parts.length = 2 then e - (parts.getD 1 []).length else e)

/-- The integer that a literal is, if it lies from −16384 to 16383 and is no −0.0 (R159). -/
def fpInteger (l : Bool × Nat × Int) : Option Int :=
  let (neg, m, e) := l
  let n : Option Nat :=
    if m = 0 then some 0
    else if 5 ≤ e then none
    else if 0 ≤ e then some (m * 10 ^ e.toNat)
    else if e < -1024 then none
    else if m % 10 ^ (-e).toNat = 0 then some (m / 10 ^ (-e).toNat) else none
  n.bind fun n =>
    if neg then (if n = 0 || 16384 < n then none else some (-(n : Int))) else if 16383 < n then none else some (n : Int)

/-! ### Operands (R159) -/

/-- An operand as written: a field's content, a number (its value where it is fixed, and whether it is a floating-point literal that is no
integer of class 4), or what stands in brackets. -/
inductive Opd where
  | reg (o : Operand)
  | num (v : Option Int)
  | real
deriving DecidableEq, Repr

/-- The special registers in the order of R36. -/
def specialNames : List Tok :=
  listed "sr.laneid sr.width sr.crewid sr.ncrews sr.teamid sr.nteams sr.gangrank sr.gangsize sr.coreid sr.slot sr.pairrole sr.modid sr.lclock sr.ftime sr.database"

/-- The number of a register. -/
def regNo (t : Tok) : Nat := (decimal (t.drop 1)).getD 0

/-- A vector register with its modifiers (R138, R159): `-`, `|…|` and a swizzle. -/
def vectorOpd (t : Tok) : Option Operand :=
  let neg := t.head? == some 45
  let t := if neg then t.drop 1 else t
  let abs := t.head? == some 124 && t.getLast? == some 124 && 2 < t.length
  let t := if abs then (t.drop 1).dropLast else t
  let base := t.takeWhile fun c => c != 46
  let swz := (listed ".qb0 .qb1 .qb2 .qb3 .qx1 .qx2 .qx3").findIdx? fun x => x == t.drop base.length
  if isReg 118 256 base && (base.length = t.length || swz.isSome) then
    some (.v (BitVec.ofNat 8 (regNo base)) (BitVec.ofNat 3 (match swz with | some i => i + 1 | none => 0)) abs neg)
  else none

/-- A register operand. -/
def regOpd (t : Tok) : Option Operand :=
  let p := if t.head? == some 33 then t.drop 1 else t
  if isReg 115 64 t then some (.s (BitVec.ofNat 6 (regNo t)))
  else if isReg 112 8 p then some (.p (BitVec.ofNat 3 (regNo p)) (t.head? == some 33))
  else if isReg 109 16 t then some (.m (BitVec.ofNat 4 (regNo t)))
  else if isReg 76 4 t then some (.x (BitVec.ofNat 15 (0x100 + regNo t)))
  else match specialNames.findIdx? fun x => x == t with
    | some i => some (.x (BitVec.ofNat 15 i))
    | none => vectorOpd t

/-- An operand that stands alone. -/
def readOpd (syms : Symbols) (t : Tok) : Option Opd :=
  match regOpd t with
  | some o => some (.reg o)
  | none =>
    match fpLiteral t with
    | some l => match fpInteger l with | some v => some (.num (some v)) | none => some .real
    | none => (exprValue syms t).map Opd.num

/-- What stands between brackets. -/
def bracketed (t : Tok) : Option Tok :=
  if t.head? == some 91 && t.getLast? == some 93 && 2 ≤ t.length then some (trim (t.drop 1).dropLast) else none

/-- An address of R218: a base and an offset, either of them a register or a number. -/
def readAddr (syms : Symbols) (t : Tok) : Option (Opd × Option Opd) :=
  let parts := splitAt (fun c => c == 43) t
  let first := trim (parts.headD [])
  let last := trim (parts.getLastD [])
  let rest := trim (t.drop ((parts.headD []).length + 1))
  match regOpd first with
  | some o => if parts.length = 1 then some (.reg o, none) else (readOpd syms rest).map fun b => (.reg o, some b)
  | none =>
    match regOpd last with
    | some o => (exprValue syms (t.take (t.length - (parts.getLastD []).length - 1))).map fun v => (.num v, some (.reg o))
    | none =>
      let base := t.takeWhile fun c => c != 45
      match regOpd (trim base) with
      | some o => (exprValue syms (t.drop base.length)).map fun v => (.reg o, some (.num v))
      | none => (exprValue syms t).map fun v => (.num v, none)

/-! ### What a statement fills -/

/-- The operand fields. -/
inductive Fld where
  | d | a | b
deriving DecidableEq, Repr

/-- What an operand of a statement is: the operand of a field, of class v or of another class where the form asks for it; one in brackets;
an address of R218 in A and B; a label (R134); a mask or `all` in B; the scale of `lea`; the choice of `sel`. -/
inductive OpSlot where
  | one (f : Fld)
  | vec (f : Fld)
  | notVec (f : Fld)
  | at_ (f : Fld)
  | addr
  | label (f : Fld)
  | mask
  | scale
  | pick
deriving DecidableEq, Repr

/-- What a suffix sets: F, bits of EXT, VAR, or the rounding mode in B. -/
inductive Put where
  | f | ext | var | mode
deriving DecidableEq, Repr

/-- Suffixes of which a statement has one, or none where it need not. -/
structure SufGroup where
  put  : Put
  need : Bool
  names : List (Tok × Nat)
deriving DecidableEq, Repr

/-- The words of a string, with the values `k`, `k + step`, … -/
def numbered (s : String) (k step : Nat) : List (Tok × Nat) := (listed s).zipIdx.map fun e => (e.1, k + step * e.2)

def SufGroup.must (p : Put) (s : String) (k step : Nat) : SufGroup := { put := p, need := true, names := numbered s k step }
def SufGroup.may (p : Put) (s : String) (k step : Nat) : SufGroup := { put := p, need := false, names := numbered s k step }

/-- The suffixes of a statement beside its types, its scope and its order (R174 to R319), by the kind of its type. -/
def sufGroups (m : Mn) (k : Option Kind) : List SufGroup :=
  let combine := if k = some .bits then "and or xor exch" else "add min max exch"
  let sat := if k = some .float then "" else "sat"
  match m with
  | .iadd | .isub | .imul | .imad | .iabs | .ineg | .pack2 => [.may .f "sat" 1 0]
  | .rot => [.may .f "r" 1 0]
  | .lea => [.may .f "sx" 1 0]
  | .icmp => [.must .ext "eq ne lt le gt ge" 0 1]
  | .fcmp => [.must .ext "eq ne lt le gt ge un or" 0 1, .may .ext "e0 e1" 0 8]
  | .dcmp => [.must .ext "eq ne lt le gt ge un or" 0 1]
  | .frnd => [.may .ext "rne rz ru rd" 4 1]
  | .cvt => [.may .f "sat" 1 0, .may .mode "rne rz ru rd" 0 1]
  | .bfpack | .bfunpack => [.may .f "a b" 0 1]
  | .shfl => [.must .ext "idx up down xor" 0 1, .may .ext "g2 g4 g8 g16 g32 g64" 4 4]
  | .vote => [.must .var "every some same mask" 0 1]
  | .redux => [.must .ext "add min max and or xor" 0 1, .may .f sat 1 0]
  | .scan => [.must .ext "add min max and or xor" 0 1, .may .f sat 1 0, .may .ext "incl excl" 0 8]
  | .matchv => [.must .f "any all" 0 1]
  | .movw => [.must .f "lo hi" 0 1]
  | .st | .stb | .rst => [.may .ext "oflag" 8 0]
  | .pref => [.must .ext "l1 l2" 0 1]
  | .atom | .atomf | .red | .ratom => [.must .ext combine 0 8]
  | .atoms => [.must .ext "add min max and or xor exch cas" 0 1]
  | .cwait => [.may .ext "s" 8 0]
  | .flagsig => [.must .ext "set add" 0 8]
  | .flagwait => [.must .ext "eq ne ge lt" 0 8]
  | .copy => [.may .ext "dscr" 1 0, .may .ext "sscr" 2 0]
  | .copyg => [.must .var "row4 row8 row16 row32 row64 row128 row256 row512 row1024 row2048 row4096" 2 1, .may .ext "dscr" 1 0, .may .ext "sscr" 2 0]
  | .mma | .mmaw => [.may .f "s" 1 0, .may .ext "z" 1 0]
  | .mld | .mst | .mzero => [.may .var "lead foll" 1 1]
  | .claim => [.may .ext "dscr" 1 0]
  | .announce => [.may .ext "sscr" 1 0]
  | _ => []

/-- The operands of a statement: the forms that the rules give (R174, R182, R186, R194, R201, R210, R218, R224, R235, R242, R248, R263, R279,
R293). Group 14 has no form in portable text (R165). -/
def slotForms : Mn → List (List OpSlot)
  | .iabs | .ineg | .not | .popc | .clz | .brev | .pnot | .pmov | .fsqrt | .frcp | .frsq | .fexp2 | .flog2 | .fsin | .fcos | .frnd | .fclass
  | .dsqrt | .cvt | .unpack2 | .bfexp | .vote | .redux | .scan | .matchv | .mov | .movw | .rdsr | .spawn | .setlay | .lstat =>
    [[.one .d, .one .a]]
  | .lea => [[.one .d, .one .a, .one .b, .scale]]
  | .sel => [[.one .d, .one .a, .one .b, .pick]]
  | .bfpack => [[.one .d, .one .a], [.one .d, .one .a, .one .b]]
  | .setfmt | .setfmtRm | .callx | .brk | .trap | .qwait | .bwait | .mrel => [[.one .a]]
  | .getfmt | .mzero => [[.one .d]]
  | .nop | .ret | .exit | .yield | .gdetach | .fence => [[]]
  | .batch => [[], [.one .d]]
  | .bra => [[.label .a], [.label .a, .label .d]]
  | .brx => [[.one .a, .label .d]]
  | .call => [[.label .a]]
  | .ld | .lds | .ldc => [[.one .d, .addr]]
  | .st | .sts => [[.addr, .one .d]]
  | .ldb => [[.one .d, .at_ .a, .one .b]]
  | .stb => [[.at_ .a, .one .b, .one .d]]
  | .pref => [[.addr]]
  | .atom | .atoms => [[.one .d, .at_ .a, .one .b], [.at_ .a, .one .b]]
  | .atomf | .cas => [[.one .d, .at_ .a, .one .b]]
  | .red | .knotinit | .cwait | .flagsig | .flagwait => [[.at_ .a, .one .b]]
  | .bar => [[.one .a], [.one .a, .one .b]]
  | .knotarr => [[.at_ .a, .mask], [.at_ .a, .mask, .one .d]]
  | .knotwait => [[.at_ .a, .mask, .one .d]]
  | .knotfree | .kick => [[.at_ .a]]
  | .copy => [[.at_ .d, .at_ .a, .one .b]]
  | .copyg => [[.at_ .d, .at_ .a, .one .b]]
  | .mld => [[.one .d, .at_ .a, .one .b]]
  | .mst => [[.at_ .a, .one .b, .one .d]]
  | .mget | .mgetTry | .clwait | .clwaitTest => [[.one .a], [.one .d, .one .a]]
  | .rld | .gld => [[.one .d, .one .a, .at_ .b]]
  | .rst | .gst => [[.one .a, .at_ .b, .one .d]]
  | .ratom => [[.vec .d, .one .a, .at_ .b], [.one .a, .at_ .b, .notVec .d]]
  | .rfence => [[], [.one .a]]
  | .announce => [[.one .a, .one .b]]
  | .wstart => [[.one .a], [.one .d, .one .a], [.one .d, .one .a, .one .b]]
  | .rdpr | .wrpr | .eret | .tinvPage | .tinvCtx | .tinvPart | .csave | .crest | .halt => []
  | _ => [[.one .d, .one .a, .one .b]]

/-! ### Suffixes (R144 to R146, R160) -/

/-- The types as text writes them, in the order of their codes (R144). -/
def allTypes : List (String × Ty) :=
  [ (".s8", .s8), (".s16", .s16), (".s32", .s32), (".s64", .s64), (".n8", .n8), (".n16", .n16), (".n32", .n32), (".n64", .n64), (".b8", .b8),
    (".b16", .b16), (".b32", .b32), (".b64", .b64), (".b128", .b128), (".f16", .f16), (".bf16", .bf16), (".f32", .f32), (".f64", .f64),
    (".bfp2", .bfp2), (".bfp3", .bfp3), (".bfp4", .bfp4), (".bfp5", .bfp5), (".bfp6", .bfp6), (".bfp7", .bfp7), (".bfp8", .bfp8) ]

/-- The type that a suffix names. -/
def suffixTy (t : Tok) : Option Ty := (allTypes.find? fun e => tok e.1 == 46 :: t).map Prod.snd

/-- The code of a type (R144). -/
def tyCode (t : Ty) : Nat := (allTypes.findIdx? fun e => e.2 == t).getD 0

/-- Must the statement say `.ord` or `.unord` (R145, R160, R242, R298)? -/
def needsOrder (m : Mn) (k : Option Kind) (d : Operand) : Bool :=
  match m with
  | .atom => d.cls != .none
  | .atomf | .cas => true
  | .red | .redux | .scan => k = some .float
  | .ratom => k = some .float || d.cls == .v
  | _ => false

/-- A statement's fields so far, and whether one of its values is not fixed by the text. -/
structure Filled where
  fields : Fields
  open_  : Bool := false
deriving DecidableEq, Repr

/-- The scopes of R114 by their codes. -/
def scopeNames : List (Tok × Nat) := numbered "crew team core die mod fab" 0 1

/-- Sets what a suffix stands for. -/
def putSuffix (f : Fields) (p : Put) (v : Nat) : Fields :=
  match p with
  | .f => { f with f := v % 2 == 1 }
  | .ext => { f with ext := f.ext ||| BitVec.ofNat 5 v }
  | .var => { f with sel := .var (BitVec.ofNat 5 v) }
  | .mode => { f with b := .i (BitVec.ofNat 15 v) }

/-- The suffixes of one group: at most one, and one where it is needed. -/
def putGroup (ss : List Tok) (f : Fields) (g : SufGroup) : Option Fields :=
  match g.names.filter fun e => ss.contains e.1 with
  | [] => if g.need then none else some f
  | [e] => some (putSuffix f g.put e.2)
  | _ => none

/-- The fields that the suffixes fill, with empty operands: none where a suffix is unknown, missing, or does not go with another (R160, R163). -/
def putSuffixes (m : Mn) (ss : List Tok) : Option Fields :=
  let row := m.row
  let types := ss.filterMap suffixTy
  let others := ss.filter fun s => (suffixTy s).isNone
  let sel : Sel := match types with | t :: _ => .ty t | [] => .var (BitVec.ofNat 5 (row.vars.headD 0))
  let groups := sufGroups m (Sel.kind? sel) ++ (if row.hasScope then [{ put := .ext, need := false, names := scopeNames }] else [])
  let order := (listed "ord unord").filter others.contains
  let known := (groups.map fun g => g.names.map Prod.fst).flatten
  let empty : Fields :=
    { sel := sel, f := order == [tok "ord"], guard := { pred := 0, neg := false, uni := false }, d := .none, a := .none, b := .none
      ext := if m = .cvt then BitVec.ofNat 5 (tyCode (types.getD 1 .s8)) else 0, hint := { resv := 0, cc := 0, yield := false, keepB := false, keepA := false, la := 0 } }
  if types.length ≠ (if row.types.isEmpty then 0 else if m = .cvt then 2 else 1) || 1 < order.length || !others.all (fun s => known.contains s || order.contains s)
  then none
  else groups.foldl (fun f g => f.bind fun f => putGroup others f g) (some empty)

/-! ### Operands into fields -/

/-- The classes that a row accepts in a field. -/
def OpRow.classes (r : OpRow) : Fld → List Cls
  | .d => r.d
  | .a => r.a
  | .b => r.b

/-- Puts an operand into a field that is still empty. -/
def Filled.put (x : Filled) (f : Fld) (o : Operand) : Option Filled :=
  match f with
  | .d => if x.fields.d = .none then some { x with fields := { x.fields with d := o } } else none
  | .a => if x.fields.a = .none then some { x with fields := { x.fields with a := o } } else none
  | .b => if x.fields.b = .none then some { x with fields := { x.fields with b := o } } else none

/-- The same with a value that the text does not fix. -/
def Filled.putOpen (x : Filled) (f : Fld) (cs : List Cls) : Option Filled :=
  ({ x with open_ := true }).put f (if cs.contains .i then .i 0 else .w 0)

/-- The values that a wide immediate holds under a type (R141, R159). -/
def wideHolds (s : Sel) (v : Int) : Bool :=
  match Sel.ty? s with
  | some .s64 => -2 ^ 31 ≤ v && v < 2 ^ 31
  | some t => if t.bits = 64 then 0 ≤ v && v < 2 ^ 32 else -2 ^ 31 ≤ v && v < 2 ^ 32
  | none => -2 ^ 31 ≤ v && v < 2 ^ 32

/-- Puts an operand as written into a field: a number takes class 4 where it fits and the row accepts that, else class 5 in A (R159, R163). -/
def Filled.operand (x : Filled) (m : Mn) (f : Fld) (o : Opd) : Option Filled :=
  let cs := m.row.classes f
  match o with
  | .reg r => x.put f r
  | .real => if f = .a && cs.contains .w then ({ x with open_ := true }).put f (.w 0) else none
  | .num none => x.putOpen f cs
  | .num (some v) =>
    if cs.contains .i && -16384 ≤ v && v ≤ 16383 then x.put f (.i (BitVec.ofInt 15 v))
    else if f = .a && cs.contains .w && wideHolds x.fields.sel v then x.put f (.w (BitVec.ofInt 32 v))
    else if cs.contains .i || (f = .a && cs.contains .w) then none
    else x.put f (.i 0)

/-- Fills one operand of a form. -/
def Filled.slot (x : Filled) (syms : Symbols) (m : Mn) (s : OpSlot) (t : Tok) : Option Filled :=
  match s with
  | .one f => (readOpd syms t).bind (x.operand m f)
  | .vec f => (vectorOpd t).bind (x.put f)
  | .notVec f => if (vectorOpd t).isSome then none else (readOpd syms t).bind (x.operand m f)
  | .at_ f => (bracketed t).bind fun t => (readOpd syms t).bind (x.operand m f)
  | .addr => (bracketed t).bind fun t => (readAddr syms t).bind fun e =>
      (x.operand m .a e.1).bind fun x => match e.2 with | some b => x.operand m .b b | none => some x
  | .label f => if syms.any fun e => e.1 == t then x.putOpen f (m.row.classes f) else none
  | .mask => if t == tok "all" then some x else (readOpd syms t).bind (x.operand m .b)
  | .scale =>
    match exprValue syms t with
    | some (some v) => if 0 ≤ v && v ≤ 31 then some { x with fields := { x.fields with ext := BitVec.ofInt 5 v } } else none
    | some none => some { x with open_ := true }
    | none => none
  | .pick =>
    match regOpd t with
    | some (.p n neg) => some { x with fields := { x.fields with ext := BitVec.ofNat 5 (n.toNat + 8 * neg.toNat) } }
    | _ => none

/-- Fills the operands of a form. -/
def Filled.slots (x : Filled) (syms : Symbols) (m : Mn) : List OpSlot → List Tok → Option Filled
  | [], [] => some x
  | s :: ss, t :: ts => (x.slot syms m s t).bind fun x => x.slots syms m ss ts
  | _, _ => none

/-! ### Crew statements (R148, R163, R164) -/

/-- The instruction of a mnemonic as written, and the suffixes that are left. -/
def instrNamed (base : Tok) (ss : List Tok) : Option (Mn × List Tok) :=
  let drop (s : String) := ss.filter fun x => x != tok s
  (mnNamed base).map fun m =>
    match m with
    | .setfmt => if ss.contains (tok "rm") then (.setfmtRm, drop "rm") else (m, ss)
    | .mget => if ss.contains (tok "try") then (.mgetTry, drop "try") else (m, ss)
    | .clwait => if ss.contains (tok "test") then (.clwaitTest, drop "test") else (m, ss)
    | _ => (m, ss)

/-- The fields with another number in each immediate. -/
def withNumber (f : Fields) (v : Nat) : Fields :=
  let g (o : Operand) : Operand := match o with | .i _ => .i (BitVec.ofNat 15 v) | .w _ => .w (BitVec.ofNat 32 v) | o => o
  { f with d := g f.d, a := g f.a, b := g f.b }

/-- No decode cause that portable text alone decides (R163, R164): the window of a width does not bound a virtual register, nor does a width
align the destination of `vote.mask` and `match.any`; `width` is the kernel's, where `.crew` fixes it. Where a value is not fixed, some value must do. -/
def portableOk (m : Mn) (x : Filled) (width : Nat) : Bool :=
  (if x.open_ then [0, 1, 256, 0x220].map (withNumber x.fields) else [x.fields]).any fun f =>
    operandOk m f 32 && (m = .vote || specialOperandOk m f width)

/-- Does a statement of portable crew text stand for an instruction: the suffixes and operands of one of its forms, with no illegal encoding and no
illegal operand (R163)? -/
def statementOk (syms : Symbols) (width : Nat) (l : TextLine) : Bool :=
  match instrNamed l.base l.suffixes with
  | none => false
  | some (m, ss) =>
    match putSuffixes m ss with
    | none => false
    | some f =>
      (slotForms m).any fun ks =>
        match ({ fields := f } : Filled).slots syms m ks l.args with
        | none => false
        | some x =>
          encodingOk m x.fields && needsOrder m (Sel.kind? x.fields.sel) x.fields.d == (l.suffixes.contains (tok "ord") || l.suffixes.contains (tok "unord"))
            && portableOk m x width

/-! ### Winch statements (R317 to R319) -/

/-- An operand of a winch statement. -/
inductive WSlot where
  | reg | value | link | chan | imm | bit | label | base
deriving DecidableEq, Repr

/-- The suffixes of a winch statement: sets of which it has one, with whether it must, and the forms of its operands (R319). -/
def winchForms (t : Tok) : List (Bool × String) × List (List WSlot) :=
  let ops := [(true, "add min max"), (true, "f32 bf16 f16 s32 n32"), (false, "inc")]
  if t == tok "xmit" then ([(false, "inc")], [[.reg, .link], [.reg, .link, .chan]])
  else if t == tok "store" then ([(false, "inc")], [[.reg]])
  else if t == tok "comb" then (ops, [[.reg]])
  else if t == tok "combf" then (ops, [[.reg, .link], [.reg, .link, .chan]])
  else if t == tok "fwd" then ([], [[.link], [.link, .chan]])
  else if t == tok "waitf" then ([(true, "eq ne ge lt")], [[.reg, .value]])
  else if t == tok "sigf" then ([(true, "set add")], [[.reg, .value]])
  else if t == tok "loop" then ([], [[.reg, .label]])
  else if t == tok "bra" then ([], [[.label]])
  else if t == tok "brc" then ([(false, "n")], [[.label]])
  else if t == tok "addh" || t == tok "subh" then ([], [[.reg, .reg, .value]])
  else if t == tok "movh" then ([], [[.reg, .reg]])
  else if t == tok "lih" then ([(false, "hi")], [[.reg, .imm]])
  else if t == tok "cmph" then ([(true, "eq ne ltu geu lts ges")], [[.reg, .value]])
  else if t == tok "ldh" then ([], [[.reg, .base]])
  else if t == tok "setc" then ([], [[.bit]])
  else ([], [[]])

/-- Is a number within bounds, or not fixed by the text? -/
def numberIn (syms : Symbols) (lo hi : Int) (t : Tok) : Bool :=
  match exprValue syms t with
  | some (some v) => lo ≤ v && v ≤ hi
  | some none => true
  | none => false

/-- Is an operand what the form asks for? -/
def winchSlotOk (syms : Symbols) (s : WSlot) (t : Tok) : Bool :=
  let imm := numberIn syms (-2 ^ 31) (2 ^ 32 - 1)
  match s with
  | .reg => isReg 104 16 t
  | .value => isReg 104 16 t || imm t
  | .link => numberIn syms 0 31 t
  | .chan => numberIn syms 0 3 t
  | .imm => imm t
  | .bit => numberIn syms 0 1 t
  | .label => syms.any fun e => e.1 == t
  | .base =>
    match bracketed t with
    | none => false
    | some t =>
      let base := t.takeWhile fun c => c != 43 && c != 45
      isReg 104 16 (trim base) && (base.length = t.length || imm (if (t.drop base.length).head? == some 43 then t.drop (base.length + 1) else t.drop base.length))

/-- Does a statement of winch text stand for an instruction (R318, R319)? -/
def winchStatementOk (syms : Symbols) (l : TextLine) : Bool :=
  let (groups, forms) := winchForms l.base
  let sets := groups.map fun g => (g.1, (listed g.2).filter l.suffixes.contains)
  winchNames.contains l.base
    && l.suffixes.all (fun s => groups.any fun g => (listed g.2).contains s)
    && sets.all (fun g => g.2.length ≤ 1 && (!g.1 || g.2.length = 1))
    && forms.any fun ks => ks.length = l.args.length && (ks.zip l.args).all fun e => winchSlotOk syms e.1 e.2

end Sys2Proof.Machine
end

