-- ==== Sys2Proof/Machine/Flow.lean ====
section
/-! DEFINITION. Group 7, control flow (R134, R136, R141, R224 to R228, R233, R234), the merge check as a step (R46), and the
priority boost (R65). `exit` and `spawn` stand in Spawn.lean. -/

namespace Sys2Proof.Machine

variable {s0 : State}

/-- A PC-relative address `o` instructions on (R134). -/
def relPc (pc : BitVec 56) (o : Int) : BitVec 56 := pc + 12 + BitVec.ofInt 56 (12 * o)

/-- The offset of a PC-relative field (R134, R141). -/
def pcOffset : Operand → Int
  | .i v => imm15 v
  | .w x => x.toInt
  | _ => 0

/-- Lanes by their next PC, in increasing order of the key, with the lanes of equal keys joined (R43). -/
def addPath (key : Nat) (pc : BitVec 56) (lanes : Lanes) : List (Nat × BitVec 56 × Lanes) → List (Nat × BitVec 56 × Lanes)
  | [] => [(key, pc, lanes)]
  | (k, p, m) :: t =>
    if key < k then (key, pc, lanes) :: (k, p, m) :: t
    else if key = k then (k, p, m ||| lanes) :: t
    else (k, p, m) :: addPath key pc lanes t

/-- The merge point of a `bra` (R225). -/
def braMerge (i : Issue) (tgt fall : BitVec 56) : BitVec 56 :=
  match i.f.d with
  | .i v => relPc i.sp.pc (imm15 v)
  | _ => if fall < tgt then tgt else fall

/-- The paths of a `bra` (R43, R225): fall-through first. -/
def braPaths (i : Issue) (tgt fall : BitVec 56) : List (BitVec 56 × Lanes) :=
  if tgt = fall then [(fall, i.act)]
  else [(fall, i.act &&& ~~~i.run), (tgt, i.run)].filter fun p => p.2 != 0

/-- `bra` (R136, R225). -/
def braBody (i : Issue) (g : Go s0) : Go s0 :=
  let fall := i.sp.pc + 12
  let tgt := relPc i.sp.pc (pcOffset i.f.a)
  if i.run ≠ 0 && tgt.toNat % 4 ≠ 0 then takeFault g i.x i.k (i.lanes.map fun l => { lane := l, cause := 4, addr := tgt.toNat }) 0 0 false
  else branch g i (braMerge i tgt fall) (braPaths i tgt fall)

/-- The target of a lane of `brx`: a pair or a uniform register (R224). -/
def brxTarget (i : Issue) (l : Nat) : Nat := i.a .b64 false l

/-- The text of the crew's object (R226). -/
def State.inText (s : State) (c : Crew) (a : Nat) : Bool :=
  match (s.team? c.team).bind fun t => Tab.find s.objs t.object with
  | some o => o.textBase.toNat ≤ a && a < o.textBase.toNat + o.textSize
  | none => false

/-- The causes of a transfer to an address (R136, R226). -/
def targetCause (s : State) (c : Crew) (a : Nat) : Option Nat :=
  if a % 4 ≠ 0 then some 4 else if !s.inText c a then some 20 else none

/-- `brx` (R226). -/
def brxBody (i : Issue) (g : Go s0) : Go s0 :=
  let fs : List LaneFault := i.lanes.filterMap fun l =>
    (targetCause g.st i.c (brxTarget i l)).map fun n => { lane := l, cause := n, addr := brxTarget i l }
  if !fs.isEmpty then takeFault g i.x i.k fs 0 0 false
  else
    let fall := i.sp.pc + 12
    let rest := i.act &&& ~~~i.run
    let start := if rest = 0 then [] else [(fall.toNat, fall, rest)]
    let paths := i.lanes.foldl (fun ps l => addPath (brxTarget i l) (BitVec.ofNat 56 (brxTarget i l)) (lane1 l) ps) start
    branch g i (relPc i.sp.pc (pcOffset i.f.d)) (paths.map fun p => p.2)

/-- An entry of the function table (R227). -/
def State.fn? (s : State) (c : Crew) (n : Nat) : Option (BitVec 64 × Nat) :=
  ((s.team? c.team).bind fun t => Tab.find s.objs t.object).bind fun o => (o.funcs[n]?).join

/-- The frame size of the function entered at an address; left open where the loader's table has none, which no loaded text holds
(R227). -/
def State.frameAt (s : State) (c : Crew) (entry : BitVec 56) : Nat :=
  match ((s.team? c.team).bind fun t => Tab.find s.objs t.object).bind fun o =>
      (o.funcs.filterMap id).find? fun e => e.1.toNat == entry.toNat with
  | some e => e.2
  | none => Config.freeNat (s.salt 50 entry.toNat)

/-- Lanes that call: one entry and every active lane, then the call; else the split divides (R227). DESIGN CHOICE, unsafe (log 52): of a group that calls
PC + 12 and the lanes that do not call, those that do not call come first. -/
def callBody (i : Issue) (entryOf : Nat → BitVec 56) (sizeOf_ : Nat → Nat) (g : Go s0) : Go s0 :=
  match i.lanes with
  | [] => retire g i {}
  | l :: _ =>
    if i.run = i.act && i.lanes.all fun j => entryOf j == entryOf l then callFrame g i (entryOf l) (sizeOf_ l)
    else
      let fall := i.sp.pc + 12
      let rest := i.act &&& ~~~i.run
      let paths := i.lanes.foldl (fun ps j => addPath (2 * (entryOf j).toNat + 1) i.sp.pc (lane1 j) ps)
        (if rest = 0 then [] else [(2 * fall.toNat, fall, rest)])
      branch g i fall (paths.map fun p => p.2)

/-- `call` (R136, R227). -/
def callOp (i : Issue) (g : Go s0) : Go s0 :=
  let entry := relPc i.sp.pc (pcOffset i.f.a)
  if i.run ≠ 0 && entry.toNat % 4 ≠ 0 then takeFault g i.x i.k (i.lanes.map fun l => { lane := l, cause := 4, addr := entry.toNat }) 0 0 false
  else callBody i (fun _ => entry) (fun _ => g.st.frameAt i.c entry) g

/-- The causes of a table entry (R136, R227). -/
def entryCause (s : State) (c : Crew) (n : Nat) : Option Nat :=
  match s.fn? c n with
  | none => some 20
  | some e => if e.1.toNat % 4 ≠ 0 then some 4 else none

/-- `callx` (R136, R227). -/
def callxOp (i : Issue) (g : Go s0) : Go s0 :=
  let fs : List LaneFault := i.lanes.filterMap fun l =>
    (entryCause g.st i.c (i.a32 l)).map fun n => { lane := l, cause := n }
  if !fs.isEmpty then takeFault g i.x i.k fs 0 0 false
  else
    callBody i (fun l => match g.st.fn? i.c (i.a32 l) with | some e => BitVec.ofNat 56 e.1.toNat | none => 0)
      (fun l => match g.st.fn? i.c (i.a32 l) with | some e => e.2 | none => 0) g

/-- `ret` (R228). -/
def retBody (i : Issue) (g : Go s0) : Go s0 :=
  if i.run = 0 then retire g i {}
  else if i.run ≠ i.act then takeFault g i.x i.k (allFault i.lanes 3) 0 0 false
  else retFrame g i

/-- `yield` (R233): the crew's age starts again and it is passed over once. -/
def yieldBody (i : Issue) (g : Go s0) : Go s0 :=
  if i.run = 0 then retire g i {} else modCrew (retire g i {}) i.x fun c => { c with yielded := true }

/-- `brk` and `trap` (R234, R382): FR.CODE holds the code, and bit 15 for a `trap`. -/
def brkBody (isTrap : Bool) (i : Issue) (g : Go s0) : Go s0 :=
  if i.run = 0 then retire g i {}
  else
    let code := match i.f.a with | .i v => v.toNat | _ => 0
    takeFault g i.x i.k (allFault i.lanes 22) 0 (if isTrap then 2 ^ 15 + code else code) isTrap

def execBra (f : Fields) (s : State) : Host.Outcome State Fault Refusal := crewStep .bra f s braBody
def execBrx (f : Fields) (s : State) : Host.Outcome State Fault Refusal := crewStep .brx f s brxBody
def execCall (f : Fields) (s : State) : Host.Outcome State Fault Refusal := crewStep .call f s callOp
def execCallx (f : Fields) (s : State) : Host.Outcome State Fault Refusal := crewStep .callx f s callxOp
def execRet (f : Fields) (s : State) : Host.Outcome State Fault Refusal := crewStep .ret f s retBody
def execYield (f : Fields) (s : State) : Host.Outcome State Fault Refusal := crewStep .yield f s yieldBody
def execBrk (f : Fields) (s : State) : Host.Outcome State Fault Refusal := crewStep .brk f s (brkBody false)
def execTrap (f : Fields) (s : State) : Host.Outcome State Fault Refusal := crewStep .trap f s (brkBody true)

/-- The MERGE step of a split (R46, R53): the checks made before its next instruction. -/
def mergeBody (g : Go s0) (x k : Nat) (c : Crew) (sp : Split) : Go s0 :=
  match mergeCheck g x k (sp.mstack.length + sp.mspill.length + 1) with
  | (.error e, _) => takeFault g x k (stopFaults (lanesOf sp.mask c.width) e) 0 0 false
  | (.ok _, g) => frameDeadlock g x

/-- MERGE (R46): happens where the check is due. -/
def execMerge (x k : Nat) (s : State) : Host.Outcome State Fault Refusal :=
  match s.crew? x with
  | none => .next s
  | some c =>
    match c.split? k with
    | none => .next s
    | some sp =>
      if c.st = .running && sp.st = .ready && c.mergeDue sp then (mergeBody (Go.start s) x k c sp).done else .next s

/-- Is the crew ready: has it a split that could issue (R65)? -/
def Crew.ready (c : Crew) : Bool := c.st == .running && !c.parked && c.splits.any fun e => e.2.st == .ready

/-- PRIORITY_BOOST (R65): a ready crew passed over for 256 cycles of its slot. -/
def execPriorityBoost (x : Nat) (s : State) : Host.Outcome State Fault Refusal :=
  match s.crew? x with
  | none => .next s
  | some c =>
    if c.ready && s.teamRuns c && !c.boosted && c.passed + 256 ≤ Tab.get 0 s.cycles (x / 8) then
      (modCrew (Go.start s) x fun c => { c with boosted := true }).done
    else .next s

end Sys2Proof.Machine
end

