-- ==== Sys2Proof/Machine/Sync.lean ====
section
/-! DEFINITION. Group 10, synchronisation (R54 to R58, R114 to R117, R248 to R260). -/

namespace Sys2Proof.Machine

variable {s0 : State}

/-! ### Fences -/

/-- `fence` (R115, R250): it waits for what its scope names; later accesses of the crew wait for it. -/
def fenceBody (i : Issue) (g : Go s0) : Go s0 :=
  let scope := g.st.scopeOf i.c (extScope i.f.ext)
  if i.run = 0 || scope = 0 then retire g i {}
  else
    let id := g.st.seq
    if g.st.fenceReady i.x i.c id scope then
      let g := retire g i {}
      if 3 ≤ scope then dropCopies g i.x else g
    else
      let g := park (g.put .seq) i (.fence id scope g.st.now)
      modCrew g i.x fun c => { c with order := c.order ++ [id] }

/-- The end of a fence (R115): no copy granted before it started serves the crew. -/
def fenceEnd (g : Go s0) (x k id scope start : Nat) : Go s0 :=
  modCrew (endWait g x k 0 []) x fun c =>
    { c with order := c.order.filter fun o => o != id, minGrant := if 3 ≤ scope then max c.minGrant start else c.minGrant }

/-! ### Barrier-class instructions -/

/-- The lane-membership mask (R249). -/
def memberMask (i : Issue) : Lanes :=
  match i.f.b with
  | .s n =>
    let v := (i.cb.uni n.toNat).toNat + (if i.c.width = 128 then (i.cb.uni (n.toNat + 1)).toNat * 2 ^ 64 else 0)
    BitVec.ofNat 128 v &&& laneMask i.c.width
  | _ => laneMask i.c.width

/-- The lanes a split's mask stack names apart from its active ones (R48). -/
def MaskEntry.lanes : MaskEntry → Lanes
  | .path _ l _ _ _ => l
  | .rj _ u _ _ => u
def Split.heldLanes (sp : Split) : Lanes :=
  ((sp.mstack.map MaskEntry.lanes).foldl (· ||| ·) 0 ||| (sp.mspill.map fun r => r.kept.lanes).foldl (· ||| ·) 0) &&& ~~~sp.mask

/-- The lanes that splits of the crew other than split `k` hold, active or on their mask stacks. -/
def Crew.otherLanes (c : Crew) (k : Nat) : Lanes :=
  c.splits.foldl (fun m e => if e.1 = k then m else m ||| e.2.mask ||| e.2.heldLanes) 0

/-- The lanes that cannot arrive before split `k` goes on (R54): those on its mask stack that no other split of the crew holds. -/
def Crew.stackedLanes (c : Crew) (k : Nat) (sp : Split) : Lanes := sp.heldLanes &&& ~~~c.otherLanes k

/-- Are two waits of one barrier-class instruction on one barrier or knot (R249)? -/
def sameInstr : Wait → Wait → Bool
  | .bar a, .bar b => a == b
  | .knotArrive a, .knotArrive b => a == b
  | .knot a _, .knot b _ => a == b
  | _, _ => false

/-- The phase of an arrival: the one it arrived in, or for lanes that wait for others the one that an arrival now would join. -/
def Arrival.phaseIn (t : Team) (a : Arrival) : Nat := if a.done then a.phase else t.phaseNow a.what

/-- Does an arrival belong to the barrier or knot, and the phase, of an instruction executed now (R54)? On a knot `knotarr` and `knotwait` of
one phase count together. -/
def samePhase (t : Team) (a : Arrival) : Wait → Bool
  | .bar b => a.what == .bar b
  | .knotArrive off => Wait.onKnot off a.what && a.phaseIn t == t.phaseNow (.knotArrive off)
  | .knot off q => Wait.onKnot off a.what && a.phaseIn t == t.phaseNow (.knot off q)
  | _ => false

/-- Mask-disagreement (R54, R249): an arrival of the phase, finished or not, names another mask; lanes that join an unfinished one name
the same parity and bytes. -/
def disagrees (s : State) (i : Issue) (w : Wait) (m : Lanes) (bytes : Nat) : Bool :=
  let same := fun a => match s.team? i.c.team with | some t => samePhase t a w | none => sameInstr a.what w
  i.run &&& ~~~m != 0 || i.act &&& m &&& ~~~i.run != 0 || i.c.stackedLanes i.k i.sp &&& m != 0
    || i.c.arriving.any fun a => (same a && a.mask != m) || (sameInstr a.what w && !a.done && (a.what != w || a.bytes != bytes))

/-- A split executes a barrier-class instruction (R54): it blocks, and its crew arrives once every lane of the mask has
executed it. -/
def member (g : Go s0) (i : Issue) (w : Wait) (m : Lanes) (bytes : Nat) : Go s0 :=
  let old := i.c.arriving.find? fun a => a.what == w && !a.done
  let a : Arrival :=
    { what := w, mask := m, bytes := bytes
      lanes := (match old with | some a => a.lanes | none => 0) ||| i.run
      clock := max (match old with | some a => a.clock | none => 0) (i.sp.clock + 1) }
  let g := modCrew (park g i w) i.x fun c => { c with arriving := (c.arriving.filter fun b => b.what != w || b.done) ++ [a] }
  if m &&& ~~~i.c.exited &&& ~~~a.lanes = 0 then arrived g i.x a else g

/-- The `.team` fence of an arrival (R117): does the instruction wait in issue for it? -/
def teamFenceWaits (s : State) (i : Issue) : Bool := !s.fenceReady i.x i.c s.seq (s.scopeOf i.c 1)

/-- One cause in every lane that takes effect, with an address. -/
def faultAll (g : Go s0) (i : Issue) (cause addr access : Nat) : Go s0 :=
  takeFault g i.x i.k (i.lanes.map fun l => { lane := l, cause := cause, addr := addr }) access 0 false

/-- `bar` (R251). -/
def barBody (i : Issue) (g : Go s0) : Go s0 :=
  if i.run = 0 then retire g i {}
  else
    let b := operand64 i.ca i.f.a
    let m := memberMask i
    if 15 < b || m = 0 then faultAll g i 3 0 0
    else if disagrees g.st i (.bar b) m 0 then faultAll g i 15 0 0
    else if teamFenceWaits g.st i then g
    else member g i (.bar b) m 0

/-! ### Knots -/

/-- The knot's offset, and its causes before the guard's (R252): misaligned, bounds, range locks. -/
def knotOff (i : Issue) : Nat := i.a32 0
def knotCause (s : State) (i : Issue) : Option Nat :=
  let off := knotOff i
  match s.team? i.c.team with
  | none => some 5
  | some t =>
    if off % 16 ≠ 0 then some 4
    else if t.scratchSize < off + 16 then some 5
    else if s.rangeClash (placeCore i.x) false i.c.ctx i.c.team off 16 true then some 11
    else none

/-- The knot is active (R57). -/
def knotActive (s : State) (i : Issue) : Bool := match s.team? i.c.team with | some t => t.active (knotOff i) | none => false

/-- Is a crew of the team parked on the knot (R57)? A split that executed `knotwait`, or a `knotarr` that waits for the next phase, counts, whether
or not its crew's other lanes have arrived (DESIGN CHOICE, unsafe, log 72). -/
def knotParked (s : State) (team off : Nat) : Bool :=
  s.crews.any fun e => e.2.team == team && e.2.splits.any fun p => match p.2.wait with
    | .knot o _ => o == off
    | .knotArrive o => o == off
    | _ => false

/-- Writes a knot's bytes at its guard (R253, R256). -/
def knotSet (g : Go s0) (i : Issue) (k : Knot) (on : Bool) : Go s0 :=
  let off := knotOff i
  let g := scratchStore g i.c.team (writer g.st i) (cellsFrom off k.bytes)
  let g := g.each (g.st.crews.filter fun e => e.2.team == i.c.team) fun e g => modCrew g e.1 (Crew.phaseEnd (Wait.onKnot off))
  modTeam g i.c.team fun t =>
    { t with guards := if on then Tab.put t.guards (off / 16) () else Tab.del t.guards (off / 16), knots := Tab.del t.knots off }

/-- `knotinit` (R253). DESIGN CHOICE, unsafe (log 53): a class-s count is read in its low 32 bits. -/
def knotinitBody (i : Issue) (g : Go s0) : Go s0 :=
  if i.run = 0 then retire g i {}
  else
    let n := i.b32 0
    if n = 0 || 0xFFFFFF < n then faultAll g i 3 0 0
    else match knotCause g.st i with
      | some cause => faultAll g i cause (knotOff i) 1
      | none =>
        if knotActive g.st i then faultAll g i 12 (knotOff i) 1
        else if orderWaits g.st i then g
        else retire (knotSet g i { expect := n, arrived := 0, debt := 0, phase := false, guard := 0x4B4E } true) i {}

/-- `knotfree` (R256). -/
def knotfreeBody (i : Issue) (g : Go s0) : Go s0 :=
  if i.run = 0 then retire g i {}
  else match knotCause g.st i with
    | some cause => faultAll g i cause (knotOff i) 1
    | none =>
      if !knotActive g.st i || knotParked g.st i.c.team (knotOff i) then faultAll g i 12 (knotOff i) 1
      else if orderWaits g.st i then g
      else match g.st.team? i.c.team with
        | some t => retire (knotSet g i { t.knot (knotOff i) with guard := 0 } false) i {}
        | none => g

/-- The bytes a `knotarr` adds to the debt (R254), modulo 2^32. -/
def knotBytes (i : Issue) : Nat := match i.f.d with | .none => 0 | o => operand32 i.c i.sp.wbase o 0

/-- `knotarr` (R254). -/
def knotarrBody (i : Issue) (g : Go s0) : Go s0 :=
  if i.run = 0 then retire g i {}
  else
    let m := memberMask i
    if m = 0 then faultAll g i 3 0 0
    else match knotCause g.st i with
      | some cause => faultAll g i cause (knotOff i) 1
      | none =>
        if !knotActive g.st i then faultAll g i 12 (knotOff i) 1
        else if disagrees g.st i (.knotArrive (knotOff i)) m (knotBytes i) then faultAll g i 15 0 0
        else if orderWaits g.st i then g
        else member g i (.knotArrive (knotOff i)) m (knotBytes i)

/-- The parity of a `knotwait` (R255). -/
def knotParity (i : Issue) : Bool := operand32 i.c i.sp.wbase i.f.d 0 % 2 == 1

/-- `knotwait` (R255). -/
def knotwaitBody (i : Issue) (g : Go s0) : Go s0 :=
  if i.run = 0 then retire g i {}
  else
    let m := memberMask i
    let w := Wait.knot (knotOff i) (knotParity i)
    if m = 0 then faultAll g i 3 0 0
    else match knotCause g.st i with
      | some cause => faultAll g i cause (knotOff i) 0
      | none =>
        if !knotActive g.st i then faultAll g i 12 (knotOff i) 0
        else if disagrees g.st i w m 0 then faultAll g i 15 0 0
        else if orderWaits g.st i || teamFenceWaits g.st i then g
        else member g i w m 0

/-! ### Counted waits and flags -/

/-- Has the crew an own write to a home word that has not performed (R108)? -/
def Crew.ownPending (c : Crew) (k : Nat) : Bool :=
  c.storeq.any fun q => q.pending.any fun l => match l.loc with | .home j => overlaps j (accBytes q.ty) k 4 | _ => false

/-- The word a wait reads at its home now, with its coherence order; none where it cannot be read now (R119, R260). DESIGN CHOICE, unsafe (log 54): a word marked
poisoned compares as its stored bytes, and nothing is reported. -/
def wordNow (s : State) (x : Nat) (c : Crew) : Loc → Option (Nat × List WriteRec)
  | .home k => if s.heldLine (lineOf k) (placeCore x) || c.ownPending k then none
      else some (s.wordAt (k / 4), Tab.get [] s.wlog (k / 4))
  | .scratch t off => (s.team? t).map fun tm => (tm.word (off / 4), Tab.get [] tm.wlog (off / 4))
  | .far .. => none

/-- Waits for a word (R257, R259, R260): the instruction ends at once where the word satisfies the condition. A word on another
module is read by WAIT_REREAD. -/
def waitWord (g : Go s0) (i : Issue) (cond : FlagCond) (loc : Loc) (ea value : Nat) : Go s0 :=
  let scope := extScope i.f.ext
  let g := park g i (.word cond loc ea value scope)
  match wordNow g.st i.x i.c loc with
  | some (v, log) => if condOk cond v value then endWordWait g i.x i.k loc cond value scope log else g
  | none => g

/-- A flag or counted word at a virtual address: its checks as a read (R257, R259). A class-s count or value is read in its low 32 bits (DESIGN CHOICE,
unsafe, log 53). -/
def wordWaitBody (i : Issue) (g : Go s0) (cond : FlagCond) : Go s0 :=
  if i.run = 0 then retire g i {}
  else
    let k : AccKind := { size := 4, read := true, write := false, store := false, ord := false, exempt := true, op := none }
    match checkVirt g i k 128 (virtAddrA i 0) with
    | (.error e, g) => takeFault g i.x i.k (i.spread [e]) 0 0 false
    | (.ok c, g1) =>
      if orderWaits g.st i then g
      else waitWord g1 i cond (match c.loc, c.peers with | .far _ va, p :: _ => .far p va | l, _ => l) c.ea (i.b32 0)

/-- `cwait` (R257). A class-s count is read in its low 32 bits (DESIGN CHOICE, unsafe, log 53). -/
def cwaitBody (i : Issue) (g : Go s0) : Go s0 :=
  if i.f.ext.toNat / 8 % 2 = 0 then wordWaitBody i g .ge
  else if i.run = 0 then retire g i {}
  else
    let k : AccKind := { size := 4, read := true, write := false, store := false, ord := false, exempt := true, op := none }
    match checkScratch g.st i k 128 (i.a32 0) with
    | .error e => takeFault g i.x i.k (i.spread [e]) 0 0 false
    | .ok c => if scratchWaits g.st i 4 [c] then g else waitWord g i .ge c.loc 0 (i.b32 0)

/-- The condition of a `flagwait` (R259). -/
def flagCond (n : Nat) : FlagCond := match n with | 0 => .eq | 1 => .ne | 2 => .ge | _ => .lt

/-- `flagwait` (R259). -/
def flagwaitBody (i : Issue) (g : Go s0) : Go s0 := wordWaitBody i g (flagCond (extHigh i.f.ext))

/-- `flagsig` (R258): a release store, or an atomic add at the home without return, which releases; two adds commute (R74). -/
def flagsigBody (i : Issue) (g : Go s0) : Go s0 :=
  if i.run = 0 then retire g i {}
  else
    let add := i.f.ext.toNat / 8 % 2 = 1
    let a : MemAccess :=
      { ty := if add then .b32 else .n32, op := some (if add then .add else .store), ret := false, scope := extScope i.f.ext
        ordered := false, dest := .none, ord := false, data := fun _ => i.b32 0, expect := fun _ => 0, home := add }
    let g' := virtAccess g i a (fun _ => virtAddrA i 0) [128]
    if i.past g'.st then noRelaunch g' i.c.team else g'

def execFence (f : Fields) (s : State) : Host.Outcome State Fault Refusal := crewStep .fence f s fenceBody
def execBar (f : Fields) (s : State) : Host.Outcome State Fault Refusal := crewStep .bar f s barBody
def execKnotinit (f : Fields) (s : State) : Host.Outcome State Fault Refusal := crewStep .knotinit f s knotinitBody
def execKnotarr (f : Fields) (s : State) : Host.Outcome State Fault Refusal := crewStep .knotarr f s knotarrBody
def execKnotwait (f : Fields) (s : State) : Host.Outcome State Fault Refusal := crewStep .knotwait f s knotwaitBody
def execKnotfree (f : Fields) (s : State) : Host.Outcome State Fault Refusal := crewStep .knotfree f s knotfreeBody
def execCwait (f : Fields) (s : State) : Host.Outcome State Fault Refusal := crewStep .cwait f s cwaitBody
def execFlagsig (f : Fields) (s : State) : Host.Outcome State Fault Refusal := crewStep .flagsig f s flagsigBody
def execFlagwait (f : Fields) (s : State) : Host.Outcome State Fault Refusal := crewStep .flagwait f s flagwaitBody

/-- A re-read of a word on another module is a pass of one lane (R431). -/
def rereadFar (g : Go s0) (x k : Nat) (c : Crew) (peer : Nat) (va : BitVec 64) (cond : FlagCond) (value scope : Nat) : Go s0 :=
  if g.st.passes.any fun e => e.2.crew == x && e.2.split == k then g
  else
    let id := g.st.seq
    sendPasses (g.put .seq) id
      { crew := x, split := k, eas := [(128, va.toNat)], origin := .reread, access := 0, twice := false
        pass := { c.pass g.st x .rld .n32 id with scope := scope, wait := some (cond, value) }
        passes := [{ peer := peer, lanes := [{ lane := 128, addr := va, data := 0, expect := 0 }], st := .sent 0 }] }

/-- Where the word of a wait lies now (R260): a virtual address is translated and checked again as at issue, since its translation may have
been removed (R377). -/
def wordPlace (g : Go s0) (x : Nat) (c : Crew) (ea : Nat) : Except (Nat × Nat) Loc × Go s0 :=
  match placeOf g (coreUnits (placeCore x)) c.ctx ea 4 false (g.st.dclass c) with
  | (.cause n level, g) => (.error (n, level), g)
  | (.at_ (.far _ va) e, g) =>
    (match farPeers g c.ctx e false with
    | (.error n, g) => (.error (n, 0), g)
    | (.ok (ps, _), g) => (.ok (.far (ps.headD 0) (va + BitVec.ofNat 64 (bitf ea 60 4 * 2 ^ 60))), g))
  | (.at_ loc _, g) => (.ok loc, g)

/-- Reads the word of a waiting split again: the wait ends where it satisfies the condition, and faults where its address no longer
translates (DEDUCED, log 55). -/
def rereadWord (g : Go s0) (x k : Nat) (c : Crew) (sp : Split) (cond : FlagCond) (loc : Loc) (ea value scope : Nat) : Go s0 :=
  let test := fun (g : Go s0) (loc : Loc) =>
    match wordNow g.st x c loc with
    | some (v, log) => if condOk cond v value then endWordWait g x k loc cond value scope log else g
    | none => g
  match loc with
  | .scratch .. => test g loc
  | _ =>
    match wordPlace g x c ea with
    | (.error (n, level), g) =>
      takeFault g x k ((lanesOf sp.run c.width).map fun l => { lane := l, cause := n, addr := ea, level := level }) 0 0 false
    | (.ok (.far p va), g) => rereadFar (modSplit g x k fun sp => { sp with wait := .word cond (.far p va) ea value scope }) x k c p va cond value scope
    | (.ok loc, g) => test (modSplit g x k fun sp => { sp with wait := .word cond loc ea value scope }) loc

/-- WAIT_REREAD (R260): the word is read again, in a stopped crew too (R67). -/
def execWaitReread (x k : Nat) (s : State) : Host.Outcome State Fault Refusal :=
  match s.crew? x with
  | none => .next s
  | some c =>
    match c.split? k with
    | none => .next s
    | some sp =>
      match sp.wait with
      | .word cond loc ea value scope => (rereadWord (Go.start s) x k c sp cond loc ea value scope).done
      | _ => .next s

end Sys2Proof.Machine
end

