-- ==== Sys2Proof/Machine/Copy.lean ====
section
/-! DEFINITION. Group 11, asynchronous copy (R121 to R124, R261 to R273): `copy`, `copyg`, `kick`, batches, and what the copy
engine does (ENGINE_TRANSFER, REQUEST_LIST_ELEMENT, BATCH_COMPLETE). -/

namespace Sys2Proof.Machine

variable {s0 : State}

/-! ### Ranges -/

/-- The peers of the FABRIC-WINDOW pieces of a range, or their causes (R431). -/
def piecePeers (g : Go s0) (ctx a : Nat) (store : Bool) : Pieces → (List Stop × Pieces) × Go s0
  | [] => (([], []), g)
  | p :: ps =>
    match p.loc with
    | .far q va =>
      let (r, g) := farPeers g ctx p.leaf store
      let ((es, rest), g) := piecePeers g ctx ((a + p.len) % 2 ^ 64) store ps
      match r with
      | .error n => (({ cause := n, addr := a, write := store } :: es, rest), g)
      | .ok (peers, _) =>
        ((es, { p with loc := .far q (va + BitVec.ofNat 64 (bitf a 60 4 * 2 ^ 60)), peers := peers } :: rest), g)
    | _ =>
      let ((es, rest), g) := piecePeers g ctx ((a + p.len) % 2 ^ 64) store ps
      ((es, p :: rest), g)

/-- Checks a transfer range of a crew (R262): a scratch range, or a virtual one. -/
def checkRange (g : Go s0) (i : Issue) (scr : Bool) (a n : Nat) (write : Bool) : (List Stop × Pieces) × Go s0 :=
  if scr then
    match g.st.team? i.c.team with
    | none => (([{ cause := 5, addr := a }], []), g)
    | some t =>
      let p : Piece := { loc := .scratch i.c.team a, len := n, leaf := 0, peers := [] }
      if t.scratchSize < a + n then (([{ cause := 5, addr := a, write := write }], []), g)
      else if write && t.guarded a n then (([{ cause := 12, addr := a, write := write }], []), g)
      else (([], [p]), g)
  else
    let ((es, ps), g) := rangePiecesDet g (coreUnits (placeCore i.x)) i.c.ctx a n write (g.st.dclass i.c) (n / 2 ^ 16 + 2)
    let ((es', ps), g) := piecePeers g i.c.ctx a write ps
    ((es ++ es', ps), g)

/-- An address operand of a copy: an offset or a virtual address (R263). -/
def copyAddr (c : Crew) (o : Operand) (scr : Bool) : Nat := if scr then operand64 c o % 2 ^ 32 else operand64 c o

/-- Do two ranges of one space share a byte (R264)? -/
def rangesMeet (sscr dscr : Bool) (src dst n m : Nat) : Bool :=
  sscr == dscr && (if sscr then overlaps src n dst m else overlaps (va56 src) n (va56 dst) m)

/-- A range-lock entry (R121). -/
def lockOf (dest scr : Bool) (team a n tag : Nat) : RangeLock :=
  { dest := dest, virt := !scr, team := team, base := if scr then a else va56 a, len := n, tag := tag }

/-- The cores a team holds (R122). -/
def State.teamCores (s : State) (t : Nat) : List Nat := match s.team? t with | some tm => tm.cores | none => []

/-- Have all cores of the team `n` free range-lock entries (R122)? -/
def State.locksFree (s : State) (team n : Nat) : Bool := (s.teamCores team).all fun c => (s.coreOf c).ranges.length + n ≤ 32

/-- Registers ranges on every core of a team, and releases those of an operation (R122). -/
def lockRanges (g : Go s0) (team : Nat) (ls : List RangeLock) : Go s0 :=
  g.each (g.st.teamCores team) fun c g => modCore g c fun v => { v with ranges := v.ranges ++ ls }
def unlockRanges (g : Go s0) (team tag : Nat) : Go s0 :=
  g.each (g.st.teamCores team) fun c g => modCore g c fun v => { v with ranges := v.ranges.filter fun r => r.tag != tag }

/-! ### Units -/

/-- The units an engine writes of a segment (R264): whole 16-byte units, and single bytes where a unit lies only partly in
the range. -/
def segUnits (j : Nat) (seg : EngSeg) : List Nat :=
  let head := min seg.len ((16 - seg.dbase % 16) % 16)
  let whole := (seg.len - head) / 16
  let tail := seg.len - head - 16 * whole
  let at_ := fun o => 2 ^ 40 * j + o
  ((List.range head).map at_) ++ ((List.range whole).map fun u => at_ (head + 16 * u))
    ++ ((List.range tail).map fun b => at_ (head + 16 * whole + b))

/-- The units of segments numbered from `j` on. -/
def allUnits (j : Nat) : List EngSeg → List Nat
  | [] => []
  | s :: ss => segUnits j s ++ allUnits (j + 1) ss

/-- How many bytes a unit at offset `o` of a segment has. -/
def unitLen (seg : EngSeg) (o : Nat) : Nat := if (seg.dbase + o) % 16 = 0 && o + 16 ≤ seg.len then 16 else 1

/-- The source units that a unit's bytes come from: the first offset and the length of each (R264). -/
def sourceUnits (seg : EngSeg) (o n : Nat) : List (Nat × Nat) :=
  let first := (seg.sbase + o) / 16
  let last := (seg.sbase + o + n - 1) / 16
  (List.range (last - first + 1)).map fun k =>
    let lo := 16 * (first + k) - seg.sbase
    let hi := min seg.len (16 * (first + k + 1) - seg.sbase)
    (lo, hi - lo)

/-- The engine operation of a core, or of the copy engines that serve queues (core 640). -/
def State.engineOp (s : State) (core op : Nat) : Option EngOp :=
  if core < 640 then Tab.find (s.coreOf core).ops op else Tab.find s.engines op

/-- Updates an engine operation. -/
def setEngine (g : Go s0) (core op : Nat) (e : Option EngOp) : Go s0 :=
  if core < 640 then modCore g core fun v => { v with ops := Tab.upd v.ops op e } else g.put (.engine op e)

/-- The context of an engine operation: its team's, or its queue's. -/
def EngOp.ctx (s : State) (e : EngOp) : Nat := match s.team? e.team with | some t => t.ctx | none => e.crew

/-- Who an engine's writes are by (R72). -/
def EngOp.by_ (e : EngOp) (core : Nat) : By :=
  if core < 640 then { core := 640, launch := some e.launch, clock := e.clock, team := e.team }
  else {}

/-- The bytes of a near place, and whether an uncorrectable error is in them (R268). -/
def State.nearBytes (s : State) (n : Nat) : Loc → List Byte × Bool
  | .home k => (s.bytesAt k n, s.poisoned k n)
  | .scratch t off => match s.team? t with
    | some tm => (tm.bytesAt off n, (List.range n).any fun i => (Tab.find tm.poison (off + i)).isSome)
    | none => (List.replicate n 0, false)
  | .far .. => ([], false)

/-! ### Finishing -/

/-- A crew after an operation of one of its batches finished (R124, R267): the batch's times, reach and poison. -/
def Crew.engineEnd (id gm gf : Nat) (off poison : Bool) (c : Crew) : Crew :=
  if c.open_.contains id then
    { c with openOff := c.openOff || off, openGm := max c.openGm gm, openGf := max c.openGf gf, openPoison := c.openPoison || poison }
  else
    { c with batches := c.batches.map fun (b : Batch) =>
        if b.left.contains id then
          { left := b.left.filter fun n => n != id, gwctMod := max b.gwctMod gm, gwctFab := max b.gwctFab gf, off := b.off || off
            poison := b.poison || poison }
        else b }

/-- Ends an operation: its locks go, its batch hears of it, and a list has one element less (R122, R272). -/
def endEngine (g : Go s0) (core op : Nat) (e : EngOp) : Go s0 :=
  let g := unlockRanges (setEngine g core op none) e.team op
  match e.list with
  | some l => modCore g core fun v =>
      match Tab.find v.lists l with
      | some (n + 2) => { v with lists := Tab.put v.lists l (n + 1) }
      | _ => { v with lists := Tab.del v.lists l }
  | none =>
    match g.st.crew? e.crew with
    | some c => if c.inst = e.inst then g.put (.crew e.crew (some (c.engineEnd op e.gwctMod e.gwctFab e.off e.poison))) else g
    | none => g

/-- Ends a copy all of whose writes are acknowledged. A list element waits to be counted, and a packet's copy for its
completion. -/
def engineDone (g : Go s0) (core op : Nat) : Go s0 :=
  match g.st.engineOp core op with
  | some e => if core < 640 && e.left.isEmpty && e.far.isEmpty && e.list.isNone then endEngine g core op e else g
  | none => g

/-- An operation that has write pass `n` on its way to these peers: two of them for a MIRROR page (R128). -/
def EngOp.sends (e : EngOp) (n : Nat) (peers : List Nat) : EngOp :=
  { e with far := e.far ++ peers.map fun p => (n, p), both := if 1 < peers.length then e.both ++ [n] else e.both }

/-- Raises the issuing crew's completion times (R106). -/
def engineRaise (g : Go s0) (core : Nat) (e : EngOp) (t : Nat × Nat) (off : Bool) : Go s0 :=
  if core < 640 then
    match g.st.crew? e.crew with
    | some c => if c.inst = e.inst then g.put (.crew e.crew (some (c.raise t.1 t.2 off))) else g
    | none => g
  else g

/-! ### Passes of the engine -/

/-- Sends the passes by which an engine reads or writes bytes on other modules (R262, R431). -/
def enginePass (g : Go s0) (core op u : Nat) (e : EngOp) (kind : PassKind) (ty : Ty) (peers : List Nat)
    (lanes : List PassLane) (mop : MemOp := .store) (bad : Bool := false) : Go s0 :=
  let id := g.st.seq
  let p : PassIn := { src := g.st.mod.modid, id := id, kind := kind, ctx := e.ctx g.st, ty := ty, op := mop, scope := 0
                      ordered := false, crew := e.inst, ident := crewId (e.ctx g.st) e.crew, clock := e.clock, dclass := false
                      gang := 0, rank := 0, track := none, vc := []
                      launch := (Tab.find g.st.launches e.launch).map fun l =>
                        (l.home.getD g.st.mod.modid, if l.home.isSome then l.homeNo else e.launch)
                      mirror := none, wait := none, lanes := [], poison := bad }
  let outs : List PassOut := (sortNat peers).map fun q => { peer := q, lanes := lanes, st := .sent 0 }
  sendPasses (g.put .seq) id
    { crew := e.crew, split := 0, eas := [], passes := outs, origin := .engine core op u, access := 0, twice := 1 < peers.length
      pass := p }

/-- Reads the missing source units of a unit, near ones at once; `none` says that a pass was sent for one. -/
def gatherUnits (g : Go s0) (core op u : Nat) (e : EngOp) (seg : EngSeg) : List (Nat × Nat) → Option EngOp × Go s0
  | [] => (some e, g)
  | (o, n) :: us =>
    let key := 2 ^ 40 * (u / 2 ^ 40) + o
    match Tab.find e.buf key, placeIn seg.src o with
    | some _, _ => gatherUnits g core op u e seg us
    | none, some (.far _ va, peers) =>
      let lanes : List PassLane := (List.range n).map fun b => { lane := b, addr := va + BitVec.ofNat 64 b, data := 0, expect := 0 }
      (none, enginePass g core op key e .rld .b8 (peers.take 1) lanes)
    | none, some (loc, _) => gatherUnits g core op u { e with buf := Tab.put e.buf key (g.st.nearBytes n loc) } seg us
    | none, none => (some e, g)

/-- The bytes of a unit out of the source units read, and whether one of them had an uncorrectable error. -/
def unitBytes (e : EngOp) (seg : EngSeg) (j o n : Nat) : List Byte × Bool :=
  let us := sourceUnits seg o n
  let got := us.map fun p => (p, Tab.get ([], false) e.buf (2 ^ 40 * j + p.1))
  let all := (got.map fun p => p.2.1).flatten
  ((all.drop (o - (us.headD (o, 0)).1)).take n, got.any fun p => p.2.2)

/-- Writes a unit at its destination (R264, R268, R58, R106): the operation afterwards. The entries of a list element into scratch go with the count of
its last bytes (R272). -/
def writeUnit (g : Go s0) (core op u : Nat) (e : EngOp) (bs : List Byte) (bad : Bool) (dst : Loc × List Nat) : Go s0 :=
  let e := { e with left := e.left.filter fun v => v != u, poison := e.poison || bad }
  let g := countWork g e.team 0 bs.length
  match dst.1 with
  | .home k =>
    let g := homeStore g (e.by_ core) (cellsFrom k bs)
    let g := if bad then g.each (List.range bs.length) fun i g => g.put (.poison (k + i) true) else g
    let t := g.st.gwctOf [lineOf k] false
    engineRaise (setEngine g core op (some { e with gwctMod := max e.gwctMod (t.1 + 1), gwctFab := max e.gwctFab (t.2 + 1) }))
      core e t false
  | .scratch t off =>
    let now := g.st.now
    let e := { e with gwctMod := max e.gwctMod (now + 1), gwctFab := max e.gwctFab (now + 1) }
    let g := engineRaise (setEngine g core op (some e)) core e (now, now) false
    let g := scratchStore g t (e.by_ core) (cellsFrom off bs)
    let g := if bad then modTeam g t fun tm =>
        { tm with poison := (List.range bs.length).foldl (fun (m : Table Unit) i => Tab.put m (off + i) ()) tm.poison } else g
    let g := if e.list.isSome && e.left.isEmpty && e.far.isEmpty then endEngine g core op e else g
    match e.knot with
    | some kn => knotPay g t kn bs.length e.clock [] 0
    | none => g
  | .far _ va =>
    let lanes : List PassLane :=
      if bs.length = 16 then [{ lane := 0, addr := va, data := leNat bs, expect := 0 }]
      else (List.range bs.length).map fun b => { lane := b, addr := va + BitVec.ofNat 64 b, data := leNat ((bs.drop b).take 1), expect := 0 }
    let g := setEngine g core op (some (e.sends g.st.seq dst.2))
    enginePass g core op u e .rst (if bs.length = 16 then .b128 else .b8) dst.2 lanes (bad := bad)

/-- May an engine operation go on (R124): its crew's earlier stores have performed, and, where it reaches other modules, are
acknowledged? -/
def engineReady (s : State) (core : Nat) (e : EngOp) : Bool :=
  if core < 640 then
    match s.crew? e.crew with
    | some c => c.inst == e.inst && c.storeq.all (fun q => e.after ≤ q.id || (q.left.isEmpty && !s.inPasses q.id))
        && c.sent.all fun f => e.after ≤ f.store
    | none => false
  else true

/-- Do exclusive leases keep the engine from a unit now (R119)? -/
def unitHeld (s : State) (seg : EngSeg) (o n : Nat) : Bool :=
  let held := fun ps o => match placeIn ps o with
    | some (.home k, _) => s.heldLine (lineOf k) 640
    | _ => false
  held seg.dst o || (sourceUnits seg o n).any fun p => held seg.src p.1

/-- The report of a list element that read an uncorrectable error (R272, R62, R382): once, at the first such unit. -/
def elementReport (g : Go s0) (e : EngOp) (addr : Nat) : Go s0 :=
  let ctx := e.ctx g.st
  sendRecord g ctx { FaultRec.event 1 3 (crewId ctx e.crew) addr g.st.now with cause := 18 }

/-- ENGINE_TRANSFER (R264, R265, R272): one unit. -/
def engineUnit (g : Go s0) (core op u : Nat) (e : EngOp) (seg : EngSeg) : Go s0 :=
  let o := u % 2 ^ 40
  let n := unitLen seg o
  match gatherUnits g core op u e seg (sourceUnits seg o n), placeIn seg.dst o with
  | (some e, g), some dst =>
    let (bs, bad) := unitBytes e seg (u / 2 ^ 40) o n
    let g := if bad && !e.poison && e.list.isSome then elementReport g e (seg.sbase + o) else g
    engineDone (writeUnit g core op u e bs bad dst) core op
  | (_, g), _ => g

def execEngineTransfer (core op u : Nat) (s : State) : Host.Outcome State Fault Refusal :=
  match s.engineOp core op with
  | none => .next s
  | some e =>
    match e.segs[u / 2 ^ 40]? with
    | none => .next s
    | some seg =>
      let busy := s.passes.any fun p => match p.2.origin with | .engine c o _ => c == core && o == op | _ => false
      if e.left.contains u && !busy && engineReady s core e && !unitHeld s seg (u % 2 ^ 40) (unitLen seg (u % 2 ^ 40)) then
        (engineUnit (Go.start s) core op u e seg).done
      else .next s

/-- A list element's bytes outside scratch count once Now passes the times of their writes (R124). -/
def elementDue (s : State) (e : EngOp) : Bool :=
  e.list.isSome && e.left.isEmpty && e.far.isEmpty && (if e.off then e.gwctFab else e.gwctMod) ≤ s.now

/-- Is the element's destination scratch? -/
def EngOp.toScratch (e : EngOp) : Bool := match e.segs with
  | seg :: _ => (match seg.dst with | p :: _ => (match p.loc with | .scratch .. => true | _ => false) | [] => false)
  | [] => false

/-- REQUEST_LIST_ELEMENT (R272): the element is counted on the knot, and its entries are released. -/
def execRequestListElement (core op : Nat) (s : State) : Host.Outcome State Fault Refusal :=
  match s.engineOp core op with
  | none => .next s
  | some e =>
    if core < 640 && elementDue s e then
      let g := endEngine (Go.start s) core op e
      match e.knot with
      | some kn => (if e.toScratch then g
          else knotPay g e.team kn (e.segs.foldl (fun a seg => a + seg.len) 0) e.clock [] (if e.off then 5 else 4)).done
      | none => g.done
    else .next s

/-! ### Issue -/

/-- Faults of a uniform instruction: each stop in every lane of C (R261). -/
def faultStops (g : Go s0) (i : Issue) (es : List Stop) (access : Nat) : Go s0 :=
  takeFault g i.x i.k (stopFaults i.lanes es) access 0 false

/-- A new engine operation of the issuing crew. -/
def newEngine (s : State) (i : Issue) (segs : List EngSeg) (list knot : Option Nat) (after : Nat) : EngOp :=
  { crew := i.x, inst := i.c.inst, team := i.c.team, launch := s.launchOf i.c, epoch := i.c.epoch, segs := segs
    left := allUnits 0 segs, buf := [], far := [], list := list, knot := knot, clock := i.sp.clock + 1, gwctMod := 0, gwctFab := 0
    off := segs.any fun seg => Pieces.off seg.dst, poison := false, after := after }

/-- A FABRIC-WINDOW page in a range ends the team's relaunch eligibility (R232). -/
def rangesRelaunch (g : Go s0) (i : Issue) (segs : List EngSeg) : Go s0 := offRelaunch g i.c.team (segs.map fun seg => seg.src ++ seg.dst).flatten

/-- Has the core's engine room for one more `copy` or `copyg` (R269)? -/
def copyRoom (s : State) (core : Nat) : Bool :=
  ((s.coreOf core).ops.filter fun e => e.2.list.isNone).length < 64

/-- Starts a `copy` or `copyg` whose checks passed, or waits in issue (R122, R124, R269). -/
def startCopy (g0 g : Go s0) (i : Issue) (segs : List EngSeg) (locks : Nat → List RangeLock) : Go s0 :=
  let core := placeCore i.x
  if !i.c.order.isEmpty || !copyRoom g.st core || !g.st.locksFree i.c.team 2 then g0
  else
    let id := g.st.seq
    let e := newEngine g.st i segs none none id
    let g := lockRanges (setEngine (g.put .seq) core id (some e)) i.c.team (locks id)
    let g := retire (rangesRelaunch g i segs) i {}
    let g := modCrew g i.x fun c => { c with open_ := c.open_ ++ [id] }
    engineDone g core id

/-- The virtual ranges of a transfer. -/
def virtRanges (sscr dscr : Bool) (src dst n : Nat) : List (Nat × Nat) := (if sscr then [] else [(src, n)]) ++ if dscr then [] else [(dst, n)]

/-- Checks the two ranges of a copy, their pages looked up in increasing order (R262, R264, R433). -/
def checkPair (g : Go s0) (i : Issue) (sscr dscr : Bool) (src dst n : Nat) : (List Stop × Pieces × Pieces) × Go s0 :=
  let g := lookRanges g (coreUnits (placeCore i.x)) i.c.ctx (virtRanges sscr dscr src dst n)
  let ((es, ps), g) := checkRange g i sscr src n false
  let ((ed, pd), g) := checkRange g i dscr dst n true
  ((es ++ ed, ps, pd), g)

/-- `copy` (R264). -/
def copyBody (i : Issue) (g : Go s0) : Go s0 :=
  if i.run = 0 then retire g i {}
  else
    let dscr := i.f.ext.toNat % 2 == 1
    let sscr := i.f.ext.toNat / 2 % 2 == 1
    let n := i.b32 0
    let src := copyAddr i.ca i.f.a sscr
    let dst := copyAddr i.c i.f.d dscr
    if n = 0 then retire g i {}
    else if 2 ^ 24 < n || rangesMeet sscr dscr src dst n n then faultAll g i 3 0 0
    else
      let ((es, ps, pd), g1) := checkPair g i sscr dscr src dst n
      if !es.isEmpty then faultStops g1 i es 0
      else startCopy g g1 i [{ src := ps, dst := pd, sbase := src, dbase := dst, len := n }] fun id =>
        [lockOf false sscr i.c.team src n id, lockOf true dscr i.c.team dst n id]

/-! ### Gather -/

/-- The source and destination of a lane's row (R265). -/
def gatherSrc (i : Issue) (sscr : Bool) (z l : Nat) : Nat :=
  let a := copyAddr i.ca i.f.a sscr + operand32 i.cb i.sp.wbase i.f.b l * z
  if sscr then a % 2 ^ 32 else a % 2 ^ 64
def gatherDst (i : Issue) (dscr : Bool) (z l : Nat) : Nat :=
  let a := copyAddr i.c i.f.d dscr + l * z
  if dscr then a else a % 2 ^ 64

/-- Checks the rows lane by lane (R265): faults by lane, and the segments. -/
def gatherChecks (g : Go s0) (i : Issue) (sscr dscr : Bool) (z : Nat) : List Nat → (List LaneFault × List EngSeg) × Go s0
  | [] => (([], []), g)
  | l :: ls =>
    let src := gatherSrc i sscr z l
    let dst := gatherDst i dscr z l
    let ((es, ps), g) := checkRange g i sscr src z false
    let ((ed, pd), g) := checkRange g i dscr dst z true
    let ((fs, segs), g) := gatherChecks g i sscr dscr z ls
    ((stopFaults [l] (es ++ ed) ++ fs, { src := ps, dst := pd, sbase := src, dbase := dst, len := z } :: segs), g)

/-- The rows with their pages looked up in increasing order (R433). -/
def gatherRows (g : Go s0) (i : Issue) (sscr dscr : Bool) (z : Nat) (ls : List Nat) : (List LaneFault × List EngSeg) × Go s0 :=
  gatherChecks (lookRanges g (coreUnits (placeCore i.x)) i.c.ctx
    (ls.map fun l => virtRanges sscr dscr (gatherSrc i sscr z l) (gatherDst i dscr z l) z).flatten) i sscr dscr z ls

/-- `copyg` (R265). -/
def copygBody (i : Issue) (g : Go s0) : Go s0 :=
  match i.lanes with
  | [] => retire g i {}
  | l0 :: _ =>
    let dscr := i.f.ext.toNat % 2 == 1
    let sscr := i.f.ext.toNat / 2 % 2 == 1
    let z := 2 ^ Sel.varNo i.f.sel
    let base := copyAddr i.ca i.f.a sscr
    let dst := copyAddr i.c i.f.d dscr
    let srcs := i.lanes.map fun l => gatherSrc i sscr z l
    let lo := srcs.foldl min (gatherSrc i sscr z l0)
    let hi := srcs.foldl max 0 + z
    let align : List LaneFault := if base % min z 16 ≠ 0 || dst % min z 16 ≠ 0 then allFault i.lanes 4 else []
    let meet : List LaneFault := if rangesMeet sscr dscr lo dst (hi - lo) (i.c.width * z) then allFault i.lanes 3 else []
    let ((fs, segs), g1) := gatherRows g i sscr dscr z i.lanes
    if !(align ++ meet ++ fs).isEmpty then takeFault g1 i.x i.k (align ++ meet ++ fs) 0 0 false
    else startCopy g g1 i segs fun id =>
      [lockOf false sscr i.c.team lo (hi - lo) id, lockOf true dscr i.c.team dst (i.c.width * z) id]

/-! ### Batches -/

/-- Operations of the crew that have not finished: engine operations and announcements (R62, R267). -/
def State.openOps (s : State) (c : Crew) (x : Nat) : List Nat :=
  ((s.coreOf (placeCore x)).ops.filterMap fun e => if e.2.inst = c.inst && e.2.list.isNone then some e.1 else none)
    ++ s.announces.filterMap fun e => if e.2.inst = c.inst then some e.1 else none

/-- A crew with its batch closed (R267). -/
def Crew.closeBatch (unfinished : List Nat) (c : Crew) : Crew :=
  let b : Batch := { left := c.open_.filter fun n => unfinished.contains n, gwctMod := c.openGm, gwctFab := c.openGf, off := c.openOff
                     poison := c.openPoison }
  { c with closed := c.closed + 1, batches := c.batches ++ [b], open_ := [], openOff := false, openGm := 0, openGf := 0
           openPoison := false }

/-- Has a closed batch reached its completion condition (R124)? -/
def Batch.due (b : Batch) (now : Nat) : Bool := b.left.isEmpty && (if b.off then b.gwctFab else b.gwctMod) ≤ now

/-- Completes the head batch (R267). -/
def Crew.batchDone (c : Crew) : Crew :=
  match c.batches with
  | [] => c
  | b :: bs => { c with batches := bs, done := c.done + 1
                        poisonBatch := if b.poison then c.poisonBatch ++ [c.done + 1] else c.poisonBatch }

/-- A `bwait n` whose batches are complete (R268): poison where one of them read it, for the first time; else it returns, having
acquired. `end_` retires it. -/
def bwaitEnd (g : Go s0) (x k n : Nat) (lanes : List Nat) (end_ : Go s0 → Go s0) : Go s0 :=
  match g.st.crew? x with
  | none => g
  | some c =>
    if c.poisonBatch.any fun b => b ≤ n then
      takeFault (modCrew g x fun c => { c with poisonBatch := c.poisonBatch.filter fun b => n < b }) x k (allFault lanes 18) 0 0 false
    else
      let g := end_ g
      if n = 0 then g else dropCopies g x

/-- Ends the `bwait`s of a crew (R268). -/
def endBwaits (g : Go s0) (x : Nat) : Go s0 :=
  match g.st.crew? x with
  | none => g
  | some c =>
    g.each c.splits fun e g =>
      match e.2.wait, g.st.crew? x with
      | .bwait n lanes, some c =>
        if n ≤ c.done then bwaitEnd g x e.1 n (lanesOf lanes c.width) fun g => endWait g x e.1 0 [] else g
      | _, _ => g

/-- `batch` (R267). -/
def batchBody (i : Issue) (g : Go s0) : Go s0 :=
  if i.run = 0 then retire g i {}
  else if 64 ≤ i.c.closed - i.c.done then g
  else
    let un := g.st.openOps i.c i.x
    let g := retire g i (match i.f.d with | .s n => { s := [(n.toNat, i.c.closed + 1)] } | _ => {})
    modCrew g i.x fun c => c.closeBatch un

/-- `bwait` (R268). -/
def bwaitBody (i : Issue) (g : Go s0) : Go s0 :=
  if i.run = 0 then retire g i {}
  else
    let n := operand64 i.ca i.f.a
    if i.c.closed < n then faultAll g i 3 0 0
    else if n ≤ i.c.done then bwaitEnd g i.x i.k n i.lanes fun g => retire g i {}
    else park g i (.bwait n i.run)

/-- BATCH_COMPLETE (R124, R267). -/
def execBatchComplete (x : Nat) (s : State) : Host.Outcome State Fault Refusal :=
  match s.crew? x with
  | none => .next s
  | some c =>
    match c.batches with
    | b :: _ => if b.due s.now then (endBwaits (modCrew (Go.start s) x Crew.batchDone) x).done else .next s
    | [] => .next s

/-! ### Request lists -/

/-- An element of a request list (R271). -/
structure ListElem where
  dscr : Bool
  sscr : Bool
  len  : Nat
  dst  : Nat
  src  : Nat
  resv : Nat
deriving DecidableEq, Repr

/-- Decodes an element: addresses of scratch ranges take the low 32 bits, as for `copy`. -/
def listElem (v : Nat) : ListElem :=
  let dscr := bitf v 161 1 == 1
  let sscr := bitf v 160 1 == 1
  { dscr := dscr, sscr := sscr, len := bitf v 128 32, dst := if dscr then bitf v 64 32 else bitf v 64 64
    src := if sscr then bitf v 0 32 else bitf v 0 64, resv := v / 2 ^ 162 }

/-- Is an element's word reserved, its length out of range, or do its ranges meet (R271)? -/
def ListElem.bad (e : ListElem) : Bool := e.resv ≠ 0 || e.len = 0 || 2 ^ 24 < e.len || rangesMeet e.sscr e.dscr e.src e.dst e.len e.len

/-- Checks the elements (R272 step 2): stops, and the elements with their segments. -/
def elemChecks (g : Go s0) (i : Issue) : List ListElem → (List Stop × List (ListElem × EngSeg)) × Go s0
  | [] => (([], []), g)
  | e :: es =>
    let ((a, ps), g) := if e.bad then (([], []), g) else checkRange g i e.sscr e.src e.len false
    let ((b, pd), g) := if e.bad then (([], []), g) else checkRange g i e.dscr e.dst e.len true
    let mine : List Stop := if e.bad then [{ cause := 3 }] else a ++ b
    let ((c, segs), g) := elemChecks g i es
    ((mine ++ c, (e, { src := ps, dst := pd, sbase := e.src, dbase := e.dst, len := e.len }) :: segs), g)

/-- The elements with their pages looked up in increasing order (R433). -/
def kickElems (g : Go s0) (i : Issue) (es : List ListElem) : (List Stop × List (ListElem × EngSeg)) × Go s0 :=
  elemChecks (lookRanges g (coreUnits (placeCore i.x)) i.c.ctx
    ((es.filter fun e => !e.bad).map fun e => virtRanges e.sscr e.dscr e.src e.dst e.len).flatten) i es

/-- Registers the elements of a list (R272 step 3). -/
def kickStart (g : Go s0) (i : Issue) (list knot after : Nat) : List (ListElem × EngSeg) → Go s0
  | [] => g
  | (e, seg) :: es =>
    let core := placeCore i.x
    let id := g.st.seq
    let g := setEngine (g.put .seq) core id (some (newEngine g.st i [seg] (some list) (some knot) after))
    kickStart (lockRanges g i.c.team [lockOf false e.sscr i.c.team e.src e.len id, lockOf true e.dscr i.c.team e.dst e.len id])
      i list knot after es

/-- The scratch offsets that `kick` reads, 16 bytes each: the header, and two for each of `n` elements (R271). -/
def listReads (off n : Nat) : List Nat := (List.range (2 * n + 1)).map fun j => off + 16 * j

/-- The stops of reading a list (R272), and the accesses it makes. -/
def listStops (s : State) (i : Issue) (offs : List Nat) : List Stop × List Checked :=
  let k : AccKind := { size := 16, read := true, write := false, store := false, ord := false, op := none }
  offs.foldr (fun o (a : List Stop × List Checked) =>
    match checkScratch s i k 128 o with
    | .error e => ({ cause := e.cause, addr := e.addr } :: a.1, a.2)
    | .ok c => (a.1, c :: a.2)) ([], [])

/-- `kick` (R272, R273). -/
def kickBody (i : Issue) (g : Go s0) : Go s0 :=
  if i.run = 0 then retire g i {}
  else
    let off := operand64 i.ca i.f.a % 2 ^ 32
    let core := placeCore i.x
    match g.st.team? i.c.team with
    | none => g
    | some tm =>
      let (hs, _) := listStops g.st i [off]
      if hs.any fun e => e.cause = 4 || e.cause = 5 then faultStops g i hs 0
      else
        let h := leNat (tm.bytesAt off 16)
        let n := bitf h 48 5
        let knot := bitf h 0 23
        if h / 2 ^ 53 ≠ 0 || bitf h 23 25 ≠ 0 || n = 0 || 16 < n then faultStops g i (hs ++ [{ cause := 3, addr := off }]) 0
        else
          let (rs, cs) := listStops g.st i (listReads off n)
          let fits := (List.range n).filter fun e => off + 16 + 32 * e + 32 ≤ tm.scratchSize
          let elems := fits.map fun e => listElem (leNat (tm.bytesAt (off + 16 + 32 * e) 32))
          let ((es, segs), g1) := kickElems g i elems
          let ks : List Stop := if knot % 16 = 0 && tm.active knot then [] else [{ cause := 12, addr := knot }]
          if !(rs ++ es ++ ks).isEmpty then faultStops g1 i (rs ++ es ++ ks) 0
          else if i.c.heldBack g.st.seq || 64 ≤ (g.st.coreOf core).lists.length || !g.st.locksFree i.c.team (2 * n) then g
          else
            let list := g1.st.seq
            let g := g1.put .seq
            let g := trackNow g i false (cs.map fun c => { loc := c.loc, size := 16, read := true, write := false, op := none })
            let slot := ((tm.cores.zip tm.slots).find? fun p => p.1 == core).map Prod.snd
            let g := modCore g core fun v => { v with lists := Tab.put v.lists list n, kickTeam := slot.getD 0, kickList := off }
            let g := kickStart g i list knot list segs
            retire (rangesRelaunch g i (segs.map Prod.snd)) i {}

def execCopy (f : Fields) (s : State) : Host.Outcome State Fault Refusal := crewStep .copy f s copyBody
def execCopyg (f : Fields) (s : State) : Host.Outcome State Fault Refusal := crewStep .copyg f s copygBody
def execBatch (f : Fields) (s : State) : Host.Outcome State Fault Refusal := crewStep .batch f s batchBody
def execBwait (f : Fields) (s : State) : Host.Outcome State Fault Refusal := crewStep .bwait f s bwaitBody
def execKick (f : Fields) (s : State) : Host.Outcome State Fault Refusal := crewStep .kick f s kickBody

end Sys2Proof.Machine
end

