-- ==== Sys2Proof/Machine/Image.lean ====
section
/-! DEFINITION. Save images: the crew image (R386, R387), reading its register sections (R378), the context save area with its
directory (R385, R424), and the context fault to which a save that fails escalates (R392). -/

namespace Sys2Proof.Machine

variable {s0 : State}

/-! ### Sections -/

/-- A section whose layout the manual does not give, cut to its size (log 22). -/
def packed (n size : Nat) (xs : List Nat) : List Byte := ((Config.packFields n xs) ++ List.replicate size 0).take size

/-- A number laid out from fields of given widths, the first in the lowest bits (DEDUCED, log 59). -/
def packBits : List (Nat × Nat) → Nat
  | [] => 0
  | (w, v) :: t => v % 2 ^ w + 2 ^ w * packBits t

/-- The fields of given widths, the first in the lowest bits, and what lies above them. -/
def cutBits : List Nat → Nat → List Nat
  | [], n => [n]
  | w :: ws, n => n % 2 ^ w :: cutBits ws (n / 2 ^ w)

/-- An index and its valid bit (R42 JOIN, PARENT). -/
def optBits : Option Nat → List (Nat × Nat)
  | some n => [(2, n), (1, 1)]
  | none => [(2, 0), (1, 0)]

/-- The number of a split's state (R42). -/
def SplitSt.code : SplitSt → Nat
  | .ready => 0 | .blocked => 1 | .mergeWait => 2 | .frameWait => 3 | .stopped => 4

/-- The state of a split in an image: stopped in a stopped crew's, else what it was before the save stopped it (R70, R378). -/
def Split.imageState (p : Split) (stopped : Bool) : SplitSt := if p.st = .stopped && !stopped then p.held else p.st

/-- A split table entry of 64 bytes in the fields of R42. -/
def splitBytes (stopped : Bool) : Option Split → List Byte
  | some p => leBytes (packBits ([(1, 1), (3, (p.imageState stopped).code), (56, p.pc.toNat), (128, p.mask.toNat), (32, p.fmt.toNat), (8, p.wbase), (16, p.depth)]
      ++ optBits p.join ++ [(64, p.clock), (4, p.mstack.length), (32, p.mspill.length)])) 64
  | none => List.replicate 64 0

/-- A join record of 16 bytes (R42): one in use has SIDES 1 to 4. -/
def joinBytes : Option JoinRec → List Byte
  | some j => leBytes (packBits ([(56, j.mergePc.toNat), (32, j.fmt.toNat), (8, j.base), (16, j.depth)] ++ optBits j.parent ++ [(3, j.sides)])) 16
  | none => List.replicate 16 0

/-- A mask-stack entry of 48 bytes (R48): kind 1 a PATH entry, 2 an RJ entry, 0 none. -/
def maskBytes : Option MaskEntry → List Byte
  | some (.path t l m f w) => leBytes (packBits [(2, 1), (56, t.toNat), (128, l.toNat), (56, m.toNat), (32, f.toNat), (8, w)]) 48
  | some (.rj m u f w) => leBytes (packBits [(2, 2), (56, 0), (128, u.toNat), (56, m.toNat), (32, f.toNat), (8, w)]) 48
  | none => List.replicate 48 0

/-- The sections that hold the split table, the join records and the mask stacks (R386). -/
def splitSection (c : Crew) (stopped : Bool) : List Byte := ((List.range 4).map fun k => splitBytes stopped (c.split? k)).flatten
def joinSection (c : Crew) : List Byte := ((List.range 3).map fun k => joinBytes (Tab.find c.joins k)).flatten
def maskSection (c : Crew) : List Byte :=
  ((List.range 4).map fun k => ((List.range 8).map fun j => maskBytes ((c.split? k).bind fun p => p.mstack[j]?)).flatten).flatten

/-- The sections of a crew image up to the vector rows (R386). -/
def crewSections (s : State) (x : Nat) (c : Crew) (st : Nat) : List Byte :=
  let tm := s.team? c.team
  let slot := match tm with
    | some t => (((t.cores.zip t.slots).find? fun e => e.1 == placeCore x).map Prod.snd).getD 0
    | none => 0
  let size := 4096 + 4 * c.width * c.wrows
  let header := leBytes (st + 2 ^ 64 + 2 ^ 96 * crewId c.ctx x + 2 ^ 128 * (c.width / 32) + 2 ^ 136 * (slot % 2 ^ 8)
    + 2 ^ 144 * c.wrows + 2 ^ 160 * size + 2 ^ 192 * (s.now % 2 ^ 64)) 64
  header
    ++ (match c.frec with | some r => r.bytes | none => List.replicate 64 0)
    ++ splitSection c (st == 2) ++ joinSection c ++ List.replicate 16 0 ++ maskSection c
    ++ ((List.range 64).map fun n => leBytes (c.uni n).toNat 8).flatten
    ++ (List.replicate 16 255 ++ ((List.range 7).map fun n => leBytes (c.predSet (n + 1)).toNat 16).flatten)
    ++ ((List.range 4).map fun n => leBytes (c.layReg n).toNat 32).flatten
    ++ ((List.range 4).map fun n => let v := Tab.get (0, 0) c.lstat n; leBytes (v.2 + 2 ^ 32 * v.1) 8).flatten
    ++ ([c.gmod, c.gfab, c.open_.length, c.closed, c.done, c.claimSeq, c.spillTop.toNat, 0].map fun v => leBytes v 8).flatten
    ++ packed 4 512 ((c.uncov.filter fun u => u.poison != 0).map fun u => [u.id, u.poison.toNat]).flatten
    ++ packed 5 256 ((c.targets.map fun t => t.2.peer :: t.2.counts).flatten)
    ++ packed 6 256 ((c.handles.map fun h => [h.1, h.2.seq, h.2.tag, h.2.cap]).flatten)
    ++ List.replicate 224 0

/-- The crew image (R386): `st` is IMG.STATE. -/
def crewImage (s : State) (x : Nat) (c : Crew) (st : Nat) : List Byte :=
  crewSections s x c st
    ++ ((List.range c.wrows).map fun r => ((List.range c.width).map fun l => leBytes (c.row r l).toNat 4).flatten).flatten

/-- IMG.STATE of a crew before it is stopped for a save. -/
def imageState (c : Crew) : Nat :=
  if c.st = .stopped then 2 else if c.splits.any fun e => e.2.st == .ready then 0 else 1

/-! ### Reading an image -/

/-- Bytes of an image as a number. -/
def imgNum (bs : List Byte) (off n : Nat) : Nat := leNat ((bs.drop off).take n)

/-- The bytes are 0. -/
def imgZero (bs : List Byte) (off n : Nat) : Bool := imgNum bs off n == 0

/-- A split that only an image describes. -/
def Split.blank : Split :=
  { st := .ready, pc := 0, mask := 0, fmt := 0x880, wbase := 0, depth := 0, join := none, clock := 0, mstack := []
    mspill := [], frames := [], wait := .none, run := 0, held := .ready, faulted := false, trapped := false, windows := []
    latchA := none, latchB := none }

/-- What a restored split of a STATE of R42 is once its crew is resumed. The image holds no wait: a blocked or stopped split that stands at the same
instruction on the core is what it is there, and another one issues the instruction at its PC again (DEDUCED, log 59). -/
def heldOf (old : Option Split) (pc st : Nat) : SplitSt :=
  let here := match old with | some p => if p.pc.toNat = pc then some p.held else none | none => none
  match st with
  | 0 => .ready
  | 1 => if here = some .blocked then .blocked else .ready
  | 2 => .mergeWait
  | 3 => .frameWait
  | _ => here.getD .ready

/-- The widths of the fields of a split entry, a join record and a mask-stack entry. -/
def splitWidths : List Nat := [1, 3, 56, 128, 32, 8, 16, 2, 1, 64, 4, 32]
def joinWidths : List Nat := [56, 32, 8, 16, 2, 1, 3]
def maskWidths : List Nat := [2, 56, 128, 56, 32, 8]

/-- The fields of an entry of an image and the bits above them, which are reserved. -/
def imageFields (bs : List Byte) (off n : Nat) (ws : List Nat) : List Nat := cutBits ws (imgNum bs off n)
def splitImage (bs : List Byte) (k : Nat) : List Nat := imageFields bs (0x80 + 64 * k) 64 splitWidths
def joinImage (bs : List Byte) (k : Nat) : List Nat := imageFields bs (0x180 + 16 * k) 16 joinWidths
def maskImage (bs : List Byte) (k j : Nat) : List Nat := imageFields bs (0x1C0 + 384 * k + 48 * j) 48 maskWidths

/-- The valid bit or index of an option in an image. -/
def optOf (v n : Nat) : Option Nat := if v = 1 then some n else none

/-- A mask-stack entry as an image gives it. -/
def maskOf (xs : List Nat) : Option MaskEntry :=
  let n := fun k => xs.getD k 0
  match n 0 with
  | 1 => some (.path (BitVec.ofNat 56 (n 1)) (BitVec.ofNat 128 (n 2)) (BitVec.ofNat 56 (n 3)) (BitVec.ofNat 32 (n 4)) (n 5))
  | 2 => some (.rj (BitVec.ofNat 56 (n 3)) (BitVec.ofNat 128 (n 2)) (BitVec.ofNat 32 (n 4)) (n 5))
  | _ => none

/-- A split entry as an image gives it (R378), over what the core holds beside it: its frames, its wait where it still is in one, and the
oldest spilled mask-stack entries that MSTACK counts. -/
def splitOf (old : Option Split) (xs : List Nat) (stack : List MaskEntry) : Option Split :=
  let n := fun k => xs.getD k 0
  if n 0 = 0 then none
  else
    let base := old.getD Split.blank
    let held := heldOf old (n 2) (n 1)
    some { base with st := .stopped, held := held, wait := if held = .blocked then base.wait else .none, pc := BitVec.ofNat 56 (n 2)
                     mask := BitVec.ofNat 128 (n 3), fmt := BitVec.ofNat 32 (n 4), wbase := n 5, depth := n 6, join := optOf (n 8) (n 7)
                     clock := n 9, mstack := stack, mspill := base.mspill.drop (base.mspill.length - n 11) }

/-- A join record as an image gives it; one with SIDES 0 is free. -/
def joinOf (xs : List Nat) : Option JoinRec :=
  let n := fun k => xs.getD k 0
  if n 6 = 0 then none
  else some { mergePc := BitVec.ofNat 56 (n 0), fmt := BitVec.ofNat 32 (n 1), base := n 2, depth := n 3, parent := optOf (n 5) (n 4)
              sides := n 6 }

/-- Numbered entries that are present. -/
def present {β : Type} : Nat → List (Option β) → Table β
  | _, [] => []
  | k, some v :: t => (k, v) :: present (k + 1) t
  | k, none :: t => present (k + 1) t

/-- The split table with its mask stacks, and the join records, of an image. -/
def imageSplits (c : Crew) (bs : List Byte) : Table Split :=
  present 0 ((List.range 4).map fun k =>
    let xs := splitImage bs k
    splitOf (c.split? k) xs ((List.range (xs.getD 10 0)).filterMap fun j => maskOf (maskImage bs k j)))
def imageJoins (bs : List Byte) : Table JoinRec := present 0 ((List.range 3).map fun k => joinOf (joinImage bs k))

/-- Is a reserved bit of the split table, the join records or the mask stacks nonzero, or are there more than 8 on-chip entries (R378)? -/
def imageOdd (bs : List Byte) : Bool :=
  (List.range 4).any (fun k => let xs := splitImage bs k
    xs.getD 12 0 != 0 || (xs.getD 0 0 == 1 && 8 < xs.getD 10 0) || (List.range 8).any fun j => (maskImage bs k j).getD 6 0 != 0)
  || (List.range 3).any fun k => (joinImage bs k).getD 7 0 != 0

/-- Does `crest` reject the image (R378)? -/
def imageBad (c : Crew) (x : Nat) (bs : List Byte) : Bool :=
  let splits := imageSplits c bs
  let joins := imageJoins bs
  imgNum bs 8 4 != 1 || imgNum bs 12 4 != crewId c.ctx x || imgNum bs 16 1 != c.width / 32 || imgNum bs 18 2 != c.wrows
    || imgNum bs 0 8 / 4 != 0 || !imgZero bs 32 32
    || !imgZero bs 0x4F 1 || ((List.range 4).any fun k => layReserved (BitVec.ofNat 256 (imgNum bs (0xA40 + 32 * k) 32)))
    || !imgZero bs 0x1B0 16 || !imgZero bs 0xB18 8 || !imgZero bs 0xF20 224
    || imageOdd bs || splits.any fun e =>
      e.2.mask &&& ~~~laneMask c.width != 0 || !fmtOk false e.2.fmt.toNat
        || (match e.2.join with | some j => (Tab.find joins j).isNone | none => false)

/-- The crew with the register sections of an image (R378): split table, join records, mask stacks, `s`, `p`, layout registers, LSTAT
counters and `v`. -/
def Crew.fromImage (c : Crew) (bs : List Byte) : Crew :=
  let c1 : Crew := { c with splits := imageSplits c bs, joins := imageJoins bs
                            lstat := (List.range 4).foldl (fun (t : Table (Nat × Nat)) n =>
                              Tab.set (0, 0) t n (imgNum bs (0xAC4 + 8 * n) 4, imgNum bs (0xAC0 + 8 * n) 4)) [] }
  let c2 := (List.range 64).foldl (fun (c : Crew) n => c.setUni n (imgNum bs (0x7C0 + 8 * n) 8)) c1
  let c3 := (List.range 7).foldl (fun (c : Crew) n =>
    { c with p := Tab.set 0 c.p (n + 1) (BitVec.ofNat 128 (imgNum bs (0x9D0 + 16 * n) 16) &&& laneMask c.width) }) c2
  let c4 := (List.range 4).foldl (fun (c : Crew) n => c.setLay n (BitVec.ofNat 256 (imgNum bs (0xA40 + 32 * n) 32))) c3
  (List.range c.wrows).foldl (fun (c : Crew) r =>
    (List.range c.width).foldl (fun (c : Crew) l => c.setRow r l (imgNum bs (0x1000 + 4 * (c.width * r + l)) 4)) c) c4

/-! ### The context fault -/

/-- A winch context that stops (R469). -/
def Wctx.stopped (v : Wctx) : Wctx := { v with state := 4, wait := 0, cmd := none, stepping := false, burst := 0 }

/-- The stop command (R469), also given by a context fault (R392): at the next chunk boundary; one that waits, or has not begun since the
last one, is at a boundary. -/
def Wctx.stop (v : Wctx) : Wctx :=
  if v.state = 3 || (v.state = 2 && v.burst = 0) then v.stopped
  else if v.state = 2 then { v with cmd := some 3 }
  else v

/-- A context stops (R392, R484): its crews, those in an image too, and its winch contexts. -/
def stopContext (g : Go s0) (ctx : Nat) : Go s0 :=
  let g := modCtx g ctx fun v => { v with state := if v.state = 3 then 3 else 2 }
  let g := g.each (g.st.crews.filter fun e => e.2.ctx == ctx && e.2.st == .running) fun e g => modCrew g e.1 Crew.stop
  let g := g.each (g.st.saved.filter fun e => e.2.ctx == ctx) fun e g =>
    g.put (.saved e.1 (some { e.2 with crews := e.2.crews.map fun c => (c.1, if c.2.st = .running then c.2.stop else c.2) }))
  g.each (g.st.wctxs.filter fun e => e.2.tid.toNat == ctx) fun e g => g.put (.wctx e.1 e.2.stop)

/-- A context fault (R392), naming a crew: only ABORT resolves it. -/
def contextFault (g : Go s0) (ctx id : Nat) : Go s0 := sendRecord (stopContext g ctx) ctx (FaultRec.event 3 0 id 0 g.st.now)

/-- The identifier of a team's first crew (R373). -/
def State.firstCrew (s : State) (t : Nat) : Nat :=
  let here := (s.crews.filter fun e => e.2.team == t) ++
    (s.saved.map fun e => e.2.crews.filter fun c => c.2.team == t).flatten
  match here.foldl (fun (m : Option (Nat × Crew)) e => match m with
      | some v => if e.2.crewNo < v.2.crewNo then some e else some v
      | none => some e) none with
  | some e => crewId e.2.ctx e.1
  | none => 0

end Sys2Proof.Machine
end

