-- ==== Sys2Proof/Machine/Firmware.lean ====
section
/-! DEFINITION. What agents of no core read and write under a context's tables (R395, R413, R431, R481), on this module and, by passes, on
others; and the context save area that the firmware keeps (R424). -/

namespace Sys2Proof.Machine

open Sys2Proof

variable {s0 : State}

/-! ### Reading and writing for an agent of no core -/

/-- How a read stands that may take passes to another module. -/
inductive AgentRead where
  | wait
  | bad
  | bytes (bs : List Byte)
deriving DecidableEq, Repr

/-- An engine operation of no core, for a context. -/
def agentOp (ctx : Nat) (segs : List EngSeg) : EngOp :=
  { crew := ctx, inst := 0, team := 2 ^ 64, launch := 2 ^ 64, epoch := 0, segs := segs, left := allUnits 0 segs, buf := [], far := []
    list := none, knot := none, clock := 0, gwctMod := 0, gwctFab := 0, off := segs.any fun seg => Pieces.off seg.dst, poison := false
    after := 0 }

/-- Does an engine operation of no core wait for a pass? -/
def State.agentBusy (s : State) (key : Nat) : Bool :=
  s.passes.any fun p => match p.2.origin with | .engine c o _ => c == 640 && o == key | _ => false

/-- Reads bytes at their homes under a context's tables; those of other modules by passes of the engine operation `key`. -/
def agentRead (g : Go s0) (key ctx a n : Nat) : AgentRead × Go s0 :=
  let ((es, ps), g1) := rangePieces g [] ctx a n false (n / 2 ^ 16 + 2)
  let ((es', ps), g1) := piecePeers g1 ctx a false ps
  if !(es ++ es').isEmpty then (.bad, g1.put (.engine key none))
  else if !Pieces.off ps then (.bytes (g1.st.runBytes (homeRuns ps)), returnLeases g1 (homeRuns ps))
  else
    let seg : EngSeg := { src := ps, dst := [], sbase := a, dbase := a, len := n }
    let fresh := { agentOp ctx [seg] with left := [] }
    let e := match Tab.find g1.st.engines key with
      | some e => if e.segs.all fun t => t.sbase == a && t.len == n then e else fresh
      | none => fresh
    if g1.st.agentBusy key then (.wait, g1)
    else if e.refused ≠ 0 then (.bad, g1.put (.engine key none))
    else
      match gatherUnits (g1.put (.engine key (some e))) 640 key 0 e seg (sourceUnits seg 0 n) with
      | (none, g) => (.wait, g)
      | (some e, g) => (.bytes (unitBytes e seg 0 0 n).1, g.put (.engine key none))

/-- How a write stands that may take passes to another module. -/
inductive AgentStore where
  | wait
  | bad
  | done
deriving DecidableEq, Repr

/-- How the writes of the engine operation `key` stand; none where it has none on their way. -/
def State.storeStands (s : State) (key : Nat) : Option AgentStore :=
  (Tab.find s.engines key).map fun e => if e.refused ≠ 0 then .bad else if s.agentBusy key || !e.far.isEmpty then .wait else .done

/-- The part of a range that lies on another module, sent 16 bytes at a time by passes of the engine operation `key`. -/
def storeFar (g : Go s0) (key : Nat) (va : BitVec 64) (peers : List Nat) (bs : List Byte) : Go s0 :=
  g.each (List.range ((bs.length + 15) / 16)) fun n g =>
    match Tab.find g.st.engines key with
    | none => g
    | some e =>
      let e := e.sends g.st.seq peers
      let lanes : List PassLane := ((bs.drop (16 * n)).take 16).zipIdx.map fun b =>
        { lane := b.2, addr := va + BitVec.ofNat 64 (16 * n + b.2), data := b.1.toNat, expect := 0 }
      enginePass (g.put (.engine key (some e))) 640 key 0 e .rst .b8 peers lanes

/-- Bytes laid over the pieces of a range, as a `.fab` release of an agent of no core. -/
def storePieces (g : Go s0) (key : Nat) : Pieces → List Byte → Go s0
  | [], _ => g
  | p :: ps, bs =>
    let g := match p.loc with
      | .home k => homeStore g { scope := 5 } (cellsFrom k (bs.take p.len))
      | .far _ va => storeFar g key va p.peers (bs.take p.len)
      | .scratch .. => g
    storePieces g key ps (bs.drop p.len)

/-- Writes bytes under a context's tables (R413, R424, R431, R481): at home at once; where a page lies on another module, by passes of the
engine operation `key`, whose end a later call with that `key` tells. -/
def agentStore (g : Go s0) (key ctx a : Nat) (bs : List Byte) : AgentStore × Go s0 :=
  match g.st.storeStands key with
  | some .wait => (.wait, g)
  | some r => (r, g.put (.engine key none))
  | none =>
    let ((es, ps), g1) := rangePieces g [] ctx a bs.length true (bs.length / 2 ^ 16 + 2)
    let ((es', ps), g1) := piecePeers g1 ctx a true ps
    if !(es ++ es').isEmpty then (.bad, g1)
    else if Pieces.off ps then (.wait, storePieces (g1.put (.engine key (some (agentOp ctx [])))) key ps bs)
    else (.done, storePieces g1 key ps bs)

/-! ### The save area -/

/-- Writes bytes at a virtual address for the firmware, which waits for no answer: none where a page is not present, read-only or otherwise
refused, else the engine operation by which they leave for other modules. -/
def firmwareWrite (g : Go s0) (ctx a : Nat) (bs : List Byte) : Option (Nat × Go s0) :=
  let key := g.st.seq
  match agentStore (g.put .seq) key ctx a bs with
  | (.bad, _) => none
  | (_, g) => some (key, g)

/-- The images in a context's save area. -/
def State.images (s : State) (ctx : Nat) : List SavedTeam := (Tab.vals s.saved).filter fun v => v.ctx == ctx

/-- First fit (R424): the lowest 64 KiB-aligned extent of `n` bytes after the directory that no image uses. -/
def fitExtent (used : List SavedTeam) (limit n : Nat) : Option Nat :=
  let free := fun a => a + n ≤ limit && used.all fun v => a + n ≤ v.base || v.base + v.size ≤ a
  (sortNat (65536 :: used.map fun v => (v.base + v.size + 65535) / 65536 * 65536)).find? free

/-- The operation records, range-lock entries and tiles of a team image (R285, R385). -/
def opFields (o : MatOp) : List Nat :=
  [(if o.wide then 1 else 0) + (if o.single then 2 else 0), tyCode o.ty, if o.z then 1 else 0, o.tile, o.arow, o.aw, o.bw,
   if o.orient then 1 else 0, o.layout.toNat, o.lreg, o.prog, if o.running then 1 else 0]
def tileBytes (t : Team) (side n : Nat) : List Byte :=
  packed 13 16384 ((List.range 64).map fun i => (List.range 64).map fun j =>
    (Tab.get 0 t.tiles (65536 * side + 4096 * n + 64 * i + j)).toNat).flatten

/-- Scratch bytes, for an image. -/
def scratchBytes (t : Team) : Nat → Nat → List Byte
  | _, 0 => []
  | off, n + 1 => Tab.get 0 t.scratch off :: scratchBytes t (off + 1) n

/-- Crews in the order of their numbers. -/
def insertCrew (e : Nat × Crew) : List (Nat × Crew) → List (Nat × Crew)
  | [] => [e]
  | f :: fs => if e.2.crewNo ≤ f.2.crewNo then e :: f :: fs else f :: insertCrew e fs

/-- The team image (R385): `crews` are its crews for a pre-emption, none for a tile spill. -/
def teamImage (s : State) (t : Team) (team : Nat) (whole : Bool) (crews : List (Nat × Crew)) : List Byte :=
  let locks := (s.coreOf (t.cores.headD 0)).ranges.filter fun r => r.team == team
  packed 10 64 (t.slots ++ t.cores ++ [t.scratchSize, t.tilesHeld.toNat, t.opq.length, crews.length])
    ++ (t.opq.map fun o => packed 11 64 (opFields o)).flatten
    ++ (locks.map fun r => packed 12 16 [if r.dest then 1 else 0, if r.virt then 1 else 0, r.base, r.len, r.tag]).flatten
    ++ ((List.range (if t.pair then 2 else 1)).map fun side =>
        (((List.range 16).filter fun n => t.tilesHeld.toNat.testBit n).map fun n => tileBytes t side n).flatten).flatten
    ++ (if whole then scratchBytes t 0 t.scratchSize else [])
    ++ ((crews.foldr insertCrew []).map fun e => crewImage s e.1 e.2 (imageState e.2)).flatten

/-- Saves an image of a team (R424): an entry of the directory, an extent, the bytes. Without room or where a page refuses,
`none`. -/
def saveImage (g : Go s0) (team kind : Nat) (crews : List (Nat × Crew)) (locks : List RangeLock) : Option (Go s0) :=
  match g.st.team? team with
  | none => none
  | some t =>
    let v := g.st.ctx t.ctx
    let used := g.st.images t.ctx
    let bs := teamImage g.st t team (kind == 1) crews
    let entry := (List.range 1024).find? fun n => !used.any fun u => u.entry == n
    match entry, fitExtent used v.saveSize.toNat bs.length with
    | some n, some off =>
      let dir := packed 14 64 [t.cores.headD 0, t.slots.headD 0, off, bs.length, kind]
      match firmwareWrite g t.ctx (v.saveBase.toNat + off) bs with
      | none => none
      | some (k, g) =>
        (firmwareWrite g t.ctx (v.saveBase.toNat + 64 * n) dir).map fun r =>
          r.2.put (.saved (2 * team + kind % 2) (some { ctx := t.ctx, entry := n, base := off, size := bs.length, kind := kind, crews := crews, locks := locks
                                                        writes := [k, r.1] }))
    | _, _ => none

/-- Frees an image that was restored or discarded (R291, R424): the directory entry shows kind 0. -/
def dropImage (g : Go s0) (team kind : Nat) : Go s0 :=
  match Tab.find g.st.saved (2 * team + kind % 2) with
  | none => g
  | some v =>
    let g := g.put (.saved (2 * team + kind % 2) none)
    match firmwareWrite g v.ctx ((g.st.ctx v.ctx).saveBase.toNat + 64 * v.entry) (packed 14 64 [0, 0, 0, 0, 0]) with
    | some r => r.2
    | none => g

end Sys2Proof.Machine
end

