-- ==== Sys2Proof/Machine/Matrix.lean ====
section
/-! DEFINITION. Group 12, the matrix arrays (R34, R92 to R95, R274 to R292): layout records, `mma` and `mmaw` with their queue and
their steps (MATRIX_OP_START, MATRIX_BLOCK, MATRIX_OP_RETIRE), tile transfers, and the tile allocator with its spill. -/

namespace Sys2Proof.Machine

variable {s0 : State}

/-! ### Arithmetic of a block -/

/-- The exact sum of finite numbers as an integer times a power of two (R92). -/
def exactSum (xs : List FVal) : Int × Int :=
  xs.foldl (fun a x => match x with
    | .fin n m e =>
      let lo := min a.2 e
      (a.1 * (2 ^ (a.2 - lo).toNat : Nat) + signed n m * (2 ^ (e - lo).toNat : Nat), lo)
    | _ => a) (0, 0)

/-- What the specials of R93 give for an accumulator and a block's products: the result, none where all are finite. -/
def accSpecial (c : FVal) (ps : List FVal) : Option Nat :=
  let F := fmtOf .f32
  let xs := c :: ps
  if xs.any FVal.isNan then some F.nan
  else
    let pos := xs.any fun x => x == .inf false
    let neg := xs.any fun x => x == .inf true
    if pos && neg then some F.nan
    else if pos || neg then some (F.withSign neg F.infBits)
    else none

/-- AccAdd (R93, R94). -/
def accAdd (c : Nat) (ps : List FVal) : Nat :=
  let v := unpack (fmtOf .f32) false c
  match accSpecial v ps with
  | some r => r
  | none => let t := exactSum (v :: ps)
            roundInt (fmtOf .f32) 0 false t.1 t.2 false

/-- A value by sign and kind, significand and exponent. -/
def FVal.parts : FVal → Nat × Nat × Int
  | .nan q => (q.toNat, 0, 0)
  | .inf n => (2 + n.toNat, 0, 0)
  | .zero n => (4 + n.toNat, 0, 0)
  | .fin n m e => (6 + n.toNat, m, e)

/-- One accumulation of `mmaw` (R95); of a low part that is infinite the manual gives no result where no case of the rule applies: a free
function of the operands (log 49). -/
def accAddWide (h lo : Nat) (ps : List FVal) : Nat × Nat :=
  let F := fmtOf .f32
  let vh := unpack F false h
  let vl := unpack F false lo
  match vl, accSpecial vh ps with
  | .nan _, _ => (F.nan, 0)
  | _, some r => (r, 0)
  | .inf _, none => let r := (Config.wideInf h lo (ps.map FVal.parts)).toNat; (r / 2 ^ 32, r % 2 ^ 32)
  | _, none =>
    let t := exactSum (vh :: vl :: ps)
    if t.1 = 0 then (0, 0)
    else
      let h' := roundInt F 0 false t.1 t.2 false
      match unpack F false h' with
      | .inf _ => (h', 0)
      | v =>
        let u := exactSum [v.negate, .fin (t.1 < 0) t.1.natAbs t.2]
        (h', roundInt F 0 false u.1 u.2 false)

/-- A BFP element (R88). -/
def bfpElem (b ex m : Nat) : FVal :=
  if ex = 0xFF then .nan true
  else
    let v := sext m b
    if v = 0 then .zero false else .fin (v < 0) v.natAbs ((ex : Int) - 127 - (b - 1))

/-! ### Operands -/

/-- A word of the A image (R281). -/
def imageWord (c : Crew) (arow u : Nat) : Nat := (c.row ((arow + u / c.width) % c.wrows) (u % c.width)).toNat

/-- Row i of block q of A: 32 elements (R281). -/
def aBlock (c : Crew) (o : MatOp) (q i : Nat) : List FVal :=
  let r := 64 * q + i
  if o.ty.kind = .bfp then
    let str := joinElems 32 ((List.range o.aw).map fun j => imageWord c o.arow (r * o.aw + j))
    let ex := elem (imageWord c o.arow (64 * o.blocks * o.aw + r / 4)) 8 (r % 4)
    (List.range 32).map fun e => bfpElem o.aw ex (elem str o.aw e)
  else (List.range 32).map fun e => unpack (fmtOf o.ty) false (elem (imageWord c o.arow (r * 16 + e / 2)) 16 (e % 2))

/-- J of an operation (R275). -/
def MatOp.cols (o : MatOp) : Nat := if o.single then 64 else 128

/-- A scratch number of `n` bytes at an address of the stream. -/
def Team.streamVal (t : Team) (a : Int) (n : Nat) : Nat := leNat (t.bytesAt a.toNat n)

/-- Column j of block q of B: 32 elements (R275). -/
def bBlock (t : Team) (o : MatOp) (q j : Nat) : List FVal :=
  let l := layOf o.layout
  if o.ty.kind = .bfp then
    let off := l.blockAddr o.orient o.cols q j
    let str := t.streamVal (l.base + off) (4 * o.bw)
    let ex := t.streamVal (l.ebase + off / (4 * o.bw : Nat)) 1
    (List.range 32).map fun e => bfpElem o.bw ex (elem str o.bw e)
  else (List.range 32).map fun e =>
    unpack (fmtOf o.ty) false (t.streamVal (l.base + l.addr (o.cols * (32 * q + e) + j)) 2)

/-! ### Tiles -/

/-- Is a core the leader of its pair, or its own (R22)? Its side of a pair team. -/
def sideOf (t : Team) (core : Nat) : Nat := if t.pair then core % 2 else 0

/-- The sides of an operation with the first column each computes (R282). -/
def MatOp.sides (o : MatOp) (t : Team) : List (Nat × Nat) := if o.single then [(sideOf t o.core, 0)] else [(0, 0), (1, 64)]

/-- One element of a side after a block. -/
def blockElem (t : Team) (o : MatOp) (side i j : Nat) (ps : List FVal) : Team :=
  let h := t.tileElem side o.tile i j
  if o.wide then
    let r := accAddWide h (t.tileElem side (o.tile + 1) i j) ps
    (t.setTile side o.tile i j r.1).setTile side (o.tile + 1) i j r.2
  else t.setTile side o.tile i j (accAdd h ps)

/-- The tiles of a side after block `q` (R282, R283). -/
def blockSide (c : Crew) (o : MatOp) (q : Nat) (t : Team) (sd : Nat × Nat) : Team :=
  let as := (List.range 64).map fun i => aBlock c o q i
  let bs := (List.range 64).map fun j => bBlock t o q (sd.2 + j)
  (as.zip (List.range 64)).foldl (fun (t : Team) a =>
    (bs.zip (List.range 64)).foldl (fun (t : Team) b => blockElem t o sd.1 a.2 b.2 (List.zipWith mulV a.1 b.1)) t) t

/-- The tiles an operation uses (R34). -/
def MatOp.mask (o : MatOp) : Nat := if o.wide then 2 ^ o.tile + 2 ^ (o.tile + 1) else 2 ^ o.tile

/-- The team with an operation changed. -/
def Team.modOp (t : Team) (id : Nat) (f : MatOp → MatOp) : Team :=
  { t with opq := t.opq.map fun (o : MatOp) => if o.id = id then f o else o }

/-! ### The arrays -/

/-- The cores whose arrays an operation needs (R284). -/
def MatOp.arrays (o : MatOp) : List Nat := if o.single then [o.core] else [o.core / 2 * 2, o.core / 2 * 2 + 1]

/-- Do two operations stand in one queue (R284): that of a pair, or that of a single core's array? DESIGN CHOICE, unsafe (log 56): a `.s` operation of a pair
team stands in its own core's queue, not in the pair's. -/
def MatOp.sameQueue (a b : MatOp) : Bool :=
  a.single == b.single && (if a.single then a.core == b.core else a.core / 2 == b.core / 2)

/-- The matrix operations of the module that have not retired, those of spilled and saved teams left out. -/
def State.matOps (s : State) : List MatOp :=
  (s.teams.map fun e => if e.2.spilled || e.2.saved then [] else e.2.opq).flatten

/-- May an operation start (R284): none is before it in its queue, and every array it needs is free? -/
def opCanStart (s : State) (o : MatOp) : Bool :=
  !o.running && s.matOps.all fun p => p.id == o.id ||
    (!(p.running && p.arrays.any fun c => o.arrays.contains c) && !(p.sameQueue o && !p.running && p.id < o.id))

/-- The hull as a source range (R122, R284). -/
def MatOp.lock (o : MatOp) (team : Nat) : RangeLock :=
  let h := (layOf o.layout).hull (o.ty.kind == .bfp) o.bw
  { dest := false, virt := false, team := team, base := h.1.toNat, len := (h.2 - h.1).toNat, tag := o.id }

/-- MATRIX_OP_START (R284): after a restore its range is registered again first (R122). -/
def execMatrixOpStart (team op : Nat) (s : State) : Host.Outcome State Fault Refusal :=
  match s.team? team with
  | none => .next s
  | some t =>
    match t.opq.find? fun o => o.id == op with
    | none => .next s
    | some o =>
      if !t.spilled && !t.saved && opCanStart s o && (o.locked || s.locksFree team 1) then
        let g := if o.locked then Go.start s else lockRanges (Go.start s) team [o.lock team]
        (modTeam g team fun t =>
          let t := t.modOp op fun o => { o with running := true, locked := true }
          if o.prog = 0 && o.z then
            (o.sides t).foldl (fun (t : Team) sd =>
              let t := t.zeroTile sd.1 o.tile
              if o.wide then t.zeroTile sd.1 (o.tile + 1) else t) t
          else t).done
      else .next s

/-- MATRIX_BLOCK (R282, R283): the next block of a running operation. -/
def execMatrixBlock (team op : Nat) (s : State) : Host.Outcome State Fault Refusal :=
  match s.team? team with
  | none => .next s
  | some t =>
    match t.opq.find? fun o => o.id == op with
    | none => .next s
    | some o =>
      match s.crew? o.crew with
      | none => .next s
      | some c =>
        if o.running && !t.saved && o.prog < o.blocks && c.inst = o.inst then
          (modTeam (countWork (Go.start s) team 4096 0) team fun t =>
            let t := (o.sides t).foldl (fun (t : Team) sd => blockSide c o o.prog t sd) t
            t.modOp op fun o => { o with prog := o.prog + 1 }).done
        else .next s

/-! ### Conflict counters -/

/-- The lines that a byte range touches, each with its bank and half (R277). -/
def linesOf (t : Team) (a n : Nat) : List (Nat × Nat × Nat) :=
  (List.range ((a + n + 15) / 16 - a / 16)).map fun i =>
    let l := a / 16 + i
    let half := if t.pair && t.scratchSize / 2 ≤ 16 * l then 1 else 0
    (half, l % 64, l)

/-- Adds one to the count of a bank. -/
def bumpBank (b : Nat × Nat) : List ((Nat × Nat) × Nat) → List ((Nat × Nat) × Nat)
  | [] => [(b, 1)]
  | (c, n) :: t => if b = c then (c, n + 1) :: t else (c, n) :: bumpBank b t

/-- The greatest number of distinct lines in one bank, less one (R277). -/
def groupConflicts (ls : List (Nat × Nat × Nat)) : Nat :=
  ((ls.dedup.foldl (fun a l => bumpBank (l.1, l.2.1) a) []).foldl (fun m e => max m e.2) 1) - 1

/-- The byte ranges of a fetch group (R277): one k of 64 elements, or one block of 64 strings and exponents. -/
def groupRanges (o : MatOp) (jc n : Nat) : List (Nat × Nat) :=
  let l := layOf o.layout
  if o.ty.kind = .bfp then
    ((List.range 64).map fun j =>
      let off := l.blockAddr o.orient o.cols n (jc + j)
      [((l.base + off).toNat, 4 * o.bw), ((l.ebase + off / (4 * o.bw : Nat)).toNat, 1)]).flatten
  else (List.range 64).map fun j => ((l.base + l.addr (o.cols * n + jc + j)).toNat, 2)

/-- Groups and conflict cycles of an operation (R277). -/
def opConflicts (t : Team) (o : MatOp) : Nat × Nat :=
  let n := if o.ty.kind = .bfp then o.blocks else 32 * o.blocks
  let sides := o.sides t
  (n * sides.length, sides.foldl (fun a sd => (List.range n).foldl (fun a k =>
    a + groupConflicts (((groupRanges o sd.2 k).map fun r => linesOf t r.1 r.2).flatten)) a) 0)

/-- MATRIX_OP_RETIRE (R277, R284). -/
def execMatrixOpRetire (team op : Nat) (s : State) : Host.Outcome State Fault Refusal :=
  match s.team? team with
  | none => .next s
  | some t =>
    match t.opq.find? fun o => o.id == op with
    | none => .next s
    | some o =>
      if o.running && o.prog = o.blocks then
        let n := opConflicts t o
        let g := unlockRanges (Go.start s) team op
        let g := modTeam g team fun t => { t with opq := t.opq.filter fun (o : MatOp) => o.id != op }
        (modCrew g o.crew fun c =>
          if c.inst = o.inst then
            let v := Tab.get (0, 0) c.lstat o.lreg
            { c with lstat := Tab.set (0, 0) c.lstat o.lreg (min (2 ^ 32 - 1) (v.1 + n.1), min (2 ^ 32 - 1) (v.2 + n.2)) }
          else c).done
      else .next s

/-! ### Waiting for tiles -/

/-- Does an entry of the tile queue still wait: is its split still at that instruction (R34)? -/
def TileWait.live (s : State) (w : TileWait) : Bool :=
  match s.crew? w.place with
  | some c => c.inst == w.inst && c.st == .running &&
      (match c.split? w.split with | some sp => sp.st == .ready && sp.pc == w.pc | none => false)
  | none => false

/-- An instruction that names tiles, its checks passed: it waits in issue for operations on them and for instructions of the team
that wait for them already (R34), then goes on. -/
def tileGate (g : Go s0) (i : Issue) (mask : Nat) (body : Go s0 → Go s0) : Go s0 :=
  match g.st.team? i.c.team with
  | none => g
  | some t =>
    let s := g.st
    let me : TileWait := { place := i.x, inst := i.c.inst, split := i.k, pc := i.sp.pc, mask := mask }
    let q := t.tileq.filter fun w => w.live s
    let before := (q.takeWhile fun w => w != me).any fun w => w.mask &&& mask != 0
    if before || t.opq.any fun o => o.mask &&& mask != 0 then
      modTeam g i.c.team fun t => { t with tileq := if q.contains me then q else q ++ [me] }
    else
      let g' := body (modTeam g i.c.team fun t => { t with tileq := q })
      match g'.st.crew? i.x with
      | some c =>
        match c.split? i.k with
        | some sp => if sp.pc = i.sp.pc && sp.st = .ready then g'
            else modTeam g' i.c.team fun t => { t with tileq := t.tileq.filter fun w => w != me }
        | none => g'
      | none => g'

/-- Is the team of the crew spilled (R291)? -/
def teamSpilled (s : State) (i : Issue) : Bool := match s.team? i.c.team with | some t => t.spilled | none => false

/-- Does the team hold all tiles of a mask (R34)? -/
def holdsTiles (s : State) (i : Issue) (mask : Nat) : Bool :=
  match s.team? i.c.team with
  | some t => mask &&& t.tilesHeld.toNat == mask
  | none => false

/-! ### `mma` and `mmaw` -/

/-- The operation that an `mma` or `mmaw` makes, but for its number and K (R285). -/
def matOpOf (i : Issue) (wide : Bool) : MatOp :=
  let n := match i.f.b with | .x sel => sel.toNat - 0x100 | _ => 0
  let a := match i.f.a with | .v idx .. => idx.toNat | _ => 0
  { id := 0, wide := wide, single := i.f.f, ty := i.ty, z := i.f.ext.toNat % 2 == 1, tile := tileNo i.f.d
    arow := physRow i.sp.wbase i.c.wrows a, aw := fmtAw i.sp.fmt, bw := fmtBw i.sp.fmt, orient := fmtOrient i.sp.fmt
    layout := i.c.layReg n, lreg := n, blocks := 0, prog := 0, running := false, locked := true, core := placeCore i.x
    crew := i.x, inst := i.c.inst }

/-- The BFP width a type names. -/
def bfpBits (t : Ty) : Nat := t.bits

/-- The causes of R280, in one list. A hull that begins below offset 0 raises bounds (DESIGN CHOICE, safe, log 73). -/
def mmaCauses (s : State) (i : Issue) (o : MatOp) : List Stop :=
  match s.team? i.c.team with
  | none => [{ cause := 3 }]
  | some t =>
    let l := layOf o.layout
    let bfp := o.ty.kind == .bfp
    let blocks := l.blocks bfp o.orient o.bw o.cols
    let o := { o with blocks := blocks.getD 0 }
    let a := match i.f.a with | .v idx .. => idx.toNat | _ => 0
    let rows := (o.words + i.c.width - 1) / i.c.width
    let bad := (!o.single && !(t.pair && placeCore i.x % 2 == 0)) || !holdsTiles s i o.mask || (o.wide && o.tile % 2 == 1)
      || (bfp && o.bw != bfpBits o.ty) || blocks.isNone || maxWindow i.c.width < a + rows
    let h := l.hull bfp o.bw
    (if bad then [{ cause := 3 }] else []) ++ (if l.odd bfp then [{ cause := 4, addr := l.base.toNat }] else [])
      ++ (if h.1 < 0 || (t.scratchSize : Int) < h.2 then [{ cause := 5, addr := l.base.toNat }] else [])

/-- `mma` and `mmaw` (R280, R284). DESIGN CHOICE, unsafe (log 57): an operation that runs still takes one of its queue's 8 entries. -/
def mmaBody (wide : Bool) (i : Issue) (g : Go s0) : Go s0 :=
  if i.run = 0 then retire g i {}
  else if teamSpilled g.st i then park g i .tiles
  else
    let o := matOpOf i wide
    let l := layOf o.layout
    let es := mmaCauses g.st i o
    if !es.isEmpty then faultStops g i es 0
    else
      let o := { o with id := g.st.seq, blocks := (l.blocks (o.ty.kind == .bfp) o.orient o.bw o.cols).getD 0 }
      let full := 8 ≤ (g.st.matOps.filter fun p => p.sameQueue o).length
      tileGate g i o.mask fun g =>
        if full || !g.st.locksFree i.c.team 1 || !i.c.order.isEmpty then g
        else
          let g := lockRanges (g.put .seq) i.c.team [o.lock i.c.team]
          retire (modTeam g i.c.team fun t => { t with opq := t.opq ++ [o] }) i {}

/-! ### Layout registers and counters -/

/-- `setlay` (R276). -/
def setlayBody (i : Issue) (g : Go s0) : Go s0 :=
  if i.run = 0 then retire g i {}
  else
    let n := layoutNo i.f.d
    let r := setlayRecord i
    if layReserved r then faultAll g i 3 0 0
    else modCrew (retire g i { lay := [(n, r)] }) i.x fun c => { c with lstat := Tab.del c.lstat n }

/-- `lstat` (R278). -/
def lstatBody (i : Issue) (g : Go s0) : Go s0 :=
  if i.run = 0 then retire g i {}
  else
    let n := layoutNo i.f.a
    let busy := match g.st.team? i.c.team with
      | some t => t.opq.any fun o => o.inst == i.c.inst && o.lreg == n
      | none => false
    if busy then g
    else
      modCrew (retire g i (lstatOut i)) i.x fun c => { c with lstat := Tab.del c.lstat n }

/-! ### Tile transfers -/

/-- The causes of `mld` and `mst` (R287). -/
def tileCauses (s : State) (i : Issue) (t : Team) (write : Bool) : List Stop :=
  let m := tileImage i t
  let var := Sel.varNo i.f.sel
  let c3 : List Stop := if (var ≠ 0 && !t.pair) || !holdsTiles s i (2 ^ tileNo i.f.d) || m.stride < m.row then [{ cause := 3 }] else []
  let c4 : List Stop := if m.off % 16 ≠ 0 || m.stride % 16 ≠ 0 then [{ cause := 4, addr := m.off }] else []
  let c5 : List Stop := if t.scratchSize < m.off + 63 * m.stride + m.row then [{ cause := 5, addr := m.off }] else []
  if !(c3 ++ c4 ++ c5).isEmpty then c3 ++ c4 ++ c5
  else
    (m.rows.map fun a =>
      let c11 : List Stop := if s.rangeClash (placeCore i.x) false i.c.ctx i.c.team a m.row write then [{ cause := 11, addr := a }] else []
      let c12 : List Stop := if write && t.guarded a m.row then [{ cause := 12, addr := a }] else []
      let c13 : List Stop := if tracks s i.c false && s.trackClash i.c { loc := .scratch i.c.team a, size := m.row, read := !write, write := write, op := none }
        then [{ cause := 13, addr := a }] else []
      c11 ++ c12 ++ c13).flatten

/-- The rows of an image as tracked accesses (R74, R287). -/
def imageTracks (i : Issue) (m : TileImage) (write : Bool) : List Tracked :=
  (m.rows.map fun a => (List.range (m.row / 4)).map fun w =>
    ({ loc := .scratch i.c.team (a + 4 * w), size := 4, read := !write, write := write, op := none } : Tracked)).flatten

/-- A tile transfer: its checks, its waits (R34, R116), then one scratch access (R287). -/
def tileMove (g : Go s0) (i : Issue) (write : Bool) (move : TileImage → List Nat → Go s0 → Go s0) : Go s0 :=
  if i.run = 0 then retire g i {}
  else if teamSpilled g.st i then park g i .tiles
  else
    match g.st.team? i.c.team with
    | none => g
    | some t =>
      let es := tileCauses g.st i t write
      let m := tileImage i t
      if !es.isEmpty then faultStops g i es (if write then 1 else 0)
      else tileGate g i (2 ^ tileNo i.f.d) fun g =>
        if orderWaits g.st i || g.st.windowAhead i.c m.row (m.rows.map fun a => (128, a)) then g
        else
          let g := trackNow g i false (imageTracks i m write)
          noteTeam (retire (move m (tileSides t (Sel.varNo i.f.sel)) g) i {}) i (some t)

/-- `mld` (R287). -/
def mldBody (i : Issue) (g : Go s0) : Go s0 :=
  tileMove g i false fun m sides g => modTeam g i.c.team fun t => mldTeam i t m sides

/-- `mst` (R287): it forms a completion time pair as a scratch write (R105). -/
def mstBody (i : Issue) (g : Go s0) : Go s0 :=
  tileMove g i true fun m sides g =>
    match g.st.team? i.c.team with
    | some t => scratchPair (scratchStore g i.c.team (writer g.st i) (mstCells i t m sides)) i.x
    | none => g

/-- `mzero` (R287). -/
def mzeroBody (i : Issue) (g : Go s0) : Go s0 :=
  if i.run = 0 then retire g i {}
  else if teamSpilled g.st i then park g i .tiles
  else
    match g.st.team? i.c.team with
    | none => g
    | some t =>
      let var := Sel.varNo i.f.sel
      if (var ≠ 0 && !t.pair) || !holdsTiles g.st i (2 ^ tileNo i.f.d) then faultAll g i 3 0 0
      else tileGate g i (2 ^ tileNo i.f.d) fun g =>
        retire (modTeam g i.c.team fun t => (tileSides t var).foldl (fun (t : Team) sd => t.zeroTile sd (tileNo i.f.d)) t) i {}

/-! ### The tile allocator -/

/-- A waiting `mget` (R289): where it waits, what it asks for, when it arrived. -/
structure TileReq where
  place : Nat
  split : Nat
  team  : Nat
  mask  : Nat
  no    : Nat
  dest  : Option Nat
deriving DecidableEq, Repr

/-- Insertion by arrival. -/
def insertReq (r : TileReq) : List TileReq → List TileReq
  | [] => [r]
  | q :: qs => if r.no < q.no then r :: q :: qs else q :: insertReq r qs

/-- The waiting requests, in order of arrival. -/
def State.tileReqs (s : State) : List TileReq :=
  ((s.crews.map fun e => e.2.splits.filterMap fun p => match p.2.wait with
    | .mget m n d => some ({ place := e.1, split := p.1, team := e.2.team, mask := m, no := n, dest := d } : TileReq)
    | _ => none).flatten).foldr insertReq []

/-- The free tile slots of a core (R288): spilled and saved teams hold none, but for a saved one
that has not left yet (R421). -/
def State.freeTiles (s : State) (core : Nat) : Nat :=
  16 - s.teams.foldl (fun a e =>
    if e.2.cores.contains core && !e.2.spilled && (!e.2.saved || e.2.leaving) then a + popCount e.2.tilesHeld.toNat 16 else a) 0

/-- How many slots a request needs on each core of its team (R289, R291). -/
def tileNeed (s : State) (r : TileReq) : Nat :=
  match s.team? r.team with
  | some t => if t.spilled then
        popCount t.tilesHeld.toNat 16 + ((s.tileReqs.filter fun q => q.team == r.team).foldl (fun a q => a + popCount q.mask 16) 0)
      else popCount r.mask 16
  | none => 17

/-- Does a request fit (R289)? -/
def tileFits (s : State) (r : TileReq) : Bool := (s.teamCores r.team).all fun c => tileNeed s r ≤ s.freeTiles c

/-- Ends the wait of an `mget` that is granted (R289): D is 0, the tiles hold +0.0. -/
def grantReq (g : Go s0) (r : TileReq) : Go s0 :=
  let g := modTeam g r.team fun t =>
    let t := { t with tilesHeld := t.tilesHeld ||| BitVec.ofNat 16 r.mask }
    ((List.range 16).filter fun n => r.mask.testBit n).foldl (fun (t : Team) n => (t.zeroTile 0 n).zeroTile 1 n) t
  let g := match r.dest with
    | some n => modCrew g r.place fun c => c.setUni n 0
    | none => g
  endWait g r.place r.split 0 []

/-- Lets the crews of a restored team that wait for it issue their instructions again (R291). -/
def wakeTiles (g : Go s0) (team : Nat) : Go s0 :=
  g.each (g.st.crews.filter fun e => e.2.team == team) fun e g =>
    modCrew g e.1 fun c => { c with splits := c.splits.map fun p =>
      if p.2.wait == .tiles then
        (p.1, { p.2 with st := if p.2.st = .blocked then .ready else p.2.st, wait := .none
                         held := if p.2.held = .blocked then .ready else p.2.held })
      else p }

/-- Restores a spilled team with every request of it that waits (R291). -/
def unspillTeam (g : Go s0) (team : Nat) : Go s0 :=
  let g := modTeam (dropImage g team 2) team fun t => { t with spilled := false }
  let g := g.each (g.st.tileReqs.filter fun q => q.team == team) fun q g => grantReq g q
  wakeTiles g team

/-- A spilled team that no request waits for and whose tiles fit again (R291). -/
def State.idleSpilled (s : State) : Option Nat :=
  (s.teams.find? fun e => e.2.spilled && !e.2.saved && !(s.tileReqs.any fun r => r.team == e.1)
    && e.2.cores.all fun c => popCount e.2.tilesHeld.toNat 16 ≤ s.freeTiles c).map Prod.fst

/-- What the allocator grants next (R289, R291): a request of a spilled team, which comes back with it, then a spilled team without one, then
another request; requests in order of arrival. -/
inductive Grant where
  | request (r : TileReq)
  | team (t : Nat)
deriving DecidableEq, Repr

def State.nextGrant (s : State) : Option Grant :=
  let rs := s.tileReqs.filter fun r => tileFits s r
  let spilled := rs.filter fun r => match s.team? r.team with | some t => t.spilled | none => false
  ((spilled.map fun r => Grant.team r.team) ++ s.idleSpilled.toList.map Grant.team ++ rs.map Grant.request).head?

/-- Grants a request, or restores a spilled team. -/
def grantTiles (g : Go s0) : Grant → Go s0
  | .request r => grantReq g r
  | .team t => unspillTeam g t

/-- Spills a team (R290, R285): its operations stop at a K step and leave the arrays, their ranges are released; its image is saved, or
its context faults (R424). -/
def spillTeam (g : Go s0) (team : Nat) : Go s0 :=
  match g.st.team? team with
  | none => g
  | some t =>
    let g := (saveImage g team 2 [] []).getD (contextFault g t.ctx (g.st.firstCrew team))
    let g := g.each t.opq fun o g => unlockRanges g team o.id
    modTeam g team fun t =>
      { t with spilled := true, opq := t.opq.map fun (o : MatOp) => { o with running := false, locked := false } }

/-- The team a deadlocked core spills (R290): the highest team number, of equals the one placed later. -/
def deadlockVictim (s : State) (core : Nat) : Option Nat :=
  let reqs := s.tileReqs
  let here := reqs.filter fun r => (s.teamCores r.team).contains core
  let holders := s.teams.filter fun e =>
    e.2.cores.contains core && !e.2.spilled && (!e.2.saved || e.2.leaving) && e.2.tilesHeld != 0
  if here.isEmpty || here.any (fun r => tileFits s r) || !(holders.all fun e => reqs.any fun r => r.team == e.1) then none
  else (holders.foldl (fun (m : Option (Nat × Team)) e => match m with
    | none => some e
    | some v => if v.2.teamNo < e.2.teamNo || (v.2.teamNo = e.2.teamNo && v.2.order < e.2.order) then some e else some v) none).map Prod.fst

/-- The allocator (R289, R290): grants what fits, spills a deadlocked core's team, again until neither is due. Each unit of fuel is one
grant or spill. -/
def allocTiles (g : Go s0) : Nat → Go s0
  | 0 => g
  | n + 1 =>
    match g.st.nextGrant with
    | some r => allocTiles (grantTiles g r) n
    | none =>
      match (distinct (g.st.tileReqs.map fun r => g.st.teamCores r.team).flatten).findSome? fun c => deadlockVictim g.st c with
      | some t => allocTiles (spillTeam g t) n
      | none => g

/-- The allocator's run after slots freed or a request came. A team is spilled and restored at most as often as requests are
granted. -/
def runTiles (g : Go s0) : Go s0 :=
  let n := g.st.tileReqs.length
  allocTiles g ((n + 1) * (g.st.teams.length + 2))

/-- The mask operand of `mget` and `mrel` and whether it is refused (R289, R292). -/
def tileMask (i : Issue) : Nat := operand64 i.ca i.f.a
def maskBad (m : Nat) : Bool := m % 2 ^ 16 == 0 || 2 ^ 16 ≤ m

/-- `mget` (R289). Of a spilled team `mget.try` too is blocked until the team is restored (R291; DESIGN CHOICE, unsafe, log 74). -/
def mgetBody (isTry : Bool) (i : Issue) (g : Go s0) : Go s0 :=
  if i.run = 0 then retire g i {}
  else if teamSpilled g.st i then park g i .tiles
  else
    match g.st.team? i.c.team with
    | none => g
    | some t =>
      let m := tileMask i
      let asked := g.st.tileReqs.any fun r => r.team == i.c.team && r.mask &&& m != 0
      let dest := match i.f.d with | .s n => some n.toNat | _ => none
      let r : TileReq := { place := i.x, split := i.k, team := i.c.team, mask := m, no := g.st.seq, dest := dest }
      let out := fun v : Nat => (match dest with | some n => { s := [(n, v)] } | none => {} : RegOut)
      if maskBad m || m &&& t.tilesHeld.toNat != 0 || asked then faultAll g i 3 0 0
      else if tileFits g.st r then
        retire (modTeam g i.c.team fun t =>
          let t := { t with tilesHeld := t.tilesHeld ||| BitVec.ofNat 16 m }
          ((List.range 16).filter fun n => m.testBit n).foldl (fun (t : Team) n => (t.zeroTile 0 n).zeroTile 1 n) t) i (out 0)
      else if isTry then retire g i (out 1)
      else runTiles (park (g.put .seq) i (.mget m r.no dest))

/-- `mrel` (R292). -/
def mrelBody (i : Issue) (g : Go s0) : Go s0 :=
  if i.run = 0 then retire g i {}
  else if teamSpilled g.st i then park g i .tiles
  else
    let m := tileMask i
    if maskBad m || !holdsTiles g.st i m then faultAll g i 3 0 0
    else tileGate g i m fun g =>
      runTiles (retire (modTeam g i.c.team fun t => { t with tilesHeld := t.tilesHeld &&& ~~~BitVec.ofNat 16 m }) i {})

def execSetlay (f : Fields) (s : State) : Host.Outcome State Fault Refusal := crewStep .setlay f s setlayBody
def execMma (f : Fields) (s : State) : Host.Outcome State Fault Refusal := crewStep .mma f s (mmaBody false)
def execMmaw (f : Fields) (s : State) : Host.Outcome State Fault Refusal := crewStep .mmaw f s (mmaBody true)
def execMld (f : Fields) (s : State) : Host.Outcome State Fault Refusal := crewStep .mld f s mldBody
def execMst (f : Fields) (s : State) : Host.Outcome State Fault Refusal := crewStep .mst f s mstBody
def execMzero (f : Fields) (s : State) : Host.Outcome State Fault Refusal := crewStep .mzero f s mzeroBody
def execMget (f : Fields) (s : State) : Host.Outcome State Fault Refusal := crewStep .mget f s (mgetBody false)
def execMgetTry (f : Fields) (s : State) : Host.Outcome State Fault Refusal := crewStep .mgetTry f s (mgetBody true)
def execMrel (f : Fields) (s : State) : Host.Outcome State Fault Refusal := crewStep .mrel f s mrelBody
def execLstat (f : Fields) (s : State) : Host.Outcome State Fault Refusal := crewStep .lstat f s lstatBody

end Sys2Proof.Machine
end

