-- ==== Sys2Proof/Machine/Teams.lean ====
section
/-! DEFINITION. Crews and teams that end: the spawn-tree counter (R60, R63, R64), draining and retirement (R61, R62), detachment
and the end of a lode window (R302, R303). -/

namespace Sys2Proof.Machine

variable {s0 : State}

/-! ### The spawn-tree counter -/

/-- Is a peer marked lost (R459)? -/
def peerIsLost (g : Go s0) (p : Nat) : Bool × Go s0 :=
  let (e, g) := peerEntry g p
  (bitf e 0 2 == 3, g)

/-- Teams of a launch reported on other modules (R64): one more for each module named. -/
def Launch.addReported (v : Launch) (own : Nat) (peers : List Nat) : Launch :=
  { v with reported := peers.foldl (fun (t : Table Nat) p => if p = own then t else Tab.set 0 t p (Tab.get 0 t p + 1)) v.reported }

/-- A launch is broken by the loss of a module that holds teams of it (R64). -/
def breakLaunch (g : Go s0) (l p : Nat) : Go s0 :=
  match Tab.find g.st.launches l with
  | none => g
  | some v =>
    if v.home.isSome || v.broken || Tab.get 0 v.reported p = 0 then g
    else sendRecord (g.put (.launch l (some { v with broken := true }))) v.ctx (FaultRec.event 3 2 0 p g.st.now)

/-- Does the peer table mark a peer lost (R459)? -/
def State.markedLost (s : State) (p : Nat) : Bool :=
  p < s.mod.ptCount.toNat && leNat (s.bytesAt (s.mod.ptBase.toNat + 8 * p) 1) % 4 == 3

/-- The launch is broken where one of the modules of its new teams is marked lost already (R64). -/
def breakLost (g : Go s0) (l : Nat) (peers : List Nat) : Go s0 :=
  g.each ((distinct peers).filter g.st.markedLost) fun p g => breakLaunch g l p

/-- A change of a launch's counter by an event of this module (R60, R61, R64): at once on the home module, else a report. -/
def launchAdd (g : Go s0) (l : Nat) (delta : Int) (gwct : Nat) (peers : List Nat) : Go s0 :=
  match Tab.find g.st.launches l with
  | none => g
  | some v =>
    match v.home with
    | some _ => g.put (.launch l (some { v with reports := v.reports ++ [(delta, gwct, peers)] }))
    | none =>
      if v.broken then g
      else
        let v := v.addReported g.st.mod.modid peers
        breakLost (g.put (.launch l (some { v with counter := (v.counter + delta).toNat, gwct := max v.gwct gwct }))) l peers

/-- Has this module anything left of a launch of another module: teams, teams to place, or reports? -/
def State.launchUsed (s : State) (l : Nat) : Bool :=
  s.teams.any (fun e => e.2.launch == l) || s.pends.any (fun p => p.launch == l) || s.gangs.any (fun e => e.2.pend.launch == l)

/-- Are fabric groups of killed crews of a launch still on their way (R63, R390)? -/
def State.orphaned (s : State) (l : Nat) : Bool := s.ctxs.any fun e => e.2.orphans.any fun o => o.1 == l

/-- Sends the oldest report of a launch that is due (R64): a retirement once fabric time has passed its GWCT_fab. A home that is marked lost
gets none. -/
def sendReport (g : Go s0) (l : Nat) (v : Launch) (home : Nat) : Go s0 :=
  match v.reports with
  | [] => g
  | (delta, gwct, peers) :: rest =>
    let gwct := if 0 < delta then gwct else max gwct v.gwct
    if 0 < delta || (gwct < g.st.now && !g.st.orphaned l) then
      let (lost, g) := peerIsLost g home
      let g := if lost then g else send g (.spawnReport home v.homeNo delta gwct peers)
      g.put (.launch l (if rest.isEmpty && !g.st.launchUsed l then none else some { v with reports := rest }))
    else g

/-- Applies a report of another module (R64). -/
def applyReport (g : Go s0) (l : Nat) (v : Launch) (from_ : Nat) (delta : Int) (gwct : Nat) (peers : List Nat) : Go s0 :=
  if v.broken then g
  else
    let v := v.addReported g.st.mod.modid peers
    let v := if delta < 0 then { v with reported := Tab.set 0 v.reported from_ (Tab.get 0 v.reported from_ - 1) } else v
    breakLost (g.put (.launch l (some { v with counter := (v.counter + delta).toNat, gwct := max v.gwct gwct }))) l peers

/-- SPAWN_REPORT (R64): the home module applies a report of module `from_`; where that is this module, a report of its own goes
out. -/
def execSpawnReport (launch from_ : Nat) (delta : Int) (gwct : Nat) (peers : List Nat) (s : State) : Host.Outcome State Fault Refusal :=
  match Tab.find s.launches launch with
  | none => .next s
  | some v =>
    match v.home with
    | some h => if from_ = s.mod.modid then (sendReport (Go.start s) launch v h).done else .next s
    | none => if from_ = s.mod.modid then .next s else (applyReport (Go.start s) launch v from_ delta gwct peers).done

/-! ### Retirement -/

/-- The gang of which a team is a member: until its window has ended (R303, R420). -/
def State.memberOf (s : State) (t : Team) : Option Nat := t.gang.bind fun n => (Tab.find s.gangs n).map fun _ => n

/-- The range locks of a winch set outlive the team that started it (R312): they keep its context. -/
def keepLocks (g : Go s0) (t ctx : Nat) : Go s0 :=
  g.each (g.st.cores.filter fun k => k.2.ranges.any fun r => r.team == t && r.virt) fun k g =>
    modCore g k.1 fun v => { v with ranges := v.ranges.map fun (r : RangeLock) => if r.team = t && r.virt then { r with ctx := some ctx } else r }

/-- A team retires (R61): its tiles, scratch and slots return to the core, and the counter falls by one. -/
def teamRetire (g : Go s0) (t : Nat) : Go s0 :=
  match g.st.team? t with
  | none => g
  | some tm =>
    let g := (dropImage (keepLocks g t tm.ctx) t 2).put (.team t none)
    runTiles (launchAdd g tm.launch (-1) tm.gwct [])

/-- Has the member of a rank detached, or is it lost (R303, R393)? -/
def Gang.memberDone (gg : Gang) (rank : Nat) : Bool := gg.detached.contains rank || gg.lost.contains rank

/-- The window of a gang ends when every member has detached (R303): every member whose crews have retired, or that is lost,
retires. -/
def windowCheck (g : Go s0) (n : Nat) : Go s0 :=
  match Tab.find g.st.gangs n with
  | none => g
  | some gg =>
    if (gg.st == .running || gg.st == .closing) && (List.range gg.members.length).all gg.memberDone then
      let g := g.put (.gang n none)
      g.each (Tab.vals gg.teams) fun t g =>
        match g.st.team? t with
        | some tm => if tm.lost || tm.crews.isEmpty then teamRetire g t else g
        | none => g
    else g

/-- The modules of a gang's members. -/
def Gang.modules (gg : Gang) : List Nat := distinct gg.members

/-- The modules that know a gang: those of its members, and its coordinator, which may hold no member (R230, R419). -/
def Gang.parties (gg : Gang) : List Nat := if gg.modules.contains gg.coord then gg.modules else gg.modules ++ [gg.coord]

/-- The gang's other modules hear that the member of a rank here has detached or is lost (R303; log 31). -/
def tellDetached (g : Go s0) (n rank : Nat) : Go s0 :=
  match Tab.find g.st.gangs n with
  | none => g
  | some gg =>
    if gg.members[rank]? = some g.st.mod.modid then
      g.each (gg.parties.filter fun p => p != g.st.mod.modid) fun p g => send g (.detached p n rank)
    else g

/-- The first member that detaches, or is lost, closes the gang (R420). -/
def Gang.close (gg : Gang) : Gang := { gg with st := if gg.st = .running then .closing else gg.st }

/-- A member of a gang counts as detached (R303, R420). -/
def memberDetached (g : Go s0) (n rank : Nat) : Go s0 :=
  match Tab.find g.st.gangs n with
  | none => g
  | some gg => windowCheck (g.put (.gang n (some { gg with detached := gg.detached ++ [rank] }.close))) n

/-- A member here has detached, or counts as detached (R302, R303, R420). -/
def gangDetach (g : Go s0) (t : Nat) : Go s0 :=
  let g := modTeam g t fun tm => { tm with detached := true }
  match g.st.team? t with
  | none => g
  | some tm =>
    match tm.gang with
    | none => g
    | some n => memberDetached (tellDetached g n tm.rank) n tm.rank

/-- A module whose members of a gang are all saved, or lost, answers SAVED (R421). -/
def tellSaved (g : Go s0) (n : Nat) : Go s0 :=
  match Tab.find g.st.gangs n with
  | none => g
  | some gg =>
    let all := (Tab.vals gg.teams).all fun t => match g.st.team? t with | some m => m.saved || m.lost | none => true
    if gg.st == .saved && all then toPeer g gg.coord (.gang gg.coord "saved" n) (.gangSaved n g.st.mod.modid) else g

/-- The team detaches once every crew that has not exited has executed `gdetach` (R302). -/
def gdetachCheck (g : Go s0) (t : Nat) : Go s0 :=
  match g.st.team? t with
  | none => g
  | some tm =>
    if !tm.gdetach.isEmpty && !tm.detached && (g.st.liveCrews t).all fun e => tm.gdetach.contains e.1 then
      let g := gangDetach g t
      g.each tm.gdetach fun x g => endWaits g x .gdetach tm.gdetachClock []
    else g

/-- What a draining crew started has ended (R62). -/
def crewDrained (s : State) (x : Nat) (c : Crew) : Bool :=
  c.st == .draining && c.loadq.isEmpty && c.storeq.isEmpty && c.sent.isEmpty
    && !(s.cores.any fun e => e.2.ops.any fun o => o.2.inst == c.inst)
    && !(s.teams.any fun e => e.2.opq.any fun o => o.inst == c.inst)
    && !(s.announces.any fun e => e.2.inst == c.inst)
    && !(s.passes.any fun e => e.2.crew == x && e.2.pass.crew == c.inst)
    && c.handles.all fun h => h.2.result.isSome

/-- Retires a crew (R61), and its team where it was the last: a gang member then counts as detached (R303). -/
def retireCrew (g : Go s0) (x : Nat) (c : Crew) : Go s0 :=
  let g := (modTeam g c.team fun t => { t with crews := t.crews.filter fun y => y != x, gwct := max t.gwct c.gfab }).put (.crew x none)
  let g := leaveRecords g c
  match g.st.team? c.team with
  | none => g
  | some t =>
    if !t.crews.isEmpty then g
    else
      match t.gang with
      | none => teamRetire g c.team
      | some n =>
        if (Tab.find g.st.gangs n).isNone then teamRetire g c.team
        else if t.detached then g
        else gangDetach g c.team

/-- CREW_RETIRE (R62). -/
def execCrewRetire (x : Nat) (s : State) : Host.Outcome State Fault Refusal :=
  match s.crew? x with
  | none => .next s
  | some c => if crewDrained s x c then (retireCrew (Go.start s) x c).done else .next s

/-- Does the wait ask the tile allocator for something (R289)? -/
def Wait.asksTiles : Wait → Bool
  | .mget .. => true
  | _ => false

/-- Every lane of a crew exits (R47, R229, R376 EXIT): the crew drains. What it asked of the tile allocator is gone (R291). -/
def exitCrew (g : Go s0) (x : Nat) : Go s0 :=
  match g.st.crew? x with
  | none => g
  | some c =>
    let g := modCrew g x fun c => { c with st := .draining, exited := laneMask c.width, splits := [], joins := [], frec := if c.recSent then none else c.frec }
    let g := gdetachCheck (exitArrivals g x) c.team
    if c.splits.any fun e => e.2.wait.asksTiles then runTiles g else g

end Sys2Proof.Machine
end

