-- ==== Sys2Proof/Machine/Passes.lean ====
section
/-! DEFINITION. Group 13, remote memory and the lode window (R126 to R132, R293 to R303, R363, R364, R431): the instructions, what
a target does with a pass, and how the source goes on with replies and acknowledgements. -/

namespace Sys2Proof.Machine

variable {s0 : State}

/-! ### Issue -/

/-- The peer of a lane, and whether its upper bits are 0 (R295). -/
def peerOf (i : Issue) (l : Nat) : Nat × Bool :=
  let v := match i.f.a with
    | .s n => (i.ca.uni n.toNat).toNat
    | _ => i.a32 l
  (v % 2 ^ 18, v / 2 ^ 18 == 0)

/-- The address of a lane on its peer (R295). -/
def farAddr (i : Issue) (l : Nat) : Nat :=
  match i.f.b with
  | .v idx .. => i.cb.rowsVal i.sp.wbase idx.toNat 2 l
  | .s n => (i.cb.uni n.toNat).toNat
  | _ => 0

/-- Stage 1 of a remote access in a lane (R296). -/
def checkPeer (i : Issue) (k : AccKind) (g : Go s0) (l : Nat) : Except LaneFault Checked × Go s0 :=
  let (p, ok) := peerOf i (evalLane l)
  let a := farAddr i (evalLane l)
  let bad := fun n addr => (.error { lane := l, cause := n, addr := addr } : Except LaneFault Checked)
  let (absent, g) := peerAbsent g i.c.ctx p
  (if !ok then bad 3 0
   else if a % k.size ≠ 0 then bad 4 a
   else if bitf a 56 4 ≠ 0 then bad 5 a
   else if absent then bad 9 p
   else if k.ord then bad 14 a
   else .ok { lane := l, ea := a, loc := .far p (BitVec.ofNat 64 a), peers := [p] }, g)

/-- Stage 1 of a window access in a lane (R129, R301). -/
def checkMember (i : Issue) (k : AccKind) (g : Go s0) (l : Nat) : Except LaneFault Checked × Go s0 :=
  let rank := i.a32 (evalLane l)
  let off := i.b32 (evalLane l)
  let bad := fun n => (.error { lane := l, cause := n, addr := off } : Except LaneFault Checked)
  match g.st.team? i.c.team with
  | none => (bad 5, g)
  | some t =>
    let lost := match t.gang.bind fun n => Tab.find g.st.gangs n with
      | some gg => gg.lost.contains rank
      | none => true
    (if off % k.size ≠ 0 then bad 4
     else if t.gangSize ≤ rank || t.scratchSize < off + k.size then bad 5
     else if t.detached || lost then bad 10
     else .ok { lane := l, ea := off, loc := .far (2 ^ 20 + rank) (BitVec.ofNat 64 off), peers := [rank] }, g)

/-- A remote or window access (R296, R301): stage 1 in every lane, then the passes. `modules` are the modules they go to. -/
def passAccess (g : Go s0) (i : Issue) (a : MemAccess) (kind : PassKind)
    (check : Go s0 → Nat → Except LaneFault Checked × Go s0) (module : Nat → Nat) : Go s0 :=
  let ((fs, cs), g1) := checkAll g check (accLanes i)
  if !fs.isEmpty then takeFault g1 i.x i.k (i.spread fs) (match a.op with | none => 0 | some o => accessOf o) 0 false
  else if g1.st.mustWait i a cs ((cs.map fun c => c.peers).flatten.map module) then g
  else memIssue g1 i a kind cs []

/-- The module of a member of the issuing team's gang. -/
def memberModule (s : State) (i : Issue) (rank : Nat) : Nat :=
  match ((s.team? i.c.team).bind fun t => t.gang).bind fun n => Tab.find s.gangs n with
  | some gg => gg.members.getD rank s.mod.modid
  | none => s.mod.modid

/-- The memory operation of a `ratom` (R298): a class-v D takes the old value. -/
def ratomAccess (i : Issue) : MemAccess :=
  { ty := i.ty, op := some (opOf i.ty (extHigh i.f.ext)), ret := i.f.d.cls == .v, scope := extScope i.f.ext, ordered := false
    dest := if i.f.d.cls == .v then destOf i i.ty else .none, ord := i.f.f
    data := fun l => i.dv i.ty true (evalLane l), expect := fun _ => 0 }

def rldBody (i : Issue) (g : Go s0) : Go s0 := passAccess g i (loadAccess i) .rld (checkPeer i (loadAccess i).kind) id
def rstBody (i : Issue) (g : Go s0) : Go s0 := passAccess g i (storeAccess i) .rst (checkPeer i (storeAccess i).kind) id
def ratomBody (i : Issue) (g : Go s0) : Go s0 := passAccess g i (ratomAccess i) .ratom (checkPeer i (ratomAccess i).kind) id
def gldBody (i : Issue) (g : Go s0) : Go s0 :=
  passAccess g i (loadAccess i) .gld (checkMember i (loadAccess i).kind) (memberModule g.st i)
def gstBody (i : Issue) (g : Go s0) : Go s0 :=
  passAccess g i (storeAccess i) .gst (checkMember i (storeAccess i).kind) (memberModule g.st i)

/-- `rfence` (R300): it waits in issue. -/
def rfenceBody (i : Issue) (g : Go s0) : Go s0 :=
  if i.run = 0 then retire g i {}
  else
    let zero := fun t : Target => t.counts.all fun n => n == 0
    let go := fun (p : Target → Bool) (g' : Go s0) =>
      if (i.c.targets.all fun e => !p e.2 || zero e.2) && i.c.gfab < g.st.now then retire g' i {} else g
    match i.f.a with
    | .none => go (fun _ => true) g
    | _ =>
      let v := match i.f.a with | .s n => (i.ca.uni n.toNat).toNat | _ => i.a32 0
      if 2 ^ 18 ≤ v then faultAll g i 3 0 0
      else
        let (absent, g1) := peerAbsent g i.c.ctx v
        if absent then faultAll g1 i 9 v 0 else go (fun t => t.peer == v) g1

/-- `gdetach` (R302): step 1 waits in issue, step 2 blocks. -/
def gdetachBody (i : Issue) (g : Go s0) : Go s0 :=
  if i.run = 0 then retire g i {}
  else
    match g.st.team? i.c.team with
    | none => g
    | some t =>
      if t.gangSize = 0 then faultAll g i 3 0 0
      else if t.detached then faultAll g i 10 0 0
      else if i.c.sent.any (fun f => !f.counted) || g.st.now ≤ i.c.gfab then g
      else
        let g := modTeam (park g i .gdetach) i.c.team fun t =>
          { t with gdetach := (t.gdetach.filter fun y => y != i.x) ++ [i.x], gdetachClock := max t.gdetachClock (i.sp.clock + 1) }
        gdetachCheck g i.c.team

def execRld (f : Fields) (s : State) : Host.Outcome State Fault Refusal := crewStep .rld f s rldBody
def execRst (f : Fields) (s : State) : Host.Outcome State Fault Refusal := crewStep .rst f s rstBody
def execRatom (f : Fields) (s : State) : Host.Outcome State Fault Refusal := crewStep .ratom f s ratomBody
def execGld (f : Fields) (s : State) : Host.Outcome State Fault Refusal := crewStep .gld f s gldBody
def execGst (f : Fields) (s : State) : Host.Outcome State Fault Refusal := crewStep .gst f s gstBody
def execRfence (f : Fields) (s : State) : Host.Outcome State Fault Refusal := crewStep .rfence f s rfenceBody
def execGdetach (f : Fields) (s : State) : Host.Outcome State Fault Refusal := crewStep .gdetach f s gdetachBody

/-! ### The target -/

/-- The launch of another module's crew, as this module numbers it (R64). -/
def State.launchLocal (s : State) (n : Option (Nat × Nat)) : Option Nat :=
  n.bind fun (home, no) =>
    (s.launches.find? fun e => if home = s.mod.modid then e.2.home.isNone && e.1 == no
      else e.2.home == some home && e.2.homeNo == no).map Prod.fst

/-- The crew that made a pass, where it runs here. -/
def State.crewByInst (s : State) (inst : Nat) : Option (Nat × Crew) := s.crews.find? fun e => e.2.inst == inst
/-- The crew of this module that made a pass. -/
def State.ownCrew (s : State) (p : PassIn) : Option (Nat × Crew) := if p.src = s.mod.modid then s.crewByInst p.crew else none

/-- Who performs a pass (R72, R133): a crew of this module, or one of another, which has no core here. -/
def passBy (s : State) (p : PassIn) : By :=
  let b : By := { core := 640, remote := p.src != s.mod.modid, launch := s.launchLocal p.launch, clock := p.clock, scope := p.scope, vc := p.vc
                  who := p.track.map fun t => (p.crew, t.no) }
  match s.ownCrew p with
  | some (x, c) => { b with core := placeCore x, team := c.team }
  | none => b

/-- Answers a pass. -/
def replyPass (g : Go s0) (p : PassIn) (refused data : List (Nat × Nat)) (bad : List Nat) (clock : Nat) (vc : Table Nat) : Go s0 :=
  toPeer g p.src (.reply p.src p.id refused data bad clock vc) (.passReply p.id refused data bad clock vc)

/-- The places of a pass's lanes at this module, or their causes (R296 stage 2). -/
def passPlaces (g : Go s0) (us : List Nat) (p : PassIn) : List PassLane → (List LaneFault × List (Nat × Loc)) × Go s0
  | [] => (([], []), g)
  | l :: ls =>
    let (r, g) := placeOf g us p.ctx l.addr.toNat (accBytes p.ty) (p.kind != .rld) p.dclass
    let ((fs, ps), g) := passPlaces g us p ls
    match r with
    | .cause n level => (({ lane := l.lane, cause := n, addr := l.addr.toNat, level := level } :: fs, ps), g)
    | .at_ (.far ..) _ => (({ lane := l.lane, cause := 7, addr := l.addr.toNat } :: fs, ps), g)
    | .at_ loc _ => ((fs, (l.lane, loc) :: ps), g)

/-- The address lines of a pass (R363). -/
def passLines (p : PassIn) : List Nat := distinct (p.lanes.map fun l => farLine l.addr.toNat)

/-- The home lines of places. -/
def placeLines (ps : List (Nat × Loc)) : List Nat :=
  distinct (ps.filterMap fun e => match e.2 with | .home k => some (lineOf k) | _ => none)

/-- Ends exclusive leases that a message of another agent meets: their cores return them (R119). -/
def endLeases (g : Go s0) (lns : List Nat) : Go s0 := g.each lns fun ln g => endLease g ln

/-- Grants another module a lease on a line, where the directory has room (R104, R465). -/
def remoteLease (g : Go s0) (ln : Nat) : Go s0 :=
  let j := ln % 4
  let used := (g.st.lines.filter fun e => e.1 % 4 == j && g.st.now < e.2.expFab).length
  if g.st.now < (g.st.lineAt ln).expFab || used < 65536 then grantLease g ln true
  else g.put (.jd j { g.st.jd j with noLease := (g.st.jd j).noLease + 1 })

/-- What a wait that reads its word here takes from its contributing writes (R72, R133): nothing where the word does not satisfy it. -/
def waitShare (s : State) (p : PassIn) (k : Nat) : Nat × Table Nat :=
  match p.wait with
  | none => (0, [])
  | some (cond, value) =>
    if condOk cond (s.wordAt (k / 4)) value then
      let launch := s.launchLocal p.launch
      let reaches := fun w : WriteRec => match s.ownCrew p with
        | some (x, c) => scopeReaches w.scope w.core w.team x c
        | none => 4 < w.scope
      (contributing launch cond value (Tab.get [] s.wlog (k / 4))).foldl (fun a w =>
        (if w.launch.isSome && w.launch == launch then max a.1 w.clock else a.1, if reaches w then vcJoin a.2 w.vc else a.2)) (0, [])
    else (0, [])

/-- Does a pass meet a line on which a committed group of its crew still waits for an ordered flag? Accesses to one line keep program
order (R126). -/
def State.behindFlag (s : State) (p : PassIn) : Bool :=
  s.held.any fun h => h.pass.src == p.src && h.pass.crew == p.crew && (h.pass.kind == .gst) == (p.kind == .gst)
    && h.flags.any fun f => (passLines p).contains f.line

/-- A target holds a remote pass and accepts it, or refuses it (R296); one whose line has a group that waits comes after it. -/
def remoteArrive (g : Go s0) (p : PassIn) : Go s0 :=
  let j := Config.freeNat (g.st.salt 61 p.id) % 4
  let ((fs, ps), g) := passPlaces g (jdUnits j) p p.lanes
  if !fs.isEmpty then
    let np := fs.filter fun f => f.cause == 6
    let g := presentPages g p.ctx p.src true p.ident
      (np.map fun f => { page := bitf f.addr 16 40, level := f.level, kinds := if p.kind = .rld then 1 else 2 })
    replyPass g p (fs.map fun f => (f.lane, f.cause)) [] [] 0 []
  else
    let lns := placeLines ps
    let g := endLeases g lns
    let n := accBytes p.ty
    let g := if p.kind = .rld && p.src != g.st.mod.modid then g.each lns fun ln g => remoteLease g ln else g
    let data := if p.kind = .rld then ps.filterMap fun e => match e.2 with
      | .home k => some (e.1, leNat (g.st.bytesAt k n))
      | _ => none else []
    let bad := if p.kind = .rld then ps.filterMap fun e => match e.2 with
      | .home k => if g.st.poisoned k n then some e.1 else none
      | _ => none else []
    let (clock, vc) := match ps with
      | (_, .home k) :: _ => waitShare g.st p k
      | _ => (0, [])
    replyPass (g.put (.held (g.st.held ++ [{ pass := p, locs := ps, lines := passLines p, flags := [] }]))) p [] data bad clock vc

/-- REMOTE_PASS_ARRIVE (R296). -/
def execRemotePassArrive (p : PassIn) (s : State) : Host.Outcome State Fault Refusal :=
  if p.kind = .rld && s.behindFlag p then (later (Go.start s) (.remotePassArrive p)).done else (remoteArrive (Go.start s) p).done

/-- What member k's core finds against a lane of a window pass (R301 stage 2). -/
def memberCause (s : State) (p : PassIn) (team : Nat) (t : Team) (l : PassLane) : Option Nat :=
  let off := l.addr.toNat
  let n := accBytes p.ty
  let write := p.kind == .gst
  let a : Tracked := { loc := .scratch team off, size := n, read := !write, write := write, op := none }
  if t.cores.any fun c => s.rangeClash c false t.ctx team off n write then some 11
  else if write && t.guarded off n then some 12
  else match p.track with
    | some b => if s.clashBy b a then some 13 else none
    | none => none

/-- Member k's core holds a window pass and accepts it, or refuses it (R301); a member that is lost refuses with member-lost. -/
def windowArrive (g : Go s0) (p : PassIn) : Go s0 :=
  let member := (Tab.find g.st.gangs p.gang).bind fun gg => if gg.lost.contains p.rank then none else Tab.find gg.teams p.rank
  match member.bind fun t => (g.st.team? t).map fun tm => (t, tm) with
  | none => replyPass g p (p.lanes.map fun l => (l.lane, 10)) [] [] 0 []
  | some (t, tm) =>
    let fs := p.lanes.filterMap fun l => (memberCause g.st p t tm l).map fun c => (l.lane, c)
    if !fs.isEmpty then replyPass g p fs [] [] 0 []
    else
      let n := accBytes p.ty
      let write := p.kind == .gst
      let ps := p.lanes.map fun l => (l.lane, Loc.scratch t l.addr.toNat)
      let data := if write then [] else p.lanes.map fun l => (l.lane, leNat (tm.bytesAt l.addr.toNat n))
      let bad := if write then [] else (p.lanes.filter fun l => (List.range n).any fun b => (Tab.find tm.poison (l.addr.toNat + b)).isSome).map fun l => l.lane
      replyPass (g.put (.held (g.st.held ++ [{ pass := p, locs := ps, lines := passLines p, flags := [] }]))) p [] data bad 0 []

/-- WINDOW_PASS_ARRIVE (R301). -/
def execWindowPassArrive (p : PassIn) (s : State) : Host.Outcome State Fault Refusal := (windowArrive (Go.start s) p).done

/-- A junction die writes home bytes (R103, R105): towards exclusive leases it is no core (R119). -/
def dieCells (g : Go s0) (by_ : By) (cells : List (Nat × Byte)) : Go s0 :=
  (homeCells g by_ cells).each (distinct (cells.map fun e => lineOf e.1)) fun ln g =>
    g.put (.line ln (some ((g.st.lineAt ln).afterStore g.st.now 640)))

/-- Performs lanes of a store pass in lane order (R223, R297): the home bytes end with the highest lane's value. -/
def performStores (g : Go s0) (p : PassIn) (ls : List (PassLane × Loc)) : Go s0 :=
  let n := accBytes p.ty
  let home := (ls.map fun e => match e.2 with | .home k => cellsFrom k (leBytes e.1.data n) | _ => []).flatten
  let g := dieCells g (passBy g.st p) (home.foldl (fun (t : Table Byte) e => Tab.put t e.1 e.2) [])
  let g := if p.poison then g.each home fun e g => g.put (.poison e.1 true) else g
  let g := g.each ls fun e g => match e.2 with
    | .scratch t off => scratchStore g t (passBy g.st p) (cellsFrom off (leBytes e.1.data n))
    | _ => g
  match g.st.ownCrew p with
  | some (x, _) => updateCopies g (placeCore x) home
  | none => g

/-- Performs lanes of an atomic pass one after another (R223, R297): the old values. -/
def performAtomics (g : Go s0) (p : PassIn) : List (PassLane × Loc) → List (Nat × Nat) × Go s0
  | [] => ([], g)
  | (l, loc) :: ls =>
    match loc with
    | .home k =>
      let ((old, cells), g) := atomicAt g (passBy g.st p) p.ty p.op k l.data l.expect
      let g := g.put (.line (lineOf k) (some ((g.st.lineAt (lineOf k)).afterStore g.st.now 640)))
      let g := match g.st.ownCrew p with
        | some (x, _) => updateCopies g (placeCore x) cells
        | none => g
      let (olds, g) := performAtomics g p ls
      ((l.lane, old) :: olds, g)
    | _ => performAtomics g p ls

/-- Acknowledges a lane group (R363). -/
def ackPass (g : Go s0) (src id : Nat) (a : FarAck) : Go s0 := toPeer g src (.ack src id a) (.storeAck 0 id (some a))

/-- Sends what an atomic wrote to the mirror of its page, which comes before the acknowledgement (R128). -/
def mirrorWrite (g : Go s0) (p : PassIn) (m : Nat) (ls : List (PassLane × Loc)) (a : FarAck) : Go s0 :=
  let id := g.st.seq
  let n := accBytes p.ty
  let lanes := ls.filterMap fun e => match e.2 with
    | .home k => some { e.1 with data := leNat (g.st.bytesAt k n) }
    | _ => none
  let pass := { p with src := g.st.mod.modid, id := id, kind := .rst, op := .store, scope := 0, ordered := false, mirror := none, track := none }
  sendPasses (g.put .seq) id { crew := 2 ^ 64, split := 0, eas := [], passes := [{ peer := m, lanes := lanes, st := .sent 0 }]
                               origin := .mirror p.src p.id a, access := 2, twice := false, pass := pass }

/-- The lanes of a held pass in one lane group, or all of them, with their places. -/
def HeldPass.group (h : HeldPass) (line : Option Nat) : List (PassLane × Loc) :=
  (h.pass.lanes.filter fun l => match line with | some ln => farLine l.addr.toNat == ln | none => true).filterMap fun l =>
    (h.locs.find? fun e => e.1 == l.lane).map fun e => (l, e.2)

/-- Records the window accesses of lanes that are committed (R132). -/
def trackLanes (g : Go s0) (p : PassIn) (ls : List (PassLane × Loc)) : Go s0 :=
  match p.track with
  | none => g
  | some b => g.each ls fun e g => match e.2 with
    | .scratch t _ =>
      (match g.st.team? t with
      | some tm => trackOne g b tm.launch { loc := e.2, size := accBytes p.ty, read := p.kind != .gst, write := p.kind == .gst, op := none }
      | none => g)
    | _ => g

/-- The groups of a crew that have come to this module by a path (R126): one entry for each in the order of arrival, 0 until it has performed and then
one past its completion time. A window store is no store to the module's memory and counts nowhere. -/
def groupKey (p : PassIn) (path : Nat) : Nat := (p.src * 2 ^ 64 + p.crew) * 4 + path
def State.groupsOf (s : State) (p : PassIn) (path : Nat) : List Nat := Tab.get [] s.groups (groupKey p path)
/-- A group has come. -/
def groupArrives (g : Go s0) (p : PassIn) (path : Nat) : Go s0 :=
  if p.kind = .gst then g else g.put (.groups (groupKey p path) (g.st.groupsOf p path ++ [0]))
/-- Group `no` of a path has performed. -/
def groupDone (g : Go s0) (p : PassIn) (path no t : Nat) : Go s0 :=
  if p.kind = .gst then g else g.put (.groups (groupKey p path) ((g.st.groupsOf p path).set no (t + 1)))

/-- Performs a lane group of a held pass, or all of its lanes, and acknowledges them (R297, R363): `group` is the line, the path and the group's
number on it. -/
def performGroup (g : Go s0) (h : HeldPass) (group : Option (Nat × Nat × Nat)) : Go s0 :=
  let p := h.pass
  let ls := h.group (group.map fun e => e.1)
  let left := match group with | some (ln, _) => h.lines.filter fun n => n != ln | none => []
  let flags := match group with | some (ln, _) => h.flags.filter fun f => f.line != ln | none => []
  let g := trackLanes g p ls
  let g := g.put (.held (g.st.held.filterMap fun o =>
    if o.pass.src = p.src && o.pass.id = p.id then (if left.isEmpty then none else some { h with lines := left, flags := flags }) else some o))
  let lns := placeLines (ls.map fun e => (e.1.lane, e.2))
  let g := endLeases g lns
  let bad := if p.kind = .ratom then ls.filterMap fun e => match e.2 with
    | .home k => if g.st.poisoned k (accBytes p.ty) then some e.1.lane else none
    | _ => none else []
  let (olds, g) := if p.kind = .ratom then performAtomics g p ls else ([], performStores g p ls)
  let remote := p.src != g.st.mod.modid
  let t := if p.kind = .gst then (g.st.now + if remote then 50 else 0, g.st.now + if remote then 50 else 0) else g.st.gwctOf lns remote
  let g := match group with
    | some (_, path, no) => groupDone g p path no t.1
    | none => g
  let a : FarAck := { peer := g.st.mod.modid, line := match group with | some (ln, _) => ln | none => 0, gwctMod := t.1, gwctFab := t.2, olds := olds, bad := bad }
  match p.kind, p.mirror with
  | .ratom, some m =>
    let (absent, g) := peerAbsent g p.ctx m
    if absent then ackPass g p.src p.id a else mirrorWrite g p m ls a
  | _, _ => ackPass g p.src p.id a

/-- A committed group waits (R126): behind an ordered flag of its crew on its line, or as one itself. -/
def holdGroup (g : Go s0) (h : HeldPass) (f : HeldGroup) : Go s0 :=
  g.put (.held (g.st.held.map fun o =>
    if o.pass.src = h.pass.src && o.pass.id = h.pass.id then { o with flags := o.flags ++ [f] } else o))

/-- PASS_COMMIT (R297, R363, R364): a load pass is let go, an ordered flag waits, and so does what follows one on its line; another group
performs. -/
def execPassCommit (from_ pass : Nat) (group : Option (Nat × Nat)) (before : List Nat) (s : State) : Host.Outcome State Fault Refusal :=
  match s.held.find? fun h => h.pass.src == from_ && h.pass.id == pass with
  | none => .next s
  | some h =>
    let g := Go.start s
    if h.pass.kind = .rld || h.pass.kind = .gld then
      ((trackLanes g h.pass (h.group none)).put (.held (s.held.filter fun o => !(o.pass.src == from_ && o.pass.id == pass)))).done
    else match group with
      | some (ln, path) =>
        let no := (s.groupsOf h.pass path).length
        let g := groupArrives g h.pass path
        if h.pass.ordered then (holdGroup g h ⟨before, path, ln, no⟩).done
        else if s.behindFlag { h.pass with lanes := (h.group (some ln)).map Prod.fst } then (holdGroup g h ⟨[0, 0, 0, 0], path, ln, no⟩).done
        else (performGroup g h (some (ln, path, no))).done
      | none => (performGroup g h none).done

/-- PASS_CANCEL (R296). -/
def execPassCancel (from_ pass : Nat) (s : State) : Host.Outcome State Fault Refusal :=
  if s.held.any fun h => h.pass.src == from_ && h.pass.id == pass then
    ((Go.start s).put (.held (s.held.filter fun h => !(h.pass.src == from_ && h.pass.id == pass)))).done
  else .next s

/-- May a held ordered flag perform (R126, R364): have the groups before it all performed, and is time past their completion? Those of a path are
the first that came by it (DEDUCED, log 80). -/
def flagReady (s : State) (h : HeldPass) (before : List Nat) : Bool :=
  (List.range 4).all fun k =>
    let came := s.groupsOf h.pass k
    let n := before.getD k 0
    n ≤ came.length && (came.take n).all fun t => t != 0 && t ≤ s.now

/-- Is an earlier group of the crew on the line still waiting (R126)? Passes are numbered in program order. -/
def State.earlierGroup (s : State) (h : HeldPass) (ln : Nat) : Bool :=
  s.held.any fun o => o.pass.src == h.pass.src && o.pass.crew == h.pass.crew && o.pass.id < h.pass.id
    && (o.pass.kind == .gst) == (h.pass.kind == .gst) && o.flags.any fun f => f.line == ln

/-- The first group of a held pass that need wait no longer: its line, path and number. -/
def State.readyGroup (s : State) (h : HeldPass) : Option (Nat × Nat × Nat) :=
  (h.flags.find? fun f => flagReady s h f.before && !s.earlierGroup h f.line).map fun f => (f.line, f.path, f.no)

/-- ORDERED_FLAG_RELEASE (R126, R364). -/
def execOrderedFlagRelease (from_ pass : Nat) (s : State) : Host.Outcome State Fault Refusal :=
  match s.held.find? fun h => h.pass.src == from_ && h.pass.id == pass && (s.readyGroup h).isSome with
  | none => .next s
  | some h =>
    match s.readyGroup h with
    | some group => (performGroup (Go.start s) h (some group)).done
    | none => .next s

/-! ### Target records -/

/-- The record of a crew for a peer, or a free one, or the one to reuse, whose counts became zero first (R299). -/
def targetFor (c : Crew) (peer : Nat) : Option Nat :=
  match c.targets.find? fun e => e.2.peer == peer with
  | some e => some e.1
  | none =>
    match Tab.freeKey c.targets 0 16 with
    | some k => some k
    | none =>
      let zero := c.targets.filter fun e => e.2.counts.all fun n => n == 0
      (zero.foldl (fun (m : Option (Nat × Target)) e => match m with
        | some v => if e.2.zeroAt < v.2.zeroAt then some e else some v
        | none => some e) none).map Prod.fst

/-- Adds to the counts of a peer's record. -/
def Crew.countUp (c : Crew) (peer path : Nat) : Crew :=
  match targetFor c peer with
  | none => c
  | some k =>
    let old : Target := match Tab.find c.targets k with
      | some t => if t.peer = peer then t else { peer := peer, counts := [0, 0, 0, 0], zeroAt := 0 }
      | none => { peer := peer, counts := [0, 0, 0, 0], zeroAt := 0 }
    { c with targets := Tab.put c.targets k { old with counts := old.counts.modify path (· + 1) } }

/-- An acknowledgement counts down. -/
def Crew.countDown (c : Crew) (peer path now : Nat) : Crew :=
  { c with targets := c.targets.map fun e =>
      if e.2.peer = peer then
        let n := e.2.counts.modify path (· - 1)
        (e.1, { e.2 with counts := n, zeroAt := if n.all fun v => v == 0 then now else e.2.zeroAt })
      else e }

/-! ### Lost peers -/

/-- Lanes of a load-queue entry as its poison holds them. -/
def poisonAll (w : Nat) (ls : List Nat) (m : Lanes) : Lanes :=
  ls.foldl (fun (m : Lanes) l => m ||| (if l = 128 then laneMask w else lane1 l)) m

/-- A load entry some of whose lanes will never return: they are poisoned, and their values left open (R128, R241). -/
def LoadEntry.lose (w : Nat) (q : LoadEntry) : LoadEntry :=
  let missing : List Nat := (q.lanes.map LaneAcc.lane).filter fun l => !q.got.any fun v => v.1 == l
  { q with got := q.got ++ missing.map fun l => (l, 0), poison := poisonAll w missing q.poison }

/-- Stores to a MIRROR page that a lost primary has not acknowledged are completed at the mirror alone, and an atomic with return
is poisoned (R128). -/
def mirrorLoss (c : Crew) (s : State) (p : Nat) : Crew :=
  let gone := c.sent.filter fun f => f.peer == p && f.mirrored
  let c := gone.foldl (fun (c : Crew) f => if f.counted then c.countDown f.peer f.path s.now else c) c
  let c := { c with sent := c.sent.filter fun f => !(f.peer == p && f.mirrored)
                    loadq := c.loadq.map fun (q : LoadEntry) =>
                      if gone.any (fun f => f.store == q.id) && q.atomic then q.lose c.width else q }
  c.freeStores s

/-- An acquire whose entries are gone has performed (R116). -/
def orderEnds (g : Go s0) (x id : Nat) : Go s0 :=
  match g.st.crew? x with
  | some c =>
    if !c.storeq.any (fun q => q.id == id) && !c.loadq.any (fun q => q.id == id) && c.order.contains id then acquired g x id 5 else g
  | none => g

/-- What a crew still waits for from the lost primary of MIRROR pages completes at the mirror (R128, R460). -/
def crewMirrorLoss (g : Go s0) (p : Nat) (e : Nat × Crew) : Go s0 :=
  let s := g.st
  (modCrew g e.1 fun c => mirrorLoss c s p).each (distinct ((e.2.sent.filter fun f => f.peer == p && f.mirrored).map fun f => f.store))
    fun id g => orderEnds g e.1 id

/-- The same of an engine operation's writes. -/
def EngOp.mirrorLoss (p : Nat) (e : EngOp) : EngOp := { e with far := e.far.filter fun w => !(w.2 == p && e.both.contains w.1) }
def engineMirrorLoss (g : Go s0) (p core op : Nat) (e : EngOp) : Go s0 :=
  if e.mirrorLoss p = e then g else engineDone (setEngine g core op (some (e.mirrorLoss p))) core op

/-- Marks a peer lost in the peer table (R459): its state goes from 1 to 3 at the entry's home; mirrors and launches learn of
it (R460, R64). -/
def peerLost (g : Go s0) (p : Nat) : Go s0 :=
  let m := g.st.mod
  let k := m.ptBase.toNat + 8 * p
  let e := leNat (g.st.bytesAt k 1)
  if m.ptCount.toNat ≤ p || e % 4 ≠ 1 then g
  else
    let g := homeStore g {} [(k, BitVec.ofNat 8 (e + 2))]
    let g := g.put (.mod { g.st.mod with mirrors := g.st.mod.mirrors.map fun r =>
      if r.2.valid && r.2.primary.toNat = p then (r.1, { r.2 with lost := true }) else r })
    let g := g.each g.st.crews fun e g => crewMirrorLoss g p e
    let g := g.each g.st.cores fun c g => g.each c.2.ops fun e g => engineMirrorLoss g p c.1 e.1 e.2
    let g := g.each g.st.engines fun e g => engineMirrorLoss g p 640 e.1 e.2
    let g := g.each (g.st.ctxs.filter fun e => !e.2.orphans.isEmpty) fun e g =>
      modCtx g e.1 fun v => { v with orphans := v.orphans.filter fun o => !(o.2.counted && o.2.peer == p) }
    g.each g.st.launches fun l g => breakLaunch g l.1 p

/-- A member of a gang is lost (R301, R393, R420): it counts as detached, and its context gets a record naming its first crew. -/
def memberLostAs (g : Go s0) (n rank id : Nat) : Go s0 :=
  match Tab.find g.st.gangs n with
  | none => g
  | some gg =>
    if gg.lost.contains rank then g
    else
      let g := tellDetached (g.put (.gang n (some { gg with lost := gg.lost ++ [rank] }.close))) n rank
      windowCheck (sendRecord g gg.pend.ctx (FaultRec.event 3 1 id 0 g.st.now)) n

/-- A member that a pass finds lost; which crew a record of one on another module names is left open (log 32). -/
def memberLost (g : Go s0) (n rank : Nat) : Go s0 :=
  let id := match (Tab.find g.st.gangs n).bind fun gg => Tab.find gg.teams rank with
    | some t => g.st.firstCrew t
    | none => Config.freeNat (g.st.salt 80 rank) % 2 ^ 32
  memberLostAs g n rank id

/-! ### Replies -/

/-- Sends a message of a set about one pass. -/
def sendOf (g : Go s0) (set : PassSet) (o : PassOut) (m : Nat → Nat → Msg) (ev : Nat → Instr) : Go s0 :=
  let p := passFor set o
  let peer := g.st.passModule p o.peer
  toPeer g peer (m peer p.id) (ev p.id)

/-- Cancels the passes of a set that were accepted (R296). -/
def cancelPasses (g : Go s0) (set : PassSet) : Go s0 :=
  let own := g.st.mod.modid
  g.each set.passes fun o g => match o.st with
    | .accepted .. | .sent _ => sendOf g set o (fun p id => .cancel p id) (fun id => .passCancel own id)
    | _ => g

/-- The lanes and causes of a set's refusals. -/
def PassSet.refusals (set : PassSet) : List (Nat × Nat) :=
  (set.passes.map fun o => match o.st with | .refused cs => cs | _ => []).flatten

/-- An engine operation ends with a fault of a pass: a kind-1 record (R62, R382). Where it wrote an image of a team, the context
faults (R424). -/
def engineFault (g : Go s0) (core op : Nat) (set : PassSet) : Go s0 :=
  match g.st.engineOp core op with
  | none => g
  | some e =>
    let cause := (set.refusals.map Prod.snd).foldl min 22
    let addr := match set.passes with | o :: _ => (match o.lanes with | l :: _ => l.addr.toNat | [] => 0) | [] => 0
    if core < 640 then
      let g := endEngine g core op { e with left := [], far := [] }
      let r := FaultRec.event 1 (if e.list.isSome then 3 else 2) (crewId (e.ctx g.st) e.crew) addr g.st.now
      sendRecord g (e.ctx g.st) { r with cause := cause, access := if set.pass.kind = .rld then 0 else 1 }
    else
      let g := g.put (.engine op (some { e with left := [], far := [], refused := cause }))
      let code := if (Tab.find g.st.announces op).isSome then 4 else if g.st.jds.any fun j => (Tab.find j.2.deliv op).isSome then 5 else 0
      if code = 0 then
        (match g.st.saved.find? fun v => v.2.writes.contains op with
        | some v => contextFault g v.2.ctx (g.st.firstCrew (v.1 / 2))
        | none => g)
      else
        let ctx := e.ctx g.st
        sendRecord g ctx { FaultRec.event 1 code (crewId ctx e.crew) addr g.st.now with cause := cause, access := if code = 4 then 0 else 1 }

/-- Some pass was refused: the others are cancelled and the instruction faults (R296). -/
def passFail (g : Go s0) (n : Nat) (set : PassSet) : Go s0 :=
  let g := (cancelPasses g set).put (.passSet n none)
  match set.origin with
  | .engine core op _ => engineFault g core op set
  | .mirror src pass ack => ackPass g src pass ack
  | _ =>
    match g.st.crew? set.crew with
    | none => g
    | some c =>
      if c.inst ≠ set.pass.crew then g
      else
        let g := match set.origin with
          | .instr l t => modCrew g set.crew fun c =>
              { c with loadq := c.loadq.filter fun q => l != some q.id, storeq := c.storeq.filter fun q => t != some q.id
                       uncov := c.uncov.filter fun u => l != some u.id, order := c.order.filter fun o => l != some o && t != some o }
          | _ => g
        let run := match c.split? set.split with | some sp => lanesOf sp.run c.width | none => []
        let ea := fun l => ((set.eas.find? fun e => e.1 == l).map Prod.snd).getD 0
        let fs : List LaneFault := (set.refusals.map fun e =>
          if e.1 = 128 then run.map fun l => { lane := l, cause := e.2, addr := ea 128 }
          else [{ lane := e.1, cause := e.2, addr := ea e.1 }]).flatten
        takeFault g set.crew set.split fs set.access 0 false true

/-- The path of a lane group (R126, R363): that of an unacknowledged access to the line, else one whose link is up, which is left
open. -/
def pathFor (g : Go s0) (c : Crew) (set : PassSet) (o : PassOut) (ln : Nat) : Nat × Go s0 :=
  match c.sent.find? fun f => f.peer == o.peer && f.line == ln && f.counted == (set.pass.kind != .gst) with
  | some f => (f.path, g)
  | none =>
    let peer := g.st.passModule (passFor set o) o.peer
    let (e, g) := peerEntry g peer
    let up := g.st.pathsUp e
    let ps := if peer = g.st.mod.modid || up.isEmpty then [0, 1, 2, 3] else up
    (ps.getD (Config.freeNat (g.st.salt 62 ln) % ps.length) 0, g)

/-- Commits one lane group (R299, R363). -/
def commitGroup (g : Go s0) (set : PassSet) (o : PassOut) (store : Nat) (before : List Nat) (ln : Nat) : Go s0 :=
  match g.st.crew? set.crew with
  | none => g
  | some c =>
    let (path, g) := pathFor g c set o ln
    let own := g.st.mod.modid
    let counted := set.pass.kind != .gst
    let peer := g.st.passModule (passFor set o) o.peer
    let key := if counted then o.peer else 2 ^ 20 + o.peer
    let g := modCrew g set.crew fun c =>
      let c := if counted then c.countUp o.peer path else c
      { c with
        sent := c.sent ++ [{ pass := set.pass.id, peer := o.peer, line := ln, path := path, store := store, mirrored := set.twice || set.pass.mirror.isSome
                             near := peer == own, counted := counted }]
        totals := Tab.put c.totals key ((Tab.get [0, 0, 0, 0] c.totals key).modify path (· + 1)) }
    sendOf g set o (fun p id => .commit p id (some (ln, path)) before) (fun id => .passCommit own id (some (ln, path)) before)

/-- Marks a pass of a set committed. -/
def markCommitted (g : Go s0) (n : Nat) (set : PassSet) (peer : Nat) : Go s0 :=
  g.put (.passSet n (some { set with passes := set.passes.map fun (o : PassOut) => if o.peer = peer then { o with st := .committed } else o }))

/-- Is a peer the lost primary of a mirror-table entry (R460)? -/
def State.lostPrimary (s : State) (p : Nat) : Bool := s.mod.mirrors.any fun e => e.2.valid && e.2.lost && e.2.primary.toNat == p

/-- Is a pass of a store or atomic one to the lost primary of its MIRROR page? The store completes at the mirror alone (R128). -/
def State.passedBy (s : State) (set : PassSet) (o : PassOut) : Bool :=
  set.pass.kind != .gst && (set.twice || set.pass.mirror.isSome) && set.pass.mirror != some o.peer && s.lostPrimary o.peer

/-- An atomic of a set whose primary is lost: where it returns, it is poisoned (R128). -/
def loseAtomic (g : Go s0) (set : PassSet) : Go s0 :=
  match set.pass.kind, set.origin with
  | .ratom, .instr (some l) _ => modCrew g set.crew fun c =>
      { c with loadq := c.loadq.map fun (q : LoadEntry) => if q.id = l then q.lose c.width else q }
  | _, _ => g

/-- Commits the passes of a set in rising peer number, as far as target records allow (R299). -/
def commitPasses (g : Go s0) (n : Nat) : List PassOut → Go s0
  | [] => g
  | o :: os =>
    match Tab.find g.st.passes n with
    | none => g
    | some set =>
      let own := g.st.mod.modid
      let whole := fun (g : Go s0) => sendOf g set o (fun p id => .commit p id none []) (fun id => .passCommit own id none [])
      match o.st with
      | .accepted .. =>
        (match set.origin with
        | .instr _ (some t) =>
          (match g.st.crew? set.crew with
          | none => g
          | some c =>
            if g.st.passedBy set o then commitPasses (markCommitted (loseAtomic g set) n set o.peer) n os
            else if set.pass.kind != .gst && (targetFor c o.peer).isNone then g
            else
              let before := Tab.get [0, 0, 0, 0] c.totals o.peer
              let g := g.each (distinct (o.lanes.map fun l => farLine l.addr.toNat)) fun ln g => commitGroup g set o t before ln
              commitPasses (markCommitted g n set o.peer) n os)
        | _ => commitPasses (markCommitted (whole g) n set o.peer) n os)
      | _ => commitPasses g n os

/-- The data, poisoned lanes, clock and order that accepted passes carried. -/
def passData (ps : List PassOut) : List (Nat × Nat) × List Nat × Nat × Table Nat :=
  ps.foldl (fun a o => match o.st with
    | .accepted d b c v => (a.1 ++ d, a.2.1 ++ b, max a.2.2.1 c, vcJoin a.2.2.2 v)
    | _ => a) ([], [], 0, [])

/-- The loaded values of a set reach the load queue (R296), each byte as the core's store path holds it (R109). -/
def Crew.takeData (c : Crew) (s : State) (core : Nat) (id : Option Nat) (data : List (Nat × Nat)) (bad : List Nat) : Crew :=
  { c with loadq := c.loadq.map fun (q : LoadEntry) =>
      if id = some q.id && !q.atomic then
        { q with got := q.got ++ data.map fun d => (d.1, s.withHeld core c q d.1 d.2), poison := poisonAll c.width bad q.poison }
      else q }

/-- Is a set wholly committed? -/
def PassSet.sentAll (set : PassSet) : Bool := set.passes.all fun o => match o.st with | .committed => true | _ => false

/-- The store of a MIRROR page that has nothing on its way to a peer, its primary being lost, is complete (R128). -/
def noneOut (g : Go s0) (set : PassSet) : Go s0 :=
  match set.origin with
  | .instr _ (some t) =>
    let s := g.st
    orderEnds (modCrew g set.crew fun c => c.freeStores s) set.crew t
  | _ => g

/-- The instruction of a set retires (R296): its accesses here are recorded (R74), a release ends its phase (R133), and its team stops being
relaunch-eligible (R232, R314). -/
def passRetire (g : Go s0) (set : PassSet) : Go s0 :=
  match g.st.crew? set.crew with
  | none => g
  | some c =>
    let away := set.passes.any fun o => g.st.passModule (passFor set o) o.peer != g.st.mod.modid
    let g := if set.pass.kind != .gld || away then noRelaunch g c.team else g
    let g := trackAll g c set.pass.id set.tracked
    let g := if set.pass.scope != 0 && set.origin.stores then modCrew g set.crew Crew.released else g
    let g := if set.passes.any (g.st.passedBy set) then noneOut g set else g
    endWait g set.crew set.split 0 []

/-- The last commit is sent: the instruction retires (R296). -/
def passEnd (g : Go s0) (n : Nat) (set : PassSet) : Go s0 :=
  match set.origin with
  | .instr _ _ => passRetire (g.put (.passSet n none)) set
  | .mirror .. => g
  | _ => g.put (.passSet n none)

/-- A re-read of a word on another module has its value (R260); its page ends the team's relaunch eligibility (R232). -/
def rereadEnd (g : Go s0) (set : PassSet) (data : List (Nat × Nat)) (clock : Nat) (vc : Table Nat) : Go s0 :=
  match g.st.crew? set.crew, data with
  | some c, (_, v) :: _ =>
    match c.split? set.split with
    | none => g
    | some sp =>
      match sp.wait with
      | .word cond (.far ..) _ value scope =>
        if c.inst = set.pass.crew && condOk cond v value then
          let g := noRelaunch (endWait g set.crew set.split clock vc) c.team
          if 3 ≤ g.st.scopeOf c scope then dropCopies g set.crew else g
        else g
      | _ => g
  | _, _ => g

/-- Data of an engine's read pass is a source unit (R264). -/
def engineData (g : Go s0) (core op unit : Nat) (data : List (Nat × Nat)) (bad : List Nat) : Go s0 :=
  match g.st.engineOp core op with
  | none => g
  | some e =>
    let bs := data.map fun d => BitVec.ofNat 8 d.2
    setEngine g core op (some { e with buf := Tab.put e.buf unit (bs, !bad.isEmpty) })

/-- Do the commits of a set wait: for what its release orders (R116), or for an older store of the core to one of its bytes (R108, R109)?
A release stays in issue until its last commit is sent, as R296 has it of every store to another module (DEDUCED, log 24). -/
def State.commitsWait (s : State) (set : PassSet) : Bool :=
  match set.origin with
  | .instr _ (some t) =>
    (match s.crew? set.crew with
    | some c => c.inst == set.pass.crew &&
        (set.pass.scope != 0 && !s.fenceReady set.crew c t (s.scopeOf c set.pass.scope) || s.farAhead (placeCore set.crew) c t)
    | none => false)
  | _ => false

/-- Goes on with a set all of whose passes have been accepted: commits what can be committed. -/
def passGo (g : Go s0) (n : Nat) (set : PassSet) : Go s0 :=
  if g.st.commitsWait set then g
  else
    let g := commitPasses g n set.passes
    match Tab.find g.st.passes n with
    | some new => if new.sentAll then passEnd g n new else g
    | none => g

/-- Every pass has replied (R296). -/
def resolvePasses (g : Go s0) (n : Nat) (set : PassSet) : Go s0 :=
  if set.passes.any fun o => match o.st with | .refused _ => true | _ => false then passFail g n set
  else
    let (data, bad, clock, vc) := passData set.passes
    let g := match set.origin with
      | .instr l _ =>
        let s := g.st
        modCrew g set.crew fun c => if c.inst = set.pass.crew then c.takeData s (placeCore set.crew) l data bad else c
      | .reread => rereadEnd g set data clock vc
      | .engine core op unit => if set.pass.kind = .rld then engineData g core op unit data bad else g
      | _ => g
    passGo g n set

/-- A pass of a set ends its wait for a reply. -/
def passAnswer (g : Go s0) (n : Nat) (set : PassSet) (peer : Nat) (st : PassSt) : Go s0 :=
  let set := { set with passes := set.passes.map fun (o : PassOut) => if o.peer = peer then { o with st := st } else o }
  let g := g.put (.passSet n (some set))
  if set.passes.all fun o => match o.st with | .sent _ => false | _ => true then resolvePasses g n set else g

/-- A pass to the lost primary of a MIRROR page that was in flight (R128, R460): a load goes to the mirror, a store is completed by the
mirror's own pass, an atomic is poisoned where it returns. -/
def passMirrored (g : Go s0) (n : Nat) (set : PassSet) (o : PassOut) (m : Nat) : Go s0 :=
  match set.pass.kind with
  | .rld =>
    let new : PassOut := { o with peer := m, st := .sent g.st.now }
    let set := { set with passes := set.passes.map fun (q : PassOut) => if q.peer = o.peer then new else q }
    let p := passFor set new
    toPeer (g.put (.passSet n (some set))) m (.pass m p) (passEvent p)
  | .ratom => passAnswer (loseAtomic g set) n set o.peer .committed
  | _ => passAnswer g n set o.peer .committed

/-- A pass that had no reply in time (R296, R301): its peer or member is lost. -/
def passLate (g : Go s0) (n : Nat) (set : PassSet) (o : PassOut) : Go s0 :=
  if set.pass.kind = .gld || set.pass.kind = .gst then
    passAnswer (memberLost g set.pass.gang o.peer) n set o.peer (.refused (o.lanes.map fun l => (l.lane, 9)))
  else
    let g := peerLost g o.peer
    match set.origin, set.pass.mirror with
    | .mirror .., _ => passAnswer g n set o.peer (.refused [])
    | _, some m =>
      if g.st.lostPrimary o.peer && m != o.peer && !set.passes.any (fun q => set.pass.kind == .rld && q.peer == m) then
        passMirrored g n set o m
      else passAnswer g n set o.peer (.refused (o.lanes.map fun l => (l.lane, 9)))
    | _, none => passAnswer g n set o.peer (.refused (o.lanes.map fun l => (l.lane, 9)))

/-- PASS_REPLY (R296): within 100 µs; a later one comes to nothing, its pass counting as refused. -/
def execPassReply (pass : Nat) (refused data : List (Nat × Nat)) (bad : List Nat) (clock : Nat) (vc : Table Nat) (s : State) :
    Host.Outcome State Fault Refusal :=
  match Tab.find s.passes (pass / 2 ^ 18) with
  | none => .next s
  | some set =>
    match set.passes.find? fun o => o.peer == pass % 2 ^ 18 with
    | none => .next s
    | some o =>
      match o.st with
      | .sent t =>
        if t + 100000 ≤ s.now then (passLate (Go.start s) (pass / 2 ^ 18) set o).done
        else (passAnswer (Go.start s) (pass / 2 ^ 18) set (pass % 2 ^ 18)
          (if refused.isEmpty then .accepted data bad clock vc else .refused refused)).done
      | _ => .next s

/-- PASS_TIMEOUT (R296): 100 µs without a reply. -/
def execPassTimeout (pass : Nat) (s : State) : Host.Outcome State Fault Refusal :=
  match Tab.find s.passes (pass / 2 ^ 18) with
  | none => .next s
  | some set =>
    match set.passes.find? fun o => o.peer == pass % 2 ^ 18 with
    | none => .next s
    | some o =>
      match o.st with
      | .sent t => if t + 100000 ≤ s.now then (passLate (Go.start s) (pass / 2 ^ 18) set o).done else .next s
      | _ => .next s

/-! ### Acknowledgements -/

/-- Goes on with the sets of a crew that wait for target records (R299). -/
def retryCommits (g : Go s0) (x : Nat) : Go s0 :=
  g.each (g.st.passes.filter fun e => e.2.crew == x && e.2.passes.all fun o => match o.st with
      | .accepted .. => true
      | .committed => true
      | _ => false) fun e g => match Tab.find g.st.passes e.1 with
    | some set => passGo g e.1 set
    | none => g

/-- An acknowledgement of a lane group of a crew (R106, R127, R363). -/
def crewAck (g : Go s0) (x : Nat) (f : FarGroup) (a : FarAck) : Go s0 :=
  let s := g.st
  let g := modCrew g x fun c =>
    let c := { c.raise a.gwctMod a.gwctFab (!f.near) with
               sent := c.sent.filter fun h => h != f
               loadq := c.loadq.map fun (q : LoadEntry) => if q.id = f.store && q.atomic then { q with got := q.got ++ a.olds, poison := poisonAll c.width a.bad q.poison } else q }
    let c := if f.counted then c.countDown f.peer f.path s.now else c
    c.freeStores s
  retryCommits (orderEnds g x f.store) x

/-- Whose far group an acknowledgement names. -/
def farGroupOf (s : State) (wire : Nat) (a : FarAck) : Option (Nat × FarGroup) :=
  s.crews.findSome? fun e => (e.2.sent.find? fun f => f.pass == wire / 2 ^ 18 && f.peer == wire % 2 ^ 18 && f.line == a.line).map fun f => (e.1, f)

/-- The context that waits for an acknowledgement for a crew that was killed, and the launch. -/
def orphanOf (s : State) (wire : Nat) (a : FarAck) : Option (Nat × Nat × FarGroup) :=
  s.ctxs.findSome? fun e => (e.2.orphans.find? fun o => o.2.pass == wire / 2 ^ 18 && o.2.peer == wire % 2 ^ 18 && o.2.line == a.line).map fun o => (e.1, o)

/-- An acknowledgement for a killed crew: its completion time counts for the launch (R63). -/
def orphanAck (g : Go s0) (ctx launch : Nat) (f : FarGroup) (a : FarAck) : Go s0 :=
  modLaunch (modCtx g ctx fun v => { v with orphans := v.orphans.filter fun o => o != (launch, f) }) launch fun l => { l with gwct := max l.gwct a.gwctFab }

/-- The engine operation whose write an acknowledgement names. -/
def engineOf (s : State) (wire : Nat) : Option (Nat × Nat × EngOp) :=
  let w := (wire / 2 ^ 18, wire % 2 ^ 18)
  match s.cores.findSome? fun c => (c.2.ops.find? fun o => o.2.far.contains w).map fun o => (c.1, o.1, o.2) with
  | some r => some r
  | none => (s.engines.find? fun o => o.2.far.contains w).map fun o => (640, o.1, o.2)

/-- An acknowledgement from a target (R363). -/
def farAck (g : Go s0) (wire : Nat) (a : FarAck) : Go s0 :=
  match farGroupOf g.st wire a with
  | some (x, f) => crewAck g x f a
  | none =>
    match engineOf g.st wire with
    | some (core, op, e) =>
      let e := { e with far := e.far.filter fun w => w != (wire / 2 ^ 18, wire % 2 ^ 18), off := true
                        gwctMod := max e.gwctMod (a.gwctMod + 1), gwctFab := max e.gwctFab (a.gwctFab + 1) }
      engineDone (engineRaise (setEngine g core op (some e)) core e (a.gwctMod, a.gwctFab) true) core op
    | none =>
      match Tab.find g.st.passes (wire / 2 ^ 18) with
      | some set =>
        (match set.origin with
        | .mirror src pass ack =>
          ackPass (g.put (.passSet (wire / 2 ^ 18) none)) src pass
            { ack with gwctMod := max ack.gwctMod a.gwctMod, gwctFab := max ack.gwctFab a.gwctFab }
        | _ => g)
      | none =>
        match orphanOf g.st wire a with
        | some (ctx, launch, f) => orphanAck g ctx launch f a
        | none => g

/-- STORE_PERFORM (R103, R105, R116): a line of an entry performs at its home, or the commits of a release that waited go out. -/
def execStorePerform (x id ln : Nat) (s : State) : Host.Outcome State Fault Refusal :=
  match s.crew? x with
  | none => .next s
  | some c =>
    match c.storeq.find? fun e => e.id == id with
    | none => .next s
    | some e => if storeReady s x c e ln then (storePerform (Go.start s) x c e ln).done else (retryCommits (Go.start s) x).done

/-- STORE_ACK (R106): of this module's homes, or of another target. -/
def execStoreAck (x id : Nat) (far : Option FarAck) (s : State) : Host.Outcome State Fault Refusal :=
  match far with
  | none => storeAckNear x id s
  | some a => (farAck (Go.start s) id a).done

end Sys2Proof.Machine
end

