-- ==== Sys2Proof/Machine/Claims.lean ====
section
/-! DEFINITION. Names (R304 to R311, R461 to R464): `claim`, `clwait`, `announce`, and what a keeper does. -/

namespace Sys2Proof.Machine

variable {s0 : State}

/-! ### Names -/

/-- The tensor and tile of a name: NM.TENSOR in the low half of the key, NM.TILE in the high half (R304). -/
def tensorOf (n : TileName) : Nat := bitf n.key.toNat 0 32
def tileOf (n : TileName) : Nat := bitf n.key.toNat 32 32

/-- The keeper of a name (R305). -/
def keeperOf (n : TileName) : Nat := (tensorOf n ^^^ tileOf n) % 4

/-- The entry of the name-routing table that decides (R461): the longest prefix, and of equal ones the lowest entry. -/
def State.routeOf (s : State) (n : TileName) : Option NameRoute :=
  let key := tensorOf n * 2 ^ 32 + tileOf n
  let hits := (Tab.vals s.mod.names).filter fun r =>
    r.valid && r.ns.toNat == n.ns && r.key.toNat / 2 ^ (64 - r.len.toNat) == key / 2 ^ (64 - r.len.toNat)
  hits.foldl (fun (m : Option NameRoute) r => match m with
    | some b => if b.len.toNat < r.len.toNat then some r else some b
    | none => some r) none

/-- The next hop: a link, or none where it is local (R305, R461). -/
def State.hopOf (s : State) (n : TileName) : Option Nat :=
  match s.routeOf n with
  | some r => if r.loc then none else some r.link.toNat
  | none => none

def modJd (g : Go s0) (j : Nat) (f : Jd → Jd) : Go s0 := g.put (.jd j (f (g.st.jd j)))

/-! ### Ends of claims -/

/-- Ends a `clwait` on a handle that has ended (R311): the handle is freed; delivered, it acquires at `.fab` and gives its value. -/
def endClwait (g : Go s0) (x k : Nat) (handle : Nat) (lanes : Lanes) (dest : Option Nat) (v : Nat) : Go s0 :=
  let g := modCrew g x fun c => { c with handles := Tab.del c.handles (handle % 16) }
  let fault := fun cause => match g.st.crew? x with
    | some c => takeFault g x k (allFault (lanesOf lanes c.width) cause) 0 0 false
    | none => g
  match v % 256 with
  | 1 =>
    let g := match dest with | some n => modCrew g x fun c => c.setUni n v | none => g
    dropCopies (endWait g x k 0 []) x
  | 2 => fault 16
  | 3 => fault 17
  | _ => fault 5

/-- Ends the `clwait`s of a crew whose handles have ended, in a stopped crew too (R67). -/
def endClwaits (g : Go s0) (x : Nat) : Go s0 :=
  match g.st.crew? x with
  | none => g
  | some c =>
    g.each c.splits fun e g =>
      match e.2.wait, g.st.crew? x with
      | .clwait h lanes dest, some c =>
        match Tab.find c.handles (h % 16) with
        | some hd => (match hd.result with
          | some v => endClwait g x e.1 h lanes dest v
          | none => g)
        | none => g
      | _, _ => g

/-- The handle of a claim, where it is still open. -/
def Crew.openHandle (c : Crew) (inst handle seq : Nat) : Option Handle :=
  if c.inst = inst then (Tab.find c.handles handle).filter fun h => h.seq == seq && h.result.isNone else none

/-- A crew with the result of a claim. -/
def Crew.setResult (c : Crew) (handle v : Nat) : Crew :=
  { c with handles := c.handles.map fun h => if h.1 = handle then (h.1, { h.2 with result := some v }) else h }

/-- Ends a claim of a crew, resident or saved (R309, R310): its range lock is released. -/
def claimEnd (g : Go s0) (place inst handle seq v : Nat) : Go s0 :=
  match g.st.crew? place with
  | some c =>
    match c.openHandle inst handle seq with
    | some h => endClwaits (modCrew (unlockRanges g c.team h.tag) place fun c => c.setResult handle v) place
    | none => savedEnd g
  | none => savedEnd g
where
  savedEnd (g : Go s0) : Go s0 :=
    g.each g.st.saved fun e g =>
      match Tab.find e.2.crews place with
      | some c =>
        (match c.openHandle inst handle seq with
        | some h => g.put (.saved e.1 (some { e.2 with crews := Tab.put e.2.crews place (c.setResult handle v)
                                                       locks := e.2.locks.filter fun r => r.tag != h.tag }))
        | none => g)
      | none => g

/-- The handle that a requester names. -/
def State.handleOf (s : State) (place inst handle seq : Nat) : Option (Crew × Handle) :=
  match (s.crew? place).bind fun c => (c.openHandle inst handle seq).map fun h => (c, h) with
  | some r => some r
  | none => s.saved.findSome? fun e => (Tab.find e.2.crews place).bind fun c => (c.openHandle inst handle seq).map fun h => (c, h)

/-! ### Answers of a keeper -/

/-- Sends never-produced, naming the expiry it answers (R310, R462). -/
def sendNever (g : Go s0) (j : Nat) (name : TileName) (r : Requester) (expiry : Nat) : Go s0 :=
  let g := modJd g j fun d => { d with expired := d.expired + 1 }
  match r with
  | .crew .. => later g (.neverProduced j name expiry (some r))
  | .link l => send g (.neverProduced l name expiry)

/-- Sends a refusal (R307). -/
def sendRefusal (g : Go s0) (j : Nat) (name : TileName) (r : Requester) : Go s0 :=
  let g := modJd g j fun d => { d with refused := d.refused + 1 }
  match r with
  | .crew p i h q => claimEnd g p i h q 3
  | .link l => send g (.claimRefused l name)

/-- Starts delivering a tile to a requester (R309): the engine writes it where its size fits the capacity. -/
def deliver (g : Go s0) (j : Nat) (name : TileName) (data : List Byte) (r : Requester) : Go s0 :=
  match r with
  | .link l => send g (.tile l { name := name, data := data })
  | .crew p i h q =>
    match g.st.handleOf p i h q with
    | none => g
    | some (c, hd) =>
      if hd.cap < data.length then claimEnd g p i h q 4
      else
        let id := g.st.seq
        let seg : EngSeg := { src := [], dst := hd.dest, sbase := 0, dbase := hd.base, len := data.length }
        let buf : Table (List Byte × Bool) := (List.range (data.length / 16)).map fun n => (16 * n, (data.drop (16 * n)).take 16, false)
        let e : EngOp := { crew := p, inst := i, team := c.team, launch := 0, epoch := 0, segs := [seg], left := allUnits 0 [seg], buf := buf
                           far := [], list := none, knot := none, clock := 0, gwctMod := 0, gwctFab := 0, off := false, poison := false
                           after := 0 }
        modJd ((g.put .seq).put (.engine id (some e))) j fun d =>
          { d with deliv := Tab.put d.deliv id { crew := p, inst := i, handle := h, seq := q, size := data.length } }

/-- CLAIM_DELIVERED (R309): every write is acknowledged, and fabric time is past their completion times. A claim whose destination another module
refuses ends never-produced beside its record (log 33). -/
def execClaimDelivered (j id : Nat) (s : State) : Host.Outcome State Fault Refusal :=
  match Tab.find (s.jd j).deliv id, Tab.find s.engines id with
  | some d, some e =>
    if e.left.isEmpty && e.far.isEmpty && e.gwctFab ≤ s.now then
      let g := (modJd (Go.start s) j fun v => { v with deliv := Tab.del v.deliv id }).put (.engine id none)
      (claimEnd g d.crew d.inst d.handle d.seq (if e.refused = 0 then 1 + 2 ^ 32 * d.size else 2)).done
    else .next s
  | _, _ => .next s

/-! ### The claim table -/

/-- The entry that waits for a name (R307): not one whose delivery has started. -/
def Jd.pending (d : Jd) (n : TileName) : Option (Nat × ClaimEntry) := d.claims.find? fun e => e.2.name == n && e.2.st != .delivering

/-- The requesters of an entry that have not expired, and those that have, in join order. -/
def Jd.live (d : Jd) (e : ClaimEntry) (now : Nat) : List ReqRec := (e.reqs.filterMap fun r => Tab.find d.pool r).filter fun r => now < r.expiry
def Jd.late (d : Jd) (e : ClaimEntry) (now : Nat) : List ReqRec := (e.reqs.filterMap fun r => Tab.find d.pool r).filter fun r => r.expiry ≤ now

/-- Frees an entry and its requester records. -/
def Jd.freeEntry (d : Jd) (n : Nat) (e : ClaimEntry) : Jd :=
  { d with claims := Tab.del d.claims n, pool := e.reqs.foldl (fun (t : Table ReqRec) r => Tab.del t r) d.pool }

/-- The latest expiry of an entry's requesters. -/
def Jd.latest (d : Jd) (e : ClaimEntry) : Nat := (e.reqs.filterMap fun r => Tab.find d.pool r).foldl (fun a r => max a r.expiry) 0

/-- Sends a claim or an extension upstream (R307, R462). -/
def forward (g : Go s0) (hop : Option Nat) (name : TileName) (expiry : Nat) : Go s0 :=
  match hop with
  | some l => send g (.claim l name expiry)
  | none => g

/-- Removes a requester from an entry; an entry without requesters is freed, with a withdrawal where it was forwarded (R310). -/
def dropRequester (g : Go s0) (j n req : Nat) (e : ClaimEntry) : Go s0 :=
  let e' := { e with reqs := e.reqs.filter fun r => r != req }
  let g := modJd g j fun d => { d with pool := Tab.del d.pool req }
  if e'.reqs.isEmpty then
    let g := modJd g j fun d => { d with claims := Tab.del d.claims n }
    match e.st, e.hop with
    | .forwarded, some l => send g (.withdraw l e.name)
    | _, _ => g
  else modJd g j fun d => { d with claims := Tab.put d.claims n e' }

/-- The record by which a link already stands in an entry. -/
def Jd.linkRec (d : Jd) (e : ClaimEntry) (r : Requester) : Option Nat :=
  match r with
  | .link _ => e.reqs.find? fun n => match Tab.find d.pool n with | some q => q.from_ == r | none => false
  | _ => none

/-- Is a stockpile copy of the name accepting (R464): are its bytes being gathered? -/
def State.accepting (s : State) (n : TileName) : Bool :=
  s.announces.any fun e => e.2.name == n && e.2.retain != 0 && match Tab.find s.engines e.1 with
    | some o => !o.buf.isEmpty || !o.far.isEmpty
    | none => false

/-- A claim joins a pending entry (R307 step 2, R462): where a copy is accepting, for the delivery that follows (R464). One whose next hop's link
is not up is answered never-produced (R461). -/
def mergeClaim (g : Go s0) (j : Nat) (c : ClaimIn) (n : Nat) (e : ClaimEntry) : Go s0 :=
  let d := g.st.jd j
  let coming := g.st.accepting c.name
  let down := match e.st, e.hop with | .forwarded, some l => !coming && !g.st.linkUp l | _, _ => false
  let rec_ : ReqRec := { from_ := c.from_, expiry := c.expiry, started := false }
  let extend := fun (g : Go s0) (e : ClaimEntry) =>
    if e.st = .forwarded && !coming && e.sent < c.expiry then
      forward (modJd g j fun d => { d with claims := Tab.put d.claims n { e with sent := c.expiry } }) e.hop e.name c.expiry
    else g
  if down then
    sendNever (match d.linkRec e c.from_ with | some q => dropRequester g j n q e | none => g) j c.name c.from_ c.expiry
  else match d.linkRec e c.from_ with
  | some q => extend (modJd g j fun d => { d with pool := Tab.put d.pool q rec_ }) e
  | none =>
    match Tab.freeKey d.pool 0 65536 with
    | none => sendRefusal g j c.name c.from_
    | some q =>
      let e := { e with reqs := e.reqs ++ [q] }
      extend (modJd g j fun d => { d with pool := Tab.put d.pool q rec_, claims := Tab.put d.claims n e, merged := d.merged + 1 }) e

/-- A claim makes a new entry (R307 step 3): refused without room, answered never-produced where the next hop's link is not up
(R461). Where a copy is accepting the claim waits here for it (R464). -/
def newClaim (g : Go s0) (j : Nat) (c : ClaimIn) : Go s0 :=
  let d := g.st.jd j
  let hop := if g.st.accepting c.name then none else g.st.hopOf c.name
  match Tab.freeKey d.claims 0 65536, Tab.freeKey d.pool 0 65536 with
  | some n, some q =>
    let down := match hop with | some l => !g.st.linkUp l | none => false
    if down then sendNever g j c.name c.from_ c.expiry
    else
      let e : ClaimEntry := { name := c.name, st := if hop.isSome then .forwarded else .waiting, reqs := [q], hop := hop
                              sent := if hop.isSome then c.expiry else 0, data := [] }
      forward (modJd g j fun d => { d with claims := Tab.put d.claims n e
                                           pool := Tab.put d.pool q { from_ := c.from_, expiry := c.expiry, started := false } })
        hop c.name c.expiry
  | _, _ => sendRefusal g j c.name c.from_

/-- The stockpile copy that serves a name (R307, R464): one retained until after now. -/
def Jd.stocked (d : Jd) (n : TileName) (now : Nat) : Option (Nat × StockTile) :=
  d.stock.find? fun e => e.2.name == n && !e.2.expired && now < e.2.retain

/-- A keeper takes a claim (R307). -/
def claimArrive (g : Go s0) (j : Nat) (c : ClaimIn) : Go s0 :=
  let d := g.st.jd j
  if c.expiry ≤ g.st.now then
    let g := match d.pending c.name with
      | some (n, e) => match d.linkRec e c.from_ with
        | some q => dropRequester g j n q e
        | none => g
      | none => g
    sendNever g j c.name c.from_ c.expiry
  else
    match d.stocked c.name g.st.now, d.pending c.name with
    | some (n, t), _ =>
      deliver (modJd g j fun d => { d with stock := Tab.put d.stock n { t with readers := t.readers + 1 } }) j c.name t.data c.from_
    | none, some (n, e) => mergeClaim g j c n e
    | none, none => newClaim g j c

/-- CLAIM_ARRIVE (R307). -/
def execClaimArrive (j : Nat) (r : ClaimIn) (s : State) : Host.Outcome State Fault Refusal :=
  if keeperOf r.name = j then (claimArrive (Go.start s) j r).done else .next s

/-- Hands a tile to the requesters of an entry that have not expired; the others get never-produced (R308, R309, R310). -/
def handOn (g : Go s0) (j n : Nat) (e : ClaimEntry) (data : List Byte) : Go s0 :=
  let d := g.st.jd j
  let g := g.each (d.late e g.st.now) fun r g => sendNever g j e.name r.from_ r.expiry
  let g := g.each (d.live e g.st.now) fun r g => deliver g j e.name data r.from_
  modJd g j fun d => { d with claims := Tab.put d.claims n { e with st := .delivering, data := data } }

/-- TILE_ARRIVE (R309, R310): the tile goes on to the entry's requesters; without an entry it is dropped. -/
def execTileArrive (j : Nat) (t : TileIn) (s : State) : Host.Outcome State Fault Refusal :=
  match (s.jd j).pending t.name with
  | some (n, e) => (handOn (Go.start s) j n e t.data).done
  | none => .next s

/-- REQUESTER_EXPIRY (R310). -/
def execRequesterExpiry (j entry req : Nat) (s : State) : Host.Outcome State Fault Refusal :=
  let d := s.jd j
  match Tab.find d.claims entry, Tab.find d.pool req with
  | some e, some r =>
    if e.st != .delivering && e.reqs.contains req && r.expiry ≤ s.now then
      (dropRequester (sendNever (Go.start s) j e.name r.from_ r.expiry) j entry req e).done
    else .next s
  | _, _ => .next s

/-- A never-produced, or a withdrawal's acknowledgement, from the next hop (R462): a later expiry is claimed anew, else every requester is told
and the entry goes. -/
def neverUpstream (g : Go s0) (j : Nat) (name : TileName) (expiry : Nat) : Go s0 :=
  let d := g.st.jd j
  match d.pending name with
  | none => g
  | some (n, e) =>
    if e.st != .forwarded then g
    else
      let x := d.latest e
      let up := match e.hop with | some l => g.st.linkUp l | none => false
      if expiry < x && up then
        forward (modJd g j fun d => { d with claims := Tab.put d.claims n { e with sent := x } }) e.hop name x
      else
        let g := g.each (e.reqs.filterMap fun r => Tab.find d.pool r) fun r g => sendNever g j name r.from_ r.expiry
        modJd g j fun d => d.freeEntry n e

/-- NEVER_PRODUCED (R310, R462): the answer reaches a handle, or a forwarded entry. -/
def execNeverProduced (j : Nat) (name : TileName) (expiry : Nat) (ans : Option Requester) (s : State) : Host.Outcome State Fault Refusal :=
  match ans with
  | some (.crew p i h q) => (claimEnd (Go.start s) p i h q 2).done
  | some (.link _) => .next s
  | none => (neverUpstream (Go.start s) j name expiry).done

/-- WITHDRAWAL (R344, R462): the link's requester goes, and the withdrawal is acknowledged; one that finds no entry of the link is dropped. -/
def execWithdrawal (j : Nat) (name : TileName) (link : Nat) (s : State) : Host.Outcome State Fault Refusal :=
  let d := s.jd j
  match (d.pending name).bind fun p => (d.linkRec p.2 (.link link)).map fun q => (p.1, p.2, q) with
  | none => .next s
  | some (n, e, q) =>
    let x := match Tab.find d.pool q with | some r => r.expiry | none => 0
    (dropRequester (send (Go.start s) (.withdrawn link name x)) j n q e).done

/-- CLAIM_REFUSAL (R462): every requester is refused. -/
def execClaimRefusal (j : Nat) (name : TileName) (s : State) : Host.Outcome State Fault Refusal :=
  let d := s.jd j
  match d.pending name with
  | none => .next s
  | some (n, e) =>
    if e.st = .forwarded then
      let g := (Go.start s).each (e.reqs.filterMap fun r => Tab.find d.pool r) fun r g => sendRefusal g j name r.from_
      (modJd g j fun d => d.freeEntry n e).done
    else .next s

/-! ### The stockpile -/

/-- Bytes that a tile takes, in units of 256 (R463). -/
def StockTile.units (t : StockTile) : Nat := (t.data.length + 255) / 256
def Jd.stockUsed (d : Jd) : Nat := (Tab.vals d.stock).foldl (fun a t => a + t.units) 0

/-- Drops a copy: it is freed once no delivery reads it (R464). -/
def Jd.dropTile (d : Jd) (n : Nat) (t : StockTile) : Jd :=
  { d with stock := if t.readers = 0 then Tab.del d.stock n else Tab.put d.stock n { t with expired := true } }

/-- The copy evicted next (R308): the earliest retention expiry, then the oldest acceptance, of those that no delivery reads. -/
def Jd.victim (d : Jd) : Option (Nat × StockTile) :=
  (d.stock.filter fun e => e.2.readers == 0).foldl (fun (m : Option (Nat × StockTile)) e => match m with
    | some v => if e.2.retain < v.2.retain || (e.2.retain = v.2.retain && e.2.taken < v.2.taken) then some e else some v
    | none => some e) none

/-- Evicts copies until a tile of `need` units fits; none where it does not. Each unit of fuel is one copy. -/
def Jd.makeRoom (d : Jd) (need : Nat) : Nat → Option Jd
  | 0 => if d.stockUsed + need ≤ 2 ^ 18 then some d else none
  | fuel + 1 =>
    if d.stockUsed + need ≤ 2 ^ 18 then some d
    else match d.victim with
      | some (n, _) => { d with stock := Tab.del d.stock n, evicted := d.evicted + 1 }.makeRoom need fuel
      | none => none

/-- STOCKPILE_EXPIRY (R464). -/
def execStockpileExpiry (j tile : Nat) (s : State) : Host.Outcome State Fault Refusal :=
  match Tab.find (s.jd j).stock tile with
  | some t => if t.retain ≤ s.now && !t.expired then (modJd (Go.start s) j fun d => d.dropTile tile t).done else .next s
  | none => .next s

/-- DELIVERY_HANDED_ON (R462): a delivering entry is freed; numbers from 65536 on name a stockpile copy that a delivery has read. -/
def execDeliveryHandedOn (j entry : Nat) (s : State) : Host.Outcome State Fault Refusal :=
  let d := s.jd j
  if entry < 65536 then
    match Tab.find d.claims entry with
    | some e => if e.st = .delivering then (modJd (Go.start s) j fun d => d.freeEntry entry e).done else .next s
    | none => .next s
  else
    match Tab.find d.stock (entry - 65536) with
    | some t =>
      if t.readers = 0 then .next s
      else
        let t := { t with readers := t.readers - 1 }
        (modJd (Go.start s) j fun d => if t.expired then d.dropTile (entry - 65536) t else { d with stock := Tab.put d.stock (entry - 65536) t }).done
    | none => .next s

/-- Ends an announcement: its source range is released and its batch hears of it (R308), and of data with an uncorrectable error (R268). -/
def announceEnd (g : Go s0) (id : Nat) (a : Announce) (poison : Bool) : Go s0 :=
  let g := ((unlockRanges g a.team id).put (.announce id none)).put (.engine id none)
  match g.st.crew? a.crew with
  | some c => if c.inst = a.inst then g.put (.crew a.crew (some (c.engineEnd id 0 0 false poison))) else g
  | none => g

/-- The keeper accepts a tile (R308), in one step towards its name; where it is to be kept and does not fit, it waits (R464). -/
def acceptTile (g : Go s0) (j id : Nat) (a : Announce) (data : List Byte) (poison : Bool) : Go s0 :=
  let d := g.st.jd j
  let older := d.stock.filter fun e =>
    a.supersede && e.2.name.ns == a.name.ns && e.2.name.key == a.name.key && e.2.name.iter < a.name.iter
  let d := older.foldl (fun (d : Jd) e => d.dropTile e.1 e.2) d
  if (d.stocked a.name g.st.now).isSome then
    let g := modCtx (g.put (.jd j { d with dup := d.dup + 1 })) a.ctx fun v => { v with dupAnn := true }
    announceEnd g id a poison
  else
    let t : StockTile := { name := a.name, data := data, retain := g.st.now + 16000 * a.retain, taken := g.st.now, expired := false, readers := 0 }
    let room := if a.retain = 0 then some d else d.makeRoom t.units d.stock.length
    match room with
    | none => g
    | some d =>
      let n := match d.stock.getLast? with | some e => e.1 + 1 | none => 0
      let g := g.put (.jd j (if a.retain = 0 then d else { d with stock := Tab.put d.stock n t }))
      let g := match d.pending a.name with
        | some (m, e) => handOn g j m e data
        | none => g
      announceEnd g id a poison

/-- Reads the source units of an announcement that are still missing, one pass at a time (R431). -/
def announceRead (g : Go s0) (id : Nat) (e : EngOp) (seg : EngSeg) : Option EngOp × Go s0 :=
  gatherUnits g 640 id 0 e seg (sourceUnits seg 0 seg.len)

/-- ANNOUNCE_ACCEPT (R308). -/
def execAnnounceAccept (j id : Nat) (s : State) : Host.Outcome State Fault Refusal :=
  match Tab.find s.announces id, Tab.find s.engines id with
  | some a, some e =>
    let busy := s.passes.any fun p => match p.2.origin with | .engine c o _ => c == 640 && o == id | _ => false
    let ready := match s.crew? a.crew with
      | some c => c.storeq.all (fun q => a.after ≤ q.id || (q.left.isEmpty && !s.inPasses q.id)) && c.sent.all fun f => a.after ≤ f.store
      | none => false
    match e.segs with
    | seg :: _ =>
      if e.refused ≠ 0 then (announceEnd (Go.start s) id a false).done
      else if keeperOf a.name = j && !busy && ready then
        match announceRead (Go.start s) id e seg with
        | (some e, g) => let b := unitBytes e seg 0 0 seg.len; (acceptTile g j id a b.1 b.2).done
        | (none, g) => g.done
      else .next s
    | [] => .next s
  | _, _ => .next s

/-! ### The instructions -/

/-- The name in `s(a)` and `s(a + 1)` (R304), and the upper word. -/
def nameOf (s : State) (i : Issue) : TileName × Nat :=
  match i.f.a with
  | .s n =>
    let w := (i.ca.uni (n.toNat + 1)).toNat
    ({ ns := (s.ctx i.c.ctx).ns.toNat, key := i.ca.uni n.toNat, iter := bitf w 0 32 }, w)
  | _ => ({ ns := 0, key := 0, iter := 0 }, 0)

/-- The pair that B names. -/
def pairB (i : Issue) : Nat × Nat :=
  match i.f.b with
  | .s n => ((i.cb.uni n.toNat).toNat, (i.cb.uni (n.toNat + 1)).toNat)
  | _ => (0, 0)

/-- The pair of B gives a range that `claim` and `announce` accept (R306, R308). -/
def pairOk (scr : Bool) (a w : Nat) : Bool :=
  w / 2 ^ 32 == 0 && 16 ≤ w && w ≤ 65536 && w % 16 == 0 && (!scr || a < 2 ^ 23)

/-- `claim` (R306). DESIGN CHOICE, unsafe (log 60): of the free handles it takes the lowest. -/
def claimBody (i : Issue) (g : Go s0) : Go s0 :=
  if i.run = 0 then retire g i {}
  else
    let scr := i.f.ext.toNat % 2 == 1
    let (name, w) := nameOf g.st i
    let (a, cap) := pairB i
    if w / 2 ^ 48 ≠ 0 || bitf w 32 16 = 0 || !pairOk scr a cap then faultAll g i 3 0 0
    else
      let ((es, ps), g1) := checkRange g i scr a cap true
      let es := (if a % 16 ≠ 0 then [({ cause := 4, addr := a } : Stop)] else []) ++ es
        ++ (if 16 ≤ i.c.handles.length then [({ cause := 17 } : Stop)] else [])
      if !es.isEmpty then faultStops g1 i es 1
      else if i.c.order.any (fun o => o < g1.st.seq) || !g1.st.locksFree i.c.team 1 then g
      else
        let idx := (Tab.freeKey i.c.handles 0 16).getD 0
        let seq := i.c.claimSeq % 2 ^ 28
        let tag := g1.st.seq
        let g := lockRanges (g1.put .seq) i.c.team [lockOf true scr i.c.team a cap tag]
        let x := g.st.now + 16000 * bitf w 32 16
        let g := offRelaunch (retire g i (match i.f.d with | .s n => { s := [(n.toNat, idx + 16 * seq)] } | _ => {})) i.c.team ps
        let g := modCrew g i.x fun c =>
          { c with claimSeq := c.claimSeq + 1
                   handles := Tab.put c.handles idx { seq := seq, tag := tag, name := name, dest := ps, base := a, cap := cap, result := none } }
        later g (.claimArrive (keeperOf name) { name := name, expiry := x, from_ := .crew i.x i.c.inst idx seq })

/-- The open handle that A names, and its number. -/
def handleA (i : Issue) : Option (Nat × Handle) :=
  let v := operand64 i.ca i.f.a
  if v / 2 ^ 32 ≠ 0 then none
  else (Tab.find i.c.handles (v % 16)).bind fun h => if h.seq = v / 16 then some (v, h) else none

/-- `clwait` (R311). -/
def clwaitBody (i : Issue) (g : Go s0) : Go s0 :=
  if i.run = 0 then retire g i {}
  else
    match handleA i with
    | none => faultAll g i 3 0 0
    | some (v, h) =>
      let dest := match i.f.d with | .s n => some n.toNat | _ => none
      match h.result with
      | none => park g i (.clwait v i.run dest)
      | some r =>
        let free := fun g : Go s0 => modCrew g i.x fun c => { c with handles := Tab.del c.handles (v % 16) }
        match r % 256 with
        | 1 => dropCopies (retire (free g) i (match dest with | some n => { s := [(n, r)] } | none => {})) i.x
        | 2 => faultAll (free g) i 16 0 0
        | 3 => faultAll (free g) i 17 0 0
        | _ => faultAll (free g) i 5 0 0

/-- `clwait.test` (R311). -/
def clwaitTestBody (i : Issue) (g : Go s0) : Go s0 :=
  if i.run = 0 then retire g i {}
  else
    match handleA i with
    | none => faultAll g i 3 0 0
    | some (v, h) =>
      let out := fun r : Nat => (match i.f.d with | .s n => { s := [(n.toNat, r)] } | _ => {} : RegOut)
      match h.result with
      | none => retire g i (out 0)
      | some r =>
        let g := retire (modCrew g i.x fun c => { c with handles := Tab.del c.handles (v % 16) }) i (out r)
        if r % 256 = 1 then dropCopies g i.x else g

/-- `announce` (R308). -/
def announceBody (i : Issue) (g : Go s0) : Go s0 :=
  if i.run = 0 then retire g i {}
  else
    let scr := i.f.ext.toNat % 2 == 1
    let (name, w) := nameOf g.st i
    let (a, n) := pairB i
    if w / 2 ^ 49 ≠ 0 || !pairOk scr a n then faultAll g i 3 0 0
    else
      let ((es, ps), g1) := checkRange g i scr a n false
      let es := (if a % 16 ≠ 0 then [({ cause := 4, addr := a } : Stop)] else []) ++ es
      if !es.isEmpty then faultStops g1 i es 0
      else if !i.c.order.isEmpty || !g1.st.locksFree i.c.team 1 then g
      else
        let id := g1.st.seq
        let seg : EngSeg := { src := ps, dst := [], sbase := a, dbase := a, len := n }
        let e := { newEngine g1.st i [] none none id with segs := [seg] }
        let g := lockRanges (g1.put .seq) i.c.team [lockOf false scr i.c.team a n id]
        let g := (g.put (.engine id (some e))).put (.announce id (some
          { crew := i.x, inst := i.c.inst, team := i.c.team, ctx := i.c.ctx, name := name, retain := bitf w 32 16
            supersede := bitf w 48 1 == 1, after := id }))
        let g := noRelaunch (retire g i {}) i.c.team
        modCrew g i.x fun c => { c with open_ := c.open_ ++ [id] }

def execClaim (f : Fields) (s : State) : Host.Outcome State Fault Refusal := crewStep .claim f s claimBody
def execClwait (f : Fields) (s : State) : Host.Outcome State Fault Refusal := crewStep .clwait f s clwaitBody
def execClwaitTest (f : Fields) (s : State) : Host.Outcome State Fault Refusal := crewStep .clwaitTest f s clwaitTestBody
def execAnnounce (f : Fields) (s : State) : Host.Outcome State Fault Refusal := crewStep .announce f s announceBody

end Sys2Proof.Machine
end

