-- ==== Sys2Proof/Machine/Kill.lean ====
section
/-! DEFINITION. Going on after a stop (R70, R376, R439), and what an uncorrectable error does (R389): the kill of a team (R390), its
relaunch (R391), the context fault (R392), the lost member (R393). -/

namespace Sys2Proof.Machine

variable {s0 : State}

/-! ### Going on -/

/-- Tests the wait of one blocked split again (R70): what ended meanwhile releases it. -/
def retestSplit (g : Go s0) (x k : Nat) : Go s0 :=
  match g.st.crew? x with
  | none => g
  | some c =>
    match c.split? k with
    | none => g
    | some sp =>
      if c.st != .running || sp.st != .blocked then g
      else
        match sp.wait with
        | .knot off q =>
          match g.st.team? c.team with
          | some tm =>
            if (tm.knot off).phase != q && !c.awaited sp.wait then
              let st := tm.knotSt off
              let g := endWait g x k st.lastClock st.lastVc
              if tm.pair || 3 ≤ st.lastScope then dropCopies g x else g
            else g
          | none => g
        | .word cond (.scratch t off) _ value scope =>
          match g.st.team? t with
          | some tm =>
            if condOk cond (tm.word (off / 4)) value then
              endWordWait g x k (.scratch t off) cond value scope (Tab.get [] tm.wlog (off / 4))
            else g
          | none => g
        | .halt =>
          if (g.st.ctx c.ctx).wake then endWait (modCtx g c.ctx fun v => { v with wake := false }) x k 0 [] else g
        | _ => g

/-- Tests the waits of a crew that runs again (R70). -/
def retest (g : Go s0) (x : Nat) : Go s0 :=
  let g := g.each (List.range 4) fun k g => retestSplit g x k
  runTiles (endClwaits (endBwaits (endQwaits g x) x) x)

/-- A stopped crew goes on (R376 RESUME and SKIP). -/
def resumeCrew (g : Go s0) (x : Nat) (skip : Bool) : Go s0 :=
  retest (readyFrom (modCrew g x fun c => c.resume skip) x) x

/-- Is the crew stopped on cause 6 (R435)? -/
def Crew.onMiss (c : Crew) : Bool := c.st == .stopped && c.fb

/-- Replay-all of a context (R439): its crews stopped on cause 6 go on, the fault buffer empties. A saved crew notes it (R440). Those of
a faulted context stay stopped, as by RESUME (R376, R392). -/
def replayAll (g : Go s0) (ctx : Nat) : Go s0 :=
  let set := if (g.st.ctx ctx).state = 2 then [] else g.st.crews.filter fun e => e.2.ctx == ctx && e.2.onMiss
  let g := modCtx g ctx fun v => { v with fb := [], fbDropped := false }
  let g := g.each g.st.saved fun e g =>
    if e.2.ctx = ctx && e.2.kind = 1 then
      g.put (.saved e.1 (some { e.2 with crews := e.2.crews.map fun (c : Nat × Crew) => (c.1, { c.2 with replayed := true }) }))
    else g
  g.each set fun e g => resumeCrew g e.1 false

/-! ### Killing a team -/

/-- The crews of a team, resident or saved, by place. -/
def State.teamCrews (s : State) (t : Nat) : List (Nat × Crew) :=
  (s.crews.filter fun e => e.2.team == t) ++ (s.saved.map fun e => e.2.crews.filter fun c => c.2.team == t).flatten

/-- A crew as it stands: resident at its place, or as saved, where another crew may have its place. -/
def State.crewNow (s : State) (x : Nat) (c : Crew) : Crew :=
  match s.crew? x with
  | some d => if d.inst = c.inst then d else c
  | none => c

/-- Stores of a killed crew that could perform were sent or were not (R390): each line performs or not. -/
def killStores (g : Go s0) (x : Nat) (c : Crew) : Go s0 :=
  g.each c.storeq fun e g => g.each e.left fun ln g =>
    match g.st.crew? x with
    | none => g
    | some c =>
      match c.storeq.find? fun q => q.id == e.id with
      | some q =>
        if q.left.contains ln && storeReady g.st x c q ln && Config.freeBit (g.st.salt 63 (2 ^ 64 * e.id + ln)) then storePerform g x c q ln
        else g
      | none => g

/-- Withdraws the claims of a crew (R310, R390). -/
def withdrawClaims (g : Go s0) (inst : Nat) : Go s0 :=
  g.each g.st.jds fun j g => g.each j.2.claims fun e g => g.each e.2.reqs fun r g =>
    let d := g.st.jd j.1
    match Tab.find d.claims e.1, Tab.find d.pool r with
    | some en, some q =>
      (match q.from_ with
      | .crew _ i _ _ => if i = inst && en.reqs.contains r then dropRequester g j.1 e.1 r en else g
      | .link _ => g)
    | _, _ => g

/-- Cancels what a crew started (R390): passes not committed, engine operations and request lists, announcements, deliveries to it and
claims. -/
def cancelWork (g : Go s0) (inst : Nat) : Go s0 :=
  let g := g.each (g.st.passes.filter fun e => e.2.pass.crew == inst) fun e g => (cancelPasses g e.2).put (.passSet e.1 none)
  let g := g.each g.st.cores fun k g =>
    let gone := k.2.ops.filter fun o => o.2.inst == inst
    if gone.isEmpty then g
    else modCore g k.1 fun v =>
      { v with ops := v.ops.filter fun (o : Nat × EngOp) => o.2.inst != inst
               lists := gone.foldl (fun (t : Table Nat) o => match o.2.list with | some l => Tab.del t l | none => t) v.lists }
  let g := g.each (g.st.announces.filter fun e => e.2.inst == inst) fun e g => (g.put (.announce e.1 none)).put (.engine e.1 none)
  let g := g.each g.st.jds fun j g => g.each (j.2.deliv.filter fun e => e.2.inst == inst) fun e g =>
    (modJd g j.1 fun d => { d with deliv := Tab.del d.deliv e.1 }).put (.engine e.1 none)
  withdrawClaims g inst

/-- A lost member keeps only its place in its gang (R393). -/
def Team.gone (t : Team) : Team :=
  { t with cores := [], slots := [], crews := [], scratchSize := 0, scratch := [], poison := [], guards := [], knots := [], bars := []
           tilesHeld := 0, tiles := [], opq := [], tileq := [], lost := true, started := false, saved := false, leaving := false }

/-- The fabric groups of a crew that were sent and are not acknowledged: its own, and the writes of its engine operations. -/
def State.sentGroups (s : State) (c : Crew) : List FarGroup :=
  c.sent ++ (s.cores.map fun k => (k.2.ops.filter fun o => o.2.inst == c.inst).map fun o =>
    (o.2.far.filter fun w => (Tab.find s.passes w.1).isNone).map fun w =>
      ({ pass := w.1, peer := w.2, line := 0, path := 0, store := 0, mirrored := false, near := false, counted := true } : FarGroup)).flatten.flatten

/-- The latest GWCT_fab of the stores of a crew that have performed (R63). -/
def State.crewGwct (s : State) (x : Nat) (c : Crew) : Nat :=
  max c.gfab (max (c.storeq.foldl (fun a q => max a q.gwctFab) 0)
    ((s.coreOf (placeCore x)).ops.foldl (fun a o => if o.2.inst = c.inst then max a o.2.gwctFab else a) 0))

/-- What a killed crew leaves behind (R63, R390): the completion times of its stores count for its launch, and its fabric groups complete. The
exclusive leases that its atomics took end. -/
def leaveStores (g : Go s0) (launch x : Nat) (c : Crew) : Go s0 :=
  let g := endLeases g ((c.storeq.filter fun q => q.leased g.st (placeCore x)).map fun q => homeLines q.lanes).flatten
  let c := g.st.crewNow x c
  let s := g.st
  let g := modLaunch g launch fun l => { l with gwct := max l.gwct (s.crewGwct x c) }
  let sent := s.sentGroups c
  if sent.isEmpty then g else modCtx g c.ctx fun v => { v with orphans := v.orphans ++ sent.map fun f => (launch, f) }

/-- Ends a team's crews and work and frees what it holds (R390); the counter is unchanged. -/
def freeTeam (g : Go s0) (t : Nat) (member : Bool) : Go s0 :=
  let crews := g.st.teamCrews t
  let g := g.each crews fun e g => killStores g e.1 e.2
  let g := match g.st.team? t with
    | some tm => (modLaunch g tm.launch fun l => { l with gwct := max l.gwct tm.gwct }).each crews fun e g =>
        leaveStores g tm.launch e.1 (g.st.crewNow e.1 e.2)
    | none => g
  let g := g.each crews fun e g => leaveRecords (cancelWork g e.2.inst) (g.st.crewNow e.1 e.2)
  let g := g.each (g.st.crews.filter fun e => e.2.team == t) fun e g => g.put (.crew e.1 none)
  let g := dropImage (dropImage g t 1) t 2
  let g := g.each (g.st.teamCores t) fun c g => modCore g c fun v => { v with ranges := v.ranges.filter fun r => r.team != t }
  match g.st.team? t with
  | none => g
  | some tm => runTiles (g.put (.team t (if member then some tm.gone else none)))

/-- May a killed team be relaunched (R391)? -/
def relaunches (s : State) (tm : Team) : Bool :=
  match Tab.find s.launches tm.launch with
  | some l => l.idem && tm.relaunchOk && (s.memberOf tm).isNone && tm.relaunches < l.retry
  | none => false

/-- The relaunch of a killed team (R391): it waits for placement afresh, and a record names its first crew and the attempt. -/
def relaunch (g : Go s0) (tm : Team) (id : Nat) : Go s0 :=
  let p : Pend :=
    { launch := tm.launch, grid := tm.grid, kernel := tm.kernel, object := tm.object, ctx := tm.ctx, prio := tm.prio, time := g.st.now
      order := g.st.seq, next := tm.teamNo, last := tm.teamNo + 1, nteams := tm.nteams, args := tm.args
      key := tm.key.dropLast.dropLast, clock := tm.startClock, relaunches := tm.relaunches + 1, gang := 0, peers := [] }
  sendRecord ((g.put (.pends (g.st.pends ++ [p]))).put .seq) tm.ctx (FaultRec.event 4 (tm.relaunches + 1) id 0 g.st.now)

/-- Kills a team (R390 to R393). -/
def killTeam (g : Go s0) (t : Nat) : Go s0 :=
  match g.st.team? t with
  | none => g
  | some tm =>
    let id := g.st.firstCrew t
    match g.st.memberOf tm with
    | some n =>
      let g := memberLostAs (freeTeam g t true) n tm.rank id
      if tm.leaving && !tm.saved then tellSaved g n else g
    | none =>
      let again := relaunches g.st tm
      let g := freeTeam g t false
      if again then relaunch g tm id else contextFault g tm.ctx id

/-- UNCORRECTABLE_ERROR (R389). -/
def execUncorrectableError (site : ErrorSite) (s : State) : Host.Outcome State Fault Refusal :=
  match site with
  | .team t => (killTeam (Go.start s) t).done
  | .copy core ln => (modCore (Go.start s) core fun v => { v with copies := Tab.del v.copies ln }).done
  | .data k => ((Go.start s).put (.poison k true)).done

end Sys2Proof.Machine
end

