-- ==== Sys2Proof/Machine/Winch.lean ====
section
/-! DEFINITION. Winches (R125, R315 to R328, R468, R469) and winch sets (R312, R470): the 20 winch instructions, chunks and credits, the
commands, `wstart` and the start flits. -/

namespace Sys2Proof.Machine

variable {s0 : State}

/-! ### A winch context -/

/-- Bytes of a chunk (R321). -/
def Wctx.size (v : Wctx) : Nat := 2 ^ v.cs.toNat
def Wctx.hreg (v : Wctx) (n : BitVec 4) : Nat := (Tab.get 0 v.h n.toNat).toNat
def Wctx.setH (v : Wctx) (n : BitVec 4) (x : Nat) : Wctx := { v with h := Tab.set 0 v.h n.toNat (BitVec.ofNat 64 x) }

/-- The operand of R318: hb, or the immediate, sign-extended. -/
def winchVal (v : Wctx) (f : WFields) : Nat := if f.modf.toNat / 8 = 1 then v.hreg f.hb else (f.imm.signExtend 64).toNat

/-- The context to which a winch gives its link (R325): within a burst the current one; at a boundary the next that runs. A burst of 4096
instructions waits for its forced yield. -/
def State.winchNext (s : State) (w : Nat) : Option Nat :=
  let cur := Tab.get 0 s.wcur w
  let v := s.wctx w cur
  if v.state = 2 && v.burst ≠ 0 then (if v.burst < 4096 then some cur else none)
  else ((List.range 4).map fun n => (cur + 1 + n) % 4).find? fun c => (s.wctx w c).state == 2

/-- The winch context whose turn it is, where it has the link. -/
def State.winchIssuer (s : State) : Option (Nat × Nat × Wctx) :=
  match s.cur with
  | .winch w c => if s.winchNext w = some c then some (w, c, s.wctx w c) else none
  | _ => none

def putW (g : Go s0) (w c : Nat) (v : Wctx) : Go s0 := g.put (.wctx (4 * w + c) v)

/-- A context after an instruction: a step is over, a stop takes effect at a boundary. -/
def Wctx.after (v : Wctx) (boundary : Bool) : Wctx :=
  if v.stepping || (boundary && v.cmd == some 3) then v.stopped else { v with burst := if boundary then 0 else v.burst + 1 }

/-- Ends a winch instruction. -/
def winchGo (g : Go s0) (w c : Nat) (v : Wctx) (boundary : Bool) : Go s0 := putW (g.put (.wcur w c)) w c (v.after boundary)

/-- Ends a winch instruction that goes on at the next one; PC + 1 keeps its 13 bits, so that it wraps past index 8191 (DESIGN CHOICE,
log 61; safe where a program ends below that index). -/
def winchNextPc (g : Go s0) (w c : Nat) (v : Wctx) (boundary : Bool) : Go s0 := winchGo g w c { v with pc := v.pc + 1 } boundary

/-- A context waits for a chunk (1), a credit (2) or a flag (3): a boundary (R325). -/
def winchWait (g : Go s0) (w c : Nat) (v : Wctx) (n : Nat) : Go s0 :=
  putW (g.put (.wcur w c)) w c (if v.cmd = some 3 then v.stopped else { v with state := 3, wait := BitVec.ofNat 4 n, burst := 0 })

/-- Does the instruction at a context's PC take a chunk? -/
def State.atChunk (s : State) (w : Nat) (v : Wctx) : Bool :=
  match decodeWinch (Tab.get 0 s.imem (8192 * w + v.pc.toNat)).toNat with
  | .ok (.store _) | .ok (.comb _) | .ok (.combf _) | .ok (.fwd _) => true
  | _ => false

/-- What a winch fault does (R326): the context stops on the instruction, its chunk held where it had arrived, and a record goes to its context, after those of its own that
still wait there (R383). -/
def winchStop (g : Go s0) (w c : Nat) (v : Wctx) (code addr access : Nat) : Go s0 :=
  let tid := v.tid.toNat
  let r : FaultRec :=
    { FaultRec.event 2 0 (winchId tid w c) addr g.st.now with pc := BitVec.ofNat 56 v.pc.toNat, cause := code, access := access }
  let waits := g.st.recordWaits tid r.id
  let v := { v.stopped with fcode := BitVec.ofNat 8 code, fAddr := BitVec.ofNat 64 addr, held := v.held || (g.st.atChunk w v && !v.rx.isEmpty) }
  let g := putW g w c { v with recs := v.recs ++ [r] }
  match if waits then (false, g) else tryRecord g tid r with
  | (true, g) => retryRing (putW g w c v) tid
  | (false, g) => g

/-- A winch fault of the context that has the link. -/
def winchFault (g : Go s0) (w c : Nat) (v : Wctx) (code addr access : Nat) : Go s0 := winchStop (g.put (.wcur w c)) w c v code addr access

/-- One winch instruction: nothing happens where its context has not the link; a word that R318 refuses stops it. -/
def winchStep (op : Nat) (f : WFields) (s : State) (body : Nat → Nat → Wctx → Go s → Go s) : Host.Outcome State Fault Refusal :=
  match s.winchIssuer with
  | some (w, c, v) => if winchOk op f then (body w c v (Go.start s)).done else (winchFault (Go.start s) w c v 1 0 0).done
  | none => .next s

/-! ### Memory -/

/-- The page starts of pieces that live on other modules: permission (R320). -/
def farStops (a : Nat) : Pieces → List Stop
  | [] => []
  | p :: ps => (if Loc.isFar p.loc then [{ cause := 7, addr := a }] else []) ++ farStops (a + p.len) ps

/-- The stop with the lowest cause, the first of equals. -/
def lowestStop : List Stop → Option Stop
  | [] => none
  | e :: es => match lowestStop es with
    | some m => if m.cause < e.cause then some m else some e
    | none => some e

/-- Checks a range of an agent that reaches only this module's homes (R320): the home bytes, or what stops it. -/
def homeRange (g : Go s0) (us : List Nat) (ctx a n : Nat) (write : Bool) : Except Stop (List (Nat × Nat)) × Go s0 :=
  let ((es, ps), g) := rangePieces g us ctx a n write (n / 2 ^ 16 + 2)
  match lowestStop (es ++ farStops a ps) with
  | some e => (.error e, g)
  | none => (.ok (homeRuns ps), g)

/-- The chunk at h[ha] (R320, R321); exclusive leases on its lines are returned (R119). -/
def chunkRange (g : Go s0) (w : Nat) (v : Wctx) (a : Nat) (write : Bool) : Except Stop (List (Nat × Nat)) × Go s0 :=
  if a % 64 ≠ 0 then (.error { cause := 4, addr := a }, g)
  else match homeRange g (jdUnits (w / 8)) v.tid.toNat a v.size write with
    | (.ok rs, g) => (.ok rs, returnLeases g rs)
    | (.error e, g) => (.error e, g)

/-- One aligned word of a winch (R323, R324): its home byte, whose exclusive lease is returned (R119), or what stops it. -/
def winchWord (g : Go s0) (w : Nat) (v : Wctx) (a n : Nat) (write : Bool) : Except Stop Nat × Go s0 :=
  match placeOf g (jdUnits (w / 8)) v.tid.toNat a n write with
  | (.at_ (.home k) _, g) => (.ok k, endLease g (lineOf k))
  | (.at_ _ _, g) => (.error { cause := 7, addr := a }, g)
  | (.cause m _, g) => (.error { cause := m, addr := a }, g)

/-- Is an uncorrectable error in home runs? -/
def State.runPoison (s : State) (rs : List (Nat × Nat)) : Bool := rs.any fun r => s.poisoned r.1 r.2

/-- A winch writes home runs (R125, R320): the completion time of the write. -/
def winchWrite (g : Go s0) (rs : List (Nat × Nat)) (bs : List Byte) : Nat × Go s0 :=
  let cells := pieceCells rs bs
  let lns := distinct (cells.map fun e => lineOf e.1)
  let g := homeStore g {} cells
  ((g.st.gwctOf lns false).2, g)

/-! ### Chunks -/

/-- The fields of a chunk instruction: its link, channel and `.inc`. -/
def chunkLink (f : WFields) : Nat := f.imm.toNat % 32
def chunkChan (f : WFields) : Nat := f.modf.toNat % 4
def chunkInc (f : WFields) : Bool := f.modf.toNat / 4 % 2 == 1

/-- Credits towards a channel of the far winch, in bytes (R316). -/
def State.creditBytes (s : State) (l ch : Nat) : Nat := Tab.get 0 (s.link l).credits ch

/-- Sends a chunk and spends its credit (R316). -/
def sendChunk (g : Go s0) (v : Wctx) (l ch : Nat) (bs : List Byte) : Go s0 :=
  let k := g.st.link l
  let g := g.put (.link l { k with credits := Tab.set 0 k.credits ch (g.st.creditBytes l ch - bs.length) })
  send g (.chunk l ch v.set.toNat v.cs.toNat bs)

/-- A context whose chunk is consumed; its credit returns to the sender (R316). -/
def consume (g : Go s0) (w c : Nat) (v : Wctx) : Wctx × Go s0 :=
  match v.rx with
  | [] => (v, g)
  | (_, bs) :: rest => ({ v with rx := rest, held := false }, send g (.credit w c bs.length))

/-- Ends a chunk instruction (R321). -/
def chunkEnd (g : Go s0) (w c : Nat) (f : WFields) (v : Wctx) : Go s0 :=
  winchNextPc g w c (if chunkInc f then v.setH f.ha (v.hreg f.ha + v.size) else v) true

/-- The type of a combine (R317). -/
def combTy (f : WFields) : Ty :=
  match f.cty.toNat with | 0 => .f32 | 1 => .bf16 | 2 => .f16 | 3 => .s32 | _ => .n32
def combOp (f : WFields) : MemOp := match f.cop.toNat with | 0 => .add | 1 => .min | _ => .max

/-- Combines 32-bit words, local value first (R321). -/
def combWord (f : WFields) (old new : Nat) : Nat := (atomicNew (combTy f) (combOp f) old new 0).getD old
def combBytes (f : WFields) (buf new : List Byte) : List Byte :=
  ((List.range (new.length / 4)).map fun n =>
    leBytes (combWord f (leNat ((buf.drop (4 * n)).take 4)) (leNat ((new.drop (4 * n)).take 4))) 4).flatten

/-- An instruction that takes a chunk: it waits for one, and for a credit where it sends; a chunk of another size stops it (R321, R322). -/
def withChunk (g : Go s0) (w c : Nat) (v : Wctx) (out : Option (Nat × Nat)) (body : List Byte → Go s0) : Go s0 :=
  match v.rx with
  | [] => winchWait g w c v 1
  | (cs, bs) :: _ =>
    let short := match out with | some (l, ch) => decide (g.st.creditBytes l ch < v.size) | none => false
    if short then winchWait g w c v 2
    else if cs ≠ v.cs.toNat then winchFault g w c v 3 0 0
    else body bs

/-- `xmit` (R321, R322). -/
def xmitBody (f : WFields) (w c : Nat) (v : Wctx) (g : Go s0) : Go s0 :=
  let l := chunkLink f
  let ch := chunkChan f
  if g.st.creditBytes l ch < v.size then winchWait g w c v 2
  else
    match chunkRange g w v (v.hreg f.ha) false with
    | (.error e, g) => winchFault g w c v e.cause e.addr 0
    | (.ok rs, g) =>
      if !g.st.linkUp l then winchFault g w c v 9 0 0
      else if g.st.runPoison rs then winchFault g w c v 18 (v.hreg f.ha) 0
      else chunkEnd (sendChunk g v l ch (g.st.runBytes rs)) w c f v

/-- `store`, `comb` and `combf` (R321): `mix` gives the bytes written, `out` the link and channel they are sent to. -/
def takeBody (f : WFields) (mix : List Byte → List Byte → List Byte) (out : Option (Nat × Nat)) (w c : Nat) (v : Wctx) (g : Go s0) : Go s0 :=
  withChunk g w c v out fun new =>
    match chunkRange g w v (v.hreg f.ha) true with
    | (.error e, g) => winchFault g w c v e.cause e.addr 1
    | (.ok rs, g) =>
      let down := match out with | some (l, _) => !g.st.linkUp l | none => false
      if down then winchFault g w c v 9 0 0
      else
        let bs := mix (g.st.runBytes rs) new
        let (t, g) := winchWrite g rs bs
        let (v, g) := consume g w c { v with sigf := max v.sigf (t + 1) }
        let g := match out with | some (l, ch) => sendChunk g v l ch bs | none => g
        chunkEnd g w c f v

def storeBody (f : WFields) (w c : Nat) (v : Wctx) (g : Go s0) : Go s0 := takeBody f (fun _ new => new) none w c v g
def combBody (f : WFields) (w c : Nat) (v : Wctx) (g : Go s0) : Go s0 := takeBody f (combBytes f) none w c v g
def combfBody (f : WFields) (w c : Nat) (v : Wctx) (g : Go s0) : Go s0 :=
  takeBody f (combBytes f) (some (chunkLink f, chunkChan f)) w c v g

/-- `fwd` (R321). -/
def fwdBody (f : WFields) (w c : Nat) (v : Wctx) (g : Go s0) : Go s0 :=
  let l := chunkLink f
  let ch := chunkChan f
  withChunk g w c v (some (l, ch)) fun bs =>
    if !g.st.linkUp l then winchFault g w c v 9 0 0
    else
      let (v, g) := consume g w c v
      winchNextPc (sendChunk g v l ch bs) w c v true

/-! ### Flags, registers and branches -/

/-- Reads the flag of a `waitf` (R323): does it satisfy the condition, or what stops the read. -/
def waitfRead (f : WFields) (w : Nat) (v : Wctx) (g : Go s0) : Except Stop Bool × Go s0 :=
  match winchWord g w v (v.hreg f.ha) 4 false with
  | (.error e, g) => (.error e, g)
  | (.ok k, g) =>
    if g.st.poisoned k 4 then (.error { cause := 18, addr := v.hreg f.ha }, g)
    else (.ok (flagHolds (condOfCode (f.modf.toNat % 4)) (leNat (g.st.bytesAt k 4)) (winchVal v f % 2 ^ 32)), g)

/-- `waitf` (R323, R125). -/
def waitfBody (f : WFields) (w c : Nat) (v : Wctx) (g : Go s0) : Go s0 :=
  match waitfRead f w v g with
  | (.error e, g) => winchFault g w c v e.cause e.addr 0
  | (.ok true, g) => winchNextPc g w c v false
  | (.ok false, g) => winchWait g w c v 3

/-- `sigf` (R323, R125): it waits for the completion time of the context's earlier writes. -/
def sigfBody (f : WFields) (w c : Nat) (v : Wctx) (g : Go s0) : Go s0 :=
  match winchWord g w v (v.hreg f.ha) 4 true with
  | (.error e, g) => winchFault g w c v e.cause e.addr (if f.modf.toNat % 2 = 1 then 2 else 1)
  | (.ok k, g) =>
    if g.st.now < v.sigf then g
    else
      let old := leNat (g.st.bytesAt k 4)
      let new := if f.modf.toNat % 2 = 1 then old + winchVal v f else winchVal v f
      let g := homeStore g {} (cellsFrom k (leBytes (new % 2 ^ 32) 4))
      winchNextPc g w c v false

/-- A branch of a winch (R324): a target outside the program stops it, with nothing changed. -/
def winchJump (f : WFields) (w c : Nat) (v v' : Wctx) (taken : Bool) (g : Go s0) : Go s0 :=
  if taken then
    let t : Int := (v.pc.toNat : Int) + 1 + f.imm.toInt
    if v.lo.toNat ≤ t && t ≤ v.hi.toNat then winchGo g w c { v' with pc := BitVec.ofInt 13 t } false
    else winchFault g w c v 1 0 0
  else winchNextPc g w c v' false

/-- `loop`, `bra` and `brc` (R324). -/
def loopBody (f : WFields) (w c : Nat) (v : Wctx) (g : Go s0) : Go s0 :=
  let v' := v.setH f.hd (v.hreg f.hd + 2 ^ 64 - 1)
  winchJump f w c v v' (v'.hreg f.hd != 0) g
def winchBraBody (f : WFields) (w c : Nat) (v : Wctx) (g : Go s0) : Go s0 := winchJump f w c v v true g
def brcBody (f : WFields) (w c : Nat) (v : Wctx) (g : Go s0) : Go s0 := winchJump f w c v v (v.c != (f.modf.toNat % 2 == 1)) g

/-- An instruction that only writes registers (R324). -/
def hBody (f : WFields) (x : Wctx → Nat) (w c : Nat) (v : Wctx) (g : Go s0) : Go s0 := winchNextPc g w c (v.setH f.hd (x v)) false

/-- The comparison of `cmph` (R324). -/
def cmphHolds (n a b : Nat) : Bool :=
  match n with
  | 0 => a == b
  | 1 => a != b
  | 2 => a < b
  | 3 => b ≤ a
  | 4 => decide ((BitVec.ofNat 64 a).toInt < (BitVec.ofNat 64 b).toInt)
  | _ => decide ((BitVec.ofNat 64 b).toInt ≤ (BitVec.ofNat 64 a).toInt)

def cmphBody (f : WFields) (w c : Nat) (v : Wctx) (g : Go s0) : Go s0 :=
  winchNextPc g w c { v with c := cmphHolds (f.modf.toNat % 8) (v.hreg f.ha) (winchVal v f) } false
def setcBody (f : WFields) (w c : Nat) (v : Wctx) (g : Go s0) : Go s0 := winchNextPc g w c { v with c := f.modf.toNat % 2 == 1 } false
def yldBody (w c : Nat) (v : Wctx) (g : Go s0) : Go s0 := winchNextPc g w c v true
def nopwBody (w c : Nat) (v : Wctx) (g : Go s0) : Go s0 := winchNextPc g w c v false

/-- `ldh` (R324). -/
def ldhBody (f : WFields) (w c : Nat) (v : Wctx) (g : Go s0) : Go s0 :=
  let a := (v.hreg f.ha + (f.imm.signExtend 64).toNat) % 2 ^ 64
  match winchWord g w v a 8 false with
  | (.error e, g) => winchFault g w c v e.cause e.addr 0
  | (.ok k, g) =>
    if g.st.poisoned k 8 then winchFault g w c v 18 a 0 else winchNextPc g w c (v.setH f.hd (leNat (g.st.bytesAt k 8))) false

/-! ### Winch sets -/

/-- Contexts of a set on this module (R470), by key. -/
def State.setContexts (s : State) (ctx set : Nat) : List (Nat × Wctx) :=
  s.wctxs.filter fun e => e.2.tid.toNat == ctx && e.2.set.toNat == set && e.2.state != 0

/-- Is a context of the set running, waiting or stopped (R312, R470)? -/
def State.setBusy (s : State) (ctx set : Nat) : Bool :=
  (s.setContexts ctx set).any fun e => e.2.state == 2 || e.2.state == 3 || e.2.state == 4

/-- Releases the range locks of a set that was started by a crew, those of a pre-empted team too (R312, R328). -/
def unlockSet (g : Go s0) (tag : Nat) : Go s0 :=
  let g := g.each g.st.cores fun k g =>
    if k.2.ranges.any fun r => r.tag == tag then modCore g k.1 fun v => { v with ranges := v.ranges.filter fun r => r.tag != tag } else g
  g.each g.st.saved fun e g =>
    if e.2.locks.any fun r => r.tag == tag then
      g.put (.saved e.1 (some { e.2 with locks := e.2.locks.filter fun r => r.tag != tag }))
    else g

/-- A packet of a queue has completed (R396, R398). -/
def packetDone (g : Go s0) (q no : Nat) : Go s0 :=
  let v := g.st.queue q
  g.put (.queue q { v with runs := v.runs.filter fun r => r.no != no })

/-- Removes the first record equal to `x`. -/
def dropSet (x : WinchSet) : List WinchSet → List WinchSet
  | [] => []
  | y :: ys => if x = y then ys else y :: dropSet x ys

/-- Completes the sets whose contexts have halted and whose peers have answered (R312, R470). -/
def checkSets (g : Go s0) : Go s0 :=
  g.each g.st.wsets fun ws g =>
    if ws.peers.isEmpty && !g.st.setBusy ws.ctx ws.set then
      let g := g.put (.wsets (dropSet ws g.st.wsets))
      match ws.origin with
      | some m => send g (.setDone m ws.ctx ws.set)
      | none =>
        let g := unlockSet g ws.tag
        match ws.queue with
        | some (q, no) => packetDone g q no
        | none => g
    else g

/-- `halt` (R324): PC stays on it (R360). -/
def winchHaltBody (w c : Nat) (v : Wctx) (g : Go s0) : Go s0 := checkSets (putW (g.put (.wcur w c)) w c { v.stopped with state := 5 })

/-- A range declaration of a set (R470). -/
structure SetRange where
  base : Nat
  len  : Nat
  recv : Bool
deriving DecidableEq, Repr

/-- Bytes at a virtual address, read at their homes: none where a page refuses them or lives elsewhere, a FABRIC-WINDOW page included
(DESIGN CHOICE, log 62; unsafe: the hardware may read it). -/
def readVirt (g : Go s0) (us : List Nat) (ctx a n : Nat) : Option (List Byte) × Go s0 :=
  match homeRange g us ctx a n false with
  | (.error _, g) => (none, g)
  | (.ok rs, g) => (some (g.st.runBytes rs), returnLeases g rs)

/-- An entry of the winch-set table (R470): its ranges and peers; none where it is not loaded or cannot be read. -/
def readSet (g : Go s0) (ctx set : Nat) : Option (List SetRange × List Nat) × Go s0 :=
  match readVirt g [] ctx ((g.st.ctx ctx).wsetBase.toNat + 32 * set) 32 with
  | (none, g) => (none, g)
  | (some bs, g) =>
    let e := leNat bs
    if e % 2 = 0 then (none, g)
    else
      let nr := bitf e 112 16
      match readVirt g [] ctx (bitf e 192 64) (16 * nr) with
      | (none, g) => (none, g)
      | (some rb, g) =>
      match readVirt g [] ctx (bitf e 128 64) (4 * bitf e 64 32) with
      | (none, g) => (none, g)
      | (some pb, g) =>
        let rs : List SetRange := (List.range nr).map fun n =>
          let r := leNat ((rb.drop (16 * n)).take 16)
          { base := bitf r 0 64, len := bitf r 64 32, recv := bitf r 96 1 == 1 }
        let ps := distinct ((List.range (bitf e 64 32)).map fun n => leNat ((pb.drop (4 * n)).take 4))
        (some (rs, ps.filter fun p => p != g.st.mod.modid), g)

/-- Starts the contexts of a set on this module and, from where it begins, on its peers (R312 steps 3 and 4, R470). -/
def startSet (g : Go s0) (ws : WinchSet) (arg : Word) : Go s0 :=
  let g := g.each (g.st.setContexts ws.ctx ws.set) fun e g =>
    let v := { e.2 with h := Tab.set 0 e.2.h 15 arg }
    g.put (.wctx e.1 (if v.state = 1 || v.state = 5 then { v with state := 2, wait := 0, pc := v.lo, c := false, burst := 0 } else v))
  let g := g.each ws.peers fun p g => send g (.startFlit p ws.ctx ws.set arg)
  checkSets (g.put (.wsets (g.st.wsets ++ [ws])))

/-- Checks the ranges of a set for a crew (R262, R312 step 2): what stops it. `det` says that its kernel is D-class. -/
def setStops (g : Go s0) (us : List Nat) (ctx : Nat) (det : Bool) : List SetRange → List Stop × Go s0
  | [] => ([], g)
  | r :: rs =>
    let (es, g) := match rangeOf g us ctx r.base r.len r.recv det with
      | (.error es, g) => (es, g)
      | (.ok _, g) => ([], g)
    let (t, g) := setStops g us ctx det rs
    (es ++ t, g)

/-- `wstart` (R312). Where statuses 1 and 2 both apply it writes 1 (DESIGN CHOICE, unsafe, log 75). -/
def wstartBody (i : Issue) (g : Go s0) : Go s0 :=
  if i.run = 0 then retire g i {}
  else
    let set := operand64 i.ca i.f.a
    let arg := match i.f.b with | .none => 0 | o => operand64 i.cb o
    let out := fun n : Nat => (match i.f.d with | .s r => { s := [(r.toNat, n)] } | _ => {} : RegOut)
    if 255 < set then faultAll g i 3 0 0
    else if g.st.setBusy i.c.ctx set then retire g i (out 1)
    else
      match readSet g i.c.ctx set with
      | (none, g) => retire g i (out 2)
      | (some (rs, ps), g1) =>
        if !g.st.fenceReady i.x i.c g.st.seq 5 then g
        else if 32 < rs.length then faultAll g i 3 0 0
        else
          let us := coreUnits (placeCore i.x)
          match setStops (lookRanges g1 us i.c.ctx (rs.map fun r => (r.base, r.len))) us i.c.ctx (g.st.dclass i.c) rs with
          | (e :: es, g) => faultStops g i (e :: es) 0
          | ([], g2) =>
            if !g.st.locksFree i.c.team rs.length then g
            else
              let tag := g2.st.seq
              let g := lockRanges (g2.put .seq) i.c.team (rs.map fun r => lockOf r.recv false i.c.team r.base r.len tag)
              let g := noRelaunch (retire g i (out 0)) i.c.team
              startSet g { ctx := i.c.ctx, set := set, peers := ps, origin := none, tag := tag, queue := none } (BitVec.ofNat 64 arg)

/-! ### Commands -/

/-- A command of WC.CMD (R468, R469). -/
def winchCommand (g : Go s0) (w c n : Nat) : Go s0 :=
  let v := g.st.wctx w c
  if v.cmd.isSome then g
  else
    match n with
    | 1 => if v.state = 1 || v.state = 4 || v.state = 5 then putW g w c { v with state := 2, burst := 0 } else g
    | 2 => if v.state = 1 || v.state = 4 then putW g w c { v with state := 2, stepping := true, burst := 0 } else g
    | 3 => putW g w c v.stop
    | 4 =>
      if v.state = 1 || v.state = 4 || v.state = 5 then
        let (v, g) := if v.held then consume g w c v else (v, g)
        checkSets (putW g w c { v with state := 0, held := false })
      else g
    | 5 => if v.state = 0 || v.state = 5 then putW g w c { v with state := 1 } else g
    | _ => g

/-! ### Meanings -/

def execWstart (f : Fields) (s : State) : Host.Outcome State Fault Refusal := crewStep .wstart f s wstartBody
def execXmit (f : WFields) (s : State) : Host.Outcome State Fault Refusal := winchStep 1 f s (xmitBody f)
def execStore (f : WFields) (s : State) : Host.Outcome State Fault Refusal := winchStep 2 f s (storeBody f)
def execComb (f : WFields) (s : State) : Host.Outcome State Fault Refusal := winchStep 3 f s (combBody f)
def execCombf (f : WFields) (s : State) : Host.Outcome State Fault Refusal := winchStep 4 f s (combfBody f)
def execFwd (f : WFields) (s : State) : Host.Outcome State Fault Refusal := winchStep 5 f s (fwdBody f)
def execWaitf (f : WFields) (s : State) : Host.Outcome State Fault Refusal := winchStep 6 f s (waitfBody f)
def execSigf (f : WFields) (s : State) : Host.Outcome State Fault Refusal := winchStep 7 f s (sigfBody f)
def execLoop (f : WFields) (s : State) : Host.Outcome State Fault Refusal := winchStep 8 f s (loopBody f)
def execWinchBra (f : WFields) (s : State) : Host.Outcome State Fault Refusal := winchStep 9 f s (winchBraBody f)
def execBrc (f : WFields) (s : State) : Host.Outcome State Fault Refusal := winchStep 10 f s (brcBody f)
def execAddh (f : WFields) (s : State) : Host.Outcome State Fault Refusal :=
  winchStep 11 f s (hBody f fun v => v.hreg f.ha + winchVal v f)
def execSubh (f : WFields) (s : State) : Host.Outcome State Fault Refusal :=
  winchStep 12 f s (hBody f fun v => v.hreg f.ha + 2 ^ 64 - winchVal v f)
def execMovh (f : WFields) (s : State) : Host.Outcome State Fault Refusal := winchStep 13 f s (hBody f fun v => v.hreg f.ha)
def execLih (f : WFields) (s : State) : Host.Outcome State Fault Refusal :=
  winchStep 14 f s (hBody f fun v => if f.modf.toNat % 2 = 1 then v.hreg f.hd % 2 ^ 32 + 2 ^ 32 * f.imm.toNat else (f.imm.signExtend 64).toNat)
def execCmph (f : WFields) (s : State) : Host.Outcome State Fault Refusal := winchStep 15 f s (cmphBody f)
def execLdh (f : WFields) (s : State) : Host.Outcome State Fault Refusal := winchStep 16 f s (ldhBody f)
def execSetc (f : WFields) (s : State) : Host.Outcome State Fault Refusal := winchStep 17 f s (setcBody f)
def execYld (f : WFields) (s : State) : Host.Outcome State Fault Refusal := winchStep 18 f s yldBody
def execWinchHalt (f : WFields) (s : State) : Host.Outcome State Fault Refusal := winchStep 19 f s winchHaltBody
def execNopw (f : WFields) (s : State) : Host.Outcome State Fault Refusal := winchStep 20 f s nopwBody

/-! ### Events -/

/-- A chunk arrives (R316): one of another set is discarded, its credit returned, the discard counted. -/
def chunkArrive (g : Go s0) (w ch set cs : Nat) (data : List Byte) : Go s0 :=
  let v := g.st.wctx w ch
  if data.length ≠ 2 ^ cs then g
  else if set ≠ v.set.toNat then
    let k := g.st.link w
    send (g.put (.link w { k with errCnt := k.errCnt + 1 })) (.credit w ch data.length)
  else
    let v := { v with rx := v.rx ++ [(cs, data)] }
    putW g w ch (if v.state = 3 && v.wait = 1 then { v with state := 2, wait := 0 } else v)

/-- CHUNK_ARRIVE (R316). -/
def execChunkArrive (w ch set cs : Nat) (data : List Byte) (s : State) : Host.Outcome State Fault Refusal :=
  (chunkArrive (Go.start s) w ch set cs data).done

/-- Contexts that wait for a credit try again. -/
def wakeCredits (g : Go s0) : Go s0 :=
  g.each (g.st.wctxs.filter fun e => e.2.state == 3 && e.2.wait == 2) fun e g => g.put (.wctx e.1 { e.2 with state := 2, wait := 0 })

/-- CREDIT_RETURN (R316): credits of `n` bytes come back. -/
def execCreditReturn (link ch n : Nat) (s : State) : Host.Outcome State Fault Refusal :=
  let k := s.link link
  (wakeCredits ((Go.start s).put (.link link { k with credits := Tab.set 0 k.credits ch (s.creditBytes link ch + n) }))).done

/-- WINCH_FORCED_YIELD (R325). -/
def execWinchForcedYield (w : Nat) (s : State) : Host.Outcome State Fault Refusal :=
  let c := Tab.get 0 s.wcur w
  let v := s.wctx w c
  if v.state = 2 && 4096 ≤ v.burst then (putW (Go.start s) w c (v.after true)).done else .next s

/-- WAITF_REREAD (R323): the context's `waitf` is over once the flag satisfies it; the link stays where it is until the context's turn
(R325). -/
def execWaitfReread (w c : Nat) (s : State) : Host.Outcome State Fault Refusal :=
  let v := s.wctx w c
  if v.state = 3 && v.wait = 3 then
    match decodeWinch (Tab.get 0 s.imem (8192 * w + v.pc.toNat)).toNat with
    | .ok (.waitf f) =>
      match waitfRead f w v (Go.start s) with
      | (.error e, g) => (winchStop g w c v e.cause e.addr 0).done
      | (.ok true, g) =>
        let v := { v with state := 2, wait := 0, pc := v.pc + 1 }
        (putW g w c (if v.stepping then v.stopped else v)).done
      | (.ok false, g) => g.done
    | _ => .next s
  else .next s

/-- WSET_START_FLIT (R470): the module starts its contexts of the set, or counts a refusal and answers DONE. -/
def execWsetStartFlit (ctx set : Nat) (arg : BitVec 64) (from_ : Nat) (s : State) : Host.Outcome State Fault Refusal :=
  let refuse := fun (g : Go s) =>
    let j := Config.freeNat (s.salt 61 0) % 4
    send (modJd g j fun d => { d with wsetRefused := d.wsetRefused + 1 }) (.setDone from_ ctx set)
  if s.setBusy ctx set then (refuse (Go.start s)).done
  else
    match readSet (Go.start s) ctx set with
    | (none, g) => (refuse g).done
    | (some _, g) => (startSet g { ctx := ctx, set := set, peers := [], origin := some from_, tag := 0, queue := none } arg).done

/-- A DONE from a peer. -/
def takeDone (ctx set from_ : Nat) : List WinchSet → List WinchSet
  | [] => []
  | w :: ws =>
    if w.ctx = ctx && w.set = set && w.origin.isNone && w.peers.contains from_ then { w with peers := w.peers.filter fun p => p != from_ } :: ws
    else w :: takeDone ctx set from_ ws

/-- WSET_DONE (R312, R470). -/
def execWsetDone (ctx set from_ : Nat) (s : State) : Host.Outcome State Fault Refusal :=
  (checkSets ((Go.start s).put (.wsets (takeDone ctx set from_ s.wsets)))).done

def execWcLoad (w c : Nat) (s : State) : Host.Outcome State Fault Refusal := (winchCommand (Go.start s) w c 5).done
def execWcRun (w c : Nat) (s : State) : Host.Outcome State Fault Refusal := (winchCommand (Go.start s) w c 1).done
def execWcStep (w c : Nat) (s : State) : Host.Outcome State Fault Refusal := (winchCommand (Go.start s) w c 2).done
def execWcStop (w c : Nat) (s : State) : Host.Outcome State Fault Refusal := (winchCommand (Go.start s) w c 3).done
def execWcClear (w c : Nat) (s : State) : Host.Outcome State Fault Refusal := (winchCommand (Go.start s) w c 4).done

end Sys2Proof.Machine
end

