-- ==== Sys2Proof/Machine/Spawn.lean ====
section
/-! DEFINITION. `exit` (R229), `spawn` (R230, R231, R60) with the gangs it makes (R418, R419), and the end of a time wait. -/

namespace Sys2Proof.Machine

variable {s0 : State}

/-! ### exit -/

/-- `exit` (R47, R54, R55, R229). -/
def exitBody (i : Issue) (g : Go s0) : Go s0 :=
  if i.run = 0 then retire g i {}
  else
    match exitLanes (retire g i {}) i.x i.k i.run with
    | (.error e, _) => takeFault g i.x i.k (stopFaults (lanesOf i.act i.c.width) e) 0 0 false
    | (.ok _, g) => gdetachCheck (exitArrivals (frameDeadlock g i.x) i.x) i.c.team

/-! ### What spawn reads -/

/-- Home bytes as a crew's core reads them (R104). -/
def crewBytes (g : Go s0) (core minGrant : Nat) (rs : List (Nat × Nat)) : List Byte × Go s0 :=
  let ks := (rs.map fun r => (List.range r.2).map fun n => r.1 + n).flatten
  let (ls, g) := readLines g core minGrant true (distinct (ks.map lineOf))
  (ks.map fun k => match ls.find? fun l => l.1 == lineOf k with
    | some l => l.2.getD (k % 64) 0
    | none => 0, g)

/-- How a read of a crew instruction that takes its data in issue stands. -/
inductive Reading where
  | wait
  | stop (fs : List LaneFault)
  | bytes (bs : List Byte)
deriving DecidableEq, Repr

/-- Reads checked words for an instruction in issue: at once where they are near; words of other modules are read by passes first
(R431). -/
def readChecked (g : Go s0) (i : Issue) (a n : Nat) (cs : List Checked) : Reading × Go s0 :=
  if !(cs.any fun c => Loc.isFar c.loc) then
    let rs := cs.filterMap fun c => match c.loc with | .home k => some (k, n) | _ => none
    let (bs, g) := crewBytes g (placeCore i.x) i.c.minGrant rs
    (.bytes bs, g)
  else
    let len := n * cs.length
    let seg : EngSeg := { src := cs.map fun c => { loc := c.loc, len := n, leaf := 0, peers := c.peers }, dst := [], sbase := a, dbase := a, len := len }
    let mine := g.st.engines.find? fun e =>
      e.2.inst == i.c.inst && (Tab.find g.st.announces e.1).isNone && e.2.segs.any fun s => s.dst.isEmpty && s.sbase == a && s.len == len
    let (id, e, g) := match mine with
      | some (id, e) => (id, e, g)
      | none => (g.st.seq, { newEngine g.st i [] none none 0 with segs := [seg] }, g.put .seq)
    let busy := g.st.passes.any fun p => match p.2.origin with | .engine c o _ => c == 640 && o == id | _ => false
    if busy then (.wait, g)
    else if e.refused ≠ 0 then
      (.stop (i.lanes.map fun l => { lane := l, cause := e.refused, addr := a }), g.put (.engine id none))
    else
      match gatherUnits (g.put (.engine id (some e))) 640 id 0 e seg (sourceUnits seg 0 len) with
      | (none, g) => (.wait, g)
      | (some e, g) => (.bytes (unitBytes e seg 0 0 len).1, g.put (.engine id none))

/-- A spawn record (R230). -/
structure SpawnRec where
  kernel : Nat
  teams  : Nat
  args   : Nat
  peers  : Nat
deriving DecidableEq, Repr

def spawnRec (bs : List Byte) : SpawnRec :=
  let v := leNat bs
  { kernel := bitf v 0 32, teams := bitf v 32 32, args := bitf v 128 64, peers := bitf v 192 64 }

/-- A read of `n` bytes in issue, and its kind for the checks of R220. -/
def spawnKind (n : Nat) : AccKind := { size := n, read := true, write := false, store := false, ord := false, op := none }

/-! ### Status -/

/-- The dies on which a context's teams run (R368). -/
def State.ctxDies (s : State) (ctx : Nat) : List Nat :=
  if isService ctx then List.range 8 else (List.range 8).filter fun d => (s.part (s.ctx ctx).part.toNat).dies.getLsbD d

/-- The scratch part of a core's slice (R28, R102); of a core in no partition, the split at reset. -/
def State.scratchPart (s : State) (core : Nat) : Nat :=
  match s.partOfCore core with
  | some p => (s.part p).scratchPart
  | none => Part.reset.scratchPart

/-- The largest scratch part of a core on which a context's teams run (R24, R28). -/
def State.ctxScratch (s : State) (ctx : Nat) : Nat :=
  if isService ctx then (s.ctxDies ctx).foldl (fun a d => max a (s.scratchPart (80 * d))) 0
  else (s.part (s.ctx ctx).part.toNat).scratchPart

/-- The largest team scratch (R27). -/
def scratchLimit (pair : Bool) : Nat := (if pair then 8 else 4) * 2 ^ 20

/-- Is a team's scratch within the slices of an empty core or pair, and within R27's limit (R24, R27)? -/
def Kd.scratchOk (kd : Kd) (part : Nat) : Bool :=
  kd.scratch ≤ part * (if kd.pair then 2 else 1) && kd.scratch ≤ scratchLimit kd.pair

/-- Does one team of a kernel fit an empty core or pair of a context (R24)? -/
def fitsEmpty (s : State) (ctx : Nat) (kd : Kd) : Bool :=
  let slots := if kd.pair then 16 else 8
  let perSlot := min 8 (512 / max 1 (kd.width / 32 * kd.wrows))
  kd.scratchOk (s.ctxScratch ctx) && kd.crews ≤ slots * perSlot && kd.tiles ≤ 16

/-- The most members that one gang of a spawn gives a module (R418). -/
def mostMembers (own n : Nat) (peers : List Nat) : Nat → List Nat → Nat
  | 0, _ => 0
  | k + 1, ps =>
    let gang := if peers.isEmpty then List.replicate n own else ps.take n
    max ((gang.map fun p => gang.countP fun q => q == p).foldl max 0) (mostMembers own n peers k (ps.drop n))

/-- Would `teams` more take the counter of a launch above its limit (R60)? The counter of another home module is that module's: open (log
65). -/
def State.counterFull (s : State) (n : Nat) (l : Launch) (teams : Nat) : Bool :=
  if l.home.isNone then decide (2 ^ 40 ≤ l.counter + teams) else teams != 0 && Config.freeBit (s.salt 81 n)

/-- The status of a spawn (R231). -/
def spawnStatus (s : State) (ctx : Nat) (kd : Kd) (n : Nat) (l : Launch) (r : SpawnRec) (peers : List Nat) : Nat :=
  if kd.gang ≠ 0 && r.teams ≠ 0 && (12 < mostMembers s.mod.modid kd.gang peers (r.teams / kd.gang + 1) peers || !fitsEmpty s ctx kd) then 1
  else if s.counterFull n l r.teams then 2
  else if (kd.gang ≠ 0 && r.teams % kd.gang ≠ 0) || (kd.gang = 0 && r.peers ≠ 0) then 3
  else 0

/-! ### Creating teams and gangs -/

/-- What a coordinator tells a member module (R419). -/
def Gang.msg (s : State) (n : Nat) (gg : Gang) : GangMsg :=
  let p := gg.pend
  let l := Tab.find s.launches p.launch
  { gang := n, time := gg.time, coord := gg.coord, no := gg.no, ctx := p.ctx
    object := match Tab.find s.objs p.object with | some o => o.portable.toNat | none => 0
    kernel := p.kernel
    launch := match l with | some l => if l.home.isSome then l.homeNo else p.launch | none => p.launch
    home := match l with | some l => l.home.getD s.mod.modid | none => s.mod.modid
    prio := p.prio, args := p.args, first := gg.first, nteams := p.nteams, grid := p.grid, clock := p.clock, key := p.key
    members := gg.members, stack := match l with | some l => l.stack | none => 0
    pool := match l with | some l => l.pool | none => 0, idem := match l with | some l => l.idem | none => false
    retry := match l with | some l => l.retry | none => 0 }

/-- The coordinator sends RESERVE to every member module (R419 step 1). -/
def sendReserve (g : Go s0) (n : Nat) : Go s0 :=
  match Tab.find g.st.gangs n with
  | none => g
  | some gg =>
    let m := gg.msg g.st n
    g.each (distinct gg.members) fun p g => toPeer g p (.reserve p m) (.reserve m)

/-- The gang of ranks 0 to `size - 1` from team `first` on (R230, R419). -/
def newGang (g : Go s0) (p : Pend) (first : Nat) (members : List Nat) : Go s0 :=
  let own := g.st.mod.modid
  let no := g.st.seq
  let n := own * 2 ^ 40 + no
  let gg : Gang :=
    { pend := { p with next := first, last := first + members.length, gang := n, peers := members }, first := first, time := p.time, coord := own
      no := no, members := members, st := .unplaced, prev := .unplaced, window := none, committed := false, go := false
      heldFrom := [], placedFrom := [], savedFrom := [], since := g.st.now, reservedAt := none, detached := [], lost := [], teams := [] }
  sendReserve ((g.put .seq).put (.gang n (some gg))) n

/-- Gangs of `n` teams each, from team `first` on. -/
def newGangs (g : Go s0) (p : Pend) (n : Nat) (peers : List Nat) : Nat → Nat → Go s0
  | 0, _ => g
  | k + 1, first =>
    let members := (List.range n).map fun j => if peers.isEmpty then g.st.mod.modid else peers.getD (first + j) 0
    newGangs (newGang g p first members) p n peers k (first + n)

/-- The teams of an accepted spawn (R60, R230, R416). -/
def createTeams (g : Go s0) (i : Issue) (t : Team) (kd : Kd) (r : SpawnRec) (peers : List Nat) : Go s0 :=
  if r.teams = 0 then g
  else
    let p : Pend :=
      { launch := t.launch, grid := g.st.seq, kernel := r.kernel, object := t.object, ctx := i.c.ctx, prio := t.prio, time := g.st.now
        order := g.st.seq, next := 0, last := r.teams, nteams := r.teams, args := BitVec.ofNat 64 r.args, key := i.c.key
        clock := i.sp.clock + 1, relaunches := 0, gang := 0, peers := [] }
    let places := if peers.isEmpty then List.replicate r.teams g.st.mod.modid else peers
    let g := launchAdd (g.put .seq) t.launch r.teams 0 places
    let g := noRelaunch g i.c.team
    if kd.gang = 0 then g.put (.pends (g.st.pends ++ [p]))
    else newGangs g p kd.gang peers (r.teams / kd.gang) 0

/-- Retires a `spawn` of status `n`: its reads are recorded, and one on a FABRIC-WINDOW page ends relaunch eligibility (R74, R230, R232). -/
def spawnRetire (g : Go s0) (i : Issue) (reads : List Tracked) (n : Nat) : Go s0 :=
  let g := trackNow g i false reads
  let g := if reads.any fun a => Loc.isFar a.loc then noRelaunch g i.c.team else g
  retire g i (match i.f.d with | .s d => { s := [(d.toNat, n)] } | _ => {})

/-- What `spawn` read: words of `n` bytes. -/
def spawnReads (n : Nat) (cs : List Checked) : List Tracked :=
  cs.map fun c => { loc := c.loc, size := n, read := true, write := false, op := none }

/-- `spawn` once its record and peer list are read: illegal-target and peer-absent, the release, the status (R230, R231). -/
def spawnGo (g0 g : Go s0) (i : Issue) (t : Team) (r : SpawnRec) (early : List LaneFault) (reads : List Tracked) (peers : List Nat) : Go s0 :=
  let kd? := g.st.kd? t.object r.kernel
  let (absent, g) := peers.foldl (fun (a : Option Nat × Go s0) p =>
    if a.1.isSome then a
    else
      let (b, g) := peerAbsent a.2 i.c.ctx p
      (if b then some p else none, g)) (none, g)
  let fs := early ++ (if kd?.isNone then allFault i.lanes 20 else [])
    ++ (match absent with | some p => i.lanes.map fun l => ({ lane := l, cause := 9, addr := p } : LaneFault) | none => [])
  match fs, kd?, Tab.find g.st.launches t.launch with
  | [], some kd, some l =>
    if (peers.any fun p => p != g.st.mod.modid) && !g0.st.fenceReady i.x i.c g0.st.seq 5 then g0
    else
      let n := spawnStatus g.st i.c.ctx kd t.launch l r peers
      let g := spawnRetire g i reads n
      if n = 0 then createTeams g i t kd r peers else g
  | [], _, _ => retire g i {}
  | fs, _, _ => takeFault g i.x i.k fs 0 0 false

/-- `spawn` (R230): it waits in issue for the crew's earlier accesses at `.mod`, then reads its record and its peer list. -/
def spawnBody (i : Issue) (g : Go s0) : Go s0 :=
  if i.run = 0 then retire g i {}
  else if !g.st.fenceReady i.x i.c g.st.seq 4 then g
  else
    match g.st.team? i.c.team with
    | none => g
    | some t =>
      let a := operand64 i.ca i.f.a
      match checkVirt g i (spawnKind 32) 128 a with
      | (.error e, g) => takeFault g i.x i.k (i.spread [e]) 0 0 false
      | (.ok c, g1) =>
        match readChecked g1 i a 32 [c] with
        | (.wait, g) => g
        | (.stop fs, g) => takeFault g i.x i.k fs 0 0 false
        | (.bytes bs, g2) =>
          let r := spawnRec bs
          let reads := spawnReads 32 [c]
          if r.peers = 0 then spawnGo g g2 i t r [] reads []
          else
            let word := fun l => (r.peers + 4 * l) % 2 ^ 64
            let g2 := lookPages g2 (placeCore i.x) i.c.ctx 4 ((List.range r.teams).map word)
            let ((fs, cs), g3) := checkAll g2 (fun g l => checkVirt g i (spawnKind 4) 128 (word l)) (List.range r.teams)
            if !fs.isEmpty then spawnGo g g3 i t r (i.spread fs) [] []
            else
              match readChecked g3 i r.peers 4 cs with
              | (.wait, g) => g
              | (.stop fs, g) => takeFault g i.x i.k fs 0 0 false
              | (.bytes pb, g4) =>
                spawnGo g g4 i t r [] (reads ++ spawnReads 4 cs) ((List.range r.teams).map fun n => leNat ((pb.drop (4 * n)).take 4))

def execExit (f : Fields) (s : State) : Host.Outcome State Fault Refusal := crewStep .exit f s exitBody
def execSpawn (f : Fields) (s : State) : Host.Outcome State Fault Refusal := crewStep .spawn f s spawnBody

/-- GWCT_REACHED (R105, R127, R302): fabric time is past the crew's completion times, and an instruction that waits in issue for them issues
where no other crew of its slot can (R65). -/
def execGwctReached (x k : Nat) (s : State) : Host.Outcome State Fault Refusal :=
  match s.crew? x with
  | some c =>
    let others := s.crews.any fun e => e.1 != x && e.1 / 8 == x / 8 && e.2.ready && s.teamRuns e.2
    if (c.gmod < s.now || c.gfab < s.now) && s.agenda.isEmpty && !others then ((Go.start s).put (.agenda (s.agenda ++ [.issue x k]))).done else .next s
  | none => .next s

end Sys2Proof.Machine
end

