-- ==== Sys2Proof/Machine/Queues.lean ====
section
/-! DEFINITION. Host queues (R394 to R415): the packets, the registers that a host writes, the slots, and what completes a packet
(R396, R398), a launch among them (R63, R399). -/

namespace Sys2Proof.Machine

open Sys2Proof

variable {s0 : State}

/-! ### Slots -/

def putQ (g : Go s0) (q : Nat) (v : Queue) : Go s0 := g.put (.queue q v)

/-- The queue lets go of its slot. -/
def releaseSlot (g : Go s0) (q : Nat) : Go s0 :=
  let v := g.st.queue q
  if v.mapped then
    putQ (g.put (.slot v.slot.toNat { Tab.get Slot.reset g.st.slots v.slot.toNat with busy := false })) q
      { v with mapped := false, slot := 0xFF, leaves := false }
  else g

/-- A queue is halted by an error (R397). -/
def queueHalt (g : Go s0) (q err ty : Nat) : Go s0 :=
  let g := releaseSlot g q
  let v := g.st.queue q
  let g := putQ g q { v with halted := true, err := BitVec.ofNat 4 err, errType := BitVec.ofNat 8 ty, waiting := false, pending := false }
  send g (.msix v.vi.toNat v.msix.toNat)

/-- The queue's bit in the pending vector is set (R415): it begins waiting (R414). -/
def beginWaiting (g : Go s0) (q : Nat) : Go s0 :=
  let v := g.st.queue q
  if v.pending then g else putQ g q { v with pending := true, ecls := v.cls, since := g.st.now, agedAt := g.st.now }

/-- Packets are left to issue, or one is saved waiting (R413). -/
def Queue.work (v : Queue) : Bool := v.head != v.tail || v.saved.isSome

/-- The queue control block (R413): the vendor's bytes are left open. -/
def Queue.block (v : Queue) : List Byte :=
  leBytes v.head.toNat 8 ++ leBytes (match v.saved with | some s => s.1 | none => 0) 8 ++ leBytes v.since 8 ++ leBytes v.ecls.toNat 8
    ++ leBytes 0 32 ++ leBytes (match v.saved with | some s => s.2.toNat | none => 0) 64 ++ packed 15 128 []

/-- A type for Q.ERRTYPE where no packet halted the queue (log 40). -/
def noType (s : State) (q : Nat) : Nat := Config.freeNat (s.salt 64 q) % 256

/-- The engine operation by which a queue reads its packet (0), the block of a packet (1) or the word of a WAITV (2), and by which its
control block is written (3). -/
def queueKey (q n : Nat) : Nat := 2 ^ 63 + 4 * q + n

/-- Is the queue's packet being checked: it, or a block that it names, is on its way here (R396, R413)? -/
def State.checking (s : State) (q : Nat) : Bool := (Tab.find s.engines (queueKey q 0)).isSome || (Tab.find s.engines (queueKey q 1)).isSome

/-- A read of a queue is given up. -/
def dropRead (g : Go s0) (q n : Nat) : Go s0 := if (Tab.find g.st.engines (queueKey q n)).isSome then g.put (.engine (queueKey q n) none) else g

/-- Unmaps a queue at a packet boundary (R413): a WAITV that waits reads its word anew once it is mapped again. -/
def unmapQueue (g : Go s0) (q : Nat) : Go s0 :=
  let g := dropRead (releaseSlot g q) q 2
  let g := if (g.st.queue q).work then beginWaiting g q else g
  let v := g.st.queue q
  match agentStore g (queueKey q 3) v.ctx.toNat v.qcb.toNat v.block with
  | (.bad, g) => queueHalt g q 4 (noType g.st q)
  | (_, g) => g

/-- A queue is unmapped at its next packet boundary (R394, R413): a packet that is being checked finishes issuing first. -/
def leaveSlot (g : Go s0) (q : Nat) : Go s0 :=
  if g.st.checking q then putQ g q { g.st.queue q with leaves := true } else unmapQueue g q

/-- Maps a queue to a slot (R414, R415). -/
def mapQueue (g : Go s0) (q slot : Nat) : Go s0 :=
  let v := g.st.queue q
  let g := g.put (.slot slot { time := BitVec.ofNat 32 (g.st.now / 1000), busy := true, cls := v.cls, queue := BitVec.ofNat 10 q })
  putQ g q { v with mapped := true, slot := BitVec.ofNat 8 slot, ecls := v.cls, pending := false, mappedAt := g.st.now }

/-! ### The scheduler -/

/-- The partition of a queue: its virtual interface's (R368). -/
def State.queuePart (s : State) (q : Nat) : Nat := (s.vi (s.queue q).vi.toNat).part.toNat

/-- The slot pool of a partition (R410). -/
def State.slotPool (s : State) (p : Nat) : List Nat :=
  let dies := (List.range 8).filter fun d => (s.part p).dies.getLsbD d
  let all := (dies.map fun d => (List.range 32).map fun t => 32 * d + t).flatten
  if (s.part p).active then all.filter fun n => n != 32 * dies.headD 0 + 31 else []

/-- The slots of a partition that hold a queue. -/
def State.heldSlots (s : State) (p : Nat) : List (Nat × Slot) := s.slots.filter fun e => e.2.busy && (s.slotPool p).contains e.1

/-- Is a slot idle (R412)? A slot without a queue is, while the partition may map one more. -/
def State.slotIdle (s : State) (p n : Nat) : Bool :=
  let v := Tab.get Slot.reset s.slots n
  if v.busy then
    let u := s.queue v.queue.toNat
    u.halted || !u.work
  else (s.heldSlots p).length < (s.part p).qsaCount

/-- When the queue of a slot was mapped. -/
def State.mappedAt (s : State) (v : Slot) : Nat := (s.queue v.queue.toNat).mappedAt

/-- The borrowed slots of a partition (R412): of each class the most recently mapped beyond its minimum. -/
def State.borrowed (s : State) (p : Nat) : List (Nat × Slot) :=
  let held := s.heldSlots p
  held.filter fun e =>
    let mine := held.filter fun f => f.2.cls == e.2.cls
    let later := mine.filter fun f => s.mappedAt e.2 < s.mappedAt f.2 || (s.mappedAt e.2 == s.mappedAt f.2 && e.1 < f.1)
    later.length < mine.length - (s.part p).qsaMin.getD e.2.cls.toNat 0

/-- The victim among slots (R412): the greatest class, then the earliest mapping time, then the lowest slot. -/
def State.victim (s : State) (xs : List (Nat × Slot)) : Option Nat :=
  (xs.foldl (fun (m : Option (Nat × Slot)) e => match m with
    | some f =>
      if f.2.cls.toNat < e.2.cls.toNat then some e
      else if f.2.cls = e.2.cls && s.mappedAt e.2 < s.mappedAt f.2 then some e
      else some f
    | none => some e) none).map Prod.fst

/-- The slots that a waiting queue may take now (R412): an idle one, else the victim. -/
def State.slotTargets (s : State) (p q : Nat) : List Nat :=
  let idle := (s.slotPool p).filter (s.slotIdle p)
  if !idle.isEmpty then idle
  else
    let v := s.queue q
    let b := s.borrowed p
    let below := ((s.heldSlots p).filter fun e => e.2.cls == v.cls).length < (s.part p).qsaMin.getD v.cls.toNat 0
    (s.victim (if below then b else b.filter fun e => v.ecls.toNat < e.2.cls.toNat)).toList

/-- The queues of a partition that wait for a slot; none of an interface that is not enabled (R371), nor while its control block is being
written (R413). -/
def State.waitingQueues (s : State) (p : Nat) : List (Nat × Queue) :=
  s.queues.filter fun e => e.2.pending && e.2.en && !e.2.mapped && !e.2.halted && s.queuePart e.1 == p && (s.storeStands (queueKey e.1 3)).isNone
    && (s.vi e.2.vi.toNat).en && !(s.vi e.2.vi.toNat).flrBusy && (s.ctx e.2.ctx.toNat).state != 3

/-- Does one waiting queue come before another (R412)? -/
def queueBefore (a b : Nat × Queue) : Bool :=
  a.2.ecls.toNat < b.2.ecls.toNat
    || (a.2.ecls == b.2.ecls && (a.2.since < b.2.since || (a.2.since == b.2.since && a.1 < b.1)))

/-- QUEUE_SCHEDULE (R412): the first waiting queue for which a step applies takes the slot; one whose packet is being checked leaves it at the
boundary (R413). -/
def execQueueSchedule (slot q : Nat) (s : State) : Host.Outcome State Fault Refusal :=
  let p := s.queuePart q
  let v := s.queue q
  let ws := s.waitingQueues p
  let first := ws.any (fun e => e.1 == q) && ws.all fun e => !queueBefore e (q, v) || (s.slotTargets p e.1).isEmpty
  if first && (s.slotTargets p q).contains slot then
    let u := Tab.get Slot.reset s.slots slot
    let g := if u.busy then leaveSlot (Go.start s) u.queue.toNat else Go.start s
    (if u.busy && s.checking u.queue.toNat then g else mapQueue g q slot).done
  else .next s

/-- FORCED_UNMAP (R394, R411, R413): a mapped queue that was disabled, or the lowest in priority of more than QSA.COUNT. Of a queue whose
control block is on its way to another module it is the end of that write. -/
def execForcedUnmap (q : Nat) (s : State) : Host.Outcome State Fault Refusal :=
  let p := s.queuePart q
  let v := s.queue q
  let held := s.heldSlots p
  match s.storeStands (queueKey q 3) with
  | some .wait => .next s
  | some r =>
    let g := (Go.start s).put (.engine (queueKey q 3) none)
    (if r = .bad then queueHalt g q 4 (noType s q) else g).done
  | none =>
    if v.mapped && (v.leaves || !v.en || ((s.part p).qsaCount < held.length && s.victim held == some v.slot.toNat)) then
      (leaveSlot (Go.start s) q).done
    else .next s

/-- ECLASS_AGING (R414). -/
def execEclassAging (q : Nat) (s : State) : Host.Outcome State Fault Refusal :=
  let v := s.queue q
  let due := v.agedAt + 1000 * (s.part (s.queuePart q)).qsaAge
  if v.pending && !v.mapped && v.ecls ≠ 0 && due ≤ s.now then (putQ (Go.start s) q { v with ecls := v.ecls - 1, agedAt := due }).done
  else .next s

/-! ### The registers of a queue -/

/-- An access of the host of an interface waits until its link has retrained (R483). -/
def withhold (g : Go s0) (vi a : Nat) (x : Word) : Go s0 :=
  g.put (.mod { g.st.mod with withheld := g.st.mod.withheld ++ [(vi, a, some x)] })

/-- What a host does to a register of its interface now, or, where its link is down, afterwards (R483). -/
def byHost (s : State) (vi a : Nat) (x : Word) (now : Go s → Go s) : Host.Outcome State Fault Refusal :=
  (if s.mod.hostUp then now (Go.start s) else withhold (Go.start s) vi a x).done

/-- The system address of a word of a queue's registers (R394). -/
def queueAddr (q off : Nat) : Nat := 0x05000000 + 0x40 * q + off

/-- The word at offset 0x00 is written (R394); `mayVi` says that the writer may change Q.VI; another
one starts no service context's queue (R367; log 64). -/
def queueControl (g : Go s0) (q : Nat) (mayVi : Bool) (x : Word) : Go s0 :=
  let v := g.st.queue q
  let n := x.toNat
  let vi := if mayVi then BitVec.ofNat 6 (bitf n 44 6) else v.vi
  let ctx := BitVec.ofNat 12 (bitf n 32 12)
  let size := bitf n 8 4
  let en := n % 2 == 1
  let c := g.st.ctx ctx.toNat
  if en && !v.en && !(c.state = 1 && c.vi = vi && (mayVi || !c.level)) then g
  else
    let u := { v with vi := vi, cls := BitVec.ofNat 2 (bitf n 4 2), en := en
                      ctx := if v.en then v.ctx else ctx
                      size := if v.en || size < 4 then v.size else BitVec.ofNat 4 size
                      pending := v.pending && en, leaves := v.leaves || (v.mapped && !en) }
    let g := putQ g q u
    if !en && v.mapped then later g (.forcedUnmap q) else g

/-- Q.TAIL is written: a kick (R395). -/
def queueKick (g : Go s0) (q : Nat) (x : Word) : Go s0 :=
  let v := { g.st.queue q with tail := BitVec.ofNat 16 x.toNat }
  let g := putQ g q v
  if 2 ^ v.size.toNat < (v.tail - v.head).toNat then queueHalt (dropRead (dropRead (dropRead g q 0) q 1) q 2) q 3 (noType g.st q)
  else if v.halted then g
  else if v.en && !v.mapped then beginWaiting g q
  else g

/-- Q.RESUME is written (R397): a halted queue goes on, past the halting packet where `skip`. -/
def queueResume (g : Go s0) (q : Nat) (skip : Bool) : Go s0 :=
  let v := g.st.queue q
  if v.halted then
    let u := { v with halted := false, err := 0, head := if skip then v.head + 1 else v.head, saved := if skip then none else v.saved
                      waiting := !skip && v.saved.isSome }
    let g := putQ g q u
    if u.en && u.work then beginWaiting g q else g
  else g

/-- Q_CONTROL_WRITE: a writer that may not change Q.VI is the host of the queue's interface (R394). -/
def execQControlWrite (q : Nat) (mayVi : Bool) (x : Word) (s : State) : Host.Outcome State Fault Refusal :=
  if mayVi then (queueControl (Go.start s) q true x).done
  else byHost s (s.queue q).vi.toNat (queueAddr q 0) x fun g => queueControl g q false x
def execQTailKick (q : Nat) (x : Word) (s : State) : Host.Outcome State Fault Refusal :=
  byHost s (s.queue q).vi.toNat (queueAddr q 0x10) x fun g => queueKick g q x
def execQResumeSkip (q : Nat) (s : State) : Host.Outcome State Fault Refusal :=
  byHost s (s.queue q).vi.toNat (queueAddr q 0x38) 1 fun g => queueResume g q true
def execQResumeRetry (q : Nat) (s : State) : Host.Outcome State Fault Refusal :=
  byHost s (s.queue q).vi.toNat (queueAddr q 0x38) 2 fun g => queueResume g q false

/-! ### Issue -/

/-- The queue whose turn it is, where it may issue (R396); one that leaves its slot only finishes the packet that is being
checked (R413). -/
def State.queueIssuer (s : State) : Option (Nat × Queue) :=
  match s.cur with
  | .queue q =>
    let v := s.queue q
    if v.mapped && ((v.en && !v.leaves) || s.checking q) && !v.halted && v.work && (s.ctx v.ctx.toNat).state ≠ 3 then some (q, v) else none
  | _ => none

/-- The errors of a packet: the lowest halts its queue (R397); with none it goes on. -/
def orHalt (g : Go s0) (q : Nat) (v : Queue) (ty : Nat) (errs : List Nat) (ok : Go s0) : Go s0 :=
  match errs ++ (if (g.st.ctx v.ctx.toNat).state = 2 then [8] else []) with
  | [] => ok
  | e :: es => queueHalt g q (es.foldl min e) ty

/-- The packet has issued (R396): Q.HEAD advances, and what the front end tracks is `run`. -/
def issued (g : Go s0) (q : Nat) (run : Option PktRun) : Go s0 :=
  let v := g.st.queue q
  putQ g q { v with head := v.head + 1, saved := none, waiting := false, next := v.next + 1, runs := v.runs ++ run.toList }

/-- What the front end tracks of a packet (R396). -/
def Queue.run (v : Queue) : PktRun := { no := v.next, launch := none, op := none, set := none, gwct := 0, signal := false, irq := false }

/-- One packet of a queue. -/
def packetStep (s : State) (body : Nat → Queue → Go s → Go s) : Host.Outcome State Fault Refusal :=
  match s.queueIssuer with
  | some (q, v) => (body q v (Go.start s)).done
  | none => .next s

/-- LAUNCH and WSET packets that are not complete (R396). -/
def State.frontEnd (s : State) : Nat :=
  s.queues.foldl (fun n e => n + (e.2.runs.filter fun r => r.launch.isSome || r.set.isSome).length) 0

/-- A launch parameter block (R405). -/
structure Lpb where
  pool  : Nat
  stack : Nat
  idem  : Bool
  retry : Nat
deriving DecidableEq, Repr

def lpbOf (n : Nat) : Lpb := { pool := bitf n 0 64, stack := bitf n 64 32, idem := bitf n 96 1 == 1, retry := bitf n 104 8 }

/-- Is a launch parameter block within its ranges (R405, R406)? -/
def lpbOk (c : Ctx) (n : Nat) : Bool :=
  let b := lpbOf n
  n / 2 ^ 112 == 0 && bitf n 97 7 == 0 && b.stack % 4096 == 0 && 4096 ≤ b.stack && b.stack ≤ 2 ^ 24 && b.pool % 4096 == 0
    && (b.pool != 0 || b.stack ≤ c.stackMax.toNat)

/-- The key of a loaded object (R481): handles are a context's. -/
def objKey (ctx handle : Nat) : Nat := 2 ^ 32 * ctx + handle

/-- The kernel a LAUNCH names, where its object is loaded for the context and not unloaded since (R397, R481). -/
def State.launchKernel (s : State) (ctx handle kernel : Nat) : Option Kd :=
  if handle < 2 ^ 32 then
    match Tab.find s.objs (objKey ctx handle) with
    | some o => if o.retired then none else o.kernels[kernel]?
    | none => none
  else none

/-- Creates a launch with its counter at 1 and queues its seed, one crew in a team of its own (R26, R60, R399). -/
def startLaunch (g : Go s0) (q : Nat) (v : Queue) (p : LaunchPkt) (b : Lpb) : Go s0 :=
  let n := g.st.seq
  let object := objKey v.ctx.toNat p.object.toNat
  let l : Launch :=
    { ctx := v.ctx.toNat, object := object, kernel := p.kernel.toNat, home := none, homeNo := n, counter := 1, prio := v.cls.toNat
      args := p.args, done := p.done, doneVal := p.doneVal, retry := b.retry, idem := b.idem, stack := b.stack
      pool := BitVec.ofNat 64 b.pool, reported := [], gwct := 0, broken := false, reports := [] }
  let d : Pend :=
    { launch := n, grid := n, kernel := p.kernel.toNat, object := object, ctx := v.ctx.toNat, prio := v.cls.toNat, time := g.st.now
      order := n, next := 0, last := 1, nteams := 1, args := p.args, key := [], clock := 0, relaunches := 0, gang := 0, peers := [] }
  let g := (g.put .seq).put (.launch n (some l))
  issued (g.put (.pends (g.st.pends ++ [d]))) q (some { v.run with launch := some n })

/-- LAUNCH (R399). -/
def launchBody (p : LaunchPkt) (q : Nat) (v : Queue) (g : Go s0) : Go s0 :=
  let ctx := v.ctx.toNat
  if 4096 ≤ g.st.frontEnd then g
  else
    let named := if (g.st.launchKernel ctx p.object.toNat p.kernel.toNat).isNone then [5] else []
    let place := if p.args.toNat % 8 ≠ 0 || p.done.toNat % 4 ≠ 0 || p.params.toNat % 64 ≠ 0 then [2] else []
    if p.params.toNat % 64 ≠ 0 then orHalt g q v 1 (named ++ place) g
    else
      match agentRead g (queueKey q 1) ctx p.params.toNat 64 with
      | (.wait, g) => g
      | (.bad, g) => orHalt g q v 1 (named ++ place ++ [4]) g
      | (.bytes bs, g) =>
        let n := leNat bs
        orHalt g q v 1 (named ++ place ++ if lpbOk (g.st.ctx ctx) n then [] else [2]) (startLaunch g q v p (lpbOf n))

/-- WSET (R400). -/
def wsetBody (p : WsetPkt) (q : Nat) (v : Queue) (g : Go s0) : Go s0 :=
  let ctx := v.ctx.toNat
  let set := p.set.toNat
  if 4096 ≤ g.st.frontEnd then g
  else
    let busy := if g.st.setBusy ctx set then [6] else []
    match readSet g ctx set with
    | (none, g) => orHalt g q v 2 (busy ++ [7]) g
    | (some (_, ps), g) =>
      let tag := g.st.seq
      orHalt g q v 2 busy
        (startSet (issued (g.put .seq) q (some { v.run with set := some set }))
          { ctx := ctx, set := set, peers := ps, origin := none, tag := tag, queue := some (q, v.next) } p.arg)

/-- COPY (R401). -/
def copyPacketBody (p : CopyPkt) (q : Nat) (v : Queue) (g : Go s0) : Go s0 :=
  let ctx := v.ctx.toNat
  let n := p.len.toNat
  let src := p.src.toNat
  let dst := p.dst.toNat
  let range := if n = 0 || rangesMeet false false src dst n n then [2] else []
  let ((es, ps), g) := rangePieces g [] ctx src n false (n / 2 ^ 16 + 2)
  let ((es', ps), g) := piecePeers g ctx src false ps
  let ((ed, pd), g) := rangePieces g [] ctx dst n true (n / 2 ^ 16 + 2)
  let ((ed', pd), g) := piecePeers g ctx dst true pd
  let id := g.st.seq
  orHalt g q v 3 (range ++ if (es ++ es' ++ ed ++ ed').isEmpty then [] else [4])
    (issued ((g.put .seq).put (.engine id (some (agentOp ctx [{ src := ps, dst := pd, sbase := src, dbase := dst, len := n }])))) q
      (some { v.run with op := some id }))

/-- Is the condition of a WAITV met (R402)? -/
def WaitvPkt.met (p : WaitvPkt) (word : Nat) : Bool :=
  let m := if p.size then 2 ^ 64 else 2 ^ 32
  flagHolds p.cond (word &&& (p.mask.toNat % m)) (p.value.toNat % m)

/-- WAITV (R402): one read of its word. -/
def waitvBody (p : WaitvPkt) (q : Nat) (v : Queue) (g : Go s0) : Go s0 :=
  let n := if p.size then 8 else 4
  let a := p.addr.toNat
  if a % n ≠ 0 then orHalt g q v 4 [2] g
  else
    let waits := fun g : Go s0 => putQ g q { v with waiting := true, saved := some (1, BitVec.ofNat 512 ((encodePacket (.waitv p)).getD 0)) }
    match agentRead g (queueKey q 2) v.ctx.toNat a n with
    | (.wait, g) => orHalt g q v 4 [] (waits g)
    | (.bad, g) => orHalt g q v 4 [4] g
    | (.bytes bs, g) => orHalt g q v 4 [] (if WaitvPkt.met p (leNat bs) then issued g q none else waits g)

/-- FENCE (R404). -/
def fencePacketBody (q : Nat) (v : Queue) (g : Go s0) : Go s0 :=
  orHalt g q v 6 [] (if v.runs.isEmpty then issued g q none else putQ g q { v with waiting := true, saved := some (2, 6) })

/-- REPLAY (R404, R439). -/
def replayBody (q : Nat) (v : Queue) (g : Go s0) : Go s0 := orHalt g q v 7 [] (replayAll (issued g q none) v.ctx.toNat)

/-- NOPK (R404). -/
def nopkBody (q : Nat) (v : Queue) (g : Go s0) : Go s0 := orHalt g q v 8 [] (issued g q none)

/-- A store or add of `n` bytes that an agent of no core sends as a `.fab` release: at its home, with the first fabric time past its
completion, or by a pass of the engine operation `key` (R295, R403). -/
def agentWrite (g : Go s0) (key ctx n x : Nat) (add : Bool) (loc : Loc) (peers : List Nat) : Nat × Go s0 :=
  match loc with
  | .far _ va =>
    let e : EngOp := (agentOp ctx []).sends g.st.seq peers
    let lanes : List PassLane := [{ lane := 0, addr := va, data := x, expect := 0 }]
    let ty : Ty := if add then (if n = 8 then .n64 else .n32) else if n = 8 then .b64 else .b32
    (0, enginePass (g.put (.engine key (some e))) 640 key 0 e (if add then .ratom else .rst) ty peers lanes (if add then .add else .store))
  | .home k =>
    let old := leNat (g.st.bytesAt k n)
    let g := homeStore g { scope := 5 } (cellsFrom k (leBytes ((if add then old + x else x) % 2 ^ (8 * n)) n))
    ((g.st.gwctOf [lineOf k] false).2 + 1, g)
  | .scratch .. => (0, g)

/-- Checks a word that an agent of no core writes (R220, R431): its place, with the peers and the target's address of a FABRIC-WINDOW
page. -/
def agentPlace (g : Go s0) (ctx a n : Nat) : Option (Loc × List Nat) × Go s0 :=
  match placeOf g [] ctx a n true with
  | (.cause .., g) => (none, g)
  | (.at_ (.far p va) e, g) =>
    match farPeers g ctx e true with
    | (.error _, g) => (none, g)
    | (.ok (ps, _), g) => (some (.far p (va + BitVec.ofNat 64 (bitf a 60 4 * 2 ^ 60)), ps), g)
  | (.at_ loc _, g) => (some (loc, []), g)

/-- SIGNAL (R403): every packet that has completed, completed after fabric time had passed its accesses. -/
def signalBody (p : SignalPkt) (q : Nat) (v : Queue) (g : Go s0) : Go s0 :=
  let n := if p.size then 8 else 4
  let a := p.addr.toNat
  if a % n ≠ 0 then orHalt g q v 5 [2] g
  else
    match agentPlace g v.ctx.toNat a n with
    | (none, g) => orHalt g q v 5 [4] g
    | (some (loc, peers), g) =>
      let id := g.st.seq
      let (t, g') := agentWrite (g.put .seq) id v.ctx.toNat n p.value.toNat p.add loc peers
      orHalt g q v 5 [] (issued g' q (some { v.run with op := if Loc.isFar loc then some id else none, gwct := t, signal := true, irq := p.irq }))

def execLaunch (p : LaunchPkt) (s : State) : Host.Outcome State Fault Refusal := packetStep s (launchBody p)
def execWset (p : WsetPkt) (s : State) : Host.Outcome State Fault Refusal := packetStep s (wsetBody p)
def execCopyPacket (p : CopyPkt) (s : State) : Host.Outcome State Fault Refusal := packetStep s (copyPacketBody p)
def execWaitv (p : WaitvPkt) (s : State) : Host.Outcome State Fault Refusal := packetStep s (waitvBody p)
def execSignal (p : SignalPkt) (s : State) : Host.Outcome State Fault Refusal := packetStep s (signalBody p)
def execFencePacket (s : State) : Host.Outcome State Fault Refusal := packetStep s fencePacketBody
def execReplay (s : State) : Host.Outcome State Fault Refusal := packetStep s replayBody
def execNopk (s : State) : Host.Outcome State Fault Refusal := packetStep s nopkBody

/-- WAITV_REREAD (R402): the wait unit reads the word of a mapped queue again. -/
def execWaitvReread (q : Nat) (s : State) : Host.Outcome State Fault Refusal :=
  let v := s.queue q
  match v.saved with
  | some (1, w) =>
    (match decodePacket w.toNat with
    | .ok (.waitv p) => if v.mapped && v.en && !v.halted then (waitvBody p q v (Go.start s)).done else .next s
    | _ => .next s)
  | _ => .next s

/-! ### Completion -/

/-- Has an engine operation of no core ended (R398)? -/
def State.agentDone (s : State) (id : Nat) : Bool :=
  match Tab.find s.engines id with
  | some e => e.left.isEmpty && e.far.isEmpty && e.gwctFab ≤ s.now && !s.agentBusy id
  | none => true

/-- Did another module refuse a pass of a packet's engine operation (R435)? -/
def State.agentRefused (s : State) (id : Nat) : Bool :=
  match Tab.find s.engines id with
  | some e => e.refused != 0
  | none => false

/-- A packet whose accesses ended at another module, with its engine operation: refused there, it halts its queue with error 4 (R435; log
66). -/
def agentEnd (g : Go s0) (q no ty id : Nat) (ok : Go s0 → Go s0) : Go s0 :=
  let g' := packetDone (g.put (.engine id none)) q no
  if g.st.agentRefused id then queueHalt g' q 4 ty else ok g'

/-- COPY_PACKET_COMPLETE (R398, R401). -/
def execCopyPacketComplete (q n : Nat) (s : State) : Host.Outcome State Fault Refusal :=
  match (s.queue q).runs.find? fun r => r.no == n with
  | some r =>
    (match r.op with
    | some id => if !r.signal && s.agentDone id then (agentEnd (Go.start s) q n 3 id fun g => g).done else .next s
    | none => .next s)
  | none => .next s

/-- SIGNAL_COMPLETE (R398, R403). -/
def execSignalComplete (q n : Nat) (s : State) : Host.Outcome State Fault Refusal :=
  let v := s.queue q
  match v.runs.find? fun r => r.no == n with
  | some r =>
    let due := match r.op with
      | some id => s.agentDone id
      | none => r.gwct ≤ s.now
    if r.signal && due then
      let irq := fun g : Go s => if r.irq then send g (.msix v.vi.toNat v.msix.toNat) else g
      (match r.op with
      | some id => agentEnd (Go.start s) q n 5 id irq
      | none => irq (packetDone (Go.start s) q n)).done
    else .next s
  | none => .next s

/-- The completion of a launch is reported (R63, R396): its packet completes and the counter goes. -/
def launchEnd (g : Go s0) (n : Nat) (l : Launch) (failed : Bool) : Go s0 :=
  let g := if failed then sendRecord g l.ctx (FaultRec.event 3 3 0 l.done.toNat g.st.now) else g
  let g := g.each g.st.queues fun e g => g.each (e.2.runs.filter fun r => r.launch == some n) fun r g => packetDone g e.1 r.no
  g.put (.launch n none)

/-- The engine operation that writes LCH.DONE on another module. -/
def doneKey (n : Nat) : Nat := 2 ^ 62 + n

/-- LAUNCH_COMPLETE (R63, R399). -/
def execLaunchComplete (n : Nat) (s : State) : Host.Outcome State Fault Refusal :=
  match Tab.find s.launches n with
  | none => .next s
  | some l =>
    if l.home.isSome || l.counter ≠ 0 || l.broken || s.now ≤ l.gwct || s.orphaned n then .next s
    else if l.done = 0 then (launchEnd (Go.start s) n l false).done
    else
      match Tab.find s.engines (doneKey n) with
      | some e =>
        if e.far.isEmpty && !s.agentBusy (doneKey n) then (launchEnd ((Go.start s).put (.engine (doneKey n) none)) n l (e.refused ≠ 0)).done
        else .next s
      | none =>
        match agentPlace (Go.start s) l.ctx l.done.toNat 4 with
        | (none, g) => (launchEnd g n l true).done
        | (some (loc, peers), g) =>
          let (_, g) := agentWrite g (doneKey n) l.ctx 4 l.doneVal.toNat false loc peers
          (if Loc.isFar loc then g else launchEnd g n l false).done

end Sys2Proof.Machine
end

