-- ==== Sys2Proof/Machine/Distrib.lean ====
section
/-! DEFINITION. The distributor (R416 to R425): what fits where, placement, pre-emption and restoration, gangs, and the
co-location measurement. -/

namespace Sys2Proof.Machine

open Sys2Proof

variable {s0 : State}

/-! ### What a core holds -/

/-- Does a team hold its places? A saved one does until its cores are freed (R421). -/
def Team.present (t : Team) : Bool := !t.saved || t.leaving

/-- The crews that occupy places: the resident ones, and those of saved teams that have not left. -/
def State.residents (s : State) : List (Nat × Crew) :=
  s.crews ++ (s.saved.map fun e =>
    match s.team? (e.1 / 2) with
    | some t => if e.2.kind = 1 && t.leaving then e.2.crews else []
    | none => []).flatten

/-- Slot rows of a crew (R21). -/
def Crew.rows (c : Crew) : Nat := c.width / 32 * c.wrows

/-- Rows in use on a slot, numbered 8 * core + slot. -/
def State.slotRows (s : State) (n : Nat) : Nat := s.residents.foldl (fun a e => if e.1 / 8 = n then a + e.2.rows else a) 0

/-- The teams that hold a core. -/
def State.teamsOn (s : State) (core : Nat) : List (Nat × Team) := s.teams.filter fun e => e.2.present && e.2.cores.contains core
/-- The crews on a core. -/
def State.crewsOn (s : State) (core : Nat) : List (Nat × Crew) := s.residents.filter fun e => placeCore e.1 == core

/-- The scratch that a team holds on each of its cores (R28). -/
def Team.scratchShare (t : Team) : Nat := if t.pair then t.scratchSize / 2 else t.scratchSize

/-- Scratch in use on a core (R28). -/
def State.scratchUsed (s : State) (core : Nat) : Nat := (s.teamsOn core).foldl (fun a e => a + e.2.scratchShare) 0

/-- The resources of a core, in the layout of R417; a core of no partition has no free scratch, as at reset. -/
def State.coreWord (s : State) (core : Nat) : Nat :=
  let c := s.coreOf core
  (if c.heldBy.isSome then 1 else 0) + (if c.reserved then 2 else 0) + (if c.vacating then 4 else 0)
    + 2 ^ 16 * (if (s.partOfCore core).isSome then (s.scratchPart core - s.scratchUsed core) / 65536 else 0) + 2 ^ 24 * s.freeTiles core
    + 2 ^ 32 * (s.crewsOn core).length + 2 ^ 40 * (s.teamsOn core).length

/-! ### What fits (R24, R25) -/

/-- Crews that a kernel's team has; the seed has one (R26). -/
def Pend.crews (p : Pend) (kd : Kd) : Nat := if p.clock = 0 then 1 else kd.crews

/-- A kernel's scratch, rounded (R28). -/
def Kd.scratchSize (kd : Kd) : Nat := (kd.scratch + 4095) / 4096 * 4096
def Kd.rows (kd : Kd) : Nat := kd.width / 32 * kd.wrows

/-- The cores of a team whose first core is `core`. -/
def teamCoresAt (pair : Bool) (core : Nat) : List Nat := if pair then [core, core + 1] else [core]

/-- Free crew contexts of a slot for crews of `need` rows (R19, R21). -/
def State.slotRoom (s : State) (n need : Nat) : Nat :=
  min (8 - (s.residents.filter fun e => e.1 / 8 == n).length) ((512 - s.slotRows n) / max 1 need)
def State.coreRoom (s : State) (need core : Nat) : Nat :=
  (List.range 8).foldl (fun a k => a + s.slotRoom (8 * core + k) need) 0

/-- Does a team of `n` crews fit the cores now (R24, R25, R27)? -/
def State.fits (s : State) (kd : Kd) (n : Nat) (cores : List Nat) : Bool :=
  kd.scratchSize ≤ scratchLimit kd.pair
  && (cores.all fun c =>
    s.scratchUsed c + kd.scratchSize / (if kd.pair then 2 else 1) ≤ s.scratchPart c && kd.tiles ≤ s.freeTiles c)
  && 1 ≤ s.coreRoom kd.rows (cores.headD 0)
  && n ≤ cores.foldl (fun a c => a + s.coreRoom kd.rows c) 0

/-- A core that takes new teams: outside held, reserved and vacating windows (R416, R425). -/
def State.coreOpen (s : State) (c : Nat) : Bool :=
  let v := s.coreOf c
  !v.vacating && !v.reserved && v.heldBy.isNone

/-- The first cores at which a team could stand: even ones for a pair. -/
def dieStarts (pair : Bool) (d : Nat) : List Nat := if pair then (List.range 40).map fun n => 80 * d + 2 * n else (List.range 80).map fun n => 80 * d + n

/-- The places that take a team of a kernel now. -/
def State.openCores (s : State) (ctx : Nat) (kd : Kd) (n : Nat) : List Nat :=
  ((s.ctxDies ctx).map (dieStarts kd.pair)).flatten.filter fun c =>
    (teamCoresAt kd.pair c).all s.coreOpen && s.fits kd n (teamCoresAt kd.pair c)

/-- One of several choices that are left open. -/
def pick (s : State) (kind key : Nat) (xs : List Nat) : Option Nat :=
  xs[if xs.length < 2 then 0 else Config.freeNat (s.salt kind key) % xs.length]?

/-- The co-location class of a kernel (R425). -/
def State.colClass (s : State) (object kernel : Nat) : Option Bool := (Tab.find s.coloc (object * 2 ^ 32 + kernel)).bind fun v => v.cls

/-- Crews of the opposite class on the cores of a place (R425). -/
def State.opposite (s : State) (cls : Option Bool) (cores : List Nat) : Nat :=
  match cls with
  | none => 0
  | some b => ((s.residents.filter fun e => cores.contains (placeCore e.1)).filter fun e =>
      match s.team? e.2.team with
      | some t => s.colClass t.object t.kernel == some !b
      | none => false).length

/-- Where a team is placed among the places that take it (R425): with COL.EN = 0 that is left open. -/
def State.chooseCore (s : State) (p : Pend) (kd : Kd) (cands : List Nat) : Option Nat :=
  if (s.part (s.ctx p.ctx).part.toNat).colEn then
    let cls := s.colClass p.object p.kernel
    let better := fun a b : Nat =>
      let x := s.opposite cls (teamCoresAt kd.pair a)
      let y := s.opposite cls (teamCoresAt kd.pair b)
      let n := ((teamCoresAt kd.pair a).map fun c => (s.crewsOn c).length).sum
      let m := ((teamCoresAt kd.pair b).map fun c => (s.crewsOn c).length).sum
      y < x || (x == y && (n < m || (n == m && a < b)))
    cands.foldl (fun (m : Option Nat) c => match m with
      | some b => if better c b then some c else some b
      | none => some c) none
  else pick s 65 p.order cands

/-! ### Placement -/

/-- The free places on cores for a crew of `need` rows. -/
def State.freePlaces (s : State) (cores : List Nat) (need : Nat) : List Nat :=
  ((cores.map fun c => (List.range 64).map fun n => 64 * c + n).flatten).filter fun x =>
    s.slotRows (x / 8) + need ≤ 512 && !s.residents.any fun e => e.1 == x

/-- A crew's stack (R406): its base and top at place `x`. -/
def stackAt (c : Ctx) (l : Launch) (x : Nat) : Nat × Nat :=
  let base := if l.pool ≠ 0 then l.pool.toNat + x * l.stack
    else c.stackPool.toNat + x * c.stackMax.toNat + c.stackMax.toNat - l.stack
  (base, base + l.stack)

/-- A crew at its first instruction (R38, R42). -/
def newCrew (s : State) (p : Pend) (kd : Kd) (l : Launch) (team k no x : Nat) : Crew :=
  let (base, top) := stackAt (s.ctx p.ctx) l x
  let cyc := Tab.get 0 s.cycles (x / 8)
  let sp : Split :=
    { st := .ready, pc := BitVec.ofNat 56 kd.entry.toNat, mask := laneMask kd.width, fmt := 0x880, wbase := 0, depth := 0, join := none
      clock := p.clock, mstack := [], mspill := [], frames := [], wait := .none, run := 0, held := .ready, faulted := false
      trapped := false, windows := [], latchA := none, latchB := none }
  let c : Crew :=
    { inst := s.mod.modid * 2 ^ 40 + s.seq + 1, ctx := p.ctx, team := team, crewNo := no, width := kd.width, wrows := kd.wrows
      entryF := kd.frame, st := .running, splits := [(0, sp)], joins := [], v := [], s := [], p := [], lay := [], lstat := [], gmod := 0
      gfab := 0, minGrant := s.now, open_ := [], openOff := false, openGm := 0, openGf := 0, openPoison := false, closed := 0, done := 0
      batches := [], poisonBatch := [], claimSeq := 0, handles := [], spillTop := BitVec.ofNat 64 base, stackBase := BitVec.ofNat 64 base
      stackTop := BitVec.ofNat 64 top, loadq := [], storeq := [], targets := [], sent := [], totals := [], exited := 0, age := cyc
      passed := cyc, boosted := false, yielded := false, uncov := [], frec := none, recSent := false, unsent := [], fb := false, replayed := false
      key := crewKey (p.teamKey k) no, vc := [], epoch := 0, seen := [], order := [], arriving := [] }
  (c.setUni 1 p.args.toNat).setUni 63 top

/-- Places crews `no` to `no + n - 1` of a team, crew 0 on the leader core (R416). -/
def placeCrews (g : Go s0) (p : Pend) (kd : Kd) (l : Launch) (team k : Nat) (cores : List Nat) : Nat → Nat → List Nat → List Nat × Go s0
  | 0, _, xs => (xs, g)
  | n + 1, no, xs =>
    match pick g.st 66 no (g.st.freePlaces (if no = 0 then cores.take 1 else cores) kd.rows) with
    | none => (xs, g)
    | some x =>
      let g := (g.put (.crew x (some (newCrew g.st p kd l team k no x)))).put .seq
      placeCrews g p kd l team k cores n (no + 1) (xs ++ [x])

/-- A free team slot of a core. -/
def State.freeSlot (s : State) (core : Nat) : Nat :=
  let used := (s.teamsOn core).map fun e => ((e.2.cores.zip e.2.slots).find? fun z => z.1 == core).map Prod.snd
  (pick s 67 core ((List.range 256).filter fun n => !used.contains (some n))).getD 0

/-- Places team `k` of a batch on cores that it fits (R29, R38, R288, R416). -/
def placeTeam (g : Go s0) (p : Pend) (kd : Kd) (l : Launch) (k : Nat) (cores : List Nat) (gang : Option Nat) (rank size : Nat)
    (started : Bool) : Go s0 :=
  let t := g.st.seq
  let tm : Team :=
    { launch := p.launch, grid := p.grid, teamNo := k, nteams := p.nteams, kernel := p.kernel, object := p.object, ctx := p.ctx
      pair := kd.pair, cores := cores, slots := cores.map g.st.freeSlot, crews := [], ncrews := p.crews kd, scratchSize := kd.scratchSize
      scratch := [], poison := [], guards := [], knots := [], bars := [], tilesHeld := BitVec.ofNat 16 (2 ^ kd.tiles - 1), tiles := []
      opq := [], tileq := [], spilled := false, gang := gang, rank := rank, gangSize := size, detached := false, gdetach := []
      gdetachClock := 0, lost := false, gwct := 0, relaunchOk := true, relaunches := p.relaunches, key := p.teamKey k
      startClock := p.clock, args := p.args, prio := p.prio, order := t, saved := false, wlog := [], tracks := [], started := started
      leaving := false }
  let g := (g.put .seq).put (.team t (some tm))
  let (xs, g) := placeCrews g p kd l t k cores (p.crews kd) 0 []
  modTeam g t fun tm => { tm with crews := xs }

/-! ### Pre-emption (R423) -/

/-- Does a `csave` that came first still save the crew (R384)? Its own crew is there and runs. -/
def State.saving (s : State) (c : Crew) : Bool :=
  match if c.saver.isSome then c.saver else c.asked with
  | some inst => s.crews.any fun e => e.2.inst == inst && e.2.st == .running && s.teamRuns e.2
  | none => false

/-- Has everything ended that a pre-emption waits for (R62, R70, R270, R384, R386)? -/
def State.drained (s : State) (t : Nat) : Bool :=
  (s.crews.all fun e => e.2.team != t ||
    (!s.saving e.2 && e.2.st != .draining && e.2.loadq.isEmpty && e.2.storeq.isEmpty && e.2.sent.isEmpty
      && !(s.passes.any fun p => p.2.pass.crew == e.2.inst) && !(s.announces.any fun a => a.2.inst == e.2.inst)))
  && !(s.cores.any fun c => c.2.ops.any fun o => o.2.team == t)

/-- Begins to pre-empt a team: its crews issue no more, and its work drains. -/
def beginLeave (g : Go s0) (t : Nat) : Go s0 :=
  modTeam g t fun tm => if tm.saved || tm.lost then tm else { tm with started := false, leaving := true }

/-- A core whose pre-empted teams have left takes new teams again where no vacate in progress names it. -/
def coresFreed (g : Go s0) (cores : List Nat) : Go s0 :=
  g.each cores fun c g =>
    let dv := (List.range 8).any fun p => (g.st.part p).dvCores.contains c
    if dv || (g.st.teamsOn c).any (fun e => e.2.leaving) then g else modCore g c fun v => { v with vacating := false }

/-- Does a vacate still wait for a team: one that is leaving, or a member of a gang whose modules save it (R421)? In a faulted context
nothing more leaves (R392). -/
def State.vacateWaits (s : State) (t : Team) : Bool := t.leaving || ((s.memberOf t).isSome && (s.ctx t.ctx).state != 2)

/-- Ends a vacate whose teams have left (R417, R423): DV.DONE is the number of its cores that are free. -/
def endVacate (g : Go s0) (p : Nat) : Go s0 :=
  let v := g.st.part p
  if v.dvBusy && v.dvCores.all fun c => !(g.st.teamsOn c).any fun e => g.st.vacateWaits e.2 then
    let free := (v.dvCores.filter fun c => (g.st.teamsOn c).isEmpty).length
    let g := g.put (.part p { v with dvBusy := false, dvDone := free, dvCores := [] })
    coresFreed g v.dvCores
  else g

/-- Tells the module of a gang's coordinator, or a member module, something about it (R419). -/
def tell (g : Go s0) (peer : Nat) (what : String) (n : Nat) (ev : Instr) : Go s0 := toPeer g peer (.gang peer what n) ev

/-- The image of a drained team is written (R385, R424); without room for it the context faults (R392). Crews, places and range locks go
with it; a gang member keeps its places until every member is saved (R421). -/
def preemptTeam (g : Go s0) (t : Nat) : Go s0 :=
  match g.st.team? t with
  | none => g
  | some tm =>
    let crews := g.st.crews.filter fun e => e.2.team == t
    match saveImage g t 1 crews ((g.st.coreOf (tm.cores.headD 0)).ranges.filter fun r => r.team == t) with
    | none => modTeam (contextFault g tm.ctx (g.st.firstCrew t)) t fun tm => { tm with started := true, leaving := false }
    | some g =>
      let g := g.each crews fun e g => g.put (.crew e.1 none)
      let g := g.each tm.cores fun c g => modCore g c fun v => { v with ranges := v.ranges.filter fun r => r.team != t }
      let gang := g.st.memberOf tm
      let g := modTeam g t fun tm =>
        { tm with saved := true, leaving := gang.isSome, opq := tm.opq.map fun (o : MatOp) => { o with running := false } }
      match gang with
      | none => runTiles (coresFreed g tm.cores)
      | some n => tellSaved g n

/-- A team that is leaving and has drained, of a partition (15: the module service context's). -/
def State.leaver (s : State) (part : Nat) : Option Nat :=
  (s.teams.find? fun e => e.2.leaving && !e.2.saved && (s.ctx e.2.ctx).part.toNat == part && s.drained e.1).map Prod.fst

/-- DV.GO (R423): the cores are chosen, and the teams that hold them leave. -/
def dvStart (g : Go s0) (p : Nat) (x : Word) : Go s0 :=
  let n := bitf x.toNat 0 10
  let cls := bitf x.toNat 16 2
  let v := g.st.part p
  if bitf x.toNat 63 1 = 0 || v.dvBusy || n = 0 || 640 < n then g
  else
    let dies := (List.range 8).filter fun d => v.dies.getLsbD d
    let cands := ((dies.map (dieStarts false)).flatten.filter fun c => (g.st.teamsOn c).all fun e => cls < e.2.prio)
    let cores := cands.take n
    let g := g.put (.part p { v with dvBusy := true, dvDone := 0, dvCores := cores })
    let g := g.each cores fun c g => modCore g c fun u => { u with vacating := true }
    let g := g.each (g.st.teams.filter fun e => e.2.present && e.2.cores.any fun c => cores.contains c) fun e g =>
      match (g.st.memberOf e.2).bind fun n => (Tab.find g.st.gangs n).map fun gg => (n, gg) with
      | some (n, gg) => tell g gg.coord "save" n (.gangSave n)
      | none => beginLeave g e.1
    endVacate g p

/-- DV_GO (R417, R423). -/
def execDvGo (p : Nat) (x : Word) (s : State) : Host.Outcome State Fault Refusal := (dvStart (Go.start s) p x).done

/-! ### Restoration (R388) -/

/-- A gang's key (R419): is `a` older than `b`? -/
def Gang.older (a b : Gang) : Bool :=
  a.time < b.time || (a.time == b.time && (a.coord < b.coord || (a.coord == b.coord && a.no < b.no)))

/-- Is what is held for a gang released for gang `n` (R419 step 3)? -/
def State.holdYields (s : State) (n y : Nat) : Bool :=
  match Tab.find s.gangs n, Tab.find s.gangs y with
  | some gg, some yy => n == y || (gg.older yy && !yy.committed)
  | _, _ => false

/-- Are the places of a saved team free? `n` is the gang for which they may be held. -/
def State.placesFree (s : State) (t : Nat) (n : Option Nat) : Bool :=
  match s.team? t, Tab.find s.saved (2 * t + 1) with
  | some tm, some v =>
    tm.saved && !tm.leaving
      && (tm.cores.all fun c =>
        let u := s.coreOf c
        u.ranges.length + v.locks.length ≤ 32 && !u.vacating && (!u.reserved || n.isSome) && (match u.heldBy with | none => true | some y => (match n with | some n => s.holdYields n y | none => false))
          && s.scratchUsed c + tm.scratchShare ≤ s.scratchPart c
          && (tm.spilled || popCount tm.tilesHeld.toNat 16 ≤ s.freeTiles c))
      && ((tm.cores.zip tm.slots).all fun z => !(s.teamsOn z.1).any fun e => (e.2.cores.zip e.2.slots).contains z)
      && (v.crews.all fun e => !s.residents.any fun r => r.1 == e.1)
      && (distinct (v.crews.map fun e => e.1 / 8)).all fun k =>
        s.slotRows k + (v.crews.foldl (fun a e => if e.1 / 8 = k then a + e.2.rows else a) 0) ≤ 512
  | _, _ => false

/-- A saved team comes back to its places (R388) as it was saved, whatever the bytes of its save area hold by then (DESIGN CHOICE, unsafe, log 78); its crews test their waits again (R70), and one stopped on cause 6 goes on where a
replay-all came meanwhile (R440) and its context is not faulted (R392). -/
def restoreTeam (g : Go s0) (t : Nat) (started : Bool) : Go s0 :=
  match Tab.find g.st.saved (2 * t + 1) with
  | none => g
  | some v =>
    let g := dropImage g t 1
    let g := g.each v.crews fun e g => readyFrom (g.put (.crew e.1 (some e.2))) e.1
    let g := g.each (g.st.teamCores t) fun c g => modCore g c fun u => { u with ranges := u.ranges ++ v.locks }
    let g := modTeam g t fun tm => { tm with saved := false, started := started }
    g.each v.crews fun e g =>
      if e.2.onMiss && e.2.replayed && (g.st.ctx e.2.ctx).state != 2 then resumeCrew g e.1 false else retest g e.1

/-! ### Gangs (R418 to R422) -/

/-- The ranks on this module, in order. -/
def State.localRanks (s : State) (gg : Gang) : List Nat := (List.range gg.members.length).filter fun r => gg.members[r]? == some s.mod.modid

/-- The loaded object of a gang's kernel (R419): one named by its portable hash is looked for until the module holds it. -/
def State.gangObject (s : State) (p : Pend) : Option Nat :=
  if p.object < 2 ^ 128 then some p.object
  else (s.objs.find? fun e => e.2.ctx == p.ctx && e.2.portable.toNat == p.object - 2 ^ 128 && !e.2.retired).map Prod.fst

/-- The first cores of a window of `m` members, and all its cores. -/
def windowStarts (pair : Bool) (first m : Nat) : List Nat := (List.range m).map fun i => first + (if pair then 2 else 1) * i
def windowCores (pair : Bool) (first m : Nat) : List Nat := ((windowStarts pair first m).map (teamCoresAt pair)).flatten

/-- The windows of a die for `m` members. -/
def dieWindows (pair : Bool) (m d : Nat) : List Nat := (dieStarts pair d).filter fun c => c + (if pair then 2 else 1) * m ≤ 80 * d + 80

/-- Is a core in the window that a gang reserved? -/
def Gang.reservedHere (gg : Gang) (pair : Bool) (m c : Nat) : Bool :=
  match gg.reservedAt with
  | some (first, _) => (windowCores pair first m).contains c
  | none => false

/-- May a gang hold the core: no member of another gang is there, nothing keeps it, or only a younger gang that has not committed? -/
def State.coreFor (s : State) (n : Nat) (gg : Gang) (pair : Bool) (m : Nat) (steal : Bool) (c : Nat) : Bool :=
  let v := s.coreOf c
  !v.vacating && (!v.reserved || gg.reservedHere pair m c) && !(s.teamsOn c).any (fun e => (s.memberOf e.2).isSome)
    && (match v.heldBy with
      | none => true
      | some y => y == n || (steal && s.holdYields n y))

/-- The windows that can take a gang's members now (R418, R419). -/
def State.windowsFor (s : State) (n : Nat) (gg : Gang) (kd : Kd) (m : Nat) (steal : Bool) : List Nat :=
  (((s.ctxDies gg.pend.ctx).map (dieWindows kd.pair m)).flatten).filter fun first =>
    (windowCores kd.pair first m).all (s.coreFor n gg kd.pair m steal)
      && (windowStarts kd.pair first m).all fun c => s.fits kd kd.crews (teamCoresAt kd.pair c)

/-- The cores held for a gang. -/
def State.heldCores (s : State) (n : Nat) : List Nat := (s.cores.filter fun e => e.2.heldBy == some n).map Prod.fst

/-- Lets go of what is held for a gang. -/
def unhold (g : Go s0) (n : Nat) : Go s0 := g.each (g.st.heldCores n) fun c g => modCore g c fun v => { v with heldBy := none }

/-- A younger gang's hold is released for an older gang, and its coordinator hears of it (R419 step 3). -/
def releaseHold (g : Go s0) (y : Nat) : Go s0 :=
  match Tab.find g.st.gangs y with
  | none => g
  | some yy =>
    let g := (unhold g y).put (.gang y (some { yy with window := none }))
    tell g yy.coord "released" y (.holdReleaseNotice y { sender := g.st.mod.modid, member := none })

/-- Holds cores for a gang from `first` on, and answers HELD (R419 step 2). -/
def holdWindow (g : Go s0) (n : Nat) (gg : Gang) (first : Nat) (cores reserved : List Nat) : Go s0 :=
  let losers := distinct (cores.filterMap fun c => (g.st.coreOf c).heldBy)
  let g := g.each (losers.filter fun y => y != n) fun y g => releaseHold g y
  let g := g.each reserved fun c g => modCore g c fun v => { v with reserved := false }
  let g := g.each cores fun c g => modCore g c fun v => { v with heldBy := some n }
  let g := g.put (.gang n (some { gg with window := some first, reservedAt := none, st := if gg.st = .saved then .saved else .reserving }))
  tell g gg.coord "held" n (.held n g.st.mod.modid)

/-- The window that a member module would hold now: of a saved gang the recorded places, else a window that takes the members, one
that takes no younger gang's hold where there is one. -/
def State.windowNow (s : State) (n : Nat) (gg : Gang) : Option (Nat × List Nat × List Nat × Nat) :=
  if gg.st = .saved then
    let teams := (Tab.vals gg.teams).filter fun t => match s.team? t with | some m => m.saved | none => false
    let cores := (teams.map s.teamCores).flatten
    if teams.all fun t => s.placesFree t (some n) then some (cores.headD 0, cores, [], 0) else none
  else
    match s.gangObject gg.pend with
    | none => none
    | some o =>
      match s.kd? o gg.pend.kernel with
      | none => none
      | some kd =>
        let m := (s.localRanks gg).length
        let plain := s.windowsFor n gg kd m false
        (pick s 68 n (if plain.isEmpty then s.windowsFor n gg kd m true else plain)).map fun first =>
          (first, windowCores kd.pair first m, match gg.reservedAt with | some (r, _) => windowCores kd.pair r m | none => [], o)

/-- A saved team, or gang, that could come back now and goes ahead of new teams of a class (R423); nothing of a faulted context (R392). -/
def State.returning (s : State) (prio : Nat) : Bool :=
  (s.teams.any fun e => e.2.saved && (s.memberOf e.2).isNone && e.2.prio == prio && (s.ctx e.2.ctx).state != 2 && s.placesFree e.1 none)
    || s.gangs.any fun e => e.2.st == .saved && !e.2.committed && e.2.window.isNone && e.2.pend.prio == prio && (s.ctx e.2.pend.ctx).state != 2
        && (s.windowNow e.1 e.2).isSome

/-- The window that a member module may hold now for a gang: a new gang lets saved teams of its class go first (R423). -/
def State.holdNow (s : State) (n : Nat) (gg : Gang) : Option (Nat × List Nat × List Nat × Nat) :=
  if gg.st != .saved && s.returning gg.pend.prio then none else s.windowNow n gg

/-- A member module looks for a window of a gang that waits (R419 step 2). -/
def tryHold (g : Go s0) (n : Nat) : Go s0 :=
  match Tab.find g.st.gangs n with
  | none => g
  | some gg =>
    if gg.committed || gg.window.isSome || gg.st == .running || gg.st == .closing || (g.st.ctx gg.pend.ctx).state == 2 then g
    else
      match g.st.holdNow n gg with
      | none => g
      | some (first, cores, res, o) =>
        holdWindow g n (if gg.st = .saved then gg else { gg with pend := { gg.pend with object := o } }) first cores res

/-- The record of a launch of another module (R63, R64), made where there is none. -/
def launchHere (g : Go s0) (m : GangMsg) : Nat × Go s0 :=
  if m.home = g.st.mod.modid then (m.launch, g)
  else
    match g.st.launches.find? fun e => e.2.home == some m.home && e.2.homeNo == m.launch with
    | some e => (e.1, g)
    | none =>
      let n := g.st.seq
      let l : Launch :=
        { ctx := m.ctx, object := 2 ^ 128 + m.object, kernel := m.kernel, home := some m.home, homeNo := m.launch, counter := 0, prio := m.prio
          args := m.args, done := 0, doneVal := 0, retry := m.retry, idem := m.idem, stack := m.stack, pool := m.pool, reported := []
          gwct := 0, broken := false, reports := [] }
      (n, (g.put .seq).put (.launch n (some l)))

/-- A gang of another module's coordinator becomes known here. -/
def gangHere (g : Go s0) (m : GangMsg) : Go s0 :=
  if (Tab.find g.st.gangs m.gang).isSome || m.coord = g.st.mod.modid then g
  else
    let (l, g) := launchHere g m
    let p : Pend :=
      { launch := l, grid := m.grid, kernel := m.kernel, object := 2 ^ 128 + m.object, ctx := m.ctx, prio := m.prio, time := m.time
        order := g.st.seq, next := m.first, last := m.first + m.members.length, nteams := m.nteams, args := m.args, key := m.key
        clock := m.clock, relaunches := 0, gang := m.gang, peers := m.members }
    let gg : Gang :=
      { pend := p, first := m.first, time := m.time, coord := m.coord, no := m.no, members := m.members, st := .unplaced, prev := .unplaced
        window := none, committed := false, go := false, heldFrom := [], placedFrom := [], savedFrom := [], since := g.st.now
        reservedAt := none, detached := [], lost := [], teams := [] }
    (g.put .seq).put (.gang m.gang (some gg))

/-- RESERVE (R419 steps 1 and 2). -/
def execReserve (m : GangMsg) (s : State) : Host.Outcome State Fault Refusal := (tryHold (gangHere (Go.start s) m) m.gang).done

/-- A list with one more module in it. -/
def withModule (ms : List Nat) (p : Nat) : List Nat := if ms.contains p then ms else ms ++ [p]

/-- Have all modules of a gang answered? -/
def Gang.heardAll (gg : Gang) (ms : List Nat) : Bool := gg.modules.all fun p => ms.contains p

/-- Something happens to a gang whose coordinator is this module. -/
def coordinate (g : Go s0) (n : Nat) (f : Gang → Go s0) : Go s0 :=
  match Tab.find g.st.gangs n with
  | none => g
  | some gg => if gg.coord = g.st.mod.modid then f gg else g

/-- HELD (R419 step 4): with every module's, COMMIT goes out. -/
def execHeld (n from_ : Nat) (s : State) : Host.Outcome State Fault Refusal :=
  let g := Go.start s
  (coordinate g n fun gg =>
    if gg.committed then g
    else
      let st : GangSt := if gg.st = .unplaced then .reserving else gg.st
      let gg := { gg with heldFrom := withModule gg.heldFrom from_, st := st }
      if gg.heardAll gg.heldFrom then
        (g.put (.gang n (some { gg with committed := true, placedFrom := [] }))).each gg.modules fun p g => tell g p "commit" n (.gangCommit n)
      else g.put (.gang n (some gg))).done

/-- HOLD_RELEASE_NOTICE (R419 step 3, R420): a module let go of what it held, or the member of a rank there has detached or is lost
(R303; log 31). -/
def execHoldReleaseNotice (n : Nat) (from_ : NoticeFrom) (s : State) : Host.Outcome State Fault Refusal :=
  let g := Go.start s
  match from_.member with
  | none =>
    (coordinate g n fun gg =>
      let left := gg.heldFrom.filter fun p => p != from_.sender
      g.put (.gang n (some { gg with heldFrom := left, st := if left.isEmpty && !gg.committed && gg.st = .reserving then .unplaced else gg.st }))).done
  | some rank =>
    match Tab.find s.gangs n with
    | none => .next s
    | some gg => if gg.members[rank]? = some from_.sender && from_.sender ≠ s.mod.modid && !gg.memberDone rank then (memberDetached g n rank).done else .next s

/-- Places the members of a gang in its held window (R419 step 4). -/
def placeMembers (g : Go s0) (n : Nat) (gg : Gang) (kd : Kd) (l : Launch) : List (Nat × Nat) → Go s0
  | [] => g
  | (r, core) :: rest =>
    let t := g.st.seq
    let g := placeTeam g gg.pend kd l (gg.first + r) (teamCoresAt kd.pair core) (some n) r gg.members.length false
    let g := match Tab.find g.st.gangs n with
      | some gg => g.put (.gang n (some { gg with teams := Tab.put gg.teams r t }))
      | none => g
    placeMembers g n gg kd l rest

/-- GANG_COMMIT (R419 step 4): the members are placed in the held window, those of a saved gang keep it held for GO; without the hold
the answer is REFUSED. -/
def execGangCommit (n : Nat) (s : State) : Host.Outcome State Fault Refusal :=
  let g := Go.start s
  let own := s.mod.modid
  match Tab.find s.gangs n with
  | none => .next s
  | some gg =>
    let refuse := fun (_ : Unit) => (tell g gg.coord "refused" n (.refusedMsg n own)).done
    match gg.window with
    | none => refuse ()
    | some first =>
      if gg.st = .saved then
        (tell (g.put (.gang n (some { gg with committed := true }))) gg.coord "placed" n (.placed n own)).done
      else
        match s.kd? gg.pend.object gg.pend.kernel, Tab.find s.launches gg.pend.launch with
        | some kd, some l =>
          let ranks := s.localRanks gg
          let starts := windowStarts kd.pair first ranks.length
          if (s.ctx gg.pend.ctx).state ≠ 2 && starts.all fun c => s.fits kd kd.crews (teamCoresAt kd.pair c) then
            let g := unhold (g.put (.gang n (some { gg with committed := true }))) n
            (tell (placeMembers g n { gg with committed := true } kd l (ranks.zip starts)) gg.coord "placed" n (.placed n own)).done
          else refuse ()
        | _, _ => refuse ()

/-- The gang goes back to step 1 once every module has answered a COMMIT that some module refused (R419 step 5). -/
def restartGang (g : Go s0) (n : Nat) (gg : Gang) : Go s0 :=
  sendReserve (g.put (.gang n (some { gg with heldFrom := [], placedFrom := [] }))) n

/-- PLACED (R419 step 5): with every module's, GO goes out; it puts the gang to running at its coordinator too. -/
def execPlaced (n from_ : Nat) (s : State) : Host.Outcome State Fault Refusal :=
  let g := Go.start s
  (coordinate g n fun gg =>
    let gg := { gg with placedFrom := withModule gg.placedFrom from_ }
    let g := g.put (.gang n (some gg))
    if gg.heardAll gg.placedFrom then
      if gg.committed then g.each gg.parties fun p g => tell g p "go" n (.gangGo n) else restartGang g n gg
    else g).done

/-- REFUSED (R419 step 5): CANCEL goes out. At a coordinator without a member the gang is unplaced again (R420). -/
def execRefusedMsg (n from_ : Nat) (s : State) : Host.Outcome State Fault Refusal :=
  let g := Go.start s
  (coordinate g n fun gg =>
    let first := gg.committed
    let st : GangSt := if first && !gg.modules.contains gg.coord && gg.st = .reserving then .unplaced else gg.st
    let gg := { gg with placedFrom := withModule gg.placedFrom from_, committed := false, st := st }
    let g := g.put (.gang n (some gg))
    let g := if first then g.each gg.modules fun p g => tell g p "cancel" n (.gangCancel n) else g
    if gg.heardAll gg.placedFrom then restartGang g n gg else g).done

/-- GANG_CANCEL (R419 step 5): members that were placed go, before any crew issued. -/
def execGangCancel (n : Nat) (s : State) : Host.Outcome State Fault Refusal :=
  match Tab.find s.gangs n with
  | none => .next s
  | some gg =>
    let g := unhold (Go.start s) n
    if gg.st = .saved then (g.put (.gang n (some { gg with window := none, committed := false }))).done
    else
      let g := g.each (Tab.vals gg.teams) fun t g =>
        (g.each (g.st.crews.filter fun e => e.2.team == t) fun e g => g.put (.crew e.1 none)).put (.team t none)
      (runTiles (g.put (.gang n (some { gg with window := none, committed := false, teams := [], st := .unplaced })))).done

/-- A team's crews may issue from now on (R65, R419). -/
def startTeam (g : Go s0) (t : Nat) : Go s0 :=
  let g := modTeam g t fun m => { m with started := true }
  g.each (g.st.crews.filter fun e => e.2.team == t) fun e g => readyFrom g e.1

/-- GANG_GO (R419 step 5, R420, R421): the members' crews may issue, and the lode window is valid; a saved gang is restored to its
previous state. -/
def execGangGo (n : Nat) (s : State) : Host.Outcome State Fault Refusal :=
  match Tab.find s.gangs n with
  | none => .next s
  | some gg =>
    let g := unhold (Go.start s) n
    let teams := Tab.vals gg.teams
    if gg.st = .saved then
      let st : GangSt := if gg.detached.isEmpty && gg.lost.isEmpty then gg.prev else .closing
      let g := g.put (.gang n (some { gg with st := st, go := true, committed := true }))
      let g := g.each teams fun t g => restoreTeam g t true
      (runTiles (windowCheck g n)).done
    else
      let done := gg.detached.isEmpty && gg.lost.isEmpty
      let g := g.put (.gang n (some { gg with st := if done then .running else .closing, go := true, committed := true, wanted := false }))
      let g := g.each teams fun t g => startTeam g t
      let g := if gg.wanted then tell g gg.coord "save" n (.gangSave n) else g
      (windowCheck g n).done

/-- GANG_SAVE (R421): every member of the gang is saved, on every module; the coordinator tells the others. Before GO the coordinator keeps
it until then. -/
def execGangSave (n : Nat) (s : State) : Host.Outcome State Fault Refusal :=
  let g := Go.start s
  match Tab.find s.gangs n with
  | none => .next s
  | some gg =>
    if gg.st == .running || gg.st == .closing then
      let g := g.put (.gang n (some { gg with st := .saved, prev := gg.st, savedFrom := [], heldFrom := [], placedFrom := [], window := none
                                              committed := false, go := false }))
      let g := g.each (Tab.vals gg.teams) fun t g => beginLeave g t
      let g := if gg.coord = s.mod.modid then
          g.each (gg.modules.filter fun p => p != s.mod.modid) fun p g => tell g p "save" n (.gangSave n)
        else g
      (tellSaved g n).done
    else if gg.coord = s.mod.modid && gg.st != .saved then (g.put (.gang n (some { gg with wanted := true }))).done
    else .next s

/-- The cores of a gang whose members are all saved are freed (R421). -/
def freeSaved (g : Go s0) (gg : Gang) : Go s0 :=
  let g := g.each (Tab.vals gg.teams) fun t g => modTeam g t fun m => { m with leaving := false }
  let g := g.each (Tab.vals gg.teams) fun t g => coresFreed g (g.st.teamCores t)
  runTiles (g.each (List.range 8) fun p g => endVacate g p)

/-- GANG_SAVED (R421): the coordinator gathers SAVED; with every module's, the cores are freed everywhere, and the gang waits to be
restored. A member module hears of it by the coordinator's own SAVED. -/
def execGangSaved (n from_ : Nat) (s : State) : Host.Outcome State Fault Refusal :=
  let g := Go.start s
  match Tab.find s.gangs n with
  | none => .next s
  | some gg =>
    if gg.st ≠ .saved then .next s
    else if gg.coord = s.mod.modid then
      let gg := { gg with savedFrom := withModule gg.savedFrom from_ }
      let g := g.put (.gang n (some gg))
      if gg.heardAll gg.savedFrom then
        let g := g.each (gg.modules.filter fun p => p != s.mod.modid) fun p g => send g (.gang p "saved" n)
        (sendReserve (freeSaved g gg) n).done
      else g.done
    else if from_ = gg.coord then (freeSaved g gg).done
    else .next s

/-! ### Reservation (R422) -/

/-- Resident crews on cores, of a class or higher, and of lower classes. -/
def State.crewsByClass (s : State) (cores : List Nat) (prio : Nat) : Nat × Nat :=
  let here := s.residents.filter fun e => cores.contains (placeCore e.1)
  let high := here.filter fun e => match s.team? e.2.team with | some t => t.prio ≤ prio | none => false
  (high.length, here.length - high.length)

/-- The cheapest window for a gang (R422). -/
def State.cheapestWindow (s : State) (gg : Gang) (kd : Kd) (m : Nat) : Option Nat :=
  let cands := (((s.ctxDies gg.pend.ctx).map (dieWindows kd.pair m)).flatten).filter fun first =>
    (windowCores kd.pair first m).all fun c => !(s.coreOf c).reserved && (s.coreOf c).heldBy.isNone
  let cost := fun first => s.crewsByClass (windowCores kd.pair first m) gg.pend.prio
  cands.foldl (fun (b : Option Nat) c => match b with
    | none => some c
    | some x =>
      let u := cost c
      let v := cost x
      if u.1 < v.1 || (u.1 == v.1 && (u.2 < v.2 || (u.2 == v.2 && c < x))) then some c else some x) none

/-- GANGWAIT_EXPIRY (R422): after DIST.GANGWAIT the module reserves its cheapest window. -/
def execGangwaitExpiry (part n : Nat) (s : State) : Host.Outcome State Fault Refusal :=
  match Tab.find s.gangs n with
  | none => .next s
  | some gg =>
    let waits := (gg.st == .unplaced || gg.st == .reserving) && gg.window.isNone && gg.reservedAt.isNone
    if waits && (s.ctx gg.pend.ctx).part.toNat = part && gg.since + 1000 * (s.part part).gangWait ≤ s.now then
      match (s.gangObject gg.pend).bind fun o => s.kd? o gg.pend.kernel with
      | none => .next s
      | some kd =>
        let m := (s.localRanks gg).length
        match s.cheapestWindow gg kd m with
        | none => .next s
        | some first =>
          let g := (Go.start s).put (.gang n (some { gg with reservedAt := some (first, s.now) }))
          (g.each (windowCores kd.pair first m) fun c g => modCore g c fun v => { v with reserved := true }).done
    else .next s

/-- DRAIN_EXPIRY (R422, R423): the teams of lower class still in a reserved window are pre-empted; a gang's member is not (R421). -/
def execDrainExpiry (n : Nat) (s : State) : Host.Outcome State Fault Refusal :=
  match Tab.find s.gangs n with
  | none => .next s
  | some gg =>
    match gg.reservedAt, (s.gangObject gg.pend).bind fun o => s.kd? o gg.pend.kernel with
    | some (first, t), some kd =>
      let cores := windowCores kd.pair first (s.localRanks gg).length
      if t + 1000 * (s.part (s.ctx gg.pend.ctx).part.toNat).drain ≤ s.now then
        let out := s.teams.filter fun e =>
          e.2.present && !e.2.leaving && (s.memberOf e.2).isNone && gg.pend.prio < e.2.prio && e.2.cores.any fun c => cores.contains c
        let g := (Go.start s).each out fun e g => beginLeave g e.1
        (g.each (cores.filter fun c => out.any fun e => e.2.cores.contains c) fun c g => modCore g c fun v => { v with vacating := true }).done
      else .next s
    | _, _ => .next s

/-! ### Placement turns -/

/-- What waits for placement in a partition: a batch of teams or a gang, with the order of R416. -/
inductive Waiting where
  | team (n : Nat)
  | gang (n : Nat)
deriving DecidableEq, Repr

/-- Insertion in the order of R416: class, time of the creating event, its number. -/
def insertWaiting (e : (Nat × Nat × Nat) × Waiting) : List ((Nat × Nat × Nat) × Waiting) → List ((Nat × Nat × Nat) × Waiting)
  | [] => [e]
  | f :: fs =>
    let a := e.1
    let b := f.1
    if a.1 < b.1 || (a.1 == b.1 && (a.2.1 < b.2.1 || (a.2.1 == b.2.1 && a.2.2 ≤ b.2.2))) then e :: f :: fs else f :: insertWaiting e fs

/-- What waits for placement in a partition, in order; nothing of a faulted context (R392). -/
def State.waitingTeams (s : State) (part : Nat) : List Waiting :=
  let mine := fun p : Pend => (s.ctx p.ctx).part.toNat == part && (s.ctx p.ctx).state != 2
  let ts := (s.pends.zipIdx.filter fun e => mine e.1 && e.1.next < e.1.last).map fun e => ((e.1.prio, e.1.time, e.1.order), Waiting.team e.2)
  let gs := (s.gangs.filter fun e => mine e.2.pend && !e.2.committed && e.2.window.isNone && e.2.st != .running && e.2.st != .closing).map fun e =>
    ((e.2.pend.prio, e.2.pend.time, e.2.pend.order), Waiting.gang e.1)
  ((ts ++ gs).foldr insertWaiting []).map Prod.snd

/-- A batch after its first waiting team was placed. -/
def takeFirst (ps : List Pend) (i : Nat) : List Pend :=
  (ps.zipIdx.map fun e => if e.2 = i then { e.1 with next := e.1.next + 1 } else e.1).filter fun p => p.next < p.last

/-- Places the first of what waits that fits. -/
def placeFirst (g : Go s0) : List Waiting → Go s0
  | [] => g
  | .gang n :: ws =>
    match Tab.find g.st.gangs n with
    | some gg => if (g.st.holdNow n gg).isSome then tryHold g n else placeFirst g ws
    | none => placeFirst g ws
  | .team i :: ws =>
    match g.st.pends[i]? with
    | none => placeFirst g ws
    | some p =>
      match g.st.kd? p.object p.kernel, Tab.find g.st.launches p.launch with
      | some kd, some l =>
        (match g.st.chooseCore p kd (g.st.openCores p.ctx kd (p.crews kd)) with
        | some core =>
          if g.st.returning p.prio then placeFirst g ws
          else placeTeam (g.put (.pends (takeFirst g.st.pends i))) p kd l p.next (teamCoresAt kd.pair core) none 0 0 true
        | none => placeFirst g ws)
      | _, _ => placeFirst g ws

/-- DISTRIBUTOR_PLACE (R416, R419, R423): the image of a drained team is written, a vacate ends, or the first of what waits that fits is
placed or held. `part` 15 stands for the module service context. -/
def execDistributorPlace (part : Nat) (s : State) : Host.Outcome State Fault Refusal :=
  match s.leaver part with
  | some t => (endVacate (preemptTeam (Go.start s) t) part).done
  | none => (placeFirst (endVacate (Go.start s) part) (s.waitingTeams part)).done

/-- TEAM_RESTORE (R388, R421, R423): a saved team comes back when its places are free; a gang's member through its gang. -/
def execTeamRestore (t : Nat) (s : State) : Host.Outcome State Fault Refusal :=
  match s.team? t with
  | none => .next s
  | some tm =>
    match s.memberOf tm with
    | some n => (tryHold (Go.start s) n).done
    | none => if s.placesFree t none then (runTiles (restoreTeam (Go.start s) t true)).done else .next s

/-- COLOCATION_WINDOW (R425): the window of every kernel of a partition ends, and its class is what the window gives. -/
def execColocationWindow (part : Nat) (s : State) : Host.Outcome State Fault Refusal :=
  let mine := s.coloc.filter fun e => match Tab.find s.objs (e.1 / 2 ^ 32) with
    | some o => (s.ctx o.ctx).part.toNat == part
    | none => false
  ((Go.start s).each mine fun e g =>
    if e.2.ops = 0 && e.2.bytes = 0 then g
    else g.put (.coloc e.1 (some { ops := 0, bytes := 0, cls := some ((s.part part).colThresh * e.2.bytes ≤ 16 * e.2.ops) }))).done

end Sys2Proof.Machine
end

