-- ==== Sys2Proof/Machine/Teardown.lean ====
section
/-! DEFINITION. Contexts, virtual interfaces and partitions (R370 to R372, R486): resolving a stopped crew (R376), the teardown of a
context, function-level reset, creation and release, and the fault ring (R383). -/

namespace Sys2Proof.Machine

open Sys2Proof

variable {s0 : State}

/-! ### Teardown (R371, R376) -/

/-- A queue goes from its slot, with what it tracks of a context's work. -/
def dropQueue (g : Go s0) (q : Nat) : Go s0 := if (g.st.queue q).mapped then unmapQueue g q else g

/-- The gangs of a context go from this module. -/
def dropGangs (g : Go s0) (ctx : Nat) : Go s0 :=
  g.each (g.st.gangs.filter fun e => e.2.pend.ctx == ctx) fun e g =>
    let g := unhold g e.1
    let pair := match g.st.kd? e.2.pend.object e.2.pend.kernel with | some kd => kd.pair | none => false
    let g := match e.2.reservedAt with
      | some (first, _) => g.each (windowCores pair first (g.st.localRanks e.2).length) fun c g => modCore g c fun v => { v with reserved := false }
      | none => g
    g.put (.gang e.1 none)

/-- The winch contexts of a context are stopped at their next chunk boundary, and cleared (R469). -/
def clearWinches (g : Go s0) (ctx : Nat) : Go s0 :=
  g.each (g.st.wctxs.filter fun e => e.2.tid.toNat == ctx && e.2.state != 0) fun e g =>
    let g := winchCommand g (e.1 / 4) (e.1 % 4) 3
    let g := g.put (.wctx e.1 { Tab.get Wctx.reset g.st.wctxs e.1 with recs := [] })
    winchCommand g (e.1 / 4) (e.1 % 4) 4

/-- Steps 1 to 5 of the teardown of a context (R371): its queues, its teams and what waits to be placed, its winches, claims and records. -/
def tearStart (g : Go s0) (ctx : Nat) : Go s0 :=
  let g := modCtx g ctx fun v => { v with state := 3, kept := [], writing := [], wake := false }
  let g := g.each (g.st.queues.filter fun e => e.2.ctx.toNat == ctx) fun e g => dropQueue g e.1
  let g := g.each (g.st.teams.filter fun e => e.2.ctx == ctx) fun e g => freeTeam g e.1 false
  let g := g.put (.pends (g.st.pends.filter fun p => p.ctx != ctx))
  let g := dropGangs g ctx
  let g := g.each (g.st.launches.filter fun e => e.2.ctx == ctx && (e.2.home.isNone || e.2.reports.isEmpty)) fun e g => g.put (.launch e.1 none)
  let g := g.put (.wsets (g.st.wsets.filter fun w => w.ctx != ctx || w.origin.isSome))
  clearWinches (modCtx g ctx fun v => { v with left := [] }) ctx

/-- Engine operations of a context's queues and launches. -/
def State.ctxEngines (s : State) (ctx : Nat) : List (Nat × EngOp) := s.engines.filter fun e => e.2.team == 2 ^ 64 && e.2.crew == ctx

/-- Has everything that the context started drained (R371 step 6)? -/
def State.ctxDrained (s : State) (ctx : Nat) : Bool :=
  !(s.wctxs.any fun e => e.2.tid.toNat == ctx && e.2.state != 0) && !(s.wsets.any fun w => w.ctx == ctx)
    && (s.ctx ctx).orphans.isEmpty && (s.ctxEngines ctx).all fun e => e.2.left.isEmpty && e.2.far.isEmpty && !s.agentBusy e.1

/-- A context whose registers are at reset (R13): CTX.PART, CTX.VI and CTX.LEVEL have no reset value and stay. -/
def Ctx.cleared (v : Ctx) : Ctx := { Ctx.reset with part := v.part, vi := v.vi, level := v.level }

/-- The translations of a context that is freed or made leave every unit: nothing of one tenant reaches the next (R368). -/
def forgetPages (g : Go s0) (ctx : Nat) : Go s0 :=
  let g := g.each g.st.tlbs fun u g => g.put (.tlb u.1 (u.2.filter fun e => e.ctx != ctx))
  g.put (.walks (g.st.walks.filter fun w => w.ctx != ctx))

/-- Step 7 (R371): the context is free. Its objects are unloaded (R368), and what its queues and a release waited for is over. -/
def tearEnd (g : Go s0) (ctx : Nat) : Go s0 :=
  let g := g.each (g.st.ctxEngines ctx) fun e g => g.put (.engine e.1 none)
  let g := g.each (g.st.objs.filter fun e => e.2.ctx == ctx) fun e g => g.put (.obj e.1 none)
  let g := g.each (g.st.queues.filter fun e => e.2.ctx.toNat == ctx) fun e g => putQ g e.1 { g.st.queue e.1 with runs := [], saved := none, waiting := false }
  let n := (g.st.ctx ctx).vi.toNat
  let v := g.st.vi n
  let g := if v.releasing = some ctx then g.put (.vi n { v with releasing := none, ctxStat := 0 }) else g
  (forgetPages g ctx).put (.ctx ctx (g.st.ctx ctx).cleared)

/-- A context that is tearing down: its winches reach their boundaries, and once all has drained it is free. The contexts of an interface
in reset wait for one another (R371). -/
def tearGo (g : Go s0) (ctx : Nat) : Go s0 :=
  let g := checkSets (clearWinches g ctx)
  let inReset := ctx != 4095 && (g.st.vi (g.st.ctx ctx).vi.toNat).flrBusy
  if g.st.ctxDrained ctx && !inReset then tearEnd g ctx else g

/-- ABORT of a context (R376). -/
def abortCtx (g : Go s0) (ctx : Nat) : Go s0 :=
  if (g.st.ctx ctx).state = 3 then g else tearGo (tearStart g ctx) ctx

/-! ### Resolving a crew (R376) -/

/-- The resident crew that an identifier names (R373). -/
def State.crewOfId (s : State) (id : Nat) : Option (Nat × Crew) := s.crews.find? fun e => crewId e.2.ctx e.1 == id

/-- A resolution: its status, and the state after it. -/
def resolveCrew (g : Go s0) (id action : Nat) : Nat × Go s0 :=
  match g.st.crewOfId id with
  | none => (2, g)
  | some (x, c) =>
    if c.st ≠ .stopped then (1, g)
    else if (g.st.ctx c.ctx).state = 2 && action ≠ 3 then (3, g)
    else
      match action with
      | 0 => (0, resumeCrew g x false)
      | 1 => (0, resumeCrew g x true)
      | 2 => (0, exitCrew g x)
      | _ => (0, abortCtx g c.ctx)

/-- CTX.CREWID is written (R372, R376). -/
def resolveBy (g : Go s0) (ctx id action : Nat) : Go s0 :=
  let (n, g) := if id / 2 ^ 20 = ctx then resolveCrew g id action else (2, g)
  modCtx g ctx fun v => { v with cmdStat := BitVec.ofNat 2 n }

def execResume (ctx id : Nat) (s : State) : Host.Outcome State Fault Refusal := (resolveBy (Go.start s) ctx id 0).done
def execSkip (ctx id : Nat) (s : State) : Host.Outcome State Fault Refusal := (resolveBy (Go.start s) ctx id 1).done
def execExitAction (ctx id : Nat) (s : State) : Host.Outcome State Fault Refusal := (resolveBy (Go.start s) ctx id 2).done

/-- ABORT (R376): the command, or, with no identifier of a crew, a turn of a teardown that has begun. -/
def execAbort (ctx id : Nat) (s : State) : Host.Outcome State Fault Refusal :=
  if 2 ^ 32 ≤ id then
    if (s.ctx ctx).state = 3 then (tearGo (Go.start s) ctx).done else .next s
  else (resolveBy (Go.start s) ctx id 3).done

/-! ### Function-level reset (R371) -/

/-- The contexts that a virtual interface owns: kernel contexts only (R367, R486). -/
def State.viContexts (s : State) (n : Nat) : List Nat :=
  (s.ctxs.filter fun e => e.2.vi.toNat == n && e.2.state != 0 && !e.2.level).map Prod.fst

/-- The contexts that a function-level reset of an interface takes: all that CTX.VI gives it, service contexts too, but not 4095 (log 64). -/
def State.flrContexts (s : State) (n : Nat) : List Nat :=
  (s.ctxs.filter fun e => e.2.vi.toNat == n && e.2.state != 0 && e.1 != 4095).map Prod.fst

/-- VI.FLR is written 1. -/
def flrStart (g : Go s0) (n : Nat) : Go s0 :=
  let g := g.put (.vi n { g.st.vi n with flrBusy := true })
  let g := g.each (g.st.queues.filter fun e => e.2.vi.toNat == n) fun e g => dropQueue g e.1
  g.each ((g.st.flrContexts n).filter fun c => (g.st.ctx c).state != 3) fun c g => tearStart g c

/-- A function-level reset goes on, and ends once the work of every context has drained: every register takes its reset value (R13). -/
def flrGo (g : Go s0) (n : Nat) : Go s0 :=
  let cs := g.st.flrContexts n
  let g := g.each cs fun c g => checkSets (clearWinches g c)
  if cs.all g.st.ctxDrained then
    let g := g.each cs fun c g => tearEnd g c
    let g := g.each (g.st.queues.filter fun e => e.2.vi.toNat == n) fun e g => putQ g e.1 Queue.reset
    g.put (.vi n Vi.reset)
  else g

/-- The system address of a word of a virtual interface's block (R369). -/
def viAddr (n off : Nat) : Nat := 0x02000000 + 0x100 * n + off

/-- VI_FLR (R371, R483): the host's function-level reset starts, or one that runs goes on. -/
def execViFlr (n : Nat) (s : State) : Host.Outcome State Fault Refusal :=
  if (s.vi n).flrBusy then (flrGo (Go.start s) n).done else byHost s n (viAddr n 0) 0x40 fun g => flrGo (flrStart g n) n

/-! ### Creation and release (R486) -/

/-- Does the partition of an interface allow context operations? -/
def viClosed (s : State) (n : Nat) : Bool := !(s.vi n).en || !(s.part (s.vi n).part.toNat).active

/-- VI.CTXOP is written 0: a create. Where several statuses apply, which one shows is left open. -/
def ctxCreate (g : Go s0) (n : Nat) : Go s0 :=
  let v := g.st.vi n
  if v.flrBusy || v.releasing.isSome then g
  else
    let free := (List.range 4095).find? fun c => (g.st.ctx c).state == 0
    let bad := (if v.ctxMax.toNat ≤ (g.st.viContexts n).length then [1] else []) ++ (if free.isNone then [2] else [])
      ++ if viClosed g.st n then [3] else []
    match pick g.st 69 n bad, free with
    | some k, _ => g.put (.vi n { v with ctxStat := BitVec.ofNat 4 k })
    | none, some c =>
      let g := (forgetPages g c).put (.ctx c { Ctx.reset with vi := BitVec.ofNat 6 n, part := v.part, state := 1 })
      g.put (.vi n { v with ctxStat := 0, ctxRes := BitVec.ofNat 12 c })
    | none, none => g

/-- Firmware makes a service context of a free one (R367), with the fields of the word that it writes at offset 0x00. DESIGN CHOICE (log 64;
unsafe): the spec names no register for it. -/
def serviceCreate (g : Go s0) (c n : Nat) : Go s0 :=
  (forgetPages g c).put (.ctx c { Ctx.reset with
    level := true, part := BitVec.ofNat 4 (bitf n 12 4), vi := BitVec.ofNat 6 (bitf n 6 6)
    handler := BitVec.ofNat 12 (bitf n 16 12), hen := bitf n 28 1 == 1, state := 1 })

/-- VI.CTXOP is written 1: a release of a context. -/
def ctxRelease (g : Go s0) (n c : Nat) : Go s0 :=
  let v := g.st.vi n
  if v.flrBusy || v.releasing.isSome then g
  else
    let u := g.st.ctx c
    let bad := (if viClosed g.st n then [3] else []) ++ if u.state = 0 || u.level || u.vi.toNat ≠ n then [4] else []
    match pick g.st 69 n bad with
    | some k => g.put (.vi n { v with ctxStat := BitVec.ofNat 4 k })
    | none =>
      let g := g.put (.vi n { v with releasing := some c })
      if u.state = 3 then g else tearGo (tearStart g c) c

def execCtxCreate (n : Nat) (s : State) : Host.Outcome State Fault Refusal := byHost s n (viAddr n 8) 0 fun g => ctxCreate g n
def execCtxRelease (n c : Nat) (s : State) : Host.Outcome State Fault Refusal :=
  byHost s n (viAddr n 8) (BitVec.ofNat 64 (2 ^ 32 + c)) fun g => ctxRelease g n c

/-! ### Wake latch and fault ring -/

/-- CTX_WAKE (R379). -/
def execCtxWake (ctx : Nat) (s : State) : Host.Outcome State Fault Refusal := (setWake (Go.start s) ctx).done

/-- FAULT_RECORD_COMMIT (R383 steps 2 to 4): the oldest record written is complete. -/
def execFaultRecordCommit (ctx : Nat) (s : State) : Host.Outcome State Fault Refusal :=
  let v := s.ctx ctx
  match v.writing with
  | t :: ts =>
    if t < s.now then
      (notify (modCtx (Go.start s) ctx fun v =>
        { v with writing := ts, frProd := BitVec.ofNat 16 ((v.frProd.toNat + 1) % 2 ^ v.frSize.toNat) }) ctx v.msix).done
    else .next s
  | [] => .next s

/-- FAULT_RING_RETRY (R383). -/
def execFaultRingRetry (ctx : Nat) (s : State) : Host.Outcome State Fault Refusal := (retryRing (Go.start s) ctx).done

/-! ### Partitions (R370) -/

/-- PART.BUSY: a context of the partition holds a team or a running winch context. -/
def State.partBusy (s : State) (p : Nat) : Bool :=
  s.teams.any (fun e => (s.ctx e.2.ctx).part.toNat == p) || s.wctxs.any fun e => e.2.state == 2 && (s.ctx e.2.tid.toNat).part.toNat == p

/-- The words of a partition's control register (R370) and HBM range (R429). -/
def State.partWord (s : State) (p : Nat) : Nat :=
  let v := s.part p
  (if v.active then 1 else 0) + (if s.partBusy p then 4 else 0) + (if v.debug then 2 ^ 8 else 0) + 2 ^ 16 * v.scratch.toNat
    + 2 ^ 32 * v.dies.toNat

/-- A measurement register is extended (R477). -/
def extendMeas (g : Go s0) (i : Nat) (v : List Byte) : Go s0 :=
  let m := g.st.mod
  g.put (.mod { m with meas := Tab.set 0 m.meas i (sha256 (leBytes (Tab.get 0 m.meas i).toNat 32 ++ v)) })

/-- A partition's control register is written (R370, R477). -/
def partWrite (g : Go s0) (p : Nat) (x : Word) : Go s0 :=
  let v := g.st.part p
  let n := x.toNat
  let dies := BitVec.ofNat 8 (bitf n 32 8)
  let taken := (List.range 8).any fun q => q != p && (g.st.part q).dies &&& dies != 0
  if g.st.partBusy p || !g.st.mod.ready then g
  else if taken then g
  else
    let active := dies != 0
    let g := g.put (.part p { v with dies := dies, scratch := BitVec.ofNat 2 (bitf n 16 2), debug := bitf n 8 1 == 1, active := active })
    if active && !v.active then
      let u := g.st.part p
      extendMeas g 4 (leBytes (g.st.partWord p) 8 ++ leBytes u.hbmBase 8 ++ leBytes u.hbmLimit 8)
    else g

/-- PART_CONTROL_WRITE (R370). -/
def execPartControlWrite (p : Nat) (x : Word) (s : State) : Host.Outcome State Fault Refusal := (partWrite (Go.start s) p x).done

end Sys2Proof.Machine
end

