-- ==== Sys2Proof/Machine/Trans.lean ====
section
/-! DEFINITION. Translation as the system sees it: walks of their own (R433, R434), replay-all through TR.REPLAY (R439) and the tag
registers (R442). -/

namespace Sys2Proof.Machine

open Sys2Proof

variable {s0 : State}

/-- Does a unit number name a unit with a walker (R433): a compute die's L2 TLB or a junction die's TLB? -/
def hasWalker (u : Nat) : Bool := (1000 ≤ u && u < 1008) || (2000 ≤ u && u < 2004)

/-- Has the unit's walker room for one more walk (R433)? A junction die's has no bound given. -/
def State.walkRoom (s : State) (u : Nat) : Bool := 2000 ≤ u || (s.walks.filter fun w => w.unit == u).length < 64

/-- A walk ends (R433, R434): a leaf that it found is held in the unit's TLB; a walk that ended on an invalid or malformed entry leaves
nothing. -/
def walkEnd (g : Go s0) (w : WalkRun) : Go s0 :=
  let g := g.put (.walks (g.st.walks.filter fun v => v != w))
  match w.res with
  | .ok e size => fillTlbs g [w.unit] { ctx := w.ctx, page := 65536 * w.page - 65536 * w.page % size, size := size, leaf := BitVec.ofNat 64 e }
  | _ => g

/-- TABLE_WALK (R433): the walk in flight for the page ends; where there is none, one begins that reads the tables now. -/
def execTableWalk (u ctx : Nat) (va : BitVec 64) (s : State) : Host.Outcome State Fault Refusal :=
  let page := va56 va.toNat / 65536
  if hasWalker u && ctx < 4096 then
    match s.walks.find? fun w => w.unit == u && w.ctx == ctx && w.page == page with
    | some w => (walkEnd (Go.start s) w).done
    | none =>
      if s.walkRoom u then
        ((Go.start s).put (.walks (s.walks ++ [{ unit := u, ctx := ctx, page := page, res := s.walk ctx (va56 va.toNat) }]))).done
      else .next s
  else .next s

/-- TR_REPLAY (R439). -/
def execTrReplay (ctx : Nat) (s : State) : Host.Outcome State Fault Refusal :=
  if ctx < 4096 then (replayAll (Go.start s) ctx).done else .next s

/-- The status of TAG.ADDR and the home of its block (R442). -/
def tagBlock (s : State) (ctx a : Nat) : Nat × Nat :=
  match s.walk ctx (va56 a) with
  | .absent _ => (1, 0)
  | .bad => (2, 0)
  | .ok e size => match leafLoc e size a with
    | .home k => (0, k)
    | _ => (3, 0)

/-- TAG.ADDR is written (R442): bits [8:0] of the register are no part of the address. -/
def tagAddrWrite (g : Go s0) (ctx : Nat) (value : Word) : Go s0 :=
  if 4096 ≤ ctx then g
  else
    let a := value.toNat / 512 * 512
    let (st, k) := tagBlock g.st ctx a
    modCtx g ctx fun v => { v with tagAddr := BitVec.ofNat 64 a, tagStat := BitVec.ofNat 2 st, tagHome := if st = 0 then some k else none }

/-- TAG.DATA is written (R442); before TAG.ADDR was, it names no block. -/
def tagDataWrite (g : Go s0) (ctx : Nat) (value : Word) : Go s0 :=
  match (g.st.ctx ctx).tagHome with
  | some k =>
    if 4096 ≤ ctx then g
    else g.each (List.range 16) fun n g => g.put (.tag (k / 32 + n) (BitVec.ofNat 4 (bitf value.toNat (4 * n) 4)))
  | none => g

/-- TAG_ADDR_WRITE (R442). -/
def execTagAddrWrite (ctx : Nat) (value : BitVec 64) (s : State) : Host.Outcome State Fault Refusal :=
  (tagAddrWrite (Go.start s) ctx value).done

/-- TAG_DATA_WRITE (R442). -/
def execTagDataWrite (ctx : Nat) (value : BitVec 64) (s : State) : Host.Outcome State Fault Refusal :=
  (tagDataWrite (Go.start s) ctx value).done

/-- TAG.DATA as it reads (R442): 0 too before TAG.ADDR was written (R432's reset value). -/
def State.tagData (s : State) (ctx : Nat) : Nat :=
  match (s.ctx ctx).tagHome with
  | some k => (List.range 16).foldl (fun a n => a + (Tab.get 0 s.tags (k / 32 + n)).toNat * 2 ^ (4 * n)) 0
  | none => 0

end Sys2Proof.Machine
end

