-- ==== Sys2Proof/Machine/Links.lean ====
section
/-! DEFINITION. Links and the peer table as the hardware keeps them (R453 to R459, R487): flits received, resent, forwarded and returned;
training; lane health; key slots; lost peers. -/

namespace Sys2Proof.Machine

open Sys2Proof

variable {s0 : State}

/-- Links of a module: four junction dies of eight (R451). -/
def linkCount : Nat := 32

def modLink (g : Go s0) (l : Nat) (f : Link → Link) : Go s0 := g.put (.link l (f (g.st.link l)))

/-! ### Up and down (R456) -/

/-- The lanes of a mask, lowest first. -/
def lanesIn (m : BitVec 16) : List Nat := (List.range 16).filter fun k => m.getLsbD k

/-- The mask of lanes. -/
def linkLanes (ls : List Nat) : BitVec 16 := ls.foldl (fun m k => m ||| BitVec.ofNat 16 (2 ^ k)) 0

/-- A lane's new score (R457). -/
def healthScore (h e : Nat) : Nat := min 255 (h - h / 8 + min e 64)

/-- The active lanes whose scores still change (R457). -/
def Link.liveLanes (v : Link) : List Nat := (lanesIn v.active).filter fun k => !v.marked.getLsbD k

/-- A lane's score at the end of the window. -/
def Link.scoreOf (v : Link) (k : Nat) : Nat := healthScore (Tab.get 0 v.health k) (Tab.get 0 v.corrected k)

/-- The end of one window of fabric time (R457): each lane's score, the marks, and the retraining that a mark starts. -/
def Link.endWindow (v : Link) : Link :=
  let bad := v.liveLanes.filter fun k => v.retire.toNat ≤ v.scoreOf k
  { v with
    health := v.liveLanes.foldl (fun (t : Table Nat) k => Tab.set 0 t k (v.scoreOf k)) v.health
    corrected := [], window := v.window + 1, marked := v.marked ||| linkLanes bad
    state := if v.state = 2 && !bad.isEmpty then 3 else v.state }

/-- The end of `n` windows, each with its own update (R457). -/
def Link.endWindows (v : Link) : Nat → Link
  | 0 => v
  | n + 1 => v.endWindow.endWindows n

/-- Every window that has ended by now (R457). -/
def Link.toWindow (v : Link) (now : Nat) : Link := v.endWindows (now / 1024000 - v.window)

/-- A link goes down: the replay buffer is discarded and its held flits are lost, and with them those that wait for it (log 86); the keys stay. -/
def Link.goDown (v : Link) (err now : Nat) : Link :=
  { v.toWindow now with
    state := 0, err := BitVec.ofNat 4 err, active := 0, width := 0, held := [], todo := [], chunks := [], downAt := now }

/-- Takes a link to down. -/
def linkDown (g : Go s0) (l err : Nat) : Go s0 :=
  modLink g l fun v => if v.state = 0 then v else v.goDown err g.st.now

/-- Takes every link to down. -/
def allLinksDown (g : Go s0) (err : Nat) : Go s0 := g.each (List.range linkCount) fun l g => linkDown g l err

/-- Takes an up link to retraining. -/
def retrain (g : Go s0) (l : Nat) : Go s0 := modLink g l fun v => if v.state = 2 then { v with state := 3 } else v

/-- The fabric time failed (R467) or the module is held until reset (R484): no link comes up. -/
def State.linksHeld (s : State) : Bool := s.ft.fail || s.mod.errFatal != 0 || !s.mod.ready

/-- Training begins (R456): LNK.LANES takes effect, and the marks and scores of its lanes are cleared (R457). -/
def Link.train (v : Link) : Link :=
  let stay := fun e : Nat × Nat => !v.lanes.getLsbD e.1
  { v with en := true, state := 1, err := 0, allowed := v.lanes, marked := v.marked &&& ~~~v.lanes
           health := v.health.filter stay, corrected := v.corrected.filter stay }

/-- LNK.EN is written (R456): 1 trains a link that is down, 0 takes it to down. -/
def linkEnable (g : Go s0) (link : Nat) (on : Bool) : Go s0 :=
  let s := g.st
  if linkCount ≤ link then g
  else if !on then modLink g link fun v => { (if v.state = 0 then v else v.goDown v.err.toNat s.now) with en := false }
  else modLink g link fun v => if v.state = 0 && !s.linksHeld then v.train else { v with en := true }

/-- LNK_ENABLE (R456). -/
def execLnkEnable (link : Nat) (on : Bool) (s : State) : Host.Outcome State Fault Refusal := (linkEnable (Go.start s) link on).done

/-- Leaves out lanes until `w` are left: which ones is open. -/
def keepLanes (s : State) (w : Nat) (ls : List Nat) : Nat → List Nat
  | 0 => ls
  | n + 1 => if ls.length ≤ w then ls else keepLanes s w (ls.eraseIdx (Config.freeNat (s.salt 70 n) % ls.length)) n

/-- The widest width that lanes allow (R456). -/
def widthOf (n : Nat) : Nat := if 16 ≤ n then 16 else if 12 ≤ n then 12 else if 8 ≤ n then 8 else 0

/-! ### Flits (R453) -/

/-- The fields of a flit's header (R453). -/
structure Header where
  ivc  : Nat
  seq  : Nat
  ack  : Nat
  key  : Nat
  ackv : Bool
  seqv : Bool
  ty   : Nat
  info : Nat
deriving DecidableEq, Repr

/-- A header's 16 bytes. -/
def Header.bytes (h : Header) : List Byte :=
  leBytes (h.info % 2 ^ 32 + 2 ^ 32 * (h.ty % 2 ^ 8) + 2 ^ 45 * h.seqv.toNat + 2 ^ 46 * h.ackv.toNat + 2 ^ 47 * (h.key % 2)
    + 2 ^ 48 * (h.ack % 2 ^ 16) + 2 ^ 64 * (h.seq % 2 ^ 16) + 2 ^ 80 * (h.ivc % 2 ^ 48)) 16

/-- The header that bytes stand for. -/
def Header.ofBytes (bs : List Byte) : Header :=
  let w := leNat (bs.take 16)
  { ivc := bitf w 80 48, seq := bitf w 64 16, ack := bitf w 48 16, key := bitf w 47 1, ackv := bitf w 46 1 == 1
    seqv := bitf w 45 1 == 1, ty := bitf w 32 8, info := bitf w 0 32 }

/-- Exactly `n` bytes of a list, with zeros after its end. -/
def fitBytes (n : Nat) (bs : List Byte) : List Byte := (bs ++ List.replicate n 0).take n

/-- The GCM nonce: salt, 16 zero bits, FL.IVC (R453). -/
def nonce (salt : BitVec 32) (ivc : Nat) : BitVec 96 := BitVec.ofNat 96 (salt.toNat * 2 ^ 64 + ivc % 2 ^ 48)

/-- CRC and FEC after the first 240 bytes (R453). -/
def closeFlit (bs : List Byte) : List Byte :=
  let b := fitBytes 240 bs
  let b := b ++ leBytes (crc32 b).toNat 4
  b ++ fitBytes 12 (Config.fecParity b)

/-- Sends a new flit under the selected key slot (R453, R455, R458): a sequenced one is held for replay. None while the link is not up, the
replay buffer is full or the slot is empty; a slot that has used every FL.IVC takes the link to down. -/
def sendFlit (g : Go s0) (l : Nat) (ty info : Nat) (payload : List Byte) (x : FlitIn) : Bool × Go s0 :=
  let v := g.st.link l
  let seqd := 1 ≤ ty && ty ≤ 4
  match Tab.find v.txKey v.txSel with
  | none => (false, g)
  | some (key, salt) =>
    let ivc := Tab.get 0 v.txIvc v.txSel
    if v.state ≠ 2 || (seqd && 256 ≤ v.held.length) then (false, g)
    else if 2 ^ 48 ≤ ivc then (false, linkDown g l 3)
    else
      let h : Header := { ivc := ivc, seq := v.seq, ack := v.expect + 2 ^ 16 - 1, key := v.txSel, ackv := v.expect ≠ 0, seqv := seqd
                          ty := ty, info := info }
      let bs := closeFlit (h.bytes ++ fitBytes 224 (Config.gcmSeal key (nonce salt ivc) h.bytes (fitBytes 208 payload)))
      let g := modLink g l fun v => { v with
        txIvc := Tab.put v.txIvc v.txSel (ivc + 1), seq := if seqd then v.seq + 1 else v.seq
        heldAt := if v.held.isEmpty then g.st.now else v.heldAt
        held := if seqd then v.held ++ [(v.seq, { x with raw := bs }, 0)] else v.held }
      (true, send g (.flit l { x with raw := bs }))

/-- What stands beside a flit that goes over one link only. -/
def linkOnly : FlitIn := { raw := [], src := 0, target := 0, path := 0, hops := 0, acc := none }

/-- Sends what waits for the replay buffer, in order, as far as it has room; with the buffer full an idle flit goes out instead (R455). -/
def pump (g : Go s0) (l : Nat) : Nat → Go s0
  | 0 => g
  | n + 1 =>
    match (g.st.link l).todo with
    | [] => g
    | (ty, info, p, x) :: rest =>
      match sendFlit g l ty info p x with
      | (true, g) => pump (modLink g l fun v => { v with todo := rest }) l n
      | (false, g) => if (g.st.link l).state = 2 && 256 ≤ (g.st.link l).held.length then (sendFlit g l 0 0 [] linkOnly).2 else g

/-- Sends everything that waits and finds room. -/
def pumpAll (g : Go s0) (l : Nat) : Go s0 := pump g l (g.st.link l).todo.length

/-- A new sequenced flit of a link that is up or retraining (R455): it goes out behind those that wait. -/
def queueFlit (g : Go s0) (l ty info : Nat) (payload : List Byte) (x : FlitIn) : Go s0 :=
  if (g.st.link l).state = 2 || (g.st.link l).state = 3 then
    pumpAll (modLink g l fun v => { v with todo := v.todo ++ [(ty, info, payload, x)] }) l
  else g

/-- Sends a link-control message and its flit (R453); link-control flits are not sequenced. -/
def linkControl (g : Go s0) (l : Nat) (what : String) (n : Nat) : Go s0 := (sendFlit (send g (.linkControl l what n)) l 5 0 [] linkOnly).2

/-- Bytes free in a channel's receive buffer of this module (R316). -/
def State.rxFree (s : State) (l ch : Nat) : Nat := 65536 - ((Tab.get Wctx.reset s.wctxs (4 * l + ch)).rx.map fun r => r.2.length).sum

/-- A link comes up from down (R456, R316): sequence numbers start again (log 41), the receiver tells the free bytes of each channel, and the
credits are what the far receiver told. -/
def freshLink (g : Go s0) (l : Nat) : Go s0 :=
  let s := g.st
  let g := modLink g l fun v => { v with seq := 0, held := [], todo := [], chunks := [], expect := 0, tagFail := [], heldAt := s.now
                                         credits := (List.range 4).map fun (ch : Nat) => (ch, Config.freeNat (s.salt 71 (4 * l + ch)) % 65537) }
  g.each (List.range 4) fun ch g => linkControl g l "FREE" (65536 * ch + g.st.rxFree l ch)

/-- Bytes of a stored flit with FL.ACK, FL.ACKV, CRC and FEC refreshed (R453). -/
def refresh (v : Link) (bs : List Byte) : List Byte :=
  let h := Header.ofBytes bs
  closeFlit ({ h with ack := v.expect + 2 ^ 16 - 1, ackv := v.expect ≠ 0 }.bytes ++ (bs.take 240).drop 16)

/-- Puts held flits on the link once more. -/
def replay (g : Go s0) (l : Nat) (v : Link) (hs : List (Nat × FlitIn × Nat)) : Go s0 :=
  g.each hs fun (h : Nat × FlitIn × Nat) g => send g (.flit l { h.2.1 with raw := refresh v h.2.1.raw })

/-- Resends the held flits from a sequence number on, in order (R455); one resent 8 times takes the link to retraining. -/
def resendFrom (g : Go s0) (l : Nat) (from_ : Nat) : Go s0 :=
  let v := g.st.link l
  let out := v.held.filter fun h => from_ ≤ h.1
  let g := replay g l v out
  let g := modLink g l fun v => { v with
    held := v.held.map fun (h : Nat × FlitIn × Nat) => if from_ ≤ h.1 then (h.1, h.2.1, h.2.2 + 1) else h
    replays := v.replays + BitVec.ofNat 64 out.length, heldAt := g.st.now }
  if (g.st.link l).held.any fun h => 8 ≤ h.2.2 then retrain g l else g

/-- NAK (R455): `seq` gives the low 16 bits of the number it names. -/
def execNak (link seq : Nat) (s : State) : Host.Outcome State Fault Refusal :=
  let v := s.link link
  if linkCount ≤ link || v.state ≠ 2 then .next s
  else match v.held.find? fun h => h.1 % 65536 == seq % 65536 with
    | some h => (resendFrom (Go.start s) link h.1).done
    | none => .next s

/-- REPLAY_TIMEOUT (R455): no acknowledgement has progressed for 10 µs. -/
def execReplayTimeout (link : Nat) (s : State) : Host.Outcome State Fault Refusal :=
  let v := s.link link
  if linkCount ≤ link || v.state ≠ 2 || v.held.isEmpty || s.now < v.heldAt + 10000 then .next s
  else (resendFrom (Go.start s) link 0).done

/-- TRAINING_COMPLETE (R456): `lanes` are the lanes that work, `failed` says that the training failed. Retraining keeps the replay buffer and
sends it again. -/
def execTrainingComplete (link : Nat) (lanes : BitVec 16) (failed : Bool) (s : State) : Host.Outcome State Fault Refusal :=
  let v := (s.link link).toWindow s.now
  if linkCount ≤ link || !(v.state == 1 || v.state == 3) then .next s
  else
    let g := modLink (Go.start s) link fun v => v.toWindow s.now
    let ok := lanesIn (lanes &&& v.allowed &&& ~~~v.marked)
    let w := widthOf ok.length
    (if failed then linkDown g link 1
     else if w = 0 then linkDown g link 4
     else
       let g := modLink g link fun v => { v with state := 2, width := w, active := linkLanes (keepLanes s w ok 16) }
       if v.state = 1 then wakeCredits (freshLink g link)
       else
         let g := modLink (replay g link v v.held) link fun v => { v with
           held := v.held.map fun (h : Nat × FlitIn × Nat) => (h.1, h.2.1, 0)
           replays := v.replays + BitVec.ofNat 64 v.held.length, heldAt := s.now }
         pumpAll g link).done

/-! ### Key slots (R458) -/

/-- The old slot of a TX rotation is empty once an FL.ACK covers its last flit: KEYDONE is sent. -/
def finishRotation (g : Go s0) (l : Nat) : Go s0 :=
  let v := g.st.link l
  match v.txRet with
  | some (slot, last) =>
    if v.held.any fun h => h.1 < last then g
    else
      let g := modLink g l fun v => { v with txRet := none, txKey := Tab.del v.txKey slot, txIvc := Tab.del v.txIvc slot }
      linkControl g l "KEYDONE" slot
  | none => g

/-- Takes a word into the words written since a key slot last took effect (R369). -/
def keyWords (ws : Table Word) (slot : Nat) (value : BitVec 64) : BitVec 256 :=
  BitVec.ofNat 256 ((List.range 3).foldl (fun a k => a + (Tab.get 0 ws (4 * slot + k)).toNat * 2 ^ (64 * k)) 0 + value.toNat * 2 ^ 192)

/-- May a key slot take a write (R458)? -/
def Link.slotOpen (v : Link) (slot : Nat) (tx : Bool) : Bool :=
  if tx then v.txSel != slot && (match v.txRet with | some (r, _) => r != slot | none => true)
  else (Tab.find v.rxKey slot).isNone

/-- Drops the collected words of a slot. -/
def dropWords (ws : Table Word) (slot : Nat) : Table Word := ws.filter fun e => e.1 / 4 != slot

/-- Word 3 of a key slot is written (R458). -/
def keySlotWrite (g : Go s0) (link slot : Nat) (tx : Bool) (value : Word) : Go s0 :=
  if linkCount ≤ link || 2 ≤ slot || !(g.st.link link).slotOpen slot tx then g
  else
    modLink g link fun v =>
      if tx then { v with txKey := Tab.put v.txKey slot (keyWords v.txWords slot value, v.txSalt), txIvc := Tab.del v.txIvc slot
                          txWords := dropWords v.txWords slot }
      else { v with rxKey := Tab.put v.rxKey slot (keyWords v.rxWords slot value, v.rxSalt), rxWords := dropWords v.rxWords slot
                    seen := v.seen.filter fun e => e.1 != slot }

/-- KEY_SLOT_WRITE (R458). -/
def execKeySlotWrite (link slot : Nat) (tx : Bool) (value : BitVec 64) (s : State) : Host.Outcome State Fault Refusal :=
  (pumpAll (keySlotWrite (Go.start s) link slot tx value) link).done

/-- Words 0 to 2 of a key slot (R369, R458). -/
def keyWordWrite (g : Go s0) (l slot k : Nat) (tx : Bool) (value : Word) : Go s0 :=
  if !(g.st.link l).slotOpen slot tx then g
  else modLink g l fun v => if tx then { v with txWords := Tab.put v.txWords (4 * slot + k) value }
                            else { v with rxWords := Tab.put v.rxWords (4 * slot + k) value }

/-- LNK.TXSEL is written (R458): new flits use the slot from now on; the old one retires. -/
def txselWrite (g : Go s0) (link : Nat) (sel : Bool) : Go s0 :=
  let v := g.st.link link
  let n := sel.toNat
  if linkCount ≤ link || (Tab.find v.txKey n).isNone || v.txRet.isSome || v.txSel = n then g
  else
    let g := modLink g link fun v => { v with
      txSel := n, txRet := if (Tab.find v.txKey v.txSel).isSome then some (v.txSel, v.seq) else none }
    finishRotation g link

/-- TXSEL_WRITE (R458). -/
def execTxselWrite (link : Nat) (sel : Bool) (s : State) : Host.Outcome State Fault Refusal := (pumpAll (txselWrite (Go.start s) link sel) link).done

/-- KEYDONE (R458): the receiver's matching slot is emptied. -/
def execKeydone (link slot : Nat) (s : State) : Host.Outcome State Fault Refusal :=
  if linkCount ≤ link || 2 ≤ slot || (s.link link).state ≠ 2 then .next s
  else
    (modLink (Go.start s) link fun v => { v with
      rxKey := Tab.del v.rxKey slot, rxRet := none, rxCur := if v.rxCur = some slot then none else v.rxCur
      seen := v.seen.filter fun e => e.1 != slot }).done

/-! ### Receiving (R454) -/

/-- The lane of byte `b` (R456). -/
def Link.laneOf (v : Link) (b : Nat) : Nat := (lanesIn v.active).getD (b % v.width) 0

/-- Bits set of a byte. -/
def bitCount (b : Byte) : Nat := ((List.range 8).filter fun k => b.getLsbD k).length

/-- Counts the bits that the FEC corrected on the lanes that carried them (R454, R457). -/
def countFec (g : Go s0) (l : Nat) (raw good : List Byte) : Go s0 :=
  let g := modLink g l fun v => v.toWindow g.st.now
  let v := g.st.link l
  let n := ((raw.zip good).map fun e => bitCount (e.1 ^^^ e.2)).sum
  let c := ((raw.zip good).zipIdx).foldl (fun (t : Table Nat) e =>
    let k := bitCount (e.1.1 ^^^ e.1.2)
    if k = 0 then t else Tab.put t (v.laneOf e.2) (Tab.get 0 t (v.laneOf e.2) + k)) v.corrected
  let g := modLink g l fun v => { v with corrected := c }
  if n = 0 then g else g.put (.mod { g.st.mod with errCe := g.st.mod.errCe + 1 })

/-- A flit is discarded and counted (R456). -/
def discardFlit (g : Go s0) (l : Nat) : Go s0 := modLink g l fun v => { v with errCnt := v.errCnt + 1 }

/-- A link-control NAK naming the next expected number (R454). -/
def sendNak (g : Go s0) (l : Nat) : Go s0 := linkControl g l "NAK" ((g.st.link l).expect % 65536)

/-- An FL.ACK (R453, R455): the held flits up to it are done. -/
def takeAck (g : Go s0) (l : Nat) (ack : Nat) : Go s0 :=
  let v := g.st.link l
  match v.held.find? fun h => h.1 % 65536 == ack with
  | some h =>
    pumpAll (finishRotation (modLink g l fun v => { v with held := v.held.filter (fun e => h.1 < e.1), heldAt := g.st.now }) l) l
  | none => g

/-- The slot that new flits of the far side use: with the first flit under the other slot the old one retires (R458). -/
def Link.useSlot (v : Link) (slot : Nat) : Link :=
  match v.rxCur with
  | some c => if c = slot || v.rxRet = some slot || (Tab.find v.rxKey c).isNone then { v with rxCur := if v.rxRet = some slot then v.rxCur else some slot }
              else { v with rxCur := some slot, rxRet := some c }
  | none => { v with rxCur := some slot }

/-- What an accepted flit's payload may ask of this module's units (R453): a request or reply (types 1 and 2), a fabric-control flit (4), a link-control
flit (5) of the link it came on. -/
def inFlit (link ty : Nat) : Instr → Bool
  | .remotePassArrive _ | .windowPassArrive _ | .passReply .. | .passCommit .. | .passCancel .. | .storeAck _ _ (some _) | .claimArrive ..
  | .tileArrive .. | .withdrawal .. | .claimRefusal .. | .neverProduced _ _ _ none | .wsetStartFlit .. | .wsetDone .. | .spawnReport ..
  | .reserve _ | .held .. | .gangCommit _ | .placed .. | .refusedMsg .. | .gangCancel _ | .gangGo _ | .gangSave _ | .gangSaved ..
  | .holdReleaseNotice .. => ty == 1 || ty == 2
  | .creditReturn l .. => (ty == 1 || ty == 2) && l == link
  | .ftControlFlit l .. => ty == 4 && l == link
  | .nak l _ | .keydone l _ => ty == 5 && l == link
  | _ => false

/-- The event by which a payload reaches its unit; the layout of payloads is open (log 86). -/
def flitEvent (link : Nat) (h : Header) (payload : List Byte) : List Instr :=
  match Config.flitEvent h.ty h.info payload with
  | some i => if inFlit link h.ty i then [i] else []
  | none => []

/-- Part of a chunk (R316, R453): the chunk goes to its channel with its last byte. -/
def takeChunk (g : Go s0) (l : Nat) (h : Header) (payload : List Byte) : Go s0 :=
  let ch := bitf h.info 0 2
  let cs := bitf h.info 10 5
  let bs := Tab.get [] (g.st.link l).chunks ch ++ payload
  if 2 ^ cs ≤ bs.length then
    chunkArrive (modLink g l fun v => { v with chunks := Tab.del v.chunks ch }) l ch (bitf h.info 2 8) cs (bs.take (2 ^ cs))
  else modLink g l fun v => { v with chunks := Tab.put v.chunks ch bs }

/-- An accepted sequenced flit reaches its unit (R454), or goes on where it is in transit (R487). -/
def acceptFlit (g : Go s0) (l : Nat) (x : FlitIn) (h : Header) (head payload : List Byte) : Go s0 :=
  let clear := head ++ payload
  if (h.ty = 1 || h.ty = 2) && x.target ≠ g.st.mod.modid then later g (.flitForward l { x with raw := clear })
  else
    let g := send g (.delivered l clear)
    if h.ty = 3 then takeChunk g l h payload else g.each (flitEvent l h payload) fun i g => later g i

/-- FLIT_RECEIVE (R454): FEC, CRC, key slot, tag, repetition, sequence. A flit in transit goes on (R487); an accepted payload goes to its
unit. -/
def execFlitReceive (link : Nat) (x : FlitIn) (s : State) : Host.Outcome State Fault Refusal :=
  let v := s.link link
  if linkCount ≤ link || v.state ≠ 2 then .next s
  else
    let raw := fitBytes 256 x.raw
    let fixed := match Config.fecDecode raw with | some b => fitBytes 256 b | none => raw
    let g := countFec (Go.start s) link raw fixed
    let h := Header.ofBytes fixed
    if crc32 (fixed.take 240) ≠ BitVec.ofNat 32 (leNat ((fixed.drop 240).take 4)) then (sendNak (discardFlit g link) link).done
    else match Tab.find v.rxKey h.key with
      | none => (discardFlit g link).done
      | some (key, salt) =>
        match Config.gcmOpen key (nonce salt h.ivc) (fixed.take 16) ((fixed.take 240).drop 16) with
        | none =>
          let g := discardFlit g link
          (if !h.seqv then g
           else if v.tagFail.contains h.seq then linkDown g link 2
           else sendNak (modLink g link fun v => { v with tagFail := h.seq :: v.tagFail }) link).done
        | some payload =>
          if v.seen.contains (h.key, h.ivc) then (discardFlit g link).done
          else
            let g := if h.ackv then takeAck g link h.ack else g
            let g := modLink g link fun v => v.useSlot h.key
            if !h.seqv then
              ((modLink g link fun v => { v with seen := (h.key, h.ivc) :: v.seen }).each (flitEvent link h (fitBytes 208 payload)) fun i g => later g i).done
            else
              let d := (h.seq + 65536 - v.expect % 65536) % 65536
              if d ≠ 0 then
                let g := discardFlit g link
                (if d < 32768 then sendNak g link else g).done
              else
                let g := modLink g link fun v => { v with seen := (h.key, h.ivc) :: v.seen, expect := v.expect + 1
                                                          tagFail := v.tagFail.filter (fun n => n != h.seq) }
                (acceptFlit g link x h (fixed.take 16) (fitBytes 208 payload)).done

/-! ### Routing (R487) -/

/-- The link of a path of an entry. -/
def pathLink (e k : Nat) : Nat := bitf e (24 + 5 * (k % 4)) 5

/-- Sends a flit in clear on a link. -/
def resendClear (g : Go s0) (l : Nat) (x : FlitIn) : Go s0 :=
  let h := Header.ofBytes x.raw
  queueFlit g l h.ty h.info (x.raw.drop 16) x

/-- FLIT_FORWARD (R487): on path k of this module's entry for the target, as the die that took the flit reads it, or back to its source; `hops` counts
the hop by which it came. -/
def execFlitForward (link : Nat) (x : FlitIn) (s : State) : Host.Outcome State Fault Refusal :=
  if linkCount ≤ link then .next s
  else
    let (e, g) := peerEntry (Go.start s) x.target (link / 8)
    let l := pathLink e x.path
    (if bitf e 0 2 ≠ 1 || !g.st.linkUp l || 32 ≤ x.hops then send g (.flitBack link x)
     else resendClear g l { x with hops := x.hops + 1 }).done

/-- Is an earlier access of the flit's crew to its line in flight (R487)? -/
def State.earlierInFlight (s : State) (x : FlitIn) : Bool :=
  match x.acc with
  | none => false
  | some (c, n, ln) =>
    (match s.crew? c with
     | some c => c.sent.any fun f => f.line == ln && f.pass < n
     | none => false)
    || s.passes.any fun e => e.1 < n && e.2.crew == c && e.2.passes.any fun p => p.lanes.any fun l => l.addr.toNat / 64 == ln

/-- The same flit, wherever it has been. -/
def FlitIn.same (x y : FlitIn) : Bool := x.target == y.target && x.acc == y.acc && x.raw == y.raw

/-- RETURNED_FLIT (R487) at its source: it goes again on another up path, behind the earlier accesses of its crew to the line; one that has
come back from every up path within 100 µs makes the peer lost. -/
def execReturnedFlit (link : Nat) (x : FlitIn) (s : State) : Host.Outcome State Fault Refusal :=
  if linkCount ≤ link || x.src ≠ s.mod.modid then .next s
  else
    let (e, g) := peerEntry (Go.start s) x.target (link / 8)
    let old := (s.mod.returned.find? fun (r : Returned) => FlitIn.same r.flit x).getD { flit := x, tried := [], since := s.now }
    let r := if s.now < old.since + 100000 then old else { old with tried := [], since := s.now }
    let r := { r with flit := x, tried := (r.tried.filter fun k => k != x.path % 4) ++ [x.path % 4] }
    let rest := s.mod.returned.filter fun (q : Returned) => !FlitIn.same q.flit x
    let open_ := (g.st.pathsUp e).filter fun k => !r.tried.contains k
    if open_.isEmpty then (peerLost (g.put (.mod { g.st.mod with returned := rest })) x.target).done
    else
      let g := g.put (.mod { g.st.mod with returned := rest ++ [r] })
      if s.earlierInFlight x then (later g (.returnedFlit link x)).done
      else
        let k := open_.getD (Config.freeNat (s.salt 72 x.target) % open_.length) 0
        (resendClear g (pathLink e k) { x with path := k, hops := 1 }).done

/-! ### What the units send (R453, R487) -/

/-- The flit type of a message (log 86); 0 for one that is no sequenced flit. -/
def Msg.flitType : Msg → Nat
  | .pass .. | .commit .. | .cancel .. | .claim .. | .withdraw .. | .startFlit .. | .reserve .. | .gang .. | .spawnReport .. | .detached .. => 1
  | .reply .. | .ack .. | .withdrawn .. | .neverProduced .. | .claimRefused .. | .tile .. | .credit .. | .setDone .. | .flitBack .. => 2
  | .chunk .. => 3
  | .fabricTime .. => 4
  | .flit .. | .linkControl .. | .delivered .. | .regValue .. | .msix .. | .i3cAlert => 0

/-- The link that a message names. -/
def Msg.overLink : Msg → Option Nat
  | .claim l .. | .withdraw l .. | .withdrawn l .. | .neverProduced l .. | .claimRefused l .. | .tile l .. | .chunk l .. | .credit l ..
  | .fabricTime l .. | .flitBack l .. => some l
  | _ => none

/-- The peer that a message goes to. -/
def Msg.toPeer : Msg → Option Nat
  | .pass p .. | .reply p .. | .commit p .. | .cancel p .. | .ack p .. | .startFlit p .. | .setDone p .. | .reserve p .. | .gang p ..
  | .spawnReport p .. | .detached p .. => some p
  | _ => none

/-- The access that a message carries for a crew of this module (R487): the crew's place, the number of the pass set, the line. -/
def State.msgAccess (s : State) : Msg → Option (Nat × Nat × Nat)
  | .pass _ p => (s.crewByInst p.crew).map fun e => (e.1, p.id / 2 ^ 18, match p.lanes with | l :: _ => farLine l.addr.toNat | [] => 0)
  | .commit _ id (some (ln, _)) _ => (s.crews.find? fun e => e.2.sent.any fun f => f.pass == id / 2 ^ 18).map fun e => (e.1, id / 2 ^ 18, ln)
  | _ => none

/-- The path that a message takes (R126, R487): that of its group, or of an unacknowledged access to the same line, or an open one that is up. -/
def State.msgPath (s : State) (m : Msg) (n p : Nat) (up : List Nat) : Nat :=
  let any := up.getD (Config.freeNat (s.salt 87 n) % up.length) 0
  match m with
  | .commit _ _ (some (_, k)) _ => k
  | .pass .. =>
    (match s.msgAccess m with
    | some (x, _, ln) => (((s.crew? x).bind fun c => c.sent.find? fun f => f.peer == p && f.line == ln).map fun f => f.path).getD any
    | none => any)
  | _ => any

/-- A message's bytes in payloads of 208, one at least. -/
def payloads (bs : List Byte) : List (List Byte) := (List.range (max 1 ((bs.length + 207) / 208))).map fun n => (bs.drop (208 * n)).take 208

/-- FL.INFO of a message and its bytes (R453): those of a chunk are given, the layout of the others is open (log 86). -/
def State.msgBytes (s : State) (m : Msg) (n : Nat) : Nat × List Byte :=
  match m with
  | .chunk _ ch set cs data => (ch % 4 + 4 * (set % 256) + 1024 * (cs % 32), data)
  | _ => (Config.freeNat (s.salt 88 n) % 2 ^ 32, Config.freeBytes (s.salt 88 n))

/-- Queues a message's flits on a link. -/
def queueMsg (g : Go s0) (l n : Nat) (m : Msg) (x : FlitIn) : Go s0 :=
  g.each (payloads (g.st.msgBytes m n).2) fun p g => queueFlit g l m.flitType (g.st.msgBytes m n).1 p x

/-- The `n`-th message of the module goes onto its link (R453, R487): the link it names, or that of a path of its peer's entry. -/
def wireMsg (g : Go s0) (n : Nat) (m : Msg) : Go s0 :=
  if m.flitType = 0 then g
  else
    match m.overLink, m.toPeer with
    | some l, _ => queueMsg g l n m linkOnly
    | none, some p =>
      let (e, g) := peerEntry g p
      if bitf e 0 2 ≠ 1 then g
      else
        let k := g.st.msgPath m n p (g.st.pathsUp e)
        queueMsg g (pathLink e k) n m { linkOnly with src := g.st.mod.modid, target := p, path := k, hops := 1, acc := g.st.msgAccess m }
    | none, none => g

/-- The messages that a turn has added to the first `old` go onto their links. -/
def wireOut (g : Go s0) (old : Nat) : Go s0 := g.each ((g.st.outbox.drop old).zipIdx old) fun e g => wireMsg g e.2 e.1

/-! ### Lane health (R457) -/

/-- LANE_HEALTH_WINDOW (R457): the end of a window of 1024 µs, or of several, one update for each. -/
def execLaneHealthWindow (link : Nat) (s : State) : Host.Outcome State Fault Refusal :=
  if linkCount ≤ link || s.now / 1024000 ≤ (s.link link).window then .next s
  else (modLink (Go.start s) link fun v => v.toWindow s.now).done

/-! ### The peer table (R459) -/

/-- PT.FLUSH is written (R459). -/
def ptFlush (g : Go s0) : Go s0 := g.put (.mod { g.st.mod with ptCache := [] })

/-- PT_FLUSH (R459). -/
def execPtFlush (s : State) : Host.Outcome State Fault Refusal := (ptFlush (Go.start s)).done

/-- PATHS_DOWN_EXPIRY (R459): the links of all four paths have been down for 100 µs. The entry is read at its home. -/
def execPathsDownExpiry (peer : Nat) (s : State) : Host.Outcome State Fault Refusal :=
  let e := leNat (s.bytesAt (s.mod.ptBase.toNat + 8 * peer) 8)
  let down := fun l => (s.link l).state == 0 && (s.link l).downAt + 100000 ≤ s.now
  if peer < s.mod.ptCount.toNat && peer ≠ s.mod.modid && (List.range 4).all (fun k => down (pathLink e k)) then
    (peerLost (Go.start s) peer).done
  else .next s

end Sys2Proof.Machine
end

