-- ==== Sys2Proof/Machine/FabTime.lean ====
section
/-! DEFINITION. Fabric time (R466, R467): the source, the offset and its bound, holdover, failure, and the passing of time. -/

namespace Sys2Proof.Machine

open Sys2Proof

variable {s0 : State}

/-- The source of fabric time: FT.SRC, or FT.BACKUP while that link is down; none with neither link up. -/
def State.timeSource (s : State) : Option Nat :=
  if s.linkUp s.ft.src.toNat then some s.ft.src.toNat
  else if s.linkUp s.ft.backup.toNat then some s.ft.backup.toNat
  else none

/-- |FT.OFFSET| + FT.BOUND. -/
def FabTime.error (f : FabTime) : Nat := f.offset.toInt.natAbs + f.bound.toNat

/-- FT.LOCK: the error has stayed within 8 ns for 1 ms. -/
def FabTime.locked (f : FabTime) (now : Nat) : Bool := f.within != 0 && f.within + 999999 ≤ now

/-- Takes a new estimate: whether it is within 8 ns, and since when. -/
def FabTime.judge (f : FabTime) (now : Nat) : FabTime :=
  { f with within := if f.error ≤ 8 then (if f.within = 0 then now + 1 else f.within) else 0 }

/-- Fabric time has failed: FT.FAIL, and every link down with error 5. -/
def timeFail (g : Go s0) : Go s0 := allLinksDown (g.put (.ft { g.st.ft with fail := true })) 5

/-- A module whose error exceeds 12 ns fails. -/
def timeCheck (g : Go s0) : Go s0 := if 12 < g.st.ft.error then timeFail g else g

/-- A measured offset to the source: this module's time less the sender's now, half the round trip after it sent (log 42). -/
def measured (now time trip : Nat) : Int := (now : Int) - ((time + trip / 2 : Nat) : Int)

/-- FT_CONTROL_FLIT (R467): the sender's time, its own offset and bound, and the measured round trip. -/
def execFtControlFlit (link : Nat) (time : Nat) (offset : Int) (bound trip : Nat) (s : State) : Host.Outcome State Fault Refusal :=
  if s.ft.root || !s.ft.run || s.ft.fail || s.timeSource ≠ some link then .next s
  else
    let o := measured s.now time trip + offset
    let f : FabTime := { s.ft with
      offset := BitVec.ofInt 32 o, bound := BitVec.ofNat 8 (min 255 (bound + 1)), hold := false, holdSteps := 0
      slew := if 0 < o then -1 else if o < 0 then 1 else 0 }
    (timeCheck ((Go.start s).put (.ft (f.judge s.now)))).done

/-- FT_HOLDOVER_EXPIRY (R467): 100 µs more of holdover have passed; after 1 ms of it the time fails. -/
def execFtHoldoverExpiry (s : State) : Host.Outcome State Fault Refusal :=
  let f := s.ft
  if f.root || !f.run || f.fail || !f.hold || s.timeSource.isSome || s.now < f.holdFrom + 100000 * (f.holdSteps + 1) then .next s
  else
    let f : FabTime := { f with bound := BitVec.ofNat 8 (min 255 (f.bound.toNat + 1)), holdSteps := f.holdSteps + 1 }
    let g := (Go.start s).put (.ft (f.judge s.now))
    (if 10 ≤ f.holdSteps then timeFail g else timeCheck g).done

/-- FT.NOW is written (R466): discarded while the counter runs. -/
def ftNowWrite (g : Go s0) (value : Word) : Go s0 :=
  if g.st.ft.run then g
  else
    let f : FabTime := { g.st.ft with within := 0 }
    (g.put (.now value.toNat)).put (.ft (f.judge value.toNat))

/-- FT_NOW_WRITE (R466). -/
def execFtNowWrite (value : BitVec 64) (s : State) : Host.Outcome State Fault Refusal := (ftNowWrite (Go.start s) value).done

/-- A write to the control word of fabric time (R466, R467): a counter that starts again has not failed. -/
def ftControl (g : Go s0) (value : Word) : Go s0 :=
  let v := value.toNat
  let f := g.st.ft
  let run := bitf v 0 1 == 1
  let root := bitf v 1 1 == 1
  let starts := run && !f.run
  let f : FabTime := { f with
    backup := BitVec.ofNat 5 (bitf v 7 5), src := BitVec.ofNat 5 (bitf v 2 5), root := root, run := run
    offset := if root then 0 else f.offset, bound := if root then 0 else f.bound, slew := if root then 0 else f.slew
    hold := f.hold && !root && !starts, holdSteps := if starts then 0 else f.holdSteps, fail := f.fail && !starts }
  g.put (.ft (f.judge g.st.now))

/-- The control and status words (R466). -/
def State.ftWord (s : State) (off : Nat) : Nat :=
  let f := s.ft
  if off = 0 then s.now % 2 ^ 64
  else if off = 8 then f.run.toNat + 2 * f.root.toNat + 4 * f.src.toNat + 128 * f.backup.toNat
  else (f.locked s.now).toNat + 2 * f.hold.toNat + 4 * f.fail.toNat + 2 ^ 24 * f.bound.toNat + 2 ^ 32 * f.offset.toNat

/-- `ns` of this module's clock, corrected by the slew in force (R467). Fabric time stands still while FT.RUN = 0. -/
def moveTime (g : Go s0) (ns : Nat) : Go s0 :=
  let f := g.st.ft
  if !f.run then g
  else
    let alone := !f.root && g.st.timeSource.isNone
    let g := g.put (.ft (if alone then (if f.hold then f else { f with hold := true, holdFrom := g.st.now, holdSteps := 0, slew := 0 })
                         else { f with hold := false }))
    g.put (.now (g.st.now + ((ns : Int) + f.slew * (ns / 1000 : Nat)).toNat))

/-- The fabric-control flit of every up link at one time (R467): that time, and the module's own offset and bound, 0 at the root. -/
def tellTime (g : Go s0) (time : Nat) : Go s0 :=
  let f := g.st.ft
  g.each ((List.range linkCount).filter g.st.linkUp) fun l g =>
    send g (.fabricTime l time (if f.root then 0 else f.offset.toInt) (if f.root then 0 else f.bound.toNat))

/-- Fabric time passes: every link that is up carries a fabric-control flit for each µs of it (R467), and the units have corrected some errors,
how many is open (R471, log 87). -/
def elapse (g : Go s0) (ns : Nat) : Go s0 :=
  let from_ := g.st.now
  let g := moveTime g ns
  let g := if g.st.ft.run then g.each (List.range (g.st.now / 1000 - from_ / 1000)) fun k g => tellTime g (1000 * (from_ / 1000 + k + 1))
    else g.each (List.range (ns / 1000)) fun _ g => tellTime g from_
  g.put (.mod { g.st.mod with errCe := g.st.mod.errCe + BitVec.ofNat 32 (Config.freeNat (g.st.salt 86 0)) })

end Sys2Proof.Machine
end

