-- ==== Sys2Proof/Machine/Portable.lean ====
section
/-! DEFINITION. Olisia portable text (R157 to R165): what of it the installation service refuses by its text alone, and what its statements keep
in the native image. -/

namespace Sys2Proof.Machine

open Sys2Proof

/-! ### What a statement keeps (R164) -/

/-- What the translator keeps of a statement: an instruction's HINT.YIELD and HINT.CC, or a `.barrier` with its number among those of its
body. -/
inductive Kept where
  | hint (yield : Bool) (cc : Nat)
  | barrier (n : Nat)
deriving DecidableEq, Repr

def keptHints (l : TextLine) : Kept :=
  let hs := l.hints
  .hint (hs.contains (tok "!yield"))
    (if hs.contains (tok "!cc=stream") then 1 else if hs.contains (tok "!cc=keep") then 2 else if hs.contains (tok "!cc=noalloc") then 3 else 0)

/-! ### Reading a file (R158, R161, R163, R165) -/

/-- Where a line stands. -/
inductive Place_ where
  | file | kernel | fn | winch
deriving DecidableEq, Repr

/-- What a kernel's attributes fix of its descriptor (R23, R161, R162): the width (none under `.crew any`), the crews, the pair, the scratch
bytes as written, the members of a gang, the tiles and the argument bytes so far; none of a number that is no literal. -/
structure KernelAttrs where
  width   : Option Nat := none
  crews   : Option Nat := some 1
  pair    : Bool := false
  scratch : Option Nat := some 0
  gang    : Option Nat := some 0
  tiles   : Option Nat := some 0
  args    : Option Nat := some 0
deriving DecidableEq, Repr

/-- A statement: the body it stands in and whether that is winch text or a function, the width of its kernel where it is fixed, and whether
the kernel is `.crew any`. -/
structure Stmt where
  body    : Tok
  winch   : Bool
  width   : Option Nat
  anyCrew : Bool
  line    : TextLine
deriving DecidableEq, Repr

/-- What reading has come to: the place and its name, the attributes seen of the kernel and their values, those of the kernels before it, whether it is
`.crew any`, whether its first instruction was read, whether a region is open, the barriers of the body, whether a `.chunk` was seen, whether
an `.align` waits for its data, the names defined with what they stand for, the arguments with their
kernels (a name of an argument is its kernel's: DEDUCED from the manual's listings, log 67), the statements, the data values with their types, and what the
statements keep. -/
structure Reading_ where
  place   : Place_
  body    : Tok
  attrs   : List Tok
  kernel  : KernelAttrs
  kernels : List KernelAttrs
  anyCrew : Bool
  started : Bool
  region  : Bool
  bars    : Nat
  chunk   : Bool
  align   : Bool
  names   : Symbols
  params  : List (Tok × Tok × Option Int)
  stmts   : List Stmt
  values  : List (Tok × Ty × Tok)
  kept    : List Kept
deriving DecidableEq, Repr

def Reading_.start : Reading_ :=
  { place := .file, body := [], attrs := [], kernel := {}, kernels := [], anyCrew := false, started := false, region := false, bars := 0, chunk := false, align := false
    names := [], params := [], stmts := [], values := [], kept := [] }

/-- A name that may be defined here: it is one, is not taken in the text it stands in, and no name of the file or of this kernel's arguments is
spelled so (R158, R163). -/
def Reading_.fresh (r : Reading_) (t : Tok) : Bool :=
  isName t && !(r.names.any fun e => e.1 == t) && !(r.place != .file && isTaken (r.place == .winch) t)
    && !(r.params.any fun e => e.1 == r.body && e.2.1 == t)

/-- Defines a name of the file; none where it may not be defined. -/
def Reading_.define (r : Reading_) (t : Tok) : Option Reading_ := if r.fresh t then some { r with names := (t, none) :: r.names } else none

/-- Defines an argument of the kernel with its offset. -/
def Reading_.param (r : Reading_) (t : Tok) (v : Option Int) : Option Reading_ :=
  if r.fresh t then some { r with params := (r.body, t, v) :: r.params } else none

/-- The symbols that a body's statements may name. -/
def Reading_.symbols (r : Reading_) (body : Tok) : Symbols := (r.params.filter fun e => e.1 == body).map Prod.snd ++ r.names

/-- Defines the labels of a line. -/
def Reading_.defineAll (r : Reading_) : List Tok → Option Reading_
  | [] => some r
  | t :: ts => (r.define t).bind fun r => r.defineAll ts

/-- Opens a kernel, a function or a winch program. -/
def Reading_.open_ (r : Reading_) (p : Place_) (args : List Tok) : Option Reading_ :=
  match r.place, args with
  | .file, [name] =>
    (r.define name).map fun r =>
      { r with place := p, body := name, attrs := [], kernel := {}, anyCrew := false, started := false, region := false, bars := 0, chunk := false }
  | _, _ => none

/-- Is a literal operand within bounds? What is no literal is the translator's. -/
def within (lo hi : Nat) (t : Tok) : Bool := match literal t with | some n => lo ≤ n && n ≤ hi | none => true

/-- A power of two. -/
def isPow2 (t : Tok) : Bool := match literal t with | some n => n != 0 && n &&& (n - 1) == 0 | none => true

/-- The type that a word names; a block type is none of an argument or datum (R162). -/
def tyNamed (t : Tok) : Option Ty := (suffixTy (t.drop 1)).bind fun ty => if t.head? == some 46 && ty.kind != .bfp then some ty else none

/-- The next multiple. -/
def roundUp (n k : Nat) : Nat := (n + k - 1) / k * k

/-- The offset of a kernel's next argument (R162). -/
def KernelAttrs.nextArg (k : KernelAttrs) (ty : Ty) : Option Int := k.args.map fun a => (roundUp a (ty.bits / 8) : Int)

/-- A kernel's argument block with one more field (R162). -/
def KernelAttrs.addArg (k : KernelAttrs) (ty : Ty) (count : Option Nat) : KernelAttrs :=
  { k with args := match k.args, count with
      | some a, some n => some (roundUp a (ty.bits / 8) + n * (ty.bits / 8))
      | _, _ => none }

/-- A kernel with one attribute more. -/
def KernelAttrs.set (k : KernelAttrs) (name : Tok) (v : Option Nat) : KernelAttrs :=
  if name == tok ".crew" then { k with width := v }
  else if name == tok ".team" then { k with crews := v }
  else if name == tok ".pair" then { k with pair := true }
  else if name == tok ".scratch" then { k with scratch := v }
  else if name == tok ".gang" then { k with gang := v }
  else { k with tiles := v }

/-- A kernel attribute (R161): within its limits, once, before the kernel's first instruction. -/
def Reading_.attr (r : Reading_) (name : Tok) (args : List Tok) : Option Reading_ :=
  let one := args.getD 0 []
  let ok :=
    if name == tok ".pair" then args.isEmpty
    else args.length == 1 &&
      (if name == tok ".crew" then (listed "32 64 128 any").contains one
       else if name == tok ".team" then within 1 32 one
       else if name == tok ".gang" then within 1 64 one
       else if name == tok ".tiles" then within 0 16 one
       else true)
  if r.place == .kernel && !r.started && !r.attrs.contains name && ok then
    some { r with attrs := name :: r.attrs, anyCrew := r.anyCrew || one == tok "any", kernel := r.kernel.set name (literal one) }
  else none

/-- A directive (R161): none where the service refuses it. -/
def Reading_.directive (r : Reading_) (name : Tok) (args : List Tok) : Option Reading_ :=
  let body := r.place == .kernel || r.place == .fn
  let data := name == tok ".const" || name == tok ".data"
  if r.align && !data && (listed ".align .end_kernel .end_fn").contains name then none
  else if name == tok ".kernel" then r.open_ .kernel args
  else if name == tok ".fn" then r.open_ .fn args
  else if name == tok ".winch" then r.open_ .winch args
  else if name == tok ".end_kernel" then
    if r.place == .kernel && args.isEmpty && r.attrs.contains (tok ".crew")
        && r.kernel.scratch.getD 0 ≤ (if r.kernel.pair then 8 else 4) * 2 ^ 20 then
      some { r with place := .file, kernels := r.kernels ++ [r.kernel] }
    else none
  else if name == tok ".end_fn" then if r.place == .fn && args.isEmpty then some { r with place := .file } else none
  else if name == tok ".end_winch" then if r.place == .winch && args.isEmpty && r.chunk then some { r with place := .file } else none
  else if name == tok ".chunk" then
    if r.place == .winch && !r.chunk && args.length == 1 && args.all (within 64 65536) && args.all isPow2 then some { r with chunk := true } else none
  else if (listed ".crew .team .pair .scratch .gang .tiles").contains name then r.attr name args
  else if name == tok ".region" then if body && !r.region && args.isEmpty then some { r with region := true } else none
  else if name == tok ".barrier" then
    if body && r.region && args.isEmpty then some { r with region := false, bars := r.bars + 1, kept := r.kept ++ [.barrier r.bars] } else none
  else if name == tok ".arg" then
    match tyNamed (args.getD 1 []) with
    | some ty =>
      if r.place == .kernel && (args.length == 2 || (args.length == 3 && within 1 4096 (args.getD 2 []))) then
        { r with kernel := r.kernel.addArg ty (if args.length = 2 then some 1 else literal (args.getD 2 [])) }.param (args.getD 0 []) (r.kernel.nextArg ty)
      else none
    | none => none
  else if data then
    match tyNamed (args.getD 1 []) with
    | some ty =>
      if (name == tok ".data" || r.place == .kernel) && 3 ≤ args.length then
        { r with align := false, values := r.values ++ (args.drop 2).map fun v => (r.body, ty, v) }.define (args.getD 0 [])
      else none
    | none => none
  else if name == tok ".align" then
    if args.length == 1 && args.all (within 1 65536) && args.all isPow2 then some { r with align := true } else none
  else none

/-- Is the first operand a literal barrier number that the translator reserves (R165)? -/
def reservedBarrier (l : TextLine) : Bool :=
  match (l.args.getD 0 []).filter fun c => c != 91 && c != 93 with
  | t => match literal t with | some n => 8 ≤ n && n ≤ 15 | none => false

/-- Is the instruction of a crew text refused (R160, R163, R165): an unknown mnemonic, a suffix that stands twice, an unknown hint, `bar`, a
reserved barrier number, a group 5 instruction under `.crew any`, or any of group 14? -/
def crewRefused (anyCrew : Bool) (l : TextLine) : Bool :=
  (match groupOf l.base with
    | none => true
    | some n => (n == 5 && anyCrew) || n == 14)
  || l.suffixes.any (fun x => x.isEmpty || 1 < l.suffixes.count x) || l.hints.any (fun h => !isHint h)
  || l.base == tok "bar" || (l.base.take 4 == tok "knot" && reservedBarrier l)

/-- The statement that a line is. -/
def Reading_.stmt (r : Reading_) (l : TextLine) : Stmt :=
  { body := r.body, winch := r.place == .winch, width := r.kernel.width, anyCrew := r.anyCrew, line := l }

/-- An instruction: none where the service refuses it. -/
def Reading_.instr (r : Reading_) (l : TextLine) : Option Reading_ :=
  if r.align then none
  else
    match r.place with
    | .file => none
    | .winch =>
      if winchNames.contains l.base && !l.guard then some { r with stmts := r.stmts ++ [r.stmt l], kept := r.kept ++ [.hint false 0] } else none
    | _ =>
      if r.region && !crewRefused r.anyCrew l then
        some { r with started := true, stmts := r.stmts ++ [r.stmt l], kept := r.kept ++ [keptHints l] }
      else none

/-- The characters of a line: bytes that continue a character do not count. -/
def lineLength (t : Tok) : Nat := (t.filter fun c => c / 64 != 2).length

/-- Reads one more line. -/
def Reading_.line (r : Reading_) (t : Tok) : Option Reading_ :=
  let l := readLine t
  if 1024 < lineLength t || !l.ok then none
  else
    (r.defineAll l.labels).bind fun r =>
      if l.head.isEmpty then some r
      else if l.head.head? == some 46 then r.directive l.head l.args
      else r.instr l

/-- Reads the lines of a file. -/
def Reading_.lines (r : Reading_) : List Tok → Option Reading_
  | [] => some r
  | t :: ts => (r.line t).bind fun r => r.lines ts

/-! ### The file as a whole (R162, R163, R165) -/

/-- A value of `.const` or `.data` (R162): under an integer or `.b` type an expression within the type's values, under a floating-point type a
number. -/
def valueOk (syms : Symbols) (ty : Ty) (t : Tok) : Bool :=
  if ty.kind = .float then (fpLiteral t).isSome || (literal (if t.head? == some 45 then t.drop 1 else t)).isSome
  else
    match exprValue syms t with
    | some (some v) => -2 ^ (ty.bits - 1) ≤ v && v < 2 ^ ty.bits
    | some none => true
    | none => false

/-- Does a statement stand for an instruction? -/
def Stmt.ok (syms : Symbols) (s : Stmt) : Bool :=
  if s.winch then winchStatementOk syms s.line else statementOk syms (s.width.getD 32) s.line

/-- The bodies that some bodies call. -/
def calledBy (stmts : List Stmt) (bodies : List Tok) : List Tok :=
  stmts.filterMap fun s => if bodies.contains s.body && s.line.base == tok "call" then s.line.args.head? else none

/-- The bodies that run for a `.crew any` kernel: the kernels and what they call, by `n` calls. -/
def anyBodies (stmts : List Stmt) : Nat → List Tok
  | 0 => ((stmts.filter fun s => s.anyCrew).map fun s => s.body).eraseDups
  | n + 1 => let bs := anyBodies stmts n; (bs ++ calledBy stmts bs).eraseDups

/-- No body that runs for a `.crew any` kernel holds an instruction of group 5 (R165). -/
def groupFiveOk (stmts : List Stmt) : Bool :=
  let five := stmts.filter fun s => !s.winch && groupOf s.line.base == some 5
  five.isEmpty || (let bs := anyBodies stmts ((stmts.map fun s => s.body).eraseDups.length); five.all fun s => !bs.contains s.body)

/-- Reads portable text: what its statements keep, in order, and its kernels' attributes; none where the text is refused by R163 or R165. -/
def readPortable (text : List Byte) : Option (List Kept × List KernelAttrs) :=
  match Reading_.start.lines (splitAt (fun c => c == 10) (text.map BitVec.toNat)) with
  | some r =>
    if r.place == .file && !r.align && (r.stmts.all fun s => s.ok (r.symbols s.body)) && (r.values.all fun v => valueOk (r.symbols v.1) v.2.1 v.2.2) && groupFiveOk r.stmts then
      some (r.kept, r.kernels)
    else none
  | none => none

/-! ### The native text (R164, R165) -/

/-- A word with the HINT.YIELD and HINT.CC of its statement; a `.barrier` becomes `bar` at one of the barriers 8 to 15, in turn (DESIGN CHOICE,
log 67). -/
def keepWord (k : Kept) (w : List Byte) : List Byte :=
  match k with
  | .hint yield cc =>
    let n := leNat w
    leBytes (n % 2 ^ 86 + 2 ^ 86 * yield.toNat + 2 ^ 87 * (cc % 4) + n / 2 ^ 89 * 2 ^ 89) 12
  | .barrier n =>
    leBytes (encodeCrew .bar { sel := .var 0, f := false, guard := { pred := 0, neg := false, uni := false }, d := .none
                               a := .i (BitVec.ofNat 15 (8 + n % 8)), b := .none, ext := 0, hint := decodeHint 0 }) 12

/-- A native text with what its statements keep: `from_` names the statement of each word. -/
def keepText (kept : List Kept) : List (Option Nat) → List Byte → List Byte
  | [], t => t
  | o :: os, t =>
    (match o.bind fun n => kept[n]? with
      | some k => if t.length < 12 then t.take 12 else keepWord k (t.take 12)
      | none => t.take 12) ++ keepText kept os (t.drop 12)

/-! ### The kernel descriptors (R23, R408) -/

/-- A descriptor with `n` bits from bit `lo` on replaced. -/
def withBits (d : BitVec 256) (lo n v : Nat) : BitVec 256 :=
  BitVec.ofNat 256 (d.toNat % 2 ^ lo + v % 2 ^ n * 2 ^ lo + d.toNat / 2 ^ (lo + n) * 2 ^ (lo + n))

/-- The same where the text fixes the value; else the translator's stays. -/
def withFixed (d : BitVec 256) (lo n : Nat) : Option Nat → BitVec 256
  | some v => withBits d lo n v
  | none => d

/-- A kernel's descriptor holds what its attributes fix (R23, R28, R162, R408): `.crew any` leaves the width to the translator. -/
def KernelAttrs.desc (k : KernelAttrs) (d : BitVec 256) : BitVec 256 :=
  let d := withFixed d 19 2 (k.width.map fun w => w / 64)
  let d := withBits (withFixed d 21 6 k.crews) 27 1 k.pair.toNat
  let d := withFixed (withFixed d 29 5 k.tiles) 34 7 k.gang
  withFixed (withFixed d 128 32 (k.args.map fun a => roundUp a 8)) 160 32 (k.scratch.map fun n => roundUp n 4096)

/-- What installation makes of a text (R23, R163 to R167, R481): refused by its text or by the translator, or the translator's native image, with
one descriptor for each kernel, with what the statements keep and the attributes fix. -/
def translateText (text : List Byte) : Option NativeImage :=
  match readPortable text, Config.translator text with
  | some (kept, ks), some (i, from_) =>
    if i.descs.length = ks.length then some { i with text := keepText kept from_ i.text, descs := List.zipWith KernelAttrs.desc ks i.descs } else none
  | _, _ => none

/-- The bytes of a native image in stored order (R475). -/
def NativeImage.stored (m : NativeImage) : List Byte :=
  m.text ++ (m.descs.map fun d => leBytes d.toNat 32).flatten ++ m.banks.flatten ++ m.data ++ (m.binds.map fun b => b.2).flatten

end Sys2Proof.Machine
end

