-- ==== Sys2Proof/Machine/Install.lean ====
section
/-! DEFINITION. Installation, loading and attestation (R161 to R167, R226, R238, R408, R409, R443 to R445, R471 to R475, R479 to R482). -/

namespace Sys2Proof.Machine

open Sys2Proof

variable {s0 : State}

/-! ### A native image (R408, R409, R444 steps 5 to 7) -/

/-- A kernel descriptor (R408) of an object whose text starts at `base`, with the class that the loader computed. -/
def kdOf (base : Nat) (uclass : Bool) (d : BitVec 256) : Kd :=
  let n := d.toNat
  { entry := BitVec.ofNat 64 (base + bitf n 192 64), scratch := bitf n 160 32, argSize := bitf n 128 32, frame := bitf n 50 9
    wrows := bitf n 41 9, gang := bitf n 34 7, tiles := bitf n 29 5, uclass := uclass, pair := bitf n 27 1 == 1
    crews := bitf n 21 6, width := 32 * 2 ^ bitf n 19 2 }

/-- The instructions of a text, word by word; none where a word decodes to no instruction. -/
def textWords (t : List Byte) : Nat → List (Option Instr)
  | 0 => []
  | n + 1 => (match decodeBytes (t.take 12) with | .ok (i, _) => some i | .error _ => none) :: textWords (t.drop 12) n

def NativeImage.words (m : NativeImage) : List (Option Instr) := textWords m.text (m.text.length / 12)

/-- The entries of an image's kernels, by instruction number. -/
def NativeImage.entries (m : NativeImage) : List Nat := m.descs.map fun d => bitf d.toNat 192 64 / 12
/-- The entries of its functions. -/
def NativeImage.fnEntries (m : NativeImage) : List Nat := (m.fns.filterMap id).map fun e => e.1 / 12

/-- Where the kernel or function that starts at `e` ends: at the next start, or at the end of the text. -/
def NativeImage.endOf (m : NativeImage) (e : Nat) : Nat :=
  (NativeImage.entries m ++ NativeImage.fnEntries m).foldl (fun a x => if e < x && x < a then x else a) (m.text.length / 12)

/-- The instruction that an offset operand of instruction `k` names (R134). -/
def wordTarget (k : Nat) (o : Operand) : Option Int :=
  match o with
  | .i v => some (k + 1 + imm15 v)
  | .w x => some (k + 1 + x.toInt)
  | _ => none

/-- The instructions of the body that starts at `e`, with their numbers. -/
def NativeImage.body (m : NativeImage) (ws : List (Option Instr)) (e : Nat) : List (Nat × Instr) :=
  ((ws.zipIdx.drop e).take (NativeImage.endOf m e - e)).filterMap fun x => x.1.map fun i => (x.2, i)

/-- The bodies that one instruction reaches (R409). -/
def reaches (m : NativeImage) (x : Nat × Instr) : List Nat :=
  match x.2 with
  | .call f => match wordTarget x.1 f.a with
    | some t => (NativeImage.fnEntries m).filter fun e => (e : Int) == t
    | none => []
  | .callx _ => NativeImage.fnEntries m
  | _ => []

/-- The bodies reached from some in at most `n` calls. -/
def closeReach (m : NativeImage) (ws : List (Option Instr)) (seen : List Nat) : Nat → List Nat
  | 0 => seen
  | n + 1 => closeReach m ws (distinct (seen ++ (seen.map fun e => ((NativeImage.body m ws e).map (reaches m)).flatten).flatten)) n

/-- Is the type a floating-point one? -/
def floatSel : Sel → Bool
  | .ty t => t.kind == .float
  | .var _ => false

/-- An order-sensitive form with its F bit (R409). -/
def orderSensitive : Instr → Option Bool
  | .atom f => if f.d.cls = .none then none else some f.f
  | .atomf f | .cas f => some f.f
  | .red f | .redux f | .scan f => if floatSel f.sel then some f.f else none
  | .ratom f => if f.d.cls = .v || floatSel f.sel then some f.f else none
  | _ => none

/-- Is the kernel that starts at `e` U-class (R409)? -/
def NativeImage.uclass (m : NativeImage) (ws : List (Option Instr)) (e : Nat) : Bool :=
  (closeReach m ws [e] (m.fns.length + 1)).any fun b => (NativeImage.body m ws b).any fun x => orderSensitive x.2 == some false

/-- The classes of an image's kernels by its own text. -/
def NativeImage.classes (m : NativeImage) : List Bool :=
  let ws := NativeImage.words m
  (NativeImage.entries m).map (NativeImage.uclass m ws)

/-- Does the kernel that starts at `e` reach a `callx`? -/
def NativeImage.reachesCallx (m : NativeImage) (ws : List (Option Instr)) (e : Nat) : Bool :=
  (closeReach m ws [e] (m.fns.length + 1)).any fun b => (NativeImage.body m ws b).any fun x => match x.2 with | .callx _ => true | _ => false

/-- Does the body at an address of a context hold an order-sensitive form with F = 0? The text is that of the loaded object that the address
lies in; what the scan finds at an address in no loaded object is left open (DESIGN CHOICE, safe, log 68). -/
def State.boundUclass (s : State) (ctx : Nat) (a : BitVec 64) : Bool :=
  let inText := fun o : Obj => o.ctx == ctx && !o.retired && o.textBase.toNat ≤ a.toNat && a.toNat < o.textBase.toNat + o.textSize
  let image := (s.objs.find? fun o => inText o.2).bind fun o =>
    (s.mod.cache.find? fun e => e.2.portable == o.2.portable && e.2.svn == o.2.svn).map fun e => (o.2, e.2.native)
  match image with
  | some (o, m) => NativeImage.uclass m (NativeImage.words m) ((a.toNat - o.textBase.toNat) / 12)
  | none => Config.freeBit (s.salt 82 a.toNat)

/-- The classes of an image's kernels as a load in a context finds them (R409): a reachable `callx` also reaches what the loader binds to the
external functions. -/
def State.classesAt (s : State) (ctx : Nat) (m : NativeImage) : List Bool :=
  let ws := NativeImage.words m
  let bound := (m.binds.filterMap fun b => Config.binding ctx b.2).any fun x => s.boundUclass ctx x.1
  (NativeImage.entries m).map fun e => NativeImage.uclass m ws e || (bound && NativeImage.reachesCallx m ws e)

/-- Are the targets and merge points of an instruction where R226 and R227 want them, in the body from `e` to `z`? A `bra` without D merges at
the greater of its target and the next instruction (R225). -/
def targetsOk (m : NativeImage) (e z : Nat) (x : Nat × Instr) : Bool :=
  let inside := fun o : Operand => match wordTarget x.1 o with
    | some t => (e : Int) ≤ t && t < z
    | none => true
  match x.2 with
  | .bra f => inside f.a && inside f.d && (match f.d, wordTarget x.1 f.a with
    | .i _, _ => true
    | _, some t => max t (x.1 + 1) < z
    | _, none => true)
  | .brx f => inside f.d
  | .call f => match wordTarget x.1 f.a with
    | some t => (NativeImage.fnEntries m).any fun n => (n : Int) == t
    | none => true
  | _ => true

/-- Does a descriptor keep the limits of R21, R24, R49 and R408, in a partition whose cores have scratch parts of `part` bytes? -/
def descOk (m : NativeImage) (ws : List (Option Instr)) (part : Nat) (d : BitVec 256) : Bool :=
  let k := kdOf 0 false d
  let cores := if k.pair then 2 else 1
  let need := k.width / 32 * k.wrows
  let frames := (closeReach m ws [k.entry.toNat / 12] (m.fns.length + 1)).all fun b =>
    (m.fns.filterMap id).all fun f => f.1 / 12 != b || f.2 ≤ k.wrows
  k.width ≤ 128 && k.wrows % 8 == 0 && 16 ≤ k.wrows && k.wrows ≤ (if k.width = 128 then 128 else 256)
    && k.frame % 8 == 0 && 8 ≤ k.frame && k.frame ≤ k.wrows && frames
    && 1 ≤ k.crews && k.crews ≤ 32 && k.crews ≤ 8 * cores * min 8 (512 / need)
    && k.scratch % 4096 == 0 && k.scratchOk part && k.tiles ≤ 16 && k.gang ≤ 64
    && k.entry.toNat % 12 == 0 && k.entry.toNat < m.text.length

/-- Step 6 of R444. -/
def NativeImage.accepted (m : NativeImage) (part : Nat) : Bool :=
  let ws := NativeImage.words m
  m.descs.all (descOk m ws part) && m.banks.all (fun b => b.length ≤ 65536) && m.banks.length == m.descs.length
    && (m.fns.filterMap id).all (fun f => f.2 % 8 == 0 && 8 ≤ f.2 && f.1 % 12 == 0)
    && (NativeImage.entries m ++ NativeImage.fnEntries m).all fun e =>
        (NativeImage.body m ws e).all (targetsOk m e (NativeImage.endOf m e))

/-- The function table (R227): the functions of the text, and what the loader bound to the external ones. -/
def NativeImage.table (m : NativeImage) (ctx base : Nat) : List (Option (BitVec 64 × Nat)) :=
  m.fns.zipIdx.map fun e => match e.1 with
    | some (off, n) => some (BitVec.ofNat 64 (base + off), n)
    | none => (Tab.find m.binds e.2).bind (Config.binding ctx)

/-! ### Certificates (R475) -/

/-- The revision of the module (R471). -/
def ModuleSt.revision (m : ModuleSt) : Nat := m.firmware.toNat + 2 ^ 32 * m.silicon.toNat

/-- A number whose bit k is the k-th of a list. -/
def bitsNat : List Bool → Nat
  | [] => 0
  | b :: bs => b.toNat + 2 * bitsNat bs

/-- The body of a certificate. -/
def certBody (m : ModuleSt) (nkern svn : Nat) (native portable : BitVec 256) (classes : Nat) : List Byte :=
  leBytes 1 4 ++ leBytes nkern 2 ++ leBytes 0 2 ++ leBytes m.idModule.toNat 8 ++ leBytes m.revision 8 ++ leBytes svn 8
    ++ leBytes native.toNat 32 ++ leBytes portable.toNat 32 ++ leBytes classes 32

/-- The field of a certificate at byte `o`. -/
def certField (c : List Byte) (o n : Nat) : Nat := leNat ((c.drop o).take n)

/-- Step 1 of R444, by R473 and R475. -/
def certOk (m : ModuleSt) (c : List Byte) : Bool :=
  c.length == 3572 && hssVerify (hssPublic 2) (c.take 128) (c.drop 128) && certField c 0 4 == 1 && certField c 6 2 == 0
    && certField c 22 2 == 0 && certField c 96 32 / 2 ^ certField c 4 2 == 0 && certField c 8 8 == m.idModule.toNat

/-! ### The mailbox (R479, R480) -/

def modVi (g : Go s0) (n : Nat) (f : Vi → Vi) : Go s0 := g.put (.vi n (f (g.st.vi n)))

/-- The engine operations by which the service reads a request record (0) and a buffer (1), and by which it writes a buffer (2). -/
def serviceKey (n k : Nat) : Nat := 2 ^ 60 + 4 * n + k

/-- Can the service write there (R431)? -/
def serviceCanWrite (g : Go s0) (ctx a n : Nat) : Bool × Go s0 :=
  let ((es, ps), g) := rangePieces g [] ctx a n true (n / 2 ^ 16 + 2)
  let ((es', _), g) := piecePeers g ctx a true ps
  ((es ++ es').isEmpty, g)

/-- A request ends (R479): its status, and the interrupt of INST.CTX. -/
def endRequest (g : Go s0) (n status : Nat) : Go s0 :=
  let g := modVi g n fun v => { v with instBusy := false, instStatus := BitVec.ofNat 8 status, instReq := none }
  let c := (g.st.vi n).instCtx.toNat
  msixOf g c (g.st.ctx c).msix

/-- The output of a request is written; the request ends with it (R481). -/
def writeOutput (g : Go s0) (n ctx a : Nat) (bs : List Byte) : Go s0 :=
  match agentStore g (serviceKey n 2) ctx a bs with
  | (.wait, g) => g
  | (.bad, g) => endRequest g n 12
  | (.done, g) => endRequest g n 0

/-- Is the output of a request on its way to another module? -/
def State.outputAway (s : State) (n : Nat) : Bool := (s.storeStands (serviceKey n 2)).isSome

/-- The record of a request that has begun is read, once (R480), and its operation begins. -/
def readRequest (g : Go s0) (n : Nat) (addr : Word) : Go s0 :=
  match agentRead g (serviceKey n 0) (g.st.vi n).instCtx.toNat addr.toNat 64 with
  | (.wait, g) => modVi g n fun v => { v with instReq := some addr }
  | (.bad, g) => endRequest g n 12
  | (.bytes bs, g) =>
    let r := leNat bs
    let op := bitf r 256 8
    if addr.toNat % 64 ≠ 0 then endRequest g n 12
    else if op = 0 || 4 < op || r / 2 ^ 264 ≠ 0 then endRequest g n 13
    else later (modVi g n fun v => { v with instReq := none, instRec := BitVec.ofNat 512 r })
      (if op = 1 then .install n else if op = 2 then .load n else if op = 3 then .unload n else .attest n)

/-- INST.REQ is written (R479). Context 4095 is of no interface (R483; log 64). -/
def startRequest (g : Go s0) (n : Nat) (addr : Word) : Go s0 :=
  let v := g.st.vi n
  let c := v.instCtx.toNat
  let u := g.st.ctx c
  if v.instBusy || v.flrBusy || u.state ≠ 1 || u.vi.toNat ≠ n || c = 4095 then g
  else readRequest (modVi g n fun v => { v with instBusy := true }) n addr

/-- The fields of a request record (R480). -/
def Vi.irHandle (v : Vi) : Nat := bitf v.instRec.toNat 224 32
def Vi.irLen (v : Vi) : Nat := bitf v.instRec.toNat 192 32
def Vi.irSvn (v : Vi) : Nat := bitf v.instRec.toNat 128 64
def Vi.irOut (v : Vi) : Nat := bitf v.instRec.toNat 64 64
def Vi.irSrc (v : Vi) : Nat := bitf v.instRec.toNat 0 64

/-- Does the interface's mailbox run a request of this kind? -/
def Vi.runs (v : Vi) (op : Nat) : Bool := v.instBusy && v.instReq.isNone && bitf v.instRec.toNat 256 8 == op

/-! ### The cache (R443, R445) -/

/-- Bytes that an entry takes. -/
def CacheEntry.size (e : CacheEntry) : Nat := (NativeImage.stored e.native).length + e.cert.length

/-- The bytes that an entry takes in the region (R443). -/
def CacheEntry.bytes (e : CacheEntry) : List Byte := NativeImage.stored e.native ++ e.cert

/-- Entries laid one after another in the region. Where an entry stands in it the spec leaves open (DESIGN CHOICE, safe, log 83). -/
def layCache (off : Nat) : Table CacheEntry → Table CacheEntry
  | [] => []
  | (k, e) :: es => (k, { e with off := off }) :: layCache (off + e.size) es

/-- The service writes its region, under the tables of context 4095 (R443). -/
def writeCache (g : Go s0) : Go s0 :=
  let m := g.st.mod
  let key := g.st.seq
  (agentStore (g.put .seq) key 4095 m.tcBase.toNat (m.cache.map fun e => e.2.bytes).flatten).2

/-- The text and the certificate of an entry as a load reads them: from the region, where its pages can be read; else as the service keeps
them (log 83). -/
def State.cachedBytes (s : State) (e : CacheEntry) : List Byte × List Byte :=
  let n := (NativeImage.stored e.native).length
  match rangeOf (Go.start s) [] 4095 (s.mod.tcBase.toNat + e.off) e.size false with
  | (.ok ps, _) => if Pieces.off ps then (NativeImage.stored e.native, e.cert) else ((s.piecesBytes ps).take n, (s.piecesBytes ps).drop n)
  | (.error _, _) => (NativeImage.stored e.native, e.cert)

/-- Is the entry's object loaded? -/
def State.entryLoaded (s : State) (e : CacheEntry) : Bool :=
  s.objs.any fun o => !o.2.retired && o.2.portable == e.portable && o.2.svn == e.svn

/-- Room for `n` more bytes: entries that are not loaded go, the least recently loaded first; none where there is no room. -/
def makeRoom (s : State) (cache : Table CacheEntry) (n : Nat) : Nat → Option (Table CacheEntry)
  | 0 => none
  | fuel + 1 =>
    if (cache.map fun e => e.2.size).sum + n ≤ s.mod.tcSize.toNat * 65536 then some cache
    else
      let free := cache.filter fun e => !s.entryLoaded e.2
      let oldest := free.foldl (fun m e => min m e.2.used) (2 ^ 64)
      match pick s 73 fuel ((free.filter fun e => e.2.used == oldest).map Prod.fst) with
      | some k => makeRoom s (Tab.del cache k) n fuel
      | none => none

def modMod (g : Go s0) (f : ModuleSt → ModuleSt) : Go s0 := g.put (.mod (f g.st.mod))

/-- Bytes of the data segment of an image (R162). -/
def NativeImage.dataSize (m : NativeImage) : Nat := (m.data.length + 65535) / 65536 * 65536

/-- Signatures that a key allows (R474). -/
def leafLimit : Nat := 2 ^ 35

/-! ### Install (R481) -/

/-- The new cache entry of a translated text, signed under the next leaf of the installation key. -/
def newEntry (s : State) (portable : BitVec 256) (svn : Nat) (m : NativeImage) : CacheEntry :=
  let leaf := s.mod.instLeaf
  let body := certBody s.mod m.descs.length svn (sha256 (NativeImage.stored m)) portable (bitsNat (NativeImage.classes m))
  { portable := portable, svn := svn, native := m, off := 0, cert := body ++ hssSign 2 leaf body, leaf := leaf, used := 0 }

/-- An install whose buffers are open: what it does, and its status; where several statuses apply, which one shows is left open. -/
def installText (g : Go s0) (n : Nat) (text : List Byte) : Go s0 :=
  let v := g.st.vi n
  let m := g.st.mod
  let portable := sha256 text
  let svn := min v.irSvn Config.translatorVersion
  let made := translateText text
  let old := m.cache.find? fun e => e.2.portable == portable && e.2.svn == svn
  let old := if m.fuseSvn.toNat ≤ v.irSvn then old else none
  let answer := fun (g : Go s0) (i : NativeImage) =>
    let g := modVi g n fun v => { v with instDataSize := BitVec.ofNat 32 (NativeImage.dataSize i) }
    writeOutput g n v.instCtx.toNat v.irOut (leBytes portable.toNat 32)
  match old with
  | some e => answer g e.2.native
  | none =>
    let room := match made with
      | some i => makeRoom g.st m.cache ((NativeImage.stored i).length + 3572) (m.cache.length + 1)
      | none => some m.cache
    let bad := (if made.isNone then [8] else []) ++ (if v.irSvn < m.fuseSvn.toNat then [9] else [])
      ++ (if room.isNone then [10] else []) ++ if leafLimit ≤ m.instLeaf then [11] else []
    match pick g.st 74 n bad, made, room with
    | some k, _, _ => endRequest g n k
    | none, some i, some cache =>
      let e := newEntry g.st portable svn i
      let key := g.st.seq
      answer (writeCache (modMod (g.put .seq) fun m => { m with instLeaf := m.instLeaf + 1, cache := layCache 0 (Tab.put cache key e) })) i
    | none, _, _ => endRequest g n 8

/-- INSTALL (R481). While a request record is on its way from another module, the end of that read. -/
def execInstall (n : Nat) (s : State) : Host.Outcome State Fault Refusal :=
  let v := s.vi n
  if !v.runs 1 then
    (match v.instReq with
    | some a => if v.instBusy then (readRequest (Go.start s) n a).done else .next s
    | none => .next s)
  else if s.outputAway n then (writeOutput (Go.start s) n v.instCtx.toNat v.irOut []).done
  else if v.irLen = 0 || 2 ^ 31 < v.irLen then (endRequest (Go.start s) n ((pick s 75 n [8, 12, 13]).getD 13)).done
  else
    match agentRead (Go.start s) (serviceKey n 1) v.instCtx.toNat v.irSrc v.irLen with
    | (.wait, g) => g.done
    | (.bad, g) => (endRequest g n 12).done
    | (.bytes text, g) =>
      match serviceCanWrite g v.instCtx.toNat v.irOut 32 with
      | (false, g) => (endRequest g n 12).done
      | (true, g) => (installText g n text).done

/-! ### Load (R444, R481) -/

/-- The checks of R444 in order: the first status that refuses, 0 for none. -/
def loadStatus (s : State) (ctx base : Nat) (e : CacheEntry) : Nat :=
  let m := e.native
  let (text, cert) := s.cachedBytes e
  if !certOk s.mod cert || (sha256 text).toNat ≠ certField cert 32 32 then 1
  else if certField cert 16 6 ≠ s.mod.revision then 2
  else if certField cert 24 8 < s.mod.fuseSvn.toNat then 3
  else if certField cert 4 2 ≠ m.descs.length || bitsNat (s.classesAt ctx m) ≠ certField cert 96 32 then 4
  else if !NativeImage.accepted m (s.ctxScratch ctx) then 5
  else if (NativeImage.table m ctx base).any Option.isNone then 6
  else 0

/-- A handle that no loaded object of the context has: which one is left open. -/
def State.newHandle (s : State) (ctx : Nat) : Nat :=
  let base := Config.freeNat (s.salt 76 ctx)
  let used := (s.objs.filter fun e => e.2.ctx == ctx).map fun e => e.1 % 2 ^ 32
  ((List.range (used.length + 1)).map fun k => (base + k) % 2 ^ 32).find? (fun h => !used.contains h) |>.getD 0

/-- The object of an image loaded for a context, its kernels with the classes that the load found. -/
def objOf (m : NativeImage) (classes : List Bool) (ctx base : Nat) (e : CacheEntry) (database : Nat) : Obj :=
  let pad := fun (b : List Byte) => b ++ List.replicate ((16 - b.length % 16) % 16) 0
  { ctx := ctx, textBase := BitVec.ofNat 64 base, textSize := m.text.length
    kernels := List.zipWith (fun d u => kdOf base u d) m.descs classes
    funcs := NativeImage.table m ctx base, banks := m.banks.map pad, database := if m.data.isEmpty then 0 else BitVec.ofNat 64 database
    portable := e.portable, svn := e.svn, retired := false }

/-- A load of a cached entry whose checks are met: the data segment, the text where the context's tables put it (log 43), the handle. -/
def loadObject (g : Go s0) (n base key : Nat) (e : CacheEntry) : Go s0 :=
  let v := g.st.vi n
  let m := e.native
  let ctx := v.instCtx.toNat
  let data := fitBytes (NativeImage.dataSize m) m.data
  let written := if data.isEmpty then (AgentStore.done, g)
    else if v.irOut = 0 || v.irOut % 65536 ≠ 0 then (.bad, g) else agentStore g (serviceKey n 2) ctx v.irOut data
  match written with
  | (.wait, g) => g
  | (.bad, g) => endRequest g n 12
  | (.done, g) =>
    let h := g.st.newHandle ctx
    let classes := g.st.classesAt ctx m
    let g := match rangeOf g [] ctx base m.text.length false with
      | (.ok ps, g) => if ps.any fun p => Loc.isFar p.loc then g else homeStore g {} (pieceCells (homeRuns ps) m.text)
      | (.error _, g) => g
    let g := modMod g fun m => { m with cache := Tab.put m.cache key { e with used := g.st.seq } }
    let g := (g.put .seq).put (.obj (objKey ctx h) (some (objOf m classes ctx base e v.irOut)))
    endRequest (modVi g n fun v => { v with instHandle := BitVec.ofNat 32 h }) n 0

/-- The cached entry of a portable hash with the highest security version (R443). -/
def State.bestEntry (s : State) (hash : Nat) : Option (Nat × CacheEntry) :=
  (s.mod.cache.filter fun e => e.2.portable.toNat == hash).foldl (fun b e => match b with
    | some c => if c.2.svn < e.2.svn then some e else some c
    | none => some e) none

/-- LOAD (R481). -/
def execLoad (n : Nat) (s : State) : Host.Outcome State Fault Refusal :=
  let v := s.vi n
  let ctx := v.instCtx.toNat
  if !v.runs 2 then .next s
  else
    match agentRead (Go.start s) (serviceKey n 1) ctx v.irSrc 32 with
    | (.wait, g) => g.done
    | (.bad, g) => (endRequest g n 12).done
    | (.bytes bs, g) =>
      match g.st.bestEntry (leNat bs) with
      | none => (endRequest g n 7).done
      | some (key, e) =>
        let base := Config.freeNat (s.salt 77 n) % 2 ^ 40 * 65536
        let st := loadStatus g.st ctx base e
        let g := modVi g n fun v => { v with instDataSize := BitVec.ofNat 32 (NativeImage.dataSize e.native) }
        (if st = 3 then endRequest (modMod g fun m => { m with cache := Tab.del m.cache key }) n 3
         else if st ≠ 0 then endRequest g n st
         else loadObject g n base key e).done

/-! ### Unload and attest (R481, R482) -/

/-- UNLOAD (R481): launches already issued run on; the status of a handle that is not loaded is left open. -/
def execUnload (n : Nat) (s : State) : Host.Outcome State Fault Refusal :=
  let v := s.vi n
  let k := objKey v.instCtx.toNat v.irHandle
  if !v.runs 3 then .next s
  else
    let g := Go.start s
    (match Tab.find s.objs k with
     | some o =>
       if o.retired then endRequest g n (Config.freeNat (s.salt 78 n) % 256)
       else endRequest (g.put (.obj k (some { o with retired := true }))) n 0
     | none => endRequest g n (Config.freeNat (s.salt 78 n) % 256)).done

/-- The first 384 bytes of an attestation report (R482). -/
def reportBody (m : ModuleSt) (n : Nat) (nonce : List Byte) : List Byte :=
  leBytes 1 4 ++ leBytes n 4 ++ leBytes m.idModule.toNat 8 ++ leBytes m.revision 8 ++ leBytes m.fuseSvn.toNat 8 ++ fitBytes 32 nonce
    ++ ((List.range 8).map fun i => leBytes (Tab.get 0 m.meas i).toNat 32).flatten ++ hssPublic 2 ++ leBytes 0 4

/-- ATTEST (R481, R482): the leaf is spent before the signature is released (R474). -/
def execAttest (n : Nat) (s : State) : Host.Outcome State Fault Refusal :=
  let v := s.vi n
  let ctx := v.instCtx.toNat
  if !v.runs 4 then .next s
  else if s.outputAway n then (writeOutput (Go.start s) n ctx v.irOut []).done
  else
    match agentRead (Go.start s) (serviceKey n 1) ctx v.irSrc 32 with
    | (.wait, g) => g.done
    | (.bad, g) => (endRequest g n 12).done
    | (.bytes nonce, g) =>
      match serviceCanWrite g ctx v.irOut 4096 with
      | (false, g) => (endRequest g n 12).done
      | (true, g) =>
        if leafLimit ≤ s.mod.idLeaf then (endRequest g n 11).done
        else
          let body := reportBody s.mod n nonce
          let bs := body ++ hssSign 1 s.mod.idLeaf body ++ hssPublic 1 ++ List.replicate 208 0
          let g := modMod g fun m => { m with idLeaf := m.idLeaf + 1 }
          (writeOutput g n ctx v.irOut bs).done

/-! ### Revocation (R445) -/

/-- Would step 3 or step 4 of R444 refuse the entry now? -/
def revoked (m : ModuleSt) (e : CacheEntry) : Bool := certField e.cert 16 6 != m.revision || certField e.cert 24 8 < m.fuseSvn.toNat

/-- The fuse counter or the revision changed (R445): loaded objects that the checks would now refuse are unloaded, and their entries go; an entry
whose object is not loaded stays until a load refuses it. -/
def revoke (g : Go s0) : Go s0 :=
  let s := g.st
  let out := s.mod.cache.filter fun e => revoked s.mod e.2 && s.entryLoaded e.2
  let g := g.each g.st.objs fun o g =>
    if out.any fun e => e.2.portable == o.2.portable && e.2.svn == o.2.svn then g.put (.obj o.1 (some { o.2 with retired := true })) else g
  modMod g fun m => { m with cache := m.cache.filter fun e => !out.any fun o => o.1 == e.1 }

end Sys2Proof.Machine
end

