-- ==== Sys2Proof/Machine/Boot.lean ====
section
/-! DEFINITION. Reset and boot, updates, fatal errors, power and the host link (R389, R392, R467, R471 to R478, R483 to R485). -/

namespace Sys2Proof.Machine

open Sys2Proof

variable {s0 : State}

/-- Takes every link to down for a reason that LNK.ERR does not name. -/
def dropLinks (g : Go s0) : Go s0 :=
  g.each (List.range linkCount) fun l g => modLink g l fun v => if v.state = 0 then v else v.goDown v.err.toNat g.st.now

/-! ### Reset (R476 to R478) -/

/-- What a module keeps without power: its identity, fuses, key leaves, flash, and the translation cache's objects (log 44). -/
def ModuleSt.kept (m : ModuleSt) (cache : Bool) : ModuleSt :=
  { ModuleSt.reset with
    idModule := m.idModule, silicon := m.silicon, fuseSvn := m.fuseSvn, fuseLeft := m.fuseLeft, idLeaf := m.idLeaf
    instLeaf := m.instLeaf, fuseKey := m.fuseKey, image := m.image, update := m.update, modid := m.modid, cache := if cache then m.cache else [] }

def bootAt (g : Go s0) (stage err : Nat) : Go s0 :=
  modMod g fun m => { m with bootStage := BitVec.ofNat 8 stage, bootErr := BitVec.ofNat 8 err }

/-- The image that the next boot reads: that of an update record, where one was handed over (R478). -/
def ModuleSt.bootImage (m : ModuleSt) : List Byte := match m.update with | some (i, _, _) => i | none => m.image

/-- What the board controller did to its flash since the last reset (R478): it wrote an update record that the host handed it, or put the
previous image back, or neither. It is an input of the module: a free value (log 84). -/
def ModuleSt.flashed (m : ModuleSt) (act : Option (Option (List Byte × Nat × List Byte))) : ModuleSt :=
  match act with
  | some u => { m with update := u }
  | none => m

/-- Stage 2's check (R473, R476): the key that comes with the image has the fused hash, and the image's signature verifies under it. -/
def imageTrusted (m : ModuleSt) (image : List Byte) : Bool :=
  sha256 (Config.imageKey image) == m.fuseKey && hssVerify (Config.imageKey image) (Config.imageSigned image) (Config.imageSignature image)

/-- Advances FUSE.SVN to an update record's target, once the image has booted (R472, R478). -/
def advanceFuse (g : Go s0) : Go s0 :=
  let m := g.st.mod
  match m.update with
  | none => g
  | some (image, target, sig) =>
    let g := modMod g fun m => { m with image := image, update := none }
    if m.fuseSvn.toNat < target && target < 2 ^ 64 && m.fuseLeft ≠ 0 && hssVerify m.fwKey (leBytes target 8) sig then
      modMod g fun m => { m with fuseSvn := BitVec.ofNat 64 target, fuseLeft := m.fuseLeft - 1 }
    else g

/-- Stages 5 to 7 (R476): links train and fabric time starts; context 4095 is created; ready. -/
def bootLate (g : Go s0) : Go s0 :=
  let g := g.each (List.range linkCount) fun l g => modLink g l fun v => v.train
  let g := g.put (.ft { g.st.ft with run := true })
  if Config.freeBit (g.st.salt 79 6) then bootAt (dropLinks g) 6 5
  else
    let g := modCtx g 4095 fun v => { v with state := 1 }
    revoke (advanceFuse (bootAt g 7 0))

/-- Stages 1 to 4 (R476, R477). Whether firmware passes its self-test is left open. -/
def bootEarly (g : Go s0) : Go s0 :=
  let image := g.st.mod.bootImage
  if !Config.imageReadable image then bootAt g 1 1
  else
    let g := extendMeas g 0 (leBytes (sha256 image).toNat 32)
    if !imageTrusted g.st.mod image then bootAt g 2 2
    else if Config.imageVersion image < g.st.mod.fuseSvn then bootAt g 3 3
    else
      let g := modMod g fun m => { m with fwKey := Config.imageKey image }
      let g := g.each [1, 2, 3] fun i g => extendMeas g i (leBytes (Config.imagePart image i).toNat 32)
      let g := modMod g fun m => { m with firmware := Config.imageRevision image }
      if Config.freeBit (g.st.salt 79 4) then bootAt g 4 4 else bootLate g

/-- RESET (R13, R476): every register takes its reset value and the module boots. -/
def execReset (s : State) : Host.Outcome State Fault Refusal :=
  let g := ((Go.start s).put (.restart s.powered)).put (.agenda [])
  (bootEarly (modMod g fun m => (m.kept s.powered).flashed (Config.boardFlash (s.salt 83 0)))).done

/-- POWER_LOSS (R474): all activity ends. A key's leaf was spent before its signature was released, so only unused leaves are lost. -/
def execPowerLoss (s : State) : Host.Outcome State Fault Refusal :=
  let g := ((Go.start s).put (.restart false)).put (.agenda [])
  ((modMod g fun m => m.kept false).put (.powered false)).done

/-! ### Fatal errors (R484) -/

/-- ERR.FATAL becomes nonzero (R484): every context stops as R392 gives, each that was active with its kind-3 record, every link goes down, the
board controller is told. No team was killed: which crew a record names is left open (DESIGN CHOICE, safe, log 85). -/
def fatal (g : Go s0) (code : Nat) : Go s0 :=
  if g.st.mod.errFatal ≠ 0 || code = 0 then g
  else
    let g := modMod g fun m => { m with errFatal := BitVec.ofNat 8 code }
    let g := g.each (g.st.ctxs.filter fun e => e.2.state != 0) fun e g =>
      if e.2.state = 1 then contextFault g e.1 (Config.freeNat (g.st.salt 85 e.1) % 2 ^ 32) else stopContext g e.1
    send (dropLinks g) .i3cAlert

/-- FATAL_ERROR (R484): 1 junction-die tables, 2 queue-processor SRAM, 3 a thermal trip. -/
def execFatalError (code : Nat) (s : State) : Host.Outcome State Fault Refusal :=
  if code < 4 then (fatal (Go.start s) code).done else .next s

/-! ### Power (R485) -/

/-- PWR_THROTTLE (R485): the power and temperature measured, and the share of the clock withheld, which goes up while the power is above
the cap or the temperature above 95 °C. -/
def execPwrThrottle (now temp throt : Nat) (s : State) : Host.Outcome State Fault Refusal :=
  let m := s.mod
  let high := m.pwrCap.toNat < now || 95 < temp
  let t := min 100 (if high then max throt (m.pwrThrot.toNat + 1) else throt)
  let g := modMod (Go.start s) fun m => { m with
    pwrNow := BitVec.ofNat 16 (min now 65535), pwrTemp := BitVec.ofNat 8 (min temp 255), pwrThrot := BitVec.ofNat 8 t }
  let g := if 95 ≤ temp && m.pwrTemp.toNat < 95 then send g .i3cAlert else g
  (if 110 ≤ temp then fatal g 3 else g).done

/-! ### The host link (R483) -/

/-- HOST_LINK_DOWN (R483): host accesses are withheld from now on. -/
def execHostLinkDown (s : State) : Host.Outcome State Fault Refusal :=
  (modMod (Go.start s) fun m => { m with hostUp := false }).done

end Sys2Proof.Machine
end

