-- ==== Sys2Proof/Machine/Move.lean ====
section
/-! DEFINITION. Group 6, moves, special registers and the format register (R35, R36, R210 to R216). -/

namespace Sys2Proof.Machine

/-- `mov` (R211). -/
def movOut (i : Issue) : RegOut := i.putTy i.ty fun l => i.a i.ty false l

/-- The 32-bit value of `movw` (R212). -/
def movwValue : Operand → Nat
  | .w x => x.toNat
  | .i v => trunc (imm15 v) 32
  | _ => 0

/-- `movw` (R212): one half of the destination, which of a pair of rows is one row; the other half keeps its value. -/
def movwOut (i : Issue) : RegOut :=
  let x := movwValue i.f.a
  match i.f.d with
  | .v idx .. => { v := i.lanes.map fun l => (movwRow i.c i.sp i.f idx.toNat, l, x) }
  | _ => i.putTy i.ty fun l =>
      let d := i.dv .b64 false l
      if i.f.f then d % 2 ^ 32 + x * 2 ^ 32 else d / 2 ^ 32 * 2 ^ 32 + x

/-- A special register in a lane (R36). -/
def specialReg (s : State) (i : Issue) (sel l : Nat) : Nat :=
  let c := i.c
  match s.team? c.team with
  | none => 0
  | some t =>
    match sel with
    | 0x0 => l
    | 0x1 => c.width
    | 0x2 => c.crewNo
    | 0x3 => t.ncrews
    | 0x4 => t.teamNo
    | 0x5 => t.nteams
    | 0x6 => match t.gang with | some _ => t.rank | none => 0xFFFFFFFF
    | 0x7 => match t.gang with | some _ => t.gangSize | none => 0
    | 0x8 => placeCore i.x
    | 0x9 => placeSlot i.x
    | 0xA => if t.pair then (if placeCore i.x % 2 = 0 then 1 else 2) else 0
    | 0xB => s.mod.modid
    | 0xC => i.sp.clock
    | 0xD => s.now
    | _ => match Tab.find s.objs t.object with
      | some o => o.database.toNat
      | none => 0

/-- `rdsr` (R213). -/
def rdsrOut (s : State) (i : Issue) : RegOut :=
  match i.f.a with
  | .x sel => i.putD (if 0xC ≤ sel.toNat then 2 else 1) fun l => specialReg s i sel.toNat l
  | _ => {}

/-- `wrsr` (R214): quarter Q of a layout register. -/
def wrsrOut (i : Issue) : RegOut :=
  match i.f.d, i.f.a, i.f.b with
  | .x sel, .s r, .i q =>
    if i.run = 0 then {}
    else
      let n := sel.toNat - 0x100
      let old := (i.c.layReg n).toNat
      let lo := 64 * q.toNat
      { lay := [(n, BitVec.ofNat 256
          (old % 2 ^ lo + (i.ca.uni r.toNat).toNat * 2 ^ lo + old / 2 ^ (lo + 64) * 2 ^ (lo + 64)))] }
  | _, _, _ => {}

/-- The value given to `setfmt` (R141, R215). -/
def setfmtValue (i : Issue) : Nat := operand64 i.ca i.f.a % 2 ^ 32

/-- `setfmt` and `setfmt.rm` (R215): the format register the split takes; none where the value is refused. -/
def setfmtNew (rmOnly : Bool) (old : BitVec 32) (v : Nat) : Option (BitVec 32) :=
  if fmtOk rmOnly v then some (if rmOnly then BitVec.ofNat 32 (old.toNat / 4 * 4 + v) else BitVec.ofNat 32 v) else none

/-- The body of both forms: illegal-operand in the lanes that take effect where the value is refused (R35, R215). -/
def setfmtBody {s0 : State} (rmOnly : Bool) (i : Issue) (g : Go s0) : Go s0 :=
  if i.run = 0 then retire g i {}
  else
    match setfmtNew rmOnly i.sp.fmt (setfmtValue i) with
    | some v => retire g i { fmt := some v }
    | none => takeFault g i.x i.k (allFault i.lanes 3) 0 0 false

/-- `getfmt` (R215). -/
def getfmtOut (i : Issue) : RegOut := i.putD 1 fun _ => i.sp.fmt.toNat

def execMov (f : Fields) (s : State) : Host.Outcome State Fault Refusal := regStep .mov f s movOut
def execMovw (f : Fields) (s : State) : Host.Outcome State Fault Refusal := regStep .movw f s movwOut
def execRdsr (f : Fields) (s : State) : Host.Outcome State Fault Refusal := regStep .rdsr f s (rdsrOut s)
def execWrsr (f : Fields) (s : State) : Host.Outcome State Fault Refusal := regStep .wrsr f s wrsrOut
def execSetfmt (f : Fields) (s : State) : Host.Outcome State Fault Refusal := crewStep .setfmt f s (setfmtBody false)
def execSetfmtRm (f : Fields) (s : State) : Host.Outcome State Fault Refusal := crewStep .setfmtRm f s (setfmtBody true)
def execGetfmt (f : Fields) (s : State) : Host.Outcome State Fault Refusal := regStep .getfmt f s getfmtOut
/-- `nop` (R216). -/
def execNop (f : Fields) (s : State) : Host.Outcome State Fault Refusal := regStep .nop f s fun _ => {}

end Sys2Proof.Machine
end

