-- ==== Sys2Proof/Machine/SysReg.lean ====
section
/-! DEFINITION. System registers (R13 to R15, R367 to R373, R394, R406, R411, R415, R417, R429, R432, R436, R443, R451 to R471, R479, R483,
R486): the map of addresses, what each register reads as, what a read clears and a write does, and who reaches it. -/

namespace Sys2Proof.Machine

open Sys2Proof

variable {s0 : State}

/-! ### The map (R369) -/

/-- A 64-bit system register; the last argument is the word within the object's block. -/
inductive Reg where
  | ident (k : Nat)
  | meas (i k : Nat)
  | mailbox (n k : Nat)
  | part (p : Nat)
  | vi (n k : Nat)
  | ctx (c k : Nat)
  | core (c k : Nat)
  | queue (q k : Nat)
  | qsa (p k : Nat)
  | pend (i : Nat)
  | slot (n : Nat)
  | dist (p k : Nat)
  | tr (c k : Nat)
  | fb (c i h : Nat)
  | phbm (p k : Nat)
  | tc (k : Nat)
  | link (l k : Nat)
  | wctx (w c k : Nat)
  | keeper (j k : Nat)
  | ldir (j : Nat)
  | peers (k : Nat)
  | lse (p : Nat)
  | mirror (p i : Nat)
  | name (e h : Nat)
  | imem (w n : Nat)
  | time (k : Nat)
deriving DecidableEq, Repr

/-- The register where a condition holds. -/
def regIf (ok : Bool) (r : Reg) : Option Reg := if ok then some r else none

/-- The registers of a junction die's block (R451). -/
def jdReg (j off : Nat) : Option Reg :=
  let k := off % 0x100 / 8
  if off < 0x800 then regIf (k ≤ 4 || (8 ≤ k && k ≤ 25)) (.link (8 * j + off / 0x100) k)
  else if 0x10000 ≤ off && off < 0x12000 then
    let o := off - 0x10000
    regIf (k ≤ 4 || (8 ≤ k && k ≤ 23)) (.wctx (8 * j + o / 0x400) (o % 0x400 / 0x100) k)
  else if 0x20000 ≤ off && off < 0x20130 then
    let n := (off - 0x20000) / 8
    regIf (n < 24 || 32 ≤ n) (.keeper j n)
  else if off = 0x30000 then some (.ldir j)
  else if 0x80000 ≤ off && off < 0x100000 then
    let o := off - 0x80000
    some (.imem (8 * j + o / 0x10000) (o % 0x10000 / 8))
  else if j ≠ 0 then none
  else if 0x40000 ≤ off && off < 0x40018 then some (.peers ((off - 0x40000) / 8))
  else if 0x40040 ≤ off && off < 0x40080 then some (.lse ((off - 0x40040) / 8))
  else if 0x41000 ≤ off && off < 0x42000 then some (.mirror ((off - 0x41000) / 0x200) (off % 0x200 / 8))
  else if 0x50000 ≤ off && off < 0x54000 then some (.name ((off - 0x50000) / 16) (off % 16 / 8))
  else none

/-- The register whose 8-byte word holds an address; none where it is unassigned (R369, R375). -/
def regAt (a : Nat) : Option Reg :=
  let off := a % 2 ^ 24 / 8 * 8
  let k := off % 0x100 / 8
  match a / 2 ^ 24 with
  | 0 =>
    if off < 0x40 then some (.ident (off / 8))
    else if 0x100 ≤ off && off < 0x200 then some (.meas ((off - 0x100) / 0x20) (off % 0x20 / 8))
    else if 0x1000 ≤ off && off < 0x2000 then regIf (off % 0x40 / 8 < 4) (.mailbox ((off - 0x1000) / 0x40) (off % 0x40 / 8))
    else none
  | 1 => regIf (off < 0x800 && k == 0) (.part (off / 0x100))
  | 2 => regIf (off < 0x4000 && k < 4) (.vi (off / 0x100) k)
  | 3 => regIf (off < 0x100000 && (k ≤ 8 || k == 16 || k == 17 || k == 18 || k == 20 || k == 21)) (.ctx (off / 0x100) k)
  | 4 => regIf (off < 0x280000 && off % 0x1000 < 16) (.core (off / 0x1000) (off % 0x1000 / 8))
  | 5 => regIf (off < 0x10000) (.queue (off / 0x40) (off % 0x40 / 8))
  | 6 =>
    if off < 0x200 then regIf (off % 0x40 < 16) (.qsa (off / 0x40) (off % 0x40 / 8))
    else if 0x1000 ≤ off && off < 0x1080 then some (.pend ((off - 0x1000) / 8))
    else if 0x2000 ≤ off && off < 0x2800 then some (.slot ((off - 0x2000) / 8))
    else if 0x8000 ≤ off && off < 0x8200 then regIf (off % 0x40 < 40) (.dist ((off - 0x8000) / 0x40) (off % 0x40 / 8))
    else none
  | 7 =>
    if off < 0x100000 then
      if k ≤ 5 then some (.tr (off / 0x100) k) else regIf (16 ≤ k) (.fb (off / 0x100) ((k - 16) / 2) (k % 2))
    else if off < 0x100200 then regIf (off % 0x40 < 16) (.phbm ((off - 0x100000) / 0x40) (off % 0x40 / 8))
    else if 0x200000 ≤ off && off < 0x200018 then some (.tc ((off - 0x200000) / 8))
    else none
  | 8 => jdReg 0 off
  | 9 => jdReg 1 off
  | 10 => jdReg 2 off
  | 11 => jdReg 3 off
  | 12 => regIf (off < 24) (.time (off / 8))
  | _ => none

/-! ### What a register reads as -/

/-- Block 0x00 (R471). -/
def identWord (m : ModuleSt) (k : Nat) : Nat :=
  match k with
  | 0 => m.idModule.toNat
  | 1 => m.revision
  | 2 => m.fuseSvn.toNat
  | 3 => m.fuseLeft
  | 4 => m.bootStage.toNat + 2 ^ 8 * m.bootErr.toNat
  | 5 => m.pwrCap.toNat
  | 6 => m.pwrNow.toNat + 2 ^ 32 * m.pwrTemp.toNat + 2 ^ 40 * m.pwrThrot.toNat
  | _ => m.errFatal.toNat + 2 ^ 32 * m.errCe.toNat

/-- A mailbox (R479). -/
def mailboxWord (v : Vi) (k : Nat) : Nat :=
  match k with
  | 1 => v.instCtx.toNat
  | 2 => v.instBusy.toNat + 2 ^ 8 * v.instStatus.toNat + 2 ^ 32 * v.instHandle.toNat
  | 3 => v.instDataSize.toNat
  | _ => 0

/-- A virtual interface (R371, R486). -/
def viWord (v : Vi) (k : Nat) : Nat :=
  match k with
  | 0 => v.en.toNat + 2 ^ 7 * v.flrBusy.toNat + 2 ^ 12 * v.part.toNat
  | 2 => v.ctxRes.toNat + 2 ^ 12 * v.ctxStat.toNat + 2 ^ 16 * v.releasing.isSome.toNat
  | 3 => v.ctxMax.toNat
  | _ => 0

/-- A context's block (R372, R406, R452); context 4095's CTX.PART reads 0xF (R368). -/
def ctxWord (v : Ctx) (k : Nat) : Nat :=
  match k with
  | 0 => v.state.toNat + 2 ^ 5 * v.level.toNat + 2 ^ 6 * v.vi.toNat + 2 ^ 12 * v.part.toNat + 2 ^ 16 * v.handler.toNat
      + 2 ^ 28 * v.hen.toNat
  | 1 => v.frBad.toNat + 2 * v.dupAnn.toNat + 4 * v.frFull.toNat + 8 * v.frLost.toNat
  | 2 => v.frBase.toNat
  | 3 => v.frCons.toNat + 2 ^ 16 * v.frProd.toNat
  | 4 => v.frSize.toNat + 2 ^ 8 * v.msix.toNat
  | 5 => v.saveBase.toNat
  | 7 => v.cmdStat.toNat
  | 16 => v.stackPool.toNat
  | 17 => v.stackMax.toNat
  | 18 => v.saveSize.toNat
  | 20 => v.ns.toNat
  | 21 => v.wsetBase.toNat
  | _ => 0

/-- A queue (R394). -/
def queueWord (v : Queue) (k : Nat) : Nat :=
  match k with
  | 0 => v.en.toNat + 2 ^ 4 * v.cls.toNat + 2 ^ 8 * v.size.toNat + 2 ^ 32 * v.ctx.toNat + 2 ^ 44 * v.vi.toNat
  | 1 => v.base.toNat
  | 2 => v.tail.toNat
  | 3 => v.head.toNat
  | 4 => v.halted.toNat + 2 * v.mapped.toNat + 4 * v.pending.toNat + 8 * v.waiting.toNat + 2 ^ 4 * v.err.toNat
      + 2 ^ 8 * v.errType.toNat + 2 ^ 18 * v.ecls.toNat + 2 ^ 24 * v.slot.toNat
  | 5 => v.qcb.toNat
  | 6 => v.msix.toNat
  | _ => 0

/-- A slot allotment (R411) and distributor registers (R417). -/
def qsaWord (v : Part) (k : Nat) : Nat :=
  match k with
  | 0 => v.qsaCount + (List.range 4).foldl (fun a c => a + v.qsaMin.getD c 0 * 2 ^ (16 + 8 * c)) 0
  | _ => v.qsaAge
def distWord (v : Part) (k : Nat) : Nat :=
  match k with
  | 0 => v.gangWait
  | 1 => v.drain
  | 3 => v.dvDone + 2 ^ 10 * v.dvBusy.toNat
  | 4 => v.colThresh + 2 ^ 32 * v.colEn.toNat
  | _ => 0

/-- A slot (R415). -/
def slotWord (v : Slot) : Nat := v.queue.toNat + 2 ^ 10 * v.cls.toNat + 2 ^ 15 * v.busy.toNat + 2 ^ 32 * v.time.toNat

/-- A context's translation registers (R432). -/
def trWord (s : State) (c k : Nat) : Nat :=
  let v := s.ctx c
  match k with
  | 0 => v.trRoot.toNat + v.trEn.toNat
  | 1 => v.fb.length + 2 ^ 8 * v.fbDropped.toNat + 2 ^ 32 * (s.crews.filter fun e => e.2.ctx == c && e.2.onMiss).length
  | 2 => 2 ^ 8 * v.trMsix.toNat
  | 4 => v.tagAddr.toNat + v.tagStat.toNat
  | 5 => s.tagData c
  | _ => 0

/-- A fault-buffer entry (R436). -/
def fbWord (v : Ctx) (i h : Nat) : Nat :=
  match Tab.find v.fb i with
  | none => 0
  | some e =>
    if h = 0 then 1 + 2 * (e.level % 8) + 2 ^ 4 * e.kinds.toNat + 2 ^ 8 * e.joins + 2 ^ 16 * e.page
    else e.crew % 2 ^ 32 + 2 ^ 32 * e.remote.toNat + 2 ^ 46 * e.peer

/-- A link (R456, R458). -/
def linkWord (v : Link) (k : Nat) : Nat :=
  let score := fun b => (List.range 8).foldl (fun a i => a + Tab.get 0 v.health (b + i) * 2 ^ (8 * i)) 0
  let has := fun (t : Table (BitVec 256 × BitVec 32)) => (Tab.find t 0).isSome.toNat + 2 * (Tab.find t 1).isSome.toNat
  match k with
  | 0 => v.en.toNat + 2 ^ 8 * v.retire.toNat + 2 ^ 16 * v.lanes.toNat
  | 1 => v.state.toNat + 2 ^ 4 * v.err.toNat + 2 ^ 8 * v.errCnt.toNat + 2 ^ 40 * v.width + 2 ^ 48 * v.active.toNat
  | 2 => score 0
  | 3 => score 8
  | 4 => v.replays.toNat
  | 25 => v.txSel + 2 * (2 ^ 44 ≤ Tab.get 0 v.txIvc v.txSel : Bool).toNat + 4 * has v.txKey + 16 * has v.rxKey + 2 ^ 6 * v.txRet.isSome.toNat
      + 2 ^ 7 * v.rxRet.isSome.toNat
  | _ => 0

/-- A winch context (R468). -/
def wctxWord (v : Wctx) (k : Nat) : Nat :=
  match k with
  | 0 => v.state.toNat + 8 * v.cmd.isSome.toNat + 2 ^ 4 * v.wait.toNat + 2 ^ 8 * v.fcode.toNat
  | 2 => v.pc.toNat + 2 ^ 16 * v.lo.toNat + 2 ^ 32 * v.hi.toNat
  | 3 => v.c.toNat + 2 ^ 32 * v.cs.toNat + 2 ^ 40 * v.set.toNat + 2 ^ 48 * v.tid.toNat
  | 4 => v.fAddr.toNat
  | _ => if 8 ≤ k then (Tab.get 0 v.h (k - 8)).toNat else 0

/-- The identifier of a requester (R373, R463): a crew's, or its link. -/
def reqIdent (s : State) : Requester → Nat
  | .link l => l
  | .crew x inst _ _ =>
    let saved := (s.saved.map fun e => e.2.crews).flatten
    match (s.crews ++ saved).find? fun e => e.1 == x && e.2.inst == inst with
    | some e => crewId e.2.ctx x
    | none => 0

/-- The low word of a requester's record (R463). -/
def reqWord (s : State) (r : ReqRec) : Nat :=
  match r.from_ with
  | .link l => l + 2 ^ 63
  | .crew x i h q => reqIdent s (.crew x i h q) + 2 ^ 32 * h

/-- The record after one in a list of pool numbers. -/
def nextReq (n : Nat) : List Nat → Nat
  | a :: b :: t => if a = n then b else nextReq n (b :: t)
  | _ => 0x1FFFF

/-- A keeper's registers (R463, R470). -/
def keeperWord (s : State) (j k : Nat) : Nat :=
  let d := s.jd j
  let e := Tab.find d.claims d.cltSel.toNat
  let tiles := Tab.vals d.stock
  match k with
  | 0 => d.cltSel.toNat
  | 1 => match e with | some e => e.name.key.toNat | none => 0
  | 2 => match e with
    | some e => (match e.hop with | some l => l | none => 32) + 2 ^ 8 * min 255 e.reqs.length
        + 2 ^ 16 * (match e.st with | .waiting => 1 | .forwarded => 2 | .delivering => 3) + 2 ^ 20 * e.name.ns + 2 ^ 32 * e.name.iter
    | none => 0
  | 3 => match e with | some e => e.sent | none => 0
  | 4 => match e with | some e => e.reqs.headD 0x1FFFF | none => 0x1FFFF
  | 5 => d.cltRsel.toNat
  | 6 => match Tab.find d.pool d.cltRsel.toNat with
    | some r => reqWord s r + 2 ^ 62
        + 2 ^ 36 * (match (Tab.vals d.claims).find? fun e => e.reqs.contains d.cltRsel.toNat with
          | some e => nextReq d.cltRsel.toNat e.reqs
          | none => 0x1FFFF)
    | none => 0
  | 7 => match Tab.find d.pool d.cltRsel.toNat with | some r => r.expiry | none => 0
  | 32 => d.claims.length + 2 ^ 32 * d.merged.toNat
  | 33 => d.refused.toNat + 2 ^ 32 * d.expired.toNat
  | 34 => (tiles.map fun t => (t.data.length + 255) / 256).sum + 2 ^ 32 * tiles.length
  | 35 => d.evicted.toNat + 2 ^ 32 * d.dup.toNat
  | 36 => d.wsetRefused.toNat
  | 37 => d.pool.length
  | _ =>
    match e.bind fun e => (e.reqs[(k - 8) / 2]?).bind fun n => Tab.find d.pool n with
    | some r => if k % 2 = 0 then reqWord s r else r.expiry
    | none => 0

/-- The lease directory of a junction die (R465): lines whose latest lease on another module has not expired. -/
def ldirWord (s : State) (j : Nat) : Nat :=
  (s.lines.filter fun e => e.1 % 4 == j && s.now < e.2.expFab).length + 2 ^ 32 * (s.jd j).noLease.toNat

/-- A mirror-table entry (R460) and a name-routing entry (R461). -/
def mirrorWord (r : Mirror) : Nat := r.valid.toNat + 2 * r.lost.toNat + 2 ^ 28 * r.mirror.toNat + 2 ^ 46 * r.primary.toNat
def noMirror : Mirror := { primary := 0, mirror := 0, lost := false, valid := false }
def noRoute : NameRoute := { key := 0, ns := 0, valid := false, len := 0, loc := false, link := 0 }
def nameWord (r : NameRoute) (h : Nat) : Nat :=
  if h = 1 then r.key.toNat
  else r.link.toNat + 2 ^ 6 * r.loc.toNat + 2 ^ 8 * r.len.toNat + 2 ^ 15 * r.valid.toNat + 2 ^ 52 * r.ns.toNat

/-- The 64 bits that a read of a register returns (R14). -/
def regRead (s : State) (r : Reg) : Word :=
  BitVec.ofNat 64 (match r with
    | .ident k => identWord s.mod k
    | .meas i k => bitf (Tab.get 0 s.mod.meas i).toNat (64 * k) 64
    | .mailbox n k => mailboxWord (s.vi n) k
    | .part p => s.partWord p
    | .vi n k => viWord (s.vi n) k
    | .ctx c k => ctxWord (s.ctx c) k
    | .core c k => if k = 0 then 2 ^ 48 * (s.coreOf c).lists.length else s.coreWord c
    | .queue q k => queueWord (s.queue q) k
    | .qsa p k => qsaWord (s.part p) k
    | .pend i => (List.range 64).foldl (fun a b => a + (s.queue (64 * i + b)).pending.toNat * 2 ^ b) 0
    | .slot n => slotWord (Tab.get Slot.reset s.slots n)
    | .dist p k => distWord (s.part p) k
    | .tr c k => trWord s c k
    | .fb c i h => fbWord (s.ctx c) i h
    | .phbm p k => if k = 0 then (s.part p).hbmBase else (s.part p).hbmLimit
    | .tc k => if k = 0 then s.mod.tcBase.toNat else if k = 1 then s.mod.tcSize.toNat else s.mod.cache.length
    | .link l k => linkWord (s.link l) k
    | .wctx w c k => wctxWord (s.wctx w c) k
    | .keeper j k => keeperWord s j k
    | .ldir j => ldirWord s j
    | .peers k => if k = 0 then s.mod.ptBase.toNat else if k = 1 then s.mod.ptCount.toNat else 0
    | .lse p => (s.part p).lseInit
    | .mirror p i => mirrorWord (Tab.get noMirror s.mod.mirrors (64 * p + i))
    | .name e h => nameWord (Tab.get noRoute s.mod.names e) h
    | .imem w n => (Tab.get 0 s.imem (8192 * w + n)).toNat
    | .time k => s.ftWord (8 * k))

/-- What a read clears: the RC fields of the word (R14). -/
def regClear (g : Go s0) (r : Reg) : Go s0 :=
  match r with
  | .ident 7 => modMod g fun m => { m with errCe := 0 }
  | .link l 1 => modLink g l fun v => { v with errCnt := 0 }
  | .link l 4 => modLink g l fun v => { v with replays := 0 }
  | .keeper j 32 => modJd g j fun d => { d with merged := 0 }
  | .keeper j 33 => modJd g j fun d => { d with expired := 0, refused := 0 }
  | .keeper j 35 => modJd g j fun d => { d with dup := 0, evicted := 0 }
  | .keeper j 36 => modJd g j fun d => { d with wsetRefused := 0 }
  | .ldir j => modJd g j fun d => { d with noLease := 0 }
  | _ => g

/-! ### Who reaches a register (R367, R368, R483) -/

/-- May the writer write what rules reserve to the module service context and firmware? -/
def writerFull : Writer → Bool
  | .firmware => true
  | .ctx c => isService c
  | .host _ | .board => false

/-- A register of which R368 reserves every write to the module service context and firmware. -/
def Reg.reserved : Reg → Bool
  | .part _ | .qsa .. | .dist .. | .phbm .. | .link .. | .wctx .. | .keeper .. | .ldir _ | .peers _ | .name .. | .imem .. => true
  | .vi _ k => k == 3
  | .ctx _ k => k == 20
  | .ident k => k == 5
  | _ => false

/-- The virtual interface that a register belongs to (R367, R483): a service context's belong to none. -/
def State.regVi (s : State) : Reg → Option Nat
  | .queue q _ => some (s.queue q).vi.toNat
  | .ctx c _ | .tr c _ | .fb c _ _ => if (s.ctx c).state = 0 || (s.ctx c).level then none else some (s.ctx c).vi.toNat
  | .vi n _ | .mailbox n _ => some n
  | _ => none

/-- Does a register lie in the scope of a service context of partition `p` (R368, R451, R471)? -/
def State.regIn (s : State) (p : Nat) (write : Bool) : Reg → Bool
  | .ident _ | .meas .. => !write
  | .part q | .qsa q _ | .dist q _ | .phbm q _ | .lse q | .mirror q _ => q == p
  | .vi n _ => (s.vi n).part.toNat == p
  | .ctx c _ | .tr c _ | .fb c _ _ => (s.ctx c).state != 0 && (s.ctx c).part.toNat == p
  | .core c _ => s.partOfCore c == some p
  | .queue q _ => (s.vi (s.queue q).vi.toNat).part.toNat == p
  | .wctx w c _ => let v := s.wctx w c
                   v.state != 0 && (s.ctx v.tid.toNat).part.toNat == p
  | _ => false

/-- May a service context read or write a register (R368, R375)? -/
def State.ctxReaches (s : State) (c : Nat) (write : Bool) (r : Reg) : Bool :=
  isService c || (s.regIn (s.ctx c).part.toNat write r && !(write && r.reserved))

/-- Does the writer reach the register? The board controller reads block 0x00 and writes PWR.CAP (R484). -/
def State.reaches (s : State) (w : Writer) (write : Bool) (r : Reg) : Bool :=
  match w with
  | .firmware => true
  | .board => (match r with
    | .ident k => !write || k == 5
    | .meas .. | .mailbox .. => !write
    | _ => false)
  | .ctx c => s.ctxReaches c write r
  | .host n => s.regVi r == some n && !(write && r.reserved)

/-! ### What a write does -/

/-- The words of a context's block. A CTX.CREWID write with CTX.ACTION 4 to 7 does nothing (DESIGN CHOICE, unsafe, log 76). -/
def ctxWrite (g : Go s0) (c k : Nat) (x : Word) : Go s0 :=
  let n := x.toNat
  let v := g.st.ctx c
  let busy := v.frProd != v.frCons
  match k with
  | 0 => modCtx g c fun v => { v with hen := bitf n 28 1 == 1, handler := BitVec.ofNat 12 (bitf n 16 12) }
  | 1 =>
    let g := modCtx g c fun v => { v with
      frLost := v.frLost && bitf n 3 1 == 0, frFull := v.frFull && bitf n 2 1 == 0
      dupAnn := v.dupAnn && bitf n 1 1 == 0, frBad := v.frBad && bitf n 0 1 == 0 }
    if n % 2 = 1 then later g (.faultRingRetry c) else g
  | 2 => if busy then g else later (modCtx g c fun v => { v with frBase := x }) (.faultRingRetry c)
  | 3 => later (modCtx g c fun v => { v with frCons := BitVec.ofNat 16 n }) (.faultRingRetry c)
  | 4 => modCtx g c fun v => { v with msix := BitVec.ofNat 8 (bitf n 8 8)
                                      frSize := if busy || n % 16 < 4 then v.frSize else BitVec.ofNat 4 n }
  | 5 => modCtx g c fun v => { v with saveBase := x }
  | 6 => if 4 ≤ bitf n 32 3 then g else resolveBy g c (n % 2 ^ 32) (bitf n 32 3)
  | 8 => setWake g c
  | 16 => modCtx g c fun v => { v with stackPool := x }
  | 17 => modCtx g c fun v => { v with stackMax := BitVec.ofNat 32 n }
  | 18 => modCtx g c fun v => { v with saveSize := x }
  | 20 => modCtx g c fun v => { v with ns := BitVec.ofNat 12 n }
  | 21 => modCtx g c fun v => { v with wsetBase := x }
  | _ => g

/-- The words of a queue (R394). -/
def queueWrite (g : Go s0) (full : Bool) (q k : Nat) (x : Word) : Go s0 :=
  let v := g.st.queue q
  match k with
  | 0 => queueControl g q full x
  | 1 => if v.en then g else putQ g q { v with base := x }
  | 2 => queueKick g q x
  | 5 => putQ g q { v with qcb := x }
  | 6 => putQ g q { v with msix := BitVec.ofNat 8 x.toNat }
  | 7 => if x.toNat % 4 = 1 then queueResume g q true else if x.toNat % 4 = 2 then queueResume g q false else g
  | _ => g

/-- The words of a virtual interface (R371, R486). -/
def viWrite (g : Go s0) (full : Bool) (n k : Nat) (x : Word) : Go s0 :=
  let y := x.toNat
  match k with
  | 0 =>
    let g := modVi g n fun v => { v with en := y % 2 == 1 && g.st.mod.ready, part := if full then BitVec.ofNat 4 (bitf y 12 4) else v.part }
    if bitf y 6 1 = 1 then flrGo (flrStart g n) n else g
  | 1 => if bitf y 32 1 = 1 then ctxRelease g n (y % 4096) else ctxCreate g n
  | 3 => modVi g n fun v => { v with ctxMax := BitVec.ofNat 12 y }
  | _ => g

/-- The allotment and distributor registers of a partition (R411, R417, R423, R425). -/
def qsaWrite (g : Go s0) (p k : Nat) (x : Word) : Go s0 :=
  let n := x.toNat
  let v := g.st.part p
  if k = 0 then
    let mins := (List.range 4).map fun c => bitf n (16 + 8 * c) 8
    let count := bitf n 0 9
    if (g.st.slotPool p).length < count || count < mins.sum then g else g.put (.part p { v with qsaCount := count, qsaMin := mins })
  else if n % 2 ^ 32 = 0 then g else g.put (.part p { v with qsaAge := n % 2 ^ 32 })
def distWrite (g : Go s0) (p k : Nat) (x : Word) : Go s0 :=
  let n := x.toNat
  let v := g.st.part p
  match k with
  | 0 => g.put (.part p { v with gangWait := n % 2 ^ 32 })
  | 1 => g.put (.part p { v with drain := n % 2 ^ 32 })
  | 2 => dvStart g p x
  | 4 => g.put (.part p { v with colEn := bitf n 32 1 == 1, colThresh := n % 2 ^ 32 })
  | _ => g

/-- A context's translation registers (R432). -/
def trWrite (g : Go s0) (c k : Nat) (x : Word) : Go s0 :=
  let n := x.toNat
  match k with
  | 0 => modCtx g c fun v => { v with trRoot := BitVec.ofNat 64 (bitf n 11 35 * 2 ^ 11), trEn := n % 2 == 1 }
  | 1 => modCtx g c fun v => { v with fbDropped := v.fbDropped && bitf n 8 1 == 0 }
  | 2 => modCtx g c fun v => { v with trMsix := BitVec.ofNat 8 (bitf n 8 8) }
  | 3 => if n % 2 = 1 then replayAll g c else g
  | 4 => tagAddrWrite g c x
  | 5 => tagDataWrite g c x
  | _ => g

/-- A partition's HBM range (R429). -/
def phbmWrite (g : Go s0) (p k : Nat) (x : Word) : Go s0 :=
  let a := bitf x.toNat 16 30 * 2 ^ 16
  let v := g.st.part p
  let u := if k = 0 then { v with hbmBase := a } else { v with hbmLimit := a }
  let clash := (List.range 8).any fun q => q != p && (let w := g.st.part q
    max u.hbmBase w.hbmBase < min u.hbmLimit w.hbmLimit)
  if g.st.partBusy p || clash then g else g.put (.part p u)

/-- A link's registers (R456, R458). -/
def linkWrite (g : Go s0) (l k : Nat) (x : Word) : Go s0 :=
  let n := x.toNat
  if k = 0 then
    let g := modLink g l fun v => { v with lanes := BitVec.ofNat 16 (bitf n 16 16), retire := BitVec.ofNat 8 (bitf n 8 8) }
    linkEnable g l (n % 2 == 1)
  else if k = 24 then modLink g l fun v => { v with txSalt := BitVec.ofNat 32 n, rxSalt := BitVec.ofNat 32 (n / 2 ^ 32) }
  else if k = 25 then txselWrite g l (n % 2 == 1)
  else if 8 ≤ k && k < 24 then
    let i := k - 8
    let slot := i % 8 / 4
    if i % 4 = 3 then keySlotWrite g l slot (i < 8) x else keyWordWrite g l slot (i % 4) (i < 8) x
  else g

/-- A winch context's registers (R468, R469); one that leaves its set may complete it (R470). -/
def wctxWrite (g : Go s0) (w c k : Nat) (x : Word) : Go s0 :=
  let n := x.toNat
  let v := g.st.wctx w c
  if k = 1 then winchCommand g w c (n % 8)
  else if v.state = 2 || v.state = 3 then g
  else if k = 2 then putW g w c { v with pc := BitVec.ofNat 13 n, lo := BitVec.ofNat 13 (n / 2 ^ 16), hi := BitVec.ofNat 13 (n / 2 ^ 32) }
  else if k = 3 then
    let cs := bitf n 32 5
    checkSets (putW g w c { v with c := n % 2 == 1, cs := if 6 ≤ cs && cs ≤ 16 then BitVec.ofNat 5 cs else v.cs
                                   set := BitVec.ofNat 8 (n / 2 ^ 40), tid := BitVec.ofNat 16 (n / 2 ^ 48) })
  else if 8 ≤ k then putW g w c { v with h := Tab.set 0 v.h (k - 8) x }
  else g

/-- A winch's instruction memory (R468): a word of a context that runs, waits or is stopped stays. -/
def imemWrite (g : Go s0) (w n : Nat) (x : Word) : Go s0 :=
  let used := (List.range 4).any fun c =>
    let v := g.st.wctx w c
    (v.state == 2 || v.state == 3 || v.state == 4) && v.lo.toNat ≤ n && n ≤ v.hi.toNat
  if used then g else g.put (.imem (8192 * w + n) x)

/-- A mirror-table entry (R460) and a half of a name-routing entry (R461). -/
def mirrorEntryWrite (g : Go s0) (p i : Nat) (x : Word) : Go s0 :=
  let n := x.toNat
  let r : Mirror := { primary := BitVec.ofNat 18 (n / 2 ^ 46), mirror := BitVec.ofNat 18 (n / 2 ^ 28), lost := bitf n 1 1 == 1, valid := n % 2 == 1 }
  modMod g fun m => { m with mirrors := Tab.set noMirror m.mirrors (64 * p + i) r }
def nameWrite (g : Go s0) (e h : Nat) (x : Word) : Go s0 :=
  let n := x.toNat
  modMod g fun m =>
    let r := Tab.get noRoute m.names e
    let r : NameRoute := if h = 1 then { r with key := x }
      else { r with ns := BitVec.ofNat 12 (n / 2 ^ 52), valid := bitf n 15 1 == 1
                    len := if bitf n 8 7 ≤ 64 then BitVec.ofNat 7 (bitf n 8 7) else r.len
                    loc := bitf n 6 1 == 1, link := BitVec.ofNat 5 n }
    { m with names := Tab.set noRoute m.names e r }

/-- A write of a register by a writer that reaches it (R14). -/
def regWrite (g : Go s0) (full : Bool) (r : Reg) (x : Word) : Go s0 :=
  let n := x.toNat
  match r with
  | .ident 5 => if 1000 ≤ n % 65536 && n % 65536 ≤ 6000 then modMod g fun m => { m with pwrCap := BitVec.ofNat 16 n } else g
  | .ident _ | .meas .. | .core .. | .pend _ | .slot _ | .fb .. | .ldir _ => g
  | .mailbox v k =>
    if k = 0 then startRequest g v x
    else if k = 1 && !(g.st.vi v).instBusy then modVi g v fun u => { u with instCtx := BitVec.ofNat 12 n }
    else g
  | .part p => partWrite g p x
  | .vi v k => viWrite g full v k x
  | .ctx c k => ctxWrite g c k x
  | .queue q k => queueWrite g full q k x
  | .qsa p k => qsaWrite g p k x
  | .dist p k => distWrite g p k x
  | .tr c k => trWrite g c k x
  | .phbm p k => phbmWrite g p k x
  | .tc k =>
    if !g.st.mod.cache.isEmpty then g
    else if k = 0 then modMod g fun m => { m with tcBase := x }
    else if k = 1 then modMod g fun m => { m with tcSize := BitVec.ofNat 32 n }
    else g
  | .link l k => linkWrite g l k x
  | .wctx w c k => wctxWrite g w c k x
  | .keeper j k =>
    if k = 0 then modJd g j fun d => { d with cltSel := BitVec.ofNat 16 n }
    else if k = 5 then modJd g j fun d => { d with cltRsel := BitVec.ofNat 17 n }
    else g
  | .peers k =>
    if k = 0 then modMod g fun m => { m with ptBase := BitVec.ofNat 64 (bitf n 3 43 * 8) }
    else if k = 1 then modMod g fun m => { m with ptCount := BitVec.ofNat 18 n }
    else ptFlush g
  | .lse p => if 1 ≤ n % 256 && n % 256 ≤ 250 then g.put (.part p { g.st.part p with lseInit := n % 256 }) else g
  | .mirror p i => mirrorEntryWrite g p i x
  | .name e h => nameWrite g e h x
  | .imem w i => imemWrite g w i x
  | .time k => if k = 0 then ftNowWrite g x else if k = 1 then ftControl g x else g

/-- A write with the discard of R371: a register of an interface in function-level reset takes none. -/
def regStore (g : Go s0) (full : Bool) (r : Reg) (x : Word) : Go s0 :=
  match g.st.regVi r with
  | some n => if (g.st.vi n).flrBusy then g else regWrite g full r x
  | none => regWrite g full r x

/-! ### Accesses that are no instruction's -/

/-- A write by firmware, a host or a service context: discarded where the writer does not reach the register, withheld while the host's
link is down (R483). -/
def systemWrite (g : Go s0) (w : Writer) (a : Nat) (x : Word) : Go s0 :=
  match w, regAt a with
  | .firmware, some (.ctx c 0) =>
    if a % 8 = 0 && c < 4095 && (g.st.ctx c).state = 0 && bitf x.toNat 5 1 = 1 then serviceCreate g c x.toNat
    else if a % 8 = 0 then regStore g true (.ctx c 0) x else g
  | .host n, some r =>
    if !g.st.mod.hostUp then modMod g fun m => { m with withheld := m.withheld ++ [(n, a, some x)] }
    else if a % 8 = 0 && g.st.reaches w true r then regStore g false r x else g
  | _, some r => if a % 8 = 0 && g.st.reaches w true r then regStore g (writerFull w) r x else g
  | _, none => g

/-- SYSTEM_REGISTER_WRITE (R14). -/
def execSystemRegisterWrite (w : Writer) (addr : Nat) (value : BitVec 64) (s : State) : Host.Outcome State Fault Refusal :=
  (systemWrite (Go.start s) w addr value).done

/-- A read by firmware, a host or a service context (R14): the value goes to the reader, and the RC fields of the word clear. Where the
reader does not reach the register, 0 (R483). -/
def systemRead (g : Go s0) (w : Writer) (a : Nat) : Go s0 :=
  match regAt a with
  | some r =>
    if a % 8 = 0 && g.st.reaches w false r then regClear (send g (.regValue w a (regRead g.st r))) r else send g (.regValue w a 0)
  | none => send g (.regValue w a 0)

/-- READ_CLEAR (R14): a read of a register of any access type; a host's is withheld while its link is down (R483). -/
def execReadClear (w : Writer) (addr : Nat) (s : State) : Host.Outcome State Fault Refusal :=
  let g := Go.start s
  match w with
  | .host n => (if !s.mod.hostUp then modMod g fun m => { m with withheld := m.withheld ++ [(n, addr, none)] } else systemRead g w addr).done
  | _ => (systemRead g w addr).done

/-- HOST_LINK_RETRAIN (R483): the accesses withheld go through, in order. -/
def execHostLinkRetrain (s : State) : Host.Outcome State Fault Refusal :=
  let g := modMod (Go.start s) fun m => { m with hostUp := true, withheld := [] }
  (g.each s.mod.withheld fun e g => match e.2.2 with
    | some x => systemWrite g (.host e.1) e.2.1 x
    | none => systemRead g (.host e.1) e.2.1).done

end Sys2Proof.Machine
end

