-- ==== Sys2Proof/Machine/Priv.lean ====
section
/-! DEFINITION. Group 14, the privileged instructions (R374 to R379): `rdpr`, `wrpr`, `eret`, `tinv`, `csave`, `crest`, `halt`; and the end of
a fence or `tinv` (R115, R377). That the crew's context has CTX.LEVEL = 1 is a decode cause (Issue.lean). -/

namespace Sys2Proof.Machine

open Sys2Proof

variable {s0 : State}

/-- Does a context lie in the scope of the issuing crew's (R368)? DESIGN CHOICE (log 63; safe): a free context lies in no scope but the
module service context's. -/
def State.ctxInScope (s : State) (issuer ctx : Nat) : Bool :=
  isService issuer || (ctx < 4096 && (s.ctx ctx).state != 0 && (s.ctx ctx).part == (s.ctx issuer).part)

/-- The status of a group 14 instruction, in D where it has one. -/
def Issue.status (i : Issue) (n : Nat) : RegOut := i.putD 2 fun _ => n

/-! ### System registers (R375) -/

/-- The causes of R375, of which at most one applies. -/
def regCause (s : State) (c a : Nat) (write : Bool) : Option Nat :=
  match regAt a with
  | none => some 3
  | some r => if a % 8 ≠ 0 then some 4 else if s.ctxReaches c write r then none else some 7

/-- The system address of `rdpr` and `wrpr` (R375). -/
def regAddr (i : Issue) : Nat := i.a32 0

/-- `rdpr` (R375): the read clears what R14 says it clears. -/
def rdprBody (i : Issue) (g : Go s0) : Go s0 :=
  if i.run = 0 then retire g i {}
  else match regCause g.st i.c.ctx (regAddr i) false, regAt (regAddr i) with
    | some n, _ => faultAll g i n 0 0
    | none, some r => retire (regClear g r) i (i.putD 2 fun _ => (regRead g.st r).toNat)
    | none, none => g

/-- `wrpr` (R375). -/
def wrprBody (i : Issue) (g : Go s0) : Go s0 :=
  if i.run = 0 then retire g i {}
  else match regCause g.st i.c.ctx (regAddr i) true, regAt (regAddr i) with
    | some n, _ => faultAll g i n 0 1
    | none, some r => retire (regStore g (isService i.c.ctx) r (BitVec.ofNat 64 (i.dv .b64 false 0))) i {}
    | none, none => g

/-! ### Resolving a crew (R376) -/

/-- `eret` (R376); a free context has no crew: status 2 (R384). -/
def eretBody (i : Issue) (g : Go s0) : Go s0 :=
  if i.run = 0 then retire g i {}
  else
    let id := i.a32 0
    if (g.st.ctx (id / 2 ^ 20)).state ≠ 0 && !g.st.ctxInScope i.c.ctx (id / 2 ^ 20) then faultAll g i 7 0 0
    else
      let (n, g) := resolveCrew g id (operand64 i.cb i.f.b)
      retire g i (i.status n)

/-! ### Removing translations (R377) -/

/-- Does a context belong to what a `tinv` names: a context, 4096 with a partition's number, or 8192 for all? -/
def State.tinvNames (s : State) (what ctx : Nat) : Bool :=
  what == 8192 || ctx == what || (4096 ≤ what && !isService ctx && (s.ctx ctx).part.toNat + 4096 == what)

/-- Removes the translations that a `tinv` names from every unit, and the walks in flight that found one; with a page, those that cover its
address. -/
def dropTranslations (g : Go s0) (what : Nat) (page : Option Nat) : Go s0 :=
  let g := g.each g.st.tlbs fun u g =>
    g.put (.tlb u.1 (u.2.filter fun e =>
      !(g.st.tinvNames what e.ctx && match page with | some a => e.covers e.ctx (va56 a) | none => true)))
  if g.st.walks.isEmpty then g else g.put (.walks (g.st.walks.filter fun w => !g.st.tinvNames what w.ctx))

/-- Has every claim of a crew that was made before number `id` ended, its delivery with it (R377, R434)? -/
def Crew.claimsEnded (c : Crew) (id : Nat) : Bool := c.handles.all fun h => id ≤ h.2.tag || h.2.result.isSome

/-- Has everything that used a translation of what the `tinv` numbered `id` names, and was made before it, ended (R377)? -/
def State.tinvReady (s : State) (id what : Nat) : Bool :=
  (s.crews.all fun e => !s.tinvNames what e.2.ctx ||
    (e.2.loadq.all (fun q => id ≤ q.id || q.back) && e.2.storeq.all (fun q => id ≤ q.id || q.left.isEmpty)
      && e.2.sent.all (fun f => id ≤ f.store) && e.2.claimsEnded id))
  && (s.saved.all fun v => !s.tinvNames what v.2.ctx || v.2.crews.all fun e => e.2.claimsEnded id)
  && (s.passes.all fun p => id ≤ p.1 || !s.tinvNames what p.2.pass.ctx)
  && (s.held.all fun h => !s.tinvNames what h.pass.ctx)
  && (s.cores.all fun c => c.2.ops.all fun o => id ≤ o.1 || !s.tinvNames what (o.2.ctx s))
  && (s.engines.all fun o => id ≤ o.1 || !s.tinvNames what (o.2.ctx s))

/-- `tinv` (R377): `fence.mod` first, then the removal, then the wait. -/
def tinvBody (what : Nat) (page : Option Nat) (ok : Bool) (cause : Option Nat) (i : Issue) (g : Go s0) : Go s0 :=
  if i.run = 0 then retire g i {}
  else match cause with
    | some n => faultAll g i n 0 0
    | none =>
      if !ok then faultAll g i 7 0 0
      else if !g.st.fenceReady i.x i.c g.st.seq 4 then g
      else
        let id := g.st.seq
        let g := dropCopies (dropTranslations g what page) i.x
        if g.st.tinvReady id what then retire (g.put .seq) i {} else park (g.put .seq) i (.tinv id what)

/-- The context that a `tinv` names (R374). A number of 4096 or more names no context and lies in nobody's scope, not even that of the module service
context (DESIGN CHOICE, safe, log 77). -/
def tinvCtx (i : Issue) : Nat := operand64 i.cb i.f.b

def tinvPageBody (i : Issue) (g : Go s0) : Go s0 :=
  let a := operand64 i.ca i.f.a
  tinvBody (tinvCtx i) (some a) (g.st.ctxInScope i.c.ctx (tinvCtx i) && tinvCtx i < 4096) (if bitf a 56 4 ≠ 0 then some 3 else none) i g
def tinvCtxBody (i : Issue) (g : Go s0) : Go s0 :=
  tinvBody (tinvCtx i) none (g.st.ctxInScope i.c.ctx (tinvCtx i) && tinvCtx i < 4096) none i g
def tinvPartBody (i : Issue) (g : Go s0) : Go s0 :=
  tinvBody (if isService i.c.ctx then 8192 else 4096 + (g.st.ctx i.c.ctx).part.toNat) none true none i g

/-- The fence of an arrival that the exit of lanes completed ends: the crew arrives (R54, R117). -/
def arrivalFence (x : Nat) (c : Crew) (s : State) : Host.Outcome State Fault Refusal :=
  match c.arriving.find? fun a => a.fence.isSome with
  | some a =>
    (match a.fence with
    | some id => if s.fenceReady x c id (s.scopeOf c 1) then (arrived (Go.start s) x a).done else .next s
    | none => .next s)
  | none => .next s

/-- FENCE_COMPLETE (R115, R117, R377): a fence or a `tinv` of a split ends; where the split waits for none, the fence of an arrival of the
crew. -/
def execFenceComplete (x k : Nat) (s : State) : Host.Outcome State Fault Refusal :=
  match s.crew? x with
  | none => .next s
  | some c =>
    match c.split? k with
    | none => arrivalFence x c s
    | some sp =>
      match sp.wait with
      | .fence id scope start =>
        if s.fenceReady x c id scope then (fenceEnd (Go.start s) x k id scope start).done else .next s
      | .tinv id what => if s.tinvReady id what then (endWait (Go.start s) x k 0 []).done else .next s
      | _ => arrivalFence x c s

/-! ### Crew images (R378, R386) -/

/-- Bytes of a crew's image (R386). -/
def imageSize (c : Crew) : Nat := 4096 + 4 * c.width * c.wrows

/-- IMG.STATE of a crew that a `csave` saves: that of before the stop where that `csave`, `mine`, stopped it; else a stopped crew's (R378,
R387). -/
def saveState (s : State) (c : Crew) (mine : Bool) : Nat :=
  if c.st ≠ .stopped then imageState c
  else if !mine || (s.ctx c.ctx).state = 2 || c.splits.any fun e => e.2.faulted then 2
  else if c.splits.any fun e => e.2.held == .ready then 0 else 1

/-- Do the crew's queues hold nothing that a save waits for (R386)? -/
def State.saveReady (s : State) (c : Crew) : Bool :=
  c.loadq.all (fun e => e.back) && c.storeq.all (fun e => e.acked) && c.sent.isEmpty && !(s.passes.any fun p => p.2.pass.crew == c.inst)

/-- Writes the bytes of an image over its pieces: at home, and by passes to other modules. -/
def writePieces (g : Go s0) (i : Issue) : Pieces → List Byte → Go s0
  | [], _ => g
  | p :: ps, bs =>
    let mine := bs.take p.len
    let g := match p.loc with
      | .home k =>
        let cells := cellsFrom k mine
        let g := g.each (distinct (cells.map fun e => lineOf e.1)) fun ln g => endLease g ln
        updateCopies (homeStore g (writer g.st i) cells) (placeCore i.x) cells
      | .far q va => g.each (List.range (mine.length / 8)) fun n g =>
          let id := g.st.seq
          (agentWrite (g.put .seq) id i.c.ctx 8 (leNat ((mine.drop (8 * n)).take 8)) false (.far q (va + BitVec.ofNat 64 (8 * n))) p.peers).2
      | .scratch .. => g
    writePieces g i ps (bs.drop p.len)

/-- The checks of an image range (R220, R378). -/
def checkImage (g : Go s0) (i : Issue) (a n : Nat) (write : Bool) : (List Stop × Pieces) × Go s0 :=
  let ((es, ps), g) := checkRange g i false a n write
  let lock : List Stop := if g.st.rangeClash (placeCore i.x) true i.c.ctx i.c.team (va56 a) n write then [{ cause := 11, addr := a }] else []
  ((es ++ lock, ps), g)

/-- `csave` (R378): the crew stops where it has not, and its image is written once its accesses are done. A pre-emption that began first goes
first (R384). -/
def csaveBody (i : Issue) (g : Go s0) : Go s0 :=
  if i.run = 0 then retire g i {}
  else
    let id := i.a32 0
    let a := operand64 i.cb i.f.b
    if a % 64 ≠ 0 then faultAll g i 4 a 1
    else if !g.st.ctxInScope i.c.ctx (id / 2 ^ 20) then faultAll g i 7 0 1
    else match g.st.crewOfId id with
      | none => retire g i (i.status 2)
      | some (x, c) =>
        let ((es, ps), g) := checkImage g i a (imageSize c) true
        if !es.isEmpty then faultStops g i es 1
        else if c.st = .draining then retire g i (i.status 1)
        else if (match g.st.team? c.team with | some t => t.leaving | none => false) && c.saver ≠ some i.c.inst && c.asked ≠ some i.c.inst then g
        else if !g.st.saveReady c then
          (if x = i.x then g else modCrew g x fun c =>
            if c.st = .running then { c.stop with saver := some i.c.inst } else { c with asked := some i.c.inst })
        else if x = i.x then
          let g := retire g i (i.status 0)
          match g.st.crew? x with
          | some c => writePieces (g.put (.crew x (some c.stop))) i ps (crewImage g.st x c (imageState c))
          | none => g
        else
          let st := saveState g.st c (c.saver = some i.c.inst)
          let c := { (if c.st = .running then c.stop else c) with saver := none, asked := none }
          retire (writePieces (g.put (.crew x (some c))) i ps (crewImage g.st x c st)) i (i.status 0)

/-- The engine operation by which `crest` reads an image from another module. -/
def crestKey (i : Issue) : Nat := 2 ^ 61 + 4 * i.x + i.k

/-- `crest` (R378). -/
def crestBody (i : Issue) (g : Go s0) : Go s0 :=
  if i.run = 0 then retire g i {}
  else
    let id := i.a32 0
    let a := operand64 i.cb i.f.b
    if a % 64 ≠ 0 then faultAll g i 4 a 0
    else if !g.st.ctxInScope i.c.ctx (id / 2 ^ 20) then faultAll g i 7 0 0
    else match g.st.crewOfId id with
      | none => retire g i (i.status 2)
      | some (x, c) =>
        let ((es, _), g) := checkImage g i a (imageSize c) false
        let refused := match Tab.find g.st.engines (crestKey i) with | some e => e.refused | none => 0
        if !es.isEmpty then faultStops g i es 0
        else if c.st ≠ .stopped then retire g i (i.status 1)
        else match agentRead g (crestKey i) i.c.ctx a (imageSize c) with
          | (.wait, g) => g
          | (.bad, g) => faultAll g i (if refused = 0 then 7 else refused) a 0
          | (.bytes bs, g) =>
            if imageBad c x bs then retire g i (i.status 3)
            else retire (g.put (.crew x (some (c.fromImage bs)))) i (i.status 0)

/-! ### Halting (R379) -/

/-- `halt` (R379). -/
def haltBody (i : Issue) (g : Go s0) : Go s0 :=
  if i.run = 0 then retire g i {}
  else if (g.st.ctx i.c.ctx).wake then retire (modCtx g i.c.ctx fun v => { v with wake := false }) i {}
  else park g i .halt

def execRdpr (f : Fields) (s : State) : Host.Outcome State Fault Refusal := crewStep .rdpr f s rdprBody
def execWrpr (f : Fields) (s : State) : Host.Outcome State Fault Refusal := crewStep .wrpr f s wrprBody
def execEret (f : Fields) (s : State) : Host.Outcome State Fault Refusal := crewStep .eret f s eretBody
def execTinvPage (f : Fields) (s : State) : Host.Outcome State Fault Refusal := crewStep .tinvPage f s tinvPageBody
def execTinvCtx (f : Fields) (s : State) : Host.Outcome State Fault Refusal := crewStep .tinvCtx f s tinvCtxBody
def execTinvPart (f : Fields) (s : State) : Host.Outcome State Fault Refusal := crewStep .tinvPart f s tinvPartBody
def execCsave (f : Fields) (s : State) : Host.Outcome State Fault Refusal := crewStep .csave f s csaveBody
def execCrest (f : Fields) (s : State) : Host.Outcome State Fault Refusal := crewStep .crest f s crestBody
def execHalt (f : Fields) (s : State) : Host.Outcome State Fault Refusal := crewStep .halt f s haltBody

end Sys2Proof.Machine
end

