-- ==== Sys2Proof/Machine/Dispatch.lean ====
section
/-! DEFINITION. The dispatch: one arm per constructor of Instr, one direct call of a meaning each. -/

namespace Sys2Proof.Machine

open Sys2Proof

def exec (i : Instr) (s : State) : Host.Outcome State Fault Refusal :=
  match i with
  | .iadd f => Sys2Proof.Machine.execIadd f s
  | .isub f => Sys2Proof.Machine.execIsub f s
  | .imul f => Sys2Proof.Machine.execImul f s
  | .imulhi f => Sys2Proof.Machine.execImulhi f s
  | .imad f => Sys2Proof.Machine.execImad f s
  | .imin f => Sys2Proof.Machine.execImin f s
  | .imax f => Sys2Proof.Machine.execImax f s
  | .iabs f => Sys2Proof.Machine.execIabs f s
  | .ineg f => Sys2Proof.Machine.execIneg f s
  | .and f => Sys2Proof.Machine.execAnd f s
  | .or f => Sys2Proof.Machine.execOr f s
  | .xor f => Sys2Proof.Machine.execXor f s
  | .not f => Sys2Proof.Machine.execNot f s
  | .shl f => Sys2Proof.Machine.execShl f s
  | .shr f => Sys2Proof.Machine.execShr f s
  | .sar f => Sys2Proof.Machine.execSar f s
  | .rot f => Sys2Proof.Machine.execRot f s
  | .popc f => Sys2Proof.Machine.execPopc f s
  | .clz f => Sys2Proof.Machine.execClz f s
  | .brev f => Sys2Proof.Machine.execBrev f s
  | .bfx f => Sys2Proof.Machine.execBfx f s
  | .bfi f => Sys2Proof.Machine.execBfi f s
  | .lea f => Sys2Proof.Machine.execLea f s
  | .icmp f => Sys2Proof.Machine.execIcmp f s
  | .sel f => Sys2Proof.Machine.execSel f s
  | .pand f => Sys2Proof.Machine.execPand f s
  | .por f => Sys2Proof.Machine.execPor f s
  | .pxor f => Sys2Proof.Machine.execPxor f s
  | .pnot f => Sys2Proof.Machine.execPnot f s
  | .pmov f => Sys2Proof.Machine.execPmov f s
  | .fadd f => Sys2Proof.Machine.execFadd f s
  | .fsub f => Sys2Proof.Machine.execFsub f s
  | .fmul f => Sys2Proof.Machine.execFmul f s
  | .fma f => Sys2Proof.Machine.execFma f s
  | .fmin f => Sys2Proof.Machine.execFmin f s
  | .fmax f => Sys2Proof.Machine.execFmax f s
  | .fcmp f => Sys2Proof.Machine.execFcmp f s
  | .fdiv f => Sys2Proof.Machine.execFdiv f s
  | .fsqrt f => Sys2Proof.Machine.execFsqrt f s
  | .frcp f => Sys2Proof.Machine.execFrcp f s
  | .frsq f => Sys2Proof.Machine.execFrsq f s
  | .fexp2 f => Sys2Proof.Machine.execFexp2 f s
  | .flog2 f => Sys2Proof.Machine.execFlog2 f s
  | .fsin f => Sys2Proof.Machine.execFsin f s
  | .fcos f => Sys2Proof.Machine.execFcos f s
  | .frnd f => Sys2Proof.Machine.execFrnd f s
  | .fclass f => Sys2Proof.Machine.execFclass f s
  | .dadd f => Sys2Proof.Machine.execDadd f s
  | .dsub f => Sys2Proof.Machine.execDsub f s
  | .dmul f => Sys2Proof.Machine.execDmul f s
  | .dfma f => Sys2Proof.Machine.execDfma f s
  | .dmin f => Sys2Proof.Machine.execDmin f s
  | .dmax f => Sys2Proof.Machine.execDmax f s
  | .dcmp f => Sys2Proof.Machine.execDcmp f s
  | .ddiv f => Sys2Proof.Machine.execDdiv f s
  | .dsqrt f => Sys2Proof.Machine.execDsqrt f s
  | .cvt f => Sys2Proof.Machine.execCvt f s
  | .pack2 f => Sys2Proof.Machine.execPack2 f s
  | .unpack2 f => Sys2Proof.Machine.execUnpack2 f s
  | .bfpack f => Sys2Proof.Machine.execBfpack f s
  | .bfunpack f => Sys2Proof.Machine.execBfunpack f s
  | .bfexp f => Sys2Proof.Machine.execBfexp f s
  | .shfl f => Sys2Proof.Machine.execShfl f s
  | .vote f => Sys2Proof.Machine.execVote f s
  | .bcast f => Sys2Proof.Machine.execBcast f s
  | .redux f => Sys2Proof.Machine.execRedux f s
  | .scan f => Sys2Proof.Machine.execScan f s
  | .matchv f => Sys2Proof.Machine.execMatchv f s
  | .mov f => Sys2Proof.Machine.execMov f s
  | .movw f => Sys2Proof.Machine.execMovw f s
  | .rdsr f => Sys2Proof.Machine.execRdsr f s
  | .wrsr f => Sys2Proof.Machine.execWrsr f s
  | .setfmt f => Sys2Proof.Machine.execSetfmt f s
  | .setfmtRm f => Sys2Proof.Machine.execSetfmtRm f s
  | .getfmt f => Sys2Proof.Machine.execGetfmt f s
  | .nop f => Sys2Proof.Machine.execNop f s
  | .bra f => Sys2Proof.Machine.execBra f s
  | .brx f => Sys2Proof.Machine.execBrx f s
  | .call f => Sys2Proof.Machine.execCall f s
  | .callx f => Sys2Proof.Machine.execCallx f s
  | .ret f => Sys2Proof.Machine.execRet f s
  | .exit f => Sys2Proof.Machine.execExit f s
  | .spawn f => Sys2Proof.Machine.execSpawn f s
  | .yield f => Sys2Proof.Machine.execYield f s
  | .brk f => Sys2Proof.Machine.execBrk f s
  | .trap f => Sys2Proof.Machine.execTrap f s
  | .ld f => Sys2Proof.Machine.execLd f s
  | .st f => Sys2Proof.Machine.execSt f s
  | .lds f => Sys2Proof.Machine.execLds f s
  | .sts f => Sys2Proof.Machine.execSts f s
  | .ldb f => Sys2Proof.Machine.execLdb f s
  | .stb f => Sys2Proof.Machine.execStb f s
  | .ldc f => Sys2Proof.Machine.execLdc f s
  | .pref f => Sys2Proof.Machine.execPref f s
  | .qwait f => Sys2Proof.Machine.execQwait f s
  | .atom f => Sys2Proof.Machine.execAtom f s
  | .atomf f => Sys2Proof.Machine.execAtomf f s
  | .cas f => Sys2Proof.Machine.execCas f s
  | .red f => Sys2Proof.Machine.execRed f s
  | .atoms f => Sys2Proof.Machine.execAtoms f s
  | .fence f => Sys2Proof.Machine.execFence f s
  | .bar f => Sys2Proof.Machine.execBar f s
  | .knotinit f => Sys2Proof.Machine.execKnotinit f s
  | .knotarr f => Sys2Proof.Machine.execKnotarr f s
  | .knotwait f => Sys2Proof.Machine.execKnotwait f s
  | .knotfree f => Sys2Proof.Machine.execKnotfree f s
  | .cwait f => Sys2Proof.Machine.execCwait f s
  | .flagsig f => Sys2Proof.Machine.execFlagsig f s
  | .flagwait f => Sys2Proof.Machine.execFlagwait f s
  | .copy f => Sys2Proof.Machine.execCopy f s
  | .copyg f => Sys2Proof.Machine.execCopyg f s
  | .batch f => Sys2Proof.Machine.execBatch f s
  | .bwait f => Sys2Proof.Machine.execBwait f s
  | .kick f => Sys2Proof.Machine.execKick f s
  | .setlay f => Sys2Proof.Machine.execSetlay f s
  | .mma f => Sys2Proof.Machine.execMma f s
  | .mmaw f => Sys2Proof.Machine.execMmaw f s
  | .mld f => Sys2Proof.Machine.execMld f s
  | .mst f => Sys2Proof.Machine.execMst f s
  | .mzero f => Sys2Proof.Machine.execMzero f s
  | .mget f => Sys2Proof.Machine.execMget f s
  | .mgetTry f => Sys2Proof.Machine.execMgetTry f s
  | .mrel f => Sys2Proof.Machine.execMrel f s
  | .lstat f => Sys2Proof.Machine.execLstat f s
  | .rld f => Sys2Proof.Machine.execRld f s
  | .rst f => Sys2Proof.Machine.execRst f s
  | .ratom f => Sys2Proof.Machine.execRatom f s
  | .rfence f => Sys2Proof.Machine.execRfence f s
  | .gld f => Sys2Proof.Machine.execGld f s
  | .gst f => Sys2Proof.Machine.execGst f s
  | .gdetach f => Sys2Proof.Machine.execGdetach f s
  | .claim f => Sys2Proof.Machine.execClaim f s
  | .clwait f => Sys2Proof.Machine.execClwait f s
  | .clwaitTest f => Sys2Proof.Machine.execClwaitTest f s
  | .announce f => Sys2Proof.Machine.execAnnounce f s
  | .wstart f => Sys2Proof.Machine.execWstart f s
  | .rdpr f => Sys2Proof.Machine.execRdpr f s
  | .wrpr f => Sys2Proof.Machine.execWrpr f s
  | .eret f => Sys2Proof.Machine.execEret f s
  | .tinvPage f => Sys2Proof.Machine.execTinvPage f s
  | .tinvCtx f => Sys2Proof.Machine.execTinvCtx f s
  | .tinvPart f => Sys2Proof.Machine.execTinvPart f s
  | .csave f => Sys2Proof.Machine.execCsave f s
  | .crest f => Sys2Proof.Machine.execCrest f s
  | .halt f => Sys2Proof.Machine.execHalt f s
  | .xmit f => Sys2Proof.Machine.execXmit f s
  | .store f => Sys2Proof.Machine.execStore f s
  | .comb f => Sys2Proof.Machine.execComb f s
  | .combf f => Sys2Proof.Machine.execCombf f s
  | .fwd f => Sys2Proof.Machine.execFwd f s
  | .waitf f => Sys2Proof.Machine.execWaitf f s
  | .sigf f => Sys2Proof.Machine.execSigf f s
  | .loop f => Sys2Proof.Machine.execLoop f s
  | .winchBra f => Sys2Proof.Machine.execWinchBra f s
  | .brc f => Sys2Proof.Machine.execBrc f s
  | .addh f => Sys2Proof.Machine.execAddh f s
  | .subh f => Sys2Proof.Machine.execSubh f s
  | .movh f => Sys2Proof.Machine.execMovh f s
  | .lih f => Sys2Proof.Machine.execLih f s
  | .cmph f => Sys2Proof.Machine.execCmph f s
  | .ldh f => Sys2Proof.Machine.execLdh f s
  | .setc f => Sys2Proof.Machine.execSetc f s
  | .yld f => Sys2Proof.Machine.execYld f s
  | .winchHalt f => Sys2Proof.Machine.execWinchHalt f s
  | .nopw f => Sys2Proof.Machine.execNopw f s
  | .merge c k => Sys2Proof.Machine.execMerge c k s
  | .priorityBoost c => Sys2Proof.Machine.execPriorityBoost c s
  | .ordRelease c k => Sys2Proof.Machine.execOrdRelease c k s
  | .crewRetire c => Sys2Proof.Machine.execCrewRetire c s
  | .spawnReport launch from_ delta gwct peers => Sys2Proof.Machine.execSpawnReport launch from_ delta gwct peers s
  | .launchComplete launch => Sys2Proof.Machine.execLaunchComplete launch s
  | .loadReturn c id => Sys2Proof.Machine.execLoadReturn c id s
  | .storePerform c id line => Sys2Proof.Machine.execStorePerform c id line s
  | .storeAck c id far => Sys2Proof.Machine.execStoreAck c id far s
  | .fenceComplete c k => Sys2Proof.Machine.execFenceComplete c k s
  | .leaseExpiry core line => Sys2Proof.Machine.execLeaseExpiry core line s
  | .exclusiveLeaseEnd core line => Sys2Proof.Machine.execExclusiveLeaseEnd core line s
  | .waitReread c k => Sys2Proof.Machine.execWaitReread c k s
  | .engineTransfer core op unit => Sys2Proof.Machine.execEngineTransfer core op unit s
  | .requestListElement core op => Sys2Proof.Machine.execRequestListElement core op s
  | .batchComplete c => Sys2Proof.Machine.execBatchComplete c s
  | .matrixOpStart team op => Sys2Proof.Machine.execMatrixOpStart team op s
  | .matrixBlock team op => Sys2Proof.Machine.execMatrixBlock team op s
  | .matrixOpRetire team op => Sys2Proof.Machine.execMatrixOpRetire team op s
  | .remotePassArrive p => Sys2Proof.Machine.execRemotePassArrive p s
  | .windowPassArrive p => Sys2Proof.Machine.execWindowPassArrive p s
  | .passReply pass refused data bad clock vc => Sys2Proof.Machine.execPassReply pass refused data bad clock vc s
  | .passCommit from_ pass group before => Sys2Proof.Machine.execPassCommit from_ pass group before s
  | .passCancel from_ pass => Sys2Proof.Machine.execPassCancel from_ pass s
  | .passTimeout pass => Sys2Proof.Machine.execPassTimeout pass s
  | .orderedFlagRelease from_ pass => Sys2Proof.Machine.execOrderedFlagRelease from_ pass s
  | .claimArrive j r => Sys2Proof.Machine.execClaimArrive j r s
  | .announceAccept j id => Sys2Proof.Machine.execAnnounceAccept j id s
  | .tileArrive j t => Sys2Proof.Machine.execTileArrive j t s
  | .claimDelivered j id => Sys2Proof.Machine.execClaimDelivered j id s
  | .requesterExpiry j entry req => Sys2Proof.Machine.execRequesterExpiry j entry req s
  | .neverProduced j name expiry ans => Sys2Proof.Machine.execNeverProduced j name expiry ans s
  | .withdrawal j name link => Sys2Proof.Machine.execWithdrawal j name link s
  | .claimRefusal j name => Sys2Proof.Machine.execClaimRefusal j name s
  | .stockpileExpiry j tile => Sys2Proof.Machine.execStockpileExpiry j tile s
  | .chunkArrive w ch set cs data => Sys2Proof.Machine.execChunkArrive w ch set cs data s
  | .creditReturn link ch n => Sys2Proof.Machine.execCreditReturn link ch n s
  | .winchForcedYield w => Sys2Proof.Machine.execWinchForcedYield w s
  | .waitfReread w c => Sys2Proof.Machine.execWaitfReread w c s
  | .wsetStartFlit ctx set arg from_ => Sys2Proof.Machine.execWsetStartFlit ctx set arg from_ s
  | .wsetDone ctx set from_ => Sys2Proof.Machine.execWsetDone ctx set from_ s
  | .wcLoad w c => Sys2Proof.Machine.execWcLoad w c s
  | .wcRun w c => Sys2Proof.Machine.execWcRun w c s
  | .wcStep w c => Sys2Proof.Machine.execWcStep w c s
  | .wcStop w c => Sys2Proof.Machine.execWcStop w c s
  | .wcClear w c => Sys2Proof.Machine.execWcClear w c s
  | .partControlWrite p value => Sys2Proof.Machine.execPartControlWrite p value s
  | .viFlr vi => Sys2Proof.Machine.execViFlr vi s
  | .ctxCreate vi => Sys2Proof.Machine.execCtxCreate vi s
  | .ctxRelease vi ctx => Sys2Proof.Machine.execCtxRelease vi ctx s
  | .resume ctx crew => Sys2Proof.Machine.execResume ctx crew s
  | .skip ctx crew => Sys2Proof.Machine.execSkip ctx crew s
  | .exitAction ctx crew => Sys2Proof.Machine.execExitAction ctx crew s
  | .abort ctx crew => Sys2Proof.Machine.execAbort ctx crew s
  | .ctxWake ctx => Sys2Proof.Machine.execCtxWake ctx s
  | .faultRecordCommit ctx => Sys2Proof.Machine.execFaultRecordCommit ctx s
  | .faultRingRetry ctx => Sys2Proof.Machine.execFaultRingRetry ctx s
  | .uncorrectableError site => Sys2Proof.Machine.execUncorrectableError site s
  | .qControlWrite q mayVi value => Sys2Proof.Machine.execQControlWrite q mayVi value s
  | .qTailKick q value => Sys2Proof.Machine.execQTailKick q value s
  | .qResumeSkip q => Sys2Proof.Machine.execQResumeSkip q s
  | .qResumeRetry q => Sys2Proof.Machine.execQResumeRetry q s
  | .launch p => Sys2Proof.Machine.execLaunch p s
  | .wset p => Sys2Proof.Machine.execWset p s
  | .copyPacket p => Sys2Proof.Machine.execCopyPacket p s
  | .copyPacketComplete q n => Sys2Proof.Machine.execCopyPacketComplete q n s
  | .waitv p => Sys2Proof.Machine.execWaitv p s
  | .waitvReread q => Sys2Proof.Machine.execWaitvReread q s
  | .signal p => Sys2Proof.Machine.execSignal p s
  | .signalComplete q n => Sys2Proof.Machine.execSignalComplete q n s
  | .fencePacket => Sys2Proof.Machine.execFencePacket s
  | .replay => Sys2Proof.Machine.execReplay s
  | .nopk => Sys2Proof.Machine.execNopk s
  | .queueSchedule slot q => Sys2Proof.Machine.execQueueSchedule slot q s
  | .forcedUnmap q => Sys2Proof.Machine.execForcedUnmap q s
  | .eclassAging q => Sys2Proof.Machine.execEclassAging q s
  | .distributorPlace part => Sys2Proof.Machine.execDistributorPlace part s
  | .reserve m => Sys2Proof.Machine.execReserve m s
  | .held gang from_ => Sys2Proof.Machine.execHeld gang from_ s
  | .gangCommit gang => Sys2Proof.Machine.execGangCommit gang s
  | .placed gang from_ => Sys2Proof.Machine.execPlaced gang from_ s
  | .refusedMsg gang from_ => Sys2Proof.Machine.execRefusedMsg gang from_ s
  | .gangCancel gang => Sys2Proof.Machine.execGangCancel gang s
  | .gangGo gang => Sys2Proof.Machine.execGangGo gang s
  | .gangSaved gang from_ => Sys2Proof.Machine.execGangSaved gang from_ s
  | .gangwaitExpiry part gang => Sys2Proof.Machine.execGangwaitExpiry part gang s
  | .drainExpiry gang => Sys2Proof.Machine.execDrainExpiry gang s
  | .dvGo part value => Sys2Proof.Machine.execDvGo part value s
  | .teamRestore team => Sys2Proof.Machine.execTeamRestore team s
  | .colocationWindow part => Sys2Proof.Machine.execColocationWindow part s
  | .tableWalk unit ctx va => Sys2Proof.Machine.execTableWalk unit ctx va s
  | .trReplay ctx => Sys2Proof.Machine.execTrReplay ctx s
  | .tagAddrWrite ctx value => Sys2Proof.Machine.execTagAddrWrite ctx value s
  | .tagDataWrite ctx value => Sys2Proof.Machine.execTagDataWrite ctx value s
  | .ptFlush => Sys2Proof.Machine.execPtFlush s
  | .pathsDownExpiry peer => Sys2Proof.Machine.execPathsDownExpiry peer s
  | .flitReceive link x => Sys2Proof.Machine.execFlitReceive link x s
  | .nak link seq => Sys2Proof.Machine.execNak link seq s
  | .replayTimeout link => Sys2Proof.Machine.execReplayTimeout link s
  | .flitForward link x => Sys2Proof.Machine.execFlitForward link x s
  | .returnedFlit link x => Sys2Proof.Machine.execReturnedFlit link x s
  | .lnkEnable link on => Sys2Proof.Machine.execLnkEnable link on s
  | .trainingComplete link lanes failed => Sys2Proof.Machine.execTrainingComplete link lanes failed s
  | .laneHealthWindow link => Sys2Proof.Machine.execLaneHealthWindow link s
  | .keySlotWrite link slot tx value => Sys2Proof.Machine.execKeySlotWrite link slot tx value s
  | .txselWrite link sel => Sys2Proof.Machine.execTxselWrite link sel s
  | .keydone link slot => Sys2Proof.Machine.execKeydone link slot s
  | .ftControlFlit link time offset bound trip => Sys2Proof.Machine.execFtControlFlit link time offset bound trip s
  | .ftNowWrite value => Sys2Proof.Machine.execFtNowWrite value s
  | .install vi => Sys2Proof.Machine.execInstall vi s
  | .load vi => Sys2Proof.Machine.execLoad vi s
  | .unload vi => Sys2Proof.Machine.execUnload vi s
  | .attest vi => Sys2Proof.Machine.execAttest vi s
  | .reset => Sys2Proof.Machine.execReset s
  | .fatalError code => Sys2Proof.Machine.execFatalError code s
  | .pwrThrottle now temp throt => Sys2Proof.Machine.execPwrThrottle now temp throt s
  | .hostLinkDown => Sys2Proof.Machine.execHostLinkDown s
  | .readClear w addr => Sys2Proof.Machine.execReadClear w addr s
  | .systemRegisterWrite w addr value => Sys2Proof.Machine.execSystemRegisterWrite w addr value s
  | .ftHoldoverExpiry => Sys2Proof.Machine.execFtHoldoverExpiry s
  | .hostLinkRetrain => Sys2Proof.Machine.execHostLinkRetrain s
  | .powerLoss => Sys2Proof.Machine.execPowerLoss s
  | .gangSave gang => Sys2Proof.Machine.execGangSave gang s
  | .holdReleaseNotice gang from_ => Sys2Proof.Machine.execHoldReleaseNotice gang from_ s
  | .deliveryHandedOn j entry => Sys2Proof.Machine.execDeliveryHandedOn j entry s
  | .gwctReached c k => Sys2Proof.Machine.execGwctReached c k s

end Sys2Proof.Machine
end

