-- ==== Sys2Proof/Machine/Sched.lean ====
section
/-! DEFINITION. What a turn does and whose turn is next (R45, R65, R325, R396; log 3): a split's, a winch's or a queue's instruction is fetched
and decoded, an event happens, or fabric time passes. The agenda lists turns that are queued; where the order of turns is left
open, a free value chooses. -/

namespace Sys2Proof.Machine

open Sys2Proof

/-! ### Turns -/

/-- The state in which a turn runs: the turn is taken from the agenda where it stands at its head, and its issuer is the current one. -/
def State.take (s : State) (t : Turn) (listed : Bool) : State :=
  { s with agenda := if listed then s.agenda.tail else s.agenda, fresh := s.fresh + 1
           cur := match t with
             | .issue x k => .crew x k
             | .winch w c => .winch w c
             | .queue q => .queue q
             | _ => .none }

/-- The instruction at the PC of a split (R134, R136, R148). -/
def splitFetch (s : State) (x k : Nat) (c : Crew) (sp : Split) : Host.Outcome State Fault Refusal :=
  match fetchBytes (Go.start s) (placeCore x) c.ctx sp.pc.toNat with
  | (.error es, g) => (fetchFault g x k (lanesOf sp.mask c.width) es).done
  | (.ok bs, g) =>
    match decodeBytes bs with
    | .ok (i, _) => exec i g.st
    | .error _ => (takeFault g x k (allFault (lanesOf sp.mask c.width) 1) 0 0 false).done

/-- A split's turn: the merge check of R46 where it is due, else its instruction. -/
def splitTurn (s : State) : Host.Outcome State Fault Refusal :=
  match s.issuer with
  | none => .next s
  | some (x, k, c, sp) => if c.mergeDue sp then exec (.merge x k) s else splitFetch s x k c sp

/-- A winch context's turn (R315, R318): its PC lies in its program, and the word there is an instruction. -/
def winchTurn (s : State) : Host.Outcome State Fault Refusal :=
  match s.winchIssuer with
  | none => .next s
  | some (w, c, v) =>
    if v.lo ≤ v.pc && v.pc ≤ v.hi then
      match decodeWinch (Tab.get 0 s.imem (8192 * w + v.pc.toNat)).toNat with
      | .ok i => exec i s
      | .error _ => (winchFault (Go.start s) w c v 1 0 0).done
    else (winchFault (Go.start s) w c v 1 0 0).done

/-- The address of the packet at Q.HEAD (R394). -/
def Queue.packetAddr (v : Queue) : Nat := v.base.toNat + 64 * (v.head.toNat % 2 ^ v.size.toNat)

/-- The packet at Q.HEAD, read through the tables of Q.CTX (R395, R397, R398). -/
def queueFetch (s : State) (q : Nat) (v : Queue) : Host.Outcome State Fault Refusal :=
  match agentRead (Go.start s) (queueKey q 0) v.ctx.toNat v.packetAddr 64 with
  | (.wait, g) => g.done
  | (.bad, g) => (orHalt g q v (noType s q) [4] g).done
  | (.bytes bs, g) =>
    match decodePacket (natOfBytes bs) with
    | .ok i => exec i g.st
    | .error .packetType => (orHalt g q v (natOfBytes bs % 256) [1] g).done
    | .error _ => (orHalt g q v (natOfBytes bs % 256) [2] g).done

/-- A queue's turn (R396): the packet that waits, else the one at Q.HEAD. -/
def queueTurn (s : State) : Host.Outcome State Fault Refusal :=
  match s.queueIssuer with
  | none => .next s
  | some (q, v) =>
    match v.saved with
    | some (_, w) =>
      match decodePacket w.toNat with
      | .ok i => exec i s
      | .error _ => .next s
    | none => queueFetch s q v

/-- One turn. -/
def runTurn (t : Turn) (s : State) : Host.Outcome State Fault Refusal :=
  match t with
  | .issue _ _ => splitTurn s
  | .winch _ _ => winchTurn s
  | .queue _ => queueTurn s
  | .event i => exec i s
  | .elapse n => (elapse (Go.start s) n).done

/-- A module held by a fatal error does nothing but what its board controller and its clock do until RESET (R484). -/
def Turn.whenHeld : Turn → Bool
  | .event .reset | .event .powerLoss | .event (.pwrThrottle ..) | .elapse _ => true
  | .event (.systemRegisterWrite .board ..) | .event (.readClear .board _) => true
  | _ => false

/-- Is the turn RESET? -/
def Turn.isReset : Turn → Bool
  | .event .reset => true
  | _ => false

/-! ### The issue scheduler (R65, R233) -/

/-- The turns of a crew's ready splits: each is a candidate of its own (R45). -/
def Crew.turns (x : Nat) (c : Crew) : List Turn := (c.splits.filter fun p => p.2.st == .ready).map fun p => .issue x p.1

/-- Does a split's instruction wait in issue? Its turn then leaves its crew as it was. -/
def State.waitsInIssue (s : State) (t : Turn) : Bool :=
  match t with
  | .issue x _ =>
    (match runTurn t (s.take t false) with
    | .next s' => s'.crew? x == s.crew? x
    | _ => false)
  | _ => false

/-- A crew that executed `yield` and whose slot has not issued since (R233). -/
def State.hasYielded (s : State) (x : Nat) (c : Crew) : Bool := c.yielded && c.age == Tab.get 0 s.cycles (x / 8)

/-- The priority of a crew, 0 the highest (R65): its launching queue's class, or the highest once it was passed over too long. -/
def State.crewPrio (s : State) (x : Nat) (c : Crew) : Nat :=
  if c.boosted || (c.ready && s.teamRuns c && c.passed + 256 ≤ Tab.get 0 s.cycles (x / 8)) then 0 else match s.team? c.team with | some t => t.prio | none => 3

/-- Does a slot choose crew `a` before crew `b` (R65, R233)? -/
def State.before (s : State) (a b : Nat × Crew) : Bool :=
  let ya := s.hasYielded a.1 a.2
  let yb := s.hasYielded b.1 b.2
  let pa := s.crewPrio a.1 a.2
  let pb := s.crewPrio b.1 b.2
  if ya != yb then yb else pa < pb || (pa == pb && a.2.age < b.2.age)

/-- The turns among which a slot chooses: those of its first crew; where they all wait in issue, also those of the next. -/
def State.slotTurns (s : State) : Nat → List (Nat × Crew) → List Turn
  | 0, _ => []
  | fuel + 1, es =>
    let first := es.filter fun e => es.all fun f => !s.before f e
    let ts := (first.map fun e => e.2.turns e.1).flatten
    ts ++ if ts.all s.waitsInIssue then s.slotTurns fuel (es.filter fun e => es.any fun f => s.before f e) else []

/-- The crews that are ready (R65). -/
def State.readyCrews (s : State) : Table Crew := s.crews.filter fun e => e.2.ready && s.teamRuns e.2

/-- The issue turns of every slot. -/
def State.issueTurns (s : State) : List Turn :=
  let es := s.readyCrews
  ((distinct (es.map fun e => e.1 / 8)).map fun n =>
    let mine := es.filter fun e => e.1 / 8 == n
    s.slotTurns mine.length mine).flatten

/-! ### The hardware's own events -/

/-- The event that a split may have next: the end of what it waits for, of a stopped split too (R67), or its issue. -/
def splitEvents (x : Nat) (p : Nat × Split) : List Instr :=
  match p.2.wait with
  | .fence .. | .tinv .. => [.fenceComplete x p.1]
  | .word .. => [.waitReread x p.1]
  | .ord .. => [.ordRelease x p.1]
  | _ => if p.2.st = .ready then [.gwctReached x p.1] else []

/-- The split number, above every split's, under which the fence of an arrival that an exit completed ends (R117). -/
def arrivalSplit : Nat := 64

/-- The events of a crew. -/
def crewEvents (x : Nat) (c : Crew) : List Instr :=
  [.priorityBoost x, .crewRetire x, .batchComplete x]
    ++ c.loadq.map (fun e => .loadReturn x e.id)
    ++ (c.storeq.map fun e =>
        (if e.left.isEmpty then [Instr.storePerform x e.id 0] else e.left.map fun l => .storePerform x e.id l) ++ [.storeAck x e.id none]).flatten
    ++ (c.splits.map (splitEvents x)).flatten
    ++ if c.arriving.any fun a => a.fence.isSome then [.fenceComplete x arrivalSplit] else []

/-- The events of a core. -/
def coreEvents (core : Nat) (v : CoreSt) : List Instr :=
  v.copies.map (fun e => .leaseExpiry core e.1)
    ++ (v.ops.map fun e => (e.2.left.map fun u => Instr.engineTransfer core e.1 u) ++ [.requestListElement core e.1]).flatten

/-- The events of a team: its matrix operations, its return (R284, R423). -/
def teamEvents (n : Nat) (t : Team) : List Instr :=
  (t.opq.map fun o => [Instr.matrixOpStart n o.id, .matrixBlock n o.id, .matrixOpRetire n o.id]).flatten
    ++ if t.saved then [.teamRestore n] else []

/-- The events of a keeper. -/
def keeperEvents (j : Nat) (d : Jd) : List Instr :=
  (d.claims.map fun e => (e.2.reqs.map fun r => Instr.requesterExpiry j e.1 r)
      ++ if e.2.st = .delivering then [.deliveryHandedOn j e.1] else []).flatten
    ++ (d.stock.map fun e => Instr.stockpileExpiry j e.1 :: if e.2.readers = 0 then [] else [.deliveryHandedOn j (65536 + e.1)]).flatten
    ++ d.deliv.map fun e => .claimDelivered j e.1

/-- The events of a queue. -/
def State.queueEvents (s : State) (q : Nat) (v : Queue) : List Instr :=
  (v.runs.map fun r => [Instr.copyPacketComplete q r.no, .signalComplete q r.no]).flatten
    ++ [.waitvReread q, .forcedUnmap q, .eclassAging q]
    ++ if v.pending && !v.mapped then (s.slotTargets (s.queuePart q) q).map fun n => .queueSchedule n q else []

/-- The partitions that the distributor serves; 15 is the module service context's. -/
def partNumbers : List Nat := [0, 1, 2, 3, 4, 5, 6, 7, 15]

/-- The walks of the tables (R433): the ends of those in flight, and one for a PC that a ready split fetches at. -/
def State.walkEvents (s : State) : List Instr :=
  s.walks.map (fun w => .tableWalk w.unit w.ctx (BitVec.ofNat 64 (65536 * w.page)))
    ++ (s.readyCrews.map fun e => (e.2.splits.filter fun p => p.2.st == .ready).map fun p =>
        Instr.tableWalk ((coreUnits (placeCore e.1)).getLastD 0) e.2.ctx (p.2.pc.setWidth 64)).flatten

/-- The events that the state makes possible; one whose condition does not hold yet does nothing. -/
def State.events (s : State) : List Instr :=
  (s.crews.map fun e => crewEvents e.1 e.2).flatten
    ++ (s.cores.map fun e => coreEvents e.1 e.2).flatten
    ++ (s.lines.map fun e => match e.2.excl with
      | some (c, _) => [Instr.exclusiveLeaseEnd c e.1]
      | none => []).flatten
    ++ (s.teams.map fun e => teamEvents e.1 e.2).flatten
    ++ (s.engines.map fun e => e.2.left.map fun u => Instr.engineTransfer 640 e.1 u).flatten
    ++ (s.jds.map fun e => keeperEvents e.1 e.2).flatten
    ++ s.announces.map (fun e => .announceAccept (keeperOf e.2.name) e.1)
    ++ (s.queues.map fun e => s.queueEvents e.1 e.2).flatten
    ++ (s.launches.map fun e => [Instr.launchComplete e.1, .spawnReport e.1 s.mod.modid 0 0 []]).flatten
    ++ (s.passes.map fun e => e.2.passes.map fun o => Instr.passTimeout (2 ^ 18 * e.1 + o.peer)).flatten
    ++ (s.held.filter fun h => !h.flags.isEmpty).map (fun h => .orderedFlagRelease h.pass.src h.pass.id)
    ++ (s.gangs.map fun e => Instr.drainExpiry e.1 :: partNumbers.map fun p => .gangwaitExpiry p e.1).flatten
    ++ (partNumbers.map fun p => [Instr.distributorPlace p, .colocationWindow p]).flatten
    ++ (s.ctxs.map fun e => (if e.2.state = 3 then [Instr.abort e.1 (2 ^ 32)] else [])
        ++ (if e.2.writing.isEmpty then [] else [.faultRecordCommit e.1])
        ++ if e.2.kept.isEmpty then [] else [.faultRingRetry e.1]).flatten
    ++ s.walkEvents
    ++ (s.vis.filter fun e => e.2.flrBusy).map (fun e => .viFlr e.1)
    ++ ((s.vis.filter fun e => e.2.instBusy).map fun e => [Instr.install e.1, .load e.1, .attest e.1]).flatten
    ++ (s.wctxs.map fun e => [Instr.waitfReread (e.1 / 4) (e.1 % 4), .winchForcedYield (e.1 / 4)]).flatten
    ++ (s.links.map fun e => [Instr.replayTimeout e.1, .laneHealthWindow e.1]).flatten
    ++ [.pathsDownExpiry (Config.freeNat (s.salt 32 0)), .ftHoldoverExpiry]

/-! ### The choice -/

/-- The turns among which the next is chosen where the agenda does not give it. -/
def State.candidates (s : State) : List Turn :=
  s.issueTurns
    ++ (List.range linkCount).filterMap (fun w => (s.winchNext w).map fun c => .winch w c)
    ++ s.queues.map (fun e => .queue e.1)
    ++ s.events.map .event
    ++ [.elapse (Config.freeNat (s.salt 31 0))]

/-- A turn that the state allows, left open which. -/
def State.openTurn (s : State) : Turn :=
  let ts := s.candidates
  ts.getD (Config.freeNat (s.salt 30 0) % ts.length) (.elapse 0)

/-- The next turn, and whether it comes from the agenda: the agenda's first, but an event there may be still on its way. -/
def State.nextTurn (s : State) : Turn × Bool :=
  match s.agenda with
  | .event i :: _ => if Config.freeBit (s.salt 30 1) then (s.openTurn, false) else (.event i, true)
  | t :: _ => (t, true)
  | [] => (s.openTurn, false)

end Sys2Proof.Machine
end

