-- ==== Sys2Proof/Machine/Step.lean ====
section
/-! DEFINITION. One step of the module: the next turn is taken (log 3), and what that turn runs is executed; and the placing of an
instruction where the next step fetches. -/

namespace Sys2Proof.Machine

open Sys2Proof

/-- The messages that a turn sends go onto their links with its end (R453). -/
def State.wired (s : State) (o : Host.Outcome State Fault Refusal) : Host.Outcome State Fault Refusal :=
  match o with
  | .next t => (wireOut (Go.start t) s.outbox.length).done
  | o => o

/-- One step. A module without power does nothing but RESET (R474). -/
def step (s : State) : Host.Outcome State Fault Refusal :=
  if s.powered then
    match s.nextTurn with
    | (t, listed) => if s.mod.errFatal = 0 || t.whenHeld then s.wired (runTurn t (s.take t listed)) else .next (s.take t listed)
  else
    match s.agenda with
    | t :: _ => if t.isReset then s.wired (runTurn t (s.take t true)) else .fault .unpowered
    | [] => .fault .unpowered

/-! ### Placing an instruction (log 7) -/

/-- Bytes placed at a home address. -/
def placeBytes (mem : List Host.Cell) (k : Nat) : List Byte → List Host.Cell
  | [] => mem
  | b :: bs => placeBytes (Tab.set 0 mem k b) (k + 1) bs

/-- Tables at 0, 0x1000 and 0x2000 whose one leaf is the first gigabyte, and `bs` at 0x10000. -/
def placedMem (mem : List Host.Cell) (bs : List Byte) : List Host.Cell :=
  placeBytes (placeBytes (placeBytes (placeBytes mem 0 (bytesOfNat 8 0x1001)) 0x1000 (bytesOfNat 8 0x2001)) 0x2000 (bytesOfNat 8 0x83))
    0x10000 bs

/-- The module service context with those tables. -/
def placedCtx (c : Ctx) : Ctx := { c with state := 1, level := true, part := 0xF, trRoot := 0, trEn := true }

/-- A kernel whose entry is 0x10000: one crew of 32 lanes. -/
def placedKd : Kd :=
  { entry := 0x10000, scratch := 4096, argSize := 0, frame := 16, wrows := 64, gang := 0, tiles := 0, uclass := false, pair := false
    crews := 1, width := 32 }

/-- Its launch and the batch of its one team. -/
def placedLaunch : Launch :=
  { ctx := 4095, object := 0, kernel := 0, home := none, homeNo := 0, counter := 1, prio := 0, args := 0, done := 0, doneVal := 0
    retry := 0, idem := false, stack := 4096, pool := 0x100000, reported := [], gwct := 0, broken := false, reports := [] }
def placedPend (n : Nat) : Pend :=
  { launch := n, grid := n, kernel := 0, object := 0, ctx := 4095, prio := 0, time := 0, order := n, next := 0, last := 1, nteams := 1
    args := 0, key := [], clock := 0, relaunches := 0, gang := 0, peers := [] }
def placedTeam (n : Nat) : Team :=
  { launch := n, grid := n, teamNo := 0, nteams := 1, kernel := 0, object := 0, ctx := 4095, pair := false, cores := [0], slots := [0]
    crews := [0], ncrews := 1, scratchSize := 4096, scratch := [], poison := [], guards := [], knots := [], bars := [], tilesHeld := 0
    tiles := [], opq := [], tileq := [], spilled := false, gang := none, rank := 0, gangSize := 0, detached := false, gdetach := []
    gdetachClock := 0, lost := false, gwct := 0, relaunchOk := true, relaunches := 0, key := [], startClock := 0, args := 0, prio := 0
    order := n, saved := false, wlog := [], tracks := [], started := true, leaving := false }

/-- A crew of the module service context at core 0, place 0, whose next instruction is `bs`. -/
def State.withCrewBytes (s : State) (bs : List Byte) : State :=
  { s with
    mem := placedMem s.mem bs, tlbs := [], cores := Tab.del s.cores 0, powered := true, seq := s.seq + 1
    mod := { s.mod with errFatal := 0 }, ctxs := Tab.put s.ctxs 4095 (placedCtx (s.ctx 4095))
    crews := Tab.put s.crews 0 (newCrew s (placedPend s.seq) placedKd placedLaunch s.seq 0 0 0)
    teams := Tab.put s.teams s.seq (placedTeam s.seq), launches := Tab.put s.launches s.seq placedLaunch, agenda := [.issue 0 0] }

/-- Winch 0 running context 0 at PC 0, where the word `w` lies. -/
def State.withWinchWord (s : State) (w : Word) : State :=
  { s with
    mem := placedMem s.mem [], tlbs := [], powered := true, mod := { s.mod with errFatal := 0 }
    ctxs := Tab.put s.ctxs 4095 (placedCtx (s.ctx 4095)), imem := Tab.put s.imem 0 w, wcur := Tab.del s.wcur 0
    wctxs := Tab.put (Tab.del (Tab.del (Tab.del s.wctxs 1) 2) 3) 0 { Wctx.reset with state := 2, hi := 8191, tid := 4095 }
    agenda := [.winch 0 0] }

/-- Queue 0 of the module service context, mapped, with the one packet `bs`. -/
def State.withPacketBytes (s : State) (bs : List Byte) : State :=
  { s with
    mem := placedMem s.mem bs, tlbs := [], powered := true, mod := { s.mod with errFatal := 0 }
    ctxs := Tab.put s.ctxs 4095 (placedCtx (s.ctx 4095))
    queues := Tab.put s.queues 0 { Queue.reset with ctx := 4095, en := true, base := 0x10000, tail := 1, mapped := true, slot := 0 }
    slots := Tab.put s.slots 0 { Slot.reset with busy := true }, agenda := [.queue 0] }

/-- The state with an instruction stored where the next step fetches it: 64 bits a winch's, 512 a queue's, otherwise a crew's. Bits above
`nbits` are 0. -/
def State.withFetchWord (s : State) (nbits w : Nat) : State :=
  if nbits = 64 then s.withWinchWord (BitVec.ofNat 64 w)
  else if nbits = 512 then s.withPacketBytes (bytesOfNat 64 w)
  else s.withCrewBytes (bytesOfNat 12 (if nbits < 96 then w % 2 ^ nbits else w))

end Sys2Proof.Machine
end

