-- ==== Sys2Proof/Safety.lean ====
section
/-! DEFINITION. What counts as a safe state, and when an instruction executes: the terms in which claims are made. -/

namespace Sys2Proof

open Machine

/-- Memory in canonical form: addresses strictly rising, no entry equal to what an unlisted address reads as (log 1). -/
abbrev Machine.Memory.wf (m : List Host.Cell) : Bool := Tab.wf 0 m

namespace Machine

/-- One byte of home memory. -/
def State.byte (s : State) (a : Nat) : Byte := Tab.get 0 s.mem a

/-! ### Translation -/

/-- What the translation units `us` hold of a context, and the walks in flight for it, agree with its tables: software has followed R434,
no entry was written without a `tinv` after it. -/
def State.UnitsAgree (s : State) (us : List Nat) (ctx : Nat) : Prop :=
  (∀ u ∈ us, ∀ e ∈ Tab.get [] s.tlbs u, e.ctx = ctx → ∀ va, e.page ≤ va → va < e.page + e.size → s.walk ctx va = .ok e.leaf.toNat e.size) ∧
  ∀ w ∈ s.walks, w.ctx = ctx → ∀ va, va / 65536 = w.page → s.walk ctx va = w.res

/-- An access of `n` bytes at address `a` of a context passes the checks of R220 on its page, by the context's tables: aligned, bits [59:56]
0, mapped to this module, not read-only under a write, tracked for determinism where `det` says so, of the pointer's tag where the page has
tags; its first byte is home byte `h`. -/
def State.HomeAt (s : State) (ctx a n : Nat) (write det : Bool) (h : Nat) : Prop :=
  a % n = 0 ∧ a / 2 ^ 56 % 16 = 0 ∧ ∃ e p, s.walk ctx (a % 2 ^ 56) = .ok e p ∧ leafLoc e p a = .home h ∧ (write = true → pteRo e = false) ∧
    (det = true → pteDet e = true) ∧ (pteTagen e = true → s.tagAt h = a / 2 ^ 60 % 16)

/-- A range of `n` bytes from address `a` of a context on passes the checks of R220 page by page (R262), by the context's tables, every page
on this module; `ps` are the pieces it lies in. -/
def State.HomeRange (s : State) (ctx a n : Nat) (write det : Bool) : Pieces → Prop
  | [] => n = 0
  | p :: ps => 0 < n ∧ a / 2 ^ 56 % 16 = 0 ∧
      (∃ e size h, s.walk ctx (a % 2 ^ 56) = .ok e size ∧ leafLoc e size a = .home h ∧
        p = { loc := .home h, len := min n (size - a % 2 ^ 56 % size), leaf := e, peers := [] } ∧ (write = true → pteRo e = false) ∧
        (det = true → pteDet e = true) ∧ (pteTagen e = true → s.tagClash h p.len (a / 2 ^ 60 % 16) = false)) ∧
      State.HomeRange s ctx ((a + p.len) % 2 ^ 64) (n - p.len) write det ps

/-- A transfer range of a crew passes its checks (R262): in its team's scratch, clear of knots under a write, or at home. -/
def State.CopyRange (s : State) (c : Crew) (tm : Team) (scr : Bool) (a n : Nat) (write : Bool) (ps : Pieces) : Prop :=
  if scr then a + n ≤ tm.scratchSize ∧ (write = true → tm.guarded a n = false) ∧
    ps = [{ loc := .scratch c.team a, len := n, leaf := 0, peers := [] }]
  else s.HomeRange c.ctx a n write (s.dclass c) ps

/-- The bytes of home runs, one after another. -/
def runsHold (s : State) (rs : List (Nat × Nat)) : List Byte := (rs.map fun r => (List.range r.2).map fun j => s.byte (r.1 + j)).flatten
def runCells (rs : List (Nat × Nat)) : List Nat := (rs.map fun r => (List.range r.2).map fun j => r.1 + j).flatten

/-- The chunk of `n` bytes at an address passes its checks (R320, R321): aligned, every page of it on this module; `ps` are its pieces. -/
def State.ChunkAt (s : State) (w : Nat) (v : Wctx) (a n : Nat) (write : Bool) (ps : Pieces) : Prop :=
  a % 64 = 0 ∧ s.UnitsAgree (jdUnits (w / 8)) v.tid.toNat ∧ s.HomeRange v.tid.toNat a n write false ps

/-- The winch-set table of a context has a valid entry for a set, and the entry can be read (R470). -/
def State.SetTable (s : State) (ctx set : Nat) : Prop :=
  ∃ p, s.HomeRange ctx (((s.ctx ctx).wsetBase.toNat + 32 * set)) 32 false false p ∧ leNat (runsHold s (homeRuns p)) % 2 = 1

/-- The entry declares the ranges `rs`, and `ps` are the other modules it names (R470). -/
def State.SetIs (s : State) (ctx set : Nat) (rs : List SetRange) (ps : List Nat) : Prop :=
  ∃ p pr pp, s.HomeRange ctx (((s.ctx ctx).wsetBase.toNat + 32 * set)) 32 false false p ∧
    let e := leNat (runsHold s (homeRuns p))
    let nr := e / 2 ^ 112 % 2 ^ 16
    let np := e / 2 ^ 64 % 2 ^ 32
    e % 2 = 1 ∧ s.HomeRange ctx (e / 2 ^ 192 % 2 ^ 64) (16 * nr) false false pr ∧ s.HomeRange ctx (e / 2 ^ 128 % 2 ^ 64) (4 * np) false false pp ∧
    rs = ((List.range nr).map fun n =>
      let r := leNat (((runsHold s (homeRuns pr)).drop (16 * n)).take 16)
      ({ base := r % 2 ^ 64, len := r / 2 ^ 64 % 2 ^ 32, recv := decide (r / 2 ^ 96 % 2 = 1) } : SetRange)) ∧
    ps = (distinct ((List.range np).map fun n => leNat (((runsHold s (homeRuns pp)).drop (4 * n)).take 4))).filter fun q => q != s.mod.modid

/-- The same of a crew's access of a kind, with its core's range locks (R123) and, where it is tracked, the determinism records (R74). -/
def State.HomeAccess (s : State) (x : Nat) (c : Crew) (kd : AccKind) (a h : Nat) : Prop :=
  s.HomeAt c.ctx a kd.size kd.write (s.dclass c) h ∧ s.rangeClash (x / 64) true c.ctx c.team (a % 2 ^ 56) kd.size kd.write = false ∧
  (s.dclass c = true → kd.exempt = false →
    s.trackClash c { loc := .home h, size := kd.size, read := kd.read, write := kd.write, op := kd.op } = false)

/-- Peer `p` is there for a context (R459): the peer table holds it enabled and open to the context's partition, no die's copy of its entry is
stale, and it is this module or some path to it is up. -/
def State.PeerHere (s : State) (ctx p : Nat) : Prop :=
  let e := leNat (s.bytesAt (s.mod.ptBase.toNat + 8 * p) 8)
  let part := (s.ctx ctx).part.toNat
  p < s.mod.ptCount.toNat ∧ (∀ j v, j < 4 → Tab.find s.mod.ptCache (peerKey j p) = some v → v.toNat = e) ∧ e % 4 = 1 ∧ (part < 8 → e.testBit (56 + part) = true) ∧
  (p ≠ s.mod.modid → s.pathsUp e ≠ [])

/-! ### Crew instructions -/

/-- It is the turn of split `k` of the crew at place `x`, it can issue `m` with fields `f`, and neither the decoder nor the hazard
detector stops it (R148, R156, R284). -/
structure State.Executes (s : State) (m : Mn) (f : Fields) (x k : Nat) (c : Crew) (sp : Split) : Prop where
  issuer : s.issuer = some (x, k, c, sp)
  legal  : decodeCause s c m f = none
  quiet  : (debugOn s c.ctx && hazard c sp m f) = false
  image  : imageWaits s (issueOf s m f x k c sp) = false

/-- No result of an earlier instruction of the crew is outstanding (R112, R153, R154). -/
structure Settled (c : Crew) (sp : Split) : Prop where
  windows : sp.windows = []
  latchA  : sp.latchA = none
  latchB  : sp.latchB = none
  loads   : c.uncov = []

/-- The two states differ in the crew at place `x`, the issue cycles of slots and the work counted for co-location (R425) only:
memory, every other crew, every special and system register are the same. -/
def OnlyCrew (s t : State) (x : Nat) : Prop :=
  t = { s with crews := t.crews, cycles := t.cycles, coloc := t.coloc } ∧ ∀ y, y ≠ x → t.crew? y = s.crew? y

/-- The same but for the scratch and tiles of one team, where the instruction wrote a source that an `sts`, `atoms`, `mld` or `mst` in its window
still reads (R153). -/
def OnlyCrewAndScratch (s t : State) (x team : Nat) : Prop :=
  t = { s with crews := t.crews, cycles := t.cycles, coloc := t.coloc, teams := t.teams } ∧ (∀ y, y ≠ x → t.crew? y = s.crew? y) ∧
    (∀ n, n ≠ team → t.team? n = s.team? n) ∧ t.team? team = (s.team? team).map fun tm =>
      { tm with scratch := match t.team? team with | some v => v.scratch | none => tm.scratch
                tiles := match t.team? team with | some v => v.tiles | none => tm.tiles }

/-- Split `k` of crew `c` has retired an instruction and stands at `dst`: only registers, format register, windows and latches, and the
bookkeeping of the issue scheduler may differ beside its PC and its clock; the counters of layout registers only where the window of an
`lstat` or `setlay` is open (R153). -/
structure RetiredAt (c c' : Crew) (k : Nat) (sp sp' : Split) (dst : BitVec 56) : Prop where
  split  : c'.split? k = some sp'
  pc     : sp'.pc = dst
  clock  : sp'.clock = sp.clock + 1
  same   : sp' = { sp with pc := dst, clock := sp.clock + 1, fmt := sp'.fmt, windows := sp'.windows, latchA := sp'.latchA, latchB := sp'.latchB }
  others : ∀ j, j ≠ k → c'.split? j = (c.split? j).map fun q => { q with latchA := none, latchB := none }
  crew   : c' = { c with v := c'.v, s := c'.s, p := c'.p, lay := c'.lay, lstat := c'.lstat, splits := c'.splits, uncov := c'.uncov
                         age := c'.age, passed := c'.passed, boosted := c'.boosted, yielded := c'.yielded }
  counts : (∀ w ∈ sp.windows, w.m ≠ .lstat ∧ w.m ≠ .setlay) → c'.lstat = c.lstat

/-- The lanes of the crew in which the instruction takes effect (R40, R147). -/
def runLanes (s : State) (m : Mn) (f : Fields) (x k : Nat) (c : Crew) (sp : Split) : Lanes := (issueOf s m f x k c sp).run

/-- The instruction answers a next state in which its split has retired it and gone on 12 bytes, its format register unchanged, and what
the crew has become satisfies `P`; nothing outside the crew has changed. -/
def RetiresWith (s : State) (m : Mn) (f : Fields) (x k : Nat) (c : Crew) (sp : Split) (P : Crew → Prop) : Prop :=
  ∃ t c' sp', exec (m.instr f) s = .next t ∧ OnlyCrew s t x ∧ t.crew? x = some c' ∧ RetiredAt c c' k sp sp' (sp.pc + 12) ∧
    sp'.fmt = sp.fmt ∧ P c'

/-- The same with a new value of the format register, every other register unchanged. -/
def RetiresFmt (s : State) (m : Mn) (f : Fields) (x k : Nat) (c : Crew) (sp : Split) (v : BitVec 32) : Prop :=
  ∃ t c' sp', exec (m.instr f) s = .next t ∧ OnlyCrew s t x ∧ t.crew? x = some c' ∧ RetiredAt c c' k sp sp' (sp.pc + 12) ∧
    sp'.fmt = v ∧ ∀ n, c'.cell n = c.cell n

/-- Home memory after the records of `ws` were written one after another, each 64 bytes from its address on (R381). -/
def RecordsWritten (s t : State) (ws : List (Nat × FaultRec)) : Prop :=
  ∀ a, t.byte a = match ws.reverse.find? fun w => decide (w.1 ≤ a ∧ a < w.1 + 64) with
    | some w => w.2.bytes.getD (a - w.1) 0
    | none => s.byte a

/-- Record `r` of context `ctx` was written to home memory, and after it nothing but records that the context had kept (R383). -/
def RecordDelivered (s t : State) (ctx : Nat) (r : FaultRec) : Prop :=
  ∃ e ws, RecordsWritten s t ((e, r) :: ws) ∧ ∀ w ∈ ws, ∃ q ∈ s.keptRecords ctx, w.2 = q.2

/-- The outcome is the taking of a fault with a cause other than not-present in split `k` of the crew at place `x` (R67, R68, R381): the
crew stops, its PC, clock and registers as they were; the record names the lanes, the cause, the PC and the time, and either waits with the
crew, memory unchanged, or was written to memory, where nothing else changes but for records that the context had kept before. -/
def Faults (s : State) (o : Host.Outcome State Fault Refusal) (x k : Nat) (c : Crew) (sp : Split) (cause : Nat) (lanes : Lanes) : Prop :=
  ∃ t c' sp' r, o = .next t ∧ t.crew? x = some c' ∧ c'.st = .stopped ∧ c'.v = c.v ∧ c'.s = c.s ∧ c'.p = c.p ∧ c'.lay = c.lay ∧
    c'.split? k = some sp' ∧ sp'.st = .stopped ∧ sp'.faulted = true ∧ sp'.pc = sp.pc ∧ sp'.clock = sp.clock ∧ sp'.fmt = sp.fmt ∧
    c'.frec = some r ∧ r.cause = cause ∧ r.any = laneSet (lanesOf lanes c.width) ∧ r.pc = sp.pc ∧ r.time = s.now ∧ r.kind = 0 ∧
    r.split = k ∧ r.id = crewId c.ctx x ∧ t.teams = s.teams ∧ t.launches = s.launches ∧ t.now = s.now ∧
    ((c'.recSent = false ∧ t.mem = s.mem) ∨ (c'.recSent = true ∧ RecordDelivered s t c.ctx r))

/-- Is register cell `n` (Regs.lean) one that the instruction's destination field names, in a lane that takes effect (R41)? -/
def destCell (c : Crew) (sp : Split) (m : Mn) (f : Fields) (run : Lanes) (n : Nat) : Bool :=
  (writeKeys c sp m f).contains (n / 128) &&
    if 1024 ≤ n / 128 && n / 128 < 2048 || 4096 ≤ n / 128 then run != 0 else hasLane run (n % 128)

end Machine

end Sys2Proof
end

