-- ==== Sys2Proof/Certificates/Slice0/Obligations.lean ====
section
/-! DEFINITION. The statements for the provers, and the words they are made in: the rules of spec/ written out apart from the model's own
functions where the rules give a formula. -/

namespace Sys2Proof

open Machine

/-! ### Register instructions -/

/-- The crew instructions that only read and write registers. -/
def registerMns : List Mn :=
  [.iadd, .isub, .imul, .imulhi, .imad, .imin, .imax, .iabs, .ineg, .and, .or, .xor, .not, .shl, .shr, .sar, .rot, .popc, .clz, .brev
  , .bfx, .bfi, .lea, .icmp, .sel, .pand, .por, .pxor, .pnot, .pmov, .fadd, .fsub, .fmul, .fma, .fmin, .fmax, .fcmp, .fdiv, .fsqrt
  , .frcp, .frsq, .fexp2, .flog2, .fsin, .fcos, .frnd, .fclass, .dadd, .dsub, .dmul, .dfma, .dmin, .dmax, .dcmp, .ddiv, .dsqrt, .cvt
  , .pack2, .unpack2, .bfpack, .bfunpack, .bfexp, .shfl, .vote, .bcast, .matchv, .mov, .movw, .rdsr, .wrsr, .getfmt, .nop]

/-- The value of D after an instruction: `y` in each lane that takes effect where D is `n` vector rows, `z` of the lowest such lane where
D is a uniform register other than `s0`. -/
def DestHolds (c c' : Crew) (sp : Split) (f : Fields) (run : Lanes) (n : Nat) (y z : Nat → Nat) : Prop :=
  match f.d with
  | .v idx .. => ∀ l ∈ lanesOf run c.width, c'.rowsVal sp.wbase idx.toNat n l = y l
  | .s r => r.toNat ≠ 0 → ∀ l, lowest run c.width = some l → (c'.uni r.toNat).toNat = z l
  | _ => True

/-- The predicate D after an instruction: the condition in each lane that takes effect, unless D is `p0`. -/
def PredHolds (c c' : Crew) (f : Fields) (run : Lanes) (y : Nat → Bool) : Prop :=
  match f.d with
  | .p n _ => n.toNat ≠ 0 → ∀ l ∈ lanesOf run c.width, c'.pred n.toNat l = y l
  | _ => True

/-- A result of a type in a register of `m` bits: sign-extended for signed types, else zero-extended (R76). -/
def filled (t : Ty) (m : Nat) (y : BitVec t.bits) : Nat := if t.kind = .signed then (y.signExtend m).toNat else (y.setWidth m).toNat

/-- D holds the results of a type. -/
def TypedDest (c c' : Crew) (sp : Split) (f : Fields) (run : Lanes) (t : Ty) (y : Nat → BitVec t.bits) : Prop :=
  DestHolds c c' sp f run t.rows (fun l => filled t (32 * t.rows) (y l)) (fun l => filled t 64 (y l))

/-- A source field in a lane, as bits of the type, after the modifiers of R138. -/
def src (c : Crew) (sp : Split) (t : Ty) (o : Operand) (l : Nat) : BitVec t.bits := BitVec.ofNat t.bits (operandVal c sp.wbase t false o l)

/-- The same as the integer it stands for. -/
def srcInt (c : Crew) (sp : Split) (t : Ty) (o : Operand) (l : Nat) : Int :=
  if t.kind = .signed then (src c sp t o l).toInt else (src c sp t o l).toNat

/-- The exact results of R175. -/
def exactInt (m : Mn) (a b d : Int) : Option Int :=
  match m with
  | .iadd => some (a + b)
  | .isub => some (a - b)
  | .imul => some (a * b)
  | .imad => some (a * b + d)
  | .imin => some (min a b)
  | .imax => some (max a b)
  | .iabs => some |a|
  | .ineg => some (-a)
  | _ => none

/-- An integer clamped to the range of a type (R77). -/
def clamped (t : Ty) (x : Int) : Int :=
  if t.kind = .signed then max (-(2 : Int) ^ (t.bits - 1)) (min ((2 : Int) ^ (t.bits - 1) - 1) x) else max 0 (min ((2 : Int) ^ t.bits - 1) x)

/-- The bit results of R176, R177, R178, R179 and R181 with as many bits as the type: A and B as bits, B as a 32-bit count or index, F,
EXT. -/
def bitResult (m : Mn) (n : Nat) (sgn fl : Bool) (ext : Nat) (a b : BitVec n) (cnt : BitVec 32) : Option (BitVec n) :=
  match m with
  | .imulhi => some (BitVec.ofInt n ((if sgn then a.toInt * b.toInt else (a.toNat * b.toNat : Nat)) / (2 : Int) ^ n))
  | .and => some (a &&& b)
  | .or => some (a ||| b)
  | .xor => some (a ^^^ b)
  | .not => some (~~~a)
  | .shl => some (a <<< cnt.toNat)
  | .shr => some (a >>> cnt.toNat)
  | .sar => some (a.sshiftRight cnt.toNat)
  | .rot => some (if fl then a.rotateRight cnt.toNat else a.rotateLeft cnt.toNat)
  | .brev => some a.reverse
  | .lea => some (a + (if fl then cnt.signExtend n else cnt.setWidth n) <<< ext)
  | _ => none

/-- The value of one row, read by its bits: what `popc` and `clz` count (R179). -/
def bitCount (m : Mn) (n : Nat) (a : BitVec n) : Option Nat :=
  match m with
  | .popc => some ((List.range n).filter fun j => a.getLsbD j).length
  | .clz => some ((List.range n).takeWhile fun j => !a.getLsbD (n - 1 - j)).length
  | _ => none

/-- The bit-field results of R180, bit by bit. -/
def fieldBit (m : Mn) (n : Nat) (sgn : Bool) (d a : BitVec n) (pos len j : Nat) : Option Bool :=
  let k := min len (n - pos)
  match m with
  | .bfx => some (if len = 0 ∨ n ≤ pos then false else if j < k then a.getLsbD (pos + j) else sgn && a.getLsbD (pos + k - 1))
  | .bfi => some (if len ≠ 0 ∧ pos < n ∧ pos ≤ j ∧ j < pos + k then a.getLsbD (j - pos) else d.getLsbD j)
  | _ => none

/-- The conditions of R183 and R185 that a lane's predicate takes. -/
def intCondition (cc : Nat) (a b : Int) : Prop :=
  match cc with
  | 0 => a = b
  | 1 => a ≠ b
  | 2 => a < b
  | 3 => a ≤ b
  | 4 => a > b
  | _ => a ≥ b

/-! ### Floating point -/

/-- Instructions of groups 2 and 3 that compute one element from elements of A, B and D, with the operation on elements: the exact
result rounded once under the rounding mode and the flush of the format register (R187, R188, R191 to R193), the functions of R190. -/
def fpElement (m : Mn) (F : Fmt) (rm : Nat) (ftz : Bool) (ext : Nat) (a b d : Nat) : Option Nat :=
  match m with
  | .fadd | .dadd => some (fAdd F rm ftz a b)
  | .fsub | .dsub => some (fSub F rm ftz a b)
  | .fmul | .dmul => some (fMul F rm ftz a b)
  | .fma | .dfma => some (fMa F rm ftz a b d)
  | .fdiv | .ddiv => some (fDiv F rm ftz a b)
  | .fsqrt | .dsqrt => some (fSqrt F rm ftz a)
  | .fmin | .dmin => some (fMinMax F ftz false a b)
  | .fmax | .dmax => some (fMinMax F ftz true a b)
  | .frcp => some (fRcp F ftz a)
  | .frsq => some (fRsq F ftz a)
  | .fexp2 => some (fExp2 F ftz a)
  | .flog2 => some (fLog2 F ftz a)
  | .fsin => some (fSin F ftz a)
  | .fcos => some (fCos F ftz a)
  | .frnd => some (fRnd F (if ext = 0 then rm else ext - 4) ftz a)
  | .fclass => some (fClass F ftz a)
  | _ => none

/-- How many elements an operand of a floating-point type holds in its rows (R79), and their width. -/
def fpElements (t : Ty) : Nat := if t = .f16 ∨ t = .bf16 then 2 else 1
def fpWidth (t : Ty) : Nat := if t = .f16 ∨ t = .bf16 then 16 else t.bits

/-- A source's element in a lane. -/
def fpSrc (c : Crew) (sp : Split) (t : Ty) (o : Operand) (l el : Nat) : Nat := elem (operandVal c sp.wbase t true o l) (fpWidth t) el

/-- The order of R189 on patterns of a format, by sign and magnitude: a NaN lies above the infinities, a denormal is zero where FTZ says so, and
the two zeros are equal. -/
def fpIsNan (F : Fmt) (x : Nat) : Prop := F.infBits < x % F.signBit
def fpOrder (F : Fmt) (ftz : Bool) (x : Nat) : Int :=
  let mag : Int := if ftz = true ∧ x % F.signBit < 2 ^ F.fb then 0 else (x % F.signBit : Nat)
  if x / F.signBit % 2 = 1 then -mag else mag

/-- The conditions of R189. -/
def fpCondition (F : Fmt) (ftz : Bool) (cc a b : Nat) : Prop :=
  let un := fpIsNan F a ∨ fpIsNan F b
  match cc with
  | 6 => un
  | 7 => ¬ un
  | 1 => un ∨ fpOrder F ftz a ≠ fpOrder F ftz b
  | _ => ¬ un ∧ intCondition cc (fpOrder F ftz a) (fpOrder F ftz b)

/-! ### Conversions -/

/-- Is the type one of the integer types of R76? -/
def isInteger (t : Ty) : Bool := t.kind == .signed || t.kind == .natural

/-- The FP32 inputs of block `q` of A: +0 in a lane where the instruction takes no effect (R90, R198). -/
def blockInputs (c : Crew) (sp : Split) (f : Fields) (run : Lanes) (q : Nat) : List Nat :=
  (List.range 32).map fun j => if hasLane run (32 * q + j) then (src c sp .f32 f.a (32 * q + j)).toNat else 0

/-- The mantissa width that F selects (R198). -/
def blockWidth (f : Fields) (sp : Split) : Nat := if f.f then sp.fmt.toNat / 256 % 16 else sp.fmt.toNat / 16 % 16

/-- `n` bits from bit `lo` on of a string of 32-bit words (R89). -/
def laneBits (words : List Nat) (lo n : Nat) : Nat :=
  (List.range n).foldl (fun v j => v + if (words.getD ((lo + j) / 32) 0).testBit ((lo + j) % 32) then 2 ^ j else 0) 0

/-! ### Crew operations and moves -/

/-- The lanes that contribute to a crew operation (R202). -/
def contributes (run : Lanes) (c : Crew) (l : Nat) : Prop := l < c.width ∧ hasLane run l = true

/-- The special registers of R36. -/
def specialValue (s : State) (c : Crew) (sp : Split) (x : Nat) (tm : Team) (sel l : Nat) : Nat :=
  match sel with
  | 0 => l
  | 1 => c.width
  | 2 => c.crewNo
  | 3 => tm.ncrews
  | 4 => tm.teamNo
  | 5 => tm.nteams
  | 6 => if tm.gang.isSome then tm.rank else 2 ^ 32 - 1
  | 7 => if tm.gang.isSome then tm.gangSize else 0
  | 8 => x / 64
  | 9 => x / 8 % 8
  | 10 => if tm.pair then 1 + x / 64 % 2 else 0
  | 11 => s.mod.modid
  | 12 => sp.clock
  | 13 => s.now
  | _ => match Tab.find s.objs tm.object with
    | some o => o.database.toNat
    | none => 0

/-- The exact combination of the integers of a list under OP 0 to 2 (R206, R207). -/
def combined (op : Nat) : List Int → Option Int
  | [] => none
  | v :: vs => some (vs.foldl (fun a b => if op = 0 then a + b else if op = 1 then min a b else max a b) v)

/-! ### Faults -/

/-- The decode cause that R148 and R150 give a word in a crew: illegal-encoding, then privileged, then illegal-operand. -/
def firstCause (s : State) (c : Crew) (m : Mn) (f : Fields) : Option Nat :=
  if !encodingOk m f then some 1 else if 0x380 ≤ m.row.opc ∧ (s.ctx c.ctx).level = false then some 2
  else if !operandOk m f c.width then some 3 else none

/-- The privileged instructions (R374). -/
def privilegedMns : List Mn := [.rdpr, .wrpr, .eret, .tinvPage, .tinvCtx, .tinvPart, .csave, .crest, .halt]

/-! ### Control flow -/

/-- A split that goes on at `dst` with its registers as they were. -/
def GoesTo (s : State) (m : Mn) (f : Fields) (x k : Nat) (c : Crew) (sp : Split) (dst : BitVec 56) : Prop :=
  ∃ t c' sp', exec (m.instr f) s = .next t ∧ OnlyCrew s t x ∧ t.crew? x = some c' ∧ RetiredAt c c' k sp sp' dst ∧ sp'.fmt = sp.fmt ∧
    c'.v = c.v ∧ c'.s = c.s ∧ c'.p = c.p ∧ c'.lay = c.lay

/-- The PC `o` instructions after the next one (R134). -/
def pcRel (pc : BitVec 56) (o : Int) : BitVec 56 := BitVec.ofInt 56 ((pc.toNat : Int) + 12 + 12 * o)

/-- The paths of R43 and R227: the lanes of `run` grouped by key in rising order, those that do not take effect under the key of the next
PC. -/
def formPaths (c : Crew) (run rest : Lanes) (fallKey : Nat) (fall : BitVec 56) (key : Nat → Nat) (pc : Nat → BitVec 56) :
    List (BitVec 56 × Lanes) :=
  let ks := ((if rest = 0 then [] else [fallKey]) ++ (lanesOf run c.width).map key).dedup.mergeSort fun a b => decide (a ≤ b)
  ks.map fun n => (if n = fallKey ∧ rest ≠ 0 then fall else pc n,
    (if n = fallKey then rest else 0) ||| laneSet ((lanesOf run c.width).filter fun l => key l == n))

/-- Split table entries and join records that are free. -/
def freeEntries (c : Crew) : List Nat := (List.range 4).filter fun e => (c.split? e).isNone
def freeJoins (c : Crew) : List Nat := (List.range 3).filter fun j => (Tab.find c.joins j).isNone

/-- How many of `k` further paths become splits of their own (R43). -/
def newSplits (c : Crew) (k : Nat) : Nat := min k (min (freeEntries c).length (if freeJoins c = [] then 0 else 1))

/-- The split has divided into the paths as R43 gives: the first path stays in it, the next ones are new splits under a new join record, the
others stand on its mask stack above an RJ entry; its clock is one higher and registers are unchanged. -/
def Divides (s : State) (m : Mn) (f : Fields) (x k : Nat) (c : Crew) (sp : Split) (merge : BitVec 56) (p : BitVec 56 × Lanes)
    (ps : List (BitVec 56 × Lanes)) : Prop :=
  let n := newSplits c ps.length
  ∃ (t : State) (c' : Crew) (sp' : Split) (j : Option Nat) (es : List Nat), exec (m.instr f) s = .next t ∧ OnlyCrew s t x ∧
    t.crew? x = some c' ∧ c'.v = c.v ∧ c'.s = c.s ∧ c'.p = c.p ∧ c'.lay = c.lay ∧ c'.split? k = some sp' ∧
    sp'.pc = p.1 ∧ sp'.mask = p.2 ∧ sp'.clock = sp.clock + 1 ∧ sp'.fmt = sp.fmt ∧ sp'.wbase = sp.wbase ∧ sp'.depth = sp.depth ∧
    sp'.frames = sp.frames ∧ sp'.st = sp.st ∧ sp'.join = j ∧
    (match j with
      | some j' => (n = 0 ∧ sp.join = some j') ∨ (n ≠ 0 ∧ j' < 3 ∧ Tab.find c.joins j' = none ∧ Tab.find c'.joins j' = some
          { mergePc := merge, fmt := sp.fmt, base := sp.wbase, depth := sp.depth, parent := sp.join, sides := 1 + n })
      | none => n = 0 ∧ sp.join = none) ∧
    es.length = n ∧ es.Nodup ∧
    (∀ (i e : Nat) (q : BitVec 56 × Lanes), es[i]? = some e → ps[i]? = some q → e < 4 ∧ c.split? e = none ∧ ∃ ne, c'.split? e = some ne ∧ ne.pc = q.1 ∧ ne.mask = q.2 ∧
      ne.clock = sp.clock + 1 ∧ ne.fmt = sp.fmt ∧ ne.wbase = sp.wbase ∧ ne.depth = sp.depth ∧ ne.join = j ∧ ne.mstack = [] ∧ ne.st = sp.st) ∧
    sp'.mstack = (if ps.length ≤ n then [] else (ps.drop n).map (fun (q : BitVec 56 × Lanes) => MaskEntry.path q.1 q.2 merge sp.fmt sp.wbase) ++
      [MaskEntry.rj merge ((ps.drop n).foldl (fun (a : Lanes) (q : BitVec 56 × Lanes) => a ||| q.2) p.2) sp.fmt sp.wbase]) ++ sp.mstack

/-- Room on the chip for what a division leaves on the mask stack (R48). -/
def stackRoom (c : Crew) (sp : Split) (k : Nat) : Prop :=
  sp.mstack.length + (if k ≤ newSplits c k then 0 else k - newSplits c k + 1) ≤ 8

/-- The transfer of a call: the frame of `size` rows below the caller's (R50). -/
def Calls (s : State) (m : Mn) (f : Fields) (x k : Nat) (c : Crew) (sp : Split) (entry : BitVec 56) (size : Nat) : Prop :=
  ∃ t c' sp', exec (m.instr f) s = .next t ∧ OnlyCrew s t x ∧ t.crew? x = some c' ∧ c'.v = c.v ∧ c'.s = c.s ∧ c'.p = c.p ∧ c'.lay = c.lay ∧
    c'.split? k = some sp' ∧ sp'.pc = entry ∧ sp'.clock = sp.clock + 1 ∧ sp'.mask = sp.mask ∧ sp'.fmt = sp.fmt ∧
    sp'.wbase = (sp.wbase + c.wrows - size) % c.wrows ∧ sp'.depth = sp.depth + 1 ∧
    sp'.frames = { ret := sp.pc + 12, size := size, base := sp.wbase, spilled := none } :: sp.frames

/-- The frames of the split and one more of `size` rows lie in the window together, none of them spilled: the call needs no spill (R51). -/
def fitsWindow (c : Crew) (sp : Split) (size : Nat) : Prop :=
  (frameSizes c.entryF sp.frames).sum + size ≤ c.wrows ∧ ∀ fr ∈ sp.frames, fr.spilled = none

/-- The next `n` bytes of the crew's spill area lie below the address in `s63` and at home, in pieces `ps`, and pass the checks of a store (R52). -/
def SpillRoom (s : State) (x : Nat) (c : Crew) (n : Nat) (ps : Pieces) : Prop :=
  c.spillTop.toNat + n ≤ (c.uni 63).toNat ∧ s.HomeRange c.ctx c.spillTop.toNat n true (s.dclass c) ps ∧ s.UnitsAgree (coreUnits (x / 64)) c.ctx

/-- The bytes `bs` were written to the pieces `ps`, and to no other byte; teams, launches and other crews are as they were but for the completion
times of their queued stores. -/
def SpilledTo (s t : State) (x : Nat) (ps : Pieces) (bs : List Byte) : Prop :=
  t.runBytes (homeRuns ps) = bs ∧ (∀ a, (∀ r ∈ homeRuns ps, a < r.1 ∨ r.1 + r.2 ≤ a) → t.byte a = s.byte a) ∧
    t.teams = s.teams ∧ t.launches = s.launches ∧ t.now = s.now ∧
    ∀ y d, y ≠ x → s.crew? y = some d → ∃ d', t.crew? y = some d' ∧ d' = { d with storeq := d'.storeq }

/-- A call or return that needs the spill area while the crew holds other splits (R53): its split waits in frame-wait where another goes on, and where
all others wait at merges the crew stops with stack-limit. -/
def WaitsForFrame (s : State) (m : Mn) (f : Fields) (x k : Nat) (c : Crew) (sp : Split) : Prop :=
  ((∃ e ∈ c.splits, e.1 ≠ k ∧ e.2.st ≠ .frameWait ∧ e.2.st ≠ .mergeWait) → ∃ t, exec (m.instr f) s = .next t ∧ t = { s with crews := t.crews } ∧
    (∀ y, y ≠ x → t.crew? y = s.crew? y) ∧ t.crew? x = some (c.setSplit k { sp with st := .frameWait })) ∧
  ((∃ e ∈ c.splits, e.1 ≠ k) → Tab.sorted c.splits = true → (∀ e ∈ c.splits, e.1 ≠ k → e.2.st = .mergeWait) → Faults s (exec (m.instr f) s) x k c sp 19 sp.mask)

/-- A call to a function of `size` rows for which the window has no room (R50 to R53): stack-limit where the callee's frame does not fit beside the
caller's; else the oldest frame, the entry frame here, goes to the spill area before the call completes, as one record of its rows and its
frame record; stack-limit where that area has no room. -/
def SpillCalls (s : State) (m : Mn) (f : Fields) (x k : Nat) (c : Crew) (sp : Split) (entry : BitVec 56) (size : Nat) : Prop :=
  let sizes := frameSizes c.entryF sp.frames
  let o := exec (m.instr f) s
  (c.wrows < sizes.headD 0 + size → Faults s o x k c sp 19 sp.mask) ∧
  (∀ pre fr, sp.frames = pre ++ [fr] → (∀ q ∈ sp.frames, q.spilled = none) → sizes.headD 0 + size ≤ c.wrows → c.wrows < sizes.sum + size →
    WaitsForFrame s m f x k c sp ∧
    (c.splits = [(k, sp)] → sizes.sum + size - c.entryF ≤ c.wrows → (∀ tm, s.team? c.team = some tm → tm.opq = []) →
      let n := c.entryF * c.width * 4 + 16
      ((c.uni 63).toNat < c.spillTop.toNat + n → Faults s o x k c sp 19 sp.mask) ∧
      (∀ ps, SpillRoom s x c n ps → ∃ t c' sp' r, o = .next t ∧ SpilledTo s t x ps r.bytes ∧ t.crew? x = some c' ∧ c'.v = c.v ∧ c'.s = c.s ∧
        c'.p = c.p ∧ c'.lay = c.lay ∧ c'.spillTop = c.spillTop + BitVec.ofNat 64 n ∧ c'.split? k = some sp' ∧ sp'.pc = entry ∧
        sp'.clock = sp.clock + 1 ∧ sp'.mask = sp.mask ∧ sp'.fmt = sp.fmt ∧ sp'.wbase = (sp.wbase + c.wrows - size) % c.wrows ∧ sp'.depth = sp.depth + 1 ∧
        sp'.frames = { ret := sp.pc + 12, size := size, base := sp.wbase, spilled := none } :: pre ++ [{ fr with spilled := some r }] ∧
        r.base = c.spillTop ∧ r.bytes.length = n ∧ r.kept = frameCells c fr.base c.entryF)))

/-! ### Reductions in floating point (R96, R97) -/

/-- The value of the balanced tree over the `2 ^ n` lane positions from `lo` on; absent lanes are passed over. -/
def treeOver (f : Nat → Nat → Nat) (v : Nat → Option Nat) : Nat → Nat → Option Nat
  | 0, lo => v lo
  | n + 1, lo => combineOpt f (treeOver f v n lo) (treeOver f v n (lo + 2 ^ n))

/-- The value that lane `l` holds after the ladder's steps at distances 1, 2, … `2 ^ (n - 1)`. -/
def ladderOver (f : Nat → Nat → Nat) (v : Nat → Option Nat) : Nat → Nat → Option Nat
  | 0, l => v l
  | n + 1, l => if 2 ^ n ≤ l then combineOpt f (ladderOver f v n (l - 2 ^ n)) (ladderOver f v n l) else ladderOver f v n l

/-- `r` is the combination of the values in some order and grouping. -/
inductive AnyOrder (f : Nat → Nat → Nat) : List Nat → Nat → Prop where
  | one (x : Nat) : AnyOrder f [x] x
  | step {xs ys : List Nat} {a b r : Nat} (h : xs.Perm (a :: b :: ys)) (t : AnyOrder f (f a b :: ys) r) : AnyOrder f xs r

/-- A reduction: the identity of no values, the tree's value, or the value of some order. -/
def Reduced (f : Nat → Nat → Nat) (exact : Bool) (tree : Option Nat) (vals : List Nat) (ident r : Nat) : Prop :=
  if vals = [] then r = ident else if exact then tree = some r else AnyOrder f vals r

/-- The identities of R207 for floating-point types. -/
def fpIdentity (F : Fmt) (op : Nat) : Nat := if op = 0 then 0 else F.withSign (op != 1) F.infBits

/-- The outcome `o` retires the instruction at the next one, with `P` of what the crew has become; nothing outside the crew changes. -/
def Retires (s : State) (o : Host.Outcome State Fault Refusal) (x k : Nat) (c : Crew) (sp : Split) (P : Crew → Prop) : Prop :=
  ∃ t c' sp', o = .next t ∧ OnlyCrew s t x ∧ t.crew? x = some c' ∧ RetiredAt c c' k sp sp' (sp.pc + 12) ∧ sp'.fmt = sp.fmt ∧ P c'

/-- What `redux` and `scan` of a floating-point type leave in D: each contributing value is read as the format register has it, a denormal as
zero under FMT.FTZ (R82), a NaN as the canonical one (R84). -/
def FloatReduced (m : Mn) (f : Fields) (t : Ty) (run : Lanes) (c : Crew) (sp : Split) (c' : Crew) : Prop :=
  let op := f.ext.toNat % 8
  let g := fpCombine (fmtOf t) (rmode sp.fmt) (ftzBit sp.fmt) op
  let exact := f.f || op != 0
  let x := fun el l => fpNorm (fmtOf t) (ftzBit sp.fmt) (fpSrc c sp t f.a l el)
  let v := fun el l => if l < c.width ∧ hasLane run l = true then some (x el l) else none
  let vals := fun el j => ((lanesOf run c.width).filter fun l => decide (l < j)).map fun l => x el l
  let ok := fun l el y => ∃ r, y = r % 2 ^ fpWidth t ∧
    if m = .redux then Reduced g exact (treeOver g (v el) (Nat.log2 c.width) 0) (vals el c.width) (fpIdentity (fmtOf t) op) r
    else if f.ext.toNat / 8 % 2 = 0 then
      Reduced g exact (ladderOver g (v el) (Nat.log2 c.width) l) (vals el (l + 1)) (fpIdentity (fmtOf t) op) r
    else match ((lanesOf run c.width).filter fun j => decide (j < l)).getLast? with
      | none => r = fpIdentity (fmtOf t) op
      | some j => Reduced g exact (ladderOver g (v el) (Nat.log2 c.width) j) (vals el (j + 1)) (fpIdentity (fmtOf t) op) r
  match f.d with
  | .v idx .. => ∀ l ∈ lanesOf run c.width, ∀ el, el < fpElements t → ok l el (elem (c'.rowsVal sp.wbase idx.toNat t.rows l) (fpWidth t) el)
  | .s r => r.toNat ≠ 0 → ∀ l, lowest run c.width = some l → ∀ el, el < fpElements t → ok l el (elem (c'.uni r.toNat).toNat (fpWidth t) el)
  | _ => True

/-! ### Memory operations at issue -/

/-- The operation, its data and whether it returns a value, of a lane access of group 8 or 9. -/
def opFor (m : Mn) (t : Ty) (f : Fields) : Option MemOp :=
  match m with
  | .ld | .ldb => none
  | .st | .stb => some .store
  | .cas => some .cas
  | _ => some (match t.kind, f.ext.toNat / 8 % 4 with
    | .bits, 0 => .and | .bits, 1 => .or | .bits, 2 => .xor
    | _, 0 => .add | _, 1 => .min | _, 2 => .max | _, _ => .exch)

/-- The kind of access for the checks of R220. -/
def kindFor (m : Mn) (t : Ty) (f : Fields) : AccKind :=
  let op := opFor m t f
  { size := accBytes t, read := op = none ∨ (op ≠ some .store ∧ f.d.cls ≠ .none), write := op ≠ none, store := op = some .store
    ord := op ≠ none ∧ op ≠ some .store ∧ f.f = true, op := if op = none ∨ op = some .store then none else op.map fun o => (o, t) }

/-- Base plus offset of R218 and R219, or base plus element of a buffer record (R237). -/
def addressFor (m : Mn) (f : Fields) (c : Crew) (sp : Split) (l : Nat) : Nat :=
  let base : Nat := match f.a with
    | .v idx .. => c.rowsVal sp.wbase idx.toNat 2 l
    | .s n => (c.uni n.toNat).toNat
    | _ => 0
  let off : Int := match f.b with
    | .v idx .. => (BitVec.ofNat 32 (c.rowsVal sp.wbase idx.toNat 1 l)).toInt
    | .s n => (c.uni n.toNat).toNat
    | .i v => v.toInt
    | _ => 0
  match m with
  | .ld | .st => (((base : Int) + off) % 2 ^ 64).toNat
  | .ldb | .stb => match f.a with
    | .s n => (base + operand32 c sp.wbase f.b l * ((c.uni (n.toNat + 1)).toNat / 2 ^ 32)) % 2 ^ 64
    | _ => 0
  | _ => base

/-- The check of one lane access: the model's own walk and checks at the address (R220, R237). -/
def laneCheck (m : Mn) (i : Issue) (k : AccKind) {s : State} (g : Go s) (l : Nat) : Except LaneFault Checked × Go s :=
  if m = .ldb ∨ m = .stb then checkBuf i k g l else checkVirt g i k l (addressFor m i.f i.c i.sp (evalLane l))

/-- The addresses whose pages the instruction looks up, in increasing order of page (R433): those of the lanes inside their buffer. -/
def lookedUp (m : Mn) (i : Issue) (k : AccKind) : List Nat :=
  if m = .ldb ∨ m = .stb then ((accLanes i).filter fun l => !bufOut i k l).map (bufAddr i)
  else (accLanes i).map fun l => addressFor m i.f i.c i.sp (evalLane l)

/-- Every lane access has been checked from state `s`: the faults, what passed, and the state with what translation has cached. -/
def LanesChecked (s : State) (m : Mn) (f : Fields) (t : Ty) (x k : Nat) (c : Crew) (sp : Split) (fs : List LaneFault) (cs : List Checked)
    (u : State) : Prop :=
  let i := issueOf s m f x k c sp
  let kd := kindFor m t f
  ∃ g : Go s, checkAll (lookPages (Go.start s) (x / 64) c.ctx kd.size (lookedUp m i kd)) (laneCheck m i kd) (accLanes i) = ((fs, cs), g) ∧
    g.st = u

/-- Every lane access lives on this module and passes the checks of R220 and, through a buffer record, of R237, at home byte `home l` for lane
`l` (128 for a uniform access). -/
def LanesAtHome (s : State) (m : Mn) (f : Fields) (t : Ty) (x k : Nat) (c : Crew) (sp : Split) (home : Nat → Nat) : Prop :=
  let kd := kindFor m t f
  ∀ l ∈ accLanes (issueOf s m f x k c sp), s.HomeAccess x c kd (addressFor m f c sp (evalLane l)) (home l) ∧
    (m = .ldb ∨ m = .stb → ∃ n, f.a = .s n ∧ operand32 c sp.wbase f.b (evalLane l) < (c.uni (n.toNat + 1)).toNat % 2 ^ 32 ∧
      kd.size ≤ (c.uni (n.toNat + 1)).toNat / 2 ^ 32)

/-- A near memory operation has entered the queues with its lanes' addresses and data, and its split has retired it or, for an `.ord` form of a
D-class kernel, waits until it has performed. -/
def EntersQueues (s : State) (o : Host.Outcome State Fault Refusal) (m : Mn) (f : Fields) (t : Ty) (x k : Nat) (c : Crew) (sp : Split)
    (home : Nat → Nat) : Prop :=
  let op := opFor m t f
  let load := decide (op = none ∨ (op ≠ some .store ∧ f.d.cls ≠ .none))
  let atomic := decide (op ≠ none ∧ op ≠ some .store)
  let parks := atomic ∧ f.f = true ∧ s.dclass c = true
  let accs := (accLanes (issueOf s m f x k c sp)).map fun l =>
    ({ lane := l, loc := .home (home l)
       data := if op = none then 0 else operandVal c sp.wbase t true (if atomic then f.b else f.d) (evalLane l)
       expect := if atomic then operandVal c sp.wbase t true f.d (evalLane l) else 0 } : LaneAcc)
  ∃ (v : State) (c' : Crew) (sp' : Split), o = .next v ∧
    v = { s with crews := v.crews, cycles := v.cycles, coloc := v.coloc, tlbs := v.tlbs, seq := s.seq + 1, tracks := v.tracks
                 teams := if atomic ∧ f.d.cls ≠ .none ∧ ¬ parks then (match s.team? c.team with
                   | some tm => Tab.put s.teams c.team { tm with relaunchOk := false }
                   | none => s.teams) else s.teams } ∧
    (∀ y, y ≠ x → v.crew? y = s.crew? y) ∧ v.crew? x = some c' ∧ c'.v = c.v ∧ c'.s = c.s ∧ c'.p = c.p ∧ c'.lay = c.lay ∧
    c'.gmod = c.gmod ∧ c'.gfab = c.gfab ∧ c'.handles = c.handles ∧ c'.st = .running ∧ c'.split? k = some sp' ∧ sp'.mask = sp.mask ∧
    sp'.fmt = sp.fmt ∧ sp'.wbase = sp.wbase ∧ sp'.frames = sp.frames ∧
    (if parks then sp'.st = .blocked ∧ sp'.wait = .ordAtom s.seq ∧ sp'.pc = sp.pc ∧ sp'.clock = sp.clock
     else sp'.st = .ready ∧ sp'.pc = sp.pc + 12 ∧ sp'.clock = sp.clock + 1) ∧
    (if load then ∃ e, c'.loadq = c.loadq ++ [e] ∧ e.id = s.seq ∧ e.ty = t ∧ e.scope = f.ext.toNat % 8 ∧ e.lanes = accs ∧ e.got = [] ∧
        e.back = false ∧ e.atomic = atomic ∧ (e.acquire = true ↔ f.ext.toNat % 8 ≠ 0) ∧
        e.dest = (match f.d with | .v idx .. => .rows (sp.wbase + idx.toNat) t.rows | .s n => .uni n.toNat | _ => .none)
     else c'.loadq = c.loadq) ∧
    (if op = none then c'.storeq = c.storeq
     else ∃ e, c'.storeq = c.storeq ++ [e] ∧ e.id = s.seq ∧ e.ty = t ∧ some e.op = op ∧ e.scope = f.ext.toNat % 8 ∧ e.lanes = accs ∧
        e.left = homeLines accs ∧ e.ret = load ∧ (e.release = true ↔ f.ext.toNat % 8 ≠ 0) ∧ e.acked = false)

/-- The lane accesses of groups 8 and 9 that go through the queues. -/
def queuedMns : List Mn := [.ld, .st, .ldb, .stb, .atom, .atomf, .cas, .red]
/-- The atomics of group 9 that may be `.ord`. -/
def ordMns : List Mn := [.atom, .atomf, .cas, .red]

/-! ### Scratch and the queues -/

/-- The scratch offset of a lane (R218): B counts where the form has one. -/
def offsetFor (f : Fields) (c : Crew) (sp : Split) (withB : Bool) (l : Nat) : Nat :=
  (operand32 c sp.wbase f.a l + if withB then operand32 c sp.wbase f.b l else 0) % 2 ^ 32

/-- One scratch access passes the checks of R220: aligned, in bounds, no range lock, no knot under a write, no determinism conflict. -/
def scratchPasses (s : State) (x : Nat) (c : Crew) (tm : Team) (off size : Nat) (read write : Bool) (op : Option (MemOp × Ty)) : Prop :=
  off % size = 0 ∧ off + size ≤ tm.scratchSize ∧ s.rangeClash (x / 64) false c.ctx c.team off size write = false ∧
  (write = true → tm.guarded off size = false) ∧
  (s.dclass c = true → s.trackClash c { loc := .scratch c.team off, size := size, read := read, write := write, op := op } = false)

/-- The bytes of a memory after writes of `n` bytes each: the last write that covers a byte gives it (R223). -/
def lastWritten (n : Nat) (ws : List (Nat × Nat)) (old : Nat → Byte) (a : Nat) : Byte :=
  match ws.reverse.find? fun w => decide (w.1 ≤ a ∧ a < w.1 + n) with
  | some w => (leBytes w.2 n).getD (a - w.1) 0
  | none => old a

/-- Atomics one after another on a memory (R118, R223): each lane's address, operand and expected value; the old values by lane and the
memory after. -/
def atomsInTurn (t : Ty) (op : MemOp) (n : Nat) : List (Nat × Nat × Nat × Nat) → (Nat → Byte) → List (Nat × Nat) × (Nat → Byte)
  | [], m => ([], m)
  | (l, a, d, e) :: ls, m =>
    let old := leNat ((List.range n).map fun j => m (a + j))
    let m' := match atomicNew t op old d e with
      | some v => fun b => if a ≤ b ∧ b < a + n then (leBytes v n).getD (b - a) 0 else m b
      | none => m
    ((l, old) :: (atomsInTurn t op n ls m').1, (atomsInTurn t op n ls m').2)

/-- The operation of `atoms` (R243). -/
def scratchOp (n : Nat) : MemOp := [MemOp.add, .min, .max, .and, .or, .xor, .exch].getD n .cas

/-- What a scratch instruction leaves of the rest: it goes on at the next instruction; beside its crew's team and the crews that waited on
scratch nothing changes. -/
def ScratchFrame (s u : State) (x k : Nat) (c c' : Crew) (sp sp' : Split) (tm tm' : Team) : Prop :=
  u = { s with crews := u.crews, cycles := u.cycles, coloc := u.coloc, teams := u.teams, seq := u.seq } ∧
  (∀ n, n ≠ c.team → u.team? n = s.team? n) ∧ u.team? c.team = some tm' ∧ tm' = { tm with scratch := tm'.scratch, poison := tm'.poison, wlog := tm'.wlog, tracks := tm'.tracks } ∧
  (∀ y d, s.crew? y = some d → d.team ≠ c.team → u.crew? y = some d) ∧ u.crew? x = some c' ∧ c'.split? k = some sp' ∧
  sp'.pc = sp.pc + 12 ∧ sp'.clock = sp.clock + 1 ∧ sp'.fmt = sp.fmt ∧ sp'.mask = sp.mask

/-- The core's own order sets no store of its crews before a load, and it holds no copy of a line. -/
def nothingHeld (s : State) (core : Nat) (lns : List Nat) : Prop :=
  s.storePath core = [] ∧ ∀ ln ∈ lns, Tab.find (s.coreOf core).copies ln = none

/-- The home accesses of a list with their data and expected values. -/
def homeAccs (ls : List LaneAcc) (ln : Nat) : List (Nat × Nat × Nat × Nat) :=
  ls.filterMap fun q => match q.loc with
    | .home a => if a / 64 = ln then some (q.lane, a, q.data, q.expect) else none
    | _ => none

/-! ### Synchronisation -/

/-- The split has retired its instruction and can issue again; the crew's registers are as they were. -/
def Onward (o : Host.Outcome State Fault Refusal) (u : State) (x k : Nat) (c c' : Crew) (sp sp' : Split) : Prop :=
  o = .next u ∧ u.crew? x = some c' ∧ c'.split? k = some sp' ∧ sp'.st = .ready ∧ sp'.pc = sp.pc + 12 ∧ sp'.mask = sp.mask ∧
  sp'.fmt = sp.fmt ∧ c'.v = c.v ∧ c'.s = c.s ∧ c'.p = c.p ∧ c'.lay = c.lay

/-- The split stays on its instruction, blocked by `w`. -/
def Blocks (o : Host.Outcome State Fault Refusal) (u : State) (x k : Nat) (c c' : Crew) (sp sp' : Split) (w : Wait) : Prop :=
  o = .next u ∧ u.crew? x = some c' ∧ c'.split? k = some sp' ∧ sp'.st = .blocked ∧ sp'.wait = w ∧ sp'.pc = sp.pc ∧ sp'.clock = sp.clock ∧
  sp'.mask = sp.mask ∧ sp'.fmt = sp.fmt ∧ c'.v = c.v ∧ c'.s = c.s ∧ c'.p = c.p ∧ c'.lay = c.lay

/-- The scope that an instruction's scope field names: `.team` is `.core`, or `.die` in a pair team (R114). -/
def scopeNo (tm : Team) (n : Nat) : Nat := if n = 1 then (if tm.pair then 3 else 2) else n

/-- What a fence of scope `n` waits for (R115): loads of the crew have returned; from `.die` on, its stores and engine writes on this module are
acknowledged, those that left by passes too (R106, R130), and fabric time has passed GMOD; at `.fab`, everything, and GFAB. -/
def fenceDone (s : State) (x : Nat) (c : Crew) (n id : Nat) : Prop :=
  n = 0 ∨ (∀ e ∈ c.loadq, e.id < id → e.back = true) ∧ (n ≠ 2 →
    (∀ e ∈ c.storeq, e.id < id → n ≠ 5 ∧ (e.acked = true ∨ e.near = false) ∧ s.inPasses e.id = false ∧
      ∀ f ∈ c.sent, f.store = e.id → f.near = false) ∧ s.enginesBefore c x id (n == 5) = false ∧
    (n ≠ 5 → c.gmod < s.now) ∧ (n = 5 → c.gfab < s.now ∧ ∀ e ∈ c.sent, id ≤ e.store))

/-- The lane-membership mask (R249). -/
def members (c : Crew) (f : Fields) : Lanes :=
  match f.b with
  | .s n => ((c.uni n.toNat).setWidth 128 ||| (if c.width = 128 then (c.uni (n.toNat + 1)).setWidth 128 <<< 64 else 0)) &&& laneMask c.width
  | _ => laneMask c.width

/-- The lanes that have joined an unfinished arrival at `w` before this instruction, and the largest clock among them. -/
def arrivedBefore (c : Crew) (w : Wait) : Lanes × Nat :=
  match c.arriving.find? fun a => a.what == w && !a.done with
  | some a => (a.lanes, a.clock)
  | none => (0, 0)

/-- The split agrees with its mask and with what other splits gave (R54). -/
def agrees (tm : Team) (c : Crew) (k : Nat) (sp : Split) (run m : Lanes) (w : Wait) (bytes : Nat) : Prop :=
  run &&& ~~~m = 0 ∧ sp.mask &&& m &&& ~~~run = 0 ∧ c.stackedLanes k sp &&& m = 0 ∧
  ∀ a ∈ c.arriving, (samePhase tm a w = true → a.mask = m) ∧ (sameInstr a.what w = true → a.done = false → a.what = w ∧ a.bytes = bytes)

/-- Every split of crew `y` that waited for `w` has gone on, its clock the largest of its own plus one and `clk` (R72). -/
def Released (s u : State) (y : Nat) (w : Wait) (clk : Nat) : Prop :=
  ∀ d j q, s.crew? y = some d → d.st = .running → Tab.sorted d.splits = true → d.split? j = some q → q.wait = w →
    ∃ d' q', u.crew? y = some d' ∧ d'.split? j = some q' ∧ q'.st = .ready ∧ q'.pc = q.pc + 12 ∧ q'.clock = max (q.clock + 1) clk

/-- The knot's offset is aligned, in bounds and not locked (R252). -/
def knotPlace (s : State) (x : Nat) (c : Crew) (tm : Team) (off : Nat) : Prop :=
  off % 16 = 0 ∧ off + 16 ≤ tm.scratchSize ∧ s.rangeClash (x / 64) false c.ctx c.team off 16 true = false

/-- A condition of `flagwait` (R259). -/
def condHolds (cond : FlagCond) (v b : Nat) : Prop :=
  match cond with
  | .eq => v = b
  | .ne => v ≠ b
  | .ge => b ≤ v
  | .lt => v < b

/-- The access of a wait for a word: an exempt read of four bytes (R257, R259). -/
def wordRead : AccKind := { size := 4, read := true, write := false, store := false, ord := false, exempt := true, op := none }
/-- The access of a `flagsig`: a store, or an add at the home (R258). -/
def flagKind (add : Bool) : AccKind :=
  { size := 4, read := false, write := true, store := !add, ord := false, op := if add then some (.add, .b32) else none }

/-! ### Asynchronous copies -/

/-- A range-lock entry that a copy registers (R121). -/
def copyLock (dest scr : Bool) (team a n tag : Nat) : RangeLock :=
  { dest := dest, virt := !scr, team := team, base := if scr then a else a % 2 ^ 56, len := n, tag := tag }

/-- The engine of the core has taken up an operation numbered `id` over `segs`, its locks stand on every core of the team, the crew counts it in
its open batch, and the split has retired the instruction. `u` is the state after the checks. -/
def CopyStarted (o : Host.Outcome State Fault Refusal) (u : State) (x k : Nat) (c : Crew) (sp : Split) (tm : Team) (segs : List EngSeg)
    (locks : List RangeLock) : Prop :=
  ∃ (v : State) (c' : Crew) (sp' : Split) (e : EngOp), Onward o v x k c c' sp sp' ∧ sp'.clock = sp.clock + 1 ∧
    v = { u with crews := v.crews, cycles := v.cycles, coloc := v.coloc, cores := v.cores, tlbs := v.tlbs, seq := u.seq + 1
                 teams := if segs.any fun seg => seg.src.off || seg.dst.off then Tab.put u.teams c.team { tm with relaunchOk := false }
                   else u.teams } ∧
    (∀ y, y ≠ x → v.crew? y = u.crew? y) ∧ (v.coreOf (x / 64)).ops = Tab.put (u.coreOf (x / 64)).ops u.seq e ∧ e.segs = segs ∧
    e.inst = c.inst ∧ e.crew = x ∧ e.team = c.team ∧ e.buf = [] ∧ e.list = none ∧ e.knot = none ∧ e.clock = sp.clock + 1 ∧
    (∀ j seg, segs[j]? = some seg → j < 2 ^ 20 → seg.len ≤ 2 ^ 24 → ∀ b, b < seg.len → ∃ n ∈ e.left, n / 2 ^ 40 = j ∧ n % 2 ^ 40 ≤ b ∧
      b < n % 2 ^ 40 + unitLen seg (n % 2 ^ 40)) ∧
    c'.open_ = c.open_ ++ [u.seq] ∧ ∀ n ∈ tm.cores, (v.coreOf n).ranges = (u.coreOf n).ranges ++ locks

/-- The engine, the range locks and the crew's order have room for one more copy (R122, R124, R269). -/
def copyFree (s : State) (x : Nat) (c : Crew) (tm : Team) (n : Nat) : Prop :=
  x / 64 < 640 ∧ c.order = [] ∧ ((s.coreOf (x / 64)).ops.filter fun e => e.2.list.isNone).length < 64 ∧ tm.cores.Nodup ∧
  ∀ m ∈ tm.cores, (s.coreOf m).ranges.length + n ≤ 32

/-- An address operand of a copy (R263). -/
def copyAddress (c : Crew) (o : Operand) (scr : Bool) : Nat := if scr then operand64 c o % 2 ^ 32 else operand64 c o

/-- A byte at a near place. -/
def nearByte (s : State) (i : Nat) : Loc → Byte
  | .home a => s.byte (a + i)
  | .scratch t off => match s.team? t with
    | some tm => Tab.get 0 tm.scratch (off + i)
    | none => 0
  | .far .. => 0

/-- A record of kind 1, 3 or 4 of a context has been sent (R383): it was written to memory, and after it nothing but records that the context had
kept; or memory is as before, and it stands last in the context's queue of 64, or, where that is full, CTX.FRLOST is set. -/
def Reported (s t : State) (ctx : Nat) (r : FaultRec) : Prop :=
  RecordDelivered s t ctx r ∨ t.mem = s.mem ∧ if (s.ctx ctx).kept.length < 64 then (t.ctx ctx).kept = (s.ctx ctx).kept ++ [r]
    else (t.ctx ctx).kept = (s.ctx ctx).kept ∧ (t.ctx ctx).frLost = true

/-- A unit of `m` bytes has been written `o` bytes into a place, with the bytes that stood as far into place `sl` of `s`; every other byte of memory
and of that scratch is as in `t`. -/
def UnitWritten (s t u : State) (o m : Nat) (sl : Loc) : Loc → Prop
  | .home a => ∀ b, u.byte b = if a + o ≤ b ∧ b < a + o + m then nearByte s (b - a) sl else t.byte b
  | .scratch n a => u.mem = t.mem ∧ ∀ tm, s.team? n = some tm → ∃ tm', u.team? n = some tm' ∧
      ∀ b, Tab.get 0 tm'.scratch b = if a + o ≤ b ∧ b < a + o + m then nearByte s (b - a) sl else Tab.get 0 tm.scratch b
  | .far .. => False

/-! ### The matrix arrays -/

/-- The sides of a pair team that VAR of a tile transfer names: both, the leader's, the follower's; a team on one core has side 0 (R287). -/
def namedSides (tm : Team) (var : Nat) : List Nat := if var = 2 then [1] else if var = 1 then [0] else if tm.pair then [0, 1] else [0]

/-- The VAR of an instruction. -/
def varOf (f : Fields) : Nat := match f.sel with | .var v => v.toNat | .ty _ => 0

/-- The tile of a class-m field. -/
def tileField (o : Operand) : Nat := match o with | .m t => t.toNat | _ => 0

/-- The tiles of `mask` are held by the team, no unretired operation uses one and no instruction waits for one (R34). -/
def tilesFree (tm : Team) (mask : Nat) : Prop :=
  tm.spilled = false ∧ mask &&& tm.tilesHeld.toNat = mask ∧ (∀ o ∈ tm.opq, o.mask &&& mask = 0) ∧ tm.tileq = []

/-- An image of a tile transfer passes the checks of R287: VAR and the stride fit, offset and stride are multiples of 16, and every row lies in
scratch, unlocked, under a write clear of knots, and where it is tracked without a determinism conflict. -/
def imagePasses (s : State) (x : Nat) (f : Fields) (c : Crew) (tm : Team) (off stride : Nat) (write : Bool) : Prop :=
  let row := 256 * (namedSides tm (varOf f)).length
  (varOf f = 0 ∨ tm.pair = true) ∧ row ≤ stride ∧ off % 16 = 0 ∧ stride % 16 = 0 ∧ off + 63 * stride + row ≤ tm.scratchSize ∧
  ∀ i, i < 64 → s.rangeClash (x / 64) false c.ctx c.team (off + i * stride) row write = false ∧
    (write = true → tm.guarded (off + i * stride) row = false) ∧ (s.dclass c = true → s.trackClash c
      { loc := .scratch c.team (off + i * stride), size := row, read := !write, write := write, op := none } = false)

/-- The checks of R280 pass for an operation: it is `.s` or its team a pair and its core the leader, the tiles are held, the tile of `mmaw` is
even, FMT.BW is the type's width, the layout record gives a number of blocks and is aligned, the A image fits the window, and the hull lies in
scratch. -/
def mmaPasses (x : Nat) (f : Fields) (t : Ty) (c : Crew) (tm : Team) (o : MatOp) : Prop :=
  let l := layOf o.layout
  let bfp := t.kind == .bfp
  (f.f = true ∨ (tm.pair = true ∧ x / 64 % 2 = 0)) ∧ o.mask &&& tm.tilesHeld.toNat = o.mask ∧ (o.wide = true → tileField f.d % 2 = 0) ∧
  (bfp = true → o.bw = t.bits) ∧ l.odd bfp = false ∧ 0 ≤ (l.hull bfp o.bw).1 ∧ (l.hull bfp o.bw).2 ≤ tm.scratchSize ∧
  ∃ n idx r neg abs, l.blocks bfp o.orient o.bw o.cols = some n ∧ f.a = .v idx r neg abs ∧
    idx.toNat + (({ o with blocks := n } : MatOp).words + c.width - 1) / c.width ≤ maxWindow c.width

/-- Only tiles named have changed. -/
def otherTiles (tm tm' : Team) (sides tiles : List Nat) : Prop :=
  ∀ sd t i j, sd < 2 → t < 16 → i < 64 → j < 64 → (sd ∉ sides ∨ t ∉ tiles) → tm'.tileElem sd t i j = tm.tileElem sd t i j

/-- A tile instruction has retired; of its team only tiles, what it holds and its queues have changed. -/
def TileStep (o : Host.Outcome State Fault Refusal) (s u : State) (x k : Nat) (c c' : Crew) (sp sp' : Split) (tm' : Team) : Prop :=
  o = .next u ∧ u = { s with crews := u.crews, cycles := u.cycles, coloc := u.coloc, teams := u.teams, seq := u.seq } ∧ u.team? c.team = some tm' ∧
  (∀ n, n ≠ c.team → u.team? n = s.team? n) ∧ u.crew? x = some c' ∧ c'.split? k = some sp' ∧ sp'.pc = sp.pc + 12 ∧ sp'.clock = sp.clock + 1 ∧
  sp'.mask = sp.mask ∧ sp'.fmt = sp.fmt ∧ c'.v = c.v ∧ c'.p = c.p ∧ c'.lay = c.lay

/-- The reserved bits of a layout record (R274). -/
def recordReserved (v : Nat) : Prop := v / 2 ^ 23 % 2 ≠ 0 ∨ v / 2 ^ 47 % 2 ^ 17 ≠ 0 ∨ v / 2 ^ 112 % 2 ^ 16 ≠ 0 ∨ v / 2 ^ 176 % 2 ^ 16 ≠ 0

/-- One more element of the accumulators (R282, R283): the tile's, and for `mmaw` the pair of high and low tiles. -/
def blockStep (s : State) (tm tm' : Team) (o : MatOp) (c : Crew) (sd j0 : Nat) : Prop :=
  ∀ i j, i < 64 → j < 64 →
    let ps := List.zipWith mulV (aBlock c o o.prog i) (bBlock tm o o.prog (j0 + j))
    if o.wide then
      let r := accAddWide (tm.tileElem sd o.tile i j) (tm.tileElem sd (o.tile + 1) i j) ps
      tm'.tileElem sd o.tile i j = r.1 % 2 ^ 32 ∧ tm'.tileElem sd (o.tile + 1) i j = r.2 % 2 ^ 32
    else tm'.tileElem sd o.tile i j = accAdd (tm.tileElem sd o.tile i j) ps % 2 ^ 32

/-! ### Remote memory, the lode window and names -/

/-- The operation of a group 13 access. -/
def remoteOp (m : Mn) (t : Ty) (f : Fields) : Option MemOp :=
  match m with
  | .rld | .gld => none
  | .rst | .gst => some .store
  | _ => opFor .atom t f

/-- Its kind for stage 1. -/
def remoteKind (m : Mn) (t : Ty) (f : Fields) : AccKind :=
  let op := remoteOp m t f
  { size := accBytes t, read := op = none ∨ (m = .ratom ∧ f.d.cls = .v), write := op ≠ none, store := op = some .store
    ord := m = .ratom ∧ f.f = true, op := if m = .ratom then op.map fun o => (o, t) else none }

/-- The peer, or the member of the window, that a lane names, and the address or offset there (R295, R301). -/
def remotePeer (m : Mn) (f : Fields) (c : Crew) (sp : Split) (l : Nat) : Nat :=
  match m, f.a with
  | .gld, _ | .gst, _ => operand32 c sp.wbase f.a l
  | _, .s n => (c.uni n.toNat).toNat
  | _, a => operand32 c sp.wbase a l
def remoteAddress (m : Mn) (f : Fields) (c : Crew) (sp : Split) (l : Nat) : Nat :=
  match m, f.b with
  | .gld, _ | .gst, _ => operand32 c sp.wbase f.b l
  | _, .v idx .. => c.rowsVal sp.wbase idx.toNat 2 l
  | _, .s n => (c.uni n.toNat).toNat
  | _, _ => 0

/-- A lane passes stage 1 of R296, or of R301 for a window access: aligned, its peer there, or its member of the gang with the bytes in its
scratch and neither the team detached nor the member lost; no `.ord` form. -/
def stageOneLane (s : State) (m : Mn) (f : Fields) (t : Ty) (c : Crew) (sp : Split) (tm : Team) (l : Nat) : Prop :=
  let p := remotePeer m f c sp l
  let a := remoteAddress m f c sp l
  a % accBytes t = 0 ∧ (m = .ratom → f.f = false) ∧
  if m = .gld ∨ m = .gst then
    p < tm.gangSize ∧ a + accBytes t ≤ tm.scratchSize ∧ tm.detached = false ∧ ∃ n gg, tm.gang = some n ∧ Tab.find s.gangs n = some gg ∧ p ∉ gg.lost
  else p < 2 ^ 18 ∧ a / 2 ^ 56 % 16 = 0 ∧ s.PeerHere c.ctx p

/-- Stage 1 of R296 and R301 in every lane. -/
def StageOne (s : State) (m : Mn) (f : Fields) (t : Ty) (x k : Nat) (c : Crew) (sp : Split) (fs : List LaneFault) (cs : List Checked) : Prop :=
  let i := issueOf s m f x k c sp
  ∃ g : Go s, checkAll (Go.start s) (if m = .gld ∨ m = .gst then checkMember i (remoteKind m t f) else checkPeer i (remoteKind m t f))
    (accLanes i) = ((fs, cs), g)

/-- The split has retired its instruction, and D, a uniform register, has taken `val`. -/
def OnwardD (o : Host.Outcome State Fault Refusal) (u : State) (x k : Nat) (c c' : Crew) (sp sp' : Split) (d : Operand) (val : Nat) : Prop :=
  o = .next u ∧ u.crew? x = some c' ∧ c'.split? k = some sp' ∧ sp'.st = .ready ∧ sp'.pc = sp.pc + 12 ∧ sp'.clock = sp.clock + 1 ∧
  sp'.mask = sp.mask ∧ sp'.fmt = sp.fmt ∧ c'.v = c.v ∧ c'.p = c.p ∧ c'.lay = c.lay ∧
  match d with
  | .s r => (r.toNat ≠ 0 → (c'.uni r.toNat).toNat = val % 2 ^ 64) ∧ ∀ n, n ≠ r.toNat → c'.uni n = c.uni n
  | _ => c'.s = c.s

/-- The lanes of a held pass on a line, each with the home byte where it lives, its datum and expected value. -/
def heldLanes (h : HeldPass) (ln : Nat) : List (Nat × Nat × Nat × Nat) :=
  (h.pass.lanes.filter fun l => l.addr.toNat % 2 ^ 60 / 64 == ln).filterMap fun l => match Tab.find h.locs l.lane with
    | some (.home a) => some (l.lane, a, l.data, l.expect)
    | _ => none

/-- A message to another module has gone out, or its event stands last on the agenda where the peer is this module (R295). -/
def Sent (s u : State) (peer : Nat) (m : Msg) (ev : Instr) : Prop :=
  if peer = s.mod.modid then u.agenda = s.agenda ++ [.event ev] ∧ u.outbox = s.outbox
  else u.outbox = s.outbox ++ [m] ∧ u.agenda = s.agenda

/-- A held lane group performs at its homes and is acknowledged. -/
def GroupPerforms (s : State) (o : Host.Outcome State Fault Refusal) (h : HeldPass) (ln : Nat) : Prop :=
  let p := h.pass
  let accs := heldLanes h ln
  let n := accBytes p.ty
  ∃ u a, o = .next u ∧ (∀ b, u.byte b = if p.kind = .ratom then (atomsInTurn p.ty p.op n accs s.byte).2 b
      else lastWritten n (accs.map fun q => (q.2.1, q.2.2.1)) s.byte b) ∧
    a.line = ln ∧ a.peer = s.mod.modid ∧ (p.kind = .ratom → a.olds = (atomsInTurn p.ty p.op n accs s.byte).1) ∧
    Sent s u p.src (.ack p.src p.id a) (.storeAck 0 p.id (some a)) ∧ u.now = s.now ∧ u.launches = s.launches ∧ u.ctxs = s.ctxs ∧
    ∀ q ∈ u.held, q.pass.src = p.src → q.pass.id = p.id → ln ∉ q.lines

/-- The words of the pair `s(n)`, `s(n + 1)` that a field names. -/
def pairLow (c : Crew) (o : Operand) : Nat := match o with | .s n => (c.uni n.toNat).toNat | _ => 0
def pairHigh (c : Crew) (o : Operand) : Nat := match o with | .s n => (c.uni (n.toNat + 1)).toNat | _ => 0

/-- The name that `claim` and `announce` take (R304). -/
def nameFor (s : State) (c : Crew) (f : Fields) : TileName :=
  { ns := (s.ctx c.ctx).ns.toNat, key := BitVec.ofNat 64 (pairLow c f.a), iter := pairHigh c f.a % 2 ^ 32 }

/-- The keeper of a name (R305). -/
def keeperNo (n : TileName) : Nat := ((n.key.toNat % 2 ^ 32) ^^^ (n.key.toNat / 2 ^ 32)) % 4

/-- A range that `claim` and `announce` accept (R306, R308). -/
def tileRange (scr : Bool) (a n : Nat) : Prop := 16 ≤ n ∧ n ≤ 65536 ∧ n % 16 = 0 ∧ (scr = true → a < 2 ^ 23)

/-- The range-lock entries of the team's cores, with one more. -/
def lockStands (u v : State) (tm : Team) (r : RangeLock) : Prop := ∀ n ∈ tm.cores, (v.coreOf n).ranges = (u.coreOf n).ranges ++ [r]

/-- Never-produced on its way to a requester (R310): an event where it is a crew, a message where it is a link. -/
def neverTo (j : Nat) (name : TileName) (r : Requester) (expiry : Nat) : List Turn × List Msg :=
  match r with
  | .crew .. => ([.event (.neverProduced j name expiry (some r))], [])
  | .link l => ([], [.neverProduced l name expiry])

/-- A claim of a crew that runs, none of whose splits waits for a handle, ends with the value `v`, and its range lock is released (R309). -/
def ClaimEnds (s : State) (o : Host.Outcome State Fault Refusal) (p inst h q v : Nat) : Prop :=
  ∀ c hd, s.crew? p = some c → c.openHandle inst h q = some hd → (∀ e ∈ c.splits, ∀ n m d, e.2.wait ≠ .clwait n m d) → Tab.sorted c.handles = true →
    (s.teamCores c.team).Nodup → ∃ u c', o = .next u ∧ u.crew? p = some c' ∧ c'.v = c.v ∧ c'.s = c.s ∧ c'.splits = c.splits ∧
      Tab.find c'.handles h = some { hd with result := some v } ∧ (∀ n, n ≠ h → Tab.find c'.handles n = Tab.find c.handles n) ∧
      (∀ n ∈ s.teamCores c.team, (u.coreOf n).ranges = (s.coreOf n).ranges.filter fun r => r.tag != hd.tag) ∧ u.mem = s.mem ∧ u.teams = s.teams ∧
      ∀ y, y ≠ p → u.crew? y = s.crew? y

/-- The keeper of junction die `j` has become `d'`; these turns and messages have been added, and nothing else has changed. -/
def KeeperStep (s : State) (o : Host.Outcome State Fault Refusal) (j : Nat) (d' : Jd) (ts : List Turn) (ms : List Msg) : Prop :=
  ∃ u, o = .next u ∧ u = { s with jds := u.jds, agenda := s.agenda ++ ts, outbox := s.outbox ++ ms } ∧ u.jd j = d' ∧
    ∀ i, i ≠ j → u.jd i = s.jd i

/-- Every requester of an entry is a link; the links and expiries in join order. -/
def linkReqs (d : Jd) (e : ClaimEntry) : List (Nat × Nat) :=
  e.reqs.filterMap fun r => match Tab.find d.pool r with
    | some q => (match q.from_ with | .link l => some (l, q.expiry) | .crew .. => none)
    | none => none
def onlyLinks (d : Jd) (e : ClaimEntry) : Prop := ∀ r ∈ e.reqs, ∃ q l, Tab.find d.pool r = some q ∧ q.from_ = .link l

/-- An entry and its requester records are free. -/
def entryFree (d d' : Jd) (n : Nat) (e : ClaimEntry) : Prop :=
  Tab.find d'.claims n = none ∧ (∀ m, m ≠ n → Tab.find d'.claims m = Tab.find d.claims m) ∧ (∀ r ∈ e.reqs, Tab.find d'.pool r = none) ∧
  ∀ r, r ∉ e.reqs → Tab.find d'.pool r = Tab.find d.pool r

/-! ### Spawning, and the end of crews and launches -/

/-- The status of a `spawn` of `n` teams without a peer list (R231); `full` says that its launch's counter would exceed its limit. -/
def spawnCode (s : State) (ctx : Nat) (kd : Kd) (full : Bool) (n : Nat) : Nat :=
  if kd.gang ≠ 0 ∧ n ≠ 0 ∧ (12 < kd.gang ∨ fitsEmpty s ctx kd = false) then 1
  else if full = true then 2
  else if kd.gang ≠ 0 ∧ n % kd.gang ≠ 0 then 3 else 0

/-! ### Accesses by agents of no core -/

/-- Exclusive leases may have been returned (R119): crews are as they were but for the completion times of atomics in their store queues, and
wholly so where no line has such a lease. -/
def LeasesAside (s t : State) : Prop :=
  ((∀ ln l, Tab.find s.lines ln = some l → l.excl = none) → t.crews = s.crews) ∧
  ∀ y d, s.crew? y = some d → ∃ d', t.crew? y = some d' ∧ d' = { d with storeq := d'.storeq } ∧
    d'.storeq.map (fun q => q.id) = d.storeq.map fun q => q.id

/-- `t` is `s` after an agent of no core has translated and read at home (R119, R431): TLBs may hold more, and exclusive leases on the lines it read
are returned. -/
def ReadBy (s t : State) : Prop :=
  t = { s with tlbs := t.tlbs, lines := t.lines, crews := t.crews } ∧ LeasesAside s t ∧
  ((∀ ln l, Tab.find s.lines ln = some l → l.excl = none) → t.lines = s.lines)

/-! ### Winches -/

/-- A context after an instruction (R325, R469): a step, or a stop at a boundary, leaves it stopped; else the burst goes on, or ends at a
boundary. -/
def afterWinch (v : Wctx) (boundary : Bool) : Wctx :=
  if v.stepping = true ∨ (boundary = true ∧ v.cmd = some 3) then { v with state := 4, wait := 0, cmd := none, stepping := false, burst := 0 }
  else { v with burst := if boundary then 0 else v.burst + 1 }

/-- Only context `c` of winch `w` has changed, to `v'`, and it has the link. -/
def WinchStep (s : State) (o : Host.Outcome State Fault Refusal) (w c : Nat) (v' : Wctx) : Prop :=
  ∃ u, o = .next u ∧ u = { s with wctxs := u.wctxs, wcur := u.wcur } ∧ u.wctx w c = v' ∧ Tab.get 0 u.wcur w = c ∧
    ∀ n, n ≠ 4 * w + c → Tab.get Wctx.reset u.wctxs n = Tab.get Wctx.reset s.wctxs n

/-- The context stops with a fault (R326): PC, `h`, `C` and the receive queue as they were, its chunk held where its instruction takes one that has
arrived (R469); the record waits with the context, after its
earlier ones, or was written to memory, with nothing else but records that its context had kept (R383). -/
def WinchFaults (s : State) (o : Host.Outcome State Fault Refusal) (w c : Nat) (v : Wctx) (code addr : Nat) : Prop :=
  ∃ u r, o = .next u ∧ (u.wctx w c).state = 4 ∧ (u.wctx w c).fcode = BitVec.ofNat 8 code ∧ (u.wctx w c).fAddr = BitVec.ofNat 64 addr ∧
    (u.wctx w c).pc = v.pc ∧ (u.wctx w c).h = v.h ∧ (u.wctx w c).c = v.c ∧ (u.wctx w c).rx = v.rx ∧
    (u.wctx w c).held = (v.held || (s.atChunk w v && !v.rx.isEmpty)) ∧ u.links = s.links ∧ u.teams = s.teams ∧
    r.kind = 2 ∧ r.cause = code ∧ r.pc.toNat = v.pc.toNat ∧ r.id = winchId v.tid.toNat w c ∧ r.addr = BitVec.ofNat 64 addr ∧ r.time = s.now ∧
    (((u.wctx w c).recs = v.recs ++ [r] ∧ u.mem = s.mem) ∨
      ((∃ k, (u.wctx w c).recs = v.recs.drop k) ∧ RecordDelivered s u v.tid.toNat r))

/-- The context waits (R325): for a chunk (1), a credit (2) or a flag (3); a stop takes effect. -/
def winchWaiting (v : Wctx) (n : Nat) : Wctx :=
  if v.cmd = some 3 then { v with state := 4, wait := 0, cmd := none, stepping := false, burst := 0 }
  else { v with state := 3, wait := BitVec.ofNat 4 n, burst := 0 }

/-- The context with `h[ha]` raised by the chunk where `.inc` says so, at the next instruction. -/
def chunkNext (f : WFields) (v v' : Wctx) : Prop :=
  (∀ n, v'.hreg n = if f.modf.toNat / 4 % 2 = 1 ∧ n = f.ha then (v.hreg n + 2 ^ v.cs.toNat) % 2 ^ 64 else v.hreg n) ∧
  v'.pc = v.pc + 1 ∧ v'.tid = v.tid ∧ v'.set = v.set ∧ v'.cs = v.cs ∧ v'.c = v.c ∧ v'.lo = v.lo ∧ v'.hi = v.hi

/-- The start of a set's contexts (R312, R469): the loaded and halted ones run from LO with the argument in h15. -/
def setStarts (s u : State) (ctx set : Nat) (arg : Word) : Prop :=
  ∀ n v, Tab.find s.wctxs n = some v → v.tid.toNat = ctx → v.set.toNat = set → v.state = 1 ∨ v.state = 5 →
    ∃ v', Tab.find u.wctxs n = some v' ∧ v'.state = 2 ∧ v'.pc = v.lo ∧ v'.c = false ∧ Tab.get 0 v'.h 15 = arg ∧
      ∀ r, r ≠ 15 → Tab.get 0 v'.h r = Tab.get 0 v.h r

/-- A context of the set is loaded or halted. -/
def setLoaded (s : State) (ctx set : Nat) : Prop :=
  ∃ n v, Tab.find s.wctxs n = some v ∧ v.tid.toNat = ctx ∧ v.set.toNat = set ∧ (v.state = 1 ∨ v.state = 5)

/-! ### Queues -/

/-- The queue has issued its packet (R396): Q.HEAD is past it, and the front end tracks `run`. -/
def pastPacket (v : Queue) (run : List PktRun) : Queue :=
  { v with head := v.head + 1, saved := none, waiting := false, next := v.next + 1, runs := v.runs ++ run }

/-- Queue `q` has become `v'`; no other queue, no byte and, but for leases (R119), no crew has changed. -/
def QueueIs (s u : State) (q : Nat) (v' : Queue) : Prop :=
  u.queue q = v' ∧ (∀ n, n ≠ q → u.queue n = s.queue n) ∧ u.mem = s.mem ∧ LeasesAside s u

/-- The queue halts on its packet (R397): its slot is free, Q.MSIX is raised. -/
def QueueHalts (s : State) (o : Host.Outcome State Fault Refusal) (q : Nat) (v : Queue) (err ty : Nat) : Prop :=
  ∃ u, o = .next u ∧ QueueIs s u q { v with halted := true, err := BitVec.ofNat 4 err, errType := BitVec.ofNat 8 ty, waiting := false
                                            pending := false, mapped := false, slot := 0xFF, leaves := false } ∧
    (Tab.get Slot.reset u.slots v.slot.toNat).busy = false ∧ u.outbox = s.outbox ++ [.msix v.vi.toNat v.msix.toNat] ∧ u.teams = s.teams ∧
    u.launches = s.launches ∧ u.pends = s.pends ∧ u.ctxs = s.ctxs

/-- What the front end tracks of the next packet. -/
def newRun (v : Queue) : PktRun := { no := v.next, launch := none, op := none, set := none, gwct := 0, signal := false, irq := false }

/-- The condition of a WAITV (R402). -/
def waitvHolds (p : WaitvPkt) (word : Nat) : Prop :=
  let m := if p.size then 2 ^ 64 else 2 ^ 32
  condHolds p.cond (word &&& (p.mask.toNat % m)) (p.value.toNat % m)

/-! ### Slots and the distributor -/

/-- The tile allocator has nothing to do (R289, R291): no request waits, and no team is spilled. -/
def quietTiles (s : State) : Prop := s.tileReqs = [] ∧ ∀ e ∈ s.teams, e.2.spilled = false

/-- The coordinator of a gang, or a member module, has been told something (R419). -/
def Told (s u : State) (peer : Nat) (what : String) (n : Nat) (ev : Instr) : Prop :=
  if peer = s.mod.modid then .event ev ∈ u.agenda else .gang peer what n ∈ u.outbox

/-- A running crew none of whose splits waits. -/
def waitsForNothing (c : Crew) : Prop := c.st = .running ∧ ∀ k ∈ c.splits, k.2.st = .ready ∧ k.2.wait = .none

/-- A saved team is back at its places with its crews as they were saved (R388), passed over from now on only (R65). -/
def Restored (u : State) (t : Nat) (v : SavedTeam) : Prop :=
  ∃ tm, u.team? t = some tm ∧ tm.saved = false ∧ tm.started = true ∧ Tab.find u.saved (2 * t + 1) = none ∧
    ∀ e ∈ v.crews, u.crew? e.1 = some { e.2 with passed := Tab.get 0 u.cycles (e.1 / 8) }

/-- The first `n` cores of a partition, in rising order, that hold no team of class `cls` or a higher one: what DV.GO vacates (R423). -/
def vacateCores (s : State) (p cls n : Nat) : List Nat :=
  let dies := (List.range 8).filter fun d => (s.part p).dies.getLsbD d
  ((dies.map fun d => (List.range 80).map fun k => 80 * d + k).flatten.filter fun c => (s.teamsOn c).all fun e => decide (cls < e.2.prio)).take n

/-- A crew at its first instruction (R38, R42). -/
def FirstInstruction (c : Crew) (t : Nat) (p : Pend) (kd : Kd) : Prop :=
  ∃ sp, c.team = t ∧ c.st = .running ∧ c.splits = [(0, sp)] ∧ sp.pc = BitVec.ofNat 56 kd.entry.toNat ∧ sp.mask = laneMask kd.width ∧ sp.fmt = 0x880 ∧
    sp.st = .ready ∧ sp.wbase = 0 ∧ sp.depth = 0 ∧ sp.clock = p.clock ∧ c.width = kd.width ∧ c.wrows = kd.wrows ∧ c.uni 1 = p.args ∧
    c.uni 63 = c.stackTop ∧ c.spillTop = c.stackBase ∧ c.handles = [] ∧ c.loadq = [] ∧ c.storeq = [] ∧ c.gmod = 0 ∧ c.gfab = 0

/-! ### System registers and contexts -/

/-- The outcome is a state that differs in one context's record only. -/
def CtxBecomes (s : State) (o : Host.Outcome State Fault Refusal) (c : Nat) (v : Ctx) : Prop :=
  ∃ u, o = .next u ∧ u = { s with ctxs := u.ctxs } ∧ u.ctx c = v ∧ ∀ d, d ≠ c → u.ctx d = s.ctx d

/-- The outcome is a state that differs in one virtual interface's record only. -/
def ViBecomes (s : State) (o : Host.Outcome State Fault Refusal) (n : Nat) (v : Vi) : Prop :=
  ∃ u, o = .next u ∧ u = { s with vis := u.vis } ∧ u.vi n = v ∧ ∀ d, d ≠ n → u.vi d = s.vi d

/-- The outcome is a state that differs in one link's record only. -/
def LinkBecomes (s : State) (o : Host.Outcome State Fault Refusal) (l : Nat) (v : Link) : Prop :=
  ∃ u, o = .next u ∧ u = { s with links := u.links } ∧ u.link l = v ∧ ∀ d, d ≠ l → u.link d = s.link d

/-- A register all of whose fields are RO or RC (R14). -/
def readOnly : Reg → Bool
  | .ident k => k != 5
  | .meas .. | .core .. | .pend _ | .slot _ | .fb .. | .ldir _ => true
  | _ => false

/-- A register with an RC field (R14). -/
def readClears : Reg → Bool
  | .ident k => k == 7
  | .link _ k => k == 1 || k == 4
  | .keeper _ k => k == 32 || k == 33 || k == 35 || k == 36
  | .ldir _ => true
  | _ => false

/-- The bits of a register that a write sets, where all others read 0 and the write has no other condition or effect (R369). -/
def rwBits : Reg → Option Word
  | .ctx _ k => if k = 5 ∨ k = 16 ∨ k = 18 ∨ k = 21 then some (BitVec.allOnes 64) else if k = 17 then some 0xFFFFFFFF else if k = 20 then some 0xFFF else none
  | .vi _ k => if k = 3 then some 0xFFF else none
  | .tr _ k => if k = 2 then some 0xFF00 else none
  | .dist _ k => if k = 0 ∨ k = 1 then some 0xFFFFFFFF else if k = 4 then some 0x1FFFFFFFF else none
  | .mirror .. => some 0xFFFFFFFFF0000003
  | .name _ h => if h = 1 then some (BitVec.allOnes 64) else none
  | .keeper _ k => if k = 0 then some 0xFFFF else if k = 5 then some 0x1FFFF else none
  | .peers k => if k = 0 then some 0x3FFFFFFFFFF8 else if k = 1 then some 0x3FFFF else none
  | _ => none

/-- Has the crew a split that waits in halt? -/
def haltWaits (ctx : Nat) (c : Crew) : Bool := c.ctx == ctx && c.splits.any fun p => p.2.wait == .halt

/-- May an interface's contexts not be created or released (R486, status 3)? -/
def interfaceClosed (s : State) (n : Nat) : Prop := (s.vi n).en = false ∨ (s.part (s.vi n).part.toNat).active = false

/-- A teardown has begun or is over (R371, R376): the context is tearing down or free with its registers at reset, and nothing of it runs or
waits for placement. -/
def TornDown (s u : State) (c : Nat) : Prop :=
  ((u.ctx c).state = 3 ∨ u.ctx c = { Ctx.reset with part := (s.ctx c).part, vi := (s.ctx c).vi, level := (s.ctx c).level }) ∧
    (∀ t tm, u.team? t = some tm → tm.ctx ≠ c) ∧ u.pends = s.pends.filter fun p => p.ctx != c

/-! ### Links and fabric time -/

/-- A flit as a link sends it again: the stored bytes with the acknowledgement of now. -/
def againFlit (v : Link) (l : Nat) (h : Nat × FlitIn × Nat) : Msg := .flit l { h.2.1 with raw := refresh v h.2.1.raw }

/-- The held flits from a sequence number on are sent again, in order (R455); one sent again 8 times takes the link to retraining. -/
def Resends (s : State) (o : Host.Outcome State Fault Refusal) (l n : Nat) : Prop :=
  let v := s.link l
  let out := v.held.filter fun h => n ≤ h.1
  ∃ u, o = .next u ∧ u = { s with links := u.links, outbox := s.outbox ++ out.map (againFlit v l) } ∧ (∀ d, d ≠ l → u.link d = s.link d) ∧
    (u.link l).held = v.held.map (fun (h : Nat × FlitIn × Nat) => if n ≤ h.1 then (h.1, h.2.1, h.2.2 + 1) else h) ∧
    (u.link l).replays = v.replays + BitVec.ofNat 64 out.length ∧ (u.link l).seq = v.seq ∧ (u.link l).expect = v.expect ∧
    (u.link l).state = if ∃ h ∈ out, 7 ≤ h.2.2 then 3 else if ∃ h ∈ v.held, 8 ≤ h.2.2 then 3 else v.state

/-- The lanes of a link that training may use (R456, R457). -/
def workingLanes (v : Link) (lanes : BitVec 16) : BitVec 16 := lanes &&& v.allowed &&& ~~~v.marked

/-- A link that was up or training is down (R456): its replay buffer and what waits for it are lost (log 86), the keys stay. -/
def downedLink (v : Link) (err : BitVec 4) (now : Nat) : Link :=
  { v.toWindow now with state := 0, err := err, active := 0, width := 0, held := [], todo := [], chunks := [], downAt := now }

/-- What the end of one window does to a link (R457): each live lane's score, the marks, the retraining. -/
def WindowEnds (v u : Link) : Prop :=
  let score := fun k => let h := Tab.get 0 v.health k; min 255 (h - h / 8 + min (Tab.get 0 v.corrected k) 64)
  let live := fun k => k < 16 ∧ v.active.getLsbD k = true ∧ v.marked.getLsbD k = false
  u = { v with window := v.window + 1, corrected := [], health := u.health, marked := u.marked, state := u.state } ∧
    (∀ k, live k → Tab.get 0 u.health k = score k) ∧ (∀ k, ¬ live k → Tab.get 0 u.health k = Tab.get 0 v.health k) ∧
    (∀ k, k < 16 → (u.marked.getLsbD k = true ↔ v.marked.getLsbD k = true ∨ (live k ∧ v.retire.toNat ≤ score k))) ∧
    (v.state = 2 → (∃ k, live k ∧ v.retire.toNat ≤ score k) → u.state = 3) ∧
    (v.state ≠ 2 ∨ (∀ k, live k → score k < v.retire.toNat) → u.state = v.state)

/-- The entry of a peer that is up is marked lost in the peer table, and no other byte of memory changes (R459). -/
def MarkedLost (s u : State) (p : Nat) : Prop :=
  let k := s.mod.ptBase.toNat + 8 * p
  (u.byte k).toNat = (s.byte k).toNat + 2 ∧ ∀ a, a ≠ k → u.byte a = s.byte a

/-! ### Installation, boot and power -/

/-- A buffer of `n` bytes in a context's address space lies at home byte `k` of this module, in one piece. -/
def BufferAt (s : State) (ctx a n : Nat) (write : Bool) (k : Nat) : Prop :=
  ∃ ps, s.HomeRange ctx a n write false ps ∧ homeRuns ps = [(k, n)]

/-- A buffer that the service cannot use: a page is absent or refused, and none lies on another module. -/
def BufferBad (s : State) (ctx a n : Nat) (write : Bool) : Prop :=
  (∀ ps, ¬ s.HomeRange ctx a n write false ps) ∧
  ∀ i e size q va, i < n → s.walk ctx ((a + i) % 2 ^ 56) = .ok e size → leafLoc e size ((a + i) % 2 ^ 64) ≠ .far q va

/-- Interface `n` runs a request of this operation, whose record has been read (R479, R480), and no output of one is on its way. -/
def Requests (s : State) (n op : Nat) : Prop :=
  (s.vi n).instBusy = true ∧ (s.vi n).instReq = none ∧ (s.vi n).instRec.toNat / 2 ^ 256 % 256 = op ∧ s.outputAway n = false

/-- Byte `a` of home memory is one of the cache region that TC.BASE and TC.SIZE name in the space of context 4095 (R443). -/
def InCacheRegion (s : State) (a : Nat) : Prop :=
  ∃ i e size, i < s.mod.tcSize.toNat * 65536 ∧ s.walk 4095 ((s.mod.tcBase.toNat + i) % 2 ^ 56) = .ok e size ∧
    leafLoc e size ((s.mod.tcBase.toNat + i) % 2 ^ 64) = .home a

/-- The request of interface `n` ended with a status and the interrupt of INST.CTX (R479); other interfaces, crews and teams are as
they were. -/
def RequestEnds (s : State) (o : Host.Outcome State Fault Refusal) (u : State) (n status : Nat) : Prop :=
  o = .next u ∧ (u.vi n).instBusy = false ∧ (u.vi n).instStatus = BitVec.ofNat 8 status ∧ (∀ m, m ≠ n → u.vi m = s.vi m) ∧ LeasesAside s u ∧
    u.teams = s.teams ∧ u.queues = s.queues ∧ u.outbox = s.outbox ++ [Msg.msix (s.ctx (s.vi n).instCtx.toNat).vi.toNat (s.ctx (s.vi n).instCtx.toNat).msix.toNat]

/-- The bytes of home memory from `k` on are `bs`, and all others as before. -/
def Wrote (s u : State) (k : Nat) (bs : List Byte) : Prop :=
  ∀ a, u.byte a = if k ≤ a ∧ a < k + bs.length then bs.getD (a - k) 0 else s.byte a

/-! ### Encoding, steps and invariants -/

/-- A word given by its three parcels (R134, R135). -/
def parcels (p0 p1 p2 : Nat) : Nat := p0 + 2 ^ 32 * p1 + 2 ^ 64 * p2

/-- No guard, and no hints. -/
def always : Guard := { pred := 0, neg := false, uni := false }
def noHint : Hint := { resv := 0, cc := 0, yield := false, keepB := false, keepA := false, la := 0 }

/-- A plain vector operand. -/
def vec (n : BitVec 8) : Operand := .v n 0 false false

/-- The state in which a turn at the head of the agenda runs. -/
def tookTurn (s : State) (rest : List Turn) (who : Who) : State := { s with agenda := rest, fresh := s.fresh + 1, cur := who }

/-- Every table of the state is in canonical form: keys rise strictly, and no entry holds what an unlisted key reads as, so that equal
memories and equal register files are equal data. -/
def Canonical (s : State) : Prop :=
  Memory.wf s.mem = true ∧ Tab.wf 0 s.tags = true ∧ Tab.sorted s.poison = true ∧ Tab.sorted s.lines = true ∧ Tab.wf [] s.wlog = true ∧
  Tab.wf [] s.tracks = true ∧ Tab.wf [] s.tlbs = true ∧ Tab.sorted s.crews = true ∧ Tab.sorted s.teams = true ∧ Tab.wf CoreSt.reset s.cores = true ∧
  Tab.sorted s.launches = true ∧ Tab.sorted s.gangs = true ∧ Tab.sorted s.saved = true ∧ Tab.sorted s.coloc = true ∧ Tab.wf 0 s.cycles = true ∧
  Tab.wf Part.reset s.parts = true ∧ Tab.wf Vi.reset s.vis = true ∧ Tab.wf Ctx.reset s.ctxs = true ∧ Tab.sorted s.objs = true ∧
  Tab.wf Queue.reset s.queues = true ∧ Tab.wf Slot.reset s.slots = true ∧ Tab.sorted s.engines = true ∧ Tab.sorted s.passes = true ∧
  Tab.wf [] s.groups = true ∧ Tab.sorted s.announces = true ∧ Tab.wf Jd.reset s.jds = true ∧ Tab.wf Link.reset s.links = true ∧
  Tab.wf Wctx.reset s.wctxs = true ∧ Tab.wf 0 s.wcur = true ∧ Tab.wf 0 s.imem = true

end Sys2Proof

section Statements

open Sys2Proof Sys2Proof.Machine

/-- A register instruction retires and changes registers only. Every instruction that only reads and writes registers, whose turn it is and
which no decode cause and no hazard stops, answers a next state in which the split stands 12 bytes on with its clock one higher and its
format register unchanged; memory, every other crew, every special and system register are unchanged, and so are the scratch and tiles of its
team unless an sts, atoms, mld or mst of the split stands in its window; where no result of an earlier instruction is outstanding, every register cell that its
destination does not name in a lane that takes effect keeps its value. -/
def Obligations.RegisterInstructionsRetire : Prop :=
  ∀ (m : Mn) (f : Fields) (s : State) (x k : Nat) (c : Crew) (sp : Split), m ∈ registerMns → s.Executes m f x k c sp →
    (∃ t c' sp', exec (m.instr f) s = .next t ∧ OnlyCrewAndScratch s t x c.team ∧ t.crew? x = some c' ∧ RetiredAt c c' k sp sp' (sp.pc + 12) ∧
      sp'.fmt = sp.fmt) ∧
    ((∀ w ∈ sp.windows, writesTeam w.m = false) → RetiresWith s m f x k c sp fun c' => Settled c sp →
      ∀ n, destCell c sp m f (runLanes s m f x k c sp) n = false → c'.cell n = c.cell n)

/-- Integer arithmetic fits the exact result to the type. iadd, isub, imul, imad, imin, imax, iabs and ineg retire with D holding, in every lane
that takes effect, the exact integer result clamped to the type where F = 1 and its low n bits where F = 0, extended to the register by the
signedness of the type; under class s once, from the lowest such lane. -/
def Obligations.IntegerArithmeticResults : Prop :=
  ∀ (m : Mn) (f : Fields) (t : Ty) (s : State) (x k : Nat) (c : Crew) (sp : Split) (res : Nat → Int),
    s.Executes m f x k c sp → Settled c sp → 8 ≤ c.wrows → f.sel = .ty t →
    (∀ l, exactInt m (srcInt c sp t f.a l) (srcInt c sp t f.b l) (srcInt c sp t f.d l) = some (res l)) →
    RetiresWith s m f x k c sp fun c' =>
      TypedDest c c' sp f (runLanes s m f x k c sp) t fun l => BitVec.ofInt t.bits (if f.f then clamped t (res l) else res l)

/-- High products, bit operations, shifts, rotations, bit reversal and lea. imulhi gives the high n bits of the exact product, and, or, xor and
not the bitwise operations, shl, shr, sar and rot shift or rotate by the 32-bit count of B, brev reverses the bits, lea adds the scaled
extended index; each retires with D holding the result in every lane that takes effect. -/
def Obligations.BitAndShiftResults : Prop :=
  ∀ (m : Mn) (f : Fields) (t : Ty) (s : State) (x k : Nat) (c : Crew) (sp : Split) (res : Nat → BitVec t.bits),
    s.Executes m f x k c sp → Settled c sp → 8 ≤ c.wrows → f.sel = .ty t →
    (∀ l, bitResult m t.bits (t.kind == .signed) f.f f.ext.toNat (src c sp t f.a l) (src c sp t f.b l)
      (BitVec.ofNat 32 (operand32 c sp.wbase f.b l)) = some (res l)) →
    RetiresWith s m f x k c sp fun c' => TypedDest c c' sp f (runLanes s m f x k c sp) t res

/-- bfx and bfi move bit fields. bfx gives the field of A at position b[7:0] of length b[15:8], cut to the type and extended from its highest
bit for signed types, 0 where the length is 0 or the position is past the type; bfi lays the low bits of A over the base in D. Each bit of
the result in every lane that takes effect is as the rule gives it. -/
def Obligations.BitFieldResults : Prop :=
  ∀ (m : Mn) (f : Fields) (t : Ty) (s : State) (x k : Nat) (c : Crew) (sp : Split) (res : Nat → BitVec t.bits),
    s.Executes m f x k c sp → Settled c sp → 8 ≤ c.wrows → f.sel = .ty t →
    (∀ l j, j < t.bits → fieldBit m t.bits (t.kind == .signed) (src c sp t f.d l) (src c sp t f.a l)
      (operand32 c sp.wbase f.b l % 256) (operand32 c sp.wbase f.b l / 256 % 256) j = some ((res l).getLsbD j)) →
    RetiresWith s m f x k c sp fun c' => TypedDest c c' sp f (runLanes s m f x k c sp) t res

/-- icmp writes the comparison in each lane. icmp retires with the predicate D holding (a CC b) under the signedness of the type in every lane
that takes effect, and p0 unchanged. -/
def Obligations.IntegerComparisonResults : Prop :=
  ∀ (f : Fields) (t : Ty) (s : State) (x k : Nat) (c : Crew) (sp : Split),
    s.Executes .icmp f x k c sp → Settled c sp → f.sel = .ty t →
    RetiresWith s .icmp f x k c sp fun c' => match f.d with
      | .p n _ => if n.toNat = 0 then ∀ l, c'.pred 0 l = c.pred 0 l else ∀ l ∈ lanesOf (runLanes s .icmp f x k c sp) c.width,
          (c'.pred n.toNat l = true ↔ intCondition f.ext.toNat (srcInt c sp t f.a l) (srcInt c sp t f.b l))
      | _ => False

/-- popc, clz, sel and the predicate instructions. popc gives the number of 1 bits of A, clz the number of 0 bits above the highest 1 bit, n
where A = 0, in one row even under a 64-bit type, a uniform destination zero-extended; sel takes A where the predicate named by EXT[2:0] XOR
EXT[3] is 1 and B otherwise; pand, por and pxor combine the two source predicates, pnot complements, pmov copies a predicate, a bit of a
uniform value or a constant; writes to p0 are discarded. -/
def Obligations.BitCountSelectAndPredicateResults : Prop :=
  ∀ (f : Fields) (s : State) (x k : Nat) (c : Crew) (sp : Split), Settled c sp → 8 ≤ c.wrows →
    (∀ m t res, s.Executes m f x k c sp → f.sel = .ty t → (∀ l, bitCount m t.bits (src c sp t f.a l) = some (res l)) →
      RetiresWith s m f x k c sp fun c' => DestHolds c c' sp f (runLanes s m f x k c sp) 1 res res) ∧
    (∀ t, f.sel = .ty t → s.Executes .sel f x k c sp → RetiresWith s .sel f x k c sp fun c' =>
      TypedDest c c' sp f (runLanes s .sel f x k c sp) t fun l =>
        if c.pred (f.ext.toNat % 8) l ^^ decide (8 ≤ f.ext.toNat) then src c sp t f.a l else src c sp t f.b l) ∧
    (s.Executes .pand f x k c sp → RetiresWith s .pand f x k c sp fun c' =>
      PredHolds c c' f (runLanes s .pand f x k c sp) fun l => operandPred c f.a l && operandPred c f.b l) ∧
    (s.Executes .por f x k c sp → RetiresWith s .por f x k c sp fun c' =>
      PredHolds c c' f (runLanes s .por f x k c sp) fun l => operandPred c f.a l || operandPred c f.b l) ∧
    (s.Executes .pxor f x k c sp → RetiresWith s .pxor f x k c sp fun c' =>
      PredHolds c c' f (runLanes s .pxor f x k c sp) fun l => operandPred c f.a l ^^ operandPred c f.b l) ∧
    (s.Executes .pnot f x k c sp → RetiresWith s .pnot f x k c sp fun c' =>
      PredHolds c c' f (runLanes s .pnot f x k c sp) fun l => !operandPred c f.a l) ∧
    (s.Executes .pmov f x k c sp → RetiresWith s .pmov f x k c sp fun c' =>
      PredHolds c c' f (runLanes s .pmov f x k c sp) fun l => match f.a with
        | .p .. => operandPred c f.a l
        | .s n => ((c.uni (n.toNat + 1)) ++ (c.uni n.toNat)).getLsbD l
        | .i v => v != 0
        | _ => false)

/-- Groups 2 and 3 compute each element under the format register. Every computing instruction of groups 2 and 3 retires with each element of D,
in every lane that takes effect, the operation of the same elements of its sources under the split's rounding mode and flush; the 16-bit
types compute both elements of a row independently. fcmp and dcmp retire with the predicate D holding, in every lane that takes effect, the
comparison CC of the elements that EL names: eq, ne, lt, le, gt and ge in the order of the numbers, a denormal flushed under FTZ and the zeros
equal, with a NaN ne alone true; un whether one of them is a NaN, or whether none is; p0 is unchanged. -/
def Obligations.FloatingPointResults : Prop :=
  (∀ (m : Mn) (f : Fields) (t : Ty) (s : State) (x k : Nat) (c : Crew) (sp : Split) (res : Nat → Nat → Nat),
    s.Executes m f x k c sp → Settled c sp → 8 ≤ c.wrows → f.sel = .ty t →
    (∀ l el, fpElement m (fmtOf t) (rmode sp.fmt) (ftzBit sp.fmt) f.ext.toNat (fpSrc c sp t f.a l el) (fpSrc c sp t f.b l el)
      (fpSrc c sp t f.d l el) = some (res l el)) →
    RetiresWith s m f x k c sp fun c' => match f.d with
      | .v idx .. => ∀ l ∈ lanesOf (runLanes s m f x k c sp) c.width, ∀ el, el < fpElements t →
          elem (c'.rowsVal sp.wbase idx.toNat t.rows l) (fpWidth t) el = res l el % 2 ^ fpWidth t
      | .s r => r.toNat ≠ 0 → ∀ l, lowest (runLanes s m f x k c sp) c.width = some l → ∀ el, el < fpElements t →
          elem (c'.uni r.toNat).toNat (fpWidth t) el = res l el % 2 ^ fpWidth t
      | _ => False) ∧
  (∀ (m : Mn) (f : Fields) (t : Ty) (s : State) (x k : Nat) (c : Crew) (sp : Split), m = .fcmp ∨ m = .dcmp →
    s.Executes m f x k c sp → Settled c sp → 8 ≤ c.wrows → f.sel = .ty t →
    RetiresWith s m f x k c sp fun c' => match f.d with
      | .p n _ => if n.toNat = 0 then ∀ l, c'.pred 0 l = c.pred 0 l else ∀ l ∈ lanesOf (runLanes s m f x k c sp) c.width,
          (c'.pred n.toNat l = true ↔ fpCondition (fmtOf t) (ftzBit sp.fmt) (f.ext.toNat % 8)
            (fpSrc c sp t f.a l (f.ext.toNat / 8 % 2)) (fpSrc c sp t f.b l (f.ext.toNat / 8 % 2)))
      | _ => False)

/-- cvt, pack2, unpack2, bfpack, bfunpack and bfexp convert between the types. cvt retires with D holding A converted from the type in EXT to
the type in MOD: an integer to an integer wraps, or with F = 1 is clamped; a floating-point source rounded to an integer gives 0 for a NaN
and the end of the range for an infinity; otherwise the value is rounded once in the mode that B names, or else in the mode of the format
register. pack2 writes the row whose low half comes from A and whose high half comes from B: bits unchanged for .b16, clamped or cut to 16
bits for .s16 and .n16, rounded for the half types; unpack2 writes the two halves of A into two rows: zero-extended, sign-extended, or
converted to .f32. bfpack gives lane 32k + j word j of block k's mantissa string for j below the mantissa width and 0 above it, and a
class-s B the exponents, one per byte; bfexp gives the block's exponent; bfunpack gives lane 32k + i element i of the string that lanes 32k
and up hold. -/
def Obligations.ConversionAndPackResults : Prop :=
  (∀ (f : Fields) (ts td : Ty) (s : State) (x k : Nat) (c : Crew) (sp : Split),
    s.Executes .cvt f x k c sp → Settled c sp → 8 ≤ c.wrows → f.sel = .ty td → tyOfCode f.ext.toNat = some ts →
    RetiresWith s .cvt f x k c sp fun c' =>
      let run := runLanes s .cvt f x k c sp
      let rm := match f.b with | .i v => v.toNat | _ => rmode sp.fmt
      let ftz := ftzBit sp.fmt
      if isInteger td then TypedDest c c' sp f run td fun l =>
        if isInteger ts then BitVec.ofInt td.bits (if f.f then clamped td (srcInt c sp ts f.a l) else srcInt c sp ts f.a l)
        else match unpack (fmtOf ts) false (src c sp ts f.a l).toNat with
          | .nan _ => 0
          | .inf neg => BitVec.ofInt td.bits (if neg then clamped td (-(2 ^ 64)) else clamped td (2 ^ 64))
          | _ => BitVec.ofNat td.bits (fToInt (fmtOf ts) rm ftz td (src c sp ts f.a l).toNat)
      else DestHolds c c' sp f run td.rows (fun l =>
        (if isInteger ts then fOfInt (fmtOf td) rm ftz (srcInt c sp ts f.a l)
        else fConv (fmtOf ts) (fmtOf td) rm ftz (src c sp ts f.a l).toNat) % 2 ^ (32 * td.rows)) fun _ => 0) ∧
  (∀ (f : Fields) (t : Ty) (s : State) (x k : Nat) (c : Crew) (sp : Split), Settled c sp → 8 ≤ c.wrows → f.sel = .ty t →
    (s.Executes .pack2 f x k c sp → RetiresWith s .pack2 f x k c sp fun c' =>
      DestHolds c c' sp f (runLanes s .pack2 f x k c sp) 1 (fun l =>
        let half := fun o : Operand => match t with
          | .f16 | .bf16 => fConv (fmtOf .f32) (fmtOf t) (rmode sp.fmt) (ftzBit sp.fmt) (src c sp .f32 o l).toNat % 2 ^ 16
          | .s16 | .n16 => (BitVec.ofInt 16 (if f.f then clamped t (src c sp .s32 o l).toInt else (src c sp .s32 o l).toInt)).toNat
          | _ => (src c sp .b32 o l).toNat % 2 ^ 16
        half f.a + 2 ^ 16 * half f.b) fun _ => 0) ∧
    (s.Executes .unpack2 f x k c sp → RetiresWith s .unpack2 f x k c sp fun c' =>
      DestHolds c c' sp f (runLanes s .unpack2 f x k c sp) 2 (fun l =>
        let half := fun e : Nat => match t with
          | .f16 | .bf16 => fConv (fmtOf t) (fmtOf .f32) (rmode sp.fmt) (ftzBit sp.fmt) e % 2 ^ 32
          | .s16 => ((BitVec.ofNat 16 e).signExtend 32).toNat
          | _ => e
        half (operand32 c sp.wbase f.a l % 2 ^ 16) + 2 ^ 32 * half (operand32 c sp.wbase f.a l / 2 ^ 16 % 2 ^ 16)) fun _ => 0)) ∧
  (∀ (f : Fields) (s : State) (x k : Nat) (c : Crew) (sp : Split), Settled c sp → 8 ≤ c.wrows →
    c.width ∈ [32, 64, 128] → 2 ≤ blockWidth f sp → blockWidth f sp ≤ 8 →
    (s.Executes .bfpack f x k c sp → RetiresWith s .bfpack f x k c sp fun c' =>
      let run := runLanes s .bfpack f x k c sp
      let ex := fun q => bfpExp (blockInputs c sp f run q)
      (match f.d with
      | .v idx .. => ∀ l ∈ lanesOf run c.width, ∀ j, j < 32 → (c'.row (physRow sp.wbase c.wrows idx.toNat) l).getLsbD j = (decide (l % 32 < blockWidth f sp) &&
          (bfpMant (blockWidth f sp) (ex (l / 32)) ((blockInputs c sp f run (l / 32)).getD ((32 * (l % 32) + j) / blockWidth f sp) 0)).testBit
            ((32 * (l % 32) + j) % blockWidth f sp))
      | _ => False) ∧
      (match f.b with
      | .s r => r.toNat ≠ 0 → lowest run c.width ≠ none → ∀ q, q < 8 →
          elem (c'.uni r.toNat).toNat 8 q = if q < c.width / 32 then ex q else 0
      | _ => True)) ∧
    (s.Executes .bfexp f x k c sp → RetiresWith s .bfexp f x k c sp fun c' =>
      let run := runLanes s .bfexp f x k c sp
      let ex := fun q => bfpExp (blockInputs c sp f run q)
      match f.d with
      | .v idx .. => ∀ l ∈ lanesOf run c.width, (c'.row (physRow sp.wbase c.wrows idx.toNat) l).toNat = ex (l / 32)
      | .s r => r.toNat ≠ 0 → lowest run c.width ≠ none → ∀ q, q < 8 →
          elem (c'.uni r.toNat).toNat 8 q = if q < c.width / 32 then ex q else 0
      | _ => False) ∧
    (s.Executes .bfunpack f x k c sp → RetiresWith s .bfunpack f x k c sp fun c' =>
      let b := blockWidth f sp
      DestHolds c c' sp f (runLanes s .bfunpack f x k c sp) 1 (fun l =>
        let q := l / 32
        let ex := match f.b with
          | .s r => elem (c.uni r.toNat).toNat 8 q
          | o => operand32 c sp.wbase o (32 * q) % 256
        let mant := laneBits ((List.range b).map fun j => (src c sp .b32 f.a (32 * q + j)).toNat) (b * (l % 32)) b
        bfpValue b ex mant % 2 ^ 32) fun _ => 0))

/-- shfl, bcast, vote and match exchange values between lanes. shfl gives each contributing lane the value of the lane that MODE, SEG and B
name; bcast gives all the value of lane b mod w; vote gives whether every, some or all alike, or the mask of the true lanes; match gives the
mask of the lanes with an equal value, or whether all are equal. Values are read as they stood, in inactive lanes too. -/
def Obligations.LaneExchangeResults : Prop :=
  ∀ (f : Fields) (s : State) (x k : Nat) (c : Crew) (sp : Split), Settled c sp → 8 ≤ c.wrows → c.width ∈ [32, 64, 128] →
    (∀ t, f.sel = .ty t → s.Executes .shfl f x k c sp → RetiresWith s .shfl f x k c sp fun c' =>
      TypedDest c c' sp f (runLanes s .shfl f x k c sp) t fun l =>
        let seg := f.ext.toNat / 4
        let w := if seg = 0 then c.width else min (2 ^ seg) c.width
        let n := operand32 c sp.wbase f.b l
        let i := l % w
        src c sp t f.a (match f.ext.toNat % 4 with
          | 0 => l - i + n % w
          | 1 => if n ≤ i then l - n else l
          | 2 => if i + n < w then l + n else l
          | _ => l - i + (i ^^^ (n % w)))) ∧
    (∀ t, f.sel = .ty t → s.Executes .bcast f x k c sp → RetiresWith s .bcast f x k c sp fun c' =>
      TypedDest c c' sp f (runLanes s .bcast f x k c sp) t fun l => src c sp t f.a (operand32 c sp.wbase f.b l % c.width)) ∧
    (∀ n, f.sel = .var n → s.Executes .vote f x k c sp → RetiresWith s .vote f x k c sp fun c' =>
      let run := runLanes s .vote f x k c sp
      let yes := (lanesOf run c.width).filter fun l => operandPred c f.a l
      let bit := match n.toNat with
        | 0 => yes.length == (lanesOf run c.width).length
        | 1 => !yes.isEmpty
        | _ => yes.isEmpty || yes.length == (lanesOf run c.width).length
      if n.toNat = 3 then match f.d with
        | .s r => lowest run c.width ≠ none → (r.toNat ≠ 0 → c'.uni r.toNat = (laneSet yes).setWidth 64) ∧
            (c.width = 128 → c'.uni (r.toNat + 1) = ((laneSet yes) >>> 64).setWidth 64)
        | _ => DestHolds c c' sp f run (c.width / 32) (fun _ => (laneSet yes).toNat) fun _ => 0
      else PredHolds c c' f run (fun _ => bit) ∧ DestHolds c c' sp f run 1 (fun _ => if bit then 1 else 0) fun _ => if bit then 1 else 0) ∧
    (∀ t, f.sel = .ty t → s.Executes .matchv f x k c sp → RetiresWith s .matchv f x k c sp fun c' =>
      let run := runLanes s .matchv f x k c sp
      if f.f then
        let same := decide (∀ l ∈ lanesOf run c.width, ∀ j ∈ lanesOf run c.width, src c sp t f.a l = src c sp t f.a j)
        PredHolds c c' f run (fun _ => same) ∧ DestHolds c c' sp f run 1 (fun _ => if same then 1 else 0) fun _ => if same then 1 else 0
      else DestHolds c c' sp f run (c.width / 32) (fun l =>
        (laneSet ((lanesOf run c.width).filter fun j => src c sp t f.a j == src c sp t f.a l)).toNat) fun _ => 0)

/-- Integer and bit redux and scan combine the contributing lanes. Integer and bitwise redux give every contributing lane (or, under class s,
the register once) the exact total, minimum, maximum or bitwise combination of the contributing lanes, wrapped, or clamped once with F = 1;
scan gives each lane the combination of the lanes up to it, or below it with EXCL = 1, the lowest one then the identity. They never wait. -/
def Obligations.ReductionResults : Prop :=
  ∀ (m : Mn) (f : Fields) (t : Ty) (s : State) (x k : Nat) (c : Crew) (sp : Split),
    m = .redux ∨ m = .scan → t.kind ≠ .float → s.Executes m f x k c sp → Settled c sp → 8 ≤ c.wrows → f.sel = .ty t →
    RetiresWith s m f x k c sp fun c' =>
      let run := runLanes s m f x k c sp
      let op := f.ext.toNat % 8
      let excl := decide (8 ≤ f.ext.toNat)
      let ls := fun l => (lanesOf run c.width).filter fun j => m = .redux || j < l || (!excl && j == l)
      TypedDest c c' sp f run t fun l =>
        if 3 ≤ op then ((ls l).map (src c sp t f.a)).foldl (fun a b => if op = 3 then a &&& b else if op = 4 then a ||| b else a ^^^ b)
          (if op = 3 then BitVec.allOnes t.bits else 0)
        else match combined op ((ls l).map (srcInt c sp t f.a)) with
          | some v => BitVec.ofInt t.bits (if f.f then clamped t v else v)
          | none => BitVec.ofInt t.bits (if op = 0 then 0 else if op = 1 then clamped t (2 ^ 64) else clamped t (-(2 ^ 64)))

/-- mov, movw, rdsr, wrsr, getfmt and nop. mov copies its source, movw replaces one 32-bit half of a 64-bit destination and keeps the other,
rdsr gives the selected special register, wrsr replaces one 64-bit quarter of a layout register once for the crew and keeps the other three,
getfmt gives the format register; nop leaves every register as it was. -/
def Obligations.MoveResults : Prop :=
  ∀ (f : Fields) (s : State) (x k : Nat) (c : Crew) (sp : Split), Settled c sp → 8 ≤ c.wrows →
    (∀ t, f.sel = .ty t → s.Executes .mov f x k c sp → RetiresWith s .mov f x k c sp fun c' =>
      TypedDest c c' sp f (runLanes s .mov f x k c sp) t fun l => src c sp t f.a l) ∧
    (s.Executes .movw f x k c sp → RetiresWith s .movw f x k c sp fun c' =>
      TypedDest c c' sp f (runLanes s .movw f x k c sp) .b64 fun l =>
        let d := src c sp .b64 f.d l
        let v : BitVec 32 := match f.a with | .w v => v | .i v => v.signExtend 32 | _ => 0
        if f.f then v ++ d.setWidth 32 else (d >>> 32).setWidth 32 ++ v) ∧
    (s.Executes .rdsr f x k c sp → RetiresWith s .rdsr f x k c sp fun c' => match f.a, s.team? c.team with
      | .x sel, some tm => DestHolds c c' sp f (runLanes s .rdsr f x k c sp) (if 12 ≤ sel.toNat then 2 else 1)
          (fun l => specialValue s c sp x tm sel.toNat l % 2 ^ (if 12 ≤ sel.toNat then 64 else 32))
          fun l => specialValue s c sp x tm sel.toNat l % 2 ^ 64
      | _, _ => False) ∧
    (s.Executes .wrsr f x k c sp → RetiresWith s .wrsr f x k c sp fun c' =>
      match f.d, f.a, f.b with
      | .x sel, .s r, .i q => lowest (runLanes s .wrsr f x k c sp) c.width ≠ none → ∀ j, j < 256 →
          (c'.layReg (sel.toNat - 256)).getLsbD j =
            if j / 64 = q.toNat then (c.uni r.toNat).getLsbD (j % 64) else (c.layReg (sel.toNat - 256)).getLsbD j
      | _, _, _ => False) ∧
    (s.Executes .getfmt f x k c sp → RetiresWith s .getfmt f x k c sp fun c' =>
      DestHolds c c' sp f (runLanes s .getfmt f x k c sp) 1 (fun _ => sp.fmt.toNat) fun _ => sp.fmt.toNat) ∧
    (s.Executes .nop f x k c sp → RetiresWith s .nop f x k c sp fun c' => ∀ n, c'.cell n = c.cell n)

/-- setfmt and setfmt.rm write the format register or fault. Where no lane takes effect setfmt only retires; where the value is accepted, the
split's format register takes it (setfmt.rm only its low two bits) and every register keeps its value; a value with a reserved bit, a width
outside 2 to 8 or, for setfmt.rm, a bit above 1 set stops the crew with illegal-operand, the PC and the format register unchanged. -/
def Obligations.FormatRegisterWrites : Prop :=
  ∀ (m : Mn) (f : Fields) (s : State) (x k : Nat) (c : Crew) (sp : Split), m = .setfmt ∨ m = .setfmtRm →
    s.Executes m f x k c sp → Settled c sp →
    let v := operand64 c f.a % 2 ^ 32
    let ok := if m = .setfmt then v / 8 % 2 = 0 ∧ v / 2 ^ 13 = 0 ∧ 2 ≤ v / 16 % 16 ∧ v / 16 % 16 ≤ 8 ∧ 2 ≤ v / 256 % 16 ∧ v / 256 % 16 ≤ 8
      else v < 4
    (runLanes s m f x k c sp = 0 → RetiresFmt s m f x k c sp sp.fmt) ∧
    (lowest (runLanes s m f x k c sp) c.width ≠ none → ok →
      RetiresFmt s m f x k c sp (if m = .setfmt then BitVec.ofNat 32 v else sp.fmt &&& ~~~3#32 ||| BitVec.ofNat 32 v)) ∧
    (lowest (runLanes s m f x k c sp) c.width ≠ none → ¬ ok → Faults s (exec (m.instr f) s) x k c sp 3 (runLanes s m f x k c sp))

/-- What stops a crew before an instruction executes, and the layout of the fault record. For every crew instruction: where its fields are
illegal-encoding, or privileged at crew level, or illegal-operand at the crew's width, tested in this order, the crew stops with that cause
in every active lane whatever the guard; the PC, the clock and the registers stay, and the record names the cause. Every form of group 14
executed by a crew whose context has CTX.LEVEL = 0 raises privileged (cause 2). Where no decode cause holds, PART.DEBUG is 1 and the
instruction meets an open window, a stale latch or an uncovered load, the crew stops with hazard (cause 21). A record is 64 bytes that hold,
as one little-endian number, FR.CODE in bits 15:0, FR.CAUSE in 23:16, FR.ACCESS in 25:24, FR.SPLIT in 27:26, FR.KIND in 31:28, FR.ID in
63:32, FR.PC in 119:64, FR.TIME in 191:128, FR.ADDR in 255:192, FR.LANES in 383:256 and FR.ANY in 511:384. -/
def Obligations.DecodeCausesAndHazardsFault : Prop :=
  (∀ (m : Mn) (f : Fields) (s : State) (x k : Nat) (c : Crew) (sp : Split), s.issuer = some (x, k, c, sp) → lowest sp.mask c.width ≠ none →
    (∀ n, firstCause s c m f = some n → Faults s (exec (m.instr f) s) x k c sp n sp.mask) ∧
    (m ∈ privilegedMns → encodingOk m f = true → (s.ctx c.ctx).level = false → Faults s (exec (m.instr f) s) x k c sp 2 sp.mask) ∧
    (firstCause s c m f = none → (s.part (s.ctx c.ctx).part.toNat).debug = true → hazard c sp m f = true →
      Faults s (exec (m.instr f) s) x k c sp 21 sp.mask)) ∧
  (∀ r : FaultRec, r.code < 2 ^ 16 → r.cause < 2 ^ 8 → r.access < 4 → r.split < 4 → r.kind < 16 → r.id < 2 ^ 32 → r.time < 2 ^ 64 →
    r.bytes.length = 64 ∧ leNat r.bytes % 2 ^ 16 = r.code ∧ leNat r.bytes / 2 ^ 16 % 2 ^ 8 = r.cause ∧ leNat r.bytes / 2 ^ 24 % 4 = r.access ∧
    leNat r.bytes / 2 ^ 26 % 4 = r.split ∧ leNat r.bytes / 2 ^ 28 % 16 = r.kind ∧ leNat r.bytes / 2 ^ 32 % 2 ^ 32 = r.id ∧
    leNat r.bytes / 2 ^ 64 % 2 ^ 56 = r.pc.toNat ∧ leNat r.bytes / 2 ^ 128 % 2 ^ 64 = r.time ∧ leNat r.bytes / 2 ^ 192 % 2 ^ 64 = r.addr.toNat ∧
    leNat r.bytes / 2 ^ 256 % 2 ^ 128 = r.lanes.toNat ∧ leNat r.bytes / 2 ^ 384 = r.any.toNat)

/-- brk and trap raise cause 22 with their code. brk and trap with a lane that takes effect stop the crew with cause 22 in the lanes that take
effect; the record's code holds the 15-bit code of A, with bit 15 set for a trap, and a stopped trap is marked to continue at the next
instruction. Where no lane takes effect the instruction only retires. -/
def Obligations.BreakpointsTrap : Prop :=
  ∀ (m : Mn) (f : Fields) (s : State) (x k : Nat) (c : Crew) (sp : Split) (v : BitVec 15), m = .brk ∨ m = .trap → f.a = .i v →
    s.Executes m f x k c sp →
    (runLanes s m f x k c sp = 0 → GoesTo s m f x k c sp (sp.pc + 12)) ∧
    (lowest (runLanes s m f x k c sp) c.width ≠ none → Faults s (exec (m.instr f) s) x k c sp 22 (runLanes s m f x k c sp) ∧
      ∃ t c' sp' r, exec (m.instr f) s = .next t ∧ t.crew? x = some c' ∧ c'.split? k = some sp' ∧ c'.frec = some r ∧
        r.code = v.toNat + (if m = .trap then 2 ^ 15 else 0) ∧
        (resumeSplit false sp').pc = (if m = .trap then sp.pc + 12 else sp.pc))

/-- bra and brx go on along one path or divide the split. With one path a branch goes on there. With two or more, the first path in order (fall-
through first for bra, by rising address for brx) stays in the split, further paths take free split entries under one new join record whose
merge point is the branch's, and the paths that find no free entry stand on the mask stack; every part's clock is the branch's plus one,
registers, format and window are kept. A ninth entry of the mask stack sends the oldest on the chip to the spill area, 48 bytes at the
spill top; where that would reach the address in s63 the branch raises stack-limit and does not retire. -/
def Obligations.BranchesFollowTheirPaths : Prop :=
  ∀ (f : Fields) (s : State) (x k : Nat) (c : Crew) (sp : Split),
    (s.Executes .bra f x k c sp →
      let run := runLanes s .bra f x k c sp
      let fall := sp.pc + 12
      let tgt := pcRel sp.pc (match f.a with | .i v => v.toInt | .w w => w.toInt | _ => 0)
      let merge := match f.d with | .i v => pcRel sp.pc v.toInt | _ => if fall < tgt then tgt else fall
      (run = 0 ∨ tgt.toNat % 4 = 0) →
      (sp.mask ≠ 0 → (tgt = fall ∨ run = 0) → GoesTo s .bra f x k c sp fall) ∧
      (run ≠ 0 → sp.mask &&& ~~~run = 0 → GoesTo s .bra f x k c sp tgt) ∧
      (tgt ≠ fall → run ≠ 0 → sp.mask &&& ~~~run ≠ 0 → stackRoom c sp 1 →
        Divides s .bra f x k c sp merge (fall, sp.mask &&& ~~~run) [(tgt, run)]) ∧
      (tgt ≠ fall → run ≠ 0 → sp.mask &&& ~~~run ≠ 0 → newSplits c 1 = 0 → sp.mstack.length = 7 → lowest sp.mask c.width ≠ none →
        ((c.uni 63).toNat < c.spillTop.toNat + 48 → Faults s (exec (.bra f) s) x k c sp 19 sp.mask) ∧
        (∀ ps, SpillRoom s x c 48 ps → ∃ t c' sp' r, exec (.bra f) s = .next t ∧ SpilledTo s t x ps r.bytes ∧ t.crew? x = some c' ∧ c'.v = c.v ∧
          c'.s = c.s ∧ c'.p = c.p ∧ c'.lay = c.lay ∧ c'.spillTop = c.spillTop + 48 ∧ c'.split? k = some sp' ∧ sp'.pc = fall ∧
          sp'.mask = sp.mask &&& ~~~run ∧ sp'.clock = sp.clock + 1 ∧ sp'.fmt = sp.fmt ∧ sp'.wbase = sp.wbase ∧ sp'.frames = sp.frames ∧
          sp'.mstack = .path tgt run merge sp.fmt sp.wbase :: .rj merge ((sp.mask &&& ~~~run) ||| run) sp.fmt sp.wbase :: sp.mstack.dropLast ∧
          sp'.mspill = r :: sp.mspill ∧ sp.mstack.getLast? = some r.kept ∧ r.base = c.spillTop ∧ r.bytes.length = 48))) ∧
    (s.Executes .brx f x k c sp → Settled c sp →
      let run := runLanes s .brx f x k c sp
      let tgt := fun l => operandVal c sp.wbase .b64 false f.a l
      let merge := pcRel sp.pc (match f.d with | .i v => v.toInt | _ => 0)
      (∀ l ∈ lanesOf run c.width, tgt l % 4 = 0 ∧ s.inText c (tgt l) = true ∧ tgt l < 2 ^ 56) →
      (∀ p, formPaths c run (sp.mask &&& ~~~run) (sp.pc + 12).toNat (sp.pc + 12) tgt (fun n => BitVec.ofNat 56 n) = [p] →
        GoesTo s .brx f x k c sp p.1) ∧
      (∀ p q ps, formPaths c run (sp.mask &&& ~~~run) (sp.pc + 12).toNat (sp.pc + 12) tgt (fun n => BitVec.ofNat 56 n) = p :: q :: ps →
        stackRoom c sp (ps.length + 1) → Divides s .brx f x k c sp merge p (q :: ps)))

/-- call, callx and ret slide the register window. A call of every active lane to one entry that needs no spill goes on at the entry with the
window base lower by the callee's frame size modulo the window, the depth one higher and a frame record holding the return PC, the size and
the caller's base; where only some lanes call, or callx lanes name different entries, the split divides into paths that stay at the call;
ret to a resident frame restores base and depth and goes on at the return PC; ret at depth 0 raises illegal-target. A call that finds no room
in the window first spills the oldest frame to the spill area, and a ret to a spilled frame first brings its rows back; either waits in
frame-wait while the crew holds other splits that go on, and raises stack-limit where those all wait at merges; so does a call whose frame
does not fit beside the caller's or whose spill would reach the address in s63. Chosen: where both the staying group and the calling group
lie at one address, the staying group is first (log 52); the order and bytes of the spill area (log 20). -/
def Obligations.CallsAndReturns : Prop :=
  ∀ (f : Fields) (s : State) (x k : Nat) (c : Crew) (sp : Split), Settled c sp →
    (s.Executes .call f x k c sp →
      let run := runLanes s .call f x k c sp
      let entry := pcRel sp.pc (match f.a with | .i v => v.toInt | .w w => w.toInt | _ => 0)
      let ps := formPaths c run (sp.mask &&& ~~~run) (2 * (sp.pc + 12).toNat) (sp.pc + 12) (fun _ => 2 * entry.toNat + 1) fun _ => sp.pc
      entry.toNat % 4 = 0 → lowest run c.width ≠ none →
      (run = sp.mask → fitsWindow c sp (s.frameAt c entry) → Calls s .call f x k c sp entry (s.frameAt c entry)) ∧
      (run = sp.mask → SpillCalls s .call f x k c sp entry (s.frameAt c entry)) ∧
      (∀ p q, ps = [p, q] → stackRoom c sp 1 → Divides s .call f x k c sp (sp.pc + 12) p [q])) ∧
    (s.Executes .callx f x k c sp →
      let run := runLanes s .callx f x k c sp
      ∀ fn : Nat → BitVec 64 × Nat, (∀ l ∈ lanesOf run c.width, s.fn? c (operand32 c sp.wbase f.a l) = some (fn l) ∧ (fn l).1.toNat % 4 = 0 ∧
        (fn l).1.toNat < 2 ^ 56) → ∀ l0, lowest run c.width = some l0 →
      (run = sp.mask → (∀ l ∈ lanesOf run c.width, (fn l).1 = (fn l0).1) → fitsWindow c sp (fn l0).2 →
        Calls s .callx f x k c sp ((fn l0).1.setWidth 56) (fn l0).2) ∧
      (run = sp.mask → (∀ l ∈ lanesOf run c.width, (fn l).1 = (fn l0).1) → SpillCalls s .callx f x k c sp ((fn l0).1.setWidth 56) (fn l0).2) ∧
      (∀ p q ps, formPaths c run (sp.mask &&& ~~~run) (2 * (sp.pc + 12).toNat) (sp.pc + 12) (fun l => 2 * (fn l).1.toNat + 1)
          (fun _ => sp.pc) = p :: q :: ps → stackRoom c sp (ps.length + 1) → Divides s .callx f x k c sp (sp.pc + 12) p (q :: ps))) ∧
    (s.Executes .ret f x k c sp →
      let run := runLanes s .ret f x k c sp
      (run = 0 → GoesTo s .ret f x k c sp (sp.pc + 12)) ∧
      (run = sp.mask → lowest run c.width ≠ none → sp.frames = [] → Faults s (exec (.ret f) s) x k c sp 20 sp.mask) ∧
      (∀ fr fs, run = sp.mask → run ≠ 0 → sp.frames = fr :: fs → fr.ret.toNat % 4 = 0 → fr.spilled = none →
        ∃ t c' sp', exec (.ret f) s = .next t ∧ OnlyCrew s t x ∧ t.crew? x = some c' ∧ c'.v = c.v ∧ c'.s = c.s ∧ c'.p = c.p ∧ c'.lay = c.lay ∧
          c'.split? k = some sp' ∧ sp'.pc = fr.ret ∧ sp'.clock = sp.clock + 1 ∧ sp'.mask = sp.mask ∧ sp'.fmt = sp.fmt ∧
          sp'.wbase = fr.base ∧ sp'.depth = sp.depth - 1 ∧ sp'.frames = fs) ∧
      (∀ fr fs r, run = sp.mask → lowest run c.width ≠ none → sp.frames = fr :: fs → fr.ret.toNat % 4 = 0 → fr.spilled = some r →
        WaitsForFrame s .ret f x k c sp ∧
        (∀ ps, c.splits = [(k, sp)] → (∀ tm, s.team? c.team = some tm → tm.opq = []) → c.width ≤ 128 → s.UnitsAgree (coreUnits (x / 64)) c.ctx →
          s.HomeRange c.ctx r.base.toNat r.bytes.length false (s.dclass c) ps →
          let size := (frameSizes c.entryF fs).headD 0
          ∃ t c' sp', exec (.ret f) s = .next t ∧ t.mem = s.mem ∧ t.teams = s.teams ∧ (∀ y, y ≠ x → t.crew? y = s.crew? y) ∧ t.crew? x = some c' ∧
            c'.s = c.s ∧ c'.p = c.p ∧ c'.lay = c.lay ∧ c'.spillTop = BitVec.ofNat 64 (c.setSplit k { sp with frames := fs }).spillEnd ∧
            c'.split? k = some sp' ∧ sp'.pc = fr.ret ∧ sp'.clock = sp.clock + 1 ∧ sp'.mask = sp.mask ∧ sp'.fmt = sp.fmt ∧
            sp'.wbase = fr.base ∧ sp'.depth = sp.depth - 1 ∧ sp'.frames = fs ∧
            (∀ j l, l < 128 → (∀ i, i < size → j ≠ physRow fr.base c.wrows i) → c'.row j l = c.row j l) ∧
            (s.runBytes (homeRuns ps) = r.bytes → ∀ i l, i < size → l < c.width →
              c'.row (physRow fr.base c.wrows i) l = Tab.get 0 r.kept (physRow fr.base c.wrows i * 128 + l)))))

/-- yield, exit, the merge check and the raised priority. yield only advances its split and, where some lane takes effect, marks its crew to be passed over. exit with no lane
taking effect only retires; lanes that take effect join the exited lanes and leave the split's mask: a split with lanes left goes on at the
next instruction; one without lanes takes what its top mask-stack entry leaves it, an RJ entry at its merge point; one without a mask stack is
freed, and its join record counts one side less, at the last side merging those that wait or, where none waits, going; a crew whose last
split is freed enters draining. At a mask-stack entry whose merge point and window base are the split's own, a PATH entry gives the split its target, lanes and
format and is popped, an RJ entry its union and format, and where that empties the chip's part the last spilled entry comes back; at its join record's merge point, base and depth, a split whose siblings are still
out enters merge-wait and the record counts one side less; the last side merges all waiting splits into the lowest entry with the union of
their masks, the record's format and parent and the largest clock. A ready crew passed over for 256 cycles is raised to the highest
priority. Chosen: the counter by which the cycles of a slot are measured (log 8). -/
def Obligations.ExitsMergesAndBoosts : Prop :=
  (∀ (f : Fields) (s : State) (x k : Nat) (c : Crew) (sp : Split),
    (s.Executes .yield f x k c sp → ∃ t c' sp', exec (.yield f) s = .next t ∧ OnlyCrew s t x ∧ t.crew? x = some c' ∧
      RetiredAt c c' k sp sp' (sp.pc + 12) ∧ sp'.fmt = sp.fmt ∧ (c'.yielded = true ↔ runLanes s .yield f x k c sp ≠ 0) ∧ c'.v = c.v ∧ c'.s = c.s ∧ c'.p = c.p ∧ c'.lay = c.lay) ∧
    (s.Executes .exit f x k c sp → c.arriving = [] → (∀ e ∈ c.splits, e.2.st ≠ .frameWait) → (∀ tm, s.team? c.team = some tm → tm.gdetach = [] ∧ tm.bars = []) →
      let run := runLanes s .exit f x k c sp
      (run = 0 → GoesTo s .exit f x k c sp (sp.pc + 12)) ∧
      (run ≠ 0 → sp.mask &&& ~~~run ≠ 0 → ∃ t c' sp', exec (.exit f) s = .next t ∧ OnlyCrew s t x ∧ t.crew? x = some c' ∧
        c'.st = .running ∧ c'.exited = c.exited ||| run ∧ c'.v = c.v ∧ c'.s = c.s ∧ c'.p = c.p ∧ c'.lay = c.lay ∧
        c'.split? k = some sp' ∧ sp'.mask = sp.mask &&& ~~~run ∧ sp'.pc = sp.pc + 12 ∧ sp'.clock = sp.clock + 1) ∧
      (run ≠ 0 → sp.mask &&& ~~~run = 0 → sp.mstack = [] → sp.join = none → ∃ t c', exec (.exit f) s = .next t ∧ t.crew? x = some c' ∧
        c'.exited = c.exited ||| run ∧ c'.split? k = none ∧ c'.v = c.v ∧ c'.s = c.s ∧ c'.p = c.p ∧ c'.lay = c.lay ∧
        (c'.st = .draining ↔ ∀ j, j ≠ k → c.split? j = none) ∧ t.mem = s.mem ∧ t.launches = s.launches) ∧
      (∀ e ms, run ≠ 0 → sp.mask &&& ~~~run = 0 → sp.mstack = e :: ms → (ms ≠ [] ∨ sp.mspill = []) →
        let left : BitVec 56 × Lanes × BitVec 32 := match e with
          | .path tgt l _ fm _ => (tgt, l &&& ~~~run, fm)
          | .rj m l fm _ => (m, l &&& ~~~run, fm)
        left.2.1 ≠ 0 → ∃ t c' sp', exec (.exit f) s = .next t ∧ OnlyCrew s t x ∧ t.crew? x = some c' ∧ c'.st = .running ∧ c'.exited = c.exited ||| run ∧
          c'.v = c.v ∧ c'.s = c.s ∧ c'.p = c.p ∧ c'.lay = c.lay ∧ c'.split? k = some sp' ∧ sp'.pc = left.1 ∧ sp'.mask = left.2.1 ∧ sp'.fmt = left.2.2 ∧
          sp'.clock = sp.clock + 1 ∧ sp'.join = sp.join ∧ sp'.mstack = ms.map (MaskEntry.without run)) ∧
      (∀ j r, run ≠ 0 → sp.mask &&& ~~~run = 0 → sp.mstack = [] → sp.join = some j → Tab.find c.joins j = some r → Tab.sorted c.splits = true →
        (1 < r.sides ∨ (r.parent = none ∧ ∀ i q, i ≠ k → c.split? i = some q → q.st = .mergeWait → q.join ≠ some j) →
          ∃ t c', exec (.exit f) s = .next t ∧ t.crew? x = some c' ∧ c'.exited = c.exited ||| run ∧ c'.split? k = none ∧
            (∀ i, i ≠ k → c'.split? i = (c.split? i).map fun q => { q with latchA := none, latchB := none }) ∧
            Tab.find c'.joins j = if 1 < r.sides then some { r with sides := r.sides - 1 } else none) ∧
        (r.sides ≤ 1 → ∀ lo q0,
          let waits := fun (i : Nat) (q : Split) => i ≠ k ∧ c.split? i = some q ∧ q.st = .mergeWait ∧ q.join = some j
          waits lo q0 → (∀ i q, waits i q → lo ≤ i) →
          ∃ t c' sp', exec (.exit f) s = .next t ∧ OnlyCrew s t x ∧ t.crew? x = some c' ∧ c'.exited = c.exited ||| run ∧ c'.split? k = none ∧
            Tab.find c'.joins j = none ∧ c'.split? lo = some sp' ∧ sp'.st = .ready ∧ sp'.fmt = r.fmt ∧ sp'.join = r.parent ∧ sp'.pc = q0.pc ∧
            (∀ l, hasLane sp'.mask l = true ↔ ∃ i q, waits i q ∧ hasLane q.mask l = true))))) ∧
  (∀ (s : State) (x k : Nat) (c : Crew) (sp : Split), s.crew? x = some c → c.split? k = some sp → c.st = .running → sp.st = .ready →
    (∀ e ∈ c.splits, e.2.st ≠ .frameWait) →
    (∀ e ms, sp.mstack = e :: ms → (match e with
        | .path _ l m _ b => m = sp.pc ∧ b = sp.wbase ∧ l ≠ 0
        | .rj m l _ b => m = sp.pc ∧ b = sp.wbase ∧ l ≠ 0) → (ms ≠ [] ∨ sp.mspill = []) →
      let sq := match e with
        | .path tgt l _ fm _ => { sp with pc := tgt, mask := l, fmt := fm, mstack := ms, latchA := none, latchB := none }
        | .rj _ l fm _ => { sp with mask := l, fmt := fm, mstack := ms, latchA := none, latchB := none }
      (c.setSplit k sq).mergeDue sq = false →
      ∃ t, exec (.merge x k) s = .next t ∧ t = { s with crews := t.crews } ∧ t.crew? x = some (c.setSplit k sq)) ∧
    (∀ tgt l b fm r rs ps, sp.mstack = [.path tgt l sp.pc fm b] → b = sp.wbase → l ≠ 0 → tgt ≠ sp.pc → sp.mspill = r :: rs →
      (∀ j q, sp.join = some j → Tab.find c.joins j = some q → q.mergePc ≠ tgt) →
      s.HomeRange c.ctx r.base.toNat r.bytes.length false (s.dclass c) ps → s.UnitsAgree (coreUnits (x / 64)) c.ctx → s.runBytes (homeRuns ps) = r.bytes →
      (match r.kept with | .path _ _ m _ _ | .rj m _ _ _ => m ≠ tgt) →
      let sq := { sp with pc := tgt, mask := l, fmt := fm, mstack := [r.kept], mspill := rs, latchA := none, latchB := none }
      ∃ t, exec (.merge x k) s = .next t ∧ t.mem = s.mem ∧ t.teams = s.teams ∧ (∀ y, y ≠ x → t.crew? y = s.crew? y) ∧
        t.crew? x = some { c.setSplit k sq with spillTop := BitVec.ofNat 64 (c.setSplit k sq).spillEnd }) ∧
    (∀ j r, sp.mstack = [] → sp.join = some j → Tab.find c.joins j = some r → sp.pc = r.mergePc → sp.wbase = r.base → sp.depth = r.depth →
      (1 < r.sides → ∃ t c' sp', exec (.merge x k) s = .next t ∧ t = { s with crews := t.crews } ∧ t.crew? x = some c' ∧
        c'.split? k = some sp' ∧ sp'.st = .mergeWait ∧ sp'.mask = sp.mask ∧ sp'.pc = sp.pc ∧
        Tab.find c'.joins j = some { r with sides := r.sides - 1 }) ∧
      (r.sides = 1 → Tab.sorted c.splits = true → ∀ lo q0,
        let waits := fun (i : Nat) (q : Split) => (i = k ∧ q = sp) ∨ (i ≠ k ∧ c.split? i = some q ∧ q.st = .mergeWait ∧ q.join = some j)
        waits lo q0 → (∀ i q, waits i q → lo ≤ i) →
        ∃ t c' sp', exec (.merge x k) s = .next t ∧ t = { s with crews := t.crews } ∧ t.crew? x = some c' ∧ Tab.find c'.joins j = none ∧
          c'.split? lo = some sp' ∧ sp'.st = .ready ∧ sp'.fmt = r.fmt ∧ sp'.join = r.parent ∧ sp'.pc = q0.pc ∧
          (∀ l, hasLane sp'.mask l = true ↔ ∃ i q, waits i q ∧ hasLane q.mask l = true) ∧
          (∀ i q, waits i q → q.clock ≤ sp'.clock ∧ (i ≠ lo → c'.split? i = none)) ∧ ∃ i q, waits i q ∧ sp'.clock = q.clock)) ∧
    (c.ready = true → s.teamRuns c = true → c.boosted = false → c.passed + 256 ≤ Tab.get 0 s.cycles (x / 8) →
      ∃ t, exec (.priorityBoost x) s = .next t ∧ t = { s with crews := t.crews } ∧ t.crew? x = some { c with boosted := true }))

/-- Floating-point redux and scan follow the tree and the ladder of R97, or some order. With F = 1, and for minimum and maximum, redux gives the
value of the balanced tree over all lane positions and scan that of the ladder, absent lanes passed over; with F = 0 a sum is the
combination of the contributing values in some order. An exclusive scan takes the value of the nearest lower contributing lane, the lowest
one the identity. In a D-class kernel the .ord form does so where no split is ahead. -/
def Obligations.FloatReductionResults : Prop :=
  ∀ (m : Mn) (f : Fields) (t : Ty) (s : State) (x k : Nat) (c : Crew) (sp : Split),
    m = .redux ∨ m = .scan → t.kind = .float → s.Executes m f x k c sp → Settled c sp → 8 ≤ c.wrows → c.width ∈ [32, 64, 128] →
    f.sel = .ty t → (f.f = true → s.dclass c = true → s.ordFirst k c sp = true) →
    Retires s (exec (m.instr f) s) x k c sp (FloatReduced m f t (runLanes s m f x k c sp) c sp)

/-- Near loads, stores and atomics enter the queues in issue order. Where every lane access of ld, st, ldb, stb, atom, atomf, cas or red lives
on this module and passes its checks by the context's tables, with which the translation units of its core agree, and the queues have room,
the instruction appends one entry with each lane's place, datum and expected value to the load queue (a load, or an atomic with a
destination) and to the store queue (a store or an atomic), and retires; an .ord form in a D-class kernel waits there until it has
performed. Nothing is stored yet: all memory is as before. An atomic with return that retires makes its team not relaunch-eligible. Where a
lane fails a check with another winning cause than not-present, the crew stops with the lowest cause. -/
def Obligations.MemoryOperationsEnterQueues : Prop :=
  ∀ (m : Mn) (f : Fields) (t : Ty) (s : State) (x k : Nat) (c : Crew) (sp : Split),
    m ∈ queuedMns → s.Executes m f x k c sp → Settled c sp → f.sel = .ty t → lowest (runLanes s m f x k c sp) c.width ≠ none →
    (m ∈ ordMns → f.f = true → s.dclass c = true → s.ordFirst k c sp = true) →
    (∀ home, s.UnitsAgree (coreUnits (x / 64)) c.ctx → LanesAtHome s m f t x k c sp home →
      (opFor m t f = none ∨ (opFor m t f ≠ some .store ∧ f.d.cls ≠ .none) → c.loadq.length < 16) →
      (opFor m t f ≠ none → c.storeq.length < 16) → EntersQueues s (exec (m.instr f) s) m f t x k c sp home) ∧
    (∀ fs cs u, LanesChecked s m f t x k c sp fs cs u → u.mem = s.mem ∧ u.crews = s.crews ∧
      (fs ≠ [] → winner fs ≠ 6 → Faults s (exec (m.instr f) s) x k c sp (winner fs)
        (faultLanes ((issueOf s m f x k c sp).spread fs))))

/-- An .ord operation of a D-class kernel waits until no split is ahead. An .ord redux, scan or atomic of a D-class kernel behind another split
in the order of R71 enters the blocked state with nothing done; its release, once no counting split is ahead, retires the reduction with its
result, or enters the atomic into the queues. -/
def Obligations.OrderedOperationsWait : Prop :=
  ∀ (m : Mn) (f : Fields) (t : Ty) (s : State) (x k : Nat) (c : Crew) (sp : Split), f.f = true → f.sel = .ty t → s.dclass c = true →
    (m = .redux ∨ m = .scan) ∧ t.kind = .float ∨ m ∈ ordMns →
    (s.Executes m f x k c sp → c.uncov = [] → sp.windows = [] → s.ordFirst k c sp = false →
      ∃ u, exec (m.instr f) s = .next u ∧ u = { s with crews := u.crews } ∧ (∀ y, y ≠ x → u.crew? y = s.crew? y) ∧
        u.crew? x = some (c.setSplit k { sp with st := .blocked, wait := .ord m f })) ∧
    (s.crew? x = some c → c.split? k = some sp → c.st = .running → sp.st = .blocked → sp.wait = .ord m f → Settled c sp →
      s.ordFirst k c sp = true →
      let sp0 := { sp with st := .ready, wait := .none }
      let c0 := c.setSplit k sp0
      let s0 := { s with crews := Tab.put s.crews x c0 }
      (m ∉ ordMns → 8 ≤ c.wrows → c.width ∈ [32, 64, 128] → Retires s0 (exec (.ordRelease x k) s) x k c0 sp0
        (FloatReduced m f t (runLanes s0 m f x k c0 sp0) c0 sp0)) ∧
      (m ∈ ordMns → ∀ home, s0.UnitsAgree (coreUnits (x / 64)) c.ctx → LanesAtHome s0 m f t x k c0 sp0 home →
        accLanes (issueOf s0 m f x k c0 sp0) ≠ [] → c.loadq.length < 16 → c.storeq.length < 16 →
        EntersQueues s0 (exec (.ordRelease x k) s) m f t x k c0 sp0 home))

/-- lds, sts and atoms act on scratch at once, lane by lane. Where every lane's scratch access passes the checks, no acquire or fence holds the
crew back and no gst of the same thread to one of its bytes is on its way: lds gives D the little-endian bytes of the team's scratch, sign- or zero-extended; sts stores each lane's datum, the last
lane winning a common byte; atoms performs its operation lane by lane in increasing lane order and gives D the old values. The split goes on
at the next instruction; home memory, every other team and, for lds, scratch itself are unchanged. -/
def Obligations.ScratchAccesses : Prop :=
  ∀ (f : Fields) (t : Ty) (s : State) (x k : Nat) (c : Crew) (sp : Split) (tm : Team), Settled c sp → 8 ≤ c.wrows → f.sel = .ty t →
    sp.wait = .none → Tab.sorted s.crews = true → Tab.sorted c.splits = true → s.team? c.team = some tm → c.heldBack s.seq = false →
    (s.Executes .lds f x k c sp → (∀ l ∈ lanesOf (runLanes s .lds f x k c sp) c.width,
        scratchPasses s x c tm (offsetFor f c sp true l) t.bytes true false none) →
      s.windowAhead c t.bytes ((lanesOf (runLanes s .lds f x k c sp) c.width).map fun l => (l, offsetFor f c sp true l)) = false →
      ∃ u c' sp' tm', exec (.lds f) s = .next u ∧ ScratchFrame s u x k c c' sp sp' tm tm' ∧ tm'.scratch = tm.scratch ∧
        (∀ y, y ≠ x → u.crew? y = s.crew? y) ∧
        TypedDest c c' sp f (runLanes s .lds f x k c sp) t fun l =>
          BitVec.ofNat t.bits (leNat ((List.range t.bytes).map fun j => Tab.get 0 tm.scratch (offsetFor f c sp true l + j)))) ∧
    (s.Executes .sts f x k c sp →
      let ls := accLanes (issueOf s .sts f x k c sp)
      let off := fun l => offsetFor f c sp true (evalLane l)
      (∀ l ∈ ls, scratchPasses s x c tm (off l) t.bytes false true none) → s.windowAhead c t.bytes (ls.map fun l => (l, off l)) = false →
      ∃ u c' sp' tm', exec (.sts f) s = .next u ∧ ScratchFrame s u x k c c' sp sp' tm tm' ∧ c'.v = c.v ∧ c'.s = c.s ∧ c'.p = c.p ∧
        ∀ a, Tab.get 0 tm'.scratch a = lastWritten t.bytes (ls.map fun l => (off l, operandVal c sp.wbase t true f.d (evalLane l)))
          (fun b => Tab.get 0 tm.scratch b) a) ∧
    (s.Executes .atoms f x k c sp → isHalf t = false →
      let ls := accLanes (issueOf s .atoms f x k c sp)
      let off := fun l => offsetFor f c sp false (evalLane l)
      let op := scratchOp (f.ext.toNat % 8)
      let r := atomsInTurn t op t.bytes (ls.map fun l => (l, off l, operandVal c sp.wbase t true f.b (evalLane l),
        operandVal c sp.wbase t true f.d (evalLane l))) fun b => Tab.get 0 tm.scratch b
      (∀ l ∈ ls, scratchPasses s x c tm (off l) t.bytes (decide (f.d.cls ≠ .none)) true (some (op, t))) →
      s.windowAhead c t.bytes (ls.map fun l => (l, off l)) = false →
      ∃ u c' sp' tm', exec (.atoms f) s = .next u ∧ ScratchFrame s u x k c c' sp sp' tm tm' ∧ (∀ a, Tab.get 0 tm'.scratch a = r.2 a) ∧
        TypedDest c c' sp f (runLanes s .atoms f x k c sp) t fun l =>
          BitVec.ofNat t.bits (((r.1.find? fun p => p.1 == l || p.1 == 128).map Prod.snd).getD 0))

/-- ldc, pref and qwait. ldc takes its lanes' bytes from the kernel's constant bank into a load-queue entry and retires, or stops with
misaligned or bounds; pref never faults and changes no register and no byte; qwait blocks its split while more than n loads are in the
queue, stops the crew with poison where a load it covers met an uncorrectable error, and otherwise retires and covers all but the n youngest
loads. -/
def Obligations.ConstantsPrefetchAndQwait : Prop :=
  ∀ (f : Fields) (s : State) (x k : Nat) (c : Crew) (sp : Split),
    (∀ t tm ob, f.sel = .ty t → s.Executes .ldc f x k c sp → Settled c sp → s.team? c.team = some tm → Tab.find s.objs tm.object = some ob →
      lowest (runLanes s .ldc f x k c sp) c.width ≠ none →
      let bank := ob.banks.getD tm.kernel []
      let ls := accLanes (issueOf s .ldc f x k c sp)
      let off := fun l => offsetFor f c sp true (evalLane l)
      ((∀ l ∈ ls, off l % t.bytes = 0 ∧ off l + t.bytes ≤ bank.length) → c.loadq.length < 16 → (∀ q ∈ c.loadq, q.id ≠ s.seq) →
        ∃ u c' sp' e, exec (.ldc f) s = .next u ∧
          u = { s with crews := u.crews, cycles := u.cycles, coloc := u.coloc, seq := s.seq + 1 } ∧ (∀ y, y ≠ x → u.crew? y = s.crew? y) ∧
          u.crew? x = some c' ∧ c'.v = c.v ∧ c'.s = c.s ∧ c'.p = c.p ∧ c'.split? k = some sp' ∧ sp'.pc = sp.pc + 12 ∧
          sp'.clock = sp.clock + 1 ∧ c'.loadq = c.loadq ++ [e] ∧ e.id = s.seq ∧ e.ty = t ∧ e.back = false ∧
          e.got = ls.map fun l => (l, leNat ((bank.drop (off l)).take t.bytes))) ∧
      ((∃ l ∈ ls, off l % t.bytes ≠ 0) → Faults s (exec (.ldc f) s) x k c sp 4 (faultLanes ((issueOf s .ldc f x k c sp).spread
        ((ls.filter fun l => decide (off l % t.bytes ≠ 0 ∨ bank.length < off l + t.bytes)).map fun l => { lane := l, cause := 4 })))) ∧
      ((∀ l ∈ ls, off l % t.bytes = 0) → (∃ l ∈ ls, bank.length < off l + t.bytes) → Faults s (exec (.ldc f) s) x k c sp 5
        (faultLanes ((issueOf s .ldc f x k c sp).spread
          ((ls.filter fun l => decide (bank.length < off l + t.bytes)).map fun l => { lane := l, cause := 5 }))))) ∧
    (s.Executes .pref f x k c sp → Settled c sp → ∃ u c' sp', exec (.pref f) s = .next u ∧
      u = { s with crews := u.crews, cycles := u.cycles, coloc := u.coloc, tlbs := u.tlbs, lines := u.lines, cores := u.cores,
                   mod := { s.mod with ptCache := u.mod.ptCache } } ∧ u.crew? x = some c' ∧ c'.split? k = some sp' ∧ sp'.pc = sp.pc + 12 ∧
      sp'.clock = sp.clock + 1 ∧ sp'.fmt = sp.fmt ∧ c'.v = c.v ∧ c'.s = c.s ∧ c'.p = c.p ∧ c'.lay = c.lay ∧
      ((∀ ln l, Tab.find s.lines ln = some l → l.excl = none) → RetiredAt c c' k sp sp' (sp.pc + 12) ∧ ∀ y, y ≠ x → u.crew? y = s.crew? y) ∧
      ∀ y d, s.crew? y = some d → ∃ d', u.crew? y = some d' ∧ (y ≠ x → d' = { d with storeq := d'.storeq }) ∧
        d'.storeq.map (fun q => q.id) = d.storeq.map fun q => q.id) ∧
    (∀ v, f.a = .i v → s.Executes .qwait f x k c sp →
      let run := runLanes s .qwait f x k c sp
      let cov := c.uncov.take (c.uncov.length - v.toNat)
      let bad := (cov.filter fun u => u.poison != 0).foldl (fun (a : Lanes) u => a ||| u.poison) 0
      (run = 0 → ∃ u c' sp', exec (.qwait f) s = .next u ∧ OnlyCrew s u x ∧ u.crew? x = some c' ∧ RetiredAt c c' k sp sp' (sp.pc + 12) ∧
        c'.v = c.v ∧ c'.s = c.s ∧ c'.p = c.p) ∧
      (run ≠ 0 → v.toNat < c.loadq.length → ∃ u c' sp', exec (.qwait f) s = .next u ∧ OnlyCrew s u x ∧ u.crew? x = some c' ∧
        c'.split? k = some sp' ∧ sp'.st = .blocked ∧ sp'.wait = .qwait v.toNat ∧ sp'.pc = sp.pc ∧ sp'.clock = sp.clock ∧ sp'.fmt = sp.fmt ∧
        c'.v = c.v ∧ c'.s = c.s ∧ c'.p = c.p ∧ c'.loadq = c.loadq) ∧
      (run ≠ 0 → c.loadq.length ≤ v.toNat → (∀ u ∈ cov, u.poison = 0) → ∃ u c' sp', exec (.qwait f) s = .next u ∧ OnlyCrew s u x ∧
        u.crew? x = some c' ∧ RetiredAt c c' k sp sp' (sp.pc + 12) ∧ sp'.fmt = sp.fmt ∧ c'.v = c.v ∧ c'.s = c.s ∧ c'.p = c.p ∧
        (∀ w ∈ cov, ∀ w' ∈ c'.uncov, w'.id ≠ w.id) ∧ ∀ w ∈ c.uncov, (∀ w' ∈ cov, w'.id ≠ w.id) → ∃ w' ∈ c'.uncov, w'.id = w.id) ∧
      (run ≠ 0 → c.loadq.length ≤ v.toNat → lowest bad c.width ≠ none → Faults s (exec (.qwait f) s) x k c sp 18 bad))

/-- Loads return, and stores and atomics perform at their homes. A load at the head of its queue that is due, with no copy of its lines and no
held store in its core, gives its destination the home bytes, sign- or zero-extended, and leaves the queue; memory stays. A line of a store
entry that is due performs: each byte of home memory becomes what the last lane that covers it stored, every other byte stays; an atomic
entry performs lane by lane and hands the old values to its load entry; with its last line, one with return leaves its team not
relaunch-eligible. An acknowledgement raises GMOD and GFAB to the entry's completion
times. An expired copy is dropped, and an exclusive lease that ends is gone, with no byte changed. -/
def Obligations.QueuedOperationsPerform : Prop :=
  ∀ (s : State) (x : Nat) (c : Crew), s.crew? x = some c →
    (∀ e rest, c.loadq = e :: rest → c.st = .running → e.atomic = false → e.poison = 0 → e.got = [] → loadReady s x c e = true →
      (∀ q ∈ e.lanes, q.lane < 128 ∧ ∃ a, q.loc = .home a ∧ a % 64 + accBytes e.ty ≤ 64 ∧ s.poisoned a (accBytes e.ty) = false) →
      (∀ ln ∈ homeLines e.lanes, ∀ core end_, (s.lineAt ln).excl = some (core, end_) → s.now < end_) →
      (e.lanes.map fun q => q.lane).Nodup → nothingHeld s (x / 64) (homeLines e.lanes) → (∀ q ∈ rest, q.back = false ∧ q.id ≠ e.id) →
      (∀ w ∈ c.uncov, w.poison = 0 ∧ (w.id = e.id → w.wrote = [])) →
      let val := fun a => leNat ((List.range (accBytes e.ty)).map fun j => s.byte (a + j))
      let reg := fun m a => if isHalf e.ty then val a % 2 ^ 32 else filled e.ty m (BitVec.ofNat e.ty.bits (val a))
      ∃ u c', exec (.loadReturn x e.id) s = .next u ∧ u = { s with crews := u.crews, lines := u.lines, cores := u.cores } ∧
        (∀ y, y ≠ x → u.crew? y = s.crew? y) ∧ u.crew? x = some c' ∧ c'.loadq = rest ∧ c'.st = .running ∧ c'.p = c.p ∧
        (match e.dest with
          | .rows r n => c'.s = c.s ∧ (n ≤ c.wrows → ∀ q ∈ e.lanes, ∀ a, q.loc = .home a → ∀ j, j < n →
              (c'.row ((r + j) % c.wrows) q.lane).toNat = reg (32 * n) a / 2 ^ (32 * j) % 2 ^ 32) ∧
              ∀ row l, l < 128 → ((∀ j, j < n → row ≠ (r + j) % c.wrows) ∨ ∀ q ∈ e.lanes, q.lane ≠ l) → c'.row row l = c.row row l
          | .uni n => c'.v = c.v ∧ (n ≠ 0 → ∀ q a, e.lanes = [q] → q.loc = .home a → (c'.uni n).toNat = reg 64 a) ∧
              ∀ n', n' ≠ n → c'.uni n' = c.uni n'
          | .none => c'.v = c.v ∧ c'.s = c.s)) ∧
    (∀ e ln, c.storeq.find? (fun q => q.id == e.id) = some e → storeReady s x c e ln = true →
      (∀ q ∈ homeAccs e.lanes ln, q.2.1 % 64 + accBytes e.ty ≤ 64) → (∀ core end_, (s.lineAt ln).excl = some (core, end_) → s.now < end_) →
      let accs := homeAccs e.lanes ln
      let n := accBytes e.ty
      let r := atomsInTurn e.ty e.op n accs s.byte
      ∃ u c' e', exec (.storePerform x e.id ln) s = .next u ∧
        u = { s with crews := u.crews, mem := u.mem, poison := u.poison, wlog := u.wlog, lines := u.lines, cores := u.cores
                     teams := if e.ret = true ∧ e.left.filter (fun m => m != ln) = [] then (match s.team? c.team with
                       | some tm => Tab.put s.teams c.team { tm with relaunchOk := false }
                       | none => s.teams) else s.teams } ∧
        (∀ y, y ≠ x → u.crew? y = s.crew? y) ∧ u.crew? x = some c' ∧ c'.v = c.v ∧ c'.s = c.s ∧ c'.p = c.p ∧
        (∀ a, u.byte a = if e.op = .store then lastWritten n (accs.map fun q => (q.2.1, q.2.2.1)) s.byte a else r.2 a) ∧
        c'.storeq.find? (fun q => q.id == e.id) = some e' ∧ e'.left = e.left.filter (fun m => m != ln) ∧
        (e.op ≠ .store → e.ret = true → ∀ q ∈ c.loadq, q.id = e.id → ∃ q' ∈ c'.loadq, q'.id = e.id ∧ q'.got = q.got ++ r.1)) ∧
    (∀ e, c.storeq.find? (fun q => q.id == e.id) = some e → e.left = [] → e.near = true → e.acked = false →
      e.leased s (x / 64) = false → s.undecided e.id = false →
      ∃ u c', exec (.storeAck x e.id none) s = .next u ∧ u = { s with crews := u.crews } ∧ (∀ y, y ≠ x → u.crew? y = s.crew? y) ∧
        u.crew? x = some c' ∧ c' = { c with gmod := max c.gmod e.gwctMod, gfab := max c.gfab e.gwctFab, storeq := c'.storeq } ∧
        ∀ q ∈ c'.storeq, q.id = e.id → q.acked = true) ∧
    (∀ core ln cp, Tab.find (s.coreOf core).copies ln = some cp → cp.expiry ≤ s.now →
      ∃ u, exec (.leaseExpiry core ln) s = .next u ∧ u = { s with cores := u.cores } ∧
        u.coreOf core = { s.coreOf core with copies := Tab.del (s.coreOf core).copies ln } ∧ ∀ j, j ≠ core → u.coreOf j = s.coreOf j) ∧
    (∀ core ln e, (s.lineAt ln).excl = some (core, e) → ∃ u, exec (.exclusiveLeaseEnd core ln) s = .next u ∧
      u = { s with lines := u.lines, crews := u.crews } ∧ u.lineAt ln = { s.lineAt ln with excl := none } ∧
      ∀ j, j ≠ ln → u.lineAt j = s.lineAt j)

/-- fence waits for what its scope names, then goes on. A fence with no lane taking effect or of scope .crew only retires. Where what its scope
names has happened it retires, and from .die on its crew uses no copy granted before; otherwise it enters the blocked state and holds the
crew's later accesses back, and its completion, once all this has happened, lets it go on with the clock of an instruction and frees later
accesses. Memory, registers and every other crew stay. Chosen: that an unfinished fence blocks its split (log 4). -/
def Obligations.FencesWaitForTheirScope : Prop :=
  ∀ (f : Fields) (s : State) (x k : Nat) (c : Crew) (sp : Split) (tm : Team), s.team? c.team = some tm →
    (s.Executes .fence f x k c sp →
      let n := scopeNo tm (f.ext.toNat % 8)
      ((runLanes s .fence f x k c sp = 0 ∨ n = 0) → ∃ u c' sp', Onward (exec (.fence f) s) u x k c c' sp sp' ∧ OnlyCrew s u x ∧
        sp'.clock = sp.clock + 1 ∧ c'.minGrant = c.minGrant ∧ c'.order = c.order) ∧
      (runLanes s .fence f x k c sp ≠ 0 → n ≠ 0 → fenceDone s x c n s.seq → ∃ u c' sp', Onward (exec (.fence f) s) u x k c c' sp sp' ∧
        OnlyCrew s u x ∧ sp'.clock = sp.clock + 1 ∧ c'.minGrant = (if 3 ≤ n then max c.minGrant s.now else c.minGrant) ∧ c'.order = c.order) ∧
      (runLanes s .fence f x k c sp ≠ 0 → n ≠ 0 → ¬ fenceDone s x c n s.seq → ∃ u c' sp',
        Blocks (exec (.fence f) s) u x k c c' sp sp' (.fence s.seq n s.now) ∧ c'.order = c.order ++ [s.seq] ∧
        u = { s with crews := u.crews, cycles := u.cycles, coloc := u.coloc, seq := s.seq + 1 } ∧ ∀ y, y ≠ x → u.crew? y = s.crew? y)) ∧
    (∀ id n start, s.crew? x = some c → c.split? k = some sp → c.st = .running → sp.wait = .fence id n start → fenceDone s x c n id →
      ∃ u c' sp', Onward (exec (.fenceComplete x k) s) u x k c c' sp sp' ∧ sp'.clock = sp.clock + 1 ∧
        c'.minGrant = (if 3 ≤ n then max c.minGrant start else c.minGrant) ∧ c'.order = c.order.filter (fun j => j != id) ∧
        u = { s with crews := u.crews } ∧ ∀ y, y ≠ x → u.crew? y = s.crew? y)

/-- bar blocks its split until every crew of the team has arrived. bar raises illegal-operand for a barrier above 15 or an empty mask and mask-
disagreement where its lanes and its mask or another split's disagree. Otherwise its split blocks; when all lanes of the mask that have not
exited have executed it, the crew arrives, and with the last crew of the team that has not exited every waiting split goes on with the
largest clock, the barrier free again. Scratch, memory and registers stay. -/
def Obligations.TeamBarriers : Prop :=
  ∀ (f : Fields) (s : State) (x k : Nat) (c : Crew) (sp : Split) (tm : Team), s.Executes .bar f x k c sp → Settled c sp →
    Tab.sorted s.crews = true → Tab.sorted c.splits = true → s.team? c.team = some tm → lowest (runLanes s .bar f x k c sp) c.width ≠ none →
    let run := runLanes s .bar f x k c sp
    let b := operand64 c f.a
    let m := members c f
    let before := arrivedBefore c (.bar b)
    let clk := max before.2 (sp.clock + 1)
    let old := (Tab.find tm.bars b).getD { crews := [], clock := 0, vc := [] }
    let last := ∀ y d, s.crew? y = some d → d.team = c.team → d.st ≠ .draining → y = x ∨ y ∈ old.crews
    let o := exec (.bar f) s
    (15 < b ∨ m = 0 → Faults s o x k c sp 3 run) ∧
    (b ≤ 15 → m ≠ 0 → ¬ agrees tm c k sp run m (.bar b) 0 → Faults s o x k c sp 15 run) ∧
    (b ≤ 15 → m ≠ 0 → agrees tm c k sp run m (.bar b) 0 → fenceDone s x c (scopeNo tm 1) s.seq →
      (m &&& ~~~c.exited &&& ~~~(before.1 ||| run) ≠ 0 → ∃ u c' sp', Blocks o u x k c c' sp sp' (.bar b) ∧ OnlyCrew s u x ∧
        ∃ a ∈ c'.arriving, a.what = .bar b ∧ a.mask = m ∧ a.lanes = before.1 ||| run ∧ a.clock = clk) ∧
      (m &&& ~~~c.exited &&& ~~~(before.1 ||| run) = 0 → ¬ last → ∃ u c' sp' tm' bs, Blocks o u x k c c' sp sp' (.bar b) ∧
        u = { s with crews := u.crews, cycles := u.cycles, coloc := u.coloc, teams := u.teams } ∧ u.team? c.team = some tm' ∧
        tm' = { tm with bars := tm'.bars } ∧ Tab.find tm'.bars b = some bs ∧ bs.crews = old.crews ++ [x] ∧ bs.clock = max old.clock clk ∧
        ∀ y, y ≠ x → u.crew? y = s.crew? y) ∧
      (m &&& ~~~c.exited &&& ~~~(before.1 ||| run) = 0 → last → ∃ u c' sp' tm', Onward o u x k c c' sp sp' ∧
        u = { s with crews := u.crews, cycles := u.cycles, coloc := u.coloc, teams := u.teams } ∧ u.team? c.team = some tm' ∧
        tm' = { tm with bars := tm'.bars } ∧ Tab.find tm'.bars b = none ∧ sp'.clock = max (sp.clock + 1) (max old.clock clk) ∧
        ∀ y ∈ old.crews, y ≠ x → Released s u y (.bar b) (max old.clock clk)))

/-- Knots: initialisation, arrivals, phases, waits and release. knotinit makes a knot with its arrival count, phase 0, and raises illegal-
operand for a count outside 1 to 2^24 - 1 and knot for an active one; knotfree makes it plain bytes again, and raises knot where it is
inactive or a crew is parked on it. An arrival adds one and its bytes; the arrival that completes the phase with no debt flips it, clears
the count and releases the waits for that phase of every crew whose mask has wholly executed its wait; an arrival at a full phase waits. knotwait goes on at once where the phase is not the one
it waits for, else blocks. Every other scratch byte, home memory and registers stay. Chosen: the low 32 bits of a class-s count (log 53). -/
def Obligations.KnotsCountArrivals : Prop :=
  ∀ (f : Fields) (s : State) (x k : Nat) (c : Crew) (sp : Split) (tm : Team), Settled c sp → Tab.sorted s.crews = true →
    Tab.sorted c.splits = true → sp.wait = .none → s.team? c.team = some tm → c.heldBack s.seq = false →
    let off := operand32 c sp.wbase f.a 0
    let kn := tm.knot off
    let same := fun (u : State) (tm' : Team) => u = { s with crews := u.crews, cycles := u.cycles, coloc := u.coloc, teams := u.teams } ∧
      u.team? c.team = some tm' ∧ (∀ n, n ≠ c.team → u.team? n = s.team? n) ∧ ∀ a, a < off ∨ off + 16 ≤ a → Tab.get 0 tm'.scratch a = Tab.get 0 tm.scratch a
    (s.Executes .knotinit f x k c sp → lowest (runLanes s .knotinit f x k c sp) c.width ≠ none →
      let n := operand32 c sp.wbase f.b 0
      let o := exec (.knotinit f) s
      (n = 0 ∨ 2 ^ 24 ≤ n → Faults s o x k c sp 3 (runLanes s .knotinit f x k c sp)) ∧
      (0 < n → n < 2 ^ 24 → knotPlace s x c tm off → tm.active off = true → Faults s o x k c sp 12 (runLanes s .knotinit f x k c sp)) ∧
      (0 < n → n < 2 ^ 24 → knotPlace s x c tm off → tm.active off = false → ∃ u c' sp' tm', Onward o u x k c c' sp sp' ∧ same u tm' ∧
        sp'.clock = sp.clock + 1 ∧ tm'.active off = true ∧
        tm'.knot off = { expect := n, arrived := 0, debt := 0, phase := false, guard := 0x4B4E })) ∧
    (s.Executes .knotfree f x k c sp → lowest (runLanes s .knotfree f x k c sp) c.width ≠ none → knotPlace s x c tm off →
      let o := exec (.knotfree f) s
      let parked := ∃ y d j q, s.crew? y = some d ∧ d.team = c.team ∧ d.split? j = some q ∧ (q.wait = .knotArrive off ∨ ∃ b, q.wait = .knot off b)
      (tm.active off = false ∨ parked → Faults s o x k c sp 12 (runLanes s .knotfree f x k c sp)) ∧
      (tm.active off = true → (∀ e ∈ s.crews, e.2.team = c.team → ∀ q ∈ e.2.splits, q.2.wait ≠ .knotArrive off ∧ ∀ b, q.2.wait ≠ .knot off b) →
        ∃ u c' sp' tm', Onward o u x k c c' sp sp' ∧ same u tm' ∧ sp'.clock = sp.clock + 1 ∧ tm'.active off = false ∧
          tm'.knot off = { kn with guard := 0 })) ∧
    (s.Executes .knotarr f x k c sp → lowest (runLanes s .knotarr f x k c sp) c.width ≠ none → knotPlace s x c tm off →
      let o := exec (.knotarr f) s
      let run := runLanes s .knotarr f x k c sp
      let m := members c f
      let n := match f.d with | .none => 0 | d => operand32 c sp.wbase d 0
      let before := arrivedBefore c (.knotArrive off)
      let debt := (kn.debt + n) % 2 ^ 32
      m ≠ 0 → (tm.active off = false → Faults s o x k c sp 12 run) ∧
      (tm.active off = true → ¬ agrees tm c k sp run m (.knotArrive off) n → Faults s o x k c sp 15 run) ∧
      (tm.active off = true → agrees tm c k sp run m (.knotArrive off) n →
        (m &&& ~~~c.exited &&& ~~~(before.1 ||| run) ≠ 0 → ∃ u c' sp', Blocks o u x k c c' sp sp' (.knotArrive off) ∧ OnlyCrew s u x) ∧
        (m &&& ~~~c.exited &&& ~~~(before.1 ||| run) = 0 → kn.expect ≤ kn.arrived → ∃ u c' sp' tm', Blocks o u x k c c' sp sp' (.knotArrive off) ∧
          same u tm' ∧ tm'.knot off = kn ∧ (tm'.knotSt off).waiting.map Prod.fst = (tm.knotSt off).waiting.map Prod.fst ++ [x]) ∧
        (m &&& ~~~c.exited &&& ~~~(before.1 ||| run) = 0 → kn.arrived < kn.expect → ¬ (kn.arrived + 1 = kn.expect ∧ debt = 0) →
          ∃ u c' sp' tm', Onward o u x k c c' sp sp' ∧ same u tm' ∧ sp'.clock = sp.clock + 1 ∧
            tm'.knot off = { kn with arrived := kn.arrived + 1, debt := debt }) ∧
        (m &&& ~~~c.exited &&& ~~~(before.1 ||| run) = 0 → kn.arrived + 1 = kn.expect → debt = 0 → (tm.knotSt off).waiting = [] →
          ∃ u c' sp' tm' clk, Onward o u x k c c' sp sp' ∧ same u tm' ∧
            tm'.knot off = { kn with arrived := 0, debt := 0, phase := !kn.phase } ∧
            ∀ y d, y ≠ x → s.crew? y = some d → d.team = c.team → (∀ a ∈ d.arriving, a.what = .knot off kn.phase → a.done = true) →
              Released s u y (.knot off kn.phase) clk))) ∧
    (s.Executes .knotwait f x k c sp → lowest (runLanes s .knotwait f x k c sp) c.width ≠ none → knotPlace s x c tm off →
      let o := exec (.knotwait f) s
      let run := runLanes s .knotwait f x k c sp
      let m := members c f
      let q := operand32 c sp.wbase f.d 0 % 2 == 1
      let before := arrivedBefore c (.knot off q)
      m ≠ 0 → (tm.active off = false → Faults s o x k c sp 12 run) ∧
      (tm.active off = true → ¬ agrees tm c k sp run m (.knot off q) 0 → Faults s o x k c sp 15 run) ∧
      (tm.active off = true → agrees tm c k sp run m (.knot off q) 0 → fenceDone s x c (scopeNo tm 1) s.seq →
        (kn.phase ≠ q → m &&& ~~~c.exited &&& ~~~(before.1 ||| run) = 0 → ∃ u c' sp', Onward o u x k c c' sp sp' ∧ OnlyCrew s u x ∧
          sp'.clock = max (sp.clock + 1) (tm.knotSt off).lastClock) ∧
        (kn.phase = q ∨ m &&& ~~~c.exited &&& ~~~(before.1 ||| run) ≠ 0 → ∃ u c' sp', Blocks o u x k c c' sp sp' (.knot off q) ∧ OnlyCrew s u x)))

/-- flagsig signals a word; cwait and flagwait wait for one. flagsig enters a release store, or an atomic add, of a 32-bit word into the store
queue and retires. cwait and flagwait on a word of this module or of scratch go on where the word satisfies the condition, with a clock
above their own; otherwise they enter the blocked state, and a re-read, which translates the address again, that finds the condition true
lets them go on. The waits change no byte of memory, no register and no other crew. Chosen: the values awaited are read at 32 bits (log 53),
the stored bytes are compared though they be poisoned (log 54), and a re-read translates its address anew (log 55). -/
def Obligations.FlagsAndCountedWaits : Prop :=
  ∀ (f : Fields) (s : State) (x k : Nat) (c : Crew) (sp : Split) (tm : Team), s.team? c.team = some tm →
    (s.Executes .flagsig f x k c sp → Settled c sp → lowest (runLanes s .flagsig f x k c sp) c.width ≠ none →
      let i := issueOf s .flagsig f x k c sp
      let ea := addressFor .atom f c sp 0
      let add := decide (f.ext.toNat / 8 % 2 = 1)
      (∀ h, s.UnitsAgree (coreUnits (x / 64)) c.ctx → s.HomeAccess x c (flagKind add) ea h → c.storeq.length < 16 →
        ∃ v c' sp' e, Onward (exec (.flagsig f) s) v x k c c' sp sp' ∧
          v = { s with crews := v.crews, cycles := v.cycles, coloc := v.coloc, tlbs := v.tlbs, tracks := v.tracks, seq := s.seq + 1
                       teams := Tab.put s.teams c.team { tm with relaunchOk := false } } ∧ (∀ y, y ≠ x → v.crew? y = s.crew? y) ∧
          sp'.clock = sp.clock + 1 ∧ c'.storeq = c.storeq ++ [e] ∧ e.id = s.seq ∧ e.op = (if add then .add else .store) ∧ accBytes e.ty = 4 ∧
          e.scope = f.ext.toNat % 8 ∧ (e.release = true ↔ f.ext.toNat % 8 ≠ 0) ∧ e.home = add ∧ e.left = [h / 64] ∧
          e.lanes = [{ lane := 128, loc := .home h, data := operand32 c sp.wbase f.b 0, expect := 0 }]) ∧
      (∀ fs cs (g : Go s), checkAll (lookPages (Go.start s) (x / 64) c.ctx 4 [ea]) (fun g _ => checkVirt g i (flagKind add) 128 ea) [128]
          = ((fs, cs), g) → fs ≠ [] → winner fs ≠ 6 →
        Faults s (exec (.flagsig f) s) x k c sp (winner fs) (runLanes s .flagsig f x k c sp))) ∧
    (∀ m a cond, m = .cwait ∧ f.ext.toNat / 8 % 2 = 0 ∧ cond = .ge ∨ m = .flagwait ∧ cond = [FlagCond.eq, .ne, .ge].getD (f.ext.toNat / 8) .lt →
      s.Executes m f x k c sp → Settled c sp → lowest (runLanes s m f x k c sp) c.width ≠ none →
      let ea := addressFor .atom f c sp 0
      s.UnitsAgree (coreUnits (x / 64)) c.ctx → s.HomeAccess x c wordRead ea a → c.heldBack s.seq = false →
      s.heldLine (a / 64) (x / 64) = false → c.ownPending a = false →
      let v := leNat ((List.range 4).map fun j => s.byte (a / 4 * 4 + j))
      let b := operand32 c sp.wbase f.b 0
      let same := fun w : State => w = { s with crews := w.crews, cycles := w.cycles, coloc := w.coloc, tlbs := w.tlbs } ∧
        (∀ y, y ≠ x → w.crew? y = s.crew? y)
      (condHolds cond v b → ∃ w c' sp', Onward (exec (m.instr f) s) w x k c c' sp sp' ∧ sp.clock + 1 ≤ sp'.clock ∧ same w) ∧
      (¬ condHolds cond v b → ∃ w c' sp', Blocks (exec (m.instr f) s) w x k c c' sp sp' (.word cond (.home a) ea b (f.ext.toNat % 8)) ∧
        same w)) ∧
    (s.Executes .cwait f x k c sp → Settled c sp → lowest (runLanes s .cwait f x k c sp) c.width ≠ none → f.ext.toNat / 8 % 2 = 1 →
      let off := operand32 c sp.wbase f.a 0
      off % 4 = 0 → off + 4 ≤ tm.scratchSize → s.rangeClash (x / 64) false c.ctx c.team off 4 false = false → c.heldBack s.seq = false →
      s.windowAhead c 4 [(128, off)] = false →
      let b := operand32 c sp.wbase f.b 0
      (b ≤ tm.word (off / 4) → ∃ w c' sp', Onward (exec (.cwait f) s) w x k c c' sp sp' ∧ sp.clock + 1 ≤ sp'.clock ∧ OnlyCrew s w x) ∧
      (tm.word (off / 4) < b → ∃ w c' sp', Blocks (exec (.cwait f) s) w x k c c' sp sp' (.word .ge (.scratch c.team off) 0 b (f.ext.toNat % 8)) ∧
        OnlyCrew s w x)) ∧
    (∀ cond a a' ea b n, s.crew? x = some c → c.split? k = some sp → c.st = .running → sp.st = .blocked → sp.wait = .word cond (.home a) ea b n →
      s.UnitsAgree (coreUnits (x / 64)) c.ctx → s.HomeAt c.ctx ea 4 false (s.dclass c) a' →
      s.heldLine (a' / 64) (x / 64) = false → c.ownPending a' = false →
      let v := leNat ((List.range 4).map fun j => s.byte (a' / 4 * 4 + j))
      let same := fun w : State => w = { s with crews := w.crews, tlbs := w.tlbs } ∧ (∀ y, y ≠ x → w.crew? y = s.crew? y)
      (condHolds cond v b → ∃ w c' sp', Onward (exec (.waitReread x k) s) w x k c c' sp sp' ∧ sp.clock + 1 ≤ sp'.clock ∧ same w) ∧
      (¬ condHolds cond v b → ∃ w, exec (.waitReread x k) s = .next w ∧ same w ∧
        w.crew? x = some (c.setSplit k { sp with wait := .word cond (.home a') ea b n })))

/-- copy, copyg and kick hand their transfers to the copy engine and retire. copy of 0 bytes only retires; a length above 2^24 or meeting ranges
raise illegal-operand. Where both ranges pass their checks and the engine and the lock tables have room, copy gives the core's engine one
operation over the two ranges, registers a source and a destination lock on every core of the team, and retires with no byte moved; copyg
does so with one row of 2^Z bytes per lane that takes effect, from A plus index times the row to D plus lane times the row; kick registers
one operation and two locks for every element of its request list, each counting on the list's knot. -/
def Obligations.CopiesStart : Prop :=
  ∀ (f : Fields) (s : State) (x k : Nat) (c : Crew) (sp : Split) (tm : Team), Settled c sp → s.team? c.team = some tm →
    let dscr := f.ext.toNat % 2 == 1
    let sscr := f.ext.toNat / 2 % 2 == 1
    let n := operand32 c sp.wbase f.b 0
    let src := copyAddress c f.a sscr
    let dst := copyAddress c f.d dscr
    (s.Executes .copy f x k c sp → lowest (runLanes s .copy f x k c sp) c.width ≠ none →
      let i := issueOf s .copy f x k c sp
      let o := exec (.copy f) s
      (n = 0 → ∃ u c' sp', Onward o u x k c c' sp sp' ∧ OnlyCrew s u x ∧ sp'.clock = sp.clock + 1) ∧
      (2 ^ 24 < n ∨ n ≠ 0 ∧ rangesMeet sscr dscr src dst n n = true → Faults s o x k c sp 3 (runLanes s .copy f x k c sp)) ∧
      (0 < n → n ≤ 2 ^ 24 → rangesMeet sscr dscr src dst n n = false → s.UnitsAgree (coreUnits (x / 64)) c.ctx → ∀ ps pd : Pieces,
        s.CopyRange c tm sscr src n false ps → s.CopyRange c tm dscr dst n true pd → copyFree s x c tm 2 →
          CopyStarted o s x k c sp tm [{ src := ps, dst := pd, sbase := src, dbase := dst, len := n }]
            [copyLock false sscr c.team src n s.seq, copyLock true dscr c.team dst n s.seq]) ∧
      (0 < n → n ≤ 2 ^ 24 → rangesMeet sscr dscr src dst n n = false → ∀ (ps pd : Pieces) (g2 : Go s),
        checkPair (Go.start s) i sscr dscr src dst n = (([], ps, pd), g2) → copyFree g2.st x c tm 2 → g2.st.mem = s.mem ∧ g2.st.crews = s.crews ∧
          CopyStarted o g2.st x k c sp tm [{ src := ps, dst := pd, sbase := src, dbase := dst, len := n }]
            [copyLock false sscr c.team src n g2.st.seq, copyLock true dscr c.team dst n g2.st.seq])) ∧
    (s.Executes .copyg f x k c sp → lowest (runLanes s .copyg f x k c sp) c.width ≠ none →
      let i := issueOf s .copyg f x k c sp
      let ls := lanesOf (runLanes s .copyg f x k c sp) c.width
      let z := 2 ^ (match f.sel with | .var v => v.toNat | .ty _ => 0)
      let from_ := fun l => (src + operand32 c sp.wbase f.b l * z) % 2 ^ (if sscr then 32 else 64)
      let to_ := fun l => if dscr then dst + l * z else (dst + l * z) % 2 ^ 64
      src % min z 16 = 0 → dst % min z 16 = 0 → ∀ lo hi, lo ∈ ls.map from_ → hi ∈ ls.map from_ → (∀ l ∈ ls, lo ≤ from_ l ∧ from_ l ≤ hi) →
        rangesMeet sscr dscr lo dst (hi + z - lo) (c.width * z) = false →
        (s.UnitsAgree (coreUnits (x / 64)) c.ctx → copyFree s x c tm 2 → ∀ ps pd : Nat → Pieces,
          (∀ l ∈ ls, s.CopyRange c tm sscr (from_ l) z false (ps l) ∧ s.CopyRange c tm dscr (to_ l) z true (pd l)) →
          CopyStarted (exec (.copyg f) s) s x k c sp tm
            (ls.map fun l => { src := ps l, dst := pd l, sbase := from_ l, dbase := to_ l, len := z })
            [copyLock false sscr c.team lo (hi + z - lo) s.seq, copyLock true dscr c.team dst (c.width * z) s.seq]) ∧
        ∀ (segs : List EngSeg) (g : Go s), gatherRows (Go.start s) i sscr dscr z ls = (([], segs), g) → copyFree g.st x c tm 2 →
          g.st.mem = s.mem ∧ g.st.crews = s.crews ∧
          segs.map (fun e => (e.sbase, e.dbase, e.len)) = ls.map (fun l => (from_ l, to_ l, z)) ∧
          CopyStarted (exec (.copyg f) s) g.st x k c sp tm segs [copyLock false sscr c.team lo (hi + z - lo) g.st.seq,
            copyLock true dscr c.team dst (c.width * z) g.st.seq]) ∧
    (s.Executes .kick f x k c sp → lowest (runLanes s .kick f x k c sp) c.width ≠ none →
      let i := issueOf s .kick f x k c sp
      let off := operand64 c f.a % 2 ^ 32
      let h := leNat (tm.bytesAt off 16)
      let m := h / 2 ^ 48 % 2 ^ 5
      let kn := h % 2 ^ 23
      let elem := fun j => listElem (leNat (tm.bytesAt (off + 16 + 32 * j) 32))
      h / 2 ^ 53 = 0 → h / 2 ^ 23 % 2 ^ 25 = 0 → 0 < m → m ≤ 16 → off % 16 = 0 → off + 16 + 32 * m ≤ tm.scratchSize →
      (∀ j, j ≤ 2 * m → scratchPasses s x c tm (off + 16 * j) 16 true false none) → kn % 16 = 0 → tm.active kn = true →
      c.heldBack s.seq = false → (s.coreOf (x / 64)).lists.length < 64 → (∀ n ∈ tm.cores, (s.coreOf n).ranges.length + 2 * m ≤ 32) →
      tm.cores.Nodup → x / 64 < 640 →
      let next := s.seq + (if s.dclass c = true then 2 else 1)
      let starts := fun (v : State) (segs : List EngSeg) => Tab.find (v.coreOf (x / 64)).lists s.seq = some m ∧
        (∀ j seg, segs[j]? = some seg → ∃ e, Tab.find (v.coreOf (x / 64)).ops (next + j) = some e ∧ e.segs = [seg] ∧
          e.list = some s.seq ∧ e.knot = some kn ∧ e.inst = c.inst ∧ e.clock = sp.clock + 1) ∧
        ∀ n ∈ tm.cores, (v.coreOf n).ranges.length = (s.coreOf n).ranges.length + 2 * m
      (s.UnitsAgree (coreUnits (x / 64)) c.ctx → ∀ ps pd : Nat → Pieces,
        (∀ j, j < m → let e := elem j
          e.resv = 0 ∧ 0 < e.len ∧ e.len ≤ 2 ^ 24 ∧ rangesMeet e.sscr e.dscr e.src e.dst e.len e.len = false ∧
          s.CopyRange c tm e.sscr e.src e.len false (ps j) ∧ s.CopyRange c tm e.dscr e.dst e.len true (pd j)) →
        ∃ v c' sp' tm', Onward (exec (.kick f) s) v x k c c' sp sp' ∧ sp'.clock = sp.clock + 1 ∧
          v = { s with crews := v.crews, cycles := v.cycles, coloc := v.coloc, cores := v.cores, tlbs := v.tlbs, teams := v.teams
                       seq := next + m } ∧ (∀ y, y ≠ x → v.crew? y = s.crew? y) ∧ (∀ n, n ≠ c.team → v.team? n = s.team? n) ∧
          v.team? c.team = some tm' ∧ tm' = { tm with tracks := tm'.tracks } ∧
          starts v ((List.range m).map fun j =>
            { src := ps j, dst := pd j, sbase := (elem j).src, dbase := (elem j).dst, len := (elem j).len })) ∧
      ∀ (segs : List (ListElem × EngSeg)) (g : Go s), kickElems (Go.start s) i ((List.range m).map elem) = (([], segs), g) →
        ∃ v c' sp', Onward (exec (.kick f) s) v x k c c' sp sp' ∧ sp'.clock = sp.clock + 1 ∧ v.mem = s.mem ∧
          (∀ y, y ≠ x → v.crew? y = s.crew? y) ∧ v.seq = next + m ∧ starts v (segs.map Prod.snd))

/-- batch closes the open batch, bwait waits for one, and a batch completes. batch numbers and closes the crew's open batch: D takes the new
count of closed batches, and the batch keeps the operations that have not finished. bwait raises illegal-operand for a batch that is not
closed, goes on where the batch is complete, raises poison where a completed batch read poisoned data, and else blocks. A head batch whose
operations have finished and whose times fabric time has reached completes: the count of complete batches rises by one and the bwaits it
satisfies go on. -/
def Obligations.BatchesCloseAndComplete : Prop :=
  ∀ (f : Fields) (s : State) (x k : Nat) (c : Crew) (sp : Split),
    (s.Executes .batch f x k c sp → Settled c sp → runLanes s .batch f x k c sp ≠ 0 → c.closed - c.done < 64 →
      ∃ u c' sp' b, exec (.batch f) s = .next u ∧ OnlyCrew s u x ∧ u.crew? x = some c' ∧ c'.split? k = some sp' ∧ sp'.pc = sp.pc + 12 ∧
        sp'.clock = sp.clock + 1 ∧ sp'.st = .ready ∧ c'.v = c.v ∧ c'.p = c.p ∧ c'.closed = c.closed + 1 ∧ c'.done = c.done ∧ c'.open_ = [] ∧
        c'.batches = c.batches ++ [b] ∧ b.left = c.open_.filter (fun n => (s.openOps c x).contains n) ∧ b.off = c.openOff ∧
        b.gwctMod = c.openGm ∧ b.gwctFab = c.openGf ∧
        match f.d with
        | .s n => (n.toNat ≠ 0 → (c'.uni n.toNat).toNat = (c.closed + 1) % 2 ^ 64) ∧ ∀ j, j ≠ n.toNat → c'.uni j = c.uni j
        | _ => c'.s = c.s) ∧
    (s.Executes .bwait f x k c sp → Settled c sp → lowest (runLanes s .bwait f x k c sp) c.width ≠ none →
      let n := operand64 c f.a
      let o := exec (.bwait f) s
      (c.closed < n → Faults s o x k c sp 3 (runLanes s .bwait f x k c sp)) ∧
      (n ≤ c.closed → n ≤ c.done → (∀ b ∈ c.poisonBatch, n < b) → ∃ u c' sp', Onward o u x k c c' sp sp' ∧ OnlyCrew s u x ∧
        sp'.clock = sp.clock + 1 ∧ c'.minGrant = (if n = 0 then c.minGrant else max c.minGrant s.now)) ∧
      (n ≤ c.closed → n ≤ c.done → (∃ b ∈ c.poisonBatch, b ≤ n) → Faults s o x k c sp 18 (runLanes s .bwait f x k c sp)) ∧
      (n ≤ c.closed → c.done < n → ∃ u c' sp', Blocks o u x k c c' sp sp' (.bwait n (runLanes s .bwait f x k c sp)) ∧ OnlyCrew s u x)) ∧
    (∀ b bs, s.crew? x = some c → c.batches = b :: bs → b.left = [] → (if b.off then b.gwctFab else b.gwctMod) ≤ s.now → b.poison = false →
      c.poisonBatch = [] → Tab.sorted c.splits = true → ∃ u c', exec (.batchComplete x) s = .next u ∧ u = { s with crews := u.crews } ∧
        (∀ y, y ≠ x → u.crew? y = s.crew? y) ∧ u.crew? x = some c' ∧ c'.batches = bs ∧ c'.done = c.done + 1 ∧ c'.v = c.v ∧ c'.s = c.s ∧
        ∀ j q n ls, c.st = .running → c.split? j = some q → q.wait = .bwait n ls → ∃ q', c'.split? j = some q' ∧
          (n ≤ c.done + 1 → q'.st = .ready ∧ q'.wait = .none ∧ q'.pc = q.pc + 12 ∧ q'.clock = q.clock + 1) ∧ (c.done + 1 < n → q' = q))

/-- The copy engine writes one unit at a time and counts list elements. A transfer of one unit whose source and destination lie in one near
piece each gives every byte of the unit at the destination the source's byte at the same offset and changes no other byte; the unit is no
longer left to write, and a finished operation is gone. A unit of a list element whose source has an uncorrectable error, the first such,
sends a fault record of kind 1, code 3 and cause 18 with the source address for the context, to memory or to the queue of kept records, before
it writes its bytes. A due list element is released: its operation and its locks go, its list has one
element less, and its bytes come off the knot's debt. -/
def Obligations.EngineMovesUnits : Prop :=
  ∀ (s : State) (core op : Nat) (e : EngOp), s.engineOp core op = some e →
    (∀ n seg sl dl lf lf', let o := n % 2 ^ 40
      let m := unitLen seg o
      e.segs[n / 2 ^ 40]? = some seg → n ∈ e.left → o < seg.len → e.buf = [] → e.knot = none →
      seg.src = [{ loc := sl, len := seg.len, leaf := lf, peers := [] }] → seg.dst = [{ loc := dl, len := seg.len, leaf := lf', peers := [] }] →
      Loc.isFar sl = false → Loc.isFar dl = false → (∀ p ∈ s.passes, ∀ j, p.2.origin ≠ .engine core op j) → engineReady s core e = true →
      unitHeld s seg o m = false → (∀ t a, sl = .scratch t a ∨ dl = .scratch t a → s.team? t ≠ none) →
      let clean := ∀ p ∈ sourceUnits seg o m, (s.nearBytes p.2 (Loc.plus p.1 sl)).2 = false
      let written := fun u : State => match u.engineOp core op with
        | some e' => e'.left = e.left.filter fun j => j != n
        | none => ∀ j ∈ e.left, j = n
      (¬ clean → e.list ≠ none → e.poison = false → ∃ t u, exec (.engineTransfer core op n) s = .next u ∧
        Reported s t (e.ctx s) { any := 0, lanes := 0, addr := BitVec.ofNat 64 (seg.sbase + o), time := s.now, pc := 0
                                 id := crewId (e.ctx s) e.crew, kind := 1, split := 0, access := 0, cause := 18, code := 3 } ∧
        u.ctxs = t.ctxs ∧ UnitWritten s t u o m sl dl ∧ written u) ∧
      (clean ∨ e.list = none ∨ e.poison = true → ∃ u, exec (.engineTransfer core op n) s = .next u ∧
        u = { s with mem := u.mem, poison := u.poison, wlog := u.wlog, lines := u.lines, cores := u.cores, engines := u.engines,
                     crews := u.crews, teams := u.teams, coloc := u.coloc } ∧
        UnitWritten s s u o m sl dl ∧ written u)) ∧
    (∀ l m, core < 640 → e.list = some l → e.left = [] → e.far = [] → (if e.off then e.gwctFab else e.gwctMod) ≤ s.now →
      Tab.find (s.coreOf core).lists l = some m →
      (∃ u, exec (.requestListElement core op) s = .next u ∧ u.engineOp core op = none ∧ u.mem = s.mem) ∧
      (e.knot = none ∨ e.toScratch = true → ∃ u, exec (.requestListElement core op) s = .next u ∧ u = { s with cores := u.cores } ∧
        u.engineOp core op = none ∧ Tab.find (u.coreOf core).lists l = (if 2 ≤ m then some (m - 1) else none) ∧
        ∀ r ∈ (u.coreOf core).ranges, core ∈ s.teamCores e.team → r.tag ≠ op) ∧
      (∀ kn tm, e.knot = some kn → e.toScratch = false → s.team? e.team = some tm → tm.active kn = true → kn % 16 = 0 →
        let bytes := (e.segs.map fun seg => seg.len).sum
        let debt := (((tm.knot kn).debt : Int) - bytes) % 2 ^ 32
        ((tm.knot kn).arrived ≠ (tm.knot kn).expect ∨ debt ≠ 0) → ∃ u tm', exec (.requestListElement core op) s = .next u ∧
          u = { s with cores := u.cores, teams := u.teams, crews := u.crews } ∧ u.engineOp core op = none ∧ u.team? e.team = some tm' ∧
          tm'.knot kn = { tm.knot kn with debt := debt.toNat }))

/-- setlay loads a layout register; lstat reads and clears its counters; both complete. setlay gives the layout register the record in four uniform registers
and clears its counters, or raises illegal-operand where a reserved bit is set; lstat, once no matrix operation of its crew through the
register is unretired, gives D the groups in the high and the conflicts in the low 32 bits and clears both. Nothing else of the crew or
outside it changes. -/
def Obligations.LayoutRegistersAndCounters : Prop :=
  ∀ (f : Fields) (s : State) (x k : Nat) (c : Crew) (sp : Split), Settled c sp →
    (∀ sel a, f.d = .x sel → f.a = .s a → 256 ≤ sel.toNat → s.Executes .setlay f x k c sp →
      lowest (runLanes s .setlay f x k c sp) c.width ≠ none →
      let v := (c.uni a.toNat).toNat + 2 ^ 64 * (c.uni (a.toNat + 1)).toNat + 2 ^ 128 * (c.uni (a.toNat + 2)).toNat +
        2 ^ 192 * (c.uni (a.toNat + 3)).toNat
      (recordReserved v → Faults s (exec (.setlay f) s) x k c sp 3 (runLanes s .setlay f x k c sp)) ∧
      (¬ recordReserved v → ∃ u c' sp', exec (.setlay f) s = .next u ∧ OnlyCrew s u x ∧ u.crew? x = some c' ∧ c'.split? k = some sp' ∧
        sp'.pc = sp.pc + 12 ∧ sp'.clock = sp.clock + 1 ∧ c'.v = c.v ∧ c'.s = c.s ∧ c'.p = c.p ∧ (c'.layReg (sel.toNat - 256)).toNat = v ∧
        (∀ n, n ≠ sel.toNat - 256 → c'.layReg n = c.layReg n) ∧ Tab.get (0, 0) c'.lstat (sel.toNat - 256) = (0, 0) ∧
        ∀ n, n ≠ sel.toNat - 256 → Tab.get (0, 0) c'.lstat n = Tab.get (0, 0) c.lstat n)) ∧
    (∀ sel r tm, f.a = .x sel → f.d = .s r → 256 ≤ sel.toNat → s.Executes .lstat f x k c sp → s.team? c.team = some tm →
      runLanes s .lstat f x k c sp ≠ 0 → (∀ o ∈ tm.opq, o.inst = c.inst → o.lreg ≠ sel.toNat - 256) →
      let v := Tab.get (0, 0) c.lstat (sel.toNat - 256)
      ∃ u c' sp', exec (.lstat f) s = .next u ∧ OnlyCrew s u x ∧ u.crew? x = some c' ∧ c'.split? k = some sp' ∧ sp'.pc = sp.pc + 12 ∧
        sp'.clock = sp.clock + 1 ∧ c'.v = c.v ∧ c'.p = c.p ∧ c'.lay = c.lay ∧
        (r.toNat ≠ 0 → (c'.uni r.toNat).toNat = (2 ^ 32 * v.1 + v.2) % 2 ^ 64) ∧ (∀ n, n ≠ r.toNat → c'.uni n = c.uni n) ∧
        Tab.get (0, 0) c'.lstat (sel.toNat - 256) = (0, 0))

/-- mzero, mld, mst, mget, mget.try and mrel act on the team's tiles. mzero sets every element of a held tile to +0.0, mld gives it the 64 by 64
words of an image in scratch, and mst writes that image, on the sides that VAR names; mget of tiles that fit gives them to the team holding
+0.0 and D = 0, mget.try of tiles that do not fit gives D = 1, mget then blocks; mrel gives tiles back. mget and mrel raise illegal-operand
for an empty mask, a bit above 15, a tile held already or not held. A spilled team's tile instruction blocks. Other tiles, registers and
home memory stay. -/
def Obligations.TileInstructions : Prop :=
  ∀ (f : Fields) (s : State) (x k : Nat) (c : Crew) (sp : Split) (tm : Team), Settled c sp → s.team? c.team = some tm →
    let t := tileField f.d
    let sides := namedSides tm (varOf f)
    let off := operand64 c f.a % 2 ^ 32
    let stride := operand64 c f.b % 2 ^ 32
    let at_ := fun h i j => off + i * stride + 256 * h + 4 * j
    let m := operand64 c f.a
    (∀ mn, mn ∈ [Mn.mma, .mmaw, .mld, .mst, .mzero, .mget, .mgetTry, .mrel] → s.Executes mn f x k c sp → runLanes s mn f x k c sp ≠ 0 →
      tm.spilled = true → ∃ u c' sp', Blocks (exec (mn.instr f) s) u x k c c' sp sp' .tiles ∧ OnlyCrew s u x) ∧
    (s.Executes .mzero f x k c sp → runLanes s .mzero f x k c sp ≠ 0 → (varOf f = 0 ∨ tm.pair = true) → tilesFree tm (2 ^ t) →
      ∃ u c' sp' tm', TileStep (exec (.mzero f) s) s u x k c c' sp sp' tm' ∧ c'.s = c.s ∧ tm' = { tm with tiles := tm'.tiles } ∧
        (∀ sd ∈ sides, ∀ i j, i < 64 → j < 64 → tm'.tileElem sd t i j = 0) ∧ otherTiles tm tm' sides [t]) ∧
    (s.Executes .mld f x k c sp → runLanes s .mld f x k c sp ≠ 0 → tilesFree tm (2 ^ t) → imagePasses s x f c tm off stride false →
      c.heldBack s.seq = false → s.windowAhead c (256 * sides.length) ((List.range 64).map fun r => (128, off + r * stride)) = false → ∃ u c' sp' tm', TileStep (exec (.mld f) s) s u x k c c' sp sp' tm' ∧ c'.s = c.s ∧
        tm' = { tm with tiles := tm'.tiles, tracks := tm'.tracks } ∧
        (∀ h sd, sides[h]? = some sd → ∀ i j, i < 64 → j < 64 →
          tm'.tileElem sd t i j = leNat ((List.range 4).map fun b => Tab.get 0 tm.scratch (at_ h i j + b))) ∧ otherTiles tm tm' sides [t]) ∧
    (s.Executes .mst f x k c sp → runLanes s .mst f x k c sp ≠ 0 → tilesFree tm (2 ^ t) → imagePasses s x f c tm off stride true →
      c.heldBack s.seq = false → s.windowAhead c (256 * sides.length) ((List.range 64).map fun r => (128, off + r * stride)) = false →
      sp.wait = .none → Tab.sorted s.crews = true → Tab.sorted c.splits = true →
      ∃ u c' sp' tm', TileStep (exec (.mst f) s) s u x k c c' sp sp' tm' ∧ c'.s = c.s ∧ tm'.tiles = tm.tiles ∧ tm'.tilesHeld = tm.tilesHeld ∧
        (∀ h sd, sides[h]? = some sd → ∀ i j b, i < 64 → j < 64 → b < 4 →
          (Tab.get 0 tm'.scratch (at_ h i j + b)).toNat = tm.tileElem sd t i j / 2 ^ (8 * b) % 2 ^ 8) ∧
        ∀ a, (∀ h i j b, h < sides.length → i < 64 → j < 64 → b < 4 → a ≠ at_ h i j + b) →
          Tab.get 0 tm'.scratch a = Tab.get 0 tm.scratch a) ∧
    (∀ mn, mn = .mget ∨ mn = .mgetTry → s.Executes mn f x k c sp → lowest (runLanes s mn f x k c sp) c.width ≠ none → tm.spilled = false →
      (∀ r ∈ s.tileReqs, r.team = c.team → r.mask &&& m = 0) →
      let o := exec (mn.instr f) s
      let fits := ∀ n ∈ tm.cores, popCount m 16 ≤ s.freeTiles n
      (m = 0 ∨ 2 ^ 16 ≤ m ∨ m &&& tm.tilesHeld.toNat ≠ 0 → Faults s o x k c sp 3 (runLanes s mn f x k c sp)) ∧
      (0 < m → m < 2 ^ 16 → m &&& tm.tilesHeld.toNat = 0 → fits → ∃ u c' sp' tm', TileStep o s u x k c c' sp sp' tm' ∧
        tm' = { tm with tiles := tm'.tiles, tilesHeld := tm.tilesHeld ||| BitVec.ofNat 16 m } ∧
        (∀ sd n i j, sd < 2 → n < 16 → i < 64 → j < 64 → tm'.tileElem sd n i j = if m.testBit n then 0 else tm.tileElem sd n i j) ∧
        ∀ r, f.d = .s r → r.toNat ≠ 0 → c'.uni r.toNat = 0) ∧
      (0 < m → m < 2 ^ 16 → m &&& tm.tilesHeld.toNat = 0 → ¬ fits → mn = .mgetTry → ∃ u c' sp', TileStep o s u x k c c' sp sp' tm ∧
        ∀ r, f.d = .s r → r.toNat ≠ 0 → c'.uni r.toNat = 1) ∧
      (0 < m → m < 2 ^ 16 → m &&& tm.tilesHeld.toNat = 0 → ¬ fits → mn = .mget → s.tileReqs = [] →
        (∀ e ∈ s.teams, e.2.spilled = false) →
        (∀ n ∈ tm.cores, ∃ e ∈ s.teams, e.1 ≠ c.team ∧ e.2.cores.contains n = true ∧ e.2.spilled = false ∧ e.2.saved = false ∧ e.2.tilesHeld ≠ 0) →
        ∃ u c' sp' d, Blocks o u x k c c' sp sp' (.mget m s.seq d) ∧ u.teams = s.teams ∧ u.mem = s.mem)) ∧
    (s.Executes .mrel f x k c sp → lowest (runLanes s .mrel f x k c sp) c.width ≠ none → tm.spilled = false →
      (m = 0 ∨ 2 ^ 16 ≤ m ∨ m &&& tm.tilesHeld.toNat ≠ m → Faults s (exec (.mrel f) s) x k c sp 3 (runLanes s .mrel f x k c sp)) ∧
      (0 < m → m < 2 ^ 16 → tilesFree tm m → s.tileReqs = [] → (∀ e ∈ s.teams, e.2.spilled = false) → ∃ u c' sp' tm', TileStep (exec (.mrel f) s) s u x k c c' sp sp' tm' ∧
        c'.s = c.s ∧ tm' = { tm with tilesHeld := tm.tilesHeld &&& ~~~BitVec.ofNat 16 m }))

/-- mma and mmaw enter the matrix queue; operations start, advance by blocks and retire. Where the checks of an mma or mmaw pass and the queue
and the lock tables have room, the operation enters its team's queue with its tile, type, layout record and number of blocks, its hull is
locked, and the instruction retires. A started operation runs, its tiles +0.0 where Z is set; each block adds the 32 products of row and
column to every element with one rounding, in rising order of blocks; after the last block the operation leaves the queue, its lock goes,
and its register's counters rise by its groups and conflicts. -/
def Obligations.MatrixOperationsRun : Prop :=
  (∀ (m : Mn) (f : Fields) (t : Ty) (s : State) (x k : Nat) (c : Crew) (sp : Split) (tm : Team), m = .mma ∨ m = .mmaw → f.sel = .ty t →
    s.Executes m f x k c sp → Settled c sp → s.team? c.team = some tm → lowest (runLanes s m f x k c sp) c.width ≠ none →
    tm.spilled = false → tm.tileq = [] →
    let w := matOpOf (issueOf s m f x k c sp) (m == .mmaw)
    let l := layOf w.layout
    (mmaPasses x f t c tm w → (∀ o ∈ tm.opq, o.mask &&& w.mask = 0) → c.order = [] →
      (s.matOps.filter fun p => p.sameQueue w).length < 8 → (∀ n ∈ tm.cores, (s.coreOf n).ranges.length < 32) → tm.cores.Nodup →
      ∃ u c' sp' tm' o r, exec (m.instr f) s = .next u ∧
        u = { s with crews := u.crews, cycles := u.cycles, coloc := u.coloc, teams := u.teams, cores := u.cores, seq := s.seq + 1 } ∧
        u.team? c.team = some tm' ∧ tm' = { tm with opq := tm.opq ++ [o] } ∧ u.crew? x = some c' ∧ c'.split? k = some sp' ∧
        sp'.pc = sp.pc + 12 ∧ sp'.clock = sp.clock + 1 ∧ c'.v = c.v ∧ c'.s = c.s ∧ c'.p = c.p ∧ c'.lay = c.lay ∧
        o.id = s.seq ∧ o.wide = (m == .mmaw) ∧ o.single = f.f ∧ o.ty = t ∧ o.z = (f.ext.toNat % 2 == 1) ∧ o.tile = tileField f.d ∧
        o.prog = 0 ∧ o.running = false ∧ o.crew = x ∧ o.inst = c.inst ∧ o.layout = w.layout ∧
        (∀ sel, f.b = .x sel → o.layout = c.layReg (sel.toNat - 256)) ∧
        l.blocks (t.kind == .bfp) w.orient w.bw w.cols = some o.blocks ∧ r.tag = s.seq ∧ r.dest = false ∧ r.virt = false ∧ r.team = c.team ∧
        ∀ n ∈ tm.cores, (u.coreOf n).ranges = (s.coreOf n).ranges ++ [r]) ∧
    (∀ e es, mmaCauses s (issueOf s m f x k c sp) w = e :: es → (∀ q ∈ es, e.cause ≤ q.cause) →
      Faults s (exec (m.instr f) s) x k c sp e.cause (runLanes s m f x k c sp))) ∧
  (∀ (s : State) (team op : Nat) (tm : Team) (o : MatOp), s.team? team = some tm → tm.opq.find? (fun q => q.id == op) = some o → tm.saved = false →
    (tm.spilled = false → o.locked = true → opCanStart s o = true → o.tile < 15 → ∃ u tm' o', exec (.matrixOpStart team op) s = .next u ∧
      u = { s with teams := u.teams } ∧ (∀ n, n ≠ team → u.team? n = s.team? n) ∧ u.team? team = some tm' ∧
      tm' = { tm with opq := tm'.opq, tiles := tm'.tiles } ∧ tm'.opq.find? (fun q => q.id == op) = some o' ∧ o' = { o with running := true } ∧
      let tiles := if o.wide then [o.tile, o.tile + 1] else [o.tile]
      let sides := (o.sides tm).map Prod.fst
      (∀ sd ∈ sides, ∀ n ∈ tiles, ∀ i j, i < 64 → j < 64 → o.prog = 0 → o.z = true → tm'.tileElem sd n i j = 0) ∧
      (if o.prog = 0 ∧ o.z = true then otherTiles tm tm' sides tiles else tm'.tiles = tm.tiles)) ∧
    (∀ c, s.crew? o.crew = some c → o.running = true → o.prog < o.blocks → c.inst = o.inst → o.tile < 15 →
      ∃ u tm' o', exec (.matrixBlock team op) s = .next u ∧ u = { s with teams := u.teams, coloc := u.coloc } ∧
        (∀ n, n ≠ team → u.team? n = s.team? n) ∧ u.team? team = some tm' ∧ tm' = { tm with opq := tm'.opq, tiles := tm'.tiles } ∧
        tm'.opq.find? (fun q => q.id == op) = some o' ∧ o' = { o with prog := o.prog + 1 } ∧
        (∀ sd j0, (sd, j0) ∈ o.sides tm → blockStep s tm tm' o c sd j0) ∧
        otherTiles tm tm' ((o.sides tm).map Prod.fst) (if o.wide then [o.tile, o.tile + 1] else [o.tile])) ∧
    (∀ c, s.crew? o.crew = some c → o.running = true → o.prog = o.blocks → c.inst = o.inst → ∃ u c' tm',
      exec (.matrixOpRetire team op) s = .next u ∧ u = { s with teams := u.teams, cores := u.cores, crews := u.crews } ∧
      u.team? team = some tm' ∧ tm' = { tm with opq := tm.opq.filter fun q => q.id != op } ∧
      (∀ n ∈ tm.cores, ∀ r ∈ (u.coreOf n).ranges, r.tag ≠ op) ∧ u.crew? o.crew = some c' ∧ c' = { c with lstat := c'.lstat } ∧
      let groups := (if o.ty.kind = .bfp then o.blocks else 32 * o.blocks) * (o.sides tm).length
      Tab.get (0, 0) c'.lstat o.lreg = (min (2 ^ 32 - 1) ((Tab.get (0, 0) c.lstat o.lreg).1 + groups),
        min (2 ^ 32 - 1) ((Tab.get (0, 0) c.lstat o.lreg).2 + (opConflicts tm o).2))))

/-- rld, rst, ratom, gld and gst send one pass per peer in rising order and wait in issue. A remote or window access all of whose lanes pass
stage 1 enters the queues, makes one pass for each peer or member in rising number, each holding its lanes with their address and datum,
sends every pass, and leaves its split in the instruction until the replies come (it waits in issue, which this model shows as a blocked split,
log 4); no byte changes. A lane that fails stage 1 stops the crew
with the lowest cause, and nothing is sent. -/
def Obligations.RemoteAccessesSendPasses : Prop :=
  ∀ (m : Mn) (f : Fields) (t : Ty) (s : State) (x k : Nat) (c : Crew) (sp : Split) (tm : Team),
    m ∈ [Mn.rld, .rst, .ratom, .gld, .gst] → s.Executes m f x k c sp → Settled c sp → f.sel = .ty t → s.team? c.team = some tm →
    lowest (runLanes s m f x k c sp) c.width ≠ none →
    (∀ fs cs, StageOne s m f t x k c sp fs cs → fs ≠ [] →
      Faults s (exec (m.instr f) s) x k c sp (winner fs) (faultLanes ((issueOf s m f x k c sp).spread fs))) ∧
    ((∀ l ∈ accLanes (issueOf s m f x k c sp), stageOneLane s m f t c sp tm (evalLane l)) → c.order = [] → c.loadq.length < 16 →
      c.storeq.length < 16 → (∀ q ∈ c.storeq, q.left = []) → (∀ q ∈ c.loadq, q.back = true) → s.mod.returned = [] →
      (∀ e ∈ s.passes, e.2.crew ≠ x) →
      ∃ u c' sp' set, Blocks (exec (m.instr f) s) u x k c c' sp sp' (.passes s.seq) ∧ Tab.find u.passes s.seq = some set ∧
        set.crew = x ∧ set.split = k ∧ set.pass.ty = t ∧ set.pass.crew = c.inst ∧ (set.passes.map fun o => o.peer).Pairwise (· < ·) ∧
        (∀ o ∈ set.passes, o.st = .sent s.now) ∧
        (∀ l ∈ accLanes (issueOf s m f x k c sp), ∃ o ∈ set.passes, o.peer = remotePeer m f c sp (evalLane l) ∧
          ∃ q ∈ o.lanes, q.lane = l ∧ q.addr = BitVec.ofNat 64 (remoteAddress m f c sp (evalLane l)) ∧
            (remoteOp m t f ≠ none → q.data = operandVal c sp.wbase t true f.d (evalLane l))) ∧
        u.outbox.length + u.agenda.length = s.outbox.length + s.agenda.length + set.passes.length ∧ u.mem = s.mem ∧ u.teams = s.teams ∧
        (∀ y, y ≠ x → u.crew? y = s.crew? y) ∧ c'.loadq.length = c.loadq.length + (if (remoteKind m t f).read then 1 else 0) ∧
        c'.storeq.length = c.storeq.length + if remoteOp m t f = none then 0 else 1)

/-- rfence waits for its peers' acknowledgements; gdetach waits for its whole team. rfence retires once every target record it names counts zero
and fabric time has passed GFAB, and waits in issue before; an unknown peer number raises illegal-operand and an absent peer peer-absent.
gdetach raises illegal-operand outside a gang and gang-detached once detached; it waits in issue for the crew's window stores, then blocks,
and with the last crew the team detaches, the gang's other modules hear of it by a message that names the rank (log 31), and all its gdetach
go on. -/
def Obligations.RemoteFencesAndDetach : Prop :=
  ∀ (f : Fields) (s : State) (x k : Nat) (c : Crew) (sp : Split), Settled c sp →
    (s.Executes .rfence f x k c sp → lowest (runLanes s .rfence f x k c sp) c.width ≠ none →
      let o := exec (.rfence f) s
      let zero := fun t : Target => ∀ n ∈ t.counts, n = 0
      let v := match f.a with | .s n => (c.uni n.toNat).toNat | a => operand32 c sp.wbase a 0
      (f.a = .none → (∀ e ∈ c.targets, zero e.2) → c.gfab < s.now → ∃ u c' sp', Onward o u x k c c' sp sp' ∧ OnlyCrew s u x ∧
        sp'.clock = sp.clock + 1) ∧
      (f.a = .none → ((∃ e ∈ c.targets, ¬ zero e.2) ∨ s.now ≤ c.gfab) → o = .next s) ∧
      (f.a ≠ .none → 2 ^ 18 ≤ v → Faults s o x k c sp 3 (runLanes s .rfence f x k c sp)) ∧
      (f.a ≠ .none → v < 2 ^ 18 → ∀ b (g : Go s), peerAbsent (Go.start s) c.ctx v = (b, g) →
        (b = true → Faults s o x k c sp 9 (runLanes s .rfence f x k c sp)) ∧
        (b = false → (∀ e ∈ c.targets, e.2.peer = v → zero e.2) → c.gfab < s.now → ∃ u c' sp', Onward o u x k c c' sp sp' ∧
          u = { s with crews := u.crews, cycles := u.cycles, coloc := u.coloc, mod := { s.mod with ptCache := u.mod.ptCache } } ∧
          sp'.clock = sp.clock + 1) ∧
        (b = false → ((∃ e ∈ c.targets, e.2.peer = v ∧ ¬ zero e.2) ∨ s.now ≤ c.gfab) → o = .next s))) ∧
    (∀ tm, s.Executes .gdetach f x k c sp → lowest (runLanes s .gdetach f x k c sp) c.width ≠ none → s.team? c.team = some tm →
      Tab.sorted s.crews = true → Tab.sorted c.splits = true →
      let o := exec (.gdetach f) s
      let last := ∀ y d, s.crew? y = some d → d.team = c.team → d.st ≠ .draining → y = x ∨ y ∈ tm.gdetach
      let clk := max tm.gdetachClock (sp.clock + 1)
      (tm.gangSize = 0 → Faults s o x k c sp 3 (runLanes s .gdetach f x k c sp)) ∧
      (tm.gangSize ≠ 0 → tm.detached = true → Faults s o x k c sp 10 (runLanes s .gdetach f x k c sp)) ∧
      (tm.gangSize ≠ 0 → tm.detached = false → ((∃ e ∈ c.sent, e.counted = false) ∨ s.now ≤ c.gfab) → o = .next s) ∧
      (tm.gangSize ≠ 0 → tm.detached = false → (∀ e ∈ c.sent, e.counted = true) → c.gfab < s.now →
        (¬ last → ∃ u c' sp' tm', Blocks o u x k c c' sp sp' .gdetach ∧ u.team? c.team = some tm' ∧ tm'.detached = false ∧ x ∈ tm'.gdetach ∧
          u = { s with crews := u.crews, cycles := u.cycles, coloc := u.coloc, teams := u.teams }) ∧
        (last → ∀ n gg r, tm.gang = some n → Tab.find s.gangs n = some gg → gg.st = .running → r < gg.members.length → r ≠ tm.rank →
          r ∉ gg.detached → r ∉ gg.lost → ∃ u c' sp' tm', Onward o u x k c c' sp sp' ∧ sp'.clock = max (sp.clock + 1) clk ∧
            u.team? c.team = some tm' ∧ tm'.detached = true ∧
            Tab.find u.gangs n = some { gg with detached := gg.detached ++ [tm.rank], st := .closing } ∧
            (∀ y ∈ tm.gdetach, y ≠ x → Released s u y .gdetach clk) ∧
            u = { s with crews := u.crews, cycles := u.cycles, coloc := u.coloc, teams := u.teams, gangs := u.gangs
                         outbox := s.outbox ++ if gg.members[tm.rank]? = some s.mod.modid then
                           (gg.parties.filter fun p => p != s.mod.modid).map fun p => .detached p n tm.rank else [] })))

/-- A target holds a pass, answers it, and performs its lane groups when they are committed. A remote pass whose lanes all live at homes of the
target, and a window pass that its member's core accepts, are held and answered, loads with the bytes as they stand; a pass with a lane that
fails is refused with its causes and nothing is held, a window pass of a gang the target does not know with gang-detached (log 81). A commit lets a load pass go; a commit of a lane group performs the group's stores or
atomics in lane order, every other byte staying, and acknowledges it; a committed ordered flag waits until the groups before it are
complete (log 80), and so does what follows one on its line. A cancelled pass is gone with no byte changed. -/
def Obligations.TargetsHoldAndPerformPasses : Prop :=
  ∀ (s : State),
    (∀ p : PassIn, (p.kind = .rld → s.behindFlag p = false) →
      (∀ home : Nat → Nat, (∀ j, j < 4 → s.UnitsAgree (jdUnits j) p.ctx) →
        (∀ l ∈ p.lanes, s.HomeAt p.ctx l.addr.toNat (accBytes p.ty) (p.kind != .rld) p.dclass (home l.lane)) →
        ∃ u data bad clk vc, exec (.remotePassArrive p) s = .next u ∧ u.mem = s.mem ∧
          u.held = s.held ++ [{ pass := p, locs := p.lanes.map fun l => (l.lane, .home (home l.lane)), lines := passLines p, flags := [] }] ∧
          Sent s u p.src (.reply p.src p.id [] data bad clk vc) (.passReply p.id [] data bad clk vc) ∧
          (p.kind = .rld → data = p.lanes.map fun l =>
            (l.lane, leNat ((List.range (accBytes p.ty)).map fun j => s.byte (home l.lane + j))))) ∧
      (∀ (fs : List LaneFault) (locs : List (Nat × Loc)),
        (∀ j, j < 4 → ∃ g : Go s, passPlaces (Go.start s) (jdUnits j) p p.lanes = ((fs, locs), g)) → fs ≠ [] → (∀ e ∈ fs, e.cause ≠ 6) →
        ∃ u, exec (.remotePassArrive p) s = .next u ∧ u.mem = s.mem ∧ u.held = s.held ∧
          Sent s u p.src (.reply p.src p.id (fs.map fun e => (e.lane, e.cause)) [] [] 0 [])
            (.passReply p.id (fs.map fun e => (e.lane, e.cause)) [] [] 0 []))) ∧
    (∀ (p : PassIn) (gg : Gang) (n : Nat) (tm : Team), Tab.find s.gangs p.gang = some gg → p.rank ∉ gg.lost → Tab.find gg.teams p.rank = some n →
      s.team? n = some tm → (∀ l ∈ p.lanes, memberCause s p n tm l = none) →
      ∃ u data bad, exec (.windowPassArrive p) s = .next u ∧ u.mem = s.mem ∧
        u.held = s.held ++ [{ pass := p, locs := p.lanes.map fun l => (l.lane, .scratch n l.addr.toNat), lines := passLines p, flags := [] }] ∧
        Sent s u p.src (.reply p.src p.id [] data bad 0 []) (.passReply p.id [] data bad 0 []) ∧ (tm.poison = [] → bad = []) ∧
        (p.kind = .gld → ∀ l ∈ p.lanes, (l.lane, leNat ((List.range (accBytes p.ty)).map fun j => Tab.get 0 tm.scratch (l.addr.toNat + j))) ∈ data)) ∧
    (∀ (p : PassIn), Tab.find s.gangs p.gang = none → ∃ u, exec (.windowPassArrive p) s = .next u ∧ u.held = s.held ∧ u.mem = s.mem ∧
      Sent s u p.src (.reply p.src p.id (p.lanes.map fun l => (l.lane, 10)) [] [] 0 []) (.passReply p.id (p.lanes.map fun l => (l.lane, 10)) [] [] 0 [])) ∧
    (∀ (h : HeldPass) (before : List Nat), s.held.find? (fun q => q.pass.src == h.pass.src && q.pass.id == h.pass.id) = some h →
      let gone := s.held.filter fun q => !(q.pass.src == h.pass.src && q.pass.id == h.pass.id)
      exec (.passCancel h.pass.src h.pass.id) s = .next { s with held := gone } ∧
      (h.pass.kind = .rld ∨ h.pass.kind = .gld → h.pass.track = none ∨ (∀ e ∈ h.locs, ∃ a, e.2 = .home a) →
        ∀ grp, exec (.passCommit h.pass.src h.pass.id grp before) s = .next { s with held := gone }) ∧
      (∀ ln path, h.pass.kind = .rst ∨ h.pass.kind = .ratom → h.pass.mirror = none → (∀ e ∈ h.locs, ∃ a, e.2 = .home a) →
        let o := exec (.passCommit h.pass.src h.pass.id (some (ln, path)) before) s
        let behind := s.behindFlag { h.pass with lanes := h.pass.lanes.filter fun l =>
          l.addr.toNat % 2 ^ 60 / 64 == ln && (h.locs.find? fun e => e.1 == l.lane).isSome }
        let came := s.groupsOf h.pass path
        let waits := fun b : List Nat => ∃ u, o = .next u ∧ u.groupsOf h.pass path = came ++ [0] ∧
          u = { s with groups := u.groups, held := s.held.map fun q => if q.pass.src = h.pass.src && q.pass.id = h.pass.id then
            { q with flags := q.flags ++ [{ before := b, path := path, line := ln, no := came.length }] } else q }
        (h.pass.ordered = false → behind = false → GroupPerforms s o h ln) ∧
        (h.pass.ordered = false → behind = true → waits [0, 0, 0, 0]) ∧ (h.pass.ordered = true → waits before) ∧
        (∀ no rest, h.flags = { before := before, path := path, line := ln, no := no } :: rest → flagReady s h before = true → s.earlierGroup h ln = false →
          GroupPerforms s (exec (.orderedFlagRelease h.pass.src h.pass.id) s) h ln)))

/-- The source of a pass goes on with its reply, and counts its acknowledgements. When the one pass of a remote load is accepted, the loaded
data reaches the load queue, the pass is committed and the instruction retires; when that of a remote store is accepted, every lane group is
committed and counted against its peer and the instruction retires, while a release that what it orders keeps waiting stays in issue with
nothing committed (log 24), as does a store that an older one of another crew of its core to its bytes keeps waiting (log 79); when it is
refused, the crew stops with the lowest cause, its queue entries gone. A pass without a reply for 100 µs ends so with peer-absent, a later
reply too. An acknowledgement of a lane group raises GFAB to its completion time and is no longer outstanding. -/
def Obligations.SourcesFinishPasses : Prop :=
  ∀ (s : State) (n : Nat) (set : PassSet) (o : PassOut) (c : Crew) (sp : Split),
    (Tab.find s.passes n = some set → set.passes = [o] → o.peer < 2 ^ 18 → s.crew? set.crew = some c → c.inst = set.pass.crew →
      c.split? set.split = some sp → c.st = .running → sp.st = .blocked → sp.wait = .passes n →
      let x := set.crew
      let k := set.split
      let no := n * 2 ^ 18 + o.peer
      (∀ l t0 data clk vc, o.st = .sent t0 → s.now < t0 + 100000 → set.pass.kind = .rld → set.pass.id = n → set.origin = .instr (some l) none →
        ∃ u c' sp', Onward (exec (.passReply no [] data [] clk vc) s) u x k c c' sp sp' ∧ sp'.clock = sp.clock + 1 ∧ Tab.find u.passes n = none ∧
          Sent s u o.peer (.commit o.peer no none []) (.passCommit s.mod.modid no none []) ∧ u.mem = s.mem ∧
          (∀ q ∈ c.loadq, q.id = l → q.atomic = false → s.storePath (x / 64) = [] → (∀ d ∈ data, d.2 < 2 ^ (8 * accBytes q.ty)) →
            ∃ q' ∈ c'.loadq, q'.id = l ∧ q'.got = q.got ++ data ∧ q'.poison = q.poison)) ∧
      (∀ t t0 clk vc ln tm, o.st = .sent t0 → s.now < t0 + 100000 → set.pass.kind = .rst → set.pass.id = n → set.origin = .instr none (some t) →
        s.team? c.team = some tm → s.passedBy set o = false → distinct (o.lanes.map fun l => l.addr.toNat % 2 ^ 60 / 64) = [ln] → (targetFor c o.peer).isSome = true →
        (∀ q ∈ c.sent, q.path < 4) →
        (s.farAhead (x / 64) c t = false → set.pass.scope = 0 ∨ fenceDone s x c (scopeNo tm set.pass.scope) t → ∃ u c' sp' e path before,
          Onward (exec (.passReply no [] [] [] clk vc) s) u x k c c' sp sp' ∧ sp'.clock = sp.clock + 1 ∧
          Tab.find u.passes n = none ∧ c'.sent = c.sent ++ [e] ∧ e.peer = o.peer ∧ e.line = ln ∧ e.store = t ∧ e.counted = true ∧ e.path = path ∧
          path < 4 ∧ Sent s u o.peer (.commit o.peer no (some (ln, path)) before) (.passCommit s.mod.modid no (some (ln, path)) before) ∧
          u.mem = s.mem) ∧
        (set.pass.scope ≠ 0 ∧ ¬ fenceDone s x c (scopeNo tm set.pass.scope) t ∨ s.farAhead (x / 64) c t = true → ∃ u v,
          exec (.passReply no [] [] [] clk vc) s = .next u ∧ u = { s with passes := u.passes, crews := u.crews } ∧
          (∀ y, u.crew? y = s.crew? y) ∧ Tab.find u.passes n = some v ∧
          v = { set with passes := [{ o with st := .accepted [] [] clk vc }] })) ∧
      (∀ l t t0 data bad clk vc e es, o.st = .sent t0 → s.now < t0 + 100000 → set.origin = .instr l t → (∀ q ∈ es, e.2 ≤ q.2) → e.2 ≤ 22 → e.2 ≠ 6 →
        c.width ≤ 128 → (∀ q ∈ e :: es, q.1 < c.width) →
        Faults s (exec (.passReply no (e :: es) data bad clk vc) s) x k c sp e.2 (laneSet ((e :: es).map Prod.fst))) ∧
      (∀ t0 refused data bad clk vc, o.st = .sent t0 → t0 + 100000 ≤ s.now →
        exec (.passReply no refused data bad clk vc) s = exec (.passTimeout no) s) ∧
      (∀ l t t0, o.st = .sent t0 → t0 + 100000 ≤ s.now → set.origin = .instr l t → set.pass.kind = .rld ∨ set.pass.kind = .rst ∨ set.pass.kind = .ratom →
        set.pass.mirror = none → o.lanes ≠ [] → (∀ q ∈ o.lanes, q.lane < 128) → ∃ u c' r, exec (.passTimeout no) s = .next u ∧
          Tab.find u.passes n = none ∧ u.crew? x = some c' ∧ c'.st = .stopped ∧ c'.frec = some r ∧ r.cause = 9 ∧
          r.any = laneSet (o.lanes.map fun q => q.lane) ∧ c'.v = c.v ∧ c'.s = c.s)) ∧
    (∀ (wire : Nat) (a : FarAck) (x : Nat) (e : FarGroup), farGroupOf s wire a = some (x, e) → s.crew? x = some c → s.passes = [] →
      ∃ u c', exec (.storeAck 0 wire (some a)) s = .next u ∧ u = { s with crews := u.crews } ∧ (∀ y, y ≠ x → u.crew? y = s.crew? y) ∧
        u.crew? x = some c' ∧ c'.gfab = max c.gfab a.gwctFab ∧ c'.gmod = (if e.near then max c.gmod a.gwctMod else c.gmod) ∧
        c'.sent = c.sent.filter (fun h => h != e) ∧ c'.v = c.v ∧ c'.s = c.s)

/-- claim, clwait, clwait.test and announce. A claim with a valid name and range sends itself to the keeper of its name with expiry Now() plus
NM.TIME times 16000 ns, holds its destination range, keeps a handle (which of the free ones is the model's choice, log 60) and writes index and
sequence number to D; a destination on a FABRIC-WINDOW page ends relaunch eligibility; invalid words raise illegal-operand and a seventeenth
handle claim-capacity. clwait blocks on an open handle, returns 1 + 2^32 z for a delivered tile, and faults never-
produced, claim-capacity or bounds for the others; .test writes the status and frees an ended handle. announce holds its source range, joins
the open batch and ends relaunch eligibility. -/
def Obligations.ClaimInstructions : Prop :=
  ∀ (f : Fields) (s : State) (x k : Nat) (c : Crew) (sp : Split) (tm : Team), Settled c sp → s.team? c.team = some tm →
    (s.Executes .claim f x k c sp → lowest (runLanes s .claim f x k c sp) c.width ≠ none →
      let o := exec (.claim f) s
      let scr := f.ext.toNat % 2 == 1
      let (a, n, w) := (pairLow c f.b, pairHigh c f.b, pairHigh c f.a)
      let name := nameFor s c f
      let ok := w / 2 ^ 48 = 0 ∧ w / 2 ^ 32 ≠ 0 ∧ tileRange scr a n
      (¬ ok → Faults s o x k c sp 3 (runLanes s .claim f x k c sp)) ∧
      let claims := fun (v : State) (ps : Pieces) =>
        (16 ≤ c.handles.length → Faults s o x k c sp 17 (runLanes s .claim f x k c sp)) ∧
        (c.handles.length < 16 → c.order = [] → tm.cores.Nodup → (∀ m ∈ tm.cores, (s.coreOf m).ranges.length < 32) →
          ∃ u c' sp' idx, OnwardD o u x k c c' sp sp' f.d (idx + 16 * (c.claimSeq % 2 ^ 28)) ∧ idx < 16 ∧ Tab.find c.handles idx = none ∧
            u = { v with crews := u.crews, cycles := u.cycles, coloc := u.coloc, cores := u.cores, tlbs := u.tlbs, seq := s.seq + 1
                         agenda := u.agenda, teams := u.teams } ∧ (∀ n, n ≠ c.team → u.team? n = s.team? n) ∧
            u.team? c.team = some (if Pieces.off ps then { tm with relaunchOk := false } else tm) ∧
            (∀ y, y ≠ x → u.crew? y = s.crew? y) ∧ c'.handles = Tab.put c.handles idx
              { seq := c.claimSeq % 2 ^ 28, tag := s.seq, name := name, dest := ps, base := a, cap := n, result := none } ∧
            c'.claimSeq = c.claimSeq + 1 ∧ lockStands s u tm (copyLock true scr c.team a n s.seq) ∧
            u.agenda = s.agenda ++ [.event (.claimArrive (keeperNo name) { name := name, expiry := s.now + 16000 * (w / 2 ^ 32 % 2 ^ 16)
                                                                           from_ := .crew x c.inst idx (c.claimSeq % 2 ^ 28) })])
      (ok → a % 16 = 0 → s.UnitsAgree (coreUnits (x / 64)) c.ctx → ∀ ps, s.CopyRange c tm scr a n true ps → claims s ps) ∧
      (ok → a % 16 = 0 → ∀ ps (g : Go s), checkRange (Go.start s) (issueOf s .claim f x k c sp) scr a n true = (([], ps), g) → claims g.st ps)) ∧
    (s.Executes .announce f x k c sp → lowest (runLanes s .announce f x k c sp) c.width ≠ none →
      let o := exec (.announce f) s
      let scr := f.ext.toNat % 2 == 1
      let (a, n, w) := (pairLow c f.b, pairHigh c f.b, pairHigh c f.a)
      (¬ (w / 2 ^ 49 = 0 ∧ tileRange scr a n) → Faults s o x k c sp 3 (runLanes s .announce f x k c sp)) ∧
      (w / 2 ^ 49 = 0 → tileRange scr a n → a % 16 = 0 → c.order = [] → tm.cores.Nodup → (∀ m ∈ tm.cores, (s.coreOf m).ranges.length < 32) →
        let announces := fun (v : State) (ps : Pieces) => ∃ u c' sp' e, Onward o u x k c c' sp sp' ∧ sp'.clock = sp.clock + 1 ∧
          u = { v with crews := u.crews, cycles := u.cycles, coloc := u.coloc, cores := u.cores, tlbs := u.tlbs, seq := s.seq + 1
                       teams := u.teams, engines := u.engines, announces := u.announces } ∧ (∀ n, n ≠ c.team → u.team? n = s.team? n) ∧
          (∀ y, y ≠ x → u.crew? y = s.crew? y) ∧ c'.open_ = c.open_ ++ [s.seq] ∧ u.team? c.team = some { tm with relaunchOk := false } ∧
          lockStands s u tm (copyLock false scr c.team a n s.seq) ∧
          u.announces = Tab.put s.announces s.seq { crew := x, inst := c.inst, team := c.team, ctx := c.ctx, name := nameFor s c f
                                                    retain := w / 2 ^ 32 % 2 ^ 16, supersede := w / 2 ^ 48 % 2 == 1, after := s.seq } ∧
          u.engines = Tab.put s.engines s.seq e ∧ e.segs = [{ src := ps, dst := [], sbase := a, dbase := a, len := n }] ∧ e.inst = c.inst
        (s.UnitsAgree (coreUnits (x / 64)) c.ctx → ∀ ps, s.CopyRange c tm scr a n false ps → announces s ps) ∧
        ∀ ps (g : Go s), checkRange (Go.start s) (issueOf s .announce f x k c sp) scr a n false = (([], ps), g) → announces g.st ps)) ∧
    (∀ v h, operand64 c f.a = v → v < 2 ^ 32 → Tab.find c.handles (v % 16) = some h → h.seq = v / 16 →
      (s.Executes .clwait f x k c sp → lowest (runLanes s .clwait f x k c sp) c.width ≠ none →
        let o := exec (.clwait f) s
        let run := runLanes s .clwait f x k c sp
        (h.result = none → ∃ u c' sp', Blocks o u x k c c' sp sp' (.clwait v run (match f.d with | .s n => some n.toNat | _ => none)) ∧ OnlyCrew s u x) ∧
        (∀ r, h.result = some r →
          (r % 256 = 1 → ∃ u c' sp', OnwardD o u x k c c' sp sp' f.d r ∧ OnlyCrew s u x ∧ c'.handles = Tab.del c.handles (v % 16) ∧
            c'.minGrant = max c.minGrant s.now) ∧
          (r = 2 → Faults s o x k c sp 16 run) ∧ (r = 3 → Faults s o x k c sp 17 run) ∧ (r = 4 → Faults s o x k c sp 5 run))) ∧
      (s.Executes .clwaitTest f x k c sp → lowest (runLanes s .clwaitTest f x k c sp) c.width ≠ none →
        ∃ u c' sp', OnwardD (exec (.clwaitTest f) s) u x k c c' sp sp' f.d (h.result.getD 0) ∧ OnlyCrew s u x ∧
          c'.handles = if h.result = none then c.handles else Tab.del c.handles (v % 16))) ∧
    (∀ m ∈ [Mn.clwait, .clwaitTest], s.Executes m f x k c sp → lowest (runLanes s m f x k c sp) c.width ≠ none →
      (2 ^ 32 ≤ operand64 c f.a ∨ ∀ h, Tab.find c.handles (operand64 c f.a % 16) = some h → h.seq ≠ operand64 c f.a / 16) →
      Faults s (exec (m.instr f) s) x k c sp 3 (runLanes s m f x k c sp))

/-- What a keeper does with claims, tiles, answers, withdrawals and announcements. A late claim is answered never-produced; a claim that a
stockpile copy serves starts a delivery; a claim of a pending name joins its entry and extends a shorter expiry upstream; else a new entry
is made and forwarded where the next hop is a link. A claim that comes while the bytes of a tile of its name are being gathered waits here for
that delivery, and one whose next hop's link is not up is answered never-produced at once. A tile goes to the requesters that have not expired; an expired requester is told never-
produced and the last one frees the entry, with a withdrawal. A never-produced from upstream is claimed anew only for a later expiry, else
passed on; a withdrawal of a link that stands in an entry is acknowledged, another dropped; a refusal reaches every requester. A keeper accepts an announcement whose source is read: a second
tile of a stocked name is discarded and the duplicate-announce bit set; else a tile with NM.TIME above 0 stands in the stockpile until
acceptance plus NM.TIME times 16000 ns, and the announcement ends. Once a delivery's writes are acknowledged and fabric time is past them, its
handle ends delivered with the size, or never-produced where another module refused the destination (log 33). At its expiry a copy is freed, or marked while a delivery reads it; a
delivery handed on frees its entry, or reads the copy no longer. -/
def Obligations.KeepersServeNamesAndStockTiles : Prop :=
  (∀ (s : State) (j : Nat),
    (∀ (c : ClaimIn), keeperNo c.name = j →
      let d := s.jd j
      let o := exec (.claimArrive j c) s
      let told := neverTo j c.name c.from_ c.expiry
      (c.expiry ≤ s.now → d.pending c.name = none → KeeperStep s o j { d with expired := d.expired + 1 } told.1 told.2) ∧
      (∀ n t l, s.now < c.expiry → d.stocked c.name s.now = some (n, t) → c.from_ = .link l →
        KeeperStep s o j { d with stock := Tab.put d.stock n { t with readers := t.readers + 1 } } [] [.tile l { name := c.name, data := t.data }]) ∧
      (∀ n e l, s.now < c.expiry → d.stocked c.name s.now = none → s.accepting c.name = false → s.linkUp l = false →
        (d.pending c.name = some (n, e) → e.st = .forwarded → e.hop = some l → d.linkRec e c.from_ = none →
          KeeperStep s o j { d with expired := d.expired + 1 } told.1 told.2) ∧
        (d.pending c.name = none → s.hopOf c.name = some l → d.claims.length < 65536 → d.pool.length < 65536 →
          KeeperStep s o j { d with expired := d.expired + 1 } told.1 told.2)) ∧
      (∀ n e, s.now < c.expiry → d.stocked c.name s.now = none → d.pending c.name = some (n, e) → d.linkRec e c.from_ = none → d.pool.length < 65536 →
        (s.accepting c.name = false → e.st = .forwarded → ∀ l, e.hop = some l → s.linkUp l = true) →
        ∃ q, Tab.find d.pool q = none ∧
          let ext := e.st = .forwarded ∧ e.sent < c.expiry ∧ s.accepting c.name = false
          KeeperStep s o j
            { d with claims := Tab.put d.claims n { e with reqs := e.reqs ++ [q], sent := if ext then c.expiry else e.sent },
                     pool := Tab.put d.pool q { from_ := c.from_, expiry := c.expiry, started := false }, merged := d.merged + 1 }
            [] (if ext then (match e.hop with | some l => [Msg.claim l e.name c.expiry] | none => []) else [])) ∧
      (s.now < c.expiry → d.stocked c.name s.now = none → d.pending c.name = none → d.claims.length < 65536 → d.pool.length < 65536 →
        (s.accepting c.name = false → ∀ l, s.hopOf c.name = some l → s.linkUp l = true) → ∃ n q, Tab.find d.claims n = none ∧
          Tab.find d.pool q = none ∧
          let hop := if s.accepting c.name then none else s.hopOf c.name
          KeeperStep s o j
            { d with claims := Tab.put d.claims n { name := c.name, st := if hop.isSome then .forwarded else .waiting, reqs := [q], hop := hop,
                                                    sent := if hop.isSome then c.expiry else 0, data := [] },
                     pool := Tab.put d.pool q { from_ := c.from_, expiry := c.expiry, started := false } }
            [] (match hop with | some l => [Msg.claim l c.name c.expiry] | none => []))) ∧
    (∀ (t : TileIn), let d := s.jd j
      (d.pending t.name = none → exec (.tileArrive j t) s = .next s) ∧
      (∀ n e, d.pending t.name = some (n, e) → onlyLinks d e → ∃ u, exec (.tileArrive j t) s = .next u ∧
        (u = { s with
          jds := u.jds,
          outbox := s.outbox ++ (((linkReqs d e).filter fun q => decide (q.2 ≤ s.now)).map (fun q => Msg.neverProduced q.1 e.name q.2)
            ++ ((linkReqs d e).filter fun q => decide (s.now < q.2)).map (fun q => Msg.tile q.1 ⟨e.name, t.data⟩)) }) ∧
        Tab.find (u.jd j).claims n = some { e with st := .delivering, data := t.data }) ∧
      (∀ n e q r p inst h hs c hd, d.pending t.name = some (n, e) → e.reqs = [q] → Tab.find d.pool q = some r → s.now < r.expiry →
        r.from_ = .crew p inst h hs → s.handleOf p inst h hs = some (c, hd) → t.data.length ≤ hd.cap → t.data.length % 16 = 0 →
        ∃ u op, exec (.tileArrive j t) s = .next u ∧ u = { s with jds := u.jds, engines := Tab.put s.engines s.seq op, seq := s.seq + 1 } ∧
          op.segs = [{ src := [], dst := hd.dest, sbase := 0, dbase := hd.base, len := t.data.length }] ∧ op.refused = 0 ∧
          Tab.find (u.jd j).deliv s.seq = some { crew := p, inst := inst, handle := h, seq := hs, size := t.data.length } ∧
          Tab.find (u.jd j).claims n = some { e with st := .delivering, data := t.data })) ∧
    (∀ id d e, Tab.find (s.jd j).deliv id = some d → Tab.find s.engines id = some e → e.left = [] → e.far = [] → e.gwctFab ≤ s.now →
      ClaimEnds s (exec (.claimDelivered j id) s) d.crew d.inst d.handle d.seq (if e.refused = 0 then 1 + 2 ^ 32 * d.size else 2)) ∧
    (∀ n req e r, let d := s.jd j
      Tab.find d.claims n = some e → Tab.find d.pool req = some r → e.st ≠ .delivering → req ∈ e.reqs → r.expiry ≤ s.now →
      let rest := e.reqs.filter fun q => q != req
      let told := neverTo j e.name r.from_ r.expiry
      KeeperStep s (exec (.requesterExpiry j n req) s) j
        { d with expired := d.expired + 1, pool := Tab.del d.pool req,
                 claims := if rest = [] then Tab.del d.claims n else Tab.put d.claims n { e with reqs := rest } }
        told.1 (told.2 ++ (match e.hop with
          | some l => if rest = [] ∧ e.st = .forwarded then [.withdraw l e.name] else []
          | none => []))) ∧
    (∀ name expiry, let d := s.jd j
      (∀ p inst h q, ClaimEnds s (exec (.neverProduced j name expiry (some (.crew p inst h q))) s) p inst h q 2) ∧
      (∀ n e l, d.pending name = some (n, e) → e.st = .forwarded → e.hop = some l →
        (s.linkUp l = true → expiry < d.latest e → 
          KeeperStep s (exec (.neverProduced j name expiry none) s) j { d with claims := Tab.put d.claims n { e with sent := d.latest e } } []
            [.claim l name (d.latest e)]) ∧
        (s.linkUp l = false ∨ d.latest e ≤ expiry → onlyLinks d e → ∃ u, exec (.neverProduced j name expiry none) s = .next u ∧
          u = { s with jds := u.jds, outbox := s.outbox ++ (linkReqs d e).map fun q => Msg.neverProduced q.1 name q.2 } ∧ entryFree d (u.jd j) n e)) ∧
      (∀ n e, d.pending name = some (n, e) → e.st = .forwarded → onlyLinks d e → ∃ u, exec (.claimRefusal j name) s = .next u ∧
        u = { s with jds := u.jds, outbox := s.outbox ++ (linkReqs d e).map fun q => Msg.claimRefused q.1 name } ∧ entryFree d (u.jd j) n e)) ∧
    (∀ name l, let d := s.jd j
      ((∀ n e, d.pending name = some (n, e) → d.linkRec e (.link l) = none) → exec (.withdrawal j name l) s = .next s) ∧
      (∀ n e q r, d.pending name = some (n, e) → d.linkRec e (.link l) = some q → Tab.find d.pool q = some r → ∃ (u : State) (more : List Msg),
        exec (.withdrawal j name l) s = .next u ∧ u = { s with jds := u.jds, outbox := s.outbox ++ [.withdrawn l name r.expiry] ++ more } ∧
        Tab.find (u.jd j).pool q = none ∧ (∀ e', Tab.find (u.jd j).claims n = some e' → q ∉ e'.reqs) ∧
        (more ≠ [] → ∃ up, e.hop = some up ∧ more = [.withdraw up e.name])))) ∧
  (∀ (s : State) (j id : Nat) (d : Jd), s.jd j = d →
    (∀ a e seg segs e', Tab.find s.announces id = some a → Tab.find s.engines id = some e → e.segs = seg :: segs → e.refused = 0 → keeperNo a.name = j →
      s.passes = [] → (∃ c, s.crew? a.crew = some c ∧ c.storeq = [] ∧ c.sent = []) → announceRead (Go.start s) id e seg = (some e', Go.start s) →
      a.supersede = false → (s.teamCores a.team).Nodup →
      ∃ u, exec (.announceAccept j id) s = .next u ∧ Tab.find u.announces id = none ∧ Tab.find u.engines id = none ∧ u.mem = s.mem ∧
        (∀ n ∈ s.teamCores a.team, (u.coreOf n).ranges = (s.coreOf n).ranges.filter fun r => r.tag != id) ∧
        ((d.stocked a.name s.now).isSome = true → (u.ctx a.ctx).dupAnn = true ∧ u.jd j = { d with dup := d.dup + 1 }) ∧
        (d.stocked a.name s.now = none → d.pending a.name = none →
          let data := (unitBytes e' seg 0 0 seg.len).1
          (a.retain = 0 → u.jd j = d) ∧
          (a.retain ≠ 0 → d.stockUsed + (data.length + 255) / 256 ≤ 2 ^ 18 → 
            let t : StockTile := { name := a.name, data := data, retain := s.now + 16000 * a.retain, taken := s.now, expired := false, readers := 0 }
            ∃ n, u.jd j = { d with stock := Tab.put d.stock n t }))) ∧
    (∀ t, Tab.find d.stock id = some t → t.retain ≤ s.now → t.expired = false → 
      KeeperStep s (exec (.stockpileExpiry j id) s) j
        { d with stock := if t.readers = 0 then Tab.del d.stock id else Tab.put d.stock id { t with expired := true } } [] []) ∧
    (∀ e, id < 65536 → Tab.find d.claims id = some e → e.st = .delivering → ∃ u, exec (.deliveryHandedOn j id) s = .next u ∧
      u = { s with jds := u.jds } ∧ entryFree d (u.jd j) id e) ∧
    (∀ t, Tab.find d.stock id = some t → t.readers ≠ 0 → 
      KeeperStep s (exec (.deliveryHandedOn j (65536 + id)) s) j
        { d with stock := if t.expired = true ∧ t.readers = 1 then Tab.del d.stock id else Tab.put d.stock id { t with readers := t.readers - 1 } } [] []))

/-- spawn creates teams and counts them; retirements and reports count down; a launch completes at 0. A spawn whose record is at home and names
no peers completes: it writes the status of R231 (whether the counter of another home module is full is left open, log 65; that a gang must
fit this module for status 0 is read from R230, log 29); refused it creates nothing, accepted it creates the teams, waiting to be placed, or one gang of ranks for each `.gang` size, and adds their number to the
launch's counter or to the reports for its home; nothing but these and what reads, translations and leases record changes. A crew that has
drained retires, leaving the fault records that it still has to deliver, and the last one takes its team with it and one off the counter. When
fabric time has passed a crew's completion times and no other crew of its slot can issue, its waiting instruction is put on the agenda to issue
again (logs 3, 4). The home applies reports in turn; when the counter is 0
and fabric time past every store, the completion word is written and the packet completes. -/
def Obligations.SpawnsAndLaunchesCount : Prop :=
  ∀ (s : State),
    (∀ (f : Fields) (x k : Nat) (c : Crew) (sp : Split) (tm : Team) (a : Nat), Settled c sp → s.Executes .spawn f x k c sp →
      lowest (runLanes s .spawn f x k c sp) c.width ≠ none → s.team? c.team = some tm → fenceDone s x c 4 s.seq →
      s.UnitsAgree (coreUnits (x / 64)) c.ctx → s.HomeAccess x c (spawnKind 32) (operand64 c f.a) a → a % 64 + 32 ≤ 64 →
      s.liveCopy (x / 64) (a / 64) c.minGrant = none →
      let o := exec (.spawn f) s
      let v := leNat ((List.range 32).map fun j => s.byte (a + j))
      let n := v / 2 ^ 32 % 2 ^ 32
      v / 2 ^ 192 = 0 →
      (s.kd? tm.object (v % 2 ^ 32) = none → Faults s o x k c sp 20 (runLanes s .spawn f x k c sp)) ∧
      (∀ kd l, s.kd? tm.object (v % 2 ^ 32) = some kd → Tab.find s.launches tm.launch = some l → s.markedLost s.mod.modid = false →
        ∃ full, (l.home = none → full = decide (2 ^ 40 ≤ l.counter + n)) ∧
        let code := spawnCode s c.ctx kd full n
        ∃ u c' sp', OnwardD o u x k c c' sp sp' f.d code ∧ (∀ y, y ≠ x → u.crew? y = s.crew? y) ∧
          u = { s with crews := u.crews, cycles := u.cycles, coloc := u.coloc, tlbs := u.tlbs, tracks := u.tracks, lines := u.lines
                       cores := u.cores, seq := u.seq, launches := u.launches, pends := u.pends, gangs := u.gangs, teams := u.teams
                       agenda := u.agenda } ∧
          (code ≠ 0 ∨ n = 0 → u.pends = s.pends ∧ u.gangs = s.gangs ∧ u.launches = s.launches ∧ u.teams = s.teams ∧ u.agenda = s.agenda) ∧
          (code = 0 → n ≠ 0 → u.team? c.team = some { tm with relaunchOk := false } ∧
            (l.home = none → l.broken = false → Tab.find u.launches tm.launch = some { l with counter := l.counter + n }) ∧
            (l.home ≠ none → Tab.find u.launches tm.launch =
              some { l with reports := l.reports ++ [((n : Int), 0, List.replicate n s.mod.modid)] }) ∧
            (kd.gang = 0 → u.gangs = s.gangs ∧ ∃ p, u.pends = s.pends ++ [p] ∧ p.launch = tm.launch ∧ p.kernel = v % 2 ^ 32 ∧ p.object = tm.object ∧
              p.next = 0 ∧ p.last = n ∧ p.nteams = n ∧ p.args.toNat = v / 2 ^ 128 ∧ p.ctx = c.ctx ∧ p.time = s.now ∧ p.clock = sp.clock + 1) ∧
            (kd.gang ≠ 0 → u.pends = s.pends ∧ ∀ j, j < n / kd.gang → ∃ key gg m, Tab.find u.gangs key = some gg ∧ gg.first = j * kd.gang ∧
              gg.members = List.replicate kd.gang s.mod.modid ∧ gg.coord = s.mod.modid ∧ gg.st = .unplaced ∧ gg.time = s.now ∧
              .event (.reserve m) ∈ u.agenda ∧ m.gang = key ∧ m.first = j * kd.gang)))) ∧
    (∀ x k c, s.crew? x = some c → c.gmod < s.now ∨ c.gfab < s.now → s.agenda = [] →
      (∀ e ∈ s.crews, e.1 ≠ x → e.1 / 8 = x / 8 → e.2.ready = true → s.teamRuns e.2 = false) →
      exec (.gwctReached x k) s = .next { s with agenda := [.issue x k] }) ∧
    (∀ x c tm, s.crew? x = some c → crewDrained s x c = true → s.team? c.team = some tm →
      ∃ u, exec (.crewRetire x) s = .next u ∧ u.crew? x = none ∧
        ((∃ y ∈ tm.crews, y ≠ x) → u = { s with crews := u.crews, teams := u.teams, ctxs := u.ctxs } ∧
          (∀ d, u.ctx d = { s.ctx d with left := (s.ctx d).left ++ if d = c.ctx then c.keptRecs else [] }) ∧ (∀ y, y ≠ x → u.crew? y = s.crew? y) ∧
          u.team? c.team = some { tm with crews := tm.crews.filter fun y => y != x, gwct := max tm.gwct c.gfab }) ∧
        ((∀ y ∈ tm.crews, y = x) → tm.gang = none → Tab.find s.saved (2 * c.team) = none → u.team? c.team = none ∧
          ∀ l, Tab.find s.launches tm.launch = some l →
            (l.home = none → l.broken = false → Tab.find u.launches tm.launch =
              some { l with counter := l.counter - 1, gwct := max l.gwct (max tm.gwct c.gfab) }) ∧
            (l.home ≠ none → Tab.find u.launches tm.launch = some { l with reports := l.reports ++ [(-1, max tm.gwct c.gfab, [])] }))) ∧
    (∀ n l, Tab.find s.launches n = some l →
      (∀ p d t, l.home = none → p ≠ s.mod.modid → l.broken = false → ∃ l', exec (.spawnReport n p d t []) s = .next
        { s with launches := Tab.put s.launches n l' } ∧ l'.counter = (l.counter + d).toNat ∧ l'.gwct = max l.gwct t ∧
        l' = { l with counter := l'.counter, gwct := l'.gwct, reported := l'.reported } ∧
        (d < 0 → Tab.get 0 l'.reported p = Tab.get 0 l.reported p - 1)) ∧
      (∀ h d t ps rest (g : Go s), l.home = some h → l.reports = (d, t, ps) :: rest → 0 < d ∨ max t l.gwct < s.now ∧ s.orphaned n = false →
        peerIsLost (Go.start s) h = (false, g) → ∃ u, exec (.spawnReport n s.mod.modid 0 0 []) s = .next u ∧
          u.outbox = s.outbox ++ [.spawnReport h l.homeNo d (if 0 < d then t else max t l.gwct) ps] ∧
          u = { g.st with outbox := u.outbox, launches := u.launches } ∧
          Tab.find u.launches n = if rest = [] ∧ s.launchUsed n = false then none else some { l with reports := rest }) ∧
      (l.home = none → l.counter = 0 → l.broken = false → l.gwct < s.now → s.orphaned n = false → Tab.sorted s.queues = true →
        (l.done = 0 → ∃ u, exec (.launchComplete n) s = .next u ∧ u = { s with launches := u.launches, queues := u.queues } ∧
          Tab.find u.launches n = none ∧ ∀ q, ∀ r ∈ (u.queue q).runs, r.launch ≠ some n) ∧
        (l.done ≠ 0 → Tab.find s.engines (doneKey n) = none → ∀ a, s.HomeAt l.ctx l.done.toNat 4 true false a →
          ∃ u, exec (.launchComplete n) s = .next u ∧ Tab.find u.launches n = none ∧ (∀ q, ∀ r ∈ (u.queue q).runs, r.launch ≠ some n) ∧
            u.teams = s.teams ∧ ∀ b, u.byte b = lastWritten 4 [(a, l.doneVal.toNat)] s.byte b)))

/-- What the privileged instructions do at the service level. rdpr writes the register to D and clears what a read clears; wrpr writes it; both
raise illegal-operand, misaligned or permission as R375 gives. eret resolves the crew named, with status 0 to 3: it goes on, drains, or its
context is torn down. tinv removes the
translations it names and retires, or blocks while accesses that used one are under way. csave of another crew whose accesses are done, to a
range at home that passes its checks, stops that crew, writes its image and no other byte, and answers 0; 1 where the crew drains. crest from
such a range restores the register sections of a valid image and answers 0; 3 where the image is refused, 1 where the crew is not stopped.
halt goes on where the wake latch is set, and clears it, else it blocks. Chosen: the places of an image's fields the spec leaves open
(log 22), what the crew held as it stopped (log 59), and permission for a context that does not exist (log 63). -/
def Obligations.PrivilegedInstructions : Prop :=
  ∀ (f : Fields) (s : State) (x k : Nat) (c : Crew) (sp : Split), Settled c sp →
    (∀ (m : Mn), m ∈ [Mn.rdpr, .wrpr] → s.Executes m f x k c sp → lowest (runLanes s m f x k c sp) c.width ≠ none →
      let o := exec (m.instr f) s
      let a := operand32 c sp.wbase f.a 0
      (regAt a = none → Faults s o x k c sp 3 (runLanes s m f x k c sp)) ∧
      (∀ r, regAt a = some r →
        (a % 8 ≠ 0 → Faults s o x k c sp 4 (runLanes s m f x k c sp)) ∧
        (a % 8 = 0 → s.ctxReaches c.ctx (m == .wrpr) r = false → Faults s o x k c sp 7 (runLanes s m f x k c sp)) ∧
        (a % 8 = 0 → s.ctxReaches c.ctx (m == .wrpr) r = true →
          (m = .rdpr → ∃ u c' sp', o = .next u ∧ u.crew? x = some c' ∧ RetiredAt c c' k sp sp' (sp.pc + 12) ∧
            DestHolds c c' sp f (runLanes s m f x k c sp) 2 (fun _ => (regRead s r).toNat) (fun _ => (regRead s r).toNat) ∧
            (∀ n, destCell c sp m f (runLanes s m f x k c sp) n = false → c'.cell n = c.cell n) ∧ (∀ y, y ≠ x → u.crew? y = s.crew? y) ∧
            u = { (regClear (Go.start s) r).st with crews := u.crews, cycles := u.cycles, coloc := u.coloc }) ∧
          (m = .wrpr → ∀ v, v = (regStore (Go.start s) (isService c.ctx) r (BitVec.ofNat 64 (operandVal c sp.wbase .b64 false f.d 0))).st →
            v.crew? x = some c → v.teams = s.teams → ∃ u c' sp', Onward o u x k c c' sp sp' ∧ sp'.clock = sp.clock + 1 ∧ (∀ y, y ≠ x → u.crew? y = v.crew? y) ∧
              u = { v with crews := u.crews, cycles := u.cycles, coloc := u.coloc })))) ∧
    (s.Executes .eret f x k c sp → lowest (runLanes s .eret f x k c sp) c.width ≠ none →
      let o := exec (.eret f) s
      let run := runLanes s .eret f x k c sp
      let id := operand32 c sp.wbase f.a 0
      let act := operand64 c f.b
      let gives := fun n => Retires s o x k c sp fun c' => DestHolds c c' sp f run 2 (fun _ => n) (fun _ => n)
      ((s.ctx (id / 2 ^ 20)).state ≠ 0 → s.ctxInScope c.ctx (id / 2 ^ 20) = false → Faults s o x k c sp 7 run) ∧
      ((s.ctx (id / 2 ^ 20)).state = 0 ∨ s.ctxInScope c.ctx (id / 2 ^ 20) = true →
        (s.crewOfId id = none → gives 2) ∧
        (∀ y d, s.crewOfId id = some (y, d) → s.crew? y = some d →
          (d.st ≠ .stopped → gives 1) ∧
          (d.st = .stopped → (s.ctx d.ctx).state = 2 → act < 3 → gives 3) ∧
          (d.st = .stopped → (s.ctx d.ctx).state ≠ 2 → act = 2 → y ≠ x → d.arriving = [] → (∀ e ∈ d.splits, e.2.wait.asksTiles = false) →
            (∀ tm, s.team? d.team = some tm → tm.gdetach = [] ∧ tm.bars = []) →
            ∃ u c' sp' d', o = .next u ∧ u.crew? x = some c' ∧ RetiredAt c c' k sp sp' (sp.pc + 12) ∧ u.mem = s.mem ∧
              DestHolds c c' sp f run 2 (fun _ => 0) (fun _ => 0) ∧ u.crew? y = some d' ∧ d'.st = .draining ∧ d'.splits = [] ∧ d'.exited = laneMask d.width) ∧
          (d.st = .stopped → (s.ctx d.ctx).state ≠ 3 → 3 ≤ act → d.ctx ≠ c.ctx → ∃ u c' sp', o = .next u ∧ TornDown s u d.ctx ∧ u.crew? x = some c' ∧
            c'.split? k = some sp' ∧ sp'.pc = sp.pc + 12 ∧ DestHolds c c' sp f run 2 (fun _ => 0) (fun _ => 0)) ∧
          (d.st = .stopped → (s.ctx d.ctx).state ≠ 2 → act < 2 → y ≠ x → quietTiles s →
            (∀ e ∈ d.splits, e.2.st = .stopped ∧ (e.2.faulted = true ∨ (e.2.held = .ready ∧ e.2.wait = .none))) →
            ∃ u c' sp' d', o = .next u ∧ u.crew? x = some c' ∧ RetiredAt c c' k sp sp' (sp.pc + 12) ∧ u.mem = s.mem ∧
              DestHolds c c' sp f run 2 (fun _ => 0) (fun _ => 0) ∧ u.crew? y = some d' ∧ d'.st = .running ∧ d'.v = d.v ∧ d'.s = d.s ∧ d'.p = d.p ∧
              ∀ j, d'.split? j = (d.split? j).map fun q =>
                if q.faulted then { q with st := .ready, wait := .none, faulted := false, trapped := false
                                           pc := if act = 1 ∨ q.trapped = true then q.pc + 12 else q.pc }
                else { q with st := .ready })))) ∧
    (∀ (m : Mn) (what : Nat) (page : Option Nat), (m, what, page) ∈
        [(Mn.tinvPage, operand64 c f.b, some (operand64 c f.a % 2 ^ 56)), (.tinvCtx, operand64 c f.b, none),
         (.tinvPart, if isService c.ctx then 8192 else 4096 + (s.ctx c.ctx).part.toNat, none)] →
      s.Executes m f x k c sp → lowest (runLanes s m f x k c sp) c.width ≠ none →
      let o := exec (m.instr f) s
      (m = .tinvPage → operand64 c f.a / 2 ^ 56 % 16 ≠ 0 → Faults s o x k c sp 3 (runLanes s m f x k c sp)) ∧
      (m = .tinvPage → operand64 c f.a / 2 ^ 56 % 16 = 0 → what < 4096 → s.ctxInScope c.ctx what = false → Faults s o x k c sp 7 (runLanes s m f x k c sp)) ∧
      (m = .tinvCtx → s.ctxInScope c.ctx what = false → Faults s o x k c sp 7 (runLanes s m f x k c sp)) ∧
      (fenceDone s x c 4 s.seq → (m = .tinvPage → operand64 c f.a / 2 ^ 56 % 16 = 0) → (m ≠ .tinvPart → what < 4096 ∧ s.ctxInScope c.ctx what = true) →
        Tab.sorted s.tlbs = true → ∃ u c' sp',
          (s.tinvReady s.seq what = true → Onward o u x k c c' sp sp' ∧ sp'.clock = sp.clock + 1) ∧
          (s.tinvReady s.seq what = false → Blocks o u x k c c' sp sp' (.tinv s.seq what)) ∧
          u = { s with crews := u.crews, cycles := u.cycles, coloc := u.coloc, tlbs := u.tlbs, seq := s.seq + 1
                       walks := s.walks.filter fun w => !s.tinvNames what w.ctx } ∧ (∀ y, y ≠ x → u.crew? y = s.crew? y) ∧
          c'.minGrant = max c.minGrant s.now ∧
          ∀ unit, Tab.get [] u.tlbs unit = (Tab.get [] s.tlbs unit).filter fun e =>
            !(s.tinvNames what e.ctx && match page with | some a => e.covers e.ctx a | none => true))) ∧
    (∀ (m : Mn), m ∈ [Mn.csave, .crest] → s.Executes m f x k c sp → lowest (runLanes s m f x k c sp) c.width ≠ none →
      let o := exec (m.instr f) s
      let run := runLanes s m f x k c sp
      let id := operand32 c sp.wbase f.a 0
      let a := operand64 c f.b
      let gives := fun n => ∃ u c' sp', o = .next u ∧ u.crew? x = some c' ∧ RetiredAt c c' k sp sp' (sp.pc + 12) ∧
        DestHolds c c' sp f run 2 (fun _ => n) (fun _ => n) ∧ u = { s with crews := u.crews, cycles := u.cycles, coloc := u.coloc, tlbs := u.tlbs }
      (a % 64 ≠ 0 → Faults s o x k c sp 4 run) ∧
      (a % 64 = 0 → s.ctxInScope c.ctx (id / 2 ^ 20) = false → Faults s o x k c sp 7 run) ∧
      (a % 64 = 0 → s.ctxInScope c.ctx (id / 2 ^ 20) = true →
        (s.crewOfId id = none → gives 2) ∧
        (∀ y d ps, s.crewOfId id = some (y, d) → s.crew? y = some d → y ≠ x → s.UnitsAgree (coreUnits (x / 64)) c.ctx →
          s.HomeRange c.ctx a (imageSize d) (m == .csave) (s.dclass c) ps →
          s.rangeClash (x / 64) true c.ctx c.team (a % 2 ^ 56) (imageSize d) (m == .csave) = false →
          (m = .csave → d.st = .draining → gives 1) ∧
          (m = .csave → d.st ≠ .draining → s.saveReady d = true → (∀ tm, s.team? d.team = some tm → tm.leaving = false) → c.storeq = [] →
            (runCells (homeRuns ps)).Nodup →
            let d' := { (if d.st = .running then d.stop else d) with saver := none, asked := none }
            ∃ u c' sp', o = .next u ∧ u.crew? x = some c' ∧ RetiredAt c c' k sp sp' (sp.pc + 12) ∧ u.crew? y = some d' ∧
              DestHolds c c' sp f run 2 (fun _ => 0) (fun _ => 0) ∧
              (runCells (homeRuns ps)).map u.byte = crewImage s y d' (saveState s d (d.saver = some c.inst)) ∧
              ∀ b, b ∉ runCells (homeRuns ps) → u.byte b = s.byte b) ∧
          (m = .crest → d.st ≠ .stopped → gives 1) ∧
          (m = .crest → d.st = .stopped → let bs := runsHold s (homeRuns ps)
            (imageBad d y bs = true → gives 3) ∧
            (imageBad d y bs = false → ∃ u c' sp', o = .next u ∧ u.crew? x = some c' ∧ RetiredAt c c' k sp sp' (sp.pc + 12) ∧
              DestHolds c c' sp f run 2 (fun _ => 0) (fun _ => 0) ∧ u.crew? y = some (d.fromImage bs) ∧ u.mem = s.mem))))) ∧
    (s.Executes .halt f x k c sp → lowest (runLanes s .halt f x k c sp) c.width ≠ none → ∃ u c' sp',
      ((s.ctx c.ctx).wake = true → Onward (exec (.halt f) s) u x k c c' sp sp' ∧ sp'.clock = sp.clock + 1 ∧ (u.ctx c.ctx).wake = false ∧
        u = { s with crews := u.crews, cycles := u.cycles, coloc := u.coloc, ctxs := u.ctxs }) ∧
      ((s.ctx c.ctx).wake = false → Blocks (exec (.halt f) s) u x k c c' sp sp' .halt ∧ OnlyCrew s u x))

/-- Winch arithmetic, comparisons, branches, ldh, yld, halt and nopw. addh, subh, movh and lih write one register with 64-bit wrap; cmph and
setc write C; ldh loads 64 bits; loop, bra and brc go to PC + 1 + offset where taken, which lies in LO to HI, or stop winch-illegal with
nothing changed; yld and nopw go on; halt ends the context, PC on the halt, and a set that it completes answers. A word that R318 refuses stops its
context winch-illegal. PC + 1 past index 8191 is 0 (the model's choice, log 61). -/
def Obligations.WinchRegisterInstructions : Prop :=
  ∀ (f : WFields) (s : State) (w c : Nat) (v : Wctx), s.winchIssuer = some (w, c, v) →
    let val := if f.modf.toNat / 8 = 1 then v.hreg f.hb else (f.imm.signExtend 64).toNat
    (∀ (i : Instr) (op : Nat), (i, op) ∈ [(Instr.xmit f, 1), (.store f, 2), (.comb f, 3), (.combf f, 4), (.fwd f, 5), (.waitf f, 6), (.sigf f, 7),
        (.loop f, 8), (.winchBra f, 9), (.brc f, 10), (.addh f, 11), (.subh f, 12), (.movh f, 13), (.lih f, 14), (.cmph f, 15), (.ldh f, 16), (.setc f, 17),
        (.yld f, 18), (.winchHalt f, 19), (.nopw f, 20)] → winchOk op f = false → WinchFaults s (exec i s) w c v 1 0) ∧
    (∀ (i : Instr) (op r : Nat), (i, op, r) ∈ [(Instr.addh f, 11, (v.hreg f.ha + val) % 2 ^ 64), (.subh f, 12, (v.hreg f.ha + 2 ^ 64 - val) % 2 ^ 64),
        (.movh f, 13, v.hreg f.ha), (.lih f, 14, if f.modf.toNat % 2 = 1 then v.hreg f.hd % 2 ^ 32 + 2 ^ 32 * f.imm.toNat else (f.imm.signExtend 64).toNat)] →
      winchOk op f = true → ∃ h, WinchStep s (exec i s) w c (afterWinch { v with pc := v.pc + 1, h := h } false) ∧
        ∀ n : BitVec 4, (Tab.get 0 h n.toNat).toNat = if n = f.hd then r else v.hreg n) ∧
    (winchOk 15 f = true → WinchStep s (exec (.cmph f) s) w c (afterWinch { v with pc := v.pc + 1, c :=
      let a := BitVec.ofNat 64 (v.hreg f.ha)
      let b := BitVec.ofNat 64 val
      (match f.modf.toNat % 8 with
        | 0 => a == b | 1 => a != b | 2 => a.ult b | 3 => b.ule a | 4 => a.slt b | _ => b.sle a) } false)) ∧
    (winchOk 17 f = true → WinchStep s (exec (.setc f) s) w c (afterWinch { v with pc := v.pc + 1, c := f.modf.toNat % 2 == 1 } false)) ∧
    (winchOk 18 f = true → WinchStep s (exec (.yld f) s) w c (afterWinch { v with pc := v.pc + 1 } true)) ∧
    (winchOk 20 f = true → WinchStep s (exec (.nopw f) s) w c (afterWinch { v with pc := v.pc + 1 } false)) ∧
    (winchOk 16 f = true →
      let a := (v.hreg f.ha + (f.imm.signExtend 64).toNat) % 2 ^ 64
      (∀ e (g : Go s), winchWord (Go.start s) w v a 8 false = (.error e, g) → WinchFaults s (exec (.ldh f) s) w c v e.cause e.addr) ∧
      (∀ b, s.UnitsAgree (jdUnits (w / 8)) v.tid.toNat → s.HomeAt v.tid.toNat a 8 false false b →
        (s.poisoned b 8 = true → WinchFaults s (exec (.ldh f) s) w c v 18 a) ∧
        (s.poisoned b 8 = false → ∃ h t, ReadBy s t ∧ WinchStep t (exec (.ldh f) s) w c (afterWinch { v with pc := v.pc + 1, h := h } false) ∧
          ∀ n : BitVec 4, (Tab.get 0 h n.toNat).toNat = if n = f.hd then leNat ((List.range 8).map fun j => s.byte (b + j)) else v.hreg n))) ∧
    (∀ (i : Instr) (op : Nat), (i, op) ∈ [(Instr.loop f, 8), (.winchBra f, 9), (.brc f, 10)] → winchOk op f = true →
      let n := (v.hreg f.hd + 2 ^ 64 - 1) % 2 ^ 64
      let taken := if op = 8 then n ≠ 0 else if op = 9 then True else (v.c != (f.modf.toNat % 2 == 1)) = true
      let t : Int := v.pc.toNat + 1 + f.imm.toInt
      (taken → ¬ (v.lo.toNat ≤ t ∧ t ≤ v.hi.toNat) → WinchFaults s (exec i s) w c v 1 0) ∧
      (¬ taken ∨ (v.lo.toNat ≤ t ∧ t ≤ v.hi.toNat) → ∃ h pc, WinchStep s (exec i s) w c (afterWinch { v with pc := pc, h := h } false) ∧
        (taken → (pc.toNat : Int) = t) ∧ (¬ taken → pc = v.pc + 1) ∧
        ∀ r : BitVec 4, (Tab.get 0 h r.toNat).toNat = if op = 8 ∧ r = f.hd then n else v.hreg r)) ∧
    (winchOk 19 f = true → ∃ u, exec (.winchHalt f) s = .next u ∧
      u.wctx w c = { v with state := 5, wait := 0, cmd := none, stepping := false, burst := 0 } ∧ u.mem = s.mem ∧
      (∀ n, n ≠ 4 * w + c → Tab.get Wctx.reset u.wctxs n = Tab.get Wctx.reset s.wctxs n) ∧
      (s.wsets = [] → u = { s with wctxs := u.wctxs, wcur := u.wcur }) ∧
      (∀ ws m, s.wsets = [ws] → ws.peers = [] → ws.origin = some m → u.setBusy ws.ctx ws.set = false → u.wsets = [] ∧
        u.outbox = s.outbox ++ [.setDone m ws.ctx ws.set]))

/-- xmit, store, comb, combf, fwd, waitf and sigf. A chunk instruction waits for its chunk and its credit before any check. xmit sends the 2^CS
bytes at h[ha] as one chunk and spends the credit; store writes the arriving chunk there, comb its combination with the bytes there, combf
that and sends it on, fwd sends the chunk unchanged; a consumed chunk returns its credit, `.inc` raises h[ha], every other byte stays. A
chunk of the wrong size, a link that is down, a poisoned source or a refused range stops the context precisely, with its chunk held. waitf goes on
where its word satisfies the condition, else it waits; sigf stores or adds once fabric time has passed the earlier writes. PC + 1 past index 8191
is 0 (the model's choice, log 61). -/
def Obligations.WinchChunksAndFlags : Prop :=
  ∀ (f : WFields) (s : State) (w c : Nat) (v : Wctx), s.winchIssuer = some (w, c, v) →
    let l := f.imm.toNat % 32
    let ch := f.modf.toNat % 4
    let n := 2 ^ v.cs.toNat
    let a := v.hreg f.ha
    let credit := Tab.get 0 (s.link l).credits ch
    (winchOk 1 f = true →
      let o := exec (.xmit f) s
      (credit < n → WinchStep s o w c (winchWaiting v 2)) ∧
      (n ≤ credit → ∀ e (g : Go s), chunkRange (Go.start s) w v a false = (.error e, g) → WinchFaults s o w c v e.cause e.addr) ∧
      (n ≤ credit → ∀ ps, s.ChunkAt w v a n false ps → let rs := homeRuns ps
        (s.linkUp l = false → WinchFaults s o w c v 9 0) ∧
        (s.linkUp l = true → s.runPoison rs = true → WinchFaults s o w c v 18 a) ∧
        (s.linkUp l = true → s.runPoison rs = false → ∃ u v', o = .next u ∧ u.wctx w c = afterWinch v' true ∧ chunkNext f v v' ∧
          u.outbox = s.outbox ++ [.chunk l ch v.set.toNat v.cs.toNat (runsHold s rs)] ∧ Tab.get 0 (u.link l).credits ch = credit - n ∧
          ∃ t, ReadBy s t ∧ u = { t with outbox := u.outbox, links := u.links, wctxs := u.wctxs, wcur := u.wcur }))) ∧
    (∀ (i : Instr) (op : Nat), (i, op) ∈ [(Instr.store f, 2), (.comb f, 3), (.combf f, 4), (.fwd f, 5)] → winchOk op f = true →
      let o := exec i s
      let sends := op = 4 ∨ op = 5
      (v.rx = [] → WinchStep s o w c (winchWaiting v 1)) ∧
      (v.rx ≠ [] → sends → credit < n → WinchStep s o w c (winchWaiting v 2)) ∧
      (∀ m bs rest, v.rx = (m, bs) :: rest → (sends → n ≤ credit) →
        (m ≠ v.cs.toNat → WinchFaults s o w c v 3 0) ∧
        (op = 5 → m = v.cs.toNat → s.linkUp l = false → WinchFaults s o w c v 9 0) ∧
        (op = 5 → m = v.cs.toNat → bs.length = n → s.linkUp l = true → ∃ u, o = .next u ∧
          u.wctx w c = afterWinch { v with rx := rest, pc := v.pc + 1, held := false } true ∧
          u.outbox = s.outbox ++ [.credit w c n, .chunk l ch v.set.toNat v.cs.toNat bs] ∧ Tab.get 0 (u.link l).credits ch = credit - n ∧
          u = { s with outbox := u.outbox, links := u.links, wctxs := u.wctxs, wcur := u.wcur }) ∧
        (op ≠ 5 → m = v.cs.toNat → ∀ e (g : Go s), chunkRange (Go.start s) w v a true = (.error e, g) → WinchFaults s o w c v e.cause e.addr) ∧
        (op ≠ 5 → m = v.cs.toNat → bs.length = n → ∀ ps, s.ChunkAt w v a n true ps → let rs := homeRuns ps
          (runCells rs).Nodup → 6 ≤ v.cs.toNat →
          (op = 4 → s.linkUp l = false → WinchFaults s o w c v 9 0) ∧
          ((op = 4 → s.linkUp l = true) → ∃ u v', o = .next u ∧ u.wctx w c = afterWinch v' true ∧ chunkNext f v v' ∧ v'.rx = rest ∧
            let new := if op = 2 then bs else combBytes f (runsHold s rs) bs
            runsHold u rs = new ∧ (∀ b, b ∉ runCells rs → u.byte b = s.byte b) ∧
            u.outbox = s.outbox ++ [.credit w c n] ++ (if op = 4 then [.chunk l ch v.set.toNat v.cs.toNat new] else []) ∧
            (op = 4 → Tab.get 0 (u.link l).credits ch = credit - n) ∧ u.now = s.now ∧ u.teams = s.teams)))) ∧
    (winchOk 6 f = true →
      let o := exec (.waitf f) s
      (∀ e (g : Go s), winchWord (Go.start s) w v a 4 false = (.error e, g) → WinchFaults s o w c v e.cause e.addr) ∧
      (∀ b, s.UnitsAgree (jdUnits (w / 8)) v.tid.toNat → s.HomeAt v.tid.toNat a 4 false false b →
        let word := leNat ((List.range 4).map fun j => s.byte (b + j))
        let val := (if f.modf.toNat / 8 = 1 then v.hreg f.hb else (f.imm.signExtend 64).toNat) % 2 ^ 32
        let holds := match f.modf.toNat % 4 with | 0 => word = val | 1 => word ≠ val | 2 => val ≤ word | _ => word < val
        (s.poisoned b 4 = true → WinchFaults s o w c v 18 a) ∧
        (s.poisoned b 4 = false → holds → ∃ t, ReadBy s t ∧ WinchStep t o w c (afterWinch { v with pc := v.pc + 1 } false)) ∧
        (s.poisoned b 4 = false → ¬ holds → ∃ t, ReadBy s t ∧ WinchStep t o w c (winchWaiting v 3)))) ∧
    (winchOk 7 f = true →
      let o := exec (.sigf f) s
      (∀ e (g : Go s), winchWord (Go.start s) w v a 4 true = (.error e, g) → WinchFaults s o w c v e.cause e.addr) ∧
      (∀ b, s.UnitsAgree (jdUnits (w / 8)) v.tid.toNat → s.HomeAt v.tid.toNat a 4 true false b →
        let val := if f.modf.toNat / 8 = 1 then v.hreg f.hb else (f.imm.signExtend 64).toNat
        let old := leNat ((List.range 4).map fun j => s.byte (b + j))
        (s.now < v.sigf → ∃ u, o = .next u ∧ ReadBy s u) ∧
        (v.sigf ≤ s.now → ∃ u, o = .next u ∧ u.wctx w c = afterWinch { v with pc := v.pc + 1 } false ∧ u.outbox = s.outbox ∧ u.teams = s.teams ∧
          ∀ q, u.byte q = lastWritten 4 [(b, (if f.modf.toNat % 2 = 1 then old + val else val) % 2 ^ 32)] s.byte q)))

/-- wstart, start flits, chunk arrivals, credits and the commands of a winch context. wstart writes status 1 for a set that is busy (also where 2
applies too, the model's choice, log 75) and 2 for one whose entry or lists it cannot read (on a FABRIC-WINDOW page neither, the model's choice,
log 62); else, once the crew's accesses are past GFAB, it registers the declared ranges, starts the set's contexts with h15 as
the argument, sends a start flit to every other module of the set and writes 0. A start flit starts the contexts or is refused and answered
DONE, as where its entry or lists cannot be read. An arriving chunk of the context's set joins its receive queue, another one is discarded with its
credit; returned credits let contexts go on; a burst of 4096 instructions yields; a waitf is over once its word satisfies it, at PC + 1 (past index
8191 that is 0, log 61); load, run, step, stop and clear act in the states of R468 and R469, clear with a held chunk gone and its credit
returned. -/
def Obligations.WinchSetsAndCommands : Prop :=
  (∀ (f : Fields) (s : State) (x k : Nat) (c : Crew) (sp : Split) (tm : Team), Settled c sp → s.Executes .wstart f x k c sp → s.team? c.team = some tm →
    lowest (runLanes s .wstart f x k c sp) c.width ≠ none →
    let o := exec (.wstart f) s
    let set := operand64 c f.a
    let arg := if f.b = .none then 0 else operand64 c f.b
    (255 < set → Faults s o x k c sp 3 (runLanes s .wstart f x k c sp)) ∧
    (set < 256 → s.setBusy c.ctx set = true → ∃ u c' sp', OnwardD o u x k c c' sp sp' f.d 1 ∧ OnlyCrew s u x) ∧
    (set < 256 → s.setBusy c.ctx set = false → (∀ rs ps, ¬ s.SetIs c.ctx set rs ps) → ∃ u c' sp',
      OnwardD o u x k c c' sp sp' f.d 2 ∧ u.wctxs = s.wctxs ∧ u.wsets = s.wsets ∧ u.mem = s.mem ∧ u.cores = s.cores) ∧
    (set < 256 → s.setBusy c.ctx set = false → ∀ (rs : List SetRange) (ps : List Nat), s.SetIs c.ctx set rs ps →
      fenceDone s x c 5 s.seq → rs.length ≤ 32 → s.UnitsAgree (coreUnits (x / 64)) c.ctx →
      (∀ r ∈ rs, ∃ qs, s.HomeRange c.ctx r.base r.len r.recv (s.dclass c) qs) →
      (∀ n ∈ tm.cores, (s.coreOf n).ranges.length + rs.length ≤ 32) → tm.cores.Nodup → Tab.sorted s.wctxs = true → s.wsets = [] → setLoaded s c.ctx set →
      ∃ u c' sp', OnwardD o u x k c c' sp sp' f.d 0 ∧ setStarts s u c.ctx set (BitVec.ofNat 64 arg) ∧ u.mem = s.mem ∧
        u.outbox = s.outbox ++ (ps.map fun p => Msg.startFlit p c.ctx set (BitVec.ofNat 64 arg)) ∧
        (∃ ws, u.wsets = [ws] ∧ ws.ctx = c.ctx ∧ ws.set = set ∧ ws.peers = ps ∧ ws.origin = none ∧ ws.tag = s.seq) ∧
        ∀ n ∈ tm.cores, (u.coreOf n).ranges = (s.coreOf n).ranges ++ rs.map fun r => copyLock r.recv false c.team r.base r.len s.seq)) ∧
  (∀ (s : State) (ctx set m : Nat) (arg : Word),
    (s.setBusy ctx set = true → ∃ u j, exec (.wsetStartFlit ctx set arg m) s = .next u ∧ j < 4 ∧ (u.jd j).wsetRefused = (s.jd j).wsetRefused + 1 ∧
      u = { s with jds := u.jds, outbox := s.outbox ++ [.setDone m ctx set] }) ∧
    (s.setBusy ctx set = false → (∀ rs ps, ¬ s.SetIs ctx set rs ps) → ∃ u j, exec (.wsetStartFlit ctx set arg m) s = .next u ∧ j < 4 ∧
      (u.jd j).wsetRefused = (s.jd j).wsetRefused + 1 ∧ ∃ t, ReadBy s t ∧ u = { t with jds := u.jds, outbox := s.outbox ++ [.setDone m ctx set] }) ∧
    (s.setBusy ctx set = false → ∀ ps rs, s.SetIs ctx set rs ps → s.wsets = [] → Tab.sorted s.wctxs = true →
      setLoaded s ctx set → ∃ u, exec (.wsetStartFlit ctx set arg m) s = .next u ∧ setStarts s u ctx set arg ∧ u.mem = s.mem ∧ u.outbox = s.outbox ∧
        u.wsets = [{ ctx := ctx, set := set, peers := [], origin := some m, tag := 0, queue := none }]) ∧
    (∀ ws, s.wsets = [ws] → ws.ctx = ctx → ws.set = set → ws.origin = none → m ∈ ws.peers → ws.queue = none → ∃ u, exec (.wsetDone ctx set m) s = .next u ∧
      u.mem = s.mem ∧ u.wctxs = s.wctxs ∧
      ((ws.peers.filter fun p => p != m) ≠ [] ∨ s.setBusy ctx set = true → u.wsets = [{ ws with peers := ws.peers.filter fun p => p != m }]) ∧
      ((ws.peers.filter fun p => p != m) = [] → s.setBusy ctx set = false → Tab.sorted s.cores = true → u.wsets = [] ∧
        ∀ n, (u.coreOf n).ranges = (s.coreOf n).ranges.filter fun r => r.tag != ws.tag))) ∧
  (∀ (s : State) (w c : Nat), let v := s.wctx w c
    let keeps := fun (o : Host.Outcome State Fault Refusal) (v' : Wctx) => ∃ u, o = .next u ∧ u = { s with wctxs := u.wctxs } ∧ u.wctx w c = v' ∧
      ∀ n, n ≠ 4 * w + c → Tab.get Wctx.reset u.wctxs n = Tab.get Wctx.reset s.wctxs n
    (∀ set cs data, data.length = 2 ^ cs →
      (set = v.set.toNat → keeps (exec (.chunkArrive w c set cs data) s)
        (if v.state = 3 ∧ v.wait = 1 then { v with rx := v.rx ++ [(cs, data)], state := 2, wait := 0 } else { v with rx := v.rx ++ [(cs, data)] })) ∧
      (set ≠ v.set.toNat → ∃ u, exec (.chunkArrive w c set cs data) s = .next u ∧ (u.link w).errCnt = (s.link w).errCnt + 1 ∧
        u = { s with links := u.links, outbox := s.outbox ++ [.credit w c data.length] })) ∧
    (∀ l n, Tab.sorted s.wctxs = true → ∃ u, exec (.creditReturn l c n) s = .next u ∧ u = { s with links := u.links, wctxs := u.wctxs } ∧
      Tab.get 0 (u.link l).credits c = Tab.get 0 (s.link l).credits c + n ∧
      ∀ key, Tab.get Wctx.reset u.wctxs key = (let q := Tab.get Wctx.reset s.wctxs key
        if q.state = 3 ∧ q.wait = 2 then { q with state := 2, wait := 0 } else q)) ∧
    (Tab.get 0 s.wcur w = c → v.state = 2 → 4096 ≤ v.burst → keeps (exec (.winchForcedYield w) s) (afterWinch v true)) ∧
    (∀ f b, v.state = 3 → v.wait = 3 → decodeWinch (Tab.get 0 s.imem (8192 * w + v.pc.toNat)).toNat = .ok (.waitf f) →
      s.UnitsAgree (jdUnits (w / 8)) v.tid.toNat → s.HomeAt v.tid.toNat (v.hreg f.ha) 4 false false b → s.poisoned b 4 = false →
      let word := leNat ((List.range 4).map fun j => s.byte (b + j))
      let val := (if f.modf.toNat / 8 = 1 then v.hreg f.hb else (f.imm.signExtend 64).toNat) % 2 ^ 32
      let holds := match f.modf.toNat % 4 with | 0 => word = val | 1 => word ≠ val | 2 => val ≤ word | _ => word < val
      (holds → ∃ u t, exec (.waitfReread w c) s = .next u ∧ ReadBy s t ∧ u = { t with wctxs := u.wctxs } ∧
        u.wctx w c = (if v.stepping = true then { v with state := 4, wait := 0, cmd := none, stepping := false, burst := 0, pc := v.pc + 1 }
          else { v with state := 2, wait := 0, pc := v.pc + 1 }) ∧
        ∀ n, n ≠ 4 * w + c → Tab.get Wctx.reset u.wctxs n = Tab.get Wctx.reset s.wctxs n) ∧
      (¬ holds → ∃ u, exec (.waitfReread w c) s = .next u ∧ ReadBy s u)) ∧
    (v.cmd = none →
      (v.state = 0 ∨ v.state = 5 → keeps (exec (.wcLoad w c) s) { v with state := 1 }) ∧
      (v.state = 1 ∨ v.state = 4 ∨ v.state = 5 → keeps (exec (.wcRun w c) s) { v with state := 2, burst := 0 }) ∧
      (v.state = 1 ∨ v.state = 4 → keeps (exec (.wcStep w c) s) { v with state := 2, stepping := true, burst := 0 }) ∧
      (v.state = 3 ∨ (v.state = 2 ∧ v.burst = 0) → keeps (exec (.wcStop w c) s) { v with state := 4, wait := 0, cmd := none, stepping := false, burst := 0 }) ∧
      (v.state = 2 → v.burst ≠ 0 → keeps (exec (.wcStop w c) s) { v with cmd := some 3 }) ∧
      (s.wsets = [] → v.held = false → v.state = 1 ∨ v.state = 4 ∨ v.state = 5 → keeps (exec (.wcClear w c) s) { v with state := 0 }) ∧
      (s.wsets = [] → v.held = true → v.state = 4 → ∀ m bs rest, v.rx = (m, bs) :: rest → ∃ u, exec (.wcClear w c) s = .next u ∧
        u.wctx w c = { v with state := 0, rx := rest, held := false } ∧ u = { s with wctxs := u.wctxs, outbox := s.outbox ++ [.credit w c bs.length] })))

/-- Every packet issues, waits or halts its queue, and completes. NOPK advances Q.HEAD; FENCE waits while an earlier packet is incomplete;
REPLAY lets crews stopped on a miss go on; WAITV issues where its word satisfies the condition and else waits; LAUNCH with a valid block
creates a launch with its counter at 1 and its seed, and one with a misaligned address halts its queue; WSET starts a set, or halts its queue where
its entry or lists cannot be read (on a FABRIC-WINDOW page neither, the model's choice, log 62); LAUNCH and WSET wait while 4096 of them are
incomplete; COPY hands its ranges to an engine; SIGNAL stores or adds its value.
A packet with an error halts its queue with the lowest code; every packet whose words and ranges are at home and in order issues. COPY and
SIGNAL complete once acknowledged and past their completion time, SIGNAL with its interrupt; a COPY that another module refused halts its
queue with error 4 as it completes (when it does so the specification leaves open, log 66). -/
def Obligations.PacketsIssueAndComplete : Prop :=
  ∀ (s : State) (q : Nat) (v : Queue), s.queueIssuer = some (q, v) →
    let ctx := v.ctx.toNat
    ((s.ctx ctx).state = 2 → QueueHalts s (exec .nopk s) q v 8 8 ∧ QueueHalts s (exec .fencePacket s) q v 8 6) ∧
    ((s.ctx ctx).state ≠ 2 →
      (∃ u, exec .nopk s = .next u ∧ QueueIs s u q (pastPacket v []) ∧ u = { s with queues := u.queues }) ∧
      (∃ u, exec .fencePacket s = .next u ∧ u = { s with queues := u.queues } ∧
        QueueIs s u q (if v.runs = [] then pastPacket v [] else { v with waiting := true, saved := some (2, 6) })) ∧
      (∀ y d, s.crews = [(y, d)] → d.ctx = ctx → d.st = .stopped → d.fb = true → s.saved = [] → quietTiles s →
        (∀ e ∈ d.splits, e.2.st = .stopped ∧ e.2.faulted = true) → ∃ u d', exec .replay s = .next u ∧ u.queue q = pastPacket v [] ∧
          u.crew? y = some d' ∧ d'.st = .running ∧ d'.v = d.v ∧ d'.s = d.s ∧ d'.p = d.p ∧ (u.ctx ctx).fb = [] ∧ u.mem = s.mem ∧
          ∀ j, d'.split? j = (d.split? j).map fun e => { e with st := .ready, wait := .none, faulted := false, trapped := false
                                                                pc := if e.trapped then e.pc + 12 else e.pc }) ∧
      (∀ (p : WaitvPkt), let n := if p.size then 8 else 4
        (p.addr.toNat % n ≠ 0 → QueueHalts s (exec (.waitv p) s) q v 2 4) ∧
        (p.addr.toNat % n = 0 →
          (∀ (g : Go s), agentRead (Go.start s) (queueKey q 2) ctx p.addr.toNat n = (.bad, g) → QueueHalts s (exec (.waitv p) s) q v 4 4) ∧
          (∀ ps, s.HomeRange ctx p.addr.toNat n false false ps → let word := leNat (runsHold s (homeRuns ps))
            ∃ u, exec (.waitv p) s = .next u ∧ (waitvHolds p word → QueueIs s u q (pastPacket v [])) ∧
            (¬ waitvHolds p word → ∃ w, QueueIs s u q { v with waiting := true, saved := some (1, w) } ∧
              decodePacket w.toNat = .ok (.waitv p)) ∧ ∃ t, ReadBy s t ∧ u = { t with queues := u.queues }))) ∧
      (∀ (p : LaunchPkt), 4096 ≤ s.frontEnd → exec (.launch p) s = .next s) ∧
      (∀ (p : LaunchPkt), s.frontEnd < 4096 → let misplaced := p.args.toNat % 8 ≠ 0 ∨ p.done.toNat % 4 ≠ 0;
        (p.params.toNat % 64 ≠ 0 → QueueHalts s (exec (.launch p) s) q v 2 1) ∧
        (p.params.toNat % 64 = 0 →
          (∀ (g : Go s), agentRead (Go.start s) (queueKey q 1) ctx p.params.toNat 64 = (.bad, g) →
            QueueHalts s (exec (.launch p) s) q v (if misplaced then 2 else 4) 1) ∧
          (misplaced → ∀ ps, s.HomeRange ctx p.params.toNat 64 false false ps → QueueHalts s (exec (.launch p) s) q v 2 1))) ∧
      (∀ (p : LaunchPkt), s.frontEnd < 4096 → p.params.toNat % 64 = 0 → p.args.toNat % 8 = 0 → p.done.toNat % 4 = 0 → ∀ ps,
        s.HomeRange ctx p.params.toNat 64 false false ps →
        let b := leNat (runsHold s (homeRuns ps))
        (s.launchKernel ctx p.object.toNat p.kernel.toNat = none → lpbOk (s.ctx ctx) b = true → QueueHalts s (exec (.launch p) s) q v 5 1) ∧
        (lpbOk (s.ctx ctx) b = false → QueueHalts s (exec (.launch p) s) q v 2 1) ∧
        (s.launchKernel ctx p.object.toNat p.kernel.toNat ≠ none → lpbOk (s.ctx ctx) b = true → ∃ u l d, exec (.launch p) s = .next u ∧
          QueueIs s u q (pastPacket v [{ newRun v with launch := some s.seq }]) ∧
          (∃ t, ReadBy s t ∧ u = { t with queues := u.queues, launches := Tab.put s.launches s.seq l, pends := s.pends ++ [d], seq := s.seq + 1 }) ∧
          l.counter = 1 ∧ l.home = none ∧ l.broken = false ∧ l.prio = v.cls.toNat ∧ l.args = p.args ∧ l.done = p.done ∧ l.doneVal = p.doneVal ∧
          l.pool.toNat = b % 2 ^ 64 ∧ l.stack = b / 2 ^ 64 % 2 ^ 32 ∧ l.retry = b / 2 ^ 104 % 2 ^ 8 ∧ l.ctx = ctx ∧
          d.launch = s.seq ∧ d.kernel = p.kernel.toNat ∧ d.nteams = 1 ∧ d.next = 0 ∧ d.last = 1 ∧ d.args = p.args ∧ d.ctx = ctx)) ∧
      (∀ (p : WsetPkt), 4096 ≤ s.frontEnd → exec (.wset p) s = .next s) ∧
      (∀ (p : WsetPkt), s.frontEnd < 4096 → let set := p.set.toNat
        ((∀ rs ps, ¬ s.SetIs ctx set rs ps) → QueueHalts s (exec (.wset p) s) q v (if s.setBusy ctx set then 6 else 7) 2) ∧
        (∀ rs ps, s.SetIs ctx set rs ps →
          (s.setBusy ctx set = true → QueueHalts s (exec (.wset p) s) q v 6 2) ∧
          (s.setBusy ctx set = false → s.wsets = [] → Tab.sorted s.wctxs = true → setLoaded s ctx set → ∃ u, exec (.wset p) s = .next u ∧
            QueueIs s u q (pastPacket v [{ newRun v with set := some set }]) ∧ setStarts s u ctx set p.arg ∧
            u.outbox = s.outbox ++ ps.map fun m => Msg.startFlit m ctx set p.arg))) ∧
      (∀ (p : CopyPkt), let n := p.len.toNat
        (n = 0 ∨ rangesMeet false false p.src.toNat p.dst.toNat n n = true → QueueHalts s (exec (.copyPacket p) s) q v 2 3) ∧
        (n ≠ 0 → rangesMeet false false p.src.toNat p.dst.toNat n n = false →
          (∀ (es es' ed ed' : List Stop) (ps ps' pd pd' : Pieces) (g1 g2 g3 g4 : Go s),
            rangePieces (Go.start s) [] ctx p.src.toNat n false (n / 2 ^ 16 + 2) = ((es, ps), g1) → piecePeers g1 ctx p.src.toNat false ps = ((es', ps'), g2) →
            rangePieces g2 [] ctx p.dst.toNat n true (n / 2 ^ 16 + 2) = ((ed, pd), g3) → piecePeers g3 ctx p.dst.toNat true pd = ((ed', pd'), g4) →
            es ++ es' ++ ed ++ ed' ≠ [] → QueueHalts s (exec (.copyPacket p) s) q v 4 3) ∧
          (∀ ps pd, s.HomeRange ctx p.src.toNat n false false ps → s.HomeRange ctx p.dst.toNat n true false pd →
            ∃ u e, exec (.copyPacket p) s = .next u ∧ QueueIs s u q (pastPacket v [{ newRun v with op := some s.seq }]) ∧
            u = { s with queues := u.queues, engines := Tab.put s.engines s.seq e, seq := s.seq + 1 } ∧
            e.segs = [{ src := ps, dst := pd, sbase := p.src.toNat, dbase := p.dst.toNat, len := n }] ∧ e.refused = 0))) ∧
      (∀ (p : SignalPkt), let n := if p.size then 8 else 4
        (p.addr.toNat % n ≠ 0 → QueueHalts s (exec (.signal p) s) q v 2 5) ∧
        (p.addr.toNat % n = 0 →
          (∀ (g : Go s), agentPlace (Go.start s) ctx p.addr.toNat n = (none, g) → QueueHalts s (exec (.signal p) s) q v 4 5) ∧
          (∀ a, s.HomeAt ctx p.addr.toNat n true false a → ∃ u t, exec (.signal p) s = .next u ∧
            u.queue q = pastPacket v [{ newRun v with gwct := t, signal := true, irq := p.irq }] ∧ s.now < t ∧ u.teams = s.teams ∧
            let old := leNat ((List.range n).map fun j => s.byte (a + j))
            ∀ b, u.byte b = lastWritten n [(a, (if p.add then old + p.value.toNat else p.value.toNat) % 2 ^ (8 * n))] s.byte b)))) ∧
    (∀ r, v.runs.find? (fun e => e.no == r.no) = some r →
      let gone := { v with runs := v.runs.filter fun e => e.no != r.no }
      (∀ id e, r.op = some id → r.signal = false → Tab.find s.engines id = some e → e.left = [] → e.far = [] → e.gwctFab ≤ s.now → s.agentBusy id = false →
        ∃ u, exec (.copyPacketComplete q r.no) s = .next u ∧
          (e.refused = 0 → QueueIs s u q gone ∧ u = { s with queues := u.queues, engines := Tab.del s.engines id }) ∧
          (e.refused ≠ 0 → u.outbox = s.outbox ++ [.msix v.vi.toNat v.msix.toNat] ∧ QueueIs s u q
            { gone with halted := true, err := 4, errType := 3, waiting := false, pending := false, mapped := false, slot := 0xFF, leaves := false })) ∧
      (r.op = none → r.signal = true → r.gwct ≤ s.now → ∃ u, exec (.signalComplete q r.no) s = .next u ∧ QueueIs s u q gone ∧
        u = { s with queues := u.queues, outbox := s.outbox ++ if r.irq then [.msix v.vi.toNat v.msix.toNat] else [] })) ∧
    (∀ w (p : WaitvPkt) ps, let n := if p.size then 8 else 4
      v.en = true → v.saved = some (1, w) → decodePacket w.toNat = .ok (.waitv p) → p.addr.toNat % n = 0 → (s.ctx ctx).state ≠ 2 →
      s.HomeRange ctx p.addr.toNat n false false ps → waitvHolds p (leNat (runsHold s (homeRuns ps))) →
      ∃ u t, exec (.waitvReread q) s = .next u ∧ QueueIs s u q (pastPacket v []) ∧ ReadBy s t ∧ u = { t with queues := u.queues })

/-- Slots, kicks, queue control and resumption. The waiting queue that takes a slot is mapped to it, its pending bit clear; a queue that was disabled
while mapped is unmapped, its slot free, and waits again where it has work, once a packet that is being checked has issued; while its control
block is on its way to another module nothing happens, and then the write ends; while the host link is down a host's writes are withheld; an
effective class ages by one. A control word that would enable a queue whose
context is not active of its interface is discarded whole, as is a host's for a service context (log 64); else its fields are taken, Q.SIZE and Q.CTX only while the queue was disabled. A
Q.TAIL past the ring halts the queue with error 3, a halted one too, else a kick to an enabled unmapped queue sets its pending bit; resuming clears the halt,
past the packet or on it. -/
def Obligations.QueuesAreScheduled : Prop :=
  ∀ (s : State) (q : Nat), let v := s.queue q
    (∀ slot, s.waitingQueues (s.queuePart q) = [(q, v)] → slot ∈ s.slotTargets (s.queuePart q) q → (Tab.get Slot.reset s.slots slot).busy = false →
      ∃ u, exec (.queueSchedule slot q) s = .next u ∧ u = { s with queues := u.queues, slots := u.slots } ∧
        QueueIs s u q { v with mapped := true, slot := BitVec.ofNat 8 slot, ecls := v.cls, pending := false, mappedAt := s.now } ∧
        Tab.get Slot.reset u.slots slot = { time := BitVec.ofNat 32 (s.now / 1000), busy := true, cls := v.cls, queue := BitVec.ofNat 10 q }) ∧
    (v.mapped = true → v.leaves = true ∨ v.en = false → s.storeStands (queueKey q 3) = none → s.checking q = true →
      ∃ u, exec (.forcedUnmap q) s = .next u ∧ u = { s with queues := u.queues } ∧ QueueIs s u q { v with leaves := true }) ∧
    (s.storeStands (queueKey q 3) = some .wait → exec (.forcedUnmap q) s = .next s) ∧
    (s.storeStands (queueKey q 3) = some .done → ∃ u, exec (.forcedUnmap q) s = .next u ∧ u = { s with engines := u.engines } ∧
      u.queue q = v ∧ u.storeStands (queueKey q 3) = none) ∧
    (v.mapped = true → v.leaves = true ∨ v.en = false → s.storeStands (queueKey q 3) = none → s.checking q = false →
      ∃ u, exec (.forcedUnmap q) s = .next u ∧ (u.queue q).mapped = false ∧ (u.queue q).slot = 0xFF ∧ (u.queue q).leaves = false ∧
      (Tab.get Slot.reset u.slots v.slot.toNat).busy = false ∧ (u.queue q).head = v.head ∧ (u.queue q).saved = v.saved ∧ LeasesAside s u ∧
      ((u.queue q).pending = (v.pending || v.work) ∧ (u.queue q).halted = v.halted ∨
        (u.queue q).halted = true ∧ (u.queue q).err = 4 ∧ u.outbox = s.outbox ++ [.msix v.vi.toNat v.msix.toNat])) ∧
    (v.pending = true → v.mapped = false → v.ecls ≠ 0 → v.agedAt + 1000 * (s.part (s.queuePart q)).qsaAge ≤ s.now →
      ∃ u, exec (.eclassAging q) s = .next u ∧ u = { s with queues := u.queues } ∧
        QueueIs s u q { v with ecls := v.ecls - 1, agedAt := v.agedAt + 1000 * (s.part (s.queuePart q)).qsaAge }) ∧
    (s.mod.hostUp = false →
      let late := fun (off : Nat) (x : Word) =>
        Host.Outcome.next { s with mod := { s.mod with withheld := s.mod.withheld ++ [(v.vi.toNat, queueAddr q off, some x)] } };
      ∀ x, exec (.qControlWrite q false x) s = late 0 x ∧ exec (.qTailKick q x) s = late 0x10 x ∧ exec (.qResumeSkip q) s = late 0x38 1 ∧
        exec (.qResumeRetry q) s = late 0x38 2) ∧
    (∀ may x, may = true ∨ s.mod.hostUp = true → let n := x.toNat
      let ctx := n / 2 ^ 32 % 2 ^ 12
      let vi := if may then BitVec.ofNat 6 (n / 2 ^ 44) else v.vi
      let refused := n % 2 = 1 ∧ v.en = false ∧ ¬ ((s.ctx ctx).state = 1 ∧ (s.ctx ctx).vi = vi ∧ (may = true ∨ (s.ctx ctx).level = false))
      (refused → exec (.qControlWrite q may x) s = .next s) ∧
      (¬ refused → ∃ u, exec (.qControlWrite q may x) s = .next u ∧ u = { s with queues := u.queues, agenda := u.agenda } ∧
        QueueIs s u q { v with vi := vi, cls := BitVec.ofNat 2 (n / 2 ^ 4), en := n % 2 == 1, ctx := if v.en then v.ctx else BitVec.ofNat 12 ctx
                               size := if v.en = true ∨ n / 2 ^ 8 % 16 < 4 then v.size else BitVec.ofNat 4 (n / 2 ^ 8), pending := v.pending && n % 2 == 1
                               leaves := v.leaves || (v.mapped && n % 2 == 0) } ∧
        u.agenda = if n % 2 = 0 ∧ v.mapped = true then s.agenda ++ [.event (.forcedUnmap q)] else s.agenda)) ∧
    (∀ x, s.mod.hostUp = true → let w := { v with tail := BitVec.ofNat 16 x.toNat }
      ∃ u, exec (.qTailKick q x) s = .next u ∧ u.mem = s.mem ∧
        (v.halted = true → (w.tail - v.head).toNat ≤ 2 ^ v.size.toNat → QueueIs s u q w) ∧
        (2 ^ v.size.toNat < (w.tail - v.head).toNat →
          QueueIs s u q { w with halted := true, err := 3, errType := (u.queue q).errType, waiting := false, pending := false, mapped := false
                                 slot := (u.queue q).slot, leaves := (u.queue q).leaves } ∧ u.outbox = s.outbox ++ [.msix v.vi.toNat v.msix.toNat]) ∧
        (v.halted = false → (w.tail - v.head).toNat ≤ 2 ^ v.size.toNat → u = { s with queues := u.queues } ∧ QueueIs s u q
          (if v.en = true ∧ v.mapped = false ∧ v.pending = false then { w with pending := true, ecls := v.cls, since := s.now, agedAt := s.now } else w))) ∧
    (v.halted = true → s.mod.hostUp = true → ∀ (i : Instr) (skip : Bool), (i, skip) ∈ [(Instr.qResumeSkip q, true), (.qResumeRetry q, false)] → ∃ u, exec i s = .next u ∧
      u = { s with queues := u.queues } ∧ (u.queue q).halted = false ∧ (u.queue q).err = 0 ∧ (u.queue q).head = (if skip then v.head + 1 else v.head) ∧
      (u.queue q).saved = (if skip then none else v.saved) ∧ (v.en = true → (u.queue q).work = true → (u.queue q).pending = true) ∧
      ∀ n, n ≠ q → u.queue n = s.queue n)

/-- Placement, gangs by reserve and commit, pre-emption and restoration. The first waiting team that fits is placed with its crews at their
first instruction. RESERVE makes a gang known and holds a window; HELD from every module sends COMMIT; COMMIT places the members, or refuses
without the hold; PLACED from every module sends GO, REFUSED sends CANCEL; GO starts the members, CANCEL removes them. A release notice takes a
module's hold back, or, naming a rank, says that the member there has detached (log 31): the last one ends the gang. A gang that is to be
saved leaves on every module, before GO once that comes; with every module's SAVED its cores are free and RESERVE goes out (the other modules hear
of it by the coordinator's own SAVED, log 38); it comes back by RESERVE, COMMIT and GO with its crews as they were. After DIST.GANGWAIT a window is
reserved, after the drain time its lower classes leave. DV.GO makes the teams of the cores it names leave, a gang's through its gang: DV.BUSY
stands until they are gone, each saved once it has drained, and DV.DONE then counts the cores that are free; a saved team comes back to its places
(as it was saved, log 78). The co-location measurement since its last window gives a kernel its class (log 48). -/
def Obligations.DistributorPlacesTeamsAndGangs : Prop :=
  ∀ (s : State),
    (∀ part p kd l core, s.leaver part = none → (s.part part).dvBusy = false → s.waitingTeams part = [.team 0] → s.pends = [p] →
      s.kd? p.object p.kernel = some kd → Tab.find s.launches p.launch = some l → s.chooseCore p kd (s.openCores p.ctx kd (p.crews kd)) = some core →
      s.returning p.prio = false → ∃ u tm, exec (.distributorPlace part) s = .next u ∧ u.team? s.seq = some tm ∧ tm.launch = p.launch ∧ tm.teamNo = p.next ∧
        tm.nteams = p.nteams ∧ tm.cores = teamCoresAt kd.pair core ∧ tm.started = true ∧ tm.gang = none ∧ tm.relaunchOk = true ∧ tm.prio = p.prio ∧
        u.pends = (if p.next + 1 < p.last then [{ p with next := p.next + 1 }] else []) ∧ u.mem = s.mem ∧
        (∀ y ∈ tm.crews, (∃ n ∈ tm.cores, y / 64 = n) ∧ ∃ c, u.crew? y = some c ∧ FirstInstruction c s.seq p kd) ∧
        ∀ y c, s.crew? y = some c → u.crew? y = some c) ∧
    (∀ (m : GangMsg),
      (Tab.find s.gangs m.gang = none → m.coord ≠ s.mod.modid → ∃ u gg, exec (.reserve m) s = .next u ∧ Tab.find u.gangs m.gang = some gg ∧
        gg.members = m.members ∧ gg.coord = m.coord ∧ gg.first = m.first ∧ gg.time = m.time ∧ gg.committed = false ∧ gg.teams = []) ∧
      (∀ gg first cores res o, Tab.find s.gangs m.gang = some gg → (gg.st = .unplaced ∧ s.returning gg.pend.prio = false) ∨ gg.st = .saved →
        gg.committed = false → gg.window = none → (s.ctx gg.pend.ctx).state ≠ 2 →
        s.windowNow m.gang gg = some (first, cores, res, o) → (∀ c ∈ cores, (s.coreOf c).heldBy = none) → ∃ u gg', exec (.reserve m) s = .next u ∧
        (∀ c ∈ cores, (u.coreOf c).heldBy = some m.gang) ∧ Tab.find u.gangs m.gang = some gg' ∧ gg'.window = some first ∧
        gg'.st = (if gg.st = .saved then .saved else .reserving) ∧ Told s u gg.coord "held" m.gang (.held m.gang s.mod.modid))) ∧
    (∀ n gg p, Tab.find s.gangs n = some gg →
      (gg.coord = s.mod.modid →
        let heard := withModule gg.heldFrom p
        let answered := withModule gg.placedFrom p
        (gg.committed = false → ∃ u gg', exec (.held n p) s = .next u ∧ Tab.find u.gangs n = some gg' ∧ gg'.heldFrom = heard ∧
          ((∀ q ∈ gg.members, q ∈ heard) → gg'.committed = true ∧ ∀ q ∈ gg.members, Told s u q "commit" n (.gangCommit n)) ∧
          ((∃ q ∈ gg.members, q ∉ heard) → gg'.committed = false ∧ u = { s with gangs := u.gangs })) ∧
        (∃ u gg', exec (.holdReleaseNotice n { sender := p, member := none }) s = .next u ∧ u = { s with gangs := u.gangs } ∧ Tab.find u.gangs n = some gg' ∧
          gg'.heldFrom = gg.heldFrom.filter fun q => q != p) ∧
        (∃ u gg', exec (.placed n p) s = .next u ∧ Tab.find u.gangs n = some gg' ∧
          ((∃ q ∈ gg.members, q ∉ answered) → gg'.placedFrom = answered ∧ u = { s with gangs := u.gangs }) ∧
          ((∀ q ∈ gg.members, q ∈ answered) → gg.committed = true → (∀ q ∈ gg.members, Told s u q "go" n (.gangGo n)) ∧
            Told s u gg.coord "go" n (.gangGo n))) ∧
        (gg.committed = true → ∃ u gg', exec (.refusedMsg n p) s = .next u ∧ Tab.find u.gangs n = some gg' ∧ gg'.committed = false ∧
          ∀ q ∈ gg.members, Told s u q "cancel" n (.gangCancel n))) ∧
      (∀ r, gg.members[r]? = some p → p ≠ s.mod.modid → gg.memberDone r = false →
        ((∃ q, q < gg.members.length ∧ q ≠ r ∧ gg.memberDone q = false) → ∃ u, exec (.holdReleaseNotice n { sender := p, member := some r }) s = .next u ∧
          u = { s with gangs := u.gangs } ∧
          Tab.find u.gangs n = some { gg with detached := gg.detached ++ [r], st := if gg.st = .running then .closing else gg.st }) ∧
        ((∀ q, q < gg.members.length → q ≠ r → gg.memberDone q = true) → gg.st = .running ∨ gg.st = .closing → ∃ u,
          exec (.holdReleaseNotice n { sender := p, member := some r }) s = .next u ∧ Tab.find u.gangs n = none ∧
          ∀ t ∈ Tab.vals gg.teams, ∀ tm, s.team? t = some tm → tm.crews = [] → u.team? t = none)) ∧
      (gg.window = none → ∃ u, exec (.gangCommit n) s = .next u ∧ Told s u gg.coord "refused" n (.refusedMsg n s.mod.modid) ∧ u.teams = s.teams) ∧
      (∀ first kd l, gg.window = some first → gg.st = .reserving → (s.ctx gg.pend.ctx).state ≠ 2 → s.kd? gg.pend.object gg.pend.kernel = some kd → Tab.find s.launches gg.pend.launch = some l →
        ((windowStarts kd.pair first (s.localRanks gg).length).all fun c => s.fits kd kd.crews (teamCoresAt kd.pair c)) = true →
        ∃ u gg', exec (.gangCommit n) s = .next u ∧ Told s u gg.coord "placed" n (.placed n s.mod.modid) ∧ Tab.find u.gangs n = some gg' ∧
          gg'.committed = true ∧ ∀ r ∈ s.localRanks gg, ∃ t tm, Tab.find gg'.teams r = some t ∧ u.team? t = some tm ∧ tm.rank = r ∧ tm.gang = some n ∧
            tm.gangSize = gg.members.length ∧ tm.started = false) ∧
      (∀ first, gg.window = some first → gg.st = .saved → ∃ u, exec (.gangCommit n) s = .next u ∧ u.teams = s.teams ∧ u.saved = s.saved ∧
        Tab.find u.gangs n = some { gg with committed := true } ∧ Told s u gg.coord "placed" n (.placed n s.mod.modid)) ∧
      (∀ t tm v, gg.st = .saved → gg.detached = [] → gg.lost = [] → gg.members ≠ [] → Tab.vals gg.teams = [t] → s.team? t = some tm →
        Tab.find s.saved (2 * t + 1) = some v → (∀ e ∈ v.crews, waitsForNothing e.2) → Tab.sorted v.crews = true → quietTiles s →
        ∃ u gg', exec (.gangGo n) s = .next u ∧ Tab.find u.gangs n = some gg' ∧ gg'.st = gg.prev ∧ gg'.go = true ∧ Restored u t v) ∧
      (gg.st ≠ .saved → gg.detached = [] → gg.lost = [] → gg.members ≠ [] → ∃ u gg', exec (.gangGo n) s = .next u ∧ Tab.find u.gangs n = some gg' ∧
        gg'.st = .running ∧ gg'.go = true ∧ (gg.wanted = true → Told s u gg.coord "save" n (.gangSave n)) ∧ gg'.wanted = false ∧
        ∀ t ∈ Tab.vals gg.teams, ∀ tm, s.team? t = some tm → ∃ tm', u.team? t = some tm' ∧ tm'.started = true) ∧
      (gg.st ≠ .saved → quietTiles s → ∃ u gg', exec (.gangCancel n) s = .next u ∧ Tab.find u.gangs n = some gg' ∧ gg'.st = .unplaced ∧ gg'.window = none ∧
        gg'.teams = [] ∧ gg'.committed = false ∧ (∀ t ∈ Tab.vals gg.teams, u.team? t = none) ∧ ∀ y c, u.crew? y = some c → c.team ∉ Tab.vals gg.teams) ∧
      (gg.st = .running → ∃ u gg', exec (.gangSave n) s = .next u ∧ Tab.find u.gangs n = some gg' ∧ gg'.st = .saved ∧ gg'.prev = .running ∧
        (∀ t ∈ Tab.vals gg.teams, ∀ tm, s.team? t = some tm → tm.saved = false → tm.lost = false → ∃ tm', u.team? t = some tm' ∧ tm'.leaving = true ∧
          tm'.started = false) ∧
        (gg.coord = s.mod.modid → ∀ q ∈ gg.members, q ≠ s.mod.modid → .gang q "save" n ∈ u.outbox)) ∧
      (gg.st = .unplaced ∨ gg.st = .reserving → gg.coord = s.mod.modid → exec (.gangSave n) s =
        .next { s with gangs := Tab.put s.gangs n { gg with wanted := true } }) ∧
      (gg.st = .saved → gg.coord = s.mod.modid → (∃ q ∈ gg.members, q ∉ withModule gg.savedFrom p) → ∃ u gg', exec (.gangSaved n p) s = .next u ∧
        u = { s with gangs := u.gangs } ∧ Tab.find u.gangs n = some gg' ∧ gg'.savedFrom = withModule gg.savedFrom p) ∧
      (gg.st = .saved → gg.coord = s.mod.modid → (∀ q ∈ gg.members, q ∈ withModule gg.savedFrom p) → quietTiles s →
        ∃ u m, exec (.gangSaved n p) s = .next u ∧ m.gang = n ∧ (∀ q ∈ gg.members, (q ≠ s.mod.modid → Msg.gang q "saved" n ∈ u.outbox) ∧
          if q = s.mod.modid then .event (.reserve m) ∈ u.agenda else .reserve q m ∈ u.outbox) ∧
        ∀ t ∈ Tab.vals gg.teams, ∀ tm, s.team? t = some tm → u.team? t = some { tm with leaving := false }) ∧
      (∀ o kd first, gg.st = .unplaced → gg.window = none → gg.reservedAt = none → s.gangObject gg.pend = some o → s.kd? o gg.pend.kernel = some kd →
        let part := (s.ctx gg.pend.ctx).part.toNat
        gg.since + 1000 * (s.part part).gangWait ≤ s.now → s.cheapestWindow gg kd (s.localRanks gg).length = some first →
        ∃ u gg', exec (.gangwaitExpiry part n) s = .next u ∧ u = { s with gangs := u.gangs, cores := u.cores } ∧ Tab.find u.gangs n = some gg' ∧
          gg'.reservedAt = some (first, s.now) ∧ ∀ c ∈ windowCores kd.pair first (s.localRanks gg).length, (u.coreOf c).reserved = true) ∧
      (∀ o kd first t0, gg.reservedAt = some (first, t0) → s.gangObject gg.pend = some o → s.kd? o gg.pend.kernel = some kd →
        t0 + 1000 * (s.part (s.ctx gg.pend.ctx).part.toNat).drain ≤ s.now → ∃ u, exec (.drainExpiry n) s = .next u ∧
          u = { s with teams := u.teams, cores := u.cores } ∧ ∀ t tm, s.team? t = some tm → tm.saved = false → tm.leaving = false → tm.lost = false →
            s.memberOf tm = none → gg.pend.prio < tm.prio → (∃ c ∈ tm.cores, c ∈ windowCores kd.pair first (s.localRanks gg).length) →
            ∃ tm', u.team? t = some tm' ∧ tm'.leaving = true ∧ tm'.started = false)) ∧
    (∀ p x, (s.part p).dvBusy = true → exec (.dvGo p x) s = .next s) ∧
    (∀ p x, x.toNat / 2 ^ 63 = 1 → (s.part p).dvBusy = false → 0 < x.toNat % 2 ^ 10 → x.toNat % 2 ^ 10 ≤ 640 →
      let o := exec (.dvGo p x) s
      let cores := vacateCores s p (x.toNat / 2 ^ 16 % 4) (x.toNat % 2 ^ 10)
      let holds := fun tm : Team => tm.saved = false ∧ tm.lost = false ∧ ∃ c ∈ cores, c ∈ tm.cores
      ((∀ c ∈ cores, s.teamsOn c = []) → ∃ u, o = .next u ∧ (u.part p).dvBusy = false ∧ (u.part p).dvDone = cores.length ∧ u.teams = s.teams ∧
        u.mem = s.mem) ∧
      ((∃ t tm, s.team? t = some tm ∧ s.memberOf tm = none ∧ holds tm) → ∃ u, o = .next u ∧ (u.part p).dvBusy = true ∧ (u.part p).dvDone = 0 ∧
        (u.part p).dvCores = cores ∧ (∀ c ∈ cores, (u.coreOf c).vacating = true) ∧
        ∀ t tm, s.team? t = some tm → holds tm →
          (s.memberOf tm = none → u.team? t = some { tm with started := false, leaving := true }) ∧
          ∀ n gg, s.memberOf tm = some n → Tab.find s.gangs n = some gg → Told s u gg.coord "save" n (.gangSave n))) ∧
    (∀ part t tm (g : Go s), s.leaver part = some t → s.team? t = some tm → s.memberOf tm = none → Tab.sorted s.crews = true → quietTiles s →
      let mine := s.crews.filter fun e => e.2.team == t
      saveImage (Go.start s) t 1 mine ((s.coreOf (tm.cores.headD 0)).ranges.filter fun r => r.team == t) = some g →
      ∃ u tm' v, exec (.distributorPlace part) s = .next u ∧ u.team? t = some tm' ∧ tm'.saved = true ∧ tm'.leaving = false ∧
        (∀ y c, u.crew? y = some c → c.team ≠ t) ∧ Tab.find u.saved (2 * t + 1) = some v ∧ v.crews = mine) ∧
    (∀ part, s.leaver part = none → s.waitingTeams part = [] → (s.part part).dvBusy = true →
      (∀ c ∈ (s.part part).dvCores, ∀ e ∈ s.teamsOn c, s.vacateWaits e.2 = false) → ∃ u, exec (.distributorPlace part) s = .next u ∧
        (u.part part).dvBusy = false ∧ (u.part part).dvDone = ((s.part part).dvCores.filter fun c => (s.teamsOn c).isEmpty).length ∧
        u.teams = s.teams ∧ u.mem = s.mem) ∧
    (∀ t tm v, s.team? t = some tm → s.memberOf tm = none → s.placesFree t none = true → Tab.find s.saved (2 * t + 1) = some v →
      (∀ e ∈ v.crews, waitsForNothing e.2) → Tab.sorted v.crews = true → quietTiles s → ∃ u, exec (.teamRestore t) s = .next u ∧ Restored u t v) ∧
    (∀ t tm (m : GangMsg), s.team? t = some tm → s.memberOf tm = some m.gang → exec (.teamRestore t) s = exec (.reserve m) s) ∧
    (∀ part o obj w, Tab.find s.coloc o = some w → Tab.find s.objs (o / 2 ^ 32) = some obj → (s.ctx obj.ctx).part.toNat = part → w.ops ≠ 0 ∨ w.bytes ≠ 0 →
      Tab.sorted s.coloc = true → ∃ u, exec (.colocationWindow part) s = .next u ∧ u = { s with coloc := u.coloc } ∧ Tab.find u.coloc o =
        some { ops := 0, bytes := 0, cls := some (decide ((s.part part).colThresh * w.bytes ≤ 16 * w.ops)) })

/-- What a write and a read of a system register do. A write to an unassigned or misaligned address, by a writer that does not reach the register, to
a register that has no writable field, or to a register of an interface in function-level reset changes nothing; while the host link is down
a host's accesses are withheld. Firmware that writes a free context's word with the service bit makes it a service context (log 64). A service
context of a partition and a host write no register reserved to the module service context, and the board controller none but PWR.CAP. A plain
register reads back the writable bits of what was written (a misaligned base too, log 36); CTX.HEN and CTX.HANDLER, the power cap, TC.BASE and LSE.INIT take their values as
their rules say. A read answers the register's word, or 0 where the reader does not reach it, and sets the RC fields of the word to 0, and
nothing else. -/
def Obligations.SystemRegisterAccesses : Prop :=
  ∀ (s : State) (w : Writer) (a : Nat) (x : Word),
    let o := exec (.systemRegisterWrite w a x) s
    let rc := exec (.readClear w a) s
    let up := ∀ n, w = .host n → s.mod.hostUp = true
    let answers := fun (v : Word) (u : State) => u.outbox = s.outbox ++ [Msg.regValue w a v]
    (∀ n, w = .host n → s.mod.hostUp = false → rc = .next { s with mod := { s.mod with withheld := s.mod.withheld ++ [(n, a, none)] } }) ∧
    (regAt a = none → o = .next s ∧ (up → rc = .next { s with outbox := s.outbox ++ [.regValue w a 0] })) ∧
    (∀ r, regAt a = some r →
      let makes := w = .firmware ∧ ∃ c, r = .ctx c 0 ∧ c < 4095 ∧ (s.ctx c).state = 0 ∧ x.getLsbD 5 = true
      (∀ n, w = .host n → s.mod.hostUp = false →
        o = .next { s with mod := { s.mod with withheld := s.mod.withheld ++ [(n, a, some x)] } }) ∧
      (makes → a % 8 = 0 → ∀ c, r = .ctx c 0 → ∃ u, o = .next u ∧ u = { s with ctxs := u.ctxs, tlbs := u.tlbs, walks := u.walks } ∧
        u.ctx c = { Ctx.reset with level := true, part := x.extractLsb' 12 4, vi := x.extractLsb' 6 6, handler := x.extractLsb' 16 12
                                   hen := x.getLsbD 28, state := 1 } ∧
        (∀ d, d ≠ c → u.ctx d = s.ctx d) ∧ (∀ k, ∀ e ∈ Tab.get [] u.tlbs k, e.ctx ≠ c) ∧ ∀ e ∈ u.walks, e.ctx ≠ c) ∧
      (w = .board → (s.reaches w true r = true ↔ r = .ident 5)) ∧
      (r.reserved = true → (∀ c, w = .ctx c → c ≠ 4095 → s.reaches w true r = false) ∧ ∀ n, w = .host n → s.reaches w true r = false) ∧
      (up →
        (s.reaches w true r = false → o = .next s) ∧
        (a % 8 ≠ 0 → o = .next s) ∧
        (a % 8 ≠ 0 ∨ s.reaches w false r = false → rc = .next { s with outbox := s.outbox ++ [.regValue w a 0] }) ∧
        (∀ n, s.regVi r = some n → (s.vi n).flrBusy = true → o = .next s) ∧
        (a % 8 = 0 → s.reaches w true r = true → (∀ n, s.regVi r = some n → (s.vi n).flrBusy = false) →
          (readOnly r = true → o = .next s) ∧
          (∀ m, rwBits r = some m → ∃ u, o = .next u ∧ regRead u r = x &&& m ∧
            u = { s with ctxs := u.ctxs, vis := u.vis, parts := u.parts, jds := u.jds, mod := u.mod }) ∧
          (∀ c, r = .ctx c 0 → ¬ makes → CtxBecomes s o c { s.ctx c with hen := x.getLsbD 28, handler := x.extractLsb' 16 12 }) ∧
          (r = .ident 5 → o = if 1000 ≤ x.toNat % 65536 ∧ x.toNat % 65536 ≤ 6000
            then .next { s with mod := { s.mod with pwrCap := x.setWidth 16 } } else .next s) ∧
          (r = .tc 0 → o = if s.mod.cache = [] then .next { s with mod := { s.mod with tcBase := x } } else .next s) ∧
          (∀ p, r = .lse p → if 1 ≤ x.toNat % 256 ∧ x.toNat % 256 ≤ 250 then
            ∃ u, o = .next u ∧ u = { s with parts := u.parts } ∧ u.part p = { s.part p with lseInit := x.toNat % 256 } ∧
              ∀ q, q ≠ p → u.part q = s.part q else o = .next s)) ∧
        (a % 8 = 0 → s.reaches w false r = true → ∃ u, rc = .next u ∧ answers (regRead s r) u ∧
          (readClears r = false → u = { s with outbox := u.outbox }) ∧
          (r = .ident 7 → u = { s with outbox := u.outbox, mod := { s.mod with errCe := 0 } }) ∧
          (∀ l, (r = .link l 1 ∨ r = .link l 4) → u = { s with outbox := u.outbox, links := u.links } ∧ (∀ d, d ≠ l → u.link d = s.link d) ∧
            u.link l = if r = .link l 1 then { s.link l with errCnt := 0 } else { s.link l with replays := 0 }) ∧
          (∀ j d, (r, d) ∈ [(Reg.keeper j 32, { s.jd j with merged := 0 }), (.keeper j 33, { s.jd j with expired := 0, refused := 0 }),
              (.keeper j 35, { s.jd j with dup := 0, evicted := 0 }), (.keeper j 36, { s.jd j with wsetRefused := 0 }),
              (.ldir j, { s.jd j with noLease := 0 })] →
            u = { s with outbox := u.outbox, jds := u.jds } ∧ u.jd j = d ∧ ∀ m, m ≠ j → u.jd m = s.jd m))))

/-- Resolution of stopped crews, teardown, creation and release of contexts. A write of CTX.CREWID gives status 2 for a crew that is not
resident or of another context, 1 for one not stopped, 3 for one of a faulted context under another action than ABORT; RESUME and SKIP let a
stopped crew's splits go on at their PC or past the instruction, EXIT drains it, ABORT tears the context down, with status 0; a teardown that has
drained frees the context, whose partition, level and interface stay (log 6), and no unit holds a translation of a context that was freed or made.
A create takes the lowest free context or shows status 1, 2 or 3, a release tears down or shows 3 or 4 (service contexts do not count, and
context 4095 belongs to no interface, log 64); a function-level reset leaves the interface and its queues at their reset values. While the host
link is down the host's creates, releases and resets are withheld. -/
def Obligations.ContextsAreResolvedAndTornDown : Prop :=
  ∀ (s : State) (ctx id x n : Nat) (c : Crew),
    ((id / 2 ^ 20 ≠ ctx ∨ s.crewOfId id = none) → ∀ i ∈ [Instr.resume ctx id, .skip ctx id, .exitAction ctx id] ++ (if id < 2 ^ 32 then [.abort ctx id] else []),
      CtxBecomes s (exec i s) ctx { s.ctx ctx with cmdStat := 2 }) ∧
    (id / 2 ^ 20 = ctx → id < 2 ^ 32 → s.crewOfId id = some (x, c) → s.crew? x = some c → c.ctx = ctx →
      (c.st ≠ .stopped → ∀ i ∈ [Instr.resume ctx id, .skip ctx id, .exitAction ctx id, .abort ctx id],
        CtxBecomes s (exec i s) ctx { s.ctx ctx with cmdStat := 1 }) ∧
      (c.st = .stopped → (s.ctx ctx).state = 2 → ∀ i ∈ [Instr.resume ctx id, .skip ctx id, .exitAction ctx id],
        CtxBecomes s (exec i s) ctx { s.ctx ctx with cmdStat := 3 }) ∧
      (c.st = .stopped → (s.ctx ctx).state ≠ 2 → (∀ e ∈ c.splits, (resumeSplit false e.2).wait = .none) → quietTiles s →
        ∀ (i : Instr) (skip : Bool), (i = .resume ctx id ∧ skip = false) ∨ (i = .skip ctx id ∧ skip = true) →
        ∃ u c', exec i s = .next u ∧ u = { s with crews := u.crews, ctxs := u.ctxs } ∧ (u.ctx ctx) = { s.ctx ctx with cmdStat := 0 } ∧
          (∀ y, y ≠ x → u.crew? y = s.crew? y) ∧ u.crew? x = some c' ∧ c'.st = .running ∧ c'.v = c.v ∧ c'.s = c.s ∧ c'.p = c.p ∧ c'.lay = c.lay ∧
          ∀ k sp, c.split? k = some sp → ∃ sp', c'.split? k = some sp' ∧ sp'.mask = sp.mask ∧ sp'.clock = sp.clock ∧
            (sp.faulted = true → sp'.st = .ready ∧ sp'.pc = if skip = true ∨ sp.trapped = true then sp.pc + 12 else sp.pc) ∧
            (sp.faulted = false → sp'.pc = sp.pc ∧ sp'.st = sp.held)) ∧
      (c.st = .stopped → (s.ctx ctx).state ≠ 2 → c.arriving = [] → (∀ e ∈ c.splits, e.2.wait.asksTiles = false) → (∀ tm, s.team? c.team = some tm → tm.gdetach = [] ∧ tm.bars = []) →
        ∃ u c', exec (.exitAction ctx id) s = .next u ∧ u = { s with crews := u.crews, ctxs := u.ctxs, teams := u.teams } ∧
          (∀ t, u.team? t = s.team? t) ∧ u.ctx ctx = { s.ctx ctx with cmdStat := 0 } ∧
          u.crew? x = some c' ∧ c'.st = .draining ∧ c'.splits = [] ∧ c'.exited = laneMask c.width) ∧
      (c.st = .stopped → (s.ctx ctx).state ≠ 3 → ∃ u, exec (.abort ctx id) s = .next u ∧ TornDown s u ctx ∧ (u.ctx ctx).cmdStat = 0)) ∧
    (2 ^ 32 ≤ id → ((s.ctx ctx).state ≠ 3 → exec (.abort ctx id) s = .next s) ∧
      ((s.ctx ctx).state = 3 → s.wsets = [] → s.ctxDrained ctx = true → (s.vi (s.ctx ctx).vi.toNat).flrBusy = false →
        ∃ u, exec (.abort ctx id) s = .next u ∧
          u = { s with engines := u.engines, objs := u.objs, queues := u.queues, vis := u.vis, ctxs := u.ctxs, tlbs := u.tlbs, walks := u.walks } ∧
          (∀ k, ∀ e ∈ Tab.get [] u.tlbs k, e.ctx ≠ ctx) ∧ (∀ e ∈ u.walks, e.ctx ≠ ctx) ∧
          u.ctx ctx = { Ctx.reset with part := (s.ctx ctx).part, vi := (s.ctx ctx).vi, level := (s.ctx ctx).level } ∧
          (∀ d, d ≠ ctx → u.ctx d = s.ctx d) ∧ (∀ h v, Tab.find u.objs h = some v → v.ctx ≠ ctx))) ∧
    (s.mod.hostUp = false →
      let late := fun (off : Nat) (x : Word) =>
        Host.Outcome.next { s with mod := { s.mod with withheld := s.mod.withheld ++ [(n, viAddr n off, some x)] } };
      exec (.ctxCreate n) s = late 8 0 ∧ exec (.ctxRelease n ctx) s = late 8 (BitVec.ofNat 64 (2 ^ 32 + ctx)) ∧
      ((s.vi n).flrBusy = false → exec (.viFlr n) s = late 0 0x40)) ∧
    (s.mod.hostUp = true → let v := s.vi n;
      (v.flrBusy = true ∨ v.releasing ≠ none → exec (.ctxCreate n) s = .next s ∧ exec (.ctxRelease n ctx) s = .next s) ∧
      (v.flrBusy = false → v.releasing = none →
        (¬ interfaceClosed s n → (s.viContexts n).length < v.ctxMax.toNat → ∀ d, d < 4095 → (s.ctx d).state = 0 → (∀ e, e < d → (s.ctx e).state ≠ 0) →
          ∃ u, exec (.ctxCreate n) s = .next u ∧ u = { s with ctxs := u.ctxs, vis := u.vis, tlbs := u.tlbs, walks := u.walks } ∧
            (∀ k, ∀ e ∈ Tab.get [] u.tlbs k, e.ctx ≠ d) ∧ (∀ e ∈ u.walks, e.ctx ≠ d) ∧
            u.ctx d = { Ctx.reset with vi := BitVec.ofNat 6 n, part := v.part, state := 1 } ∧ (∀ e, e ≠ d → u.ctx e = s.ctx e) ∧
            u.vi n = { v with ctxStat := 0, ctxRes := BitVec.ofNat 12 d } ∧ ∀ m, m ≠ n → u.vi m = s.vi m) ∧
        (interfaceClosed s n ∨ v.ctxMax.toNat ≤ (s.viContexts n).length ∨ (∀ e, e < 4095 → (s.ctx e).state ≠ 0) →
          ∃ k : BitVec 4, ViBecomes s (exec (.ctxCreate n) s) n { v with ctxStat := k } ∧
            ((k = 1 ∧ v.ctxMax.toNat ≤ (s.viContexts n).length) ∨ (k = 2 ∧ ∀ e, e < 4095 → (s.ctx e).state ≠ 0) ∨ (k = 3 ∧ interfaceClosed s n))) ∧
        (let wrong := (s.ctx ctx).state = 0 ∨ (s.ctx ctx).level = true ∨ (s.ctx ctx).vi.toNat ≠ n;
          (interfaceClosed s n ∨ wrong → ∃ k : BitVec 4, ViBecomes s (exec (.ctxRelease n ctx) s) n { v with ctxStat := k } ∧
            ((k = 3 ∧ interfaceClosed s n) ∨ (k = 4 ∧ wrong))) ∧
          (¬ interfaceClosed s n → ¬ wrong → (s.ctx ctx).state ≠ 3 → ∃ u, exec (.ctxRelease n ctx) s = .next u ∧ TornDown s u ctx ∧
            ((u.ctx ctx).state = 3 → (u.vi n).releasing = some ctx) ∧
            ((u.ctx ctx).state = 0 → (u.vi n).releasing = none ∧ (u.vi n).ctxStat = 0))))) ∧
    (s.mod.hostUp = true ∨ (s.vi n).flrBusy = true → ∃ u, exec (.viFlr n) s = .next u ∧ ((u.vi n).flrBusy = true ∨ u.vi n = Vi.reset)) ∧
    (s.mod.hostUp = true → s.flrContexts n = [] → Tab.sorted s.queues = true → (∀ q, (s.queue q).vi.toNat = n → (s.queue q).mapped = false) →
      ∃ u, exec (.viFlr n) s = .next u ∧ u = { s with vis := u.vis, queues := u.queues } ∧ u.vi n = Vi.reset ∧ (∀ m, m ≠ n → u.vi m = s.vi m) ∧
        ∀ q, u.queue q = if (s.queue q).vi.toNat = n then Queue.reset else s.queue q)

/-- Wake latches, fault rings and partition control. Setting a wake latch ends one halt of a crew that waits on it, its latch clear, and
else leaves the latch set; a stopped crew stays stopped past its halt (that a stopped crew's halt takes the wake is the model's choice, log 88). A
complete record advances CTX.FRPROD and raises the vector once fabric time is past its write, and wakes the handler; a
retry writes the oldest kept record to the ring entry that is next, or finds the ring full. A write to a partition's control register is
discarded while the partition is busy, a die belongs to another, or the boot has not ended; else the fields take their values, and a partition that
becomes active extends measurement 4 (with the bytes of log 35). -/
def Obligations.RingsLatchesAndPartitions : Prop :=
  ∀ (s : State) (ctx p : Nat) (x : Word),
    ((∀ e ∈ s.crews, haltWaits ctx e.2 = false) → CtxBecomes s (exec (.ctxWake ctx) s) ctx { s.ctx ctx with wake := true }) ∧
    (Tab.sorted s.crews = true → (∀ e ∈ s.crews, Tab.sorted e.2.splits = true) → (∃ e ∈ s.crews, haltWaits ctx e.2 = true) →
      ∃ (y k : Nat) (c c' : Crew) (sp : Split) (u : State), s.crew? y = some c ∧ c.ctx = ctx ∧ c.split? k = some sp ∧ sp.wait = .halt ∧
        exec (.ctxWake ctx) s = .next u ∧ u = { s with crews := u.crews } ∧ (∀ z, z ≠ y → u.crew? z = s.crew? z) ∧ u.crew? y = some c' ∧
        (c.st = .running → c' = { c with splits := c'.splits, passed := c'.passed } ∧ (∀ j, j ≠ k → c'.split? j = c.split? j) ∧
          c'.split? k = some { sp with st := .ready, wait := .none, pc := sp.pc + 12, clock := sp.clock + 1 }) ∧
        (c.st ≠ .running → c'.st = .stopped ∧ ∃ q, c'.split? k = some q ∧ q.st = .stopped ∧ q.wait = .none ∧ q.pc = sp.pc + 12 ∧
          q.clock = sp.clock + 1)) ∧
    (let v := s.ctx ctx;
      (v.writing = [] → exec (.faultRecordCommit ctx) s = .next s) ∧
      (∀ t ts, v.writing = t :: ts →
        (s.now ≤ t → exec (.faultRecordCommit ctx) s = .next s) ∧
        (t < s.now → ∃ u, exec (.faultRecordCommit ctx) s = .next u ∧ u = { s with ctxs := u.ctxs, crews := u.crews, outbox := u.outbox } ∧
          u.outbox = s.outbox ++ [Msg.msix v.vi.toNat v.msix.toNat] ∧
          (u.ctx ctx).frProd = BitVec.ofNat 16 ((v.frProd.toNat + 1) % 2 ^ v.frSize.toNat) ∧ (u.ctx ctx).writing = ts ∧
          (v.hen = false → u.ctx ctx = { v with writing := ts, frProd := (u.ctx ctx).frProd } ∧ u.crews = s.crews ∧ ∀ d, d ≠ ctx → u.ctx d = s.ctx d) ∧
          (v.hen = true → (∀ e ∈ s.crews, haltWaits v.handler.toNat e.2 = false) → (u.ctx v.handler.toNat).wake = true))) ∧
      (s.keptRecords ctx = [] → exec (.faultRingRetry ctx) s = .next s) ∧
      (∀ who r rest, s.keptRecords ctx = (who, r) :: rest →
        let size := 2 ^ v.frSize.toNat
        let i := (v.frProd.toNat + v.writing.length) % size
        let a := v.frBase.toNat + 64 * i
        ((i + 1) % size = v.frCons.toNat → CtxBecomes s (exec (.faultRingRetry ctx) s) ctx { v with frFull := true }) ∧
        (∀ k, (i + 1) % size ≠ v.frCons.toNat → rest = [] → s.HomeAt ctx a 64 true false k →
          (∀ e n, s.walk ctx (a % 2 ^ 56) = .ok e n → pteTagen e = true → s.tagAt (k + 32) = a / 2 ^ 60 % 16) →
          ∃ u, exec (.faultRingRetry ctx) s = .next u ∧
            (∀ b, u.byte b = if k ≤ b ∧ b < k + 64 then r.bytes.getD (b - k) 0 else s.byte b) ∧ (∃ t, s.now ≤ t ∧ (u.ctx ctx).writing = v.writing ++ [t]) ∧
            (match who with
              | .queue => (u.ctx ctx).kept = v.kept.tail
              | .crew y => ∀ c, s.crew? y = some c → ∃ c', u.crew? y = some c' ∧
                  c' = { (if c.unsent = [] then { c with recSent := true } else { c with unsent := [] }) with storeq := c'.storeq }
              | .gone => (u.ctx ctx).left = []
              | .winch q => (Tab.get Wctx.reset u.wctxs q).recs = [])))) ∧
    (let v := s.part p;
      let o := exec (.partControlWrite p x) s;
      let dies : BitVec 8 := x.extractLsb' 32 8;
      let taken := ∃ q, q < 8 ∧ q ≠ p ∧ (s.part q).dies &&& dies ≠ 0;
      (s.partBusy p = true ∨ taken ∨ s.mod.ready = false → o = .next s) ∧
      (s.partBusy p = false → ¬ taken → s.mod.ready = true → ∃ u, o = .next u ∧ u = { s with parts := u.parts, mod := u.mod } ∧
        u.part p = { v with dies := dies, scratch := x.extractLsb' 16 2, debug := x.getLsbD 8, active := dies != 0 } ∧ (∀ q, q ≠ p → u.part q = s.part q) ∧
        u.mod = if dies ≠ 0 ∧ v.active = false then
          { s.mod with meas := Tab.set 0 s.mod.meas 4 (sha256 (leBytes (Tab.get 0 s.mod.meas 4).toNat 32 ++
            (leBytes (1 + (if x.getLsbD 8 then 2 ^ 8 else 0) + 2 ^ 16 * (x.toNat / 2 ^ 16 % 4) + 2 ^ 32 * dies.toNat) 8 ++ leBytes v.hbmBase 8 ++ leBytes v.hbmLimit 8))) }
          else s.mod))

/-- Uncorrectable errors, table walks, replay-all and the tag registers. An error in data poisons its bytes, one in a copy drops the copy. One
in a team ends it: none of its crews stays. A member of a gang keeps its place only and its gang holds it as lost; a team of an idempotent
launch with retries left waits for placement afresh with its attempt counted; any other faults its context, all of whose crews stop. The
spawn counters stay, and the team's completion times count for its launch. A walk begins where its unit has none for the page and room for
one more, and reads the tables as it begins; as it ends, a leaf that it found is a translation in the unit's TLB, and any other end leaves
nothing. Replay-all empties the context's fault buffer and lets its crews that stopped on cause 6 go on, none in a faulted context.
TAG.ADDR shows the status of its block: not present, malformed, not on this module, or done; once it shows done a write of TAG.DATA gives
the block's sixteen granules their tags, reads back what was written and changes no other tag, and else it is discarded and reads 0. -/
def Obligations.ErrorsWalksAndTags : Prop :=
  (∀ (s : State) (t : Nat) (tm : Team) (k core ln : Nat),
    exec (.uncorrectableError (.data k)) s = .next { s with poison := Tab.put s.poison k () } ∧
    (∃ u, exec (.uncorrectableError (.copy core ln)) s = .next u ∧ u = { s with cores := u.cores } ∧
      u.coreOf core = { s.coreOf core with copies := Tab.del (s.coreOf core).copies ln } ∧ ∀ n, n ≠ core → u.coreOf n = s.coreOf n) ∧
    (s.team? t = none → exec (.uncorrectableError (.team t)) s = .next s) ∧
    (s.team? t = some tm → Tab.sorted s.crews = true → ∃ u, exec (.uncorrectableError (.team t)) s = .next u ∧ u.now = s.now ∧
      (∀ x c, u.crew? x = some c → c.team ≠ t) ∧
      (s.memberOf tm = none → u.team? t = none ∧ (∀ n, n ≠ tm.launch → Tab.find u.launches n = Tab.find s.launches n) ∧
        (∀ l, Tab.find s.launches tm.launch = some l → ∃ l', Tab.find u.launches tm.launch = some l' ∧ l' = { l with gwct := l'.gwct } ∧
          max l.gwct tm.gwct ≤ l'.gwct) ∧
        (relaunches s tm = true → ∃ p, u.pends = s.pends ++ [p] ∧ p.launch = tm.launch ∧ p.grid = tm.grid ∧ p.kernel = tm.kernel ∧ p.object = tm.object ∧
          p.ctx = tm.ctx ∧ p.next = tm.teamNo ∧ p.last = tm.teamNo + 1 ∧ p.relaunches = tm.relaunches + 1) ∧
        (relaunches s tm = false → u.pends = s.pends ∧ (u.ctx tm.ctx).state = (if (s.ctx tm.ctx).state = 3 then 3 else 2) ∧
          ∀ x c, u.crew? x = some c → c.ctx = tm.ctx → c.st ≠ .running)) ∧
      (∀ n gg, tm.gang = some n → Tab.find s.gangs n = some gg → tm.rank ∉ gg.lost →
        (u.team? t = none ∨ ∃ tm', u.team? t = some tm' ∧ tm'.lost = true ∧ tm'.crews = []) ∧
        (Tab.find u.gangs n = none ∨ ∃ gg', Tab.find u.gangs n = some gg' ∧ gg'.lost = gg.lost ++ [tm.rank] ∧ gg'.members = gg.members) ∧
        (gg.st ≠ .running → gg.st ≠ .closing → u.team? t ≠ none ∧ Tab.find u.gangs n ≠ none)))) ∧
  (∀ (s : State) (ctx unit : Nat) (x : Word), ctx < 4096 →
    (hasWalker unit = false → exec (.tableWalk unit ctx x) s = .next s) ∧
    (hasWalker unit = true → let mine := s.walks.find? fun w => w.unit == unit && w.ctx == ctx && w.page == x.toNat % 2 ^ 56 / 65536
      (mine = none → exec (.tableWalk unit ctx x) s = .next (if 2000 ≤ unit ∨ (s.walks.filter fun w => w.unit == unit).length < 64 then
        { s with walks := s.walks ++ [{ unit := unit, ctx := ctx, page := x.toNat % 2 ^ 56 / 65536, res := s.walk ctx (x.toNat % 2 ^ 56) }] } else s)) ∧
      (∀ w, mine = some w → ∃ u, exec (.tableWalk unit ctx x) s = .next u ∧
        u = { s with tlbs := u.tlbs, walks := s.walks.filter fun v => v != w } ∧
        (∀ e size, w.res = .ok e size → (∃ t ∈ Tab.get [] u.tlbs unit, t.ctx = ctx ∧ t.size = size ∧
          t.page = 65536 * w.page - 65536 * w.page % size ∧ t.leaf = BitVec.ofNat 64 e) ∧
          ∀ v, v ≠ unit → Tab.get [] u.tlbs v = Tab.get [] s.tlbs v) ∧
        ((∀ e size, w.res ≠ .ok e size) → u.tlbs = s.tlbs))) ∧
    (∃ u, exec (.trReplay ctx) s = .next u ∧ (s.saved = [] → s.crews = [] → u = { s with ctxs := u.ctxs } ∧ u.ctx ctx = { s.ctx ctx with fb := [], fbDropped := false })) ∧
    ((s.ctx ctx).state = 2 → s.saved = [] → ∃ u, exec (.trReplay ctx) s = .next u ∧ u = { s with ctxs := u.ctxs }) ∧
    (∀ y c, (s.ctx ctx).state ≠ 2 → s.saved = [] → quietTiles s → Tab.sorted s.crews = true → s.crew? y = some c → c.ctx = ctx → c.st = .stopped → c.fb = true →
      (∀ e ∈ s.crews, e.2.st = .stopped → e.2.fb = true → e.1 = y) → (∀ e ∈ c.splits, (resumeSplit false e.2).wait = .none) →
      ∃ u c', exec (.trReplay ctx) s = .next u ∧ u = { s with ctxs := u.ctxs, crews := u.crews } ∧ u.ctx ctx = { s.ctx ctx with fb := [], fbDropped := false } ∧
        (∀ z, z ≠ y → u.crew? z = s.crew? z) ∧ u.crew? y = some c' ∧ c'.st = .running ∧ c'.fb = false ∧ c'.v = c.v ∧ c'.s = c.s ∧ c'.p = c.p ∧ c'.lay = c.lay) ∧
    (let a := x.toNat / 512 * 512;
      let o := exec (.tagAddrWrite ctx x) s;
      let shows := fun (st : BitVec 2) (k : Option Nat) => CtxBecomes s o ctx { s.ctx ctx with tagAddr := BitVec.ofNat 64 a, tagStat := st, tagHome := k };
      (∀ l, s.walk ctx (a % 2 ^ 56) = .absent l → shows 1 none) ∧ (s.walk ctx (a % 2 ^ 56) = .bad → shows 2 none) ∧
      (∀ e size, s.walk ctx (a % 2 ^ 56) = .ok e size →
        (∀ k, leafLoc e size a = .home k → shows 0 (some k)) ∧ ((∀ k, leafLoc e size a ≠ .home k) → shows 3 none))) ∧
    ((s.ctx ctx).tagHome = none → exec (.tagDataWrite ctx x) s = .next s ∧ regRead s (.tr ctx 5) = 0) ∧
    (∀ k, (s.ctx ctx).tagHome = some k → ∃ u, exec (.tagDataWrite ctx x) s = .next u ∧ u = { s with tags := u.tags } ∧ regRead u (.tr ctx 5) = x ∧
      ∀ g, (g < k / 32 ∨ k / 32 + 16 ≤ g) → Tab.get 0 u.tags g = Tab.get 0 s.tags g))

/-- Links train, resend, retire lanes and change keys; fabric time is kept. LNK.EN trains a link that is down and takes a link to down; training
brings it up on the widest width of 16, 12 or 8 working lanes, or takes it down with error 1 or 4, and a link that comes up from down starts
its numbers anew and tells its free bytes. A NAK or 10 us without progress resends the held flits, the eighth time with retraining. A key
slot takes a key while it is open; LNK.TXSEL chooses a slot with a key; KEYDONE empties the matching slot. At the end of a window each
lane's score follows its corrected bits and bad lanes are marked. A peer all of whose paths are down for 100 us is marked lost; PT.FLUSH
empties the held entries. Fabric time takes its source's offset and bound, holds over, and fails past 12 ns or 1 ms; FT.NOW is written only
while the counter stands; every link that is up carries the time, offset and bound once for each us of it. Chosen: a link that comes up
from down begins at number 0 (log 41), half the measured round trip counts towards the offset (log 42), and flits that wait for the replay
buffer are lost with it where the link goes down (log 86). -/
def Obligations.LinksTrainAndReplay : Prop :=
  ∀ (s : State) (l : Nat), l < 32 → let v := s.link l;
    (let o := exec (.lnkEnable l true) s;
      let off := exec (.lnkEnable l false) s;
      let may := s.ft.fail = false ∧ s.mod.errFatal = 0 ∧ s.mod.ready = true;
      (v.state = 0 → may → ∃ u, o = .next u ∧ u = { s with links := u.links } ∧ (∀ d, d ≠ l → u.link d = s.link d) ∧
        (u.link l).state = 1 ∧ (u.link l).en = true ∧ (u.link l).err = 0 ∧ (u.link l).allowed = v.lanes ∧ (u.link l).marked = v.marked &&& ~~~v.lanes ∧
        (u.link l).txKey = v.txKey ∧ (u.link l).rxKey = v.rxKey ∧
        ∀ k, v.lanes.getLsbD k = true → Tab.get 0 (u.link l).health k = 0 ∧ Tab.get 0 (u.link l).corrected k = 0) ∧
      (v.state ≠ 0 ∨ ¬ may → LinkBecomes s o l { v with en := true }) ∧
      (v.state = 0 → LinkBecomes s off l { v with en := false }) ∧
      (v.state ≠ 0 → LinkBecomes s off l { downedLink v v.err s.now with en := false })) ∧
    (∀ seq, (v.state ≠ 2 ∨ (∀ h ∈ v.held, h.1 % 65536 ≠ seq % 65536) → exec (.nak l seq) s = .next s) ∧
      (∀ h pre post, v.state = 2 → v.held = pre ++ h :: post → h.1 % 65536 = seq % 65536 → (∀ q ∈ pre, q.1 % 65536 ≠ seq % 65536) →
        Resends s (exec (.nak l seq) s) l h.1)) ∧
    (v.state ≠ 2 ∨ v.held = [] ∨ s.now < v.heldAt + 10000 → exec (.replayTimeout l) s = .next s) ∧
    (v.state = 2 → v.held ≠ [] → v.heldAt + 10000 ≤ s.now → Resends s (exec (.replayTimeout l) s) l 0) ∧
    (∀ (lanes : BitVec 16) (failed : Bool), let o := exec (.trainingComplete l lanes failed) s;
      let v := v.toWindow s.now;
      let ok := workingLanes v lanes;
      let n := (lanesIn ok).length;
      (v.state ≠ 1 → v.state ≠ 3 → o = .next s) ∧
      (v.state = 1 ∨ v.state = 3 → (failed = true → LinkBecomes s o l (downedLink v 1 s.now)) ∧ (failed = false → n < 8 → LinkBecomes s o l (downedLink v 4 s.now)) ∧
        (failed = false → 8 ≤ n → Tab.get 0 v.txIvc v.txSel + 4 + v.todo.length ≤ 2 ^ 48 → ∃ u, o = .next u ∧
          u = { s with links := u.links, outbox := u.outbox, wctxs := u.wctxs } ∧
          (∀ d, d ≠ l → u.link d = s.link d) ∧ (u.link l).state = 2 ∧ (u.link l).width = (if n = 16 then 16 else if 12 ≤ n then 12 else 8) ∧
          (lanesIn (u.link l).active).length = (u.link l).width ∧ (u.link l).active &&& ok = (u.link l).active ∧
          (v.state = 1 → (u.link l).seq = 0 ∧ (u.link l).expect = 0 ∧ (u.link l).held = [] ∧ (u.link l).todo = [] ∧
            (∀ ch, ch < 4 → Msg.linkControl l "FREE" (65536 * ch + s.rxFree l ch) ∈ u.outbox) ∧ ∀ ch, ch < 4 → Tab.get 0 (u.link l).credits ch ≤ 65536) ∧
          (v.state = 3 → u.wctxs = s.wctxs ∧ (u.link l).expect = v.expect ∧
            (∃ more, u.outbox = s.outbox ++ v.held.map (againFlit v l) ++ more ∧ (v.todo = [] → more = [])) ∧
            ∃ new, (u.link l).held = v.held.map (fun (h : Nat × FlitIn × Nat) => (h.1, h.2.1, 0)) ++ new ∧ (u.link l).seq = v.seq + new.length ∧
              new.length + (u.link l).todo.length ≤ v.todo.length)))) ∧
    (∀ (slot : Nat) (tx : Bool) (x : Word), slot < 2 →
      let o := exec (.keySlotWrite l slot tx x) s;
      let word := fun k => Tab.get 0 (if tx then v.txWords else v.rxWords) (4 * slot + k);
      let key : BitVec 256 := x ++ word 2 ++ word 1 ++ word 0;
      let shut := if tx then v.txSel = slot ∨ (∃ n, v.txRet = some (slot, n)) else Tab.find v.rxKey slot ≠ none;
      (shut → v.todo = [] → o = .next s) ∧
      (¬ shut → ∃ u, o = .next u ∧ u = { s with links := u.links, outbox := u.outbox } ∧ (∀ d, d ≠ l → u.link d = s.link d) ∧
        Tab.find (if tx then (u.link l).txKey else (u.link l).rxKey) slot = some (key, if tx then v.txSalt else v.rxSalt) ∧
        Tab.find (if tx then (u.link l).txKey else (u.link l).rxKey) (1 - slot) = Tab.find (if tx then v.txKey else v.rxKey) (1 - slot) ∧
        (tx = true → Tab.get 0 (u.link l).txIvc slot = 0 ∧ (u.link l).rxKey = v.rxKey) ∧
        (tx = false → (u.link l).txKey = v.txKey ∧ ∀ e ∈ (u.link l).seen, e.1 ≠ slot) ∧
        (v.todo = [] → (u.link l).state = v.state ∧ u.outbox = s.outbox))) ∧
    (∀ (b : Bool), let o := exec (.txselWrite l b) s;
      let n := b.toNat;
      (Tab.find v.txKey n = none ∨ v.txRet ≠ none ∨ v.txSel = n → v.todo = [] → o = .next s) ∧
      (Tab.find v.txKey n ≠ none → v.txRet = none → v.txSel ≠ n →
        (Tab.find v.txKey v.txSel = none → v.todo = [] → LinkBecomes s o l { v with txSel := n }) ∧
        (Tab.find v.txKey v.txSel ≠ none → (∃ h ∈ v.held, h.1 < v.seq) → v.todo = [] → LinkBecomes s o l { v with txSel := n, txRet := some (v.txSel, v.seq) }) ∧
        (Tab.find v.txKey v.txSel ≠ none → (∀ h ∈ v.held, v.seq ≤ h.1) → ∃ u, o = .next u ∧ (u.link l).txSel = n ∧ (u.link l).txRet = none ∧
          Tab.find (u.link l).txKey v.txSel = none ∧ Msg.linkControl l "KEYDONE" v.txSel ∈ u.outbox))) ∧
    (∀ slot, slot < 2 → (v.state ≠ 2 → exec (.keydone l slot) s = .next s) ∧
      (v.state = 2 → ∃ u, exec (.keydone l slot) s = .next u ∧ u = { s with links := u.links } ∧ (∀ d, d ≠ l → u.link d = s.link d) ∧
        Tab.find (u.link l).rxKey slot = none ∧ (u.link l).rxRet = none ∧ (u.link l).txKey = v.txKey ∧ ∀ e ∈ (u.link l).seen, e.1 ≠ slot)) ∧
    (let o := exec (.laneHealthWindow l) s;
      let w := s.now / 1024000;
      (w ≤ v.window → o = .next s) ∧ (v.window < w → LinkBecomes s o l (v.endWindows (w - v.window))) ∧
      ∀ (x : Link) (n : Nat), x.endWindows 0 = x ∧ x.endWindows (n + 1) = x.endWindow.endWindows n ∧ WindowEnds x x.endWindow) ∧
    exec .ptFlush s = .next { s with mod := { s.mod with ptCache := [] } } ∧
    (∀ p, let e := leNat (s.bytesAt (s.mod.ptBase.toNat + 8 * p) 8);
      let down := fun k => (s.link (e / 2 ^ (24 + 5 * k) % 32)).state = 0 ∧ (s.link (e / 2 ^ (24 + 5 * k) % 32)).downAt + 100000 ≤ s.now;
      (s.mod.ptCount.toNat ≤ p ∨ p = s.mod.modid ∨ (∃ k, k < 4 ∧ ¬ down k) → exec (.pathsDownExpiry p) s = .next s) ∧
      (p < s.mod.ptCount.toNat → p ≠ s.mod.modid → (∀ k, k < 4 → down k) → e % 4 = 1 → s.launches = [] →
        ∃ u, exec (.pathsDownExpiry p) s = .next u ∧ MarkedLost s u p)) ∧
    (∀ (time bound trip : Nat) (offset : Int), let o := exec (.ftControlFlit l time offset bound trip) s;
      let off := (s.now : Int) - (time + (trip / 2 : Nat)) + offset;
      (s.ft.root = true ∨ s.ft.run = false ∨ s.ft.fail = true ∨ s.timeSource ≠ some l → o = .next s) ∧
      (s.ft.root = false → s.ft.run = true → s.ft.fail = false → s.timeSource = some l → ∃ u, o = .next u ∧ u = { s with ft := u.ft, links := u.links } ∧
        u.ft.offset = BitVec.ofInt 32 off ∧ u.ft.bound.toNat = min 255 (bound + 1) ∧ u.ft.hold = false ∧
        u.ft.slew = (if 0 < off then -1 else if off < 0 then 1 else 0) ∧
        (u.ft.fail = true ↔ 12 < u.ft.error) ∧ (u.ft.error ≤ 12 → u.links = s.links) ∧
        (12 < u.ft.error → ∀ d, d < 32 → (u.link d).state = 0 ∧ ((s.link d).state ≠ 0 → (u.link d).err = 5)))) ∧
    (let f := s.ft;
      let o := exec .ftHoldoverExpiry s;
      (f.root = true ∨ f.run = false ∨ f.fail = true ∨ f.hold = false ∨ s.timeSource ≠ none ∨ s.now < f.holdFrom + 100000 * (f.holdSteps + 1) → o = .next s) ∧
      (f.root = false → f.run = true → f.fail = false → f.hold = true → s.timeSource = none → f.holdFrom + 100000 * (f.holdSteps + 1) ≤ s.now →
        ∃ u, o = .next u ∧ u = { s with ft := u.ft, links := u.links } ∧ u.ft.bound.toNat = min 255 (f.bound.toNat + 1) ∧ u.ft.offset = f.offset ∧
          u.ft.holdSteps = f.holdSteps + 1 ∧ (u.ft.fail = true ↔ 9 ≤ f.holdSteps ∨ 12 < u.ft.error) ∧
          (u.ft.fail = true → ∀ d, d < 32 → (u.link d).state = 0 ∧ ((s.link d).state ≠ 0 → (u.link d).err = 5)))) ∧
    (∀ x : Word, (s.ft.run = true → exec (.ftNowWrite x) s = .next s) ∧
      (s.ft.run = false → ∃ u, exec (.ftNowWrite x) s = .next u ∧ u = { s with now := x.toNat, ft := u.ft } ∧ u.ft = { s.ft with within := u.ft.within })) ∧
    (∀ ns, let u := (elapse (Go.start s) ns).st;
      (s.ft.run = false → u.now = s.now) ∧ (s.ft.run = true → s.ft.slew = 0 → u.now = s.now + ns) ∧
      (s.ft.run = true → (s.link l).state = 2 → ∀ t, t % 1000 = 0 → s.now < t → t ≤ u.now →
        Msg.fabricTime l t (if s.ft.root then 0 else s.ft.offset.toInt) (if s.ft.root then 0 else s.ft.bound.toNat) ∈ u.outbox))

/-- What a module does with a received, transit or returned flit. A received flit is tested in order: a CRC failure is counted and NAKed; one
under an empty key slot is counted; one whose tag fails is counted and NAKed, and the second time for a number takes the link down with
error 2; a repeated (slot, FL.IVC) pair is counted; a number that is not the one expected is counted, and NAKed where it lies ahead. Else
the number expected goes up by 1, the pair is kept, and the payload goes to its unit, a part of a chunk to its channel, or on where its
target is another module. A transit flit goes out on its path with one hop more, behind a full replay buffer it waits while an idle flit
goes out, and it goes back where the entry is not up, the path is down or it has made 32 hops; a returned flit goes again on another up
path as its first hop, and one back from every up path marks its peer lost. Chosen: the path, target and hops stand beside a flit's bytes
(log 37), and what event a payload is (log 86). -/
def Obligations.FlitsAreReceivedAndForwarded : Prop :=
  ∀ (s : State) (l : Nat) (x : FlitIn), l < 32 →
    (let v := s.link l;
      let o := exec (.flitReceive l x) s;
      (v.state ≠ 2 → o = .next s) ∧
      (v.state = 2 → x.raw.length = 256 → ∀ b, Config.fecDecode x.raw = some b → b.length = 256 →
        let h := Header.ofBytes b;
        let crcOk := crc32 (b.take 240) = BitVec.ofNat 32 (leNat ((b.drop 240).take 4));
        let counted := fun u : State => o = .next u ∧ (u.link l).errCnt = v.errCnt + 1 ∧ (u.link l).expect = v.expect ∧ u.agenda = s.agenda ∧ u.mem = s.mem ∧
          (∀ d p, Msg.delivered d p ∈ u.outbox → Msg.delivered d p ∈ s.outbox) ∧ ∀ d, d ≠ l → u.link d = s.link d;
        let nak := Msg.linkControl l "NAK" (v.expect % 65536);
        (¬ crcOk → ∃ u, counted u ∧ nak ∈ u.outbox) ∧
        (crcOk → Tab.find v.rxKey h.key = none → ∃ u, counted u ∧ u.outbox = s.outbox ∧ (u.link l).state = (v.toWindow s.now).state) ∧
        (∀ key salt, crcOk → Tab.find v.rxKey h.key = some (key, salt) →
          let opened := Config.gcmOpen key (BitVec.ofNat 96 (salt.toNat * 2 ^ 64 + h.ivc % 2 ^ 48)) (b.take 16) ((b.take 240).drop 16);
          (opened = none → ∃ u, counted u ∧ (h.seqv = false → u.outbox = s.outbox ∧ (u.link l).state = (v.toWindow s.now).state) ∧
            (h.seqv = true → h.seq ∈ v.tagFail → (u.link l).state = 0 ∧ (u.link l).err = 2) ∧
            (h.seqv = true → h.seq ∉ v.tagFail → nak ∈ u.outbox ∧ h.seq ∈ (u.link l).tagFail)) ∧
          (∀ p, opened = some p → (h.key, h.ivc) ∈ v.seen → ∃ u, counted u ∧ u.outbox = s.outbox) ∧
          (∀ p, opened = some p → (h.key, h.ivc) ∉ v.seen →
            let body := (p ++ List.replicate 208 0).take 208;
            let units := (flitEvent l h body).map fun i => Turn.event i;
            (h.seqv = false → ∃ u, o = .next u ∧ (h.key, h.ivc) ∈ (u.link l).seen ∧ (u.link l).expect = v.expect ∧ (u.link l).errCnt = v.errCnt ∧
              u.agenda = s.agenda ++ units) ∧
            (h.seqv = true → h.seq ≠ v.expect % 65536 → ∃ u, counted u ∧
              ((h.seq + 65536 - v.expect % 65536) % 65536 < 32768 → nak ∈ u.outbox)) ∧
            (h.seqv = true → h.seq = v.expect % 65536 → ∃ u, o = .next u ∧ (u.link l).expect = v.expect + 1 ∧ (h.key, h.ivc) ∈ (u.link l).seen ∧
              let clear := b.take 16 ++ body;
              let on := (h.ty = 1 ∨ h.ty = 2) ∧ x.target ≠ s.mod.modid;
              (h.ty ≠ 3 → (u.link l).errCnt = v.errCnt) ∧ (¬ on → Msg.delivered l clear ∈ u.outbox) ∧
              (on → u.agenda = s.agenda ++ [.event (.flitForward l { x with raw := clear })]) ∧
              (¬ on → h.ty ≠ 3 → u.agenda = s.agenda ++ units) ∧
              (h.ty = 3 → h.ackv = false →
                let ch := h.info % 4;
                let size := 2 ^ (h.info / 1024 % 32);
                let bs := Tab.get [] v.chunks ch ++ body;
                let w := s.wctx l ch;
                (bs.length < size → Tab.get [] (u.link l).chunks ch = bs ∧ u.wctx l ch = w) ∧
                (size ≤ bs.length → Tab.get [] (u.link l).chunks ch = [] ∧
                  (h.info / 4 % 256 = w.set.toNat → (u.wctx l ch).rx = w.rx ++ [(h.info / 1024 % 32, bs.take size)] ∧ (u.link l).errCnt = v.errCnt) ∧
                  (h.info / 4 % 256 ≠ w.set.toNat → u.wctx l ch = w ∧ (u.link l).errCnt = v.errCnt + 1 ∧ Msg.credit l ch size ∈ u.outbox)))))))) ∧
    (let e := (peerEntry (Go.start s) x.target (l / 8)).1;
      let p := e / 2 ^ (24 + 5 * (x.path % 4)) % 32;
      let o := exec (.flitForward l x) s;
      let h := Header.ofBytes x.raw;
      (e % 4 ≠ 1 ∨ (s.link p).state ≠ 2 ∨ 32 ≤ x.hops → ∃ u, o = .next u ∧ u = { s with mod := u.mod, outbox := s.outbox ++ [.flitBack l x] } ∧
        u.mod = { s.mod with ptCache := u.mod.ptCache }) ∧
      (e % 4 = 1 → (s.link p).state = 2 → x.hops < 32 → Tab.find (s.link p).txKey (s.link p).txSel ≠ none →
        Tab.get 0 (s.link p).txIvc (s.link p).txSel < 2 ^ 48 → (s.link p).todo = [] →
        ((s.link p).held.length < 256 →
          ∃ u raw, o = .next u ∧ u = { s with mod := u.mod, links := u.links, outbox := s.outbox ++ [.flit p { x with hops := x.hops + 1, raw := raw }] } ∧
            (∀ d, d ≠ p → u.link d = s.link d) ∧ (u.link p).todo = [] ∧
            (1 ≤ h.ty → h.ty ≤ 4 → (u.link p).held = (s.link p).held ++ [((s.link p).seq, { x with hops := x.hops + 1, raw := raw }, 0)])) ∧
        (256 ≤ (s.link p).held.length → 1 ≤ h.ty → h.ty ≤ 4 →
          ∃ u idle, o = .next u ∧ u = { s with mod := u.mod, links := u.links, outbox := s.outbox ++ [.flit p idle] } ∧ (Header.ofBytes idle.raw).ty = 0 ∧
            (∀ d, d ≠ p → u.link d = s.link d) ∧ (u.link p).held = (s.link p).held ∧ (u.link p).seq = (s.link p).seq ∧
            (u.link p).todo = [(h.ty, h.info, x.raw.drop 16, { x with hops := x.hops + 1 })]))) ∧
    (let o := exec (.returnedFlit l x) s;
      let e := (peerEntry (Go.start s) x.target (l / 8)).1;
      let r := (s.mod.returned.find? fun r => FlitIn.same r.flit x).getD { flit := x, tried := [], since := s.now };
      let tried := fun k => k = x.path % 4 ∨ (s.now < r.since + 100000 ∧ k ∈ r.tried);
      let choice := fun k => k < 4 ∧ (s.link (e / 2 ^ (24 + 5 * k) % 32)).state = 2 ∧ ¬ tried k;
      (x.src ≠ s.mod.modid → o = .next s) ∧
      (x.src = s.mod.modid → (∀ k, ¬ choice k) → x.target < s.mod.ptCount.toNat → (s.byte (s.mod.ptBase.toNat + 8 * x.target)).toNat % 4 = 1 → s.launches = [] →
        ∃ u, o = .next u ∧ MarkedLost s u x.target) ∧
      (x.src = s.mod.modid → (∃ k, choice k) → s.earlierInFlight x = true →
        ∃ u, o = .next u ∧ u = { s with mod := u.mod, agenda := s.agenda ++ [.event (.returnedFlit l x)] }) ∧
      (x.src = s.mod.modid → (∃ k, choice k) → s.earlierInFlight x = false →
        (∀ d, d < 32 → (s.link d).state = 2 → Tab.find (s.link d).txKey (s.link d).txSel ≠ none ∧ (s.link d).held.length < 256 ∧ (s.link d).todo = [] ∧
          Tab.get 0 (s.link d).txIvc (s.link d).txSel < 2 ^ 48) →
        ∃ u k raw, o = .next u ∧ choice k ∧ u = { s with mod := u.mod, links := u.links, outbox := u.outbox } ∧
          u.outbox = s.outbox ++ [Msg.flit (e / 2 ^ (24 + 5 * k) % 32) { x with path := k, hops := 1, raw := raw }]))

/-- Install, load, unload and attest. An install of a new key translates the text, spends a leaf of the installation key, keeps object and
certificate in the cache, writes the portable hash and ends with status 0; one of a cached key signs nothing; a refusal ends with a status
that applies. A record that comes from another module is read before its operation begins. A new entry's text and certificate are written to
the cache region where its pages allow it, and a load takes them from there. A load without an entry ends with 7, one that the checks refuse
with the first failing status, in order, and evicts an entry below the fuse; else the object stands under an unused handle. An unload retires
the object. An attestation spends a leaf of the identity key and writes the 4096-byte report; unusable buffers end a request with 12.
Chosen: how the entries lie in the region, and the service's own copy where the region cannot be read (log 83). -/
def Obligations.InstallationRequests : Prop :=
  ∀ (s : State) (n : Nat),
    let v := s.vi n;
    let ctx := v.instCtx.toNat;
    let req := v.instRec.toNat;
    let src := req % 2 ^ 64;
    let dst := req / 2 ^ 64 % 2 ^ 64;
    let svn := req / 2 ^ 128 % 2 ^ 64;
    let len := req / 2 ^ 192 % 2 ^ 32;
    (∀ op i, (op, i) ∈ [(1, Instr.install n), (2, .load n), (3, .unload n), (4, .attest n)] →
      v.instBusy = false ∨ v.instRec.toNat / 2 ^ 256 % 256 ≠ op ∨ (v.instReq ≠ none ∧ op ≠ 1) → (v.instBusy = true → op = 1 → v.instReq = none) →
      exec i s = .next s) ∧
    (∀ (at_ : Word), v.instBusy = true → v.instReq = some at_ → let o := exec (.install n) s;
      (BufferBad s ctx at_.toNat 64 false → ∃ u, RequestEnds s o u n 12 ∧ u.mod = s.mod ∧ u.mem = s.mem) ∧
      (∀ k, BufferAt s ctx at_.toNat 64 false k → let r := leNat (s.bytesAt k 64);
        let op := r / 2 ^ 256 % 256;
        let odd := op = 0 ∨ 4 < op ∨ r / 2 ^ 264 ≠ 0;
        (at_.toNat % 64 ≠ 0 → ∃ u, RequestEnds s o u n 12) ∧ (at_.toNat % 64 = 0 → odd → ∃ u, RequestEnds s o u n 13) ∧
        (at_.toNat % 64 = 0 → ¬ odd → ∃ u, o = .next u ∧ (u.vi n).instRec = BitVec.ofNat 512 r ∧ (u.vi n).instReq = none ∧ (u.vi n).instBusy = true ∧
          u.agenda = s.agenda ++ [.event (if op = 1 then .install n else if op = 2 then .load n else if op = 3 then .unload n else .attest n)]))) ∧
    (Requests s n 1 → let o := exec (.install n) s;
      (len = 0 ∨ 2 ^ 31 < len → ∃ u k, k ∈ [8, 12, 13] ∧ RequestEnds s o u n k ∧ u.mod = s.mod ∧ u.mem = s.mem) ∧
      (0 < len → len ≤ 2 ^ 31 → BufferBad s ctx src len false → ∃ u, RequestEnds s o u n 12 ∧ u.mod.cache = s.mod.cache ∧ u.mem = s.mem) ∧
      (∀ k ko, 0 < len → len ≤ 2 ^ 31 → BufferAt s ctx src len false k →
        (BufferBad s ctx dst 32 true → ∃ u, RequestEnds s o u n 12 ∧ u.mod.cache = s.mod.cache ∧ u.mem = s.mem) ∧
        (BufferAt s ctx dst 32 true ko →
          let text := s.bytesAt k len;
          let hash := sha256 text;
          let made := translateText text;
          let cached := fun e : CacheEntry => e.portable = hash ∧ e.svn = min svn Config.translatorVersion;
          let used := (s.mod.cache.map fun e => CacheEntry.size e.2).sum;
          (s.mod.fuseSvn.toNat ≤ svn → ∀ e, s.mod.cache.find? (fun q => decide (cached q.2)) = some e →
            ∃ u, RequestEnds s o u n 0 ∧ Wrote s u ko (leBytes hash.toNat 32) ∧ u.mod.cache = s.mod.cache ∧ u.mod.instLeaf = s.mod.instLeaf ∧
              (u.vi n).instDataSize = BitVec.ofNat 32 ((e.2.native.data.length + 65535) / 65536 * 65536)) ∧
          ((∀ e ∈ s.mod.cache, ¬ cached e.2) →
            (svn < s.mod.fuseSvn.toNat ∨ made = none ∨ 2 ^ 35 ≤ s.mod.instLeaf → ∃ u k, RequestEnds s o u n k ∧ u.mod.instLeaf = s.mod.instLeaf ∧ u.mem = s.mem ∧
              ((k = 8 ∧ made = none) ∨ (k = 9 ∧ svn < s.mod.fuseSvn.toNat) ∨ k = 10 ∨ (k = 11 ∧ 2 ^ 35 ≤ s.mod.instLeaf))) ∧
            (∀ i, s.mod.fuseSvn.toNat ≤ svn → made = some i → s.mod.instLeaf < 2 ^ 35 →
              let total := used + ((NativeImage.stored i).length + 3572);
              total ≤ s.mod.tcSize.toNat * 65536 → Tab.find s.mod.cache s.seq = none → Tab.find s.engines (s.seq + 1) = none →
              (∀ b e size q va, b < total → s.walk 4095 ((s.mod.tcBase.toNat + b) % 2 ^ 56) = .ok e size →
                leafLoc e size ((s.mod.tcBase.toNat + b) % 2 ^ 64) ≠ .far q va) →
              (∀ t : State, t = { s with mem := t.mem } → (∀ b, InCacheRegion s b ∨ t.byte b = s.byte b) → BufferAt t ctx dst 32 true ko) →
              ∃ u e, RequestEnds s o u n 0 ∧ u.bytesAt ko 32 = leBytes hash.toNat 32 ∧
                (∀ b, b < ko ∨ ko + 32 ≤ b → InCacheRegion s b ∨ u.byte b = s.byte b) ∧
                (∀ kc, BufferAt s 4095 s.mod.tcBase.toNat total true kc → ko + 32 ≤ kc ∨ kc + total ≤ ko →
                  u.bytesAt kc total = (u.mod.cache.map fun e => CacheEntry.bytes e.2).flatten) ∧
                u.mod.instLeaf = s.mod.instLeaf + 1 ∧ e ∈ Tab.vals u.mod.cache ∧ cached e ∧ e.native = i ∧
                e.cert.length = 3572 ∧ certField e.cert 0 4 = 1 ∧ certField e.cert 8 8 = s.mod.idModule.toNat ∧
                certField e.cert 24 8 = min svn Config.translatorVersion ∧ certField e.cert 32 32 = (sha256 (NativeImage.stored i)).toNat ∧ certField e.cert 64 32 = hash.toNat ∧
                e.cert.drop 128 = hssSign 2 s.mod.instLeaf (e.cert.take 128) ∧
                (u.vi n).instDataSize = BitVec.ofNat 32 ((i.data.length + 65535) / 65536 * 65536)))))) ∧
    (∀ (e : CacheEntry) (k : Nat), BufferAt s 4095 (s.mod.tcBase.toNat + e.off) e.size false k →
      let m := (NativeImage.stored e.native).length;
      s.cachedBytes e = (s.bytesAt k m, s.bytesAt (k + m) e.cert.length)) ∧
    (Requests s n 2 → let o := exec (.load n) s;
      (BufferBad s ctx src 32 false → ∃ u, RequestEnds s o u n 12 ∧ u.objs = s.objs ∧ u.mem = s.mem) ∧
      (∀ k, BufferAt s ctx src 32 false k →
        let hash := BitVec.ofNat 256 (leNat (s.bytesAt k 32));
        ((∀ e ∈ s.mod.cache, e.2.portable ≠ hash) → ∃ u, RequestEnds s o u n 7 ∧ u.objs = s.objs ∧ u.mod.cache = s.mod.cache ∧ u.mem = s.mem) ∧
        (∀ key e, (key, e) ∈ s.mod.cache → e.portable = hash → (∀ q ∈ s.mod.cache, q.2.portable = hash → q = (key, e) ∨ q.2.svn < e.svn) →
          let m := e.native;
          let text := (s.cachedBytes e).1;
          let cert := (s.cachedBytes e).2;
          let signed := certOk s.mod cert = true ∧ certField cert 32 32 = (sha256 text).toNat;
          let refused := fun (status : Nat) => ∃ u, RequestEnds s o u n status ∧ u.objs = s.objs ∧ u.mem = s.mem ∧
            (status ≠ 3 → u.mod.cache = s.mod.cache) ∧ (status = 3 → Tab.find u.mod.cache key = none);
          let rev := certField cert 16 6 = s.mod.revision;
          let fresh := s.mod.fuseSvn.toNat ≤ certField cert 24 8;
          let classes := certField cert 4 2 = m.descs.length ∧ certField cert 96 32 = bitsNat (s.classesAt ctx m);
          let part := s.ctxScratch ctx;
          let bound := ∀ i, m.fns[i]? = some none → ∃ r, (Tab.find m.binds i).bind (Config.binding ctx) = some r;
          (¬ signed → refused 1) ∧ (signed → ¬ rev → refused 2) ∧ (signed → rev → ¬ fresh → refused 3) ∧ (signed → rev → fresh → ¬ classes → refused 4) ∧
          (signed → rev → fresh → classes → NativeImage.accepted m part = false → refused 5) ∧
          (signed → rev → fresh → classes → NativeImage.accepted m part = true → ¬ bound → refused 6) ∧
          (signed → rev → fresh → classes → NativeImage.accepted m part = true → bound →
            let size := (m.data.length + 65535) / 65536 * 65536;
            let unusable := dst = 0 ∨ dst % 65536 ≠ 0 ∨ BufferBad s ctx dst size true;
            (m.data ≠ [] → unusable → refused 12) ∧
            (m.data = [] ∨ (dst ≠ 0 ∧ dst % 65536 = 0 ∧ ∃ ps, s.HomeRange ctx dst size true false ps) → s.objs.length < 2 ^ 32 → (∀ q o, Tab.find s.objs q = some o → q / 2 ^ 32 = o.ctx) → ∃ u h ob, RequestEnds s o u n 0 ∧ h < 2 ^ 32 ∧ (u.vi n).instHandle = BitVec.ofNat 32 h ∧
              Tab.find s.objs (objKey ctx h) = none ∧ Tab.find u.objs (objKey ctx h) = some ob ∧ ob.ctx = ctx ∧ ob.retired = false ∧ ob.portable = hash ∧
              ob.svn = e.svn ∧ ob.database = (if m.data = [] then 0 else BitVec.ofNat 64 dst) ∧ ob.textSize = m.text.length ∧ ob.kernels.length = m.descs.length ∧
              ∀ q, q ≠ objKey ctx h → Tab.find u.objs q = Tab.find s.objs q))))) ∧
    (Requests s n 3 → let k := objKey ctx (req / 2 ^ 224 % 2 ^ 32);
      (∀ ob, Tab.find s.objs k = some ob → ob.retired = false → ∃ u, RequestEnds s (exec (.unload n) s) u n 0 ∧
        u = { s with objs := Tab.put s.objs k { ob with retired := true }, vis := u.vis, outbox := u.outbox }) ∧
      ((∀ ob, Tab.find s.objs k = some ob → ob.retired = true) → ∃ u st, RequestEnds s (exec (.unload n) s) u n st ∧
        u = { s with vis := u.vis, outbox := u.outbox })) ∧
    (Requests s n 4 → let o := exec (.attest n) s;
      (BufferBad s ctx src 32 false ∨ BufferBad s ctx dst 4096 true → ∃ u, RequestEnds s o u n 12 ∧ u.mem = s.mem ∧ u.mod.idLeaf = s.mod.idLeaf) ∧
      (∀ k ko, BufferAt s ctx src 32 false k → BufferAt s ctx dst 4096 true ko →
        (2 ^ 35 ≤ s.mod.idLeaf → ∃ u, RequestEnds s o u n 11 ∧ u.mem = s.mem ∧ u.mod.idLeaf = s.mod.idLeaf) ∧
        (s.mod.idLeaf < 2 ^ 35 → ∃ u bs, RequestEnds s o u n 0 ∧ u.mod.idLeaf = s.mod.idLeaf + 1 ∧ bs.length = 4096 ∧ Wrote s u ko bs ∧
          bs.take 8 = leBytes 1 4 ++ leBytes n 4 ∧ (bs.drop 8).take 24 = leBytes s.mod.idModule.toNat 8 ++ leBytes s.mod.revision 8 ++ leBytes s.mod.fuseSvn.toNat 8 ∧
          (bs.drop 32).take 32 = s.bytesAt k 32 ∧ (∀ i, i < 8 → (bs.drop (64 + 32 * i)).take 32 = leBytes (Tab.get 0 s.mod.meas i).toNat 32) ∧
          (bs.drop 320).take 60 = hssPublic 2 ∧ (bs.drop 384).take 3444 = hssSign 1 s.mod.idLeaf (bs.take 384) ∧ (bs.drop 3828).take 60 = hssPublic 1 ∧
          bs.drop 3888 = List.replicate 208 0)))

/-- Reset and boot, loss of power, fatal errors, throttling and the host link. A reset ends every activity, keeps memory, identity, fuses and
key leaves, and boots: an unreadable image stops at stage 1 with error 1, a bad signature at 2 with 2, a version below the fuse at 3 with 3,
a failed self-test at 4 with 4, an unreadable key state at 6 with 5, with every link down; else context 4095 is active at stage 7, with
fabric time running; the measurements are extended as the stages give. Loss of power also loses memory. A fatal error stops every context,
an active one with its kind-3 record, takes every link down and tells the board controller, once. Throttling records what was measured,
raises the share of the clock withheld above the cap or 95 degrees, and makes a fatal error at 110. Host accesses are withheld while the link
is down and go through in order after. Chosen: what survives a reset and a loss of power (log 44), that the share withheld rises by at least
one (log 30), what the board controller did to the flash (log 84), and the crew that a record of a fatal error names (log 85). -/
def Obligations.ResetPowerAndFatalErrors : Prop :=
  (∀ s : State, let m := s.mod;
    let f := m.flashed (Config.boardFlash (s.salt 83 0));
    let image := f.bootImage;
    let ext := fun (v : BitVec 256) => sha256 (List.replicate 32 0 ++ leBytes v.toNat 32);
    let ends := fun (u : State) (stage err : Nat) => u.mod.bootStage = BitVec.ofNat 8 stage ∧ u.mod.bootErr = BitVec.ofNat 8 err;
    ∃ u, exec .reset s = .next u ∧ u.crews = [] ∧ u.teams = [] ∧ u.launches = [] ∧ u.queues = [] ∧ u.passes = [] ∧ u.engines = [] ∧ u.agenda = [] ∧ u.now = 0 ∧
      u.powered = true ∧ (s.powered = true → u.mem = s.mem ∧ u.tags = s.tags) ∧ u.mod.idModule = m.idModule ∧ u.mod.idLeaf = m.idLeaf ∧
      u.mod.instLeaf = m.instLeaf ∧ m.fuseSvn.toNat ≤ u.mod.fuseSvn.toNat ∧ u.mod.errFatal = 0 ∧
      (u.mod.bootErr ≠ 0 → (∀ l, l < 32 → (u.link l).state = 0) ∧ (∀ n, (u.vi n).en = false) ∧ u.mod.fuseSvn = m.fuseSvn) ∧
      (Config.imageReadable image = false → ends u 1 1 ∧ ∀ i, Tab.get 0 u.mod.meas i = 0) ∧
      (Config.imageReadable image = true → Tab.get 0 u.mod.meas 0 = ext (sha256 image) ∧
        let trusted := sha256 (Config.imageKey image) = m.fuseKey ∧
          hssVerify (Config.imageKey image) (Config.imageSigned image) (Config.imageSignature image) = true;
        (¬ trusted → ends u 2 2) ∧
        (trusted →
          (Config.imageVersion image < m.fuseSvn → ends u 3 3) ∧
          (m.fuseSvn ≤ Config.imageVersion image → (∀ i, 1 ≤ i → i ≤ 3 → Tab.get 0 u.mod.meas i = ext (Config.imagePart image i)) ∧
            u.mod.firmware = Config.imageRevision image ∧ (ends u 4 4 ∨ ends u 6 5 ∨ ends u 7 0) ∧
            (ends u 7 0 → (u.ctx 4095).state = 1 ∧ u.ft.run = true ∧ (∀ l, l < 32 → (u.link l).state = 1) ∧
              (f.update = none → u.mod.fuseSvn = m.fuseSvn) ∧
              (∀ img target sig, f.update = some (img, target, sig) → u.mod.update = none ∧ u.mod.image = img ∧
                (m.fuseSvn.toNat < target → target < 2 ^ 64 → m.fuseLeft ≠ 0 → hssVerify (Config.imageKey image) (leBytes target 8) sig = true →
                  u.mod.fuseSvn = BitVec.ofNat 64 target ∧ u.mod.fuseLeft = m.fuseLeft - 1))))))) ∧
  (∀ s : State, ∃ u, exec .powerLoss s = .next u ∧ u.powered = false ∧ u.mem = [] ∧ u.tags = [] ∧ u.crews = [] ∧ u.teams = [] ∧ u.agenda = [] ∧
    u.mod.idModule = s.mod.idModule ∧ u.mod.fuseSvn = s.mod.fuseSvn ∧ u.mod.idLeaf = s.mod.idLeaf ∧ u.mod.instLeaf = s.mod.instLeaf) ∧
  (∀ (s : State) (code : Nat),
    (code = 0 ∨ 4 ≤ code ∨ s.mod.errFatal ≠ 0 → exec (.fatalError code) s = .next s) ∧
    (1 ≤ code → code < 4 → s.mod.errFatal = 0 → ∃ u, exec (.fatalError code) s = .next u ∧
      u.mod = { s.mod with errFatal := BitVec.ofNat 8 code } ∧ u.now = s.now ∧ u.teams = s.teams ∧ u.launches = s.launches ∧ u.outbox = s.outbox ++ [.i3cAlert] ∧
      (∀ c, (s.ctx c).state ≠ 0 → (u.ctx c).state = if (s.ctx c).state = 3 then 3 else 2) ∧ (∀ x c, u.crew? x = some c → (s.ctx c.ctx).state ≠ 0 → c.st ≠ .running) ∧
      (∀ l, l < 32 → (u.link l).state = 0) ∧
      ((∀ c, (s.ctx c).state ≠ 1) →
        u = { s with mod := u.mod, ctxs := u.ctxs, crews := u.crews, saved := u.saved, wctxs := u.wctxs, links := u.links, outbox := u.outbox }) ∧
      (∀ c, Tab.sorted s.ctxs = true → (s.ctx c).state = 1 → (∀ d, d ≠ c → (s.ctx d).state ≠ 1) →
        ∃ id, Reported s u c (FaultRec.event 3 0 id 0 s.now)))) ∧
  (∀ (s : State) (now temp throt : Nat), ∃ u, exec (.pwrThrottle now temp throt) s = .next u ∧ (temp < 110 ∨ s.mod.errFatal ≠ 0 → u.mem = s.mem) ∧ u.now = s.now ∧
    u.mod.pwrNow.toNat = min now 65535 ∧ u.mod.pwrTemp.toNat = min temp 255 ∧
    u.mod.pwrThrot.toNat = min 100 (if s.mod.pwrCap.toNat < now ∨ 95 < temp then max throt (s.mod.pwrThrot.toNat + 1) else throt) ∧
    (95 ≤ temp → s.mod.pwrTemp.toNat < 95 → Msg.i3cAlert ∈ u.outbox) ∧ (110 ≤ temp → s.mod.errFatal = 0 → u.mod.errFatal = 3) ∧
    (temp < 95 → u = { s with mod := { s.mod with pwrNow := u.mod.pwrNow, pwrTemp := u.mod.pwrTemp, pwrThrot := u.mod.pwrThrot } })) ∧
  (∀ s : State, exec .hostLinkDown s = .next { s with mod := { s.mod with hostUp := false } } ∧
    (let up := fun (w : List (Nat × Nat × Option Word)) => { s with mod := { s.mod with hostUp := true, withheld := w } };
      (s.mod.withheld = [] → exec .hostLinkRetrain s = .next (up [])) ∧
      (∀ n a x, s.mod.withheld = [(n, a, some x)] → exec .hostLinkRetrain s = exec (.systemRegisterWrite (.host n) a x) (up [])) ∧
      (∀ n a, s.mod.withheld = [(n, a, none)] → exec .hostLinkRetrain s = exec (.readClear (.host n) a) (up [])) ∧
      ∃ u, exec .hostLinkRetrain s = .next u ∧ u.mod.hostUp = true ∧ u.mod.withheld = []))

/-- Decoding and encoding agree on every instruction and on every word. For every crew instruction, winch instruction and queue packet, with
every operand at every value the encoding admits, decoding its encoding gives it back; and a word of 96, 64 or 512 bits that decodes to an
instruction is that instruction's encoding, so that no bit is dropped and no two words mean the same. An event of the hardware has no
encoding. -/
def Obligations.EncodingsRoundTrip : Prop :=
  (∀ (i : Instr) (n w : Nat), encode i = some (n, w) → w < 2 ^ n ∧ decodeTableWord n w = some i) ∧
  (∀ (m : Mn) (f : Fields), encodingOk m f = true → ∃ w, encode (m.instr f) = some (96, w)) ∧
  (∀ (i : Instr) (op : Nat) (f : WFields), winchParts i = some (op, f) → winchOk op f = true → ∃ w, encode i = some (64, w)) ∧
  (∀ i, isPacket i = true → ∃ w, encode i = some (512, w)) ∧
  (∀ (n w : Nat) (i : Instr), n ∈ [64, 96, 512] → w < 2 ^ n → decodeTableWord n w = some i → encode i = some (n, w)) ∧
  (∀ i, (∀ (m : Mn) (f : Fields), i ≠ m.instr f) → winchParts i = none → isPacket i = false → encode i = none)

/-- Words that the spec writes out decode to the statements it gives them for. The words of R150, R185, R209, R241, R294, R328, R332, R356 and
R379 decode to the instructions that their statements name, and a word of zeros to none. -/
def Obligations.WordsOfTheSpecDecode : Prop :=
  decodeTableWord 96 (parcels 0x00820801 0x22000100 0x00000400) = some (.iadd
    { sel := .ty .s32, f := false, guard := { pred := 2, neg := false, uni := false }, d := vec 4, a := vec 2, b := .i 17, ext := 0, hint := noHint }) ∧
  decodeTableWord 96 (parcels 0x01003C84 0x06008100 0x00120000) = some (.fma
    { sel := .ty .f32, f := false, guard := always, d := vec 8, a := .v 2 0 false true, b := vec 3, ext := 0, hint := { noHint with la := 2, keepA := true } }) ∧
  decodeTableWord 96 (parcels 0x00200841 0xC80001A0 0x00001400) = some (.icmp
    { sel := .ty .s32, f := false, guard := always, d := .p 1 false, a := vec 3, b := .i 100, ext := 2, hint := noHint }) ∧
  decodeTableWord 96 (parcels 0x0080BD44 0x00000490 0x00000700) = some (.redux
    { sel := .ty .f32, f := true, guard := always, d := .s 4, a := vec 9, b := .none, ext := 0, hint := noHint }) ∧
  decodeTableWord 96 (parcels 0x01002A01 0x0C400100 0) = some (.ld
    { sel := .ty .b32, f := false, guard := always, d := vec 8, a := .s 2, b := vec 6, ext := 0, hint := noHint }) ∧
  decodeTableWord 96 (parcels 0x00000282 0x01000070 0x00000700) = some (.bar
    { sel := .var 0, f := false, guard := always, d := .none, a := .i 0, b := .none, ext := 0, hint := noHint }) ∧
  decodeTableWord 96 (parcels 0x01402B42 0x08400480 0x00006800) = some (.rst
    { sel := .ty .b32, f := false, guard := always, d := vec 10, a := .s 9, b := vec 4, ext := 13, hint := noHint }) ∧
  decodeTableWord 96 (parcels 0x00800381 0x01420410 0x0000000C) = some (.rdpr
    { sel := .var 0, f := false, guard := always, d := .s 4, a := .w 0x03000408, b := .none, ext := 0, hint := noHint }) ∧
  decodeTableWord 64 0x0000000900601001 = some (.xmit { hd := 0, ha := 1, hb := 0, modf := 6, cty := 0, cop := 0, imm := 9 }) ∧
  decodeTableWord 64 0xFFFFFFFD00000508 = some (.loop { hd := 5, ha := 0, hb := 0, modf := 0, cty := 0, cop := 0, imm := 0xFFFFFFFD }) ∧
  decodeTableWord 512 (1 + 2 ^ 64 * 3 + 2 ^ 128 * 0x10000000000 + 2 ^ 192 * 0x10000000800 + 2 ^ 160 * 2 ^ 96 * 0x10000000C00 + 2 ^ 160 * 2 ^ 160 * 1) = some (.launch
    { kernel := 0, object := 3, args := 0x10000000000, params := 0x10000000800, done := 0x10000000C00, doneVal := 1 }) ∧
  decodeTableWord 512 0x302 = some (.wset { set := 3, arg := 0 }) ∧
  decodeTableWord 96 0 = none

/-- A step runs the instruction that the bytes at the program counter decode to. Where the agenda gives a split, a winch context or a queue its
turn (log 3), the step is the execution of the instruction that its 12 bytes, its word or its packet decode to, in the state in which the
turn is taken and the fetch has filled translations and copies; the bytes fetched are those at the place of the PC; bytes that are no
instruction raise illegal-encoding. An event is executed unless it is still on its way; a merge that is due comes before the instruction.
Every instruction and event answers a next state. With the end of a turn the messages it sent go onto their links: nothing but links, flits sent
and the peer table's cached entries changes. A module without power does nothing but RESET, and one held by a fatal error nothing but what its
board controller and its clock do. -/
def Obligations.StepRunsTheDecodedInstruction : Prop :=
  ∀ s : State, (∀ i, ∃ t, exec i s = .next t) ∧
    (∀ t : State, ((∀ m ∈ t.outbox.drop s.outbox.length, Msg.flitType m = 0) → s.wired (.next t) = .next t) ∧
      ∃ u more, s.wired (.next t) = .next u ∧ u = { t with links := u.links, mod := u.mod, outbox := t.outbox ++ more } ∧
        u.mod = { t.mod with ptCache := u.mod.ptCache }) ∧
    (s.powered = false → (∀ rest, s.agenda ≠ .event .reset :: rest) → step s = .fault .unpowered) ∧
    (s.powered = false → ∀ rest, s.agenda = .event .reset :: rest → step s = s.wired (exec .reset (tookTurn s rest .none))) ∧
    (s.powered = true → ∀ n rest, s.agenda = .elapse n :: rest → step s = s.wired (elapse (Go.start (tookTurn s rest .none)) n).done) ∧
    (s.powered = true → s.mod.errFatal ≠ 0 →
      (∀ x k rest, s.agenda = .issue x k :: rest → step s = .next (tookTurn s rest (.crew x k))) ∧
      (∀ w c rest, s.agenda = .winch w c :: rest → step s = .next (tookTurn s rest (.winch w c))) ∧
      (∀ q rest, s.agenda = .queue q :: rest → step s = .next (tookTurn s rest (.queue q))) ∧
      (∀ i rest, s.agenda = .event i :: rest → Config.freeBit (s.salt 30 1) = false →
        let open_ := i = .reset ∨ i = .powerLoss ∨ (∃ n t p, i = .pwrThrottle n t p) ∨ (∃ a v, i = .systemRegisterWrite .board a v) ∨ ∃ a, i = .readClear .board a;
        (open_ → step s = s.wired (exec i (tookTurn s rest .none))) ∧ (¬ open_ → step s = .next (tookTurn s rest .none)))) ∧
    (s.powered = true → s.mod.errFatal = 0 →
      (∀ i rest, s.agenda = .event i :: rest → Config.freeBit (s.salt 30 1) = false → step s = s.wired (exec i (tookTurn s rest .none))) ∧
      (∀ w c rest v, s.agenda = .winch w c :: rest → (tookTurn s rest (.winch w c)).winchIssuer = some (w, c, v) →
        (v.lo ≤ v.pc → v.pc ≤ v.hi → ∀ i, decodeWinch (Tab.get 0 s.imem (8192 * w + v.pc.toNat)).toNat = .ok i →
          step s = s.wired (exec i (tookTurn s rest (.winch w c))))) ∧
      (∀ q rest v, s.agenda = .queue q :: rest → (tookTurn s rest (.queue q)).queueIssuer = some (q, v) →
        let s1 := tookTurn s rest (.queue q);
        (∀ n w i, v.saved = some (n, w) → decodePacket w.toNat = .ok i → step s = s.wired (exec i s1)) ∧
        (v.saved = none →
          let a := v.base.toNat + 64 * (v.head.toNat % 2 ^ v.size.toNat);
          let got := agentRead (Go.start s1) (queueKey q 0) v.ctx.toNat a 64;
          ∀ bs, got.1 = .bytes bs → ∀ i, decodePacket (natOfBytes bs) = .ok i → step s = s.wired (exec i got.2.st))) ∧
      (∀ x k rest c sp, s.agenda = .issue x k :: rest →
        let s1 := tookTurn s rest (.crew x k);
        s1.issuer = some (x, k, c, sp) →
        (c.mergeDue sp = true → step s = s.wired (exec (.merge x k) s1)) ∧
        (c.mergeDue sp = false →
          let got := fetchBytes (Go.start s1) (placeCore x) c.ctx sp.pc.toNat;
          let s2 := got.2.st;
          s2 = { s1 with tlbs := s2.tlbs, lines := s2.lines, cores := s2.cores } ∧
          (∀ bs i more, got.1 = .ok bs → decodeBytes bs = .ok (i, more) → step s = s.wired (exec i s2)) ∧
          (∀ bs e, got.1 = .ok bs → decodeBytes bs = .error e → lowest sp.mask c.width ≠ none → Faults s (step s) x k c sp 1 sp.mask) ∧
          (∀ e size h, s.walk c.ctx sp.pc.toNat = .ok e size → pteXn e = false → leafLoc e size sp.pc.toNat = .home h → sp.pc.toNat % 65536 + 12 ≤ 65536 →
            s.UnitsAgree (coreUnits (placeCore x)) c.ctx → (∀ ln, s.liveCopy (placeCore x) ln 0 = none) →
            got.1 = .ok (s.bytesAt h 12)))))

/-- Every step keeps memory and every table in canonical form. For every state whose memory, tags, register files and tables are in canonical
form (keys strictly rising, no entry equal to what an unlisted key reads as), the state that a step answers is in canonical form as well; so
is the state after any instruction or event. -/
def Obligations.StepsKeepMemoryCanonical : Prop :=
  (∀ s t : State, Canonical s → step s = .next t → Canonical t) ∧ ∀ (i : Instr) (s t : State), Canonical s → exec i s = .next t → Canonical t

/-- The state after reset is canonical and holds the reset values that the register maps give. After reset no crew, team, launch, gang, object
or request exists, the state is in canonical form, and registers read as the Reset columns say; what an unlisted byte of memory reads as is
the model's choice (log 1), and so are the values named in log 6. -/
def Obligations.ResetLeavesTheSpecsValues : Prop :=
  Canonical State.reset ∧ State.reset.crews = [] ∧ State.reset.teams = [] ∧ State.reset.launches = [] ∧ State.reset.gangs = [] ∧ State.reset.objs = [] ∧
    (∀ p, p < 8 → regRead State.reset (.part p) = 0x20000 ∧ regRead State.reset (.qsa p 0) = 0 ∧ regRead State.reset (.qsa p 1) = 1000 ∧
      regRead State.reset (.dist p 0) = 2000 ∧ regRead State.reset (.dist p 1) = 500 ∧ regRead State.reset (.dist p 4) = 0x100000040 ∧
      regRead State.reset (.phbm p 0) = 0 ∧ regRead State.reset (.phbm p 1) = 0 ∧ regRead State.reset (.lse p) = 16) ∧
    (∀ n k, regRead State.reset (.vi n k) = 0) ∧
    (∀ c, c < 4095 → regRead State.reset (.ctx c 0) = 0 ∧ regRead State.reset (.ctx c 1) = 0 ∧ regRead State.reset (.ctx c 3) = 0 ∧
      regRead State.reset (.ctx c 4) = 4 ∧ regRead State.reset (.ctx c 17) = 4096 ∧ ∀ k, regRead State.reset (.tr c k) = 0) ∧
    (∀ q, regRead State.reset (.queue q 0) = 0x430 ∧ regRead State.reset (.queue q 1) = 0 ∧ regRead State.reset (.queue q 2) = 0 ∧
      regRead State.reset (.queue q 3) = 0 ∧ regRead State.reset (.queue q 4) = 0xFF0C0000) ∧
    (∀ n, regRead State.reset (.slot n) = 0) ∧
    (∀ l, regRead State.reset (.link l 0) = 0xFFFFA000 ∧ regRead State.reset (.link l 1) = 0 ∧ regRead State.reset (.link l 4) = 0) ∧
    (∀ k, k < 2 → regRead State.reset (.time k) = 0) ∧ regRead State.reset (.tc 0) = 0 ∧ regRead State.reset (.tc 1) = 0 ∧
    regRead State.reset (.ident 5) = 6000 ∧ (∀ i k, regRead State.reset (.meas i k) = 0) ∧ ∀ a, State.reset.byte a = 0

end Statements
end

