-- ==== Sys2Proof/Laws/Hss.lean ====
section
/-! SUPPORT. What the module signs verifies under its public key (R473, R474). -/

namespace Sys2Proof.Machine

@[simp] theorem length_leBytes (x n : Nat) : (leBytes x n).length = n := by
  induction n generalizing x with
  | zero => rfl
  | succ n ih => simp [leBytes, ih]
@[simp] theorem length_beBytes (x n : Nat) : (beBytes x n).length = n := by
  induction n with
  | zero => rfl
  | succ n ih => simp [beBytes, ih]
@[simp] theorem length_digest (bs : List Byte) : (digest bs).length = 32 := length_leBytes _ _
@[simp] theorem length_hssId (key tree : Nat) : (hssId key tree).length = 16 := length_leBytes _ _
@[simp] theorem length_hssSecret (key tree q i : Nat) : (hssSecret key tree q i).length = 32 := length_leBytes _ _
@[simp] theorem length_hssSalt (key tree q : Nat) : (hssSalt key tree q).length = 32 := length_leBytes _ _

/-- A number that fits is read back from its big-endian bytes. -/
theorem beNat_beBytes (x n : Nat) (h : x < 256 ^ n) : beNat (beBytes x n) = x := by
  have key : ∀ n a x, (beBytes x n).foldl (fun a (b : Byte) => 256 * a + b.toNat) a = 256 ^ n * a + x % 256 ^ n := by
    intro n
    induction n with
    | zero => intro a x; simp [beBytes, Nat.mod_one]
    | succ n ih =>
      intro a x
      simp only [beBytes, List.foldl_cons, ih, BitVec.toNat_ofNat]
      have e : x % 256 ^ (n + 1) = 256 ^ n * (x / 256 ^ n % 256) + x % 256 ^ n := by
        rw [Nat.pow_succ, Nat.mod_mul]; ring
      rw [e, show (2 : Nat) ^ 8 = 256 from rfl, Nat.pow_succ]; ring
  have := key n 0 x
  rw [Nat.mod_eq_of_lt h] at this
  simpa [beNat] using this

/-! ### Chains -/

theorem length_otsChain (id : List Byte) (q i j n : Nat) (t : List Byte) (h : t.length = 32) : (otsChain id q i j n t).length = 32 := by
  induction n generalizing j t with
  | zero => exact h
  | succ n ih => exact ih _ _ (length_digest _)

/-- Steps follow one another. -/
theorem otsChain_add (id : List Byte) (q i j m n : Nat) (t : List Byte) :
    otsChain id q i (j + m) n (otsChain id q i j m t) = otsChain id q i j (m + n) t := by
  induction m generalizing j t with
  | zero => simp [otsChain]
  | succ m ih =>
    rw [show m + 1 + n = (m + n) + 1 by omega]
    simp only [otsChain]
    rw [← ih (j + 1), show j + (m + 1) = j + 1 + m by omega]

theorem length_otsDigits (id : List Byte) (q : Nat) (salt msg : List Byte) : (otsDigits id q salt msg).length = 34 := by simp [otsDigits]

/-- A checksum of `n` bytes. -/
theorem checksum_le (l : List Byte) : ((l.map BitVec.toNat).map fun x => 255 - x).sum ≤ 255 * l.length := by
  induction l with
  | nil => simp
  | cons b l ih => simp only [List.map_cons, List.sum_cons, List.length_cons]; omega

/-- Digits of a 32-byte hash and its checksum are bytes. -/
theorem digits_le (l : List Byte) (h : l.length = 32) (d : Nat)
    (hd : d ∈ l.map BitVec.toNat ++ [((l.map BitVec.toNat).map fun x => 255 - x).sum / 256, ((l.map BitVec.toNat).map fun x => 255 - x).sum % 256]) :
    d ≤ 255 := by
  have s := checksum_le l
  rw [h] at s
  generalize ((l.map BitVec.toNat).map fun x => 255 - x).sum = n at s hd
  simp only [List.mem_append, List.mem_map, List.mem_cons, List.not_mem_nil, or_false] at hd
  rcases hd with ⟨b, -, rfl⟩ | rfl | rfl
  · have := b.isLt; omega
  · omega
  · omega

theorem otsDigits_le (id : List Byte) (q : Nat) (salt msg : List Byte) (d : Nat) (hd : d ∈ otsDigits id q salt msg) : d ≤ 255 :=
  digits_le _ (length_digest _) d hd

/-- A piece of a list of pieces of 32 bytes. -/
theorem piece_flatten (l : List (List Byte)) (h : ∀ x ∈ l, x.length = 32) (i : Nat) (hi : i < l.length) :
    (l.flatten.drop (32 * i)).take 32 = l[i] := by
  induction l generalizing i with
  | nil => simp at hi
  | cons a l ih =>
    have ha : a.length = 32 := h a (by simp)
    cases i with
    | zero => simp [List.take_left' ha]
    | succ i =>
      rw [List.flatten_cons, show 32 * (i + 1) = 32 + 32 * i by omega, ← List.drop_drop, List.drop_left' ha]
      exact ih (fun x hx => h x (by simp [hx])) i (by simpa using hi)

theorem length_otsSign (key tree q : Nat) (msg : List Byte) : (otsSign key tree q msg).length = 1124 := by
  have each : ∀ l : List (List Byte), (∀ x ∈ l, x.length = 32) → l.flatten.length = 32 * l.length := by
    intro l h
    induction l with
    | nil => rfl
    | cons a l ih => simp only [List.flatten_cons, List.length_append, List.length_cons, h a (by simp), ih fun x hx => h x (by simp [hx])]; omega
  simp only [otsSign, List.length_append, length_beBytes, length_hssSalt]
  rw [each]
  · simp [length_otsDigits]
  · intro x hx
    obtain ⟨d, -, rfl⟩ := List.mem_map.mp hx
    exact length_otsChain _ _ _ _ _ _ (length_hssSecret ..)

/-- A one-time signature leads to the public hash of its key. -/
theorem otsCandidate_otsSign (key tree q : Nat) (msg : List Byte) :
    otsCandidate (hssId key tree) q msg (otsSign key tree q msg) = otsPublic key tree q := by
  have salt : ((otsSign key tree q msg).drop 4).take 32 = hssSalt key tree q := by
    rw [otsSign, List.drop_left' (length_beBytes _ _), List.take_left' (length_hssSalt ..)]
  have all : ∀ ds : List Nat, ds.length = 34 → (∀ d ∈ ds, d ≤ 255) →
      (ds.zipIdx.map fun d => otsChain (hssId key tree) q d.2 d.1 (255 - d.1)
        (((beBytes 4 4 ++ (hssSalt key tree q ++ (ds.zipIdx.map fun d =>
          otsChain (hssId key tree) q d.2 0 d.1 (hssSecret key tree q d.2)).flatten)).drop (36 + 32 * d.2)).take 32)) =
      (List.range 34).map fun i => otsChain (hssId key tree) q i 0 255 (hssSecret key tree q i) := by
    intro ds len le
    apply List.ext_getElem
    · simp [len]
    intro i h1 h2
    have hi : i < ds.length := by simpa using h1
    have long : ∀ x ∈ ds.zipIdx.map fun d => otsChain (hssId key tree) q d.2 0 d.1 (hssSecret key tree q d.2), x.length = 32 := by
      intro x hx
      obtain ⟨d, -, rfl⟩ := List.mem_map.mp hx
      exact length_otsChain _ _ _ _ _ _ (length_hssSecret ..)
    have piece := piece_flatten _ long i (by simpa using hi)
    rw [List.getElem_map, List.getElem_zipIdx] at piece
    rw [List.getElem_map, List.getElem_map, List.getElem_zipIdx, List.getElem_range, show 36 + 32 * (0 + i) = 4 + (32 + 32 * i) by omega,
      ← List.drop_drop, List.drop_left' (length_beBytes _ _), ← List.drop_drop, List.drop_left' (length_hssSalt ..), piece]
    have := otsChain_add (hssId key tree) q i 0 ds[i] (255 - ds[i]) (hssSecret key tree q i)
    rw [Nat.zero_add, Nat.add_sub_cancel' (le _ (List.getElem_mem hi))] at this
    simpa using this
  unfold otsCandidate otsPublic
  rw [salt]
  exact congrArg _ (all _ (length_otsDigits ..) (otsDigits_le _ _ _ _))

/-! ### Trees -/

@[simp] theorem length_lmsNode (key tree h n r : Nat) : (lmsNode key tree h n r).length = 32 := by
  cases n <;> exact length_digest _

@[simp] theorem length_lmsPath (key tree h j r n : Nat) : (lmsPath key tree h j r n).length = 32 * n := by
  induction n generalizing j r with
  | zero => rfl
  | succ n ih => simp only [lmsPath, List.length_append, length_lmsNode, ih]; omega

/-- The siblings of a node lead from it to the node above it. -/
theorem lmsClimb_lmsPath (key tree h j r n : Nat) :
    lmsClimb (hssId key tree) n r (lmsPath key tree h j r n) (lmsNode key tree h j r) = lmsNode key tree h (j + n) (r / 2 ^ n) := by
  induction n generalizing j r with
  | zero => simp [lmsClimb]
  | succ n ih =>
    simp only [lmsClimb, lmsPath, List.take_left' (length_lmsNode ..), List.drop_left' (length_lmsNode ..)]
    have up : (if r % 2 = 1 then lmsInner (hssId key tree) (r / 2) (lmsNode key tree h j (if r % 2 = 1 then r - 1 else r + 1)) (lmsNode key tree h j r)
        else lmsInner (hssId key tree) (r / 2) (lmsNode key tree h j r) (lmsNode key tree h j (if r % 2 = 1 then r - 1 else r + 1))) =
        lmsNode key tree h (j + 1) (r / 2) := by
      rcases Nat.mod_two_eq_zero_or_one r with e | e
      · simp only [e, Nat.zero_ne_one, ↓reduceIte, lmsNode]
        rw [show 2 * (r / 2) = r by omega]
      · simp only [e, ↓reduceIte, lmsNode]
        rw [show 2 * (r / 2) + 1 = r by omega, show 2 * (r / 2) = r - 1 by omega]
    rw [up, ih, Nat.div_div_eq_div_mul, show 2 * 2 ^ n = 2 ^ (n + 1) by ring, show j + 1 + n = j + (n + 1) by omega]

theorem length_lmsPublic (key tree h ty : Nat) : (lmsPublic key tree h ty).length = 56 := by simp [lmsPublic]
theorem length_lmsSign (key tree h ty q : Nat) (msg : List Byte) : (lmsSign key tree h ty q msg).length = 1132 + 32 * h := by
  simp only [lmsSign, List.length_append, length_beBytes, length_otsSign, length_lmsPath]; omega

/-- A tree's signature verifies under its public key. -/
theorem lmsVerify_lmsSign (key tree h ty q : Nat) (msg : List Byte) (hq : q < 2 ^ h) (hh : h ≤ 32) (ht : ty < 2 ^ 32) :
    lmsVerify h ty (lmsPublic key tree h ty) msg (lmsSign key tree h ty q msg) = true := by
  have four : ∀ (x : Nat) (l : List Byte), (beBytes x 4 ++ l).take 4 = beBytes x 4 := fun x l => List.take_left' (length_beBytes x 4)
  have rest : ∀ (x : Nat) (l : List Byte), (beBytes x 4 ++ l).drop 4 = l := fun x l => List.drop_left' (length_beBytes x 4)
  have small : q < 256 ^ 4 := lt_of_lt_of_le hq (by
    calc 2 ^ h ≤ 2 ^ 32 := Nat.pow_le_pow_right (by decide) hh
      _ = 256 ^ 4 := by norm_num)
  have pid : ((lmsPublic key tree h ty).drop 8).take 16 = hssId key tree := by
    rw [lmsPublic, show 8 = 4 + 4 from rfl, ← List.drop_drop, rest, rest, List.take_left' (length_hssId ..)]
  have proot : (lmsPublic key tree h ty).drop 24 = lmsNode key tree h h 1 := by
    rw [lmsPublic, show 24 = 4 + (4 + 16) from rfl, ← List.drop_drop, rest, ← List.drop_drop, rest, List.drop_left' (length_hssId ..)]
  have pty : ((lmsPublic key tree h ty).drop 4).take 4 = beBytes 4 4 := by rw [lmsPublic, rest, four]
  have sots : ((lmsSign key tree h ty q msg).drop 4).take 1124 = otsSign key tree q msg := by
    rw [lmsSign, rest, List.take_left' (length_otsSign ..)]
  have sty : ((lmsSign key tree h ty q msg).drop 1128).take 4 = beBytes ty 4 := by
    rw [lmsSign, show 1128 = 4 + 1124 from rfl, ← List.drop_drop, rest, List.drop_left' (length_otsSign ..), four]
  have spath : (lmsSign key tree h ty q msg).drop 1132 = lmsPath key tree h 0 (2 ^ h + q) h := by
    rw [lmsSign, show 1132 = 4 + (1124 + 4) from rfl, ← List.drop_drop, rest, ← List.drop_drop, List.drop_left' (length_otsSign ..), rest]
  have s4 : ((lmsSign key tree h ty q msg).drop 4).take 4 = beBytes 4 4 := by
    rw [lmsSign, rest, otsSign, List.append_assoc, four]
  have sq : beNat ((lmsSign key tree h ty q msg).take 4) = q := by rw [lmsSign, four, beNat_beBytes _ _ small]
  have pt : beNat ((lmsPublic key tree h ty).take 4) = ty := by rw [lmsPublic, four, beNat_beBytes _ _ (by simpa using ht)]
  have node : (2 ^ h + q) / 2 ^ h = 1 := by
    rw [Nat.add_div_left _ (by positivity), Nat.div_eq_of_lt hq]
  have climb := lmsClimb_lmsPath key tree h 0 (2 ^ h + q) h
  rw [node, Nat.zero_add] at climb
  simp only [lmsNode, Nat.add_sub_cancel_left] at climb
  have e4 : beNat (beBytes 4 4) = 4 := by decide
  simp only [lmsVerify, pid, proot, pty, sots, sty, spath, s4, sq, pt, length_lmsPublic, length_lmsSign, e4, otsCandidate_otsSign, climb, hq,
    beNat_beBytes _ _ (show ty < 256 ^ 4 by simpa using ht), beq_self_eq_true, decide_true, Bool.and_self]

/-- What a key of the module signs with a leaf that it has verifies under its public key (R473, R474). -/
theorem hssVerify_hssSign (key leaf : Nat) (msg : List Byte) (h : leaf < 2 ^ 35) : hssVerify (hssPublic key) msg (hssSign key leaf msg) = true := by
  have four : ∀ (x : Nat) (l : List Byte), (beBytes x 4 ++ l).take 4 = beBytes x 4 := fun x l => List.take_left' (length_beBytes x 4)
  have rest : ∀ (x : Nat) (l : List Byte), (beBytes x 4 ++ l).drop 4 = l := fun x l => List.drop_left' (length_beBytes x 4)
  have hq : leaf / 2 ^ 15 < 2 ^ 20 := by omega
  have up := lmsVerify_lmsSign key 0 20 8 (leaf / 2 ^ 15) (lmsPublic key (1 + leaf / 2 ^ 15) 15 7) hq (by decide) (by decide)
  have low := lmsVerify_lmsSign key (1 + leaf / 2 ^ 15) 15 7 (leaf % 2 ^ 15) msg (Nat.mod_lt _ (by decide)) (by decide) (by decide)
  have l1 : (lmsSign key 0 20 8 (leaf / 2 ^ 15) (lmsPublic key (1 + leaf / 2 ^ 15) 15 7)).length = 1772 := length_lmsSign ..
  have l2 : (lmsPublic key (1 + leaf / 2 ^ 15) 15 7).length = 56 := length_lmsPublic ..
  have l3 : (lmsSign key (1 + leaf / 2 ^ 15) 15 7 (leaf % 2 ^ 15) msg).length = 1612 := length_lmsSign ..
  have s1 : ((hssSign key leaf msg).drop 4).take 1772 = lmsSign key 0 20 8 (leaf / 2 ^ 15) (lmsPublic key (1 + leaf / 2 ^ 15) 15 7) := by
    rw [hssSign, rest, List.take_left' l1]
  have s2 : ((hssSign key leaf msg).drop 1776).take 56 = lmsPublic key (1 + leaf / 2 ^ 15) 15 7 := by
    rw [hssSign, show 1776 = 4 + 1772 from rfl, ← List.drop_drop, rest, List.drop_left' l1, List.take_left' l2]
  have s3 : (hssSign key leaf msg).drop 1832 = lmsSign key (1 + leaf / 2 ^ 15) 15 7 (leaf % 2 ^ 15) msg := by
    rw [hssSign, show 1832 = 4 + (1772 + 56) from rfl, ← List.drop_drop, rest, ← List.drop_drop, List.drop_left' l1, List.drop_left' l2]
  have s4 : (hssSign key leaf msg).take 4 = beBytes 1 4 := by rw [hssSign, four]
  have p4 : (hssPublic key).take 4 = beBytes 2 4 := by rw [hssPublic, four]
  have pr : (hssPublic key).drop 4 = lmsPublic key 0 20 8 := by rw [hssPublic, rest]
  have pl : (hssPublic key).length = 60 := by simp [hssPublic, length_lmsPublic]
  have sl : (hssSign key leaf msg).length = 3444 := by
    simp only [hssSign, List.length_append, length_beBytes, l1, l2, l3]
  have e1 : beNat (beBytes 1 4) = 1 := by decide
  have e2 : beNat (beBytes 2 4) = 2 := by decide
  simp only [hssVerify, s1, s2, s3, s4, p4, pr, pl, sl, up, low, e1, e2, beq_self_eq_true, Bool.and_self]

/-- A signature is 3444 bytes, a public key 60 (R473). -/
theorem length_hssSign (key leaf : Nat) (msg : List Byte) : (hssSign key leaf msg).length = 3444 := by
  simp only [hssSign, List.length_append, length_beBytes, length_lmsSign, length_lmsPublic]
theorem length_hssPublic (key : Nat) : (hssPublic key).length = 60 := by simp [hssPublic, length_lmsPublic]

end Sys2Proof.Machine
end

