-- ==== Sys2Proof/Laws/Memory.lean ====
section
/-! SUPPORT. The laws of sparse tables: a read after a write, the canonical form, and that equal contents are equal tables. -/

namespace Sys2Proof.Machine

variable {β : Type}

/-! ### Reading after writing -/

@[simp] theorem Tab.find_nil (k : Nat) : Tab.find ([] : Table β) k = none := rfl

theorem Tab.find_cons (e : Nat × β) (t : Table β) (k : Nat) :
    Tab.find (e :: t) k = if k = e.1 then some e.2 else Tab.find t k := rfl

@[simp] theorem Tab.find_put_same (t : Table β) (k : Nat) (v : β) : Tab.find (Tab.put t k v) k = some v := by
  induction t with
  | nil => simp [Tab.put, Tab.find]
  | cons e t ih =>
    unfold Tab.put
    split
    · simp [Tab.find]
    · split
      · simp [Tab.find]
      · rename_i h; simpa [Tab.find, h] using ih

theorem Tab.find_put_other (t : Table β) {k j : Nat} (v : β) (h : j ≠ k) : Tab.find (Tab.put t k v) j = Tab.find t j := by
  induction t with
  | nil => simp [Tab.put, Tab.find, h]
  | cons e t ih =>
    unfold Tab.put
    split
    · simp [Tab.find, h]
    · split
      · rename_i h'; subst h'; simp [Tab.find, h]
      · simp [Tab.find, ih]

@[simp] theorem Tab.find_del_same (t : Table β) (k : Nat) : Tab.find (Tab.del t k) k = none := by
  induction t with
  | nil => rfl
  | cons e t ih =>
    unfold Tab.del
    split
    · exact ih
    · rename_i h; simpa [Tab.find, h] using ih

theorem Tab.find_del_other (t : Table β) {k j : Nat} (h : j ≠ k) : Tab.find (Tab.del t k) j = Tab.find t j := by
  induction t with
  | nil => rfl
  | cons e t ih =>
    unfold Tab.del
    split
    · rename_i h'; subst h'; simp [Tab.find, h, ih]
    · simp [Tab.find, ih]

@[simp] theorem Tab.get_set_same [DecidableEq β] (d : β) (t : Table β) (k : Nat) (v : β) : Tab.get d (Tab.set d t k v) k = v := by
  by_cases h : v = d <;> simp [Tab.set, Tab.get, h]

theorem Tab.get_set_other [DecidableEq β] (d : β) (t : Table β) {k j : Nat} (v : β) (h : j ≠ k) :
    Tab.get d (Tab.set d t k v) j = Tab.get d t j := by
  by_cases hv : v = d <;> simp [Tab.set, Tab.get, hv, Tab.find_del_other t h, Tab.find_put_other t v h]

@[simp] theorem Tab.find_upd_same (t : Table β) (k : Nat) (v : Option β) : Tab.find (match v with | some b => Tab.put t k b | none => Tab.del t k) k = v := by
  cases v <;> simp

/-! ### The canonical form -/

theorem Tab.above_put (n : Nat) (t : Table β) {k : Nat} (v : β) (h : n < k) (ht : Tab.above n t = true) :
    Tab.above n (Tab.put t k v) = true := by
  induction t with
  | nil => simp [Tab.put, Tab.above, h]
  | cons e t ih =>
    simp only [Tab.above, List.all_cons, Bool.and_eq_true, decide_eq_true_eq] at ht ih ⊢
    unfold Tab.put
    split
    · simp [h, ht]
    · split
      · simp [h, ht]
      · simp [ht.1, ih ht.2]

theorem Tab.above_del (n k : Nat) (t : Table β) (ht : Tab.above n t = true) : Tab.above n (Tab.del t k) = true := by
  induction t with
  | nil => rfl
  | cons e t ih =>
    simp only [Tab.above, List.all_cons, Bool.and_eq_true, decide_eq_true_eq] at ht ih ⊢
    unfold Tab.del
    split
    · exact ih ht.2
    · simp [ht.1, ih ht.2]

theorem Tab.above_mono {m n : Nat} (t : Table β) (h : m ≤ n) (ht : Tab.above n t = true) : Tab.above m t = true := by
  simp only [Tab.above, List.all_eq_true, decide_eq_true_eq] at ht ⊢
  exact fun e he => Nat.lt_of_le_of_lt h (ht e he)

theorem Tab.sorted_put (t : Table β) (k : Nat) (v : β) (ht : Tab.sorted t = true) : Tab.sorted (Tab.put t k v) = true := by
  induction t with
  | nil => rfl
  | cons e t ih =>
    obtain ⟨k', v'⟩ := e
    simp only [Tab.sorted, Bool.and_eq_true] at ht
    unfold Tab.put
    split
    · rename_i h
      simp only [Tab.sorted, Bool.and_eq_true]
      refine ⟨?_, ht⟩
      simp only [Tab.above, List.all_cons, Bool.and_eq_true, decide_eq_true_eq]
      exact ⟨h, Tab.above_mono t (Nat.le_of_lt h) ht.1⟩
    · split
      · rename_i h; subst h; simpa [Tab.sorted] using ht
      · rename_i h1 h2
        simp only [Tab.sorted, Bool.and_eq_true]
        exact ⟨Tab.above_put k' t v (by omega) ht.1, ih ht.2⟩

theorem Tab.sorted_del (t : Table β) (k : Nat) (ht : Tab.sorted t = true) : Tab.sorted (Tab.del t k) = true := by
  induction t with
  | nil => rfl
  | cons e t ih =>
    obtain ⟨k', v'⟩ := e
    simp only [Tab.sorted, Bool.and_eq_true] at ht
    unfold Tab.del
    split
    · exact ih ht.2
    · simp only [Tab.sorted, Bool.and_eq_true]
      exact ⟨Tab.above_del k' k t ht.1, ih ht.2⟩

theorem Tab.all_put (p : Nat × β → Bool) (t : Table β) (k : Nat) (v : β) (h : p (k, v) = true) (ht : t.all p = true) :
    (Tab.put t k v).all p = true := by
  induction t with
  | nil => simp [Tab.put, h]
  | cons e t ih =>
    simp only [List.all_cons, Bool.and_eq_true] at ht
    unfold Tab.put
    split
    · simp only [List.all_cons, Bool.and_eq_true]; exact ⟨h, ht⟩
    · split
      · simp only [List.all_cons, Bool.and_eq_true]; exact ⟨h, ht.2⟩
      · simp only [List.all_cons, Bool.and_eq_true]; exact ⟨ht.1, ih ht.2⟩

theorem Tab.all_del (p : Nat × β → Bool) (t : Table β) (k : Nat) (ht : t.all p = true) : (Tab.del t k).all p = true := by
  induction t with
  | nil => rfl
  | cons e t ih =>
    simp only [List.all_cons, Bool.and_eq_true] at ht
    unfold Tab.del
    split
    · exact ih ht.2
    · simp only [List.all_cons, Bool.and_eq_true]; exact ⟨ht.1, ih ht.2⟩

@[simp] theorem Tab.wf_nil [DecidableEq β] (d : β) : Tab.wf d ([] : Table β) = true := rfl

/-- A write keeps the canonical form. -/
theorem Tab.wf_set [DecidableEq β] (d : β) (t : Table β) (k : Nat) (v : β) (ht : Tab.wf d t = true) : Tab.wf d (Tab.set d t k v) = true := by
  simp only [Tab.wf, Bool.and_eq_true] at ht ⊢
  unfold Tab.set
  split
  · exact ⟨Tab.sorted_del t k ht.1, Tab.all_del _ t k ht.2⟩
  · rename_i h
    exact ⟨Tab.sorted_put t k v ht.1, Tab.all_put _ t k v (by simpa using h) ht.2⟩

theorem Tab.sorted_set [DecidableEq β] (d : β) (t : Table β) (k : Nat) (v : β) (ht : Tab.sorted t = true) :
    Tab.sorted (Tab.set d t k v) = true := by
  unfold Tab.set
  split
  · exact Tab.sorted_del t k ht
  · exact Tab.sorted_put t k v ht

/-- A sorted table lists no key at or below a bound that its keys lie above. -/
theorem Tab.find_above (n : Nat) (t : Table β) {k : Nat} (h : k ≤ n) (ht : Tab.above n t = true) : Tab.find t k = none := by
  induction t with
  | nil => rfl
  | cons e t ih =>
    simp only [Tab.above, List.all_cons, Bool.and_eq_true, decide_eq_true_eq] at ht ih
    simp [Tab.find, show k ≠ e.1 by omega, ih ht.2]

/-- Two canonical tables with the same contents are equal. -/
theorem Tab.wf_ext [DecidableEq β] (d : β) (t u : Table β) (ht : Tab.wf d t = true) (hu : Tab.wf d u = true)
    (h : ∀ k, Tab.get d t k = Tab.get d u k) : t = u := by
  induction t generalizing u with
  | nil =>
    cases u with
    | nil => rfl
    | cons f u =>
      simp only [Tab.wf, List.all_cons, Bool.and_eq_true, decide_eq_true_eq] at hu
      have := h f.1
      simp only [Tab.get, Tab.find, if_true] at this
      exact absurd this.symm hu.2.1
  | cons e t ih =>
    obtain ⟨k, v⟩ := e
    simp only [Tab.wf, Tab.sorted, List.all_cons, Bool.and_eq_true, decide_eq_true_eq] at ht
    cases u with
    | nil =>
      have := h k
      simp only [Tab.get, Tab.find, if_true] at this
      exact absurd this ht.2.1
    | cons f u =>
      obtain ⟨j, w⟩ := f
      simp only [Tab.wf, Tab.sorted, List.all_cons, Bool.and_eq_true, decide_eq_true_eq] at hu
      have hk : k = j := by
        rcases Nat.lt_trichotomy k j with hl | he | hg
        · have := h k
          simp only [Tab.get, Tab.find, if_true, show k ≠ j by omega, if_false, Tab.find_above j u (Nat.le_of_lt hl) hu.1.1] at this
          exact absurd this ht.2.1
        · exact he
        · have := h j
          simp only [Tab.get, Tab.find, if_true, show j ≠ k by omega, if_false, Tab.find_above k t (Nat.le_of_lt hg) ht.1.1] at this
          exact absurd this.symm hu.2.1
      subst hk
      have hv : v = w := by simpa [Tab.get, Tab.find] using h k
      subst hv
      congr 1
      refine ih u ?_ ?_ fun n => ?_
      · simp only [Tab.wf, Bool.and_eq_true]; exact ⟨ht.1.2, ht.2.2⟩
      · simp only [Tab.wf, Bool.and_eq_true]; exact ⟨hu.1.2, hu.2.2⟩
      · by_cases hn : n = k
        · subst hn
          simp [Tab.get, Tab.find_above n t (Nat.le_refl n) ht.1.1, Tab.find_above n u (Nat.le_refl n) hu.1.1]
        · simpa [Tab.get, Tab.find, hn] using h n

end Sys2Proof.Machine
end

