-- ==== Sys2Proof/Laws/State.lean ====
section
/-! SUPPORT. What each primitive update leaves in each field of the state; every lemma holds by definition. -/

namespace Sys2Proof.Machine

@[simp] theorem Go.start_st (s : State) : (Go.start s).st = s := rfl
@[simp] theorem Go.put_st (s : State) (g : Go s) (u : Upd) : (g.put u).st = u.apply g.st := rfl
@[simp] theorem Go.done_next (s : State) (g : Go s) : g.done = .next g.st := rfl

@[simp] theorem Upd.mem_mem (k : Nat) (b : Byte) (s : State) : ((Upd.mem k b).apply s).mem = Tab.set 0 s.mem k b := rfl
@[simp] theorem Upd.mem_tags (k : Nat) (b : Byte) (s : State) : ((Upd.mem k b).apply s).tags = s.tags := rfl
@[simp] theorem Upd.mem_poison (k : Nat) (b : Byte) (s : State) : ((Upd.mem k b).apply s).poison = s.poison := rfl
@[simp] theorem Upd.mem_lines (k : Nat) (b : Byte) (s : State) : ((Upd.mem k b).apply s).lines = s.lines := rfl
@[simp] theorem Upd.mem_wlog (k : Nat) (b : Byte) (s : State) : ((Upd.mem k b).apply s).wlog = s.wlog := rfl
@[simp] theorem Upd.mem_tracks (k : Nat) (b : Byte) (s : State) : ((Upd.mem k b).apply s).tracks = s.tracks := rfl
@[simp] theorem Upd.mem_tlbs (k : Nat) (b : Byte) (s : State) : ((Upd.mem k b).apply s).tlbs = s.tlbs := rfl
@[simp] theorem Upd.mem_walks (k : Nat) (b : Byte) (s : State) : ((Upd.mem k b).apply s).walks = s.walks := rfl
@[simp] theorem Upd.mem_crews (k : Nat) (b : Byte) (s : State) : ((Upd.mem k b).apply s).crews = s.crews := rfl
@[simp] theorem Upd.mem_teams (k : Nat) (b : Byte) (s : State) : ((Upd.mem k b).apply s).teams = s.teams := rfl
@[simp] theorem Upd.mem_cores (k : Nat) (b : Byte) (s : State) : ((Upd.mem k b).apply s).cores = s.cores := rfl
@[simp] theorem Upd.mem_launches (k : Nat) (b : Byte) (s : State) : ((Upd.mem k b).apply s).launches = s.launches := rfl
@[simp] theorem Upd.mem_pends (k : Nat) (b : Byte) (s : State) : ((Upd.mem k b).apply s).pends = s.pends := rfl
@[simp] theorem Upd.mem_gangs (k : Nat) (b : Byte) (s : State) : ((Upd.mem k b).apply s).gangs = s.gangs := rfl
@[simp] theorem Upd.mem_saved (k : Nat) (b : Byte) (s : State) : ((Upd.mem k b).apply s).saved = s.saved := rfl
@[simp] theorem Upd.mem_coloc (k : Nat) (b : Byte) (s : State) : ((Upd.mem k b).apply s).coloc = s.coloc := rfl
@[simp] theorem Upd.mem_cycles (k : Nat) (b : Byte) (s : State) : ((Upd.mem k b).apply s).cycles = s.cycles := rfl
@[simp] theorem Upd.mem_parts (k : Nat) (b : Byte) (s : State) : ((Upd.mem k b).apply s).parts = s.parts := rfl
@[simp] theorem Upd.mem_vis (k : Nat) (b : Byte) (s : State) : ((Upd.mem k b).apply s).vis = s.vis := rfl
@[simp] theorem Upd.mem_ctxs (k : Nat) (b : Byte) (s : State) : ((Upd.mem k b).apply s).ctxs = s.ctxs := rfl
@[simp] theorem Upd.mem_objs (k : Nat) (b : Byte) (s : State) : ((Upd.mem k b).apply s).objs = s.objs := rfl
@[simp] theorem Upd.mem_queues (k : Nat) (b : Byte) (s : State) : ((Upd.mem k b).apply s).queues = s.queues := rfl
@[simp] theorem Upd.mem_slots (k : Nat) (b : Byte) (s : State) : ((Upd.mem k b).apply s).slots = s.slots := rfl
@[simp] theorem Upd.mem_engines (k : Nat) (b : Byte) (s : State) : ((Upd.mem k b).apply s).engines = s.engines := rfl
@[simp] theorem Upd.mem_passes (k : Nat) (b : Byte) (s : State) : ((Upd.mem k b).apply s).passes = s.passes := rfl
@[simp] theorem Upd.mem_held (k : Nat) (b : Byte) (s : State) : ((Upd.mem k b).apply s).held = s.held := rfl
@[simp] theorem Upd.mem_groups (k : Nat) (b : Byte) (s : State) : ((Upd.mem k b).apply s).groups = s.groups := rfl
@[simp] theorem Upd.mem_announces (k : Nat) (b : Byte) (s : State) : ((Upd.mem k b).apply s).announces = s.announces := rfl
@[simp] theorem Upd.mem_jds (k : Nat) (b : Byte) (s : State) : ((Upd.mem k b).apply s).jds = s.jds := rfl
@[simp] theorem Upd.mem_links (k : Nat) (b : Byte) (s : State) : ((Upd.mem k b).apply s).links = s.links := rfl
@[simp] theorem Upd.mem_wctxs (k : Nat) (b : Byte) (s : State) : ((Upd.mem k b).apply s).wctxs = s.wctxs := rfl
@[simp] theorem Upd.mem_wcur (k : Nat) (b : Byte) (s : State) : ((Upd.mem k b).apply s).wcur = s.wcur := rfl
@[simp] theorem Upd.mem_imem (k : Nat) (b : Byte) (s : State) : ((Upd.mem k b).apply s).imem = s.imem := rfl
@[simp] theorem Upd.mem_wsets (k : Nat) (b : Byte) (s : State) : ((Upd.mem k b).apply s).wsets = s.wsets := rfl
@[simp] theorem Upd.mem_ft (k : Nat) (b : Byte) (s : State) : ((Upd.mem k b).apply s).ft = s.ft := rfl
@[simp] theorem Upd.mem_now (k : Nat) (b : Byte) (s : State) : ((Upd.mem k b).apply s).now = s.now := rfl
@[simp] theorem Upd.mem_mod (k : Nat) (b : Byte) (s : State) : ((Upd.mem k b).apply s).mod = s.mod := rfl
@[simp] theorem Upd.mem_seq (k : Nat) (b : Byte) (s : State) : ((Upd.mem k b).apply s).seq = s.seq := rfl
@[simp] theorem Upd.mem_powered (k : Nat) (b : Byte) (s : State) : ((Upd.mem k b).apply s).powered = s.powered := rfl
@[simp] theorem Upd.mem_agenda (k : Nat) (b : Byte) (s : State) : ((Upd.mem k b).apply s).agenda = s.agenda := rfl
@[simp] theorem Upd.mem_cur (k : Nat) (b : Byte) (s : State) : ((Upd.mem k b).apply s).cur = s.cur := rfl
@[simp] theorem Upd.mem_fresh (k : Nat) (b : Byte) (s : State) : ((Upd.mem k b).apply s).fresh = s.fresh := rfl
@[simp] theorem Upd.mem_outbox (k : Nat) (b : Byte) (s : State) : ((Upd.mem k b).apply s).outbox = s.outbox := rfl
@[simp] theorem Upd.tag_mem (k : Nat) (v : BitVec 4) (s : State) : ((Upd.tag k v).apply s).mem = s.mem := rfl
@[simp] theorem Upd.tag_tags (k : Nat) (v : BitVec 4) (s : State) : ((Upd.tag k v).apply s).tags = Tab.set 0 s.tags k v := rfl
@[simp] theorem Upd.tag_poison (k : Nat) (v : BitVec 4) (s : State) : ((Upd.tag k v).apply s).poison = s.poison := rfl
@[simp] theorem Upd.tag_lines (k : Nat) (v : BitVec 4) (s : State) : ((Upd.tag k v).apply s).lines = s.lines := rfl
@[simp] theorem Upd.tag_wlog (k : Nat) (v : BitVec 4) (s : State) : ((Upd.tag k v).apply s).wlog = s.wlog := rfl
@[simp] theorem Upd.tag_tracks (k : Nat) (v : BitVec 4) (s : State) : ((Upd.tag k v).apply s).tracks = s.tracks := rfl
@[simp] theorem Upd.tag_tlbs (k : Nat) (v : BitVec 4) (s : State) : ((Upd.tag k v).apply s).tlbs = s.tlbs := rfl
@[simp] theorem Upd.tag_walks (k : Nat) (v : BitVec 4) (s : State) : ((Upd.tag k v).apply s).walks = s.walks := rfl
@[simp] theorem Upd.tag_crews (k : Nat) (v : BitVec 4) (s : State) : ((Upd.tag k v).apply s).crews = s.crews := rfl
@[simp] theorem Upd.tag_teams (k : Nat) (v : BitVec 4) (s : State) : ((Upd.tag k v).apply s).teams = s.teams := rfl
@[simp] theorem Upd.tag_cores (k : Nat) (v : BitVec 4) (s : State) : ((Upd.tag k v).apply s).cores = s.cores := rfl
@[simp] theorem Upd.tag_launches (k : Nat) (v : BitVec 4) (s : State) : ((Upd.tag k v).apply s).launches = s.launches := rfl
@[simp] theorem Upd.tag_pends (k : Nat) (v : BitVec 4) (s : State) : ((Upd.tag k v).apply s).pends = s.pends := rfl
@[simp] theorem Upd.tag_gangs (k : Nat) (v : BitVec 4) (s : State) : ((Upd.tag k v).apply s).gangs = s.gangs := rfl
@[simp] theorem Upd.tag_saved (k : Nat) (v : BitVec 4) (s : State) : ((Upd.tag k v).apply s).saved = s.saved := rfl
@[simp] theorem Upd.tag_coloc (k : Nat) (v : BitVec 4) (s : State) : ((Upd.tag k v).apply s).coloc = s.coloc := rfl
@[simp] theorem Upd.tag_cycles (k : Nat) (v : BitVec 4) (s : State) : ((Upd.tag k v).apply s).cycles = s.cycles := rfl
@[simp] theorem Upd.tag_parts (k : Nat) (v : BitVec 4) (s : State) : ((Upd.tag k v).apply s).parts = s.parts := rfl
@[simp] theorem Upd.tag_vis (k : Nat) (v : BitVec 4) (s : State) : ((Upd.tag k v).apply s).vis = s.vis := rfl
@[simp] theorem Upd.tag_ctxs (k : Nat) (v : BitVec 4) (s : State) : ((Upd.tag k v).apply s).ctxs = s.ctxs := rfl
@[simp] theorem Upd.tag_objs (k : Nat) (v : BitVec 4) (s : State) : ((Upd.tag k v).apply s).objs = s.objs := rfl
@[simp] theorem Upd.tag_queues (k : Nat) (v : BitVec 4) (s : State) : ((Upd.tag k v).apply s).queues = s.queues := rfl
@[simp] theorem Upd.tag_slots (k : Nat) (v : BitVec 4) (s : State) : ((Upd.tag k v).apply s).slots = s.slots := rfl
@[simp] theorem Upd.tag_engines (k : Nat) (v : BitVec 4) (s : State) : ((Upd.tag k v).apply s).engines = s.engines := rfl
@[simp] theorem Upd.tag_passes (k : Nat) (v : BitVec 4) (s : State) : ((Upd.tag k v).apply s).passes = s.passes := rfl
@[simp] theorem Upd.tag_held (k : Nat) (v : BitVec 4) (s : State) : ((Upd.tag k v).apply s).held = s.held := rfl
@[simp] theorem Upd.tag_groups (k : Nat) (v : BitVec 4) (s : State) : ((Upd.tag k v).apply s).groups = s.groups := rfl
@[simp] theorem Upd.tag_announces (k : Nat) (v : BitVec 4) (s : State) : ((Upd.tag k v).apply s).announces = s.announces := rfl
@[simp] theorem Upd.tag_jds (k : Nat) (v : BitVec 4) (s : State) : ((Upd.tag k v).apply s).jds = s.jds := rfl
@[simp] theorem Upd.tag_links (k : Nat) (v : BitVec 4) (s : State) : ((Upd.tag k v).apply s).links = s.links := rfl
@[simp] theorem Upd.tag_wctxs (k : Nat) (v : BitVec 4) (s : State) : ((Upd.tag k v).apply s).wctxs = s.wctxs := rfl
@[simp] theorem Upd.tag_wcur (k : Nat) (v : BitVec 4) (s : State) : ((Upd.tag k v).apply s).wcur = s.wcur := rfl
@[simp] theorem Upd.tag_imem (k : Nat) (v : BitVec 4) (s : State) : ((Upd.tag k v).apply s).imem = s.imem := rfl
@[simp] theorem Upd.tag_wsets (k : Nat) (v : BitVec 4) (s : State) : ((Upd.tag k v).apply s).wsets = s.wsets := rfl
@[simp] theorem Upd.tag_ft (k : Nat) (v : BitVec 4) (s : State) : ((Upd.tag k v).apply s).ft = s.ft := rfl
@[simp] theorem Upd.tag_now (k : Nat) (v : BitVec 4) (s : State) : ((Upd.tag k v).apply s).now = s.now := rfl
@[simp] theorem Upd.tag_mod (k : Nat) (v : BitVec 4) (s : State) : ((Upd.tag k v).apply s).mod = s.mod := rfl
@[simp] theorem Upd.tag_seq (k : Nat) (v : BitVec 4) (s : State) : ((Upd.tag k v).apply s).seq = s.seq := rfl
@[simp] theorem Upd.tag_powered (k : Nat) (v : BitVec 4) (s : State) : ((Upd.tag k v).apply s).powered = s.powered := rfl
@[simp] theorem Upd.tag_agenda (k : Nat) (v : BitVec 4) (s : State) : ((Upd.tag k v).apply s).agenda = s.agenda := rfl
@[simp] theorem Upd.tag_cur (k : Nat) (v : BitVec 4) (s : State) : ((Upd.tag k v).apply s).cur = s.cur := rfl
@[simp] theorem Upd.tag_fresh (k : Nat) (v : BitVec 4) (s : State) : ((Upd.tag k v).apply s).fresh = s.fresh := rfl
@[simp] theorem Upd.tag_outbox (k : Nat) (v : BitVec 4) (s : State) : ((Upd.tag k v).apply s).outbox = s.outbox := rfl
@[simp] theorem Upd.poison_mem (k : Nat) (on : Bool) (s : State) : ((Upd.poison k on).apply s).mem = s.mem := rfl
@[simp] theorem Upd.poison_tags (k : Nat) (on : Bool) (s : State) : ((Upd.poison k on).apply s).tags = s.tags := rfl
@[simp] theorem Upd.poison_poison (k : Nat) (on : Bool) (s : State) : ((Upd.poison k on).apply s).poison = if on then Tab.put s.poison k () else Tab.del s.poison k := rfl
@[simp] theorem Upd.poison_lines (k : Nat) (on : Bool) (s : State) : ((Upd.poison k on).apply s).lines = s.lines := rfl
@[simp] theorem Upd.poison_wlog (k : Nat) (on : Bool) (s : State) : ((Upd.poison k on).apply s).wlog = s.wlog := rfl
@[simp] theorem Upd.poison_tracks (k : Nat) (on : Bool) (s : State) : ((Upd.poison k on).apply s).tracks = s.tracks := rfl
@[simp] theorem Upd.poison_tlbs (k : Nat) (on : Bool) (s : State) : ((Upd.poison k on).apply s).tlbs = s.tlbs := rfl
@[simp] theorem Upd.poison_walks (k : Nat) (on : Bool) (s : State) : ((Upd.poison k on).apply s).walks = s.walks := rfl
@[simp] theorem Upd.poison_crews (k : Nat) (on : Bool) (s : State) : ((Upd.poison k on).apply s).crews = s.crews := rfl
@[simp] theorem Upd.poison_teams (k : Nat) (on : Bool) (s : State) : ((Upd.poison k on).apply s).teams = s.teams := rfl
@[simp] theorem Upd.poison_cores (k : Nat) (on : Bool) (s : State) : ((Upd.poison k on).apply s).cores = s.cores := rfl
@[simp] theorem Upd.poison_launches (k : Nat) (on : Bool) (s : State) : ((Upd.poison k on).apply s).launches = s.launches := rfl
@[simp] theorem Upd.poison_pends (k : Nat) (on : Bool) (s : State) : ((Upd.poison k on).apply s).pends = s.pends := rfl
@[simp] theorem Upd.poison_gangs (k : Nat) (on : Bool) (s : State) : ((Upd.poison k on).apply s).gangs = s.gangs := rfl
@[simp] theorem Upd.poison_saved (k : Nat) (on : Bool) (s : State) : ((Upd.poison k on).apply s).saved = s.saved := rfl
@[simp] theorem Upd.poison_coloc (k : Nat) (on : Bool) (s : State) : ((Upd.poison k on).apply s).coloc = s.coloc := rfl
@[simp] theorem Upd.poison_cycles (k : Nat) (on : Bool) (s : State) : ((Upd.poison k on).apply s).cycles = s.cycles := rfl
@[simp] theorem Upd.poison_parts (k : Nat) (on : Bool) (s : State) : ((Upd.poison k on).apply s).parts = s.parts := rfl
@[simp] theorem Upd.poison_vis (k : Nat) (on : Bool) (s : State) : ((Upd.poison k on).apply s).vis = s.vis := rfl
@[simp] theorem Upd.poison_ctxs (k : Nat) (on : Bool) (s : State) : ((Upd.poison k on).apply s).ctxs = s.ctxs := rfl
@[simp] theorem Upd.poison_objs (k : Nat) (on : Bool) (s : State) : ((Upd.poison k on).apply s).objs = s.objs := rfl
@[simp] theorem Upd.poison_queues (k : Nat) (on : Bool) (s : State) : ((Upd.poison k on).apply s).queues = s.queues := rfl
@[simp] theorem Upd.poison_slots (k : Nat) (on : Bool) (s : State) : ((Upd.poison k on).apply s).slots = s.slots := rfl
@[simp] theorem Upd.poison_engines (k : Nat) (on : Bool) (s : State) : ((Upd.poison k on).apply s).engines = s.engines := rfl
@[simp] theorem Upd.poison_passes (k : Nat) (on : Bool) (s : State) : ((Upd.poison k on).apply s).passes = s.passes := rfl
@[simp] theorem Upd.poison_held (k : Nat) (on : Bool) (s : State) : ((Upd.poison k on).apply s).held = s.held := rfl
@[simp] theorem Upd.poison_groups (k : Nat) (on : Bool) (s : State) : ((Upd.poison k on).apply s).groups = s.groups := rfl
@[simp] theorem Upd.poison_announces (k : Nat) (on : Bool) (s : State) : ((Upd.poison k on).apply s).announces = s.announces := rfl
@[simp] theorem Upd.poison_jds (k : Nat) (on : Bool) (s : State) : ((Upd.poison k on).apply s).jds = s.jds := rfl
@[simp] theorem Upd.poison_links (k : Nat) (on : Bool) (s : State) : ((Upd.poison k on).apply s).links = s.links := rfl
@[simp] theorem Upd.poison_wctxs (k : Nat) (on : Bool) (s : State) : ((Upd.poison k on).apply s).wctxs = s.wctxs := rfl
@[simp] theorem Upd.poison_wcur (k : Nat) (on : Bool) (s : State) : ((Upd.poison k on).apply s).wcur = s.wcur := rfl
@[simp] theorem Upd.poison_imem (k : Nat) (on : Bool) (s : State) : ((Upd.poison k on).apply s).imem = s.imem := rfl
@[simp] theorem Upd.poison_wsets (k : Nat) (on : Bool) (s : State) : ((Upd.poison k on).apply s).wsets = s.wsets := rfl
@[simp] theorem Upd.poison_ft (k : Nat) (on : Bool) (s : State) : ((Upd.poison k on).apply s).ft = s.ft := rfl
@[simp] theorem Upd.poison_now (k : Nat) (on : Bool) (s : State) : ((Upd.poison k on).apply s).now = s.now := rfl
@[simp] theorem Upd.poison_mod (k : Nat) (on : Bool) (s : State) : ((Upd.poison k on).apply s).mod = s.mod := rfl
@[simp] theorem Upd.poison_seq (k : Nat) (on : Bool) (s : State) : ((Upd.poison k on).apply s).seq = s.seq := rfl
@[simp] theorem Upd.poison_powered (k : Nat) (on : Bool) (s : State) : ((Upd.poison k on).apply s).powered = s.powered := rfl
@[simp] theorem Upd.poison_agenda (k : Nat) (on : Bool) (s : State) : ((Upd.poison k on).apply s).agenda = s.agenda := rfl
@[simp] theorem Upd.poison_cur (k : Nat) (on : Bool) (s : State) : ((Upd.poison k on).apply s).cur = s.cur := rfl
@[simp] theorem Upd.poison_fresh (k : Nat) (on : Bool) (s : State) : ((Upd.poison k on).apply s).fresh = s.fresh := rfl
@[simp] theorem Upd.poison_outbox (k : Nat) (on : Bool) (s : State) : ((Upd.poison k on).apply s).outbox = s.outbox := rfl
@[simp] theorem Upd.line_mem (k : Nat) (v : Option Line) (s : State) : ((Upd.line k v).apply s).mem = s.mem := rfl
@[simp] theorem Upd.line_tags (k : Nat) (v : Option Line) (s : State) : ((Upd.line k v).apply s).tags = s.tags := rfl
@[simp] theorem Upd.line_poison (k : Nat) (v : Option Line) (s : State) : ((Upd.line k v).apply s).poison = s.poison := rfl
@[simp] theorem Upd.line_lines (k : Nat) (v : Option Line) (s : State) : ((Upd.line k v).apply s).lines = Tab.upd s.lines k v := rfl
@[simp] theorem Upd.line_wlog (k : Nat) (v : Option Line) (s : State) : ((Upd.line k v).apply s).wlog = s.wlog := rfl
@[simp] theorem Upd.line_tracks (k : Nat) (v : Option Line) (s : State) : ((Upd.line k v).apply s).tracks = s.tracks := rfl
@[simp] theorem Upd.line_tlbs (k : Nat) (v : Option Line) (s : State) : ((Upd.line k v).apply s).tlbs = s.tlbs := rfl
@[simp] theorem Upd.line_walks (k : Nat) (v : Option Line) (s : State) : ((Upd.line k v).apply s).walks = s.walks := rfl
@[simp] theorem Upd.line_crews (k : Nat) (v : Option Line) (s : State) : ((Upd.line k v).apply s).crews = s.crews := rfl
@[simp] theorem Upd.line_teams (k : Nat) (v : Option Line) (s : State) : ((Upd.line k v).apply s).teams = s.teams := rfl
@[simp] theorem Upd.line_cores (k : Nat) (v : Option Line) (s : State) : ((Upd.line k v).apply s).cores = s.cores := rfl
@[simp] theorem Upd.line_launches (k : Nat) (v : Option Line) (s : State) : ((Upd.line k v).apply s).launches = s.launches := rfl
@[simp] theorem Upd.line_pends (k : Nat) (v : Option Line) (s : State) : ((Upd.line k v).apply s).pends = s.pends := rfl
@[simp] theorem Upd.line_gangs (k : Nat) (v : Option Line) (s : State) : ((Upd.line k v).apply s).gangs = s.gangs := rfl
@[simp] theorem Upd.line_saved (k : Nat) (v : Option Line) (s : State) : ((Upd.line k v).apply s).saved = s.saved := rfl
@[simp] theorem Upd.line_coloc (k : Nat) (v : Option Line) (s : State) : ((Upd.line k v).apply s).coloc = s.coloc := rfl
@[simp] theorem Upd.line_cycles (k : Nat) (v : Option Line) (s : State) : ((Upd.line k v).apply s).cycles = s.cycles := rfl
@[simp] theorem Upd.line_parts (k : Nat) (v : Option Line) (s : State) : ((Upd.line k v).apply s).parts = s.parts := rfl
@[simp] theorem Upd.line_vis (k : Nat) (v : Option Line) (s : State) : ((Upd.line k v).apply s).vis = s.vis := rfl
@[simp] theorem Upd.line_ctxs (k : Nat) (v : Option Line) (s : State) : ((Upd.line k v).apply s).ctxs = s.ctxs := rfl
@[simp] theorem Upd.line_objs (k : Nat) (v : Option Line) (s : State) : ((Upd.line k v).apply s).objs = s.objs := rfl
@[simp] theorem Upd.line_queues (k : Nat) (v : Option Line) (s : State) : ((Upd.line k v).apply s).queues = s.queues := rfl
@[simp] theorem Upd.line_slots (k : Nat) (v : Option Line) (s : State) : ((Upd.line k v).apply s).slots = s.slots := rfl
@[simp] theorem Upd.line_engines (k : Nat) (v : Option Line) (s : State) : ((Upd.line k v).apply s).engines = s.engines := rfl
@[simp] theorem Upd.line_passes (k : Nat) (v : Option Line) (s : State) : ((Upd.line k v).apply s).passes = s.passes := rfl
@[simp] theorem Upd.line_held (k : Nat) (v : Option Line) (s : State) : ((Upd.line k v).apply s).held = s.held := rfl
@[simp] theorem Upd.line_groups (k : Nat) (v : Option Line) (s : State) : ((Upd.line k v).apply s).groups = s.groups := rfl
@[simp] theorem Upd.line_announces (k : Nat) (v : Option Line) (s : State) : ((Upd.line k v).apply s).announces = s.announces := rfl
@[simp] theorem Upd.line_jds (k : Nat) (v : Option Line) (s : State) : ((Upd.line k v).apply s).jds = s.jds := rfl
@[simp] theorem Upd.line_links (k : Nat) (v : Option Line) (s : State) : ((Upd.line k v).apply s).links = s.links := rfl
@[simp] theorem Upd.line_wctxs (k : Nat) (v : Option Line) (s : State) : ((Upd.line k v).apply s).wctxs = s.wctxs := rfl
@[simp] theorem Upd.line_wcur (k : Nat) (v : Option Line) (s : State) : ((Upd.line k v).apply s).wcur = s.wcur := rfl
@[simp] theorem Upd.line_imem (k : Nat) (v : Option Line) (s : State) : ((Upd.line k v).apply s).imem = s.imem := rfl
@[simp] theorem Upd.line_wsets (k : Nat) (v : Option Line) (s : State) : ((Upd.line k v).apply s).wsets = s.wsets := rfl
@[simp] theorem Upd.line_ft (k : Nat) (v : Option Line) (s : State) : ((Upd.line k v).apply s).ft = s.ft := rfl
@[simp] theorem Upd.line_now (k : Nat) (v : Option Line) (s : State) : ((Upd.line k v).apply s).now = s.now := rfl
@[simp] theorem Upd.line_mod (k : Nat) (v : Option Line) (s : State) : ((Upd.line k v).apply s).mod = s.mod := rfl
@[simp] theorem Upd.line_seq (k : Nat) (v : Option Line) (s : State) : ((Upd.line k v).apply s).seq = s.seq := rfl
@[simp] theorem Upd.line_powered (k : Nat) (v : Option Line) (s : State) : ((Upd.line k v).apply s).powered = s.powered := rfl
@[simp] theorem Upd.line_agenda (k : Nat) (v : Option Line) (s : State) : ((Upd.line k v).apply s).agenda = s.agenda := rfl
@[simp] theorem Upd.line_cur (k : Nat) (v : Option Line) (s : State) : ((Upd.line k v).apply s).cur = s.cur := rfl
@[simp] theorem Upd.line_fresh (k : Nat) (v : Option Line) (s : State) : ((Upd.line k v).apply s).fresh = s.fresh := rfl
@[simp] theorem Upd.line_outbox (k : Nat) (v : Option Line) (s : State) : ((Upd.line k v).apply s).outbox = s.outbox := rfl
@[simp] theorem Upd.wlog_mem (k : Nat) (v : List WriteRec) (s : State) : ((Upd.wlog k v).apply s).mem = s.mem := rfl
@[simp] theorem Upd.wlog_tags (k : Nat) (v : List WriteRec) (s : State) : ((Upd.wlog k v).apply s).tags = s.tags := rfl
@[simp] theorem Upd.wlog_poison (k : Nat) (v : List WriteRec) (s : State) : ((Upd.wlog k v).apply s).poison = s.poison := rfl
@[simp] theorem Upd.wlog_lines (k : Nat) (v : List WriteRec) (s : State) : ((Upd.wlog k v).apply s).lines = s.lines := rfl
@[simp] theorem Upd.wlog_wlog (k : Nat) (v : List WriteRec) (s : State) : ((Upd.wlog k v).apply s).wlog = Tab.set [] s.wlog k v := rfl
@[simp] theorem Upd.wlog_tracks (k : Nat) (v : List WriteRec) (s : State) : ((Upd.wlog k v).apply s).tracks = s.tracks := rfl
@[simp] theorem Upd.wlog_tlbs (k : Nat) (v : List WriteRec) (s : State) : ((Upd.wlog k v).apply s).tlbs = s.tlbs := rfl
@[simp] theorem Upd.wlog_walks (k : Nat) (v : List WriteRec) (s : State) : ((Upd.wlog k v).apply s).walks = s.walks := rfl
@[simp] theorem Upd.wlog_crews (k : Nat) (v : List WriteRec) (s : State) : ((Upd.wlog k v).apply s).crews = s.crews := rfl
@[simp] theorem Upd.wlog_teams (k : Nat) (v : List WriteRec) (s : State) : ((Upd.wlog k v).apply s).teams = s.teams := rfl
@[simp] theorem Upd.wlog_cores (k : Nat) (v : List WriteRec) (s : State) : ((Upd.wlog k v).apply s).cores = s.cores := rfl
@[simp] theorem Upd.wlog_launches (k : Nat) (v : List WriteRec) (s : State) : ((Upd.wlog k v).apply s).launches = s.launches := rfl
@[simp] theorem Upd.wlog_pends (k : Nat) (v : List WriteRec) (s : State) : ((Upd.wlog k v).apply s).pends = s.pends := rfl
@[simp] theorem Upd.wlog_gangs (k : Nat) (v : List WriteRec) (s : State) : ((Upd.wlog k v).apply s).gangs = s.gangs := rfl
@[simp] theorem Upd.wlog_saved (k : Nat) (v : List WriteRec) (s : State) : ((Upd.wlog k v).apply s).saved = s.saved := rfl
@[simp] theorem Upd.wlog_coloc (k : Nat) (v : List WriteRec) (s : State) : ((Upd.wlog k v).apply s).coloc = s.coloc := rfl
@[simp] theorem Upd.wlog_cycles (k : Nat) (v : List WriteRec) (s : State) : ((Upd.wlog k v).apply s).cycles = s.cycles := rfl
@[simp] theorem Upd.wlog_parts (k : Nat) (v : List WriteRec) (s : State) : ((Upd.wlog k v).apply s).parts = s.parts := rfl
@[simp] theorem Upd.wlog_vis (k : Nat) (v : List WriteRec) (s : State) : ((Upd.wlog k v).apply s).vis = s.vis := rfl
@[simp] theorem Upd.wlog_ctxs (k : Nat) (v : List WriteRec) (s : State) : ((Upd.wlog k v).apply s).ctxs = s.ctxs := rfl
@[simp] theorem Upd.wlog_objs (k : Nat) (v : List WriteRec) (s : State) : ((Upd.wlog k v).apply s).objs = s.objs := rfl
@[simp] theorem Upd.wlog_queues (k : Nat) (v : List WriteRec) (s : State) : ((Upd.wlog k v).apply s).queues = s.queues := rfl
@[simp] theorem Upd.wlog_slots (k : Nat) (v : List WriteRec) (s : State) : ((Upd.wlog k v).apply s).slots = s.slots := rfl
@[simp] theorem Upd.wlog_engines (k : Nat) (v : List WriteRec) (s : State) : ((Upd.wlog k v).apply s).engines = s.engines := rfl
@[simp] theorem Upd.wlog_passes (k : Nat) (v : List WriteRec) (s : State) : ((Upd.wlog k v).apply s).passes = s.passes := rfl
@[simp] theorem Upd.wlog_held (k : Nat) (v : List WriteRec) (s : State) : ((Upd.wlog k v).apply s).held = s.held := rfl
@[simp] theorem Upd.wlog_groups (k : Nat) (v : List WriteRec) (s : State) : ((Upd.wlog k v).apply s).groups = s.groups := rfl
@[simp] theorem Upd.wlog_announces (k : Nat) (v : List WriteRec) (s : State) : ((Upd.wlog k v).apply s).announces = s.announces := rfl
@[simp] theorem Upd.wlog_jds (k : Nat) (v : List WriteRec) (s : State) : ((Upd.wlog k v).apply s).jds = s.jds := rfl
@[simp] theorem Upd.wlog_links (k : Nat) (v : List WriteRec) (s : State) : ((Upd.wlog k v).apply s).links = s.links := rfl
@[simp] theorem Upd.wlog_wctxs (k : Nat) (v : List WriteRec) (s : State) : ((Upd.wlog k v).apply s).wctxs = s.wctxs := rfl
@[simp] theorem Upd.wlog_wcur (k : Nat) (v : List WriteRec) (s : State) : ((Upd.wlog k v).apply s).wcur = s.wcur := rfl
@[simp] theorem Upd.wlog_imem (k : Nat) (v : List WriteRec) (s : State) : ((Upd.wlog k v).apply s).imem = s.imem := rfl
@[simp] theorem Upd.wlog_wsets (k : Nat) (v : List WriteRec) (s : State) : ((Upd.wlog k v).apply s).wsets = s.wsets := rfl
@[simp] theorem Upd.wlog_ft (k : Nat) (v : List WriteRec) (s : State) : ((Upd.wlog k v).apply s).ft = s.ft := rfl
@[simp] theorem Upd.wlog_now (k : Nat) (v : List WriteRec) (s : State) : ((Upd.wlog k v).apply s).now = s.now := rfl
@[simp] theorem Upd.wlog_mod (k : Nat) (v : List WriteRec) (s : State) : ((Upd.wlog k v).apply s).mod = s.mod := rfl
@[simp] theorem Upd.wlog_seq (k : Nat) (v : List WriteRec) (s : State) : ((Upd.wlog k v).apply s).seq = s.seq := rfl
@[simp] theorem Upd.wlog_powered (k : Nat) (v : List WriteRec) (s : State) : ((Upd.wlog k v).apply s).powered = s.powered := rfl
@[simp] theorem Upd.wlog_agenda (k : Nat) (v : List WriteRec) (s : State) : ((Upd.wlog k v).apply s).agenda = s.agenda := rfl
@[simp] theorem Upd.wlog_cur (k : Nat) (v : List WriteRec) (s : State) : ((Upd.wlog k v).apply s).cur = s.cur := rfl
@[simp] theorem Upd.wlog_fresh (k : Nat) (v : List WriteRec) (s : State) : ((Upd.wlog k v).apply s).fresh = s.fresh := rfl
@[simp] theorem Upd.wlog_outbox (k : Nat) (v : List WriteRec) (s : State) : ((Upd.wlog k v).apply s).outbox = s.outbox := rfl
@[simp] theorem Upd.track_mem (k : Nat) (v : List Track) (s : State) : ((Upd.track k v).apply s).mem = s.mem := rfl
@[simp] theorem Upd.track_tags (k : Nat) (v : List Track) (s : State) : ((Upd.track k v).apply s).tags = s.tags := rfl
@[simp] theorem Upd.track_poison (k : Nat) (v : List Track) (s : State) : ((Upd.track k v).apply s).poison = s.poison := rfl
@[simp] theorem Upd.track_lines (k : Nat) (v : List Track) (s : State) : ((Upd.track k v).apply s).lines = s.lines := rfl
@[simp] theorem Upd.track_wlog (k : Nat) (v : List Track) (s : State) : ((Upd.track k v).apply s).wlog = s.wlog := rfl
@[simp] theorem Upd.track_tracks (k : Nat) (v : List Track) (s : State) : ((Upd.track k v).apply s).tracks = Tab.set [] s.tracks k v := rfl
@[simp] theorem Upd.track_tlbs (k : Nat) (v : List Track) (s : State) : ((Upd.track k v).apply s).tlbs = s.tlbs := rfl
@[simp] theorem Upd.track_walks (k : Nat) (v : List Track) (s : State) : ((Upd.track k v).apply s).walks = s.walks := rfl
@[simp] theorem Upd.track_crews (k : Nat) (v : List Track) (s : State) : ((Upd.track k v).apply s).crews = s.crews := rfl
@[simp] theorem Upd.track_teams (k : Nat) (v : List Track) (s : State) : ((Upd.track k v).apply s).teams = s.teams := rfl
@[simp] theorem Upd.track_cores (k : Nat) (v : List Track) (s : State) : ((Upd.track k v).apply s).cores = s.cores := rfl
@[simp] theorem Upd.track_launches (k : Nat) (v : List Track) (s : State) : ((Upd.track k v).apply s).launches = s.launches := rfl
@[simp] theorem Upd.track_pends (k : Nat) (v : List Track) (s : State) : ((Upd.track k v).apply s).pends = s.pends := rfl
@[simp] theorem Upd.track_gangs (k : Nat) (v : List Track) (s : State) : ((Upd.track k v).apply s).gangs = s.gangs := rfl
@[simp] theorem Upd.track_saved (k : Nat) (v : List Track) (s : State) : ((Upd.track k v).apply s).saved = s.saved := rfl
@[simp] theorem Upd.track_coloc (k : Nat) (v : List Track) (s : State) : ((Upd.track k v).apply s).coloc = s.coloc := rfl
@[simp] theorem Upd.track_cycles (k : Nat) (v : List Track) (s : State) : ((Upd.track k v).apply s).cycles = s.cycles := rfl
@[simp] theorem Upd.track_parts (k : Nat) (v : List Track) (s : State) : ((Upd.track k v).apply s).parts = s.parts := rfl
@[simp] theorem Upd.track_vis (k : Nat) (v : List Track) (s : State) : ((Upd.track k v).apply s).vis = s.vis := rfl
@[simp] theorem Upd.track_ctxs (k : Nat) (v : List Track) (s : State) : ((Upd.track k v).apply s).ctxs = s.ctxs := rfl
@[simp] theorem Upd.track_objs (k : Nat) (v : List Track) (s : State) : ((Upd.track k v).apply s).objs = s.objs := rfl
@[simp] theorem Upd.track_queues (k : Nat) (v : List Track) (s : State) : ((Upd.track k v).apply s).queues = s.queues := rfl
@[simp] theorem Upd.track_slots (k : Nat) (v : List Track) (s : State) : ((Upd.track k v).apply s).slots = s.slots := rfl
@[simp] theorem Upd.track_engines (k : Nat) (v : List Track) (s : State) : ((Upd.track k v).apply s).engines = s.engines := rfl
@[simp] theorem Upd.track_passes (k : Nat) (v : List Track) (s : State) : ((Upd.track k v).apply s).passes = s.passes := rfl
@[simp] theorem Upd.track_held (k : Nat) (v : List Track) (s : State) : ((Upd.track k v).apply s).held = s.held := rfl
@[simp] theorem Upd.track_groups (k : Nat) (v : List Track) (s : State) : ((Upd.track k v).apply s).groups = s.groups := rfl
@[simp] theorem Upd.track_announces (k : Nat) (v : List Track) (s : State) : ((Upd.track k v).apply s).announces = s.announces := rfl
@[simp] theorem Upd.track_jds (k : Nat) (v : List Track) (s : State) : ((Upd.track k v).apply s).jds = s.jds := rfl
@[simp] theorem Upd.track_links (k : Nat) (v : List Track) (s : State) : ((Upd.track k v).apply s).links = s.links := rfl
@[simp] theorem Upd.track_wctxs (k : Nat) (v : List Track) (s : State) : ((Upd.track k v).apply s).wctxs = s.wctxs := rfl
@[simp] theorem Upd.track_wcur (k : Nat) (v : List Track) (s : State) : ((Upd.track k v).apply s).wcur = s.wcur := rfl
@[simp] theorem Upd.track_imem (k : Nat) (v : List Track) (s : State) : ((Upd.track k v).apply s).imem = s.imem := rfl
@[simp] theorem Upd.track_wsets (k : Nat) (v : List Track) (s : State) : ((Upd.track k v).apply s).wsets = s.wsets := rfl
@[simp] theorem Upd.track_ft (k : Nat) (v : List Track) (s : State) : ((Upd.track k v).apply s).ft = s.ft := rfl
@[simp] theorem Upd.track_now (k : Nat) (v : List Track) (s : State) : ((Upd.track k v).apply s).now = s.now := rfl
@[simp] theorem Upd.track_mod (k : Nat) (v : List Track) (s : State) : ((Upd.track k v).apply s).mod = s.mod := rfl
@[simp] theorem Upd.track_seq (k : Nat) (v : List Track) (s : State) : ((Upd.track k v).apply s).seq = s.seq := rfl
@[simp] theorem Upd.track_powered (k : Nat) (v : List Track) (s : State) : ((Upd.track k v).apply s).powered = s.powered := rfl
@[simp] theorem Upd.track_agenda (k : Nat) (v : List Track) (s : State) : ((Upd.track k v).apply s).agenda = s.agenda := rfl
@[simp] theorem Upd.track_cur (k : Nat) (v : List Track) (s : State) : ((Upd.track k v).apply s).cur = s.cur := rfl
@[simp] theorem Upd.track_fresh (k : Nat) (v : List Track) (s : State) : ((Upd.track k v).apply s).fresh = s.fresh := rfl
@[simp] theorem Upd.track_outbox (k : Nat) (v : List Track) (s : State) : ((Upd.track k v).apply s).outbox = s.outbox := rfl
@[simp] theorem Upd.tlb_mem (k : Nat) (v : List TlbEntry) (s : State) : ((Upd.tlb k v).apply s).mem = s.mem := rfl
@[simp] theorem Upd.tlb_tags (k : Nat) (v : List TlbEntry) (s : State) : ((Upd.tlb k v).apply s).tags = s.tags := rfl
@[simp] theorem Upd.tlb_poison (k : Nat) (v : List TlbEntry) (s : State) : ((Upd.tlb k v).apply s).poison = s.poison := rfl
@[simp] theorem Upd.tlb_lines (k : Nat) (v : List TlbEntry) (s : State) : ((Upd.tlb k v).apply s).lines = s.lines := rfl
@[simp] theorem Upd.tlb_wlog (k : Nat) (v : List TlbEntry) (s : State) : ((Upd.tlb k v).apply s).wlog = s.wlog := rfl
@[simp] theorem Upd.tlb_tracks (k : Nat) (v : List TlbEntry) (s : State) : ((Upd.tlb k v).apply s).tracks = s.tracks := rfl
@[simp] theorem Upd.tlb_tlbs (k : Nat) (v : List TlbEntry) (s : State) : ((Upd.tlb k v).apply s).tlbs = Tab.set [] s.tlbs k v := rfl
@[simp] theorem Upd.tlb_walks (k : Nat) (v : List TlbEntry) (s : State) : ((Upd.tlb k v).apply s).walks = s.walks := rfl
@[simp] theorem Upd.tlb_crews (k : Nat) (v : List TlbEntry) (s : State) : ((Upd.tlb k v).apply s).crews = s.crews := rfl
@[simp] theorem Upd.tlb_teams (k : Nat) (v : List TlbEntry) (s : State) : ((Upd.tlb k v).apply s).teams = s.teams := rfl
@[simp] theorem Upd.tlb_cores (k : Nat) (v : List TlbEntry) (s : State) : ((Upd.tlb k v).apply s).cores = s.cores := rfl
@[simp] theorem Upd.tlb_launches (k : Nat) (v : List TlbEntry) (s : State) : ((Upd.tlb k v).apply s).launches = s.launches := rfl
@[simp] theorem Upd.tlb_pends (k : Nat) (v : List TlbEntry) (s : State) : ((Upd.tlb k v).apply s).pends = s.pends := rfl
@[simp] theorem Upd.tlb_gangs (k : Nat) (v : List TlbEntry) (s : State) : ((Upd.tlb k v).apply s).gangs = s.gangs := rfl
@[simp] theorem Upd.tlb_saved (k : Nat) (v : List TlbEntry) (s : State) : ((Upd.tlb k v).apply s).saved = s.saved := rfl
@[simp] theorem Upd.tlb_coloc (k : Nat) (v : List TlbEntry) (s : State) : ((Upd.tlb k v).apply s).coloc = s.coloc := rfl
@[simp] theorem Upd.tlb_cycles (k : Nat) (v : List TlbEntry) (s : State) : ((Upd.tlb k v).apply s).cycles = s.cycles := rfl
@[simp] theorem Upd.tlb_parts (k : Nat) (v : List TlbEntry) (s : State) : ((Upd.tlb k v).apply s).parts = s.parts := rfl
@[simp] theorem Upd.tlb_vis (k : Nat) (v : List TlbEntry) (s : State) : ((Upd.tlb k v).apply s).vis = s.vis := rfl
@[simp] theorem Upd.tlb_ctxs (k : Nat) (v : List TlbEntry) (s : State) : ((Upd.tlb k v).apply s).ctxs = s.ctxs := rfl
@[simp] theorem Upd.tlb_objs (k : Nat) (v : List TlbEntry) (s : State) : ((Upd.tlb k v).apply s).objs = s.objs := rfl
@[simp] theorem Upd.tlb_queues (k : Nat) (v : List TlbEntry) (s : State) : ((Upd.tlb k v).apply s).queues = s.queues := rfl
@[simp] theorem Upd.tlb_slots (k : Nat) (v : List TlbEntry) (s : State) : ((Upd.tlb k v).apply s).slots = s.slots := rfl
@[simp] theorem Upd.tlb_engines (k : Nat) (v : List TlbEntry) (s : State) : ((Upd.tlb k v).apply s).engines = s.engines := rfl
@[simp] theorem Upd.tlb_passes (k : Nat) (v : List TlbEntry) (s : State) : ((Upd.tlb k v).apply s).passes = s.passes := rfl
@[simp] theorem Upd.tlb_held (k : Nat) (v : List TlbEntry) (s : State) : ((Upd.tlb k v).apply s).held = s.held := rfl
@[simp] theorem Upd.tlb_groups (k : Nat) (v : List TlbEntry) (s : State) : ((Upd.tlb k v).apply s).groups = s.groups := rfl
@[simp] theorem Upd.tlb_announces (k : Nat) (v : List TlbEntry) (s : State) : ((Upd.tlb k v).apply s).announces = s.announces := rfl
@[simp] theorem Upd.tlb_jds (k : Nat) (v : List TlbEntry) (s : State) : ((Upd.tlb k v).apply s).jds = s.jds := rfl
@[simp] theorem Upd.tlb_links (k : Nat) (v : List TlbEntry) (s : State) : ((Upd.tlb k v).apply s).links = s.links := rfl
@[simp] theorem Upd.tlb_wctxs (k : Nat) (v : List TlbEntry) (s : State) : ((Upd.tlb k v).apply s).wctxs = s.wctxs := rfl
@[simp] theorem Upd.tlb_wcur (k : Nat) (v : List TlbEntry) (s : State) : ((Upd.tlb k v).apply s).wcur = s.wcur := rfl
@[simp] theorem Upd.tlb_imem (k : Nat) (v : List TlbEntry) (s : State) : ((Upd.tlb k v).apply s).imem = s.imem := rfl
@[simp] theorem Upd.tlb_wsets (k : Nat) (v : List TlbEntry) (s : State) : ((Upd.tlb k v).apply s).wsets = s.wsets := rfl
@[simp] theorem Upd.tlb_ft (k : Nat) (v : List TlbEntry) (s : State) : ((Upd.tlb k v).apply s).ft = s.ft := rfl
@[simp] theorem Upd.tlb_now (k : Nat) (v : List TlbEntry) (s : State) : ((Upd.tlb k v).apply s).now = s.now := rfl
@[simp] theorem Upd.tlb_mod (k : Nat) (v : List TlbEntry) (s : State) : ((Upd.tlb k v).apply s).mod = s.mod := rfl
@[simp] theorem Upd.tlb_seq (k : Nat) (v : List TlbEntry) (s : State) : ((Upd.tlb k v).apply s).seq = s.seq := rfl
@[simp] theorem Upd.tlb_powered (k : Nat) (v : List TlbEntry) (s : State) : ((Upd.tlb k v).apply s).powered = s.powered := rfl
@[simp] theorem Upd.tlb_agenda (k : Nat) (v : List TlbEntry) (s : State) : ((Upd.tlb k v).apply s).agenda = s.agenda := rfl
@[simp] theorem Upd.tlb_cur (k : Nat) (v : List TlbEntry) (s : State) : ((Upd.tlb k v).apply s).cur = s.cur := rfl
@[simp] theorem Upd.tlb_fresh (k : Nat) (v : List TlbEntry) (s : State) : ((Upd.tlb k v).apply s).fresh = s.fresh := rfl
@[simp] theorem Upd.tlb_outbox (k : Nat) (v : List TlbEntry) (s : State) : ((Upd.tlb k v).apply s).outbox = s.outbox := rfl
@[simp] theorem Upd.walks_mem (v : List WalkRun) (s : State) : ((Upd.walks v).apply s).mem = s.mem := rfl
@[simp] theorem Upd.walks_tags (v : List WalkRun) (s : State) : ((Upd.walks v).apply s).tags = s.tags := rfl
@[simp] theorem Upd.walks_poison (v : List WalkRun) (s : State) : ((Upd.walks v).apply s).poison = s.poison := rfl
@[simp] theorem Upd.walks_lines (v : List WalkRun) (s : State) : ((Upd.walks v).apply s).lines = s.lines := rfl
@[simp] theorem Upd.walks_wlog (v : List WalkRun) (s : State) : ((Upd.walks v).apply s).wlog = s.wlog := rfl
@[simp] theorem Upd.walks_tracks (v : List WalkRun) (s : State) : ((Upd.walks v).apply s).tracks = s.tracks := rfl
@[simp] theorem Upd.walks_tlbs (v : List WalkRun) (s : State) : ((Upd.walks v).apply s).tlbs = s.tlbs := rfl
@[simp] theorem Upd.walks_walks (v : List WalkRun) (s : State) : ((Upd.walks v).apply s).walks = v := rfl
@[simp] theorem Upd.walks_crews (v : List WalkRun) (s : State) : ((Upd.walks v).apply s).crews = s.crews := rfl
@[simp] theorem Upd.walks_teams (v : List WalkRun) (s : State) : ((Upd.walks v).apply s).teams = s.teams := rfl
@[simp] theorem Upd.walks_cores (v : List WalkRun) (s : State) : ((Upd.walks v).apply s).cores = s.cores := rfl
@[simp] theorem Upd.walks_launches (v : List WalkRun) (s : State) : ((Upd.walks v).apply s).launches = s.launches := rfl
@[simp] theorem Upd.walks_pends (v : List WalkRun) (s : State) : ((Upd.walks v).apply s).pends = s.pends := rfl
@[simp] theorem Upd.walks_gangs (v : List WalkRun) (s : State) : ((Upd.walks v).apply s).gangs = s.gangs := rfl
@[simp] theorem Upd.walks_saved (v : List WalkRun) (s : State) : ((Upd.walks v).apply s).saved = s.saved := rfl
@[simp] theorem Upd.walks_coloc (v : List WalkRun) (s : State) : ((Upd.walks v).apply s).coloc = s.coloc := rfl
@[simp] theorem Upd.walks_cycles (v : List WalkRun) (s : State) : ((Upd.walks v).apply s).cycles = s.cycles := rfl
@[simp] theorem Upd.walks_parts (v : List WalkRun) (s : State) : ((Upd.walks v).apply s).parts = s.parts := rfl
@[simp] theorem Upd.walks_vis (v : List WalkRun) (s : State) : ((Upd.walks v).apply s).vis = s.vis := rfl
@[simp] theorem Upd.walks_ctxs (v : List WalkRun) (s : State) : ((Upd.walks v).apply s).ctxs = s.ctxs := rfl
@[simp] theorem Upd.walks_objs (v : List WalkRun) (s : State) : ((Upd.walks v).apply s).objs = s.objs := rfl
@[simp] theorem Upd.walks_queues (v : List WalkRun) (s : State) : ((Upd.walks v).apply s).queues = s.queues := rfl
@[simp] theorem Upd.walks_slots (v : List WalkRun) (s : State) : ((Upd.walks v).apply s).slots = s.slots := rfl
@[simp] theorem Upd.walks_engines (v : List WalkRun) (s : State) : ((Upd.walks v).apply s).engines = s.engines := rfl
@[simp] theorem Upd.walks_passes (v : List WalkRun) (s : State) : ((Upd.walks v).apply s).passes = s.passes := rfl
@[simp] theorem Upd.walks_held (v : List WalkRun) (s : State) : ((Upd.walks v).apply s).held = s.held := rfl
@[simp] theorem Upd.walks_groups (v : List WalkRun) (s : State) : ((Upd.walks v).apply s).groups = s.groups := rfl
@[simp] theorem Upd.walks_announces (v : List WalkRun) (s : State) : ((Upd.walks v).apply s).announces = s.announces := rfl
@[simp] theorem Upd.walks_jds (v : List WalkRun) (s : State) : ((Upd.walks v).apply s).jds = s.jds := rfl
@[simp] theorem Upd.walks_links (v : List WalkRun) (s : State) : ((Upd.walks v).apply s).links = s.links := rfl
@[simp] theorem Upd.walks_wctxs (v : List WalkRun) (s : State) : ((Upd.walks v).apply s).wctxs = s.wctxs := rfl
@[simp] theorem Upd.walks_wcur (v : List WalkRun) (s : State) : ((Upd.walks v).apply s).wcur = s.wcur := rfl
@[simp] theorem Upd.walks_imem (v : List WalkRun) (s : State) : ((Upd.walks v).apply s).imem = s.imem := rfl
@[simp] theorem Upd.walks_wsets (v : List WalkRun) (s : State) : ((Upd.walks v).apply s).wsets = s.wsets := rfl
@[simp] theorem Upd.walks_ft (v : List WalkRun) (s : State) : ((Upd.walks v).apply s).ft = s.ft := rfl
@[simp] theorem Upd.walks_now (v : List WalkRun) (s : State) : ((Upd.walks v).apply s).now = s.now := rfl
@[simp] theorem Upd.walks_mod (v : List WalkRun) (s : State) : ((Upd.walks v).apply s).mod = s.mod := rfl
@[simp] theorem Upd.walks_seq (v : List WalkRun) (s : State) : ((Upd.walks v).apply s).seq = s.seq := rfl
@[simp] theorem Upd.walks_powered (v : List WalkRun) (s : State) : ((Upd.walks v).apply s).powered = s.powered := rfl
@[simp] theorem Upd.walks_agenda (v : List WalkRun) (s : State) : ((Upd.walks v).apply s).agenda = s.agenda := rfl
@[simp] theorem Upd.walks_cur (v : List WalkRun) (s : State) : ((Upd.walks v).apply s).cur = s.cur := rfl
@[simp] theorem Upd.walks_fresh (v : List WalkRun) (s : State) : ((Upd.walks v).apply s).fresh = s.fresh := rfl
@[simp] theorem Upd.walks_outbox (v : List WalkRun) (s : State) : ((Upd.walks v).apply s).outbox = s.outbox := rfl
@[simp] theorem Upd.crew_mem (x : Nat) (v : Option Crew) (s : State) : ((Upd.crew x v).apply s).mem = s.mem := rfl
@[simp] theorem Upd.crew_tags (x : Nat) (v : Option Crew) (s : State) : ((Upd.crew x v).apply s).tags = s.tags := rfl
@[simp] theorem Upd.crew_poison (x : Nat) (v : Option Crew) (s : State) : ((Upd.crew x v).apply s).poison = s.poison := rfl
@[simp] theorem Upd.crew_lines (x : Nat) (v : Option Crew) (s : State) : ((Upd.crew x v).apply s).lines = s.lines := rfl
@[simp] theorem Upd.crew_wlog (x : Nat) (v : Option Crew) (s : State) : ((Upd.crew x v).apply s).wlog = s.wlog := rfl
@[simp] theorem Upd.crew_tracks (x : Nat) (v : Option Crew) (s : State) : ((Upd.crew x v).apply s).tracks = s.tracks := rfl
@[simp] theorem Upd.crew_tlbs (x : Nat) (v : Option Crew) (s : State) : ((Upd.crew x v).apply s).tlbs = s.tlbs := rfl
@[simp] theorem Upd.crew_walks (x : Nat) (v : Option Crew) (s : State) : ((Upd.crew x v).apply s).walks = s.walks := rfl
@[simp] theorem Upd.crew_crews (x : Nat) (v : Option Crew) (s : State) : ((Upd.crew x v).apply s).crews = Tab.upd s.crews x v := rfl
@[simp] theorem Upd.crew_teams (x : Nat) (v : Option Crew) (s : State) : ((Upd.crew x v).apply s).teams = s.teams := rfl
@[simp] theorem Upd.crew_cores (x : Nat) (v : Option Crew) (s : State) : ((Upd.crew x v).apply s).cores = s.cores := rfl
@[simp] theorem Upd.crew_launches (x : Nat) (v : Option Crew) (s : State) : ((Upd.crew x v).apply s).launches = s.launches := rfl
@[simp] theorem Upd.crew_pends (x : Nat) (v : Option Crew) (s : State) : ((Upd.crew x v).apply s).pends = s.pends := rfl
@[simp] theorem Upd.crew_gangs (x : Nat) (v : Option Crew) (s : State) : ((Upd.crew x v).apply s).gangs = s.gangs := rfl
@[simp] theorem Upd.crew_saved (x : Nat) (v : Option Crew) (s : State) : ((Upd.crew x v).apply s).saved = s.saved := rfl
@[simp] theorem Upd.crew_coloc (x : Nat) (v : Option Crew) (s : State) : ((Upd.crew x v).apply s).coloc = s.coloc := rfl
@[simp] theorem Upd.crew_cycles (x : Nat) (v : Option Crew) (s : State) : ((Upd.crew x v).apply s).cycles = s.cycles := rfl
@[simp] theorem Upd.crew_parts (x : Nat) (v : Option Crew) (s : State) : ((Upd.crew x v).apply s).parts = s.parts := rfl
@[simp] theorem Upd.crew_vis (x : Nat) (v : Option Crew) (s : State) : ((Upd.crew x v).apply s).vis = s.vis := rfl
@[simp] theorem Upd.crew_ctxs (x : Nat) (v : Option Crew) (s : State) : ((Upd.crew x v).apply s).ctxs = s.ctxs := rfl
@[simp] theorem Upd.crew_objs (x : Nat) (v : Option Crew) (s : State) : ((Upd.crew x v).apply s).objs = s.objs := rfl
@[simp] theorem Upd.crew_queues (x : Nat) (v : Option Crew) (s : State) : ((Upd.crew x v).apply s).queues = s.queues := rfl
@[simp] theorem Upd.crew_slots (x : Nat) (v : Option Crew) (s : State) : ((Upd.crew x v).apply s).slots = s.slots := rfl
@[simp] theorem Upd.crew_engines (x : Nat) (v : Option Crew) (s : State) : ((Upd.crew x v).apply s).engines = s.engines := rfl
@[simp] theorem Upd.crew_passes (x : Nat) (v : Option Crew) (s : State) : ((Upd.crew x v).apply s).passes = s.passes := rfl
@[simp] theorem Upd.crew_held (x : Nat) (v : Option Crew) (s : State) : ((Upd.crew x v).apply s).held = s.held := rfl
@[simp] theorem Upd.crew_groups (x : Nat) (v : Option Crew) (s : State) : ((Upd.crew x v).apply s).groups = s.groups := rfl
@[simp] theorem Upd.crew_announces (x : Nat) (v : Option Crew) (s : State) : ((Upd.crew x v).apply s).announces = s.announces := rfl
@[simp] theorem Upd.crew_jds (x : Nat) (v : Option Crew) (s : State) : ((Upd.crew x v).apply s).jds = s.jds := rfl
@[simp] theorem Upd.crew_links (x : Nat) (v : Option Crew) (s : State) : ((Upd.crew x v).apply s).links = s.links := rfl
@[simp] theorem Upd.crew_wctxs (x : Nat) (v : Option Crew) (s : State) : ((Upd.crew x v).apply s).wctxs = s.wctxs := rfl
@[simp] theorem Upd.crew_wcur (x : Nat) (v : Option Crew) (s : State) : ((Upd.crew x v).apply s).wcur = s.wcur := rfl
@[simp] theorem Upd.crew_imem (x : Nat) (v : Option Crew) (s : State) : ((Upd.crew x v).apply s).imem = s.imem := rfl
@[simp] theorem Upd.crew_wsets (x : Nat) (v : Option Crew) (s : State) : ((Upd.crew x v).apply s).wsets = s.wsets := rfl
@[simp] theorem Upd.crew_ft (x : Nat) (v : Option Crew) (s : State) : ((Upd.crew x v).apply s).ft = s.ft := rfl
@[simp] theorem Upd.crew_now (x : Nat) (v : Option Crew) (s : State) : ((Upd.crew x v).apply s).now = s.now := rfl
@[simp] theorem Upd.crew_mod (x : Nat) (v : Option Crew) (s : State) : ((Upd.crew x v).apply s).mod = s.mod := rfl
@[simp] theorem Upd.crew_seq (x : Nat) (v : Option Crew) (s : State) : ((Upd.crew x v).apply s).seq = s.seq := rfl
@[simp] theorem Upd.crew_powered (x : Nat) (v : Option Crew) (s : State) : ((Upd.crew x v).apply s).powered = s.powered := rfl
@[simp] theorem Upd.crew_agenda (x : Nat) (v : Option Crew) (s : State) : ((Upd.crew x v).apply s).agenda = s.agenda := rfl
@[simp] theorem Upd.crew_cur (x : Nat) (v : Option Crew) (s : State) : ((Upd.crew x v).apply s).cur = s.cur := rfl
@[simp] theorem Upd.crew_fresh (x : Nat) (v : Option Crew) (s : State) : ((Upd.crew x v).apply s).fresh = s.fresh := rfl
@[simp] theorem Upd.crew_outbox (x : Nat) (v : Option Crew) (s : State) : ((Upd.crew x v).apply s).outbox = s.outbox := rfl
@[simp] theorem Upd.team_mem (t : Nat) (v : Option Team) (s : State) : ((Upd.team t v).apply s).mem = s.mem := rfl
@[simp] theorem Upd.team_tags (t : Nat) (v : Option Team) (s : State) : ((Upd.team t v).apply s).tags = s.tags := rfl
@[simp] theorem Upd.team_poison (t : Nat) (v : Option Team) (s : State) : ((Upd.team t v).apply s).poison = s.poison := rfl
@[simp] theorem Upd.team_lines (t : Nat) (v : Option Team) (s : State) : ((Upd.team t v).apply s).lines = s.lines := rfl
@[simp] theorem Upd.team_wlog (t : Nat) (v : Option Team) (s : State) : ((Upd.team t v).apply s).wlog = s.wlog := rfl
@[simp] theorem Upd.team_tracks (t : Nat) (v : Option Team) (s : State) : ((Upd.team t v).apply s).tracks = s.tracks := rfl
@[simp] theorem Upd.team_tlbs (t : Nat) (v : Option Team) (s : State) : ((Upd.team t v).apply s).tlbs = s.tlbs := rfl
@[simp] theorem Upd.team_walks (t : Nat) (v : Option Team) (s : State) : ((Upd.team t v).apply s).walks = s.walks := rfl
@[simp] theorem Upd.team_crews (t : Nat) (v : Option Team) (s : State) : ((Upd.team t v).apply s).crews = s.crews := rfl
@[simp] theorem Upd.team_teams (t : Nat) (v : Option Team) (s : State) : ((Upd.team t v).apply s).teams = Tab.upd s.teams t v := rfl
@[simp] theorem Upd.team_cores (t : Nat) (v : Option Team) (s : State) : ((Upd.team t v).apply s).cores = s.cores := rfl
@[simp] theorem Upd.team_launches (t : Nat) (v : Option Team) (s : State) : ((Upd.team t v).apply s).launches = s.launches := rfl
@[simp] theorem Upd.team_pends (t : Nat) (v : Option Team) (s : State) : ((Upd.team t v).apply s).pends = s.pends := rfl
@[simp] theorem Upd.team_gangs (t : Nat) (v : Option Team) (s : State) : ((Upd.team t v).apply s).gangs = s.gangs := rfl
@[simp] theorem Upd.team_saved (t : Nat) (v : Option Team) (s : State) : ((Upd.team t v).apply s).saved = s.saved := rfl
@[simp] theorem Upd.team_coloc (t : Nat) (v : Option Team) (s : State) : ((Upd.team t v).apply s).coloc = s.coloc := rfl
@[simp] theorem Upd.team_cycles (t : Nat) (v : Option Team) (s : State) : ((Upd.team t v).apply s).cycles = s.cycles := rfl
@[simp] theorem Upd.team_parts (t : Nat) (v : Option Team) (s : State) : ((Upd.team t v).apply s).parts = s.parts := rfl
@[simp] theorem Upd.team_vis (t : Nat) (v : Option Team) (s : State) : ((Upd.team t v).apply s).vis = s.vis := rfl
@[simp] theorem Upd.team_ctxs (t : Nat) (v : Option Team) (s : State) : ((Upd.team t v).apply s).ctxs = s.ctxs := rfl
@[simp] theorem Upd.team_objs (t : Nat) (v : Option Team) (s : State) : ((Upd.team t v).apply s).objs = s.objs := rfl
@[simp] theorem Upd.team_queues (t : Nat) (v : Option Team) (s : State) : ((Upd.team t v).apply s).queues = s.queues := rfl
@[simp] theorem Upd.team_slots (t : Nat) (v : Option Team) (s : State) : ((Upd.team t v).apply s).slots = s.slots := rfl
@[simp] theorem Upd.team_engines (t : Nat) (v : Option Team) (s : State) : ((Upd.team t v).apply s).engines = s.engines := rfl
@[simp] theorem Upd.team_passes (t : Nat) (v : Option Team) (s : State) : ((Upd.team t v).apply s).passes = s.passes := rfl
@[simp] theorem Upd.team_held (t : Nat) (v : Option Team) (s : State) : ((Upd.team t v).apply s).held = s.held := rfl
@[simp] theorem Upd.team_groups (t : Nat) (v : Option Team) (s : State) : ((Upd.team t v).apply s).groups = s.groups := rfl
@[simp] theorem Upd.team_announces (t : Nat) (v : Option Team) (s : State) : ((Upd.team t v).apply s).announces = s.announces := rfl
@[simp] theorem Upd.team_jds (t : Nat) (v : Option Team) (s : State) : ((Upd.team t v).apply s).jds = s.jds := rfl
@[simp] theorem Upd.team_links (t : Nat) (v : Option Team) (s : State) : ((Upd.team t v).apply s).links = s.links := rfl
@[simp] theorem Upd.team_wctxs (t : Nat) (v : Option Team) (s : State) : ((Upd.team t v).apply s).wctxs = s.wctxs := rfl
@[simp] theorem Upd.team_wcur (t : Nat) (v : Option Team) (s : State) : ((Upd.team t v).apply s).wcur = s.wcur := rfl
@[simp] theorem Upd.team_imem (t : Nat) (v : Option Team) (s : State) : ((Upd.team t v).apply s).imem = s.imem := rfl
@[simp] theorem Upd.team_wsets (t : Nat) (v : Option Team) (s : State) : ((Upd.team t v).apply s).wsets = s.wsets := rfl
@[simp] theorem Upd.team_ft (t : Nat) (v : Option Team) (s : State) : ((Upd.team t v).apply s).ft = s.ft := rfl
@[simp] theorem Upd.team_now (t : Nat) (v : Option Team) (s : State) : ((Upd.team t v).apply s).now = s.now := rfl
@[simp] theorem Upd.team_mod (t : Nat) (v : Option Team) (s : State) : ((Upd.team t v).apply s).mod = s.mod := rfl
@[simp] theorem Upd.team_seq (t : Nat) (v : Option Team) (s : State) : ((Upd.team t v).apply s).seq = s.seq := rfl
@[simp] theorem Upd.team_powered (t : Nat) (v : Option Team) (s : State) : ((Upd.team t v).apply s).powered = s.powered := rfl
@[simp] theorem Upd.team_agenda (t : Nat) (v : Option Team) (s : State) : ((Upd.team t v).apply s).agenda = s.agenda := rfl
@[simp] theorem Upd.team_cur (t : Nat) (v : Option Team) (s : State) : ((Upd.team t v).apply s).cur = s.cur := rfl
@[simp] theorem Upd.team_fresh (t : Nat) (v : Option Team) (s : State) : ((Upd.team t v).apply s).fresh = s.fresh := rfl
@[simp] theorem Upd.team_outbox (t : Nat) (v : Option Team) (s : State) : ((Upd.team t v).apply s).outbox = s.outbox := rfl
@[simp] theorem Upd.core_mem (k : Nat) (v : CoreSt) (s : State) : ((Upd.core k v).apply s).mem = s.mem := rfl
@[simp] theorem Upd.core_tags (k : Nat) (v : CoreSt) (s : State) : ((Upd.core k v).apply s).tags = s.tags := rfl
@[simp] theorem Upd.core_poison (k : Nat) (v : CoreSt) (s : State) : ((Upd.core k v).apply s).poison = s.poison := rfl
@[simp] theorem Upd.core_lines (k : Nat) (v : CoreSt) (s : State) : ((Upd.core k v).apply s).lines = s.lines := rfl
@[simp] theorem Upd.core_wlog (k : Nat) (v : CoreSt) (s : State) : ((Upd.core k v).apply s).wlog = s.wlog := rfl
@[simp] theorem Upd.core_tracks (k : Nat) (v : CoreSt) (s : State) : ((Upd.core k v).apply s).tracks = s.tracks := rfl
@[simp] theorem Upd.core_tlbs (k : Nat) (v : CoreSt) (s : State) : ((Upd.core k v).apply s).tlbs = s.tlbs := rfl
@[simp] theorem Upd.core_walks (k : Nat) (v : CoreSt) (s : State) : ((Upd.core k v).apply s).walks = s.walks := rfl
@[simp] theorem Upd.core_crews (k : Nat) (v : CoreSt) (s : State) : ((Upd.core k v).apply s).crews = s.crews := rfl
@[simp] theorem Upd.core_teams (k : Nat) (v : CoreSt) (s : State) : ((Upd.core k v).apply s).teams = s.teams := rfl
@[simp] theorem Upd.core_cores (k : Nat) (v : CoreSt) (s : State) : ((Upd.core k v).apply s).cores = Tab.set CoreSt.reset s.cores k v := rfl
@[simp] theorem Upd.core_launches (k : Nat) (v : CoreSt) (s : State) : ((Upd.core k v).apply s).launches = s.launches := rfl
@[simp] theorem Upd.core_pends (k : Nat) (v : CoreSt) (s : State) : ((Upd.core k v).apply s).pends = s.pends := rfl
@[simp] theorem Upd.core_gangs (k : Nat) (v : CoreSt) (s : State) : ((Upd.core k v).apply s).gangs = s.gangs := rfl
@[simp] theorem Upd.core_saved (k : Nat) (v : CoreSt) (s : State) : ((Upd.core k v).apply s).saved = s.saved := rfl
@[simp] theorem Upd.core_coloc (k : Nat) (v : CoreSt) (s : State) : ((Upd.core k v).apply s).coloc = s.coloc := rfl
@[simp] theorem Upd.core_cycles (k : Nat) (v : CoreSt) (s : State) : ((Upd.core k v).apply s).cycles = s.cycles := rfl
@[simp] theorem Upd.core_parts (k : Nat) (v : CoreSt) (s : State) : ((Upd.core k v).apply s).parts = s.parts := rfl
@[simp] theorem Upd.core_vis (k : Nat) (v : CoreSt) (s : State) : ((Upd.core k v).apply s).vis = s.vis := rfl
@[simp] theorem Upd.core_ctxs (k : Nat) (v : CoreSt) (s : State) : ((Upd.core k v).apply s).ctxs = s.ctxs := rfl
@[simp] theorem Upd.core_objs (k : Nat) (v : CoreSt) (s : State) : ((Upd.core k v).apply s).objs = s.objs := rfl
@[simp] theorem Upd.core_queues (k : Nat) (v : CoreSt) (s : State) : ((Upd.core k v).apply s).queues = s.queues := rfl
@[simp] theorem Upd.core_slots (k : Nat) (v : CoreSt) (s : State) : ((Upd.core k v).apply s).slots = s.slots := rfl
@[simp] theorem Upd.core_engines (k : Nat) (v : CoreSt) (s : State) : ((Upd.core k v).apply s).engines = s.engines := rfl
@[simp] theorem Upd.core_passes (k : Nat) (v : CoreSt) (s : State) : ((Upd.core k v).apply s).passes = s.passes := rfl
@[simp] theorem Upd.core_held (k : Nat) (v : CoreSt) (s : State) : ((Upd.core k v).apply s).held = s.held := rfl
@[simp] theorem Upd.core_groups (k : Nat) (v : CoreSt) (s : State) : ((Upd.core k v).apply s).groups = s.groups := rfl
@[simp] theorem Upd.core_announces (k : Nat) (v : CoreSt) (s : State) : ((Upd.core k v).apply s).announces = s.announces := rfl
@[simp] theorem Upd.core_jds (k : Nat) (v : CoreSt) (s : State) : ((Upd.core k v).apply s).jds = s.jds := rfl
@[simp] theorem Upd.core_links (k : Nat) (v : CoreSt) (s : State) : ((Upd.core k v).apply s).links = s.links := rfl
@[simp] theorem Upd.core_wctxs (k : Nat) (v : CoreSt) (s : State) : ((Upd.core k v).apply s).wctxs = s.wctxs := rfl
@[simp] theorem Upd.core_wcur (k : Nat) (v : CoreSt) (s : State) : ((Upd.core k v).apply s).wcur = s.wcur := rfl
@[simp] theorem Upd.core_imem (k : Nat) (v : CoreSt) (s : State) : ((Upd.core k v).apply s).imem = s.imem := rfl
@[simp] theorem Upd.core_wsets (k : Nat) (v : CoreSt) (s : State) : ((Upd.core k v).apply s).wsets = s.wsets := rfl
@[simp] theorem Upd.core_ft (k : Nat) (v : CoreSt) (s : State) : ((Upd.core k v).apply s).ft = s.ft := rfl
@[simp] theorem Upd.core_now (k : Nat) (v : CoreSt) (s : State) : ((Upd.core k v).apply s).now = s.now := rfl
@[simp] theorem Upd.core_mod (k : Nat) (v : CoreSt) (s : State) : ((Upd.core k v).apply s).mod = s.mod := rfl
@[simp] theorem Upd.core_seq (k : Nat) (v : CoreSt) (s : State) : ((Upd.core k v).apply s).seq = s.seq := rfl
@[simp] theorem Upd.core_powered (k : Nat) (v : CoreSt) (s : State) : ((Upd.core k v).apply s).powered = s.powered := rfl
@[simp] theorem Upd.core_agenda (k : Nat) (v : CoreSt) (s : State) : ((Upd.core k v).apply s).agenda = s.agenda := rfl
@[simp] theorem Upd.core_cur (k : Nat) (v : CoreSt) (s : State) : ((Upd.core k v).apply s).cur = s.cur := rfl
@[simp] theorem Upd.core_fresh (k : Nat) (v : CoreSt) (s : State) : ((Upd.core k v).apply s).fresh = s.fresh := rfl
@[simp] theorem Upd.core_outbox (k : Nat) (v : CoreSt) (s : State) : ((Upd.core k v).apply s).outbox = s.outbox := rfl
@[simp] theorem Upd.launch_mem (l : Nat) (v : Option Launch) (s : State) : ((Upd.launch l v).apply s).mem = s.mem := rfl
@[simp] theorem Upd.launch_tags (l : Nat) (v : Option Launch) (s : State) : ((Upd.launch l v).apply s).tags = s.tags := rfl
@[simp] theorem Upd.launch_poison (l : Nat) (v : Option Launch) (s : State) : ((Upd.launch l v).apply s).poison = s.poison := rfl
@[simp] theorem Upd.launch_lines (l : Nat) (v : Option Launch) (s : State) : ((Upd.launch l v).apply s).lines = s.lines := rfl
@[simp] theorem Upd.launch_wlog (l : Nat) (v : Option Launch) (s : State) : ((Upd.launch l v).apply s).wlog = s.wlog := rfl
@[simp] theorem Upd.launch_tracks (l : Nat) (v : Option Launch) (s : State) : ((Upd.launch l v).apply s).tracks = s.tracks := rfl
@[simp] theorem Upd.launch_tlbs (l : Nat) (v : Option Launch) (s : State) : ((Upd.launch l v).apply s).tlbs = s.tlbs := rfl
@[simp] theorem Upd.launch_walks (l : Nat) (v : Option Launch) (s : State) : ((Upd.launch l v).apply s).walks = s.walks := rfl
@[simp] theorem Upd.launch_crews (l : Nat) (v : Option Launch) (s : State) : ((Upd.launch l v).apply s).crews = s.crews := rfl
@[simp] theorem Upd.launch_teams (l : Nat) (v : Option Launch) (s : State) : ((Upd.launch l v).apply s).teams = s.teams := rfl
@[simp] theorem Upd.launch_cores (l : Nat) (v : Option Launch) (s : State) : ((Upd.launch l v).apply s).cores = s.cores := rfl
@[simp] theorem Upd.launch_launches (l : Nat) (v : Option Launch) (s : State) : ((Upd.launch l v).apply s).launches = Tab.upd s.launches l v := rfl
@[simp] theorem Upd.launch_pends (l : Nat) (v : Option Launch) (s : State) : ((Upd.launch l v).apply s).pends = s.pends := rfl
@[simp] theorem Upd.launch_gangs (l : Nat) (v : Option Launch) (s : State) : ((Upd.launch l v).apply s).gangs = s.gangs := rfl
@[simp] theorem Upd.launch_saved (l : Nat) (v : Option Launch) (s : State) : ((Upd.launch l v).apply s).saved = s.saved := rfl
@[simp] theorem Upd.launch_coloc (l : Nat) (v : Option Launch) (s : State) : ((Upd.launch l v).apply s).coloc = s.coloc := rfl
@[simp] theorem Upd.launch_cycles (l : Nat) (v : Option Launch) (s : State) : ((Upd.launch l v).apply s).cycles = s.cycles := rfl
@[simp] theorem Upd.launch_parts (l : Nat) (v : Option Launch) (s : State) : ((Upd.launch l v).apply s).parts = s.parts := rfl
@[simp] theorem Upd.launch_vis (l : Nat) (v : Option Launch) (s : State) : ((Upd.launch l v).apply s).vis = s.vis := rfl
@[simp] theorem Upd.launch_ctxs (l : Nat) (v : Option Launch) (s : State) : ((Upd.launch l v).apply s).ctxs = s.ctxs := rfl
@[simp] theorem Upd.launch_objs (l : Nat) (v : Option Launch) (s : State) : ((Upd.launch l v).apply s).objs = s.objs := rfl
@[simp] theorem Upd.launch_queues (l : Nat) (v : Option Launch) (s : State) : ((Upd.launch l v).apply s).queues = s.queues := rfl
@[simp] theorem Upd.launch_slots (l : Nat) (v : Option Launch) (s : State) : ((Upd.launch l v).apply s).slots = s.slots := rfl
@[simp] theorem Upd.launch_engines (l : Nat) (v : Option Launch) (s : State) : ((Upd.launch l v).apply s).engines = s.engines := rfl
@[simp] theorem Upd.launch_passes (l : Nat) (v : Option Launch) (s : State) : ((Upd.launch l v).apply s).passes = s.passes := rfl
@[simp] theorem Upd.launch_held (l : Nat) (v : Option Launch) (s : State) : ((Upd.launch l v).apply s).held = s.held := rfl
@[simp] theorem Upd.launch_groups (l : Nat) (v : Option Launch) (s : State) : ((Upd.launch l v).apply s).groups = s.groups := rfl
@[simp] theorem Upd.launch_announces (l : Nat) (v : Option Launch) (s : State) : ((Upd.launch l v).apply s).announces = s.announces := rfl
@[simp] theorem Upd.launch_jds (l : Nat) (v : Option Launch) (s : State) : ((Upd.launch l v).apply s).jds = s.jds := rfl
@[simp] theorem Upd.launch_links (l : Nat) (v : Option Launch) (s : State) : ((Upd.launch l v).apply s).links = s.links := rfl
@[simp] theorem Upd.launch_wctxs (l : Nat) (v : Option Launch) (s : State) : ((Upd.launch l v).apply s).wctxs = s.wctxs := rfl
@[simp] theorem Upd.launch_wcur (l : Nat) (v : Option Launch) (s : State) : ((Upd.launch l v).apply s).wcur = s.wcur := rfl
@[simp] theorem Upd.launch_imem (l : Nat) (v : Option Launch) (s : State) : ((Upd.launch l v).apply s).imem = s.imem := rfl
@[simp] theorem Upd.launch_wsets (l : Nat) (v : Option Launch) (s : State) : ((Upd.launch l v).apply s).wsets = s.wsets := rfl
@[simp] theorem Upd.launch_ft (l : Nat) (v : Option Launch) (s : State) : ((Upd.launch l v).apply s).ft = s.ft := rfl
@[simp] theorem Upd.launch_now (l : Nat) (v : Option Launch) (s : State) : ((Upd.launch l v).apply s).now = s.now := rfl
@[simp] theorem Upd.launch_mod (l : Nat) (v : Option Launch) (s : State) : ((Upd.launch l v).apply s).mod = s.mod := rfl
@[simp] theorem Upd.launch_seq (l : Nat) (v : Option Launch) (s : State) : ((Upd.launch l v).apply s).seq = s.seq := rfl
@[simp] theorem Upd.launch_powered (l : Nat) (v : Option Launch) (s : State) : ((Upd.launch l v).apply s).powered = s.powered := rfl
@[simp] theorem Upd.launch_agenda (l : Nat) (v : Option Launch) (s : State) : ((Upd.launch l v).apply s).agenda = s.agenda := rfl
@[simp] theorem Upd.launch_cur (l : Nat) (v : Option Launch) (s : State) : ((Upd.launch l v).apply s).cur = s.cur := rfl
@[simp] theorem Upd.launch_fresh (l : Nat) (v : Option Launch) (s : State) : ((Upd.launch l v).apply s).fresh = s.fresh := rfl
@[simp] theorem Upd.launch_outbox (l : Nat) (v : Option Launch) (s : State) : ((Upd.launch l v).apply s).outbox = s.outbox := rfl
@[simp] theorem Upd.pends_mem (v : List Pend) (s : State) : ((Upd.pends v).apply s).mem = s.mem := rfl
@[simp] theorem Upd.pends_tags (v : List Pend) (s : State) : ((Upd.pends v).apply s).tags = s.tags := rfl
@[simp] theorem Upd.pends_poison (v : List Pend) (s : State) : ((Upd.pends v).apply s).poison = s.poison := rfl
@[simp] theorem Upd.pends_lines (v : List Pend) (s : State) : ((Upd.pends v).apply s).lines = s.lines := rfl
@[simp] theorem Upd.pends_wlog (v : List Pend) (s : State) : ((Upd.pends v).apply s).wlog = s.wlog := rfl
@[simp] theorem Upd.pends_tracks (v : List Pend) (s : State) : ((Upd.pends v).apply s).tracks = s.tracks := rfl
@[simp] theorem Upd.pends_tlbs (v : List Pend) (s : State) : ((Upd.pends v).apply s).tlbs = s.tlbs := rfl
@[simp] theorem Upd.pends_walks (v : List Pend) (s : State) : ((Upd.pends v).apply s).walks = s.walks := rfl
@[simp] theorem Upd.pends_crews (v : List Pend) (s : State) : ((Upd.pends v).apply s).crews = s.crews := rfl
@[simp] theorem Upd.pends_teams (v : List Pend) (s : State) : ((Upd.pends v).apply s).teams = s.teams := rfl
@[simp] theorem Upd.pends_cores (v : List Pend) (s : State) : ((Upd.pends v).apply s).cores = s.cores := rfl
@[simp] theorem Upd.pends_launches (v : List Pend) (s : State) : ((Upd.pends v).apply s).launches = s.launches := rfl
@[simp] theorem Upd.pends_pends (v : List Pend) (s : State) : ((Upd.pends v).apply s).pends = v := rfl
@[simp] theorem Upd.pends_gangs (v : List Pend) (s : State) : ((Upd.pends v).apply s).gangs = s.gangs := rfl
@[simp] theorem Upd.pends_saved (v : List Pend) (s : State) : ((Upd.pends v).apply s).saved = s.saved := rfl
@[simp] theorem Upd.pends_coloc (v : List Pend) (s : State) : ((Upd.pends v).apply s).coloc = s.coloc := rfl
@[simp] theorem Upd.pends_cycles (v : List Pend) (s : State) : ((Upd.pends v).apply s).cycles = s.cycles := rfl
@[simp] theorem Upd.pends_parts (v : List Pend) (s : State) : ((Upd.pends v).apply s).parts = s.parts := rfl
@[simp] theorem Upd.pends_vis (v : List Pend) (s : State) : ((Upd.pends v).apply s).vis = s.vis := rfl
@[simp] theorem Upd.pends_ctxs (v : List Pend) (s : State) : ((Upd.pends v).apply s).ctxs = s.ctxs := rfl
@[simp] theorem Upd.pends_objs (v : List Pend) (s : State) : ((Upd.pends v).apply s).objs = s.objs := rfl
@[simp] theorem Upd.pends_queues (v : List Pend) (s : State) : ((Upd.pends v).apply s).queues = s.queues := rfl
@[simp] theorem Upd.pends_slots (v : List Pend) (s : State) : ((Upd.pends v).apply s).slots = s.slots := rfl
@[simp] theorem Upd.pends_engines (v : List Pend) (s : State) : ((Upd.pends v).apply s).engines = s.engines := rfl
@[simp] theorem Upd.pends_passes (v : List Pend) (s : State) : ((Upd.pends v).apply s).passes = s.passes := rfl
@[simp] theorem Upd.pends_held (v : List Pend) (s : State) : ((Upd.pends v).apply s).held = s.held := rfl
@[simp] theorem Upd.pends_groups (v : List Pend) (s : State) : ((Upd.pends v).apply s).groups = s.groups := rfl
@[simp] theorem Upd.pends_announces (v : List Pend) (s : State) : ((Upd.pends v).apply s).announces = s.announces := rfl
@[simp] theorem Upd.pends_jds (v : List Pend) (s : State) : ((Upd.pends v).apply s).jds = s.jds := rfl
@[simp] theorem Upd.pends_links (v : List Pend) (s : State) : ((Upd.pends v).apply s).links = s.links := rfl
@[simp] theorem Upd.pends_wctxs (v : List Pend) (s : State) : ((Upd.pends v).apply s).wctxs = s.wctxs := rfl
@[simp] theorem Upd.pends_wcur (v : List Pend) (s : State) : ((Upd.pends v).apply s).wcur = s.wcur := rfl
@[simp] theorem Upd.pends_imem (v : List Pend) (s : State) : ((Upd.pends v).apply s).imem = s.imem := rfl
@[simp] theorem Upd.pends_wsets (v : List Pend) (s : State) : ((Upd.pends v).apply s).wsets = s.wsets := rfl
@[simp] theorem Upd.pends_ft (v : List Pend) (s : State) : ((Upd.pends v).apply s).ft = s.ft := rfl
@[simp] theorem Upd.pends_now (v : List Pend) (s : State) : ((Upd.pends v).apply s).now = s.now := rfl
@[simp] theorem Upd.pends_mod (v : List Pend) (s : State) : ((Upd.pends v).apply s).mod = s.mod := rfl
@[simp] theorem Upd.pends_seq (v : List Pend) (s : State) : ((Upd.pends v).apply s).seq = s.seq := rfl
@[simp] theorem Upd.pends_powered (v : List Pend) (s : State) : ((Upd.pends v).apply s).powered = s.powered := rfl
@[simp] theorem Upd.pends_agenda (v : List Pend) (s : State) : ((Upd.pends v).apply s).agenda = s.agenda := rfl
@[simp] theorem Upd.pends_cur (v : List Pend) (s : State) : ((Upd.pends v).apply s).cur = s.cur := rfl
@[simp] theorem Upd.pends_fresh (v : List Pend) (s : State) : ((Upd.pends v).apply s).fresh = s.fresh := rfl
@[simp] theorem Upd.pends_outbox (v : List Pend) (s : State) : ((Upd.pends v).apply s).outbox = s.outbox := rfl
@[simp] theorem Upd.gang_mem (n : Nat) (v : Option Gang) (s : State) : ((Upd.gang n v).apply s).mem = s.mem := rfl
@[simp] theorem Upd.gang_tags (n : Nat) (v : Option Gang) (s : State) : ((Upd.gang n v).apply s).tags = s.tags := rfl
@[simp] theorem Upd.gang_poison (n : Nat) (v : Option Gang) (s : State) : ((Upd.gang n v).apply s).poison = s.poison := rfl
@[simp] theorem Upd.gang_lines (n : Nat) (v : Option Gang) (s : State) : ((Upd.gang n v).apply s).lines = s.lines := rfl
@[simp] theorem Upd.gang_wlog (n : Nat) (v : Option Gang) (s : State) : ((Upd.gang n v).apply s).wlog = s.wlog := rfl
@[simp] theorem Upd.gang_tracks (n : Nat) (v : Option Gang) (s : State) : ((Upd.gang n v).apply s).tracks = s.tracks := rfl
@[simp] theorem Upd.gang_tlbs (n : Nat) (v : Option Gang) (s : State) : ((Upd.gang n v).apply s).tlbs = s.tlbs := rfl
@[simp] theorem Upd.gang_walks (n : Nat) (v : Option Gang) (s : State) : ((Upd.gang n v).apply s).walks = s.walks := rfl
@[simp] theorem Upd.gang_crews (n : Nat) (v : Option Gang) (s : State) : ((Upd.gang n v).apply s).crews = s.crews := rfl
@[simp] theorem Upd.gang_teams (n : Nat) (v : Option Gang) (s : State) : ((Upd.gang n v).apply s).teams = s.teams := rfl
@[simp] theorem Upd.gang_cores (n : Nat) (v : Option Gang) (s : State) : ((Upd.gang n v).apply s).cores = s.cores := rfl
@[simp] theorem Upd.gang_launches (n : Nat) (v : Option Gang) (s : State) : ((Upd.gang n v).apply s).launches = s.launches := rfl
@[simp] theorem Upd.gang_pends (n : Nat) (v : Option Gang) (s : State) : ((Upd.gang n v).apply s).pends = s.pends := rfl
@[simp] theorem Upd.gang_gangs (n : Nat) (v : Option Gang) (s : State) : ((Upd.gang n v).apply s).gangs = Tab.upd s.gangs n v := rfl
@[simp] theorem Upd.gang_saved (n : Nat) (v : Option Gang) (s : State) : ((Upd.gang n v).apply s).saved = s.saved := rfl
@[simp] theorem Upd.gang_coloc (n : Nat) (v : Option Gang) (s : State) : ((Upd.gang n v).apply s).coloc = s.coloc := rfl
@[simp] theorem Upd.gang_cycles (n : Nat) (v : Option Gang) (s : State) : ((Upd.gang n v).apply s).cycles = s.cycles := rfl
@[simp] theorem Upd.gang_parts (n : Nat) (v : Option Gang) (s : State) : ((Upd.gang n v).apply s).parts = s.parts := rfl
@[simp] theorem Upd.gang_vis (n : Nat) (v : Option Gang) (s : State) : ((Upd.gang n v).apply s).vis = s.vis := rfl
@[simp] theorem Upd.gang_ctxs (n : Nat) (v : Option Gang) (s : State) : ((Upd.gang n v).apply s).ctxs = s.ctxs := rfl
@[simp] theorem Upd.gang_objs (n : Nat) (v : Option Gang) (s : State) : ((Upd.gang n v).apply s).objs = s.objs := rfl
@[simp] theorem Upd.gang_queues (n : Nat) (v : Option Gang) (s : State) : ((Upd.gang n v).apply s).queues = s.queues := rfl
@[simp] theorem Upd.gang_slots (n : Nat) (v : Option Gang) (s : State) : ((Upd.gang n v).apply s).slots = s.slots := rfl
@[simp] theorem Upd.gang_engines (n : Nat) (v : Option Gang) (s : State) : ((Upd.gang n v).apply s).engines = s.engines := rfl
@[simp] theorem Upd.gang_passes (n : Nat) (v : Option Gang) (s : State) : ((Upd.gang n v).apply s).passes = s.passes := rfl
@[simp] theorem Upd.gang_held (n : Nat) (v : Option Gang) (s : State) : ((Upd.gang n v).apply s).held = s.held := rfl
@[simp] theorem Upd.gang_groups (n : Nat) (v : Option Gang) (s : State) : ((Upd.gang n v).apply s).groups = s.groups := rfl
@[simp] theorem Upd.gang_announces (n : Nat) (v : Option Gang) (s : State) : ((Upd.gang n v).apply s).announces = s.announces := rfl
@[simp] theorem Upd.gang_jds (n : Nat) (v : Option Gang) (s : State) : ((Upd.gang n v).apply s).jds = s.jds := rfl
@[simp] theorem Upd.gang_links (n : Nat) (v : Option Gang) (s : State) : ((Upd.gang n v).apply s).links = s.links := rfl
@[simp] theorem Upd.gang_wctxs (n : Nat) (v : Option Gang) (s : State) : ((Upd.gang n v).apply s).wctxs = s.wctxs := rfl
@[simp] theorem Upd.gang_wcur (n : Nat) (v : Option Gang) (s : State) : ((Upd.gang n v).apply s).wcur = s.wcur := rfl
@[simp] theorem Upd.gang_imem (n : Nat) (v : Option Gang) (s : State) : ((Upd.gang n v).apply s).imem = s.imem := rfl
@[simp] theorem Upd.gang_wsets (n : Nat) (v : Option Gang) (s : State) : ((Upd.gang n v).apply s).wsets = s.wsets := rfl
@[simp] theorem Upd.gang_ft (n : Nat) (v : Option Gang) (s : State) : ((Upd.gang n v).apply s).ft = s.ft := rfl
@[simp] theorem Upd.gang_now (n : Nat) (v : Option Gang) (s : State) : ((Upd.gang n v).apply s).now = s.now := rfl
@[simp] theorem Upd.gang_mod (n : Nat) (v : Option Gang) (s : State) : ((Upd.gang n v).apply s).mod = s.mod := rfl
@[simp] theorem Upd.gang_seq (n : Nat) (v : Option Gang) (s : State) : ((Upd.gang n v).apply s).seq = s.seq := rfl
@[simp] theorem Upd.gang_powered (n : Nat) (v : Option Gang) (s : State) : ((Upd.gang n v).apply s).powered = s.powered := rfl
@[simp] theorem Upd.gang_agenda (n : Nat) (v : Option Gang) (s : State) : ((Upd.gang n v).apply s).agenda = s.agenda := rfl
@[simp] theorem Upd.gang_cur (n : Nat) (v : Option Gang) (s : State) : ((Upd.gang n v).apply s).cur = s.cur := rfl
@[simp] theorem Upd.gang_fresh (n : Nat) (v : Option Gang) (s : State) : ((Upd.gang n v).apply s).fresh = s.fresh := rfl
@[simp] theorem Upd.gang_outbox (n : Nat) (v : Option Gang) (s : State) : ((Upd.gang n v).apply s).outbox = s.outbox := rfl
@[simp] theorem Upd.saved_mem (t : Nat) (v : Option SavedTeam) (s : State) : ((Upd.saved t v).apply s).mem = s.mem := rfl
@[simp] theorem Upd.saved_tags (t : Nat) (v : Option SavedTeam) (s : State) : ((Upd.saved t v).apply s).tags = s.tags := rfl
@[simp] theorem Upd.saved_poison (t : Nat) (v : Option SavedTeam) (s : State) : ((Upd.saved t v).apply s).poison = s.poison := rfl
@[simp] theorem Upd.saved_lines (t : Nat) (v : Option SavedTeam) (s : State) : ((Upd.saved t v).apply s).lines = s.lines := rfl
@[simp] theorem Upd.saved_wlog (t : Nat) (v : Option SavedTeam) (s : State) : ((Upd.saved t v).apply s).wlog = s.wlog := rfl
@[simp] theorem Upd.saved_tracks (t : Nat) (v : Option SavedTeam) (s : State) : ((Upd.saved t v).apply s).tracks = s.tracks := rfl
@[simp] theorem Upd.saved_tlbs (t : Nat) (v : Option SavedTeam) (s : State) : ((Upd.saved t v).apply s).tlbs = s.tlbs := rfl
@[simp] theorem Upd.saved_walks (t : Nat) (v : Option SavedTeam) (s : State) : ((Upd.saved t v).apply s).walks = s.walks := rfl
@[simp] theorem Upd.saved_crews (t : Nat) (v : Option SavedTeam) (s : State) : ((Upd.saved t v).apply s).crews = s.crews := rfl
@[simp] theorem Upd.saved_teams (t : Nat) (v : Option SavedTeam) (s : State) : ((Upd.saved t v).apply s).teams = s.teams := rfl
@[simp] theorem Upd.saved_cores (t : Nat) (v : Option SavedTeam) (s : State) : ((Upd.saved t v).apply s).cores = s.cores := rfl
@[simp] theorem Upd.saved_launches (t : Nat) (v : Option SavedTeam) (s : State) : ((Upd.saved t v).apply s).launches = s.launches := rfl
@[simp] theorem Upd.saved_pends (t : Nat) (v : Option SavedTeam) (s : State) : ((Upd.saved t v).apply s).pends = s.pends := rfl
@[simp] theorem Upd.saved_gangs (t : Nat) (v : Option SavedTeam) (s : State) : ((Upd.saved t v).apply s).gangs = s.gangs := rfl
@[simp] theorem Upd.saved_saved (t : Nat) (v : Option SavedTeam) (s : State) : ((Upd.saved t v).apply s).saved = Tab.upd s.saved t v := rfl
@[simp] theorem Upd.saved_coloc (t : Nat) (v : Option SavedTeam) (s : State) : ((Upd.saved t v).apply s).coloc = s.coloc := rfl
@[simp] theorem Upd.saved_cycles (t : Nat) (v : Option SavedTeam) (s : State) : ((Upd.saved t v).apply s).cycles = s.cycles := rfl
@[simp] theorem Upd.saved_parts (t : Nat) (v : Option SavedTeam) (s : State) : ((Upd.saved t v).apply s).parts = s.parts := rfl
@[simp] theorem Upd.saved_vis (t : Nat) (v : Option SavedTeam) (s : State) : ((Upd.saved t v).apply s).vis = s.vis := rfl
@[simp] theorem Upd.saved_ctxs (t : Nat) (v : Option SavedTeam) (s : State) : ((Upd.saved t v).apply s).ctxs = s.ctxs := rfl
@[simp] theorem Upd.saved_objs (t : Nat) (v : Option SavedTeam) (s : State) : ((Upd.saved t v).apply s).objs = s.objs := rfl
@[simp] theorem Upd.saved_queues (t : Nat) (v : Option SavedTeam) (s : State) : ((Upd.saved t v).apply s).queues = s.queues := rfl
@[simp] theorem Upd.saved_slots (t : Nat) (v : Option SavedTeam) (s : State) : ((Upd.saved t v).apply s).slots = s.slots := rfl
@[simp] theorem Upd.saved_engines (t : Nat) (v : Option SavedTeam) (s : State) : ((Upd.saved t v).apply s).engines = s.engines := rfl
@[simp] theorem Upd.saved_passes (t : Nat) (v : Option SavedTeam) (s : State) : ((Upd.saved t v).apply s).passes = s.passes := rfl
@[simp] theorem Upd.saved_held (t : Nat) (v : Option SavedTeam) (s : State) : ((Upd.saved t v).apply s).held = s.held := rfl
@[simp] theorem Upd.saved_groups (t : Nat) (v : Option SavedTeam) (s : State) : ((Upd.saved t v).apply s).groups = s.groups := rfl
@[simp] theorem Upd.saved_announces (t : Nat) (v : Option SavedTeam) (s : State) : ((Upd.saved t v).apply s).announces = s.announces := rfl
@[simp] theorem Upd.saved_jds (t : Nat) (v : Option SavedTeam) (s : State) : ((Upd.saved t v).apply s).jds = s.jds := rfl
@[simp] theorem Upd.saved_links (t : Nat) (v : Option SavedTeam) (s : State) : ((Upd.saved t v).apply s).links = s.links := rfl
@[simp] theorem Upd.saved_wctxs (t : Nat) (v : Option SavedTeam) (s : State) : ((Upd.saved t v).apply s).wctxs = s.wctxs := rfl
@[simp] theorem Upd.saved_wcur (t : Nat) (v : Option SavedTeam) (s : State) : ((Upd.saved t v).apply s).wcur = s.wcur := rfl
@[simp] theorem Upd.saved_imem (t : Nat) (v : Option SavedTeam) (s : State) : ((Upd.saved t v).apply s).imem = s.imem := rfl
@[simp] theorem Upd.saved_wsets (t : Nat) (v : Option SavedTeam) (s : State) : ((Upd.saved t v).apply s).wsets = s.wsets := rfl
@[simp] theorem Upd.saved_ft (t : Nat) (v : Option SavedTeam) (s : State) : ((Upd.saved t v).apply s).ft = s.ft := rfl
@[simp] theorem Upd.saved_now (t : Nat) (v : Option SavedTeam) (s : State) : ((Upd.saved t v).apply s).now = s.now := rfl
@[simp] theorem Upd.saved_mod (t : Nat) (v : Option SavedTeam) (s : State) : ((Upd.saved t v).apply s).mod = s.mod := rfl
@[simp] theorem Upd.saved_seq (t : Nat) (v : Option SavedTeam) (s : State) : ((Upd.saved t v).apply s).seq = s.seq := rfl
@[simp] theorem Upd.saved_powered (t : Nat) (v : Option SavedTeam) (s : State) : ((Upd.saved t v).apply s).powered = s.powered := rfl
@[simp] theorem Upd.saved_agenda (t : Nat) (v : Option SavedTeam) (s : State) : ((Upd.saved t v).apply s).agenda = s.agenda := rfl
@[simp] theorem Upd.saved_cur (t : Nat) (v : Option SavedTeam) (s : State) : ((Upd.saved t v).apply s).cur = s.cur := rfl
@[simp] theorem Upd.saved_fresh (t : Nat) (v : Option SavedTeam) (s : State) : ((Upd.saved t v).apply s).fresh = s.fresh := rfl
@[simp] theorem Upd.saved_outbox (t : Nat) (v : Option SavedTeam) (s : State) : ((Upd.saved t v).apply s).outbox = s.outbox := rfl
@[simp] theorem Upd.coloc_mem (k : Nat) (v : Option Coloc) (s : State) : ((Upd.coloc k v).apply s).mem = s.mem := rfl
@[simp] theorem Upd.coloc_tags (k : Nat) (v : Option Coloc) (s : State) : ((Upd.coloc k v).apply s).tags = s.tags := rfl
@[simp] theorem Upd.coloc_poison (k : Nat) (v : Option Coloc) (s : State) : ((Upd.coloc k v).apply s).poison = s.poison := rfl
@[simp] theorem Upd.coloc_lines (k : Nat) (v : Option Coloc) (s : State) : ((Upd.coloc k v).apply s).lines = s.lines := rfl
@[simp] theorem Upd.coloc_wlog (k : Nat) (v : Option Coloc) (s : State) : ((Upd.coloc k v).apply s).wlog = s.wlog := rfl
@[simp] theorem Upd.coloc_tracks (k : Nat) (v : Option Coloc) (s : State) : ((Upd.coloc k v).apply s).tracks = s.tracks := rfl
@[simp] theorem Upd.coloc_tlbs (k : Nat) (v : Option Coloc) (s : State) : ((Upd.coloc k v).apply s).tlbs = s.tlbs := rfl
@[simp] theorem Upd.coloc_walks (k : Nat) (v : Option Coloc) (s : State) : ((Upd.coloc k v).apply s).walks = s.walks := rfl
@[simp] theorem Upd.coloc_crews (k : Nat) (v : Option Coloc) (s : State) : ((Upd.coloc k v).apply s).crews = s.crews := rfl
@[simp] theorem Upd.coloc_teams (k : Nat) (v : Option Coloc) (s : State) : ((Upd.coloc k v).apply s).teams = s.teams := rfl
@[simp] theorem Upd.coloc_cores (k : Nat) (v : Option Coloc) (s : State) : ((Upd.coloc k v).apply s).cores = s.cores := rfl
@[simp] theorem Upd.coloc_launches (k : Nat) (v : Option Coloc) (s : State) : ((Upd.coloc k v).apply s).launches = s.launches := rfl
@[simp] theorem Upd.coloc_pends (k : Nat) (v : Option Coloc) (s : State) : ((Upd.coloc k v).apply s).pends = s.pends := rfl
@[simp] theorem Upd.coloc_gangs (k : Nat) (v : Option Coloc) (s : State) : ((Upd.coloc k v).apply s).gangs = s.gangs := rfl
@[simp] theorem Upd.coloc_saved (k : Nat) (v : Option Coloc) (s : State) : ((Upd.coloc k v).apply s).saved = s.saved := rfl
@[simp] theorem Upd.coloc_coloc (k : Nat) (v : Option Coloc) (s : State) : ((Upd.coloc k v).apply s).coloc = Tab.upd s.coloc k v := rfl
@[simp] theorem Upd.coloc_cycles (k : Nat) (v : Option Coloc) (s : State) : ((Upd.coloc k v).apply s).cycles = s.cycles := rfl
@[simp] theorem Upd.coloc_parts (k : Nat) (v : Option Coloc) (s : State) : ((Upd.coloc k v).apply s).parts = s.parts := rfl
@[simp] theorem Upd.coloc_vis (k : Nat) (v : Option Coloc) (s : State) : ((Upd.coloc k v).apply s).vis = s.vis := rfl
@[simp] theorem Upd.coloc_ctxs (k : Nat) (v : Option Coloc) (s : State) : ((Upd.coloc k v).apply s).ctxs = s.ctxs := rfl
@[simp] theorem Upd.coloc_objs (k : Nat) (v : Option Coloc) (s : State) : ((Upd.coloc k v).apply s).objs = s.objs := rfl
@[simp] theorem Upd.coloc_queues (k : Nat) (v : Option Coloc) (s : State) : ((Upd.coloc k v).apply s).queues = s.queues := rfl
@[simp] theorem Upd.coloc_slots (k : Nat) (v : Option Coloc) (s : State) : ((Upd.coloc k v).apply s).slots = s.slots := rfl
@[simp] theorem Upd.coloc_engines (k : Nat) (v : Option Coloc) (s : State) : ((Upd.coloc k v).apply s).engines = s.engines := rfl
@[simp] theorem Upd.coloc_passes (k : Nat) (v : Option Coloc) (s : State) : ((Upd.coloc k v).apply s).passes = s.passes := rfl
@[simp] theorem Upd.coloc_held (k : Nat) (v : Option Coloc) (s : State) : ((Upd.coloc k v).apply s).held = s.held := rfl
@[simp] theorem Upd.coloc_groups (k : Nat) (v : Option Coloc) (s : State) : ((Upd.coloc k v).apply s).groups = s.groups := rfl
@[simp] theorem Upd.coloc_announces (k : Nat) (v : Option Coloc) (s : State) : ((Upd.coloc k v).apply s).announces = s.announces := rfl
@[simp] theorem Upd.coloc_jds (k : Nat) (v : Option Coloc) (s : State) : ((Upd.coloc k v).apply s).jds = s.jds := rfl
@[simp] theorem Upd.coloc_links (k : Nat) (v : Option Coloc) (s : State) : ((Upd.coloc k v).apply s).links = s.links := rfl
@[simp] theorem Upd.coloc_wctxs (k : Nat) (v : Option Coloc) (s : State) : ((Upd.coloc k v).apply s).wctxs = s.wctxs := rfl
@[simp] theorem Upd.coloc_wcur (k : Nat) (v : Option Coloc) (s : State) : ((Upd.coloc k v).apply s).wcur = s.wcur := rfl
@[simp] theorem Upd.coloc_imem (k : Nat) (v : Option Coloc) (s : State) : ((Upd.coloc k v).apply s).imem = s.imem := rfl
@[simp] theorem Upd.coloc_wsets (k : Nat) (v : Option Coloc) (s : State) : ((Upd.coloc k v).apply s).wsets = s.wsets := rfl
@[simp] theorem Upd.coloc_ft (k : Nat) (v : Option Coloc) (s : State) : ((Upd.coloc k v).apply s).ft = s.ft := rfl
@[simp] theorem Upd.coloc_now (k : Nat) (v : Option Coloc) (s : State) : ((Upd.coloc k v).apply s).now = s.now := rfl
@[simp] theorem Upd.coloc_mod (k : Nat) (v : Option Coloc) (s : State) : ((Upd.coloc k v).apply s).mod = s.mod := rfl
@[simp] theorem Upd.coloc_seq (k : Nat) (v : Option Coloc) (s : State) : ((Upd.coloc k v).apply s).seq = s.seq := rfl
@[simp] theorem Upd.coloc_powered (k : Nat) (v : Option Coloc) (s : State) : ((Upd.coloc k v).apply s).powered = s.powered := rfl
@[simp] theorem Upd.coloc_agenda (k : Nat) (v : Option Coloc) (s : State) : ((Upd.coloc k v).apply s).agenda = s.agenda := rfl
@[simp] theorem Upd.coloc_cur (k : Nat) (v : Option Coloc) (s : State) : ((Upd.coloc k v).apply s).cur = s.cur := rfl
@[simp] theorem Upd.coloc_fresh (k : Nat) (v : Option Coloc) (s : State) : ((Upd.coloc k v).apply s).fresh = s.fresh := rfl
@[simp] theorem Upd.coloc_outbox (k : Nat) (v : Option Coloc) (s : State) : ((Upd.coloc k v).apply s).outbox = s.outbox := rfl
@[simp] theorem Upd.cycle_mem (k : Nat) (v : Nat) (s : State) : ((Upd.cycle k v).apply s).mem = s.mem := rfl
@[simp] theorem Upd.cycle_tags (k : Nat) (v : Nat) (s : State) : ((Upd.cycle k v).apply s).tags = s.tags := rfl
@[simp] theorem Upd.cycle_poison (k : Nat) (v : Nat) (s : State) : ((Upd.cycle k v).apply s).poison = s.poison := rfl
@[simp] theorem Upd.cycle_lines (k : Nat) (v : Nat) (s : State) : ((Upd.cycle k v).apply s).lines = s.lines := rfl
@[simp] theorem Upd.cycle_wlog (k : Nat) (v : Nat) (s : State) : ((Upd.cycle k v).apply s).wlog = s.wlog := rfl
@[simp] theorem Upd.cycle_tracks (k : Nat) (v : Nat) (s : State) : ((Upd.cycle k v).apply s).tracks = s.tracks := rfl
@[simp] theorem Upd.cycle_tlbs (k : Nat) (v : Nat) (s : State) : ((Upd.cycle k v).apply s).tlbs = s.tlbs := rfl
@[simp] theorem Upd.cycle_walks (k : Nat) (v : Nat) (s : State) : ((Upd.cycle k v).apply s).walks = s.walks := rfl
@[simp] theorem Upd.cycle_crews (k : Nat) (v : Nat) (s : State) : ((Upd.cycle k v).apply s).crews = s.crews := rfl
@[simp] theorem Upd.cycle_teams (k : Nat) (v : Nat) (s : State) : ((Upd.cycle k v).apply s).teams = s.teams := rfl
@[simp] theorem Upd.cycle_cores (k : Nat) (v : Nat) (s : State) : ((Upd.cycle k v).apply s).cores = s.cores := rfl
@[simp] theorem Upd.cycle_launches (k : Nat) (v : Nat) (s : State) : ((Upd.cycle k v).apply s).launches = s.launches := rfl
@[simp] theorem Upd.cycle_pends (k : Nat) (v : Nat) (s : State) : ((Upd.cycle k v).apply s).pends = s.pends := rfl
@[simp] theorem Upd.cycle_gangs (k : Nat) (v : Nat) (s : State) : ((Upd.cycle k v).apply s).gangs = s.gangs := rfl
@[simp] theorem Upd.cycle_saved (k : Nat) (v : Nat) (s : State) : ((Upd.cycle k v).apply s).saved = s.saved := rfl
@[simp] theorem Upd.cycle_coloc (k : Nat) (v : Nat) (s : State) : ((Upd.cycle k v).apply s).coloc = s.coloc := rfl
@[simp] theorem Upd.cycle_cycles (k : Nat) (v : Nat) (s : State) : ((Upd.cycle k v).apply s).cycles = Tab.set 0 s.cycles k v := rfl
@[simp] theorem Upd.cycle_parts (k : Nat) (v : Nat) (s : State) : ((Upd.cycle k v).apply s).parts = s.parts := rfl
@[simp] theorem Upd.cycle_vis (k : Nat) (v : Nat) (s : State) : ((Upd.cycle k v).apply s).vis = s.vis := rfl
@[simp] theorem Upd.cycle_ctxs (k : Nat) (v : Nat) (s : State) : ((Upd.cycle k v).apply s).ctxs = s.ctxs := rfl
@[simp] theorem Upd.cycle_objs (k : Nat) (v : Nat) (s : State) : ((Upd.cycle k v).apply s).objs = s.objs := rfl
@[simp] theorem Upd.cycle_queues (k : Nat) (v : Nat) (s : State) : ((Upd.cycle k v).apply s).queues = s.queues := rfl
@[simp] theorem Upd.cycle_slots (k : Nat) (v : Nat) (s : State) : ((Upd.cycle k v).apply s).slots = s.slots := rfl
@[simp] theorem Upd.cycle_engines (k : Nat) (v : Nat) (s : State) : ((Upd.cycle k v).apply s).engines = s.engines := rfl
@[simp] theorem Upd.cycle_passes (k : Nat) (v : Nat) (s : State) : ((Upd.cycle k v).apply s).passes = s.passes := rfl
@[simp] theorem Upd.cycle_held (k : Nat) (v : Nat) (s : State) : ((Upd.cycle k v).apply s).held = s.held := rfl
@[simp] theorem Upd.cycle_groups (k : Nat) (v : Nat) (s : State) : ((Upd.cycle k v).apply s).groups = s.groups := rfl
@[simp] theorem Upd.cycle_announces (k : Nat) (v : Nat) (s : State) : ((Upd.cycle k v).apply s).announces = s.announces := rfl
@[simp] theorem Upd.cycle_jds (k : Nat) (v : Nat) (s : State) : ((Upd.cycle k v).apply s).jds = s.jds := rfl
@[simp] theorem Upd.cycle_links (k : Nat) (v : Nat) (s : State) : ((Upd.cycle k v).apply s).links = s.links := rfl
@[simp] theorem Upd.cycle_wctxs (k : Nat) (v : Nat) (s : State) : ((Upd.cycle k v).apply s).wctxs = s.wctxs := rfl
@[simp] theorem Upd.cycle_wcur (k : Nat) (v : Nat) (s : State) : ((Upd.cycle k v).apply s).wcur = s.wcur := rfl
@[simp] theorem Upd.cycle_imem (k : Nat) (v : Nat) (s : State) : ((Upd.cycle k v).apply s).imem = s.imem := rfl
@[simp] theorem Upd.cycle_wsets (k : Nat) (v : Nat) (s : State) : ((Upd.cycle k v).apply s).wsets = s.wsets := rfl
@[simp] theorem Upd.cycle_ft (k : Nat) (v : Nat) (s : State) : ((Upd.cycle k v).apply s).ft = s.ft := rfl
@[simp] theorem Upd.cycle_now (k : Nat) (v : Nat) (s : State) : ((Upd.cycle k v).apply s).now = s.now := rfl
@[simp] theorem Upd.cycle_mod (k : Nat) (v : Nat) (s : State) : ((Upd.cycle k v).apply s).mod = s.mod := rfl
@[simp] theorem Upd.cycle_seq (k : Nat) (v : Nat) (s : State) : ((Upd.cycle k v).apply s).seq = s.seq := rfl
@[simp] theorem Upd.cycle_powered (k : Nat) (v : Nat) (s : State) : ((Upd.cycle k v).apply s).powered = s.powered := rfl
@[simp] theorem Upd.cycle_agenda (k : Nat) (v : Nat) (s : State) : ((Upd.cycle k v).apply s).agenda = s.agenda := rfl
@[simp] theorem Upd.cycle_cur (k : Nat) (v : Nat) (s : State) : ((Upd.cycle k v).apply s).cur = s.cur := rfl
@[simp] theorem Upd.cycle_fresh (k : Nat) (v : Nat) (s : State) : ((Upd.cycle k v).apply s).fresh = s.fresh := rfl
@[simp] theorem Upd.cycle_outbox (k : Nat) (v : Nat) (s : State) : ((Upd.cycle k v).apply s).outbox = s.outbox := rfl
@[simp] theorem Upd.part_mem (p : Nat) (v : Part) (s : State) : ((Upd.part p v).apply s).mem = s.mem := rfl
@[simp] theorem Upd.part_tags (p : Nat) (v : Part) (s : State) : ((Upd.part p v).apply s).tags = s.tags := rfl
@[simp] theorem Upd.part_poison (p : Nat) (v : Part) (s : State) : ((Upd.part p v).apply s).poison = s.poison := rfl
@[simp] theorem Upd.part_lines (p : Nat) (v : Part) (s : State) : ((Upd.part p v).apply s).lines = s.lines := rfl
@[simp] theorem Upd.part_wlog (p : Nat) (v : Part) (s : State) : ((Upd.part p v).apply s).wlog = s.wlog := rfl
@[simp] theorem Upd.part_tracks (p : Nat) (v : Part) (s : State) : ((Upd.part p v).apply s).tracks = s.tracks := rfl
@[simp] theorem Upd.part_tlbs (p : Nat) (v : Part) (s : State) : ((Upd.part p v).apply s).tlbs = s.tlbs := rfl
@[simp] theorem Upd.part_walks (p : Nat) (v : Part) (s : State) : ((Upd.part p v).apply s).walks = s.walks := rfl
@[simp] theorem Upd.part_crews (p : Nat) (v : Part) (s : State) : ((Upd.part p v).apply s).crews = s.crews := rfl
@[simp] theorem Upd.part_teams (p : Nat) (v : Part) (s : State) : ((Upd.part p v).apply s).teams = s.teams := rfl
@[simp] theorem Upd.part_cores (p : Nat) (v : Part) (s : State) : ((Upd.part p v).apply s).cores = s.cores := rfl
@[simp] theorem Upd.part_launches (p : Nat) (v : Part) (s : State) : ((Upd.part p v).apply s).launches = s.launches := rfl
@[simp] theorem Upd.part_pends (p : Nat) (v : Part) (s : State) : ((Upd.part p v).apply s).pends = s.pends := rfl
@[simp] theorem Upd.part_gangs (p : Nat) (v : Part) (s : State) : ((Upd.part p v).apply s).gangs = s.gangs := rfl
@[simp] theorem Upd.part_saved (p : Nat) (v : Part) (s : State) : ((Upd.part p v).apply s).saved = s.saved := rfl
@[simp] theorem Upd.part_coloc (p : Nat) (v : Part) (s : State) : ((Upd.part p v).apply s).coloc = s.coloc := rfl
@[simp] theorem Upd.part_cycles (p : Nat) (v : Part) (s : State) : ((Upd.part p v).apply s).cycles = s.cycles := rfl
@[simp] theorem Upd.part_parts (p : Nat) (v : Part) (s : State) : ((Upd.part p v).apply s).parts = Tab.set Part.reset s.parts p v := rfl
@[simp] theorem Upd.part_vis (p : Nat) (v : Part) (s : State) : ((Upd.part p v).apply s).vis = s.vis := rfl
@[simp] theorem Upd.part_ctxs (p : Nat) (v : Part) (s : State) : ((Upd.part p v).apply s).ctxs = s.ctxs := rfl
@[simp] theorem Upd.part_objs (p : Nat) (v : Part) (s : State) : ((Upd.part p v).apply s).objs = s.objs := rfl
@[simp] theorem Upd.part_queues (p : Nat) (v : Part) (s : State) : ((Upd.part p v).apply s).queues = s.queues := rfl
@[simp] theorem Upd.part_slots (p : Nat) (v : Part) (s : State) : ((Upd.part p v).apply s).slots = s.slots := rfl
@[simp] theorem Upd.part_engines (p : Nat) (v : Part) (s : State) : ((Upd.part p v).apply s).engines = s.engines := rfl
@[simp] theorem Upd.part_passes (p : Nat) (v : Part) (s : State) : ((Upd.part p v).apply s).passes = s.passes := rfl
@[simp] theorem Upd.part_held (p : Nat) (v : Part) (s : State) : ((Upd.part p v).apply s).held = s.held := rfl
@[simp] theorem Upd.part_groups (p : Nat) (v : Part) (s : State) : ((Upd.part p v).apply s).groups = s.groups := rfl
@[simp] theorem Upd.part_announces (p : Nat) (v : Part) (s : State) : ((Upd.part p v).apply s).announces = s.announces := rfl
@[simp] theorem Upd.part_jds (p : Nat) (v : Part) (s : State) : ((Upd.part p v).apply s).jds = s.jds := rfl
@[simp] theorem Upd.part_links (p : Nat) (v : Part) (s : State) : ((Upd.part p v).apply s).links = s.links := rfl
@[simp] theorem Upd.part_wctxs (p : Nat) (v : Part) (s : State) : ((Upd.part p v).apply s).wctxs = s.wctxs := rfl
@[simp] theorem Upd.part_wcur (p : Nat) (v : Part) (s : State) : ((Upd.part p v).apply s).wcur = s.wcur := rfl
@[simp] theorem Upd.part_imem (p : Nat) (v : Part) (s : State) : ((Upd.part p v).apply s).imem = s.imem := rfl
@[simp] theorem Upd.part_wsets (p : Nat) (v : Part) (s : State) : ((Upd.part p v).apply s).wsets = s.wsets := rfl
@[simp] theorem Upd.part_ft (p : Nat) (v : Part) (s : State) : ((Upd.part p v).apply s).ft = s.ft := rfl
@[simp] theorem Upd.part_now (p : Nat) (v : Part) (s : State) : ((Upd.part p v).apply s).now = s.now := rfl
@[simp] theorem Upd.part_mod (p : Nat) (v : Part) (s : State) : ((Upd.part p v).apply s).mod = s.mod := rfl
@[simp] theorem Upd.part_seq (p : Nat) (v : Part) (s : State) : ((Upd.part p v).apply s).seq = s.seq := rfl
@[simp] theorem Upd.part_powered (p : Nat) (v : Part) (s : State) : ((Upd.part p v).apply s).powered = s.powered := rfl
@[simp] theorem Upd.part_agenda (p : Nat) (v : Part) (s : State) : ((Upd.part p v).apply s).agenda = s.agenda := rfl
@[simp] theorem Upd.part_cur (p : Nat) (v : Part) (s : State) : ((Upd.part p v).apply s).cur = s.cur := rfl
@[simp] theorem Upd.part_fresh (p : Nat) (v : Part) (s : State) : ((Upd.part p v).apply s).fresh = s.fresh := rfl
@[simp] theorem Upd.part_outbox (p : Nat) (v : Part) (s : State) : ((Upd.part p v).apply s).outbox = s.outbox := rfl
@[simp] theorem Upd.vi_mem (n : Nat) (v : Vi) (s : State) : ((Upd.vi n v).apply s).mem = s.mem := rfl
@[simp] theorem Upd.vi_tags (n : Nat) (v : Vi) (s : State) : ((Upd.vi n v).apply s).tags = s.tags := rfl
@[simp] theorem Upd.vi_poison (n : Nat) (v : Vi) (s : State) : ((Upd.vi n v).apply s).poison = s.poison := rfl
@[simp] theorem Upd.vi_lines (n : Nat) (v : Vi) (s : State) : ((Upd.vi n v).apply s).lines = s.lines := rfl
@[simp] theorem Upd.vi_wlog (n : Nat) (v : Vi) (s : State) : ((Upd.vi n v).apply s).wlog = s.wlog := rfl
@[simp] theorem Upd.vi_tracks (n : Nat) (v : Vi) (s : State) : ((Upd.vi n v).apply s).tracks = s.tracks := rfl
@[simp] theorem Upd.vi_tlbs (n : Nat) (v : Vi) (s : State) : ((Upd.vi n v).apply s).tlbs = s.tlbs := rfl
@[simp] theorem Upd.vi_walks (n : Nat) (v : Vi) (s : State) : ((Upd.vi n v).apply s).walks = s.walks := rfl
@[simp] theorem Upd.vi_crews (n : Nat) (v : Vi) (s : State) : ((Upd.vi n v).apply s).crews = s.crews := rfl
@[simp] theorem Upd.vi_teams (n : Nat) (v : Vi) (s : State) : ((Upd.vi n v).apply s).teams = s.teams := rfl
@[simp] theorem Upd.vi_cores (n : Nat) (v : Vi) (s : State) : ((Upd.vi n v).apply s).cores = s.cores := rfl
@[simp] theorem Upd.vi_launches (n : Nat) (v : Vi) (s : State) : ((Upd.vi n v).apply s).launches = s.launches := rfl
@[simp] theorem Upd.vi_pends (n : Nat) (v : Vi) (s : State) : ((Upd.vi n v).apply s).pends = s.pends := rfl
@[simp] theorem Upd.vi_gangs (n : Nat) (v : Vi) (s : State) : ((Upd.vi n v).apply s).gangs = s.gangs := rfl
@[simp] theorem Upd.vi_saved (n : Nat) (v : Vi) (s : State) : ((Upd.vi n v).apply s).saved = s.saved := rfl
@[simp] theorem Upd.vi_coloc (n : Nat) (v : Vi) (s : State) : ((Upd.vi n v).apply s).coloc = s.coloc := rfl
@[simp] theorem Upd.vi_cycles (n : Nat) (v : Vi) (s : State) : ((Upd.vi n v).apply s).cycles = s.cycles := rfl
@[simp] theorem Upd.vi_parts (n : Nat) (v : Vi) (s : State) : ((Upd.vi n v).apply s).parts = s.parts := rfl
@[simp] theorem Upd.vi_vis (n : Nat) (v : Vi) (s : State) : ((Upd.vi n v).apply s).vis = Tab.set Vi.reset s.vis n v := rfl
@[simp] theorem Upd.vi_ctxs (n : Nat) (v : Vi) (s : State) : ((Upd.vi n v).apply s).ctxs = s.ctxs := rfl
@[simp] theorem Upd.vi_objs (n : Nat) (v : Vi) (s : State) : ((Upd.vi n v).apply s).objs = s.objs := rfl
@[simp] theorem Upd.vi_queues (n : Nat) (v : Vi) (s : State) : ((Upd.vi n v).apply s).queues = s.queues := rfl
@[simp] theorem Upd.vi_slots (n : Nat) (v : Vi) (s : State) : ((Upd.vi n v).apply s).slots = s.slots := rfl
@[simp] theorem Upd.vi_engines (n : Nat) (v : Vi) (s : State) : ((Upd.vi n v).apply s).engines = s.engines := rfl
@[simp] theorem Upd.vi_passes (n : Nat) (v : Vi) (s : State) : ((Upd.vi n v).apply s).passes = s.passes := rfl
@[simp] theorem Upd.vi_held (n : Nat) (v : Vi) (s : State) : ((Upd.vi n v).apply s).held = s.held := rfl
@[simp] theorem Upd.vi_groups (n : Nat) (v : Vi) (s : State) : ((Upd.vi n v).apply s).groups = s.groups := rfl
@[simp] theorem Upd.vi_announces (n : Nat) (v : Vi) (s : State) : ((Upd.vi n v).apply s).announces = s.announces := rfl
@[simp] theorem Upd.vi_jds (n : Nat) (v : Vi) (s : State) : ((Upd.vi n v).apply s).jds = s.jds := rfl
@[simp] theorem Upd.vi_links (n : Nat) (v : Vi) (s : State) : ((Upd.vi n v).apply s).links = s.links := rfl
@[simp] theorem Upd.vi_wctxs (n : Nat) (v : Vi) (s : State) : ((Upd.vi n v).apply s).wctxs = s.wctxs := rfl
@[simp] theorem Upd.vi_wcur (n : Nat) (v : Vi) (s : State) : ((Upd.vi n v).apply s).wcur = s.wcur := rfl
@[simp] theorem Upd.vi_imem (n : Nat) (v : Vi) (s : State) : ((Upd.vi n v).apply s).imem = s.imem := rfl
@[simp] theorem Upd.vi_wsets (n : Nat) (v : Vi) (s : State) : ((Upd.vi n v).apply s).wsets = s.wsets := rfl
@[simp] theorem Upd.vi_ft (n : Nat) (v : Vi) (s : State) : ((Upd.vi n v).apply s).ft = s.ft := rfl
@[simp] theorem Upd.vi_now (n : Nat) (v : Vi) (s : State) : ((Upd.vi n v).apply s).now = s.now := rfl
@[simp] theorem Upd.vi_mod (n : Nat) (v : Vi) (s : State) : ((Upd.vi n v).apply s).mod = s.mod := rfl
@[simp] theorem Upd.vi_seq (n : Nat) (v : Vi) (s : State) : ((Upd.vi n v).apply s).seq = s.seq := rfl
@[simp] theorem Upd.vi_powered (n : Nat) (v : Vi) (s : State) : ((Upd.vi n v).apply s).powered = s.powered := rfl
@[simp] theorem Upd.vi_agenda (n : Nat) (v : Vi) (s : State) : ((Upd.vi n v).apply s).agenda = s.agenda := rfl
@[simp] theorem Upd.vi_cur (n : Nat) (v : Vi) (s : State) : ((Upd.vi n v).apply s).cur = s.cur := rfl
@[simp] theorem Upd.vi_fresh (n : Nat) (v : Vi) (s : State) : ((Upd.vi n v).apply s).fresh = s.fresh := rfl
@[simp] theorem Upd.vi_outbox (n : Nat) (v : Vi) (s : State) : ((Upd.vi n v).apply s).outbox = s.outbox := rfl
@[simp] theorem Upd.ctx_mem (c : Nat) (v : Ctx) (s : State) : ((Upd.ctx c v).apply s).mem = s.mem := rfl
@[simp] theorem Upd.ctx_tags (c : Nat) (v : Ctx) (s : State) : ((Upd.ctx c v).apply s).tags = s.tags := rfl
@[simp] theorem Upd.ctx_poison (c : Nat) (v : Ctx) (s : State) : ((Upd.ctx c v).apply s).poison = s.poison := rfl
@[simp] theorem Upd.ctx_lines (c : Nat) (v : Ctx) (s : State) : ((Upd.ctx c v).apply s).lines = s.lines := rfl
@[simp] theorem Upd.ctx_wlog (c : Nat) (v : Ctx) (s : State) : ((Upd.ctx c v).apply s).wlog = s.wlog := rfl
@[simp] theorem Upd.ctx_tracks (c : Nat) (v : Ctx) (s : State) : ((Upd.ctx c v).apply s).tracks = s.tracks := rfl
@[simp] theorem Upd.ctx_tlbs (c : Nat) (v : Ctx) (s : State) : ((Upd.ctx c v).apply s).tlbs = s.tlbs := rfl
@[simp] theorem Upd.ctx_walks (c : Nat) (v : Ctx) (s : State) : ((Upd.ctx c v).apply s).walks = s.walks := rfl
@[simp] theorem Upd.ctx_crews (c : Nat) (v : Ctx) (s : State) : ((Upd.ctx c v).apply s).crews = s.crews := rfl
@[simp] theorem Upd.ctx_teams (c : Nat) (v : Ctx) (s : State) : ((Upd.ctx c v).apply s).teams = s.teams := rfl
@[simp] theorem Upd.ctx_cores (c : Nat) (v : Ctx) (s : State) : ((Upd.ctx c v).apply s).cores = s.cores := rfl
@[simp] theorem Upd.ctx_launches (c : Nat) (v : Ctx) (s : State) : ((Upd.ctx c v).apply s).launches = s.launches := rfl
@[simp] theorem Upd.ctx_pends (c : Nat) (v : Ctx) (s : State) : ((Upd.ctx c v).apply s).pends = s.pends := rfl
@[simp] theorem Upd.ctx_gangs (c : Nat) (v : Ctx) (s : State) : ((Upd.ctx c v).apply s).gangs = s.gangs := rfl
@[simp] theorem Upd.ctx_saved (c : Nat) (v : Ctx) (s : State) : ((Upd.ctx c v).apply s).saved = s.saved := rfl
@[simp] theorem Upd.ctx_coloc (c : Nat) (v : Ctx) (s : State) : ((Upd.ctx c v).apply s).coloc = s.coloc := rfl
@[simp] theorem Upd.ctx_cycles (c : Nat) (v : Ctx) (s : State) : ((Upd.ctx c v).apply s).cycles = s.cycles := rfl
@[simp] theorem Upd.ctx_parts (c : Nat) (v : Ctx) (s : State) : ((Upd.ctx c v).apply s).parts = s.parts := rfl
@[simp] theorem Upd.ctx_vis (c : Nat) (v : Ctx) (s : State) : ((Upd.ctx c v).apply s).vis = s.vis := rfl
@[simp] theorem Upd.ctx_ctxs (c : Nat) (v : Ctx) (s : State) : ((Upd.ctx c v).apply s).ctxs = Tab.set Ctx.reset s.ctxs c v := rfl
@[simp] theorem Upd.ctx_objs (c : Nat) (v : Ctx) (s : State) : ((Upd.ctx c v).apply s).objs = s.objs := rfl
@[simp] theorem Upd.ctx_queues (c : Nat) (v : Ctx) (s : State) : ((Upd.ctx c v).apply s).queues = s.queues := rfl
@[simp] theorem Upd.ctx_slots (c : Nat) (v : Ctx) (s : State) : ((Upd.ctx c v).apply s).slots = s.slots := rfl
@[simp] theorem Upd.ctx_engines (c : Nat) (v : Ctx) (s : State) : ((Upd.ctx c v).apply s).engines = s.engines := rfl
@[simp] theorem Upd.ctx_passes (c : Nat) (v : Ctx) (s : State) : ((Upd.ctx c v).apply s).passes = s.passes := rfl
@[simp] theorem Upd.ctx_held (c : Nat) (v : Ctx) (s : State) : ((Upd.ctx c v).apply s).held = s.held := rfl
@[simp] theorem Upd.ctx_groups (c : Nat) (v : Ctx) (s : State) : ((Upd.ctx c v).apply s).groups = s.groups := rfl
@[simp] theorem Upd.ctx_announces (c : Nat) (v : Ctx) (s : State) : ((Upd.ctx c v).apply s).announces = s.announces := rfl
@[simp] theorem Upd.ctx_jds (c : Nat) (v : Ctx) (s : State) : ((Upd.ctx c v).apply s).jds = s.jds := rfl
@[simp] theorem Upd.ctx_links (c : Nat) (v : Ctx) (s : State) : ((Upd.ctx c v).apply s).links = s.links := rfl
@[simp] theorem Upd.ctx_wctxs (c : Nat) (v : Ctx) (s : State) : ((Upd.ctx c v).apply s).wctxs = s.wctxs := rfl
@[simp] theorem Upd.ctx_wcur (c : Nat) (v : Ctx) (s : State) : ((Upd.ctx c v).apply s).wcur = s.wcur := rfl
@[simp] theorem Upd.ctx_imem (c : Nat) (v : Ctx) (s : State) : ((Upd.ctx c v).apply s).imem = s.imem := rfl
@[simp] theorem Upd.ctx_wsets (c : Nat) (v : Ctx) (s : State) : ((Upd.ctx c v).apply s).wsets = s.wsets := rfl
@[simp] theorem Upd.ctx_ft (c : Nat) (v : Ctx) (s : State) : ((Upd.ctx c v).apply s).ft = s.ft := rfl
@[simp] theorem Upd.ctx_now (c : Nat) (v : Ctx) (s : State) : ((Upd.ctx c v).apply s).now = s.now := rfl
@[simp] theorem Upd.ctx_mod (c : Nat) (v : Ctx) (s : State) : ((Upd.ctx c v).apply s).mod = s.mod := rfl
@[simp] theorem Upd.ctx_seq (c : Nat) (v : Ctx) (s : State) : ((Upd.ctx c v).apply s).seq = s.seq := rfl
@[simp] theorem Upd.ctx_powered (c : Nat) (v : Ctx) (s : State) : ((Upd.ctx c v).apply s).powered = s.powered := rfl
@[simp] theorem Upd.ctx_agenda (c : Nat) (v : Ctx) (s : State) : ((Upd.ctx c v).apply s).agenda = s.agenda := rfl
@[simp] theorem Upd.ctx_cur (c : Nat) (v : Ctx) (s : State) : ((Upd.ctx c v).apply s).cur = s.cur := rfl
@[simp] theorem Upd.ctx_fresh (c : Nat) (v : Ctx) (s : State) : ((Upd.ctx c v).apply s).fresh = s.fresh := rfl
@[simp] theorem Upd.ctx_outbox (c : Nat) (v : Ctx) (s : State) : ((Upd.ctx c v).apply s).outbox = s.outbox := rfl
@[simp] theorem Upd.obj_mem (h : Nat) (v : Option Obj) (s : State) : ((Upd.obj h v).apply s).mem = s.mem := rfl
@[simp] theorem Upd.obj_tags (h : Nat) (v : Option Obj) (s : State) : ((Upd.obj h v).apply s).tags = s.tags := rfl
@[simp] theorem Upd.obj_poison (h : Nat) (v : Option Obj) (s : State) : ((Upd.obj h v).apply s).poison = s.poison := rfl
@[simp] theorem Upd.obj_lines (h : Nat) (v : Option Obj) (s : State) : ((Upd.obj h v).apply s).lines = s.lines := rfl
@[simp] theorem Upd.obj_wlog (h : Nat) (v : Option Obj) (s : State) : ((Upd.obj h v).apply s).wlog = s.wlog := rfl
@[simp] theorem Upd.obj_tracks (h : Nat) (v : Option Obj) (s : State) : ((Upd.obj h v).apply s).tracks = s.tracks := rfl
@[simp] theorem Upd.obj_tlbs (h : Nat) (v : Option Obj) (s : State) : ((Upd.obj h v).apply s).tlbs = s.tlbs := rfl
@[simp] theorem Upd.obj_walks (h : Nat) (v : Option Obj) (s : State) : ((Upd.obj h v).apply s).walks = s.walks := rfl
@[simp] theorem Upd.obj_crews (h : Nat) (v : Option Obj) (s : State) : ((Upd.obj h v).apply s).crews = s.crews := rfl
@[simp] theorem Upd.obj_teams (h : Nat) (v : Option Obj) (s : State) : ((Upd.obj h v).apply s).teams = s.teams := rfl
@[simp] theorem Upd.obj_cores (h : Nat) (v : Option Obj) (s : State) : ((Upd.obj h v).apply s).cores = s.cores := rfl
@[simp] theorem Upd.obj_launches (h : Nat) (v : Option Obj) (s : State) : ((Upd.obj h v).apply s).launches = s.launches := rfl
@[simp] theorem Upd.obj_pends (h : Nat) (v : Option Obj) (s : State) : ((Upd.obj h v).apply s).pends = s.pends := rfl
@[simp] theorem Upd.obj_gangs (h : Nat) (v : Option Obj) (s : State) : ((Upd.obj h v).apply s).gangs = s.gangs := rfl
@[simp] theorem Upd.obj_saved (h : Nat) (v : Option Obj) (s : State) : ((Upd.obj h v).apply s).saved = s.saved := rfl
@[simp] theorem Upd.obj_coloc (h : Nat) (v : Option Obj) (s : State) : ((Upd.obj h v).apply s).coloc = s.coloc := rfl
@[simp] theorem Upd.obj_cycles (h : Nat) (v : Option Obj) (s : State) : ((Upd.obj h v).apply s).cycles = s.cycles := rfl
@[simp] theorem Upd.obj_parts (h : Nat) (v : Option Obj) (s : State) : ((Upd.obj h v).apply s).parts = s.parts := rfl
@[simp] theorem Upd.obj_vis (h : Nat) (v : Option Obj) (s : State) : ((Upd.obj h v).apply s).vis = s.vis := rfl
@[simp] theorem Upd.obj_ctxs (h : Nat) (v : Option Obj) (s : State) : ((Upd.obj h v).apply s).ctxs = s.ctxs := rfl
@[simp] theorem Upd.obj_objs (h : Nat) (v : Option Obj) (s : State) : ((Upd.obj h v).apply s).objs = Tab.upd s.objs h v := rfl
@[simp] theorem Upd.obj_queues (h : Nat) (v : Option Obj) (s : State) : ((Upd.obj h v).apply s).queues = s.queues := rfl
@[simp] theorem Upd.obj_slots (h : Nat) (v : Option Obj) (s : State) : ((Upd.obj h v).apply s).slots = s.slots := rfl
@[simp] theorem Upd.obj_engines (h : Nat) (v : Option Obj) (s : State) : ((Upd.obj h v).apply s).engines = s.engines := rfl
@[simp] theorem Upd.obj_passes (h : Nat) (v : Option Obj) (s : State) : ((Upd.obj h v).apply s).passes = s.passes := rfl
@[simp] theorem Upd.obj_held (h : Nat) (v : Option Obj) (s : State) : ((Upd.obj h v).apply s).held = s.held := rfl
@[simp] theorem Upd.obj_groups (h : Nat) (v : Option Obj) (s : State) : ((Upd.obj h v).apply s).groups = s.groups := rfl
@[simp] theorem Upd.obj_announces (h : Nat) (v : Option Obj) (s : State) : ((Upd.obj h v).apply s).announces = s.announces := rfl
@[simp] theorem Upd.obj_jds (h : Nat) (v : Option Obj) (s : State) : ((Upd.obj h v).apply s).jds = s.jds := rfl
@[simp] theorem Upd.obj_links (h : Nat) (v : Option Obj) (s : State) : ((Upd.obj h v).apply s).links = s.links := rfl
@[simp] theorem Upd.obj_wctxs (h : Nat) (v : Option Obj) (s : State) : ((Upd.obj h v).apply s).wctxs = s.wctxs := rfl
@[simp] theorem Upd.obj_wcur (h : Nat) (v : Option Obj) (s : State) : ((Upd.obj h v).apply s).wcur = s.wcur := rfl
@[simp] theorem Upd.obj_imem (h : Nat) (v : Option Obj) (s : State) : ((Upd.obj h v).apply s).imem = s.imem := rfl
@[simp] theorem Upd.obj_wsets (h : Nat) (v : Option Obj) (s : State) : ((Upd.obj h v).apply s).wsets = s.wsets := rfl
@[simp] theorem Upd.obj_ft (h : Nat) (v : Option Obj) (s : State) : ((Upd.obj h v).apply s).ft = s.ft := rfl
@[simp] theorem Upd.obj_now (h : Nat) (v : Option Obj) (s : State) : ((Upd.obj h v).apply s).now = s.now := rfl
@[simp] theorem Upd.obj_mod (h : Nat) (v : Option Obj) (s : State) : ((Upd.obj h v).apply s).mod = s.mod := rfl
@[simp] theorem Upd.obj_seq (h : Nat) (v : Option Obj) (s : State) : ((Upd.obj h v).apply s).seq = s.seq := rfl
@[simp] theorem Upd.obj_powered (h : Nat) (v : Option Obj) (s : State) : ((Upd.obj h v).apply s).powered = s.powered := rfl
@[simp] theorem Upd.obj_agenda (h : Nat) (v : Option Obj) (s : State) : ((Upd.obj h v).apply s).agenda = s.agenda := rfl
@[simp] theorem Upd.obj_cur (h : Nat) (v : Option Obj) (s : State) : ((Upd.obj h v).apply s).cur = s.cur := rfl
@[simp] theorem Upd.obj_fresh (h : Nat) (v : Option Obj) (s : State) : ((Upd.obj h v).apply s).fresh = s.fresh := rfl
@[simp] theorem Upd.obj_outbox (h : Nat) (v : Option Obj) (s : State) : ((Upd.obj h v).apply s).outbox = s.outbox := rfl
@[simp] theorem Upd.queue_mem (q : Nat) (v : Queue) (s : State) : ((Upd.queue q v).apply s).mem = s.mem := rfl
@[simp] theorem Upd.queue_tags (q : Nat) (v : Queue) (s : State) : ((Upd.queue q v).apply s).tags = s.tags := rfl
@[simp] theorem Upd.queue_poison (q : Nat) (v : Queue) (s : State) : ((Upd.queue q v).apply s).poison = s.poison := rfl
@[simp] theorem Upd.queue_lines (q : Nat) (v : Queue) (s : State) : ((Upd.queue q v).apply s).lines = s.lines := rfl
@[simp] theorem Upd.queue_wlog (q : Nat) (v : Queue) (s : State) : ((Upd.queue q v).apply s).wlog = s.wlog := rfl
@[simp] theorem Upd.queue_tracks (q : Nat) (v : Queue) (s : State) : ((Upd.queue q v).apply s).tracks = s.tracks := rfl
@[simp] theorem Upd.queue_tlbs (q : Nat) (v : Queue) (s : State) : ((Upd.queue q v).apply s).tlbs = s.tlbs := rfl
@[simp] theorem Upd.queue_walks (q : Nat) (v : Queue) (s : State) : ((Upd.queue q v).apply s).walks = s.walks := rfl
@[simp] theorem Upd.queue_crews (q : Nat) (v : Queue) (s : State) : ((Upd.queue q v).apply s).crews = s.crews := rfl
@[simp] theorem Upd.queue_teams (q : Nat) (v : Queue) (s : State) : ((Upd.queue q v).apply s).teams = s.teams := rfl
@[simp] theorem Upd.queue_cores (q : Nat) (v : Queue) (s : State) : ((Upd.queue q v).apply s).cores = s.cores := rfl
@[simp] theorem Upd.queue_launches (q : Nat) (v : Queue) (s : State) : ((Upd.queue q v).apply s).launches = s.launches := rfl
@[simp] theorem Upd.queue_pends (q : Nat) (v : Queue) (s : State) : ((Upd.queue q v).apply s).pends = s.pends := rfl
@[simp] theorem Upd.queue_gangs (q : Nat) (v : Queue) (s : State) : ((Upd.queue q v).apply s).gangs = s.gangs := rfl
@[simp] theorem Upd.queue_saved (q : Nat) (v : Queue) (s : State) : ((Upd.queue q v).apply s).saved = s.saved := rfl
@[simp] theorem Upd.queue_coloc (q : Nat) (v : Queue) (s : State) : ((Upd.queue q v).apply s).coloc = s.coloc := rfl
@[simp] theorem Upd.queue_cycles (q : Nat) (v : Queue) (s : State) : ((Upd.queue q v).apply s).cycles = s.cycles := rfl
@[simp] theorem Upd.queue_parts (q : Nat) (v : Queue) (s : State) : ((Upd.queue q v).apply s).parts = s.parts := rfl
@[simp] theorem Upd.queue_vis (q : Nat) (v : Queue) (s : State) : ((Upd.queue q v).apply s).vis = s.vis := rfl
@[simp] theorem Upd.queue_ctxs (q : Nat) (v : Queue) (s : State) : ((Upd.queue q v).apply s).ctxs = s.ctxs := rfl
@[simp] theorem Upd.queue_objs (q : Nat) (v : Queue) (s : State) : ((Upd.queue q v).apply s).objs = s.objs := rfl
@[simp] theorem Upd.queue_queues (q : Nat) (v : Queue) (s : State) : ((Upd.queue q v).apply s).queues = Tab.set Queue.reset s.queues q v := rfl
@[simp] theorem Upd.queue_slots (q : Nat) (v : Queue) (s : State) : ((Upd.queue q v).apply s).slots = s.slots := rfl
@[simp] theorem Upd.queue_engines (q : Nat) (v : Queue) (s : State) : ((Upd.queue q v).apply s).engines = s.engines := rfl
@[simp] theorem Upd.queue_passes (q : Nat) (v : Queue) (s : State) : ((Upd.queue q v).apply s).passes = s.passes := rfl
@[simp] theorem Upd.queue_held (q : Nat) (v : Queue) (s : State) : ((Upd.queue q v).apply s).held = s.held := rfl
@[simp] theorem Upd.queue_groups (q : Nat) (v : Queue) (s : State) : ((Upd.queue q v).apply s).groups = s.groups := rfl
@[simp] theorem Upd.queue_announces (q : Nat) (v : Queue) (s : State) : ((Upd.queue q v).apply s).announces = s.announces := rfl
@[simp] theorem Upd.queue_jds (q : Nat) (v : Queue) (s : State) : ((Upd.queue q v).apply s).jds = s.jds := rfl
@[simp] theorem Upd.queue_links (q : Nat) (v : Queue) (s : State) : ((Upd.queue q v).apply s).links = s.links := rfl
@[simp] theorem Upd.queue_wctxs (q : Nat) (v : Queue) (s : State) : ((Upd.queue q v).apply s).wctxs = s.wctxs := rfl
@[simp] theorem Upd.queue_wcur (q : Nat) (v : Queue) (s : State) : ((Upd.queue q v).apply s).wcur = s.wcur := rfl
@[simp] theorem Upd.queue_imem (q : Nat) (v : Queue) (s : State) : ((Upd.queue q v).apply s).imem = s.imem := rfl
@[simp] theorem Upd.queue_wsets (q : Nat) (v : Queue) (s : State) : ((Upd.queue q v).apply s).wsets = s.wsets := rfl
@[simp] theorem Upd.queue_ft (q : Nat) (v : Queue) (s : State) : ((Upd.queue q v).apply s).ft = s.ft := rfl
@[simp] theorem Upd.queue_now (q : Nat) (v : Queue) (s : State) : ((Upd.queue q v).apply s).now = s.now := rfl
@[simp] theorem Upd.queue_mod (q : Nat) (v : Queue) (s : State) : ((Upd.queue q v).apply s).mod = s.mod := rfl
@[simp] theorem Upd.queue_seq (q : Nat) (v : Queue) (s : State) : ((Upd.queue q v).apply s).seq = s.seq := rfl
@[simp] theorem Upd.queue_powered (q : Nat) (v : Queue) (s : State) : ((Upd.queue q v).apply s).powered = s.powered := rfl
@[simp] theorem Upd.queue_agenda (q : Nat) (v : Queue) (s : State) : ((Upd.queue q v).apply s).agenda = s.agenda := rfl
@[simp] theorem Upd.queue_cur (q : Nat) (v : Queue) (s : State) : ((Upd.queue q v).apply s).cur = s.cur := rfl
@[simp] theorem Upd.queue_fresh (q : Nat) (v : Queue) (s : State) : ((Upd.queue q v).apply s).fresh = s.fresh := rfl
@[simp] theorem Upd.queue_outbox (q : Nat) (v : Queue) (s : State) : ((Upd.queue q v).apply s).outbox = s.outbox := rfl
@[simp] theorem Upd.slot_mem (n : Nat) (v : Slot) (s : State) : ((Upd.slot n v).apply s).mem = s.mem := rfl
@[simp] theorem Upd.slot_tags (n : Nat) (v : Slot) (s : State) : ((Upd.slot n v).apply s).tags = s.tags := rfl
@[simp] theorem Upd.slot_poison (n : Nat) (v : Slot) (s : State) : ((Upd.slot n v).apply s).poison = s.poison := rfl
@[simp] theorem Upd.slot_lines (n : Nat) (v : Slot) (s : State) : ((Upd.slot n v).apply s).lines = s.lines := rfl
@[simp] theorem Upd.slot_wlog (n : Nat) (v : Slot) (s : State) : ((Upd.slot n v).apply s).wlog = s.wlog := rfl
@[simp] theorem Upd.slot_tracks (n : Nat) (v : Slot) (s : State) : ((Upd.slot n v).apply s).tracks = s.tracks := rfl
@[simp] theorem Upd.slot_tlbs (n : Nat) (v : Slot) (s : State) : ((Upd.slot n v).apply s).tlbs = s.tlbs := rfl
@[simp] theorem Upd.slot_walks (n : Nat) (v : Slot) (s : State) : ((Upd.slot n v).apply s).walks = s.walks := rfl
@[simp] theorem Upd.slot_crews (n : Nat) (v : Slot) (s : State) : ((Upd.slot n v).apply s).crews = s.crews := rfl
@[simp] theorem Upd.slot_teams (n : Nat) (v : Slot) (s : State) : ((Upd.slot n v).apply s).teams = s.teams := rfl
@[simp] theorem Upd.slot_cores (n : Nat) (v : Slot) (s : State) : ((Upd.slot n v).apply s).cores = s.cores := rfl
@[simp] theorem Upd.slot_launches (n : Nat) (v : Slot) (s : State) : ((Upd.slot n v).apply s).launches = s.launches := rfl
@[simp] theorem Upd.slot_pends (n : Nat) (v : Slot) (s : State) : ((Upd.slot n v).apply s).pends = s.pends := rfl
@[simp] theorem Upd.slot_gangs (n : Nat) (v : Slot) (s : State) : ((Upd.slot n v).apply s).gangs = s.gangs := rfl
@[simp] theorem Upd.slot_saved (n : Nat) (v : Slot) (s : State) : ((Upd.slot n v).apply s).saved = s.saved := rfl
@[simp] theorem Upd.slot_coloc (n : Nat) (v : Slot) (s : State) : ((Upd.slot n v).apply s).coloc = s.coloc := rfl
@[simp] theorem Upd.slot_cycles (n : Nat) (v : Slot) (s : State) : ((Upd.slot n v).apply s).cycles = s.cycles := rfl
@[simp] theorem Upd.slot_parts (n : Nat) (v : Slot) (s : State) : ((Upd.slot n v).apply s).parts = s.parts := rfl
@[simp] theorem Upd.slot_vis (n : Nat) (v : Slot) (s : State) : ((Upd.slot n v).apply s).vis = s.vis := rfl
@[simp] theorem Upd.slot_ctxs (n : Nat) (v : Slot) (s : State) : ((Upd.slot n v).apply s).ctxs = s.ctxs := rfl
@[simp] theorem Upd.slot_objs (n : Nat) (v : Slot) (s : State) : ((Upd.slot n v).apply s).objs = s.objs := rfl
@[simp] theorem Upd.slot_queues (n : Nat) (v : Slot) (s : State) : ((Upd.slot n v).apply s).queues = s.queues := rfl
@[simp] theorem Upd.slot_slots (n : Nat) (v : Slot) (s : State) : ((Upd.slot n v).apply s).slots = Tab.set Slot.reset s.slots n v := rfl
@[simp] theorem Upd.slot_engines (n : Nat) (v : Slot) (s : State) : ((Upd.slot n v).apply s).engines = s.engines := rfl
@[simp] theorem Upd.slot_passes (n : Nat) (v : Slot) (s : State) : ((Upd.slot n v).apply s).passes = s.passes := rfl
@[simp] theorem Upd.slot_held (n : Nat) (v : Slot) (s : State) : ((Upd.slot n v).apply s).held = s.held := rfl
@[simp] theorem Upd.slot_groups (n : Nat) (v : Slot) (s : State) : ((Upd.slot n v).apply s).groups = s.groups := rfl
@[simp] theorem Upd.slot_announces (n : Nat) (v : Slot) (s : State) : ((Upd.slot n v).apply s).announces = s.announces := rfl
@[simp] theorem Upd.slot_jds (n : Nat) (v : Slot) (s : State) : ((Upd.slot n v).apply s).jds = s.jds := rfl
@[simp] theorem Upd.slot_links (n : Nat) (v : Slot) (s : State) : ((Upd.slot n v).apply s).links = s.links := rfl
@[simp] theorem Upd.slot_wctxs (n : Nat) (v : Slot) (s : State) : ((Upd.slot n v).apply s).wctxs = s.wctxs := rfl
@[simp] theorem Upd.slot_wcur (n : Nat) (v : Slot) (s : State) : ((Upd.slot n v).apply s).wcur = s.wcur := rfl
@[simp] theorem Upd.slot_imem (n : Nat) (v : Slot) (s : State) : ((Upd.slot n v).apply s).imem = s.imem := rfl
@[simp] theorem Upd.slot_wsets (n : Nat) (v : Slot) (s : State) : ((Upd.slot n v).apply s).wsets = s.wsets := rfl
@[simp] theorem Upd.slot_ft (n : Nat) (v : Slot) (s : State) : ((Upd.slot n v).apply s).ft = s.ft := rfl
@[simp] theorem Upd.slot_now (n : Nat) (v : Slot) (s : State) : ((Upd.slot n v).apply s).now = s.now := rfl
@[simp] theorem Upd.slot_mod (n : Nat) (v : Slot) (s : State) : ((Upd.slot n v).apply s).mod = s.mod := rfl
@[simp] theorem Upd.slot_seq (n : Nat) (v : Slot) (s : State) : ((Upd.slot n v).apply s).seq = s.seq := rfl
@[simp] theorem Upd.slot_powered (n : Nat) (v : Slot) (s : State) : ((Upd.slot n v).apply s).powered = s.powered := rfl
@[simp] theorem Upd.slot_agenda (n : Nat) (v : Slot) (s : State) : ((Upd.slot n v).apply s).agenda = s.agenda := rfl
@[simp] theorem Upd.slot_cur (n : Nat) (v : Slot) (s : State) : ((Upd.slot n v).apply s).cur = s.cur := rfl
@[simp] theorem Upd.slot_fresh (n : Nat) (v : Slot) (s : State) : ((Upd.slot n v).apply s).fresh = s.fresh := rfl
@[simp] theorem Upd.slot_outbox (n : Nat) (v : Slot) (s : State) : ((Upd.slot n v).apply s).outbox = s.outbox := rfl
@[simp] theorem Upd.engine_mem (n : Nat) (v : Option EngOp) (s : State) : ((Upd.engine n v).apply s).mem = s.mem := rfl
@[simp] theorem Upd.engine_tags (n : Nat) (v : Option EngOp) (s : State) : ((Upd.engine n v).apply s).tags = s.tags := rfl
@[simp] theorem Upd.engine_poison (n : Nat) (v : Option EngOp) (s : State) : ((Upd.engine n v).apply s).poison = s.poison := rfl
@[simp] theorem Upd.engine_lines (n : Nat) (v : Option EngOp) (s : State) : ((Upd.engine n v).apply s).lines = s.lines := rfl
@[simp] theorem Upd.engine_wlog (n : Nat) (v : Option EngOp) (s : State) : ((Upd.engine n v).apply s).wlog = s.wlog := rfl
@[simp] theorem Upd.engine_tracks (n : Nat) (v : Option EngOp) (s : State) : ((Upd.engine n v).apply s).tracks = s.tracks := rfl
@[simp] theorem Upd.engine_tlbs (n : Nat) (v : Option EngOp) (s : State) : ((Upd.engine n v).apply s).tlbs = s.tlbs := rfl
@[simp] theorem Upd.engine_walks (n : Nat) (v : Option EngOp) (s : State) : ((Upd.engine n v).apply s).walks = s.walks := rfl
@[simp] theorem Upd.engine_crews (n : Nat) (v : Option EngOp) (s : State) : ((Upd.engine n v).apply s).crews = s.crews := rfl
@[simp] theorem Upd.engine_teams (n : Nat) (v : Option EngOp) (s : State) : ((Upd.engine n v).apply s).teams = s.teams := rfl
@[simp] theorem Upd.engine_cores (n : Nat) (v : Option EngOp) (s : State) : ((Upd.engine n v).apply s).cores = s.cores := rfl
@[simp] theorem Upd.engine_launches (n : Nat) (v : Option EngOp) (s : State) : ((Upd.engine n v).apply s).launches = s.launches := rfl
@[simp] theorem Upd.engine_pends (n : Nat) (v : Option EngOp) (s : State) : ((Upd.engine n v).apply s).pends = s.pends := rfl
@[simp] theorem Upd.engine_gangs (n : Nat) (v : Option EngOp) (s : State) : ((Upd.engine n v).apply s).gangs = s.gangs := rfl
@[simp] theorem Upd.engine_saved (n : Nat) (v : Option EngOp) (s : State) : ((Upd.engine n v).apply s).saved = s.saved := rfl
@[simp] theorem Upd.engine_coloc (n : Nat) (v : Option EngOp) (s : State) : ((Upd.engine n v).apply s).coloc = s.coloc := rfl
@[simp] theorem Upd.engine_cycles (n : Nat) (v : Option EngOp) (s : State) : ((Upd.engine n v).apply s).cycles = s.cycles := rfl
@[simp] theorem Upd.engine_parts (n : Nat) (v : Option EngOp) (s : State) : ((Upd.engine n v).apply s).parts = s.parts := rfl
@[simp] theorem Upd.engine_vis (n : Nat) (v : Option EngOp) (s : State) : ((Upd.engine n v).apply s).vis = s.vis := rfl
@[simp] theorem Upd.engine_ctxs (n : Nat) (v : Option EngOp) (s : State) : ((Upd.engine n v).apply s).ctxs = s.ctxs := rfl
@[simp] theorem Upd.engine_objs (n : Nat) (v : Option EngOp) (s : State) : ((Upd.engine n v).apply s).objs = s.objs := rfl
@[simp] theorem Upd.engine_queues (n : Nat) (v : Option EngOp) (s : State) : ((Upd.engine n v).apply s).queues = s.queues := rfl
@[simp] theorem Upd.engine_slots (n : Nat) (v : Option EngOp) (s : State) : ((Upd.engine n v).apply s).slots = s.slots := rfl
@[simp] theorem Upd.engine_engines (n : Nat) (v : Option EngOp) (s : State) : ((Upd.engine n v).apply s).engines = Tab.upd s.engines n v := rfl
@[simp] theorem Upd.engine_passes (n : Nat) (v : Option EngOp) (s : State) : ((Upd.engine n v).apply s).passes = s.passes := rfl
@[simp] theorem Upd.engine_held (n : Nat) (v : Option EngOp) (s : State) : ((Upd.engine n v).apply s).held = s.held := rfl
@[simp] theorem Upd.engine_groups (n : Nat) (v : Option EngOp) (s : State) : ((Upd.engine n v).apply s).groups = s.groups := rfl
@[simp] theorem Upd.engine_announces (n : Nat) (v : Option EngOp) (s : State) : ((Upd.engine n v).apply s).announces = s.announces := rfl
@[simp] theorem Upd.engine_jds (n : Nat) (v : Option EngOp) (s : State) : ((Upd.engine n v).apply s).jds = s.jds := rfl
@[simp] theorem Upd.engine_links (n : Nat) (v : Option EngOp) (s : State) : ((Upd.engine n v).apply s).links = s.links := rfl
@[simp] theorem Upd.engine_wctxs (n : Nat) (v : Option EngOp) (s : State) : ((Upd.engine n v).apply s).wctxs = s.wctxs := rfl
@[simp] theorem Upd.engine_wcur (n : Nat) (v : Option EngOp) (s : State) : ((Upd.engine n v).apply s).wcur = s.wcur := rfl
@[simp] theorem Upd.engine_imem (n : Nat) (v : Option EngOp) (s : State) : ((Upd.engine n v).apply s).imem = s.imem := rfl
@[simp] theorem Upd.engine_wsets (n : Nat) (v : Option EngOp) (s : State) : ((Upd.engine n v).apply s).wsets = s.wsets := rfl
@[simp] theorem Upd.engine_ft (n : Nat) (v : Option EngOp) (s : State) : ((Upd.engine n v).apply s).ft = s.ft := rfl
@[simp] theorem Upd.engine_now (n : Nat) (v : Option EngOp) (s : State) : ((Upd.engine n v).apply s).now = s.now := rfl
@[simp] theorem Upd.engine_mod (n : Nat) (v : Option EngOp) (s : State) : ((Upd.engine n v).apply s).mod = s.mod := rfl
@[simp] theorem Upd.engine_seq (n : Nat) (v : Option EngOp) (s : State) : ((Upd.engine n v).apply s).seq = s.seq := rfl
@[simp] theorem Upd.engine_powered (n : Nat) (v : Option EngOp) (s : State) : ((Upd.engine n v).apply s).powered = s.powered := rfl
@[simp] theorem Upd.engine_agenda (n : Nat) (v : Option EngOp) (s : State) : ((Upd.engine n v).apply s).agenda = s.agenda := rfl
@[simp] theorem Upd.engine_cur (n : Nat) (v : Option EngOp) (s : State) : ((Upd.engine n v).apply s).cur = s.cur := rfl
@[simp] theorem Upd.engine_fresh (n : Nat) (v : Option EngOp) (s : State) : ((Upd.engine n v).apply s).fresh = s.fresh := rfl
@[simp] theorem Upd.engine_outbox (n : Nat) (v : Option EngOp) (s : State) : ((Upd.engine n v).apply s).outbox = s.outbox := rfl
@[simp] theorem Upd.passSet_mem (n : Nat) (v : Option PassSet) (s : State) : ((Upd.passSet n v).apply s).mem = s.mem := rfl
@[simp] theorem Upd.passSet_tags (n : Nat) (v : Option PassSet) (s : State) : ((Upd.passSet n v).apply s).tags = s.tags := rfl
@[simp] theorem Upd.passSet_poison (n : Nat) (v : Option PassSet) (s : State) : ((Upd.passSet n v).apply s).poison = s.poison := rfl
@[simp] theorem Upd.passSet_lines (n : Nat) (v : Option PassSet) (s : State) : ((Upd.passSet n v).apply s).lines = s.lines := rfl
@[simp] theorem Upd.passSet_wlog (n : Nat) (v : Option PassSet) (s : State) : ((Upd.passSet n v).apply s).wlog = s.wlog := rfl
@[simp] theorem Upd.passSet_tracks (n : Nat) (v : Option PassSet) (s : State) : ((Upd.passSet n v).apply s).tracks = s.tracks := rfl
@[simp] theorem Upd.passSet_tlbs (n : Nat) (v : Option PassSet) (s : State) : ((Upd.passSet n v).apply s).tlbs = s.tlbs := rfl
@[simp] theorem Upd.passSet_walks (n : Nat) (v : Option PassSet) (s : State) : ((Upd.passSet n v).apply s).walks = s.walks := rfl
@[simp] theorem Upd.passSet_crews (n : Nat) (v : Option PassSet) (s : State) : ((Upd.passSet n v).apply s).crews = s.crews := rfl
@[simp] theorem Upd.passSet_teams (n : Nat) (v : Option PassSet) (s : State) : ((Upd.passSet n v).apply s).teams = s.teams := rfl
@[simp] theorem Upd.passSet_cores (n : Nat) (v : Option PassSet) (s : State) : ((Upd.passSet n v).apply s).cores = s.cores := rfl
@[simp] theorem Upd.passSet_launches (n : Nat) (v : Option PassSet) (s : State) : ((Upd.passSet n v).apply s).launches = s.launches := rfl
@[simp] theorem Upd.passSet_pends (n : Nat) (v : Option PassSet) (s : State) : ((Upd.passSet n v).apply s).pends = s.pends := rfl
@[simp] theorem Upd.passSet_gangs (n : Nat) (v : Option PassSet) (s : State) : ((Upd.passSet n v).apply s).gangs = s.gangs := rfl
@[simp] theorem Upd.passSet_saved (n : Nat) (v : Option PassSet) (s : State) : ((Upd.passSet n v).apply s).saved = s.saved := rfl
@[simp] theorem Upd.passSet_coloc (n : Nat) (v : Option PassSet) (s : State) : ((Upd.passSet n v).apply s).coloc = s.coloc := rfl
@[simp] theorem Upd.passSet_cycles (n : Nat) (v : Option PassSet) (s : State) : ((Upd.passSet n v).apply s).cycles = s.cycles := rfl
@[simp] theorem Upd.passSet_parts (n : Nat) (v : Option PassSet) (s : State) : ((Upd.passSet n v).apply s).parts = s.parts := rfl
@[simp] theorem Upd.passSet_vis (n : Nat) (v : Option PassSet) (s : State) : ((Upd.passSet n v).apply s).vis = s.vis := rfl
@[simp] theorem Upd.passSet_ctxs (n : Nat) (v : Option PassSet) (s : State) : ((Upd.passSet n v).apply s).ctxs = s.ctxs := rfl
@[simp] theorem Upd.passSet_objs (n : Nat) (v : Option PassSet) (s : State) : ((Upd.passSet n v).apply s).objs = s.objs := rfl
@[simp] theorem Upd.passSet_queues (n : Nat) (v : Option PassSet) (s : State) : ((Upd.passSet n v).apply s).queues = s.queues := rfl
@[simp] theorem Upd.passSet_slots (n : Nat) (v : Option PassSet) (s : State) : ((Upd.passSet n v).apply s).slots = s.slots := rfl
@[simp] theorem Upd.passSet_engines (n : Nat) (v : Option PassSet) (s : State) : ((Upd.passSet n v).apply s).engines = s.engines := rfl
@[simp] theorem Upd.passSet_passes (n : Nat) (v : Option PassSet) (s : State) : ((Upd.passSet n v).apply s).passes = Tab.upd s.passes n v := rfl
@[simp] theorem Upd.passSet_held (n : Nat) (v : Option PassSet) (s : State) : ((Upd.passSet n v).apply s).held = s.held := rfl
@[simp] theorem Upd.passSet_groups (n : Nat) (v : Option PassSet) (s : State) : ((Upd.passSet n v).apply s).groups = s.groups := rfl
@[simp] theorem Upd.passSet_announces (n : Nat) (v : Option PassSet) (s : State) : ((Upd.passSet n v).apply s).announces = s.announces := rfl
@[simp] theorem Upd.passSet_jds (n : Nat) (v : Option PassSet) (s : State) : ((Upd.passSet n v).apply s).jds = s.jds := rfl
@[simp] theorem Upd.passSet_links (n : Nat) (v : Option PassSet) (s : State) : ((Upd.passSet n v).apply s).links = s.links := rfl
@[simp] theorem Upd.passSet_wctxs (n : Nat) (v : Option PassSet) (s : State) : ((Upd.passSet n v).apply s).wctxs = s.wctxs := rfl
@[simp] theorem Upd.passSet_wcur (n : Nat) (v : Option PassSet) (s : State) : ((Upd.passSet n v).apply s).wcur = s.wcur := rfl
@[simp] theorem Upd.passSet_imem (n : Nat) (v : Option PassSet) (s : State) : ((Upd.passSet n v).apply s).imem = s.imem := rfl
@[simp] theorem Upd.passSet_wsets (n : Nat) (v : Option PassSet) (s : State) : ((Upd.passSet n v).apply s).wsets = s.wsets := rfl
@[simp] theorem Upd.passSet_ft (n : Nat) (v : Option PassSet) (s : State) : ((Upd.passSet n v).apply s).ft = s.ft := rfl
@[simp] theorem Upd.passSet_now (n : Nat) (v : Option PassSet) (s : State) : ((Upd.passSet n v).apply s).now = s.now := rfl
@[simp] theorem Upd.passSet_mod (n : Nat) (v : Option PassSet) (s : State) : ((Upd.passSet n v).apply s).mod = s.mod := rfl
@[simp] theorem Upd.passSet_seq (n : Nat) (v : Option PassSet) (s : State) : ((Upd.passSet n v).apply s).seq = s.seq := rfl
@[simp] theorem Upd.passSet_powered (n : Nat) (v : Option PassSet) (s : State) : ((Upd.passSet n v).apply s).powered = s.powered := rfl
@[simp] theorem Upd.passSet_agenda (n : Nat) (v : Option PassSet) (s : State) : ((Upd.passSet n v).apply s).agenda = s.agenda := rfl
@[simp] theorem Upd.passSet_cur (n : Nat) (v : Option PassSet) (s : State) : ((Upd.passSet n v).apply s).cur = s.cur := rfl
@[simp] theorem Upd.passSet_fresh (n : Nat) (v : Option PassSet) (s : State) : ((Upd.passSet n v).apply s).fresh = s.fresh := rfl
@[simp] theorem Upd.passSet_outbox (n : Nat) (v : Option PassSet) (s : State) : ((Upd.passSet n v).apply s).outbox = s.outbox := rfl
@[simp] theorem Upd.held_mem (v : List HeldPass) (s : State) : ((Upd.held v).apply s).mem = s.mem := rfl
@[simp] theorem Upd.held_tags (v : List HeldPass) (s : State) : ((Upd.held v).apply s).tags = s.tags := rfl
@[simp] theorem Upd.held_poison (v : List HeldPass) (s : State) : ((Upd.held v).apply s).poison = s.poison := rfl
@[simp] theorem Upd.held_lines (v : List HeldPass) (s : State) : ((Upd.held v).apply s).lines = s.lines := rfl
@[simp] theorem Upd.held_wlog (v : List HeldPass) (s : State) : ((Upd.held v).apply s).wlog = s.wlog := rfl
@[simp] theorem Upd.held_tracks (v : List HeldPass) (s : State) : ((Upd.held v).apply s).tracks = s.tracks := rfl
@[simp] theorem Upd.held_tlbs (v : List HeldPass) (s : State) : ((Upd.held v).apply s).tlbs = s.tlbs := rfl
@[simp] theorem Upd.held_walks (v : List HeldPass) (s : State) : ((Upd.held v).apply s).walks = s.walks := rfl
@[simp] theorem Upd.held_crews (v : List HeldPass) (s : State) : ((Upd.held v).apply s).crews = s.crews := rfl
@[simp] theorem Upd.held_teams (v : List HeldPass) (s : State) : ((Upd.held v).apply s).teams = s.teams := rfl
@[simp] theorem Upd.held_cores (v : List HeldPass) (s : State) : ((Upd.held v).apply s).cores = s.cores := rfl
@[simp] theorem Upd.held_launches (v : List HeldPass) (s : State) : ((Upd.held v).apply s).launches = s.launches := rfl
@[simp] theorem Upd.held_pends (v : List HeldPass) (s : State) : ((Upd.held v).apply s).pends = s.pends := rfl
@[simp] theorem Upd.held_gangs (v : List HeldPass) (s : State) : ((Upd.held v).apply s).gangs = s.gangs := rfl
@[simp] theorem Upd.held_saved (v : List HeldPass) (s : State) : ((Upd.held v).apply s).saved = s.saved := rfl
@[simp] theorem Upd.held_coloc (v : List HeldPass) (s : State) : ((Upd.held v).apply s).coloc = s.coloc := rfl
@[simp] theorem Upd.held_cycles (v : List HeldPass) (s : State) : ((Upd.held v).apply s).cycles = s.cycles := rfl
@[simp] theorem Upd.held_parts (v : List HeldPass) (s : State) : ((Upd.held v).apply s).parts = s.parts := rfl
@[simp] theorem Upd.held_vis (v : List HeldPass) (s : State) : ((Upd.held v).apply s).vis = s.vis := rfl
@[simp] theorem Upd.held_ctxs (v : List HeldPass) (s : State) : ((Upd.held v).apply s).ctxs = s.ctxs := rfl
@[simp] theorem Upd.held_objs (v : List HeldPass) (s : State) : ((Upd.held v).apply s).objs = s.objs := rfl
@[simp] theorem Upd.held_queues (v : List HeldPass) (s : State) : ((Upd.held v).apply s).queues = s.queues := rfl
@[simp] theorem Upd.held_slots (v : List HeldPass) (s : State) : ((Upd.held v).apply s).slots = s.slots := rfl
@[simp] theorem Upd.held_engines (v : List HeldPass) (s : State) : ((Upd.held v).apply s).engines = s.engines := rfl
@[simp] theorem Upd.held_passes (v : List HeldPass) (s : State) : ((Upd.held v).apply s).passes = s.passes := rfl
@[simp] theorem Upd.held_held (v : List HeldPass) (s : State) : ((Upd.held v).apply s).held = v := rfl
@[simp] theorem Upd.held_groups (v : List HeldPass) (s : State) : ((Upd.held v).apply s).groups = s.groups := rfl
@[simp] theorem Upd.held_announces (v : List HeldPass) (s : State) : ((Upd.held v).apply s).announces = s.announces := rfl
@[simp] theorem Upd.held_jds (v : List HeldPass) (s : State) : ((Upd.held v).apply s).jds = s.jds := rfl
@[simp] theorem Upd.held_links (v : List HeldPass) (s : State) : ((Upd.held v).apply s).links = s.links := rfl
@[simp] theorem Upd.held_wctxs (v : List HeldPass) (s : State) : ((Upd.held v).apply s).wctxs = s.wctxs := rfl
@[simp] theorem Upd.held_wcur (v : List HeldPass) (s : State) : ((Upd.held v).apply s).wcur = s.wcur := rfl
@[simp] theorem Upd.held_imem (v : List HeldPass) (s : State) : ((Upd.held v).apply s).imem = s.imem := rfl
@[simp] theorem Upd.held_wsets (v : List HeldPass) (s : State) : ((Upd.held v).apply s).wsets = s.wsets := rfl
@[simp] theorem Upd.held_ft (v : List HeldPass) (s : State) : ((Upd.held v).apply s).ft = s.ft := rfl
@[simp] theorem Upd.held_now (v : List HeldPass) (s : State) : ((Upd.held v).apply s).now = s.now := rfl
@[simp] theorem Upd.held_mod (v : List HeldPass) (s : State) : ((Upd.held v).apply s).mod = s.mod := rfl
@[simp] theorem Upd.held_seq (v : List HeldPass) (s : State) : ((Upd.held v).apply s).seq = s.seq := rfl
@[simp] theorem Upd.held_powered (v : List HeldPass) (s : State) : ((Upd.held v).apply s).powered = s.powered := rfl
@[simp] theorem Upd.held_agenda (v : List HeldPass) (s : State) : ((Upd.held v).apply s).agenda = s.agenda := rfl
@[simp] theorem Upd.held_cur (v : List HeldPass) (s : State) : ((Upd.held v).apply s).cur = s.cur := rfl
@[simp] theorem Upd.held_fresh (v : List HeldPass) (s : State) : ((Upd.held v).apply s).fresh = s.fresh := rfl
@[simp] theorem Upd.held_outbox (v : List HeldPass) (s : State) : ((Upd.held v).apply s).outbox = s.outbox := rfl
@[simp] theorem Upd.groups_mem (k : Nat) (v : List Nat) (s : State) : ((Upd.groups k v).apply s).mem = s.mem := rfl
@[simp] theorem Upd.groups_tags (k : Nat) (v : List Nat) (s : State) : ((Upd.groups k v).apply s).tags = s.tags := rfl
@[simp] theorem Upd.groups_poison (k : Nat) (v : List Nat) (s : State) : ((Upd.groups k v).apply s).poison = s.poison := rfl
@[simp] theorem Upd.groups_lines (k : Nat) (v : List Nat) (s : State) : ((Upd.groups k v).apply s).lines = s.lines := rfl
@[simp] theorem Upd.groups_wlog (k : Nat) (v : List Nat) (s : State) : ((Upd.groups k v).apply s).wlog = s.wlog := rfl
@[simp] theorem Upd.groups_tracks (k : Nat) (v : List Nat) (s : State) : ((Upd.groups k v).apply s).tracks = s.tracks := rfl
@[simp] theorem Upd.groups_tlbs (k : Nat) (v : List Nat) (s : State) : ((Upd.groups k v).apply s).tlbs = s.tlbs := rfl
@[simp] theorem Upd.groups_walks (k : Nat) (v : List Nat) (s : State) : ((Upd.groups k v).apply s).walks = s.walks := rfl
@[simp] theorem Upd.groups_crews (k : Nat) (v : List Nat) (s : State) : ((Upd.groups k v).apply s).crews = s.crews := rfl
@[simp] theorem Upd.groups_teams (k : Nat) (v : List Nat) (s : State) : ((Upd.groups k v).apply s).teams = s.teams := rfl
@[simp] theorem Upd.groups_cores (k : Nat) (v : List Nat) (s : State) : ((Upd.groups k v).apply s).cores = s.cores := rfl
@[simp] theorem Upd.groups_launches (k : Nat) (v : List Nat) (s : State) : ((Upd.groups k v).apply s).launches = s.launches := rfl
@[simp] theorem Upd.groups_pends (k : Nat) (v : List Nat) (s : State) : ((Upd.groups k v).apply s).pends = s.pends := rfl
@[simp] theorem Upd.groups_gangs (k : Nat) (v : List Nat) (s : State) : ((Upd.groups k v).apply s).gangs = s.gangs := rfl
@[simp] theorem Upd.groups_saved (k : Nat) (v : List Nat) (s : State) : ((Upd.groups k v).apply s).saved = s.saved := rfl
@[simp] theorem Upd.groups_coloc (k : Nat) (v : List Nat) (s : State) : ((Upd.groups k v).apply s).coloc = s.coloc := rfl
@[simp] theorem Upd.groups_cycles (k : Nat) (v : List Nat) (s : State) : ((Upd.groups k v).apply s).cycles = s.cycles := rfl
@[simp] theorem Upd.groups_parts (k : Nat) (v : List Nat) (s : State) : ((Upd.groups k v).apply s).parts = s.parts := rfl
@[simp] theorem Upd.groups_vis (k : Nat) (v : List Nat) (s : State) : ((Upd.groups k v).apply s).vis = s.vis := rfl
@[simp] theorem Upd.groups_ctxs (k : Nat) (v : List Nat) (s : State) : ((Upd.groups k v).apply s).ctxs = s.ctxs := rfl
@[simp] theorem Upd.groups_objs (k : Nat) (v : List Nat) (s : State) : ((Upd.groups k v).apply s).objs = s.objs := rfl
@[simp] theorem Upd.groups_queues (k : Nat) (v : List Nat) (s : State) : ((Upd.groups k v).apply s).queues = s.queues := rfl
@[simp] theorem Upd.groups_slots (k : Nat) (v : List Nat) (s : State) : ((Upd.groups k v).apply s).slots = s.slots := rfl
@[simp] theorem Upd.groups_engines (k : Nat) (v : List Nat) (s : State) : ((Upd.groups k v).apply s).engines = s.engines := rfl
@[simp] theorem Upd.groups_passes (k : Nat) (v : List Nat) (s : State) : ((Upd.groups k v).apply s).passes = s.passes := rfl
@[simp] theorem Upd.groups_held (k : Nat) (v : List Nat) (s : State) : ((Upd.groups k v).apply s).held = s.held := rfl
@[simp] theorem Upd.groups_groups (k : Nat) (v : List Nat) (s : State) : ((Upd.groups k v).apply s).groups = Tab.set [] s.groups k v := rfl
@[simp] theorem Upd.groups_announces (k : Nat) (v : List Nat) (s : State) : ((Upd.groups k v).apply s).announces = s.announces := rfl
@[simp] theorem Upd.groups_jds (k : Nat) (v : List Nat) (s : State) : ((Upd.groups k v).apply s).jds = s.jds := rfl
@[simp] theorem Upd.groups_links (k : Nat) (v : List Nat) (s : State) : ((Upd.groups k v).apply s).links = s.links := rfl
@[simp] theorem Upd.groups_wctxs (k : Nat) (v : List Nat) (s : State) : ((Upd.groups k v).apply s).wctxs = s.wctxs := rfl
@[simp] theorem Upd.groups_wcur (k : Nat) (v : List Nat) (s : State) : ((Upd.groups k v).apply s).wcur = s.wcur := rfl
@[simp] theorem Upd.groups_imem (k : Nat) (v : List Nat) (s : State) : ((Upd.groups k v).apply s).imem = s.imem := rfl
@[simp] theorem Upd.groups_wsets (k : Nat) (v : List Nat) (s : State) : ((Upd.groups k v).apply s).wsets = s.wsets := rfl
@[simp] theorem Upd.groups_ft (k : Nat) (v : List Nat) (s : State) : ((Upd.groups k v).apply s).ft = s.ft := rfl
@[simp] theorem Upd.groups_now (k : Nat) (v : List Nat) (s : State) : ((Upd.groups k v).apply s).now = s.now := rfl
@[simp] theorem Upd.groups_mod (k : Nat) (v : List Nat) (s : State) : ((Upd.groups k v).apply s).mod = s.mod := rfl
@[simp] theorem Upd.groups_seq (k : Nat) (v : List Nat) (s : State) : ((Upd.groups k v).apply s).seq = s.seq := rfl
@[simp] theorem Upd.groups_powered (k : Nat) (v : List Nat) (s : State) : ((Upd.groups k v).apply s).powered = s.powered := rfl
@[simp] theorem Upd.groups_agenda (k : Nat) (v : List Nat) (s : State) : ((Upd.groups k v).apply s).agenda = s.agenda := rfl
@[simp] theorem Upd.groups_cur (k : Nat) (v : List Nat) (s : State) : ((Upd.groups k v).apply s).cur = s.cur := rfl
@[simp] theorem Upd.groups_fresh (k : Nat) (v : List Nat) (s : State) : ((Upd.groups k v).apply s).fresh = s.fresh := rfl
@[simp] theorem Upd.groups_outbox (k : Nat) (v : List Nat) (s : State) : ((Upd.groups k v).apply s).outbox = s.outbox := rfl
@[simp] theorem Upd.announce_mem (n : Nat) (v : Option Announce) (s : State) : ((Upd.announce n v).apply s).mem = s.mem := rfl
@[simp] theorem Upd.announce_tags (n : Nat) (v : Option Announce) (s : State) : ((Upd.announce n v).apply s).tags = s.tags := rfl
@[simp] theorem Upd.announce_poison (n : Nat) (v : Option Announce) (s : State) : ((Upd.announce n v).apply s).poison = s.poison := rfl
@[simp] theorem Upd.announce_lines (n : Nat) (v : Option Announce) (s : State) : ((Upd.announce n v).apply s).lines = s.lines := rfl
@[simp] theorem Upd.announce_wlog (n : Nat) (v : Option Announce) (s : State) : ((Upd.announce n v).apply s).wlog = s.wlog := rfl
@[simp] theorem Upd.announce_tracks (n : Nat) (v : Option Announce) (s : State) : ((Upd.announce n v).apply s).tracks = s.tracks := rfl
@[simp] theorem Upd.announce_tlbs (n : Nat) (v : Option Announce) (s : State) : ((Upd.announce n v).apply s).tlbs = s.tlbs := rfl
@[simp] theorem Upd.announce_walks (n : Nat) (v : Option Announce) (s : State) : ((Upd.announce n v).apply s).walks = s.walks := rfl
@[simp] theorem Upd.announce_crews (n : Nat) (v : Option Announce) (s : State) : ((Upd.announce n v).apply s).crews = s.crews := rfl
@[simp] theorem Upd.announce_teams (n : Nat) (v : Option Announce) (s : State) : ((Upd.announce n v).apply s).teams = s.teams := rfl
@[simp] theorem Upd.announce_cores (n : Nat) (v : Option Announce) (s : State) : ((Upd.announce n v).apply s).cores = s.cores := rfl
@[simp] theorem Upd.announce_launches (n : Nat) (v : Option Announce) (s : State) : ((Upd.announce n v).apply s).launches = s.launches := rfl
@[simp] theorem Upd.announce_pends (n : Nat) (v : Option Announce) (s : State) : ((Upd.announce n v).apply s).pends = s.pends := rfl
@[simp] theorem Upd.announce_gangs (n : Nat) (v : Option Announce) (s : State) : ((Upd.announce n v).apply s).gangs = s.gangs := rfl
@[simp] theorem Upd.announce_saved (n : Nat) (v : Option Announce) (s : State) : ((Upd.announce n v).apply s).saved = s.saved := rfl
@[simp] theorem Upd.announce_coloc (n : Nat) (v : Option Announce) (s : State) : ((Upd.announce n v).apply s).coloc = s.coloc := rfl
@[simp] theorem Upd.announce_cycles (n : Nat) (v : Option Announce) (s : State) : ((Upd.announce n v).apply s).cycles = s.cycles := rfl
@[simp] theorem Upd.announce_parts (n : Nat) (v : Option Announce) (s : State) : ((Upd.announce n v).apply s).parts = s.parts := rfl
@[simp] theorem Upd.announce_vis (n : Nat) (v : Option Announce) (s : State) : ((Upd.announce n v).apply s).vis = s.vis := rfl
@[simp] theorem Upd.announce_ctxs (n : Nat) (v : Option Announce) (s : State) : ((Upd.announce n v).apply s).ctxs = s.ctxs := rfl
@[simp] theorem Upd.announce_objs (n : Nat) (v : Option Announce) (s : State) : ((Upd.announce n v).apply s).objs = s.objs := rfl
@[simp] theorem Upd.announce_queues (n : Nat) (v : Option Announce) (s : State) : ((Upd.announce n v).apply s).queues = s.queues := rfl
@[simp] theorem Upd.announce_slots (n : Nat) (v : Option Announce) (s : State) : ((Upd.announce n v).apply s).slots = s.slots := rfl
@[simp] theorem Upd.announce_engines (n : Nat) (v : Option Announce) (s : State) : ((Upd.announce n v).apply s).engines = s.engines := rfl
@[simp] theorem Upd.announce_passes (n : Nat) (v : Option Announce) (s : State) : ((Upd.announce n v).apply s).passes = s.passes := rfl
@[simp] theorem Upd.announce_held (n : Nat) (v : Option Announce) (s : State) : ((Upd.announce n v).apply s).held = s.held := rfl
@[simp] theorem Upd.announce_groups (n : Nat) (v : Option Announce) (s : State) : ((Upd.announce n v).apply s).groups = s.groups := rfl
@[simp] theorem Upd.announce_announces (n : Nat) (v : Option Announce) (s : State) : ((Upd.announce n v).apply s).announces = Tab.upd s.announces n v := rfl
@[simp] theorem Upd.announce_jds (n : Nat) (v : Option Announce) (s : State) : ((Upd.announce n v).apply s).jds = s.jds := rfl
@[simp] theorem Upd.announce_links (n : Nat) (v : Option Announce) (s : State) : ((Upd.announce n v).apply s).links = s.links := rfl
@[simp] theorem Upd.announce_wctxs (n : Nat) (v : Option Announce) (s : State) : ((Upd.announce n v).apply s).wctxs = s.wctxs := rfl
@[simp] theorem Upd.announce_wcur (n : Nat) (v : Option Announce) (s : State) : ((Upd.announce n v).apply s).wcur = s.wcur := rfl
@[simp] theorem Upd.announce_imem (n : Nat) (v : Option Announce) (s : State) : ((Upd.announce n v).apply s).imem = s.imem := rfl
@[simp] theorem Upd.announce_wsets (n : Nat) (v : Option Announce) (s : State) : ((Upd.announce n v).apply s).wsets = s.wsets := rfl
@[simp] theorem Upd.announce_ft (n : Nat) (v : Option Announce) (s : State) : ((Upd.announce n v).apply s).ft = s.ft := rfl
@[simp] theorem Upd.announce_now (n : Nat) (v : Option Announce) (s : State) : ((Upd.announce n v).apply s).now = s.now := rfl
@[simp] theorem Upd.announce_mod (n : Nat) (v : Option Announce) (s : State) : ((Upd.announce n v).apply s).mod = s.mod := rfl
@[simp] theorem Upd.announce_seq (n : Nat) (v : Option Announce) (s : State) : ((Upd.announce n v).apply s).seq = s.seq := rfl
@[simp] theorem Upd.announce_powered (n : Nat) (v : Option Announce) (s : State) : ((Upd.announce n v).apply s).powered = s.powered := rfl
@[simp] theorem Upd.announce_agenda (n : Nat) (v : Option Announce) (s : State) : ((Upd.announce n v).apply s).agenda = s.agenda := rfl
@[simp] theorem Upd.announce_cur (n : Nat) (v : Option Announce) (s : State) : ((Upd.announce n v).apply s).cur = s.cur := rfl
@[simp] theorem Upd.announce_fresh (n : Nat) (v : Option Announce) (s : State) : ((Upd.announce n v).apply s).fresh = s.fresh := rfl
@[simp] theorem Upd.announce_outbox (n : Nat) (v : Option Announce) (s : State) : ((Upd.announce n v).apply s).outbox = s.outbox := rfl
@[simp] theorem Upd.jd_mem (j : Nat) (v : Jd) (s : State) : ((Upd.jd j v).apply s).mem = s.mem := rfl
@[simp] theorem Upd.jd_tags (j : Nat) (v : Jd) (s : State) : ((Upd.jd j v).apply s).tags = s.tags := rfl
@[simp] theorem Upd.jd_poison (j : Nat) (v : Jd) (s : State) : ((Upd.jd j v).apply s).poison = s.poison := rfl
@[simp] theorem Upd.jd_lines (j : Nat) (v : Jd) (s : State) : ((Upd.jd j v).apply s).lines = s.lines := rfl
@[simp] theorem Upd.jd_wlog (j : Nat) (v : Jd) (s : State) : ((Upd.jd j v).apply s).wlog = s.wlog := rfl
@[simp] theorem Upd.jd_tracks (j : Nat) (v : Jd) (s : State) : ((Upd.jd j v).apply s).tracks = s.tracks := rfl
@[simp] theorem Upd.jd_tlbs (j : Nat) (v : Jd) (s : State) : ((Upd.jd j v).apply s).tlbs = s.tlbs := rfl
@[simp] theorem Upd.jd_walks (j : Nat) (v : Jd) (s : State) : ((Upd.jd j v).apply s).walks = s.walks := rfl
@[simp] theorem Upd.jd_crews (j : Nat) (v : Jd) (s : State) : ((Upd.jd j v).apply s).crews = s.crews := rfl
@[simp] theorem Upd.jd_teams (j : Nat) (v : Jd) (s : State) : ((Upd.jd j v).apply s).teams = s.teams := rfl
@[simp] theorem Upd.jd_cores (j : Nat) (v : Jd) (s : State) : ((Upd.jd j v).apply s).cores = s.cores := rfl
@[simp] theorem Upd.jd_launches (j : Nat) (v : Jd) (s : State) : ((Upd.jd j v).apply s).launches = s.launches := rfl
@[simp] theorem Upd.jd_pends (j : Nat) (v : Jd) (s : State) : ((Upd.jd j v).apply s).pends = s.pends := rfl
@[simp] theorem Upd.jd_gangs (j : Nat) (v : Jd) (s : State) : ((Upd.jd j v).apply s).gangs = s.gangs := rfl
@[simp] theorem Upd.jd_saved (j : Nat) (v : Jd) (s : State) : ((Upd.jd j v).apply s).saved = s.saved := rfl
@[simp] theorem Upd.jd_coloc (j : Nat) (v : Jd) (s : State) : ((Upd.jd j v).apply s).coloc = s.coloc := rfl
@[simp] theorem Upd.jd_cycles (j : Nat) (v : Jd) (s : State) : ((Upd.jd j v).apply s).cycles = s.cycles := rfl
@[simp] theorem Upd.jd_parts (j : Nat) (v : Jd) (s : State) : ((Upd.jd j v).apply s).parts = s.parts := rfl
@[simp] theorem Upd.jd_vis (j : Nat) (v : Jd) (s : State) : ((Upd.jd j v).apply s).vis = s.vis := rfl
@[simp] theorem Upd.jd_ctxs (j : Nat) (v : Jd) (s : State) : ((Upd.jd j v).apply s).ctxs = s.ctxs := rfl
@[simp] theorem Upd.jd_objs (j : Nat) (v : Jd) (s : State) : ((Upd.jd j v).apply s).objs = s.objs := rfl
@[simp] theorem Upd.jd_queues (j : Nat) (v : Jd) (s : State) : ((Upd.jd j v).apply s).queues = s.queues := rfl
@[simp] theorem Upd.jd_slots (j : Nat) (v : Jd) (s : State) : ((Upd.jd j v).apply s).slots = s.slots := rfl
@[simp] theorem Upd.jd_engines (j : Nat) (v : Jd) (s : State) : ((Upd.jd j v).apply s).engines = s.engines := rfl
@[simp] theorem Upd.jd_passes (j : Nat) (v : Jd) (s : State) : ((Upd.jd j v).apply s).passes = s.passes := rfl
@[simp] theorem Upd.jd_held (j : Nat) (v : Jd) (s : State) : ((Upd.jd j v).apply s).held = s.held := rfl
@[simp] theorem Upd.jd_groups (j : Nat) (v : Jd) (s : State) : ((Upd.jd j v).apply s).groups = s.groups := rfl
@[simp] theorem Upd.jd_announces (j : Nat) (v : Jd) (s : State) : ((Upd.jd j v).apply s).announces = s.announces := rfl
@[simp] theorem Upd.jd_jds (j : Nat) (v : Jd) (s : State) : ((Upd.jd j v).apply s).jds = Tab.set Jd.reset s.jds j v := rfl
@[simp] theorem Upd.jd_links (j : Nat) (v : Jd) (s : State) : ((Upd.jd j v).apply s).links = s.links := rfl
@[simp] theorem Upd.jd_wctxs (j : Nat) (v : Jd) (s : State) : ((Upd.jd j v).apply s).wctxs = s.wctxs := rfl
@[simp] theorem Upd.jd_wcur (j : Nat) (v : Jd) (s : State) : ((Upd.jd j v).apply s).wcur = s.wcur := rfl
@[simp] theorem Upd.jd_imem (j : Nat) (v : Jd) (s : State) : ((Upd.jd j v).apply s).imem = s.imem := rfl
@[simp] theorem Upd.jd_wsets (j : Nat) (v : Jd) (s : State) : ((Upd.jd j v).apply s).wsets = s.wsets := rfl
@[simp] theorem Upd.jd_ft (j : Nat) (v : Jd) (s : State) : ((Upd.jd j v).apply s).ft = s.ft := rfl
@[simp] theorem Upd.jd_now (j : Nat) (v : Jd) (s : State) : ((Upd.jd j v).apply s).now = s.now := rfl
@[simp] theorem Upd.jd_mod (j : Nat) (v : Jd) (s : State) : ((Upd.jd j v).apply s).mod = s.mod := rfl
@[simp] theorem Upd.jd_seq (j : Nat) (v : Jd) (s : State) : ((Upd.jd j v).apply s).seq = s.seq := rfl
@[simp] theorem Upd.jd_powered (j : Nat) (v : Jd) (s : State) : ((Upd.jd j v).apply s).powered = s.powered := rfl
@[simp] theorem Upd.jd_agenda (j : Nat) (v : Jd) (s : State) : ((Upd.jd j v).apply s).agenda = s.agenda := rfl
@[simp] theorem Upd.jd_cur (j : Nat) (v : Jd) (s : State) : ((Upd.jd j v).apply s).cur = s.cur := rfl
@[simp] theorem Upd.jd_fresh (j : Nat) (v : Jd) (s : State) : ((Upd.jd j v).apply s).fresh = s.fresh := rfl
@[simp] theorem Upd.jd_outbox (j : Nat) (v : Jd) (s : State) : ((Upd.jd j v).apply s).outbox = s.outbox := rfl
@[simp] theorem Upd.link_mem (k : Nat) (v : Link) (s : State) : ((Upd.link k v).apply s).mem = s.mem := rfl
@[simp] theorem Upd.link_tags (k : Nat) (v : Link) (s : State) : ((Upd.link k v).apply s).tags = s.tags := rfl
@[simp] theorem Upd.link_poison (k : Nat) (v : Link) (s : State) : ((Upd.link k v).apply s).poison = s.poison := rfl
@[simp] theorem Upd.link_lines (k : Nat) (v : Link) (s : State) : ((Upd.link k v).apply s).lines = s.lines := rfl
@[simp] theorem Upd.link_wlog (k : Nat) (v : Link) (s : State) : ((Upd.link k v).apply s).wlog = s.wlog := rfl
@[simp] theorem Upd.link_tracks (k : Nat) (v : Link) (s : State) : ((Upd.link k v).apply s).tracks = s.tracks := rfl
@[simp] theorem Upd.link_tlbs (k : Nat) (v : Link) (s : State) : ((Upd.link k v).apply s).tlbs = s.tlbs := rfl
@[simp] theorem Upd.link_walks (k : Nat) (v : Link) (s : State) : ((Upd.link k v).apply s).walks = s.walks := rfl
@[simp] theorem Upd.link_crews (k : Nat) (v : Link) (s : State) : ((Upd.link k v).apply s).crews = s.crews := rfl
@[simp] theorem Upd.link_teams (k : Nat) (v : Link) (s : State) : ((Upd.link k v).apply s).teams = s.teams := rfl
@[simp] theorem Upd.link_cores (k : Nat) (v : Link) (s : State) : ((Upd.link k v).apply s).cores = s.cores := rfl
@[simp] theorem Upd.link_launches (k : Nat) (v : Link) (s : State) : ((Upd.link k v).apply s).launches = s.launches := rfl
@[simp] theorem Upd.link_pends (k : Nat) (v : Link) (s : State) : ((Upd.link k v).apply s).pends = s.pends := rfl
@[simp] theorem Upd.link_gangs (k : Nat) (v : Link) (s : State) : ((Upd.link k v).apply s).gangs = s.gangs := rfl
@[simp] theorem Upd.link_saved (k : Nat) (v : Link) (s : State) : ((Upd.link k v).apply s).saved = s.saved := rfl
@[simp] theorem Upd.link_coloc (k : Nat) (v : Link) (s : State) : ((Upd.link k v).apply s).coloc = s.coloc := rfl
@[simp] theorem Upd.link_cycles (k : Nat) (v : Link) (s : State) : ((Upd.link k v).apply s).cycles = s.cycles := rfl
@[simp] theorem Upd.link_parts (k : Nat) (v : Link) (s : State) : ((Upd.link k v).apply s).parts = s.parts := rfl
@[simp] theorem Upd.link_vis (k : Nat) (v : Link) (s : State) : ((Upd.link k v).apply s).vis = s.vis := rfl
@[simp] theorem Upd.link_ctxs (k : Nat) (v : Link) (s : State) : ((Upd.link k v).apply s).ctxs = s.ctxs := rfl
@[simp] theorem Upd.link_objs (k : Nat) (v : Link) (s : State) : ((Upd.link k v).apply s).objs = s.objs := rfl
@[simp] theorem Upd.link_queues (k : Nat) (v : Link) (s : State) : ((Upd.link k v).apply s).queues = s.queues := rfl
@[simp] theorem Upd.link_slots (k : Nat) (v : Link) (s : State) : ((Upd.link k v).apply s).slots = s.slots := rfl
@[simp] theorem Upd.link_engines (k : Nat) (v : Link) (s : State) : ((Upd.link k v).apply s).engines = s.engines := rfl
@[simp] theorem Upd.link_passes (k : Nat) (v : Link) (s : State) : ((Upd.link k v).apply s).passes = s.passes := rfl
@[simp] theorem Upd.link_held (k : Nat) (v : Link) (s : State) : ((Upd.link k v).apply s).held = s.held := rfl
@[simp] theorem Upd.link_groups (k : Nat) (v : Link) (s : State) : ((Upd.link k v).apply s).groups = s.groups := rfl
@[simp] theorem Upd.link_announces (k : Nat) (v : Link) (s : State) : ((Upd.link k v).apply s).announces = s.announces := rfl
@[simp] theorem Upd.link_jds (k : Nat) (v : Link) (s : State) : ((Upd.link k v).apply s).jds = s.jds := rfl
@[simp] theorem Upd.link_links (k : Nat) (v : Link) (s : State) : ((Upd.link k v).apply s).links = Tab.set Link.reset s.links k v := rfl
@[simp] theorem Upd.link_wctxs (k : Nat) (v : Link) (s : State) : ((Upd.link k v).apply s).wctxs = s.wctxs := rfl
@[simp] theorem Upd.link_wcur (k : Nat) (v : Link) (s : State) : ((Upd.link k v).apply s).wcur = s.wcur := rfl
@[simp] theorem Upd.link_imem (k : Nat) (v : Link) (s : State) : ((Upd.link k v).apply s).imem = s.imem := rfl
@[simp] theorem Upd.link_wsets (k : Nat) (v : Link) (s : State) : ((Upd.link k v).apply s).wsets = s.wsets := rfl
@[simp] theorem Upd.link_ft (k : Nat) (v : Link) (s : State) : ((Upd.link k v).apply s).ft = s.ft := rfl
@[simp] theorem Upd.link_now (k : Nat) (v : Link) (s : State) : ((Upd.link k v).apply s).now = s.now := rfl
@[simp] theorem Upd.link_mod (k : Nat) (v : Link) (s : State) : ((Upd.link k v).apply s).mod = s.mod := rfl
@[simp] theorem Upd.link_seq (k : Nat) (v : Link) (s : State) : ((Upd.link k v).apply s).seq = s.seq := rfl
@[simp] theorem Upd.link_powered (k : Nat) (v : Link) (s : State) : ((Upd.link k v).apply s).powered = s.powered := rfl
@[simp] theorem Upd.link_agenda (k : Nat) (v : Link) (s : State) : ((Upd.link k v).apply s).agenda = s.agenda := rfl
@[simp] theorem Upd.link_cur (k : Nat) (v : Link) (s : State) : ((Upd.link k v).apply s).cur = s.cur := rfl
@[simp] theorem Upd.link_fresh (k : Nat) (v : Link) (s : State) : ((Upd.link k v).apply s).fresh = s.fresh := rfl
@[simp] theorem Upd.link_outbox (k : Nat) (v : Link) (s : State) : ((Upd.link k v).apply s).outbox = s.outbox := rfl
@[simp] theorem Upd.wctx_mem (k : Nat) (v : Wctx) (s : State) : ((Upd.wctx k v).apply s).mem = s.mem := rfl
@[simp] theorem Upd.wctx_tags (k : Nat) (v : Wctx) (s : State) : ((Upd.wctx k v).apply s).tags = s.tags := rfl
@[simp] theorem Upd.wctx_poison (k : Nat) (v : Wctx) (s : State) : ((Upd.wctx k v).apply s).poison = s.poison := rfl
@[simp] theorem Upd.wctx_lines (k : Nat) (v : Wctx) (s : State) : ((Upd.wctx k v).apply s).lines = s.lines := rfl
@[simp] theorem Upd.wctx_wlog (k : Nat) (v : Wctx) (s : State) : ((Upd.wctx k v).apply s).wlog = s.wlog := rfl
@[simp] theorem Upd.wctx_tracks (k : Nat) (v : Wctx) (s : State) : ((Upd.wctx k v).apply s).tracks = s.tracks := rfl
@[simp] theorem Upd.wctx_tlbs (k : Nat) (v : Wctx) (s : State) : ((Upd.wctx k v).apply s).tlbs = s.tlbs := rfl
@[simp] theorem Upd.wctx_walks (k : Nat) (v : Wctx) (s : State) : ((Upd.wctx k v).apply s).walks = s.walks := rfl
@[simp] theorem Upd.wctx_crews (k : Nat) (v : Wctx) (s : State) : ((Upd.wctx k v).apply s).crews = s.crews := rfl
@[simp] theorem Upd.wctx_teams (k : Nat) (v : Wctx) (s : State) : ((Upd.wctx k v).apply s).teams = s.teams := rfl
@[simp] theorem Upd.wctx_cores (k : Nat) (v : Wctx) (s : State) : ((Upd.wctx k v).apply s).cores = s.cores := rfl
@[simp] theorem Upd.wctx_launches (k : Nat) (v : Wctx) (s : State) : ((Upd.wctx k v).apply s).launches = s.launches := rfl
@[simp] theorem Upd.wctx_pends (k : Nat) (v : Wctx) (s : State) : ((Upd.wctx k v).apply s).pends = s.pends := rfl
@[simp] theorem Upd.wctx_gangs (k : Nat) (v : Wctx) (s : State) : ((Upd.wctx k v).apply s).gangs = s.gangs := rfl
@[simp] theorem Upd.wctx_saved (k : Nat) (v : Wctx) (s : State) : ((Upd.wctx k v).apply s).saved = s.saved := rfl
@[simp] theorem Upd.wctx_coloc (k : Nat) (v : Wctx) (s : State) : ((Upd.wctx k v).apply s).coloc = s.coloc := rfl
@[simp] theorem Upd.wctx_cycles (k : Nat) (v : Wctx) (s : State) : ((Upd.wctx k v).apply s).cycles = s.cycles := rfl
@[simp] theorem Upd.wctx_parts (k : Nat) (v : Wctx) (s : State) : ((Upd.wctx k v).apply s).parts = s.parts := rfl
@[simp] theorem Upd.wctx_vis (k : Nat) (v : Wctx) (s : State) : ((Upd.wctx k v).apply s).vis = s.vis := rfl
@[simp] theorem Upd.wctx_ctxs (k : Nat) (v : Wctx) (s : State) : ((Upd.wctx k v).apply s).ctxs = s.ctxs := rfl
@[simp] theorem Upd.wctx_objs (k : Nat) (v : Wctx) (s : State) : ((Upd.wctx k v).apply s).objs = s.objs := rfl
@[simp] theorem Upd.wctx_queues (k : Nat) (v : Wctx) (s : State) : ((Upd.wctx k v).apply s).queues = s.queues := rfl
@[simp] theorem Upd.wctx_slots (k : Nat) (v : Wctx) (s : State) : ((Upd.wctx k v).apply s).slots = s.slots := rfl
@[simp] theorem Upd.wctx_engines (k : Nat) (v : Wctx) (s : State) : ((Upd.wctx k v).apply s).engines = s.engines := rfl
@[simp] theorem Upd.wctx_passes (k : Nat) (v : Wctx) (s : State) : ((Upd.wctx k v).apply s).passes = s.passes := rfl
@[simp] theorem Upd.wctx_held (k : Nat) (v : Wctx) (s : State) : ((Upd.wctx k v).apply s).held = s.held := rfl
@[simp] theorem Upd.wctx_groups (k : Nat) (v : Wctx) (s : State) : ((Upd.wctx k v).apply s).groups = s.groups := rfl
@[simp] theorem Upd.wctx_announces (k : Nat) (v : Wctx) (s : State) : ((Upd.wctx k v).apply s).announces = s.announces := rfl
@[simp] theorem Upd.wctx_jds (k : Nat) (v : Wctx) (s : State) : ((Upd.wctx k v).apply s).jds = s.jds := rfl
@[simp] theorem Upd.wctx_links (k : Nat) (v : Wctx) (s : State) : ((Upd.wctx k v).apply s).links = s.links := rfl
@[simp] theorem Upd.wctx_wctxs (k : Nat) (v : Wctx) (s : State) : ((Upd.wctx k v).apply s).wctxs = Tab.set Wctx.reset s.wctxs k v := rfl
@[simp] theorem Upd.wctx_wcur (k : Nat) (v : Wctx) (s : State) : ((Upd.wctx k v).apply s).wcur = s.wcur := rfl
@[simp] theorem Upd.wctx_imem (k : Nat) (v : Wctx) (s : State) : ((Upd.wctx k v).apply s).imem = s.imem := rfl
@[simp] theorem Upd.wctx_wsets (k : Nat) (v : Wctx) (s : State) : ((Upd.wctx k v).apply s).wsets = s.wsets := rfl
@[simp] theorem Upd.wctx_ft (k : Nat) (v : Wctx) (s : State) : ((Upd.wctx k v).apply s).ft = s.ft := rfl
@[simp] theorem Upd.wctx_now (k : Nat) (v : Wctx) (s : State) : ((Upd.wctx k v).apply s).now = s.now := rfl
@[simp] theorem Upd.wctx_mod (k : Nat) (v : Wctx) (s : State) : ((Upd.wctx k v).apply s).mod = s.mod := rfl
@[simp] theorem Upd.wctx_seq (k : Nat) (v : Wctx) (s : State) : ((Upd.wctx k v).apply s).seq = s.seq := rfl
@[simp] theorem Upd.wctx_powered (k : Nat) (v : Wctx) (s : State) : ((Upd.wctx k v).apply s).powered = s.powered := rfl
@[simp] theorem Upd.wctx_agenda (k : Nat) (v : Wctx) (s : State) : ((Upd.wctx k v).apply s).agenda = s.agenda := rfl
@[simp] theorem Upd.wctx_cur (k : Nat) (v : Wctx) (s : State) : ((Upd.wctx k v).apply s).cur = s.cur := rfl
@[simp] theorem Upd.wctx_fresh (k : Nat) (v : Wctx) (s : State) : ((Upd.wctx k v).apply s).fresh = s.fresh := rfl
@[simp] theorem Upd.wctx_outbox (k : Nat) (v : Wctx) (s : State) : ((Upd.wctx k v).apply s).outbox = s.outbox := rfl
@[simp] theorem Upd.wcur_mem (w : Nat) (c : Nat) (s : State) : ((Upd.wcur w c).apply s).mem = s.mem := rfl
@[simp] theorem Upd.wcur_tags (w : Nat) (c : Nat) (s : State) : ((Upd.wcur w c).apply s).tags = s.tags := rfl
@[simp] theorem Upd.wcur_poison (w : Nat) (c : Nat) (s : State) : ((Upd.wcur w c).apply s).poison = s.poison := rfl
@[simp] theorem Upd.wcur_lines (w : Nat) (c : Nat) (s : State) : ((Upd.wcur w c).apply s).lines = s.lines := rfl
@[simp] theorem Upd.wcur_wlog (w : Nat) (c : Nat) (s : State) : ((Upd.wcur w c).apply s).wlog = s.wlog := rfl
@[simp] theorem Upd.wcur_tracks (w : Nat) (c : Nat) (s : State) : ((Upd.wcur w c).apply s).tracks = s.tracks := rfl
@[simp] theorem Upd.wcur_tlbs (w : Nat) (c : Nat) (s : State) : ((Upd.wcur w c).apply s).tlbs = s.tlbs := rfl
@[simp] theorem Upd.wcur_walks (w : Nat) (c : Nat) (s : State) : ((Upd.wcur w c).apply s).walks = s.walks := rfl
@[simp] theorem Upd.wcur_crews (w : Nat) (c : Nat) (s : State) : ((Upd.wcur w c).apply s).crews = s.crews := rfl
@[simp] theorem Upd.wcur_teams (w : Nat) (c : Nat) (s : State) : ((Upd.wcur w c).apply s).teams = s.teams := rfl
@[simp] theorem Upd.wcur_cores (w : Nat) (c : Nat) (s : State) : ((Upd.wcur w c).apply s).cores = s.cores := rfl
@[simp] theorem Upd.wcur_launches (w : Nat) (c : Nat) (s : State) : ((Upd.wcur w c).apply s).launches = s.launches := rfl
@[simp] theorem Upd.wcur_pends (w : Nat) (c : Nat) (s : State) : ((Upd.wcur w c).apply s).pends = s.pends := rfl
@[simp] theorem Upd.wcur_gangs (w : Nat) (c : Nat) (s : State) : ((Upd.wcur w c).apply s).gangs = s.gangs := rfl
@[simp] theorem Upd.wcur_saved (w : Nat) (c : Nat) (s : State) : ((Upd.wcur w c).apply s).saved = s.saved := rfl
@[simp] theorem Upd.wcur_coloc (w : Nat) (c : Nat) (s : State) : ((Upd.wcur w c).apply s).coloc = s.coloc := rfl
@[simp] theorem Upd.wcur_cycles (w : Nat) (c : Nat) (s : State) : ((Upd.wcur w c).apply s).cycles = s.cycles := rfl
@[simp] theorem Upd.wcur_parts (w : Nat) (c : Nat) (s : State) : ((Upd.wcur w c).apply s).parts = s.parts := rfl
@[simp] theorem Upd.wcur_vis (w : Nat) (c : Nat) (s : State) : ((Upd.wcur w c).apply s).vis = s.vis := rfl
@[simp] theorem Upd.wcur_ctxs (w : Nat) (c : Nat) (s : State) : ((Upd.wcur w c).apply s).ctxs = s.ctxs := rfl
@[simp] theorem Upd.wcur_objs (w : Nat) (c : Nat) (s : State) : ((Upd.wcur w c).apply s).objs = s.objs := rfl
@[simp] theorem Upd.wcur_queues (w : Nat) (c : Nat) (s : State) : ((Upd.wcur w c).apply s).queues = s.queues := rfl
@[simp] theorem Upd.wcur_slots (w : Nat) (c : Nat) (s : State) : ((Upd.wcur w c).apply s).slots = s.slots := rfl
@[simp] theorem Upd.wcur_engines (w : Nat) (c : Nat) (s : State) : ((Upd.wcur w c).apply s).engines = s.engines := rfl
@[simp] theorem Upd.wcur_passes (w : Nat) (c : Nat) (s : State) : ((Upd.wcur w c).apply s).passes = s.passes := rfl
@[simp] theorem Upd.wcur_held (w : Nat) (c : Nat) (s : State) : ((Upd.wcur w c).apply s).held = s.held := rfl
@[simp] theorem Upd.wcur_groups (w : Nat) (c : Nat) (s : State) : ((Upd.wcur w c).apply s).groups = s.groups := rfl
@[simp] theorem Upd.wcur_announces (w : Nat) (c : Nat) (s : State) : ((Upd.wcur w c).apply s).announces = s.announces := rfl
@[simp] theorem Upd.wcur_jds (w : Nat) (c : Nat) (s : State) : ((Upd.wcur w c).apply s).jds = s.jds := rfl
@[simp] theorem Upd.wcur_links (w : Nat) (c : Nat) (s : State) : ((Upd.wcur w c).apply s).links = s.links := rfl
@[simp] theorem Upd.wcur_wctxs (w : Nat) (c : Nat) (s : State) : ((Upd.wcur w c).apply s).wctxs = s.wctxs := rfl
@[simp] theorem Upd.wcur_wcur (w : Nat) (c : Nat) (s : State) : ((Upd.wcur w c).apply s).wcur = Tab.set 0 s.wcur w c := rfl
@[simp] theorem Upd.wcur_imem (w : Nat) (c : Nat) (s : State) : ((Upd.wcur w c).apply s).imem = s.imem := rfl
@[simp] theorem Upd.wcur_wsets (w : Nat) (c : Nat) (s : State) : ((Upd.wcur w c).apply s).wsets = s.wsets := rfl
@[simp] theorem Upd.wcur_ft (w : Nat) (c : Nat) (s : State) : ((Upd.wcur w c).apply s).ft = s.ft := rfl
@[simp] theorem Upd.wcur_now (w : Nat) (c : Nat) (s : State) : ((Upd.wcur w c).apply s).now = s.now := rfl
@[simp] theorem Upd.wcur_mod (w : Nat) (c : Nat) (s : State) : ((Upd.wcur w c).apply s).mod = s.mod := rfl
@[simp] theorem Upd.wcur_seq (w : Nat) (c : Nat) (s : State) : ((Upd.wcur w c).apply s).seq = s.seq := rfl
@[simp] theorem Upd.wcur_powered (w : Nat) (c : Nat) (s : State) : ((Upd.wcur w c).apply s).powered = s.powered := rfl
@[simp] theorem Upd.wcur_agenda (w : Nat) (c : Nat) (s : State) : ((Upd.wcur w c).apply s).agenda = s.agenda := rfl
@[simp] theorem Upd.wcur_cur (w : Nat) (c : Nat) (s : State) : ((Upd.wcur w c).apply s).cur = s.cur := rfl
@[simp] theorem Upd.wcur_fresh (w : Nat) (c : Nat) (s : State) : ((Upd.wcur w c).apply s).fresh = s.fresh := rfl
@[simp] theorem Upd.wcur_outbox (w : Nat) (c : Nat) (s : State) : ((Upd.wcur w c).apply s).outbox = s.outbox := rfl
@[simp] theorem Upd.imem_mem (k : Nat) (v : Word) (s : State) : ((Upd.imem k v).apply s).mem = s.mem := rfl
@[simp] theorem Upd.imem_tags (k : Nat) (v : Word) (s : State) : ((Upd.imem k v).apply s).tags = s.tags := rfl
@[simp] theorem Upd.imem_poison (k : Nat) (v : Word) (s : State) : ((Upd.imem k v).apply s).poison = s.poison := rfl
@[simp] theorem Upd.imem_lines (k : Nat) (v : Word) (s : State) : ((Upd.imem k v).apply s).lines = s.lines := rfl
@[simp] theorem Upd.imem_wlog (k : Nat) (v : Word) (s : State) : ((Upd.imem k v).apply s).wlog = s.wlog := rfl
@[simp] theorem Upd.imem_tracks (k : Nat) (v : Word) (s : State) : ((Upd.imem k v).apply s).tracks = s.tracks := rfl
@[simp] theorem Upd.imem_tlbs (k : Nat) (v : Word) (s : State) : ((Upd.imem k v).apply s).tlbs = s.tlbs := rfl
@[simp] theorem Upd.imem_walks (k : Nat) (v : Word) (s : State) : ((Upd.imem k v).apply s).walks = s.walks := rfl
@[simp] theorem Upd.imem_crews (k : Nat) (v : Word) (s : State) : ((Upd.imem k v).apply s).crews = s.crews := rfl
@[simp] theorem Upd.imem_teams (k : Nat) (v : Word) (s : State) : ((Upd.imem k v).apply s).teams = s.teams := rfl
@[simp] theorem Upd.imem_cores (k : Nat) (v : Word) (s : State) : ((Upd.imem k v).apply s).cores = s.cores := rfl
@[simp] theorem Upd.imem_launches (k : Nat) (v : Word) (s : State) : ((Upd.imem k v).apply s).launches = s.launches := rfl
@[simp] theorem Upd.imem_pends (k : Nat) (v : Word) (s : State) : ((Upd.imem k v).apply s).pends = s.pends := rfl
@[simp] theorem Upd.imem_gangs (k : Nat) (v : Word) (s : State) : ((Upd.imem k v).apply s).gangs = s.gangs := rfl
@[simp] theorem Upd.imem_saved (k : Nat) (v : Word) (s : State) : ((Upd.imem k v).apply s).saved = s.saved := rfl
@[simp] theorem Upd.imem_coloc (k : Nat) (v : Word) (s : State) : ((Upd.imem k v).apply s).coloc = s.coloc := rfl
@[simp] theorem Upd.imem_cycles (k : Nat) (v : Word) (s : State) : ((Upd.imem k v).apply s).cycles = s.cycles := rfl
@[simp] theorem Upd.imem_parts (k : Nat) (v : Word) (s : State) : ((Upd.imem k v).apply s).parts = s.parts := rfl
@[simp] theorem Upd.imem_vis (k : Nat) (v : Word) (s : State) : ((Upd.imem k v).apply s).vis = s.vis := rfl
@[simp] theorem Upd.imem_ctxs (k : Nat) (v : Word) (s : State) : ((Upd.imem k v).apply s).ctxs = s.ctxs := rfl
@[simp] theorem Upd.imem_objs (k : Nat) (v : Word) (s : State) : ((Upd.imem k v).apply s).objs = s.objs := rfl
@[simp] theorem Upd.imem_queues (k : Nat) (v : Word) (s : State) : ((Upd.imem k v).apply s).queues = s.queues := rfl
@[simp] theorem Upd.imem_slots (k : Nat) (v : Word) (s : State) : ((Upd.imem k v).apply s).slots = s.slots := rfl
@[simp] theorem Upd.imem_engines (k : Nat) (v : Word) (s : State) : ((Upd.imem k v).apply s).engines = s.engines := rfl
@[simp] theorem Upd.imem_passes (k : Nat) (v : Word) (s : State) : ((Upd.imem k v).apply s).passes = s.passes := rfl
@[simp] theorem Upd.imem_held (k : Nat) (v : Word) (s : State) : ((Upd.imem k v).apply s).held = s.held := rfl
@[simp] theorem Upd.imem_groups (k : Nat) (v : Word) (s : State) : ((Upd.imem k v).apply s).groups = s.groups := rfl
@[simp] theorem Upd.imem_announces (k : Nat) (v : Word) (s : State) : ((Upd.imem k v).apply s).announces = s.announces := rfl
@[simp] theorem Upd.imem_jds (k : Nat) (v : Word) (s : State) : ((Upd.imem k v).apply s).jds = s.jds := rfl
@[simp] theorem Upd.imem_links (k : Nat) (v : Word) (s : State) : ((Upd.imem k v).apply s).links = s.links := rfl
@[simp] theorem Upd.imem_wctxs (k : Nat) (v : Word) (s : State) : ((Upd.imem k v).apply s).wctxs = s.wctxs := rfl
@[simp] theorem Upd.imem_wcur (k : Nat) (v : Word) (s : State) : ((Upd.imem k v).apply s).wcur = s.wcur := rfl
@[simp] theorem Upd.imem_imem (k : Nat) (v : Word) (s : State) : ((Upd.imem k v).apply s).imem = Tab.set 0 s.imem k v := rfl
@[simp] theorem Upd.imem_wsets (k : Nat) (v : Word) (s : State) : ((Upd.imem k v).apply s).wsets = s.wsets := rfl
@[simp] theorem Upd.imem_ft (k : Nat) (v : Word) (s : State) : ((Upd.imem k v).apply s).ft = s.ft := rfl
@[simp] theorem Upd.imem_now (k : Nat) (v : Word) (s : State) : ((Upd.imem k v).apply s).now = s.now := rfl
@[simp] theorem Upd.imem_mod (k : Nat) (v : Word) (s : State) : ((Upd.imem k v).apply s).mod = s.mod := rfl
@[simp] theorem Upd.imem_seq (k : Nat) (v : Word) (s : State) : ((Upd.imem k v).apply s).seq = s.seq := rfl
@[simp] theorem Upd.imem_powered (k : Nat) (v : Word) (s : State) : ((Upd.imem k v).apply s).powered = s.powered := rfl
@[simp] theorem Upd.imem_agenda (k : Nat) (v : Word) (s : State) : ((Upd.imem k v).apply s).agenda = s.agenda := rfl
@[simp] theorem Upd.imem_cur (k : Nat) (v : Word) (s : State) : ((Upd.imem k v).apply s).cur = s.cur := rfl
@[simp] theorem Upd.imem_fresh (k : Nat) (v : Word) (s : State) : ((Upd.imem k v).apply s).fresh = s.fresh := rfl
@[simp] theorem Upd.imem_outbox (k : Nat) (v : Word) (s : State) : ((Upd.imem k v).apply s).outbox = s.outbox := rfl
@[simp] theorem Upd.wsets_mem (v : List WinchSet) (s : State) : ((Upd.wsets v).apply s).mem = s.mem := rfl
@[simp] theorem Upd.wsets_tags (v : List WinchSet) (s : State) : ((Upd.wsets v).apply s).tags = s.tags := rfl
@[simp] theorem Upd.wsets_poison (v : List WinchSet) (s : State) : ((Upd.wsets v).apply s).poison = s.poison := rfl
@[simp] theorem Upd.wsets_lines (v : List WinchSet) (s : State) : ((Upd.wsets v).apply s).lines = s.lines := rfl
@[simp] theorem Upd.wsets_wlog (v : List WinchSet) (s : State) : ((Upd.wsets v).apply s).wlog = s.wlog := rfl
@[simp] theorem Upd.wsets_tracks (v : List WinchSet) (s : State) : ((Upd.wsets v).apply s).tracks = s.tracks := rfl
@[simp] theorem Upd.wsets_tlbs (v : List WinchSet) (s : State) : ((Upd.wsets v).apply s).tlbs = s.tlbs := rfl
@[simp] theorem Upd.wsets_walks (v : List WinchSet) (s : State) : ((Upd.wsets v).apply s).walks = s.walks := rfl
@[simp] theorem Upd.wsets_crews (v : List WinchSet) (s : State) : ((Upd.wsets v).apply s).crews = s.crews := rfl
@[simp] theorem Upd.wsets_teams (v : List WinchSet) (s : State) : ((Upd.wsets v).apply s).teams = s.teams := rfl
@[simp] theorem Upd.wsets_cores (v : List WinchSet) (s : State) : ((Upd.wsets v).apply s).cores = s.cores := rfl
@[simp] theorem Upd.wsets_launches (v : List WinchSet) (s : State) : ((Upd.wsets v).apply s).launches = s.launches := rfl
@[simp] theorem Upd.wsets_pends (v : List WinchSet) (s : State) : ((Upd.wsets v).apply s).pends = s.pends := rfl
@[simp] theorem Upd.wsets_gangs (v : List WinchSet) (s : State) : ((Upd.wsets v).apply s).gangs = s.gangs := rfl
@[simp] theorem Upd.wsets_saved (v : List WinchSet) (s : State) : ((Upd.wsets v).apply s).saved = s.saved := rfl
@[simp] theorem Upd.wsets_coloc (v : List WinchSet) (s : State) : ((Upd.wsets v).apply s).coloc = s.coloc := rfl
@[simp] theorem Upd.wsets_cycles (v : List WinchSet) (s : State) : ((Upd.wsets v).apply s).cycles = s.cycles := rfl
@[simp] theorem Upd.wsets_parts (v : List WinchSet) (s : State) : ((Upd.wsets v).apply s).parts = s.parts := rfl
@[simp] theorem Upd.wsets_vis (v : List WinchSet) (s : State) : ((Upd.wsets v).apply s).vis = s.vis := rfl
@[simp] theorem Upd.wsets_ctxs (v : List WinchSet) (s : State) : ((Upd.wsets v).apply s).ctxs = s.ctxs := rfl
@[simp] theorem Upd.wsets_objs (v : List WinchSet) (s : State) : ((Upd.wsets v).apply s).objs = s.objs := rfl
@[simp] theorem Upd.wsets_queues (v : List WinchSet) (s : State) : ((Upd.wsets v).apply s).queues = s.queues := rfl
@[simp] theorem Upd.wsets_slots (v : List WinchSet) (s : State) : ((Upd.wsets v).apply s).slots = s.slots := rfl
@[simp] theorem Upd.wsets_engines (v : List WinchSet) (s : State) : ((Upd.wsets v).apply s).engines = s.engines := rfl
@[simp] theorem Upd.wsets_passes (v : List WinchSet) (s : State) : ((Upd.wsets v).apply s).passes = s.passes := rfl
@[simp] theorem Upd.wsets_held (v : List WinchSet) (s : State) : ((Upd.wsets v).apply s).held = s.held := rfl
@[simp] theorem Upd.wsets_groups (v : List WinchSet) (s : State) : ((Upd.wsets v).apply s).groups = s.groups := rfl
@[simp] theorem Upd.wsets_announces (v : List WinchSet) (s : State) : ((Upd.wsets v).apply s).announces = s.announces := rfl
@[simp] theorem Upd.wsets_jds (v : List WinchSet) (s : State) : ((Upd.wsets v).apply s).jds = s.jds := rfl
@[simp] theorem Upd.wsets_links (v : List WinchSet) (s : State) : ((Upd.wsets v).apply s).links = s.links := rfl
@[simp] theorem Upd.wsets_wctxs (v : List WinchSet) (s : State) : ((Upd.wsets v).apply s).wctxs = s.wctxs := rfl
@[simp] theorem Upd.wsets_wcur (v : List WinchSet) (s : State) : ((Upd.wsets v).apply s).wcur = s.wcur := rfl
@[simp] theorem Upd.wsets_imem (v : List WinchSet) (s : State) : ((Upd.wsets v).apply s).imem = s.imem := rfl
@[simp] theorem Upd.wsets_wsets (v : List WinchSet) (s : State) : ((Upd.wsets v).apply s).wsets = v := rfl
@[simp] theorem Upd.wsets_ft (v : List WinchSet) (s : State) : ((Upd.wsets v).apply s).ft = s.ft := rfl
@[simp] theorem Upd.wsets_now (v : List WinchSet) (s : State) : ((Upd.wsets v).apply s).now = s.now := rfl
@[simp] theorem Upd.wsets_mod (v : List WinchSet) (s : State) : ((Upd.wsets v).apply s).mod = s.mod := rfl
@[simp] theorem Upd.wsets_seq (v : List WinchSet) (s : State) : ((Upd.wsets v).apply s).seq = s.seq := rfl
@[simp] theorem Upd.wsets_powered (v : List WinchSet) (s : State) : ((Upd.wsets v).apply s).powered = s.powered := rfl
@[simp] theorem Upd.wsets_agenda (v : List WinchSet) (s : State) : ((Upd.wsets v).apply s).agenda = s.agenda := rfl
@[simp] theorem Upd.wsets_cur (v : List WinchSet) (s : State) : ((Upd.wsets v).apply s).cur = s.cur := rfl
@[simp] theorem Upd.wsets_fresh (v : List WinchSet) (s : State) : ((Upd.wsets v).apply s).fresh = s.fresh := rfl
@[simp] theorem Upd.wsets_outbox (v : List WinchSet) (s : State) : ((Upd.wsets v).apply s).outbox = s.outbox := rfl
@[simp] theorem Upd.ft_mem (v : FabTime) (s : State) : ((Upd.ft v).apply s).mem = s.mem := rfl
@[simp] theorem Upd.ft_tags (v : FabTime) (s : State) : ((Upd.ft v).apply s).tags = s.tags := rfl
@[simp] theorem Upd.ft_poison (v : FabTime) (s : State) : ((Upd.ft v).apply s).poison = s.poison := rfl
@[simp] theorem Upd.ft_lines (v : FabTime) (s : State) : ((Upd.ft v).apply s).lines = s.lines := rfl
@[simp] theorem Upd.ft_wlog (v : FabTime) (s : State) : ((Upd.ft v).apply s).wlog = s.wlog := rfl
@[simp] theorem Upd.ft_tracks (v : FabTime) (s : State) : ((Upd.ft v).apply s).tracks = s.tracks := rfl
@[simp] theorem Upd.ft_tlbs (v : FabTime) (s : State) : ((Upd.ft v).apply s).tlbs = s.tlbs := rfl
@[simp] theorem Upd.ft_walks (v : FabTime) (s : State) : ((Upd.ft v).apply s).walks = s.walks := rfl
@[simp] theorem Upd.ft_crews (v : FabTime) (s : State) : ((Upd.ft v).apply s).crews = s.crews := rfl
@[simp] theorem Upd.ft_teams (v : FabTime) (s : State) : ((Upd.ft v).apply s).teams = s.teams := rfl
@[simp] theorem Upd.ft_cores (v : FabTime) (s : State) : ((Upd.ft v).apply s).cores = s.cores := rfl
@[simp] theorem Upd.ft_launches (v : FabTime) (s : State) : ((Upd.ft v).apply s).launches = s.launches := rfl
@[simp] theorem Upd.ft_pends (v : FabTime) (s : State) : ((Upd.ft v).apply s).pends = s.pends := rfl
@[simp] theorem Upd.ft_gangs (v : FabTime) (s : State) : ((Upd.ft v).apply s).gangs = s.gangs := rfl
@[simp] theorem Upd.ft_saved (v : FabTime) (s : State) : ((Upd.ft v).apply s).saved = s.saved := rfl
@[simp] theorem Upd.ft_coloc (v : FabTime) (s : State) : ((Upd.ft v).apply s).coloc = s.coloc := rfl
@[simp] theorem Upd.ft_cycles (v : FabTime) (s : State) : ((Upd.ft v).apply s).cycles = s.cycles := rfl
@[simp] theorem Upd.ft_parts (v : FabTime) (s : State) : ((Upd.ft v).apply s).parts = s.parts := rfl
@[simp] theorem Upd.ft_vis (v : FabTime) (s : State) : ((Upd.ft v).apply s).vis = s.vis := rfl
@[simp] theorem Upd.ft_ctxs (v : FabTime) (s : State) : ((Upd.ft v).apply s).ctxs = s.ctxs := rfl
@[simp] theorem Upd.ft_objs (v : FabTime) (s : State) : ((Upd.ft v).apply s).objs = s.objs := rfl
@[simp] theorem Upd.ft_queues (v : FabTime) (s : State) : ((Upd.ft v).apply s).queues = s.queues := rfl
@[simp] theorem Upd.ft_slots (v : FabTime) (s : State) : ((Upd.ft v).apply s).slots = s.slots := rfl
@[simp] theorem Upd.ft_engines (v : FabTime) (s : State) : ((Upd.ft v).apply s).engines = s.engines := rfl
@[simp] theorem Upd.ft_passes (v : FabTime) (s : State) : ((Upd.ft v).apply s).passes = s.passes := rfl
@[simp] theorem Upd.ft_held (v : FabTime) (s : State) : ((Upd.ft v).apply s).held = s.held := rfl
@[simp] theorem Upd.ft_groups (v : FabTime) (s : State) : ((Upd.ft v).apply s).groups = s.groups := rfl
@[simp] theorem Upd.ft_announces (v : FabTime) (s : State) : ((Upd.ft v).apply s).announces = s.announces := rfl
@[simp] theorem Upd.ft_jds (v : FabTime) (s : State) : ((Upd.ft v).apply s).jds = s.jds := rfl
@[simp] theorem Upd.ft_links (v : FabTime) (s : State) : ((Upd.ft v).apply s).links = s.links := rfl
@[simp] theorem Upd.ft_wctxs (v : FabTime) (s : State) : ((Upd.ft v).apply s).wctxs = s.wctxs := rfl
@[simp] theorem Upd.ft_wcur (v : FabTime) (s : State) : ((Upd.ft v).apply s).wcur = s.wcur := rfl
@[simp] theorem Upd.ft_imem (v : FabTime) (s : State) : ((Upd.ft v).apply s).imem = s.imem := rfl
@[simp] theorem Upd.ft_wsets (v : FabTime) (s : State) : ((Upd.ft v).apply s).wsets = s.wsets := rfl
@[simp] theorem Upd.ft_ft (v : FabTime) (s : State) : ((Upd.ft v).apply s).ft = v := rfl
@[simp] theorem Upd.ft_now (v : FabTime) (s : State) : ((Upd.ft v).apply s).now = s.now := rfl
@[simp] theorem Upd.ft_mod (v : FabTime) (s : State) : ((Upd.ft v).apply s).mod = s.mod := rfl
@[simp] theorem Upd.ft_seq (v : FabTime) (s : State) : ((Upd.ft v).apply s).seq = s.seq := rfl
@[simp] theorem Upd.ft_powered (v : FabTime) (s : State) : ((Upd.ft v).apply s).powered = s.powered := rfl
@[simp] theorem Upd.ft_agenda (v : FabTime) (s : State) : ((Upd.ft v).apply s).agenda = s.agenda := rfl
@[simp] theorem Upd.ft_cur (v : FabTime) (s : State) : ((Upd.ft v).apply s).cur = s.cur := rfl
@[simp] theorem Upd.ft_fresh (v : FabTime) (s : State) : ((Upd.ft v).apply s).fresh = s.fresh := rfl
@[simp] theorem Upd.ft_outbox (v : FabTime) (s : State) : ((Upd.ft v).apply s).outbox = s.outbox := rfl
@[simp] theorem Upd.now_mem (v : Nat) (s : State) : ((Upd.now v).apply s).mem = s.mem := rfl
@[simp] theorem Upd.now_tags (v : Nat) (s : State) : ((Upd.now v).apply s).tags = s.tags := rfl
@[simp] theorem Upd.now_poison (v : Nat) (s : State) : ((Upd.now v).apply s).poison = s.poison := rfl
@[simp] theorem Upd.now_lines (v : Nat) (s : State) : ((Upd.now v).apply s).lines = s.lines := rfl
@[simp] theorem Upd.now_wlog (v : Nat) (s : State) : ((Upd.now v).apply s).wlog = s.wlog := rfl
@[simp] theorem Upd.now_tracks (v : Nat) (s : State) : ((Upd.now v).apply s).tracks = s.tracks := rfl
@[simp] theorem Upd.now_tlbs (v : Nat) (s : State) : ((Upd.now v).apply s).tlbs = s.tlbs := rfl
@[simp] theorem Upd.now_walks (v : Nat) (s : State) : ((Upd.now v).apply s).walks = s.walks := rfl
@[simp] theorem Upd.now_crews (v : Nat) (s : State) : ((Upd.now v).apply s).crews = s.crews := rfl
@[simp] theorem Upd.now_teams (v : Nat) (s : State) : ((Upd.now v).apply s).teams = s.teams := rfl
@[simp] theorem Upd.now_cores (v : Nat) (s : State) : ((Upd.now v).apply s).cores = s.cores := rfl
@[simp] theorem Upd.now_launches (v : Nat) (s : State) : ((Upd.now v).apply s).launches = s.launches := rfl
@[simp] theorem Upd.now_pends (v : Nat) (s : State) : ((Upd.now v).apply s).pends = s.pends := rfl
@[simp] theorem Upd.now_gangs (v : Nat) (s : State) : ((Upd.now v).apply s).gangs = s.gangs := rfl
@[simp] theorem Upd.now_saved (v : Nat) (s : State) : ((Upd.now v).apply s).saved = s.saved := rfl
@[simp] theorem Upd.now_coloc (v : Nat) (s : State) : ((Upd.now v).apply s).coloc = s.coloc := rfl
@[simp] theorem Upd.now_cycles (v : Nat) (s : State) : ((Upd.now v).apply s).cycles = s.cycles := rfl
@[simp] theorem Upd.now_parts (v : Nat) (s : State) : ((Upd.now v).apply s).parts = s.parts := rfl
@[simp] theorem Upd.now_vis (v : Nat) (s : State) : ((Upd.now v).apply s).vis = s.vis := rfl
@[simp] theorem Upd.now_ctxs (v : Nat) (s : State) : ((Upd.now v).apply s).ctxs = s.ctxs := rfl
@[simp] theorem Upd.now_objs (v : Nat) (s : State) : ((Upd.now v).apply s).objs = s.objs := rfl
@[simp] theorem Upd.now_queues (v : Nat) (s : State) : ((Upd.now v).apply s).queues = s.queues := rfl
@[simp] theorem Upd.now_slots (v : Nat) (s : State) : ((Upd.now v).apply s).slots = s.slots := rfl
@[simp] theorem Upd.now_engines (v : Nat) (s : State) : ((Upd.now v).apply s).engines = s.engines := rfl
@[simp] theorem Upd.now_passes (v : Nat) (s : State) : ((Upd.now v).apply s).passes = s.passes := rfl
@[simp] theorem Upd.now_held (v : Nat) (s : State) : ((Upd.now v).apply s).held = s.held := rfl
@[simp] theorem Upd.now_groups (v : Nat) (s : State) : ((Upd.now v).apply s).groups = s.groups := rfl
@[simp] theorem Upd.now_announces (v : Nat) (s : State) : ((Upd.now v).apply s).announces = s.announces := rfl
@[simp] theorem Upd.now_jds (v : Nat) (s : State) : ((Upd.now v).apply s).jds = s.jds := rfl
@[simp] theorem Upd.now_links (v : Nat) (s : State) : ((Upd.now v).apply s).links = s.links := rfl
@[simp] theorem Upd.now_wctxs (v : Nat) (s : State) : ((Upd.now v).apply s).wctxs = s.wctxs := rfl
@[simp] theorem Upd.now_wcur (v : Nat) (s : State) : ((Upd.now v).apply s).wcur = s.wcur := rfl
@[simp] theorem Upd.now_imem (v : Nat) (s : State) : ((Upd.now v).apply s).imem = s.imem := rfl
@[simp] theorem Upd.now_wsets (v : Nat) (s : State) : ((Upd.now v).apply s).wsets = s.wsets := rfl
@[simp] theorem Upd.now_ft (v : Nat) (s : State) : ((Upd.now v).apply s).ft = s.ft := rfl
@[simp] theorem Upd.now_now (v : Nat) (s : State) : ((Upd.now v).apply s).now = v := rfl
@[simp] theorem Upd.now_mod (v : Nat) (s : State) : ((Upd.now v).apply s).mod = s.mod := rfl
@[simp] theorem Upd.now_seq (v : Nat) (s : State) : ((Upd.now v).apply s).seq = s.seq := rfl
@[simp] theorem Upd.now_powered (v : Nat) (s : State) : ((Upd.now v).apply s).powered = s.powered := rfl
@[simp] theorem Upd.now_agenda (v : Nat) (s : State) : ((Upd.now v).apply s).agenda = s.agenda := rfl
@[simp] theorem Upd.now_cur (v : Nat) (s : State) : ((Upd.now v).apply s).cur = s.cur := rfl
@[simp] theorem Upd.now_fresh (v : Nat) (s : State) : ((Upd.now v).apply s).fresh = s.fresh := rfl
@[simp] theorem Upd.now_outbox (v : Nat) (s : State) : ((Upd.now v).apply s).outbox = s.outbox := rfl
@[simp] theorem Upd.mod_mem (v : ModuleSt) (s : State) : ((Upd.mod v).apply s).mem = s.mem := rfl
@[simp] theorem Upd.mod_tags (v : ModuleSt) (s : State) : ((Upd.mod v).apply s).tags = s.tags := rfl
@[simp] theorem Upd.mod_poison (v : ModuleSt) (s : State) : ((Upd.mod v).apply s).poison = s.poison := rfl
@[simp] theorem Upd.mod_lines (v : ModuleSt) (s : State) : ((Upd.mod v).apply s).lines = s.lines := rfl
@[simp] theorem Upd.mod_wlog (v : ModuleSt) (s : State) : ((Upd.mod v).apply s).wlog = s.wlog := rfl
@[simp] theorem Upd.mod_tracks (v : ModuleSt) (s : State) : ((Upd.mod v).apply s).tracks = s.tracks := rfl
@[simp] theorem Upd.mod_tlbs (v : ModuleSt) (s : State) : ((Upd.mod v).apply s).tlbs = s.tlbs := rfl
@[simp] theorem Upd.mod_walks (v : ModuleSt) (s : State) : ((Upd.mod v).apply s).walks = s.walks := rfl
@[simp] theorem Upd.mod_crews (v : ModuleSt) (s : State) : ((Upd.mod v).apply s).crews = s.crews := rfl
@[simp] theorem Upd.mod_teams (v : ModuleSt) (s : State) : ((Upd.mod v).apply s).teams = s.teams := rfl
@[simp] theorem Upd.mod_cores (v : ModuleSt) (s : State) : ((Upd.mod v).apply s).cores = s.cores := rfl
@[simp] theorem Upd.mod_launches (v : ModuleSt) (s : State) : ((Upd.mod v).apply s).launches = s.launches := rfl
@[simp] theorem Upd.mod_pends (v : ModuleSt) (s : State) : ((Upd.mod v).apply s).pends = s.pends := rfl
@[simp] theorem Upd.mod_gangs (v : ModuleSt) (s : State) : ((Upd.mod v).apply s).gangs = s.gangs := rfl
@[simp] theorem Upd.mod_saved (v : ModuleSt) (s : State) : ((Upd.mod v).apply s).saved = s.saved := rfl
@[simp] theorem Upd.mod_coloc (v : ModuleSt) (s : State) : ((Upd.mod v).apply s).coloc = s.coloc := rfl
@[simp] theorem Upd.mod_cycles (v : ModuleSt) (s : State) : ((Upd.mod v).apply s).cycles = s.cycles := rfl
@[simp] theorem Upd.mod_parts (v : ModuleSt) (s : State) : ((Upd.mod v).apply s).parts = s.parts := rfl
@[simp] theorem Upd.mod_vis (v : ModuleSt) (s : State) : ((Upd.mod v).apply s).vis = s.vis := rfl
@[simp] theorem Upd.mod_ctxs (v : ModuleSt) (s : State) : ((Upd.mod v).apply s).ctxs = s.ctxs := rfl
@[simp] theorem Upd.mod_objs (v : ModuleSt) (s : State) : ((Upd.mod v).apply s).objs = s.objs := rfl
@[simp] theorem Upd.mod_queues (v : ModuleSt) (s : State) : ((Upd.mod v).apply s).queues = s.queues := rfl
@[simp] theorem Upd.mod_slots (v : ModuleSt) (s : State) : ((Upd.mod v).apply s).slots = s.slots := rfl
@[simp] theorem Upd.mod_engines (v : ModuleSt) (s : State) : ((Upd.mod v).apply s).engines = s.engines := rfl
@[simp] theorem Upd.mod_passes (v : ModuleSt) (s : State) : ((Upd.mod v).apply s).passes = s.passes := rfl
@[simp] theorem Upd.mod_held (v : ModuleSt) (s : State) : ((Upd.mod v).apply s).held = s.held := rfl
@[simp] theorem Upd.mod_groups (v : ModuleSt) (s : State) : ((Upd.mod v).apply s).groups = s.groups := rfl
@[simp] theorem Upd.mod_announces (v : ModuleSt) (s : State) : ((Upd.mod v).apply s).announces = s.announces := rfl
@[simp] theorem Upd.mod_jds (v : ModuleSt) (s : State) : ((Upd.mod v).apply s).jds = s.jds := rfl
@[simp] theorem Upd.mod_links (v : ModuleSt) (s : State) : ((Upd.mod v).apply s).links = s.links := rfl
@[simp] theorem Upd.mod_wctxs (v : ModuleSt) (s : State) : ((Upd.mod v).apply s).wctxs = s.wctxs := rfl
@[simp] theorem Upd.mod_wcur (v : ModuleSt) (s : State) : ((Upd.mod v).apply s).wcur = s.wcur := rfl
@[simp] theorem Upd.mod_imem (v : ModuleSt) (s : State) : ((Upd.mod v).apply s).imem = s.imem := rfl
@[simp] theorem Upd.mod_wsets (v : ModuleSt) (s : State) : ((Upd.mod v).apply s).wsets = s.wsets := rfl
@[simp] theorem Upd.mod_ft (v : ModuleSt) (s : State) : ((Upd.mod v).apply s).ft = s.ft := rfl
@[simp] theorem Upd.mod_now (v : ModuleSt) (s : State) : ((Upd.mod v).apply s).now = s.now := rfl
@[simp] theorem Upd.mod_mod (v : ModuleSt) (s : State) : ((Upd.mod v).apply s).mod = v := rfl
@[simp] theorem Upd.mod_seq (v : ModuleSt) (s : State) : ((Upd.mod v).apply s).seq = s.seq := rfl
@[simp] theorem Upd.mod_powered (v : ModuleSt) (s : State) : ((Upd.mod v).apply s).powered = s.powered := rfl
@[simp] theorem Upd.mod_agenda (v : ModuleSt) (s : State) : ((Upd.mod v).apply s).agenda = s.agenda := rfl
@[simp] theorem Upd.mod_cur (v : ModuleSt) (s : State) : ((Upd.mod v).apply s).cur = s.cur := rfl
@[simp] theorem Upd.mod_fresh (v : ModuleSt) (s : State) : ((Upd.mod v).apply s).fresh = s.fresh := rfl
@[simp] theorem Upd.mod_outbox (v : ModuleSt) (s : State) : ((Upd.mod v).apply s).outbox = s.outbox := rfl
@[simp] theorem Upd.seq_mem (s : State) : ((Upd.seq).apply s).mem = s.mem := rfl
@[simp] theorem Upd.seq_tags (s : State) : ((Upd.seq).apply s).tags = s.tags := rfl
@[simp] theorem Upd.seq_poison (s : State) : ((Upd.seq).apply s).poison = s.poison := rfl
@[simp] theorem Upd.seq_lines (s : State) : ((Upd.seq).apply s).lines = s.lines := rfl
@[simp] theorem Upd.seq_wlog (s : State) : ((Upd.seq).apply s).wlog = s.wlog := rfl
@[simp] theorem Upd.seq_tracks (s : State) : ((Upd.seq).apply s).tracks = s.tracks := rfl
@[simp] theorem Upd.seq_tlbs (s : State) : ((Upd.seq).apply s).tlbs = s.tlbs := rfl
@[simp] theorem Upd.seq_walks (s : State) : ((Upd.seq).apply s).walks = s.walks := rfl
@[simp] theorem Upd.seq_crews (s : State) : ((Upd.seq).apply s).crews = s.crews := rfl
@[simp] theorem Upd.seq_teams (s : State) : ((Upd.seq).apply s).teams = s.teams := rfl
@[simp] theorem Upd.seq_cores (s : State) : ((Upd.seq).apply s).cores = s.cores := rfl
@[simp] theorem Upd.seq_launches (s : State) : ((Upd.seq).apply s).launches = s.launches := rfl
@[simp] theorem Upd.seq_pends (s : State) : ((Upd.seq).apply s).pends = s.pends := rfl
@[simp] theorem Upd.seq_gangs (s : State) : ((Upd.seq).apply s).gangs = s.gangs := rfl
@[simp] theorem Upd.seq_saved (s : State) : ((Upd.seq).apply s).saved = s.saved := rfl
@[simp] theorem Upd.seq_coloc (s : State) : ((Upd.seq).apply s).coloc = s.coloc := rfl
@[simp] theorem Upd.seq_cycles (s : State) : ((Upd.seq).apply s).cycles = s.cycles := rfl
@[simp] theorem Upd.seq_parts (s : State) : ((Upd.seq).apply s).parts = s.parts := rfl
@[simp] theorem Upd.seq_vis (s : State) : ((Upd.seq).apply s).vis = s.vis := rfl
@[simp] theorem Upd.seq_ctxs (s : State) : ((Upd.seq).apply s).ctxs = s.ctxs := rfl
@[simp] theorem Upd.seq_objs (s : State) : ((Upd.seq).apply s).objs = s.objs := rfl
@[simp] theorem Upd.seq_queues (s : State) : ((Upd.seq).apply s).queues = s.queues := rfl
@[simp] theorem Upd.seq_slots (s : State) : ((Upd.seq).apply s).slots = s.slots := rfl
@[simp] theorem Upd.seq_engines (s : State) : ((Upd.seq).apply s).engines = s.engines := rfl
@[simp] theorem Upd.seq_passes (s : State) : ((Upd.seq).apply s).passes = s.passes := rfl
@[simp] theorem Upd.seq_held (s : State) : ((Upd.seq).apply s).held = s.held := rfl
@[simp] theorem Upd.seq_groups (s : State) : ((Upd.seq).apply s).groups = s.groups := rfl
@[simp] theorem Upd.seq_announces (s : State) : ((Upd.seq).apply s).announces = s.announces := rfl
@[simp] theorem Upd.seq_jds (s : State) : ((Upd.seq).apply s).jds = s.jds := rfl
@[simp] theorem Upd.seq_links (s : State) : ((Upd.seq).apply s).links = s.links := rfl
@[simp] theorem Upd.seq_wctxs (s : State) : ((Upd.seq).apply s).wctxs = s.wctxs := rfl
@[simp] theorem Upd.seq_wcur (s : State) : ((Upd.seq).apply s).wcur = s.wcur := rfl
@[simp] theorem Upd.seq_imem (s : State) : ((Upd.seq).apply s).imem = s.imem := rfl
@[simp] theorem Upd.seq_wsets (s : State) : ((Upd.seq).apply s).wsets = s.wsets := rfl
@[simp] theorem Upd.seq_ft (s : State) : ((Upd.seq).apply s).ft = s.ft := rfl
@[simp] theorem Upd.seq_now (s : State) : ((Upd.seq).apply s).now = s.now := rfl
@[simp] theorem Upd.seq_mod (s : State) : ((Upd.seq).apply s).mod = s.mod := rfl
@[simp] theorem Upd.seq_seq (s : State) : ((Upd.seq).apply s).seq = s.seq + 1 := rfl
@[simp] theorem Upd.seq_powered (s : State) : ((Upd.seq).apply s).powered = s.powered := rfl
@[simp] theorem Upd.seq_agenda (s : State) : ((Upd.seq).apply s).agenda = s.agenda := rfl
@[simp] theorem Upd.seq_cur (s : State) : ((Upd.seq).apply s).cur = s.cur := rfl
@[simp] theorem Upd.seq_fresh (s : State) : ((Upd.seq).apply s).fresh = s.fresh := rfl
@[simp] theorem Upd.seq_outbox (s : State) : ((Upd.seq).apply s).outbox = s.outbox := rfl
@[simp] theorem Upd.powered_mem (v : Bool) (s : State) : ((Upd.powered v).apply s).mem = s.mem := rfl
@[simp] theorem Upd.powered_tags (v : Bool) (s : State) : ((Upd.powered v).apply s).tags = s.tags := rfl
@[simp] theorem Upd.powered_poison (v : Bool) (s : State) : ((Upd.powered v).apply s).poison = s.poison := rfl
@[simp] theorem Upd.powered_lines (v : Bool) (s : State) : ((Upd.powered v).apply s).lines = s.lines := rfl
@[simp] theorem Upd.powered_wlog (v : Bool) (s : State) : ((Upd.powered v).apply s).wlog = s.wlog := rfl
@[simp] theorem Upd.powered_tracks (v : Bool) (s : State) : ((Upd.powered v).apply s).tracks = s.tracks := rfl
@[simp] theorem Upd.powered_tlbs (v : Bool) (s : State) : ((Upd.powered v).apply s).tlbs = s.tlbs := rfl
@[simp] theorem Upd.powered_walks (v : Bool) (s : State) : ((Upd.powered v).apply s).walks = s.walks := rfl
@[simp] theorem Upd.powered_crews (v : Bool) (s : State) : ((Upd.powered v).apply s).crews = s.crews := rfl
@[simp] theorem Upd.powered_teams (v : Bool) (s : State) : ((Upd.powered v).apply s).teams = s.teams := rfl
@[simp] theorem Upd.powered_cores (v : Bool) (s : State) : ((Upd.powered v).apply s).cores = s.cores := rfl
@[simp] theorem Upd.powered_launches (v : Bool) (s : State) : ((Upd.powered v).apply s).launches = s.launches := rfl
@[simp] theorem Upd.powered_pends (v : Bool) (s : State) : ((Upd.powered v).apply s).pends = s.pends := rfl
@[simp] theorem Upd.powered_gangs (v : Bool) (s : State) : ((Upd.powered v).apply s).gangs = s.gangs := rfl
@[simp] theorem Upd.powered_saved (v : Bool) (s : State) : ((Upd.powered v).apply s).saved = s.saved := rfl
@[simp] theorem Upd.powered_coloc (v : Bool) (s : State) : ((Upd.powered v).apply s).coloc = s.coloc := rfl
@[simp] theorem Upd.powered_cycles (v : Bool) (s : State) : ((Upd.powered v).apply s).cycles = s.cycles := rfl
@[simp] theorem Upd.powered_parts (v : Bool) (s : State) : ((Upd.powered v).apply s).parts = s.parts := rfl
@[simp] theorem Upd.powered_vis (v : Bool) (s : State) : ((Upd.powered v).apply s).vis = s.vis := rfl
@[simp] theorem Upd.powered_ctxs (v : Bool) (s : State) : ((Upd.powered v).apply s).ctxs = s.ctxs := rfl
@[simp] theorem Upd.powered_objs (v : Bool) (s : State) : ((Upd.powered v).apply s).objs = s.objs := rfl
@[simp] theorem Upd.powered_queues (v : Bool) (s : State) : ((Upd.powered v).apply s).queues = s.queues := rfl
@[simp] theorem Upd.powered_slots (v : Bool) (s : State) : ((Upd.powered v).apply s).slots = s.slots := rfl
@[simp] theorem Upd.powered_engines (v : Bool) (s : State) : ((Upd.powered v).apply s).engines = s.engines := rfl
@[simp] theorem Upd.powered_passes (v : Bool) (s : State) : ((Upd.powered v).apply s).passes = s.passes := rfl
@[simp] theorem Upd.powered_held (v : Bool) (s : State) : ((Upd.powered v).apply s).held = s.held := rfl
@[simp] theorem Upd.powered_groups (v : Bool) (s : State) : ((Upd.powered v).apply s).groups = s.groups := rfl
@[simp] theorem Upd.powered_announces (v : Bool) (s : State) : ((Upd.powered v).apply s).announces = s.announces := rfl
@[simp] theorem Upd.powered_jds (v : Bool) (s : State) : ((Upd.powered v).apply s).jds = s.jds := rfl
@[simp] theorem Upd.powered_links (v : Bool) (s : State) : ((Upd.powered v).apply s).links = s.links := rfl
@[simp] theorem Upd.powered_wctxs (v : Bool) (s : State) : ((Upd.powered v).apply s).wctxs = s.wctxs := rfl
@[simp] theorem Upd.powered_wcur (v : Bool) (s : State) : ((Upd.powered v).apply s).wcur = s.wcur := rfl
@[simp] theorem Upd.powered_imem (v : Bool) (s : State) : ((Upd.powered v).apply s).imem = s.imem := rfl
@[simp] theorem Upd.powered_wsets (v : Bool) (s : State) : ((Upd.powered v).apply s).wsets = s.wsets := rfl
@[simp] theorem Upd.powered_ft (v : Bool) (s : State) : ((Upd.powered v).apply s).ft = s.ft := rfl
@[simp] theorem Upd.powered_now (v : Bool) (s : State) : ((Upd.powered v).apply s).now = s.now := rfl
@[simp] theorem Upd.powered_mod (v : Bool) (s : State) : ((Upd.powered v).apply s).mod = s.mod := rfl
@[simp] theorem Upd.powered_seq (v : Bool) (s : State) : ((Upd.powered v).apply s).seq = s.seq := rfl
@[simp] theorem Upd.powered_powered (v : Bool) (s : State) : ((Upd.powered v).apply s).powered = v := rfl
@[simp] theorem Upd.powered_agenda (v : Bool) (s : State) : ((Upd.powered v).apply s).agenda = s.agenda := rfl
@[simp] theorem Upd.powered_cur (v : Bool) (s : State) : ((Upd.powered v).apply s).cur = s.cur := rfl
@[simp] theorem Upd.powered_fresh (v : Bool) (s : State) : ((Upd.powered v).apply s).fresh = s.fresh := rfl
@[simp] theorem Upd.powered_outbox (v : Bool) (s : State) : ((Upd.powered v).apply s).outbox = s.outbox := rfl
@[simp] theorem Upd.agenda_mem (v : List Turn) (s : State) : ((Upd.agenda v).apply s).mem = s.mem := rfl
@[simp] theorem Upd.agenda_tags (v : List Turn) (s : State) : ((Upd.agenda v).apply s).tags = s.tags := rfl
@[simp] theorem Upd.agenda_poison (v : List Turn) (s : State) : ((Upd.agenda v).apply s).poison = s.poison := rfl
@[simp] theorem Upd.agenda_lines (v : List Turn) (s : State) : ((Upd.agenda v).apply s).lines = s.lines := rfl
@[simp] theorem Upd.agenda_wlog (v : List Turn) (s : State) : ((Upd.agenda v).apply s).wlog = s.wlog := rfl
@[simp] theorem Upd.agenda_tracks (v : List Turn) (s : State) : ((Upd.agenda v).apply s).tracks = s.tracks := rfl
@[simp] theorem Upd.agenda_tlbs (v : List Turn) (s : State) : ((Upd.agenda v).apply s).tlbs = s.tlbs := rfl
@[simp] theorem Upd.agenda_walks (v : List Turn) (s : State) : ((Upd.agenda v).apply s).walks = s.walks := rfl
@[simp] theorem Upd.agenda_crews (v : List Turn) (s : State) : ((Upd.agenda v).apply s).crews = s.crews := rfl
@[simp] theorem Upd.agenda_teams (v : List Turn) (s : State) : ((Upd.agenda v).apply s).teams = s.teams := rfl
@[simp] theorem Upd.agenda_cores (v : List Turn) (s : State) : ((Upd.agenda v).apply s).cores = s.cores := rfl
@[simp] theorem Upd.agenda_launches (v : List Turn) (s : State) : ((Upd.agenda v).apply s).launches = s.launches := rfl
@[simp] theorem Upd.agenda_pends (v : List Turn) (s : State) : ((Upd.agenda v).apply s).pends = s.pends := rfl
@[simp] theorem Upd.agenda_gangs (v : List Turn) (s : State) : ((Upd.agenda v).apply s).gangs = s.gangs := rfl
@[simp] theorem Upd.agenda_saved (v : List Turn) (s : State) : ((Upd.agenda v).apply s).saved = s.saved := rfl
@[simp] theorem Upd.agenda_coloc (v : List Turn) (s : State) : ((Upd.agenda v).apply s).coloc = s.coloc := rfl
@[simp] theorem Upd.agenda_cycles (v : List Turn) (s : State) : ((Upd.agenda v).apply s).cycles = s.cycles := rfl
@[simp] theorem Upd.agenda_parts (v : List Turn) (s : State) : ((Upd.agenda v).apply s).parts = s.parts := rfl
@[simp] theorem Upd.agenda_vis (v : List Turn) (s : State) : ((Upd.agenda v).apply s).vis = s.vis := rfl
@[simp] theorem Upd.agenda_ctxs (v : List Turn) (s : State) : ((Upd.agenda v).apply s).ctxs = s.ctxs := rfl
@[simp] theorem Upd.agenda_objs (v : List Turn) (s : State) : ((Upd.agenda v).apply s).objs = s.objs := rfl
@[simp] theorem Upd.agenda_queues (v : List Turn) (s : State) : ((Upd.agenda v).apply s).queues = s.queues := rfl
@[simp] theorem Upd.agenda_slots (v : List Turn) (s : State) : ((Upd.agenda v).apply s).slots = s.slots := rfl
@[simp] theorem Upd.agenda_engines (v : List Turn) (s : State) : ((Upd.agenda v).apply s).engines = s.engines := rfl
@[simp] theorem Upd.agenda_passes (v : List Turn) (s : State) : ((Upd.agenda v).apply s).passes = s.passes := rfl
@[simp] theorem Upd.agenda_held (v : List Turn) (s : State) : ((Upd.agenda v).apply s).held = s.held := rfl
@[simp] theorem Upd.agenda_groups (v : List Turn) (s : State) : ((Upd.agenda v).apply s).groups = s.groups := rfl
@[simp] theorem Upd.agenda_announces (v : List Turn) (s : State) : ((Upd.agenda v).apply s).announces = s.announces := rfl
@[simp] theorem Upd.agenda_jds (v : List Turn) (s : State) : ((Upd.agenda v).apply s).jds = s.jds := rfl
@[simp] theorem Upd.agenda_links (v : List Turn) (s : State) : ((Upd.agenda v).apply s).links = s.links := rfl
@[simp] theorem Upd.agenda_wctxs (v : List Turn) (s : State) : ((Upd.agenda v).apply s).wctxs = s.wctxs := rfl
@[simp] theorem Upd.agenda_wcur (v : List Turn) (s : State) : ((Upd.agenda v).apply s).wcur = s.wcur := rfl
@[simp] theorem Upd.agenda_imem (v : List Turn) (s : State) : ((Upd.agenda v).apply s).imem = s.imem := rfl
@[simp] theorem Upd.agenda_wsets (v : List Turn) (s : State) : ((Upd.agenda v).apply s).wsets = s.wsets := rfl
@[simp] theorem Upd.agenda_ft (v : List Turn) (s : State) : ((Upd.agenda v).apply s).ft = s.ft := rfl
@[simp] theorem Upd.agenda_now (v : List Turn) (s : State) : ((Upd.agenda v).apply s).now = s.now := rfl
@[simp] theorem Upd.agenda_mod (v : List Turn) (s : State) : ((Upd.agenda v).apply s).mod = s.mod := rfl
@[simp] theorem Upd.agenda_seq (v : List Turn) (s : State) : ((Upd.agenda v).apply s).seq = s.seq := rfl
@[simp] theorem Upd.agenda_powered (v : List Turn) (s : State) : ((Upd.agenda v).apply s).powered = s.powered := rfl
@[simp] theorem Upd.agenda_agenda (v : List Turn) (s : State) : ((Upd.agenda v).apply s).agenda = v := rfl
@[simp] theorem Upd.agenda_cur (v : List Turn) (s : State) : ((Upd.agenda v).apply s).cur = s.cur := rfl
@[simp] theorem Upd.agenda_fresh (v : List Turn) (s : State) : ((Upd.agenda v).apply s).fresh = s.fresh := rfl
@[simp] theorem Upd.agenda_outbox (v : List Turn) (s : State) : ((Upd.agenda v).apply s).outbox = s.outbox := rfl
@[simp] theorem Upd.cur_mem (v : Who) (s : State) : ((Upd.cur v).apply s).mem = s.mem := rfl
@[simp] theorem Upd.cur_tags (v : Who) (s : State) : ((Upd.cur v).apply s).tags = s.tags := rfl
@[simp] theorem Upd.cur_poison (v : Who) (s : State) : ((Upd.cur v).apply s).poison = s.poison := rfl
@[simp] theorem Upd.cur_lines (v : Who) (s : State) : ((Upd.cur v).apply s).lines = s.lines := rfl
@[simp] theorem Upd.cur_wlog (v : Who) (s : State) : ((Upd.cur v).apply s).wlog = s.wlog := rfl
@[simp] theorem Upd.cur_tracks (v : Who) (s : State) : ((Upd.cur v).apply s).tracks = s.tracks := rfl
@[simp] theorem Upd.cur_tlbs (v : Who) (s : State) : ((Upd.cur v).apply s).tlbs = s.tlbs := rfl
@[simp] theorem Upd.cur_walks (v : Who) (s : State) : ((Upd.cur v).apply s).walks = s.walks := rfl
@[simp] theorem Upd.cur_crews (v : Who) (s : State) : ((Upd.cur v).apply s).crews = s.crews := rfl
@[simp] theorem Upd.cur_teams (v : Who) (s : State) : ((Upd.cur v).apply s).teams = s.teams := rfl
@[simp] theorem Upd.cur_cores (v : Who) (s : State) : ((Upd.cur v).apply s).cores = s.cores := rfl
@[simp] theorem Upd.cur_launches (v : Who) (s : State) : ((Upd.cur v).apply s).launches = s.launches := rfl
@[simp] theorem Upd.cur_pends (v : Who) (s : State) : ((Upd.cur v).apply s).pends = s.pends := rfl
@[simp] theorem Upd.cur_gangs (v : Who) (s : State) : ((Upd.cur v).apply s).gangs = s.gangs := rfl
@[simp] theorem Upd.cur_saved (v : Who) (s : State) : ((Upd.cur v).apply s).saved = s.saved := rfl
@[simp] theorem Upd.cur_coloc (v : Who) (s : State) : ((Upd.cur v).apply s).coloc = s.coloc := rfl
@[simp] theorem Upd.cur_cycles (v : Who) (s : State) : ((Upd.cur v).apply s).cycles = s.cycles := rfl
@[simp] theorem Upd.cur_parts (v : Who) (s : State) : ((Upd.cur v).apply s).parts = s.parts := rfl
@[simp] theorem Upd.cur_vis (v : Who) (s : State) : ((Upd.cur v).apply s).vis = s.vis := rfl
@[simp] theorem Upd.cur_ctxs (v : Who) (s : State) : ((Upd.cur v).apply s).ctxs = s.ctxs := rfl
@[simp] theorem Upd.cur_objs (v : Who) (s : State) : ((Upd.cur v).apply s).objs = s.objs := rfl
@[simp] theorem Upd.cur_queues (v : Who) (s : State) : ((Upd.cur v).apply s).queues = s.queues := rfl
@[simp] theorem Upd.cur_slots (v : Who) (s : State) : ((Upd.cur v).apply s).slots = s.slots := rfl
@[simp] theorem Upd.cur_engines (v : Who) (s : State) : ((Upd.cur v).apply s).engines = s.engines := rfl
@[simp] theorem Upd.cur_passes (v : Who) (s : State) : ((Upd.cur v).apply s).passes = s.passes := rfl
@[simp] theorem Upd.cur_held (v : Who) (s : State) : ((Upd.cur v).apply s).held = s.held := rfl
@[simp] theorem Upd.cur_groups (v : Who) (s : State) : ((Upd.cur v).apply s).groups = s.groups := rfl
@[simp] theorem Upd.cur_announces (v : Who) (s : State) : ((Upd.cur v).apply s).announces = s.announces := rfl
@[simp] theorem Upd.cur_jds (v : Who) (s : State) : ((Upd.cur v).apply s).jds = s.jds := rfl
@[simp] theorem Upd.cur_links (v : Who) (s : State) : ((Upd.cur v).apply s).links = s.links := rfl
@[simp] theorem Upd.cur_wctxs (v : Who) (s : State) : ((Upd.cur v).apply s).wctxs = s.wctxs := rfl
@[simp] theorem Upd.cur_wcur (v : Who) (s : State) : ((Upd.cur v).apply s).wcur = s.wcur := rfl
@[simp] theorem Upd.cur_imem (v : Who) (s : State) : ((Upd.cur v).apply s).imem = s.imem := rfl
@[simp] theorem Upd.cur_wsets (v : Who) (s : State) : ((Upd.cur v).apply s).wsets = s.wsets := rfl
@[simp] theorem Upd.cur_ft (v : Who) (s : State) : ((Upd.cur v).apply s).ft = s.ft := rfl
@[simp] theorem Upd.cur_now (v : Who) (s : State) : ((Upd.cur v).apply s).now = s.now := rfl
@[simp] theorem Upd.cur_mod (v : Who) (s : State) : ((Upd.cur v).apply s).mod = s.mod := rfl
@[simp] theorem Upd.cur_seq (v : Who) (s : State) : ((Upd.cur v).apply s).seq = s.seq := rfl
@[simp] theorem Upd.cur_powered (v : Who) (s : State) : ((Upd.cur v).apply s).powered = s.powered := rfl
@[simp] theorem Upd.cur_agenda (v : Who) (s : State) : ((Upd.cur v).apply s).agenda = s.agenda := rfl
@[simp] theorem Upd.cur_cur (v : Who) (s : State) : ((Upd.cur v).apply s).cur = v := rfl
@[simp] theorem Upd.cur_fresh (v : Who) (s : State) : ((Upd.cur v).apply s).fresh = s.fresh := rfl
@[simp] theorem Upd.cur_outbox (v : Who) (s : State) : ((Upd.cur v).apply s).outbox = s.outbox := rfl
@[simp] theorem Upd.fresh_mem (s : State) : ((Upd.fresh).apply s).mem = s.mem := rfl
@[simp] theorem Upd.fresh_tags (s : State) : ((Upd.fresh).apply s).tags = s.tags := rfl
@[simp] theorem Upd.fresh_poison (s : State) : ((Upd.fresh).apply s).poison = s.poison := rfl
@[simp] theorem Upd.fresh_lines (s : State) : ((Upd.fresh).apply s).lines = s.lines := rfl
@[simp] theorem Upd.fresh_wlog (s : State) : ((Upd.fresh).apply s).wlog = s.wlog := rfl
@[simp] theorem Upd.fresh_tracks (s : State) : ((Upd.fresh).apply s).tracks = s.tracks := rfl
@[simp] theorem Upd.fresh_tlbs (s : State) : ((Upd.fresh).apply s).tlbs = s.tlbs := rfl
@[simp] theorem Upd.fresh_walks (s : State) : ((Upd.fresh).apply s).walks = s.walks := rfl
@[simp] theorem Upd.fresh_crews (s : State) : ((Upd.fresh).apply s).crews = s.crews := rfl
@[simp] theorem Upd.fresh_teams (s : State) : ((Upd.fresh).apply s).teams = s.teams := rfl
@[simp] theorem Upd.fresh_cores (s : State) : ((Upd.fresh).apply s).cores = s.cores := rfl
@[simp] theorem Upd.fresh_launches (s : State) : ((Upd.fresh).apply s).launches = s.launches := rfl
@[simp] theorem Upd.fresh_pends (s : State) : ((Upd.fresh).apply s).pends = s.pends := rfl
@[simp] theorem Upd.fresh_gangs (s : State) : ((Upd.fresh).apply s).gangs = s.gangs := rfl
@[simp] theorem Upd.fresh_saved (s : State) : ((Upd.fresh).apply s).saved = s.saved := rfl
@[simp] theorem Upd.fresh_coloc (s : State) : ((Upd.fresh).apply s).coloc = s.coloc := rfl
@[simp] theorem Upd.fresh_cycles (s : State) : ((Upd.fresh).apply s).cycles = s.cycles := rfl
@[simp] theorem Upd.fresh_parts (s : State) : ((Upd.fresh).apply s).parts = s.parts := rfl
@[simp] theorem Upd.fresh_vis (s : State) : ((Upd.fresh).apply s).vis = s.vis := rfl
@[simp] theorem Upd.fresh_ctxs (s : State) : ((Upd.fresh).apply s).ctxs = s.ctxs := rfl
@[simp] theorem Upd.fresh_objs (s : State) : ((Upd.fresh).apply s).objs = s.objs := rfl
@[simp] theorem Upd.fresh_queues (s : State) : ((Upd.fresh).apply s).queues = s.queues := rfl
@[simp] theorem Upd.fresh_slots (s : State) : ((Upd.fresh).apply s).slots = s.slots := rfl
@[simp] theorem Upd.fresh_engines (s : State) : ((Upd.fresh).apply s).engines = s.engines := rfl
@[simp] theorem Upd.fresh_passes (s : State) : ((Upd.fresh).apply s).passes = s.passes := rfl
@[simp] theorem Upd.fresh_held (s : State) : ((Upd.fresh).apply s).held = s.held := rfl
@[simp] theorem Upd.fresh_groups (s : State) : ((Upd.fresh).apply s).groups = s.groups := rfl
@[simp] theorem Upd.fresh_announces (s : State) : ((Upd.fresh).apply s).announces = s.announces := rfl
@[simp] theorem Upd.fresh_jds (s : State) : ((Upd.fresh).apply s).jds = s.jds := rfl
@[simp] theorem Upd.fresh_links (s : State) : ((Upd.fresh).apply s).links = s.links := rfl
@[simp] theorem Upd.fresh_wctxs (s : State) : ((Upd.fresh).apply s).wctxs = s.wctxs := rfl
@[simp] theorem Upd.fresh_wcur (s : State) : ((Upd.fresh).apply s).wcur = s.wcur := rfl
@[simp] theorem Upd.fresh_imem (s : State) : ((Upd.fresh).apply s).imem = s.imem := rfl
@[simp] theorem Upd.fresh_wsets (s : State) : ((Upd.fresh).apply s).wsets = s.wsets := rfl
@[simp] theorem Upd.fresh_ft (s : State) : ((Upd.fresh).apply s).ft = s.ft := rfl
@[simp] theorem Upd.fresh_now (s : State) : ((Upd.fresh).apply s).now = s.now := rfl
@[simp] theorem Upd.fresh_mod (s : State) : ((Upd.fresh).apply s).mod = s.mod := rfl
@[simp] theorem Upd.fresh_seq (s : State) : ((Upd.fresh).apply s).seq = s.seq := rfl
@[simp] theorem Upd.fresh_powered (s : State) : ((Upd.fresh).apply s).powered = s.powered := rfl
@[simp] theorem Upd.fresh_agenda (s : State) : ((Upd.fresh).apply s).agenda = s.agenda := rfl
@[simp] theorem Upd.fresh_cur (s : State) : ((Upd.fresh).apply s).cur = s.cur := rfl
@[simp] theorem Upd.fresh_fresh (s : State) : ((Upd.fresh).apply s).fresh = s.fresh + 1 := rfl
@[simp] theorem Upd.fresh_outbox (s : State) : ((Upd.fresh).apply s).outbox = s.outbox := rfl
@[simp] theorem Upd.outbox_mem (v : List Msg) (s : State) : ((Upd.outbox v).apply s).mem = s.mem := rfl
@[simp] theorem Upd.outbox_tags (v : List Msg) (s : State) : ((Upd.outbox v).apply s).tags = s.tags := rfl
@[simp] theorem Upd.outbox_poison (v : List Msg) (s : State) : ((Upd.outbox v).apply s).poison = s.poison := rfl
@[simp] theorem Upd.outbox_lines (v : List Msg) (s : State) : ((Upd.outbox v).apply s).lines = s.lines := rfl
@[simp] theorem Upd.outbox_wlog (v : List Msg) (s : State) : ((Upd.outbox v).apply s).wlog = s.wlog := rfl
@[simp] theorem Upd.outbox_tracks (v : List Msg) (s : State) : ((Upd.outbox v).apply s).tracks = s.tracks := rfl
@[simp] theorem Upd.outbox_tlbs (v : List Msg) (s : State) : ((Upd.outbox v).apply s).tlbs = s.tlbs := rfl
@[simp] theorem Upd.outbox_walks (v : List Msg) (s : State) : ((Upd.outbox v).apply s).walks = s.walks := rfl
@[simp] theorem Upd.outbox_crews (v : List Msg) (s : State) : ((Upd.outbox v).apply s).crews = s.crews := rfl
@[simp] theorem Upd.outbox_teams (v : List Msg) (s : State) : ((Upd.outbox v).apply s).teams = s.teams := rfl
@[simp] theorem Upd.outbox_cores (v : List Msg) (s : State) : ((Upd.outbox v).apply s).cores = s.cores := rfl
@[simp] theorem Upd.outbox_launches (v : List Msg) (s : State) : ((Upd.outbox v).apply s).launches = s.launches := rfl
@[simp] theorem Upd.outbox_pends (v : List Msg) (s : State) : ((Upd.outbox v).apply s).pends = s.pends := rfl
@[simp] theorem Upd.outbox_gangs (v : List Msg) (s : State) : ((Upd.outbox v).apply s).gangs = s.gangs := rfl
@[simp] theorem Upd.outbox_saved (v : List Msg) (s : State) : ((Upd.outbox v).apply s).saved = s.saved := rfl
@[simp] theorem Upd.outbox_coloc (v : List Msg) (s : State) : ((Upd.outbox v).apply s).coloc = s.coloc := rfl
@[simp] theorem Upd.outbox_cycles (v : List Msg) (s : State) : ((Upd.outbox v).apply s).cycles = s.cycles := rfl
@[simp] theorem Upd.outbox_parts (v : List Msg) (s : State) : ((Upd.outbox v).apply s).parts = s.parts := rfl
@[simp] theorem Upd.outbox_vis (v : List Msg) (s : State) : ((Upd.outbox v).apply s).vis = s.vis := rfl
@[simp] theorem Upd.outbox_ctxs (v : List Msg) (s : State) : ((Upd.outbox v).apply s).ctxs = s.ctxs := rfl
@[simp] theorem Upd.outbox_objs (v : List Msg) (s : State) : ((Upd.outbox v).apply s).objs = s.objs := rfl
@[simp] theorem Upd.outbox_queues (v : List Msg) (s : State) : ((Upd.outbox v).apply s).queues = s.queues := rfl
@[simp] theorem Upd.outbox_slots (v : List Msg) (s : State) : ((Upd.outbox v).apply s).slots = s.slots := rfl
@[simp] theorem Upd.outbox_engines (v : List Msg) (s : State) : ((Upd.outbox v).apply s).engines = s.engines := rfl
@[simp] theorem Upd.outbox_passes (v : List Msg) (s : State) : ((Upd.outbox v).apply s).passes = s.passes := rfl
@[simp] theorem Upd.outbox_held (v : List Msg) (s : State) : ((Upd.outbox v).apply s).held = s.held := rfl
@[simp] theorem Upd.outbox_groups (v : List Msg) (s : State) : ((Upd.outbox v).apply s).groups = s.groups := rfl
@[simp] theorem Upd.outbox_announces (v : List Msg) (s : State) : ((Upd.outbox v).apply s).announces = s.announces := rfl
@[simp] theorem Upd.outbox_jds (v : List Msg) (s : State) : ((Upd.outbox v).apply s).jds = s.jds := rfl
@[simp] theorem Upd.outbox_links (v : List Msg) (s : State) : ((Upd.outbox v).apply s).links = s.links := rfl
@[simp] theorem Upd.outbox_wctxs (v : List Msg) (s : State) : ((Upd.outbox v).apply s).wctxs = s.wctxs := rfl
@[simp] theorem Upd.outbox_wcur (v : List Msg) (s : State) : ((Upd.outbox v).apply s).wcur = s.wcur := rfl
@[simp] theorem Upd.outbox_imem (v : List Msg) (s : State) : ((Upd.outbox v).apply s).imem = s.imem := rfl
@[simp] theorem Upd.outbox_wsets (v : List Msg) (s : State) : ((Upd.outbox v).apply s).wsets = s.wsets := rfl
@[simp] theorem Upd.outbox_ft (v : List Msg) (s : State) : ((Upd.outbox v).apply s).ft = s.ft := rfl
@[simp] theorem Upd.outbox_now (v : List Msg) (s : State) : ((Upd.outbox v).apply s).now = s.now := rfl
@[simp] theorem Upd.outbox_mod (v : List Msg) (s : State) : ((Upd.outbox v).apply s).mod = s.mod := rfl
@[simp] theorem Upd.outbox_seq (v : List Msg) (s : State) : ((Upd.outbox v).apply s).seq = s.seq := rfl
@[simp] theorem Upd.outbox_powered (v : List Msg) (s : State) : ((Upd.outbox v).apply s).powered = s.powered := rfl
@[simp] theorem Upd.outbox_agenda (v : List Msg) (s : State) : ((Upd.outbox v).apply s).agenda = s.agenda := rfl
@[simp] theorem Upd.outbox_cur (v : List Msg) (s : State) : ((Upd.outbox v).apply s).cur = s.cur := rfl
@[simp] theorem Upd.outbox_fresh (v : List Msg) (s : State) : ((Upd.outbox v).apply s).fresh = s.fresh := rfl
@[simp] theorem Upd.outbox_outbox (v : List Msg) (s : State) : ((Upd.outbox v).apply s).outbox = v := rfl
@[simp] theorem Upd.restart_mem (keep : Bool) (s : State) : ((Upd.restart keep).apply s).mem = if keep then s.mem else [] := rfl
@[simp] theorem Upd.restart_tags (keep : Bool) (s : State) : ((Upd.restart keep).apply s).tags = if keep then s.tags else [] := rfl
@[simp] theorem Upd.restart_poison (keep : Bool) (s : State) : ((Upd.restart keep).apply s).poison = if keep then s.poison else [] := rfl
@[simp] theorem Upd.restart_lines (keep : Bool) (s : State) : ((Upd.restart keep).apply s).lines = State.reset.lines := rfl
@[simp] theorem Upd.restart_wlog (keep : Bool) (s : State) : ((Upd.restart keep).apply s).wlog = State.reset.wlog := rfl
@[simp] theorem Upd.restart_tracks (keep : Bool) (s : State) : ((Upd.restart keep).apply s).tracks = State.reset.tracks := rfl
@[simp] theorem Upd.restart_tlbs (keep : Bool) (s : State) : ((Upd.restart keep).apply s).tlbs = State.reset.tlbs := rfl
@[simp] theorem Upd.restart_walks (keep : Bool) (s : State) : ((Upd.restart keep).apply s).walks = State.reset.walks := rfl
@[simp] theorem Upd.restart_crews (keep : Bool) (s : State) : ((Upd.restart keep).apply s).crews = State.reset.crews := rfl
@[simp] theorem Upd.restart_teams (keep : Bool) (s : State) : ((Upd.restart keep).apply s).teams = State.reset.teams := rfl
@[simp] theorem Upd.restart_cores (keep : Bool) (s : State) : ((Upd.restart keep).apply s).cores = State.reset.cores := rfl
@[simp] theorem Upd.restart_launches (keep : Bool) (s : State) : ((Upd.restart keep).apply s).launches = State.reset.launches := rfl
@[simp] theorem Upd.restart_pends (keep : Bool) (s : State) : ((Upd.restart keep).apply s).pends = State.reset.pends := rfl
@[simp] theorem Upd.restart_gangs (keep : Bool) (s : State) : ((Upd.restart keep).apply s).gangs = State.reset.gangs := rfl
@[simp] theorem Upd.restart_saved (keep : Bool) (s : State) : ((Upd.restart keep).apply s).saved = State.reset.saved := rfl
@[simp] theorem Upd.restart_coloc (keep : Bool) (s : State) : ((Upd.restart keep).apply s).coloc = State.reset.coloc := rfl
@[simp] theorem Upd.restart_cycles (keep : Bool) (s : State) : ((Upd.restart keep).apply s).cycles = State.reset.cycles := rfl
@[simp] theorem Upd.restart_parts (keep : Bool) (s : State) : ((Upd.restart keep).apply s).parts = State.reset.parts := rfl
@[simp] theorem Upd.restart_vis (keep : Bool) (s : State) : ((Upd.restart keep).apply s).vis = State.reset.vis := rfl
@[simp] theorem Upd.restart_ctxs (keep : Bool) (s : State) : ((Upd.restart keep).apply s).ctxs = State.reset.ctxs := rfl
@[simp] theorem Upd.restart_objs (keep : Bool) (s : State) : ((Upd.restart keep).apply s).objs = State.reset.objs := rfl
@[simp] theorem Upd.restart_queues (keep : Bool) (s : State) : ((Upd.restart keep).apply s).queues = State.reset.queues := rfl
@[simp] theorem Upd.restart_slots (keep : Bool) (s : State) : ((Upd.restart keep).apply s).slots = State.reset.slots := rfl
@[simp] theorem Upd.restart_engines (keep : Bool) (s : State) : ((Upd.restart keep).apply s).engines = State.reset.engines := rfl
@[simp] theorem Upd.restart_passes (keep : Bool) (s : State) : ((Upd.restart keep).apply s).passes = State.reset.passes := rfl
@[simp] theorem Upd.restart_held (keep : Bool) (s : State) : ((Upd.restart keep).apply s).held = State.reset.held := rfl
@[simp] theorem Upd.restart_groups (keep : Bool) (s : State) : ((Upd.restart keep).apply s).groups = State.reset.groups := rfl
@[simp] theorem Upd.restart_announces (keep : Bool) (s : State) : ((Upd.restart keep).apply s).announces = State.reset.announces := rfl
@[simp] theorem Upd.restart_jds (keep : Bool) (s : State) : ((Upd.restart keep).apply s).jds = State.reset.jds := rfl
@[simp] theorem Upd.restart_links (keep : Bool) (s : State) : ((Upd.restart keep).apply s).links = State.reset.links := rfl
@[simp] theorem Upd.restart_wctxs (keep : Bool) (s : State) : ((Upd.restart keep).apply s).wctxs = State.reset.wctxs := rfl
@[simp] theorem Upd.restart_wcur (keep : Bool) (s : State) : ((Upd.restart keep).apply s).wcur = State.reset.wcur := rfl
@[simp] theorem Upd.restart_imem (keep : Bool) (s : State) : ((Upd.restart keep).apply s).imem = State.reset.imem := rfl
@[simp] theorem Upd.restart_wsets (keep : Bool) (s : State) : ((Upd.restart keep).apply s).wsets = State.reset.wsets := rfl
@[simp] theorem Upd.restart_ft (keep : Bool) (s : State) : ((Upd.restart keep).apply s).ft = State.reset.ft := rfl
@[simp] theorem Upd.restart_now (keep : Bool) (s : State) : ((Upd.restart keep).apply s).now = State.reset.now := rfl
@[simp] theorem Upd.restart_mod (keep : Bool) (s : State) : ((Upd.restart keep).apply s).mod = s.mod := rfl
@[simp] theorem Upd.restart_seq (keep : Bool) (s : State) : ((Upd.restart keep).apply s).seq = s.seq := rfl
@[simp] theorem Upd.restart_powered (keep : Bool) (s : State) : ((Upd.restart keep).apply s).powered = State.reset.powered := rfl
@[simp] theorem Upd.restart_agenda (keep : Bool) (s : State) : ((Upd.restart keep).apply s).agenda = State.reset.agenda := rfl
@[simp] theorem Upd.restart_cur (keep : Bool) (s : State) : ((Upd.restart keep).apply s).cur = s.cur := rfl
@[simp] theorem Upd.restart_fresh (keep : Bool) (s : State) : ((Upd.restart keep).apply s).fresh = s.fresh := rfl
@[simp] theorem Upd.restart_outbox (keep : Bool) (s : State) : ((Upd.restart keep).apply s).outbox = s.outbox := rfl
@[simp] theorem State.take_mem (s : State) (t : Turn) (listed : Bool) : (s.take t listed).mem = s.mem := rfl
@[simp] theorem State.take_tags (s : State) (t : Turn) (listed : Bool) : (s.take t listed).tags = s.tags := rfl
@[simp] theorem State.take_poison (s : State) (t : Turn) (listed : Bool) : (s.take t listed).poison = s.poison := rfl
@[simp] theorem State.take_lines (s : State) (t : Turn) (listed : Bool) : (s.take t listed).lines = s.lines := rfl
@[simp] theorem State.take_wlog (s : State) (t : Turn) (listed : Bool) : (s.take t listed).wlog = s.wlog := rfl
@[simp] theorem State.take_tracks (s : State) (t : Turn) (listed : Bool) : (s.take t listed).tracks = s.tracks := rfl
@[simp] theorem State.take_tlbs (s : State) (t : Turn) (listed : Bool) : (s.take t listed).tlbs = s.tlbs := rfl
@[simp] theorem State.take_walks (s : State) (t : Turn) (listed : Bool) : (s.take t listed).walks = s.walks := rfl
@[simp] theorem State.take_crews (s : State) (t : Turn) (listed : Bool) : (s.take t listed).crews = s.crews := rfl
@[simp] theorem State.take_teams (s : State) (t : Turn) (listed : Bool) : (s.take t listed).teams = s.teams := rfl
@[simp] theorem State.take_cores (s : State) (t : Turn) (listed : Bool) : (s.take t listed).cores = s.cores := rfl
@[simp] theorem State.take_launches (s : State) (t : Turn) (listed : Bool) : (s.take t listed).launches = s.launches := rfl
@[simp] theorem State.take_pends (s : State) (t : Turn) (listed : Bool) : (s.take t listed).pends = s.pends := rfl
@[simp] theorem State.take_gangs (s : State) (t : Turn) (listed : Bool) : (s.take t listed).gangs = s.gangs := rfl
@[simp] theorem State.take_saved (s : State) (t : Turn) (listed : Bool) : (s.take t listed).saved = s.saved := rfl
@[simp] theorem State.take_coloc (s : State) (t : Turn) (listed : Bool) : (s.take t listed).coloc = s.coloc := rfl
@[simp] theorem State.take_cycles (s : State) (t : Turn) (listed : Bool) : (s.take t listed).cycles = s.cycles := rfl
@[simp] theorem State.take_parts (s : State) (t : Turn) (listed : Bool) : (s.take t listed).parts = s.parts := rfl
@[simp] theorem State.take_vis (s : State) (t : Turn) (listed : Bool) : (s.take t listed).vis = s.vis := rfl
@[simp] theorem State.take_ctxs (s : State) (t : Turn) (listed : Bool) : (s.take t listed).ctxs = s.ctxs := rfl
@[simp] theorem State.take_objs (s : State) (t : Turn) (listed : Bool) : (s.take t listed).objs = s.objs := rfl
@[simp] theorem State.take_queues (s : State) (t : Turn) (listed : Bool) : (s.take t listed).queues = s.queues := rfl
@[simp] theorem State.take_slots (s : State) (t : Turn) (listed : Bool) : (s.take t listed).slots = s.slots := rfl
@[simp] theorem State.take_engines (s : State) (t : Turn) (listed : Bool) : (s.take t listed).engines = s.engines := rfl
@[simp] theorem State.take_passes (s : State) (t : Turn) (listed : Bool) : (s.take t listed).passes = s.passes := rfl
@[simp] theorem State.take_held (s : State) (t : Turn) (listed : Bool) : (s.take t listed).held = s.held := rfl
@[simp] theorem State.take_groups (s : State) (t : Turn) (listed : Bool) : (s.take t listed).groups = s.groups := rfl
@[simp] theorem State.take_announces (s : State) (t : Turn) (listed : Bool) : (s.take t listed).announces = s.announces := rfl
@[simp] theorem State.take_jds (s : State) (t : Turn) (listed : Bool) : (s.take t listed).jds = s.jds := rfl
@[simp] theorem State.take_links (s : State) (t : Turn) (listed : Bool) : (s.take t listed).links = s.links := rfl
@[simp] theorem State.take_wctxs (s : State) (t : Turn) (listed : Bool) : (s.take t listed).wctxs = s.wctxs := rfl
@[simp] theorem State.take_wcur (s : State) (t : Turn) (listed : Bool) : (s.take t listed).wcur = s.wcur := rfl
@[simp] theorem State.take_imem (s : State) (t : Turn) (listed : Bool) : (s.take t listed).imem = s.imem := rfl
@[simp] theorem State.take_wsets (s : State) (t : Turn) (listed : Bool) : (s.take t listed).wsets = s.wsets := rfl
@[simp] theorem State.take_ft (s : State) (t : Turn) (listed : Bool) : (s.take t listed).ft = s.ft := rfl
@[simp] theorem State.take_now (s : State) (t : Turn) (listed : Bool) : (s.take t listed).now = s.now := rfl
@[simp] theorem State.take_mod (s : State) (t : Turn) (listed : Bool) : (s.take t listed).mod = s.mod := rfl
@[simp] theorem State.take_seq (s : State) (t : Turn) (listed : Bool) : (s.take t listed).seq = s.seq := rfl
@[simp] theorem State.take_powered (s : State) (t : Turn) (listed : Bool) : (s.take t listed).powered = s.powered := rfl
@[simp] theorem State.take_agenda (s : State) (t : Turn) (listed : Bool) : (s.take t listed).agenda = if listed then s.agenda.tail else s.agenda := rfl
@[simp] theorem State.take_fresh (s : State) (t : Turn) (listed : Bool) : (s.take t listed).fresh = s.fresh + 1 := rfl
@[simp] theorem State.take_outbox (s : State) (t : Turn) (listed : Bool) : (s.take t listed).outbox = s.outbox := rfl
@[simp] theorem State.take_cur_issue (s : State) (x k : Nat) (b : Bool) : (s.take (.issue x k) b).cur = .crew x k := rfl
@[simp] theorem State.take_cur_winch (s : State) (w c : Nat) (b : Bool) : (s.take (.winch w c) b).cur = .winch w c := rfl
@[simp] theorem State.take_cur_queue (s : State) (q : Nat) (b : Bool) : (s.take (.queue q) b).cur = .queue q := rfl

end Sys2Proof.Machine
end

