-- ==== Sys2Proof/Laws/Issue.lean ====
section
/-! SUPPORT. What issuing and retiring an instruction do, said once. -/

namespace Sys2Proof.Machine

/-! ### Finding and changing a crew -/

theorem Tab.find_map {β γ : Type} (f : Nat → β → γ) (t : Table β) (k : Nat) :
    Tab.find (t.map fun e => (e.1, f e.1 e.2)) k = (Tab.find t k).map (f k) := by
  induction t with
  | nil => rfl
  | cons e t ih =>
    simp only [List.map_cons, Tab.find_cons]
    split
    · rename_i h; subst h; rfl
    · exact ih

@[simp] theorem State.crew?_put (x : Nat) (v : Option Crew) (s : State) : ((Upd.crew x v).apply s).crew? x = v := by
  cases v <;> simp [State.crew?, Upd.apply, Tab.upd]

theorem State.crew?_put_other {x y : Nat} (v : Option Crew) (s : State) (h : y ≠ x) :
    ((Upd.crew x v).apply s).crew? y = s.crew? y := by
  cases v <;> simp [State.crew?, Upd.apply, Tab.upd, Tab.find_put_other _ _ h, Tab.find_del_other _ h]

theorem modCrew_some {s0 : State} (g : Go s0) {x : Nat} {c : Crew} (f : Crew → Crew) (h : g.st.crew? x = some c) :
    modCrew g x f = g.put (.crew x (some (f c))) := by
  unfold modCrew; rw [h]

/-! ### Issuing -/

/-- An instruction that executes answers what its body reaches. -/
theorem crewStep_executes {s : State} {m : Mn} {f : Fields} {x k : Nat} {c : Crew} {sp : Split}
    (h : s.Executes m f x k c sp) (body : Issue → Go s → Go s) :
    crewStep m f s body = .next (body (issueOf s m f x k c sp) (Go.start s)).st := by
  unfold crewStep
  rw [h.issuer]
  simp only [issue, h.legal, h.quiet, h.image, Go.done_next]
  rfl

/-- The issuing split is one of a resident crew. -/
theorem State.issuer_some {s : State} {x k : Nat} {c : Crew} {sp : Split} (h : s.issuer = some (x, k, c, sp)) :
    s.cur = .crew x k ∧ s.crew? x = some c ∧ c.split? k = some sp ∧ c.st = .running ∧ sp.st = .ready ∧ c.parked = false
      ∧ s.teamRuns c = true := by
  unfold State.issuer at h
  split at h
  · rename_i x' k' hc
    split at h
    · rename_i c' hx
      split at h
      · rename_i sp' hk
        split at h
        · rename_i hr
          simp only [Option.some.injEq, Prod.mk.injEq] at h
          obtain ⟨rfl, rfl, rfl, rfl⟩ := h
          simp only [Bool.and_eq_true, decide_eq_true_eq, Bool.not_eq_true'] at hr
          exact ⟨hc, hx, hk, hr.1.1.1, hr.1.1.2, hr.1.2, hr.2⟩
        · exact absurd h (by simp)
      · exact absurd h (by simp)
    · exact absurd h (by simp)
  · exact absurd h (by simp)

/-! ### Retiring -/

theorem countWork_same {s0 : State} (g : Go s0) (team ops bytes : Nat) :
    (countWork g team ops bytes).st = { g.st with coloc := (countWork g team ops bytes).st.coloc } := by
  unfold countWork
  repeat' split
  all_goals rfl

@[simp] theorem countWork_crew? {s0 : State} (g : Go s0) (team ops bytes x : Nat) :
    (countWork g team ops bytes).st.crew? x = g.st.crew? x := by
  rw [countWork_same]; rfl

theorem modTeam_same {s0 : State} (g : Go s0) (n : Nat) (f : Team → Team) :
    (modTeam g n f).st = { g.st with teams := (modTeam g n f).st.teams } := by
  unfold modTeam
  split <;> rfl

theorem restoreTeamMem_same {s0 : State} (g : Go s0) (i : Issue) (c : Crew) (w w' : LongWindow) :
    (restoreTeamMem g i c w w').st = { g.st with teams := (restoreTeamMem g i c w w').st.teams } := by
  unfold restoreTeamMem
  dsimp only
  split
  · rfl
  · exact modTeam_same ..

/-- A later write into the window of a scratch or tile instruction changes teams only. -/
theorem restoreAll_same {s0 : State} (g : Go s0) (i : Issue) (o : RegOut) :
    (restoreAll g i o).st = { g.st with teams := (restoreAll g i o).st.teams } := by
  have key : ∀ (c : Crew) (l : List (LongWindow × LongWindow)) (g : Go s0),
      (g.each l fun e g => restoreTeamMem g i c e.1 e.2).st = { g.st with teams := (g.each l fun e g => restoreTeamMem g i c e.1 e.2).st.teams } := by
    intro c l
    induction l with
    | nil => intro g; rfl
    | cons e l ih =>
      intro g
      have h1 := ih (restoreTeamMem g i c e.1 e.2)
      have h2 := restoreTeamMem_same g i c e.1 e.2
      simp only [Go.each] at h1 ⊢
      rw [h1, h2]
  unfold restoreAll
  split
  · split
    · exact key ..
    · rfl
  · rfl

/-- Without a window of such an instruction nothing is written again. -/
theorem restoreAll_quiet {s0 : State} (g : Go s0) (i : Issue) (o : RegOut) (h : ∀ w ∈ i.sp.windows, writesTeam w.m = false) :
    restoreAll g i o = g := by
  unfold restoreAll
  rw [if_neg]
  simp only [List.any_eq_true, not_exists, not_and]
  exact fun w hw => by simp [h w hw]

/-- Retirement changes the issuing crew, its slot's cycle count and the work counted; teams too where a scratch or tile instruction's window was broken. -/
theorem retireAt_st {s0 : State} (g : Go s0) (i : Issue) (o : RegOut) (pc : BitVec 56) {c : Crew} (h : g.st.crew? i.x = some c) :
    ∃ (w : Table Coloc) (ts : Table Team) (n : Nat), (retireAt g i o pc).st =
      (Upd.cycle (i.x / 8) n).apply ((Upd.crew i.x (some (i.retired { g.st with coloc := w, teams := ts } o pc n c))).apply
        { g.st with coloc := w, teams := ts }) ∧ ((∀ v ∈ i.sp.windows, writesTeam v.m = false) → ts = g.st.teams) := by
  let g1 := countWork g i.c.team i.work.1 i.work.2
  let g2 := restoreAll g1 i o
  have h1 := countWork_same g i.c.team i.work.1 i.work.2
  have h2 := restoreAll_same g1 i o
  have hs : g2.st = { g.st with coloc := g1.st.coloc, teams := g2.st.teams } := by rw [h2]; show _ = _; rw [show g1.st = _ from h1]
  refine ⟨g1.st.coloc, g2.st.teams, i.cyclesAfter g2.st, ?_, fun hq => ?_⟩
  · have hc : g2.st.crew? i.x = some c := by rw [hs]; exact h
    show ((modCrew g2 i.x fun c => i.retired g2.st o pc (i.cyclesAfter g2.st) c).put (.cycle (i.x / 8) (i.cyclesAfter g2.st))).st = _
    simp only [modCrew_some _ _ hc, Go.put_st]
    rw [← hs]
  · show (restoreAll g1 i o).st.teams = _
    rw [restoreAll_quiet g1 i o hq, show g1.st = _ from h1]

theorem OnlyCrew.of_retire {s : State} (w : Table Coloc) (n m x : Nat) (v : Option Crew) :
    OnlyCrew s ((Upd.cycle m n).apply ((Upd.crew x v).apply { s with coloc := w })) x :=
  ⟨rfl, fun y hy => by
    show ((Upd.crew x v).apply { s with coloc := w }).crew? y = _
    rw [State.crew?_put_other _ _ hy]; rfl⟩

/-! ### Writing registers: nothing but the registers changes -/

theorem Crew.setRow_frame (c : Crew) (r l v : Nat) : c.setRow r l v = { c with v := (c.setRow r l v).v } := rfl

theorem Crew.putRows_frame (c : Crew) (xs : List (Nat × Nat × Nat)) : c.putRows xs = { c with v := (c.putRows xs).v } := by
  induction xs generalizing c with
  | nil => rfl
  | cons e xs ih =>
    obtain ⟨r, l, x⟩ := e
    unfold Crew.putRows
    rw [ih]; rfl

theorem Crew.setUni_frame (c : Crew) (n v : Nat) : c.setUni n v = { c with s := (c.setUni n v).s } := by
  unfold Crew.setUni; split <;> rfl

theorem Crew.putUnis_frame (c : Crew) (xs : List (Nat × Nat)) : c.putUnis xs = { c with s := (c.putUnis xs).s } := by
  induction xs generalizing c with
  | nil => rfl
  | cons e xs ih =>
    obtain ⟨n, x⟩ := e
    unfold Crew.putUnis
    rw [ih, Crew.setUni_frame]

theorem Crew.setPred_frame (c : Crew) (n : Nat) (m v : Lanes) : c.setPred n m v = { c with p := (c.setPred n m v).p } := by
  unfold Crew.setPred; split <;> rfl

theorem Crew.putPreds_frame (c : Crew) (xs : List (Nat × Lanes × Lanes)) : c.putPreds xs = { c with p := (c.putPreds xs).p } := by
  induction xs generalizing c with
  | nil => rfl
  | cons e xs ih =>
    obtain ⟨n, m, x⟩ := e
    unfold Crew.putPreds
    rw [ih, Crew.setPred_frame]

theorem Crew.putLays_frame (c : Crew) (xs : List (Nat × LayRec)) : c.putLays xs = { c with lay := (c.putLays xs).lay } := by
  induction xs generalizing c with
  | nil => rfl
  | cons e xs ih =>
    obtain ⟨n, x⟩ := e
    unfold Crew.putLays
    rw [ih]; rfl

/-- The registers of a crew replaced. -/
def Crew.withRegs (c d : Crew) : Crew := { c with v := d.v, s := d.s, p := d.p, lay := d.lay }

theorem Crew.putOut_frame (c : Crew) (o : RegOut) : c.putOut o = c.withRegs (c.putOut o) := by
  unfold Crew.putOut
  rw [Crew.putLays_frame, Crew.putPreds_frame, Crew.putUnis_frame, Crew.putRows_frame]; rfl

theorem Crew.setCell_frame (c : Crew) (k x : Nat) : c.setCell k x = c.withRegs (c.setCell k x) := by
  unfold Crew.setCell
  dsimp only
  split
  · rfl
  · split
    · unfold Crew.setUni; split <;> rfl
    · split
      · unfold Crew.setPred; split <;> rfl
      · rfl

theorem settle_frame (s : State) (was : Crew) (keys : List Nat) (c : Crew) (ks : List Nat) :
    settle s was keys c ks = c.withRegs (settle s was keys c ks) := by
  induction ks generalizing c with
  | nil => rfl
  | cons k ks ih =>
    unfold settle
    rw [ih]
    split
    · rw [Crew.setCell_frame]; rfl
    · rfl

theorem mixCells_frame (s : State) (kind : Nat) (c : Crew) (l : List (Nat × Nat)) :
    mixCells s kind c l = c.withRegs (mixCells s kind c l) := by
  induction l generalizing c with
  | nil => rfl
  | cons e l ih =>
    obtain ⟨k, v⟩ := e
    unfold mixCells
    rw [ih]
    split
    · rfl
    · split
      · rw [Crew.setCell_frame]; rfl
      · rfl

theorem Crew.putCells_frame (c : Crew) (l : List (Nat × Nat)) : c.putCells l = c.withRegs (c.putCells l) := by
  induction l generalizing c with
  | nil => rfl
  | cons e l ih =>
    obtain ⟨k, v⟩ := e
    unfold Crew.putCells
    rw [ih, Crew.setCell_frame]; rfl

/-- The registers of a crew and the counters of its layout registers replaced. -/
def Crew.withCounts (c d : Crew) : Crew := { c.withRegs d with lstat := d.lstat }

theorem counters_frame (w : LongWindow) (was now : Bool) (c : Crew) : w.counters was now c = { c with lstat := (w.counters was now c).lstat } := by
  unfold LongWindow.counters
  dsimp only
  repeat' split
  all_goals rfl

/-- Only the window of a `setlay` or an `lstat` changes counters. -/
theorem counters_lstat (w : LongWindow) (was now : Bool) (c : Crew) (h : w.m ≠ .lstat ∧ w.m ≠ .setlay) : w.counters was now c = c := by
  unfold LongWindow.counters
  simp [h.1, h.2]

theorem redo_frame (s : State) (i : Issue) (cells : List Nat) (n : Nat) (c : Crew) (w : LongWindow) :
    (w.redo s i cells n c).2 = c.withCounts (w.redo s i cells n c).2 := by
  unfold LongWindow.redo
  dsimp only
  split
  · rfl
  · split
    · rfl
    · dsimp only
      rw [counters_frame, Crew.putCells_frame]; rfl

theorem redo_lstat (s : State) (i : Issue) (cells : List Nat) (n : Nat) (c : Crew) (w : LongWindow) (h : w.m ≠ .lstat ∧ w.m ≠ .setlay) :
    (w.redo s i cells n c).2.lstat = c.lstat := by
  unfold LongWindow.redo
  dsimp only
  split
  · rfl
  · split
    · rfl
    · dsimp only
      rw [counters_lstat _ _ _ _ h, Crew.putCells_frame]; rfl

theorem redoAll_frame (s : State) (i : Issue) (cells : List Nat) (n : Nat) (c : Crew) (ws : List LongWindow) :
    (redoAll s i cells n c ws).2 = c.withCounts (redoAll s i cells n c ws).2 := by
  induction ws generalizing n c with
  | nil => rfl
  | cons w ws ih =>
    unfold redoAll
    dsimp only
    rw [ih, redo_frame]; rfl

theorem redoAll_lstat (s : State) (i : Issue) (cells : List Nat) (n : Nat) (c : Crew) (ws : List LongWindow)
    (h : ∀ w ∈ ws, w.m ≠ .lstat ∧ w.m ≠ .setlay) : (redoAll s i cells n c ws).2.lstat = c.lstat := by
  induction ws generalizing n c with
  | nil => rfl
  | cons w ws ih =>
    unfold redoAll
    dsimp only
    rw [ih _ _ fun v hv => h v (List.mem_cons_of_mem _ hv), redo_lstat _ _ _ _ _ _ (h w List.mem_cons_self)]

theorem Issue.writes_frame (i : Issue) (s : State) (o : RegOut) (c : Crew) : (i.writes s o c).2 = c.withCounts (i.writes s o c).2 := by
  unfold Issue.writes
  dsimp only
  rw [redoAll_frame, mixCells_frame, settle_frame, Crew.putOut_frame]; rfl

theorem Issue.writes_lstat (i : Issue) (s : State) (o : RegOut) (c : Crew) (h : ∀ w ∈ i.sp.windows, w.m ≠ .lstat ∧ w.m ≠ .setlay) :
    (i.writes s o c).2.lstat = c.lstat := by
  unfold Issue.writes
  dsimp only
  rw [redoAll_lstat _ _ _ _ _ _ h, mixCells_frame, settle_frame, Crew.putOut_frame]; rfl

theorem settle_none (s : State) (was c : Crew) (ks : List Nat) : settle s was [] c ks = c := by
  induction ks generalizing c with
  | nil => rfl
  | cons k ks ih => unfold settle; simpa using ih c

theorem Issue.written_frame (i : Issue) (s : State) (o : RegOut) (c : Crew) :
    i.written s o c = { c.withCounts (i.written s o c) with uncov := (i.written s o c).uncov } := by
  unfold Issue.written
  dsimp only
  rw [Issue.writes_frame]; rfl

/-- What retirement makes of the issuing crew. -/
theorem Issue.retired_at (i : Issue) (s : State) (o : RegOut) (pc : BitVec 56) (n : Nat) {c : Crew} {sp : Split}
    (h : c.split? i.k = some sp) (hl : ∀ w ∈ i.sp.windows, w ∈ sp.windows) :
    ∃ sp', RetiredAt c (i.retired s o pc n c) i.k sp sp' pc ∧ sp'.fmt = o.fmt.getD sp.fmt := by
  have hw := i.written_frame s o c
  have hsp : (i.written s o c).splits = c.splits := by rw [hw]; rfl
  have hf : ∀ j, (i.retired s o pc n c).split? j =
      (c.split? j).map fun q => latchAfter (j == i.k) o.keys (if j = i.k then i.nextSplit s o c pc q else q) := by
    intro j
    show Tab.find ((i.written s o c).splits.map _) j = _
    rw [hsp]
    exact Tab.find_map (fun j q => latchAfter (j == i.k) o.keys (if j = i.k then i.nextSplit s o c pc q else q)) c.splits j
  refine ⟨latchAfter true o.keys (i.nextSplit s o c pc sp), ⟨?_, ?_, ?_, ?_, ?_, ?_, ?_⟩, ?_⟩
  · rw [hf, h]; simp
  · rfl
  · rfl
  · rfl
  · intro j hj
    rw [hf]
    congr 1
    funext q
    simp [hj, latchAfter]
  · show Issue.retired i s o pc n c = _
    unfold Issue.retired
    rw [hw]; rfl
  · exact fun q => i.writes_lstat s o c fun w hw => q w (hl w hw)
  · simp only [latchAfter, Issue.nextSplit, if_true]
    cases o.fmt <;> rfl

/-- A register-only instruction retires. -/
theorem regStep_executes {s : State} {m : Mn} {f : Fields} {x k : Nat} {c : Crew} {sp : Split}
    (h : s.Executes m f x k c sp) (out : Issue → RegOut) :
    ∃ (w : Table Coloc) (ts : Table Team) (n : Nat), regStep m f s out = .next ((Upd.cycle (x / 8) n).apply ((Upd.crew x
      (some ((issueOf s m f x k c sp).retired { s with coloc := w, teams := ts } (out (issueOf s m f x k c sp)) (sp.pc + 12) n c))).apply
        { s with coloc := w, teams := ts })) ∧ ((∀ v ∈ (issueOf s m f x k c sp).sp.windows, writesTeam v.m = false) → ts = s.teams) := by
  obtain ⟨w, ts, n, hr, hq⟩ := retireAt_st (Go.start s) (issueOf s m f x k c sp) (out (issueOf s m f x k c sp)) (sp.pc + 12)
    (State.issuer_some h.issuer).2.1
  exact ⟨w, ts, n, by rw [regStep, crewStep_executes h]; exact congrArg _ hr, hq⟩

/-- In a settled crew, sources read the registers as they are. -/
theorem issueOf_settled {s : State} {m : Mn} {f : Fields} {x k : Nat} {c : Crew} {sp : Split} (h : Settled c sp) :
    issueOf s m f x k c sp = { x := x, k := k, c := c, ca := c, cb := c, sp := sp, m := m, f := f, act := sp.mask
                               run := guardLanes c f.guard sp.mask } := by
  have hw : (if (m.row.lat == Latency.closing) = true then [] else sp.windows) = [] := by simp [h.windows]
  have hv : crewView s c [] = c := by simp [crewView, h.loads, mixCells]
  unfold issueOf
  simp only [hw, hv, h.latchA, h.latchB, latchView]
  obtain ⟨h1, h2, h3, -⟩ := h
  cases sp
  simp_all

/-- In a settled crew, retirement writes just what the instruction gives. -/
theorem Issue.written_settled (i : Issue) (s : State) (o : RegOut) (c : Crew) (hw : i.sp.windows = []) (hu : c.uncov = []) :
    i.written s o c = c.putOut o := by
  have hf := Crew.putOut_frame c o
  unfold Issue.written Issue.writes
  simp only [hw, hu, List.map_nil, List.flatten_nil, settle_none, redoAll, loadedInto, List.filter_nil, mixCells]
  rw [hf]
  simp [Crew.withRegs, hu]

end Sys2Proof.Machine
end

