-- ==== Sys2Proof/Laws/Reach.lean ====
section
/-! SUPPORT. Whatever happens, the state moves by primitive updates only: every instruction, every event and every step. -/

namespace Sys2Proof.Machine

/-- Updates after updates. -/
theorem Reach.trans {s t u : State} (h : Reach s t) (h' : Reach t u) : Reach s u := by
  induction h' with
  | refl => exact h
  | step v _ ih => exact .step v ih

/-- What every update keeps, a path keeps. -/
theorem Reach.keeps {P : State → Prop} (hP : ∀ (u : Upd) (s : State), P s → P (u.apply s)) {s t : State} (h : Reach s t)
    (hs : P s) : P t := by
  induction h with
  | refl => exact hs
  | step u _ ih => exact hP u _ ih

/-- An outcome that is a next state reached by updates. -/
def Moves (s : State) (o : Host.Outcome State Fault Refusal) : Prop := ∃ t, o = .next t ∧ Reach s t

theorem Moves.same (s : State) : Moves s (.next s) := ⟨s, rfl, .refl⟩
theorem Go.moves {s : State} (g : Go s) : Moves s g.done := ⟨g.st, rfl, g.reach⟩
theorem Moves.after {s : State} (g : Go s) {o : Host.Outcome State Fault Refusal} (h : Moves g.st o) : Moves s o :=
  let ⟨t, e, r⟩ := h
  ⟨t, e, g.reach.trans r⟩

theorem crewStep_moves (m : Mn) (f : Fields) (s : State) (body : Issue → Go s → Go s) : Moves s (crewStep m f s body) := by
  unfold crewStep
  split
  · exact Go.moves _
  · exact .same s

theorem winchStep_moves (op : Nat) (f : WFields) (s : State) (body : Nat → Nat → Wctx → Go s → Go s) :
    Moves s (winchStep op f s body) := by
  unfold winchStep
  repeat' split
  all_goals first | exact Go.moves _ | exact .same s

theorem packetStep_moves (s : State) (body : Nat → Queue → Go s → Go s) : Moves s (packetStep s body) := by
  unfold packetStep
  split
  · exact Go.moves _
  · exact .same s

theorem execMerge_moves (x k : Nat) (s : State) : Moves s (execMerge x k s) := by
  unfold execMerge
  repeat' split
  all_goals first | exact Go.moves _ | exact .same s

theorem execPriorityBoost_moves (x : Nat) (s : State) : Moves s (execPriorityBoost x s) := by
  unfold execPriorityBoost
  repeat' split
  all_goals first | exact Go.moves _ | exact .same s

theorem execOrdRelease_moves (x k : Nat) (s : State) : Moves s (execOrdRelease x k s) := by
  unfold execOrdRelease
  repeat' split
  all_goals first | exact Go.moves _ | exact .same s

theorem execCrewRetire_moves (x : Nat) (s : State) : Moves s (execCrewRetire x s) := by
  unfold execCrewRetire
  repeat' split
  all_goals first | exact Go.moves _ | exact .same s

theorem execSpawnReport_moves (launch from_ : Nat) (delta : Int) (gwct : Nat) (peers : List Nat) (s : State) : Moves s (execSpawnReport launch from_ delta gwct peers s) := by
  unfold execSpawnReport
  repeat' split
  all_goals first | exact Go.moves _ | exact .same s

theorem execLaunchComplete_moves (n : Nat) (s : State) : Moves s (execLaunchComplete n s) := by
  unfold execLaunchComplete
  repeat' split
  all_goals first | exact Go.moves _ | exact .same s

theorem execLoadReturn_moves (x id : Nat) (s : State) : Moves s (execLoadReturn x id s) := by
  unfold execLoadReturn
  repeat' split
  all_goals first | exact Go.moves _ | exact .same s

theorem execStorePerform_moves (x id ln : Nat) (s : State) : Moves s (execStorePerform x id ln s) := by
  unfold execStorePerform
  repeat' split
  all_goals first | exact Go.moves _ | exact .same s

theorem storeAckNear_moves (c id : Nat) (s : State) : Moves s (storeAckNear c id s) := by
  unfold storeAckNear
  repeat' split
  all_goals first | exact Go.moves _ | exact .same s | exact storeAckNear_moves ..

theorem execStoreAck_moves (x id : Nat) (far : Option FarAck) (s : State) : Moves s (execStoreAck x id far s) := by
  unfold execStoreAck
  repeat' split
  all_goals first | exact Go.moves _ | exact .same s | exact storeAckNear_moves ..

theorem arrivalFence_moves (x : Nat) (c : Crew) (s : State) : Moves s (arrivalFence x c s) := by
  unfold arrivalFence
  repeat' split
  all_goals first | exact Go.moves _ | exact .same s

theorem execFenceComplete_moves (x k : Nat) (s : State) : Moves s (execFenceComplete x k s) := by
  unfold execFenceComplete
  repeat' split
  all_goals first | exact Go.moves _ | exact .same s | exact arrivalFence_moves ..

theorem execLeaseExpiry_moves (core ln : Nat) (s : State) : Moves s (execLeaseExpiry core ln s) := by
  unfold execLeaseExpiry
  repeat' split
  all_goals first | exact Go.moves _ | exact .same s

theorem execExclusiveLeaseEnd_moves (core ln : Nat) (s : State) : Moves s (execExclusiveLeaseEnd core ln s) := by
  unfold execExclusiveLeaseEnd
  repeat' split
  all_goals first | exact Go.moves _ | exact .same s

theorem execWaitReread_moves (x k : Nat) (s : State) : Moves s (execWaitReread x k s) := by
  unfold execWaitReread
  repeat' split
  all_goals first | exact Go.moves _ | exact .same s

theorem execEngineTransfer_moves (core op u : Nat) (s : State) : Moves s (execEngineTransfer core op u s) := by
  unfold execEngineTransfer
  repeat' split
  all_goals first
    | exact Go.moves _
    | exact .same s
    | (dsimp only; repeat' split
       all_goals first | exact Go.moves _ | exact .same s)

theorem execRequestListElement_moves (core op : Nat) (s : State) : Moves s (execRequestListElement core op s) := by
  unfold execRequestListElement
  repeat' split
  all_goals first | exact Go.moves _ | exact .same s

theorem execBatchComplete_moves (x : Nat) (s : State) : Moves s (execBatchComplete x s) := by
  unfold execBatchComplete
  repeat' split
  all_goals first | exact Go.moves _ | exact .same s

theorem execMatrixOpStart_moves (team op : Nat) (s : State) : Moves s (execMatrixOpStart team op s) := by
  unfold execMatrixOpStart
  repeat' split
  all_goals first | exact Go.moves _ | exact .same s

theorem execMatrixBlock_moves (team op : Nat) (s : State) : Moves s (execMatrixBlock team op s) := by
  unfold execMatrixBlock
  repeat' split
  all_goals first | exact Go.moves _ | exact .same s

theorem execMatrixOpRetire_moves (team op : Nat) (s : State) : Moves s (execMatrixOpRetire team op s) := by
  unfold execMatrixOpRetire
  repeat' split
  all_goals first | exact Go.moves _ | exact .same s

theorem execRemotePassArrive_moves (p : PassIn) (s : State) : Moves s (execRemotePassArrive p s) := by
  unfold execRemotePassArrive
  repeat' split
  all_goals first | exact Go.moves _ | exact .same s

theorem execWindowPassArrive_moves (p : PassIn) (s : State) : Moves s (execWindowPassArrive p s) := by
  unfold execWindowPassArrive
  repeat' split
  all_goals first | exact Go.moves _ | exact .same s

theorem execPassReply_moves (pass : Nat) (refused data : List (Nat × Nat)) (bad : List Nat) (clock : Nat) (vc : Table Nat) (s : State) : Moves s (execPassReply pass refused data bad clock vc s) := by
  unfold execPassReply
  repeat' split
  all_goals first | exact Go.moves _ | exact .same s

theorem execPassCommit_moves (from_ pass : Nat) (group : Option (Nat × Nat)) (before : List Nat) (s : State) : Moves s (execPassCommit from_ pass group before s) := by
  unfold execPassCommit
  repeat' split
  all_goals first | exact Go.moves _ | exact .same s

theorem execPassCancel_moves (from_ pass : Nat) (s : State) : Moves s (execPassCancel from_ pass s) := by
  unfold execPassCancel
  repeat' split
  all_goals first | exact Go.moves _ | exact .same s

theorem execPassTimeout_moves (pass : Nat) (s : State) : Moves s (execPassTimeout pass s) := by
  unfold execPassTimeout
  repeat' split
  all_goals first | exact Go.moves _ | exact .same s

theorem execOrderedFlagRelease_moves (from_ pass : Nat) (s : State) : Moves s (execOrderedFlagRelease from_ pass s) := by
  unfold execOrderedFlagRelease
  repeat' split
  all_goals first | exact Go.moves _ | exact .same s

theorem execClaimArrive_moves (j : Nat) (r : ClaimIn) (s : State) : Moves s (execClaimArrive j r s) := by
  unfold execClaimArrive
  repeat' split
  all_goals first | exact Go.moves _ | exact .same s

theorem execAnnounceAccept_moves (j id : Nat) (s : State) : Moves s (execAnnounceAccept j id s) := by
  unfold execAnnounceAccept
  repeat' split
  all_goals first
    | exact Go.moves _
    | exact .same s
    | (dsimp only; repeat' split
       all_goals first | exact Go.moves _ | exact .same s)

theorem execTileArrive_moves (j : Nat) (t : TileIn) (s : State) : Moves s (execTileArrive j t s) := by
  unfold execTileArrive
  repeat' split
  all_goals first | exact Go.moves _ | exact .same s

theorem execClaimDelivered_moves (j id : Nat) (s : State) : Moves s (execClaimDelivered j id s) := by
  unfold execClaimDelivered
  repeat' split
  all_goals first | exact Go.moves _ | exact .same s

theorem execRequesterExpiry_moves (j entry req : Nat) (s : State) : Moves s (execRequesterExpiry j entry req s) := by
  unfold execRequesterExpiry
  repeat' split
  all_goals first
    | exact Go.moves _
    | exact .same s
    | (dsimp only; repeat' split
       all_goals first | exact Go.moves _ | exact .same s)

theorem execNeverProduced_moves (j : Nat) (name : TileName) (expiry : Nat) (ans : Option Requester) (s : State) : Moves s (execNeverProduced j name expiry ans s) := by
  unfold execNeverProduced
  repeat' split
  all_goals first | exact Go.moves _ | exact .same s

theorem execWithdrawal_moves (j : Nat) (name : TileName) (link : Nat) (s : State) : Moves s (execWithdrawal j name link s) := by
  unfold execWithdrawal
  repeat' split
  all_goals first
    | exact Go.moves _
    | exact .same s
    | (dsimp only; repeat' split
       all_goals first | exact Go.moves _ | exact .same s)

theorem execClaimRefusal_moves (j : Nat) (name : TileName) (s : State) : Moves s (execClaimRefusal j name s) := by
  unfold execClaimRefusal
  repeat' split
  all_goals first
    | exact Go.moves _
    | exact .same s
    | (dsimp only; repeat' split
       all_goals first | exact Go.moves _ | exact .same s)

theorem execStockpileExpiry_moves (j tile : Nat) (s : State) : Moves s (execStockpileExpiry j tile s) := by
  unfold execStockpileExpiry
  repeat' split
  all_goals first | exact Go.moves _ | exact .same s

theorem execChunkArrive_moves (w ch set cs : Nat) (data : List Byte) (s : State) : Moves s (execChunkArrive w ch set cs data s) := by
  unfold execChunkArrive
  repeat' split
  all_goals first
    | exact Go.moves _
    | exact .same s
    | (dsimp only; repeat' split
       all_goals first | exact Go.moves _ | exact .same s)

theorem execCreditReturn_moves (link ch n : Nat) (s : State) : Moves s (execCreditReturn link ch n s) := by
  unfold execCreditReturn
  repeat' split
  all_goals first | exact Go.moves _ | exact .same s

theorem execWinchForcedYield_moves (w : Nat) (s : State) : Moves s (execWinchForcedYield w s) := by
  unfold execWinchForcedYield
  repeat' split
  all_goals first
    | exact Go.moves _
    | exact .same s
    | (dsimp only; repeat' split
       all_goals first | exact Go.moves _ | exact .same s)

theorem execWaitfReread_moves (w c : Nat) (s : State) : Moves s (execWaitfReread w c s) := by
  unfold execWaitfReread
  repeat' split
  all_goals first
    | exact Go.moves _
    | exact .same s
    | (dsimp only; repeat' split
       all_goals first | exact Go.moves _ | exact .same s)

theorem execWsetStartFlit_moves (ctx set : Nat) (arg : BitVec 64) (from_ : Nat) (s : State) : Moves s (execWsetStartFlit ctx set arg from_ s) := by
  unfold execWsetStartFlit
  repeat' split
  all_goals first | exact Go.moves _ | exact .same s

theorem execWsetDone_moves (ctx set from_ : Nat) (s : State) : Moves s (execWsetDone ctx set from_ s) := by
  unfold execWsetDone
  repeat' split
  all_goals first | exact Go.moves _ | exact .same s

theorem execWcLoad_moves (w c : Nat) (s : State) : Moves s (execWcLoad w c s) := by
  unfold execWcLoad
  repeat' split
  all_goals first | exact Go.moves _ | exact .same s

theorem execWcRun_moves (w c : Nat) (s : State) : Moves s (execWcRun w c s) := by
  unfold execWcRun
  repeat' split
  all_goals first | exact Go.moves _ | exact .same s

theorem execWcStep_moves (w c : Nat) (s : State) : Moves s (execWcStep w c s) := by
  unfold execWcStep
  repeat' split
  all_goals first | exact Go.moves _ | exact .same s

theorem execWcStop_moves (w c : Nat) (s : State) : Moves s (execWcStop w c s) := by
  unfold execWcStop
  repeat' split
  all_goals first | exact Go.moves _ | exact .same s

theorem execWcClear_moves (w c : Nat) (s : State) : Moves s (execWcClear w c s) := by
  unfold execWcClear
  repeat' split
  all_goals first | exact Go.moves _ | exact .same s

theorem execPartControlWrite_moves (p : Nat) (x : Word) (s : State) : Moves s (execPartControlWrite p x s) := by
  unfold execPartControlWrite
  repeat' split
  all_goals first | exact Go.moves _ | exact .same s

theorem execViFlr_moves (n : Nat) (s : State) : Moves s (execViFlr n s) := by
  unfold execViFlr
  repeat' split
  all_goals first | exact Go.moves _ | exact .same s

theorem execCtxCreate_moves (n : Nat) (s : State) : Moves s (execCtxCreate n s) := by
  unfold execCtxCreate
  repeat' split
  all_goals first | exact Go.moves _ | exact .same s

theorem execCtxRelease_moves (n c : Nat) (s : State) : Moves s (execCtxRelease n c s) := by
  unfold execCtxRelease
  repeat' split
  all_goals first | exact Go.moves _ | exact .same s

theorem execResume_moves (ctx id : Nat) (s : State) : Moves s (execResume ctx id s) := by
  unfold execResume
  repeat' split
  all_goals first | exact Go.moves _ | exact .same s

theorem execSkip_moves (ctx id : Nat) (s : State) : Moves s (execSkip ctx id s) := by
  unfold execSkip
  repeat' split
  all_goals first | exact Go.moves _ | exact .same s

theorem execExitAction_moves (ctx id : Nat) (s : State) : Moves s (execExitAction ctx id s) := by
  unfold execExitAction
  repeat' split
  all_goals first | exact Go.moves _ | exact .same s

theorem execAbort_moves (ctx id : Nat) (s : State) : Moves s (execAbort ctx id s) := by
  unfold execAbort
  repeat' split
  all_goals first | exact Go.moves _ | exact .same s

theorem execCtxWake_moves (ctx : Nat) (s : State) : Moves s (execCtxWake ctx s) := by
  unfold execCtxWake
  repeat' split
  all_goals first | exact Go.moves _ | exact .same s

theorem execFaultRecordCommit_moves (ctx : Nat) (s : State) : Moves s (execFaultRecordCommit ctx s) := by
  unfold execFaultRecordCommit
  repeat' split
  all_goals first
    | exact Go.moves _
    | exact .same s
    | (dsimp only; repeat' split
       all_goals first | exact Go.moves _ | exact .same s)

theorem execFaultRingRetry_moves (ctx : Nat) (s : State) : Moves s (execFaultRingRetry ctx s) := by
  unfold execFaultRingRetry
  repeat' split
  all_goals first | exact Go.moves _ | exact .same s

theorem execUncorrectableError_moves (site : ErrorSite) (s : State) : Moves s (execUncorrectableError site s) := by
  unfold execUncorrectableError
  repeat' split
  all_goals first | exact Go.moves _ | exact .same s

theorem execQControlWrite_moves (q : Nat) (mayVi : Bool) (x : Word) (s : State) : Moves s (execQControlWrite q mayVi x s) := by
  unfold execQControlWrite
  repeat' split
  all_goals first | exact Go.moves _ | exact .same s

theorem execQTailKick_moves (q : Nat) (x : Word) (s : State) : Moves s (execQTailKick q x s) := by
  unfold execQTailKick
  repeat' split
  all_goals first | exact Go.moves _ | exact .same s

theorem execQResumeSkip_moves (q : Nat) (s : State) : Moves s (execQResumeSkip q s) := by
  unfold execQResumeSkip
  repeat' split
  all_goals first | exact Go.moves _ | exact .same s

theorem execQResumeRetry_moves (q : Nat) (s : State) : Moves s (execQResumeRetry q s) := by
  unfold execQResumeRetry
  repeat' split
  all_goals first | exact Go.moves _ | exact .same s

theorem execCopyPacketComplete_moves (q n : Nat) (s : State) : Moves s (execCopyPacketComplete q n s) := by
  unfold execCopyPacketComplete
  repeat' split
  all_goals first | exact Go.moves _ | exact .same s

theorem execWaitvReread_moves (q : Nat) (s : State) : Moves s (execWaitvReread q s) := by
  unfold execWaitvReread
  repeat' split
  all_goals first
    | exact Go.moves _
    | exact .same s
    | (dsimp only; repeat' split
       all_goals first | exact Go.moves _ | exact .same s)

theorem execSignalComplete_moves (q n : Nat) (s : State) : Moves s (execSignalComplete q n s) := by
  unfold execSignalComplete
  repeat' split
  all_goals first
    | exact Go.moves _
    | exact .same s
    | (dsimp only; repeat' split
       all_goals first | exact Go.moves _ | exact .same s)

theorem execQueueSchedule_moves (slot q : Nat) (s : State) : Moves s (execQueueSchedule slot q s) := by
  unfold execQueueSchedule
  repeat' split
  all_goals first
    | exact Go.moves _
    | exact .same s
    | (dsimp only; repeat' split
       all_goals first | exact Go.moves _ | exact .same s)

theorem execForcedUnmap_moves (q : Nat) (s : State) : Moves s (execForcedUnmap q s) := by
  unfold execForcedUnmap
  repeat' split
  all_goals first
    | exact Go.moves _
    | exact .same s
    | (dsimp only; repeat' split
       all_goals first | exact Go.moves _ | exact .same s)

theorem execEclassAging_moves (q : Nat) (s : State) : Moves s (execEclassAging q s) := by
  unfold execEclassAging
  repeat' split
  all_goals first
    | exact Go.moves _
    | exact .same s
    | (dsimp only; repeat' split
       all_goals first | exact Go.moves _ | exact .same s)

theorem execDistributorPlace_moves (part : Nat) (s : State) : Moves s (execDistributorPlace part s) := by
  unfold execDistributorPlace
  repeat' split
  all_goals first | exact Go.moves _ | exact .same s

theorem execReserve_moves (m : GangMsg) (s : State) : Moves s (execReserve m s) := by
  unfold execReserve
  repeat' split
  all_goals first | exact Go.moves _ | exact .same s

theorem execHeld_moves (n from_ : Nat) (s : State) : Moves s (execHeld n from_ s) := by
  unfold execHeld
  repeat' split
  all_goals first | exact Go.moves _ | exact .same s

theorem execGangCommit_moves (n : Nat) (s : State) : Moves s (execGangCommit n s) := by
  unfold execGangCommit
  repeat' split
  all_goals first
    | exact Go.moves _
    | exact .same s
    | (dsimp only; repeat' split
       all_goals first | exact Go.moves _ | exact .same s)

theorem execPlaced_moves (n from_ : Nat) (s : State) : Moves s (execPlaced n from_ s) := by
  unfold execPlaced
  repeat' split
  all_goals first | exact Go.moves _ | exact .same s

theorem execRefusedMsg_moves (n from_ : Nat) (s : State) : Moves s (execRefusedMsg n from_ s) := by
  unfold execRefusedMsg
  repeat' split
  all_goals first | exact Go.moves _ | exact .same s

theorem execGangCancel_moves (n : Nat) (s : State) : Moves s (execGangCancel n s) := by
  unfold execGangCancel
  repeat' split
  all_goals first | exact Go.moves _ | exact .same s

theorem execGangGo_moves (n : Nat) (s : State) : Moves s (execGangGo n s) := by
  unfold execGangGo
  repeat' split
  all_goals first | exact Go.moves _ | exact .same s

theorem execGangSaved_moves (n from_ : Nat) (s : State) : Moves s (execGangSaved n from_ s) := by
  unfold execGangSaved
  repeat' split
  all_goals first
    | exact Go.moves _
    | exact .same s
    | (dsimp only; repeat' split
       all_goals first | exact Go.moves _ | exact .same s)

theorem execGangwaitExpiry_moves (part n : Nat) (s : State) : Moves s (execGangwaitExpiry part n s) := by
  unfold execGangwaitExpiry
  repeat' split
  all_goals first
    | exact Go.moves _
    | exact .same s
    | (dsimp only; repeat' split
       all_goals first | exact Go.moves _ | exact .same s)

theorem execDrainExpiry_moves (n : Nat) (s : State) : Moves s (execDrainExpiry n s) := by
  unfold execDrainExpiry
  repeat' split
  all_goals first | exact Go.moves _ | exact .same s

theorem execDvGo_moves (p : Nat) (x : Word) (s : State) : Moves s (execDvGo p x s) := by
  unfold execDvGo
  repeat' split
  all_goals first | exact Go.moves _ | exact .same s

theorem execTeamRestore_moves (t : Nat) (s : State) : Moves s (execTeamRestore t s) := by
  unfold execTeamRestore
  repeat' split
  all_goals first | exact Go.moves _ | exact .same s

theorem execColocationWindow_moves (part : Nat) (s : State) : Moves s (execColocationWindow part s) := by
  unfold execColocationWindow
  repeat' split
  all_goals first | exact Go.moves _ | exact .same s

theorem execTableWalk_moves (u ctx : Nat) (va : BitVec 64) (s : State) : Moves s (execTableWalk u ctx va s) := by
  unfold execTableWalk
  repeat' split
  all_goals first
    | exact Go.moves _
    | exact .same s
    | (dsimp only; repeat' split
       all_goals first | exact Go.moves _ | exact .same s)

theorem execTrReplay_moves (ctx : Nat) (s : State) : Moves s (execTrReplay ctx s) := by
  unfold execTrReplay
  repeat' split
  all_goals first | exact Go.moves _ | exact .same s

theorem execTagAddrWrite_moves (ctx : Nat) (value : BitVec 64) (s : State) : Moves s (execTagAddrWrite ctx value s) := by
  unfold execTagAddrWrite
  repeat' split
  all_goals first | exact Go.moves _ | exact .same s

theorem execTagDataWrite_moves (ctx : Nat) (value : BitVec 64) (s : State) : Moves s (execTagDataWrite ctx value s) := by
  unfold execTagDataWrite
  repeat' split
  all_goals first | exact Go.moves _ | exact .same s

theorem execPtFlush_moves (s : State) : Moves s (execPtFlush s) := by
  unfold execPtFlush
  repeat' split
  all_goals first | exact Go.moves _ | exact .same s

theorem execPathsDownExpiry_moves (peer : Nat) (s : State) : Moves s (execPathsDownExpiry peer s) := by
  unfold execPathsDownExpiry
  repeat' split
  all_goals first
    | exact Go.moves _
    | exact .same s
    | (dsimp only; repeat' split
       all_goals first | exact Go.moves _ | exact .same s)

theorem execFlitReceive_moves (link : Nat) (x : FlitIn) (s : State) : Moves s (execFlitReceive link x s) := by
  unfold execFlitReceive
  repeat' split
  all_goals first
    | exact Go.moves _
    | exact .same s
    | (dsimp only; repeat' split
       all_goals first | exact Go.moves _ | exact .same s)

theorem execNak_moves (link seq : Nat) (s : State) : Moves s (execNak link seq s) := by
  unfold execNak
  repeat' split
  all_goals first
    | exact Go.moves _
    | exact .same s
    | (dsimp only; repeat' split
       all_goals first | exact Go.moves _ | exact .same s)

theorem execReplayTimeout_moves (link : Nat) (s : State) : Moves s (execReplayTimeout link s) := by
  unfold execReplayTimeout
  repeat' split
  all_goals first
    | exact Go.moves _
    | exact .same s
    | (dsimp only; repeat' split
       all_goals first | exact Go.moves _ | exact .same s)

theorem execFlitForward_moves (link : Nat) (x : FlitIn) (s : State) : Moves s (execFlitForward link x s) := by
  unfold execFlitForward
  repeat' split
  all_goals first | exact Go.moves _ | exact .same s

theorem execReturnedFlit_moves (link : Nat) (x : FlitIn) (s : State) : Moves s (execReturnedFlit link x s) := by
  unfold execReturnedFlit
  repeat' split
  all_goals first
    | exact Go.moves _
    | exact .same s
    | (dsimp only; repeat' split
       all_goals first | exact Go.moves _ | exact .same s)

theorem execLnkEnable_moves (link : Nat) (on : Bool) (s : State) : Moves s (execLnkEnable link on s) := by
  unfold execLnkEnable
  repeat' split
  all_goals first | exact Go.moves _ | exact .same s

theorem execTrainingComplete_moves (link : Nat) (lanes : BitVec 16) (failed : Bool) (s : State) : Moves s (execTrainingComplete link lanes failed s) := by
  unfold execTrainingComplete
  repeat' split
  all_goals first
    | exact Go.moves _
    | exact .same s
    | (dsimp only; repeat' split
       all_goals first | exact Go.moves _ | exact .same s)

theorem execLaneHealthWindow_moves (link : Nat) (s : State) : Moves s (execLaneHealthWindow link s) := by
  unfold execLaneHealthWindow
  repeat' split
  all_goals first
    | exact Go.moves _
    | exact .same s
    | (dsimp only; repeat' split
       all_goals first | exact Go.moves _ | exact .same s)

theorem execKeySlotWrite_moves (link slot : Nat) (tx : Bool) (value : BitVec 64) (s : State) : Moves s (execKeySlotWrite link slot tx value s) := by
  unfold execKeySlotWrite
  repeat' split
  all_goals first | exact Go.moves _ | exact .same s

theorem execTxselWrite_moves (link : Nat) (sel : Bool) (s : State) : Moves s (execTxselWrite link sel s) := by
  unfold execTxselWrite
  repeat' split
  all_goals first | exact Go.moves _ | exact .same s

theorem execKeydone_moves (link slot : Nat) (s : State) : Moves s (execKeydone link slot s) := by
  unfold execKeydone
  repeat' split
  all_goals first | exact Go.moves _ | exact .same s

theorem execFtControlFlit_moves (link : Nat) (time : Nat) (offset : Int) (bound trip : Nat) (s : State) : Moves s (execFtControlFlit link time offset bound trip s) := by
  unfold execFtControlFlit
  repeat' split
  all_goals first | exact Go.moves _ | exact .same s

theorem execFtNowWrite_moves (value : BitVec 64) (s : State) : Moves s (execFtNowWrite value s) := by
  unfold execFtNowWrite
  repeat' split
  all_goals first | exact Go.moves _ | exact .same s

theorem execInstall_moves (n : Nat) (s : State) : Moves s (execInstall n s) := by
  unfold execInstall
  repeat' split
  all_goals first
    | exact Go.moves _
    | exact .same s
    | (dsimp only; repeat' split
       all_goals first | exact Go.moves _ | exact .same s)

theorem execLoad_moves (n : Nat) (s : State) : Moves s (execLoad n s) := by
  unfold execLoad
  repeat' split
  all_goals first
    | exact Go.moves _
    | exact .same s
    | (dsimp only; repeat' split
       all_goals first | exact Go.moves _ | exact .same s)

theorem execUnload_moves (n : Nat) (s : State) : Moves s (execUnload n s) := by
  unfold execUnload
  repeat' split
  all_goals first
    | exact Go.moves _
    | exact .same s
    | (dsimp only; repeat' split
       all_goals first | exact Go.moves _ | exact .same s)

theorem execAttest_moves (n : Nat) (s : State) : Moves s (execAttest n s) := by
  unfold execAttest
  repeat' split
  all_goals first
    | exact Go.moves _
    | exact .same s
    | (dsimp only; repeat' split
       all_goals first | exact Go.moves _ | exact .same s)

theorem execReset_moves (s : State) : Moves s (execReset s) := by
  unfold execReset
  repeat' split
  all_goals first | exact Go.moves _ | exact .same s

theorem execFatalError_moves (code : Nat) (s : State) : Moves s (execFatalError code s) := by
  unfold execFatalError
  repeat' split
  all_goals first | exact Go.moves _ | exact .same s

theorem execPwrThrottle_moves (now temp throt : Nat) (s : State) : Moves s (execPwrThrottle now temp throt s) := by
  unfold execPwrThrottle
  repeat' split
  all_goals first | exact Go.moves _ | exact .same s

theorem execHostLinkDown_moves (s : State) : Moves s (execHostLinkDown s) := by
  unfold execHostLinkDown
  repeat' split
  all_goals first | exact Go.moves _ | exact .same s

theorem execReadClear_moves (w : Writer) (addr : Nat) (s : State) : Moves s (execReadClear w addr s) := by
  unfold execReadClear
  repeat' split
  all_goals first | exact Go.moves _ | exact .same s

theorem execSystemRegisterWrite_moves (w : Writer) (addr : Nat) (value : BitVec 64) (s : State) : Moves s (execSystemRegisterWrite w addr value s) := by
  unfold execSystemRegisterWrite
  repeat' split
  all_goals first | exact Go.moves _ | exact .same s

theorem execFtHoldoverExpiry_moves (s : State) : Moves s (execFtHoldoverExpiry s) := by
  unfold execFtHoldoverExpiry
  repeat' split
  all_goals first
    | exact Go.moves _
    | exact .same s
    | (dsimp only; repeat' split
       all_goals first | exact Go.moves _ | exact .same s)

theorem execHostLinkRetrain_moves (s : State) : Moves s (execHostLinkRetrain s) := by
  unfold execHostLinkRetrain
  repeat' split
  all_goals first | exact Go.moves _ | exact .same s

theorem execPowerLoss_moves (s : State) : Moves s (execPowerLoss s) := by
  unfold execPowerLoss
  repeat' split
  all_goals first | exact Go.moves _ | exact .same s

theorem execGangSave_moves (n : Nat) (s : State) : Moves s (execGangSave n s) := by
  unfold execGangSave
  repeat' split
  all_goals first | exact Go.moves _ | exact .same s

theorem execHoldReleaseNotice_moves (n : Nat) (from_ : NoticeFrom) (s : State) :
    Moves s (execHoldReleaseNotice n from_ s) := by
  unfold execHoldReleaseNotice
  repeat' split
  all_goals first | exact Go.moves _ | exact .same s

theorem execDeliveryHandedOn_moves (j entry : Nat) (s : State) : Moves s (execDeliveryHandedOn j entry s) := by
  unfold execDeliveryHandedOn
  repeat' split
  all_goals first
    | exact Go.moves _
    | exact .same s
    | (dsimp only; repeat' split
       all_goals first | exact Go.moves _ | exact .same s)

theorem execGwctReached_moves (x k : Nat) (s : State) : Moves s (execGwctReached x k s) := by
  unfold execGwctReached
  repeat' split
  all_goals first
    | exact Go.moves _
    | exact .same s
    | (dsimp only; repeat' split
       all_goals first | exact Go.moves _ | exact .same s)

/-- Every instruction and every event answers a next state, reached by updates. -/
theorem exec_moves (i : Instr) (s : State) : Moves s (exec i s) :=
  match i with
  | .iadd _ => crewStep_moves _ _ _ _
  | .isub _ => crewStep_moves _ _ _ _
  | .imul _ => crewStep_moves _ _ _ _
  | .imulhi _ => crewStep_moves _ _ _ _
  | .imad _ => crewStep_moves _ _ _ _
  | .imin _ => crewStep_moves _ _ _ _
  | .imax _ => crewStep_moves _ _ _ _
  | .iabs _ => crewStep_moves _ _ _ _
  | .ineg _ => crewStep_moves _ _ _ _
  | .and _ => crewStep_moves _ _ _ _
  | .or _ => crewStep_moves _ _ _ _
  | .xor _ => crewStep_moves _ _ _ _
  | .not _ => crewStep_moves _ _ _ _
  | .shl _ => crewStep_moves _ _ _ _
  | .shr _ => crewStep_moves _ _ _ _
  | .sar _ => crewStep_moves _ _ _ _
  | .rot _ => crewStep_moves _ _ _ _
  | .popc _ => crewStep_moves _ _ _ _
  | .clz _ => crewStep_moves _ _ _ _
  | .brev _ => crewStep_moves _ _ _ _
  | .bfx _ => crewStep_moves _ _ _ _
  | .bfi _ => crewStep_moves _ _ _ _
  | .lea _ => crewStep_moves _ _ _ _
  | .icmp _ => crewStep_moves _ _ _ _
  | .sel _ => crewStep_moves _ _ _ _
  | .pand _ => crewStep_moves _ _ _ _
  | .por _ => crewStep_moves _ _ _ _
  | .pxor _ => crewStep_moves _ _ _ _
  | .pnot _ => crewStep_moves _ _ _ _
  | .pmov _ => crewStep_moves _ _ _ _
  | .fadd _ => crewStep_moves _ _ _ _
  | .fsub _ => crewStep_moves _ _ _ _
  | .fmul _ => crewStep_moves _ _ _ _
  | .fma _ => crewStep_moves _ _ _ _
  | .fmin _ => crewStep_moves _ _ _ _
  | .fmax _ => crewStep_moves _ _ _ _
  | .fcmp _ => crewStep_moves _ _ _ _
  | .fdiv _ => crewStep_moves _ _ _ _
  | .fsqrt _ => crewStep_moves _ _ _ _
  | .frcp _ => crewStep_moves _ _ _ _
  | .frsq _ => crewStep_moves _ _ _ _
  | .fexp2 _ => crewStep_moves _ _ _ _
  | .flog2 _ => crewStep_moves _ _ _ _
  | .fsin _ => crewStep_moves _ _ _ _
  | .fcos _ => crewStep_moves _ _ _ _
  | .frnd _ => crewStep_moves _ _ _ _
  | .fclass _ => crewStep_moves _ _ _ _
  | .dadd _ => crewStep_moves _ _ _ _
  | .dsub _ => crewStep_moves _ _ _ _
  | .dmul _ => crewStep_moves _ _ _ _
  | .dfma _ => crewStep_moves _ _ _ _
  | .dmin _ => crewStep_moves _ _ _ _
  | .dmax _ => crewStep_moves _ _ _ _
  | .dcmp _ => crewStep_moves _ _ _ _
  | .ddiv _ => crewStep_moves _ _ _ _
  | .dsqrt _ => crewStep_moves _ _ _ _
  | .cvt _ => crewStep_moves _ _ _ _
  | .pack2 _ => crewStep_moves _ _ _ _
  | .unpack2 _ => crewStep_moves _ _ _ _
  | .bfpack _ => crewStep_moves _ _ _ _
  | .bfunpack _ => crewStep_moves _ _ _ _
  | .bfexp _ => crewStep_moves _ _ _ _
  | .shfl _ => crewStep_moves _ _ _ _
  | .vote _ => crewStep_moves _ _ _ _
  | .bcast _ => crewStep_moves _ _ _ _
  | .redux _ => crewStep_moves _ _ _ _
  | .scan _ => crewStep_moves _ _ _ _
  | .matchv _ => crewStep_moves _ _ _ _
  | .mov _ => crewStep_moves _ _ _ _
  | .movw _ => crewStep_moves _ _ _ _
  | .rdsr _ => crewStep_moves _ _ _ _
  | .wrsr _ => crewStep_moves _ _ _ _
  | .setfmt _ => crewStep_moves _ _ _ _
  | .setfmtRm _ => crewStep_moves _ _ _ _
  | .getfmt _ => crewStep_moves _ _ _ _
  | .nop _ => crewStep_moves _ _ _ _
  | .bra _ => crewStep_moves _ _ _ _
  | .brx _ => crewStep_moves _ _ _ _
  | .call _ => crewStep_moves _ _ _ _
  | .callx _ => crewStep_moves _ _ _ _
  | .ret _ => crewStep_moves _ _ _ _
  | .exit _ => crewStep_moves _ _ _ _
  | .spawn _ => crewStep_moves _ _ _ _
  | .yield _ => crewStep_moves _ _ _ _
  | .brk _ => crewStep_moves _ _ _ _
  | .trap _ => crewStep_moves _ _ _ _
  | .ld _ => crewStep_moves _ _ _ _
  | .st _ => crewStep_moves _ _ _ _
  | .lds _ => crewStep_moves _ _ _ _
  | .sts _ => crewStep_moves _ _ _ _
  | .ldb _ => crewStep_moves _ _ _ _
  | .stb _ => crewStep_moves _ _ _ _
  | .ldc _ => crewStep_moves _ _ _ _
  | .pref _ => crewStep_moves _ _ _ _
  | .qwait _ => crewStep_moves _ _ _ _
  | .atom _ => crewStep_moves _ _ _ _
  | .atomf _ => crewStep_moves _ _ _ _
  | .cas _ => crewStep_moves _ _ _ _
  | .red _ => crewStep_moves _ _ _ _
  | .atoms _ => crewStep_moves _ _ _ _
  | .fence _ => crewStep_moves _ _ _ _
  | .bar _ => crewStep_moves _ _ _ _
  | .knotinit _ => crewStep_moves _ _ _ _
  | .knotarr _ => crewStep_moves _ _ _ _
  | .knotwait _ => crewStep_moves _ _ _ _
  | .knotfree _ => crewStep_moves _ _ _ _
  | .cwait _ => crewStep_moves _ _ _ _
  | .flagsig _ => crewStep_moves _ _ _ _
  | .flagwait _ => crewStep_moves _ _ _ _
  | .copy _ => crewStep_moves _ _ _ _
  | .copyg _ => crewStep_moves _ _ _ _
  | .batch _ => crewStep_moves _ _ _ _
  | .bwait _ => crewStep_moves _ _ _ _
  | .kick _ => crewStep_moves _ _ _ _
  | .setlay _ => crewStep_moves _ _ _ _
  | .mma _ => crewStep_moves _ _ _ _
  | .mmaw _ => crewStep_moves _ _ _ _
  | .mld _ => crewStep_moves _ _ _ _
  | .mst _ => crewStep_moves _ _ _ _
  | .mzero _ => crewStep_moves _ _ _ _
  | .mget _ => crewStep_moves _ _ _ _
  | .mgetTry _ => crewStep_moves _ _ _ _
  | .mrel _ => crewStep_moves _ _ _ _
  | .lstat _ => crewStep_moves _ _ _ _
  | .rld _ => crewStep_moves _ _ _ _
  | .rst _ => crewStep_moves _ _ _ _
  | .ratom _ => crewStep_moves _ _ _ _
  | .rfence _ => crewStep_moves _ _ _ _
  | .gld _ => crewStep_moves _ _ _ _
  | .gst _ => crewStep_moves _ _ _ _
  | .gdetach _ => crewStep_moves _ _ _ _
  | .claim _ => crewStep_moves _ _ _ _
  | .clwait _ => crewStep_moves _ _ _ _
  | .clwaitTest _ => crewStep_moves _ _ _ _
  | .announce _ => crewStep_moves _ _ _ _
  | .wstart _ => crewStep_moves _ _ _ _
  | .rdpr _ => crewStep_moves _ _ _ _
  | .wrpr _ => crewStep_moves _ _ _ _
  | .eret _ => crewStep_moves _ _ _ _
  | .tinvPage _ => crewStep_moves _ _ _ _
  | .tinvCtx _ => crewStep_moves _ _ _ _
  | .tinvPart _ => crewStep_moves _ _ _ _
  | .csave _ => crewStep_moves _ _ _ _
  | .crest _ => crewStep_moves _ _ _ _
  | .halt _ => crewStep_moves _ _ _ _
  | .xmit _ => winchStep_moves _ _ _ _
  | .store _ => winchStep_moves _ _ _ _
  | .comb _ => winchStep_moves _ _ _ _
  | .combf _ => winchStep_moves _ _ _ _
  | .fwd _ => winchStep_moves _ _ _ _
  | .waitf _ => winchStep_moves _ _ _ _
  | .sigf _ => winchStep_moves _ _ _ _
  | .loop _ => winchStep_moves _ _ _ _
  | .winchBra _ => winchStep_moves _ _ _ _
  | .brc _ => winchStep_moves _ _ _ _
  | .addh _ => winchStep_moves _ _ _ _
  | .subh _ => winchStep_moves _ _ _ _
  | .movh _ => winchStep_moves _ _ _ _
  | .lih _ => winchStep_moves _ _ _ _
  | .cmph _ => winchStep_moves _ _ _ _
  | .ldh _ => winchStep_moves _ _ _ _
  | .setc _ => winchStep_moves _ _ _ _
  | .yld _ => winchStep_moves _ _ _ _
  | .winchHalt _ => winchStep_moves _ _ _ _
  | .nopw _ => winchStep_moves _ _ _ _
  | .merge _ _ => execMerge_moves ..
  | .priorityBoost _ => execPriorityBoost_moves ..
  | .ordRelease _ _ => execOrdRelease_moves ..
  | .crewRetire _ => execCrewRetire_moves ..
  | .spawnReport _ _ _ _ _ => execSpawnReport_moves ..
  | .launchComplete _ => execLaunchComplete_moves ..
  | .loadReturn _ _ => execLoadReturn_moves ..
  | .storePerform _ _ _ => execStorePerform_moves ..
  | .storeAck _ _ _ => execStoreAck_moves ..
  | .fenceComplete _ _ => execFenceComplete_moves ..
  | .leaseExpiry _ _ => execLeaseExpiry_moves ..
  | .exclusiveLeaseEnd _ _ => execExclusiveLeaseEnd_moves ..
  | .waitReread _ _ => execWaitReread_moves ..
  | .engineTransfer _ _ _ => execEngineTransfer_moves ..
  | .requestListElement _ _ => execRequestListElement_moves ..
  | .batchComplete _ => execBatchComplete_moves ..
  | .matrixOpStart _ _ => execMatrixOpStart_moves ..
  | .matrixBlock _ _ => execMatrixBlock_moves ..
  | .matrixOpRetire _ _ => execMatrixOpRetire_moves ..
  | .remotePassArrive _ => execRemotePassArrive_moves ..
  | .windowPassArrive _ => execWindowPassArrive_moves ..
  | .passReply _ _ _ _ _ _ => execPassReply_moves ..
  | .passCommit _ _ _ _ => execPassCommit_moves ..
  | .passCancel _ _ => execPassCancel_moves ..
  | .passTimeout _ => execPassTimeout_moves ..
  | .orderedFlagRelease _ _ => execOrderedFlagRelease_moves ..
  | .claimArrive _ _ => execClaimArrive_moves ..
  | .announceAccept _ _ => execAnnounceAccept_moves ..
  | .tileArrive _ _ => execTileArrive_moves ..
  | .claimDelivered _ _ => execClaimDelivered_moves ..
  | .requesterExpiry _ _ _ => execRequesterExpiry_moves ..
  | .neverProduced _ _ _ _ => execNeverProduced_moves ..
  | .withdrawal _ _ _ => execWithdrawal_moves ..
  | .claimRefusal _ _ => execClaimRefusal_moves ..
  | .stockpileExpiry _ _ => execStockpileExpiry_moves ..
  | .chunkArrive _ _ _ _ _ => execChunkArrive_moves ..
  | .creditReturn _ _ _ => execCreditReturn_moves ..
  | .winchForcedYield _ => execWinchForcedYield_moves ..
  | .waitfReread _ _ => execWaitfReread_moves ..
  | .wsetStartFlit _ _ _ _ => execWsetStartFlit_moves ..
  | .wsetDone _ _ _ => execWsetDone_moves ..
  | .wcLoad _ _ => execWcLoad_moves ..
  | .wcRun _ _ => execWcRun_moves ..
  | .wcStep _ _ => execWcStep_moves ..
  | .wcStop _ _ => execWcStop_moves ..
  | .wcClear _ _ => execWcClear_moves ..
  | .partControlWrite _ _ => execPartControlWrite_moves ..
  | .viFlr _ => execViFlr_moves ..
  | .ctxCreate _ => execCtxCreate_moves ..
  | .ctxRelease _ _ => execCtxRelease_moves ..
  | .resume _ _ => execResume_moves ..
  | .skip _ _ => execSkip_moves ..
  | .exitAction _ _ => execExitAction_moves ..
  | .abort _ _ => execAbort_moves ..
  | .ctxWake _ => execCtxWake_moves ..
  | .faultRecordCommit _ => execFaultRecordCommit_moves ..
  | .faultRingRetry _ => execFaultRingRetry_moves ..
  | .uncorrectableError _ => execUncorrectableError_moves ..
  | .qControlWrite _ _ _ => execQControlWrite_moves ..
  | .qTailKick _ _ => execQTailKick_moves ..
  | .qResumeSkip _ => execQResumeSkip_moves ..
  | .qResumeRetry _ => execQResumeRetry_moves ..
  | .launch _ => packetStep_moves _ _
  | .wset _ => packetStep_moves _ _
  | .copyPacket _ => packetStep_moves _ _
  | .copyPacketComplete _ _ => execCopyPacketComplete_moves ..
  | .waitv _ => packetStep_moves _ _
  | .waitvReread _ => execWaitvReread_moves ..
  | .signal _ => packetStep_moves _ _
  | .signalComplete _ _ => execSignalComplete_moves ..
  | .fencePacket => packetStep_moves _ _
  | .replay => packetStep_moves _ _
  | .nopk => packetStep_moves _ _
  | .queueSchedule _ _ => execQueueSchedule_moves ..
  | .forcedUnmap _ => execForcedUnmap_moves ..
  | .eclassAging _ => execEclassAging_moves ..
  | .distributorPlace _ => execDistributorPlace_moves ..
  | .reserve _ => execReserve_moves ..
  | .held _ _ => execHeld_moves ..
  | .gangCommit _ => execGangCommit_moves ..
  | .placed _ _ => execPlaced_moves ..
  | .refusedMsg _ _ => execRefusedMsg_moves ..
  | .gangCancel _ => execGangCancel_moves ..
  | .gangGo _ => execGangGo_moves ..
  | .gangSaved _ _ => execGangSaved_moves ..
  | .gangwaitExpiry _ _ => execGangwaitExpiry_moves ..
  | .drainExpiry _ => execDrainExpiry_moves ..
  | .dvGo _ _ => execDvGo_moves ..
  | .teamRestore _ => execTeamRestore_moves ..
  | .colocationWindow _ => execColocationWindow_moves ..
  | .tableWalk _ _ _ => execTableWalk_moves ..
  | .trReplay _ => execTrReplay_moves ..
  | .tagAddrWrite _ _ => execTagAddrWrite_moves ..
  | .tagDataWrite _ _ => execTagDataWrite_moves ..
  | .ptFlush => execPtFlush_moves ..
  | .pathsDownExpiry _ => execPathsDownExpiry_moves ..
  | .flitReceive _ _ => execFlitReceive_moves ..
  | .nak _ _ => execNak_moves ..
  | .replayTimeout _ => execReplayTimeout_moves ..
  | .flitForward _ _ => execFlitForward_moves ..
  | .returnedFlit _ _ => execReturnedFlit_moves ..
  | .lnkEnable _ _ => execLnkEnable_moves ..
  | .trainingComplete _ _ _ => execTrainingComplete_moves ..
  | .laneHealthWindow _ => execLaneHealthWindow_moves ..
  | .keySlotWrite _ _ _ _ => execKeySlotWrite_moves ..
  | .txselWrite _ _ => execTxselWrite_moves ..
  | .keydone _ _ => execKeydone_moves ..
  | .ftControlFlit _ _ _ _ _ => execFtControlFlit_moves ..
  | .ftNowWrite _ => execFtNowWrite_moves ..
  | .install _ => execInstall_moves ..
  | .load _ => execLoad_moves ..
  | .unload _ => execUnload_moves ..
  | .attest _ => execAttest_moves ..
  | .reset => execReset_moves ..
  | .fatalError _ => execFatalError_moves ..
  | .pwrThrottle _ _ _ => execPwrThrottle_moves ..
  | .hostLinkDown => execHostLinkDown_moves ..
  | .readClear _ _ => execReadClear_moves ..
  | .systemRegisterWrite _ _ _ => execSystemRegisterWrite_moves ..
  | .ftHoldoverExpiry => execFtHoldoverExpiry_moves ..
  | .hostLinkRetrain => execHostLinkRetrain_moves ..
  | .powerLoss => execPowerLoss_moves ..
  | .gangSave _ => execGangSave_moves ..
  | .holdReleaseNotice _ _ => execHoldReleaseNotice_moves ..
  | .deliveryHandedOn _ _ => execDeliveryHandedOn_moves ..
  | .gwctReached _ _ => execGwctReached_moves ..

/-- Taking a turn is three updates. -/
theorem State.take_reach (s : State) (t : Turn) (listed : Bool) : Reach s (s.take t listed) :=
  .step (.cur (s.take t listed).cur) (.step .fresh (.step (.agenda (s.take t listed).agenda) .refl))

theorem splitFetch_moves (s : State) (x k : Nat) (c : Crew) (sp : Split) : Moves s (splitFetch s x k c sp) := by
  unfold splitFetch
  split
  · exact Go.moves _
  · split
    · exact .after _ (exec_moves _ _)
    · exact Go.moves _

theorem splitTurn_moves (s : State) : Moves s (splitTurn s) := by
  unfold splitTurn
  split
  · exact .same s
  · split
    · exact exec_moves _ _
    · exact splitFetch_moves ..

theorem winchTurn_moves (s : State) : Moves s (winchTurn s) := by
  unfold winchTurn
  split
  · exact .same s
  · split
    · split
      · exact exec_moves _ _
      · exact Go.moves _
    · exact Go.moves _

theorem queueFetch_moves (s : State) (q : Nat) (v : Queue) : Moves s (queueFetch s q v) := by
  unfold queueFetch
  split
  · exact Go.moves _
  · exact Go.moves _
  · split
    · exact .after _ (exec_moves _ _)
    · exact Go.moves _
    · exact Go.moves _

theorem queueTurn_moves (s : State) : Moves s (queueTurn s) := by
  unfold queueTurn
  split
  · exact .same s
  · split
    · split
      · exact exec_moves _ _
      · exact .same s
    · exact queueFetch_moves ..

/-- Every turn answers a next state. -/
theorem runTurn_moves (t : Turn) (s : State) : Moves s (runTurn t s) :=
  match t with
  | .issue _ _ => splitTurn_moves s
  | .winch _ _ => winchTurn_moves s
  | .queue _ => queueTurn_moves s
  | .event i => exec_moves i s
  | .elapse _ => Go.moves _

/-- What a turn sends goes onto its links: the turn still answers a next state. -/
theorem State.wired_moves {s t : State} {o : Host.Outcome State Fault Refusal} (h : Moves t o) : Moves t (s.wired o) := by
  obtain ⟨u, rfl, r⟩ := h
  exact ⟨_, rfl, r.trans (wireOut (Go.start u) s.outbox.length).reach⟩

/-- A step answers a next state reached by updates, or stops for want of power. -/
theorem step_moves (s : State) : Moves s (step s) ∨ step s = .fault .unpowered := by
  unfold step
  split
  · refine .inl ?_
    split
    split
    · obtain ⟨t, e, r⟩ := State.wired_moves (s := s) (runTurn_moves _ (s.take _ _))
      exact ⟨t, e, (State.take_reach ..).trans r⟩
    · exact ⟨_, rfl, State.take_reach ..⟩
  · split
    · split
      · obtain ⟨t, e, r⟩ := State.wired_moves (s := s) (runTurn_moves _ (s.take _ true))
        exact .inl ⟨t, e, (State.take_reach ..).trans r⟩
      · exact .inr rfl
    · exact .inr rfl

theorem step_reach {s t : State} (h : step s = .next t) : Reach s t := by
  rcases step_moves s with ⟨u, e, r⟩ | e
  · rw [e] at h; injection h with h; exact h ▸ r
  · rw [e] at h; exact absurd h (by simp)

theorem exec_reach {i : Instr} {s t : State} (h : exec i s = .next t) : Reach s t := by
  obtain ⟨u, e, r⟩ := exec_moves i s
  rw [e] at h; injection h with h; exact h ▸ r

end Sys2Proof.Machine
end

