-- ==== Sys2Proof/Laws/Regs.lean ====
section
/-! SUPPORT. What register writes leave in the registers: reads after writes, and the registers that keep their values. -/

namespace Sys2Proof.Machine

/-! ### One write -/

@[simp] theorem Crew.row_setRow_same (c : Crew) (r l v : Nat) : (c.setRow r l v).row r l = BitVec.ofNat 32 v := by
  simp [Crew.row, Crew.setRow]

theorem Crew.row_setRow_other (c : Crew) {r l r' l' : Nat} (v : Nat) (h : r' * 128 + l' ≠ r * 128 + l) :
    (c.setRow r l v).row r' l' = c.row r' l' := by
  simp [Crew.row, Crew.setRow, Tab.get_set_other _ _ _ h]

@[simp] theorem Crew.uni_zero (c : Crew) : c.uni 0 = 0 := rfl

theorem Crew.uni_setUni_same (c : Crew) {n : Nat} (v : Nat) (h : n ≠ 0) : (c.setUni n v).uni n = BitVec.ofNat 64 v := by
  simp [Crew.uni, Crew.setUni, h]

@[simp] theorem Crew.setUni_zero (c : Crew) (v : Nat) : c.setUni 0 v = c := rfl

theorem Crew.uni_setUni_other (c : Crew) {n m : Nat} (v : Nat) (h : m ≠ n) : (c.setUni n v).uni m = c.uni m := by
  unfold Crew.setUni
  split
  · rfl
  · simp [Crew.uni, Tab.get_set_other _ _ _ h]

theorem Crew.predSet_setPred_same (c : Crew) {n : Nat} (m v : Lanes) (h : n ≠ 0) :
    (c.setPred n m v).predSet n = (c.predSet n &&& ~~~m) ||| (v &&& m) := by
  simp [Crew.predSet, Crew.setPred, h]

@[simp] theorem Crew.setPred_zero (c : Crew) (m v : Lanes) : c.setPred 0 m v = c := rfl

theorem Crew.predSet_setPred_other (c : Crew) {n j : Nat} (m v : Lanes) (h : j ≠ n) : (c.setPred n m v).predSet j = c.predSet j := by
  unfold Crew.setPred
  split
  · rfl
  · simp [Crew.predSet, Tab.get_set_other _ _ _ h]

/-! ### Lists of writes -/

/-- A row that no write of the list names keeps its value. -/
theorem Crew.row_putRows_other (c : Crew) (xs : List (Nat × Nat × Nat)) (r l : Nat)
    (h : ∀ e ∈ xs, e.1 * 128 + e.2.1 ≠ r * 128 + l) : (c.putRows xs).row r l = c.row r l := by
  induction xs generalizing c with
  | nil => rfl
  | cons e xs ih =>
    obtain ⟨r', l', x⟩ := e
    unfold Crew.putRows
    rw [ih _ fun e he => h e (List.mem_cons_of_mem _ he)]
    exact Crew.row_setRow_other _ _ (h _ List.mem_cons_self).symm

/-- Where every write of the list to a row carries the same value, and there is one or the row holds it already, the row holds it. -/
theorem Crew.row_putRows_same (c : Crew) (xs : List (Nat × Nat × Nat)) (r l v : Nat)
    (hu : ∀ e ∈ xs, e.1 * 128 + e.2.1 = r * 128 + l → e.2.2 = v)
    (h : (∃ e ∈ xs, e.1 * 128 + e.2.1 = r * 128 + l) ∨ c.row r l = BitVec.ofNat 32 v) :
    (c.putRows xs).row r l = BitVec.ofNat 32 v := by
  induction xs generalizing c with
  | nil =>
    rcases h with ⟨e, he, -⟩ | h
    · exact absurd he (by simp)
    · exact h
  | cons e xs ih =>
    obtain ⟨r', l', x⟩ := e
    unfold Crew.putRows
    apply ih _ fun e he => hu e (List.mem_cons_of_mem _ he)
    by_cases hk : r' * 128 + l' = r * 128 + l
    · have hx : x = v := hu _ List.mem_cons_self hk
      subst hx
      right
      simp only [Crew.row, Crew.setRow, hk, Tab.get_set_same]
    · rcases h with ⟨e, he, h⟩ | h
      · rcases List.mem_cons.1 he with he | he
        · subst he; exact absurd h hk
        · exact .inl ⟨e, he, h⟩
      · exact .inr (by rw [Crew.row_setRow_other _ _ (Ne.symm hk)]; exact h)

/-- A uniform register that no write of the list names keeps its value. -/
theorem Crew.uni_putUnis_other (c : Crew) (xs : List (Nat × Nat)) (n : Nat) (h : ∀ e ∈ xs, e.1 ≠ n) :
    (c.putUnis xs).uni n = c.uni n := by
  induction xs generalizing c with
  | nil => rfl
  | cons e xs ih =>
    obtain ⟨m, x⟩ := e
    unfold Crew.putUnis
    rw [ih _ fun e he => h e (List.mem_cons_of_mem _ he)]
    exact Crew.uni_setUni_other _ _ (h _ List.mem_cons_self).symm

theorem Crew.predSet_putPreds_other (c : Crew) (xs : List (Nat × Lanes × Lanes)) (n : Nat) (h : ∀ e ∈ xs, e.1 ≠ n) :
    (c.putPreds xs).predSet n = c.predSet n := by
  induction xs generalizing c with
  | nil => rfl
  | cons e xs ih =>
    obtain ⟨m, k, x⟩ := e
    unfold Crew.putPreds
    rw [ih _ fun e he => h e (List.mem_cons_of_mem _ he)]
    exact Crew.predSet_setPred_other _ _ _ (h _ List.mem_cons_self).symm

/-! ### The registers after `putOut` -/

theorem Crew.row_of_v {c d : Crew} (h : c.v = d.v) (r l : Nat) : c.row r l = d.row r l := by simp [Crew.row, h]
theorem Crew.uni_of_s {c d : Crew} (h : c.s = d.s) (n : Nat) : c.uni n = d.uni n := by simp [Crew.uni, h]
theorem Crew.predSet_of_p {c d : Crew} (h : c.p = d.p) (hw : c.width = d.width) (n : Nat) : c.predSet n = d.predSet n := by
  simp [Crew.predSet, h, hw]

theorem Crew.row_putOut (c : Crew) (o : RegOut) (r l : Nat) : (c.putOut o).row r l = (c.putRows o.v).row r l := by
  apply Crew.row_of_v
  unfold Crew.putOut
  rw [Crew.putLays_frame, Crew.putPreds_frame, Crew.putUnis_frame]

theorem Crew.uni_putOut (c : Crew) (o : RegOut) (n : Nat) : (c.putOut o).uni n = (c.putUnis o.s).uni n := by
  have h1 : (c.putRows o.v).s = c.s := by rw [Crew.putRows_frame]
  have h2 : ∀ (xs : List (Nat × Nat)) (a b : Crew), a.s = b.s → (a.putUnis xs).s = (b.putUnis xs).s := by
    intro xs
    induction xs with
    | nil => exact fun a b h => h
    | cons e xs ih =>
      intro a b h
      obtain ⟨n, x⟩ := e
      unfold Crew.putUnis
      apply ih
      unfold Crew.setUni
      split <;> simp [h]
  apply Crew.uni_of_s
  unfold Crew.putOut
  rw [Crew.putLays_frame, Crew.putPreds_frame]
  exact h2 _ _ _ h1

theorem Crew.predSet_putOut (c : Crew) (o : RegOut) (n : Nat) : (c.putOut o).predSet n = (c.putPreds o.p).predSet n := by
  have h2 : ∀ (xs : List (Nat × Lanes × Lanes)) (a b : Crew), a.p = b.p → a.width = b.width →
      (a.putPreds xs).p = (b.putPreds xs).p ∧ (a.putPreds xs).width = (b.putPreds xs).width := by
    intro xs
    induction xs with
    | nil => exact fun a b h hw => ⟨h, hw⟩
    | cons e xs ih =>
      intro a b h hw
      obtain ⟨n, m, x⟩ := e
      unfold Crew.putPreds
      apply ih
      · unfold Crew.setPred
        split
        · exact h
        · simp only [Crew.predSet_of_p h hw, h]
      · unfold Crew.setPred
        split <;> exact hw
  have h1 : ((c.putRows o.v).putUnis o.s).p = c.p ∧ ((c.putRows o.v).putUnis o.s).width = c.width := by
    rw [Crew.putUnis_frame, Crew.putRows_frame]; exact ⟨rfl, rfl⟩
  have h3 := h2 o.p _ _ h1.1 h1.2
  unfold Crew.putOut
  rw [Crew.putLays_frame]
  exact Crew.predSet_of_p h3.1 h3.2 n

/-! ### Writing D -/

theorem physRow_inj {wbase wrows i j : Nat} (hi : i < wrows + j) (hj : j < wrows + i) (h : physRow wbase wrows i = physRow wbase wrows j) :
    i = j := by
  unfold physRow at h
  have := Nat.ModEq.add_left_cancel' wbase (h : wbase + i ≡ wbase + j [MOD wrows])
  rcases Nat.lt_or_ge i j with hl | hg
  · have := (Nat.modEq_iff_dvd' (Nat.le_of_lt hl)).1 this
    exact absurd (Nat.le_of_dvd (by omega) this) (by omega)
  · rcases Nat.eq_or_lt_of_le hg with he | hl
    · exact he.symm
    · have := (Nat.modEq_iff_dvd' (Nat.le_of_lt hl)).1 this.symm
      exact absurd (Nat.le_of_dvd (by omega) this) (by omega)

theorem lanesOf_lt {m : Lanes} {w l : Nat} (h : l ∈ lanesOf m w) : l < 128 ∧ hasLane m l = true ∧ l < w := by
  simp only [lanesOf, List.mem_filter, List.mem_range] at h
  refine ⟨?_, h.2, h.1⟩
  by_contra hc
  have : hasLane m l = false := BitVec.getLsbD_of_ge m l (by omega)
  rw [this] at h; exact absurd h.2 (by simp)

/-- A class-v D holds the value, row by row, in the lanes that take effect. -/
theorem Issue.putD_row (i : Issue) (c : Crew) (n : Nat) (x : Nat → Nat) {idx : BitVec 8} {swz : BitVec 3} {abs neg : Bool}
    (hD : i.f.d = .v idx swz abs neg) {l : Nat} (hl : l ∈ i.lanes) {j : Nat} (hj : j < n) (hn : n ≤ i.c.wrows) :
    (c.putOut (i.putD n x)).row (physRow i.sp.wbase i.c.wrows (idx.toNat + j)) l = BitVec.ofNat 32 (elem (x l) 32 j) := by
  rw [Crew.row_putOut]
  simp only [Issue.putD, hD]
  apply Crew.row_putRows_same
  case h =>
    refine .inl ⟨(physRow i.sp.wbase i.c.wrows (idx.toNat + j), l, elem (x l) 32 j), ?_, rfl⟩
    simp only [List.mem_flatten, List.mem_map]
    exact ⟨_, ⟨l, hl, rfl⟩, by simp only [rowsOut, List.mem_map, List.mem_range]; exact ⟨j, hj, rfl⟩⟩
  · rintro ⟨r, l', v⟩ he hk
    simp only [List.mem_flatten, List.mem_map] at he
    obtain ⟨_, ⟨l2, hl2, rfl⟩, hm⟩ := he
    simp only [rowsOut, List.mem_map, List.mem_range] at hm
    obtain ⟨j', hj', he⟩ := hm
    injection he with h1 h2
    injection h2 with h2 h3
    subst h1 h2 h3
    simp only at hk ⊢
    have a := (lanesOf_lt hl).1
    have b := (lanesOf_lt hl2).1
    have hll : l2 = l := by omega
    subst hll
    have hp : physRow i.sp.wbase i.c.wrows (idx.toNat + j') = physRow i.sp.wbase i.c.wrows (idx.toNat + j) := by omega
    have := physRow_inj (by omega) (by omega) hp
    rw [show j' = j by omega]

/-- A class-s D other than `s0` holds the value of the lowest lane that takes effect. -/
theorem Issue.putD_uni (i : Issue) (c : Crew) (n : Nat) (x : Nat → Nat) {r : BitVec 6} (hD : i.f.d = .s r) (hr : r.toNat ≠ 0)
    (hrun : i.run ≠ 0) : (c.putOut (i.putD n x)).uni r.toNat = BitVec.ofNat 64 (x ((lowest i.run i.c.width).getD 0)) := by
  rw [Crew.uni_putOut]
  simp only [Issue.putD, hD, hrun, if_false, Crew.putUnis]
  rw [Crew.uni_setUni_same _ _ hr]
  apply BitVec.eq_of_toNat_eq
  simp

/-- A predicate destination other than `p0` takes the condition in the lanes that take effect and keeps the others. -/
theorem Issue.putP_pred (i : Issue) (c : Crew) (x : Nat → Bool) {n : BitVec 3} {neg : Bool} (hD : i.f.d = .p n neg) (hn : n.toNat ≠ 0) :
    (c.putOut (i.putP x)).predSet n.toNat = (c.predSet n.toNat &&& ~~~i.run) ||| (laneSet (i.lanes.filter x) &&& i.run) := by
  rw [Crew.predSet_putOut]
  simp only [Issue.putP, hD, Crew.putPreds]
  exact Crew.predSet_setPred_same _ _ _ hn

end Sys2Proof.Machine
end

