-- ==== Sys2Proof/Laws/Translate.lean ====
section
/-! SUPPORT. What a translation answers where the units agree with the tables: the walk, and units that agree still. -/

namespace Sys2Proof.Machine

/-! ### A walk reads the bits above the page it finds -/

theorem leNat_lt : ∀ bs : List Byte, leNat bs < 2 ^ (8 * bs.length)
  | [] => by simp [leNat]
  | b :: bs => by
    have h := leNat_lt bs
    have hb := b.isLt
    simp only [leNat, List.length_cons]
    rw [show 8 * (bs.length + 1) = 8 * bs.length + 8 by omega, Nat.pow_add]
    omega

theorem State.bytesAt_length (s : State) : ∀ (n k : Nat), (s.bytesAt k n).length = n
  | 0, _ => rfl
  | n + 1, k => by simp [State.bytesAt, State.bytesAt_length s n]

/-- A level's index is the same for two addresses of one page at or below the level. -/
theorem bitf_page {va va' k l n : Nat} (h : va / 2 ^ k = va' / 2 ^ k) (le : k ≤ l) : bitf va l n = bitf va' l n := by
  obtain ⟨d, rfl⟩ := Nat.exists_eq_add_of_le le
  simp only [bitf, Nat.pow_add, ← Nat.div_div_eq_div_mul, h]

/-- A walk that ends at a leaf: the leaf is a word, its page has the size of a level, and every address of that page walks there. -/
theorem State.walkFrom_ok (s : State) (ctx va : Nat) : ∀ (ls : List WalkLevel) (table level e size : Nat), ls.Pairwise (fun a b => b.shift ≤ a.shift) →
    s.walkFrom ctx va table level ls = .ok e size → e < 2 ^ 64 ∧ ∃ l ∈ ls, size = 2 ^ l.shift ∧
      ∀ va', va / 2 ^ l.shift = va' / 2 ^ l.shift → s.walkFrom ctx va' table level ls = .ok e size
  | [], _, _, _, _, _, h => by simp [State.walkFrom] at h
  | l :: ls, table, level, e, size, p, h => by
    obtain ⟨p1, p2⟩ := List.pairwise_cons.mp p
    simp only [State.walkFrom] at h
    split at h
    case isFalse => cases h
    rename_i hb
    split at h
    case isTrue => cases h
    rename_i he
    split at h
    · rename_i hl
      split at h
      case isFalse => cases h
      rename_i hk
      cases h
      refine ⟨by simpa [State.bytesAt_length] using leNat_lt (s.bytesAt (table + 8 * bitf va l.shift l.bits) 8), l, List.mem_cons_self, rfl, fun va' q => ?_⟩
      simp only [State.walkFrom, hb, ← bitf_page q (Nat.le_refl l.shift), he, hl, hk, if_true, if_false]
    · rename_i hl
      cases ls with
      | nil => cases h
      | cons l' ls =>
        simp only at h
        split at h
        case isFalse => cases h
        rename_i hn
        obtain ⟨b, m, hm, z, r⟩ := State.walkFrom_ok s ctx va (l' :: ls) _ _ _ _ p2 h
        refine ⟨b, m, List.mem_cons_of_mem _ hm, z, fun va' q => ?_⟩
        rw [State.walkFrom]
        simp only [hb, ← bitf_page q (p1 m hm), he, hl, hn, if_true, if_false]
        exact r va' q

/-- The same of a walk of a context's tables: every address of the page that holds `va` walks to the leaf. -/
theorem State.walk_ok {s : State} {ctx va e size : Nat} (h : s.walk ctx va = .ok e size) :
    e < 2 ^ 64 ∧ 0 < size ∧ ∀ va', va - va % size ≤ va' → va' < va - va % size + size → s.walk ctx va' = .ok e size := by
  unfold State.walk at h ⊢
  split at h
  case isFalse => cases h
  rename_i t
  obtain ⟨b, l, _, z, r⟩ := State.walkFrom_ok s ctx va walkLevels _ _ _ _ (by decide) h
  have pos : 0 < size := z ▸ Nat.two_pow_pos l.shift
  refine ⟨b, pos, fun va' h1 h2 => ?_⟩
  rw [if_pos t]
  apply r
  rw [← z]
  have e1 : va - va % size = size * (va / size) := by have := Nat.div_add_mod va size; omega
  rw [e1] at h1 h2
  refine (Nat.div_eq_of_lt_le (by rw [Nat.mul_comm]; exact h1) ?_).symm
  rw [Nat.mul_comm, Nat.mul_add]; omega

/-! ### Translations -/

/-- No walk depends on what units hold. -/
theorem State.walkFrom_tlb (u : Nat) (v : List TlbEntry) (s : State) (ctx va : Nat) : ∀ (ls : List WalkLevel) (table level : Nat),
    ((Upd.tlb u v).apply s).walkFrom ctx va table level ls = s.walkFrom ctx va table level ls
  | [], _, _ => rfl
  | l :: ls, table, level => by
    have b : ∀ n k, ((Upd.tlb u v).apply s).bytesAt k n = s.bytesAt k n := by
      intro n
      induction n with
      | zero => intro k; rfl
      | succ n ih => intro k; simp only [State.bytesAt, ih]; rfl
    have i := State.walkFrom_tlb u v s ctx va ls
    have ok : ∀ e z, ((Upd.tlb u v).apply s).leafOk ctx e z = s.leafOk ctx e z := fun _ _ => rfl
    have hb : ∀ k n, ((Upd.tlb u v).apply s).hbmOk ctx k n = s.hbmOk ctx k n := fun _ _ => rfl
    simp only [State.walkFrom, b, i, ok, hb]

@[simp] theorem State.walk_tlb (u : Nat) (v : List TlbEntry) (s : State) (ctx va : Nat) : ((Upd.tlb u v).apply s).walk ctx va = s.walk ctx va := by
  have c : ((Upd.tlb u v).apply s).ctx ctx = s.ctx ctx := rfl
  simp only [State.walk, c, State.walkFrom_tlb]

theorem State.tlbAdd_mem {s : State} {u : Nat} {e x : TlbEntry} (h : x ∈ s.tlbAdd u e) : x = e ∨ x ∈ Tab.get [] s.tlbs u := by
  simp only [State.tlbAdd, List.mem_cons] at h
  refine h.imp id fun h => ?_
  split at h
  · exact List.mem_of_mem_filter h
  · exact List.mem_of_mem_filter (List.mem_of_mem_eraseIdx h)

/-- Units that agree with the tables agree with them after one of them took a translation that the tables give. -/
theorem State.UnitsAgree.add {s : State} {us : List Nat} {ctx u : Nat} {e : TlbEntry} (h : s.UnitsAgree us ctx)
    (he : e.ctx = ctx → ∀ va, e.page ≤ va → va < e.page + e.size → s.walk ctx va = .ok e.leaf.toNat e.size) :
    ((Upd.tlb u (s.tlbAdd u e)).apply s).UnitsAgree us ctx := by
  refine ⟨fun v hv x hx => ?_, fun w hw c va q => (State.walk_tlb ..).trans (h.2 w hw c va q)⟩
  have hx : x ∈ Tab.get [] (Tab.set [] s.tlbs u (s.tlbAdd u e)) v := hx
  simp only [State.walk_tlb]
  by_cases q : v = u
  · subst q
    rw [Tab.get_set_same] at hx
    exact (State.tlbAdd_mem hx).elim (fun r => r ▸ he) fun r => h.1 v hv x r
  · rw [Tab.get_set_other _ _ _ q] at hx
    exact h.1 v hv x hx

theorem fillTlbs_agree {s : State} {us : List Nat} {ctx : Nat} {e : TlbEntry} : ∀ (vs : List Nat) (g : Go s), g.st.UnitsAgree us ctx →
    (∀ va, e.page ≤ va → va < e.page + e.size → g.st.walk ctx va = .ok e.leaf.toNat e.size) →
    (fillTlbs g vs e).st.UnitsAgree us ctx ∧ ∀ va, (fillTlbs g vs e).st.walk ctx va = g.st.walk ctx va
  | [], _, h, _ => ⟨h, fun _ => rfl⟩
  | v :: vs, g, h, he => by
    have r := fillTlbs_agree vs (g.put (.tlb v (g.st.tlbAdd v e))) (h.add fun _ => he) (fun va a b => (State.walk_tlb ..).trans (he va a b))
    exact ⟨r.1, fun va => (r.2 va).trans (State.walk_tlb ..)⟩

/-- A translation through units that agree with the tables answers the walk, and they agree still (R433). -/
theorem translate_agree {s : State} {g : Go s} {us : List Nat} {ctx : Nat} (a : Nat) (h : g.st.UnitsAgree us ctx) :
    (translate g us ctx a).1 = g.st.walk ctx (va56 a) ∧ (translate g us ctx a).2.st.UnitsAgree us ctx ∧
      ∀ va, (translate g us ctx a).2.st.walk ctx va = g.st.walk ctx va := by
  simp only [translate]
  split
  · rename_i e q
    obtain ⟨u, hu, q⟩ := List.exists_of_findSome?_eq_some q
    simp only [State.tlbHit] at q
    split at q
    case h_2 => cases q
    rename_i e' f
    split at q
    case isFalse => cases q
    cases q
    have c := List.find?_some f
    simp only [TlbEntry.covers, Bool.and_eq_true, beq_iff_eq, decide_eq_true_eq] at c
    refine ⟨(h.1 u hu _ (List.mem_of_find?_eq_some f) c.1.1 _ c.1.2 c.2).symm, h, fun _ => rfl⟩
  · have w : (match g.st.walking us ctx (va56 a) with | some w => w.res | none => g.st.walk ctx (va56 a)) = g.st.walk ctx (va56 a) := by
      split
      · rename_i w q
        have c := List.find?_some q
        simp only [Bool.and_eq_true, beq_iff_eq] at c
        exact (h.2 w (List.mem_of_find?_eq_some q) c.1.2 _ c.2.symm).symm
      · rfl
    split
    · rename_i e size q
      have q := w.symm.trans q
      obtain ⟨lt, _, r⟩ := State.walk_ok q
      have b : (BitVec.ofNat 64 e).toNat = e := Nat.mod_eq_of_lt lt
      have f := fillTlbs_agree (e := { ctx := ctx, page := va56 a - va56 a % size, size := size, leaf := BitVec.ofNat 64 e }) us g h
        (fun va x y => by rw [b]; exact r va x y)
      exact ⟨q.symm, f.1, f.2⟩
    · exact ⟨w, h, fun _ => rfl⟩

end Sys2Proof.Machine
end

