-- ==== Sys2Proof/Laws/Wf.lean ====
section
/-! SUPPORT. Every memory operation keeps memory in its canonical form, and so does every path of updates; the memory after reset has it. -/

namespace Sys2Proof.Machine

/-- One update keeps the canonical form of memory. -/
theorem Upd.apply_mem_wf (u : Upd) (s : State) (h : Memory.wf s.mem = true) : Memory.wf (u.apply s).mem = true := by
  cases u
  case mem k b => exact Tab.wf_set 0 s.mem k b h
  case restart keep => cases keep <;> simp [Upd.apply, h]
  all_goals exact h

/-- Whatever updates reach keeps the canonical form of memory. -/
theorem Reach.mem_wf {s t : State} (r : Reach s t) (h : Memory.wf s.mem = true) : Memory.wf t.mem = true := by
  induction r with
  | refl => exact h
  | step u _ ih => exact Upd.apply_mem_wf u _ ih

/-- The memory operations of every meaning (homeCells, homeStore, firmwareWrite and all that are built of them) keep the canonical form. -/
theorem Go.mem_wf {s : State} (g : Go s) (h : Memory.wf s.mem = true) : Memory.wf g.st.mem = true := g.reach.mem_wf h

/-- The bytes that withFetchWord places keep it too. -/
theorem placeBytes_wf (bs : List Byte) (mem : List Host.Cell) (k : Nat) (h : Memory.wf mem = true) : Memory.wf (placeBytes mem k bs) = true := by
  induction bs generalizing mem k with
  | nil => exact h
  | cons b bs ih => exact ih _ _ (Tab.wf_set 0 mem k b h)

theorem State.reset_mem_wf : Memory.wf State.reset.mem = true := rfl

/-- A byte of memory after it was written, and every other byte. -/
theorem State.byte_mem (s : State) (k a : Nat) (b : Byte) : ((Upd.mem k b).apply s).byte a = if a = k then b else s.byte a := by
  by_cases h : a = k
  · subst h; simp [State.byte, Upd.apply]
  · rw [if_neg h]; exact Tab.get_set_other 0 s.mem b h

end Sys2Proof.Machine
end

