-- ==== Sys2Proof/Tests/Slice0.lean ====
section
/-! SUPPORT. The model's own tests: words of the spec decode, ill-formed terms are refused, one-step examples of the spec, and for each
statement of the obligations concrete states and operands that meet its hypotheses, clause by clause. -/

namespace Sys2Proof.Tests

open Sys2Proof Sys2Proof.Machine

set_option Elab.async false

/-! ### A machine to test on: one crew of 32 lanes in the module service context, its memory mapped -/

/-- Crew 0 at core 0, place 0, whose turn it is. -/
def s0 : State := (State.reset.withCrewBytes []).take (.issue 0 0) true
def c0 : Crew := newCrew State.reset (placedPend 0) placedKd placedLaunch 0 0 0 0
def p0 : Split :=
  { st := .ready, pc := 0x10000, mask := laneMask 32, fmt := 0x880, wbase := 0, depth := 0, join := none
    clock := 0, mstack := [], mspill := [], frames := [], wait := .none, run := 0, held := .ready, faulted := false
    trapped := false, windows := [], latchA := none, latchB := none }
def t0 : Team := placedTeam 0

def fl (sel : Sel) (d a b : Operand) (ext : BitVec 5) : Fields :=
  { sel := sel, f := false, guard := always, d := d, a := a, b := b, ext := ext, hint := noHint }
abbrev V (n : BitVec 8) : Operand := vec n
abbrev S (n : BitVec 6) : Operand := .s n
abbrev N : Operand := .none
abbrev I (n : BitVec 15) : Operand := .i n

/-- The guards under which no lane, and the lanes of `p1`, take effect. -/
def never (f : Fields) : Fields := { f with guard := { pred := 0, neg := true, uni := false } }
def under1 (f : Fields) : Fields := { f with guard := { pred := 1, neg := false, uni := false } }

/-- A well-formed term of every crew instruction. -/
def form : Mn → Fields
  | .iadd | .isub | .imul | .imulhi | .imad | .imin | .imax | .sar | .bfx | .atom | .atoms | .ratom => fl (.ty .s32) (V 8) (V 8) (V 8) 0
  | .iabs | .ineg | .cvt | .redux | .scan => fl (.ty .s32) (V 8) (V 8) N 0
  | .and | .or | .xor | .shl | .shr | .rot | .bfi | .sel | .shfl | .ld | .st | .lds | .sts | .cas | .rld | .rst | .gld | .gst => fl (.ty .b32) (V 8) (V 8) (V 8) 0
  | .not | .popc | .clz | .brev | .matchv | .mov => fl (.ty .b32) (V 8) (V 8) N 0
  | .lea => fl (.ty .n32) (V 8) (V 8) (V 8) 0
  | .icmp => fl (.ty .s32) (.p 1 false) (V 8) (V 8) 0
  | .pand | .por | .pxor => fl (.var 0) (.p 1 false) (.p 1 false) (.p 1 false) 0
  | .pnot | .pmov | .vote => fl (.var 0) (.p 1 false) (.p 1 false) N 0
  | .fadd | .fsub | .fmul | .fma | .fmin | .fmax | .fdiv | .bfunpack | .atomf => fl (.ty .f32) (V 8) (V 8) (V 8) 0
  | .fcmp => fl (.ty .f32) (.p 1 false) (V 8) (V 8) 0
  | .fsqrt | .frcp | .frsq | .fexp2 | .flog2 | .fsin | .fcos | .frnd | .fclass | .bfexp => fl (.ty .f32) (V 8) (V 8) N 0
  | .dadd | .dsub | .dmul | .dfma | .dmin | .dmax | .ddiv => fl (.ty .f64) (V 8) (V 8) (V 8) 0
  | .dcmp => fl (.ty .f64) (.p 1 false) (V 8) (V 8) 0
  | .dsqrt => fl (.ty .f64) (V 8) (V 8) N 0
  | .pack2 => fl (.ty .b16) (V 8) (V 8) (V 8) 0
  | .unpack2 => fl (.ty .b16) (V 8) (V 8) N 0
  | .bfpack => fl (.ty .f32) (V 8) (V 8) (S 8) 0
  | .bcast => fl (.ty .b32) (V 8) (V 8) (S 8) 0
  | .movw => fl (.ty .b64) (V 8) (I 1) N 0
  | .rdsr => fl (.var 0) (V 8) (.x 0) N 0
  | .wrsr => fl (.var 0) (.x 256) (S 8) (I 1) 0
  | .setfmt | .knotfree | .bwait | .kick | .mrel | .rfence => fl (.var 0) N (S 8) N 0
  | .setfmtRm => fl (.var 1) N (S 8) N 0
  | .getfmt => fl (.var 0) (V 8) N N 0
  | .nop | .ret | .exit | .yield | .fence | .gdetach | .halt => fl (.var 0) N N N 0
  | .bra => fl (.var 0) (I 1) (I 1) N 0
  | .brx => fl (.var 0) (I 1) (V 8) N 0
  | .call | .brk | .trap | .qwait => fl (.var 0) N (I 1) N 0
  | .callx => fl (.var 0) N (V 8) N 0
  | .spawn | .mget | .clwait | .rdpr | .wrpr => fl (.var 0) (S 8) (S 8) N 0
  | .ldb | .stb => fl (.ty .b32) (V 8) (S 8) (V 8) 0
  | .ldc => fl (.ty .b32) (V 8) (V 8) (I 1) 0
  | .pref => fl (.var 0) N (V 8) (V 8) 0
  | .red => fl (.ty .s32) N (V 8) (V 8) 0
  | .bar | .knotinit | .cwait | .flagsig | .flagwait | .announce | .tinvPage => fl (.var 0) N (S 8) (S 8) 0
  | .knotarr | .knotwait | .copy | .claim | .wstart | .csave | .crest => fl (.var 0) (S 8) (S 8) (S 8) 0
  | .copyg => fl (.var 2) (S 8) (S 8) (V 8) 0
  | .batch => fl (.var 0) (S 8) N N 0
  | .setlay => fl (.var 0) (.x 256) (S 8) N 0
  | .mma | .mmaw => fl (.ty .f16) (.m 2) (V 8) (.x 256) 0
  | .mld | .mst => fl (.var 0) (.m 2) (S 8) (S 8) 0
  | .mzero => fl (.var 0) (.m 2) N N 0
  | .mgetTry | .clwaitTest => fl (.var 1) (S 8) (S 8) N 0
  | .lstat => fl (.var 0) (S 8) (.x 256) N 0
  | .eret => fl (.var 0) (S 8) (S 8) (I 1) 0
  | .tinvCtx => fl (.var 1) N N (S 8) 0
  | .tinvPart => fl (.var 2) N N N 0

/-- The checks of `Executes` and `Settled`, and a window of 8 rows. -/
def runs (s : State) (m : Mn) (f : Fields) (c : Crew) (sp : Split) : Bool :=
  decide (s.issuer = some (0, 0, c, sp)) && decide (decodeCause s c m f = none) && !(debugOn s c.ctx && hazard c sp m f) &&
    !imageWaits s (issueOf s m f 0 0 c sp) && sp.windows.isEmpty && sp.latchA.isNone && sp.latchB.isNone && c.uncov.isEmpty &&
    decide (8 ≤ c.wrows) && [32, 64, 128].contains c.width

/-- The instruction executes at a concrete state, nothing outstanding, and `P` holds. -/
def Meets (s : State) (m : Mn) (f : Fields) (c : Crew) (sp : Split) (P : Prop) : Prop :=
  s.Executes m f 0 0 c sp ∧ Settled c sp ∧ 8 ≤ c.wrows ∧ c.width ∈ [32, 64, 128] ∧ P

theorem meets {s : State} {m : Mn} {f : Fields} {c : Crew} {sp : Split} {P : Prop} (h : runs s m f c sp = true) (p : P) :
    Meets s m f c sp P := by
  simp only [runs, Bool.and_eq_true, Bool.not_eq_true', decide_eq_true_eq, List.isEmpty_iff, Option.isNone_iff_eq_none,
    List.contains_iff_mem] at h
  obtain ⟨⟨⟨⟨⟨⟨⟨⟨⟨h1, h2⟩, h3⟩, h4⟩, h5⟩, h6⟩, h7⟩, h8⟩, h9⟩, h10⟩ := h
  exact ⟨⟨h1, h2, h3, h4⟩, ⟨h5, h6, h7, h8⟩, h9, h10, p⟩

/-- The crew's one split, the state with another crew, team or split. -/
def one (c : Crew) (sp : Split) : Crew := { c with splits := [(0, sp)] }
def on (c : Crew) : State := { s0 with crews := [(0, c)] }
def lanesAt (m : Mn) (f : Fields) (c : Crew) (sp : Split) : Lanes := runLanes (on c) m f 0 0 c sp
/-- Some lane of the split takes effect. -/
abbrev some0 (s : State) (m : Mn) (f : Fields) (c : Crew) (sp : Split) : Prop := lowest (runLanes s m f 0 0 c sp) c.width ≠ none

/-- Its loaded object: a D-class kernel, text from 0x10000, two functions, one constant bank. -/
def ob0 : Obj :=
  { ctx := 4095, textBase := 0x10000, textSize := 0x10000, kernels := [placedKd], funcs := [some (0x10018, 4), none, some (0x10030, 8)]
    banks := [List.replicate 64 7], database := 0, portable := 0, svn := 0, retired := false }
def onO (c : Crew) : State := { on c with objs := [(0, ob0)] }
def withTeam (s : State) (t : Team) : State := { s with teams := [(0, t)] }
/-- The crew with uniform registers, and with `p1` true in lanes 0 to 15. -/
def cs (l : List (Nat × Word)) : Crew := { c0 with s := l }
def c1 : Crew := { c0 with p := [(1, 0xFFFF)] }

theorem all_some {α : Type} {o : Option α} {a : α} {P : α → Prop} (h : o = some a) (p : P a) : ∀ b, o = some b → P b := by
  intro b hb; rw [h] at hb; cases hb; exact p
theorem one_of_length {α : Type} {l : List α} (h : l.length = 1) : ∃ a, l = [a] := List.length_eq_one_iff.mp h
theorem two_of_length {α : Type} {l : List α} (h : l.length = 2) : ∃ a b, l = [a, b] := by
  match l, h with
  | [a, b], _ => exact ⟨a, b, rfl⟩

def isHome : Loc → Bool
  | .home _ => true
  | _ => false
theorem homes {cs : List Checked} (h : (cs.all fun q => isHome q.loc) = true) : ∀ q ∈ cs, ∃ a, q.loc = .home a := by
  intro q hq
  have := List.all_eq_true.mp h q hq
  cases e : q.loc with
  | home a => exact ⟨a, rfl⟩
  | scratch _ _ => simp [isHome, e] at this
  | far _ _ => simp [isHome, e] at this

/-- A load of one word in lane 0 that has not returned. -/
def ld0 : LoadEntry :=
  { id := 0, ty := .b32, scope := 0, dest := .rows 8 1, lanes := [{ lane := 0, loc := .home 0x20000, data := 0, expect := 0 }], got := [], poison := 0
    acquire := false, atomic := false, noAlloc := false, back := false }

/-- A split of one lane, and its crew with a number in `s8`. -/
def m1 : Split := { p0 with mask := 1 }
def ca (a : Nat) : Crew := one (cs [(8, BitVec.ofNat 64 a)]) m1

theorem crew_on {c d : Crew} {y : Nat} (h : (on c).crew? y = some d) : y = 0 ∧ d = c := by
  simp only [State.crew?, on, Tab.find_cons] at h
  split at h
  · rename_i e; exact ⟨e, (Option.some.inj h).symm⟩
  · simp [Tab.find] at h

/-- A second crew of the team. -/
def other : Crew := { c0 with crewNo := 1, inst := 2 }

/-- A peer table at 0x8000: this module, peer 1 over link 0, which is up, and peer 2 without a state. -/
def withPeers (s : State) : State :=
  { s with mem := placeBytes s.mem 0x8000 [1, 0, 0, 0, 0, 0, 0, 0, 1], mod := { s.mod with ptBase := 0x8000, ptCount := 3 }
           links := [(0, { Link.reset with state := 2 })] }

/-- A piece of 16 bytes, and an engine operation that moves it. -/
def piece (l : Loc) : Piece := { loc := l, len := 16, leaf := 0x83, peers := [] }
def eop (s d : Loc) : EngOp :=
  { crew := 0, inst := c0.inst, team := 0, launch := 0, epoch := 0, segs := [{ src := [piece s], dst := [piece d], sbase := 0, dbase := 0, len := 16 }]
    left := [0], buf := [], far := [], list := none, knot := none, clock := 1, gwctMod := 0, gwctFab := 0, off := false, poison := false, after := 0 }

/-- The state after an instruction, its crew, split and team. -/
def after (i : Instr) (s : State) : State := match exec i s with
  | .next t => t
  | _ => s
def cr (s : State) : Crew := (s.crew? 0).getD c0
def spl (s : State) : Split := ((cr s).split? 0).getD p0
def tm (s : State) : Team := (s.team? 0).getD t0

theorem test_s0_issues : s0.issuer = some (0, 0, c0, p0) ∧ s0.team? c0.team = some t0 := by decide +kernel

theorem form_runs (m : Mn) : runs s0 m (form m) c0 p0 = true := by cases m <;> decide +kernel

/-! ### Words of the spec, and ill-formed terms -/

/-- R150, R185, R209, R241, R292 and R379, word by word. -/
theorem test_decode_iadd : decodeTableWord 96 (parcels 0x00820801 0x22000100 0x00000400) = some (.iadd
    { sel := .ty .s32, f := false, guard := { pred := 2, neg := false, uni := false }, d := V 4, a := V 2, b := I 17, ext := 0, hint := noHint }) := by
  decide +kernel
theorem test_decode_fma : decodeTableWord 96 (parcels 0x01003C84 0x06008100 0x00120000) = some (.fma
    { sel := .ty .f32, f := false, guard := always, d := V 8, a := .v 2 0 false true, b := V 3, ext := 0,
      hint := { noHint with la := 2, keepA := true } }) := by decide +kernel
theorem test_decode_icmp : decodeTableWord 96 (parcels 0x00200841 0xC80001A0 0x00001400) =
    some (.icmp (fl (.ty .s32) (.p 1 false) (V 3) (I 100) 2)) := by decide +kernel
theorem test_decode_redux : decodeTableWord 96 (parcels 0x0080BD44 0x00000490 0x00000700) =
    some (.redux { fl (.ty .f32) (S 4) (V 9) N 0 with f := true }) := by decide +kernel
theorem test_decode_ld : decodeTableWord 96 (parcels 0x01002A01 0x0C400100 0) = some (.ld (fl (.ty .b32) (V 8) (S 2) (V 6) 0)) := by
  decide +kernel
theorem test_decode_bar : decodeTableWord 96 (parcels 0x00000282 0x01000070 0x00000700) = some (.bar (fl (.var 0) N (I 0) N 0)) := by
  decide +kernel
theorem test_decode_rst : decodeTableWord 96 (parcels 0x01402B42 0x08400480 0x00006800) =
    some (.rst (fl (.ty .b32) (V 10) (S 9) (V 4) 13)) := by decide +kernel
theorem test_decode_eret : decodeTableWord 96 (parcels 0x00000383 0x02400370 0x00000400) =
    some (.eret (fl (.var 0) N (S 6) (I 1) 0)) := by decide +kernel
theorem test_decode_rdpr : decodeTableWord 96 (parcels 0x00800381 0x01420410 0x0000000C) =
    some (.rdpr (fl (.var 0) (S 4) (.w 0x03000408) N 0)) := by decide +kernel

/-- A word laid out from the fields of R135. -/
def word (opc mod grd d a b ext : Nat) : Nat :=
  opc + 2 ^ 10 * mod + 2 ^ 16 * grd + 2 ^ 21 * d + 2 ^ 39 * a + 2 ^ 57 * b + 2 ^ 75 * ext
/-- Operand fields of R137: the class in [17:15], the payload below it. -/
def fv (n : Nat) : Nat := n
def fs (n : Nat) : Nat := 1 * 2 ^ 15 + n
def fp (n : Nat) : Nat := 2 * 2 ^ 15 + n
def fx (n : Nat) : Nat := 3 * 2 ^ 15 + n
def fi (n : Nat) : Nat := 4 * 2 ^ 15 + n
def fm (n : Nat) : Nat := 6 * 2 ^ 15 + n
def fn : Nat := 7 * 2 ^ 15

/-- One word of each family, from the tables R174 to R374 and the codes of R144 and R146. -/
theorem test_decode_arithmetic : decodeTableWord 96 (word 0x081 15 0 (fv 5) (fs 7) (fi 0x3FFF) 0) = some (.fadd (fl (.ty .f32) (V 5) (S 7) (I 0x3FFF) 0)) ∧
    decodeTableWord 96 (word 0x0C4 16 0 (fv 4) (fv 6) (fv 8) 0) = some (.dfma (fl (.ty .f64) (V 4) (V 6) (V 8) 0)) ∧
    decodeTableWord 96 (word 0x101 15 0 (fv 4) (fv 6) fn 2) = some (.cvt (fl (.ty .f32) (V 4) (V 6) N 2)) ∧
    decodeTableWord 96 (word 0x141 10 0 (fv 4) (fv 6) (fi 1) 13) = some (.shfl (fl (.ty .b32) (V 4) (V 6) (I 1) 13)) ∧
    decodeTableWord 96 (word 0x183 0 0 (fv 4) (fx 12) fn 0) = some (.rdsr (fl (.var 0) (V 4) (.x 12) N 0)) ∧
    decodeTableWord 96 (word 0x185 1 0 fn (fs 4) fn 0) = some (.setfmtRm (fl (.var 1) N (S 4) N 0)) := by decide +kernel
theorem test_decode_flow : decodeTableWord 96 (word 0x1C1 0 0 fn (fi 0x7FFF) fn 0) = some (.bra (fl (.var 0) N (I 0x7FFF) N 0)) ∧
    decodeTableWord 96 (word 0x1C4 0 0b11010 fn (fv 3) fn 0) =
      some (.callx { fl (.var 0) N (V 3) N 0 with guard := { pred := 2, neg := true, uni := true } }) ∧
    decodeTableWord 96 (word 0x1C7 0 0 (fs 3) (fs 4) fn 0) = some (.spawn (fl (.var 0) (S 3) (S 4) N 0)) := by decide +kernel
theorem test_decode_memory : decodeTableWord 96 (word 0x204 11 0 (fs 2) (fi 64) fn 0) = some (.sts (fl (.ty .b64) (S 2) (I 64) N 0)) ∧
    decodeTableWord 96 (word 0x243 (10 + 32) 0 (fv 2) (fv 4) (fv 6) 5) = some (.cas { fl (.ty .b32) (V 2) (V 4) (V 6) 5 with f := true }) ∧
    decodeTableWord 96 (word 0x289 0 0 fn (fs 2) (fi 7) (4 + 8 * 2)) = some (.flagwait (fl (.var 0) N (S 2) (I 7) 20)) ∧
    decodeTableWord 96 (word 0x2C2 2 0 (fi 0) (fs 2) (fv 7) 1) = some (.copyg (fl (.var 2) (I 0) (S 2) (V 7) 1)) := by decide +kernel
theorem test_decode_matrix : decodeTableWord 96 (word 0x302 (13 + 32) 0 (fm 2) (fv 32) (fx 0x101) 1) =
      some (.mma { fl (.ty .f16) (.m 2) (V 32) (.x 0x101) 1 with f := true }) ∧
    decodeTableWord 96 (word 0x304 2 0 (fm 15) (fi 0) (fi 256) 0) = some (.mld (fl (.var 2) (.m 15) (I 0) (I 256) 0)) ∧
    decodeTableWord 96 (word 0x307 1 0 (fs 2) (fi 3) fn 0) = some (.mgetTry (fl (.var 1) (S 2) (I 3) N 0)) := by decide +kernel
theorem test_decode_names_and_system : decodeTableWord 96 (word 0x348 0 0 (fs 2) (fs 4) (fs 6) 1) = some (.claim (fl (.var 0) (S 2) (S 4) (S 6) 1)) ∧
    decodeTableWord 96 (word 0x346 9 0 (fi 1) (fi 2) (fi 3) 0) = some (.gst (fl (.ty .b16) (I 1) (I 2) (I 3) 0)) ∧
    decodeTableWord 96 (word 0x34B 0 0 fn (fi 255) fn 0) = some (.wstart (fl (.var 0) N (I 255) N 0)) ∧
    decodeTableWord 96 (word 0x384 2 0 fn fn fn 0) = some (.tinvPart (fl (.var 2) N N N 0)) ∧
    decodeTableWord 96 (word 0x387 0 0 fn fn fn 0) = some (.halt (fl (.var 0) N N N 0)) := by decide +kernel

/-- The four words of R328, and packets of R332, R356 and the layouts of R401 to R404. -/
theorem test_decode_winch : decodeTableWord 64 0x0000000000402002 = some (.store { hd := 0, ha := 2, hb := 0, modf := 4, cty := 0, cop := 0, imm := 0 }) ∧
    decodeTableWord 64 0x0000000011403003 = some (.comb { hd := 0, ha := 3, hb := 0, modf := 4, cty := 1, cop := 2, imm := 0 }) ∧
    decodeTableWord 64 0x0000000900601001 = some (.xmit { hd := 0, ha := 1, hb := 0, modf := 6, cty := 0, cop := 0, imm := 9 }) ∧
    decodeTableWord 64 0xFFFFFFFD00000508 = some (.loop { hd := 5, ha := 0, hb := 0, modf := 0, cty := 0, cop := 0, imm := 0xFFFFFFFD }) ∧
    decodeTableWord 64 0x0000000000000015 = none ∧ decodeTableWord 64 0x0000000020000014 = none := by decide +kernel
theorem test_decode_packets : decodeTableWord 512 0x0302 = some (.wset { set := 3, arg := 0 }) ∧
    decodeTableWord 512 (3 + 2 ^ 64 * 0x2000 + 2 ^ 128 * 0x1000 + 2 ^ 192 * 64) = some (.copyPacket { dst := 0x2000, src := 0x1000, len := 64 }) ∧
    decodeTableWord 512 (4 + 2 ^ 8 * 2 + 2 ^ 64 * 0x1000 + 2 ^ 128 * 7 + 2 ^ 192 * 255) =
      some (.waitv { cond := .ge, size := false, addr := 0x1000, value := 7, mask := 255 }) ∧
    decodeTableWord 512 (5 + 2 ^ 8 + 2 ^ 13 + 2 ^ 64 * 0x1000 + 2 ^ 128 * 7) =
      some (.signal { add := true, size := false, irq := true, addr := 0x1000, value := 7 }) ∧
    decodeTableWord 512 6 = some .fencePacket ∧ decodeTableWord 512 7 = some .replay ∧ decodeTableWord 512 8 = some .nopk ∧
    decodeTableWord 512 9 = none ∧ decodeTableWord 512 0 = none := by decide +kernel

/-- Bytes as memory holds them (R379's table) decode; the decoder refuses by name. -/
theorem test_decode_bytes : (decodeBytes [0x83, 0x03, 0x00, 0x00, 0x70, 0x03, 0x40, 0x02, 0x00, 0x04, 0x00, 0x00, 0xAA]).toOption =
    some (.eret (fl (.var 0) N (S 6) (I 1) 0), [0xAA]) := by decide +kernel

/-! One ill-formed term for each check of a crew word (R135 to R148), each refused, beside one that passes. -/

theorem test_wf_ok : (Instr.iadd (form .iadd)).wellFormed 32 = true := by decide +kernel
theorem test_wf_type : (Instr.iadd { form .iadd with sel := .ty .f32 }).wellFormed 32 = false := by decide +kernel
theorem test_wf_var : (Instr.halt { form .halt with sel := .var 1 }).wellFormed 32 = false := by decide +kernel
theorem test_wf_f : (Instr.imin { form .imin with f := true }).wellFormed 32 = false := by decide +kernel
theorem test_wf_ext : (Instr.iadd { form .iadd with ext := 1 }).wellFormed 32 = false := by decide +kernel
theorem test_wf_scope : (Instr.fence { form .fence with ext := 6 }).wellFormed 32 = false := by decide +kernel
theorem test_wf_modifier_in_d : (Instr.iadd { form .iadd with d := .v 8 0 false true }).wellFormed 32 = false := by decide +kernel
theorem test_wf_modifier_on_bits : (Instr.and { form .and with a := .v 8 0 true false }).wellFormed 32 = false := by decide +kernel
theorem test_wf_class : (Instr.iadd { form .iadd with d := .p 1 false }).wellFormed 32 = false := by decide +kernel
theorem test_wf_wide_with_b : (Instr.mov { form .mov with a := .w 1, b := V 2 }).wellFormed 32 = false := by decide +kernel
theorem test_wf_bad_wide : (Instr.mov { form .mov with a := .badWide 1 }).wellFormed 32 = false := by decide +kernel
theorem test_wf_odd_pair : (Instr.dadd { form .dadd with d := V 9 }).wellFormed 32 = false := by decide +kernel
theorem test_wf_row_range : (Instr.iadd { form .iadd with d := V 128 }).wellFormed 128 = false ∧
    (Instr.iadd { form .iadd with d := V 128 }).wellFormed 64 = true := by decide +kernel
theorem test_wf_selector : (Instr.rdsr { form .rdsr with a := .x 15 }).wellFormed 32 = false ∧
    (Instr.lstat { form .lstat with a := .x 0x104 }).wellFormed 32 = false := by decide +kernel
theorem test_wf_uniform_from_vector : (Instr.iadd { form .iadd with d := S 3 }).wellFormed 32 = false := by decide +kernel
theorem test_wf_b128 : (Instr.mov { form .mov with sel := .ty .b128, d := V 4, a := S 3 }).wellFormed 32 = false := by decide +kernel
theorem test_wf_immediate : (Instr.qwait { form .qwait with a := I 16 }).wellFormed 32 = false ∧
    (Instr.bar { form .bar with a := I 16 }).wellFormed 32 = false ∧ (Instr.mld { form .mld with b := I 255 }).wellFormed 32 = false := by
  decide +kernel
theorem test_wf_tile : (Instr.mmaw { form .mmaw with d := .m 3 }).wellFormed 32 = false := by decide +kernel
theorem test_wf_uniform_pair : (Instr.claim { form .claim with a := S 5 }).wellFormed 32 = false := by decide +kernel
theorem test_wf_winch : (Instr.nopw { hd := 1, ha := 0, hb := 0, modf := 0, cty := 0, cop := 0, imm := 0 }).wellFormed 32 = false ∧
    (Instr.nopw { hd := 0, ha := 0, hb := 0, modf := 0, cty := 0, cop := 0, imm := 0 }).wellFormed 32 = true := by decide +kernel
theorem test_wf_event : (Instr.reset).wellFormed 32 = false ∧ Instr.nopk.wellFormed 32 = true := by decide +kernel

/-! ### Hypotheses of the register statements -/

/-- Every crew instruction has a form that executes, so the hypotheses `m ∈ …` and `Executes` of every statement are met together. -/
theorem test_hyp_every_instruction_executes (m : Mn) : Meets s0 m (form m) c0 p0 True := meets (form_runs m) trivial

theorem test_hyp_RegisterInstructionsRetire : ∀ m ∈ registerMns, Meets s0 m (form m) c0 p0 True := fun m _ => meets (form_runs m) trivial

theorem test_hyp_IntegerArithmeticResults : ∀ m ∈ [Mn.iadd, .isub, .imul, .imad, .imin, .imax, .iabs, .ineg],
    Meets s0 m (form m) c0 p0 (∃ (t : Ty) (res : Nat → Int), (form m).sel = .ty t ∧
      ∀ l, exactInt m (srcInt c0 p0 t (form m).a l) (srcInt c0 p0 t (form m).b l) (srcInt c0 p0 t (form m).d l) = some (res l)) := by
  intro m hm
  refine meets (form_runs m) ?_
  fin_cases hm <;> exact ⟨.s32, fun l => _, rfl, fun l => rfl⟩

theorem test_hyp_BitAndShiftResults : ∀ m ∈ [Mn.imulhi, .and, .or, .xor, .not, .shl, .shr, .sar, .rot, .brev, .lea],
    Meets s0 m (form m) c0 p0 (∃ (t : Ty) (res : Nat → BitVec t.bits), (form m).sel = .ty t ∧
      ∀ l, bitResult m t.bits (t.kind == .signed) (form m).f (form m).ext.toNat (src c0 p0 t (form m).a l) (src c0 p0 t (form m).b l)
        (BitVec.ofNat 32 (operand32 c0 p0.wbase (form m).b l)) = some (res l)) := by
  intro m hm
  refine meets (form_runs m) ?_
  fin_cases hm
  any_goals exact ⟨.s32, fun l => _, rfl, fun l => rfl⟩
  any_goals exact ⟨.b32, fun l => _, rfl, fun l => rfl⟩
  exact ⟨.n32, fun l => _, rfl, fun l => rfl⟩

/-- Length 0: 0 is extracted, and nothing inserted. -/
theorem test_hyp_BitFieldResults : ∀ m ∈ [Mn.bfx, .bfi], let f := { form m with b := I 0 }
    Meets s0 m f c0 p0 (∃ (t : Ty) (res : Nat → BitVec t.bits), f.sel = .ty t ∧
      ∀ l j, j < t.bits → fieldBit m t.bits (t.kind == .signed) (src c0 p0 t f.d l) (src c0 p0 t f.a l) (operand32 c0 p0.wbase f.b l % 256)
        (operand32 c0 p0.wbase f.b l / 256 % 256) j = some ((res l).getLsbD j)) := by
  have h : ∀ l, operand32 c0 p0.wbase (I 0#15) l = 0 := fun _ => by rfl
  intro m hm
  fin_cases hm
  · exact meets (by decide +kernel) ⟨.s32, fun _ => 0, rfl, fun l j _ => by simp [fieldBit, h]⟩
  · exact meets (by decide +kernel) ⟨.b32, fun l => src c0 p0 .b32 (V 8) l, rfl, fun l j _ => by simp [fieldBit, h, form, fl]⟩

/-- A field that reaches past the top of the type: position 31, length 255. -/
theorem test_hyp_BitFieldResults_top : Meets s0 .bfx { form .bfx with b := I 0x7F1F } c0 p0
    (operand32 c0 p0.wbase (I 0x7F1F) 0 % 256 = 31 ∧ operand32 c0 p0.wbase (I 0x7F1F) 0 / 256 % 256 = 255) :=
  meets (by decide +kernel) (by decide +kernel)

theorem test_hyp_IntegerComparisonResults : ∀ cc : Fin 6, Meets s0 .icmp { form .icmp with ext := BitVec.ofNat 5 cc } c0 p0 ((form .icmp).sel = .ty .s32) := by
  intro cc
  refine meets ?_ rfl
  fin_cases cc <;> decide +kernel

theorem test_hyp_BitCountSelectAndPredicateResults :
    (∀ m ∈ [Mn.popc, .clz], Meets s0 m (form m) c0 p0 (∃ (t : Ty) (res : Nat → Nat), (form m).sel = .ty t ∧
      ∀ l, bitCount m t.bits (src c0 p0 t (form m).a l) = some (res l))) ∧
    Meets s0 .sel (form .sel) c0 p0 ((form .sel).sel = .ty .b32) ∧
    ∀ m ∈ [Mn.pand, .por, .pxor, .pnot, .pmov], Meets s0 m (form m) c0 p0 True := by
  refine ⟨fun m hm => meets (form_runs m) ?_, meets (form_runs _) rfl, fun m _ => meets (form_runs m) trivial⟩
  fin_cases hm <;> exact ⟨.b32, fun l => _, rfl, fun l => rfl⟩

/-- `pmov` from a uniform register and from an immediate. -/
theorem test_hyp_PredicateMoves : Meets s0 .pmov { form .pmov with a := S 8 } c0 p0 True ∧ Meets s0 .pmov { form .pmov with a := I 1 } c0 p0 True :=
  ⟨meets (by decide +kernel) trivial, meets (by decide +kernel) trivial⟩

theorem test_hyp_FloatingPointResults : ∀ m ∈ [Mn.fadd, .fsub, .fmul, .fma, .fdiv, .fsqrt, .fmin, .fmax, .frcp, .frsq, .fexp2, .flog2, .fsin,
      .fcos, .frnd, .fclass, .dadd, .dsub, .dmul, .dfma, .ddiv, .dsqrt, .dmin, .dmax],
    Meets s0 m (form m) c0 p0 (∃ (t : Ty) (res : Nat → Nat → Nat), (form m).sel = .ty t ∧
      ∀ l el, fpElement m (fmtOf t) (rmode p0.fmt) (ftzBit p0.fmt) (form m).ext.toNat (fpSrc c0 p0 t (form m).a l el) (fpSrc c0 p0 t (form m).b l el)
        (fpSrc c0 p0 t (form m).d l el) = some (res l el)) := by
  intro m hm
  refine meets (form_runs m) ?_
  fin_cases hm
  any_goals exact ⟨.f32, fun l el => _, rfl, fun l el => rfl⟩
  all_goals exact ⟨.f64, fun l el => _, rfl, fun l el => rfl⟩

theorem test_hyp_ConversionAndPackResults :
    Meets s0 .cvt (form .cvt) c0 p0 ((form .cvt).sel = .ty .s32 ∧ tyOfCode (form .cvt).ext.toNat = some .s8) ∧
    Meets s0 .cvt { form .cvt with sel := .ty .f16, ext := 15 } c0 p0 (tyOfCode 15 = some .f32) ∧
    (∀ m ∈ [Mn.pack2, .unpack2], Meets s0 m (form m) c0 p0 ((form m).sel = .ty .b16)) ∧
    ∀ m ∈ [Mn.bfpack, .bfexp, .bfunpack], Meets s0 m (form m) c0 p0 (2 ≤ blockWidth (form m) p0 ∧ blockWidth (form m) p0 ≤ 8) := by
  refine ⟨meets (form_runs _) (by decide), meets (by decide +kernel) (by decide), fun m hm => meets (form_runs m) ?_, fun m hm => meets (form_runs m) ?_⟩
  · fin_cases hm <;> rfl
  · fin_cases hm <;> decide

theorem test_hyp_LaneExchangeResults :
    (∀ m ∈ [Mn.shfl, .bcast, .matchv], Meets s0 m (form m) c0 p0 ((form m).sel = .ty .b32)) ∧
    Meets s0 .vote (form .vote) c0 p0 ((form .vote).sel = .var 0) ∧
    Meets s0 .vote (fl (.var 3) (S 4) (.p 1 false) N 0) c0 p0 True ∧
    Meets s0 .matchv { fl (.ty .b32) (.p 1 false) (V 8) N 0 with f := true } c0 p0 True := by
  refine ⟨fun m hm => meets (form_runs m) ?_, meets (form_runs _) rfl, meets (by decide +kernel) trivial, meets (by decide +kernel) trivial⟩
  fin_cases hm <;> rfl

theorem test_hyp_ReductionResults : ∀ m ∈ [Mn.redux, .scan], Meets s0 m (form m) c0 p0 ((m = .redux ∨ m = .scan) ∧ Ty.s32.kind ≠ .float ∧
    (form m).sel = .ty .s32) := by
  intro m hm
  refine meets (form_runs m) ?_
  fin_cases hm <;> decide

theorem test_hyp_MoveResults : (∀ m ∈ [Mn.rdsr, .wrsr, .getfmt, .nop, .movw], Meets s0 m (form m) c0 p0 (s0.team? c0.team = some t0)) ∧
    Meets s0 .mov (form .mov) c0 p0 ((form .mov).sel = .ty .b32) ∧ Meets s0 .rdsr { form .rdsr with a := .x 14 } c0 p0 True :=
  ⟨fun m _ => meets (form_runs m) test_s0_issues.2, meets (form_runs _) rfl, meets (by decide +kernel) trivial⟩

/-- No lane takes effect; an accepted value in `s8`; 0 in `s8`, whose mantissa widths are refused. -/
theorem test_hyp_FormatRegisterWrites : ∀ m ∈ [Mn.setfmt, .setfmtRm],
    Meets s0 m (never (form m)) c0 p0 (runLanes s0 m (never (form m)) 0 0 c0 p0 = 0) ∧
    Meets s0 m (form m) c0 p0 (some0 s0 m (form m) c0 p0) := by
  intro m hm
  fin_cases hm <;> exact ⟨meets (by decide +kernel) (by decide +kernel), meets (by decide +kernel) (by decide +kernel)⟩
theorem test_hyp_FormatRegisterWrites_accepted : let c := { c0 with s := [(8, 0x881)] }
    Meets (on c) .setfmt (form .setfmt) c p0 (operand64 c (form .setfmt).a % 2 ^ 32 = 0x881) :=
  meets (by decide +kernel) (by decide +kernel)
theorem test_hyp_FormatRegisterWrites_refused : let c := { c0 with s := [(8, 4)] }
    Meets (on c) .setfmt (form .setfmt) c p0 (operand64 c (form .setfmt).a % 2 ^ 32 / 16 % 16 < 2) ∧
    Meets (on c) .setfmtRm (form .setfmtRm) c p0 (¬ operand64 c (form .setfmtRm).a % 2 ^ 32 < 4) :=
  ⟨meets (by decide +kernel) (by decide +kernel), meets (by decide +kernel) (by decide +kernel)⟩

/-- Causes 1, 2 and 3 by R148, in their order; privileged in a context that is no service context; a hazard in a debug partition. -/
theorem test_hyp_DecodeCausesAndHazardsFault : s0.issuer = some (0, 0, c0, p0) ∧ lowest p0.mask c0.width ≠ none ∧
    firstCause s0 c0 .iadd { form .iadd with ext := 1 } = some 1 ∧ firstCause s0 c0 .iadd { form .iadd with d := .p 1 false } = some 3 := by
  decide +kernel
def low : State := { s0 with ctxs := [(4095, { placedCtx Ctx.service with level := false })] }
theorem test_hyp_DecodeCausesAndHazardsFault_privileged : ∀ m ∈ privilegedMns, low.issuer = some (0, 0, c0, p0) ∧
    firstCause low c0 m (form m) = some 2 ∧ encodingOk m (form m) = true ∧ (low.ctx c0.ctx).level = false := by
  intro m hm
  fin_cases hm <;> decide +kernel
def busyRow : Split :=
  { p0 with windows := [{ m := .iadd, f := form .iadd, act := 1, fmt := 0x880, wbase := 0, left := 3, reads := [], writes := [8], srcA := [], srcB := []
                          src := [], res := [], lstat := [], scr := [], tiles := [], old := [] }] }
/-- An instruction of the split stands in its window, none of them an `sts`. -/
theorem test_hyp_RegisterInstructionsRetire_window : (on (one c0 busyRow)).Executes .iadd (form .iadd) 0 0 (one c0 busyRow) busyRow ∧
    ∀ w ∈ busyRow.windows, w.m ≠ .sts := ⟨⟨by decide +kernel, by decide +kernel, by decide +kernel, by decide +kernel⟩, by decide⟩
def debugS : State := { on (one c0 busyRow) with parts := [(15, { Part.reset with debug := true })] }
theorem test_hyp_DecodeCausesAndHazardsFault_hazard : debugS.issuer = some (0, 0, one c0 busyRow, busyRow) ∧
    firstCause debugS (one c0 busyRow) .iadd (form .iadd) = none ∧ (debugS.part (debugS.ctx c0.ctx).part.toNat).debug = true ∧
    hazard (one c0 busyRow) busyRow .iadd (form .iadd) = true := by decide +kernel
def rec1 : FaultRec :=
  { any := 3, lanes := 1, addr := 0x1234, time := 77, pc := 0x10000, id := crewId 4095 0, kind := 0, split := 3, access := 3, cause := 22, code := 65535 }
theorem test_hyp_FaultRecordLayout : rec1.code < 2 ^ 16 ∧ rec1.cause < 2 ^ 8 ∧ rec1.access < 4 ∧ rec1.split < 4 ∧ rec1.kind < 16 ∧ rec1.id < 2 ^ 32 ∧
    rec1.time < 2 ^ 64 := by decide +kernel
/-- The layout of R381 on that record. -/
theorem test_fault_record : rec1.bytes.take 4 = [0xFF, 0xFF, 22, 0x0F] ∧ rec1.bytes.length = 64 ∧ (rec1.bytes.drop 8).take 3 = [0, 0, 1] := by
  decide +kernel

theorem test_hyp_BreakpointsTrap : ∀ m ∈ [Mn.brk, .trap], (form m).a = .i 1 ∧
    Meets s0 m (never (form m)) c0 p0 (runLanes s0 m (never (form m)) 0 0 c0 p0 = 0) ∧ Meets s0 m (form m) c0 p0 (some0 s0 m (form m) c0 p0) := by
  intro m hm
  fin_cases hm <;> exact ⟨rfl, meets (by decide +kernel) (by decide +kernel), meets (by decide +kernel) (by decide +kernel)⟩

/-! ### Hypotheses of the control-flow statements -/

theorem formPaths_length (c : Crew) (run rest : Lanes) (k : Nat) (fall : BitVec 56) (key : Nat → Nat) (pc : Nat → BitVec 56) :
    (formPaths c run rest k fall key pc).length = ((if rest = 0 then [] else [k]) ++ (lanesOf run c.width).map key).dedup.length := by
  simp [formPaths]

/-- A branch: no lane takes effect, all lanes, and 16 of 32. -/
theorem test_hyp_BranchesFollowTheirPaths :
    Meets s0 .bra (never (form .bra)) c0 p0 (runLanes s0 .bra (never (form .bra)) 0 0 c0 p0 = 0 ∧ p0.mask ≠ 0) ∧
    Meets s0 .bra (form .bra) c0 p0 (runLanes s0 .bra (form .bra) 0 0 c0 p0 ≠ 0 ∧ p0.mask &&& ~~~runLanes s0 .bra (form .bra) 0 0 c0 p0 = 0 ∧
      (pcRel p0.pc 1).toNat % 4 = 0) ∧
    Meets s0 .bra { form .bra with a := I 0 } c0 p0 (pcRel p0.pc 0 = p0.pc + 12) ∧
    Meets (on c1) .bra (under1 (form .bra)) c1 p0 (let run := runLanes (on c1) .bra (under1 (form .bra)) 0 0 c1 p0
      pcRel p0.pc 1 ≠ p0.pc + 12 ∧ run ≠ 0 ∧ p0.mask &&& ~~~run ≠ 0 ∧ p0.mstack.length + (if 1 ≤ newSplits c1 1 then 0 else 1 - newSplits c1 1 + 1) ≤ 8) :=
  ⟨meets (by decide +kernel) (by decide +kernel), meets (by decide +kernel) (by decide +kernel), meets (by decide +kernel) (by decide +kernel),
    meets (by decide +kernel) (by decide +kernel)⟩
/-- The same where the split table is full: the paths go to the mask stack. -/
def full : Crew := { c1 with splits := (List.range 4).map fun k => (k, { p0 with mask := BitVec.ofNat 128 (0xFF * 256 ^ k) }) }
theorem test_hyp_BranchesFollowTheirPaths_full : let sp := { p0 with mask := 0xFF }
    let c := { full with p := [(1, 0xF)] }
    Meets (on c) .bra (under1 (form .bra)) c sp (newSplits c 1 = 0 ∧ runLanes (on c) .bra (under1 (form .bra)) 0 0 c sp = 0xF) :=
  meets (by decide +kernel) (by decide +kernel)

/-- `brx` to one address, and with 16 lanes staying. -/
def cx : Crew := { c1 with s := [(8, 0x10018)] }
def brx : Fields := { form .brx with a := S 8 }
theorem test_hyp_BranchesFollowTheirPaths_brx :
    Meets (onO cx) .brx brx cx p0 ((∀ l ∈ lanesOf (runLanes (onO cx) .brx brx 0 0 cx p0) 32, operandVal cx 0 .b64 false brx.a l % 4 = 0 ∧
        (onO cx).inText cx (operandVal cx 0 .b64 false brx.a l) = true ∧ operandVal cx 0 .b64 false brx.a l < 2 ^ 56) ∧
      ∃ p, formPaths cx (runLanes (onO cx) .brx brx 0 0 cx p0) (p0.mask &&& ~~~runLanes (onO cx) .brx brx 0 0 cx p0) (p0.pc + 12).toNat (p0.pc + 12)
        (fun l => operandVal cx 0 .b64 false brx.a l) (fun n => BitVec.ofNat 56 n) = [p]) :=
  meets (by decide +kernel) ⟨by decide +kernel, one_of_length ((formPaths_length ..).trans (by decide +kernel))⟩
theorem test_hyp_BranchesFollowTheirPaths_brx_divides :
    Meets (onO cx) .brx (under1 brx) cx p0 (∃ p q, formPaths cx (runLanes (onO cx) .brx (under1 brx) 0 0 cx p0)
        (p0.mask &&& ~~~runLanes (onO cx) .brx (under1 brx) 0 0 cx p0) (p0.pc + 12).toNat (p0.pc + 12)
        (fun l => operandVal cx 0 .b64 false brx.a l) (fun n => BitVec.ofNat 56 n) = [p, q]) :=
  meets (by decide +kernel) (two_of_length ((formPaths_length ..).trans (by decide +kernel)))

/-- `call` by every lane, whose frame of 4 rows fits, and by half of them; the same through the function table; `ret`. -/
theorem test_hyp_CallsAndReturns_call :
    Meets (onO c1) .call (form .call) c1 p0 (runLanes (onO c1) .call (form .call) 0 0 c1 p0 = p0.mask ∧ some0 (onO c1) .call (form .call) c1 p0 ∧
      (pcRel p0.pc 1).toNat % 4 = 0 ∧ fitsWindow c1 p0 ((onO c1).frameAt c1 (pcRel p0.pc 1))) ∧
    Meets (onO c1) .call (under1 (form .call)) c1 p0 (let run := runLanes (onO c1) .call (under1 (form .call)) 0 0 c1 p0
      some0 (onO c1) .call (under1 (form .call)) c1 p0 ∧ ∃ p q, formPaths c1 run (p0.mask &&& ~~~run) (2 * (p0.pc + 12).toNat) (p0.pc + 12)
        (fun _ => 2 * (pcRel p0.pc 1).toNat + 1) (fun _ => p0.pc) = [p, q]) :=
  ⟨meets (by decide +kernel) ⟨by decide +kernel, by decide +kernel, by decide +kernel, by unfold fitsWindow; decide +kernel⟩,
    meets (by decide +kernel) ⟨by decide +kernel, two_of_length ((formPaths_length ..).trans (by decide +kernel))⟩⟩
def cf : Crew := { c1 with s := [(8, 2)] }
def callx : Fields := { form .callx with a := S 8 }
theorem test_hyp_CallsAndReturns_callx :
    Meets (onO cf) .callx callx cf p0 (some0 (onO cf) .callx callx cf p0 ∧ runLanes (onO cf) .callx callx 0 0 cf p0 = p0.mask ∧ fitsWindow cf p0 8 ∧
      ∀ l ∈ lanesOf (runLanes (onO cf) .callx callx 0 0 cf p0) 32, (onO cf).fn? cf (operand32 cf 0 callx.a l) = some (0x10030, 8)) ∧
    Meets (onO cf) .callx (under1 callx) cf p0 (let run := runLanes (onO cf) .callx (under1 callx) 0 0 cf p0
      ∃ p q, formPaths cf run (p0.mask &&& ~~~run) (2 * (p0.pc + 12).toNat) (p0.pc + 12) (fun _ => 2 * 0x10030 + 1) (fun _ => p0.pc) = [p, q]) :=
  ⟨meets (by decide +kernel) ⟨by decide +kernel, by decide +kernel, by unfold fitsWindow; decide +kernel, by decide +kernel⟩,
    meets (by decide +kernel) (two_of_length ((formPaths_length ..).trans (by decide +kernel)))⟩
def called : Split := { p0 with depth := 1, wbase := 60, frames := [{ ret := 0x1000C, size := 4, base := 0, spilled := none }] }
theorem test_hyp_CallsAndReturns_ret : Meets s0 .ret (never (form .ret)) c0 p0 (runLanes s0 .ret (never (form .ret)) 0 0 c0 p0 = 0) ∧
    Meets s0 .ret (form .ret) c0 p0 (runLanes s0 .ret (form .ret) 0 0 c0 p0 = p0.mask ∧ some0 s0 .ret (form .ret) c0 p0 ∧ p0.frames = []) ∧
    Meets (on (one c0 called)) .ret (form .ret) (one c0 called) called
      (runLanes (on (one c0 called)) .ret (form .ret) 0 0 (one c0 called) called = called.mask ∧ called.mask ≠ 0) :=
  ⟨meets (by decide +kernel) (by decide +kernel), meets (by decide +kernel) (by decide +kernel), meets (by decide +kernel) (by decide +kernel)⟩

theorem test_hyp_ExitsMergesAndBoosts_exit :
    c1.arriving = [] ∧ (∀ e ∈ c1.splits, e.2.st ≠ .frameWait) ∧ (∀ tm, (on c1).team? c1.team = some tm → tm.gdetach = [] ∧ tm.bars = []) ∧
    Meets (on c1) .yield (form .yield) c1 p0 (runLanes (on c1) .yield (form .yield) 0 0 c1 p0 ≠ 0) ∧
    Meets (on c1) .yield (never (form .yield)) c1 p0 (runLanes (on c1) .yield (never (form .yield)) 0 0 c1 p0 = 0) ∧
    Meets (on c1) .exit (never (form .exit)) c1 p0 (runLanes (on c1) .exit (never (form .exit)) 0 0 c1 p0 = 0) ∧
    Meets (on c1) .exit (under1 (form .exit)) c1 p0 (let run := runLanes (on c1) .exit (under1 (form .exit)) 0 0 c1 p0
      run ≠ 0 ∧ p0.mask &&& ~~~run ≠ 0) ∧
    Meets (on c1) .exit (form .exit) c1 p0 (let run := runLanes (on c1) .exit (form .exit) 0 0 c1 p0
      run ≠ 0 ∧ p0.mask &&& ~~~run = 0 ∧ p0.mstack = [] ∧ p0.join = none) :=
  ⟨rfl, by decide +kernel, all_some (a := t0) (by decide +kernel) (by decide +kernel), meets (by decide +kernel) (by decide +kernel),
    meets (by decide +kernel) (by decide +kernel), meets (by decide +kernel) (by decide +kernel), meets (by decide +kernel) (by decide +kernel),
    meets (by decide +kernel) (by decide +kernel)⟩

/-- A PATH and an RJ entry at the top of the mask stack, whose merge point is the split's PC. -/
def merging (e : MaskEntry) : Split := { p0 with mask := 0xFF, mstack := [e] }
theorem test_hyp_ExitsMergesAndBoosts_stack :
    ∀ e ∈ [MaskEntry.path 0x10018 0xFF00 0x10000 0x880 0, .rj 0x10000 0xFFFF 0x880 0], let sp := merging e
      let s := on (one c0 sp)
      s.crew? 0 = some (one c0 sp) ∧ (one c0 sp).split? 0 = some sp ∧ c0.st = .running ∧ sp.st = .ready ∧ sp.mspill = [] ∧
      (match e with
        | .path _ l m _ b => m = sp.pc ∧ b = sp.wbase ∧ l ≠ 0
        | .rj m l _ b => m = sp.pc ∧ b = sp.wbase ∧ l ≠ 0) ∧
      let sq := match e with
        | .path tgt l _ fm _ => { sp with pc := tgt, mask := l, fmt := fm, mstack := [], latchA := none, latchB := none }
        | .rj _ l fm _ => { sp with mask := l, fmt := fm, mstack := [], latchA := none, latchB := none }
      ((one c0 sp).setSplit 0 sq).mergeDue sq = false := by
  intro e he
  fin_cases he <;> decide +kernel
/-- Two sides of a join record: the first waits, the second ends the wait. -/
def side (k : Nat) (st : SplitSt) : Split := { p0 with mask := if k = 0 then 0xFF else 0xFF00, join := some 0, st := st }
def joined (n : Nat) (st : SplitSt) : Crew :=
  { c0 with splits := [(0, side 0 .ready), (1, side 1 st)], joins := [(0, { mergePc := 0x10000, fmt := 0x880, base := 0, depth := 0, parent := none, sides := n })] }
theorem test_hyp_ExitsMergesAndBoosts_join : ∀ q ∈ [(2, SplitSt.ready), (1, .mergeWait)], let c := joined q.1 q.2
    (on c).crew? 0 = some c ∧ c.split? 0 = some (side 0 .ready) ∧ (∀ e ∈ c.splits, e.2.st ≠ .frameWait) ∧ (side 0 .ready).mstack = [] ∧
    (∃ r, Tab.find c.joins 0 = some r ∧ (side 0 .ready).pc = r.mergePc ∧ (side 0 .ready).wbase = r.base ∧ (side 0 .ready).depth = r.depth ∧ r.sides = q.1) ∧
    Tab.sorted c.splits = true ∧ c.split? 1 = some (side 1 q.2) ∧ (q.1 = 1 → (side 1 q.2).st = .mergeWait ∧ (side 1 q.2).join = some 0) := by
  intro q hq
  fin_cases hq
  · exact ⟨by decide +kernel, by decide +kernel, by decide +kernel, rfl, ⟨_, rfl, by decide +kernel⟩, by decide +kernel, by decide +kernel, by decide⟩
  · exact ⟨by decide +kernel, by decide +kernel, by decide +kernel, rfl, ⟨_, rfl, by decide +kernel⟩, by decide +kernel, by decide +kernel, by decide +kernel⟩
theorem test_hyp_ExitsMergesAndBoosts_boost : ({ s0 with cycles := [(0, 256)] } : State).crew? 0 = some c0 ∧ c0.ready = true ∧ s0.teamRuns c0 = true ∧ c0.boosted = false ∧
    c0.passed + 256 ≤ Tab.get 0 [(0, 256)] (0 / 8) := by decide +kernel

/-! ### Hypotheses of the memory statements -/

theorem test_hyp_FloatReductionResults : ∀ m ∈ [Mn.redux, .scan], ∀ o ∈ [false, true], let f := { form m with sel := .ty .f32, f := o }
    Meets (onO c0) m f c0 p0 (Ty.f32.kind = .float ∧ (onO c0).dclass c0 = true ∧ (onO c0).ordFirst 0 c0 p0 = true) := by
  intro m hm o ho
  fin_cases hm <;> fin_cases ho <;> exact meets (by decide +kernel) (by decide +kernel)

/-! The tables of the context, in a form that can be decided. -/

/-- With nothing in a translation unit and no walk in flight, units and tables agree. -/
theorem units {s : State} {us : List Nat} {ctx : Nat} (h : s.tlbs = [] ∧ s.walks = []) : s.UnitsAgree us ctx := by
  refine ⟨fun u _ e he => ?_, fun w hw => ?_⟩
  · rw [h.1] at he; simp [Tab.get, Tab.find] at he
  · rw [h.2] at hw; cases hw

def homeB (s : State) (ctx a n : Nat) (write det : Bool) (h : Nat) : Bool :=
  decide (a % n = 0) && decide (a / 2 ^ 56 % 16 = 0) && match s.walk ctx (a % 2 ^ 56) with
    | .ok e p => decide (leafLoc e p a = .home h) && (!write || !pteRo e) && (!det || pteDet e) && (!pteTagen e || decide (s.tagAt h = a / 2 ^ 60 % 16))
    | _ => false
theorem home_at {s : State} {ctx a n : Nat} {write det : Bool} {h : Nat} (e : homeB s ctx a n write det h = true) : s.HomeAt ctx a n write det h := by
  simp only [homeB, Bool.and_eq_true, decide_eq_true_eq] at e
  obtain ⟨⟨h1, h2⟩, h3⟩ := e
  split at h3
  · rename_i e p w
    simp only [Bool.and_eq_true, Bool.or_eq_true, Bool.not_eq_true', decide_eq_true_eq] at h3
    obtain ⟨⟨⟨a1, a2⟩, a3⟩, a4⟩ := h3
    exact ⟨h1, h2, e, p, w, a1, fun q => a2.resolve_left (by simp [q]), fun q => a3.resolve_left (by simp [q]), fun q => a4.resolve_left (by simp [q])⟩
  · cases h3

def rangeB (s : State) (ctx a n : Nat) (write det : Bool) : Pieces → Bool
  | [] => decide (n = 0)
  | p :: ps => decide (0 < n) && decide (a / 2 ^ 56 % 16 = 0) && (match s.walk ctx (a % 2 ^ 56), p.loc with
      | .ok e size, .home h => decide (leafLoc e size a = .home h) &&
        decide (p = { loc := .home h, len := min n (size - a % 2 ^ 56 % size), leaf := e, peers := [] }) && (!write || !pteRo e) &&
        (!det || pteDet e) && (!pteTagen e || !s.tagClash h p.len (a / 2 ^ 60 % 16))
      | _, _ => false) && rangeB s ctx ((a + p.len) % 2 ^ 64) (n - p.len) write det ps
theorem home_range {s : State} {ctx : Nat} {write det : Bool} : ∀ {ps : Pieces} {a n : Nat}, rangeB s ctx a n write det ps = true →
    s.HomeRange ctx a n write det ps
  | [], a, n, e => by simpa [rangeB, State.HomeRange] using e
  | p :: ps, a, n, e => by
    simp only [rangeB, Bool.and_eq_true, decide_eq_true_eq] at e
    obtain ⟨⟨⟨h1, h2⟩, h3⟩, h4⟩ := e
    refine ⟨h1, h2, ?_, home_range h4⟩
    split at h3
    · rename_i e size h w l
      simp only [Bool.and_eq_true, Bool.or_eq_true, Bool.not_eq_true', decide_eq_true_eq] at h3
      obtain ⟨⟨⟨⟨a1, a2⟩, a3⟩, a4⟩, a5⟩ := h3
      exact ⟨e, size, h, w, a1, a2, fun q => a3.resolve_left (by simp [q]), fun q => a4.resolve_left (by simp [q]), fun q => a5.resolve_left (by simp [q])⟩
    · cases h3

def accessB (s : State) (c : Crew) (kd : AccKind) (a h : Nat) : Bool :=
  homeB s c.ctx a kd.size kd.write (s.dclass c) h && !s.rangeClash 0 true c.ctx c.team (a % 2 ^ 56) kd.size kd.write &&
    (!s.dclass c || kd.exempt || !s.trackClash c { loc := .home h, size := kd.size, read := kd.read, write := kd.write, op := kd.op })
theorem access_at {s : State} {c : Crew} {kd : AccKind} {a h : Nat} (e : accessB s c kd a h = true) : s.HomeAccess 0 c kd a h := by
  simp only [accessB, Bool.and_eq_true, Bool.or_eq_true, Bool.not_eq_true'] at e
  refine ⟨home_at e.1.1, e.1.2, fun d x => ?_⟩
  rcases e.2 with (q | q) | q
  · simp [d] at q
  · simp [x] at q
  · exact q

/-- A memory access at the address in `s8`, in one lane; through the buffer record in `s8` and `s9`: base 0x20000, stride 4, 16 elements. -/
def accForm (m : Mn) : Fields := { form m with a := S 8, b := if m = .ld ∨ m = .st then N else (form m).b }
def cb : Crew := one (cs [(8, 0x20000), (9, 0x0000000400000010)]) m1
def accType (m : Mn) : Ty := match (form m).sel with
  | .ty t => t
  | .var _ => .b32
def lanesB (s : State) (m : Mn) (f : Fields) (t : Ty) (c : Crew) (sp : Split) : Bool :=
  (accLanes (issueOf s m f 0 0 c sp)).all fun l => accessB s c (kindFor m t f) (addressFor m f c sp (evalLane l)) 0x20000 &&
    (!(m == .ldb || m == .stb) || match f.a with
      | .s n => decide (operand32 c sp.wbase f.b (evalLane l) < (c.uni (n.toNat + 1)).toNat % 2 ^ 32) &&
          decide ((kindFor m t f).size ≤ (c.uni (n.toNat + 1)).toNat / 2 ^ 32)
      | _ => false)
theorem lanes_at {s : State} {m : Mn} {f : Fields} {t : Ty} {c : Crew} {sp : Split} (e : lanesB s m f t c sp = true) :
    LanesAtHome s m f t 0 0 c sp fun _ => 0x20000 := by
  intro l hl
  have h := List.all_eq_true.mp e l hl
  simp only [Bool.and_eq_true, Bool.or_eq_true, Bool.not_eq_true'] at h
  refine ⟨access_at h.1, fun q => ?_⟩
  rcases h.2 with x | x
  · rcases q with q | q <;> subst q <;> exact absurd x (by decide)
  · split at x
    · rename_i n hn
      simp only [Bool.and_eq_true, decide_eq_true_eq] at x
      exact ⟨n, hn, x⟩
    · cases x
theorem test_hyp_MemoryOperationsEnterQueues : ∀ m ∈ [Mn.ld, .st, .atom, .atomf, .cas, .red, .ldb, .stb],
    let f := if m = .ldb ∨ m = .stb then form m else accForm m
    let c := if m = .ldb ∨ m = .stb then cb else ca 0x20000
    m ∈ queuedMns ∧ Meets (onO c) m f c m1 (f.sel = .ty (accType m) ∧ some0 (onO c) m f c m1 ∧ (onO c).ordFirst 0 c m1 = true ∧
      (onO c).UnitsAgree (coreUnits 0) c.ctx ∧ LanesAtHome (onO c) m f (accType m) 0 0 c m1 (fun _ => 0x20000) ∧
      c.loadq.length < 16 ∧ c.storeq.length < 16) := by
  intro m hm
  fin_cases hm <;> exact ⟨by decide, meets (by decide +kernel) ⟨rfl, by decide +kernel, by decide +kernel, units (by decide +kernel),
    lanes_at (by decide +kernel), by decide, by decide⟩⟩
/-- A misaligned address, cause 4. -/
def checks (s : State) (m : Mn) (f : Fields) (t : Ty) (c : Crew) : (List LaneFault × List Checked) × Go s :=
  let i := issueOf s m f 0 0 c m1
  let kd := kindFor m t f
  checkAll (lookPages (Go.start s) 0 c.ctx kd.size (lookedUp m i kd)) (laneCheck m i kd) (accLanes i)
theorem test_hyp_MemoryOperationsEnterQueues_faults : Meets (onO (ca 0x20001)) .ld (accForm .ld) (ca 0x20001) m1
    ((∃ cs u, LanesChecked (onO (ca 0x20001)) .ld (accForm .ld) .b32 0 0 (ca 0x20001) m1 (checks (onO (ca 0x20001)) .ld (accForm .ld) .b32 (ca 0x20001)).1.1 cs u) ∧
      (checks (onO (ca 0x20001)) .ld (accForm .ld) .b32 (ca 0x20001)).1.1 ≠ [] ∧
      winner (checks (onO (ca 0x20001)) .ld (accForm .ld) .b32 (ca 0x20001)).1.1 = 4) :=
  meets (by decide +kernel) ⟨⟨_, _, _, rfl, rfl⟩, by decide +kernel⟩

/-- Split 1 is behind in program order: the `.ord` form of split 0 waits; once split 1 is past it, it goes on. -/
def pair (clk : Nat) (w : Wait) (st : SplitSt) : Crew :=
  { ca 0x20000 with splits := [(0, { p0 with mask := 1, clock := 5, st := st, wait := w }), (1, { p0 with mask := 2, clock := clk })] }
def ordRed : Fields := { accForm .red with sel := .ty .f32, f := true }
def ordRedux : Fields := { form .redux with sel := .ty .f32, f := true }
def sp5 : Split := { p0 with mask := 1, clock := 5 }
theorem test_hyp_OrderedOperationsWait_waits : ∀ q ∈ [(Mn.red, ordRed), (.redux, ordRedux)],
    (onO (pair 3 .none .ready)).dclass (pair 3 .none .ready) = true ∧
    Meets (onO (pair 3 .none .ready)) q.1 q.2 (pair 3 .none .ready) sp5 ((onO (pair 3 .none .ready)).ordFirst 0 (pair 3 .none .ready) sp5 = false) := by
  intro q hq
  fin_cases hq <;> exact ⟨by decide +kernel, meets (by decide +kernel) (by decide +kernel)⟩
theorem test_hyp_OrderedOperationsWait_released : ∀ q ∈ [(Mn.red, ordRed), (.redux, ordRedux)], let c := pair 9 (.ord q.1 q.2) .blocked
    let sp := { sp5 with st := .blocked, wait := .ord q.1 q.2 }
    (onO c).dclass c = true ∧ (onO c).crew? 0 = some c ∧ c.split? 0 = some sp ∧ c.st = .running ∧ Settled c sp ∧ (onO c).ordFirst 0 c sp = true ∧
      (q.1 = .red → let c0 := c.setSplit 0 sp5
        let s0 := { onO c with crews := Tab.put (onO c).crews 0 c0 }
        s0.UnitsAgree (coreUnits 0) c.ctx ∧ LanesAtHome s0 .red q.2 .f32 0 0 c0 sp5 (fun _ => 0x20000) ∧ accLanes (issueOf s0 .red q.2 0 0 c0 sp5) ≠ []) := by
  intro q hq
  fin_cases hq
  · exact ⟨by decide +kernel, by decide +kernel, by decide +kernel, rfl, ⟨rfl, rfl, rfl, rfl⟩, by decide +kernel,
      fun _ => ⟨units (by decide +kernel), lanes_at (by decide +kernel), by decide +kernel⟩⟩
  · exact ⟨by decide +kernel, by decide +kernel, by decide +kernel, rfl, ⟨rfl, rfl, rfl, rfl⟩, by decide +kernel, fun h => absurd h (by decide)⟩

/-- Offset 0 in every lane, and the last word of scratch. -/
theorem test_hyp_ScratchAccesses : ∀ m ∈ [Mn.lds, .sts, .atoms], p0.wait = .none ∧ Tab.sorted s0.crews = true ∧ Tab.sorted c0.splits = true ∧
    s0.team? c0.team = some t0 ∧ c0.heldBack s0.seq = false ∧ isHalf .s32 = false ∧
    Meets s0 m (form m) c0 p0 (∀ l ∈ lanesOf p0.mask 32, scratchPasses s0 0 c0 t0 (offsetFor (form m) c0 p0 true l) 4 true true none) := by
  intro m hm
  refine ⟨rfl, by decide +kernel, by decide +kernel, by decide +kernel, by decide +kernel, by decide, meets (form_runs m) ?_⟩
  unfold scratchPasses
  fin_cases hm <;> decide +kernel
theorem test_hyp_ScratchAccesses_top : let c := cs [(8, 4092)]
    Meets (on c) .sts { form .sts with a := S 8, b := N } c p0 (scratchPasses (on c) 0 c t0 (offsetFor { form .sts with a := S 8, b := N } c p0 true 0) 4 false true none) :=
  meets (by decide +kernel) (by unfold scratchPasses; decide +kernel)

/-- A constant at offset 0, a misaligned one, and one past the 64 bytes of the bank. -/
def ldcAt (n : BitVec 15) : Fields := { form .ldc with a := I n, b := I 0 }
theorem test_hyp_ConstantsPrefetchAndQwait_ldc : Tab.find (onO c0).objs t0.object = some ob0 ∧ (onO c0).team? c0.team = some t0 ∧
    c0.loadq.length < 16 ∧ (∀ q ∈ c0.loadq, q.id ≠ (onO c0).seq) ∧
    (∀ q ∈ [((0 : BitVec 15), 0), (60, 0), (2, 4), (64, 5)], Meets (onO c0) .ldc (ldcAt q.1) c0 p0 (some0 (onO c0) .ldc (ldcAt q.1) c0 p0 ∧
      let ls := accLanes (issueOf (onO c0) .ldc (ldcAt q.1) 0 0 c0 p0)
      let off := fun l => offsetFor (ldcAt q.1) c0 p0 true (evalLane l)
      ((∀ l ∈ ls, off l % 4 = 0) ↔ q.2 ≠ 4) ∧ ((∀ l ∈ ls, off l + 4 ≤ (ob0.banks.getD 0 []).length) ↔ q.2 ≠ 5))) := by
  refine ⟨by decide +kernel, by decide +kernel, by decide, by decide, ?_⟩
  intro q hq
  fin_cases hq <;> exact meets (by decide +kernel) (by decide +kernel)
theorem test_hyp_ConstantsPrefetchAndQwait_pref : Meets s0 .pref (form .pref) c0 p0 True := meets (form_runs _) trivial
/-- `qwait 1` under a guard that is false; with two loads waiting; with none; with a poisoned load that it covers. -/
theorem test_hyp_ConstantsPrefetchAndQwait_qwait :
    Meets s0 .qwait (never (form .qwait)) c0 p0 (runLanes s0 .qwait (never (form .qwait)) 0 0 c0 p0 = 0) ∧
    (let c := { c0 with loadq := [ld0, { ld0 with id := 1 }] };
      Meets (on c) .qwait (form .qwait) c p0 (runLanes (on c) .qwait (form .qwait) 0 0 c p0 ≠ 0 ∧ 1 < c.loadq.length)) ∧
    Meets s0 .qwait (form .qwait) c0 p0 (runLanes s0 .qwait (form .qwait) 0 0 c0 p0 ≠ 0 ∧ c0.loadq.length ≤ 1 ∧ c0.uncov = []) ∧
    (let c := { c0 with uncov := [{ id := 0, rows := [8], old := [], loaded := [], wrote := [], poison := 2 }] };
      (on c).Executes .qwait { form .qwait with a := I 0 } 0 0 c p0 ∧ runLanes (on c) .qwait { form .qwait with a := I 0 } 0 0 c p0 ≠ 0 ∧
      lowest 2 c.width ≠ none) :=
  ⟨meets (by decide +kernel) (by decide +kernel), meets (by decide +kernel) (by decide +kernel), meets (by decide +kernel) (by decide +kernel),
    ⟨by decide +kernel, by decide +kernel, by decide +kernel, by decide +kernel⟩, by decide +kernel, by decide +kernel⟩

/-! ### Hypotheses of the queue and synchronisation statements -/

/-- A load of one lane that waits to be filled, a store and an add that wait to perform. -/
def cl : Crew := { c0 with loadq := [ld0] }
theorem test_hyp_QueuedOperationsPerform_load : (on cl).crew? 0 = some cl ∧ cl.loadq = ld0 :: [] ∧ cl.st = .running ∧ ld0.atomic = false ∧ ld0.poison = 0 ∧
    ld0.got = [] ∧ loadReady (on cl) 0 cl ld0 = true ∧
    (∀ q ∈ ld0.lanes, q.lane < 128 ∧ ∃ a, q.loc = .home a ∧ a % 64 + accBytes ld0.ty ≤ 64 ∧ (on cl).poisoned a (accBytes ld0.ty) = false) ∧
    (ld0.lanes.map fun q => q.lane).Nodup ∧ nothingHeld (on cl) 0 (homeLines ld0.lanes) ∧ cl.uncov = [] := by
  refine ⟨by decide +kernel, rfl, rfl, rfl, rfl, rfl, by decide +kernel, ?_, by decide, by unfold nothingHeld; decide +kernel, rfl⟩
  intro q hq
  simp only [ld0, List.mem_singleton] at hq
  subst hq
  exact ⟨by decide, 0x20000, rfl, by decide, by decide +kernel⟩
def st0 (op : MemOp) (left : List Nat) : StoreEntry :=
  { id := 0, ty := .s32, op := op, scope := 0, lanes := [{ lane := 0, loc := .home 0x20000, data := 5, expect := 0 }], left := left, release := false
    ordered := false, ret := false, home := false, gwctMod := 0, gwctFab := 0, clock := 0, vc := [], who := (0, 0), acked := false }
theorem st0_near (op : MemOp) (left : List Nat) : (st0 op left).near = true := by cases op <;> rfl
theorem test_hyp_QueuedOperationsPerform_store : ∀ op ∈ [MemOp.store, .add, .cas], let e := st0 op [0x800]
    let c := { c0 with storeq := [e] }
    (on c).crew? 0 = some c ∧ c.storeq.find? (fun q => q.id == e.id) = some e ∧ storeReady (on c) 0 c e 0x800 = true ∧
      homeAccs e.lanes 0x800 = [(0, 0x20000, 5, 0)] ∧ ((on c).lineAt 0x800).excl = none ∧ ∀ q ∈ homeAccs e.lanes 0x800, q.2.1 % 64 + accBytes e.ty ≤ 64 := by
  intro op h
  fin_cases h <;> decide +kernel
theorem test_hyp_QueuedOperationsPerform_ack : let e := st0 .store []
    let c := { c0 with storeq := [e] }
    (on c).crew? 0 = some c ∧ c.storeq.find? (fun q => q.id == e.id) = some e ∧ e.left = [] ∧ e.near = true ∧ e.acked = false ∧
      e.leased (on c) 0 = false ∧ (on c).undecided e.id = false := by decide +kernel
theorem test_hyp_QueuedOperationsPerform_leases : (∃ cp, Tab.find (({ s0 with cores := [(3, { CoreSt.reset with copies := [(0x800, { data := [], granted := 0, expiry := 0 })] })] } : State).coreOf 3).copies 0x800 = some cp ∧ cp.expiry ≤ s0.now) ∧
    (({ s0 with lines := [(0x800, { n := 0, stored := false, expMod := 0, expFab := 0, writes := [], excl := some (3, 99) })] } : State).lineAt 0x800).excl =
      some (3, 99) := ⟨⟨_, rfl, by decide +kernel⟩, by decide +kernel⟩

/-- No lane; scope `.crew`; nothing to wait for; a load that has not returned; the same at the end of the wait. -/
theorem test_hyp_FencesWaitForTheirScope : s0.team? c0.team = some t0 ∧
    Meets s0 .fence (never (form .fence)) c0 p0 (runLanes s0 .fence (never (form .fence)) 0 0 c0 p0 = 0) ∧
    Meets s0 .fence (form .fence) c0 p0 (scopeNo t0 ((form .fence).ext.toNat % 8) = 0) ∧
    (∀ n : Fin 4, let f := { form .fence with ext := BitVec.ofNat 5 (n + 2) }
      Meets s0 .fence f c0 p0 (runLanes s0 .fence f 0 0 c0 p0 ≠ 0 ∧ scopeNo t0 (f.ext.toNat % 8) ≠ 0)) ∧
    fenceDone s0 0 c0 2 1 ∧ (∀ n ∈ [3, 4, 5], fenceDone { s0 with now := 1 } 0 c0 n 1) ∧ ¬ fenceDone (on cl) 0 cl 2 (on cl).seq := by
  refine ⟨by decide +kernel, meets (by decide +kernel) (by decide +kernel), meets (form_runs _) (by decide +kernel), ?_, ?_, ?_, ?_⟩
  · intro n
    fin_cases n <;> exact meets (by decide +kernel) (by decide +kernel)
  · unfold fenceDone; decide +kernel
  · unfold fenceDone; decide +kernel
  · unfold fenceDone; decide +kernel
def fencing : Split := { p0 with st := .blocked, wait := .fence 0 3 0 }
theorem test_hyp_FencesWaitForTheirScope_complete : let c := one c0 fencing
    ({ on c with now := 1 } : State).crew? 0 = some c ∧ c.split? 0 = some fencing ∧ c.st = .running ∧ fencing.wait = .fence 0 3 0 ∧
      fenceDone { on c with now := 1 } 0 c 3 0 := ⟨by decide +kernel, by decide +kernel, rfl, rfl, by unfold fenceDone; decide +kernel⟩

/-- A barrier number past 15 and an empty mask; a mask that leaves out lanes which arrive; other lanes still to come; another crew still to come;
the last crew. -/
def barAt (a b : Operand) : Fields := { form .bar with a := a, b := b }
def half : Split := { p0 with mask := 0xFFFF }
def halves : Crew := { cs [(8, 16), (9, 1)] with splits := [(0, half), (1, { p0 with mask := 0xFFFF0000 })] }
def two (c : Crew) : State := { s0 with crews := [(0, c), (1, other)], teams := [(0, { t0 with ncrews := 2, crews := [0, 1] })] }
theorem test_hyp_TeamBarriers_faults : let c := cs [(8, 16), (9, 1)]
    Tab.sorted (on c).crews = true ∧ Tab.sorted c.splits = true ∧ (on c).team? c.team = some t0 ∧
    Meets (on c) .bar (barAt (S 8) N) c p0 (some0 (on c) .bar (barAt (S 8) N) c p0 ∧ 15 < operand64 c (S 8)) ∧
    Meets (on c) .bar (barAt (I 15) (S 10)) c p0 (members c (barAt (I 15) (S 10)) = 0) ∧
    Meets (on c) .bar (barAt (I 15) (S 9)) c p0 (operand64 c (I 15) ≤ 15 ∧ members c (barAt (I 15) (S 9)) ≠ 0 ∧
      runLanes (on c) .bar (barAt (I 15) (S 9)) 0 0 c p0 &&& ~~~members c (barAt (I 15) (S 9)) ≠ 0) :=
  ⟨by decide +kernel, by decide +kernel, by decide +kernel, meets (by decide +kernel) (by decide +kernel), meets (by decide +kernel) (by decide +kernel),
    meets (by decide +kernel) (by decide +kernel)⟩
theorem test_hyp_TeamBarriers_lanes : Meets (on halves) .bar (barAt (I 0) N) halves half (some0 (on halves) .bar (barAt (I 0) N) halves half ∧
    agrees (tm (on halves)) halves 0 half (runLanes (on halves) .bar (barAt (I 0) N) 0 0 halves half) (members halves (barAt (I 0) N)) (.bar 0) 0 ∧
    fenceDone (on halves) 0 halves (scopeNo t0 1) (on halves).seq ∧
    members halves (barAt (I 0) N) &&& ~~~halves.exited &&& ~~~((arrivedBefore halves (.bar 0)).1 ||| runLanes (on halves) .bar (barAt (I 0) N) 0 0 halves half) ≠ 0) :=
  meets (by decide +kernel) ⟨by decide +kernel, by unfold agrees; decide +kernel, by unfold fenceDone; decide +kernel, by decide +kernel⟩
theorem test_hyp_TeamBarriers_crews : let s := two c0
    Meets s .bar (barAt (I 0) N) c0 p0 (agrees t0 c0 0 p0 (runLanes s .bar (barAt (I 0) N) 0 0 c0 p0) (members c0 (barAt (I 0) N)) (.bar 0) 0 ∧
      fenceDone s 0 c0 (scopeNo t0 1) s.seq ∧
      members c0 (barAt (I 0) N) &&& ~~~c0.exited &&& ~~~((arrivedBefore c0 (.bar 0)).1 ||| runLanes s .bar (barAt (I 0) N) 0 0 c0 p0) = 0 ∧
      s.crew? 1 = some other ∧ other.team = c0.team ∧ other.st ≠ .draining) :=
  meets (by decide +kernel) ⟨by unfold agrees; decide +kernel, by unfold fenceDone; decide +kernel, by decide +kernel, by decide +kernel, by decide +kernel,
    by decide +kernel⟩
theorem test_hyp_TeamBarriers_last : Meets (on c0) .bar (barAt (I 0) N) c0 p0 ((∀ y d, (on c0).crew? y = some d → d.team = c0.team → d.st ≠ .draining → y = 0 ∨ y ∈ ([] : List Nat)) ∧
    agrees t0 c0 0 p0 (runLanes (on c0) .bar (barAt (I 0) N) 0 0 c0 p0) (members c0 (barAt (I 0) N)) (.bar 0) 0) :=
  meets (by decide +kernel) ⟨fun _ _ h _ _ => Or.inl (crew_on h).1, by unfold agrees; decide +kernel⟩

/-- A knot at offset 16 that expects 2 arrivals, and one that expects 1. -/
def ki (n : BitVec 15) : Fields := { form .knotinit with a := I 16, b := I n }
def kn2 : State := after (.knotinit (ki 2)) s0
def kn1 : State := after (.knotinit (ki 1)) s0
def ka (d b : Operand) : Fields := { form .knotarr with a := I 16, b := b, d := d }
def kw (d b : Operand) : Fields := { form .knotwait with a := I 16, b := b, d := d }
def kf : Fields := { form .knotfree with a := I 16 }
/-- The word of memory that the knot is (R56): 2 arrivals expected, in phase 0, active. -/
theorem test_knotinit : (tm kn2).active 16 = true ∧ (tm kn2).knot 16 = { expect := 2, arrived := 0, debt := 0, phase := false, guard := 0x4B4E } := by
  decide +kernel
theorem test_hyp_KnotsCountArrivals_init : let c := cs [(8, 0)]
    Tab.sorted s0.crews = true ∧ Tab.sorted c0.splits = true ∧ p0.wait = .none ∧ c0.heldBack s0.seq = false ∧
    Meets (on c) .knotinit { ki 1 with b := S 8 } c p0 (some0 (on c) .knotinit { ki 1 with b := S 8 } c p0 ∧ operand32 c 0 (S 8) 0 = 0) ∧
    Meets s0 .knotinit (ki 1) c0 p0 (knotPlace s0 0 c0 t0 16 ∧ t0.active 16 = false ∧ 0 < operand32 c0 0 (I 1) 0) ∧
    Meets kn2 .knotinit (ki 1) (cr kn2) (spl kn2) (kn2.team? (cr kn2).team = some (tm kn2) ∧ knotPlace kn2 0 (cr kn2) (tm kn2) 16 ∧ (tm kn2).active 16 = true) :=
  ⟨by decide +kernel, by decide +kernel, rfl, by decide +kernel, meets (by decide +kernel) (by decide +kernel),
    meets (by decide +kernel) ⟨by unfold knotPlace; decide +kernel, by decide +kernel, by decide +kernel⟩,
    meets (by decide +kernel) ⟨by decide +kernel, by unfold knotPlace; decide +kernel, by decide +kernel⟩⟩
theorem test_hyp_KnotsCountArrivals_free : Meets s0 .knotfree kf c0 p0 (some0 s0 .knotfree kf c0 p0 ∧ knotPlace s0 0 c0 t0 16 ∧ t0.active 16 = false) ∧
    Meets kn2 .knotfree kf (cr kn2) (spl kn2) (knotPlace kn2 0 (cr kn2) (tm kn2) 16 ∧ (tm kn2).active 16 = true ∧
      ∀ e ∈ kn2.crews, e.2.team = (cr kn2).team → ∀ q ∈ e.2.splits, q.2.wait = .none) :=
  ⟨meets (by decide +kernel) ⟨by decide +kernel, by unfold knotPlace; decide +kernel, by decide +kernel⟩,
    meets (by decide +kernel) ⟨by unfold knotPlace; decide +kernel, by decide +kernel, by decide +kernel⟩⟩
/-- A `knotfree` while another crew waits at the knot. -/
def parkedAt : State := { kn2 with crews := Tab.put kn2.crews 1 (one other { p0 with st := .blocked, wait := .knot 16 false }) }
theorem test_hyp_KnotsCountArrivals_parked : Meets parkedAt .knotfree kf (cr parkedAt) (spl parkedAt) (knotPlace parkedAt 0 (cr parkedAt) (tm parkedAt) 16 ∧
    ∃ d, parkedAt.crew? 1 = some d ∧ d.team = (cr parkedAt).team ∧ ∃ q, d.split? 0 = some q ∧ q.wait = .knot 16 false) :=
  meets (by decide +kernel) ⟨by unfold knotPlace; decide +kernel, _, rfl, by decide +kernel, _, rfl, rfl⟩
def joins (s : State) (w : Wait) (n : Nat) (f : Fields) (m : Mn) : Prop :=
  agrees (tm s) (cr s) 0 (spl s) (runLanes s m f 0 0 (cr s) (spl s)) (members (cr s) f) w n ∧
    members (cr s) f &&& ~~~(cr s).exited &&& ~~~((arrivedBefore (cr s) w).1 ||| runLanes s m f 0 0 (cr s) (spl s)) = 0
def kn21 : State := after (.knotarr (ka N N)) kn2
/-- Two arrivals and 8 bytes still owed: a third arrival waits. -/
def kn22 : State := after (.knotarr (ka (I 8) N)) kn21
theorem test_hyp_KnotsCountArrivals_arrive :
    Meets s0 .knotarr (ka N N) c0 p0 (t0.active 16 = false ∧ members c0 (ka N N) ≠ 0) ∧
    Meets kn2 .knotarr (ka N N) (cr kn2) (spl kn2) (joins kn2 (.knotArrive 16) 0 (ka N N) .knotarr ∧ ((tm kn2).knot 16).arrived < ((tm kn2).knot 16).expect ∧
      ¬ (((tm kn2).knot 16).arrived + 1 = ((tm kn2).knot 16).expect)) ∧
    Meets kn21 .knotarr (ka N N) (cr kn21) (spl kn21) (joins kn21 (.knotArrive 16) 0 (ka N N) .knotarr ∧
      ((tm kn21).knot 16).arrived + 1 = ((tm kn21).knot 16).expect ∧ ((tm kn21).knot 16).debt = 0 ∧ ((tm kn21).knotSt 16).waiting = []) ∧
    Meets kn22 .knotarr (ka N N) (cr kn22) (spl kn22) (joins kn22 (.knotArrive 16) 0 (ka N N) .knotarr ∧
      ((tm kn22).knot 16).expect ≤ ((tm kn22).knot 16).arrived) := by
  unfold joins agrees
  exact ⟨meets (by decide +kernel) (by decide +kernel), meets (by decide +kernel) (by decide +kernel), meets (by decide +kernel) (by decide +kernel),
    meets (by decide +kernel) (by decide +kernel)⟩
/-- Another crew of the team, whose arrival at the wait for the phase is complete. -/
def knWaiter : Crew :=
  { one other { p0 with st := .blocked, wait := .knot 16 false } with
      arriving := [{ what := .knot 16 false, mask := laneMask 32, lanes := laneMask 32, bytes := 0, clock := 1, done := true, fence := none }] }
def knOther : State := { kn21 with crews := Tab.put kn21.crews 1 knWaiter }
theorem test_hyp_KnotsCountArrivals_others : ∃ d, knOther.crew? 1 = some d ∧ d.team = (cr knOther).team ∧
    (∀ a ∈ d.arriving, a.what = .knot 16 false → a.done = true) ∧
    Meets knOther .knotarr (ka N N) (cr knOther) (spl knOther) (((tm knOther).knot 16).arrived + 1 = ((tm knOther).knot 16).expect) :=
  ⟨_, rfl, by decide +kernel, by decide +kernel, meets (by decide +kernel) (by decide +kernel)⟩
/-- A mask that leaves out an arriving lane; lanes still to come. -/
def knMask : State := { kn2 with crews := [(0, { cr kn2 with s := [(8, 1)] })] }
def knHalf : State := { kn2 with crews := [(0, { cr kn2 with splits := [(0, { spl kn2 with mask := 0xFFFF }), (1, { p0 with mask := 0xFFFF0000 })] })] }
theorem test_hyp_KnotsCountArrivals_masks : ∀ q ∈ [(Mn.knotarr, ka N), (.knotwait, kw (I 1))],
    Meets knMask q.1 (q.2 (S 8)) (cr knMask) (spl knMask) (runLanes knMask q.1 (q.2 (S 8)) 0 0 (cr knMask) (spl knMask) &&& ~~~members (cr knMask) (q.2 (S 8)) ≠ 0 ∧
      members (cr knMask) (q.2 (S 8)) ≠ 0) ∧
    Meets knHalf q.1 (q.2 N) (cr knHalf) (spl knHalf)
      (members (cr knHalf) (q.2 N) &&& ~~~(cr knHalf).exited &&& ~~~runLanes knHalf q.1 (q.2 N) 0 0 (cr knHalf) (spl knHalf) ≠ 0) := by
  intro q hq
  fin_cases hq <;> exact ⟨meets (by decide +kernel) (by decide +kernel), meets (by decide +kernel) (by decide +kernel)⟩
theorem test_hyp_KnotsCountArrivals_wait :
    Meets s0 .knotwait (kw (I 0) N) c0 p0 (t0.active 16 = false ∧ members c0 (kw (I 0) N) ≠ 0) ∧
    Meets kn2 .knotwait (kw (I 0) N) (cr kn2) (spl kn2) (joins kn2 (.knot 16 false) 0 (kw (I 0) N) .knotwait ∧ ((tm kn2).knot 16).phase = false ∧
      fenceDone kn2 0 (cr kn2) (scopeNo (tm kn2) 1) kn2.seq) ∧
    Meets kn2 .knotwait (kw (I 1) N) (cr kn2) (spl kn2) (joins kn2 (.knot 16 true) 0 (kw (I 1) N) .knotwait ∧ ((tm kn2).knot 16).phase ≠ true) := by
  unfold joins agrees fenceDone
  exact ⟨meets (by decide +kernel) (by decide +kernel), meets (by decide +kernel) (by decide +kernel), meets (by decide +kernel) (by decide +kernel)⟩

/-! ### Hypotheses of the statements on flags, copies, batches and the matrix arrays -/

/-- `flagsig` sets and adds at 0x20000; at 0x20002 it is misaligned, cause 4. -/
def sig (e : BitVec 5) : Fields := { form .flagsig with b := I 7, ext := e }
def sigChecks (a : Nat) (add : Bool) : (List LaneFault × List Checked) × Go (on (ca a)) :=
  checkAll (lookPages (Go.start (on (ca a))) 0 4095 4 [a]) (fun g _ => checkVirt g (issueOf (on (ca a)) .flagsig (sig 0) 0 0 (ca a) m1) (flagKind add) 128 a) [128]
theorem test_hyp_FlagsAndCountedWaits_signal : ∀ e ∈ [(0 : BitVec 5), 5, 13], let c := ca 0x20000
    Meets (on c) .flagsig (sig e) c m1 (some0 (on c) .flagsig (sig e) c m1 ∧ addressFor .atom (sig e) c m1 0 = 0x20000 ∧
      (on c).UnitsAgree (coreUnits 0) c.ctx ∧ (on c).HomeAccess 0 c (flagKind (decide (e.toNat / 8 % 2 = 1))) 0x20000 0x20000 ∧ c.storeq.length < 16) := by
  intro e he
  fin_cases he <;> exact meets (by decide +kernel) ⟨by decide +kernel, by decide +kernel, units (by decide +kernel), access_at (by decide +kernel), by decide⟩
theorem test_hyp_FlagsAndCountedWaits_signal_faults : Meets (on (ca 0x20002)) .flagsig (sig 0) (ca 0x20002) m1
    ((sigChecks 0x20002 false).1.1 ≠ [] ∧ winner (sigChecks 0x20002 false).1.1 = 4) := meets (by decide +kernel) (by decide +kernel)
/-- The word at 0x20000 is 0: conditions that hold of it and 0 or 1, and conditions that do not. -/
def waitOn (m : Mn) (v : BitVec 15) (e : BitVec 5) : Fields := { form m with b := I v, ext := e }
theorem test_hyp_FlagsAndCountedWaits_words : ∀ q ∈ [(Mn.cwait, (0 : BitVec 15), (0 : BitVec 5)), (.cwait, 1, 0), (.flagwait, 0, 0), (.flagwait, 1, 0),
      (.flagwait, 1, 8), (.flagwait, 0, 8), (.flagwait, 0, 16), (.flagwait, 1, 16), (.flagwait, 1, 24), (.flagwait, 0, 24)],
    let f := waitOn q.1 q.2.1 q.2.2
    let c := ca 0x20000
    Meets (on c) q.1 f c m1 (some0 (on c) q.1 f c m1 ∧ addressFor .atom f c m1 0 = 0x20000 ∧ (on c).UnitsAgree (coreUnits 0) c.ctx ∧
      (on c).HomeAccess 0 c wordRead 0x20000 0x20000 ∧ c.heldBack (on c).seq = false ∧
      (on c).heldLine (0x20000 / 64) 0 = false ∧ c.ownPending 0x20000 = false ∧ (on c).byte 0x20000 = 0) := by
  intro q hq
  fin_cases hq <;> exact meets (by decide +kernel) ⟨by decide +kernel, by decide +kernel, units (by decide +kernel), access_at (by decide +kernel),
    by decide +kernel, by decide +kernel, by decide +kernel, by decide +kernel⟩
theorem test_hyp_FlagsAndCountedWaits_scratch : ∀ v ∈ [(0 : BitVec 15), 1], let f := { waitOn .cwait v 8 with a := I 4092 }
    Meets s0 .cwait f c0 p0 (some0 s0 .cwait f c0 p0 ∧ operand32 c0 0 f.a 0 % 4 = 0 ∧ operand32 c0 0 f.a 0 + 4 ≤ t0.scratchSize ∧
      s0.rangeClash 0 false c0.ctx c0.team 4092 4 false = false ∧ t0.word (4092 / 4) = 0 ∧ operand32 c0 0 f.b 0 = v.toNat) := by
  intro v hv
  fin_cases hv <;> exact meets (by decide +kernel) (by decide +kernel)
theorem test_hyp_FlagsAndCountedWaits_reread : ∀ v ∈ [0, 1], let sp := { p0 with st := .blocked, wait := .word .ge (.home 0x20000) 0x20000 v 0 }
    let c := one c0 sp
    (on c).crew? 0 = some c ∧ c.split? 0 = some sp ∧ c.st = .running ∧ (on c).UnitsAgree (coreUnits 0) c.ctx ∧
      (on c).HomeAt c.ctx 0x20000 4 false ((on c).dclass c) 0x20000 ∧ (on c).heldLine (0x20000 / 64) 0 = false ∧ c.ownPending 0x20000 = false ∧
      (on c).byte 0x20000 = 0 := by
  intro v hv
  fin_cases hv <;> exact ⟨by decide +kernel, by decide +kernel, rfl, units (by decide +kernel), home_at (by decide +kernel), by decide +kernel,
    by decide +kernel, by decide +kernel⟩

/-! Copies: nothing to move, too long, ranges that meet; 4096 bytes of memory into scratch; rows; a request list. -/

def cp (d a b : Operand) (e : BitVec 5) : Fields := { form .copy with d := d, a := a, b := b, ext := e }
def cc : Crew := one (cs [(8, 0x20000), (9, 0x1000001)]) m1
theorem test_hyp_CopiesStart_refused :
    Meets (on cc) .copy (cp (I 0) (S 8) (I 0) 1) cc m1 (some0 (on cc) .copy (cp (I 0) (S 8) (I 0) 1) cc m1 ∧ operand32 cc 0 (I 0) 0 = 0) ∧
    Meets (on cc) .copy (cp (I 0) (S 8) (S 9) 1) cc m1 (2 ^ 24 < operand32 cc 0 (S 9) 0) ∧
    Meets (on cc) .copy (cp (S 8) (S 8) (I 16) 0) cc m1 (rangesMeet false false 0x20000 0x20000 16 16 = true) :=
  ⟨meets (by decide +kernel) (by decide +kernel), meets (by decide +kernel) (by decide +kernel), meets (by decide +kernel) (by decide +kernel)⟩
def cpOk : Fields := cp (I 0) (S 8) (I 4096) 1
/-- A range at home in the first gigabyte, which one leaf maps to itself, and one in scratch. -/
def inHome (a n : Nat) : Pieces := [{ loc := .home a, len := n, leaf := 0x83, peers := [] }]
def inScratch (a n : Nat) : Pieces := [{ loc := .scratch 0 a, len := n, leaf := 0, peers := [] }]
theorem scratch_range {s : State} {c : Crew} {t : Team} {a n : Nat} {write : Bool} (h : a + n ≤ t.scratchSize) (g : write = true → t.guarded a n = false)
    (e : c.team = 0) : s.CopyRange c t true a n write (inScratch a n) := by
  simp only [State.CopyRange, if_true, inScratch, e]; exact ⟨h, g, trivial⟩
theorem copy_range {s : State} {c : Crew} {t : Team} {a n : Nat} {write : Bool} {ps : Pieces} (h : rangeB s c.ctx a n write (s.dclass c) ps = true) :
    s.CopyRange c t false a n write ps := by
  simp only [State.CopyRange]; exact home_range h
theorem test_hyp_CopiesStart_ranges : Meets (on cc) .copy cpOk cc m1 ((on cc).UnitsAgree (coreUnits 0) cc.ctx ∧
    (on cc).CopyRange cc t0 false 0x20000 4096 false (inHome 0x20000 4096) ∧ (on cc).CopyRange cc t0 true 0 4096 true (inScratch 0 4096) ∧
    copyFree (on cc) 0 cc t0 2) :=
  meets (by decide +kernel) ⟨units (by decide +kernel), copy_range (by decide +kernel), scratch_range (by decide) (by decide +kernel) (by decide +kernel),
    by unfold copyFree; decide +kernel⟩
/-- A transfer within scratch, whose check uses no translation. -/
def cpIn : Fields := cp (I 0) (I 2048) (I 1024) 3
def cpBoth := checkPair (Go.start (on cc)) (issueOf (on cc) .copy cpIn 0 0 cc m1) true true 2048 0 1024
theorem test_hyp_CopiesStart_copy : Meets (on cc) .copy cpOk cc m1 (copyAddress cc cpOk.a false = 0x20000 ∧ copyAddress cc cpOk.d true = 0 ∧
    operand32 cc 0 cpOk.b 0 = 4096 ∧ rangesMeet false true 0x20000 0 4096 4096 = false) ∧
    Meets (on cc) .copy cpIn cc m1 (copyAddress cc cpIn.a true = 2048 ∧ copyAddress cc cpIn.d true = 0 ∧ operand32 cc 0 cpIn.b 0 = 1024 ∧
      rangesMeet true true 2048 0 1024 1024 = false ∧ cpBoth.1.1 = [] ∧ copyFree cpBoth.2.st 0 cc t0 2) :=
  ⟨meets (by decide +kernel) (by decide +kernel), meets (by decide +kernel) ⟨by decide +kernel, by decide +kernel, by decide +kernel, by decide +kernel,
    by decide +kernel, by unfold copyFree; decide +kernel⟩⟩
def cpg : Fields := { form .copyg with d := I 0, a := S 8, b := V 8, ext := 1 }
def cpgIn : Fields := { form .copyg with d := I 0, a := I 2048, b := V 8, ext := 3 }
def cpgRows := gatherRows (Go.start (on cc)) (issueOf (on cc) .copyg cpgIn 0 0 cc m1) true true 4 [0]
theorem test_hyp_CopiesStart_copyg : Meets (on cc) .copyg cpgIn cc m1 (lanesOf (runLanes (on cc) .copyg cpgIn 0 0 cc m1) 32 = [0] ∧
    copyAddress cc cpgIn.a true % min 4 16 = 0 ∧ copyAddress cc cpgIn.d true % min 4 16 = 0 ∧ operand32 cc 0 cpgIn.b 0 = 0 ∧
    rangesMeet true true 2048 0 4 (32 * 4) = false ∧ cpgRows.1.1 = [] ∧ copyFree cpgRows.2.st 0 cc t0 2) :=
  meets (by decide +kernel) ⟨by decide +kernel, by decide +kernel, by decide +kernel, by decide +kernel, by decide +kernel, by decide +kernel,
    by unfold copyFree; decide +kernel⟩
theorem test_hyp_CopiesStart_copyg_ranges : Meets (on cc) .copyg cpg cc m1 ((on cc).UnitsAgree (coreUnits 0) cc.ctx ∧ copyFree (on cc) 0 cc t0 2 ∧
    ∀ l ∈ lanesOf (runLanes (on cc) .copyg cpg 0 0 cc m1) 32, (on cc).CopyRange cc t0 false 0x20000 4 false (inHome 0x20000 4) ∧
      (on cc).CopyRange cc t0 true (4 * l) 4 true (inScratch (4 * l) 4)) := by
  refine meets (by decide +kernel) ⟨units (by decide +kernel), by unfold copyFree; decide +kernel, fun l hl => ?_⟩
  rw [show lanesOf (runLanes (on cc) .copyg cpg 0 0 cc m1) 32 = [0] by decide +kernel, List.mem_singleton] at hl
  subst hl
  exact ⟨copy_range (by decide +kernel), scratch_range (by decide) (by decide +kernel) (by decide +kernel)⟩
/-- A list at 64 of one element: 16 bytes from scratch 512 to scratch 1024, counted at the knot at 16. -/
def listBytes : List Byte := leBytes (16 + 2 ^ 48) 16 ++ leBytes (512 + 2 ^ 64 * 1024 + 2 ^ 128 * 16 + 2 ^ 160 + 2 ^ 161) 32
def kick0 : State := after (.knotinit { form .knotinit with a := I 16, b := I 1 }) s0
def kickS : State := withTeam kick0 { tm kick0 with scratch := placeBytes (tm kick0).scratch 64 listBytes }
def kk : Fields := { form .kick with a := I 64 }
def kickEls := kickElems (Go.start kickS) (issueOf kickS .kick kk 0 0 (cr kickS) (spl kickS))
  [listElem (leNat ((tm kickS).bytesAt 80 32))]
theorem test_hyp_CopiesStart_kick : let t := tm kickS
    let c := cr kickS
    let h := leNat (t.bytesAt 64 16)
    Meets kickS .kick kk c (spl kickS) (some0 kickS .kick kk c (spl kickS) ∧ operand64 c kk.a % 2 ^ 32 = 64 ∧ h / 2 ^ 53 = 0 ∧ h / 2 ^ 23 % 2 ^ 25 = 0 ∧
      h / 2 ^ 48 % 2 ^ 5 = 1 ∧ h % 2 ^ 23 = 16 ∧ 64 + 16 + 32 * 1 ≤ t.scratchSize ∧
      (∀ j, j ≤ 2 * 1 → scratchPasses kickS 0 c t (64 + 16 * j) 16 true false none) ∧ t.active 16 = true ∧ c.heldBack kickS.seq = false ∧
      (kickS.coreOf 0).lists.length < 64 ∧ (∀ n ∈ t.cores, (kickS.coreOf n).ranges.length + 2 * 1 ≤ 32) ∧ t.cores.Nodup ∧ kickEls.1.1 = []) :=
  meets (by decide +kernel) ⟨by decide +kernel, by decide +kernel, by decide +kernel, by decide +kernel, by decide +kernel, by decide +kernel, by decide +kernel,
    by unfold scratchPasses; decide +kernel, by decide +kernel, by decide +kernel, by decide +kernel, by decide +kernel, by decide +kernel, by decide +kernel⟩
theorem test_hyp_CopiesStart_kick_ranges : let e := listElem (leNat ((tm kickS).bytesAt 80 32))
    kickS.UnitsAgree (coreUnits 0) (cr kickS).ctx ∧ e.resv = 0 ∧ 0 < e.len ∧ e.len ≤ 2 ^ 24 ∧ rangesMeet e.sscr e.dscr e.src e.dst e.len e.len = false ∧
      e.sscr = true ∧ e.dscr = true ∧ kickS.CopyRange (cr kickS) (tm kickS) true e.src e.len false (inScratch 512 16) ∧
      kickS.CopyRange (cr kickS) (tm kickS) true e.dst e.len true (inScratch 1024 16) := by
  intro e
  have h : e.src = 512 ∧ e.dst = 1024 ∧ e.len = 16 := by decide +kernel
  refine ⟨units (by decide +kernel), by decide +kernel, by decide +kernel, by decide +kernel, by decide +kernel, by decide +kernel, by decide +kernel, ?_, ?_⟩
  · rw [h.1, h.2.2]; exact scratch_range (by decide +kernel) (by decide +kernel) (by decide +kernel)
  · rw [h.2.1, h.2.2]; exact scratch_range (by decide +kernel) (by decide +kernel) (by decide +kernel)

theorem test_hyp_BatchesCloseAndComplete :
    Meets s0 .batch (form .batch) c0 p0 (runLanes s0 .batch (form .batch) 0 0 c0 p0 ≠ 0 ∧ c0.closed - c0.done < 64) ∧
    Meets s0 .bwait { form .bwait with a := I 1 } c0 p0 (some0 s0 .bwait { form .bwait with a := I 1 } c0 p0 ∧ c0.closed < operand64 c0 (I 1)) ∧
    Meets s0 .bwait { form .bwait with a := I 0 } c0 p0 (operand64 c0 (I 0) ≤ c0.closed ∧ operand64 c0 (I 0) ≤ c0.done ∧ c0.poisonBatch = []) ∧
    (let c := { c0 with closed := 1, done := 1, poisonBatch := [1] }; Meets (on c) .bwait { form .bwait with a := I 1 } c p0 (operand64 c (I 1) ≤ c.done)) ∧
    (let c := { c0 with closed := 1 }; Meets (on c) .bwait { form .bwait with a := I 1 } c p0 (operand64 c (I 1) ≤ c.closed ∧ c.done < operand64 c (I 1))) :=
  ⟨meets (form_runs _) (by decide +kernel), meets (by decide +kernel) (by decide +kernel), meets (by decide +kernel) (by decide +kernel),
    meets (by decide +kernel) (by decide +kernel), meets (by decide +kernel) (by decide +kernel)⟩
def bat : Batch := { left := [], gwctMod := 0, gwctFab := 0, off := false, poison := false }
theorem test_hyp_BatchesCloseAndComplete_complete : let c := { one c0 { p0 with st := .blocked, wait := .bwait 1 1 } with closed := 1, batches := [bat] }
    (on c).crew? 0 = some c ∧ c.batches = bat :: [] ∧ bat.left = [] ∧ (if bat.off then bat.gwctFab else bat.gwctMod) ≤ (on c).now ∧ bat.poison = false ∧
      c.poisonBatch = [] ∧ Tab.sorted c.splits = true := by decide +kernel

/-- An engine operation of 16 bytes between memory and scratch, in each direction, and one that has written all. -/
def engS (e : EngOp) (lists : Table Nat) : State := { kick0 with cores := [(0, { CoreSt.reset with ops := [(5, e)], lists := lists })] }
theorem test_hyp_EngineMovesUnits : ∀ q ∈ [(Loc.home 0x20000, Loc.scratch 0 0), (.scratch 0 0, .home 0x20000), (.home 0x20000, .home 0x30000)],
    let e := eop q.1 q.2
    let s := engS e []
    s.engineOp 0 5 = some e ∧ e.segs[0 / 2 ^ 40]? = some { src := [piece q.1], dst := [piece q.2], sbase := 0, dbase := 0, len := 16 } ∧ 0 ∈ e.left ∧
      e.buf = [] ∧ e.knot = none ∧ Loc.isFar q.1 = false ∧ Loc.isFar q.2 = false ∧ s.passes = [] ∧ engineReady s 0 e = true ∧
      unitHeld s { src := [piece q.1], dst := [piece q.2], sbase := 0, dbase := 0, len := 16 } 0 16 = false ∧ s.team? 0 ≠ none ∧
      ∀ p ∈ sourceUnits { src := [piece q.1], dst := [piece q.2], sbase := 0, dbase := 0, len := 16 } 0 16, (s.nearBytes p.2 (Loc.plus p.1 q.1)).2 = false := by
  intro q hq
  fin_cases hq <;> decide +kernel
/-- A unit of a list element, whose source is poisoned. -/
theorem test_hyp_EngineMovesUnits_error : let e := { eop (.home 0x20000) (.scratch 0 0) with list := some 7 }
    let s : State := { engS e [(7, 1)] with poison := [(0x20000, ())] }
    let seg : EngSeg := { src := [piece (.home 0x20000)], dst := [piece (.scratch 0 0)], sbase := 0, dbase := 0, len := 16 }
    s.engineOp 0 5 = some e ∧ e.list ≠ none ∧ e.poison = false ∧ engineReady s 0 e = true ∧ unitHeld s seg 0 16 = false ∧
      ∃ p ∈ sourceUnits seg 0 16, (s.nearBytes p.2 (Loc.plus p.1 (.home 0x20000))).2 = true := by decide +kernel
def lop (kn : Option Nat) : EngOp := { eop (.home 0x20000) (.scratch 0 0) with left := [], list := some 7, knot := kn }
theorem test_hyp_EngineMovesUnits_element : ∀ kn ∈ [none, some 16], let e := lop kn
    let s := engS e [(7, 2)]
    s.engineOp 0 5 = some e ∧ e.list = some 7 ∧ e.left = [] ∧ e.far = [] ∧ (if e.off then e.gwctFab else e.gwctMod) ≤ s.now ∧
      Tab.find (s.coreOf 0).lists 7 = some 2 ∧ s.team? e.team = some (tm kick0) ∧ (tm kick0).active 16 = true := by
  intro kn h
  fin_cases h <;> decide +kernel
/-- A near element whose destination is a home: it counts at the knot. -/
theorem test_hyp_EngineMovesUnits_knot : let e := { eop (.scratch 0 0) (.home 0x20000) with left := [], list := some 7, knot := some 16 }
    e.toScratch = false ∧ ((tm kick0).knot 16).arrived ≠ ((tm kick0).knot 16).expect := by decide +kernel

/-! Layout registers and tiles. -/

def lay1 : LayRec := BitVec.ofNat 256 (2 ^ 64 * 2 + 2 ^ 88 * 64 + 2 ^ 192 * 32 + 2 ^ 208 * 64 + 2 ^ 224 + 2 ^ 240)
def clay (v : Nat) : Crew :=
  cs [(8, BitVec.ofNat 64 v), (9, BitVec.ofNat 64 (v / 2 ^ 64)), (10, BitVec.ofNat 64 (v / 2 ^ 128)), (11, BitVec.ofNat 64 (v / 2 ^ 192))]
theorem test_hyp_LayoutRegistersAndCounters : ∀ sel ∈ [(0x100 : BitVec 15), 0x103],
    (let c := clay lay1.toNat; Meets (on c) .setlay { form .setlay with d := .x sel } c p0 (some0 (on c) .setlay { form .setlay with d := .x sel } c p0 ∧
      ¬ recordReserved lay1.toNat ∧ 256 ≤ sel.toNat)) ∧
    (let c := clay (2 ^ 23); Meets (on c) .setlay { form .setlay with d := .x sel } c p0 (recordReserved (2 ^ 23))) ∧
    Meets s0 .lstat { form .lstat with a := .x sel } c0 p0 (s0.team? c0.team = some t0 ∧ t0.opq = [] ∧ runLanes s0 .lstat (form .lstat) 0 0 c0 p0 ≠ 0) := by
  unfold recordReserved
  intro sel h
  fin_cases h <;> exact ⟨meets (by decide +kernel) (by decide +kernel), meets (by decide +kernel) (by decide +kernel), meets (by decide +kernel) (by decide +kernel)⟩

/-- A team that holds tiles 2 to 5 and 64 KiB of scratch. -/
def tt : Team := { t0 with tilesHeld := 0x3C, scratchSize := 0x10000 }
def ts (c : Crew) (t : Team) : State := withTeam (on c) t
theorem test_hyp_TileInstructions_spilled : let t := { tt with spilled := true }
    ∀ mn ∈ [Mn.mma, .mmaw, .mld, .mst, .mzero, .mget, .mgetTry, .mrel], (ts c0 t).team? c0.team = some t ∧
      Meets (ts c0 t) mn (form mn) c0 p0 (runLanes (ts c0 t) mn (form mn) 0 0 c0 p0 ≠ 0 ∧ t.spilled = true) := by
  intro t mn hm
  fin_cases hm <;> exact ⟨by decide +kernel, meets (by decide +kernel) (by decide +kernel)⟩
def mf (m : Mn) : Fields := { form m with a := I 0, b := I 256 }
theorem test_hyp_TileInstructions_tiles : (ts c0 tt).team? c0.team = some tt ∧
    Meets (ts c0 tt) .mzero (form .mzero) c0 p0 (varOf (form .mzero) = 0 ∧ tilesFree tt (2 ^ tileField (form .mzero).d)) ∧
    Meets (ts c0 tt) .mld (mf .mld) c0 p0 (tileField (mf .mld).d = 2 ∧ imagePasses (ts c0 tt) 0 (mf .mld) c0 tt 0 256 false) ∧
    Meets (ts c0 tt) .mst (mf .mst) c0 p0 (imagePasses (ts c0 tt) 0 (mf .mst) c0 tt 0 256 true ∧ p0.wait = .none) := by
  unfold tilesFree imagePasses
  exact ⟨by decide +kernel, meets (by decide +kernel) (by decide +kernel), meets (by decide +kernel) (by decide +kernel), meets (by decide +kernel) (by decide +kernel)⟩
/-- `mget` and `mrel`: masks that name nothing or tiles held; a mask that fits; one that does not, beside a team that holds tiles. -/
def rival : Team := { t0 with crews := [1], tilesHeld := 0xFFF0 }
def crowded : State := { ts c0 tt with teams := [(0, { tt with tilesHeld := 0 }), (1, rival)], crews := [(0, c0), (1, { other with team := 1 })] }
theorem test_hyp_TileInstructions_get : ∀ mn ∈ [Mn.mget, .mgetTry], let f := fun n => { form mn with a := I n }
    (ts c0 tt).tileReqs = [] ∧
    Meets (ts c0 tt) mn { form mn with a := S 9 } c0 p0 (operand64 c0 (S 9) = 0) ∧
    Meets (ts c0 tt) mn (f 4) c0 p0 (operand64 c0 (I 4) &&& tt.tilesHeld.toNat ≠ 0) ∧
    Meets (ts c0 tt) mn (f 0x3FC0) c0 p0 (operand64 c0 (I 0x3FC0) &&& tt.tilesHeld.toNat = 0 ∧ ∀ n ∈ tt.cores, popCount 0x3FC0 16 ≤ (ts c0 tt).freeTiles n) ∧
    Meets crowded mn (f 0x3F) c0 p0 (crowded.tileReqs = [] ∧ (∃ n ∈ tt.cores, ¬ popCount 0x3F 16 ≤ crowded.freeTiles n) ∧ crowded.team? 1 = some rival ∧
      rival.tilesHeld ≠ 0 ∧ rival.spilled = false ∧ rival.saved = false ∧ rival.cores.contains 0 = true) := by
  intro mn h
  fin_cases h <;> exact ⟨by decide +kernel, meets (by decide +kernel) (by decide +kernel), meets (by decide +kernel) (by decide +kernel),
    meets (by decide +kernel) (by decide +kernel), meets (by decide +kernel) (by decide +kernel)⟩
theorem test_hyp_TileInstructions_release : Meets (ts c0 tt) .mrel { form .mrel with a := I 2 } c0 p0 (operand64 c0 (I 2) &&& tt.tilesHeld.toNat ≠ 2) ∧
    Meets (ts c0 tt) .mrel { form .mrel with a := I 0x3C } c0 p0 (tilesFree tt 0x3C ∧ (ts c0 tt).tileReqs = []) := by
  unfold tilesFree
  exact ⟨meets (by decide +kernel) (by decide +kernel), meets (by decide +kernel) (by decide +kernel)⟩

/-- A single-core `.f16` operation of one block; a layout record with an odd base, cause 4; the operation at each of its events. -/
def mm (m : Mn) : Fields := { form m with f := true }
def cm (v : LayRec) : Crew := { c0 with lay := [(0, v)] }
def mop (m : Mn) (v : LayRec) : MatOp := matOpOf (issueOf (ts (cm v) tt) m (mm m) 0 0 (cm v) p0) (m == .mmaw)
theorem test_hyp_MatrixOperationsRun_issue : ∀ m ∈ [Mn.mma, .mmaw], let c := cm lay1
    Meets (ts c tt) m (mm m) c p0 (some0 (ts c tt) m (mm m) c p0 ∧ mmaPasses 0 (mm m) .f16 c tt (mop m lay1) ∧ tt.opq = [] ∧
      c.order = [] ∧ ((ts c tt).matOps.filter fun p => p.sameQueue (mop m lay1)).length < 8 ∧ (∀ n ∈ tt.cores, ((ts c tt).coreOf n).ranges.length < 32) ∧
      tt.cores.Nodup) ∧
    (let c := cm (lay1 + 1); Meets (ts c tt) m (mm m) c p0 ((mmaCauses (ts c tt) (issueOf (ts c tt) m (mm m) 0 0 c p0) (mop m (lay1 + 1))).map (·.cause) = [4])) := by
  intro m h
  fin_cases h <;> exact ⟨meets (by decide +kernel) ⟨by decide +kernel, ⟨by decide +kernel, by decide +kernel, by decide +kernel, by decide +kernel,
    by decide +kernel, by decide +kernel, by decide +kernel, 1, 8, _, _, _, by decide +kernel, rfl, by decide +kernel⟩, by decide +kernel⟩,
    meets (by decide +kernel) (by decide +kernel)⟩
def mo (m : Mn) (prog : Nat) (run : Bool) : MatOp := { mop m lay1 with id := 3, blocks := 1, prog := prog, running := run }
def mt (o : MatOp) : Team := { tt with opq := [o] }
theorem test_hyp_MatrixOperationsRun_events : ∀ m ∈ [Mn.mma, .mmaw], ∀ q ∈ [(0, false), (0, true), (1, true)], let o := mo m q.1 q.2
    let s := ts (cm lay1) (mt o)
    s.team? 0 = some (mt o) ∧ (mt o).opq.find? (fun r => r.id == 3) = some o ∧ (mt o).saved = false ∧ (mt o).spilled = false ∧ o.locked = true ∧
      (q.2 = false → opCanStart s o = true) ∧ o.tile < 15 ∧ s.crew? o.crew = some (cm lay1) ∧ (cm lay1).inst = o.inst ∧ (o.prog < o.blocks ↔ q.1 = 0) := by
  intro m hm q hq
  fin_cases hm <;> fin_cases hq <;> decide +kernel

/-! ### Hypotheses of the statements on remote memory, the lode window, passes and claims -/

/-- The crew with a peer, an address and a datum in `s8` to `s10`. -/
def cpa (p a : Nat) : Crew := one (cs [(8, BitVec.ofNat 64 p), (9, BitVec.ofNat 64 a)]) m1
def far (m : Mn) : Fields := { form m with a := S 8, b := S 9 }
def stageOne (s : State) (m : Mn) (f : Fields) (t : Ty) (c : Crew) : (List LaneFault × List Checked) × Go s :=
  checkAll (Go.start s) (if m = .gld ∨ m = .gst then checkMember (issueOf s m f 0 0 c m1) (remoteKind m t f)
    else checkPeer (issueOf s m f 0 0 c m1) (remoteKind m t f)) (accLanes (issueOf s m f 0 0 c m1))
theorem stage_one (s : State) (m : Mn) (f : Fields) (t : Ty) (c : Crew) :
    StageOne s m f t 0 0 c m1 (stageOne s m f t c).1.1 (stageOne s m f t c).1.2 := ⟨(stageOne s m f t c).2, rfl⟩
def faultsOf (s : State) (m : Mn) (t : Ty) (c : Crew) : List (Nat × Nat) := (stageOne s m (far m) t c).1.1.map fun e => (e.lane, e.cause)
/-- This module, another one, and what stage 1 refuses: bits above the peer number, a misaligned address, a non-canonical address, a peer that
is absent, and past the end of the table. -/
theorem test_hyp_RemoteAccessesSendPasses : ∀ q ∈ [(Mn.rld, Ty.b32), (.rst, .b32), (.ratom, .s32)],
    (∀ p ∈ [0, 1], let c := cpa p 0x20000
      let s := withPeers (on c)
      Meets s q.1 (far q.1) c m1 (some0 s q.1 (far q.1) c m1 ∧ faultsOf s q.1 q.2 c = [] ∧ s.mod.returned = [] ∧ c.order = [])) ∧
    ∀ r ∈ [(2 ^ 18, 0x20000, 3), (0, 0x20002, 4), (0, 2 ^ 56, 5), (2, 0x20000, 9), (3, 0x20000, 9)], let c := cpa r.1 r.2.1
      let s := withPeers (on c)
      Meets s q.1 (far q.1) c m1 (some0 s q.1 (far q.1) c m1 ∧ faultsOf s q.1 q.2 c = [(0, r.2.2)]) := by
  intro q hq
  fin_cases hq <;> refine ⟨?_, ?_⟩ <;> intro r hr <;> fin_cases hr <;> exact meets (by decide +kernel) (by decide +kernel)
def peerB (s : State) (ctx p : Nat) : Bool :=
  let e := leNat (s.bytesAt (s.mod.ptBase.toNat + 8 * p) 8)
  let part := (s.ctx ctx).part.toNat
  decide (p < s.mod.ptCount.toNat) && s.mod.ptCache.isEmpty && decide (e % 4 = 1) && (!decide (part < 8) || e.testBit (56 + part)) &&
    (decide (p = s.mod.modid) || !(s.pathsUp e).isEmpty)
theorem peer_here {s : State} {ctx p : Nat} (h : peerB s ctx p = true) : s.PeerHere ctx p := by
  simp only [peerB, Bool.and_eq_true, Bool.or_eq_true, decide_eq_true_eq, Bool.not_eq_true', List.isEmpty_iff] at h
  obtain ⟨⟨⟨⟨h1, h2⟩, h3⟩, h4⟩, h5⟩ := h
  refine ⟨h1, fun j v _ hv => ?_, h3, fun q => ?_, fun q => ?_⟩
  · rw [h2] at hv; cases hv
  · exact h4.resolve_left (by simp [q])
  · intro e; have := h5.resolve_left q; simp [e] at this
/-- The instruction's one lane passes stage 1, for this module and for another. -/
theorem test_hyp_RemoteAccessesSendPasses_lanes : ∀ q ∈ [(Mn.rld, Ty.b32), (.rst, .b32), (.ratom, .s32)], ∀ p ∈ [0, 1], let c := cpa p 0x20000
    let s := withPeers (on c)
    accLanes (issueOf s q.1 (far q.1) 0 0 c m1) = [0] ∧ stageOneLane s q.1 (far q.1) q.2 c m1 t0 (evalLane 0) ∧ c.storeq = [] ∧ c.loadq = [] ∧
      s.passes = [] := by
  intro q hq p hp
  fin_cases hq <;> fin_cases hp <;> exact ⟨by decide +kernel, ⟨by decide +kernel, by decide +kernel, by decide +kernel, by decide +kernel,
    peer_here (by decide +kernel)⟩, rfl, rfl, rfl⟩
/-- A gang of two members of which this team has rank 0; the members run at modules 0 and 1. -/
def gg0 : Gang :=
  { pend := placedPend 0, first := 0, time := 0, coord := 0, no := 7, members := [0, 1], st := .running, prev := .running, window := none, committed := true
    go := true, heldFrom := [], placedFrom := [], savedFrom := [], since := 0, reservedAt := none, detached := [], lost := [], teams := [(0, 0)] }
def tg : Team := { t0 with gang := some 7, rank := 0, gangSize := 2 }
def gs (c : Crew) (t : Team) (g : Gang) : State := { withTeam (withPeers (on c)) t with gangs := [(7, g)] }
theorem test_hyp_RemoteAccessesSendPasses_window_lanes : ∀ m ∈ [Mn.gld, .gst], ∀ p ∈ [0, 1], let c := cpa p 4092
    accLanes (issueOf (gs c tg gg0) m (far m) 0 0 c m1) = [0] ∧ stageOneLane (gs c tg gg0) m (far m) .b32 c m1 tg (evalLane 0) := by
  intro m hm p hp
  fin_cases hm <;> fin_cases hp <;> exact ⟨by decide +kernel, by decide +kernel, by decide +kernel, by decide +kernel, by decide +kernel, by decide +kernel,
    7, gg0, by decide +kernel, by decide +kernel, by decide +kernel⟩
/-- Ranks 0 and 1 at the last word of scratch; misaligned; past the scratch; a rank past the gang; a lost member. -/
theorem test_hyp_RemoteAccessesSendPasses_window : ∀ m ∈ [Mn.gld, .gst],
    (∀ p ∈ [0, 1], let c := cpa p 4092
      Meets (gs c tg gg0) m (far m) c m1 (some0 (gs c tg gg0) m (far m) c m1 ∧ faultsOf (gs c tg gg0) m .b32 c = [] ∧ (gs c tg gg0).team? c.team = some tg)) ∧
    (∀ r ∈ [(0, 4090, 4), (0, 4096, 5), (2, 0, 5)], let c := cpa r.1 r.2.1
      Meets (gs c tg gg0) m (far m) c m1 (some0 (gs c tg gg0) m (far m) c m1 ∧ faultsOf (gs c tg gg0) m .b32 c = [(0, r.2.2)])) ∧
    (let c := cpa 1 0
     let s := gs c tg { gg0 with lost := [1] }
     Meets s m (far m) c m1 (faultsOf s m .b32 c = [(0, 10)])) := by
  intro m hm
  fin_cases hm <;> refine ⟨?_, ?_, meets (by decide +kernel) (by decide +kernel)⟩ <;> intro r hr <;> fin_cases hr <;>
    exact meets (by decide +kernel) (by decide +kernel)

/-- `rfence`: no outstanding store; one; a peer number of 18 bits and of more; an absent peer. -/
def tgt (n : Nat) : Target := { peer := 0, counts := [n, 0, 0, 0], zeroAt := 0 }
def crf (p n : Nat) : Crew := { cpa p 0 with targets := [(0, tgt n)] }
def sf (c : Crew) : State := { withPeers (on c) with now := 1 }
def rf (a : Operand) : Fields := { form .rfence with a := a }
theorem test_hyp_RemoteFencesAndDetach_rfence :
    Meets (sf (crf 0 0)) .rfence (rf N) (crf 0 0) m1 (some0 (sf (crf 0 0)) .rfence (rf N) (crf 0 0) m1 ∧ (∀ e ∈ (crf 0 0).targets, ∀ n ∈ e.2.counts, n = 0) ∧
      (crf 0 0).gfab < (sf (crf 0 0)).now) ∧
    Meets (sf (crf 0 1)) .rfence (rf N) (crf 0 1) m1 (∃ e ∈ (crf 0 1).targets, ¬ ∀ n ∈ e.2.counts, n = 0) ∧
    Meets (sf (crf (2 ^ 18) 0)) .rfence (rf (S 8)) (crf (2 ^ 18) 0) m1 (2 ^ 18 ≤ ((crf (2 ^ 18) 0).uni 8).toNat) ∧
    (∀ q ∈ [(0, false), (1, false), (2, true), (2 ^ 18 - 1, true)], let c := crf q.1 0
      Meets (sf c) .rfence (rf (S 8)) c m1 ((peerAbsent (Go.start (sf c)) c.ctx q.1).1 = q.2 ∧ (c.uni 8).toNat = q.1)) ∧
    Meets (sf (crf 0 1)) .rfence (rf (S 8)) (crf 0 1) m1 (∃ e ∈ (crf 0 1).targets, e.2.peer = 0 ∧ ¬ ∀ n ∈ e.2.counts, n = 0) :=
  ⟨meets (by decide +kernel) (by decide +kernel), meets (by decide +kernel) (by decide +kernel), meets (by decide +kernel) (by decide +kernel),
    by intro q hq; fin_cases hq <;> exact meets (by decide +kernel) (by decide +kernel), meets (by decide +kernel) (by decide +kernel)⟩
/-- `gdetach`: a team in no gang; detached already; stores to come; one crew of two; the last crew of a gang of two. -/
def gsn (c : Crew) (t : Team) : State := { gs c t gg0 with now := 1 }
def fg : FarGroup := { pass := 0, peer := 1, line := 0, path := 0, store := 0, mirrored := false, near := false, counted := false }
theorem test_hyp_RemoteFencesAndDetach_gdetach : let f := form .gdetach
    Meets (gsn c0 t0) .gdetach f c0 p0 (some0 (gsn c0 t0) .gdetach f c0 p0 ∧ (gsn c0 t0).team? c0.team = some t0 ∧ t0.gangSize = 0) ∧
    (let t := { tg with detached := true }; Meets (gsn c0 t) .gdetach f c0 p0 ((gsn c0 t).team? c0.team = some t ∧ t.gangSize ≠ 0 ∧ t.detached = true)) ∧
    (let c := { c0 with sent := [fg] }; Meets (gsn c tg) .gdetach f c p0 (∃ e ∈ c.sent, e.counted = false)) ∧
    (let s := { gsn c0 tg with crews := [(0, c0), (1, other)] }
     Meets s .gdetach f c0 p0 (s.crew? 1 = some other ∧ other.team = c0.team ∧ other.st ≠ .draining ∧ 1 ∉ tg.gdetach ∧ c0.gfab < s.now)) ∧
    Meets (gsn c0 tg) .gdetach f c0 p0 ((∀ y d, (gsn c0 tg).crew? y = some d → d.team = c0.team → d.st ≠ .draining → y = 0 ∨ y ∈ tg.gdetach) ∧
      c0.gfab < (gsn c0 tg).now ∧ tg.gang = some 7 ∧ Tab.find (gsn c0 tg).gangs 7 = some gg0 ∧ gg0.st = .running ∧
      gg0.members[1]? = some 1 ∧ 1 < gg0.members.length ∧ 1 ≠ tg.rank ∧ 1 ∉ gg0.detached ∧ 1 ∉ gg0.lost ∧
      gg0.members[tg.rank]? = some (gsn c0 tg).mod.modid) := by
  refine ⟨meets (by decide +kernel) (by decide +kernel), meets (by decide +kernel) (by decide +kernel), meets (by decide +kernel) (by decide +kernel),
    meets (by decide +kernel) (by decide +kernel), meets (by decide +kernel) ⟨?_, by decide +kernel⟩⟩
  intro y d h _ _
  exact .inl (crew_on (c := c0) (d := d) (y := y) h).1

/-- A pass of one lane, from this module and from peer 1; one that no page maps; window passes; held passes. -/
def pin (k : PassKind) (from_ a : Nat) : PassIn :=
  { src := from_, id := 9, kind := k, ctx := 4095, ty := .s32, op := if k = .ratom then .add else .store, scope := 0, ordered := false, crew := 1
    ident := 0, clock := 0, dclass := false, gang := 7, rank := 0, track := none, vc := [], launch := none, mirror := none, wait := none
    lanes := [{ lane := 0, addr := BitVec.ofNat 64 a, data := 5, expect := 0 }] }
def places (p : PassIn) (j : Nat) : List (Nat × Nat) × List (Nat × Loc) :=
  let r := (passPlaces (Go.start s0) (jdUnits j) p p.lanes).1
  (r.1.map fun e => (e.lane, e.cause), r.2)
theorem test_hyp_TargetsHoldAndPerformPasses_arrive : ∀ k ∈ [PassKind.rld, .rst, .ratom], ∀ w ∈ [0, 1], ∀ j : Fin 4,
    places (pin k w 0x20000) j = ([], [(0, .home 0x20000)]) ∧ places (pin k w 0x20002) j = ([(0, 4)], []) := by
  intro k hk w hw j
  fin_cases hk <;> fin_cases hw <;> fin_cases j <;> decide +kernel
theorem test_hyp_TargetsHoldAndPerformPasses_places : ∀ k ∈ [PassKind.rld, .rst, .ratom], ∀ w ∈ [0, 1], let p := pin k w 0x20000
    s0.behindFlag p = false ∧ (∀ j, j < 4 → s0.UnitsAgree (jdUnits j) p.ctx) ∧
      ∀ l ∈ p.lanes, s0.HomeAt p.ctx l.addr.toNat (accBytes p.ty) (p.kind != .rld) p.dclass 0x20000 := by
  intro k hk w hw p
  refine ⟨by fin_cases hk <;> fin_cases hw <;> decide +kernel, fun j _ => units (by decide +kernel), fun l hl => ?_⟩
  simp only [p, pin, List.mem_singleton] at hl
  subst hl
  fin_cases hk <;> fin_cases hw <;> exact home_at (by decide +kernel)
theorem test_hyp_TargetsHoldAndPerformPasses_window : ∀ k ∈ [PassKind.gld, .gst], ∀ w ∈ [0, 1], let p := pin k w 4092
    let s := gs c0 tg gg0
    Tab.find s.gangs p.gang = some gg0 ∧ p.rank ∉ gg0.lost ∧ Tab.find gg0.teams p.rank = some 0 ∧ s.team? 0 = some tg ∧
      (∀ l ∈ p.lanes, memberCause s p 0 tg l = none) ∧ Tab.find s0.gangs p.gang = none := by
  intro k hk w hw
  fin_cases hk <;> fin_cases hw <;> decide +kernel
def hp (k : PassKind) (o : Bool) (fl : List HeldGroup) : HeldPass :=
  { pass := { pin k 1 0x20000 with ordered := o }, locs := [(0, .home 0x20000)], lines := [0x800], flags := fl }
theorem test_hyp_TargetsHoldAndPerformPasses_held : ∀ h ∈ [hp .rld false [], hp .gld false [], hp .rst false [], hp .ratom false [], hp .rst true [],
      hp .rst true [⟨[0, 0, 0, 0], 2, 0x800, 0⟩]], let s := { s0 with held := [h] }
    s.held.find? (fun q => q.pass.src == h.pass.src && q.pass.id == h.pass.id) = some h ∧ h.pass.mirror = none ∧ h.pass.track = none ∧
      (∀ e ∈ h.locs, e.2 = .home 0x20000) ∧ (h.flags ≠ [] → flagReady s h [0, 0, 0, 0] = true ∧ s.earlierGroup h 0x800 = false) ∧
      (s.behindFlag h.pass = true ↔ h.flags ≠ []) := by
  intro h hh
  fin_cases hh <;> decide +kernel
/-- A second pass of the crew behind a flag that waits. -/
theorem test_hyp_TargetsHoldAndPerformPasses_behind : let h := { hp .rst false [] with pass := { pin .rst 1 0x20000 with id := 10 } }
    let s := { s0 with held := [hp .rst true [⟨[1, 0, 0, 0], 2, 0x800, 0⟩], h] }
    s.held.find? (fun q => q.pass.src == h.pass.src && q.pass.id == h.pass.id) = some h ∧ s.behindFlag h.pass = true ∧
      ∀ l ∈ h.pass.lanes, (l.addr.toNat % 2 ^ 60 / 64 == 0x800 && (h.locs.find? fun e => e.1 == l.lane).isSome) = true := by decide +kernel

/-- A source: its only pass out, sent at 0, of each kind; the acknowledgement of a group. -/
def pset (k : PassKind) : PassSet :=
  { crew := 0, split := 0, eas := [(0, 0x20000)], passes := [{ peer := 1, lanes := (pin k 0 0x20000).lanes, st := .sent 0 }]
    origin := .instr (if k = .rld then some 4 else none) (if k = .rst then some 4 else none), access := 0, twice := false
    pass := { pin k 0 0x20000 with id := 3, crew := c0.inst } }
def waitsFor : Split := { p0 with st := .blocked, wait := .passes 3 }
def cw : Crew := { one c0 waitsFor with loadq := [{ ld0 with id := 4, lanes := [] }] }
def ps (k : PassKind) (n : Nat) : State := { on cw with passes := [(3, pset k)], now := n }
theorem test_hyp_SourcesFinishPasses : ∀ k ∈ [PassKind.rld, .rst, .ratom], ∀ now ∈ [0, 99999, 100000], let s := ps k now
    ∃ o, Tab.find s.passes 3 = some (pset k) ∧ (pset k).passes = [o] ∧ o.peer < 2 ^ 18 ∧ s.crew? 0 = some cw ∧ cw.inst = (pset k).pass.crew ∧
      cw.split? 0 = some waitsFor ∧ cw.st = .running ∧ waitsFor.st = .blocked ∧ waitsFor.wait = .passes 3 ∧ o.st = .sent 0 ∧ (pset k).pass.id = 3 ∧
      distinct (o.lanes.map fun l => l.addr.toNat % 2 ^ 60 / 64) = [0x800] ∧ (targetFor cw o.peer).isSome = true ∧ (∀ q ∈ cw.sent, q.path < 4) ∧
      (0 + 100000 ≤ s.now ↔ now = 100000) ∧ (pset k).pass.mirror = none ∧ o.lanes ≠ [] ∧ (∀ q ∈ o.lanes, q.lane < 128) ∧ cw.width ≤ 128 ∧
      s.farAhead 0 cw 4 = false ∧ s.passedBy (pset k) o = false ∧ (pset k).pass.scope = 0 ∧ s.team? cw.team = some t0 ∧ s.storePath 0 = [] := by
  intro k hk now hn
  fin_cases hk <;> fin_cases hn <;> exact ⟨_, rfl, rfl, by decide, by decide +kernel, by decide +kernel, by decide +kernel, rfl, rfl, rfl, rfl, rfl,
    by decide +kernel, by decide +kernel, by decide +kernel, by decide +kernel, rfl, by decide, by decide, by decide +kernel, by decide +kernel, by decide +kernel, rfl, by decide +kernel, by decide +kernel⟩
/-- A release at `.fab` scope: with nothing before it, and after a store whose acknowledgement is to come. -/
def cwR : Crew := { cw with sent := [{ fg with pass := 2, line := 0x700, store := 3 }] }
theorem test_hyp_SourcesFinishPasses_release : scopeNo t0 5 = 5 ∧ fenceDone (ps .rst 1) 0 cw 5 4 ∧ ¬ fenceDone { ps .rst 1 with crews := [(0, cwR)] } 0 cwR 5 4 :=
  ⟨by decide +kernel, by unfold fenceDone; decide +kernel, by unfold fenceDone; decide +kernel⟩
theorem test_hyp_SourcesFinishPasses_ack : let c := { c0 with sent := [{ fg with pass := 3, line := 0x800 }] }
    farGroupOf (on c) (3 * 2 ^ 18 + 1) { peer := 1, line := 0x800, gwctMod := 2, gwctFab := 3, olds := [], bad := [] } = some (0, { fg with pass := 3, line := 0x800 }) ∧
      (on c).crew? 0 = some c ∧ (on c).passes = [] := by decide +kernel

/-! ### Hypotheses of the statements on claims, keepers, spawning and the privileged instructions -/

/-- A name in `s8` and `s9`, a range in `s10` and `s11`. -/
def cn (hi a n : Nat) : Crew := one (cs [(8, 4), (9, BitVec.ofNat 64 hi), (10, BitVec.ofNat 64 a), (11, BitVec.ofNat 64 n)]) m1
def nm (m : Mn) (e : BitVec 5) : Fields := { form m with d := if m = .claim then S 12 else N, a := S 8, b := S 10, ext := e }
def nmRange (m : Mn) (e : BitVec 5) (c : Crew) : (List Stop × Pieces) × Go (on c) :=
  checkRange (Go.start (on c)) (issueOf (on c) m (nm m e) 0 0 c m1) (e.toNat % 2 == 1) (pairLow c (S 10)) (pairHigh c (S 10)) (m == .claim)
/-- The wait limit 0, a reserved bit, sizes below 16, past 65536 and off 16; the least and the greatest range, in memory and in scratch; handles
0 to 15 taken. -/
theorem test_hyp_ClaimInstructions_claim : (∀ q ∈ [(0, 16), (2 ^ 48, 16), (2 ^ 32, 0), (2 ^ 32, 65552), (2 ^ 32, 24)], let c := cn q.1 0x20000 q.2
      let w := pairHigh c (S 8)
      Meets (on c) .claim (nm .claim 0) c m1 (some0 (on c) .claim (nm .claim 0) c m1 ∧
        ¬ (w / 2 ^ 48 = 0 ∧ w / 2 ^ 32 ≠ 0 ∧ 16 ≤ q.2 ∧ q.2 ≤ 65536 ∧ q.2 % 16 = 0))) ∧
    (∀ q ∈ [((0 : BitVec 5), 2 ^ 32, 0x20000, 16), (0, 2 ^ 48 - 1, 0x20000, 65536), (1, 2 ^ 32, 0, 4096)], let c := cn q.2.1 q.2.2.1 q.2.2.2
      Meets (on c) .claim (nm .claim q.1) c m1 (tileRange (q.1.toNat % 2 == 1) q.2.2.1 q.2.2.2 ∧ (nmRange .claim q.1 c).1.1 = [] ∧ c.handles.length < 16 ∧
        c.order = [] ∧ t0.cores.Nodup ∧ (∀ m ∈ t0.cores, ((on c).coreOf m).ranges.length < 32) ∧ (on c).team? c.team = some t0)) ∧
    (let c := { cn (2 ^ 32) 0x20000 16 with handles := (List.range 16).map fun n =>
                  (n, { seq := 0, tag := 0, name := { ns := 0, key := 4, iter := 0 }, dest := [], base := 0, cap := 16, result := none }) }
     Meets (on c) .claim (nm .claim 0) c m1 (16 ≤ c.handles.length)) := by
  unfold tileRange
  refine ⟨?_, ?_, meets (by decide +kernel) (by decide +kernel)⟩ <;> intro q hq <;> fin_cases hq <;> exact meets (by decide +kernel) (by decide +kernel)
theorem test_hyp_ClaimInstructions_announce : (∀ q ∈ [(2 ^ 49, 16), (0, 0), (0, 65552)], let c := cn q.1 0x20000 q.2
      Meets (on c) .announce (nm .announce 0) c m1 (some0 (on c) .announce (nm .announce 0) c m1 ∧
        ¬ (pairHigh c (S 8) / 2 ^ 49 = 0 ∧ 16 ≤ q.2 ∧ q.2 ≤ 65536 ∧ q.2 % 16 = 0))) ∧
    (∀ q ∈ [((0 : BitVec 5), 0, 0x20000, 16), (0, 2 ^ 49 - 1, 0x20000, 65536), (1, 0, 0, 4096)], let c := cn q.2.1 q.2.2.1 q.2.2.2
      Meets (on c) .announce (nm .announce q.1) c m1 (pairHigh c (S 8) / 2 ^ 49 = 0 ∧ tileRange (q.1.toNat % 2 == 1) q.2.2.1 q.2.2.2 ∧
        (nmRange .announce q.1 c).1.1 = [])) := by
  unfold tileRange
  refine ⟨?_, ?_⟩ <;> intro q hq <;> fin_cases hq <;> exact meets (by decide +kernel) (by decide +kernel)
/-- The same ranges by the context's tables. -/
theorem test_hyp_ClaimInstructions_ranges : ∀ w ∈ [true, false], ∀ n ∈ [16, 65536], let c := cn (2 ^ 32) 0x20000 n
    (on c).UnitsAgree (coreUnits 0) c.ctx ∧ (on c).CopyRange c t0 false 0x20000 n w (inHome 0x20000 n) ∧
      (on c).CopyRange c t0 true 0 4096 w (inScratch 0 4096) := by
  intro w hw n hn
  fin_cases hw <;> fin_cases hn <;>
    exact ⟨units (by decide +kernel), copy_range (by decide +kernel), scratch_range (by decide) (by decide +kernel) (by decide +kernel)⟩
/-- A handle at the last index, number 63: open, delivered, never produced, refused, too large; numbers that name no handle. -/
def hnd (r : Option Nat) : Handle :=
  { seq := 3, tag := 9, name := { ns := 0, key := 4, iter := 0 }, dest := [piece (.home 0x20000)], base := 0x20000, cap := 16, result := r }
def ch (v : Nat) (r : Option Nat) : Crew := { cs [(8, BitVec.ofNat 64 v)] with handles := [(15, hnd r)] }
theorem test_hyp_ClaimInstructions_handles : ∀ m ∈ [Mn.clwait, .clwaitTest],
    (∀ r ∈ [none, some (1 + 2 ^ 32 * 16), some 2, some 3, some 4], let c := ch 63 r
      Meets (on c) m (form m) c p0 (some0 (on c) m (form m) c p0 ∧ operand64 c (form m).a = 63 ∧ Tab.find c.handles (63 % 16) = some (hnd r) ∧
        (hnd r).seq = 63 / 16 ∧ (hnd r).result = r)) ∧
    ∀ v ∈ [2 ^ 32 + 63, 79, 0], let c := ch v none
      Meets (on c) m (form m) c p0 (2 ^ 32 ≤ operand64 c (form m).a ∨ ∀ h ∈ Tab.find c.handles (operand64 c (form m).a % 16), h.seq ≠ operand64 c (form m).a / 16) := by
  intro m hm
  fin_cases hm <;> refine ⟨?_, ?_⟩ <;> intro r hr <;> fin_cases hr <;> exact meets (by decide +kernel) (by decide +kernel)

/-- Keepers. A name of keeper 0 and of keeper 3; an entry with a requester behind link 2, or a crew; a tile in the stockpile. -/
def na : TileName := { ns := 0, key := 4, iter := 0 }
def nb : TileName := { ns := 0, key := 2 ^ 32 + 2, iter := 5 }
def cle (st : ClaimSt) (hop : Option Nat) : ClaimEntry := { name := na, st := st, reqs := [6], hop := hop, sent := if hop.isSome then 50 else 0, data := [] }
def pl (r : Requester) : Table ReqRec := [(6, { from_ := r, expiry := 50, started := false })]
def tile (n : Nat) (x : Bool) : StockTile := { name := na, data := List.replicate 16 1, retain := 50, taken := 0, expired := x, readers := n }
def kj (d : Jd) (n : Nat) : State := { on (ch 63 none) with jds := [(0, d)], now := n, links := [(2, { Link.reset with state := 2 })], mod :=
  { s0.mod with names := [(0, { key := 4, ns := 0, valid := true, len := 0, loc := false, link := 2 })] } }
def jw (st : ClaimSt) (hop : Option Nat) (r : Requester) : Jd := { Jd.reset with claims := [(1, cle st hop)], pool := pl r }
def js (n : Nat) (x : Bool) : Jd := { Jd.reset with stock := [(1, tile n x)] }
theorem test_hyp_KeepersServeNamesAndStockTiles_arrive : keeperNo na = 0 ∧ keeperNo nb = 3 ∧
    ((50 ≤ (kj Jd.reset 50).now) ∧ ((kj Jd.reset 50).jd 0).pending na = none) ∧
    ((kj (js 0 false) 0).now < 50 ∧ ((kj (js 0 false) 0).jd 0).stocked na 0 = some (1, tile 0 false) ∧ (js 0 false).stocked na 50 = none) ∧
    (∀ q ∈ [(ClaimSt.waiting, none), (.forwarded, some 2)], let d := jw q.1 q.2 (.link 2)
      d.stocked na 0 = none ∧ d.pending na = some (1, cle q.1 q.2) ∧ d.linkRec (cle q.1 q.2) (.link 3) = none ∧ d.linkRec (cle q.1 q.2) (.crew 0 1 15 3) = none ∧
        d.pool.length < 65536 ∧ (kj d 0).now < 51 ∧ ((cle q.1 q.2).sent < 51)) ∧
    (let s := kj Jd.reset 0
     s.jd 0 = Jd.reset ∧ Jd.reset.stocked na 0 = none ∧ Jd.reset.pending na = none ∧ s.hopOf na = some 2 ∧ s.linkUp 2 = true ∧
       ({ s with mod := s0.mod } : State).hopOf na = none) := by decide +kernel
theorem test_hyp_KeepersServeNamesAndStockTiles_tile : (kj Jd.reset 0).jd 0 = Jd.reset ∧ Jd.reset.pending na = none ∧
    (let d := jw .waiting none (.link 2); d.pending na = some (1, cle .waiting none) ∧ ∀ r ∈ (cle .waiting none).reqs, Tab.find d.pool r =
      some { from_ := .link 2, expiry := 50, started := false }) ∧
    (let d := jw .waiting none (.crew 0 (ch 63 none).inst 15 3)
     let s := kj d 0
     (cle .waiting none).reqs = [6] ∧ Tab.find d.pool 6 = some { from_ := .crew 0 (ch 63 none).inst 15 3, expiry := 50, started := false } ∧ s.now < 50 ∧
       s.handleOf 0 (ch 63 none).inst 15 3 = some (ch 63 none, hnd none) ∧ (List.replicate 16 (1 : Byte)).length ≤ (hnd none).cap) := by decide +kernel
def dlv : EngOp := { eop (.home 0x20000) (.home 0x20000) with left := [], segs := [] }
theorem test_hyp_KeepersServeNamesAndStockTiles_ends : ∀ n ∈ [0, 7], let c := ch 63 none
    let d := { Jd.reset with deliv := [(4, { crew := 0, inst := c.inst, handle := 15, seq := 3, size := 16 })] }
    let s := { kj d 0 with engines := [(4, { dlv with refused := n })] }
    Tab.find (s.jd 0).deliv 4 = some { crew := 0, inst := c.inst, handle := 15, seq := 3, size := 16 } ∧ Tab.find s.engines 4 = some { dlv with refused := n } ∧
      dlv.left = [] ∧ dlv.far = [] ∧ dlv.gwctFab ≤ s.now ∧ s.crew? 0 = some c ∧ c.openHandle c.inst 15 3 = some (hnd none) ∧
      (∀ e ∈ c.splits, e.2.wait = .none) ∧ Tab.sorted c.handles = true ∧ (s.teamCores c.team).Nodup := by
  intro n hn
  fin_cases hn <;> decide +kernel
theorem test_hyp_KeepersServeNamesAndStockTiles_expiries : (∀ q ∈ [(ClaimSt.waiting, none), (.forwarded, some 2)], let d := jw q.1 q.2 (.link 3)
      (kj d 50).jd 0 = d ∧ Tab.find d.claims 1 = some (cle q.1 q.2) ∧ Tab.find d.pool 6 = some { from_ := .link 3, expiry := 50, started := false } ∧
        q.1 ≠ .delivering ∧ 6 ∈ (cle q.1 q.2).reqs ∧ 50 ≤ (kj d 50).now) ∧
    (let d := jw .forwarded (some 2) (.link 3)
     d.pending na = some (1, cle .forwarded (some 2)) ∧ (kj d 0).linkUp 2 = true ∧ (49 < d.latest (cle .forwarded (some 2)) ∧ d.latest (cle .forwarded (some 2)) ≤ 50) ∧
       d.linkRec (cle .forwarded (some 2)) (.link 3) = some 6) ∧
    (∀ n : Fin 2, Tab.find (js 0 false).stock 1 = some (tile 0 false) ∧ (tile 0 false).retain ≤ (kj (js 0 false) 50).now ∧ (js n (n = 1)).stock =
      [(1, tile n (n = 1))]) ∧
    (Tab.find (jw .delivering none (.link 3)).claims 1 = some (cle .delivering none)) ∧ (tile 1 true).readers ≠ 0 := by decide +kernel
/-- An announcement whose source lies in scratch; retained and not; beside a tile of the same name. -/
def anOp : EngOp := { eop (.scratch 0 0) (.scratch 0 0) with segs := [{ src := [piece (.scratch 0 0)], dst := [], sbase := 0, dbase := 0, len := 16 }] }
def anc (n : Nat) : Announce := { crew := 0, inst := c0.inst, team := 0, ctx := 4095, name := na, retain := n, supersede := false, after := 4 }
def ann (d : Jd) (n : Nat) : State := { kj d 0 with announces := [(4, anc n)], engines := [(4, anOp)] }
theorem test_hyp_KeepersServeNamesAndStockTiles_announce : ∀ d ∈ [Jd.reset, js 0 false], ∀ n ∈ [0, 1], let s := ann d n
    ∃ e', s.jd 0 = d ∧ Tab.find s.announces 4 = some (anc n) ∧ Tab.find s.engines 4 = some anOp ∧ anOp.refused = 0 ∧ keeperNo (anc n).name = 0 ∧ s.passes = [] ∧
      (∃ c, s.crew? 0 = some c ∧ c.storeq = [] ∧ c.sent = []) ∧
      announceRead (Go.start s) 4 anOp { src := [piece (.scratch 0 0)], dst := [], sbase := 0, dbase := 0, len := 16 } = (some e', Go.start s) ∧
      (s.teamCores 0).Nodup := by
  intro d hd n hn
  fin_cases hd <;> fin_cases hn <;>
    exact ⟨_, by decide +kernel, by decide +kernel, by decide +kernel, rfl, by decide +kernel, rfl, ⟨_, by rfl, by decide +kernel, by decide +kernel⟩, by rfl, by decide +kernel⟩

/-! ### Hypotheses of the statements on spawning, retirement and the privileged instructions -/

def kdU : Kd := { placedKd with uclass := true }
def obU : Obj := { ob0 with kernels := [kdU, { kdU with gang := 2 }, { kdU with gang := 13 }] }
/-- A spawn record at 0x20000: kernel and number of teams, argument 5. -/
def sr (kn n : Nat) : State :=
  let s := on (ca 0x20000)
  { s with mem := placeBytes s.mem 0x20000 (leBytes (kn + 2 ^ 32 * n + 2 ^ 128 * 5) 24), objs := [(0, obU)], now := 1 }
def srF : Fields := { form .spawn with a := S 8 }
/-- No such kernel; no team; teams of a plain kernel; two gangs of two; a gang too large, status 1; a number that is no multiple, status 3. -/
theorem test_hyp_SpawnsAndLaunchesCount_spawn : ∀ q ∈ [(3, 1, none), (0, 0, some 0), (0, 3, some 0), (1, 4, some 0), (2, 13, some 1), (1, 3, some 3)],
    let s := sr q.1 q.2.1
    let c := ca 0x20000
    let v := leNat ((List.range 32).map fun j => s.byte (0x20000 + j))
    Meets s .spawn srF c m1 (some0 s .spawn srF c m1 ∧ s.team? c.team = some t0 ∧ fenceDone s 0 c 4 s.seq ∧ operand64 c srF.a = 0x20000 ∧
      s.UnitsAgree (coreUnits 0) c.ctx ∧ s.HomeAccess 0 c (spawnKind 32) 0x20000 0x20000 ∧ s.liveCopy 0 (0x20000 / 64) c.minGrant = none ∧ v / 2 ^ 192 = 0 ∧
      Tab.find s.launches t0.launch = some placedLaunch ∧ s.markedLost s.mod.modid = false ∧
      (s.kd? t0.object (v % 2 ^ 32)).map (fun kd => spawnCode s c.ctx kd (decide (2 ^ 40 ≤ placedLaunch.counter + v / 2 ^ 32 % 2 ^ 32)) (v / 2 ^ 32 % 2 ^ 32)) = q.2.2) := by
  unfold fenceDone
  intro q hq
  fin_cases hq <;> exact meets (by decide +kernel) ⟨by decide +kernel, by decide +kernel, by decide +kernel, by decide +kernel, units (by decide +kernel),
    access_at (by decide +kernel), by decide +kernel, by decide +kernel, by decide +kernel, by decide +kernel, by decide +kernel⟩
/-- A launch whose counter the new teams would take past its limit: status 2. -/
theorem test_hyp_SpawnsAndLaunchesCount_full : spawnCode (sr 0 3) 4095 kdU true 3 = 2 := by decide +kernel
/-- A crew whose GMOD has passed, alone at its slot and beside another that cannot issue. -/
theorem test_hyp_SpawnsAndLaunchesCount_gwct : let s := { on c0 with crews := [(0, c0), (1, { other with st := .stopped })], now := 1 }
    s.crew? 0 = some c0 ∧ c0.gmod < s.now ∧ s.agenda = [] ∧ ∀ e ∈ s.crews, e.1 ≠ 0 → e.1 / 8 = 0 / 8 → e.2.ready = true → s.teamRuns e.2 = false := by
  decide +kernel
/-- A crew that has drained, beside another and alone; its launch here and on module 1; a counter at its limit. -/
def cd : Crew := { c0 with st := .draining, splits := [] }
def lr (h : Option Nat) (rs : List (Int × Nat × List Nat)) : Launch := { placedLaunch with home := h, reports := rs }
def ln (l : Launch) : State := { withPeers (on cd) with launches := [(0, l)], now := 1 }
theorem test_hyp_SpawnsAndLaunchesCount_retire : ∀ h ∈ [none, some 1], let s := ln (lr h [])
    (s.crew? 0 = some cd ∧ crewDrained s 0 cd = true ∧ s.team? cd.team = some t0 ∧ (∀ y ∈ t0.crews, y = 0) ∧ t0.gang = none ∧ Tab.find s.saved 0 = none ∧
      Tab.find s.launches t0.launch = some (lr h [])) ∧ (∃ y ∈ ({ t0 with crews := [0, 1] } : Team).crews, y ≠ 0) ∧ cd.gmod < s.now ∧ (lr none []).broken = false := by
  intro h hh
  fin_cases hh <;> decide +kernel
theorem test_hyp_SpawnsAndLaunchesCount_reports : (let s := ln (lr none []); Tab.find s.launches 0 = some (lr none []) ∧ 1 ≠ s.mod.modid) ∧
    (∀ r ∈ [((1 : Int), 0, [1]), (-1, 0, [])], let s := ln (lr (some 1) [r])
      Tab.find s.launches 0 = some (lr (some 1) [r]) ∧ (0 < r.1 ∨ max r.2.1 (lr (some 1) [r]).gwct < s.now ∧ s.orphaned 0 = false) ∧ (peerIsLost (Go.start s) 1).1 = false) := by
  refine ⟨by decide +kernel, ?_⟩
  intro r hr
  fin_cases hr <;> decide +kernel
theorem test_hyp_SpawnsAndLaunchesCount_complete : ∀ d ∈ [(0 : Word), 0x20000], let l := { placedLaunch with counter := 0, done := d, gwct := 0 }
    let s := ln l
    Tab.find s.launches 0 = some l ∧ l.home = none ∧ l.broken = false ∧ l.gwct < s.now ∧ s.orphaned 0 = false ∧ Tab.sorted s.queues = true ∧
      Tab.find s.engines (doneKey 0) = none ∧ (d ≠ 0 → s.HomeAt l.ctx l.done.toNat 4 true false 0x20000) := by
  intro d hd
  fin_cases hd
  · exact ⟨by decide +kernel, rfl, rfl, by decide +kernel, by decide +kernel, by decide +kernel, by decide +kernel, fun h => absurd rfl h⟩
  · exact ⟨by decide +kernel, rfl, rfl, by decide +kernel, by decide +kernel, by decide +kernel, by decide +kernel, fun _ => home_at (by decide +kernel)⟩

/-! A crew of context 1, a service context of partition 0, beside one of the module service context; context 2 does not exist. -/

def a32 (n : Nat) : Crew := cs [(8, BitVec.ofNat 64 n)]
def in1 (c : Crew) : State :=
  { on { c with ctx := 1 } with ctxs := [(1, { placedCtx Ctx.reset with part := 0 }), (4095, placedCtx (s0.ctx 4095))], teams := [(0, { t0 with ctx := 1 })] }
def c1x (c : Crew) : Crew := { c with ctx := 1 }
/-- No register; misaligned; out of reach; read, and written. -/
theorem test_hyp_PrivilegedInstructions_registers : ∀ m ∈ [Mn.rdpr, .wrpr],
    (let c := a32 (13 * 2 ^ 24); Meets (on c) m (form m) c p0 (some0 (on c) m (form m) c p0 ∧ regAt (operand32 c 0 (form m).a 0) = none)) ∧
    (let c := a32 (3 * 2 ^ 24 + 0x529); Meets (on c) m (form m) c p0 (regAt (operand32 c 0 (form m).a 0) = some (.ctx 5 5) ∧ operand32 c 0 (form m).a 0 % 8 ≠ 0)) ∧
    (let c := c1x (a32 (3 * 2 ^ 24 + 0x528)); Meets (in1 c) m (form m) c p0 (regAt (operand32 c 0 (form m).a 0) = some (.ctx 5 5) ∧
      (in1 c).ctxReaches c.ctx (m == .wrpr) (.ctx 5 5) = false)) ∧
    (let c := a32 (3 * 2 ^ 24 + 0x528); Meets (on c) m (form m) c p0 (operand32 c 0 (form m).a 0 % 8 = 0 ∧ (on c).ctxReaches c.ctx (m == .wrpr) (.ctx 5 5) = true ∧
      (regStore (Go.start (on c)) (isService c.ctx) (.ctx 5 5) (BitVec.ofNat 64 (operandVal c 0 .b64 false (form m).d 0))).st.crew? 0 = some c ∧
      (regStore (Go.start (on c)) (isService c.ctx) (.ctx 5 5) (BitVec.ofNat 64 (operandVal c 0 .b64 false (form m).d 0))).st.teams = (on c).teams)) := by
  intro m hm
  fin_cases hm <;> exact ⟨meets (by decide +kernel) (by decide +kernel), meets (by decide +kernel) (by decide +kernel), meets (by decide +kernel) (by decide +kernel),
    meets (by decide +kernel) (by decide +kernel)⟩
/-- `eret`: out of scope; no such crew; one that runs; a context fault; a stopped crew, one split of which faulted. -/
def er (n : BitVec 15) : Fields := { form .eret with b := I n }
def fs1 : Split := { p0 with st := .stopped, faulted := true, trapped := true }
def dn (st : CrewSt) : Crew := { one other fs1 with st := st }
def at1 : Nat := crewId 4095 1
def beside (d : Crew) (n : BitVec 3) : State :=
  { on (a32 at1) with crews := [(0, a32 at1), (1, d)], ctxs := [(4095, { placedCtx (s0.ctx 4095) with state := n })] }
theorem test_hyp_PrivilegedInstructions_eret : (let c := c1x (a32 (2 * 2 ^ 20)); Meets (in1 c) .eret (er 0) c p0 (((in1 c).ctx 2).state = 0 ∧ (in1 c).crewOfId (2 * 2 ^ 20) = none)) ∧
    (let c := c1x (a32 (4095 * 2 ^ 20)); Meets (in1 c) .eret (er 0) c p0 (((in1 c).ctx 4095).state ≠ 0 ∧ (in1 c).ctxInScope c.ctx 4095 = false)) ∧
    (let c := a32 at1; Meets (on c) .eret (er 0) c p0 ((on c).ctxInScope c.ctx 4095 = true ∧ (on c).crewOfId at1 = none ∧ operand32 c 0 (er 0).a 0 = at1)) ∧
    (∀ a ∈ [(0 : BitVec 15), 1, 2], ∀ q ∈ [(CrewSt.running, (1 : BitVec 3)), (.stopped, 2), (.stopped, 1)], let s := beside (dn q.1) q.2
      Meets s .eret (er a) (a32 at1) p0 (s.crewOfId at1 = some (1, dn q.1) ∧ s.crew? 1 = some (dn q.1) ∧ (dn q.1).st = q.1 ∧ (s.ctx (dn q.1).ctx).state = q.2 ∧
        s.tileReqs = [] ∧ (∀ e ∈ (dn q.1).splits, e.2.st = .stopped ∧ e.2.faulted = true) ∧ operand64 (a32 at1) (er a).b = a.toNat)) := by
  refine ⟨meets (by decide +kernel) (by decide +kernel), meets (by decide +kernel) (by decide +kernel), meets (by decide +kernel) (by decide +kernel), ?_⟩
  intro a ha q hq
  fin_cases ha <;> fin_cases hq <;> exact meets (by decide +kernel) (by decide +kernel)
/-- `tinv`: an address that is no canonical one; contexts out of scope and in scope; a fence done, and an operation that uses a translation. -/
def tc (a b : Nat) : Crew := cs [(8, BitVec.ofNat 64 a), (9, BitVec.ofNat 64 b)]
def ti (m : Mn) : Fields := { form m with a := if m = .tinvPage then S 8 else N, b := if m = .tinvPart then N else S 9 }
theorem test_hyp_PrivilegedInstructions_tinv :
    (let c := tc (2 ^ 56) 4095; Meets (on c) .tinvPage (ti .tinvPage) c p0 (operand64 c (ti .tinvPage).a / 2 ^ 56 % 16 ≠ 0)) ∧
    (∀ m ∈ [Mn.tinvPage, .tinvCtx], let c := c1x (tc 0x20000 2); Meets (in1 c) m (ti m) c p0 (operand64 c (ti m).b = 2 ∧ (in1 c).ctxInScope c.ctx 2 = false)) ∧
    (∀ m ∈ [Mn.tinvPage, .tinvCtx, .tinvPart], ∀ l ∈ [[], [ld0]], let c := { tc 0x20000 4095 with loadq := l }
      let s := { on c with now := 1 }
      Meets s m (ti m) c p0 (some0 s m (ti m) c p0 ∧ (l = [] → fenceDone s 0 c 4 s.seq) ∧ s.ctxInScope c.ctx 4095 = true ∧ Tab.sorted s.tlbs = true ∧
        s.tinvReady s.seq (if m = .tinvPart then 8192 else 4095) = l.isEmpty)) := by
  unfold fenceDone
  refine ⟨meets (by decide +kernel) (by decide +kernel), ?_, ?_⟩
  · intro m hm; fin_cases hm <;> exact meets (by decide +kernel) (by decide +kernel)
  · intro m hm l hl; fin_cases hm <;> fin_cases hl <;> exact meets (by decide +kernel) (by decide +kernel)
/-- A `tinv` that waits: the fence holds only what came before it, so a load of another crew keeps it waiting. -/
theorem test_hyp_PrivilegedInstructions_tinv_waits : let c := tc 0x20000 4095
    let s := { on c with crews := [(0, c), (1, { other with loadq := [ld0] })], now := 1 }
    Meets s .tinvCtx (ti .tinvCtx) c p0 (fenceDone s 0 c 4 s.seq ∧ s.tinvReady s.seq 4095 = false) := by
  unfold fenceDone
  exact meets (by decide +kernel) (by decide +kernel)
/-- `csave` and `crest`: misaligned; out of scope; no such crew; a crew that drains or runs; a stopped one, with an image at 0x20000 that is bad, and one that is not. -/
def ci (a : Nat) : Crew := cs [(8, BitVec.ofNat 64 at1), (9, BitVec.ofNat 64 a)]
def im (m : Mn) : Fields := { form m with d := S 12, a := S 8, b := S 9 }
def si (d : Crew) (bs : List Byte) : State :=
  let s := on (ci 0x20000)
  { s with crews := [(0, ci 0x20000), (1, d)], mem := placeBytes s.mem 0x20000 bs }
theorem test_hyp_PrivilegedInstructions_images : ∀ m ∈ [Mn.csave, .crest],
    (let c := ci 0x20020; Meets (on c) m (im m) c p0 (operand64 c (im m).b % 64 ≠ 0)) ∧
    (let c := c1x (cs [(8, 2 * 2 ^ 20), (9, 0x20000)]); Meets (in1 c) m (im m) c p0 (operand64 c (im m).b % 64 = 0 ∧ (in1 c).ctxInScope c.ctx (operand32 c 0 (im m).a 0 / 2 ^ 20) = false)) ∧
    (let c := ci 0x20000; Meets (on c) m (im m) c p0 ((on c).crewOfId at1 = none)) ∧
    (∀ st ∈ [CrewSt.draining, .running, .stopped], let s := si (dn st) []
      Meets s m (im m) (ci 0x20000) p0 (s.crewOfId at1 = some (1, dn st) ∧ s.crew? 1 = some (dn st) ∧ s.UnitsAgree (coreUnits 0) (ci 0x20000).ctx ∧
        s.HomeRange 4095 0x20000 (imageSize (dn st)) (m == .csave) (s.dclass (ci 0x20000)) (inHome 0x20000 12288) ∧
        s.rangeClash 0 true 4095 0 0x20000 12288 (m == .csave) = false ∧ s.saveReady (dn st) = true ∧ s.team? (dn st).team = some t0 ∧
        t0.leaving = false ∧ (ci 0x20000).storeq = [])) := by
  intro m hm
  fin_cases hm <;> refine ⟨meets (by decide +kernel) (by decide +kernel), meets (by decide +kernel) (by decide +kernel), meets (by decide +kernel) (by decide +kernel), ?_⟩ <;>
    intro st hst <;> fin_cases hst <;> exact meets (by decide +kernel) ⟨by decide +kernel, by decide +kernel, units (by decide +kernel),
      home_range (by decide +kernel), by decide +kernel, by decide +kernel, by decide +kernel, rfl, rfl⟩
theorem test_image_cells_nodup : homeRuns (inHome 0x20000 12288) = [(0x20000, 12288)] ∧ (runCells [(0x20000, 12288)]).Nodup := by
  refine ⟨rfl, ?_⟩
  simp only [runCells, List.map_cons, List.map_nil, List.flatten_cons, List.flatten_nil, List.append_nil]
  exact List.nodup_range.map (fun _ _ h => by omega)
theorem test_hyp_PrivilegedInstructions_halt : ∀ w ∈ [true, false], let s := { s0 with ctxs := [(4095, { s0.ctx 4095 with wake := w })] }
    Meets s .halt (form .halt) c0 p0 (some0 s .halt (form .halt) c0 p0 ∧ (s.ctx c0.ctx).wake = w) := by
  intro w h
  fin_cases h <;> exact meets (by decide +kernel) (by decide +kernel)
/-- An image that `crest` takes, of a crew with a window of 16 rows, all of whose registers and splits are empty; and one with a reserved bit. -/
def dn16 : Crew := { dn .stopped with wrows := 16 }
def image16 : List Byte := List.replicate 8 0 ++ leBytes 1 4 ++ leBytes at1 4 ++ [1, 0, 16, 0]
/-- A range read in rows of 64, which the kernel evaluates without a deep recursion. -/
theorem range_rows {α : Type} (g : Nat → α) (m : Nat) :
    (List.range (64 * m)).map g = ((List.range m).map fun i => (List.range 64).map fun j => g (64 * i + j)).flatten := by
  induction m with
  | zero => rfl
  | succ m ih =>
    rw [show 64 * (m + 1) = 64 * m + 64 by omega, List.range_add, List.map_append, ih, List.map_map, List.range_succ (n := m),
      List.map_append, List.flatten_append, List.map_singleton, List.flatten_singleton]
    rfl
theorem runsHold_rows (s : State) (h m : Nat) :
    runsHold s [(h, 64 * m)] = ((List.range m).map fun i => (List.range 64).map fun j => s.byte (h + (64 * i + j))).flatten := by
  simpa [runsHold] using range_rows (fun j => s.byte (h + j)) m
theorem test_hyp_PrivilegedInstructions_good_image : imageSize dn16 = 6144 ∧ homeRuns (inHome 0x20000 6144) = [(0x20000, 64 * 96)] ∧
    imageBad dn16 1 (runsHold (si dn16 image16) [(0x20000, 64 * 96)]) = false := by
  refine ⟨rfl, rfl, ?_⟩
  rw [runsHold_rows]
  decide +kernel
theorem test_hyp_PrivilegedInstructions_bad_image :
    imageBad dn16 1 (runsHold (si dn16 (image16 ++ List.replicate 12 0 ++ [1])) [(0x20000, 64 * 96)]) = true := by
  rw [runsHold_rows]
  decide +kernel

/-! ### Hypotheses of the statements on winches -/

/-- Winch 0, context 0 at PC 10 of the range 5 to 20; `h1` an address, `h2` a number. -/
def w0 (a : Nat) : Wctx :=
  { Wctx.reset with state := 2, lo := 5, hi := 20, pc := 10, tid := 4095, h := [(1, BitVec.ofNat 64 a), (2, 1)] }
def sw (v : Wctx) : State :=
  { (State.reset.withWinchWord 0).take (.winch 0 0) true with wctxs := [(0, v)], links := [(0, { Link.reset with state := 2, credits := [(0, 64)] })] }
def wf0 : WFields := { hd := 0, ha := 0, hb := 0, modf := 0, cty := 0, cop := 0, imm := 0 }
def allOps : List Nat := (List.range 20).map (· + 1)
/-- Each instruction in a form that is legal and in one that is not. -/
def badW (op : Nat) : WFields := { wf0 with hb := if op = 6 ∨ op = 7 ∨ op = 11 ∨ op = 12 ∨ op = 15 then 1 else 0, modf := if op = 14 then 2 else 0
                                            imm := if op = 1 ∨ op = 4 ∨ op = 5 then 32 else 1, hd := if op = 9 ∨ op = 10 ∨ op = 17 then 1 else 0
                                            ha := if op = 8 then 1 else 0, cty := if op = 16 then 1 else 0 }
theorem test_hyp_WinchRegisterInstructions : (sw (w0 0x20000)).winchIssuer = some (0, 0, w0 0x20000) ∧ ∀ op ∈ allOps, winchOk op wf0 = true ∧ winchOk op (badW op) = false := by
  decide +kernel
def chkWord (v : Wctx) (f : WFields) (n : Nat) (write : Bool) : Option Nat :=
  match (winchWord (Go.start (sw v)) 0 v ((v.hreg f.ha + (if n = 8 then (f.imm.signExtend 64).toNat else 0)) % 2 ^ 64) n write).1 with
  | .ok b => some b
  | .error e => some (2 ^ 60 + e.cause)
/-- `ldh`: a word; a misaligned one, cause 4; a poisoned one. -/
theorem test_hyp_WinchRegisterInstructions_ldh : (sw (w0 0x20000)).winchIssuer = some (0, 0, w0 0x20000) ∧ winchOk 16 { wf0 with ha := 1 } = true ∧
    chkWord (w0 0x20000) { wf0 with ha := 1 } 8 false = some 0x20000 ∧ chkWord (w0 0x20004) { wf0 with ha := 1 } 8 false = some (2 ^ 60 + 4) ∧
    chkWord (w0 0x20004) { wf0 with ha := 1, imm := -4 } 8 false = some 0x20000 ∧ (sw (w0 0x20000)).poisoned 0x20000 8 = false ∧
    ({ sw (w0 0x20000) with poison := [(0x20000, ())] } : State).winchIssuer = some (0, 0, w0 0x20000) := by decide +kernel
theorem test_hyp_WinchRegisterInstructions_ldh_home : (sw (w0 0x20000)).UnitsAgree (jdUnits 0) 4095 ∧
    (sw (w0 0x20000)).HomeAt 4095 0x20000 8 false false 0x20000 ∧ (sw (w0 0x20000)).poisoned 0x20000 8 = false ∧
    (let s : State := { sw (w0 0x20000) with poison := [(0x20000, ())] }
     s.UnitsAgree (jdUnits 0) 4095 ∧ s.HomeAt 4095 0x20000 8 false false 0x20000 ∧ s.poisoned 0x20000 8 = true) :=
  ⟨units (by decide +kernel), home_at (by decide +kernel), by decide +kernel, units (by decide +kernel), home_at (by decide +kernel), by decide +kernel⟩
/-- `loop`, `bra`, `brc`: targets at the ends of the range and past them; `h2` at 1, where `loop` is not taken. -/
theorem test_hyp_WinchRegisterInstructions_branches : ∀ q ∈ [((-6 : Int), true), (9, true), (-7, false), (10, false)],
    (5 ≤ ((w0 0).pc.toNat : Int) + 1 + q.1 ∧ ((w0 0).pc.toNat : Int) + 1 + q.1 ≤ 20 ↔ q.2 = true) ∧ (BitVec.ofInt 32 q.1).toInt = q.1 ∧
      ((w0 0).hreg 2 + 2 ^ 64 - 1) % 2 ^ 64 = 0 ∧ ((w0 0).hreg 3 + 2 ^ 64 - 1) % 2 ^ 64 ≠ 0 := by decide +kernel
/-- `halt`: no set runs; the last context of a set that module 3 started. -/
def ws0 (o : Option Nat) (ps : List Nat) : WinchSet := { ctx := 4095, set := 0, peers := ps, origin := o, tag := 9, queue := none }
theorem test_hyp_WinchRegisterInstructions_halt : (sw (w0 0)).wsets = [] ∧ (let s := { sw (w0 0) with wsets := [ws0 (some 3) []] }
    s.winchIssuer = some (0, 0, w0 0) ∧ (ws0 (some 3) []).origin = some 3 ∧
      ({ s with wctxs := [(0, { w0 0 with state := 5 })] } : State).setBusy 4095 0 = false) := by decide +kernel

/-- `xmit`: no credit; a misaligned range; a link that is down; a link that is up. The chunk instructions: no chunk; no credit; a chunk of another size; a range that
is misaligned; one to take. -/
def rangeIs (v : Wctx) (write : Bool) : Option (List (Nat × Nat)) :=
  match (chunkRange (Go.start (sw v)) 0 v (v.hreg 1) write).1 with
  | .ok rs => some rs
  | .error _ => none
def rx64 (n : Nat) (v : Wctx) : Wctx := { v with rx := [(n, List.replicate 64 3)] }
theorem test_hyp_WinchChunksAndFlags : (∀ op ∈ [1, 2, 3, 4], winchOk op { wf0 with ha := 1 } = true) ∧ winchOk 5 wf0 = true ∧
    (∀ q ∈ [(w0 0x20000, some [(0x20000, 64)]), (w0 0x20020, none), (rx64 6 (w0 0x20000), some [(0x20000, 64)]), (rx64 7 (w0 0x20000), some [(0x20000, 64)])],
      (sw q.1).winchIssuer = some (0, 0, q.1) ∧ rangeIs q.1 false = q.2 ∧ rangeIs q.1 true = q.2) ∧
    (let s := sw (w0 0x20000); 2 ^ (w0 0x20000).cs.toNat ≤ Tab.get 0 (s.link 0).credits 0 ∧ s.linkUp 0 = true ∧ s.runPoison [(0x20000, 64)] = false ∧
      (runsHold s [(0x20000, 64)]).length = 64 ∧ (runCells [(0x20000, 64)]).Nodup ∧ 6 ≤ (w0 0x20000).cs.toNat ∧ Tab.get 0 (s.link 0).credits 1 < 64 ∧
      s.linkUp 3 = false) := by decide +kernel
theorem test_hyp_WinchChunksAndFlags_chunk : ∀ b ∈ [true, false], (sw (w0 0x20000)).ChunkAt 0 (w0 0x20000) 0x20000 64 b (inHome 0x20000 64) ∧
    homeRuns (inHome 0x20000 64) = [(0x20000, 64)] ∧
    (let s : State := { sw (w0 0x20000) with poison := [(0x20000, ())] }
     s.winchIssuer = some (0, 0, w0 0x20000) ∧ s.ChunkAt 0 (w0 0x20000) 0x20000 64 b (inHome 0x20000 64) ∧ s.runPoison [(0x20000, 64)] = true) := by
  intro b h
  fin_cases h <;> exact ⟨⟨rfl, units (by decide +kernel), home_range (by decide +kernel)⟩, rfl, by decide +kernel,
    ⟨rfl, units (by decide +kernel), home_range (by decide +kernel)⟩, by decide +kernel⟩
/-- `waitf` and `sigf`: every condition, holding and not, of a word 0; a misaligned word; a completion time that is not past. -/
theorem test_hyp_WinchChunksAndFlags_flags : (∀ q ∈ [((0 : BitVec 4), 0), (0, 1), (1, 1), (1, 0), (2, 0), (2, 1), (3, 1), (3, 0)],
      winchOk 6 { wf0 with ha := 1, modf := q.1, imm := BitVec.ofNat 32 q.2 } = true) ∧ winchOk 7 { wf0 with ha := 1, imm := 5 } = true ∧
    winchOk 7 { wf0 with ha := 1, modf := 1, imm := 5 } = true ∧
    (∀ b ∈ [true, false], chkWord (w0 0x20000) { wf0 with ha := 1 } 4 b = some 0x20000 ∧ chkWord (w0 0x20002) { wf0 with ha := 1 } 4 b = some (2 ^ 60 + 4)) ∧
    leNat ((List.range 4).map fun j => (sw (w0 0x20000)).byte (0x20000 + j)) = 0 ∧ (sw (w0 0x20000)).poisoned 0x20000 4 = false ∧
    (w0 0x20000).sigf ≤ (sw (w0 0x20000)).now ∧ (sw { w0 0x20000 with sigf := 9 }).now < 9 := by
  refine ⟨?_, by decide +kernel⟩
  intro q hq
  fin_cases hq <;> decide +kernel
theorem test_hyp_WinchChunksAndFlags_words : ∀ b ∈ [true, false], (sw (w0 0x20000)).UnitsAgree (jdUnits 0) 4095 ∧
    (sw (w0 0x20000)).HomeAt 4095 0x20000 4 b false 0x20000 ∧ (sw { w0 0x20000 with sigf := 9 }).HomeAt 4095 0x20000 4 b false 0x20000 := by
  intro b h
  fin_cases h <;> exact ⟨units (by decide +kernel), home_at (by decide +kernel), home_at (by decide +kernel)⟩
/-- `wstart`: a number past 255; a set in use; one that is not loaded; one with a range to receive at 0x20000 and a peer, its entry at 0x40000. -/
def setBytes : List Byte := leBytes (1 + 2 ^ 64 + 2 ^ 112 + 2 ^ 128 * 0x40100 + 2 ^ 192 * 0x40200) 32
def wl (n : BitVec 3) : Wctx := { w0 0 with state := n }
def stt (n : BitVec 3) (bs : List Byte) (c : Crew) : State :=
  let s := on c
  { s with mem := placeBytes (placeBytes (placeBytes s.mem 0x40000 bs) 0x40100 (leBytes 3 4)) 0x40200 (leBytes (0x20000 + 2 ^ 64 * 64 + 2 ^ 96) 16)
           ctxs := [(4095, { placedCtx (s0.ctx 4095) with wsetBase := 0x40000 })], wctxs := [(0, wl n)], now := 1 }
def wst : Fields := { form .wstart with d := S 12, a := S 8, b := N }
theorem setLoaded_of {s : State} {v : Wctx} (h : Tab.find s.wctxs 0 = some v) (t : v.tid.toNat = 4095) (n : v.set.toNat = 0) (e : v.state = 1 ∨ v.state = 5) :
    setLoaded s 4095 0 := ⟨0, v, h, t, n, e⟩
/-- What a translation answers. -/
def walked : Trans → Option (Option (Nat × Option Nat))
  | .ok e size => some (some (size, match leafLoc e size 0x20000 with
    | .home k => some k
    | _ => none))
  | .absent _ => some none
  | .bad => none
/-- The set's entry is read, its range and its peer; an entry on a page that is not mapped. -/
theorem that_set {s : State} (h : rangeB s 4095 ((s.ctx 4095).wsetBase.toNat + 32 * 0) 32 false false (inHome 0x40000 32) = true)
    (e : leNat (runsHold s (homeRuns (inHome 0x40000 32))) = leNat setBytes)
    (r : rangeB s 4095 0x40200 16 false false (inHome 0x40200 16) = true) (p : rangeB s 4095 0x40100 4 false false (inHome 0x40100 4) = true)
    (er : leNat (runsHold s (homeRuns (inHome 0x40200 16))) = 0x20000 + 2 ^ 64 * 64 + 2 ^ 96)
    (lr : (runsHold s (homeRuns (inHome 0x40200 16))).length = 16)
    (ep : runsHold s (homeRuns (inHome 0x40100 4)) = [3, 0, 0, 0]) (own : s.mod.modid = 0) :
    s.SetIs 4095 0 [{ base := 0x20000, len := 64, recv := true }] [3] := by
  refine ⟨inHome 0x40000 32, inHome 0x40200 16, inHome 0x40100 4, home_range h, ?_⟩
  rw [e]
  have n1 : leNat setBytes / 2 ^ 112 % 2 ^ 16 = 1 := by decide +kernel
  have n2 : leNat setBytes / 2 ^ 64 % 2 ^ 32 = 1 := by decide +kernel
  have n3 : leNat setBytes / 2 ^ 192 % 2 ^ 64 = 0x40200 := by decide +kernel
  have n4 : leNat setBytes / 2 ^ 128 % 2 ^ 64 = 0x40100 := by decide +kernel
  simp only [n1, n2, n3, n4]
  refine ⟨by decide +kernel, home_range r, home_range p, ?_, ?_⟩
  · simp only [List.range_one, List.map_cons, List.map_nil, Nat.mul_zero, List.drop_zero]
    rw [List.take_of_length_le (Nat.le_of_eq lr), er]
    decide +kernel
  · simp only [ep, own]
    decide +kernel
theorem no_table {s : State} {ctx set : Nat} (h : walked (s.walk ctx (((s.ctx ctx).wsetBase.toNat + 32 * set) % 2 ^ 56)) = some none) : ¬ s.SetTable ctx set := by
  rintro ⟨p, hr, _⟩
  cases p with
  | nil => simp [State.HomeRange] at hr
  | cons p ps =>
    obtain ⟨_, _, ⟨e, z, _, w, _⟩, _⟩ := hr
    rw [w] at h
    simp [walked] at h
theorem test_hyp_WinchSetsAndCommands_wstart :
    (let c := cs [(8, 256)]; Meets (on c) .wstart wst c p0 (255 < operand64 c wst.a)) ∧
    (∀ n ∈ [(2 : BitVec 3), 3, 4], Meets (stt n setBytes c0) .wstart wst c0 p0 (operand64 c0 wst.a < 256 ∧ (stt n setBytes c0).setBusy 4095 0 = true)) ∧
    (let s : State := { stt 1 [] c0 with ctxs := [(4095, { placedCtx (s0.ctx 4095) with wsetBase := 2 ^ 40 })] }
     Meets s .wstart wst c0 p0 (s.setBusy 4095 0 = false ∧ ¬ s.SetTable 4095 0)) ∧
    (∀ n ∈ [(1 : BitVec 3), 5], let s := stt n setBytes c0
      Meets s .wstart wst c0 p0 (some0 s .wstart wst c0 p0 ∧ s.setBusy 4095 0 = false ∧ s.SetIs 4095 0 [{ base := 0x20000, len := 64, recv := true }] [3] ∧
        fenceDone s 0 c0 5 s.seq ∧ s.UnitsAgree (coreUnits 0) 4095 ∧ s.HomeRange 4095 0x20000 64 true false (inHome 0x20000 64) ∧ s.wsets = [] ∧
        Tab.sorted s.wctxs = true ∧ setLoaded s 4095 0)) := by
  unfold fenceDone
  refine ⟨meets (by decide +kernel) (by decide +kernel), ?_, meets (by decide +kernel) ⟨by decide +kernel, no_table (by decide +kernel)⟩, ?_⟩
  · intro n hn; fin_cases hn <;> exact meets (by decide +kernel) (by decide +kernel)
  · intro n hn
    fin_cases hn <;> exact meets (by decide +kernel) ⟨by decide +kernel, by decide +kernel, that_set (by decide +kernel) (by decide +kernel) (by decide +kernel)
        (by decide +kernel) (by decide +kernel) (by decide +kernel) (by decide +kernel) rfl, by decide +kernel, units (by decide +kernel),
      home_range (by decide +kernel), by decide +kernel, by decide +kernel, setLoaded_of rfl (by decide +kernel) (by decide +kernel) (by decide +kernel)⟩
theorem test_hyp_WinchSetsAndCommands_start_flit : ∀ n ∈ [(1 : BitVec 3), 5], let s := stt n setBytes c0
    s.setBusy 4095 0 = false ∧ s.SetIs 4095 0 [{ base := 0x20000, len := 64, recv := true }] [3] ∧ s.wsets = [] ∧ Tab.sorted s.wctxs = true ∧ setLoaded s 4095 0 := by
  intro n hn
  fin_cases hn <;> exact ⟨by decide +kernel, that_set (by decide +kernel) (by decide +kernel) (by decide +kernel)
        (by decide +kernel) (by decide +kernel) (by decide +kernel) (by decide +kernel) rfl, by decide +kernel, by decide +kernel,
      setLoaded_of rfl (by decide +kernel) (by decide +kernel) (by decide +kernel)⟩
theorem test_hyp_WinchSetsAndCommands_flits : (stt 2 setBytes c0).setBusy 4095 0 = true ∧
    (∀ q ∈ [(ws0 none [3, 4], (5 : BitVec 3)), (ws0 none [3], 2), (ws0 none [3], 5)], let s := { stt q.2 setBytes c0 with wsets := [q.1] }
      q.1.ctx = 4095 ∧ q.1.set = 0 ∧ q.1.origin = none ∧ 3 ∈ q.1.peers ∧ q.1.queue = none ∧ Tab.sorted s.cores = true ∧
        (q.1.peers.filter (fun p => p != 3) ≠ [] ∨ s.setBusy 4095 0 = true ∨ s.setBusy 4095 0 = false)) := by decide +kernel
/-- The context events and commands, by WC.STATE. -/
theorem test_hyp_WinchSetsAndCommands_commands : (List.replicate 64 (3 : Byte)).length = 2 ^ 6 ∧
    (∀ n ∈ [(0 : BitVec 3), 1, 2, 3, 4, 5], let s := sw { w0 0 with state := n }
      (s.wctx 0 0).state = n ∧ (s.wctx 0 0).cmd = none ∧ s.wsets = [] ∧ (s.wctx 0 0).fcode = 0 ∧ Tab.sorted s.wctxs = true ∧ (s.wctx 0 0).set.toNat = 0 ∧
        Tab.get 0 s.wcur 0 = 0) ∧ 4096 ≤ ({ w0 0 with burst := 4096 } : Wctx).burst := by decide +kernel
/-- A `waitf` on the word at 0x20000, a word 0, that a context reads again; a context stopped by the fault of its `fwd`. -/
def wfi (n : Nat) : WFields := { wf0 with ha := 1, imm := BitVec.ofNat 32 n }
theorem test_hyp_WinchSetsAndCommands_reread : ∀ n ∈ [0, 1], let v := { w0 0x20000 with state := 3, wait := 3 }
    let s := { sw v with imem := [(10, BitVec.ofNat 64 (encodeWinch 6 (wfi n)))] }
    (s.wctx 0 0 = v ∧ decodeWinch (Tab.get 0 s.imem 10).toNat = .ok (.waitf (wfi n)) ∧ (s.poisoned 0x20000 4 = false)) ∧ s.UnitsAgree (jdUnits 0) 4095 ∧
      s.HomeAt 4095 0x20000 4 false false 0x20000 := by
  intro n hn
  fin_cases hn <;> exact ⟨by decide +kernel, units (by decide +kernel), home_at (by decide +kernel)⟩
theorem test_hyp_WinchSetsAndCommands_clear : let v := { rx64 6 (w0 0) with state := 4, fcode := 9 }
    let s := { sw v with imem := [(10, BitVec.ofNat 64 (encodeWinch 5 wf0))] }
    s.wctx 0 0 = v ∧ s.wsets = [] ∧ s.atChunk 0 v = true ∧ v.cmd = none ∧ v.rx = [(6, List.replicate 64 3)] := by decide +kernel

/-! ### Hypotheses of the statements on queues and packets -/

/-- Queue 0 of the module service context, mapped to slot 0, at its one packet; `n` is CTX.STATE. -/
def q0 : Queue := { Queue.reset with ctx := 4095, en := true, base := 0x10000, tail := 1, mapped := true, slot := 0 }
def sq (v : Queue) (n : BitVec 3) : State :=
  let s := (State.reset.withPacketBytes []).take (.queue 0) true
  { s with queues := [(0, v)], ctxs := [(4095, { placedCtx (s.ctx 4095) with state := n, wsetBase := 0x40000 })] }
def isBad (r : AgentRead) : Bool := match r with
  | .bad => true
  | _ => false
/-- A packet of an active context and of one with a context fault; outstanding packets; a stopped crew with an entry in the fault buffer. -/
def run1 : PktRun := { no := 0, launch := none, op := none, set := none, gwct := 0, signal := true, irq := true }
theorem test_hyp_PacketsIssueAndComplete : ∀ n ∈ [(1 : BitVec 3), 2], (sq q0 n).queueIssuer = some (0, q0) ∧ ((sq q0 n).ctx 4095).state = n ∧
    (let v := { q0 with runs := [run1] }; (sq v n).queueIssuer = some (0, v)) ∧
    (let s := { sq q0 n with crews := [(1, { dn .stopped with fb := true })] }
     s.queueIssuer = some (0, q0) ∧ (dn .stopped).ctx = 4095 ∧ (∀ e ∈ (dn .stopped).splits, e.2.st = .stopped ∧ e.2.faulted = true) ∧ s.saved = [] ∧ s.tileReqs = []) := by
  decide +kernel
/-- WAITV: a misaligned address; a page that is not mapped; each condition, holding and not, of a word 0. -/
def wv (c : FlagCond) (z : Bool) (a n : Nat) : WaitvPkt :=
  { cond := c, size := z, addr := BitVec.ofNat 64 a, value := BitVec.ofNat 64 n, mask := BitVec.allOnes 64 }
theorem test_hyp_PacketsIssueAndComplete_waitv : ∀ z ∈ [true, false], let n := if z then 8 else 4
    0x20002 % n ≠ 0 ∧ ((sq q0 1).HomeRange 4095 0x20000 n false false (inHome 0x20000 n) ∧ leNat (runsHold (sq q0 1) (homeRuns (inHome 0x20000 n))) = 0) ∧ isBad (agentRead (Go.start (sq q0 1)) (queueKey 0 2) 4095 (2 ^ 40) n).1 = true ∧
      (∀ q ∈ [(FlagCond.eq, 0, true), (.eq, 1, false), (.ne, 1, true), (.ne, 0, false), (.ge, 0, true), (.ge, 1, false), (.lt, 1, true), (.lt, 0, false)],
        waitvHolds (wv q.1 z 0x20000 q.2.1) 0 ↔ q.2.2 = true) := by
  unfold waitvHolds condHolds
  intro z hz
  fin_cases hz <;> refine ⟨by decide +kernel, ⟨home_range (by decide +kernel), by decide +kernel⟩, by decide +kernel, ?_⟩ <;> intro q hq <;> fin_cases hq <;> simp [wv]
def packetBits (i : Instr) : BitVec 512 := BitVec.ofNat 512 ((encodePacket i).getD 0)
theorem test_hyp_PacketsIssueAndComplete_reread : let p := wv .eq true 0x20000 0
    let w := packetBits (.waitv p)
    let v := { q0 with waiting := true, saved := some (1, w) }
    ((sq v 1).queueIssuer = some (0, v) ∧ decodePacket w.toNat = .ok (.waitv p) ∧ p.addr.toNat % 8 = 0 ∧ ((sq v 1).ctx 4095).state ≠ 2) ∧
      (sq v 1).HomeRange 4095 p.addr.toNat 8 false false (inHome 0x20000 8) ∧ waitvHolds p (leNat (runsHold (sq v 1) (homeRuns (inHome 0x20000 8)))) := by
  refine ⟨by decide +kernel, home_range (by decide +kernel), ?_⟩
  have e : ∀ w n, leNat (runsHold (sq { q0 with waiting := true, saved := some (1, w) } 1) (homeRuns (inHome 0x20000 n))) = leNat (runsHold (sq q0 1) (homeRuns (inHome 0x20000 n))) :=
    fun _ _ => rfl
  rw [e, show leNat (runsHold (sq q0 1) (homeRuns (inHome 0x20000 8))) = 0 by decide +kernel]
  simp [waitvHolds, condHolds, wv]
/-- LAUNCH: no such kernel; reserved bits in the parameter block, which is 0x40000; one that launches. -/
def sl (b : Nat) : State :=
  let s := sq q0 1
  { s with mem := placeBytes s.mem 0x40000 (leBytes b 64), objs := [(objKey 4095 7, ob0)] }
theorem test_hyp_PacketsIssueAndComplete_launch : ∀ q ∈ [(2 ^ 64 * 4096, true), (2 ^ 64 * 4096 + 2 ^ 112, false), (2 ^ 64 * 4095, false), (0, false)],
    (sl q.1).frontEnd < 4096 ∧ (sl q.1).HomeRange 4095 0x40000 64 false false (inHome 0x40000 64) ∧
      leNat (runsHold (sl q.1) (homeRuns (inHome 0x40000 64))) = q.1 ∧ lpbOk ((sl q.1).ctx 4095) q.1 = q.2 ∧
      (sl q.1).launchKernel 4095 7 0 = some placedKd ∧ (sl q.1).launchKernel 4095 7 1 = none ∧ (sl q.1).launchKernel 4095 8 0 = none := by
  intro q hq
  fin_cases hq <;> exact ⟨by decide +kernel, home_range (by decide +kernel), by decide +kernel, by decide +kernel, by decide +kernel, by decide +kernel, by decide +kernel⟩
/-- WSET: a set that is not loaded, one in use, one that starts. -/
def sws (n : BitVec 3) (bs : List Byte) : State :=
  let s := sq q0 1
  { s with mem := placeBytes (placeBytes (placeBytes s.mem 0x40000 bs) 0x40100 (leBytes 3 4)) 0x40200 (leBytes (0x20000 + 2 ^ 64 * 64 + 2 ^ 96) 16)
           wctxs := [(0, wl n)] }
theorem test_hyp_PacketsIssueAndComplete_wset :
    (∀ n ∈ [(1 : BitVec 3), 2], let s : State := { sws n [] with ctxs := [(4095, { placedCtx (s0.ctx 4095) with wsetBase := 2 ^ 40 })] }
      (s.queueIssuer = some (0, q0) ∧ s.setBusy 4095 0 = (n == 2)) ∧ ¬ s.SetTable 4095 0) ∧
    (∀ n ∈ [(1 : BitVec 3), 2, 5], ((sws n setBytes).queueIssuer = some (0, q0) ∧ (sws n setBytes).setBusy 4095 0 = (n == 2) ∧ (sws n setBytes).wsets = [] ∧
      Tab.sorted (sws n setBytes).wctxs = true) ∧ (sws n setBytes).SetIs 4095 0 [{ base := 0x20000, len := 64, recv := true }] [3]) ∧
    (∀ n ∈ [(1 : BitVec 3), 5], setLoaded (sws n setBytes) 4095 0) := by
  refine ⟨?_, ?_, ?_⟩ <;> intro n hn
  · fin_cases hn <;> exact ⟨by decide +kernel, no_table (by decide +kernel)⟩
  · fin_cases hn <;> exact ⟨by decide +kernel, that_set (by decide +kernel) (by decide +kernel) (by decide +kernel) (by decide +kernel) (by decide +kernel)
      (by decide +kernel) (by decide +kernel) rfl⟩
  · fin_cases hn <;> exact setLoaded_of rfl (by decide +kernel) (by decide +kernel) (by decide +kernel)
/-- COPY: no bytes; ranges that meet; a page that is not mapped; 64 bytes. SIGNAL: misaligned; not mapped; a word. -/
def cpq (src dst n : Nat) : List Stop × Pieces × Pieces :=
  let g := Go.start (sq q0 1)
  let r1 := rangePieces g [] 4095 src n false (n / 2 ^ 16 + 2)
  let r2 := piecePeers r1.2 4095 src false r1.1.2
  let r3 := rangePieces r2.2 [] 4095 dst n true (n / 2 ^ 16 + 2)
  let r4 := piecePeers r3.2 4095 dst true r3.1.2
  (r1.1.1 ++ r2.1.1 ++ r3.1.1 ++ r4.1.1, r2.1.2, r4.1.2)
theorem test_hyp_PacketsIssueAndComplete_copy : rangesMeet false false 0x20000 0x20010 64 64 = true ∧ rangesMeet false false 0x20000 0x20040 64 64 = false ∧
    (cpq (2 ^ 40) 0x20040 64).1 ≠ [] ∧ (agentPlace (Go.start (sq q0 1)) 4095 (2 ^ 40) 8).1 = none ∧
    (sq q0 1).HomeRange 4095 0x20000 64 false false (inHome 0x20000 64) ∧ (sq q0 1).HomeRange 4095 0x20040 64 true false (inHome 0x20040 64) ∧
    ∀ n ∈ [4, 8], (sq q0 1).HomeAt 4095 0x20000 n true false 0x20000 := by
  refine ⟨by decide +kernel, by decide +kernel, by decide +kernel, by decide +kernel, home_range (by decide +kernel), home_range (by decide +kernel), ?_⟩
  intro n hn
  fin_cases hn <;> exact home_at (by decide +kernel)
/-- Completion: a copy that is done, and one that another module refused a part of; a signal. -/
theorem test_hyp_PacketsIssueAndComplete_complete : ∀ n ∈ [0, 1], let v := { q0 with runs := [run1, { run1 with no := 1, op := some 5, signal := false }] }
    let s := { sq v 1 with engines := [(5, { agentOp 4095 [] with left := [], refused := n })] }
    s.queueIssuer = some (0, v) ∧ v.runs.find? (fun e => e.no == 1) = some { run1 with no := 1, op := some 5, signal := false } ∧
      Tab.find s.engines 5 = some { agentOp 4095 [] with left := [], refused := n } ∧ (agentOp 4095 []).far = [] ∧ (agentOp 4095 []).gwctFab ≤ s.now ∧
      s.agentBusy 5 = false ∧ v.runs.find? (fun e => e.no == 0) = some run1 ∧ run1.gwct ≤ s.now := by
  intro n hn
  fin_cases hn <;> decide +kernel

/-- A partition of die 0 with room for queues, its interface enabled, context 1; a queue that waits for a slot. -/
def qp (v : Queue) : State :=
  { State.reset with parts := [(0, { Part.reset with dies := 1, active := true, qsaCount := 4 })], vis := [(0, { Vi.reset with en := true })]
                     ctxs := [(1, { Ctx.reset with state := 1 }), (4095, Ctx.service)], queues := [(3, v)], now := 2000000 }
def qw : Queue := { Queue.reset with ctx := 1, en := true, pending := true, tail := 1 }
theorem test_hyp_QueuesAreScheduled_schedule : let s := qp qw
    s.queuePart 3 = 0 ∧ s.waitingQueues 0 = [(3, qw)] ∧ (∀ n ∈ [0, 30], n ∈ s.slotTargets 0 3 ∧ (Tab.get Slot.reset s.slots n).busy = false) := by decide +kernel
theorem test_hyp_QueuesAreScheduled_unmap : let v := { qw with mapped := true, en := false, pending := false, slot := 0 }
    (qp v).queue 3 = v ∧ v.mapped = true ∧ v.en = false := by decide +kernel
theorem test_hyp_QueuesAreScheduled_aging : let s := qp qw
    (s.queue 3).pending = true ∧ (s.queue 3).mapped = false ∧ (s.queue 3).ecls ≠ 0 ∧ (s.queue 3).agedAt + 1000 * (s.part 0).qsaAge ≤ s.now := by decide +kernel
/-- Q.EN set for a context that is not active, for one that is, and cleared; kicks on a halted queue, past the ring, and at its end. -/
theorem test_hyp_QueuesAreScheduled_writes : let s := qp { qw with en := false, pending := false }
    (∀ n ∈ [2, 4095], ¬ ((s.ctx n).state = 1 ∧ (s.ctx n).vi = (s.queue 3).vi)) ∧ ((s.ctx 1).state = 1 ∧ (s.ctx 1).vi = (s.queue 3).vi) ∧
    (∀ t ∈ [17, 16, 0], (2 ^ (s.queue 3).size.toNat < (BitVec.ofNat 16 t - (s.queue 3).head).toNat ↔ t = 17)) ∧
    (((qp { qw with halted := true, err := 4 }).queue 3).halted = true) := by decide +kernel

/-! ### Hypotheses of the statements on the distributor, the system registers and contexts -/

/-- Partition 0 of die 0, in which every core but 0 and 1 is being vacated; context 1 with an object and a launch. -/
def sd (ps : List Pend) (gs : Table Gang) (ts : Table Team) : State :=
  { State.reset with parts := [(0, { Part.reset with dies := 1, active := true })], ctxs := [(1, { Ctx.reset with state := 1 }), (4095, Ctx.service)]
                     objs := [(0, { ob0 with ctx := 1 })], launches := [(0, { placedLaunch with ctx := 1 })], pends := ps, gangs := gs, teams := ts
                     cores := (List.range 78).map (fun n => (n + 2, { CoreSt.reset with vacating := true })), now := 3000000, seq := 9 }
def pd (n : Nat) : Pend := { placedPend 0 with ctx := 1, last := n, nteams := n }
theorem test_hyp_DistributorPlacesTeamsAndGangs_place : ∀ n ∈ [1, 2], let s := sd [pd n] [] []
    s.leaver 0 = none ∧ (s.part 0).dvBusy = false ∧ s.waitingTeams 0 = [.team 0] ∧ s.kd? (pd n).object (pd n).kernel = some placedKd ∧
      Tab.find s.launches (pd n).launch = some { placedLaunch with ctx := 1 } ∧
      s.chooseCore (pd n) placedKd (s.openCores (pd n).ctx placedKd ((pd n).crews placedKd)) = some 0 ∧ s.returning (pd n).prio = false := by
  intro n hn
  fin_cases hn <;> decide +kernel
/-- Gang 7 of two members, at modules 0 and 1. -/
def gd (st : GangSt) (w : Option Nat) : Gang := { gg0 with pend := pd 1, st := st, prev := st, committed := false, go := false, window := w, teams := [] }
def gm (co : Nat) : GangMsg :=
  { gang := 7, stack := 4096, pool := 0, idem := false, retry := 0, time := 0, coord := co, no := 7, ctx := 1, object := 0, kernel := 0, launch := 0, home := co, prio := 0
    args := 0, first := 0, nteams := 2, grid := 0, clock := 0, key := [], members := [0, 1] }
def oneG (g : Gang) : State := sd [] [(7, g)] []
theorem test_hyp_DistributorPlacesTeamsAndGangs_reserve : (Tab.find (sd [] [] []).gangs (gm 1).gang = none ∧ (gm 1).coord ≠ (sd [] [] []).mod.modid) ∧
    (let g := { gd .unplaced none with members := [0, 0] }
     Tab.find (oneG g).gangs 7 = some g ∧ (oneG g).windowNow 7 g = some (0, [0, 1], [], 0) ∧ (∀ c ∈ [0, 1], ((oneG g).coreOf c).heldBy = none) ∧
       ((oneG g).ctx g.pend.ctx).state ≠ 2) := by decide +kernel
theorem test_hyp_DistributorPlacesTeamsAndGangs_answers : ∀ q ∈ [([], 0, false), ([1], 0, true), ([0], 1, true), ([0], 0, false)],
    let g := { gd .reserving (some 0) with heldFrom := q.1, placedFrom := q.1 }
    Tab.find (oneG g).gangs 7 = some g ∧ g.coord = (oneG g).mod.modid ∧ (g.members.all (fun m => (withModule g.heldFrom q.2.1).contains m) = q.2.2) := by decide +kernel
/-- A member on module 1 detaches: the first of two, and the last; a gang that starts; one that is to be saved before GO. -/
theorem test_hyp_DistributorPlacesTeamsAndGangs_detach : ∀ q ∈ [([], GangSt.running), ([0], .running), ([0], .closing)],
    let g := { gd q.2 (some 0) with detached := q.1 }
    Tab.find (oneG g).gangs 7 = some g ∧ g.members[1]? = some 1 ∧ 1 ≠ (oneG g).mod.modid ∧ g.memberDone 1 = false ∧
      (q.1 = [] → 0 < g.members.length ∧ g.memberDone 0 = false) ∧ (q.1 ≠ [] → ∀ r, r < g.members.length → r ≠ 1 → g.memberDone r = true) := by decide +kernel
theorem test_hyp_DistributorPlacesTeamsAndGangs_go : (∀ st ∈ [GangSt.unplaced, .reserving, .running], let g := gd st (some 0)
      Tab.find (oneG g).gangs 7 = some g ∧ g.st ≠ .saved ∧ g.detached = [] ∧ g.lost = [] ∧ g.members ≠ []) ∧
    ∀ st ∈ [GangSt.unplaced, .reserving], (gd st none).st = st ∧ (gd st none).coord = (oneG (gd st none)).mod.modid := by decide +kernel
theorem test_hyp_DistributorPlacesTeamsAndGangs_commit : (gd .unplaced none).window = none ∧ (let g := gd .reserving (some 0)
    let s := oneG g
    s.kd? g.pend.object g.pend.kernel = some placedKd ∧ Tab.find s.launches g.pend.launch = some { placedLaunch with ctx := 1 } ∧ s.localRanks g = [0] ∧ (s.ctx g.pend.ctx).state ≠ 2 ∧
      ((windowStarts false 0 1).all fun c => s.fits placedKd placedKd.crews (teamCoresAt false c)) = true) := by decide +kernel
/-- A gang whose member runs as team 0. -/
def tG : Team := { t0 with ctx := 1, gang := some 7, gangSize := 2 }
def runG (st : GangSt) : State := sd [] [(7, { gd st (some 0) with teams := [(0, 0)], committed := true })] [(0, tG)]
theorem test_hyp_DistributorPlacesTeamsAndGangs_runs : ∀ st ∈ [GangSt.reserving, .running, .saved], let g := { gd st (some 0) with teams := [(0, 0)], committed := true }
    Tab.find (runG st).gangs 7 = some g ∧ g.coord = (runG st).mod.modid ∧ (runG st).team? 0 = some tG ∧ tG.saved = false ∧ tG.lost = false ∧ (runG st).tileReqs = [] ∧
      (∃ q ∈ g.members, q ∉ withModule g.savedFrom 0) ∧ 0 ∈ Tab.vals g.teams ∧ g.committed = true := by
  intro st h
  fin_cases h <;> decide +kernel
theorem test_hyp_DistributorPlacesTeamsAndGangs_waits : (let g := gd .unplaced none
    let s := oneG g
    s.gangObject g.pend = some 0 ∧ s.kd? 0 g.pend.kernel = some placedKd ∧ g.since + 1000 * (s.part 0).gangWait ≤ s.now ∧
      s.cheapestWindow g placedKd (s.localRanks g).length = some 0) ∧
    (let g := { gd .unplaced none with reservedAt := some (0, 0) }
     let s := sd [] [(7, g)] [(0, { t0 with ctx := 1, prio := 3 })]
     s.gangObject g.pend = some 0 ∧ 0 + 1000 * (s.part 0).drain ≤ s.now ∧ g.pend.prio < 3 ∧ 0 ∈ windowCores false 0 (s.localRanks g).length) := by decide +kernel
def tS : Team := { t0 with ctx := 1, saved := true, started := false }
def sv : SavedTeam := { ctx := 1, entry := 0, base := 0, size := 0, kind := 1, crews := [(0, { c0 with ctx := 1 })], locks := [] }
theorem test_hyp_DistributorPlacesTeamsAndGangs_restore : (let s := { sd [] [] [(0, tS)] with saved := [(1, sv)] }
    s.team? 0 = some tS ∧ tS.gang = none ∧ s.placesFree 0 none = true ∧ Tab.find s.saved 1 = some sv ∧
      (∀ e ∈ sv.crews, e.2.st = .running ∧ ∀ k ∈ e.2.splits, k.2.st = .ready ∧ k.2.wait = .none) ∧ Tab.sorted sv.crews = true ∧ s.tileReqs = []) ∧
    (let s := sd [] [] []; s.teams = [] ∧ (s.part 0).dvBusy = false ∧ ∀ n ∈ [1, 640], (2 ^ 63 + n) / 2 ^ 63 = 1 ∧ 0 < (2 ^ 63 + n) % 2 ^ 10 ∧ (2 ^ 63 + n) % 2 ^ 10 ≤ 640) ∧
    (let s := { sd [] [] [] with coloc := [(0, { ops := 4, bytes := 1, cls := none })] }
     Tab.find s.coloc 0 = some { ops := 4, bytes := 1, cls := none } ∧ (s.ctx 1).part.toNat = 0 ∧ Tab.sorted s.coloc = true) := by decide +kernel

/-- System registers: an address of none; reach and its lack for the firmware, a host and service contexts; every register of the statement. -/
def ss (up : Bool) (flr : Bool) : State :=
  { State.reset with mod := { State.reset.mod with hostUp := up }, vis := [(1, { Vi.reset with en := true, flrBusy := flr })]
                     ctxs := [(5, { Ctx.reset with state := 1, vi := 1 }), (6, { Ctx.reset with state := 1, level := true, part := 2 }), (4095, Ctx.service)] }
theorem test_hyp_SystemRegisterAccesses : regAt (13 * 2 ^ 24) = none ∧ (ss false false).mod.hostUp = false ∧
    (∀ q ∈ [(0x28, Reg.ident 5), (0x38, .ident 7), (3 * 2 ^ 24 + 0x500, .ctx 5 0), (3 * 2 ^ 24 + 0x528, .ctx 5 5), (7 * 2 ^ 24 + 0x200000, .tc 0)],
      regAt q.1 = some q.2 ∧ q.1 % 8 = 0 ∧ (ss true false).reaches .firmware true q.2 = true ∧ (ss true false).reaches .firmware false q.2 = true ∧
        (ss true false).reaches (.ctx 4095) true q.2 = true) ∧
    (ss true false).reaches (.host 1) true (.ctx 5 5) = true ∧ (ss true false).reaches (.host 2) true (.ctx 5 5) = false ∧
    (ss true false).reaches (.ctx 6) false (.ctx 5 5) = false ∧ (ss true false).regVi (.ctx 5 5) = some 1 ∧ ((ss true true).vi 1).flrBusy = true ∧
    (Reg.ident 5).reserved = true ∧ readOnly (.ident 7) = true ∧ rwBits (.ctx 5 5) = some (BitVec.allOnes 64) ∧ (ss true false).mod.cache = [] := by decide +kernel
/-- The firmware makes a service context of a free one; a read that clears nothing; every register of the clearing reads. -/
theorem test_hyp_SystemRegisterAccesses_reads : regAt (3 * 2 ^ 24 + 0x700) = some (.ctx 7 0) ∧ ((ss true false).ctx 7).state = 0 ∧
    (BitVec.ofNat 64 32).getLsbD 5 = true ∧ readClears (.ctx 5 5) = false ∧ (ss true false).mod.hostUp = true ∧
    (∀ q ∈ ([0, 31].flatMap fun l => [Reg.link l 1, .link l 4]) ++ [0, 3].flatMap fun j => [Reg.keeper j 32, .keeper j 33, .keeper j 35, .keeper j 36, .ldir j],
      (ss true false).reaches .firmware false q = true ∧ readClears q = true) := by decide +kernel
def blockRegs : List (Option Reg) := (List.range 4).flatMap fun j => [regAt ((8 + j) * 2 ^ 24), regAt ((8 + j) * 2 ^ 24 + 8)]
theorem test_every_link_register_address : (blockRegs.all Option.isSome) = true := by decide +kernel

/-- Contexts: an identifier of another context, of no crew; a crew that runs, one that is stopped, and one in a context with a context fault. -/
def scx (st : CrewSt) (n : BitVec 3) : State :=
  { on c0 with crews := [(1, { c1x (dn st) with arriving := [] })], ctxs := [(1, { placedCtx Ctx.reset with state := n, level := false, part := 0 }), (4095, Ctx.service)]
               teams := [(0, { t0 with ctx := 1 })] }
def id1 : Nat := crewId 1 1
theorem test_hyp_ContextsAreResolvedAndTornDown_commands : id1 / 2 ^ 20 = 1 ∧ id1 < 2 ^ 32 ∧ (scx .running 1).crewOfId (crewId 1 2) = none ∧
    (∀ q ∈ [(CrewSt.running, 1), (.stopped, 1), (.stopped, 2)], let s := scx q.1 (BitVec.ofNat 3 q.2)
      let c := { c1x (dn q.1) with arriving := [] }
      s.crewOfId id1 = some (1, c) ∧ s.crew? 1 = some c ∧ c.ctx = 1 ∧ c.st = q.1 ∧ (s.ctx 1).state.toNat = q.2 ∧
        (∀ e ∈ c.splits, (resumeSplit false e.2).wait = .none) ∧ s.tileReqs = [] ∧ c.arriving = [] ∧ s.team? c.team = some { t0 with ctx := 1 } ∧ t0.gdetach = [] ∧ t0.bars = []) := by
  refine ⟨by decide +kernel, by decide +kernel, by decide +kernel, ?_⟩
  intro q hq
  fin_cases hq <;> decide +kernel
/-- A context that tears down, drained. Interfaces: busy; closed; full; one that creates and releases; none left is not shown. -/
def sc3 : State := { State.reset with ctxs := [(1, { Ctx.reset with state := 3, vi := 1 }), (4095, Ctx.service)] }
def si1 (v : Vi) (cs : Table Ctx) : State := { State.reset with vis := [(1, v)], parts := [(0, { Part.reset with dies := 1, active := true })], ctxs := cs ++ [(4095, Ctx.service)] }
def vi1 : Vi := { Vi.reset with en := true, ctxMax := 2 }
theorem test_hyp_ContextsAreResolvedAndTornDown_teardown : (sc3.ctx 1).state = 3 ∧ sc3.wsets = [] ∧ sc3.ctxDrained 1 = true ∧ (sc3.vi (sc3.ctx 1).vi.toNat).flrBusy = false ∧
    (2 ^ 32 ≤ 2 ^ 32) := by decide +kernel
theorem test_hyp_ContextsAreResolvedAndTornDown_interfaces : ((si1 { vi1 with flrBusy := true } []).vi 1).flrBusy = true ∧ interfaceClosed (si1 { vi1 with en := false } []) 1 ∧
    ¬ interfaceClosed (si1 vi1 []) 1 ∧ ((si1 vi1 []).viContexts 1).length < vi1.ctxMax.toNat ∧ ((si1 vi1 []).ctx 0).state = 0 ∧
    (let s := si1 { vi1 with ctxMax := 1 } [(4, { Ctx.reset with state := 1, vi := 1 })]
     (s.vi 1).ctxMax.toNat ≤ (s.viContexts 1).length ∧ (s.ctx 4).state ≠ 0 ∧ (s.ctx 4).level = false ∧ (s.ctx 4).vi.toNat = 1 ∧ (s.ctx 4).state ≠ 3 ∧ (s.ctx 5).state = 0 ∧
       (s.ctx 4095).level = true) ∧
    ((si1 vi1 []).flrContexts 1 = [] ∧ Tab.sorted (si1 vi1 []).queues = true ∧ ((si1 vi1 []).queue 0).mapped = false) := by
  unfold interfaceClosed
  decide +kernel
theorem find_all {β : Type} (v : β) : ∀ (l : List Nat) {e : Nat}, e ∈ l → Tab.find (l.map fun n => (n, v)) e = some v
  | n :: l, e, h => by
    rw [List.map_cons, Tab.find_cons]
    by_cases q : n = e
    · simp [q]
    · have r : e ∈ l := (List.mem_cons.mp h).resolve_left fun p => q p.symm
      rw [if_neg fun p => q p.symm]
      exact find_all v l r
def taken (n : Nat) : State := { State.reset with ctxs := (List.range n).map fun k => (k, { Ctx.reset with state := 1 }) }
theorem taken_all (n : Nat) : ∀ e, e < n → ((taken n).ctx e).state ≠ 0 := by
  intro e h
  have q : Tab.find (taken n).ctxs e = some { Ctx.reset with state := 1 } := find_all _ _ (List.mem_range.mpr h)
  have r : (taken n).ctx e = { Ctx.reset with state := 1 } := by rw [State.ctx, Tab.get, q]
  rw [r]
  decide
/-- Every context is taken. -/
theorem test_hyp_ContextsAreResolvedAndTornDown_full : ∀ e, e < 4095 → ((taken 4095).ctx e).state ≠ 0 := taken_all 4095

/-! ### Hypotheses of the statements on fault rings, partitions, errors, links, installation, reset and steps -/

/-- A crew that waits in `halt`, and none; a fault ring with a record in flight, with one kept, and full. -/
def hw : Crew := one c0 { p0 with st := .blocked, wait := .halt }
def kr : FaultRec := { any := 1, lanes := 1, addr := 0, time := 0, pc := 0, id := 0, kind := 1, split := 0, access := 0, cause := 0, code := 0 }
def ring (w : List Nat) (k : List FaultRec) (cons : BitVec 16) (h : Bool) : State :=
  { s0 with crews := [], now := 9, ctxs := [(4095, { placedCtx (s0.ctx 4095) with frBase := 0x20000, writing := w, kept := k, frCons := cons, hen := h, handler := 4095 })] }
theorem test_hyp_RingsLatchesAndPartitions : (∀ e ∈ s0.crews, haltWaits 4095 e.2 = false) ∧ (Tab.sorted (on hw).crews = true ∧ (∀ e ∈ (on hw).crews, Tab.sorted e.2.splits = true) ∧ ∃ e ∈ (on hw).crews, haltWaits 4095 e.2 = true) ∧
    (∀ h ∈ [true, false], ∀ t ∈ [8, 9], ((ring [t] [] 0 h).ctx 4095).writing = [t] ∧ ((ring [t] [] 0 h).ctx 4095).hen = h) ∧ (ring [] [] 0 true).keptRecords 4095 = [] ∧
    (∀ n ∈ [0, 1, 15], (ring [] [kr] (BitVec.ofNat 16 n) true).keptRecords 4095 = [(.queue, kr)] ∧
      (((ring [] [kr] (BitVec.ofNat 16 n) true).ctx 4095).frProd.toNat + 0 + 1) % 2 ^ ((ring [] [kr] (BitVec.ofNat 16 n) true).ctx 4095).frSize.toNat = 1) := by
  refine ⟨by decide +kernel, by decide +kernel, ?_, by decide +kernel, ?_⟩
  · intro h hh t ht; fin_cases hh <;> fin_cases ht <;> decide +kernel
  · intro n hn; fin_cases hn <;> decide +kernel
theorem test_hyp_RingsLatchesAndPartitions_write : (ring [] [kr] 0 true).HomeAt 4095 0x20000 64 true false 0x20000 ∧
    ∀ e n, (ring [] [kr] 0 true).walk 4095 0x20000 = .ok e n → pteTagen e = true → (ring [] [kr] 0 true).tagAt (0x20000 + 32) = 0x20000 / 2 ^ 60 % 16 := by
  refine ⟨home_at (by decide +kernel), fun e n h q => ?_⟩
  rw [show (ring [] [kr] 0 true).walk 4095 0x20000 = .ok 0x83 (2 ^ 30) by decide +kernel] at h
  cases h
  exact absurd q (by decide)
/-- A partition with a team, one whose dies another has, and one that is free. -/
theorem test_hyp_RingsLatchesAndPartitions_partitions : (sd [] [] [(0, tG)]).partBusy 0 = true ∧ (sd [] [] []).partBusy 0 = false ∧
    (∃ q, q < 8 ∧ q ≠ 1 ∧ ((sd [] [] []).part q).dies &&& 1 ≠ 0) ∧ (∀ q, q < 8 → q ≠ 1 → ((sd [] [] []).part q).dies &&& 2 = 0) := by decide +kernel

/-- A team that may be relaunched, one that may not, and a member of a gang, at each place of a launch. -/
def ue (l : Launch) (t : Team) (gs : Table Gang) : State := { withTeam s0 t with launches := [(0, l)], gangs := gs }
theorem test_hyp_ErrorsWalksAndTags_teams : (ue placedLaunch t0 []).team? 1 = none ∧ (ue placedLaunch t0 []).team? 0 = some t0 ∧ Tab.sorted s0.crews = true ∧
    relaunches (ue placedLaunch t0 []) t0 = false ∧ relaunches (ue { placedLaunch with idem := true, retry := 1 } t0 []) t0 = true ∧
    (∀ st ∈ [GangSt.running, .closing, .reserving], tg.gang = some 7 ∧ Tab.find (ue placedLaunch tg [(7, { gg0 with st := st })]).gangs 7 = some { gg0 with st := st } ∧
      tg.rank ∉ gg0.lost) := by
  refine ⟨by decide +kernel, by decide +kernel, by decide +kernel, by decide +kernel, by decide +kernel, ?_⟩
  intro st h
  fin_cases h <;> decide +kernel
/-- Walks that find a leaf, an invalid entry and a malformed one; units with a walker and without; tags of the block at 0x20000. -/
theorem test_hyp_ErrorsWalksAndTags_walks : hasWalker 999 = false ∧ hasWalker 1000 = true ∧ hasWalker 1007 = true ∧ hasWalker 1008 = false ∧ hasWalker 2003 = true ∧
    walked (s0.walk 4095 0x20000) = some (some (2 ^ 30, some 0x20000)) ∧ walked (s0.walk 4095 (2 ^ 40)) = some none ∧
    walked (({ s0 with mem := placeBytes s0.mem 0x2000 [0x83, 0x10] } : State).walk 4095 0x20000) = none ∧
    (s0.ctx 4095).tagHome = none ∧ (({ s0 with ctxs := [(4095, { s0.ctx 4095 with tagHome := some 0x20000 })] } : State).ctx 4095).tagHome = some 0x20000 ∧
    (∀ n ∈ [63, 64], let w : Nat → WalkRun := fun k => { unit := 1000, ctx := 4095, page := 100 + k, res := .absent 0 }
      let s := { s0 with walks := (List.range n).map w }
      s.walks.find? (fun v => v.unit == 1000 && v.ctx == 4095 && v.page == 2) = none ∧ ((s.walks.filter fun v => v.unit == 1000).length < 64 ↔ n = 63)) ∧
    (∀ r ∈ [s0.walk 4095 0x20000, .absent 0, .bad], let w : WalkRun := { unit := 1000, ctx := 4095, page := 2, res := r }
      ({ s0 with walks := [w] } : State).walks.find? (fun v => v.unit == 1000 && v.ctx == 4095 && v.page == 2) = some w) := by decide +kernel
theorem test_hyp_ErrorsWalksAndTags_replay : let c := { dn .stopped with fb := true }
    let s := { on c0 with crews := [(1, c)] }
    s.saved = [] ∧ s.tileReqs = [] ∧ Tab.sorted s.crews = true ∧ s.crew? 1 = some c ∧ c.ctx = 4095 ∧ c.st = .stopped ∧ c.fb = true ∧
      (∀ e ∈ s.crews, e.2.st = .stopped → e.2.fb = true → e.1 = 1) ∧ (∀ e ∈ c.splits, (resumeSplit false e.2).wait = .none) := by decide +kernel

/-- Link 0 in each state, with a flit held; the last link. -/
def lk (st : BitVec 3) : Link :=
  { Link.reset with state := st, held := [(0, linkOnly, 0)], seq := 1, allowed := 0xFFFF, active := 0xFFFF, width := 16, health := [(3, 200)]
                    txKey := [(0, 5, 0), (1, 6, 0)], rxKey := [(0, 5, 0)] }
def sl0 (v : Link) (n : Nat) : State := { State.reset with links := [(0, v), (31, v)], now := n }
theorem test_hyp_LinksTrainAndReplay : ∀ l ∈ [0, 31], ∀ st ∈ [0, 1, 2, 3], let v := lk (BitVec.ofNat 3 st)
    let s := sl0 v 10000
    l < 32 ∧ s.link l = v ∧ v.state.toNat = st ∧ s.ft.fail = false ∧ s.mod.errFatal = 0 ∧ v.held ≠ [] ∧ v.heldAt + 10000 ≤ s.now ∧ ¬ ((sl0 v 9999).now ≥ v.heldAt + 10000) ∧
      (∀ q ∈ [(0xFFFF, 16), (0x0FFF, 12), (0x00FF, 8), (0x007F, 7)], (lanesIn (workingLanes v (BitVec.ofNat 16 q.1))).length = q.2) := by
  intro l hl st hs
  fin_cases hl <;> fin_cases hs <;> decide +kernel
/-- Key slots that are shut and open; TXSEL with and without a held flit; a health window that is over, with a lane at its retirement. -/
theorem test_hyp_LinksTrainAndReplay_keys : (lk 2).txSel = 0 ∧ Tab.find (lk 2).rxKey 0 ≠ none ∧ Tab.find (lk 2).rxKey 1 = none ∧ (lk 2).txRet = none ∧
    Tab.find (lk 2).txKey 1 ≠ none ∧ Tab.find (lk 2).txKey 0 ≠ none ∧ (∃ h ∈ (lk 2).held, h.1 < (lk 2).seq) ∧
    (∀ h ∈ ({ lk 2 with held := [] } : Link).held, (lk 2).seq ≤ h.1) ∧ Tab.find ({ lk 2 with txKey := [(1, 6, 0)] } : Link).txKey 0 = none ∧
    (lk 2).window < (sl0 (lk 2) 1024000).now / 1024000 ∧ (sl0 (lk 2) 1023999).now / 1024000 ≤ (lk 2).window ∧
    (lk 2).retire.toNat ≤ min 255 (200 - 200 / 8 + min (Tab.get 0 (lk 2).corrected 3) 64) ∧ (lk 2).marked.getLsbD 3 = false := by decide +kernel
/-- A peer all of whose paths are down long enough; time from a source, from the backup, and from none; errors of 12 and 13 ns. -/
theorem test_hyp_LinksTrainAndReplay_time : (let s := { withPeers s0 with links := [], launches := [], now := 100000 }
    let e := leNat (s.bytesAt (s.mod.ptBase.toNat + 8 * 1) 8)
    1 < s.mod.ptCount.toNat ∧ 1 ≠ s.mod.modid ∧ e % 4 = 1 ∧ ∀ k, k < 4 → (s.link (e / 2 ^ (24 + 5 * k) % 32)).state = 0 ∧ (s.link (e / 2 ^ (24 + 5 * k) % 32)).downAt + 100000 ≤ s.now) ∧
    (let s := { sl0 (lk 2) 100000 with ft := { FabTime.reset with run := true, src := 31, backup := 0 } }
     s.ft.root = false ∧ s.ft.run = true ∧ s.ft.fail = false ∧ s.timeSource = some 31) ∧
    (let s := { sl0 (lk 1) 100000 with ft := { FabTime.reset with run := true, hold := true } }
     s.timeSource = none ∧ s.ft.hold = true ∧ s.ft.holdFrom + 100000 * (s.ft.holdSteps + 1) ≤ s.now) ∧
    ({ FabTime.reset with offset := -7, bound := 5 } : FabTime).error = 12 ∧ ({ FabTime.reset with offset := 8, bound := 5 } : FabTime).error = 13 ∧
    State.reset.ft.run = false := by decide +kernel
/-- Flits in transit and back: a peer of the table over a link that is up; a target past the table; 31 and 32 hops. What the receiver's FEC and cipher answer is open. -/
def flx (tgt n : Nat) : FlitIn := { raw := [], src := 0, target := tgt, path := 0, hops := n, acc := none }
theorem test_hyp_FlitsAreReceivedAndForwarded : (peerEntry (Go.start (withPeers s0)) 1).1 % 4 = 1 ∧ ((withPeers s0).link ((peerEntry (Go.start (withPeers s0)) 1).1 / 2 ^ 24 % 32)).state = 2 ∧
    (peerEntry (Go.start (withPeers s0)) 3).1 % 4 ≠ 1 ∧ (flx 1 31).hops < 32 ∧ 32 ≤ (flx 1 32).hops ∧ (flx 1 0).src = (withPeers s0).mod.modid ∧
    (withPeers s0).earlierInFlight (flx 1 0) = false ∧ 1 < (withPeers s0).mod.ptCount.toNat ∧
    ((withPeers s0).byte ((withPeers s0).mod.ptBase.toNat + 8 * 1)).toNat % 4 = 1 := by decide +kernel
theorem test_hyp_FlitsAreReceivedAndForwarded_again : let v := { Link.reset with state := 2, txKey := [(0, 5, 0)] }
    let s := { withPeers s0 with links := [(0, v)], mod := { (withPeers s0).mod with ptCache := [] } }
    (∀ d, d < 32 → (s.link d).state = 2 → Tab.find (s.link d).txKey (s.link d).txSel ≠ none ∧ (s.link d).held.length < 256 ∧ Tab.get 0 (s.link d).txIvc (s.link d).txSel < 2 ^ 48) ∧
      (s.link 0).state = 2 ∧ s.mod.returned = [] := by decide +kernel

/-- Installation: the record of each operation; buffers at 0x20000 and 0x30000; one that is not mapped. -/
def rq (op : Nat) : BitVec 512 := BitVec.ofNat 512 (0x20000 + 2 ^ 64 * 0x30000 + 2 ^ 192 * 64 + 2 ^ 224 * 7 + 2 ^ 256 * op)
def ins (op : Nat) : State :=
  { s0 with vis := [(1, { Vi.reset with en := true, instBusy := true, instCtx := 4095, instRec := rq op })], objs := [(objKey 4095 7, ob0)]
            mod := { s0.mod with tcSize := 1 } }
def bufPieces (s : State) (a n : Nat) (w : Bool) : Option (List (Nat × Nat) × Bool) :=
  match (rangeOf (Go.start s) [] 4095 a n w).1 with
  | .ok ps => some (homeRuns ps, ps.all fun p => !Loc.isFar p.loc)
  | .error _ => none
theorem test_hyp_InstallationRequests : ∀ op ∈ [1, 2, 3, 4], Requests (ins op) 1 op ∧ ¬ Requests (ins op) 1 (op + 1) ∧ ¬ Requests (ins op) 0 op ∧
    ((ins op).vi 1).instRec.toNat / 2 ^ 192 % 2 ^ 32 = 64 ∧ bufPieces (ins op) 0x20000 64 false = some ([(0x20000, 64)], true) ∧
    bufPieces (ins op) 0x30000 32 true = some ([(0x30000, 32)], true) ∧ bufPieces (ins op) (2 ^ 40) 64 false = none ∧
    Tab.find (ins op).objs (objKey 4095 7) = some ob0 ∧ ob0.retired = false ∧ (ins op).mod.cache = [] ∧ (ins op).mod.fuseSvn.toNat ≤ 0 ∧
    (ins op).mod.idLeaf < 2 ^ 35 := by
  unfold Requests
  intro op h
  fin_cases h <;> decide +kernel

theorem test_hyp_InstallationRequests_buffers : ∀ op ∈ [1, 2, 3, 4], BufferAt (ins op) 4095 0x20000 64 false 0x20000 ∧ BufferAt (ins op) 4095 0x20000 32 false 0x20000 ∧
    BufferAt (ins op) 4095 0x30000 32 true 0x30000 ∧ BufferAt (ins op) 4095 0x30000 4096 true 0x30000 ∧ BufferBad (ins op) 4095 (2 ^ 40) 64 false := by
  intro op h
  have bad : ∀ s : State, (∀ i, i < 64 → walked (s.walk 4095 ((2 ^ 40 + i) % 2 ^ 56)) = some none) → BufferBad s 4095 (2 ^ 40) 64 false := by
    intro s h
    refine ⟨fun ps hr => ?_, fun i e z q va hi w => ?_⟩
    · cases ps with
      | nil => simp [State.HomeRange] at hr
      | cons p ps =>
        obtain ⟨_, _, ⟨e, z, _, w, _⟩, _⟩ := hr
        have h := h 0 (by decide)
        rw [show (2 ^ 40 + 0) % 2 ^ 56 = 2 ^ 40 % 2 ^ 56 from rfl, w] at h
        simp [walked] at h
    · have h := h i hi
      rw [w] at h
      simp [walked] at h
  fin_cases h <;> exact ⟨⟨_, home_range (ps := inHome 0x20000 64) (by decide +kernel), rfl⟩, ⟨_, home_range (ps := inHome 0x20000 32) (by decide +kernel), rfl⟩,
    ⟨_, home_range (ps := inHome 0x30000 32) (by decide +kernel), rfl⟩, ⟨_, home_range (ps := inHome 0x30000 4096) (by decide +kernel), rfl⟩, bad _ (by decide +kernel)⟩
/-- A cached object without kernels or data, whose certificate its module signed, and its revision and version; it loads. -/
def mE : NativeImage := { text := [], descs := [], banks := [], data := [], fns := [], binds := [] }
def headE : List Byte :=
  leBytes 1 4 ++ leBytes 0 4 ++ leBytes s0.mod.idModule.toNat 8 ++ leBytes s0.mod.revision 8 ++ leBytes s0.mod.fuseSvn.toNat 8 ++
    leBytes (sha256 (NativeImage.stored mE)).toNat 32 ++ List.replicate 64 0
def certE : List Byte := headE ++ hssSign 2 5 headE
def entE : CacheEntry := { portable := 0, svn := 0, native := mE, off := 0, cert := certE, leaf := 5, used := 0 }
/-- The region lies where nothing is mapped, so that the service's own copy is loaded. -/
def insE : State := { ins 2 with mod := { (ins 2).mod with cache := [(0, entE)], tcBase := 2 ^ 40 } }
theorem cert_length : certE.length = 3572 := by
  rw [certE, List.length_append, length_hssSign, show headE.length = 128 by decide +kernel]
theorem cert_parts : certE.take 128 = headE ∧ certE.drop 128 = hssSign 2 5 headE :=
  ⟨List.take_left' (by decide +kernel), List.drop_left' (by decide +kernel)⟩
/-- Where the region cannot be read, the service's own copy is taken. -/
theorem own_copy (s : State) (e : CacheEntry) (n : Nat) (h : e.size = n)
    (hb : (match (rangeOf (Go.start s) [] 4095 (s.mod.tcBase.toNat + e.off) n false).1 with
      | .error _ => true
      | .ok _ => false) = true) : s.cachedBytes e = (NativeImage.stored e.native, e.cert) := by
  subst h
  rw [State.cachedBytes]
  split
  · rename_i g; rw [g] at hb; cases hb
  · rfl
theorem ent_cert : entE.cert = certE := by unfold entE; rfl
theorem ent_native : entE.native = mE := by unfold entE; rfl
theorem ent_size : entE.size = 3572 := by
  rw [CacheEntry.size, ent_cert, cert_length, ent_native, show (NativeImage.stored mE).length = 0 by decide]
theorem cached_own : insE.cachedBytes entE = (NativeImage.stored mE, certE) := by
  rw [own_copy insE entE 3572 ent_size (by decide +kernel), ent_cert, ent_native]
theorem test_hyp_InstallationRequests_load :
    Requests insE 1 2 ∧ BufferAt insE 4095 0x20000 32 false 0x20000 ∧ (0, entE) ∈ insE.mod.cache ∧
      entE.portable = BitVec.ofNat 256 (leNat (insE.bytesAt 0x20000 32)) ∧ insE.cachedBytes entE = (NativeImage.stored mE, certE) ∧
      certOk insE.mod certE = true ∧ certField certE 32 32 = (sha256 (NativeImage.stored mE)).toNat ∧ certField certE 16 6 = insE.mod.revision ∧
      insE.mod.fuseSvn.toNat ≤ certField certE 24 8 ∧ certField certE 4 2 = mE.descs.length ∧ certField certE 96 32 = bitsNat (insE.classesAt 4095 mE) ∧
      NativeImage.accepted mE (insE.ctxScratch 4095) = true ∧ mE.data = [] ∧ (∀ q o, Tab.find insE.objs q = some o → q / 2 ^ 32 = o.ctx) := by
  refine ⟨by unfold Requests; decide +kernel, ⟨_, home_range (ps := inHome 0x20000 32) (by decide +kernel), rfl⟩, List.mem_singleton.mpr rfl, by decide +kernel,
    cached_own, ?_, by decide +kernel, by decide +kernel, by decide +kernel, by decide +kernel, by decide +kernel, by decide +kernel, rfl, ?_⟩
  · have v := hssVerify_hssSign 2 5 headE (by decide)
    rw [← cert_parts.2] at v
    nth_rw 1 [← cert_parts.1] at v
    simp only [certOk, cert_length, v, beq_self_eq_true, Bool.true_and, Bool.and_eq_true]
    exact ⟨⟨⟨⟨by decide +kernel, by decide +kernel⟩, by decide +kernel⟩, by decide +kernel⟩, by decide +kernel⟩
  · intro q o h
    rw [show Tab.find insE.objs q = Tab.find [(objKey 4095 7, ob0)] q from rfl] at h
    rw [Tab.find_cons] at h
    split at h
    · rename_i g; cases h; rw [g]; decide +kernel
    · simp at h
/-- Texts that are refused by what they say: `bar`, a level instruction, a lane exchange under `.crew any`, a reserved barrier; and some that are not. -/
def textOf (ls : List String) : List Byte := (ls.flatMap fun l => tok l ++ [10]).map fun c => BitVec.ofNat 8 c
def kernelOf (crew : String) (ls : List String) : List Byte := textOf ([".kernel k", ".crew " ++ crew, ".region"] ++ ls ++ ["ret !yield", ".barrier", ".end_kernel"])
theorem test_text_refused : ∀ l ∈ ["bar 0", "halt", "nosuch v1", "knotarr [9], all", "iadd.s32.s32 v1, v2, v3", "iadd.s32 v1, v2, v3 !hint", "iadd.f32 v1, v2, v3",
    "iadd.s32 v1, v2, 16384", "bra nowhere", "qwait 16", "ld.b64 v1, [v4]", "rst.b128 s9, [v2], v8"], readPortable (kernelOf "32" [l]) = none := by
  decide +kernel
theorem test_text_taken : readPortable (kernelOf "32" ["x: iadd.s32 v1, v2, (x - x) + 3 !cc=keep ; sum", "?p1 shfl.idx.b32 v1, v2, 0"]) =
      some ([.hint false 2, .hint false 0, .hint true 0, .barrier 0], [{ width := some 32 }]) ∧ readPortable (kernelOf "any" ["shfl.idx.b32 v1, v2, 0"]) = none := by decide +kernel

/-- R449's run at 2.6: three crews miss on pages 0 to 11, and the buffer holds eight pages, joined three times, with nine interrupts. -/
def threeMisses : Go s0 :=
  [0x9004C8, 0x9008C8, 0x900CC8].foldl (fun g c => presentPages g 9 0 false c ((List.range 12).map fun i => { page := 0x6000000 + i, level := 4, kinds := 1 })) (Go.start s0)
theorem test_fault_buffer_run : (List.range 8).map (fbWord (threeMisses.st.ctx 9) · 0) = (List.range 8).map (fun i => 0x0000060000000319 + 2 ^ 16 * i)
    ∧ fbWord (threeMisses.st.ctx 9) 0 1 = 0x9004C8 ∧ trWord threeMisses.st 9 1 = 0x108 ∧ threeMisses.st.outbox.length = 9 := by decide +kernel

/-- Reset and errors: an update that names a fuse value; a fatal error, and one after another; withheld accesses. What an image holds is open. -/
theorem test_hyp_ResetPowerAndFatalErrors : s0.powered = true ∧ s0.mod.errFatal = 0 ∧
    (let m : ModuleSt := { s0.mod with fuseSvn := 4, fuseLeft := 1, update := some ([1], 5, [2]) }
     (m.flashed none).update = some ([1], 5, [2]) ∧ (m.flashed (some none)).update = none ∧ (m.flashed (some none)).bootImage = m.image ∧ m.fuseSvn.toNat < 5 ∧ 5 < 2 ^ 64 ∧ m.fuseLeft ≠ 0) ∧
    ({ s0 with mod := { s0.mod with errFatal := 2 } } : State).mod.errFatal ≠ 0 ∧
    (s0.ctx 4095).state ≠ 0 ∧ s0.mod.pwrTemp.toNat < 95 ∧ s0.mod.pwrCap.toNat < 65535 ∧
    (let w : Option Word → State := fun v => { s0 with mod := { s0.mod with hostUp := false, withheld := [(1, 8, v)] } }
     (w (some 0)).mod.withheld = [(1, 8, some 0)] ∧ (w none).mod.withheld = [(1, 8, none)]) := by decide +kernel

/-- Steps: a module without power; one that runs a crew's instruction, a winch's and a packet. -/
theorem test_hyp_StepRunsTheDecodedInstruction_crew : let s := State.reset.withFetchWord 96 ((encode (Mn.instr .nop (form .nop))).getD (0, 0)).2
    let s1 := tookTurn s [] (.crew 0 0)
    s.powered = true ∧ s.mod.errFatal = 0 ∧ s.agenda = [.issue 0 0] ∧ s1.issuer = some (0, 0, c0, p0) ∧ c0.mergeDue p0 = false ∧
      (match (fetchBytes (Go.start s1) 0 4095 0x10000).1 with
       | .ok bs => (match decodeBytes bs with
         | .ok (i, _) => decide (i = Mn.instr .nop (form .nop))
         | .error _ => false)
       | .error _ => false) = true ∧ (s.tlbs = [] ∧ s.walks = []) := by decide +kernel
theorem test_hyp_StepRunsTheDecodedInstruction_others : (let s := State.reset.withFetchWord 64 20
    let s1 := tookTurn s [] (.winch 0 0)
    s.agenda = [.winch 0 0] ∧ s1.winchIssuer = some (0, 0, s1.wctx 0 0) ∧ (s1.wctx 0 0).lo ≤ (s1.wctx 0 0).pc ∧ (s1.wctx 0 0).pc ≤ (s1.wctx 0 0).hi ∧
      decodeWinch (Tab.get 0 s.imem 0).toNat = .ok (.nopw wf0)) ∧
    (let s := State.reset.withFetchWord 512 8
     let s1 := tookTurn s [] (.queue 0)
     s.agenda = [.queue 0] ∧ s1.queueIssuer = some (0, s1.queue 0) ∧ (s1.queue 0).saved = none ∧
       (match (agentRead (Go.start s1) (queueKey 0 0) (s1.queue 0).ctx.toNat 0x10000 64).1 with
        | .bytes bs => decide (decodePacket (natOfBytes bs) = .ok .nopk)
        | _ => false) = true) ∧
    ({ State.reset with powered := false } : State).powered = false ∧ ({ State.reset with powered := false, agenda := [.event .reset] } : State).agenda = .event .reset :: [] := by
  decide +kernel
/-- A canonical state that is not empty, from which a step and an execution answer. -/
theorem test_hyp_StepsKeepMemoryCanonical : let s := State.reset.withFetchWord 96 ((encode (Mn.instr .nop (form .nop))).getD (0, 0)).2
    Canonical s ∧ (match step s with
      | .next _ => true
      | _ => false) = true := by
  unfold Canonical
  decide +kernel
theorem test_hyp_EncodingsRoundTrip : (∀ m ∈ [Mn.iadd, .movw, .mma, .halt], encodingOk m (form m) = true ∧ (encode (m.instr (form m))).isSome = true) ∧
    winchParts (.xmit wf0) = some (1, wf0) ∧ winchOk 1 wf0 = true ∧ isPacket .nopk = true ∧ decodeTableWord 64 1 = some (.xmit wf0) ∧
    decodeTableWord 512 8 = some .nopk ∧ (encode .powerLoss) = none := by
  refine ⟨?_, by decide +kernel⟩
  intro m hm
  fin_cases hm <;> decide +kernel

/-! ### Further clauses: comparisons, spills of the mask stack and of frames, exits of whole splits -/

/-- A comparison writes a predicate for every condition and both elements of a row. -/
theorem test_hyp_FloatingPointResults_compare : ∀ m ∈ [Mn.fcmp, .dcmp], ∀ cc : Fin 8, let f := { form m with ext := BitVec.ofNat 5 cc }
    Meets s0 m f c0 p0 ((m = .fcmp ∨ m = .dcmp) ∧ ∃ t, f.sel = .ty t) := by
  intro m hm cc
  fin_cases hm <;> fin_cases cc <;> exact meets (by decide +kernel) ⟨by decide, _, rfl⟩
/-- R189 on patterns: a NaN, the zeros, a denormal under FTZ, negative numbers. -/
theorem test_fp_condition : fpCondition (fmtOf .f32) false 6 0x7FC00000 0 ∧ ¬ fpCondition (fmtOf .f32) false 7 0x7FC00000 0 ∧
    fpCondition (fmtOf .f32) false 1 0x7FC00000 0x7FC00000 ∧ ¬ fpCondition (fmtOf .f32) false 0 0x7FC00000 0x7FC00000 ∧
    fpCondition (fmtOf .f32) false 0 0x80000000 0 ∧ fpCondition (fmtOf .f32) true 0 1 0 ∧ ¬ fpCondition (fmtOf .f32) false 0 1 0 ∧
    fpCondition (fmtOf .f32) false 2 0xC0000000 0xBF800000 := by
  refine ⟨?_, ?_, ?_, ?_, ?_, ?_, ?_, ?_⟩ <;> simp [fpCondition, fpIsNan, fpOrder, intCondition, fmtOf, Fmt.infBits, Fmt.signBit]
/-- The mask stack holds 7 entries: the spill area has room for the oldest, and has none. -/
def stacked (n : Nat) : Split := { p0 with mask := 0xFF, mstack := (List.range n).map fun k => .path (BitVec.ofNat 56 (0x10300 + 12 * k)) 0xFF00 0x10600 0x880 0 }
def fullC (s63 : Word) : Crew := { full with p := [(1, 0xF)], s := [(63, s63)], splits := Tab.put full.splits 0 (stacked 7) }
theorem test_hyp_BranchesFollowTheirPaths_spill : ∀ e ∈ [(0x101000 : Word), 0x10002F], let c := fullC e
    Meets (on c) .bra (under1 (form .bra)) c (stacked 7) (newSplits c 1 = 0 ∧ (stacked 7).mstack.length = 7 ∧ lowest (stacked 7).mask c.width ≠ none ∧
      runLanes (on c) .bra (under1 (form .bra)) 0 0 c (stacked 7) = 0xF ∧ pcRel (stacked 7).pc 1 ≠ (stacked 7).pc + 12 ∧
      (e = 0x10002F → (c.uni 63).toNat < c.spillTop.toNat + 48) ∧ (e = 0x101000 → SpillRoom (on c) 0 c 48 (inHome 0x100000 48))) := by
  intro e he
  fin_cases he <;> refine meets (by decide +kernel) ⟨by decide +kernel, by decide +kernel, by decide +kernel, by decide +kernel, by decide +kernel, ?_, ?_⟩
  · exact fun h => absurd h (by decide)
  · exact fun _ => ⟨by decide +kernel, home_range (by decide +kernel), units (by decide +kernel)⟩
  · exact fun _ => by decide +kernel
  · exact fun h => absurd h (by decide)

/-- A crew whose one split stands in a frame of `n` rows: a call finds no room beside it, or only where the entry frame is spilled. -/
def deep (n : Nat) : Split :=
  { p0 with wbase := (64 - n) % 64, depth := 1, frames := [{ ret := 0x1000C, size := n, base := 0, spilled := none }] }
def deepC (n : Nat) (s63 : Word) : Crew := one { c1 with s := [(8, 2), (63, s63)] } (deep n)
theorem test_hyp_CallsAndReturns_spill : ∀ q ∈ [(62, (0x101000 : Word)), (48, 0x101000), (48, 0x10080F)], ∀ m ∈ [(Mn.call, form .call, 4), (.callx, callx, 8)],
    let c := deepC q.1 q.2
    Meets (onO c) m.1 m.2.1 c (deep q.1) (runLanes (onO c) m.1 m.2.1 0 0 c (deep q.1) = (deep q.1).mask ∧
      (let sizes := frameSizes c.entryF (deep q.1).frames
       (q.1 = 62 → c.wrows < sizes.headD 0 + m.2.2) ∧
       (q.1 = 48 → (∀ r ∈ (deep 48).frames, r.spilled = none) ∧ sizes.headD 0 + m.2.2 ≤ c.wrows ∧ c.wrows < sizes.sum + m.2.2 ∧ c.splits = [(0, deep q.1)] ∧
         sizes.sum + m.2.2 - c.entryF ≤ c.wrows)) ∧
      (q.2 = 0x10080F → (c.uni 63).toNat < c.spillTop.toNat + (c.entryF * c.width * 4 + 16)) ∧
      (q.2 = 0x101000 → SpillRoom (onO c) 0 c 2064 (inHome 0x100000 2064))) := by
  intro q hq m hm
  fin_cases hq <;> fin_cases hm <;> refine meets (by decide +kernel) ⟨by decide +kernel, by decide +kernel, ?_, ?_⟩
  all_goals first
    | exact fun h => absurd h (by decide)
    | exact fun _ => ⟨by decide +kernel, home_range (by decide +kernel), units (by decide +kernel)⟩
    | exact fun _ => by decide +kernel
/-- The same crew with another split, which goes on or waits at a merge: the split waits in frame-wait, or the crew stops. -/
def deepTwo (st : SplitSt) : Crew := { deepC 48 0x101000 with splits := [(0, { deep 48 with mask := 0xFFFF }), (1, { deep 48 with mask := 0xFFFF0000, st := st })] }
theorem test_hyp_CallsAndReturns_frame_wait : ∀ st ∈ [SplitSt.ready, .mergeWait], let c := deepTwo st
    let sp := { deep 48 with mask := 0xFFFF }
    Meets (onO c) .call (form .call) c sp (runLanes (onO c) .call (form .call) 0 0 c sp = sp.mask ∧ Tab.sorted c.splits = true ∧
      ∃ e ∈ c.splits, e.1 ≠ 0 ∧ e.2.st = st) := by
  intro st h
  fin_cases h <;> exact meets (by decide +kernel) ⟨by decide +kernel, by decide +kernel, (1, _), List.mem_cons_of_mem _ (List.mem_singleton.mpr rfl), by decide, rfl⟩
/-- A return to a frame that lies in the spill area at 0x100000. -/
def spilledFrame : SpillRec (Table Row) := { base := 0x100000, bytes := List.replicate 2064 1, kept := [] }
def upper : Split := { called with frames := [{ ret := 0x1000C, size := 4, base := 0, spilled := some spilledFrame }] }
theorem test_hyp_CallsAndReturns_refill : let c := { one c0 upper with spillTop := 0x100810 }
    Meets (on c) .ret (form .ret) c upper (runLanes (on c) .ret (form .ret) 0 0 c upper = upper.mask ∧ some0 (on c) .ret (form .ret) c upper ∧
      c.splits = [(0, upper)] ∧ (∀ tm, (on c).team? c.team = some tm → tm.opq = []) ∧ c.width ≤ 128 ∧ (on c).UnitsAgree (coreUnits (0 / 64)) c.ctx ∧
      (on c).HomeRange c.ctx spilledFrame.base.toNat spilledFrame.bytes.length false ((on c).dclass c) (inHome 0x100000 2064)) :=
  meets (by decide +kernel) ⟨by decide +kernel, by decide +kernel, rfl, all_some (a := t0) (by decide +kernel) (by decide +kernel), by decide +kernel,
    units (by decide +kernel), home_range (by decide +kernel)⟩

/-- A whole split exits: an entry on its mask stack has lanes left; its join record has another side, none, or one that waits. -/
theorem test_hyp_ExitsMergesAndBoosts_exit_stack : ∀ e ∈ [MaskEntry.path 0x10018 0xFF00 0x10600 0x880 0, .rj 0x10600 0xFFFF 0x880 0], let sp := merging e
    let c := one c0 sp
    c.arriving = [] ∧ (∀ q ∈ c.splits, q.2.st ≠ .frameWait) ∧ Meets (on c) .exit (form .exit) c sp (let run := runLanes (on c) .exit (form .exit) 0 0 c sp
      run ≠ 0 ∧ sp.mask &&& ~~~run = 0 ∧ sp.mstack = [e] ∧ sp.mspill = [] ∧ (match e with | .path _ l _ _ _ | .rj _ l _ _ => l &&& ~~~run ≠ 0)) := by
  intro e he
  fin_cases he <;> exact ⟨rfl, by decide +kernel, meets (by decide +kernel) (by decide +kernel)⟩
theorem test_hyp_ExitsMergesAndBoosts_exit_join : ∀ q ∈ [(2, SplitSt.ready), (1, .ready), (1, .mergeWait)], let c := joined q.1 q.2
    c.arriving = [] ∧ (∀ e ∈ c.splits, e.2.st ≠ .frameWait) ∧ Meets (on c) .exit (form .exit) c (side 0 .ready)
      (let run := runLanes (on c) .exit (form .exit) 0 0 c (side 0 .ready)
       run ≠ 0 ∧ (side 0 .ready).mask &&& ~~~run = 0 ∧ (side 0 .ready).mstack = [] ∧ (side 0 .ready).join = some 0 ∧ Tab.sorted c.splits = true ∧
         (∃ r, Tab.find c.joins 0 = some r ∧ r.sides = q.1 ∧ r.parent = none) ∧ c.split? 1 = some (side 1 q.2) ∧ (side 1 q.2).join = some 0) := by
  intro q hq
  fin_cases hq <;> exact ⟨by decide +kernel, by decide +kernel, meets (by decide +kernel) ⟨by decide +kernel, by decide +kernel, rfl, rfl, by decide +kernel,
    ⟨_, rfl, rfl, rfl⟩, by decide +kernel, rfl⟩⟩
/-- A PATH entry is popped, and the one that was spilled at 0x100000 comes back. -/
def spilledEntry : SpillRec MaskEntry := { base := 0x100000, bytes := List.replicate 48 0, kept := .rj 0x10600 0xFFFF 0x880 0 }
theorem test_hyp_ExitsMergesAndBoosts_refill : let sp := { merging (.path 0x10018 0xFF00 0x10000 0x880 0) with mspill := [spilledEntry] }
    let c := one c0 sp
    ((on c).crew? 0 = some c ∧ c.split? 0 = some sp ∧ c.st = .running ∧ sp.st = .ready ∧ (∀ e ∈ c.splits, e.2.st ≠ .frameWait) ∧
      sp.mstack = [.path 0x10018 0xFF00 sp.pc 0x880 0] ∧ sp.wbase = 0 ∧ sp.pc ≠ 0x10018 ∧ sp.join = none ∧
      (on c).runBytes (homeRuns (inHome 0x100000 48)) = spilledEntry.bytes) ∧ (on c).UnitsAgree (coreUnits (0 / 64)) c.ctx ∧
      (on c).HomeRange c.ctx spilledEntry.base.toNat spilledEntry.bytes.length false ((on c).dclass c) (inHome 0x100000 48) :=
  ⟨by decide +kernel, units (by decide +kernel), home_range (by decide +kernel)⟩

/-! ### Further clauses: accesses, claims and privileged instructions -/

/-- A crew with no store on its way has none ahead of an access; the states above hold no lease, no pass and no spilled team. -/
theorem test_hyp_nothing_ahead (s : State) (c : Crew) (h : c.storeq = []) : (∀ n ls, s.windowAhead c n ls = false) ∧ ∀ core id, s.farAhead core c id = false := by
  refine ⟨fun n ls => ?_, fun core id => by simp [State.farAhead, h]⟩
  rw [State.windowAhead, h]
  split <;> rfl
theorem test_hyp_no_leases : (∀ ln, ((on cl).lineAt ln).excl = none) ∧ (∀ ln l, Tab.find s0.lines ln = some l → l.excl = none) ∧ (withPeers (on c0)).passes = [] ∧
    (∀ s ∈ [ts c0 tt, crowded], ∀ e ∈ s.teams, e.2.spilled = false) := by
  refine ⟨fun _ => rfl, ?_, by decide +kernel, by decide +kernel⟩
  intro ln l h
  rw [show s0.lines = [] by decide +kernel] at h
  cases h
/-- A lease that another core holds on the line still, and a thread whose own window store is on its way to the bytes. -/
theorem test_hyp_QueuedOperationsPerform_leased : let s : State := { s0 with lines := [(0x800, { n := 0, stored := false, expMod := 0, expFab := 0, writes := [], excl := some (3, 99) })] }
    (s.lineAt 0x800).excl = some (3, 99) ∧ s.now < 99 := by decide +kernel
theorem test_hyp_ScratchAccesses_behind : let c := { c0 with storeq := [{ st0 .store [0] with lanes := [{ lane := 0, loc := .far (2 ^ 20) 16, data := 5, expect := 0 }] }] }
    (on c).windowAhead c 4 [(0, 16)] = true ∧ (on c).windowAhead c 4 [(1, 16)] = false ∧ (on c).windowAhead c 4 [(0, 20)] = false := by decide +kernel
/-- A store that an older one of another crew of the core, to the same bytes of another module, keeps waiting. -/
def farSt (n : Nat) : StoreEntry := { st0 .store [0x800] with id := n, lanes := [{ lane := 0, loc := .far 1 0x20000, data := 5, expect := 0 }] }
theorem test_hyp_SourcesFinishPasses_behind : let c := { cw with storeq := [farSt 4] }
    let s := { ps .rst 1 with crews := [(0, c), (1, { other with storeq := [farSt 2] })] }
    s.farAhead 0 c 4 = true ∧ s.passes = [(3, pset .rst)] ∧ s.crew? 0 = some c ∧ c.split? 0 = some waitsFor := by decide +kernel
/-- The bytes of a tile of the name are being gathered; its next hop is down; the name is local. -/
theorem test_hyp_KeepersServeNamesAndStockTiles_accepting : (let s := { ann Jd.reset 1 with engines := [(4, { anOp with far := [(1, 1)] })] }
      s.accepting na = true ∧ (s.jd 0).stocked na s.now = none ∧ (s.jd 0).pending na = none) ∧
    (let s := { kj Jd.reset 0 with links := [] }
     s.linkUp 2 = false ∧ s.accepting na = false ∧ (s.jd 0).stocked na s.now = none ∧ (s.jd 0).pending na = none ∧ s.hopOf na = some 2 ∧ s.now < 50) ∧
    (let d := jw .forwarded (some 2) (.link 3)
     let s := { kj d 0 with links := [] }
     d.pending na = some (1, cle .forwarded (some 2)) ∧ (cle .forwarded (some 2)).hop = some 2 ∧ s.linkUp 2 = false ∧ s.accepting na = false ∧
       d.linkRec (cle .forwarded (some 2)) (.link 4) = none) := by decide +kernel
/-- `eret` EXIT of a crew of the service context, and ABORT of a crew of another context. -/
theorem test_hyp_PrivilegedInstructions_exit_abort : (let s := beside (dn .stopped) 1
      Meets s .eret (er 2) (a32 at1) p0 (s.crewOfId at1 = some (1, dn .stopped) ∧ (dn .stopped).arriving = [] ∧ (∀ e ∈ (dn .stopped).splits, e.2.wait.asksTiles = false) ∧
        s.team? (dn .stopped).team = some t0 ∧ t0.gdetach = [] ∧ t0.bars = [] ∧ quietTiles s)) ∧
    (let d := { dn .stopped with ctx := 1, team := 1 }
     let id := crewId 1 1
     let c := a32 id
     let s := { on c with crews := [(0, c), (1, d)], ctxs := [(1, placedCtx Ctx.reset), (4095, placedCtx (s0.ctx 4095))], teams := [(0, t0), (1, { t0 with ctx := 1, crews := [1] })] }
     Meets s .eret (er 3) c p0 (s.crewOfId id = some (1, d) ∧ d.st = .stopped ∧ (s.ctx d.ctx).state ≠ 3 ∧ d.ctx ≠ c.ctx ∧ operand64 c (er 3).b = 3 ∧
       s.ctxInScope c.ctx 1 = true)) := by
  unfold quietTiles
  exact ⟨meets (by decide +kernel) (by decide +kernel), meets (by decide +kernel) (by decide +kernel)⟩

/-! ### Further clauses: winches, packets and queues -/

/-- An entry that cannot be read names no set. -/
theorem no_set {s : State} {ctx set : Nat} (h : walked (s.walk ctx (((s.ctx ctx).wsetBase.toNat + 32 * set) % 2 ^ 56)) = some none) :
    ∀ rs ps, ¬ s.SetIs ctx set rs ps := by
  rintro rs ps ⟨p, _, _, hr, he, _⟩
  exact no_table h ⟨p, hr, he⟩
theorem test_hyp_WinchSetsAndCommands_unreadable : let s : State := { stt 1 [] c0 with ctxs := [(4095, { placedCtx (s0.ctx 4095) with wsetBase := 2 ^ 40 })] }
    s.setBusy 4095 0 = false ∧ ∀ rs ps, ¬ s.SetIs 4095 0 rs ps := ⟨by decide +kernel, no_set (by decide +kernel)⟩
/-- A command stopped with its chunk held, and one stopped without. -/
theorem test_hyp_WinchSetsAndCommands_held : ∀ h ∈ [true, false], let v := { rx64 6 (w0 0) with state := 4, held := h }
    (sw v).wctx 0 0 = v ∧ (sw v).wsets = [] ∧ v.cmd = none ∧ v.rx = [(6, List.replicate 64 3)] := by
  intro h hh
  fin_cases hh <;> decide +kernel
/-- A fault record waits while exclusive leases stand, and no line is leased here. -/
theorem test_hyp_no_leases_packets : (∀ s ∈ [sq q0 1, sw (w0 0)], s.lines = []) ∧ (∀ s ∈ [sq q0 1, sw (w0 0), s0], s.tileReqs = [] ∧ ∀ e ∈ s.teams, e.2.spilled = false) := by
  decide +kernel
/-- LAUNCH: misaligned pointers with a block that can be read, and with one that cannot; 4096 packets of the front end are incomplete. -/
theorem test_hyp_PacketsIssueAndComplete_launch_refused : (sq q0 1).frontEnd < 4096 ∧ 0x40004 % 64 ≠ 0 ∧ (0x40004 % 8 ≠ 0 ∨ 0x40000 % 4 ≠ 0) ∧ (0x40000 % 8 ≠ 0 ∨ 0x40002 % 4 ≠ 0) ∧
    (sq q0 1).HomeRange 4095 0x40000 64 false false (inHome 0x40000 64) ∧ isBad (agentRead (Go.start (sq q0 1)) (queueKey 0 1) 4095 (2 ^ 40) 64).1 = true :=
  ⟨by decide +kernel, by decide, by decide, by decide, home_range (by decide +kernel), by decide +kernel⟩
theorem front_end (n : Nat) : (sq { q0 with runs := List.replicate n { run1 with launch := some 0 } } 1).frontEnd = n := by
  simp [State.frontEnd, sq]
theorem test_hyp_PacketsIssueAndComplete_full : ∀ rs : List PktRun, rs = List.replicate 4096 { run1 with launch := some 0 } →
    (sq { q0 with runs := rs } 1).queueIssuer = some (0, { q0 with runs := rs }) ∧ 4096 ≤ (sq { q0 with runs := rs } 1).frontEnd := by
  rintro rs rfl
  exact ⟨rfl, (front_end 4096).ge⟩
theorem test_hyp_PacketsIssueAndComplete_wset_unreadable : let s : State := { sws 1 [] with ctxs := [(4095, { placedCtx (s0.ctx 4095) with wsetBase := 2 ^ 40 })] }
    s.queueIssuer = some (0, q0) ∧ s.frontEnd < 4096 ∧ ∀ rs ps, ¬ s.SetIs 4095 0 rs ps := ⟨by decide +kernel, by decide +kernel, no_set (by decide +kernel)⟩
/-- A queue that leaves its slot: while its packet is being checked, while its control block is being written, and then. -/
theorem test_hyp_QueuesAreScheduled_leaves : let v := { qw with mapped := true, leaves := true, pending := false, slot := 0 }
    ((qp v).queue 3 = v ∧ (qp v).storeStands (queueKey 3 3) = none ∧ (qp v).checking 3 = false) ∧
    (let s := { qp v with engines := [(queueKey 3 0, agentOp 4095 [])] }; s.checking 3 = true ∧ s.storeStands (queueKey 3 3) = none) ∧
    (let s := { qp v with engines := [(queueKey 3 3, { agentOp 4095 [] with far := [(0, 1)] })] }; s.storeStands (queueKey 3 3) = some .wait) ∧
    (let s := { qp v with engines := [(queueKey 3 3, { agentOp 4095 [] with left := [] })] }; s.storeStands (queueKey 3 3) = some .done) ∧
    ({ qp { v with halted := true } with mod := { (qp v).mod with hostUp := true } } : State).mod.hostUp = true ∧
    ({ qp v with mod := { (qp v).mod with hostUp := false } } : State).mod.hostUp = false := by decide +kernel

/-! ### Further clauses: saved gangs and vacated cores -/

/-- A saved gang, whose one member here is team 0: every module says so, it is reserved, committed, and goes. -/
def svG : State :=
  { sd [] [(7, { gd .saved (some 0) with teams := [(0, 0)], prev := .running, savedFrom := [1] })] [(0, { tS with gang := some 7, gangSize := 2 })] with saved := [(1, sv)] }
theorem test_hyp_DistributorPlacesTeamsAndGangs_saved_gang : ∃ g, Tab.find svG.gangs 7 = some g ∧ g.st = .saved ∧ g.coord = svG.mod.modid ∧ g.window = some 0 ∧
    (∀ q ∈ g.members, q ∈ withModule g.savedFrom 0) ∧ g.detached = [] ∧ g.lost = [] ∧ g.members ≠ [] ∧ Tab.vals g.teams = [0] ∧
    (∃ tm, svG.team? 0 = some tm ∧ svG.memberOf tm = some 7) ∧ Tab.find svG.saved (2 * 0 + 1) = some sv ∧ (∀ e ∈ sv.crews, waitsForNothing e.2) ∧
    Tab.sorted sv.crews = true ∧ quietTiles svG := by
  unfold waitsForNothing quietTiles
  exact ⟨_, rfl, rfl, by decide +kernel, rfl, by decide +kernel, rfl, rfl, by decide +kernel, by decide +kernel, ⟨_, rfl, by decide +kernel⟩, by decide +kernel,
    by decide +kernel, by decide +kernel, by decide +kernel⟩
theorem test_hyp_DistributorPlacesTeamsAndGangs_saved_window : let g := { gd .saved none with teams := [(0, 0)] }
    let s := { svG with gangs := [(7, g)] }
    Tab.find s.gangs 7 = some g ∧ g.committed = false ∧ s.windowNow 7 g = some (0, [0], [], 0) ∧ (s.coreOf 0).heldBy = none ∧ (s.ctx g.pend.ctx).state ≠ 2 := by
  decide +kernel
/-- DV.GO over one core: empty, with a team of a lower class, with a gang's member; and the end of the vacating. -/
def dvS (ts : Table Team) (gs : Table Gang) : State :=
  { sd [] gs ts with cores := [], parts := [(0, { Part.reset with dies := 1, active := true, dvCores := [0], hbmLimit := 2 ^ 40 })] }
def dvW (n : Nat) : Word := BitVec.ofNat 64 (2 ^ 63 + n)
def tD : Team := { t0 with ctx := 1, prio := 3 }
theorem test_hyp_DistributorPlacesTeamsAndGangs_vacate : (∀ n ∈ [1, 640], (dvW n).toNat / 2 ^ 63 = 1 ∧ (dvW n).toNat % 2 ^ 10 = n) ∧
    (vacateCores (dvS [] []) 0 0 1 = [0] ∧ (dvS [] []).teamsOn 0 = []) ∧
    (let s := dvS [(0, tD)] []
     vacateCores s 0 0 1 = [0] ∧ (s.part 0).dvBusy = false ∧ s.team? 0 = some tD ∧ s.memberOf tD = none ∧ tD.saved = false ∧ tD.lost = false ∧ 0 ∈ tD.cores) ∧
    (let g := { gd .running (some 0) with teams := [(0, 0)] }
     let t := { tD with gang := some 7, gangSize := 2 }
     let s := dvS [(0, t)] [(7, g)]
     vacateCores s 0 0 1 = [0] ∧ s.memberOf t = some 7 ∧ Tab.find s.gangs 7 = some g) := by
  unfold vacateCores
  decide +kernel
theorem test_hyp_DistributorPlacesTeamsAndGangs_vacated : let s := { dvS [] [] with parts := [(0, { Part.reset with dies := 1, active := true, dvBusy := true, dvCores := [0] })] }
    s.leaver 0 = none ∧ s.waitingTeams 0 = [] ∧ (s.part 0).dvBusy = true ∧ ∀ c ∈ (s.part 0).dvCores, ∀ e ∈ s.teamsOn c, s.vacateWaits e.2 = false := by decide +kernel
/-- A team that is to leave, its one crew drained. -/
def leavS : State :=
  { dvS [(0, { tD with leaving := true, started := false })] [] with
      mem := s0.mem, ctxs := [(1, { placedCtx Ctx.reset with part := 0, saveBase := 0x100000, saveSize := 0x100000 })]
      crews := [(0, { c0 with ctx := 1, splits := [(0, { p0 with mask := 1 })], v := [], s := [], p := [] })] }
theorem test_hyp_DistributorPlacesTeamsAndGangs_leaves : leavS.leaver 0 = some 0 ∧ (∃ tm, leavS.team? 0 = some tm ∧ leavS.memberOf tm = none) ∧ Tab.sorted leavS.crews = true ∧
    quietTiles leavS := by
  unfold quietTiles
  exact ⟨by decide +kernel, ⟨_, rfl, by decide +kernel⟩, by decide +kernel, by decide +kernel⟩
/-- Its image of 16448 bytes, whose contents are open in part, has room in the save area at 0x100000, and so has its directory entry. -/
theorem test_hyp_DistributorPlacesTeamsAndGangs_image : fitExtent (leavS.images 1) (leavS.ctx 1).saveSize.toNat 16448 = some 65536 ∧
    leavS.HomeRange 1 0x110000 16448 true false (inHome 0x110000 16448) ∧ leavS.HomeRange 1 0x100000 64 true false (inHome 0x100000 64) :=
  ⟨by decide +kernel, home_range (by decide +kernel), home_range (by decide +kernel)⟩

/-! ### Further clauses: registers, contexts, links and fabric time -/

/-- The board controller, and a host behind a link that is down. -/
theorem test_hyp_SystemRegisterAccesses_board : (ss true false).reaches .board true (.ident 5) = true ∧ (ss true false).reaches .board true (.ident 4) = false ∧
    (ss false false).mod.hostUp = false := by decide +kernel
theorem test_hyp_ContextsAreResolvedAndTornDown_exit : (let s := scx .stopped 1
      let c := { c1x (dn .stopped) with arriving := [] }
      s.crewOfId id1 = some (1, c) ∧ (∀ e ∈ c.splits, e.2.wait.asksTiles = false) ∧ quietTiles s) ∧
    (si1 vi1 []).mod.hostUp = true ∧ ({ si1 vi1 [] with mod := { (si1 vi1 []).mod with hostUp := false } } : State).mod.hostUp = false := by
  unfold quietTiles
  decide +kernel
/-- A module that has booted: a partition with a team, one whose dies another has, and one that is free. -/
def booted (s : State) : State := { s with mod := { s.mod with bootStage := 7 } }
theorem test_hyp_RingsLatchesAndPartitions_booted : (booted (sd [] [] [])).mod.ready = true ∧ (sd [] [] []).mod.ready = false ∧ (booted (sd [] [] [])).partBusy 1 = false ∧
    (∀ q, q < 8 → q ≠ 1 → ((booted (sd [] [] [])).part q).dies &&& 2 = 0) ∧ (booted (sl0 (lk 0) 10000)).mod.ready = true ∧ ((booted (sl0 (lk 0) 10000)).link 0).state = 0 ∧
    (booted (sl0 (lk 0) 10000)).ft.fail = false ∧ (booted (sl0 (lk 0) 10000)).mod.errFatal = 0 := by decide +kernel
/-- Links in training with room for their numbers and with flits that wait; with all lanes, 11 of them and 7; fabric time that passes two microseconds. -/
theorem test_hyp_LinksTrainAndReplay_training : ∀ st ∈ [1, 3], ∀ w ∈ [[], [(1, 0, [], { linkOnly with path := 1 })]],
    let v := { lk (BitVec.ofNat 3 st) with todo := w }
    (sl0 v 10000).link 0 = v ∧ Tab.get 0 (v.toWindow 10000).txIvc (v.toWindow 10000).txSel + 4 + (v.toWindow 10000).todo.length ≤ 2 ^ 48 ∧
      8 ≤ (lanesIn (workingLanes (v.toWindow 10000) 0xFFFF)).length ∧ (lanesIn (workingLanes (v.toWindow 10000) 0x007F)).length < 8 := by
  intro st hs w hw
  fin_cases hs <;> fin_cases hw <;> decide +kernel
theorem test_hyp_LinksTrainAndReplay_passes : let s := { sl0 (lk 2) 500 with ft := { FabTime.reset with run := true } }
    s.ft.run = true ∧ s.ft.slew = 0 ∧ (s.link 0).state = 2 ∧ s.now < 1000 ∧ 2000 ≤ s.now + 1600 := by decide +kernel
/-- A window in which one lane reaches its retirement, and the score that R457 gives each of the others. -/
theorem test_health_window : ((lk 2).endWindow.state, Tab.get 0 (lk 2).endWindow.health 3, (lk 2).endWindow.marked.getLsbD 3, (lk 2).endWindow.marked.getLsbD 4) =
    (3, 175, true, false) := by decide +kernel

/-! ### Further clauses: flits, requests, fatal errors and steps -/

/-- A flit of a crew's pass, header of type 1: its link up with room, and with 256 flits held; parts of a chunk of 64 and of 1024 bytes. -/
def raw1 : List Byte := Header.bytes { ty := 1, key := 0, seqv := true, ackv := false, seq := 0, ack := 0, ivc := 0, info := 0 } ++ List.replicate 240 0
def upLink (n : Nat) : Link := { Link.reset with state := 2, txKey := [(0, 5, 0)], held := List.replicate n (0, flx 1 0, 0) }
theorem test_hyp_FlitsAreReceivedAndForwarded_transit : ∀ n ∈ [0, 256], let s := { withPeers s0 with links := [(0, upLink n)] }
    (peerEntry (Go.start s) 1).1 % 4 = 1 ∧ (s.link 0).state = 2 ∧ Tab.find (s.link 0).txKey (s.link 0).txSel ≠ none ∧
      Tab.get 0 (s.link 0).txIvc (s.link 0).txSel < 2 ^ 48 ∧ (s.link 0).todo = [] ∧ (s.link 0).held.length = n ∧ (Header.ofBytes raw1).ty = 1 := by
  intro n h
  fin_cases h <;> decide +kernel
theorem test_hyp_FlitsAreReceivedAndForwarded_again_room : let s := { withPeers s0 with links := [(0, upLink 0)] }
    (∀ d, d < 32 → (s.link d).state = 2 → Tab.find (s.link d).txKey (s.link d).txSel ≠ none ∧ (s.link d).held.length < 256 ∧ (s.link d).todo = [] ∧
      Tab.get 0 (s.link d).txIvc (s.link d).txSel < 2 ^ 48) ∧ s.earlierInFlight (flx 1 0) = false ∧ (flx 1 0).src = s.mod.modid := by decide +kernel
/-- FL.INFO of a chunk's part: channel 1, set 2, 2^6 or 2^10 bytes. -/
theorem test_chunk_info : ∀ q ∈ [(6, true), (10, false)], let info := 1 + 4 * 2 + 1024 * q.1
    info % 4 = 1 ∧ info / 4 % 256 = 2 ∧ info / 1024 % 32 = q.1 ∧ (2 ^ (info / 1024 % 32) ≤ 208 ↔ q.2 = true) := by decide
/-- A request whose record lies at 0x20000 and is read, and one whose record no page holds. -/
theorem test_hyp_InstallationRequests_record : ∀ q ∈ [(0x20000, true), (0x20004, true), (2 ^ 40, false)], let v := { Vi.reset with en := true, instBusy := true, instCtx := 4095, instReq := some (BitVec.ofNat 64 q.1) }
    let s := { s0 with vis := [(1, v)], mem := placeBytes s0.mem 0x20000 (leBytes (2 ^ 256) 64) }
    s.vi 1 = v ∧ (q.1 = 0x20000 → leNat (s.bytesAt 0x20000 64) / 2 ^ 256 % 256 = 1) ∧ (q.2 = true → s.HomeRange 4095 q.1 64 false false (inHome q.1 64)) := by
  intro q hq
  fin_cases hq
  · exact ⟨by decide +kernel, fun _ => by decide +kernel, fun _ => home_range (by decide +kernel)⟩
  · exact ⟨by decide +kernel, fun h => absurd h (by decide), fun _ => home_range (by decide +kernel)⟩
  · exact ⟨by decide +kernel, fun h => absurd h (by decide), fun h => absurd h (by decide)⟩
/-- One context is active. -/
theorem test_hyp_ResetPowerAndFatalErrors_records : Tab.sorted s0.ctxs = true ∧ (s0.ctx 4095).state = 1 ∧ ∀ d, d ≠ 4095 → (s0.ctx d).state ≠ 1 := by
  refine ⟨by decide +kernel, by decide +kernel, fun d hd => ?_⟩
  have h : s0.ctxs = [(4095, s0.ctx 4095)] := by decide +kernel
  rw [State.ctx, h, Tab.get, Tab.find_cons, if_neg fun e => hd e, Tab.find_nil]
  decide
/-- A module held by a fatal error, at each kind of turn; a packet that is saved; a message that no flit carries. -/
theorem test_hyp_StepRunsTheDecodedInstruction_held : ∀ t ∈ [Turn.issue 0 0, .winch 0 0, .queue 0, .event .reset, .event .ptFlush, .elapse 5],
    let s := { s0 with mod := { s0.mod with errFatal := 1 }, agenda := [t] }
    s.powered = true ∧ s.mod.errFatal ≠ 0 ∧ s.agenda = [t] := by
  intro t h
  fin_cases h <;> decide +kernel
theorem test_hyp_StepRunsTheDecodedInstruction_saved : let v := { q0 with waiting := true, saved := some (2, 6) }
    let s := { sq v 1 with agenda := [.queue 0] }
    (tookTurn s [] (.queue 0)).queueIssuer = some (0, v) ∧ decodePacket (6 : BitVec 512).toNat = .ok .fencePacket ∧ Msg.flitType (.i3cAlert) = 0 := by decide +kernel

end Sys2Proof.Tests
end

section
/-! SUPPORT. The canonical form of the whole state: every primitive update keeps it, and so every path of updates (R9, R13, R14). -/

namespace Sys2Proof.Machine

/-- Setting or removing a key keeps the keys in rising order. -/
theorem Tab.sorted_upd {β : Type} (t : Table β) (k : Nat) (v : Option β) (ht : Tab.sorted t = true) : Tab.sorted (Tab.upd t k v) = true := by
  cases v with
  | none => exact Tab.sorted_del t k ht
  | some b => exact Tab.sorted_put t k b ht

end Sys2Proof.Machine

namespace Sys2Proof

open Machine

/-- One update keeps the canonical form: it sets a key of one table, or leaves every table as it is, or restarts. -/
theorem Canonical.apply (u : Upd) {s : State} (h : Canonical s) : Canonical (u.apply s) := by
  unfold Canonical at h ⊢
  cases u
  -- a key of a table with a default
  case mem | tag | wlog | track | tlb | core | cycle | part | vi | ctx | queue | slot | groups | jd | link | wctx | wcur | imem =>
    simp only [Upd.apply, h, Tab.wf_set, and_self]
  -- a key of a table without one
  case line | crew | team | launch | gang | saved | coloc | obj | engine | passSet | announce =>
    simp only [Upd.apply, h, Tab.sorted_upd, and_self]
  case poison k on => cases on <;> simp only [Upd.apply, h, Tab.sorted_put, Tab.sorted_del, and_self, if_true, Bool.false_eq_true, if_false]
  case restart keep => cases keep <;> simp only [Upd.apply, h, if_true, Bool.false_eq_true, if_false, true_and] <;> decide
  all_goals exact h

/-- Settles O59: a step and an instruction move by updates only (Laws/Reach.lean), and each update keeps the canonical form. -/
theorem stepsKeepMemoryCanonical : Obligations.StepsKeepMemoryCanonical :=
  ⟨fun _ _ h e => (step_reach e).keeps (fun u _ => Canonical.apply u) h, fun _ _ _ h e => (exec_reach e).keeps (fun u _ => Canonical.apply u) h⟩

end Sys2Proof
end

section
/-! SUPPORT. The state after reset: what its tables list, and what its registers read (R13). -/

namespace Sys2Proof

open Machine

theorem Canonical.reset : Canonical State.reset := by unfold Canonical; decide

end Sys2Proof

namespace Sys2Proof.Machine

/-- Every context but the module service context has its reset registers. -/
theorem State.ctx_reset {c : Nat} (h : c ≠ 4095) : State.reset.ctx c = Ctx.reset := by
  simp [State.ctx, State.reset, Tab.get, Tab.find, h]

/-! The tables of the other objects list nothing. -/

@[simp] theorem State.part_reset (p : Nat) : State.reset.part p = Part.reset := rfl
@[simp] theorem State.vi_reset (n : Nat) : State.reset.vi n = Vi.reset := rfl
@[simp] theorem State.queue_reset (q : Nat) : State.reset.queue q = Queue.reset := rfl
@[simp] theorem State.link_reset (l : Nat) : State.reset.link l = Link.reset := rfl

theorem viWord_reset (k : Nat) : viWord Vi.reset k = 0 := by
  unfold viWord
  split <;> decide

theorem trWord_reset {c : Nat} (h : c ≠ 4095) (k : Nat) : trWord State.reset c k = 0 := by
  unfold trWord
  split
  case h_2 =>
    rw [show State.reset.crews = [] from rfl, List.filter_nil, State.ctx_reset h]
    decide
  all_goals simp only [State.tagData, State.ctx_reset h] <;> decide

theorem measWord_reset (i k : Nat) : regRead State.reset (.meas i k) = 0 := by
  change BitVec.ofNat 64 (bitf 0 (64 * k) 64) = 0
  simp [bitf]

theorem timeWord_reset {k : Nat} (h : k < 2) : regRead State.reset (.time k) = 0 := by
  have : k = 0 ∨ k = 1 := by omega
  rcases this with rfl | rfl <;> decide

theorem partWord_reset (p : Nat) : State.reset.partWord p = 0x20000 := by
  have busy : State.reset.partBusy p = false := rfl
  simp [State.partWord, busy, Part.reset]

/-- A partition's registers after reset (R370, R411, R417, R429, R465). -/
theorem partRegs_reset (p : Nat) : regRead State.reset (.part p) = 0x20000 ∧ regRead State.reset (.qsa p 0) = 0 ∧ regRead State.reset (.qsa p 1) = 1000 ∧
    regRead State.reset (.dist p 0) = 2000 ∧ regRead State.reset (.dist p 1) = 500 ∧ regRead State.reset (.dist p 4) = 0x100000040 ∧
    regRead State.reset (.phbm p 0) = 0 ∧ regRead State.reset (.phbm p 1) = 0 ∧ regRead State.reset (.lse p) = 16 := by
  simp only [regRead, partWord_reset, State.part_reset]
  decide

/-- A context's registers after reset (R372, R406, R432). -/
theorem ctxRegs_reset {c : Nat} (h : c ≠ 4095) : regRead State.reset (.ctx c 0) = 0 ∧ regRead State.reset (.ctx c 1) = 0 ∧
    regRead State.reset (.ctx c 3) = 0 ∧ regRead State.reset (.ctx c 4) = 4 ∧ regRead State.reset (.ctx c 17) = 4096 ∧
    ∀ k, regRead State.reset (.tr c k) = 0 := by
  simp only [regRead, State.ctx_reset h, trWord_reset h, forall_const]
  decide

/-- A queue's registers after reset (R394). -/
theorem queueRegs_reset (q : Nat) : regRead State.reset (.queue q 0) = 0x430 ∧ regRead State.reset (.queue q 1) = 0 ∧ regRead State.reset (.queue q 2) = 0 ∧
    regRead State.reset (.queue q 3) = 0 ∧ regRead State.reset (.queue q 4) = 0xFF0C0000 := by
  simp only [regRead, State.queue_reset]
  decide

theorem slotReg_reset (n : Nat) : regRead State.reset (.slot n) = 0 := by
  change BitVec.ofNat 64 (slotWord Slot.reset) = 0
  decide

/-- A link's registers after reset (R456). -/
theorem linkRegs_reset (l : Nat) : regRead State.reset (.link l 0) = 0xFFFFA000 ∧ regRead State.reset (.link l 1) = 0 ∧ regRead State.reset (.link l 4) = 0 := by
  simp only [regRead, State.link_reset]
  decide

end Sys2Proof.Machine

namespace Sys2Proof

open Machine

/-- Settles O60: the tables list nothing but context 4095, so a register reads its object's reset value. -/
theorem resetLeavesTheSpecsValues : Obligations.ResetLeavesTheSpecsValues :=
  ⟨Canonical.reset, rfl, rfl, rfl, rfl, rfl, fun p _ => partRegs_reset p, fun _ k => congrArg (BitVec.ofNat 64) (viWord_reset k),
    fun _ h => ctxRegs_reset h.ne, queueRegs_reset, slotReg_reset, linkRegs_reset, fun _ h => timeWord_reset h, by decide, by decide, by decide,
    measWord_reset, fun _ => rfl⟩

end Sys2Proof
end

section
/-! SUPPORT. A fatal error in a context whose fault ring takes no record (R383, R484). -/

namespace Sys2Proof.Machine

theorem exec_fatalError (s : State) {code : Nat} (h : code < 4) : exec (.fatalError code) s = .next (fatal (Go.start s) code).st := if_pos h

/-- The state after reset with its service context active and without tables, so that no page holds its fault ring. -/
def State.untranslated : State := { State.reset with ctxs := [(4095, { Ctx.service with state := 1 })] }

/-- The record of the fatal error cannot be written, and the ring's interrupt (R383) goes out before the word to the board controller. -/
theorem untranslated_fatal_outbox : (fatal (Go.start State.untranslated) 1).st.outbox = [.msix 0 0, .i3cAlert] := by decide +kernel

end Sys2Proof.Machine

namespace Sys2Proof

open Machine

/-- Refutes O55: the clause of a fatal error says that the outbox gains the alert alone, but a context whose ring entry cannot be written raises
its interrupt as well, CTX.FRBAD going from 0 to 1 (R383). -/
theorem not_resetPowerAndFatalErrors : ¬ Obligations.ResetPowerAndFatalErrors := by
  intro h
  obtain ⟨-, -, fatalClause, -⟩ := h
  obtain ⟨-, raised⟩ := fatalClause State.untranslated 1
  obtain ⟨u, hu, -, -, -, -, outbox, -⟩ := raised (by decide) (by decide) rfl
  rw [exec_fatalError _ (by decide)] at hu
  injection hu with hu
  rw [← hu, untranslated_fatal_outbox] at outbox
  exact absurd outbox (by decide)

end Sys2Proof
end

section
/-! SUPPORT. Fields of a word as the masks that cut them out (R14, R369). -/

namespace Sys2Proof.Machine

open Sys2Proof

/-- The bits that a field's mask leaves of a word. -/
theorem and_fieldMask (x : Word) (lo n : Nat) : x &&& BitVec.ofNat 64 (2 ^ lo * (2 ^ n - 1)) = BitVec.ofNat 64 (2 ^ lo * bitf x.toNat lo n) := by
  refine BitVec.eq_of_getLsbD_eq fun i hi => ?_
  simp only [bitf, BitVec.getLsbD_and, BitVec.getLsbD_ofNat, hi, decide_true, Bool.true_and, Nat.testBit_two_pow_mul, Nat.testBit_two_pow_sub_one,
    Nat.testBit_mod_two_pow, Nat.testBit_div_two_pow, BitVec.testBit_toNat]
  by_cases h : lo ≤ i
  · simp [h, Bool.and_comm]
  · simp [h]

/-- Masks with no bit in common leave the sum of what each leaves. -/
theorem and_add_of_disjoint (x m n : Word) (h : m &&& n = 0) : x &&& (m + n) = (x &&& m) + (x &&& n) := by
  have h' : (x &&& m) &&& (x &&& n) = 0 := by
    rw [BitVec.and_assoc, BitVec.and_comm x n, ← BitVec.and_assoc m, h]
    simp
  rw [BitVec.add_eq_or_of_and_eq_zero _ _ h, BitVec.add_eq_or_of_and_eq_zero _ _ h', BitVec.and_or_distrib_left]

/-- A field at bit 0. -/
theorem and_lowMask (x : Word) (n : Nat) : x &&& BitVec.ofNat 64 (2 ^ n - 1) = BitVec.ofNat 64 (x.toNat % 2 ^ n) := by
  simpa [bitf] using and_fieldMask x 0 n

theorem bitf_one (x : Word) (i : Nat) : bitf x.toNat i 1 = (x.getLsbD i).toNat := by
  rw [bitf, Nat.pow_one, ← BitVec.testBit_toNat, Nat.toNat_testBit]

theorem bitf_one_beq (x : Word) (i : Nat) : (bitf x.toNat i 1 == 1) = x.getLsbD i := by
  rw [bitf_one]
  cases x.getLsbD i <;> rfl

theorem bitf_one_toNat (x : Word) (i : Nat) : (bitf x.toNat i 1 == 1).toNat = bitf x.toNat i 1 := by
  rw [bitf_one_beq, bitf_one]

theorem ofNat_bitf (x : Word) (lo n : Nat) : BitVec.ofNat n (bitf x.toNat lo n) = x.extractLsb' lo n :=
  BitVec.eq_of_toNat_eq (by simp [bitf, Nat.shiftRight_eq_div_pow])

end Sys2Proof.Machine
end

section
/-! SUPPORT. What a record of a table reads as after one update of its table. -/

namespace Sys2Proof.Machine

@[simp] theorem State.ctx_upd_same (s : State) (c : Nat) (v : Ctx) : ((Upd.ctx c v).apply s).ctx c = v := Tab.get_set_same ..
theorem State.ctx_upd_other (s : State) {c d : Nat} (v : Ctx) (h : d ≠ c) : ((Upd.ctx c v).apply s).ctx d = s.ctx d := Tab.get_set_other _ _ _ h
@[simp] theorem State.vi_upd_same (s : State) (n : Nat) (v : Vi) : ((Upd.vi n v).apply s).vi n = v := Tab.get_set_same ..
@[simp] theorem State.part_upd_same (s : State) (p : Nat) (v : Part) : ((Upd.part p v).apply s).part p = v := Tab.get_set_same ..
theorem State.part_upd_other (s : State) {p q : Nat} (v : Part) (h : q ≠ p) : ((Upd.part p v).apply s).part q = s.part q := Tab.get_set_other _ _ _ h
@[simp] theorem State.jd_upd_same (s : State) (j : Nat) (v : Jd) : ((Upd.jd j v).apply s).jd j = v := Tab.get_set_same ..
theorem State.jd_upd_other (s : State) {j m : Nat} (v : Jd) (h : m ≠ j) : ((Upd.jd j v).apply s).jd m = s.jd m := Tab.get_set_other _ _ _ h
@[simp] theorem State.link_upd_same (s : State) (l : Nat) (v : Link) : ((Upd.link l v).apply s).link l = v := Tab.get_set_same ..
theorem State.link_upd_other (s : State) {l d : Nat} (v : Link) (h : d ≠ l) : ((Upd.link l v).apply s).link d = s.link d := Tab.get_set_other _ _ _ h

end Sys2Proof.Machine
end

section
/-! SUPPORT. Who reaches a system register, and which write is stored (R14, R367, R368, R371, R483, R484). -/

namespace Sys2Proof.Machine

open Sys2Proof

/-! ### The writer -/

/-- Firmware makes a service context: it writes the word of a free context with the service bit (log 64). -/
def MakesService (s : State) (w : Writer) (r : Reg) (x : Word) : Prop :=
  w = .firmware ∧ ∃ c, r = .ctx c 0 ∧ c < 4095 ∧ (s.ctx c).state = 0 ∧ x.getLsbD 5 = true

/-- A host's accesses go through only while its link is up (R483). -/
def Linked (s : State) (w : Writer) : Prop := ∀ n, w = .host n → s.mod.hostUp = true

/-- No function-level reset discards a write of the register (R371). -/
def Writable (s : State) (r : Reg) : Prop := ∀ n, s.regVi r = some n → (s.vi n).flrBusy = false

/-- R484: the board controller writes PWR.CAP alone. -/
theorem reaches_board_write (s : State) (r : Reg) : s.reaches .board true r = true ↔ r = .ident 5 := by
  cases r <;> simp [State.reaches]

theorem reaches_ctx_reserved (s : State) {c : Nat} {r : Reg} (h : r.reserved = true) (hc : c ≠ 4095) : s.reaches (.ctx c) true r = false := by
  simp [State.reaches, State.ctxReaches, isService, h, hc]

theorem reaches_host_reserved (s : State) {n : Nat} {r : Reg} (h : r.reserved = true) : s.reaches (.host n) true r = false := by
  simp [State.reaches, h]

/-! ### A write on its way to the register -/

variable {s0 : State} {w : Writer} {a : Nat} {r : Reg} {x : Word}

theorem exec_systemRegisterWrite (s : State) (w : Writer) (a : Nat) (x : Word) :
    exec (.systemRegisterWrite w a x) s = .next (systemWrite (Go.start s) w a x).st := rfl

theorem systemWrite_unassigned (g : Go s0) (hr : regAt a = none) : systemWrite g w a x = g := by
  unfold systemWrite
  rw [hr]
  cases w <;> rfl

theorem systemWrite_withheld (g : Go s0) {n : Nat} (hr : regAt a = some r) (hu : g.st.mod.hostUp = false) :
    systemWrite g (.host n) a x = modMod g fun m => { m with withheld := m.withheld ++ [(n, a, some x)] } := by
  unfold systemWrite
  rw [hr]
  simp [hu]

theorem systemWrite_makes (g : Go s0) {c : Nat} (hr : regAt a = some (.ctx c 0)) (ha : a % 8 = 0) (hm : MakesService g.st w (.ctx c 0) x) :
    systemWrite g w a x = serviceCreate g c x.toNat := by
  obtain ⟨rfl, d, hd, hc, free, level⟩ := hm
  cases hd
  have bit := bitf_one_beq x 5
  rw [level, beq_iff_eq] at bit
  simp [systemWrite, hr, ha, hc, free, bit]

/-- A write that makes no service context is stored by a writer that reaches the register, at an aligned address, and by no other. -/
theorem systemWrite_stores (g : Go s0) (hr : regAt a = some r) (hu : Linked g.st w) (hm : ¬ (a % 8 = 0 ∧ MakesService g.st w r x)) :
    systemWrite g w a x = if a % 8 = 0 ∧ g.st.reaches w true r = true then regStore g (writerFull w) r x else g := by
  unfold systemWrite
  rw [hr]
  split
  case h_1 c e =>
    cases e
    by_cases ha : a % 8 = 0
    · have : ¬ (c < 4095 ∧ (g.st.ctx c).state = 0 ∧ bitf x.toNat 5 1 = 1) := fun ⟨hc, free, bit⟩ =>
        hm ⟨ha, rfl, c, rfl, hc, free, by rw [← bitf_one_beq, bit]; rfl⟩
      simpa [ha, State.reaches, writerFull] using fun hc free bit => absurd ⟨hc, free, bit⟩ this
    · simp [ha]
  case h_2 n _ e =>
    cases e
    simp [hu n rfl, writerFull]
  case h_3 e =>
    cases e
    simp
  case h_4 e => cases e

theorem regStore_writable (g : Go s0) (full : Bool) (h : Writable g.st r) : regStore g full r x = regWrite g full r x := by
  unfold regStore
  split
  case h_1 n e => rw [h n e]; rfl
  case h_2 => rfl

theorem regStore_inReset (g : Go s0) (full : Bool) {n : Nat} (h : g.st.regVi r = some n) (hf : (g.st.vi n).flrBusy = true) :
    regStore g full r x = g := by
  simp [regStore, h, hf]

end Sys2Proof.Machine
end

section
/-! SUPPORT. What a write of a system register stores (R14, R367 to R372, R443, R465). -/

namespace Sys2Proof.Machine

open Sys2Proof

/-! ### What a write stores -/

theorem regWrite_readOnly {s0 : State} (g : Go s0) (full : Bool) {r : Reg} (x : Word) (h : readOnly r = true) : regWrite g full r x = g := by
  cases r with
  | ident k =>
    have : k ≠ 5 := by simpa [readOnly] using h
    simp [regWrite]
  | meas | core | pend | slot | fb | ldir => rfl
  | _ => simp [readOnly] at h

/-- `u` differs from `s` in the records that plain registers lie in, and the register reads as `v`. -/
def ReadsBack (s u : State) (r : Reg) (v : Word) : Prop :=
  regRead u r = v ∧ u = { s with ctxs := u.ctxs, vis := u.vis, parts := u.parts, jds := u.jds, mod := u.mod }

variable (s : State) (full : Bool) (x : Word)

theorem ctxWrite_readsBack (c : Nat) {k : Nat} {m : Word} (h : rwBits (.ctx c k) = some m) :
    ReadsBack s (ctxWrite (Go.start s) c k x).st (.ctx c k) (x &&& m) := by
  simp only [rwBits] at h
  split at h
  case isTrue hk =>
    cases h
    rcases hk with rfl | rfl | rfl | rfl <;> exact ⟨by rw [BitVec.and_allOnes]; simp [regRead, ctxWrite, modCtx, ctxWord], rfl⟩
  case isFalse =>
    split at h
    case isTrue hk =>
      cases h; subst hk
      exact ⟨by simpa [regRead, ctxWrite, modCtx, ctxWord] using (and_lowMask x 32).symm, rfl⟩
    case isFalse =>
      split at h
      case isTrue hk =>
        cases h; subst hk
        exact ⟨by simpa [regRead, ctxWrite, modCtx, ctxWord] using (and_lowMask x 12).symm, rfl⟩
      case isFalse => cases h

theorem viWrite_readsBack (n : Nat) {k : Nat} {m : Word} (h : rwBits (.vi n k) = some m) :
    ReadsBack s (viWrite (Go.start s) full n k x).st (.vi n k) (x &&& m) := by
  obtain ⟨rfl, rfl⟩ : k = 3 ∧ 0xFFF = m := by simpa [rwBits] using h
  exact ⟨by simpa [regRead, viWrite, modVi, viWord] using (and_lowMask x 12).symm, rfl⟩

theorem trWrite_readsBack (c : Nat) {k : Nat} {m : Word} (h : rwBits (.tr c k) = some m) :
    ReadsBack s (trWrite (Go.start s) c k x).st (.tr c k) (x &&& m) := by
  obtain ⟨rfl, rfl⟩ : k = 2 ∧ 0xFF00 = m := by simpa [rwBits] using h
  exact ⟨by simpa [regRead, trWrite, modCtx, trWord, bitf] using (and_fieldMask x 8 8).symm, rfl⟩

theorem distWrite_readsBack (p : Nat) {k : Nat} {m : Word} (h : rwBits (.dist p k) = some m) :
    ReadsBack s (distWrite (Go.start s) p k x).st (.dist p k) (x &&& m) := by
  simp only [rwBits] at h
  split at h
  case isTrue hk =>
    cases h
    rcases hk with rfl | rfl <;> exact ⟨by simpa [regRead, distWrite, distWord] using (and_lowMask x 32).symm, rfl⟩
  case isFalse =>
    obtain ⟨rfl, rfl⟩ : k = 4 ∧ 0x1FFFFFFFF = m := by simpa using h
    refine ⟨?_, rfl⟩
    simp only [regRead, distWrite, distWord, Go.put_st, State.part_upd_same, bitf_one_toNat, BitVec.ofNat_add]
    rw [← and_lowMask, ← and_fieldMask, ← and_add_of_disjoint _ _ _ (by decide)]
    rfl

theorem mirrorWrite_readsBack (p i : Nat) {m : Word} (h : rwBits (.mirror p i) = some m) :
    ReadsBack s (mirrorEntryWrite (Go.start s) p i x).st (.mirror p i) (x &&& m) := by
  cases h
  refine ⟨?_, rfl⟩
  have valid : (x.toNat % 2 == 1).toNat = x.toNat % 2 ^ 1 := by simpa [bitf] using bitf_one_toNat x 0
  have field : ∀ lo, (BitVec.ofNat 18 (x.toNat / 2 ^ lo)).toNat = bitf x.toNat lo 18 := fun _ => BitVec.toNat_ofNat ..
  have lost : 2 * (bitf x.toNat 1 1 == 1).toNat = 2 ^ 1 * bitf x.toNat 1 1 := congrArg (2 * ·) (bitf_one_toNat x 1)
  simp only [regRead, mirrorEntryWrite, modMod, mirrorWord, Go.put_st, Upd.mod_mod, Tab.get_set_same, valid, lost, field, BitVec.ofNat_add]
  rw [← and_lowMask, ← and_fieldMask, ← and_fieldMask, ← and_fieldMask, ← and_add_of_disjoint _ _ _ (by decide),
    ← and_add_of_disjoint _ _ _ (by decide), ← and_add_of_disjoint _ _ _ (by decide)]
  rfl

theorem nameWrite_readsBack (e : Nat) {h : Nat} {m : Word} (hm : rwBits (.name e h) = some m) :
    ReadsBack s (nameWrite (Go.start s) e h x).st (.name e h) (x &&& m) := by
  obtain ⟨rfl, rfl⟩ : h = 1 ∧ BitVec.allOnes 64 = m := by simpa [rwBits] using hm
  exact ⟨by rw [BitVec.and_allOnes]; simp [regRead, nameWrite, modMod, nameWord], rfl⟩

theorem keeperWrite_readsBack (j : Nat) {k : Nat} {m : Word} (h : rwBits (.keeper j k) = some m) :
    ReadsBack s (regWrite (Go.start s) full (.keeper j k) x).st (.keeper j k) (x &&& m) := by
  simp only [rwBits] at h
  split at h
  case isTrue hk =>
    cases h; subst hk
    exact ⟨by simpa [regRead, regWrite, modJd, keeperWord] using (and_lowMask x 16).symm, rfl⟩
  case isFalse =>
    obtain ⟨rfl, rfl⟩ : k = 5 ∧ 0x1FFFF = m := by simpa using h
    exact ⟨by simpa [regRead, regWrite, modJd, keeperWord] using (and_lowMask x 17).symm, rfl⟩

theorem peersWrite_readsBack {k : Nat} {m : Word} (h : rwBits (.peers k) = some m) :
    ReadsBack s (regWrite (Go.start s) full (.peers k) x).st (.peers k) (x &&& m) := by
  simp only [rwBits] at h
  split at h
  case isTrue hk =>
    cases h; subst hk
    exact ⟨by simpa [regRead, regWrite, modMod, Nat.mul_comm, -BitVec.toNat_ofNat] using (and_fieldMask x 3 43).symm, rfl⟩
  case isFalse =>
    obtain ⟨rfl, rfl⟩ : k = 1 ∧ 0x3FFFF = m := by simpa using h
    exact ⟨by simpa [regRead, regWrite, modMod] using (and_lowMask x 18).symm, rfl⟩

/-- A plain register reads back the writable bits of what was written (R14, R369). -/
theorem regWrite_readsBack {r : Reg} {m : Word} (h : rwBits r = some m) : ReadsBack s (regWrite (Go.start s) full r x).st r (x &&& m) := by
  cases r with
  | ctx c k => exact ctxWrite_readsBack s x c h
  | vi n k => exact viWrite_readsBack s full x n h
  | tr c k => exact trWrite_readsBack s x c h
  | dist p k => exact distWrite_readsBack s x p h
  | mirror p i => exact mirrorWrite_readsBack s x p i h
  | name e k => exact nameWrite_readsBack s x e h
  | keeper j k => exact keeperWrite_readsBack s full x j h
  | peers k => exact peersWrite_readsBack s full x h
  | _ => cases h

/-! ### Registers with a rule of their own -/

/-- CTX.HEN and CTX.HANDLER (R372). -/
theorem regWrite_ctxWord (c : Nat) : CtxBecomes s (.next (regWrite (Go.start s) full (.ctx c 0) x).st) c
    { s.ctx c with hen := x.getLsbD 28, handler := x.extractLsb' 16 12 } :=
  ⟨_, rfl, rfl, by simp [regWrite, ctxWrite, modCtx, bitf_one_beq, ofNat_bitf], fun _ h => State.ctx_upd_other _ _ h⟩

/-- The power cap (R471). -/
theorem regWrite_powerCap : (regWrite (Go.start s) full (.ident 5) x).st =
    if 1000 ≤ x.toNat % 65536 ∧ x.toNat % 65536 ≤ 6000 then { s with mod := { s.mod with pwrCap := x.setWidth 16 } } else s := by
  have cap : BitVec.ofNat 16 x.toNat = x.setWidth 16 := rfl
  simp only [regWrite, cap, Bool.and_eq_true, decide_eq_true_eq]
  split <;> rfl

/-- TC.BASE (R443), which only an empty cache lets move. -/
theorem regWrite_cacheBase : (regWrite (Go.start s) full (.tc 0) x).st =
    if s.mod.cache = [] then { s with mod := { s.mod with tcBase := x } } else s := by
  by_cases h : s.mod.cache = []
  · have empty : s.mod.cache.isEmpty = true := by rw [h]; rfl
    simp only [regWrite, Go.start_st, empty, Bool.not_true, Bool.false_eq_true, if_false, if_true, if_pos h]
    rfl
  · have listed : s.mod.cache.isEmpty = false := by simpa using h
    simp only [regWrite, Go.start_st, listed, Bool.not_false, if_true, if_neg h]

/-- LSE.INIT (R465). -/
theorem regWrite_leaseInit (p : Nat) : (regWrite (Go.start s) full (.lse p) x).st =
    if 1 ≤ x.toNat % 256 ∧ x.toNat % 256 ≤ 250 then (Upd.part p { s.part p with lseInit := x.toNat % 256 }).apply s else s := by
  simp only [regWrite, Bool.and_eq_true, decide_eq_true_eq]
  split <;> rfl

/-! ### A service context is made -/

/-- No unit holds a translation of the context (R368). -/
def Forgotten (u : State) (c : Nat) : Prop := (∀ k, ∀ e ∈ Tab.get [] u.tlbs k, e.ctx ≠ c) ∧ ∀ e ∈ u.walks, e.ctx ≠ c

/-- Filtering the entries of every unit of a list forgets the context, where the units that the list does not name hold nothing of it. -/
theorem forgetUnits_forgets {s0 : State} (c : Nat) (ts : Table (List TlbEntry)) (g : Go s0)
    (h : ∀ k, k ∉ Tab.keys ts → ∀ e ∈ Tab.get [] g.st.tlbs k, e.ctx ≠ c) :
    let u := (g.each ts fun u g => g.put (.tlb u.1 (u.2.filter fun e => e.ctx != c))).st
    (∀ k, ∀ e ∈ Tab.get [] u.tlbs k, e.ctx ≠ c) ∧ u = { g.st with tlbs := u.tlbs } := by
  induction ts generalizing g with
  | nil => exact ⟨fun k => h k (by simp [Tab.keys]), rfl⟩
  | cons t ts ih =>
    refine ih (g.put (.tlb t.1 (t.2.filter fun e => e.ctx != c))) fun k hk e he => ?_
    by_cases same : k = t.1
    · subst same
      simp only [Go.put_st, Upd.tlb_tlbs, Tab.get_set_same, List.mem_filter, bne_iff_ne] at he
      exact he.2
    · rw [Go.put_st, Upd.tlb_tlbs, Tab.get_set_other _ _ _ same] at he
      exact h k (by simpa [Tab.keys, same] using hk) e he

/-- A key that a table does not list reads as the default. -/
theorem Tab.get_unlisted {β : Type} (d : β) (t : Table β) {k : Nat} (h : k ∉ Tab.keys t) : Tab.get d t k = d := by
  induction t with
  | nil => rfl
  | cons e t ih =>
    simp only [Tab.keys, List.map_cons, List.mem_cons, not_or] at h ih
    calc Tab.get d (e :: t) k = Tab.get d t k := by rw [Tab.get, Tab.find_cons, if_neg h.1, Tab.get]
      _ = d := ih h.2

theorem forgetPages_forgets {s0 : State} (g : Go s0) (c : Nat) :
    let u := (forgetPages g c).st
    Forgotten u c ∧ u = { g.st with tlbs := u.tlbs, walks := u.walks } := by
  obtain ⟨units, same⟩ := forgetUnits_forgets c g.st.tlbs g fun k hk e he => by simp [Tab.get_unlisted _ _ hk] at he
  refine ⟨⟨units, fun e he => ?_⟩, ?_⟩
  · simpa using (List.mem_filter.mp he).2
  · unfold forgetPages
    rw [Go.put_st]
    generalize (g.each g.st.tlbs _).st = v at same
    rw [same]
    rfl

end Sys2Proof.Machine
end

section
/-! SUPPORT. Writes and reads of system registers as events (R14, R371, R483), and what is claimed of them. -/

namespace Sys2Proof.Machine

open Sys2Proof

variable {s : State} {w : Writer} {a : Nat} {r : Reg} {x : Word}

/-! ### A write as an event -/

theorem write_unassigned (hr : regAt a = none) : exec (.systemRegisterWrite w a x) s = .next s := by
  rw [exec_systemRegisterWrite, systemWrite_unassigned _ hr, Go.start_st]

theorem write_withheld {n : Nat} (hr : regAt a = some r) (hu : s.mod.hostUp = false) : exec (.systemRegisterWrite (.host n) a x) s =
    .next { s with mod := { s.mod with withheld := s.mod.withheld ++ [(n, a, some x)] } } := by
  rw [exec_systemRegisterWrite, systemWrite_withheld _ hr hu]
  rfl

/-- A write to a misaligned address, or by a writer that does not reach the register, changes nothing (R14, R368, R369). -/
theorem write_discarded (hr : regAt a = some r) (hu : Linked s w) (h : a % 8 ≠ 0 ∨ s.reaches w true r = false) :
    exec (.systemRegisterWrite w a x) s = .next s := by
  have plain : ¬ (a % 8 = 0 ∧ MakesService s w r x) := by
    rintro ⟨ha, rfl, -⟩
    exact h.elim (· ha) fun e => absurd e (by simp [State.reaches])
  have closed : ¬ (a % 8 = 0 ∧ s.reaches w true r = true) := fun ⟨ha, e⟩ => h.elim (· ha) fun e' => by simp [e'] at e
  rw [exec_systemRegisterWrite, systemWrite_stores _ hr hu plain, Go.start_st, if_neg closed, Go.start_st]

/-- A register of an interface in function-level reset takes no write (R371). -/
theorem write_inReset (hr : regAt a = some r) (hu : Linked s w) {n : Nat} (hn : s.regVi r = some n) (hf : (s.vi n).flrBusy = true) :
    exec (.systemRegisterWrite w a x) s = .next s := by
  have plain : ¬ (a % 8 = 0 ∧ MakesService s w r x) := by
    rintro ⟨-, -, c, rfl, -, free, -⟩
    simp [State.regVi, free] at hn
  rw [exec_systemRegisterWrite, systemWrite_stores _ hr hu plain]
  split
  · rw [regStore_inReset _ _ hn hf, Go.start_st]
  · rw [Go.start_st]

/-- A write that reaches its register is carried out (R14). -/
theorem write_reaches (hr : regAt a = some r) (hu : Linked s w) (ha : a % 8 = 0) (hw : s.reaches w true r = true) (hf : Writable s r)
    (hm : ¬ MakesService s w r x) : exec (.systemRegisterWrite w a x) s = .next (regWrite (Go.start s) (writerFull w) r x).st := by
  rw [exec_systemRegisterWrite, systemWrite_stores _ hr hu fun h => hm h.2, Go.start_st, if_pos ⟨ha, hw⟩, regStore_writable _ _ hf]

/-- Only the control word of a context makes a service context. -/
theorem not_makesService (h : ∀ c, r ≠ .ctx c 0) : ¬ MakesService s w r x := fun ⟨_, c, e, _⟩ => h c e

/-- A service context is made with the fields of the word written (R367, log 64). -/
theorem write_makes {c : Nat} (hr : regAt a = some (.ctx c 0)) (ha : a % 8 = 0) (hm : MakesService s w (.ctx c 0) x) :
    ∃ u, exec (.systemRegisterWrite w a x) s = .next u ∧ u = { s with ctxs := u.ctxs, tlbs := u.tlbs, walks := u.walks } ∧
      u.ctx c = { Ctx.reset with level := true, part := x.extractLsb' 12 4, vi := x.extractLsb' 6 6, handler := x.extractLsb' 16 12
                                 hen := x.getLsbD 28, state := 1 } ∧
      (∀ d, d ≠ c → u.ctx d = s.ctx d) ∧ Forgotten u c := by
  rw [exec_systemRegisterWrite, systemWrite_makes _ hr ha hm]
  obtain ⟨forgotten, same⟩ := forgetPages_forgets (Go.start s) c
  refine ⟨_, rfl, ?_, ?_, fun d hd => ?_, forgotten⟩
  · unfold serviceCreate
    rw [Go.put_st, same]
    rfl
  · simp [serviceCreate, bitf_one_beq, ofNat_bitf]
  · rw [serviceCreate, Go.put_st, State.ctx_upd_other _ _ hd, same]
    rfl

/-! ### A read as an event -/

theorem read_withheld {n : Nat} (hu : s.mod.hostUp = false) : exec (.readClear (.host n) a) s =
    .next { s with mod := { s.mod with withheld := s.mod.withheld ++ [(n, a, none)] } } := by
  change execReadClear (.host n) a s = _
  have down : (!s.mod.hostUp) = true := by rw [hu]; rfl
  simp only [execReadClear, if_pos down]
  rfl

theorem exec_readClear (hu : Linked s w) : exec (.readClear w a) s = .next (systemRead (Go.start s) w a).st := by
  change execReadClear w a s = _
  unfold execReadClear
  split
  case h_1 n => rw [hu n rfl]; rfl
  case h_2 => rfl

/-- A read of no register, at a misaligned address, or of a register that the reader does not reach answers 0 (R14, R483). -/
theorem read_blank (hu : Linked s w) (h : ∀ r, regAt a = some r → a % 8 ≠ 0 ∨ s.reaches w false r = false) :
    exec (.readClear w a) s = .next { s with outbox := s.outbox ++ [.regValue w a 0] } := by
  rw [exec_readClear hu]
  unfold systemRead
  split
  case h_1 r hr =>
    have closed : ¬ (a % 8 = 0 ∧ s.reaches w false r = true) := fun ⟨ha, e⟩ => (h r hr).elim (· ha) fun e' => by simp [e'] at e
    simp only [Go.start_st, Bool.and_eq_true, decide_eq_true_eq, if_neg closed]
    rfl
  case h_2 => rfl

theorem read_reaches (hr : regAt a = some r) (hu : Linked s w) (ha : a % 8 = 0) (hw : s.reaches w false r = true) :
    exec (.readClear w a) s = .next (regClear (send (Go.start s) (.regValue w a (regRead s r))) r).st := by
  rw [exec_readClear hu]
  simp [systemRead, hr, ha, hw]

/-- Only a register with an RC field changes by a read (R14). -/
theorem regClear_plain {s0 : State} (g : Go s0) (h : readClears r = false) : regClear g r = g := by
  unfold regClear
  split
  case h_9 => rfl
  all_goals simp [readClears] at h

/-- A read of a keeper's counters or of the lease directory's sets them to 0 (R463, R465). -/
theorem regClear_jd {s0 : State} (g : Go s0) {j : Nat} {d : Jd}
    (h : (r, d) ∈ [(Reg.keeper j 32, { g.st.jd j with merged := 0 }), (.keeper j 33, { g.st.jd j with expired := 0, refused := 0 }),
      (.keeper j 35, { g.st.jd j with dup := 0, evicted := 0 }), (.keeper j 36, { g.st.jd j with wsetRefused := 0 }),
      (.ldir j, { g.st.jd j with noLease := 0 })]) : (regClear g r).st = (Upd.jd j d).apply g.st := by
  simp only [List.mem_cons, Prod.mk.injEq, List.not_mem_nil, or_false] at h
  rcases h with ⟨rfl, rfl⟩ | ⟨rfl, rfl⟩ | ⟨rfl, rfl⟩ | ⟨rfl, rfl⟩ | ⟨rfl, rfl⟩ <;> rfl

/-- A read of a link's error or replay count sets it to 0 (R456). -/
theorem regClear_link {s0 : State} (g : Go s0) {l : Nat} (h : r = .link l 1 ∨ r = .link l 4) : (regClear g r).st = (Upd.link l
    (if r = .link l 1 then { g.st.link l with errCnt := 0 } else { g.st.link l with replays := 0 })).apply g.st := by
  rcases h with rfl | rfl
  · rw [if_pos rfl]; rfl
  · rw [if_neg (by simp)]; rfl

theorem regClear_outbox {s0 : State} (g : Go s0) (r : Reg) : (regClear g r).st.outbox = g.st.outbox := by
  unfold regClear
  split <;> rfl

/-- What a read that reaches its register leaves (R14). -/
theorem read_clears (hr : regAt a = some r) (hu : Linked s w) (ha : a % 8 = 0) (hw : s.reaches w false r = true) :
    ∃ u, exec (.readClear w a) s = .next u ∧ u.outbox = s.outbox ++ [.regValue w a (regRead s r)] ∧
      (readClears r = false → u = { s with outbox := u.outbox }) ∧
      (r = .ident 7 → u = { s with outbox := u.outbox, mod := { s.mod with errCe := 0 } }) ∧
      (∀ l, (r = .link l 1 ∨ r = .link l 4) → u = { s with outbox := u.outbox, links := u.links } ∧ (∀ d, d ≠ l → u.link d = s.link d) ∧
        u.link l = if r = .link l 1 then { s.link l with errCnt := 0 } else { s.link l with replays := 0 }) ∧
      (∀ j d, (r, d) ∈ [(Reg.keeper j 32, { s.jd j with merged := 0 }), (.keeper j 33, { s.jd j with expired := 0, refused := 0 }),
          (.keeper j 35, { s.jd j with dup := 0, evicted := 0 }), (.keeper j 36, { s.jd j with wsetRefused := 0 }),
          (.ldir j, { s.jd j with noLease := 0 })] →
        u = { s with outbox := u.outbox, jds := u.jds } ∧ u.jd j = d ∧ ∀ m, m ≠ j → u.jd m = s.jd m) := by
  refine ⟨_, read_reaches hr hu ha hw, regClear_outbox .., fun h => ?_, ?_, fun l h => ?_, fun j d h => ?_⟩
  · rw [regClear_plain _ h]
    rfl
  · rintro rfl
    rfl
  · rw [regClear_link _ h]
    exact ⟨rfl, fun _ hd => State.link_upd_other _ _ hd, State.link_upd_same ..⟩
  · rw [regClear_jd _ h]
    exact ⟨rfl, State.jd_upd_same .., fun _ hm => State.jd_upd_other _ _ hm⟩

end Sys2Proof.Machine

namespace Sys2Proof

open Machine

/-- Settles O48, clause by clause: where the access does not reach its register, nothing changes; where it does, the register's own rule. -/
theorem systemRegisterAccesses : Obligations.SystemRegisterAccesses := by
  intro s w a x o rc up answers
  refine ⟨?_, fun hr => ⟨write_unassigned hr, fun hu => read_blank hu fun r e => by simp [hr] at e⟩, fun r hr => ?_⟩
  · rintro n rfl hu
    exact read_withheld hu
  intro makes
  refine ⟨?_, ?_, ?_, fun reserved => ⟨?_, ?_⟩, fun hu => ⟨?_, ?_, ?_, ?_, fun ha hw hf => ⟨?_, ?_, ?_, ?_, ?_, ?_⟩, ?_⟩⟩
  · rintro n rfl hu
    exact write_withheld hr hu
  · rintro hm ha c rfl
    exact write_makes hr ha hm
  · rintro rfl
    exact reaches_board_write s r
  · rintro c rfl hc
    exact reaches_ctx_reserved s reserved hc
  · rintro n rfl
    exact reaches_host_reserved s reserved
  · exact fun hw => write_discarded hr hu (.inr hw)
  · exact fun ha => write_discarded hr hu (.inl ha)
  · refine fun h => read_blank hu fun r' e => ?_
    cases hr.symm.trans e
    exact h
  · exact fun n hn hf => write_inReset hr hu hn hf
  · intro h
    have plain : ∀ c, r ≠ .ctx c 0 := by rintro c rfl; simp [readOnly] at h
    exact (write_reaches hr hu ha hw hf (not_makesService plain)).trans (by rw [regWrite_readOnly _ _ _ h, Go.start_st])
  · intro m h
    have plain : ∀ c, r ≠ .ctx c 0 := by rintro c rfl; simp [rwBits] at h
    exact ⟨_, write_reaches hr hu ha hw hf (not_makesService plain), regWrite_readsBack s _ x h⟩
  · rintro c rfl hm
    have stored : o = _ := write_reaches hr hu ha hw hf hm
    rw [stored]
    exact regWrite_ctxWord s _ x c
  · rintro rfl
    exact (write_reaches hr hu ha hw hf (not_makesService (by simp))).trans (by rw [regWrite_powerCap]; split <;> rfl)
  · rintro rfl
    exact (write_reaches hr hu ha hw hf (not_makesService (by simp))).trans (by rw [regWrite_cacheBase]; split <;> rfl)
  · rintro p rfl
    have stored := write_reaches (x := x) hr hu ha hw hf (not_makesService (by simp))
    rw [regWrite_leaseInit] at stored
    split at stored
    case isTrue h =>
      rw [if_pos h]
      exact ⟨_, stored, rfl, State.part_upd_same .., fun _ hq => State.part_upd_other _ _ hq⟩
    case isFalse h =>
      rw [if_neg h]
      exact stored
  · exact fun ha hw => read_clears hr hu ha hw

end Sys2Proof
end

section
/-! SUPPORT. What a register-only instruction leaves where nothing is outstanding: what the decoder has checked of its fields, what its split has
retired to, and what D reads (R41, R76, R148, R171). -/

namespace Sys2Proof.Machine

open Sys2Proof

/-! ### What the decoder has checked -/

section Decoded

variable {s : State} {m : Mn} {f : Fields} {x k : Nat} {c : Crew} {sp : Split}

theorem State.Executes.encoded (h : s.Executes m f x k c sp) : encodingOk m f = true := by
  have legal := h.legal
  unfold decodeCause at legal
  split at legal
  case isTrue => exact absurd legal (by simp)
  case isFalse encoded => simpa using encoded

theorem State.Executes.operands (h : s.Executes m f x k c sp) : operandOk m f c.width = true := by
  have legal := h.legal
  simp only [decodeCause, h.encoded] at legal
  by_contra operands
  simp only [Bool.not_true, Bool.false_eq_true, if_false] at legal
  split at legal <;> simp [operands] at legal

theorem State.Executes.sel (h : s.Executes m f x k c sp) : selOk m.row f.sel = true := by
  have e := h.encoded
  simp only [encodingOk, Bool.and_eq_true] at e
  tauto

theorem State.Executes.dPlain (h : s.Executes m f x k c sp) : dOk f.d = true := by
  have e := h.encoded
  simp only [encodingOk, Bool.and_eq_true] at e
  tauto

/-- The type of a typed instruction is one of its row. -/
theorem State.Executes.type {t : Ty} (h : s.Executes m f x k c sp) (ht : f.sel = .ty t) : t ∈ m.row.types := by
  have q := h.sel
  rw [ht] at q
  simpa [selOk] using q

theorem State.Executes.dClass (h : s.Executes m f x k c sp) : f.d.cls ∈ m.row.d := by
  have e := h.operands
  simp only [operandOk, Bool.and_eq_true, List.contains_iff_mem] at e
  tauto

theorem State.Executes.aClass (h : s.Executes m f x k c sp) : f.a.cls ∈ m.row.a := by
  have e := h.operands
  simp only [operandOk, Bool.and_eq_true, List.contains_iff_mem] at e
  tauto

theorem State.Executes.bClass (h : s.Executes m f x k c sp) (ha : f.a.cls ≠ .w) : f.b.cls ∈ m.row.b := by
  have e := h.operands
  simp only [operandOk, Bool.and_eq_true, Bool.or_eq_true, List.contains_iff_mem, beq_iff_eq] at e
  tauto

/-- The issuing crew's team exists. -/
theorem State.Executes.team (h : s.Executes m f x k c sp) : ∃ tm, s.team? c.team = some tm := by
  obtain ⟨-, -, -, -, -, -, runs⟩ := State.issuer_some h.issuer
  unfold State.teamRuns at runs
  cases team : s.team? c.team with
  | none => simp [team] at runs
  | some tm => exact ⟨tm, rfl⟩

/-! ### The issue record where nothing is outstanding -/

theorem issueOf_c (hs : Settled c sp) : (issueOf s m f x k c sp).c = c := by rw [issueOf_settled hs]
theorem issueOf_ca (hs : Settled c sp) : (issueOf s m f x k c sp).ca = c := by rw [issueOf_settled hs]
theorem issueOf_cb (hs : Settled c sp) : (issueOf s m f x k c sp).cb = c := by rw [issueOf_settled hs]
theorem issueOf_sp (hs : Settled c sp) : (issueOf s m f x k c sp).sp = sp := by rw [issueOf_settled hs]
@[simp] theorem issueOf_m : (issueOf s m f x k c sp).m = m := rfl
@[simp] theorem issueOf_f : (issueOf s m f x k c sp).f = f := rfl
@[simp] theorem issueOf_x : (issueOf s m f x k c sp).x = x := rfl
@[simp] theorem issueOf_run : (issueOf s m f x k c sp).run = runLanes s m f x k c sp := rfl

theorem issueOf_ty {t : Ty} (ht : f.sel = .ty t) : (issueOf s m f x k c sp).ty = t := by simp [Issue.ty, ht, Sel.ty?]

end Decoded

/-! ### Retiring with results -/

/-- Two crews hold the same in every register. -/
structure SameRegs (d c : Crew) : Prop where
  v     : d.v = c.v
  s     : d.s = c.s
  p     : d.p = c.p
  lay   : d.lay = c.lay
  width : d.width = c.width
  wrows : d.wrows = c.wrows

/-- Where no window is open and no load uncovered, retirement leaves the registers that the instruction's results give. -/
theorem Issue.retired_regs (i : Issue) (s : State) (o : RegOut) (pc : BitVec 56) (n : Nat) (c : Crew) (hw : i.sp.windows = []) (hu : c.uncov = []) :
    SameRegs (i.retired s o pc n c) (c.putOut o) := by
  have written := i.written_settled s o c hw hu
  constructor <;> simp only [Issue.retired, written]

/-- Retirement where no window is open and no load uncovered: the crew has retired and holds the results, and beside it only cycles and the work
counted for co-location change. -/
theorem retire_settled {s0 : State} (g : Go s0) (i : Issue) (o : RegOut) {c : Crew} {sp : Split} (crew : g.st.crew? i.x = some c)
    (split : c.split? i.k = some sp) (hw : i.sp.windows = []) (hu : c.uncov = []) :
    ∃ d sp', (retire g i o).st = { g.st with crews := Tab.put g.st.crews i.x d, cycles := (retire g i o).st.cycles, coloc := (retire g i o).st.coloc } ∧
      RetiredAt c d i.k sp sp' (i.sp.pc + 12) ∧ sp'.fmt = o.fmt.getD sp.fmt ∧ SameRegs d (c.putOut o) := by
  obtain ⟨w, ts, n, reached, teams⟩ := retireAt_st g i o (i.sp.pc + 12) crew
  obtain rfl := teams (by simp [hw])
  obtain ⟨sp', at_, fmt⟩ := i.retired_at { g.st with coloc := w } o (i.sp.pc + 12) n split (by simp [hw])
  refine ⟨_, sp', ?_, at_, fmt, i.retired_regs _ _ _ _ _ hw hu⟩
  rw [retire, reached]
  rfl

/-- A register-only instruction retires, and what its results leave in the registers holds of the crew. -/
theorem regStep_retires {s : State} {m : Mn} {f : Fields} {x k : Nat} {c : Crew} {sp : Split} {out : Issue → RegOut} {P : Crew → Prop}
    (h : s.Executes m f x k c sp) (hs : Settled c sp) (he : exec (m.instr f) s = regStep m f s out)
    (hf : (out (issueOf s m f x k c sp)).fmt = none)
    (hP : ∀ d, SameRegs d ((issueOf s m f x k c sp).c.putOut (out (issueOf s m f x k c sp))) → P d) : RetiresWith s m f x k c sp P := by
  obtain ⟨-, crew, split, -⟩ := State.issuer_some h.issuer
  obtain ⟨d, sp', reached, at_, fmt, regs⟩ := retire_settled (Go.start s) (issueOf s m f x k c sp) (out (issueOf s m f x k c sp)) crew split
    (by rw [issueOf_sp hs, hs.windows]) hs.loads
  rw [issueOf_sp hs] at at_
  refine ⟨_, d, sp', he.trans (crewStep_executes h _), ⟨?_, fun y hy => ?_⟩, ?_, at_, by rw [fmt, hf]; rfl,
    hP d (by rwa [issueOf_c hs])⟩
  · rw [reached]; rfl
  · rw [reached]; exact Tab.find_put_other _ _ hy
  · rw [reached]; exact Tab.find_put_same ..

/-! ### What D reads -/

/-- The elements of a number laid side by side again are its low bits. -/
theorem joinElems_elem (w x n : Nat) : joinElems w ((List.range n).map fun j => elem x w j) = x % 2 ^ (w * n) := by
  induction n generalizing x with
  | zero => simp [joinElems, Nat.mod_one]
  | succ n ih =>
    have shift : ∀ j, elem x w (j + 1) = elem (x / 2 ^ w) w j := fun j => by
      rw [elem, elem, Nat.div_div_eq_div_mul, ← Nat.pow_add, Nat.mul_succ, Nat.add_comm (w * j)]
    have low : elem x w 0 = x % 2 ^ w := by simp [elem]
    simp only [List.range_succ_eq_map, List.map_cons, List.map_map, Function.comp_def, shift, joinElems, ih, low, Nat.mod_mod]
    rw [Nat.mul_succ, Nat.add_comm (w * n), Nat.pow_add, Nat.mod_mul]

theorem elem_lt (x n i : Nat) : elem x n i < 2 ^ n := Nat.mod_lt _ (Nat.two_pow_pos _)

/-- Rows that hold the 32-bit elements of a number hold the number. -/
theorem Crew.rowsVal_of_rows {c : Crew} {wbase i n l x : Nat}
    (h : ∀ j, j < n → c.row (physRow wbase c.wrows (i + j)) l = BitVec.ofNat 32 (elem x 32 j)) : c.rowsVal wbase i n l = x % 2 ^ (32 * n) := by
  rw [← joinElems_elem]
  unfold Crew.rowsVal
  congr 1
  refine List.map_congr_left fun j hj => ?_
  rw [h j (List.mem_range.1 hj), BitVec.toNat_ofNat, Nat.mod_eq_of_lt (elem_lt ..)]

theorem SameRegs.putOut_wrows {d c : Crew} {o : RegOut} (h : SameRegs d (c.putOut o)) : d.wrows = c.wrows := by
  rw [h.wrows, Crew.putOut_frame]; rfl

theorem lowest_run {m : Lanes} {w l : Nat} (h : lowest m w = some l) : m ≠ 0 := by
  rintro rfl
  have := List.find?_some h
  simp [hasLane] at this

section Dest

variable {i : Issue} {c d : Crew} {n : Nat} {x : Nat → Nat}

/-- What `putD` leaves in D: the low bits of the value, in the rows or in the uniform register. -/
theorem Issue.putD_destHolds (h : SameRegs d (c.putOut (i.putD n x))) (hw : c.wrows = i.c.wrows) (hn : n ≤ i.c.wrows) :
    DestHolds i.c d i.sp i.f i.run n (fun l => x l % 2 ^ (32 * n)) fun l => x l % 2 ^ 64 := by
  unfold DestHolds
  split
  case h_1 hD =>
    intro l hl
    refine Crew.rowsVal_of_rows fun j hj => ?_
    rw [h.putOut_wrows, hw, Crew.row_of_v h.v, Issue.putD_row i c n x hD hl hj hn]
  case h_2 hD =>
    intro hr l hl
    rw [Crew.uni_of_s h.s, Issue.putD_uni i c n x hD hr (lowest_run hl), hl, BitVec.toNat_ofNat]
    rfl
  case h_3 => trivial

end Dest

@[simp] theorem Issue.putD_fmt (i : Issue) (n : Nat) (x : Nat → Nat) : (i.putD n x).fmt = none := by
  unfold Issue.putD
  split
  case h_2 => split <;> rfl
  all_goals rfl

@[simp] theorem Issue.putTy_fmt (i : Issue) (t : Ty) (x : Nat → Nat) : (i.putTy t x).fmt = none := by
  unfold Issue.putTy
  dsimp only
  split <;> exact Issue.putD_fmt ..

/-- Two's complement of `n` bits, as a number and as a bit vector. -/
theorem sext_eq_toInt {n : Nat} (hn : 0 < n) (x : Nat) : sext x n = (BitVec.ofNat n x).toInt := by
  obtain ⟨n, rfl⟩ := Nat.exists_eq_succ_of_ne_zero hn.ne'
  have half : 2 * 2 ^ n = 2 ^ (n + 1) := by rw [Nat.pow_succ, Nat.mul_comm]
  rw [BitVec.toInt_eq_toNat_cond, BitVec.toNat_ofNat]
  simp only [sext, Nat.succ_eq_add_one, Nat.add_sub_cancel]
  split <;> split <;> omega

theorem bits_pos (t : Ty) : 0 < t.bits := by cases t <;> decide

/-- The fill of R76, in both spellings. -/
theorem extend_eq_filled (t : Ty) (x m : Nat) : extend t x m % 2 ^ m = filled t m (BitVec.ofNat t.bits x) := by
  unfold extend filled Ty.isSigned
  by_cases signed : t.kind = .signed
  · simp only [signed, beq_self_eq_true, if_true, BitVec.signExtend, BitVec.toNat_ofInt, sext_eq_toInt (bits_pos t), trunc]
    exact Nat.mod_eq_of_lt (by have := Nat.two_pow_pos m; omega)
  · simp [signed]

/-- The same of a half type's one element. -/
theorem half_eq_filled {t : Ty} (ht : isHalf t = true) {x : Nat} (hx : x < 2 ^ t.bits) (m : Nat) :
    x % 2 ^ 32 % 2 ^ m = filled t m (BitVec.ofNat t.bits x) := by
  have types : t = .f16 ∨ t = .bf16 := by simpa [isHalf] using ht
  have bits : t.bits = 16 := by rcases types with rfl | rfl <;> rfl
  have kind : t.kind ≠ .signed := by rcases types with rfl | rfl <;> decide
  rw [bits] at hx
  simp only [filled, kind, if_false, BitVec.toNat_setWidth, BitVec.toNat_ofNat, bits, Nat.mod_eq_of_lt hx]
  rw [Nat.mod_eq_of_lt (show x < 2 ^ 32 by omega)]

theorem rows_le (t : Ty) : t.rows ≤ 8 := by cases t <;> decide

/-- What `putTy` leaves in D: the value as bits of the type, filled by R76. -/
theorem Issue.putTy_typedDest {i : Issue} {c d : Crew} {t : Ty} {x : Nat → Nat} (h : SameRegs d (c.putOut (i.putTy t x))) (hw : c.wrows = i.c.wrows)
    (hn : 8 ≤ i.c.wrows) (hx : isHalf t = true → ∀ l, x l < 2 ^ t.bits) : TypedDest i.c d i.sp i.f i.run t fun l => BitVec.ofNat t.bits (x l) := by
  have fills : ∀ l m, (if isHalf t then x l % 2 ^ 32 else extend t (x l) m) % 2 ^ m = filled t m (BitVec.ofNat t.bits (x l)) := by
    intro l m
    split
    case isTrue half => exact half_eq_filled half (hx half l) m
    case isFalse => exact extend_eq_filled t (x l) m
  have rows := rows_le t
  cases hD : i.f.d with
  | s r =>
    simp only [Issue.putTy, hD] at h
    simpa only [TypedDest, DestHolds, hD, fills] using Issue.putD_destHolds h hw (by omega)
  | v idx swz abs neg =>
    simp only [Issue.putTy, hD] at h
    simpa only [TypedDest, DestHolds, hD, fills] using Issue.putD_destHolds h hw (by omega)
  | _ => simp only [TypedDest, DestHolds, hD]

end Sys2Proof.Machine
end

section
/-! SUPPORT. Group 6: what moves, special registers and layout registers leave (R36, R210 to R216). -/

namespace Sys2Proof.Machine

open Sys2Proof

/-! ### Operands by class -/

theorem Operand.eq_x {o : Operand} (h : o.cls = .x) : ∃ sel, o = .x sel := by cases o <;> simp [Operand.cls] at h ⊢
theorem Operand.eq_s {o : Operand} (h : o.cls = .s) : ∃ r, o = .s r := by cases o <;> simp [Operand.cls] at h ⊢
theorem Operand.eq_i {o : Operand} (h : o.cls = .i) : ∃ v, o = .i v := by cases o <;> simp [Operand.cls] at h ⊢

section

variable {s : State} {f : Fields} {x k : Nat} {c : Crew} {sp : Split}

/-! ### mov and movw -/

/-- The 32-bit value of `movw` as bits. -/
def movwBits : Operand → BitVec 32
  | .w v => v
  | .i v => v.signExtend 32
  | _ => 0

theorem movwValue_eq (o : Operand) : movwValue o = (movwBits o).toNat := by
  cases o with
  | i v => simp [movwValue, movwBits, trunc, imm15, BitVec.signExtend, BitVec.toNat_ofInt]
  | _ => rfl

/-- One half of 64 bits replaced. -/
def movwWord {n : Nat} (high : Bool) (d : BitVec n) (v : BitVec 32) : BitVec (32 + 32) :=
  if high then v ++ d.setWidth 32 else (d >>> 32).setWidth 32 ++ v

theorem movwWord_toNat {n : Nat} (high : Bool) (d : BitVec n) (v : BitVec 32) (hd : d.toNat < 2 ^ 64) :
    (movwWord high d v).toNat = if high then d.toNat % 2 ^ 32 + v.toNat * 2 ^ 32 else d.toNat / 2 ^ 32 * 2 ^ 32 + v.toNat := by
  have := v.isLt
  unfold movwWord
  split <;> rw [BitVec.toNat_append, ← Nat.shiftLeft_add_eq_or_of_lt (BitVec.isLt _)] <;>
    simp only [BitVec.toNat_setWidth, BitVec.toNat_ushiftRight, Nat.shiftLeft_eq, Nat.shiftRight_eq_div_pow] <;> omega

theorem Crew.rowsVal_two (c : Crew) (wbase i l : Nat) : c.rowsVal wbase i 2 l =
    (c.row (physRow wbase c.wrows i) l).toNat + 2 ^ 32 * (c.row (physRow wbase c.wrows (i + 1)) l).toNat := by
  have low := (c.row (physRow wbase c.wrows i) l).isLt
  have high := (c.row (physRow wbase c.wrows (i + 1)) l).isLt
  simp [Crew.rowsVal, joinElems, List.range_succ, Nat.mod_eq_of_lt low, Nat.mod_eq_of_lt high]

theorem Crew.rowsVal_two_lt (c : Crew) (wbase i l : Nat) : c.rowsVal wbase i 2 l < 2 ^ 64 := by
  have := (c.row (physRow wbase c.wrows i) l).isLt
  have := (c.row (physRow wbase c.wrows (i + 1)) l).isLt
  rw [Crew.rowsVal_two]
  omega

/-- A pair of rows read without modifiers. -/
theorem src_pair (idx : BitVec 8) (l : Nat) : (src c sp .b64 (.v idx 0 false false) l).toNat = c.rowsVal sp.wbase idx.toNat 2 l := by
  have small := Nat.mod_eq_of_lt (c.rowsVal_two_lt sp.wbase idx.toNat l)
  change (c.rowsVal sp.wbase idx.toNat 2 (swzLane 0 l) % 2 ^ 64) % 2 ^ 64 % 2 ^ 64 = _
  rw [show swzLane 0 l = l from rfl, small, small, small]

/-- A class-v `movw` writes one row of the pair and leaves the other. -/
theorem movw_pair {i : Issue} {d : Crew} {idx : BitVec 8} {l : Nat}
    (h : SameRegs d (i.c.putOut { v := i.lanes.map fun l => (movwRow i.c i.sp i.f idx.toNat, l, movwValue i.f.a) })) (hn : 8 ≤ i.c.wrows)
    (hl : l ∈ i.lanes) : d.rowsVal i.sp.wbase idx.toNat 2 l =
      (movwWord i.f.f (src i.c i.sp .b64 (.v idx 0 false false) l) (movwBits i.f.a)).toNat := by
  have written : d.row (movwRow i.c i.sp i.f idx.toNat) l = movwBits i.f.a := by
    rw [Crew.row_of_v h.v, Crew.row_putOut, Crew.row_putRows_same (v := movwValue i.f.a)]
    · rw [movwValue_eq, BitVec.ofNat_toNat, BitVec.setWidth_eq]
    · simp
    · exact .inl ⟨_, List.mem_map_of_mem hl, rfl⟩
  have kept : ∀ j, j < 2 → j ≠ (if i.f.f then 1 else 0) →
      d.row (physRow i.sp.wbase i.c.wrows (idx.toNat + j)) l = i.c.row (physRow i.sp.wbase i.c.wrows (idx.toNat + j)) l := by
    intro j hj hne
    rw [Crew.row_of_v h.v, Crew.row_putOut]
    refine Crew.row_putRows_other _ _ _ _ fun e he same => ?_
    obtain ⟨l', hl', rfl⟩ := List.mem_map.1 he
    have := (lanesOf_lt hl).1
    have := (lanesOf_lt hl').1
    have rows := physRow_inj (by split <;> omega) (by split <;> omega)
      (show physRow i.sp.wbase i.c.wrows (idx.toNat + if i.f.f then 1 else 0) = physRow i.sp.wbase i.c.wrows (idx.toNat + j) by
        simp only [movwRow] at same; omega)
    omega
  have := (i.c.row (physRow i.sp.wbase i.c.wrows idx.toNat) l).isLt
  have := (i.c.row (physRow i.sp.wbase i.c.wrows (idx.toNat + 1)) l).isLt
  rw [movwWord_toNat _ _ _ (show (src i.c i.sp .b64 _ l).toNat < 2 ^ 64 from BitVec.isLt _), src_pair, Crew.rowsVal_two, Crew.rowsVal_two, h.putOut_wrows]
  cases high : i.f.f with
  | true =>
    have low := kept 0 (by omega) (by simp [high])
    simp only [movwRow, high, if_true, Nat.add_zero] at written low ⊢
    rw [written, low]
    omega
  | false =>
    have upper := kept 1 (by omega) (by simp [high])
    simp only [movwRow, high, Bool.false_eq_true, if_false, Nat.add_zero] at written upper ⊢
    rw [written, upper]
    omega

theorem filled_b64 (y : BitVec Ty.b64.bits) : filled .b64 (32 * Ty.b64.rows) y = y.toNat := by
  rw [filled, if_neg (by decide), BitVec.toNat_setWidth]
  exact Nat.mod_eq_of_lt y.isLt

/-- What `movw` leaves in D. -/
theorem movwOut_typedDest {i : Issue} {d : Crew} (h : SameRegs d (i.c.putOut (movwOut i))) (hn : 8 ≤ i.c.wrows) (type : i.f.sel = .ty .b64)
    (plain : dOk i.f.d = true) :
    TypedDest i.c d i.sp i.f i.run .b64 fun l => movwWord i.f.f (src i.c i.sp .b64 i.f.d l) (movwBits i.f.a) := by
  cases hD : i.f.d with
  | v idx swz abs neg =>
    simp only [hD, dOk, Bool.and_eq_true, beq_iff_eq, Bool.not_eq_true'] at plain
    obtain ⟨⟨rfl, rfl⟩, rfl⟩ := plain
    simp only [movwOut, hD] at h
    simp only [TypedDest, DestHolds, hD]
    intro l hl
    exact (movw_pair h hn hl).trans (filled_b64 _).symm
  | s r =>
    have ty : i.ty = .b64 := by simp [Issue.ty, type, Sel.ty?]
    simp only [movwOut, hD, ty] at h
    have holds := Issue.putTy_typedDest h rfl hn (by simp [isHalf])
    have value : ∀ l, (src i.c i.sp .b64 (.s r) l).toNat = i.dv .b64 false l := fun l => by
      rw [src, Issue.dv, hD, BitVec.toNat_ofNat]
      exact Nat.mod_eq_of_lt (Nat.mod_lt _ (Nat.two_pow_pos _))
    have word : ∀ l, movwWord i.f.f (src i.c i.sp .b64 (.s r) l) (movwBits i.f.a) = BitVec.ofNat Ty.b64.bits
        (if i.f.f then i.dv .b64 false l % 2 ^ 32 + movwValue i.f.a * 2 ^ 32 else i.dv .b64 false l / 2 ^ 32 * 2 ^ 32 + movwValue i.f.a) := by
      intro l
      rw [movwValue_eq, ← value, ← movwWord_toNat _ _ _ (show (src i.c i.sp .b64 _ l).toNat < 2 ^ 64 from BitVec.isLt _)]
      exact (BitVec.ofNat_toNat _ _).trans (BitVec.setWidth_eq _) |>.symm
    simpa only [word] using holds
  | _ => simp only [TypedDest, DestHolds, hD]

theorem movwOut_fmt (i : Issue) : (movwOut i).fmt = none := by
  unfold movwOut
  dsimp only
  split
  · rfl
  · exact Issue.putTy_fmt ..

/-! ### rdsr -/

/-- The special registers are those of R36. -/
theorem specialReg_eq {i : Issue} {tm : Team} (ht : s.team? i.c.team = some tm) (sel l : Nat) :
    specialReg s i sel l = specialValue s i.c i.sp i.x tm sel l := by
  unfold specialReg
  simp only [ht]
  match sel with
  | 0 | 1 | 2 | 3 | 4 | 5 | 8 | 9 | 11 | 12 | 13 => rfl
  | 6 | 7 => cases gang : tm.gang <;> simp [specialValue, gang]
  | 10 =>
    rcases Nat.mod_two_eq_zero_or_one (i.x / 64) with side | side <;> simp [specialValue, placeCore, side]
  | _ + 14 => rfl

/-! ### wrsr -/

/-- One 64-bit quarter of a number replaced, bit by bit. -/
theorem testBit_quarter (a u q j : Nat) (hu : u < 2 ^ 64) :
    (a % 2 ^ (64 * q) + u * 2 ^ (64 * q) + a / 2 ^ (64 * q + 64) * 2 ^ (64 * q + 64)).testBit j =
      if j / 64 = q then u.testBit (j % 64) else a.testBit j := by
  have laid : a % 2 ^ (64 * q) + u * 2 ^ (64 * q) + a / 2 ^ (64 * q + 64) * 2 ^ (64 * q + 64) =
      2 ^ (64 * q) * (2 ^ 64 * (a / 2 ^ (64 * q + 64)) + u) + a % 2 ^ (64 * q) := by
    rw [Nat.pow_add]
    generalize 2 ^ (64 * q) = p
    generalize 2 ^ 64 = b
    ring
  rw [laid, Nat.testBit_two_pow_mul_add _ (Nat.mod_lt _ (Nat.two_pow_pos _)), Nat.testBit_two_pow_mul_add _ hu]
  split
  case isTrue low => rw [if_neg (by omega), Nat.testBit_mod_two_pow]; simp [low]
  case isFalse low =>
    split
    case isTrue mid => rw [if_pos (by omega), show j % 64 = j - 64 * q by omega]
    case isFalse mid => rw [if_neg (by omega), Nat.testBit_div_two_pow, show j - 64 * q - 64 + (64 * q + 64) = j by omega]

/-- A layout register after `wrsr`. -/
theorem wrsrOut_layReg {i : Issue} {d : Crew} {sel q : BitVec 15} {r : BitVec 6} (h : SameRegs d (i.c.putOut (wrsrOut i))) (hd : i.f.d = .x sel)
    (ha : i.f.a = .s r) (hb : i.f.b = .i q) (hr : i.run ≠ 0) {j : Nat} (hj : j < 256) : (d.layReg (sel.toNat - 256)).getLsbD j =
      if j / 64 = q.toNat then (i.ca.uni r.toNat).getLsbD (j % 64) else (i.c.layReg (sel.toNat - 256)).getLsbD j := by
  have lay := h.lay
  simp only [wrsrOut, hd, ha, hb, hr, if_false, Crew.putOut, Crew.putRows, Crew.putUnis, Crew.putPreds, Crew.putLays, Crew.setLay] at lay
  have quarter := testBit_quarter (i.c.layReg (sel.toNat - 256)).toNat (i.ca.uni r.toNat).toNat q.toNat j (i.ca.uni r.toNat).isLt
  rw [show d.layReg (sel.toNat - 256) = _ by rw [Crew.layReg, lay, Tab.get_set_same], BitVec.getLsbD_ofNat, quarter, decide_eq_true hj,
    Bool.true_and]
  simp only [BitVec.testBit_toNat]

end

/-! ### nop -/

theorem Crew.putOut_nothing (c : Crew) : c.putOut {} = c := rfl

theorem SameRegs.cell {d c : Crew} (h : SameRegs d c) (n : Nat) : d.cell n = c.cell n := by
  simp only [Crew.cell, Crew.pred, Crew.row_of_v h.v, Crew.uni_of_s h.s, Crew.predSet_of_p h.p h.width, Crew.layReg, h.lay]
  rfl

end Sys2Proof.Machine

namespace Sys2Proof

open Machine

/-- Settles O11: each instruction only reads and writes registers, so what it leaves is what its `RegOut` puts there. -/
theorem moveResults : Obligations.MoveResults := by
  intro f s x k c sp hs hn
  have hc : ∀ m, (issueOf s m f x k c sp).c = c := fun _ => issueOf_c hs
  have hca : ∀ m, (issueOf s m f x k c sp).ca = c := fun _ => issueOf_ca hs
  have hsp : ∀ m, (issueOf s m f x k c sp).sp = sp := fun _ => issueOf_sp hs
  have hn' : ∀ m, 8 ≤ (issueOf s m f x k c sp).c.wrows := fun m => by rwa [hc]
  refine ⟨fun t type h => ?mov, fun h => ?movw, fun h => ?rdsr, fun h => ?wrsr, fun h => ?getfmt, fun h => ?nop⟩
  case mov =>
    refine regStep_retires h hs rfl (by simp [movOut]) fun d regs => ?_
    have whole : isHalf t = false := by
      have types := h.type type
      simp only [Mn.row, List.mem_cons, List.not_mem_nil, or_false] at types
      rcases types with rfl | rfl | rfl <;> rfl
    rw [movOut, issueOf_ty type] at regs
    have holds := Issue.putTy_typedDest regs rfl (hn' _) (by simp [whole])
    simp only [Issue.a] at holds
    rwa [hc, hca, hsp] at holds
  case movw =>
    have type : f.sel = .ty .b64 := by
      have sel := h.sel
      cases e : f.sel with
      | ty t => rw [e] at sel; simpa [selOk, Mn.row] using sel
      | var n => rw [e] at sel; simp [selOk, Mn.row] at sel
    refine regStep_retires h hs rfl (movwOut_fmt _) fun d regs => ?_
    have holds := movwOut_typedDest regs (hn' _) type h.dPlain
    rwa [hc, hsp] at holds
  case rdsr =>
    obtain ⟨tm, team⟩ := h.team
    obtain ⟨sel, ha⟩ := Operand.eq_x (by simpa [Mn.row] using h.aClass)
    refine regStep_retires h hs rfl (by simp [rdsrOut, ha]) fun d regs => ?_
    simp only [ha, team]
    simp only [rdsrOut, issueOf_f, ha, specialReg_eq (i := issueOf s .rdsr f x k c sp) (by rwa [hc])] at regs
    have holds := Issue.putD_destHolds regs rfl (by rw [hc]; split <;> omega)
    rw [hc, hsp] at holds
    by_cases wide : 12 ≤ sel.toNat
    case pos => simpa [wide] using holds
    case neg => simpa [wide] using holds
  case wrsr =>
    obtain ⟨sel, hd⟩ := Operand.eq_x (by simpa [Mn.row] using h.dClass)
    obtain ⟨r, ha⟩ := Operand.eq_s (by simpa [Mn.row] using h.aClass)
    obtain ⟨q, hb⟩ := Operand.eq_i (by simpa [Mn.row] using h.bClass (by simp [ha, Operand.cls]))
    refine regStep_retires h hs rfl (by simp only [wrsrOut, issueOf_f, hd, ha, hb]; split <;> rfl) fun d regs => ?_
    simp only [hd, ha, hb]
    intro some j hj
    obtain ⟨l, low⟩ := Option.ne_none_iff_exists'.1 some
    have bits := wrsrOut_layReg regs hd ha hb (lowest_run low) hj
    rwa [hc, hca] at bits
  case getfmt =>
    refine regStep_retires h hs rfl (by simp [getfmtOut]) fun d regs => ?_
    have holds := Issue.putD_destHolds regs rfl (le_trans (by decide) (hn' _))
    have small := sp.fmt.isLt
    rw [hc, hsp] at holds
    simpa only [issueOf_f, issueOf_run, Nat.mod_eq_of_lt small, Nat.mod_eq_of_lt (lt_trans small (by decide : 2 ^ 32 < 2 ^ 64))] using holds
  case nop =>
    exact regStep_retires h hs rfl rfl fun d regs n => by rw [regs.cell, Crew.putOut_nothing, hc]

end Sys2Proof
end

section
/-! SUPPORT. The path of an instruction that reaches its team's scratch: which other crews and teams it leaves alone, and that the waits its writes
end are never its own split's (R223, R257, R260). -/

namespace Sys2Proof.Machine

open Sys2Proof

variable {s0 : State}

/-! ### Tables and paths -/

theorem Tab.above_mem {β : Type} {n : Nat} {t : Table β} {e : Nat × β} (ht : Tab.above n t = true) (he : e ∈ t) : n < e.1 := by
  simp only [Tab.above, List.all_eq_true, decide_eq_true_eq] at ht
  exact ht e he

/-- In a table whose keys rise, an entry is what its key finds. -/
theorem Tab.find_of_mem {β : Type} {t : Table β} {k : Nat} {v : β} (ht : Tab.sorted t = true) (h : (k, v) ∈ t) : Tab.find t k = some v := by
  induction t with
  | nil => cases h
  | cons e t ih =>
    obtain ⟨k', v'⟩ := e
    simp only [Tab.sorted, Bool.and_eq_true] at ht
    obtain ⟨above, sorted⟩ := ht
    rw [Tab.find_cons]
    rcases List.mem_cons.1 h with head | tail
    · cases head; simp
    · have := Tab.above_mem above tail
      rw [if_neg (by dsimp only at this ⊢; omega)]
      exact ih sorted tail

/-- What every part of a path keeps, the whole path keeps. -/
theorem Go.each_keeps {α : Type} {P : State → Prop} {l : List α} {f : α → Go s0 → Go s0} (hf : ∀ a ∈ l, ∀ g : Go s0, P g.st → P (f a g).st)
    (g : Go s0) (hg : P g.st) : P (g.each l f).st := by
  induction l generalizing g with
  | nil => exact hg
  | cons a l ih =>
    exact ih (fun b hb => hf b (List.mem_cons_of_mem a hb)) (f a g) (hf a List.mem_cons_self g hg)

theorem modTeam_some (g : Go s0) {n : Nat} {t : Team} (F : Team → Team) (h : g.st.team? n = some t) :
    modTeam g n F = g.put (.team n (some (F t))) := by
  unfold modTeam; rw [h]

theorem State.team?_put_same (s : State) (n : Nat) (t : Team) : ((Upd.team n (some t)).apply s).team? n = some t := Tab.find_put_same ..

theorem State.team?_put_other (s : State) {n j : Nat} (t : Team) (h : j ≠ n) : ((Upd.team n (some t)).apply s).team? j = s.team? j :=
  Tab.find_put_other _ _ h

/-! ### The issuing crew -/

/-- Crew `d` is crew `c` further on: its registers, its team, its split `k` and whether it runs are the same. -/
structure Crew.Keeps (k : Nat) (c d : Crew) : Prop where
  regs   : SameRegs d c
  team   : d.team = c.team
  st     : d.st = c.st
  uncov  : d.uncov = c.uncov
  split  : d.split? k = c.split? k
  sorted : Tab.sorted c.splits = true → Tab.sorted d.splits = true

theorem SameRegs.refl (c : Crew) : SameRegs c c := ⟨rfl, rfl, rfl, rfl, rfl, rfl⟩
theorem SameRegs.trans {a b c : Crew} (h : SameRegs a b) (h' : SameRegs b c) : SameRegs a c :=
  ⟨h.v.trans h'.v, h.s.trans h'.s, h.p.trans h'.p, h.lay.trans h'.lay, h.width.trans h'.width, h.wrows.trans h'.wrows⟩

theorem Crew.Keeps.refl (k : Nat) (c : Crew) : Crew.Keeps k c c := ⟨.refl c, rfl, rfl, rfl, rfl, id⟩
theorem Crew.Keeps.trans {k : Nat} {a b c : Crew} (h : Crew.Keeps k a b) (h' : Crew.Keeps k b c) : Crew.Keeps k a c :=
  ⟨h'.regs.trans h.regs, h'.team.trans h.team, h'.st.trans h.st, h'.uncov.trans h.uncov, h'.split.trans h.split, h'.sorted ∘ h.sorted⟩

/-- The end of another split's wait keeps a running crew's split. -/
theorem Crew.keeps_endWait {k j : Nat} (c : Crew) (cyc clock : Nat) (vc : Table Nat) (hj : j ≠ k) (run : c.st = .running) :
    Crew.Keeps k c (c.endWait cyc clock vc j) := by
  unfold Crew.endWait
  split
  case h_1 => exact .refl k c
  case h_2 q hq =>
    rw [if_pos run]
    exact ⟨⟨rfl, rfl, rfl, rfl, rfl, rfl⟩, rfl, rfl, rfl, Tab.find_put_other _ _ hj.symm, Tab.sorted_put _ _ _⟩

/-- Split `k` of the crew waits for nothing, and the crew runs. -/
structure Crew.Idle (k : Nat) (c : Crew) : Prop where
  st     : c.st = .running
  sorted : Tab.sorted c.splits = true
  split  : ∀ q, c.split? k = some q → q.wait = .none

/-! ### The path -/

/-- Crew `c` at place `x` acts on its team's scratch: from `s` the path has reached `u`, the team has become `tm'`, and no crew of another team and no
other team has changed. -/
structure Scratching (s : State) (x k : Nat) (c : Crew) (tm : Team) (u : State) (tm' : Team) : Prop where
  state   : u = { s with crews := u.crews, cycles := u.cycles, coloc := u.coloc, teams := u.teams, seq := u.seq }
  others  : ∀ n, n ≠ c.team → u.team? n = s.team? n
  team    : u.team? c.team = some tm'
  kept    : tm' = { tm with scratch := tm'.scratch, poison := tm'.poison, wlog := tm'.wlog, tracks := tm'.tracks }
  foreign : ∀ y d, s.crew? y = some d → d.team ≠ c.team → u.crew? y = some d
  sorted  : Tab.sorted u.crews = true
  crew    : ∃ d, u.crew? x = some d ∧ Crew.Keeps k c d
  idle    : Crew.Idle k c

section Path

variable {s : State} {x k : Nat} {c : Crew} {tm tm' : Team} {g : Go s0}

theorem Scratching.start (crew : s.crew? x = some c) (team : s.team? c.team = some tm) (sorted : Tab.sorted s.crews = true) (idle : Crew.Idle k c) :
    Scratching s x k c tm s tm :=
  ⟨rfl, fun _ _ => rfl, team, rfl, fun _ _ h _ => h, sorted, ⟨c, crew, .refl k c⟩, idle⟩

/-- A change of a crew of the team that keeps the issuing split. -/
theorem Scratching.modCrew (h : Scratching s x k c tm g.st tm') {y : Nat} {F : Crew → Crew} (mine : ∀ d, s.crew? y = some d → d.team = c.team)
    (keeps : y = x → ∀ d, Crew.Keeps k c d → Crew.Keeps k c (F d)) : Scratching s x k c tm (modCrew g y F).st tm' := by
  cases crew : g.st.crew? y with
  | none => simpa only [Machine.modCrew, crew] using h
  | some e =>
    rw [modCrew_some g F crew, Go.put_st]
    have other : ∀ z, z ≠ y → ((Upd.crew y (some (F e))).apply g.st).crew? z = g.st.crew? z := fun z hz => State.crew?_put_other _ _ hz
    refine ⟨?_, h.others, h.team, h.kept, fun z d hz away => ?_, Tab.sorted_put _ _ _ h.sorted, ?_, h.idle⟩
    · rw [h.state]; rfl
    · rw [other z (by rintro rfl; exact away (mine d hz))]
      exact h.foreign z d hz away
    · obtain ⟨d, hd, keep⟩ := h.crew
      by_cases hy : y = x
      case pos =>
        subst hy
        obtain rfl : e = d := Option.some.inj (crew.symm.trans hd)
        exact ⟨_, State.crew?_put .., keeps rfl _ keep⟩
      case neg => exact ⟨d, (other x (Ne.symm hy)).trans hd, keep⟩

theorem Scratching.seq (h : Scratching s x k c tm g.st tm') : Scratching s x k c tm (g.put .seq).st tm' :=
  ⟨by rw [Go.put_st, h.state]; rfl, h.others, h.team, h.kept, h.foreign, h.sorted, h.crew, h.idle⟩

/-- A change of the team's scratch, its writes and its records. -/
theorem Scratching.modTeam (h : Scratching s x k c tm g.st tm') {F : Team → Team}
    (hF : F tm' = { tm' with scratch := (F tm').scratch, poison := (F tm').poison, wlog := (F tm').wlog, tracks := (F tm').tracks }) :
    Scratching s x k c tm (modTeam g c.team F).st (F tm') := by
  rw [modTeam_some g F h.team, Go.put_st]
  refine ⟨by rw [h.state]; rfl, fun n hn => (State.team?_put_other _ _ hn).trans (h.others n hn), State.team?_put_same .., ?_, h.foreign, h.sorted,
    h.crew, h.idle⟩
  rw [hF, h.kept]

/-- The end of a word's wait of another split of the team. -/
theorem Scratching.endWordWait (h : Scratching s x k c tm g.st tm') {y j : Nat} (mine : ∀ d, s.crew? y = some d → d.team = c.team)
    (hj : y = x → j ≠ k) (loc : Loc) (cond : FlagCond) (value scope : Nat) (log : List WriteRec) :
    Scratching s x k c tm (endWordWait g y j loc cond value scope log).st tm' := by
  unfold Machine.endWordWait
  split
  case h_1 => exact h
  case h_2 d hd =>
    dsimp only
    have ended := h.modCrew (F := fun e => e.endWait (Tab.get 0 g.st.cycles (y / 8))
        (contribution g.st y d loc (contributing ((g.st.team? d.team).map fun t => t.launch) cond value log)).clock
        (contribution g.st y d loc (contributing ((g.st.team? d.team).map fun t => t.launch) cond value log)).vc j) mine
      fun e q keep => keep.trans (q.keeps_endWait _ _ _ (hj e) (keep.st.trans h.idle.st))
    have seen := ended.modCrew (F := fun e => { e with seen := e.seen ++
        (contribution g.st y d loc (contributing ((g.st.team? d.team).map fun t => t.launch) cond value log)).seen }) mine
      fun _ q keep => keep.trans ⟨⟨rfl, rfl, rfl, rfl, rfl, rfl⟩, rfl, rfl, rfl, rfl, id⟩
    split
    · exact seen.modCrew mine fun _ q keep => keep.trans ⟨⟨rfl, rfl, rfl, rfl, rfl, rfl⟩, rfl, rfl, rfl, rfl, id⟩
    · exact seen

/-- A split that waits on scratch is one of a crew of the team, and waits. -/
theorem scratchWaiters_mem {u : State} {t : Nat} {words : List Nat} {w : Nat × Nat × FlagCond × Nat × Nat × Nat} (hw : w ∈ u.scratchWaiters t words) :
    ∃ d q, (w.1, d) ∈ u.crews ∧ d.team = t ∧ (w.2.1, q) ∈ d.splits ∧ q.wait ≠ .none := by
  simp only [State.scratchWaiters, List.mem_flatten, List.mem_map] at hw
  obtain ⟨_, ⟨⟨y, d⟩, hy, rfl⟩, hw⟩ := hw
  split at hw
  case isFalse => cases hw
  case isTrue team =>
    obtain ⟨⟨j, q⟩, hj, hw⟩ := List.mem_filterMap.1 hw
    dsimp only at hw
    split at hw
    case h_2 => cases hw
    case h_1 wait =>
      have key : w.1 = y ∧ w.2.1 = j := by
        split at hw
        · split at hw
          · cases hw; exact ⟨rfl, rfl⟩
          · cases hw
        · cases hw
      obtain ⟨rfl, rfl⟩ := key
      exact ⟨d, q, hy, team, hj, by rw [wait]; simp⟩

/-- A write to the team's scratch. -/
theorem Scratching.scratchStore (h : Scratching s x k c tm g.st tm') (by_ : By) (cells : List (Nat × Byte)) :
    Scratching s x k c tm (scratchStore g c.team by_ cells).st (tm'.write by_ cells) := by
  have written := h.modTeam (F := fun t => t.write by_ cells) rfl
  refine Go.each_keeps (P := fun u => Scratching s x k c tm u (tm'.write by_ cells)) (fun w hw g' h' => ?_) _ written
  obtain ⟨d, q, hy, team, hq, waits⟩ := scratchWaiters_mem hw
  have crew := Tab.find_of_mem written.sorted hy
  have mine : ∀ e, s.crew? w.1 = some e → e.team = c.team := by
    intro e he
    by_contra away
    obtain rfl : d = e := Option.some.inj (crew.symm.trans (written.foreign w.1 e he away))
    exact away team
  have own : w.1 = x → w.2.1 ≠ k := by
    rintro place rfl
    obtain ⟨e, he, keep⟩ := written.crew
    rw [← place] at he
    obtain rfl : d = e := Option.some.inj (crew.symm.trans he)
    exact waits (h.idle.split q (keep.split ▸ Tab.find_of_mem (keep.sorted h.idle.sorted) hq))
  rw [h'.team]
  exact h'.endWordWait mine own ..

/-- The records of an instruction's scratch accesses leave scratch as it is, and every crew. -/
theorem Scratching.trackNow (h : Scratching s x k c tm g.st tm') (i : Issue) (exempt : Bool) {accs : List Tracked}
    (ha : ∀ a ∈ accs, ∃ off, a.loc = .scratch c.team off) :
    ∃ tm2, Scratching s x k c tm (trackNow g i exempt accs).st tm2 ∧ tm2.scratch = tm'.scratch ∧ (trackNow g i exempt accs).st.crews = g.st.crews := by
  have all : ∀ (b : TrackBy) (launch : Nat) (accs : List Tracked), (∀ a ∈ accs, ∃ off, a.loc = .scratch c.team off) → ∀ (g : Go s0) (tm' : Team),
      Scratching s x k c tm g.st tm' → ∃ tm2, Scratching s x k c tm (g.each accs fun a g => trackOne g b launch a).st tm2 ∧
        tm2.scratch = tm'.scratch ∧ (g.each accs fun a g => trackOne g b launch a).st.crews = g.st.crews := by
    intro b launch accs
    induction accs with
    | nil => exact fun _ g tm' h => ⟨tm', h, rfl, rfl⟩
    | cons a accs ih =>
      intro ha g tm' h
      obtain ⟨off, loc⟩ := ha a List.mem_cons_self
      have one := h.modTeam (F := fun t => { t with tracks := Tab.set [] t.tracks (off / 64) (addTrack g.st b launch a (Tab.get [] t.tracks (off / 64))) }) rfl
      have eq : trackOne g b launch a = Machine.modTeam g c.team
          fun t => { t with tracks := Tab.set [] t.tracks (off / 64) (addTrack g.st b launch a (Tab.get [] t.tracks (off / 64))) } := by
        simp only [trackOne, loc]
      rw [← eq] at one
      obtain ⟨tm2, rest, scratch, crews⟩ := ih (fun a' h' => ha a' (List.mem_cons_of_mem a h')) _ _ one
      refine ⟨tm2, rest, scratch, crews.trans ?_⟩
      rw [eq, modTeam_some g _ h.team]
      rfl
  unfold Machine.trackNow
  split
  case isFalse => exact ⟨tm', h, rfl, rfl⟩
  case isTrue =>
    obtain ⟨tm2, reached, scratch, crews⟩ := all (i.c.trackBy g.st.seq) (g.st.launchOf i.c) accs ha g tm' h
    exact ⟨tm2, reached.seq, scratch, crews⟩

end Path

end Sys2Proof.Machine
end

section
/-! SUPPORT. Scratch accesses: their checks, what each write leaves in scratch, and the retirement of the instruction (R218, R220, R223, R244). -/

namespace Sys2Proof.Machine

open Sys2Proof

variable {s0 : State}

/-! ### Retiring -/

/-- The window of a long instruction keeps scratch as the instruction found it: of the crew nothing but its split's windows changes. -/
theorem noteTeam_crew (g : Go s0) (i : Issue) (was : Option Team) {d : Crew} {q : Split} (crew : g.st.crew? i.x = some d) (split : d.split? i.k = some q) :
    ∃ d' q', (noteTeam g i was).st = { g.st with crews := (noteTeam g i was).st.crews } ∧ (noteTeam g i was).st.crew? i.x = some d' ∧
      (∀ y, y ≠ i.x → (noteTeam g i was).st.crew? y = g.st.crew? y) ∧ SameRegs d' d ∧ d'.split? i.k = some q' ∧ q' = { q with windows := q'.windows } := by
  unfold noteTeam
  split
  case h_2 => exact ⟨d, q, rfl, crew, fun _ _ => rfl, .refl d, split, rfl⟩
  case h_1 t =>
    split
    case isTrue => exact ⟨d, q, rfl, crew, fun _ _ => rfl, .refl d, split, rfl⟩
    case isFalse =>
      rw [modSplit, modCrew_some g _ crew, Go.put_st, split]
      exact ⟨_, _, rfl, State.crew?_put .., fun y hy => State.crew?_put_other _ _ hy, ⟨rfl, rfl, rfl, rfl, rfl, rfl⟩, Tab.find_put_same .., rfl⟩

section Path

variable {s : State} {x k : Nat} {c : Crew} {sp : Split} {tm tm' : Team} {g : Go s0} {i : Issue}

/-- The instruction retires on its path: what it leaves of the rest, and the registers with its results. -/
theorem Scratching.retire (h : Scratching s x k c tm g.st tm') (hx : i.x = x) (hk : i.k = k) (hsp : i.sp = sp) (split : c.split? k = some sp)
    (hs : Settled c sp) (o : RegOut) (hf : o.fmt = none) (was : Option Team) :
    ∃ d c' sp', ScratchFrame s (noteTeam (retire g i o) i was).st x k c c' sp sp' tm tm' ∧ Crew.Keeps k c d ∧ SameRegs c' (d.putOut o) ∧
      ∀ y, y ≠ x → (noteTeam (Machine.retire g i o) i was).st.crew? y = g.st.crew? y := by
  subst hx hk hsp
  obtain ⟨d, crew, keep⟩ := h.crew
  obtain ⟨d1, q1, reached, retired, fmt, regs⟩ := retire_settled g i o crew (keep.split.trans split) hs.windows (keep.uncov.trans hs.loads)
  obtain ⟨c', q', noted, crew', rest, same, split', windows⟩ := noteTeam_crew (Machine.retire g i o) i was
    (by rw [reached]; exact Tab.find_put_same ..) retired.split
  have others : ∀ y, y ≠ i.x → (noteTeam (Machine.retire g i o) i was).st.crew? y = g.st.crew? y := fun y hy => by
    rw [rest y hy, reached]; exact Tab.find_put_other _ _ hy
  have teams : ∀ n, (noteTeam (Machine.retire g i o) i was).st.team? n = g.st.team? n := fun n => by rw [noted, reached]; rfl
  have whole := retired.same
  refine ⟨d, c', q', ⟨?_, fun n hn => (teams n).trans (h.others n hn), (teams _).trans h.team, h.kept, fun y e he away => ?_, crew', split', ?_⟩, keep,
    same.trans regs, others⟩
  · rw [noted, reached, h.state]
  · obtain ⟨e', he', keep'⟩ := h.crew
    have foreign := h.foreign y e he away
    rw [others y ?_]
    · exact foreign
    · rintro rfl
      exact away (Option.some.inj (foreign.symm.trans he') ▸ keep'.team)
  · rw [windows]
    refine ⟨retired.pc, retired.clock, by rw [fmt, hf]; rfl, ?_⟩
    rw [whole]

end Path

/-! ### The checks -/

/-- An access that has passed. -/
def passed (team : Nat) (off : Nat → Nat) (l : Nat) : Checked := { lane := l, ea := off l, loc := .scratch team (off l) }

/-- Accesses that pass the checks of R220 raise no fault. -/
theorem scratchChecks_pass {s : State} {i : Issue} {kd : AccKind} {tm : Team} {off : Nat → Nat} (team : s.team? i.c.team = some tm)
    (hoff : ∀ l, scratchOff i (evalLane l) = off l) {ls : List Nat}
    (h : ∀ l ∈ ls, scratchPasses s i.x i.c tm (off l) kd.size kd.read kd.write kd.op) :
    scratchChecks s i kd ls = ([], ls.map (passed i.c.team off)) := by
  induction ls with
  | nil => rfl
  | cons l ls ih =>
    obtain ⟨aligned, bounds, lock, knots, track⟩ := h l List.mem_cons_self
    have one : checkScratch s i kd l (off l) = .ok (passed i.c.team off l) := by
      have clash : (tracks s i.c kd.exempt && s.trackClash i.c
          { loc := .scratch i.c.team (off l), size := kd.size, read := kd.read, write := kd.write, op := kd.op }) = false := by
        cases dclass : s.dclass i.c with
        | false => simp [tracks, dclass]
        | true => rw [track dclass, Bool.and_false]
      have guarded : (kd.write && tm.guarded (off l) kd.size) = false := by
        cases write : kd.write with
        | false => rfl
        | true => exact knots write
      unfold checkScratch
      rw [team]
      simp only [aligned, ne_eq, not_true_eq_false, if_false, not_lt.2 bounds, placeCore, lock, guarded, clash, Bool.false_eq_true, passed]
    rw [scratchChecks, List.foldr_cons, hoff, one]
    have rest := ih fun l' hl' => h l' (List.mem_cons_of_mem l hl')
    rw [scratchChecks] at rest
    rw [rest]
    rfl

/-- No acquire or fence and no store of the same thread keeps a scratch access in issue. -/
theorem scratchWaits_pass {s : State} {i : Issue} {n : Nat} {off : Nat → Nat} {team : Nat} {ls : List Nat} (order : i.c.heldBack s.seq = false)
    (ahead : s.windowAhead i.c n (ls.map fun l => (l, off l)) = false) : scratchWaits s i n (ls.map (passed team off)) = false := by
  rw [scratchWaits, orderWaits, order, Bool.false_or, List.map_map]
  exact ahead

/-! ### Scratch bytes -/

theorem Team.bytesAt_eq (t : Team) (off n : Nat) : t.bytesAt off n = (List.range n).map fun j => Tab.get 0 t.scratch (off + j) := by
  induction n generalizing off with
  | zero => rfl
  | succ n ih =>
    rw [Team.bytesAt, ih, List.range_succ_eq_map, List.map_cons, List.map_map, Nat.add_zero]
    congr 1
    exact List.map_congr_left fun j _ => by rw [Function.comp_apply, Nat.add_right_comm, Nat.add_assoc]

/-- A byte of a table after bytes were laid over it. -/
theorem get_putBytes_cellsFrom (t : Table Byte) (a : Nat) (bs : List Byte) (b : Nat) :
    Tab.get 0 (putBytes t (cellsFrom a bs)) b = if a ≤ b ∧ b < a + bs.length then bs.getD (b - a) 0 else Tab.get 0 t b := by
  induction bs generalizing t a with
  | nil => rw [if_neg (by simp)]; rfl
  | cons v bs ih =>
    have step : putBytes t (cellsFrom a (v :: bs)) = putBytes (Tab.set 0 t a v) (cellsFrom (a + 1) bs) := rfl
    rw [step, ih, List.length_cons]
    by_cases first : b = a
    case pos =>
      subst first
      rw [if_neg (by omega), if_pos (by omega), Tab.get_set_same, Nat.sub_self, List.getD_cons_zero]
    case neg =>
      rw [Tab.get_set_other _ _ _ first]
      by_cases inside : a + 1 ≤ b ∧ b < a + 1 + bs.length
      case pos => rw [if_pos inside, if_pos (by omega), show b - a = b - (a + 1) + 1 by omega, List.getD_cons_succ]
      case neg => rw [if_neg inside, if_neg (by omega)]

theorem Team.scratch_write (t : Team) (by_ : By) (cells : List (Nat × Byte)) : (t.write by_ cells).scratch = putBytes t.scratch cells := rfl

/-- Of two writes, one after the other, the later one counts. -/
theorem lastWritten_cons (n : Nat) (w : Nat × Nat) (ws : List (Nat × Nat)) (old : Nat → Byte) :
    lastWritten n (w :: ws) old = lastWritten n ws fun b => if w.1 ≤ b ∧ b < w.1 + n then (leBytes w.2 n).getD (b - w.1) 0 else old b := by
  funext b
  unfold lastWritten
  rw [List.reverse_cons, List.find?_append]
  cases later : ws.reverse.find? fun w => decide (w.1 ≤ b ∧ b < w.1 + n) with
  | some w' => rfl
  | none =>
    by_cases covers : w.1 ≤ b ∧ b < w.1 + n
    case pos => simp [covers]
    case neg => simp [covers]

end Sys2Proof.Machine
end

section
/-! SUPPORT. `lds`, `sts` and `atoms` (R223, R239, R243, R244): what they leave in scratch and in D. -/

namespace Sys2Proof.Machine

open Sys2Proof

/-! ### One lane of an atomic -/

theorem atomsLane_old (i : Issue) (t : Team) (l off : Nat) :
    (atomsLane i t l off).1 = leNat ((List.range i.ty.bytes).map fun j => Tab.get 0 t.scratch (off + j)) := by
  rw [← Team.bytesAt_eq]
  unfold atomsLane
  dsimp only
  split <;> rfl

/-- Scratch after one lane of an atomic. -/
theorem atomsLane_stores (i : Issue) (t : Team) (l off : Nat) :
    (fun b => Tab.get 0 (putBytes t.scratch (atomsLane i t l off).2) b) =
      match atomicNew i.ty (opOfScratch (i.f.ext.toNat % 8)) (leNat ((List.range i.ty.bytes).map fun j => Tab.get 0 t.scratch (off + j)))
        (atomData i l) (i.dv i.ty true (evalLane l)) with
      | some v => fun b => if off ≤ b ∧ b < off + i.ty.bytes then (leBytes v i.ty.bytes).getD (b - off) 0 else Tab.get 0 t.scratch b
      | none => fun b => Tab.get 0 t.scratch b := by
  rw [← Team.bytesAt_eq]
  simp only [atomsLane, scratchVal]
  cases atomicNew i.ty (opOfScratch (i.f.ext.toNat % 8)) (leNat (t.bytesAt off i.ty.bytes)) (atomData i l) (i.dv i.ty true (evalLane l)) with
  | none => rfl
  | some v =>
    funext b
    simp only [get_putBytes_cellsFrom, length_leBytes]

/-! ### Stores and atomics lane by lane -/

section Path

variable {s0 s : State} {x k : Nat} {c : Crew} {tm tm' : Team} {g : Go s0}

/-- Stores of `n` bytes one after another leave scratch as the last writes give it. -/
theorem Scratching.stores (h : Scratching s x k c tm g.st tm') (by_ : By) (n : Nat) (addr data : Checked → Nat) (cs : List Checked) :
    ∃ tm2, Scratching s x k c tm (g.each cs fun q g => Machine.scratchStore g c.team by_ (cellsFrom (addr q) (leBytes (data q) n))).st tm2 ∧
      ∀ b, Tab.get 0 tm2.scratch b = lastWritten n (cs.map fun q => (addr q, data q)) (fun b => Tab.get 0 tm'.scratch b) b := by
  induction cs generalizing g tm' with
  | nil => exact ⟨tm', h, fun _ => rfl⟩
  | cons q cs ih =>
    obtain ⟨tm2, reached, scratch⟩ := ih (h.scratchStore by_ (cellsFrom (addr q) (leBytes (data q) n)))
    refine ⟨tm2, reached, fun b => ?_⟩
    rw [scratch, List.map_cons, lastWritten_cons]
    simp only [Team.scratch_write, get_putBytes_cellsFrom, length_leBytes]

/-- A lane's write, where it writes anything. -/
theorem Scratching.storeSome (h : Scratching s x k c tm g.st tm') (by_ : By) (cells : List (Nat × Byte)) :
    ∃ tm2, Scratching s x k c tm (if cells.isEmpty then g else Machine.scratchStore g c.team by_ cells).st tm2 ∧
      tm2.scratch = putBytes tm'.scratch cells := by
  cases cells with
  | nil => exact ⟨tm', h, rfl⟩
  | cons cell cells => exact ⟨_, h.scratchStore by_ (cell :: cells), rfl⟩

/-- Scratch atomics one after another: the old values and the memory of `atomsInTurn`. -/
theorem Scratching.atoms (h : Scratching s x k c tm g.st tm') {i : Issue} (hi : i.c.team = c.team) {t : Ty} (ty : i.ty = t) (by_ : By)
    (cs : List Checked) :
    let r := atomsInTurn t (opOfScratch (i.f.ext.toNat % 8)) t.bytes
      (cs.map fun q => (q.lane, q.ea, atomData i q.lane, i.dv t true (evalLane q.lane))) fun b => Tab.get 0 tm'.scratch b
    ∃ tm2, Scratching s x k c tm (atomsLanes i by_ cs g).2.st tm2 ∧ (∀ b, Tab.get 0 tm2.scratch b = r.2 b) ∧ (atomsLanes i by_ cs g).1 = r.1 := by
  subst ty
  induction cs generalizing g tm' with
  | nil => exact ⟨tm', h, fun _ => rfl, rfl⟩
  | cons q cs ih =>
    obtain ⟨tm1, stored, scratch⟩ := h.storeSome by_ (atomsLane i tm' q.lane q.ea).2
    generalize hg1 : (if (atomsLane i tm' q.lane q.ea).2.isEmpty then g else Machine.scratchStore g c.team by_ (atomsLane i tm' q.lane q.ea).2) = g1
      at stored
    obtain ⟨tm2, reached, mem, olds⟩ := ih stored
    have after := atomsLane_stores i tm' q.lane q.ea
    rw [← scratch] at after
    have lanes : atomsLanes i by_ (q :: cs) g = ((q.lane, (atomsLane i tm' q.lane q.ea).1) :: (atomsLanes i by_ cs g1).1, (atomsLanes i by_ cs g1).2) := by
      simp only [atomsLanes, hi, h.team, hg1]
    rw [lanes]
    refine ⟨tm2, reached, fun b => ?_, ?_⟩
    · rw [mem, after]; rfl
    · dsimp only
      rw [olds, after, atomsLane_old]; rfl

end Path

end Sys2Proof.Machine
end

section
/-! SUPPORT. O21: `lds`, `sts` and `atoms` from their checks to their retirement (R223, R239, R243, R244). -/

namespace Sys2Proof.Machine

open Sys2Proof

section Issue

variable {s : State} {m : Mn} {f : Fields} {x k : Nat} {c : Crew} {sp : Split}

/-- The split that issues waits for nothing. -/
theorem State.Executes.idle (h : s.Executes m f x k c sp) (wait : sp.wait = .none) (sorted : Tab.sorted c.splits = true) : Crew.Idle k c := by
  obtain ⟨-, -, split, run, -⟩ := State.issuer_some h.issuer
  refine ⟨run, sorted, fun q hq => ?_⟩
  obtain rfl := Option.some.inj (split.symm.trans hq)
  exact wait

theorem scratchOff_issueOf (hs : Settled c sp) (l : Nat) : scratchOff (issueOf s m f x k c sp) l = offsetFor f c sp true l := by
  simp only [scratchOff, Issue.a32, Issue.b32, issueOf_ca hs, issueOf_cb hs, issueOf_sp hs, issueOf_f, offsetFor, if_true]

/-- `atoms` has no offset field (R243). -/
theorem scratchOff_noOffset (hs : Settled c sp) (l : Nat) :
    scratchOff { issueOf s m f x k c sp with f := { f with b := .none } } l = offsetFor f c sp false l := by
  have a : (issueOf s m f x k c sp).ca = c := issueOf_ca hs
  have w : (issueOf s m f x k c sp).sp = sp := issueOf_sp hs
  simp only [scratchOff, Issue.a32, Issue.b32, a, w, offsetFor, operand32, Bool.false_eq_true, if_false]

theorem evalLane_of_lt {l : Nat} (h : l < 128) : evalLane l = l := if_neg (by omega)

theorem lowest_mem {run : Lanes} {w l : Nat} (h : lowest run w = some l) : l ∈ lanesOf run w :=
  List.mem_filter.2 ⟨List.mem_of_find?_eq_some h, List.find?_some (p := fun l => hasLane run l) h⟩

/-- Results count in the lanes of a crew only. -/
theorem typedDest_congr {d : Crew} {run : Lanes} {t : Ty} {y z : Nat → BitVec t.bits} (h : TypedDest c d sp f run t y) (eq : ∀ l, l < 128 → y l = z l) :
    TypedDest c d sp f run t z := by
  unfold TypedDest DestHolds at h ⊢
  split
  case h_1 hD =>
    simp only [hD] at h
    exact fun l hl => by rw [h l hl, eq l (lanesOf_lt hl).1]
  case h_2 hD =>
    simp only [hD] at h
    exact fun hr l hl => by rw [h hr l hl, eq l (lanesOf_lt (lowest_mem hl)).1]
  case h_3 => trivial

end Issue

/-- The records of accesses that have passed are of the team's scratch. -/
theorem passed_inScratch {team : Nat} {off : Nat → Nat} {ls : List Nat} {n : Nat} {r w : Bool} {op : Option (MemOp × Ty)} :
    ∀ a ∈ (ls.map (passed team off)).map fun q => ({ loc := q.loc, size := n, read := r, write := w, op := op } : Tracked),
      ∃ o, a.loc = .scratch team o := by
  intro a ha
  simp only [List.map_map, List.mem_map, Function.comp_apply] at ha
  obtain ⟨l, -, rfl⟩ := ha
  exact ⟨off l, rfl⟩

/-! ### The bodies -/

/-- Instruction `i` issues with nothing outstanding, beside team `tm`: its split waits for nothing, and no acquire or fence holds its crew back. -/
structure ScratchIssue (s : State) (i : Issue) (tm : Team) : Prop where
  crew    : s.crew? i.x = some i.c
  split   : i.c.split? i.k = some i.sp
  settled : Settled i.c i.sp
  idle    : Crew.Idle i.k i.c
  sorted  : Tab.sorted s.crews = true
  team    : s.team? i.c.team = some tm
  order   : i.c.heldBack s.seq = false

section Bodies

variable {s : State} {i : Issue} {tm : Team} {off : Nat → Nat}

theorem ScratchIssue.start (h : ScratchIssue s i tm) : Scratching s i.x i.k i.c tm (Go.start s).st tm :=
  .start h.crew h.team h.sorted h.idle

/-- `lds` (R239). -/
theorem ScratchIssue.lds (h : ScratchIssue s i tm) (hoff : ∀ l, scratchOff i (evalLane l) = off l) (hm : i.m ≠ .atoms)
    (passes : ∀ l ∈ i.lanes, scratchPasses s i.x i.c tm (off l) i.ty.bytes true false none)
    (ahead : s.windowAhead i.c i.ty.bytes (i.lanes.map fun l => (l, off l)) = false) :
    ∃ d c' sp' tm', ScratchFrame s (ldsBody i (Go.start s)).st i.x i.k i.c c' i.sp sp' tm tm' ∧ tm'.scratch = tm.scratch ∧ Crew.Keeps i.k i.c d ∧
      SameRegs c' (d.putOut (i.putTy i.ty fun l => leNat ((List.range i.ty.bytes).map fun j => Tab.get 0 tm.scratch (off l + j)))) ∧
      ∀ y, y ≠ i.x → (ldsBody i (Go.start s)).st.crew? y = s.crew? y := by
  have at_ : ∀ l, i.scratchAt l = off l := fun l => by rw [Issue.scratchAt, if_neg hm, hoff]
  have reads : ∀ l, scratchVal i (i.scratchAt l) tm = leNat ((List.range i.ty.bytes).map fun j => Tab.get 0 tm.scratch (off l + j)) := fun l => by
    rw [scratchVal, Team.bytesAt_eq, at_]
  obtain ⟨tm', tracked, scratch, crews⟩ := h.start.trackNow i false
    (passed_inScratch (team := i.c.team) (off := off) (ls := i.lanes) (n := i.ty.bytes) (r := true) (w := false) (op := none))
  obtain ⟨d, c', sp', frame, keep, regs, others⟩ := tracked.retire rfl rfl rfl h.split h.settled
    (i.putTy i.ty fun l => scratchVal i (i.scratchAt l) tm) (Issue.putTy_fmt ..) (some tm)
  have body : ldsBody i (Go.start s) = noteTeam (retire (Machine.trackNow (Go.start s) i false ((i.lanes.map (passed i.c.team off)).map fun q =>
      { loc := q.loc, size := i.ty.bytes, read := true, write := false, op := none })) i
      (i.putTy i.ty fun l => scratchVal i (i.scratchAt l) tm)) i (some tm) := by
    have checks := scratchChecks_pass (i := i) (off := off)
      (kd := { size := i.ty.bytes, read := true, write := false, store := false, ord := false, op := none }) h.team hoff passes
    simp only [ldsBody, Go.start_st, checks, List.isEmpty_nil, Bool.not_true, Bool.false_eq_true, if_false,
      scratchWaits_pass h.order ahead, h.team]
  rw [body]
  simp only [reads] at *
  exact ⟨d, c', sp', tm', frame, scratch, keep, regs, fun y hy => by rw [others y hy, State.crew?, crews]; rfl⟩

/-- The completion time of a scratch write (R105, R106). -/
theorem Scratching.pair {s0 : State} {x k : Nat} {c : Crew} {tm' : Team} {g : Go s0} (h : Scratching s x k c tm g.st tm') (crew : s.crew? x = some c)
    (none : Bool) : Scratching s x k c tm (if none then g else scratchPair g x).st tm' := by
  split
  case isTrue => exact h
  case isFalse =>
    refine h.modCrew (fun d hd => by rw [Option.some.inj (hd.symm.trans crew)]) fun _ d keep => keep.trans ?_
    exact ⟨⟨rfl, rfl, rfl, rfl, rfl, rfl⟩, rfl, rfl, rfl, rfl, id⟩

/-- `sts` (R223, R239). -/
theorem ScratchIssue.sts (h : ScratchIssue s i tm) (hoff : ∀ l, scratchOff i (evalLane l) = off l)
    (passes : ∀ l ∈ accLanes i, scratchPasses s i.x i.c tm (off l) i.ty.bytes false true none)
    (ahead : s.windowAhead i.c i.ty.bytes ((accLanes i).map fun l => (l, off l)) = false) :
    ∃ c' sp' tm', ScratchFrame s (stsBody i (Go.start s)).st i.x i.k i.c c' i.sp sp' tm tm' ∧ SameRegs c' i.c ∧
      ∀ a, Tab.get 0 tm'.scratch a =
        lastWritten i.ty.bytes ((accLanes i).map fun l => (off l, storeData i l)) (fun b => Tab.get 0 tm.scratch b) a := by
  have checks := scratchChecks_pass (i := i) (off := off)
    (kd := { size := i.ty.bytes, read := false, write := true, store := true, ord := false, op := none }) h.team hoff passes
  obtain ⟨tm1, tracked, scratch1, -⟩ := h.start.trackNow i false
    (passed_inScratch (team := i.c.team) (off := off) (ls := accLanes i) (n := i.ty.bytes) (r := false) (w := true) (op := none))
  obtain ⟨tm2, stored, scratch2⟩ := tracked.stores (writer s i) i.ty.bytes (fun q => q.ea) (fun q => storeData i q.lane)
    ((accLanes i).map (passed i.c.team off))
  obtain ⟨d, c', sp', frame, keep, regs, -⟩ := (stored.pair h.crew ((accLanes i).map (passed i.c.team off)).isEmpty).retire rfl rfl rfl h.split
    h.settled {} rfl ((Machine.trackNow (Go.start s) i false (((accLanes i).map (passed i.c.team off)).map fun q =>
      { loc := q.loc, size := i.ty.bytes, read := false, write := true, op := none })).st.team? i.c.team)
  refine ⟨c', sp', tm2, ?_, ?_, fun a => ?_⟩
  · simpa only [stsBody, Go.start_st, checks, List.isEmpty_nil, Bool.not_true, Bool.false_eq_true, if_false,
      scratchWaits_pass h.order ahead] using frame
  · rw [Crew.putOut_nothing] at regs
    exact regs.trans keep.regs
  · rw [scratch2, scratch1, List.map_map]
    rfl

/-- `atoms` (R110, R243, R244). -/
theorem ScratchIssue.atoms (h : ScratchIssue s i tm) (hoff : ∀ l, scratchOff { i with f := { i.f with b := .none } } (evalLane l) = off l)
    (passes : ∀ l ∈ accLanes i, scratchPasses s i.x i.c tm (off l) i.ty.bytes (i.f.d.cls != .none) true
      (some (opOfScratch (i.f.ext.toNat % 8), i.ty)))
    (ahead : s.windowAhead i.c i.ty.bytes ((accLanes i).map fun l => (l, off l)) = false) :
    let r := atomsInTurn i.ty (opOfScratch (i.f.ext.toNat % 8)) i.ty.bytes
      ((accLanes i).map fun l => (l, off l, atomData i l, i.dv i.ty true (evalLane l))) fun b => Tab.get 0 tm.scratch b
    ∃ d c' sp' tm', ScratchFrame s (atomsBody i (Go.start s)).st i.x i.k i.c c' i.sp sp' tm tm' ∧ (∀ a, Tab.get 0 tm'.scratch a = r.2 a) ∧
      Crew.Keeps i.k i.c d ∧ SameRegs c' (d.putOut (i.putTy i.ty (oldIn r.1))) := by
  intro r
  have checks := scratchChecks_pass (i := { i with f := { i.f with b := .none } }) (off := off)
    (kd := { size := i.ty.bytes, read := i.f.d.cls != .none, write := true, store := false, ord := false
             op := some (opOfScratch (i.f.ext.toNat % 8), i.ty) }) h.team hoff passes
  obtain ⟨tm1, tracked, scratch1, -⟩ := h.start.trackNow i false (passed_inScratch (team := i.c.team) (off := off) (ls := accLanes i)
    (n := i.ty.bytes) (r := i.f.d.cls != .none) (w := true) (op := some (opOfScratch (i.f.ext.toNat % 8), i.ty)))
  obtain ⟨tm2, stored, scratch2, olds⟩ := tracked.atoms rfl rfl (writer s i) ((accLanes i).map (passed i.c.team off))
  have turns : ((accLanes i).map (passed i.c.team off)).map (fun q => (q.lane, q.ea, atomData i q.lane, i.dv i.ty true (evalLane q.lane))) =
      (accLanes i).map fun l => (l, off l, atomData i l, i.dv i.ty true (evalLane l)) := List.map_map ..
  rw [turns, scratch1] at scratch2 olds
  obtain ⟨d, c', sp', frame, keep, regs, -⟩ := (stored.pair h.crew ((accLanes i).map (passed i.c.team off)).isEmpty).retire rfl rfl rfl h.split
    h.settled (i.putTy i.ty (oldIn r.1)) (Issue.putTy_fmt ..) ((Machine.trackNow (Go.start s) i false
      (((accLanes i).map (passed i.c.team off)).map fun q => { loc := q.loc, size := i.ty.bytes, read := i.f.d.cls != .none, write := true
                                                               op := some (opOfScratch (i.f.ext.toNat % 8), i.ty) })).st.team? i.c.team)
  refine ⟨d, c', sp', tm2, ?_, scratch2, keep, regs⟩
  simpa only [atomsBody, Go.start_st, checks, List.isEmpty_nil, Bool.not_true, Bool.false_eq_true, if_false, olds,
    scratchWaits_pass h.order ahead] using frame

end Bodies

end Sys2Proof.Machine

namespace Sys2Proof

open Machine

section Scratch

variable {m : Mn} {f : Fields} {t : Ty} {s : State} {x k : Nat} {c : Crew} {sp : Split} {tm : Team}

theorem scratchOp_eq (n : Nat) (h : n < 8) : scratchOp n = opOfScratch n := by
  interval_cases n <;> rfl

theorem scratchIssue_issueOf (h : s.Executes m f x k c sp) (hs : Settled c sp) (wait : sp.wait = .none) (crews : Tab.sorted s.crews = true)
    (splits : Tab.sorted c.splits = true) (team : s.team? c.team = some tm) (held : c.heldBack s.seq = false) :
    ScratchIssue s (issueOf s m f x k c sp) tm := by
  obtain ⟨-, crew, split, -⟩ := State.issuer_some h.issuer
  refine ⟨?_, ?_, ?_, ?_, crews, ?_, ?_⟩
  · rw [issueOf_c hs]; exact crew
  · rw [issueOf_c hs, issueOf_sp hs]; exact split
  · rw [issueOf_c hs, issueOf_sp hs]; exact hs
  · rw [issueOf_c hs]; exact h.idle wait splits
  · rw [issueOf_c hs]; exact team
  · rw [issueOf_c hs]; exact held

/-- No type of `lds` is a half type. -/
theorem lds_whole (h : s.Executes .lds f x k c sp) (ht : f.sel = .ty t) : isHalf t = false := by
  have types : ∀ u ∈ Mn.lds.row.types, isHalf u = false := by decide
  exact types t (h.type ht)

/-- Settles O21. Each instruction's path keeps the issuing split idle, so the waits that its writes end are those of other splits, and the retirement
finds its crew with the registers it issued with. -/
theorem scratchAccesses : Obligations.ScratchAccesses := by
  intro f t s x k c sp tm hs rows ht wait crews splits team held
  refine ⟨?_, ?_, ?_⟩
  · intro h passes ahead
    have begins := scratchIssue_issueOf h hs wait crews splits team held
    have lanes : (issueOf s .lds f x k c sp).lanes = lanesOf (runLanes s .lds f x k c sp) c.width := by rw [Issue.lanes, issueOf_c hs]; rfl
    have at_ : ∀ l ∈ lanesOf (runLanes s .lds f x k c sp) c.width, evalLane l = l := fun l hl => evalLane_of_lt (lanesOf_lt hl).1
    obtain ⟨d, c', sp', tm', frame, scratch, keep, regs, others⟩ := begins.lds (off := fun l => offsetFor f c sp true (evalLane l))
      (fun l => scratchOff_issueOf hs _) (by rw [issueOf_m]; decide)
      (by simpa +contextual only [lanes, issueOf_x, issueOf_c hs, issueOf_ty ht, at_] using passes)
      (by rw [issueOf_c hs, issueOf_ty ht, lanes, ← ahead]; congr 1; exact List.map_congr_left fun l hl => by rw [at_ l hl])
    rw [issueOf_ty ht] at regs
    have dest := Issue.putTy_typedDest regs keep.regs.wrows (by rwa [issueOf_c hs]) (by simp [lds_whole h ht])
    simp only [issueOf_c hs, issueOf_sp hs] at frame dest
    exact ⟨_, c', sp', tm', crewStep_executes h _, frame, scratch, others, typedDest_congr dest fun l hl => by rw [evalLane_of_lt hl]⟩
  · intro h ls off passes ahead
    have begins := scratchIssue_issueOf h hs wait crews splits team held
    obtain ⟨c', sp', tm', frame, regs, scratch⟩ := begins.sts (off := off) (fun l => scratchOff_issueOf hs _)
      (by rwa [issueOf_c hs, issueOf_ty ht]) (by rwa [issueOf_c hs, issueOf_ty ht])
    simp only [issueOf_c hs, issueOf_sp hs, issueOf_ty ht, storeData, Issue.dv, issueOf_f] at frame regs scratch
    exact ⟨_, c', sp', tm', crewStep_executes h _, frame, regs.v, regs.s, regs.p, scratch⟩
  · intro h whole ls off op r passes ahead
    have begins := scratchIssue_issueOf h hs wait crews splits team held
    have which : opOfScratch (f.ext.toNat % 8) = op := (scratchOp_eq _ (Nat.mod_lt _ (by decide))).symm
    have reads : (f.d.cls != .none) = decide (f.d.cls ≠ .none) := by simp [bne, beq_eq_decide]
    obtain ⟨d, c', sp', tm', frame, scratch, keep, regs⟩ := begins.atoms (off := off) (fun l => scratchOff_noOffset hs _)
      (by rwa [issueOf_c hs, issueOf_ty ht, issueOf_f, which, reads]) (by rwa [issueOf_c hs, issueOf_ty ht])
    rw [issueOf_ty ht] at regs
    have dest := Issue.putTy_typedDest regs keep.regs.wrows (by rwa [issueOf_c hs]) (by simp [whole])
    simp only [issueOf_c hs, issueOf_cb hs, issueOf_sp hs, issueOf_ty ht, issueOf_f, atomData, Issue.b, Issue.dv, which] at frame scratch dest
    exact ⟨_, c', sp', tm', crewStep_executes h _, frame, scratch, dest⟩

end Scratch

end Sys2Proof
end

section
/-! SUPPORT. A crew whose split table lists one number twice. Its fault's record cannot be written, the ring's interrupt wakes the second entry, which
keeps the wait of a `halt`, and a wake names its split by number: the faulting one goes on past its instruction (R67, R379, R383). -/

namespace Sys2Proof.Machine

open Sys2Proof

/-- The PC of a split after an outcome. -/
def splitPc (o : Host.Outcome State Fault Refusal) (x k : Nat) : Option (BitVec 56) :=
  match o with
  | .next t => ((t.crew? x).bind fun c => c.split? k).map fun sp => sp.pc
  | _ => none

/-- A fault leaves the PC of its split on the instruction (R67). -/
theorem Faults.splitPc {s : State} {o : Host.Outcome State Fault Refusal} {x k : Nat} {c : Crew} {sp : Split} {cause : Nat} {lanes : Lanes}
    (h : Faults s o x k c sp cause lanes) : splitPc o x k = some sp.pc := by
  obtain ⟨t, c', sp', r, rfl, crew, -, -, -, -, -, split, -, -, pc, -⟩ := h
  simp [Machine.splitPc, crew, split, pc]

/-- A split at the first instruction, and the same with the wait of a `halt`. -/
def firstSplit : Split :=
  { st := .ready, pc := 0x10000, mask := laneMask 32, fmt := 0x880, wbase := 0, depth := 0, join := none, clock := 0, mstack := []
    mspill := [], frames := [], wait := .none, run := 0, held := .ready, faulted := false, trapped := false, windows := [], latchA := none
    latchB := none }
def haltedSplit : Split := { firstSplit with wait := .halt }

/-- A crew that lists split 0 twice; its `s8` is 0. -/
def twiceListed : Crew := { newCrew State.reset (placedPend 0) placedKd placedLaunch 0 0 0 0 with splits := [(0, firstSplit), (0, haltedSplit)] }

/-- The turn of its split 0, in a context that is its own handler and has no tables, so that no page holds its fault ring. -/
def State.twice : State :=
  { State.reset with
    crews := [(0, twiceListed)], teams := [(0, placedTeam 0)], cur := .crew 0 0
    ctxs := [(4095, { Ctx.service with state := 1, hen := true, handler := 4095 })] }

/-- An untyped instruction in every active lane with `s8` as its A. -/
def fromS8 : Fields :=
  { sel := .var 0, f := false, guard := { pred := 0, neg := false, uni := false }, d := .none, a := .s 8, b := .none, ext := 0
    hint := { resv := 0, cc := 0, yield := false, keepB := false, keepA := false, la := 0 } }

theorem twice_settled : Settled twiceListed firstSplit := ⟨rfl, rfl, rfl, rfl⟩

theorem twice_executes : ∀ m ∈ [Mn.setfmt, .mget], State.twice.Executes m fromS8 0 0 twiceListed firstSplit := by
  intro m hm
  fin_cases hm <;> exact ⟨by decide +kernel, by decide +kernel, by decide +kernel, by decide +kernel⟩

theorem twice_lanes : ∀ m ∈ [Mn.setfmt, .mget], lowest (runLanes State.twice m fromS8 0 0 twiceListed firstSplit) twiceListed.width ≠ none := by
  decide +kernel

/-- The PC after the refused instruction is 12 bytes on. -/
theorem twice_moves_on : ∀ m ∈ [Mn.setfmt, .mget], splitPc (exec (m.instr fromS8) State.twice) 0 0 = some 0x1000c := by decide +kernel

/-- So its outcome is not the taking of a fault. -/
theorem twice_not_faults {m : Mn} (hm : m ∈ [Mn.setfmt, .mget]) (cause : Nat) (lanes : Lanes) :
    ¬ Faults State.twice (exec (m.instr fromS8) State.twice) 0 0 twiceListed firstSplit cause lanes := by
  intro h
  have stays := h.splitPc
  rw [twice_moves_on m hm] at stays
  exact absurd stays (by decide)

end Sys2Proof.Machine

namespace Sys2Proof

open Machine

/-- Refutes O12: the clause of a refused value asks of no state that its split table lists a number once. -/
theorem not_formatRegisterWrites : ¬ Obligations.FormatRegisterWrites := by
  intro h
  have mem : Mn.setfmt ∈ [Mn.setfmt, .mget] := by decide
  obtain ⟨-, -, refused⟩ := h .setfmt fromS8 _ 0 0 _ _ (.inl rfl) (twice_executes _ mem) twice_settled
  exact twice_not_faults mem _ _ (refused (twice_lanes _ mem) (by decide +kernel))

/-- Refutes O32: the clause of an `mget` with an empty mask asks of no state that its split table lists a number once. -/
theorem not_tileInstructions : ¬ Obligations.TileInstructions := by
  intro h
  have mem : Mn.mget ∈ [Mn.setfmt, .mget] := by decide
  obtain ⟨-, -, -, -, get, -⟩ := h fromS8 State.twice 0 0 twiceListed firstSplit (placedTeam 0) twice_settled (by decide +kernel)
  obtain ⟨refused, -⟩ := get .mget (.inl rfl) (twice_executes _ mem) (twice_lanes _ mem) rfl (by decide +kernel)
  exact twice_not_faults mem _ _ (refused (.inl (by decide +kernel)))

end Sys2Proof
end

section
/-! SUPPORT. Faults of instructions and fetches in a crew whose split table lists one number twice: as in `State.twice`, the interrupt of the record that
no ring entry takes wakes the second entry, and the faulting split goes on (R67, R379, R383). -/

namespace Sys2Proof.Machine

open Sys2Proof

/-- Where a split no longer stands on its instruction no fault was taken in it (R67). -/
theorem not_faults_of_pc {s : State} {o : Host.Outcome State Fault Refusal} {x k : Nat} {c : Crew} {sp : Split} (moved : splitPc o x k ≠ some sp.pc)
    (cause : Nat) (lanes : Lanes) : ¬ Faults s o x k c sp cause lanes := fun h => moved h.splitPc

theorem twice_issuer : State.twice.issuer = some (0, 0, twiceListed, firstSplit) := by decide +kernel

/-- The turn of the twice-listed split with other registers, joins or splits. -/
def State.twiceWith (c : Crew) : State := { State.twice with crews := [(0, c)] }

/-- No operand. -/
def bare : Fields := { fromS8 with a := .none }

/-- A bit of EXT that no untyped instruction without a modifier has. -/
def reservedExt : Fields := { fromS8 with ext := 31 }

/-- A split whose mask stack has room for one more entry, and its crew without a free join record; `p1` holds in lane 0 alone. -/
def deepSplit : Split := { firstSplit with mstack := List.replicate 7 (.path 0x20000 1 0x30000 0x880 0) }
def deepCrew : Crew :=
  { twiceListed with
    splits := [(0, deepSplit), (0, { deepSplit with wait := .halt })], s := [], p := [(1, 1)]
    joins := (List.range 3).map fun j => (j, { mergePc := 0x40000, fmt := 0x880, base := 0, depth := 0, parent := none, sides := 2 }) }

/-- A branch of lane 0 over one instruction. -/
def skipOne : Fields := { bare with guard := { pred := 1, neg := false, uni := false }, a := .i 1 }

/-- A word load from address 1. -/
def oddLoad : Fields := { fromS8 with sel := .ty .b32, d := .v 0 0 false false, b := .i 1 }

/-- A flag at address 1, which `s8` holds. -/
def oddCrew : Crew := { twiceListed with s := [(8, 1)] }
def oddFlag : Fields := { fromS8 with b := .i 0 }

end Sys2Proof.Machine

namespace Sys2Proof

open Machine

/-- Refutes O13: the clause of the decode causes asks of no state that its split table lists a number once. -/
theorem not_decodeCausesAndHazardsFault : ¬ Obligations.DecodeCausesAndHazardsFault := by
  intro h
  obtain ⟨stops, -⟩ := h
  obtain ⟨first, -, -⟩ := stops .setfmt reservedExt _ 0 0 _ _ twice_issuer (by decide +kernel)
  exact not_faults_of_pc (by decide +kernel) _ _ (first 1 (by decide +kernel))

/-- Refutes O16: the clause of a `ret` at depth 0 asks of no state that its split table lists a number once. -/
theorem not_callsAndReturns : ¬ Obligations.CallsAndReturns := by
  intro h
  obtain ⟨-, -, ret⟩ := h bare _ 0 0 _ _ twice_settled
  obtain ⟨-, bottom, -⟩ := ret ⟨twice_issuer, by decide +kernel, by decide +kernel, by decide +kernel⟩
  exact not_faults_of_pc (by decide +kernel) _ _ (bottom (by decide +kernel) (by decide +kernel) rfl)

/-- Refutes O15: the clause of a mask stack that no longer fits its spill area asks of no state that its split table lists a number once. -/
theorem not_branchesFollowTheirPaths : ¬ Obligations.BranchesFollowTheirPaths := by
  intro h
  obtain ⟨bra, -⟩ := h skipOne (.twiceWith deepCrew) 0 0 deepCrew deepSplit
  obtain ⟨-, -, -, spill⟩ := bra ⟨by decide +kernel, by decide +kernel, by decide +kernel, by decide +kernel⟩ (by decide +kernel)
  obtain ⟨full, -⟩ := spill (by decide +kernel) (by decide +kernel) (by decide +kernel) (by decide +kernel) (by decide +kernel) (by decide +kernel)
  exact not_faults_of_pc (by decide +kernel) _ _ (full (by decide +kernel))

/-- Refutes O19: the clause of a lane that fails its checks asks of no state that its split table lists a number once. -/
theorem not_memoryOperationsEnterQueues : ¬ Obligations.MemoryOperationsEnterQueues := by
  intro h
  obtain ⟨-, checks⟩ := h .ld oddLoad .b32 State.twice 0 0 twiceListed firstSplit (by decide)
    ⟨twice_issuer, by decide +kernel, by decide +kernel, by decide +kernel⟩ twice_settled rfl (by decide +kernel) (by decide)
  obtain ⟨-, -, refused⟩ := checks _ _ _ ⟨_, rfl, rfl⟩
  exact not_faults_of_pc (by decide +kernel) _ _ (refused (by decide +kernel) (by decide +kernel))

/-- Refutes O27: the clause of a `flagsig` that fails its checks asks of no state that its split table lists a number once. -/
theorem not_flagsAndCountedWaits : ¬ Obligations.FlagsAndCountedWaits := by
  intro h
  obtain ⟨flagsig, -⟩ := h oddFlag (.twiceWith oddCrew) 0 0 oddCrew firstSplit (placedTeam 0) (by decide +kernel)
  obtain ⟨-, refused⟩ := flagsig ⟨by decide +kernel, by decide +kernel, by decide +kernel, by decide +kernel⟩ ⟨rfl, rfl, rfl, rfl⟩ (by decide +kernel)
  exact not_faults_of_pc (by decide +kernel) _ _ (refused _ _ _ rfl (by decide +kernel) (by decide +kernel))

end Sys2Proof
end

section
/-! SUPPORT. The same in a context with tables, whose fault ring lies where they map nothing: a `spawn` and a fetch (R134, R230, R379, R383). -/

namespace Sys2Proof.Machine

open Sys2Proof

/-- The twice-listed split in a context whose tables map the first gigabyte, and the fault ring beyond it. Memory holds the tables alone. -/
def State.twiceMapped (c : Crew) : State :=
  { State.twice with
    mem := placedMem [] [], now := 1, crews := [(0, c)], agenda := [.issue 0 0], powered := true
    ctxs := [(4095, { placedCtx Ctx.service with hen := true, handler := 4095, frBase := 2 ^ 40 })] }

theorem twiceMapped_units (c : Crew) (us : List Nat) : (State.twiceMapped c).UnitsAgree us 4095 :=
  ⟨fun _ _ _ he => absurd he List.not_mem_nil, fun _ hw => absurd hw List.not_mem_nil⟩

/-- A spawn record of zeros at 0x20000, whose address is in `s8`. -/
def spawner : Crew := { twiceListed with s := [(8, 0x20000)] }
def spawnFields : Fields := { fromS8 with d := .s 9 }

theorem spawner_record : (State.twiceMapped spawner).HomeAccess 0 spawner (spawnKind 32) (operand64 spawner (.s 8)) 0x20000 :=
  ⟨⟨by decide +kernel, by decide +kernel, 0x83, 2 ^ 30, by decide +kernel, by decide +kernel, by decide +kernel, by decide +kernel, by decide +kernel⟩,
    by decide +kernel, by decide +kernel⟩

end Sys2Proof.Machine

namespace Sys2Proof

open Machine

/-- Refutes O40: the clause of a `spawn` of an unknown kernel asks of no state that its split table lists a number once. -/
theorem not_spawnsAndLaunchesCount : ¬ Obligations.SpawnsAndLaunchesCount := by
  intro h
  obtain ⟨spawn, -⟩ := h (.twiceMapped spawner)
  obtain ⟨unknown, -⟩ := spawn spawnFields 0 0 spawner firstSplit (placedTeam 0) 0x20000 ⟨rfl, rfl, rfl, rfl⟩
    ⟨by decide +kernel, by decide +kernel, by decide +kernel, by decide +kernel⟩ (by decide +kernel) (by decide +kernel)
    (.inr ⟨by decide +kernel, fun _ => ⟨by decide +kernel, by decide +kernel, by decide +kernel, by decide +kernel⟩⟩)
    (twiceMapped_units _ _) spawner_record (by decide) (by decide +kernel) (by decide +kernel)
  exact not_faults_of_pc (by decide +kernel) _ _ (unknown (by decide +kernel))

/-- Refutes O58: the clause of bytes that are no instruction asks of no state that its split table lists a number once. -/
theorem not_stepRunsTheDecodedInstruction : ¬ Obligations.StepRunsTheDecodedInstruction := by
  intro h
  obtain ⟨-, -, -, -, -, -, runs⟩ := h (.twiceMapped twiceListed)
  obtain ⟨-, -, -, issue⟩ := runs rfl rfl
  obtain ⟨-, fetched⟩ := issue 0 0 [] twiceListed firstSplit rfl (by decide +kernel)
  obtain ⟨-, -, undecoded, -⟩ := fetched (by decide +kernel)
  exact not_faults_of_pc (by decide +kernel) _ _ (undecoded (List.replicate 12 0) .unassignedOpcode (by decide +kernel) (by rfl) (by decide +kernel))

end Sys2Proof
end

section
/-! SUPPORT. Retirement beside open windows: of the rest of the state it changes scratch and tiles of the crew's own team only (R153). -/

namespace Sys2Proof.Machine

open Sys2Proof

variable {s0 : State}

/-- From `s` to `t` no team but `team` has changed, and of that one scratch and tiles only. -/
structure OnlyTeamMem (team : Nat) (s t : State) : Prop where
  others : ∀ n, n ≠ team → t.team? n = s.team? n
  mem    : ∀ tm, s.team? team = some tm → ∃ v, t.team? team = some v ∧ v = { tm with scratch := v.scratch, tiles := v.tiles }

theorem OnlyTeamMem.refl (team : Nat) (s : State) : OnlyTeamMem team s s := ⟨fun _ _ => rfl, fun tm h => ⟨tm, h, rfl⟩⟩

theorem OnlyTeamMem.trans {team : Nat} {s t u : State} (h : OnlyTeamMem team s t) (h' : OnlyTeamMem team t u) : OnlyTeamMem team s u := by
  refine ⟨fun n hn => (h'.others n hn).trans (h.others n hn), fun tm htm => ?_⟩
  obtain ⟨v, hv, same⟩ := h.mem tm htm
  obtain ⟨w, hw, same'⟩ := h'.mem v hv
  exact ⟨w, hw, by rw [same', same]⟩

theorem restoreTeamMem_only (g : Go s0) (i : Issue) (c : Crew) (w w' : LongWindow) :
    OnlyTeamMem i.c.team g.st (restoreTeamMem g i c w w').st := by
  unfold restoreTeamMem
  split
  case isTrue => exact .refl ..
  case isFalse =>
    cases team : g.st.team? i.c.team with
    | none => simpa only [modTeam, team] using .refl ..
    | some tm =>
      rw [modTeam_some g _ team, Go.put_st]
      refine ⟨fun n hn => State.team?_put_other _ _ hn, fun tm' htm' => ?_⟩
      obtain rfl := Option.some.inj (team.symm.trans htm')
      exact ⟨_, State.team?_put_same .., rfl⟩

theorem restoreAll_only (g : Go s0) (i : Issue) (o : RegOut) : OnlyTeamMem i.c.team g.st (restoreAll g i o).st := by
  unfold restoreAll
  split
  case isFalse => exact .refl ..
  case isTrue =>
    split
    case h_2 => exact .refl ..
    case h_1 c _ =>
      exact Go.each_keeps (P := OnlyTeamMem i.c.team g.st) (fun _ _ g' h => h.trans (restoreTeamMem_only g' i c _ _)) g (.refl ..)

theorem modCrew_cycle_teams (g : Go s0) (F : Crew → Crew) (x y n : Nat) : ((modCrew g x F).put (.cycle y n)).st.teams = g.st.teams := by
  unfold modCrew
  split <;> rfl

theorem retireAt_only (g : Go s0) (i : Issue) (o : RegOut) (pc : BitVec 56) : OnlyTeamMem i.c.team g.st (retireAt g i o pc).st := by
  have counted : ∀ n, (countWork g i.c.team i.work.1 i.work.2).st.team? n = g.st.team? n := fun n => by rw [countWork_same]; rfl
  have restored := restoreAll_only (countWork g i.c.team i.work.1 i.work.2) i o
  have teams : ∀ n, (retireAt g i o pc).st.team? n = (restoreAll (countWork g i.c.team i.work.1 i.work.2) i o).st.team? n := fun n => by
    unfold State.team? retireAt
    rw [modCrew_cycle_teams]
  exact ⟨fun n hn => by rw [teams, restored.others n hn, counted], fun tm htm => by rw [teams]; exact restored.mem tm ((counted _).trans htm)⟩

section Issuing

variable {s : State} {m : Mn} {f : Fields} {x k : Nat} {c : Crew} {sp : Split}

theorem crewView_frame (s : State) (c : Crew) (ws : List LongWindow) : crewView s c ws = c.withRegs (crewView s c ws) := by
  unfold crewView
  rw [mixCells_frame, mixCells_frame]
  rfl

theorem issueOf_team : (issueOf s m f x k c sp).c.team = c.team := by
  unfold issueOf
  dsimp only
  rw [crewView_frame]
  rfl

theorem issueOf_width : (issueOf s m f x k c sp).c.width = c.width := by
  unfold issueOf
  dsimp only
  rw [crewView_frame]
  rfl

theorem issueOf_windows : ∀ w ∈ (issueOf s m f x k c sp).sp.windows, w ∈ sp.windows := by
  intro w hw
  simp only [issueOf] at hw
  split at hw
  · cases hw
  · exact hw

/-- A register-only instruction retires, whatever is outstanding; where nothing is, the registers hold its results. -/
theorem regStep_reaches {out : Issue → RegOut} (h : s.Executes m f x k c sp) (he : exec (m.instr f) s = regStep m f s out) :
    ∃ t c' sp', exec (m.instr f) s = .next t ∧ OnlyCrewAndScratch s t x c.team ∧ t.crew? x = some c' ∧ RetiredAt c c' k sp sp' (sp.pc + 12) ∧
      sp'.fmt = (out (issueOf s m f x k c sp)).fmt.getD sp.fmt ∧ ((∀ w ∈ sp.windows, writesTeam w.m = false) → OnlyCrew s t x) ∧
      (Settled c sp → SameRegs c' (c.putOut (out (issueOf s m f x k c sp)))) := by
  obtain ⟨-, crew, split, -⟩ := State.issuer_some h.issuer
  let i := issueOf s m f x k c sp
  obtain ⟨w, ts, n, reached, quiet⟩ := retireAt_st (Go.start s) i (out i) (sp.pc + 12) crew
  obtain ⟨sp', retired, fmt⟩ := i.retired_at { s with coloc := w, teams := ts } (out i) (sp.pc + 12) n split issueOf_windows
  have only := retireAt_only (Go.start s) i (out i) (sp.pc + 12)
  rw [reached, show i.c.team = c.team from issueOf_team] at only
  refine ⟨_, _, sp', he.trans ((crewStep_executes h _).trans (congrArg _ reached)), ⟨rfl, ?_, only.others, ?_⟩, Tab.find_put_same .., retired,
    fmt, fun windows => ?_, fun hs => ?_⟩
  · exact fun y hy => Tab.find_put_other _ _ hy
  · obtain ⟨tm, team⟩ := h.team
    obtain ⟨v, hv, same⟩ := only.mem tm team
    rw [hv, team, Option.map_some]
    exact congrArg some same
  · obtain rfl := quiet fun v hv => windows v (issueOf_windows v hv)
    exact .of_retire w n (x / 8) x _
  · exact i.retired_regs _ _ _ _ _ (by rw [show i.sp = sp from issueOf_sp hs, hs.windows]) hs.loads

end Issuing

end Sys2Proof.Machine
end

section
/-! SUPPORT. O1: what a register-only instruction writes lies in its destination field, in the lanes that take effect (R33, R41, R171). -/

namespace Sys2Proof.Machine

open Sys2Proof

/-! ### Results that lie in named registers -/

/-- Results only for registers of which a list holds the keys, in the lanes of a set, and none for the format register. -/
structure RegOut.Within (o : RegOut) (keys : List Nat) (run : Lanes) : Prop where
  rows  : ∀ e ∈ o.v, e.1 ∈ keys ∧ e.2.1 < 128 ∧ hasLane run e.2.1 = true
  unis  : ∀ e ∈ o.s, e.1 < 1024 ∧ keyS e.1 ∈ keys ∧ run ≠ 0
  preds : ∀ e ∈ o.p, e.1 < 2048 ∧ (e.1 ≠ 0 → keyP e.1 ∈ keys) ∧ e.2.1 = run
  lays  : ∀ e ∈ o.lay, keyL e.1 ∈ keys ∧ run ≠ 0
  fmt   : o.fmt = none

theorem RegOut.within_nothing (keys : List Nat) (run : Lanes) : RegOut.Within {} keys run := by
  constructor <;> simp

/-- Is a cell one of the registers of which a list holds the keys, in a lane of a set? -/
def namesCell (keys : List Nat) (run : Lanes) (n : Nat) : Bool :=
  keys.contains (n / 128) && if 1024 ≤ n / 128 && n / 128 < 2048 || 4096 ≤ n / 128 then run != 0 else hasLane run (n % 128)

theorem Crew.hasLane_putPreds (c : Crew) {xs : List (Nat × Lanes × Lanes)} {run : Lanes} {n l : Nat} (h : ∀ e ∈ xs, e.1 = n → e.2.1 = run)
    (hl : n ≠ 0 → hasLane run l = true → ∀ e ∈ xs, e.1 ≠ n) : hasLane ((c.putPreds xs).predSet n) l = hasLane (c.predSet n) l := by
  induction xs generalizing c with
  | nil => rfl
  | cons e xs ih =>
    obtain ⟨j, m, v⟩ := e
    unfold Crew.putPreds
    rw [ih _ (fun e he => h e (List.mem_cons_of_mem _ he)) fun h0 hr e he => hl h0 hr e (List.mem_cons_of_mem _ he)]
    by_cases same : j = n
    case neg => rw [Crew.predSet_setPred_other _ _ _ (Ne.symm same)]
    case pos =>
      subst same
      by_cases zero : j = 0
      case pos => subst zero; rfl
      case neg =>
        obtain rfl : m = run := h _ List.mem_cons_self rfl
        have lane : m.getLsbD l = false := Bool.eq_false_iff.2 fun hr => hl zero hr _ List.mem_cons_self rfl
        rw [Crew.predSet_setPred_same _ _ _ zero]
        unfold hasLane
        by_cases small : l < 128
        case pos => simp only [BitVec.getLsbD_or, BitVec.getLsbD_and, BitVec.getLsbD_not, lane, small]; simp
        case neg => rw [BitVec.getLsbD_of_ge _ l (not_lt.1 small), BitVec.getLsbD_of_ge _ l (not_lt.1 small)]

theorem Crew.layReg_putLays_other (c : Crew) (xs : List (Nat × LayRec)) (n : Nat) (h : ∀ e ∈ xs, e.1 ≠ n) : (c.putLays xs).layReg n = c.layReg n := by
  induction xs generalizing c with
  | nil => rfl
  | cons e xs ih =>
    obtain ⟨m, x⟩ := e
    unfold Crew.putLays
    rw [ih _ fun e he => h e (List.mem_cons_of_mem _ he)]
    exact Tab.get_set_other _ _ _ (h _ List.mem_cons_self).symm

theorem Crew.layReg_putOut_other (c : Crew) (o : RegOut) (n : Nat) (h : ∀ e ∈ o.lay, e.1 ≠ n) : (c.putOut o).layReg n = c.layReg n := by
  unfold Crew.putOut
  rw [Crew.layReg_putLays_other _ _ _ h, Crew.putPreds_frame, Crew.putUnis_frame, Crew.putRows_frame]
  rfl

/-- A cell that the results do not name keeps its value. -/
theorem Crew.cell_putOut_other (c : Crew) {o : RegOut} {keys : List Nat} {run : Lanes} (h : o.Within keys run) {n : Nat}
    (hn : namesCell keys run n = false) : (c.putOut o).cell n = c.cell n := by
  have at_ : n / 128 * 128 + n % 128 = n := by omega
  have lane : n % 128 < 128 := Nat.mod_lt _ (by decide)
  simp only [namesCell, Bool.and_eq_false_imp, List.contains_iff_mem] at hn
  unfold Crew.cell
  dsimp only
  by_cases row : n / 128 < 1024
  case pos =>
    rw [if_pos row, if_pos row, Crew.row_putOut, Crew.row_putRows_other]
    intro e he same
    obtain ⟨key, small, runs⟩ := h.rows e he
    have rowEq : e.1 = n / 128 := by omega
    have laneEq : e.2.1 = n % 128 := by omega
    have := hn (rowEq ▸ key)
    rw [if_neg (by simp; omega), ← laneEq, runs] at this
    cases this
  case neg =>
    rw [if_neg row, if_neg row]
    by_cases uni : n / 128 < 2048
    case pos =>
      rw [if_pos uni, if_pos uni, Crew.uni_putOut, Crew.uni_putUnis_other]
      intro e he same
      obtain ⟨-, key, runs⟩ := h.unis e he
      rw [same, keyS, show 1024 + (n / 128 - 1024) = n / 128 by omega] at key
      have := hn key
      rw [if_pos (by simp; omega)] at this
      exact runs (by simpa using this)
    case neg =>
      rw [if_neg uni, if_neg uni]
      by_cases pred : n / 128 < 4096
      case pos =>
        rw [if_pos pred, if_pos pred]
        unfold Crew.pred
        rw [Crew.predSet_putOut, Crew.hasLane_putPreds (run := run)]
        · exact fun e he _ => (h.preds e he).2.2
        · intro nonzero runs e he same
          have key := (h.preds e he).2.1 (same ▸ nonzero)
          rw [same, keyP, show 2048 + (n / 128 - 2048) = n / 128 by omega] at key
          have := hn key
          rw [if_neg (by simp; omega), runs] at this
          cases this
      case neg =>
        rw [if_neg pred, if_neg pred, Crew.layReg_putOut_other]
        intro e he same
        obtain ⟨key, runs⟩ := h.lays e he
        rw [same, keyL, show 4096 + (n / 128 - 4096) = n / 128 by omega] at key
        have := hn key
        rw [if_pos (by simp; omega)] at this
        exact runs (by simpa using this)

/-! ### Writing D -/

/-- The keys of the registers that the instruction writes, and how many rows a class-v D has. -/
def Issue.outKeys (i : Issue) : List Nat := writeKeys i.c i.sp i.m i.f
def Issue.outRows (i : Issue) : Nat := (operandRows i.m i.f i.c.width).1

section Dest

variable {i : Issue}

theorem Issue.mem_outKeys (dest : dIsDest i.m = true) {n : Nat} (h : n ∈ destKeys i.c i.sp i.m i.f) : n ∈ i.outKeys := by
  simp [Issue.outKeys, writeKeys, dest, h]

theorem destKeys_eq {c : Crew} {sp : Split} {m : Mn} {f : Fields} (h : m = .movw → f.d.cls ≠ .v) :
    destKeys c sp m f = operandKeys sp.wbase c.wrows (operandRows m f c.width).1 (uniDest m f c.width) f.d := by
  unfold destKeys
  split
  case h_1 hd => exact absurd (by rw [hd]; rfl) (h rfl)
  case h_2 => rfl

theorem uniDest_pos (m : Mn) (f : Fields) (w : Nat) : 0 < uniDest m f w := by
  unfold uniDest
  split <;> decide

/-- A class-s D is a key. -/
theorem Issue.uni_mem_outKeys (dest : dIsDest i.m = true) {r : BitVec 6} (hD : i.f.d = .s r) {j : Nat} (hj : j < uniDest i.m i.f i.c.width) :
    keyS (r.toNat + j) ∈ i.outKeys := by
  refine Issue.mem_outKeys dest ?_
  rw [destKeys_eq (by simp [hD, Operand.cls]), hD]
  exact List.mem_map.2 ⟨j, List.mem_range.2 hj, rfl⟩

/-- `putD` writes D only. -/
theorem Issue.putD_within (dest : dIsDest i.m = true) (whole : i.m = .movw → i.f.d.cls ≠ .v) {n : Nat} (hn : i.f.d.cls = .v → n ≤ i.outRows)
    (x : Nat → Nat) : (i.putD n x).Within i.outKeys i.run := by
  unfold Issue.putD
  split
  case h_1 idx swz abs neg hD =>
    have rows := hn (by rw [hD]; rfl)
    refine ⟨fun e he => ?_, by simp, by simp, by simp, rfl⟩
    simp only [List.mem_flatten, List.mem_map, rowsOut] at he
    obtain ⟨_, ⟨l, hl, rfl⟩, he⟩ := he
    obtain ⟨j, hj, rfl⟩ := List.mem_map.1 he
    obtain ⟨small, runs, -⟩ := lanesOf_lt hl
    refine ⟨Issue.mem_outKeys dest ?_, small, runs⟩
    rw [destKeys_eq whole, hD]
    exact List.mem_map.2 ⟨j, List.mem_range.2 (lt_of_lt_of_le (List.mem_range.1 hj) rows), rfl⟩
  case h_2 r hD =>
    split
    case isTrue => exact RegOut.within_nothing ..
    case isFalse runs =>
      refine ⟨by simp, fun e he => ?_, by simp, by simp, rfl⟩
      obtain rfl := List.mem_singleton.1 he
      exact ⟨by have := r.isLt; omega, by simpa using Issue.uni_mem_outKeys dest hD (uniDest_pos ..), runs⟩
  case h_3 => exact RegOut.within_nothing ..

theorem Issue.putTy_within (dest : dIsDest i.m = true) (whole : i.m = .movw → i.f.d.cls ≠ .v) {t : Ty} (hn : i.f.d.cls = .v → t.rows ≤ i.outRows)
    (x : Nat → Nat) : (i.putTy t x).Within i.outKeys i.run := by
  unfold Issue.putTy
  dsimp only
  split
  case h_1 hD => exact Issue.putD_within dest whole (by simp [hD, Operand.cls]) _
  case h_2 => exact Issue.putD_within dest whole hn _

theorem Issue.putP_within (dest : dIsDest i.m = true) (x : Nat → Bool) : (i.putP x).Within i.outKeys i.run := by
  unfold Issue.putP
  split
  case h_2 => exact RegOut.within_nothing ..
  case h_1 n neg hD =>
    refine ⟨by simp, by simp, fun e he => ?_, by simp, rfl⟩
    obtain rfl := List.mem_singleton.1 he
    refine ⟨by have := n.isLt; omega, fun nonzero => Issue.mem_outKeys dest ?_, rfl⟩
    rw [destKeys_eq (by simp [hD, Operand.cls]), hD]
    have : n ≠ 0 := fun zero => nonzero (by rw [zero]; rfl)
    simpa [operandKeys] using this

theorem Issue.putBit_within (dest : dIsDest i.m = true) (other : i.m ≠ .movw) (hn : i.f.d.cls = .v → 1 ≤ i.outRows) (b : Bool) :
    (i.putBit b).Within i.outKeys i.run := by
  unfold Issue.putBit
  split
  case h_1 => exact Issue.putP_within dest _
  case h_2 => exact Issue.putD_within dest (fun h => absurd h other) hn _

theorem Issue.putMask_within (dest : dIsDest i.m = true) (other : i.m ≠ .movw) (hn : i.f.d.cls = .v → i.c.width / 32 ≤ i.outRows)
    (two : i.f.d.cls = .s → i.c.width = 128 → uniDest i.m i.f i.c.width = 2) (x : Nat → Lanes) : (i.putMask x).Within i.outKeys i.run := by
  unfold Issue.putMask
  split
  case h_2 => exact Issue.putD_within dest (fun h => absurd h other) hn _
  case h_1 r hD =>
    split
    case isTrue => exact RegOut.within_nothing ..
    case isFalse runs =>
      have small := r.isLt
      refine ⟨by simp, fun e he => ?_, by simp, by simp, rfl⟩
      rcases List.mem_cons.1 he with rfl | he
      · exact ⟨by dsimp only; omega, by simpa using Issue.uni_mem_outKeys dest hD (uniDest_pos ..), runs⟩
      · split at he
        case isFalse => cases he
        case isTrue wide =>
          obtain rfl := List.mem_singleton.1 he
          exact ⟨by dsimp only; omega, Issue.uni_mem_outKeys dest hD (by rw [two (by rw [hD]; rfl) wide]; decide), runs⟩

end Dest

end Sys2Proof.Machine
end

section
/-! SUPPORT. O1: the 72 instructions that only read and write registers (R171). -/

namespace Sys2Proof.Machine

open Sys2Proof

/-- The instruction only retires, with results that lie in its destination field. -/
def WritesDest (m : Mn) : Prop :=
  ∃ out : State → Issue → RegOut, (∀ f s, exec (m.instr f) s = regStep m f s (out s)) ∧
    ∀ s i, i.m = m → encodingOk m i.f = true → operandOk m i.f i.c.width = true → (out s i).Within i.outKeys i.run

/-- The rows of a value of the instruction's type; one where it has none. -/
def selRows (sel : Sel) : Nat :=
  match Sel.ty? sel with
  | some t => t.rows
  | none => 1

theorem rows_pos (t : Ty) : 1 ≤ t.rows := by cases t <;> decide

theorem selRows_pos (sel : Sel) : 1 ≤ selRows sel := by
  unfold selRows
  split
  · exact rows_pos _
  · exact le_refl 1

theorem encodingOk_sel {m : Mn} {f : Fields} (h : encodingOk m f = true) : selOk m.row f.sel = true := by
  simp only [encodingOk, Bool.and_eq_true] at h
  tauto

theorem operandOk_special {m : Mn} {f : Fields} {w : Nat} (h : operandOk m f w = true) : specialOperandOk m f w = true := by
  simp only [operandOk, Bool.and_eq_true] at h
  tauto

theorem operandOk_selector {m : Mn} {f : Fields} {w : Nat} (h : operandOk m f w = true) : selectorOk m f.d = true := by
  simp only [operandOk, Bool.and_eq_true] at h
  tauto

theorem operandOk_dClass {m : Mn} {f : Fields} {w : Nat} (h : operandOk m f w = true) : f.d.cls ∈ m.row.d := by
  simp only [operandOk, Bool.and_eq_true, List.contains_iff_mem] at h
  tauto

/-- A typed instruction has a type, and its values have the type's rows. -/
theorem Issue.ty_rows {i : Issue} {m : Mn} (typed : m.row.types.isEmpty = false) (h : encodingOk m i.f = true) : i.ty.rows = selRows i.f.sel := by
  have sel := encodingOk_sel h
  cases type : i.f.sel with
  | ty t => simp only [Issue.ty, selRows, type, Sel.ty?]
  | var n => simp [type, selOk, typed] at sel

section Shapes

variable {m : Mn}

/-- Values of fixed or typed size in D. -/
theorem writesDest_putD {n : State → Issue → Nat} {x : State → Issue → Nat → Nat}
    (exec_eq : ∀ f s, exec (m.instr f) s = regStep m f s fun i => i.putD (n s i) (x s i)) (dest : dIsDest m = true) (other : m ≠ .movw)
    (rows : ∀ s (i : Issue), i.m = m → encodingOk m i.f = true → n s i ≤ i.outRows) : WritesDest m :=
  ⟨_, exec_eq, fun s i hm enc _ => Issue.putD_within (hm ▸ dest) (fun h => absurd (hm.symm.trans h) other) (fun _ => rows s i hm enc) _⟩

/-- One row in D. -/
theorem writesDest_one {x : State → Issue → Nat → Nat} (exec_eq : ∀ f s, exec (m.instr f) s = regStep m f s fun i => i.putD 1 (x s i))
    (dest : dIsDest m = true) (other : m ≠ .movw) (rows : ∀ f w, 1 ≤ (operandRows m f w).1) : WritesDest m :=
  writesDest_putD exec_eq dest other fun _ i hm _ => by subst hm; exact rows i.f i.c.width

/-- A value of the instruction's type in D, whole rows of it. -/
theorem writesDest_float {x : State → Issue → Nat → Nat} (exec_eq : ∀ f s, exec (m.instr f) s = regStep m f s fun i => i.putD i.ty.rows (x s i))
    (dest : dIsDest m = true) (other : m ≠ .movw) (typed : m.row.types.isEmpty = false) (rows : ∀ f w, (operandRows m f w).1 = selRows f.sel) :
    WritesDest m :=
  writesDest_putD exec_eq dest other fun _ i hm enc => by rw [Issue.outRows, hm, rows, Issue.ty_rows typed enc]

/-- A value of the instruction's type in D. -/
theorem writesDest_putTy {x : State → Issue → Nat → Nat} (exec_eq : ∀ f s, exec (m.instr f) s = regStep m f s fun i => i.putTy i.ty (x s i))
    (dest : dIsDest m = true) (other : m ≠ .movw) (typed : m.row.types.isEmpty = false) (rows : ∀ f w, (operandRows m f w).1 = selRows f.sel) :
    WritesDest m :=
  ⟨_, exec_eq, fun s i hm enc _ => Issue.putTy_within (hm ▸ dest) (fun h => absurd (hm.symm.trans h) other)
    (fun _ => by rw [Issue.outRows, hm, rows, Issue.ty_rows typed enc]) _⟩

/-- A condition in a predicate. -/
theorem writesDest_putP {x : State → Issue → Nat → Bool} (exec_eq : ∀ f s, exec (m.instr f) s = regStep m f s fun i => i.putP (x s i))
    (dest : dIsDest m = true) : WritesDest m :=
  ⟨_, exec_eq, fun _ _ hm _ _ => Issue.putP_within (hm ▸ dest) _⟩

end Shapes

/-! ### The instructions by what they write -/

/-- A value of the type. -/
def valueMns : List Mn :=
  [.iadd, .isub, .imul, .imulhi, .imad, .imin, .imax, .iabs, .ineg, .and, .or, .xor, .not, .shl, .shr, .sar, .rot, .brev, .bfx, .bfi, .lea, .sel
  , .cvt, .shfl, .bcast, .mov]
/-- A floating-point value. -/
def floatMns : List Mn :=
  [.fadd, .fsub, .fmul, .fma, .fmin, .fmax, .fdiv, .fsqrt, .frcp, .frsq, .fexp2, .flog2, .fsin, .fcos, .frnd, .fclass, .dadd, .dsub, .dmul, .dfma
  , .dmin, .dmax, .ddiv, .dsqrt]
/-- A predicate. -/
def conditionMns : List Mn := [.icmp, .pand, .por, .pxor, .pnot, .pmov, .fcmp, .dcmp]
/-- A row of 32 bits. -/
def rowMns : List Mn := [.popc, .clz, .pack2, .bfunpack, .getfmt]

theorem valueMns_writeDest : ∀ m ∈ valueMns, WritesDest m := by
  intro m hm
  simp only [valueMns, List.mem_cons, List.not_mem_nil, or_false] at hm
  rcases hm with rfl | rfl | rfl | rfl | rfl | rfl | rfl | rfl | rfl | rfl | rfl | rfl | rfl | rfl | rfl | rfl | rfl | rfl | rfl | rfl | rfl | rfl |
    rfl | rfl | rfl | rfl
  all_goals exact writesDest_putTy (fun _ _ => rfl) rfl (by decide) rfl fun _ _ => rfl

theorem floatMns_writeDest : ∀ m ∈ floatMns, WritesDest m := by
  intro m hm
  simp only [floatMns, List.mem_cons, List.not_mem_nil, or_false] at hm
  rcases hm with rfl | rfl | rfl | rfl | rfl | rfl | rfl | rfl | rfl | rfl | rfl | rfl | rfl | rfl | rfl | rfl | rfl | rfl | rfl | rfl | rfl | rfl |
    rfl | rfl
  all_goals exact writesDest_float (fun _ _ => rfl) rfl (by decide) rfl fun _ _ => rfl

theorem conditionMns_writeDest : ∀ m ∈ conditionMns, WritesDest m := by
  intro m hm
  simp only [conditionMns, List.mem_cons, List.not_mem_nil, or_false] at hm
  rcases hm with rfl | rfl | rfl | rfl | rfl | rfl | rfl | rfl
  all_goals exact writesDest_putP (fun _ _ => rfl) rfl

theorem rowMns_writeDest : ∀ m ∈ rowMns, WritesDest m := by
  intro m hm
  simp only [rowMns, List.mem_cons, List.not_mem_nil, or_false] at hm
  rcases hm with rfl | rfl | rfl | rfl | rfl
  case inr.inr.inr.inl => exact writesDest_one (fun _ _ => rfl) rfl (by decide) fun f _ => selRows_pos f.sel
  case inr.inr.inr.inr => exact writesDest_one (fun _ _ => rfl) rfl (by decide) fun f _ => selRows_pos f.sel
  all_goals exact writesDest_one (fun _ _ => rfl) rfl (by decide) fun _ _ => le_refl 1

theorem unpack2_writesDest : WritesDest .unpack2 :=
  writesDest_putD (n := fun _ _ => 2) (fun _ _ => rfl) rfl (by decide) fun _ i hm _ => by rw [Issue.outRows, hm]; exact le_refl 2

theorem nop_writesDest : WritesDest .nop :=
  ⟨fun _ _ => {}, fun _ _ => rfl, fun _ i _ _ _ => RegOut.within_nothing i.outKeys i.run⟩

theorem bfexp_writesDest : WritesDest .bfexp := by
  refine ⟨fun _ => bfexpOut, fun _ _ => rfl, fun _ i hm _ _ => ?_⟩
  have rows : 1 ≤ i.outRows := by rw [Issue.outRows, hm]; exact selRows_pos i.f.sel
  unfold bfexpOut
  dsimp only
  split
  · exact Issue.putD_within (by rw [hm]; rfl) (by simp [hm]) (fun _ => rows) _
  · exact Issue.putD_within (by rw [hm]; rfl) (by simp [hm]) (fun _ => rows) _

/-- `bfpack` writes B too (R198). -/
theorem bfpack_writesDest : WritesDest .bfpack := by
  refine ⟨fun _ => bfpackOut, fun _ _ => rfl, fun _ i hm _ _ => ?_⟩
  have rows : 1 ≤ i.outRows := by rw [Issue.outRows, hm]; exact selRows_pos i.f.sel
  have within := fun x => Issue.putD_within (i := i) (n := 1) (by rw [hm]; rfl) (by simp [hm]) (fun _ => rows) x
  unfold bfpackOut
  dsimp only
  split
  case h_2 => exact within _
  case h_1 r hB =>
    split
    case isTrue => exact within _
    case isFalse runs =>
      obtain ⟨v, -, p, lay, fmt⟩ := within _
      refine ⟨v, fun e he => ?_, p, lay, fmt⟩
      obtain rfl := List.mem_singleton.1 he
      refine ⟨by have := r.isLt; dsimp only; omega, ?_, runs⟩
      simp [Issue.outKeys, writeKeys, hm, hB, operandKeys]

theorem vote_writesDest : WritesDest .vote := by
  refine ⟨fun _ => voteOut, fun _ _ => rfl, fun _ i hm enc ops => ?_⟩
  have dest : dIsDest i.m = true := by rw [hm]; rfl
  have other : i.m ≠ .movw := by simp [hm]
  have rows : i.outRows = if Sel.varNo i.f.sel = 3 then i.c.width / 32 else 1 := by rw [Issue.outRows, hm]; rfl
  have one : Sel.varNo i.f.sel ≠ 3 → i.f.d.cls = .v → 1 ≤ i.outRows := fun h _ => by rw [rows, if_neg h]
  unfold voteOut
  dsimp only
  split
  case h_1 h => exact Issue.putBit_within dest other (one (by omega)) _
  case h_2 h => exact Issue.putBit_within dest other (one (by omega)) _
  case h_3 h => exact Issue.putBit_within dest other (one (by omega)) _
  case h_4 h0 h1 h2 =>
    have sel := encodingOk_sel enc
    have mask : Sel.varNo i.f.sel = 3 := by
      cases type : i.f.sel with
      | ty t => simp [type, selOk, Mn.row] at sel
      | var n =>
        simp only [type, selOk, Mn.row, Bool.and_eq_true, List.contains_iff_mem, List.mem_cons, List.not_mem_nil, or_false] at sel
        have no : Sel.varNo i.f.sel = n.toNat := by rw [type]; rfl
        rcases sel.2 with h | h | h | h
        exacts [(h0 (no.trans h)).elim, (h1 (no.trans h)).elim, (h2 (no.trans h)).elim, h]
    exact Issue.putMask_within dest other (fun _ => by rw [rows, if_pos mask]) (fun _ wide => by simp [uniDest, hm, mask, wide]) _

/-- `match` has a class-v D just where it gives a mask (R201). -/
theorem matchv_writesDest : WritesDest .matchv := by
  refine ⟨fun _ => matchOut, fun _ _ => rfl, fun _ i hm _ ops => ?_⟩
  have dest : dIsDest i.m = true := by rw [hm]; rfl
  have other : i.m ≠ .movw := by simp [hm]
  have rows : i.outRows = if i.f.f then 1 else i.c.width / 32 := by rw [Issue.outRows, hm]; rfl
  have cls := operandOk_special ops
  simp only [specialOperandOk, bne_iff_ne, ne_eq] at cls
  unfold matchOut
  dsimp only
  split
  case isTrue all =>
    split
    · exact RegOut.within_nothing ..
    · exact Issue.putBit_within dest other (fun _ => by rw [rows, if_pos all]) _
  case isFalse any =>
    refine Issue.putMask_within dest other (fun _ => by rw [rows, if_neg any]) (fun uni => ?_) _
    simp [uni, any] at cls

theorem movw_writesDest : WritesDest .movw := by
  refine ⟨fun _ => movwOut, fun _ _ => rfl, fun _ i hm _ ops => ?_⟩
  have dest : dIsDest i.m = true := by rw [hm]; rfl
  have cls := operandOk_dClass ops
  unfold movwOut
  dsimp only
  split
  case h_1 idx swz abs neg hD =>
    refine ⟨fun e he => ?_, by simp, by simp, by simp, rfl⟩
    obtain ⟨l, hl, rfl⟩ := List.mem_map.1 he
    obtain ⟨small, runs, -⟩ := lanesOf_lt hl
    exact ⟨Issue.mem_outKeys dest (by simp [destKeys, hm, hD]), small, runs⟩
  case h_2 plain =>
    have uni : i.f.d.cls ≠ .v := fun rows => by
      cases hD : i.f.d <;> simp [hD, Operand.cls] at rows
      exact plain _ _ _ _ hD
    exact Issue.putTy_within dest (fun _ => uni) (fun rows => absurd rows uni) _

theorem rdsr_writesDest : WritesDest .rdsr := by
  refine ⟨rdsrOut, fun _ _ => rfl, fun s i hm _ _ => ?_⟩
  unfold rdsrOut
  split
  case h_2 => exact RegOut.within_nothing ..
  case h_1 sel hA =>
    refine Issue.putD_within (by rw [hm]; rfl) (by simp [hm]) (fun _ => ?_) _
    rw [Issue.outRows, hm]
    simp only [operandRows, hA, le_refl]

theorem wrsr_writesDest : WritesDest .wrsr := by
  refine ⟨fun _ => wrsrOut, fun _ _ => rfl, fun _ i hm _ ops => ?_⟩
  have reg := operandOk_selector ops
  unfold wrsrOut
  dsimp only
  split
  case h_2 => exact RegOut.within_nothing ..
  case h_1 sel r q hD hA hB =>
    split
    case isTrue => exact RegOut.within_nothing ..
    case isFalse runs =>
      refine ⟨by simp, by simp, by simp, fun e he => ?_, rfl⟩
      obtain rfl := List.mem_singleton.1 he
      simp only [hD, selectorOk, reduceCtorEq, if_false, Bool.and_eq_true, decide_eq_true_eq] at reg
      exact ⟨Issue.mem_outKeys (by rw [hm]; rfl) (by simp [destKeys_eq, hm, hD, operandKeys, reg.1]), runs⟩

theorem registerMns_writeDest : ∀ m ∈ registerMns, WritesDest m := by
  have kinds : ∀ m ∈ registerMns, m ∈ valueMns ∨ m ∈ floatMns ∨ m ∈ conditionMns ∨ m ∈ rowMns ∨
      m ∈ [Mn.unpack2, .nop, .bfexp, .bfpack, .vote, .matchv, .movw, .rdsr, .wrsr] := by decide
  intro m hm
  rcases kinds m hm with h | h | h | h | h
  · exact valueMns_writeDest m h
  · exact floatMns_writeDest m h
  · exact conditionMns_writeDest m h
  · exact rowMns_writeDest m h
  · simp only [List.mem_cons, List.not_mem_nil, or_false] at h
    rcases h with rfl | rfl | rfl | rfl | rfl | rfl | rfl | rfl | rfl
    exacts [unpack2_writesDest, nop_writesDest, bfexp_writesDest, bfpack_writesDest, vote_writesDest, matchv_writesDest, movw_writesDest,
      rdsr_writesDest, wrsr_writesDest]

end Sys2Proof.Machine

namespace Sys2Proof

open Machine

/-- Settles O1: each of the instructions retires with results that lie in its destination field, so no other register cell is written. -/
theorem registerInstructionsRetire : Obligations.RegisterInstructionsRetire := by
  intro m f s x k c sp hm h
  obtain ⟨out, exec_eq, within⟩ := registerMns_writeDest m hm
  obtain ⟨t, c', sp', next, reached, crew, retired, fmt, only, regs⟩ := regStep_reaches h (exec_eq f s)
  have dest := within s (issueOf s m f x k c sp) rfl h.encoded (by rw [issueOf_width]; exact h.operands)
  rw [dest.fmt] at fmt
  refine ⟨⟨t, c', sp', next, reached, crew, retired, fmt⟩, fun windows => ⟨t, c', sp', next, only windows, crew, retired, fmt, fun hs n hn => ?_⟩⟩
  rw [(regs hs).cell, Crew.cell_putOut_other c dest]
  rw [Issue.outKeys, issueOf_c hs, issueOf_sp hs]
  exact hn

end Sys2Proof
end

section
/-! SUPPORT. What a retirement without results leaves of the registers, and the path of an instruction that changes nothing but its own crew (R46, R47). -/

namespace Sys2Proof.Machine

open Sys2Proof

variable {s0 : State}

/-! ### Tables -/

theorem Tab.put_put {β : Type} (t : Table β) (k : Nat) (v w : β) : Tab.put (Tab.put t k v) k w = Tab.put t k w := by
  induction t with
  | nil => simp [Tab.put]
  | cons e t ih =>
    obtain ⟨k', v'⟩ := e
    by_cases below : k < k'
    case pos => simp [Tab.put, below]
    case neg =>
      by_cases same : k = k'
      case pos => subst same; simp [Tab.put]
      case neg => simp [Tab.put, below, same, ih]

theorem Tab.mem_put {β : Type} {t : Table β} {k : Nat} {v : β} {e : Nat × β} (h : e ∈ Tab.put t k v) : e = (k, v) ∨ e ∈ t := by
  induction t with
  | nil => exact .inl (List.mem_singleton.1 h)
  | cons f t ih =>
    obtain ⟨k', v'⟩ := f
    unfold Tab.put at h
    split at h
    case isTrue => exact (List.mem_cons.1 h)
    case isFalse =>
      split at h
      case isTrue => exact (List.mem_cons.1 h).imp_right (List.mem_cons_of_mem _)
      case isFalse =>
        rcases List.mem_cons.1 h with rfl | h
        · exact .inr List.mem_cons_self
        · exact (ih h).imp_right (List.mem_cons_of_mem _)

theorem Tab.del_eq_filter {β : Type} (t : Table β) (k : Nat) : Tab.del t k = t.filter fun e => e.1 != k := by
  induction t with
  | nil => rfl
  | cons f t ih =>
    obtain ⟨k', v'⟩ := f
    by_cases same : k = k'
    case pos => subst same; simp [Tab.del, ih]
    case neg => simp [Tab.del, same, ih, Ne.symm same]

theorem Tab.mem_del {β : Type} {t : Table β} {k : Nat} {e : Nat × β} : e ∈ Tab.del t k ↔ e ∈ t ∧ e.1 ≠ k := by
  rw [Tab.del_eq_filter, List.mem_filter, bne_iff_ne]

theorem Tab.mem_of_find {β : Type} {t : Table β} {k : Nat} {v : β} (h : Tab.find t k = some v) : (k, v) ∈ t := by
  induction t with
  | nil => cases h
  | cons f t ih =>
    rw [Tab.find_cons] at h
    split at h
    case isTrue same =>
      obtain rfl := Option.some.inj h
      rw [same]
      exact List.mem_cons_self
    case isFalse => exact List.mem_cons_of_mem _ (ih h)

theorem Tab.mem_iff_find {β : Type} {t : Table β} (ht : Tab.sorted t = true) {e : Nat × β} : e ∈ t ↔ Tab.find t e.1 = some e.2 :=
  ⟨fun h => Tab.find_of_mem ht h, Tab.mem_of_find⟩

theorem Tab.sorted_map {β γ : Type} (f : Nat → β → γ) (t : Table β) : Tab.sorted (t.map fun e => (e.1, f e.1 e.2)) = Tab.sorted t := by
  induction t with
  | nil => rfl
  | cons e t ih =>
    have above : Tab.above e.1 (t.map fun e => (e.1, f e.1 e.2)) = Tab.above e.1 t := by simp [Tab.above, List.all_map, Function.comp_def]
    rw [List.map_cons]
    simp only [Tab.sorted, ih, above]

/-! ### Retiring without results -/

theorem rereadCells_none (pick : Nat → Bool) (c : Crew) (l : List (Nat × Nat)) : rereadCells pick c [] l = l := by
  unfold rereadCells
  simp

theorem reread_none (w : LongWindow) (s : State) (i : Issue) (n : Nat) (c : Crew) : w.reread s i [] n c = w := by
  unfold LongWindow.reread
  simp only [rereadCells_none, ne_eq, not_true_eq_false, decide_false, Bool.and_false, Bool.false_eq_true, if_false]
  split
  · split <;> rfl
  · rfl

theorem redoAll_none (s : State) (i : Issue) (n : Nat) (c : Crew) (ws : List LongWindow) : redoAll s i [] n c ws = (ws, c) := by
  induction ws generalizing n with
  | nil => rfl
  | cons w ws ih =>
    have one : w.redo s i [] n c = (w, c) := by
      unfold LongWindow.redo
      rw [reread_none]
      simp
    simp only [redoAll, one, ih]

theorem Issue.writes_nothing (i : Issue) (s : State) (c : Crew) : i.writes s {} c = (i.sp.windows, c) := by
  have cells : RegOut.cells c.width {} = [] := rfl
  have loaded : loadedInto c.uncov [] = [] := by simp [loadedInto]
  simp only [Issue.writes, cells, loaded, settle, mixCells, Crew.putOut_nothing, redoAll_none]

/-- A retirement without results leaves every register as it is. -/
theorem Issue.retired_nothing (i : Issue) (s : State) (pc : BitVec 56) (n : Nat) (c : Crew) : SameRegs (i.retired s {} pc n c) c := by
  have written : (i.writes s {} c).2 = c := by rw [Issue.writes_nothing]
  constructor <;> simp only [Issue.retired, Issue.written, written]

theorem restoreAll_nothing (g : Go s0) (i : Issue) : restoreAll g i {} = g := by
  have same : ∀ (c : Crew) (ws : List (LongWindow × LongWindow)), (∀ e ∈ ws, e.2 = e.1) → ∀ g : Go s0,
      (g.each ws fun e g => restoreTeamMem g i c e.1 e.2) = g := by
    intro c ws
    induction ws with
    | nil => exact fun _ _ => rfl
    | cons e ws ih =>
      intro eq g
      have one : restoreTeamMem g i c e.1 e.2 = g := by simp [restoreTeamMem, eq e List.mem_cons_self]
      rw [show (g.each (e :: ws) fun e g => restoreTeamMem g i c e.1 e.2) =
        ((restoreTeamMem g i c e.1 e.2).each ws fun e g => restoreTeamMem g i c e.1 e.2) from rfl, one]
      exact ih (fun e' he' => eq e' (List.mem_cons_of_mem _ he')) g
  unfold restoreAll
  split
  case isFalse => rfl
  case isTrue =>
    split
    case h_2 => rfl
    case h_1 c _ =>
      refine same c _ (fun e he => ?_) g
      rw [Issue.writes_nothing, List.zip_eq_zipWith, List.zipWith_self] at he
      obtain ⟨w, -, rfl⟩ := List.mem_map.1 he
      rfl

/-- The splits that a retirement leaves: the same ones, in the same states, with the same lanes, stacks and frames. -/
theorem Issue.retired_splits (i : Issue) (s : State) (o : RegOut) (pc : BitVec 56) (n : Nat) (c : Crew) :
    ∃ F : Nat → Split → Split, (i.retired s o pc n c).splits = c.splits.map (fun e => (e.1, F e.1 e.2)) ∧
      (∀ j q, j ≠ i.k → F j q = { q with latchA := none, latchB := none }) ∧ ∀ j q, (F j q).st = q.st := by
  refine ⟨fun j q => latchAfter (j == i.k) o.keys (if j = i.k then i.nextSplit s o c pc q else q), ?_, fun j q hj => ?_, fun j q => ?_⟩
  · show (i.written s o c).splits.map _ = _
    rw [i.written_frame]
    rfl
  · simp [hj, latchAfter]
  · unfold latchAfter
    dsimp only
    split <;> split <;> rfl

/-! ### A path on one crew -/

/-- From `s`, nothing has changed but the crew at place `x`, which is `v`. -/
def AtCrew (s : State) (x : Nat) (v : Crew) (u : State) : Prop := u = { s with crews := Tab.put s.crews x v }

/-- From `s`, nothing has changed but the slots' cycles and the work counted for co-location. -/
def OnlyWork (s u : State) : Prop := u = { s with cycles := u.cycles, coloc := u.coloc }

section Path

variable {s u : State} {x k : Nat} {v : Crew} {g : Go s0}

theorem AtCrew.crew (h : AtCrew s x v u) : u.crew? x = some v := by
  rw [h]
  exact Tab.find_put_same ..

theorem AtCrew.only {s1 : State} (h : AtCrew s1 x v u) (work : OnlyWork s s1) : OnlyCrew s u x := by
  refine ⟨?_, fun y hy => ?_⟩
  · rw [h, work]
  · rw [h, work]; exact Tab.find_put_other _ _ hy

theorem AtCrew.team (h : AtCrew s x v u) (n : Nat) : u.team? n = s.team? n := by
  rw [h]; rfl

theorem modCrew_at (crew : g.st.crew? x = some v) (F : Crew → Crew) : AtCrew g.st x (F v) (modCrew g x F).st := by
  rw [modCrew_some g F crew]
  rfl

theorem modSplit_at (crew : g.st.crew? x = some v) {q : Split} (split : v.split? k = some q) (F : Split → Split) :
    AtCrew g.st x (v.setSplit k (F q)) (modSplit g x k F).st := by
  have changed : ∀ G : Crew → Crew, G v = v.setSplit k (F q) → AtCrew g.st x (v.setSplit k (F q)) (modCrew g x G).st :=
    fun G eq => eq ▸ modCrew_at crew G
  exact changed _ (by simp only [split])

theorem AtCrew.trans {t : State} {w : Crew} (h : AtCrew s x v t) (h' : AtCrew t x w u) : AtCrew s x w u := by
  unfold AtCrew at h h' ⊢
  rw [h', h]
  simp only [Tab.put_put]

theorem AtCrew.modCrew (h : AtCrew s x v g.st) (F : Crew → Crew) : AtCrew s x (F v) (modCrew g x F).st := h.trans (modCrew_at h.crew F)

theorem AtCrew.modSplit (h : AtCrew s x v g.st) {q : Split} (split : v.split? k = some q) (F : Split → Split) :
    AtCrew s x (v.setSplit k (F q)) (modSplit g x k F).st := h.trans (modSplit_at h.crew split F)

@[simp] theorem Crew.split?_setSplit (c : Crew) (k : Nat) (q : Split) : (c.setSplit k q).split? k = some q := Tab.find_put_same ..

theorem Crew.split?_setSplit_other (c : Crew) {k j : Nat} (q : Split) (h : j ≠ k) : (c.setSplit k q).split? j = c.split? j := Tab.find_put_other _ _ h

theorem Crew.setSplit_setSplit (c : Crew) (k : Nat) (p q : Split) : (c.setSplit k p).setSplit k q = c.setSplit k q := by
  simp only [Crew.setSplit, Tab.put_put]

/-- An instruction without results retires. -/
theorem retireAt_nothing (g : Go s0) (i : Issue) (pc : BitVec 56) {c : Crew} {sp : Split} (crew : g.st.crew? i.x = some c)
    (split : c.split? i.k = some sp) (windows : ∀ w ∈ i.sp.windows, w ∈ sp.windows) :
    ∃ s1 d sp', OnlyWork g.st s1 ∧ AtCrew s1 i.x d (retireAt g i {} pc).st ∧ RetiredAt c d i.k sp sp' pc ∧ sp'.fmt = sp.fmt ∧ SameRegs d c ∧ d.yielded = false ∧
      ∃ F : Nat → Split → Split, d.splits = c.splits.map (fun e => (e.1, F e.1 e.2)) ∧
        (∀ j q, j ≠ i.k → F j q = { q with latchA := none, latchB := none }) ∧ ∀ j q, (F j q).st = q.st := by
  obtain ⟨w, ts, n, reached, -⟩ := retireAt_st g i {} pc crew
  have teams : (retireAt g i {} pc).st.teams = g.st.teams := by
    unfold retireAt
    dsimp only
    rw [restoreAll_nothing, modCrew_cycle_teams, countWork_same]
  obtain rfl : ts = g.st.teams := by rw [← teams, reached]; rfl
  obtain ⟨sp', retired, fmt⟩ := i.retired_at { g.st with coloc := w } {} pc n split windows
  refine ⟨(Upd.cycle (i.x / 8) n).apply { g.st with coloc := w }, _, sp', rfl, ?_, retired, fmt, i.retired_nothing _ _ _ _, rfl,
    i.retired_splits _ _ _ _ _⟩
  unfold AtCrew
  rw [reached]
  rfl

end Path

end Sys2Proof.Machine
end

section
/-! SUPPORT. Splits that leave and merge: the mask stack, a crew's entries, and the join records (R46, R47, R48, R53). -/

namespace Sys2Proof.Machine

open Sys2Proof

variable {s0 : State}

/-! ### No split waits for a frame -/

/-- No split of the crew waits for a frame. -/
def Crew.FrameFree (c : Crew) : Prop := ∀ e ∈ c.splits, e.2.st ≠ .frameWait

theorem Crew.FrameFree.setSplit {c : Crew} (h : c.FrameFree) (k : Nat) {q : Split} (hq : q.st ≠ .frameWait) : (c.setSplit k q).FrameFree := by
  intro e he
  rcases Tab.mem_put he with rfl | he
  · exact hq
  · exact h e he

theorem Crew.FrameFree.wake {c : Crew} (h : c.FrameFree) : c.wakeFrameWait = c := by
  unfold Crew.wakeFrameWait
  split
  case h_2 => rfl
  case h_1 k sp hc => rw [if_neg (h (k, sp) (by rw [hc]; exact List.mem_cons_self))]

theorem frameDeadlock_free {g : Go s0} {x : Nat} {c : Crew} (crew : g.st.crew? x = some c) (h : c.FrameFree) : frameDeadlock g x = g := by
  have none : (c.splits.any fun e => e.2.st == .frameWait) = false := by
    simpa only [List.any_eq_false, beq_iff_eq] using fun e he => h e he
  unfold frameDeadlock
  simp only [crew, Crew.frameDeadlock, none, Bool.and_false, Bool.false_eq_true, if_false]

/-! ### The mask stack -/

section Path

variable {s : State} {x k : Nat} {v : Crew} {q : Split} {g : Go s0}

theorem emptySplit_stays (h : AtCrew s x v g.st) (split : v.split? k = some q) (mask : q.mask ≠ 0) (n : Nat) : emptySplit g x k n = (.ok (), g) := by
  cases n with
  | zero => rfl
  | succ n => simp only [emptySplit, h.crew, Option.bind_some, split, ne_eq, mask, not_false_eq_true, if_true]

theorem popMask_top (crew : g.st.crew? x = some v) (split : v.split? k = some q) {e : MaskEntry} {ms : List MaskEntry} (stack : q.mstack = e :: ms)
    (near : ms ≠ [] ∨ q.mspill = []) : popMask g x k = (.ok (some e), modSplit g x k fun p => { p with mstack := ms }) := by
  unfold popMask
  simp only [crew, split, stack]
  cases ms with
  | cons => rfl
  | nil =>
    have spill : q.mspill = [] := near.resolve_left fun some => some rfl
    simp only [spill]

theorem emptySplit_pops (h : AtCrew s x v g.st) (split : v.split? k = some q) (mask : q.mask = 0) {e : MaskEntry} {ms : List MaskEntry}
    (stack : q.mstack = e :: ms) (near : ms ≠ [] ∨ q.mspill = []) (left : (popInto true e { q with mstack := ms }).mask ≠ 0) (n : Nat) :
    ∃ g', emptySplit g x k (n + 1) = (.ok (), g') ∧ AtCrew s x (v.setSplit k (popInto true e { q with mstack := ms })) g'.st := by
  have pop := popMask_top h.crew split stack near
  have at2 := (h.modSplit split fun p => { p with mstack := ms }).modSplit (Crew.split?_setSplit ..) (popInto true e)
  rw [Crew.setSplit_setSplit] at at2
  refine ⟨_, ?_, at2⟩
  rw [emptySplit]
  simp only [h.crew, Option.bind_some, split, mask, ne_eq, not_true_eq_false, if_false, pop]
  exact emptySplit_stays at2 (Crew.split?_setSplit ..) left n

theorem emptySplit_frees (h : AtCrew s x v g.st) (split : v.split? k = some q) (mask : q.mask = 0) (stack : q.mstack = []) (n : Nat) :
    ∃ g', emptySplit g x k (n + 1) = (.ok (), g') ∧
      AtCrew s x (({ v with splits := Tab.del v.splits k }.sideGone 4 q.join).wakeFrameWait) g'.st := by
  have freed := h.modCrew fun c => ({ c with splits := Tab.del c.splits k }.sideGone 4 q.join).wakeFrameWait
  refine ⟨_, ?_, freed⟩
  rw [emptySplit]
  have pop : popMask g x k = (.ok none, g) := by
    unfold popMask
    simp only [h.crew, split, stack]
  simp only [h.crew, Option.bind_some, split, mask, ne_eq, not_true_eq_false, if_false, pop]

/-- A split without lanes of a set, in its mask and its mask stack. -/
def Split.losing (lanes : Lanes) (q : Split) : Split :=
  { q with mask := q.mask &&& ~~~lanes, mstack := q.mstack.map (MaskEntry.without lanes)
           mspill := q.mspill.map fun r => { r with kept := r.kept.without lanes } }

/-- Its crew, which these lanes have left. -/
def Crew.losing (c : Crew) (k : Nat) (lanes : Lanes) (q : Split) : Crew := { c with exited := c.exited ||| lanes }.setSplit k (q.losing lanes)

/-- A crew without splits drains. -/
def Crew.drainEmpty (c : Crew) : Crew := if c.splits.isEmpty then { c with st := .draining } else c

/-- The path of lanes that exit, from the one of the split that they leave. -/
theorem exitLanes_reaches {lanes : Lanes} {e : Crew} (h : AtCrew s x v g.st) (split : v.split? k = some q)
    (empties : ∀ g2 : Go s0, AtCrew s x (v.losing k lanes q) g2.st → ∀ n, ∃ g3, emptySplit g2 x k (n + 1) = (.ok (), g3) ∧ AtCrew s x e g3.st) :
    ∃ g4, exitLanes g x k lanes = (.ok (), g4) ∧ AtCrew s x e.drainEmpty g4.st := by
  have left := (h.modCrew fun c => { c with exited := c.exited ||| lanes }).modSplit (k := k) split (Split.losing lanes)
  obtain ⟨g3, empty, at3⟩ := empties _ left ((q.losing lanes).mstack.length + (q.losing lanes).mspill.length)
  have drains := at3.modCrew fun c => if c.splits.isEmpty then { c with st := .draining } else c
  refine ⟨_, ?_, drains⟩
  unfold exitLanes
  dsimp only
  rw [show (fun sp : Split => { sp with mask := sp.mask &&& ~~~lanes, mstack := sp.mstack.map (MaskEntry.without lanes)
                                        mspill := sp.mspill.map fun r => { r with kept := r.kept.without lanes } }) = Split.losing lanes from rfl]
  simp only [left.crew, Option.bind_some, Crew.split?_setSplit, empty]

end Path

/-! ### Merging -/

theorem Tab.pairwise_of_sorted {β : Type} {t : Table β} (h : Tab.sorted t = true) : t.Pairwise fun a b => a.1 < b.1 := by
  induction t with
  | nil => exact .nil
  | cons e t ih =>
    simp only [Tab.sorted, Bool.and_eq_true] at h
    exact .cons (fun f hf => Tab.above_mem h.1 hf) (ih h.2)

theorem hasLane_foldl_or {α : Type} (f : α → Lanes) (ws : List α) (m : Lanes) (l : Nat) :
    hasLane (ws.foldl (fun a e => a ||| f e) m) l = true ↔ hasLane m l = true ∨ ∃ e ∈ ws, hasLane (f e) l = true := by
  induction ws generalizing m with
  | nil => simp
  | cons w ws ih =>
    rw [List.foldl_cons, ih, List.exists_mem_cons_iff, ← or_assoc]
    simp [hasLane]

theorem foldl_max_le {α : Type} (f : α → Nat) (ws : List α) (m : Nat) :
    m ≤ ws.foldl (fun a e => max a (f e)) m ∧ ∀ e ∈ ws, f e ≤ ws.foldl (fun a e => max a (f e)) m := by
  induction ws generalizing m with
  | nil => simp
  | cons w ws ih =>
    obtain ⟨low, all⟩ := ih (max m (f w))
    rw [List.foldl_cons]
    refine ⟨le_trans (le_max_left ..) low, fun e he => ?_⟩
    rcases List.mem_cons.1 he with rfl | he
    · exact le_trans (le_max_right ..) low
    · exact all e he

theorem foldl_max_mem {α : Type} (f : α → Nat) (ws : List α) (m : Nat) :
    ws.foldl (fun a e => max a (f e)) m = m ∨ ∃ e ∈ ws, ws.foldl (fun a e => max a (f e)) m = f e := by
  induction ws generalizing m with
  | nil => exact .inl rfl
  | cons w ws ih =>
    rw [List.foldl_cons]
    rcases ih (max m (f w)) with eq | ⟨e, he, eq⟩
    · rcases max_choice m (f w) with low | high
      · exact .inl (eq.trans low)
      · exact .inr ⟨w, List.mem_cons_self, eq.trans high⟩
    · exact .inr ⟨e, List.mem_cons_of_mem _ he, eq⟩

theorem Tab.find_foldl_del {β γ : Type} (ws : List (Nat × γ)) (t : Table β) (i : Nat) :
    Tab.find (ws.foldl (fun t e => Tab.del t e.1) t) i = if ∃ e ∈ ws, e.1 = i then none else Tab.find t i := by
  induction ws generalizing t with
  | nil => simp
  | cons w ws ih =>
    rw [List.foldl_cons, ih]
    by_cases here : w.1 = i
    case pos => subst here; simp
    case neg => rw [Tab.find_del_other t (Ne.symm here)]; simp only [List.exists_mem_cons_iff, here, false_or]

theorem Tab.mem_foldl_del {β γ : Type} {ws : List (Nat × γ)} {t : Table β} {e : Nat × β} (h : e ∈ ws.foldl (fun t e => Tab.del t e.1) t) : e ∈ t := by
  induction ws generalizing t with
  | nil => exact h
  | cons w ws ih => exact (Tab.mem_del.1 (ih h)).1

/-- Split `q`, entry `i`, waits at join record `j` (R46). -/
def Crew.WaitsAt (c : Crew) (j i : Nat) (q : Split) : Prop := c.split? i = some q ∧ q.st = .mergeWait ∧ q.join = some j

theorem Crew.mem_waitingAt {c : Crew} (sorted : Tab.sorted c.splits = true) {j : Nat} {e : Nat × Split} :
    e ∈ c.waitingAt j ↔ c.WaitsAt j e.1 e.2 := by
  rw [Crew.waitingAt, List.mem_filter, Tab.mem_iff_find sorted]
  simp [Crew.WaitsAt, Crew.split?]

/-- Where some split waits, the list of those that do begins with the lowest entry. -/
theorem Crew.waitingAt_lowest {c : Crew} (sorted : Tab.sorted c.splits = true) {j lo : Nat} {q0 : Split} (low : c.WaitsAt j lo q0)
    (least : ∀ i q, c.WaitsAt j i q → lo ≤ i) : ∃ ws, c.waitingAt j = (lo, q0) :: ws ∧ ∀ e ∈ ws, e.1 ≠ lo := by
  have mem := (Crew.mem_waitingAt sorted (e := (lo, q0))).2 low
  have rising : (c.waitingAt j).Pairwise fun a b => a.1 < b.1 := (Tab.pairwise_of_sorted sorted).filter _
  cases list : c.waitingAt j with
  | nil => rw [list] at mem; cases mem
  | cons e ws =>
    rw [list] at mem rising
    obtain ⟨above, -⟩ := List.pairwise_cons.1 rising
    have head := (Crew.mem_waitingAt sorted (e := e)).1 (by rw [list]; exact List.mem_cons_self)
    have first : e = (lo, q0) := by
      rcases List.mem_cons.1 mem with eq | later
      · exact eq.symm
      · have := above _ later
        have := least _ _ head
        omega
    subst first
    exact ⟨ws, rfl, fun f hf => (above f hf).ne'⟩

/-- The last side at a join record merges those that wait there into the lowest entry (R46). -/
theorem Crew.mergeAt_merges {c : Crew} (sorted : Tab.sorted c.splits = true) (free : c.FrameFree) {j lo : Nat} {q0 : Split} (r : JoinRec)
    (low : c.WaitsAt j lo q0) (least : ∀ i q, c.WaitsAt j i q → lo ≤ i) :
    ∃ ss sp', c.mergeAt j r = { c with joins := Tab.del c.joins j, splits := ss } ∧ Tab.find ss lo = some sp' ∧ sp'.st = .ready ∧ sp'.fmt = r.fmt ∧
      sp'.join = r.parent ∧ sp'.pc = q0.pc ∧ (∀ l, hasLane sp'.mask l = true ↔ ∃ i q, c.WaitsAt j i q ∧ hasLane q.mask l = true) ∧
      (∀ i q, c.WaitsAt j i q → q.clock ≤ sp'.clock ∧ (i ≠ lo → Tab.find ss i = none)) ∧ (∃ i q, c.WaitsAt j i q ∧ sp'.clock = q.clock) ∧
      (∀ i, c.split? i = none → Tab.find ss i = none) ∧ ∀ e ∈ ss, e.2.st ≠ .frameWait := by
  obtain ⟨ws, list, others⟩ := Crew.waitingAt_lowest sorted low least
  have waits : ∀ i q, c.WaitsAt j i q ↔ (i, q) = (lo, q0) ∨ (i, q) ∈ ws := fun i q => by
    rw [← Crew.mem_waitingAt sorted (e := (i, q)), list, List.mem_cons]
  have remain : ∀ e ∈ ws.foldl (fun (t : Table Split) (e : Nat × Split) => Tab.del t e.1) c.splits, e.2.st ≠ .frameWait :=
    fun e he => free e (Tab.mem_foldl_del he)
  let d : Crew := { c with joins := Tab.del c.joins j, splits := ws.foldl (fun (t : Table Split) (e : Nat × Split) => Tab.del t e.1) c.splits }
  let merged : Split := { q0 with st := .ready, fmt := r.fmt, join := r.parent, latchA := none, latchB := none, windows := []
                                  mask := ws.foldl (fun (a : Lanes) (e : Nat × Split) => a ||| e.2.mask) q0.mask
                                  clock := ws.foldl (fun (a : Nat) (e : Nat × Split) => max a e.2.clock) q0.clock }
  have merges : c.mergeAt j r = d.setSplit lo merged := by
    have free' : (d.setSplit lo merged).FrameFree := Crew.FrameFree.setSplit (c := d) remain lo (by simp [merged])
    rw [← free'.wake]
    unfold Crew.mergeAt
    simp only [list]
    rfl
  obtain ⟨least', all⟩ := foldl_max_le (fun e : Nat × Split => e.2.clock) ws q0.clock
  refine ⟨_, merged, merges, Tab.find_put_same .., rfl, rfl, rfl, rfl, fun l => ?_, fun i q h => ⟨?_, fun other => ?_⟩, ?_, fun i gone => ?_, ?_⟩
  · rw [show merged.mask = ws.foldl (fun (a : Lanes) (e : Nat × Split) => a ||| e.2.mask) q0.mask from rfl, hasLane_foldl_or]
    constructor
    · rintro (lane | ⟨e, he, lane⟩)
      · exact ⟨lo, q0, low, lane⟩
      · exact ⟨e.1, e.2, (waits _ _).2 (.inr he), lane⟩
    · rintro ⟨i, q, h, lane⟩
      rcases (waits i q).1 h with eq | later
      · cases eq; exact .inl lane
      · exact .inr ⟨_, later, lane⟩
  · rcases (waits i q).1 h with eq | later
    · cases eq; exact least'
    · exact all _ later
  · rw [Tab.find_put_other _ _ other, Tab.find_foldl_del, if_pos]
    rcases (waits i q).1 h with eq | later
    · cases eq; exact absurd rfl other
    · exact ⟨_, later, rfl⟩
  · rcases foldl_max_mem (fun e : Nat × Split => e.2.clock) ws q0.clock with eq | ⟨e, he, eq⟩
    · exact ⟨lo, q0, low, eq⟩
    · exact ⟨e.1, e.2, (waits _ _).2 (.inr he), eq⟩
  · have other : i ≠ lo := by
      rintro rfl
      rw [low.1] at gone
      cases gone
    rw [Tab.find_put_other _ _ other, Tab.find_foldl_del]
    split
    · rfl
    · exact gone
  · intro e he
    rcases Tab.mem_put he with rfl | he
    · simp [merged]
    · exact remain e he

end Sys2Proof.Machine
end

section
/-! SUPPORT. O17: `yield`, and `exit` up to the point where its split has lost its lanes (R47, R229, R233). -/

namespace Sys2Proof.Machine

open Sys2Proof

variable {s0 : State}

/-! ### What exits of lanes bring about elsewhere -/

/-- No team barrier is open and no gang detachment under way in a team. -/
def State.TeamQuiet (s : State) (n : Nat) : Prop := ∀ tm, s.team? n = some tm → tm.gdetach = [] ∧ tm.bars = []

theorem barCheck_quiet {g : Go s0} {n : Nat} (h : g.st.TeamQuiet n) (b : Nat) : barCheck g n b = g := by
  unfold barCheck
  split
  case h_1 => rfl
  case h_2 tm team => simp only [(h tm team).2, Tab.find_nil]

theorem gdetachCheck_quiet {g : Go s0} {n : Nat} (h : g.st.TeamQuiet n) : gdetachCheck g n = g := by
  unfold gdetachCheck
  split
  case h_1 => rfl
  case h_2 tm team => simp [(h tm team).1]

theorem TeamQuiet.forget {g : Go s0} {n x : Nat} (h : g.st.TeamQuiet n) : (modTeam g n (Team.forget x)).st.TeamQuiet n := by
  cases team : g.st.team? n with
  | none => simpa only [modTeam, team] using h
  | some tm =>
    rw [modTeam_some g _ team, Go.put_st]
    intro tm' htm'
    obtain rfl := Option.some.inj ((State.team?_put_same ..).symm.trans htm')
    simp [Team.forget, h tm team]

/-- Where no arrival of the crew is under way and its team is quiet, an exit of lanes changes nothing else but what the team remembers of the crew. -/
theorem exitArrivals_quiet {g : Go s0} {x : Nat} {c : Crew} (crew : g.st.crew? x = some c) (arriving : c.arriving = [])
    (quiet : g.st.TeamQuiet c.team) : (exitArrivals g x).st = { g.st with teams := (exitArrivals g x).st.teams } ∧
      (exitArrivals g x).st.TeamQuiet c.team ∧ (c.st ≠ .draining → exitArrivals g x = g) := by
  have none : exitArrivals g x = if c.st == .draining then g.each (List.range 16) fun b g => barCheck (modTeam g c.team (Team.forget x)) c.team b
      else g := by
    unfold exitArrivals
    simp only [crew, arriving, List.filter_nil]
    rfl
  rw [none]
  split
  case isFalse => exact ⟨rfl, quiet, fun _ => rfl⟩
  case isTrue gone =>
    have kept := Go.each_keeps (P := fun u => u = { g.st with teams := u.teams } ∧ u.TeamQuiet c.team) (l := List.range 16)
      (f := fun b g => barCheck (modTeam g c.team (Team.forget x)) c.team b) (fun b _ g' h => ?_) g ⟨rfl, quiet⟩
    · exact ⟨kept.1, kept.2, fun stays => absurd (beq_iff_eq.1 gone) stays⟩
    · rw [barCheck_quiet (TeamQuiet.forget h.2)]
      exact ⟨by rw [modTeam_same, h.1], TeamQuiet.forget h.2⟩

/-! ### yield -/

section Issuing

variable {s : State} {m : Mn} {f : Fields} {x k : Nat} {c : Crew} {sp : Split}

/-- The state that a retirement without results reaches. -/
theorem State.Executes.retires (h : s.Executes m f x k c sp) :
    ∃ s1 d sp', OnlyWork s s1 ∧ AtCrew s1 x d (retire (Go.start s) (issueOf s m f x k c sp) {}).st ∧ RetiredAt c d k sp sp' (sp.pc + 12) ∧ sp'.fmt = sp.fmt ∧
      SameRegs d c ∧ d.yielded = false ∧ ∃ F : Nat → Split → Split, d.splits = c.splits.map (fun e => (e.1, F e.1 e.2)) ∧
        (∀ j q, j ≠ k → F j q = { q with latchA := none, latchB := none }) ∧ ∀ j q, (F j q).st = q.st := by
  obtain ⟨-, crew, split, -⟩ := State.issuer_some h.issuer
  exact retireAt_nothing (Go.start s) (issueOf s m f x k c sp) (sp.pc + 12) crew split issueOf_windows

theorem State.Executes.goesOn (h : s.Executes m f x k c sp) {body : Issue → Go s → Go s}
    (he : exec (m.instr f) s = crewStep m f s body) (retires : body (issueOf s m f x k c sp) (Go.start s) = retire (Go.start s) (issueOf s m f x k c sp) {}) :
    GoesTo s m f x k c sp (sp.pc + 12) := by
  obtain ⟨s1, d, sp', work, reached, retired, fmt, regs, -⟩ := h.retires
  exact ⟨_, d, sp', he.trans ((crewStep_executes h _).trans (by rw [retires])), reached.only work, reached.crew, retired, fmt, regs.v, regs.s, regs.p, regs.lay⟩

theorem yield_retires (h : s.Executes .yield f x k c sp) :
    ∃ t c' sp', exec (.yield f) s = .next t ∧ OnlyCrew s t x ∧ t.crew? x = some c' ∧ RetiredAt c c' k sp sp' (sp.pc + 12) ∧ sp'.fmt = sp.fmt ∧
      (c'.yielded = true ↔ runLanes s .yield f x k c sp ≠ 0) ∧ c'.v = c.v ∧ c'.s = c.s ∧ c'.p = c.p ∧ c'.lay = c.lay := by
  obtain ⟨s1, d, sp', work, reached, retired, fmt, regs, yielded, -⟩ := h.retires
  have answers : exec (.yield f) s = .next (yieldBody (issueOf s .yield f x k c sp) (Go.start s)).st := crewStep_executes h _
  by_cases run : runLanes s .yield f x k c sp = 0
  case pos =>
    have body : yieldBody (issueOf s .yield f x k c sp) (Go.start s) = retire (Go.start s) (issueOf s .yield f x k c sp) {} := if_pos run
    rw [body] at answers
    exact ⟨_, d, sp', answers, reached.only work, reached.crew, retired, fmt, by simp [yielded, run], regs.v, regs.s, regs.p, regs.lay⟩
  case neg =>
    have body : yieldBody (issueOf s .yield f x k c sp) (Go.start s) =
        modCrew (retire (Go.start s) (issueOf s .yield f x k c sp) {}) x fun c => { c with yielded := true } := if_neg run
    rw [body] at answers
    have marked := reached.modCrew fun c => { c with yielded := true }
    refine ⟨_, { d with yielded := true }, sp', answers, marked.only work, marked.crew, ?_, fmt, ⟨fun _ => run, fun _ => rfl⟩, regs.v, regs.s, regs.p, regs.lay⟩
    obtain ⟨split, pc, clock, same, others, crew, counts⟩ := retired
    exact ⟨split, pc, clock, same, others, by rw [crew], counts⟩

/-! ### exit -/

/-- Crew `v` is crew `c` after an instruction of split `k` has retired without results and lanes `run` have left it; `q` is what is left of the split. -/
structure Crew.Left (c : Crew) (k : Nat) (sp : Split) (run : Lanes) (v : Crew) (q : Split) : Prop where
  st       : v.st = .running
  exited   : v.exited = c.exited ||| run
  arriving : v.arriving = c.arriving
  joins    : v.joins = c.joins
  team     : v.team = c.team
  regs     : SameRegs v c
  split    : v.split? k = some q
  lanes    : q = { (sp.losing run) with pc := sp.pc + 12, clock := sp.clock + 1, windows := q.windows, latchA := q.latchA, latchB := q.latchB }
  others   : ∀ j, j ≠ k → v.split? j = (c.split? j).map fun q => { q with latchA := none, latchB := none }
  sorted   : Tab.sorted c.splits = true → Tab.sorted v.splits = true
  free     : c.FrameFree → v.FrameFree

/-- The retirement of `exit`, and the lanes gone. -/
theorem State.Executes.leaves (h : s.Executes m f x k c sp) (run : Lanes) :
    ∃ s1 d sp', OnlyWork s s1 ∧ AtCrew s1 x d (retire (Go.start s) (issueOf s m f x k c sp) {}).st ∧ d.split? k = some sp' ∧
      Crew.Left c k sp run (d.losing k run sp') (sp'.losing run) := by
  obtain ⟨-, -, -, running, ready, -⟩ := State.issuer_some h.issuer
  obtain ⟨s1, d, sp', work, reached, retired, fmt, regs, -, F, splits, -, states⟩ := h.retires
  have lanes : sp' = { sp with pc := sp.pc + 12, clock := sp.clock + 1, windows := sp'.windows, latchA := sp'.latchA, latchB := sp'.latchB } := by
    rw [retired.same, fmt]
  have crew := retired.crew
  have free : c.FrameFree → d.FrameFree := fun free e he => by
    rw [splits] at he
    obtain ⟨p, hp, rfl⟩ := List.mem_map.1 he
    rw [states]
    exact free p hp
  refine ⟨s1, d, sp', work, reached, retired.split, ⟨?_, ?_, ?_, ?_, ?_, ?_, Crew.split?_setSplit .., ?_, fun j hj => ?_, fun sorted => ?_, fun h => ?_⟩⟩
  · rw [← running, crew]; rfl
  · rw [crew]; rfl
  · rw [crew]; rfl
  · rw [crew]; rfl
  · rw [crew]; rfl
  · exact ⟨regs.v, regs.s, regs.p, regs.lay, regs.width, regs.wrows⟩
  · rw [lanes]; rfl
  · exact (Crew.split?_setSplit_other _ _ hj).trans (retired.others j hj)
  · refine Tab.sorted_put _ _ _ ?_
    show Tab.sorted d.splits = true
    rw [splits, Tab.sorted_map]
    exact sorted
  · refine Crew.FrameFree.setSplit (c := { d with exited := _ }) (free h) k ?_
    rw [lanes]
    show sp.st ≠ .frameWait
    rw [ready]
    decide

/-- An `exit` of lanes, from what becomes of the split that they left. -/
theorem State.Executes.exits (h : s.Executes .exit f x k c sp) (run : runLanes s .exit f x k c sp ≠ 0)
    (quiet : s.TeamQuiet c.team) :
    ∃ s1 v q, Crew.Left c k sp (runLanes s .exit f x k c sp) v q ∧ ∀ e : Crew,
      (∀ g2 : Go s, AtCrew s1 x v g2.st → ∀ n, ∃ g3, emptySplit g2 x k (n + 1) = (.ok (), g3) ∧ AtCrew s1 x e g3.st) →
      e.arriving = [] → e.team = c.team → e.FrameFree → e.st = .running →
      ∃ t, exec (.exit f) s = .next t ∧ t.crew? x = some e.drainEmpty ∧ t.mem = s.mem ∧ t.launches = s.launches ∧
        (e.splits ≠ [] → e.drainEmpty = e ∧ OnlyCrew s t x) := by
  obtain ⟨s1, d, sp', work, reached, split, left⟩ := h.leaves (runLanes s .exit f x k c sp)
  refine ⟨s1, _, _, left, fun e empties noArrivals team free running => ?_⟩
  obtain ⟨g4, exits, at4⟩ := exitLanes_reaches reached split empties
  have same : ∀ (P : Crew → Prop), P e → P { e with st := .draining } → P e.drainEmpty := fun P a b => by
    unfold Crew.drainEmpty
    split
    · exact b
    · exact a
  have free' : e.drainEmpty.FrameFree := same Crew.FrameFree free free
  have still : frameDeadlock g4 x = g4 := frameDeadlock_free at4.crew free'
  have quiet4 : g4.st.TeamQuiet e.drainEmpty.team := fun tm htm => by
    rw [at4.team, work, same (fun e => e.team = c.team) team team] at htm
    exact quiet tm htm
  obtain ⟨arrivals, quiet', stays⟩ := exitArrivals_quiet at4.crew (same (fun e => e.arriving = []) noArrivals noArrivals) quiet4
  have body : exitBody (issueOf s .exit f x k c sp) (Go.start s) = exitArrivals g4 x := by
    unfold exitBody
    rw [issueOf_run, if_neg run, show exitLanes (retire (Go.start s) (issueOf s .exit f x k c sp) {}) (issueOf s .exit f x k c sp).x
      (issueOf s .exit f x k c sp).k (runLanes s .exit f x k c sp) = (.ok (), g4) from exits]
    dsimp only
    rw [issueOf_x, still, issueOf_team, ← same (fun e => e.team = c.team) team team]
    exact gdetachCheck_quiet quiet'
  have keeps : g4.st.mem = s.mem ∧ g4.st.launches = s.launches := by rw [at4, work]; exact ⟨rfl, rfl⟩
  refine ⟨_, (crewStep_executes h exitBody).trans (by rw [body]), ?_, ?_, ?_, fun some => ?_⟩
  · rw [arrivals]; exact at4.crew
  · rw [arrivals]; exact keeps.1
  · rw [arrivals]; exact keeps.2
  · have whole : e.drainEmpty = e := by
      unfold Crew.drainEmpty
      rw [if_neg (by simpa using some)]
    rw [stays (by rw [whole, running]; decide)]
    exact ⟨whole, at4.only work⟩

end Issuing

end Sys2Proof.Machine
end

section
/-! SUPPORT. O17: what an `exit` makes of its split, clause by clause (R47, R61, R229). -/

namespace Sys2Proof.Machine

open Sys2Proof

theorem Tab.eq_nil_iff_find {β : Type} {t : Table β} : t = [] ↔ ∀ k, Tab.find t k = none := by
  constructor
  · rintro rfl k
    rfl
  · intro h
    cases t with
    | nil => rfl
    | cons e t => simpa [Tab.find_cons] using h e.1

theorem Tab.ne_nil_of_find {β : Type} {t : Table β} {k : Nat} {v : β} (h : Tab.find t k = some v) : t ≠ [] := by
  rintro rfl
  cases h

theorem Crew.FrameFree.del {c : Crew} (h : c.FrameFree) (k : Nat) : Crew.FrameFree { c with splits := Tab.del c.splits k } :=
  fun e he => h e (Tab.mem_del.1 he).1

/-- The crew without an entry. -/
def Crew.freed (c : Crew) (k : Nat) : Crew := { c with splits := Tab.del c.splits k }

section Exit

variable {s : State} {f : Fields} {x k : Nat} {c : Crew} {sp : Split}

/-- Lanes are left: the split goes on with them. -/
theorem exit_some (h : s.Executes .exit f x k c sp) (arriving : c.arriving = []) (free : c.FrameFree) (quiet : s.TeamQuiet c.team)
    (run : runLanes s .exit f x k c sp ≠ 0) (left : sp.mask &&& ~~~(runLanes s .exit f x k c sp) ≠ 0) :
    ∃ t c' sp', exec (.exit f) s = .next t ∧ OnlyCrew s t x ∧ t.crew? x = some c' ∧
      c'.st = .running ∧ c'.exited = c.exited ||| runLanes s .exit f x k c sp ∧ c'.v = c.v ∧ c'.s = c.s ∧ c'.p = c.p ∧ c'.lay = c.lay ∧
      c'.split? k = some sp' ∧ sp'.mask = sp.mask &&& ~~~(runLanes s .exit f x k c sp) ∧ sp'.pc = sp.pc + 12 ∧ sp'.clock = sp.clock + 1 := by
  obtain ⟨s1, v, q, is, finish⟩ := h.exits run quiet
  have mask : q.mask = sp.mask &&& ~~~(runLanes s .exit f x k c sp) := by rw [is.lanes]; rfl
  obtain ⟨t, next, crew, -, -, only⟩ := finish v (fun g2 at2 n => ⟨g2, emptySplit_stays at2 is.split (mask ▸ left) _, at2⟩)
    (is.arriving.trans arriving) is.team (is.free free) is.st
  obtain ⟨whole, only⟩ := only (Tab.ne_nil_of_find is.split)
  exact ⟨t, v, q, next, only, whole ▸ crew, is.st, is.exited, is.regs.v, is.regs.s, is.regs.p, is.regs.lay, is.split, mask, by rw [is.lanes],
    by rw [is.lanes]⟩

/-- The split goes, and no record hears of it. -/
theorem exit_last (h : s.Executes .exit f x k c sp) (arriving : c.arriving = []) (free : c.FrameFree) (quiet : s.TeamQuiet c.team)
    (run : runLanes s .exit f x k c sp ≠ 0) (left : sp.mask &&& ~~~(runLanes s .exit f x k c sp) = 0) (stack : sp.mstack = []) (join : sp.join = none) :
    ∃ t c', exec (.exit f) s = .next t ∧ t.crew? x = some c' ∧ c'.exited = c.exited ||| runLanes s .exit f x k c sp ∧ c'.split? k = none ∧
      c'.v = c.v ∧ c'.s = c.s ∧ c'.p = c.p ∧ c'.lay = c.lay ∧ (c'.st = .draining ↔ ∀ j, j ≠ k → c.split? j = none) ∧
      t.mem = s.mem ∧ t.launches = s.launches := by
  obtain ⟨s1, v, q, is, finish⟩ := h.exits run quiet
  have gone : q.mask = 0 ∧ q.mstack = [] ∧ q.join = none := by rw [is.lanes]; exact ⟨left, by rw [Split.losing, stack]; rfl, join⟩
  obtain ⟨mask, stack', join'⟩ := gone
  have free' : (v.freed k).FrameFree := (is.free free).del k
  obtain ⟨t, next, crew, mem, launches, -⟩ := finish (v.freed k) (fun g2 at2 n => by
    have frees := emptySplit_frees at2 is.split mask stack' n
    rwa [join', show { v with splits := Tab.del v.splits k } = v.freed k from rfl, show (v.freed k).sideGone 4 none = v.freed k from rfl,
      free'.wake] at frees)
    (is.arriving.trans arriving) is.team free' is.st
  have others : (v.freed k).splits = [] ↔ ∀ j, j ≠ k → c.split? j = none := by
    rw [Tab.eq_nil_iff_find]
    constructor
    · intro all j hj
      have none := (Tab.find_del_other v.splits hj).symm.trans (all j)
      simpa [show Tab.find v.splits j = v.split? j from rfl, is.others j hj] using none
    · intro all j
      by_cases own : j = k
      case pos => rw [own]; exact Tab.find_del_same ..
      case neg => rw [Crew.freed, Tab.find_del_other v.splits own, show Tab.find v.splits j = v.split? j from rfl, is.others j own, all j own]; rfl
  have drains : (v.freed k).drainEmpty = { v.freed k with st := if (v.freed k).splits.isEmpty then .draining else v.st } := by
    unfold Crew.drainEmpty
    split <;> rfl
  rw [drains] at crew
  refine ⟨t, _, next, crew, is.exited, Tab.find_del_same .., is.regs.v, is.regs.s, is.regs.p, is.regs.lay, ?_, mem, launches⟩
  rw [← others]
  dsimp only
  split
  case isTrue none => simpa using none
  case isFalse some => simpa [is.st] using some

/-- The split takes what the top entry of its mask stack leaves it. -/
theorem exit_pops (h : s.Executes .exit f x k c sp) (arriving : c.arriving = []) (free : c.FrameFree) (quiet : s.TeamQuiet c.team)
    (run : runLanes s .exit f x k c sp ≠ 0) (gone : sp.mask &&& ~~~(runLanes s .exit f x k c sp) = 0) {e : MaskEntry} {ms : List MaskEntry}
    (stack : sp.mstack = e :: ms) (near : ms ≠ [] ∨ sp.mspill = [])
    (left : (popInto true (e.without (runLanes s .exit f x k c sp)) sp).mask ≠ 0) :
    ∃ t c' sp', exec (.exit f) s = .next t ∧ OnlyCrew s t x ∧ t.crew? x = some c' ∧ c'.st = .running ∧
      c'.exited = c.exited ||| runLanes s .exit f x k c sp ∧ c'.v = c.v ∧ c'.s = c.s ∧ c'.p = c.p ∧ c'.lay = c.lay ∧ c'.split? k = some sp' ∧
      sp'.pc = (popInto true (e.without (runLanes s .exit f x k c sp)) sp).pc ∧
      sp'.mask = (popInto true (e.without (runLanes s .exit f x k c sp)) sp).mask ∧
      sp'.fmt = (popInto true (e.without (runLanes s .exit f x k c sp)) sp).fmt ∧ sp'.clock = sp.clock + 1 ∧ sp'.join = sp.join ∧
      sp'.mstack = ms.map (MaskEntry.without (runLanes s .exit f x k c sp)) := by
  obtain ⟨s1, v, q, is, finish⟩ := h.exits run quiet
  have rest : q.mask = 0 ∧ q.mstack = e.without (runLanes s .exit f x k c sp) :: ms.map (MaskEntry.without (runLanes s .exit f x k c sp)) ∧
      (q.mspill = [] ↔ sp.mspill = []) ∧ q.st = .ready ∧ q.join = sp.join ∧ q.clock = sp.clock + 1 := by
    obtain ⟨-, -, -, -, ready, -⟩ := State.issuer_some h.issuer
    rw [is.lanes]
    exact ⟨gone, by simp [Split.losing, stack], by simp [Split.losing], ready, rfl, rfl⟩
  obtain ⟨mask, stack', spill, ready, join, clock⟩ := rest
  let p := popInto true (e.without (runLanes s .exit f x k c sp)) { q with mstack := ms.map (MaskEntry.without (runLanes s .exit f x k c sp)) }
  have popped : p.pc = (popInto true (e.without (runLanes s .exit f x k c sp)) sp).pc ∧
      p.mask = (popInto true (e.without (runLanes s .exit f x k c sp)) sp).mask ∧
      p.fmt = (popInto true (e.without (runLanes s .exit f x k c sp)) sp).fmt ∧ p.clock = q.clock ∧ p.join = q.join ∧ p.st = q.st ∧
      p.mstack = ms.map (MaskEntry.without (runLanes s .exit f x k c sp)) := by
    cases e <;> exact ⟨rfl, rfl, rfl, rfl, rfl, rfl, rfl⟩
  obtain ⟨pc', mask', fmt', clock', join', st', stack''⟩ := popped
  have near' : ms.map (MaskEntry.without (runLanes s .exit f x k c sp)) ≠ [] ∨ q.mspill = [] :=
    near.imp (fun some => by simpa using some) spill.2
  obtain ⟨t, next, crew, -, -, only⟩ := finish (v.setSplit k p)
    (fun g2 at2 n => emptySplit_pops at2 is.split mask stack' near' (mask' ▸ left) n) (is.arriving.trans arriving) is.team
    ((is.free free).setSplit k (by rw [st', ready]; decide)) is.st
  obtain ⟨whole, only⟩ := only (Tab.ne_nil_of_find (Tab.find_put_same ..))
  exact ⟨t, v.setSplit k p, p, next, only, whole ▸ crew, is.st, is.exited, is.regs.v, is.regs.s, is.regs.p, is.regs.lay, Crew.split?_setSplit .., pc', mask', fmt',
    clock'.trans clock, join'.trans join, stack''⟩

/-- Split entry `i` waits at join record `j` beside the one that exits. -/
def Crew.WaitsBeside (c : Crew) (k j i : Nat) (q : Split) : Prop := i ≠ k ∧ c.split? i = some q ∧ q.st = .mergeWait ∧ q.join = some j

theorem Crew.Left.waitsAt {run : Lanes} {v : Crew} {q : Split} (is : Crew.Left c k sp run v q) {j i : Nat} {p : Split} :
    (v.freed k).WaitsAt j i p ↔ ∃ p0, c.WaitsBeside k j i p0 ∧ p = { p0 with latchA := none, latchB := none } := by
  unfold Crew.WaitsAt Crew.WaitsBeside
  by_cases own : i = k
  case pos =>
    subst own
    have none : (v.freed i).split? i = none := Tab.find_del_same ..
    simp [none]
  case neg =>
    have other : (v.freed k).split? i = (c.split? i).map fun q => { q with latchA := none, latchB := none } :=
      (Tab.find_del_other v.splits own).trans (is.others i own)
    rw [other, Option.map_eq_some_iff]
    constructor
    · rintro ⟨⟨p0, found, rfl⟩, st, join⟩
      exact ⟨p0, ⟨own, found, st, join⟩, rfl⟩
    · rintro ⟨p0, ⟨-, found, st, join⟩, rfl⟩
      exact ⟨⟨p0, found, rfl⟩, st, join⟩

/-- The record counts one side less, or goes with its last one. -/
theorem exit_side (h : s.Executes .exit f x k c sp) (arriving : c.arriving = []) (free : c.FrameFree) (quiet : s.TeamQuiet c.team)
    (run : runLanes s .exit f x k c sp ≠ 0) (left : sp.mask &&& ~~~(runLanes s .exit f x k c sp) = 0) (stack : sp.mstack = []) {j : Nat} {r : JoinRec}
    (join : sp.join = some j) (record : Tab.find c.joins j = some r) (sorted : Tab.sorted c.splits = true)
    (alone : 1 < r.sides ∨ (r.parent = none ∧ ∀ i q, ¬ c.WaitsBeside k j i q)) :
    ∃ t c', exec (.exit f) s = .next t ∧ t.crew? x = some c' ∧ c'.exited = c.exited ||| runLanes s .exit f x k c sp ∧ c'.split? k = none ∧
      (∀ i, i ≠ k → c'.split? i = (c.split? i).map fun q => { q with latchA := none, latchB := none }) ∧
      Tab.find c'.joins j = if 1 < r.sides then some { r with sides := r.sides - 1 } else none := by
  obtain ⟨s1, v, q, is, finish⟩ := h.exits run quiet
  have gone : q.mask = 0 ∧ q.mstack = [] ∧ q.join = some j := by rw [is.lanes]; exact ⟨left, by rw [Split.losing, stack]; rfl, join⟩
  obtain ⟨mask, stack', join'⟩ := gone
  let js := if 1 < r.sides then Tab.put v.joins j { r with sides := r.sides - 1 } else Tab.del v.joins j
  have free' : Crew.FrameFree { v.freed k with joins := js } := (is.free free).del k
  have sides : (v.freed k).sideGone 4 (some j) = { v.freed k with joins := js } := by
    have found : Tab.find (v.freed k).joins j = some r := by rw [show (v.freed k).joins = c.joins from is.joins]; exact record
    unfold Crew.sideGone
    simp only [found, js]
    split
    case isTrue => rfl
    case isFalse last =>
      obtain ⟨parent, no⟩ := alone.resolve_left last
      have empty : (v.freed k).waitingAt j = [] := by
        refine List.eq_nil_iff_forall_not_mem.2 fun e he => ?_
        obtain ⟨p0, waits, -⟩ := is.waitsAt.1 ((Crew.mem_waitingAt (Tab.sorted_del _ _ (is.sorted sorted))).1 he)
        exact no _ _ waits
      rw [empty, parent]
      rfl
  obtain ⟨t, next, crew, -⟩ := finish { v.freed k with joins := js } (fun g2 at2 n => by
    have frees := emptySplit_frees at2 is.split mask stack' n
    rwa [join', show { v with splits := Tab.del v.splits k } = v.freed k from rfl, sides, free'.wake] at frees)
    (is.arriving.trans arriving) is.team free' is.st
  have drains : Crew.drainEmpty { v.freed k with joins := js } =
      { v.freed k with joins := js, st := if (v.freed k).splits.isEmpty then .draining else v.st } := by
    unfold Crew.drainEmpty
    dsimp only
    split <;> rfl
  rw [drains] at crew
  refine ⟨t, _, next, crew, is.exited, Tab.find_del_same .., fun i hi => (Tab.find_del_other v.splits hi).trans (is.others i hi), ?_⟩
  dsimp only [js]
  split
  · exact Tab.find_put_same ..
  · exact Tab.find_del_same ..

/-- The last side merges those that wait. -/
theorem exit_merges (h : s.Executes .exit f x k c sp) (arriving : c.arriving = []) (free : c.FrameFree) (quiet : s.TeamQuiet c.team)
    (run : runLanes s .exit f x k c sp ≠ 0) (left : sp.mask &&& ~~~(runLanes s .exit f x k c sp) = 0) (stack : sp.mstack = []) {j : Nat} {r : JoinRec}
    (join : sp.join = some j) (record : Tab.find c.joins j = some r) (sorted : Tab.sorted c.splits = true) (sides : r.sides ≤ 1) {lo : Nat} {q0 : Split}
    (low : c.WaitsBeside k j lo q0) (least : ∀ i q, c.WaitsBeside k j i q → lo ≤ i) :
    ∃ t c' sp', exec (.exit f) s = .next t ∧ OnlyCrew s t x ∧ t.crew? x = some c' ∧ c'.exited = c.exited ||| runLanes s .exit f x k c sp ∧
      c'.split? k = none ∧ Tab.find c'.joins j = none ∧ c'.split? lo = some sp' ∧ sp'.st = .ready ∧ sp'.fmt = r.fmt ∧ sp'.join = r.parent ∧
      sp'.pc = q0.pc ∧ ∀ l, hasLane sp'.mask l = true ↔ ∃ i q, c.WaitsBeside k j i q ∧ hasLane q.mask l = true := by
  obtain ⟨s1, v, q, is, finish⟩ := h.exits run quiet
  have gone : q.mask = 0 ∧ q.mstack = [] ∧ q.join = some j := by rw [is.lanes]; exact ⟨left, by rw [Split.losing, stack]; rfl, join⟩
  obtain ⟨mask, stack', join'⟩ := gone
  have sorted' : Tab.sorted (v.freed k).splits = true := Tab.sorted_del _ _ (is.sorted sorted)
  have low' := is.waitsAt.2 ⟨q0, low, rfl⟩
  obtain ⟨ss, sp', merges, split, st, fmt, parent, pc, lanes, -, -, absent, waitless⟩ := Crew.mergeAt_merges sorted' ((is.free free).del k)
    { r with sides := 0 } low' fun i p waits => by
      obtain ⟨p0, waits, -⟩ := is.waitsAt.1 waits
      exact least i p0 waits
  let e : Crew := { v.freed k with joins := Tab.del (v.freed k).joins j, splits := ss }
  have free' : e.FrameFree := waitless
  have sideGone : (v.freed k).sideGone 4 (some j) = e := by
    have found : Tab.find (v.freed k).joins j = some r := by rw [show (v.freed k).joins = c.joins from is.joins]; exact record
    have some : (v.freed k).waitingAt j ≠ [] := List.ne_nil_of_mem ((Crew.mem_waitingAt sorted' (e := (lo, _))).2 low')
    unfold Crew.sideGone
    simp only [found, if_neg (not_lt.2 sides)]
    rw [if_neg (by simpa using some)]
    exact merges
  obtain ⟨t, next, crew, -, -, only⟩ := finish e (fun g2 at2 n => by
    have frees := emptySplit_frees at2 is.split mask stack' n
    rwa [join', show { v with splits := Tab.del v.splits k } = v.freed k from rfl, sideGone, free'.wake] at frees)
    (is.arriving.trans arriving) is.team free' is.st
  obtain ⟨whole, only⟩ := only (Tab.ne_nil_of_find split)
  refine ⟨t, e, sp', next, only, whole ▸ crew, is.exited, absent k (Tab.find_del_same ..), Tab.find_del_same .., split, st, fmt, parent, pc, fun l => ?_⟩
  rw [lanes]
  constructor
  · rintro ⟨i, p, waits, lane⟩
    obtain ⟨p0, beside, rfl⟩ := is.waitsAt.1 waits
    exact ⟨i, p0, beside, lane⟩
  · rintro ⟨i, p0, waits, lane⟩
    exact ⟨i, _, is.waitsAt.2 ⟨p0, waits, rfl⟩, lane⟩

end Exit

end Sys2Proof.Machine
end

section
/-! SUPPORT. A range that lies on this module by its context's tables, as the engines of the model check and read it (R220, R262, R433). -/

namespace Sys2Proof.Machine

open Sys2Proof

variable {s0 : State}

/-- The state differs from `s` in what translation units hold only. -/
def OnlyTlbs (s u : State) : Prop := u = { s with tlbs := u.tlbs }

theorem OnlyTlbs.refl (s : State) : OnlyTlbs s s := rfl

theorem OnlyTlbs.trans {s t u : State} (h : OnlyTlbs s t) (h' : OnlyTlbs t u) : OnlyTlbs s u := by
  unfold OnlyTlbs at h h' ⊢
  rw [h', h]

theorem fillTlbs_only (vs : List Nat) (e : TlbEntry) (g : Go s0) : OnlyTlbs g.st (fillTlbs g vs e).st :=
  Go.each_keeps (P := OnlyTlbs g.st) (f := fun u g => g.put (.tlb u (g.st.tlbAdd u e))) (fun _ _ _ h => h.trans rfl) g (.refl _)

theorem translate_only (g : Go s0) (us : List Nat) (ctx a : Nat) : OnlyTlbs g.st (translate g us ctx a).2.st := by
  simp only [translate]
  split
  · exact .refl _
  · split
    · exact fillTlbs_only ..
    · exact .refl _

theorem State.bytesAt_of_mem {s u : State} (h : u.mem = s.mem) (k n : Nat) : u.bytesAt k n = s.bytesAt k n := by
  induction n generalizing k with
  | zero => rfl
  | succ n ih => rw [State.bytesAt, State.bytesAt, h, ih]

/-- The page that a walk finds is whole 64 KiB pages. -/
theorem State.walk_size {s : State} {ctx va e size : Nat} (h : s.walk ctx va = .ok e size) : 65536 ∣ size ∧ 0 < size := by
  unfold State.walk at h
  split at h
  case isFalse => cases h
  case isTrue =>
    obtain ⟨-, l, hl, rfl, -⟩ := State.walkFrom_ok s ctx va walkLevels _ _ _ _ (by decide) h
    have shifts : ∀ l ∈ walkLevels, 16 ≤ l.shift := by decide
    exact ⟨Nat.pow_dvd_pow 2 (shifts l hl), Nat.two_pow_pos _⟩

/-- One page takes a range to its end or to a 64 KiB boundary. -/
theorem page_step {a n size fuel : Nat} (aligned : 65536 ∣ size) (pos : 0 < size) (enough : n + a % 65536 ≤ 65536 * (fuel + 1)) :
    let p := min n (size - a % 2 ^ 56 % size)
    n - p = 0 ∨ n - p + (a + p) % 2 ^ 64 % 65536 ≤ 65536 * fuel := by
  intro p
  by_cases all : n ≤ size - a % 2 ^ 56 % size
  case pos => left; omega
  case neg =>
    right
    obtain ⟨d, rfl⟩ := aligned
    have inside := Nat.mod_lt (a % 2 ^ 56) pos
    have low : a % 2 ^ 56 % (65536 * d) % 65536 = a % 65536 := by
      rw [Nat.mod_mul_right_mod, Nat.mod_mod_of_dvd _ (by decide)]
    have whole : (65536 * d - a % 2 ^ 56 % (65536 * d) + a % 65536) % 65536 = 0 := by omega
    have eq : p = 65536 * d - a % 2 ^ 56 % (65536 * d) := by omega
    have boundary : (a + p) % 2 ^ 64 % 65536 = 0 := by
      rw [Nat.mod_mod_of_dvd _ (by decide), Nat.add_mod, eq]
      omega
    rw [boundary]
    omega

/-- A range that passes its checks page by page passes them as the model makes them, and lies in the same pieces. -/
theorem rangePiecesDet_home {s : State} {us : List Nat} {ctx : Nat} {write det : Bool} {ps : Pieces} {a n fuel : Nat} (g : Go s0)
    (only : OnlyTlbs s g.st) (agree : g.st.UnitsAgree us ctx) (walks : ∀ va, g.st.walk ctx va = s.walk ctx va)
    (range : s.HomeRange ctx a n write det ps) (enough : n = 0 ∨ n + a % 65536 ≤ 65536 * fuel) :
    (rangePiecesDet g us ctx a n write det fuel).1 = ([], ps) ∧ OnlyTlbs s (rangePiecesDet g us ctx a n write det fuel).2.st := by
  induction ps generalizing a n fuel g with
  | nil =>
    obtain rfl : n = 0 := range
    cases fuel with
    | zero => exact ⟨rfl, only⟩
    | succ fuel => simp only [rangePiecesDet, if_true]; exact ⟨trivial, only⟩
  | cons p ps ih =>
    obtain ⟨some, bits, ⟨e, size, h, walk, leaf, piece, ro, tracked, tags⟩, rest⟩ := range
    have long := enough.resolve_left some.ne'
    obtain ⟨fuel, rfl⟩ : ∃ m, fuel = m + 1 := Nat.exists_eq_succ_of_ne_zero (by rintro rfl; omega)
    obtain ⟨answer, agree', walks'⟩ := translate_agree (g := g) a agree
    have only' := only.trans (translate_only g us ctx a)
    have found : (translate g us ctx a).1 = .ok e size := by rw [answer, walks]; exact walk
    obtain ⟨aligned, pos⟩ := State.walk_size walk
    have len : p.len = min n (size - a % 2 ^ 56 % size) := by rw [piece]
    have next := ih (translate g us ctx a).2 only' agree' (fun va => (walks' va).trans (walks va)) rest
      (by rw [len]; exact page_step aligned pos long)
    have readable : ((write && pteRo e) || (det && pteType e != 2 && !pteDet e)) = false := by
      cases write <;> cases det <;> simp_all
    have tagged : (pteTagen e && (translate g us ctx a).2.st.tagClash h (min n (size - va56 a % size)) (bitf a 60 4)) = false := by
      cases tagen : pteTagen e with
      | false => rfl
      | true =>
        have clash := tags tagen
        rw [len] at clash
        have same : ∀ k n tag, (translate g us ctx a).2.st.tagClash k n tag = s.tagClash k n tag := fun k n tag => by
          unfold State.tagClash
          rw [only']
        rw [same]
        exact clash
    rw [len] at next
    rw [rangePiecesDet, if_neg some.ne', if_neg (by simpa [bitf] using bits)]
    rw [show translate g us ctx a = (.ok e size, (translate g us ctx a).2) from Prod.ext found rfl]
    simp only [va56] at tagged next ⊢
    simp only [leaf, readable, tagged, Bool.false_eq_true, if_false, next.1, List.append_nil]
    exact ⟨by rw [piece], next.2⟩

theorem rangeOf_home {s : State} {us : List Nat} {ctx : Nat} {write det : Bool} {ps : Pieces} {a n : Nat} (g : Go s0)
    (only : OnlyTlbs s g.st) (agree : g.st.UnitsAgree us ctx) (walks : ∀ va, g.st.walk ctx va = s.walk ctx va)
    (range : s.HomeRange ctx a n write det ps) :
    (rangeOf g us ctx a n write det).1 = .ok ps ∧ OnlyTlbs s (rangeOf g us ctx a n write det).2.st := by
  obtain ⟨pieces, only'⟩ := rangePiecesDet_home g only agree walks range (fuel := n / 2 ^ 16 + 2) (by right; omega)
  unfold rangeOf
  rw [show rangePiecesDet g us ctx a n write det (n / 2 ^ 16 + 2) = (([], ps), (rangePiecesDet g us ctx a n write det (n / 2 ^ 16 + 2)).2) from
    Prod.ext pieces rfl]
  exact ⟨rfl, only'⟩

theorem homeRange_near {s : State} {ctx a n : Nat} {write det : Bool} {ps : Pieces} (range : s.HomeRange ctx a n write det ps) :
    ∀ p ∈ ps, Loc.isFar p.loc = false := by
  induction ps generalizing a n with
  | nil => simp
  | cons p ps ih =>
    obtain ⟨-, -, ⟨e, size, h, -, -, piece, -⟩, rest⟩ := range
    intro q hq
    rcases List.mem_cons.1 hq with rfl | hq
    · rw [piece]; rfl
    · exact ih rest q hq

end Sys2Proof.Machine
end

section
/-! SUPPORT. O17: the merge check of a split, and the raised priority (R46, R48, R65). -/

namespace Sys2Proof.Machine

open Sys2Proof

variable {s0 : State}

section Merge

variable {s : State} {x k : Nat} {c : Crew} {sp : Split}

theorem execMerge_due (crew : s.crew? x = some c) (split : c.split? k = some sp) (run : c.st = .running) (ready : sp.st = .ready)
    (due : c.mergeDue sp = true) : exec (.merge x k) s = (mergeBody (Go.start s) x k c sp).done := by
  show execMerge x k s = _
  unfold execMerge
  simp only [crew, split, run, ready, due, decide_true, Bool.and_self, if_true]

/-- The merge check ends at a split whose top entry and record are not due. -/
theorem mergeCheck_ends {g : Go s0} {v : Crew} {q : Split} (crew : g.st.crew? x = some v) (split : v.split? k = some q) (due : v.mergeDue q = false)
    (n : Nat) : mergeCheck g x k n = (.ok (), g) := by
  cases n with
  | zero => rfl
  | succ n =>
    rw [Crew.mergeDue, Bool.or_eq_false_iff] at due
    obtain ⟨stack, record⟩ := due
    rw [mergeCheck]
    simp only [crew, split, stack, Bool.false_eq_true, if_false]
    cases join : q.join with
    | none => rfl
    | some j =>
      cases found : Tab.find v.joins j with
      | none => simp only [Option.bind_some, found, Option.map_none]
      | some r =>
        simp only [join, Option.bind_some, found, Bool.and_eq_false_iff, beq_eq_false_iff_ne, ne_eq] at record
        simp only [Option.bind_some, found, Option.map_some]
        rw [if_neg]
        simp only [Bool.and_eq_true, decide_eq_true_eq]
        rintro ⟨⟨pc, base⟩, depth⟩
        exact record.elim (fun h => h.elim (absurd pc) (absurd base)) (absurd depth)

/-- The top entry is due (R46). -/
def MaskEntry.dueAt (e : MaskEntry) (sp : Split) : Prop :=
  match e with
  | .path _ l m _ b => m = sp.pc ∧ b = sp.wbase ∧ l ≠ 0
  | .rj m l _ b => m = sp.pc ∧ b = sp.wbase ∧ l ≠ 0

theorem MaskEntry.dueAt_mask {e : MaskEntry} (h : e.dueAt sp) (q : Split) : (popInto false e q).mask ≠ 0 := by
  cases e with
  | path => exact h.2.2
  | rj => exact h.2.2

/-- The merge point of an entry. -/
def MaskEntry.mergePoint : MaskEntry → BitVec 56
  | .path _ _ m _ _ => m
  | .rj m _ _ _ => m

/-- The check pops an entry that is due, from a popped stack on. -/
theorem mergeCheck_pops {s1 : State} {g g1 : Go s} {v w : Crew} {q p : Split} {e : MaskEntry} {ms : List MaskEntry} (crew : g.st.crew? x = some v)
    (split : v.split? k = some q) (stack : q.mstack = e :: ms) (due : e.dueAt q) (pop : popMask g x k = (.ok (some e), g1)) (at1 : AtCrew s1 x w g1.st)
    (split' : w.split? k = some p) (ends : (w.setSplit k (popInto false e p)).mergeDue (popInto false e p) = false) (n : Nat) :
    ∃ g', mergeCheck g x k (n + 1) = (.ok (), g') ∧ AtCrew s1 x (w.setSplit k (popInto false e p)) g'.st := by
  have at2 := at1.modSplit split' (popInto false e)
  refine ⟨_, ?_, at2⟩
  have stays := emptySplit_stays at2 (Crew.split?_setSplit ..) (MaskEntry.dueAt_mask due p) (n + 1)
  have rest := mergeCheck_ends at2.crew (Crew.split?_setSplit ..) ends n
  rw [mergeCheck]
  cases e with
  | path tgt l m fm b =>
    obtain ⟨rfl, rfl, -⟩ := due
    simpa only [crew, split, stack, beq_self_eq_true, Bool.and_self, if_true, pop, stays] using rest
  | rj m l fm b =>
    obtain ⟨rfl, rfl, -⟩ := due
    simpa only [crew, split, stack, beq_self_eq_true, Bool.and_self, if_true, pop, stays] using rest

theorem Crew.mergeDue_top {e : MaskEntry} {ms : List MaskEntry} (stack : sp.mstack = e :: ms) (due : e.dueAt sp) : c.mergeDue sp = true := by
  unfold Crew.mergeDue
  rw [stack]
  cases e with
  | path => simp [due.1, due.2.1]
  | rj => simp [due.1, due.2.1]

/-- A due entry of the mask stack gives its split what it holds. -/
theorem merge_pops (crew : s.crew? x = some c) (split : c.split? k = some sp) (run : c.st = .running) (ready : sp.st = .ready) (free : c.FrameFree)
    {e : MaskEntry} {ms : List MaskEntry} (stack : sp.mstack = e :: ms) (due : e.dueAt sp) (near : ms ≠ [] ∨ sp.mspill = [])
    (ends : (c.setSplit k (popInto false e { sp with mstack := ms })).mergeDue (popInto false e { sp with mstack := ms }) = false) :
    ∃ t, exec (.merge x k) s = .next t ∧ t = { s with crews := t.crews } ∧ t.crew? x = some (c.setSplit k (popInto false e { sp with mstack := ms })) := by
  have pop := popMask_top (g := Go.start s) crew split stack near
  have at1 := modSplit_at (g := Go.start s) crew split fun p => { p with mstack := ms }
  obtain ⟨g', checks, at2⟩ := mergeCheck_pops (g := Go.start s) crew split stack due pop at1 (Crew.split?_setSplit ..)
    (by rwa [Crew.setSplit_setSplit]) (sp.mstack.length + sp.mspill.length)
  rw [Crew.setSplit_setSplit] at at2
  have st : (popInto false e { sp with mstack := ms }).st = .ready := by cases e <;> exact ready
  have still := frameDeadlock_free at2.crew (free.setSplit k (by rw [st]; decide))
  have only : g'.st = { s with crews := g'.st.crews } := by rw [show g'.st = _ from at2]; rfl
  refine ⟨g'.st, (execMerge_due crew split run ready (Crew.mergeDue_top stack due)).trans ?_, only, at2.crew⟩
  rw [mergeBody, checks]
  dsimp only
  rw [still]
  rfl

/-! ### The refill -/

theorem Tab.map_put_congr {β γ : Type} (G : β → γ) (t : Table β) (k : Nat) {v w : β} (h : G v = G w) :
    (Tab.put t k v).map (fun e => G e.2) = (Tab.put t k w).map fun e => G e.2 := by
  induction t with
  | nil => simp [Tab.put, h]
  | cons e t ih =>
    obtain ⟨k', v'⟩ := e
    by_cases below : k < k'
    case pos => simp [Tab.put, below, h]
    case neg =>
      by_cases same : k = k'
      case pos => subst same; simp [Tab.put, h]
      case neg => simp [Tab.put, below, same, ih]

/-- Where the records end that a split has spilled. -/
def Split.spillEnds (q : Split) : List Nat :=
  (q.mspill.map fun r => r.base.toNat + r.bytes.length) ++ q.frames.filterMap fun f => f.spilled.map fun r => r.base.toNat + r.bytes.length

/-- Where the spill area ends depends on what splits have spilled only. -/
theorem Crew.spillEnd_setSplit (c : Crew) (k : Nat) {p q : Split} (spill : p.mspill = q.mspill) (frames : p.frames = q.frames) :
    (c.setSplit k p).spillEnd = (c.setSplit k q).spillEnd := by
  exact congrArg (fun ends : List (List Nat) => ends.flatten.foldl max c.stackBase.toNat)
    (Tab.map_put_congr Split.spillEnds c.splits k (by rw [Split.spillEnds, spill, frames, Split.spillEnds]))

/-- A record that lies at home and holds what was written comes back whole. -/
theorem spillRead_home {ctx : Nat} {base : BitVec 64} {bs : List Byte} {ps : Pieces} (hctx : c.ctx = ctx)
    (range : s.HomeRange ctx base.toNat bs.length false (s.dclass c) ps) (agree : s.UnitsAgree (coreUnits (x / 64)) ctx)
    (bytes : s.runBytes (homeRuns ps) = bs) : ∃ g1 : Go s, spillRead (Go.start s) x c base bs = (.ok true, g1) ∧ OnlyTlbs s g1.st := by
  obtain ⟨pieces, only⟩ := rangeOf_home (us := coreUnits (x / 64)) (Go.start s) (.refl s) agree (fun _ => rfl) range
  have near : (ps.any fun p => Loc.isFar p.loc) = false := by
    simpa only [List.any_eq_false, Bool.not_eq_true] using homeRange_near range
  refine ⟨_, ?_, only⟩
  have read : (rangeOf (Go.start s) (coreUnits (x / 64)) ctx base.toNat bs.length false (s.dclass c)).2.st.piecesBytes ps = bs := by
    refine Eq.trans ?_ bytes
    unfold State.piecesBytes State.runBytes
    congr 1
    exact List.map_congr_left fun r _ => State.bytesAt_of_mem (by rw [only]) _ _
  unfold spillRead
  rw [show rangeOf (Go.start s) (coreUnits (placeCore x)) c.ctx base.toNat bs.length false ((Go.start s).st.dclass c) =
    (.ok ps, (rangeOf (Go.start s) (coreUnits (x / 64)) ctx base.toNat bs.length false (s.dclass c)).2) from
      hctx ▸ Prod.ext (hctx ▸ pieces) rfl]
  simp only [offRelaunch, Pieces.off, near, Bool.false_eq_true, if_false, read, beq_self_eq_true]

/-- The last entry on the chip goes, and the one spilled last comes back (R48). -/
theorem merge_refills (crew : s.crew? x = some c) (split : c.split? k = some sp) (run : c.st = .running) (ready : sp.st = .ready) (free : c.FrameFree)
    {tgt : BitVec 56} {l : Lanes} {fm : BitVec 32} {b : Nat} {r : SpillRec MaskEntry} {rs : List (SpillRec MaskEntry)} {ps : Pieces}
    (stack : sp.mstack = [.path tgt l sp.pc fm b]) (base : b = sp.wbase) (lanes : l ≠ 0) (spill : sp.mspill = r :: rs)
    (record : ∀ j q, sp.join = some j → Tab.find c.joins j = some q → q.mergePc ≠ tgt)
    (range : s.HomeRange c.ctx r.base.toNat r.bytes.length false (s.dclass c) ps) (agree : s.UnitsAgree (coreUnits (x / 64)) c.ctx)
    (bytes : s.runBytes (homeRuns ps) = r.bytes) (kept : r.kept.mergePoint ≠ tgt) :
    let sq := { sp with pc := tgt, mask := l, fmt := fm, mstack := [r.kept], mspill := rs, latchA := none, latchB := none }
    ∃ t, exec (.merge x k) s = .next t ∧ t.mem = s.mem ∧ t.teams = s.teams ∧ (∀ y, y ≠ x → t.crew? y = s.crew? y) ∧
      t.crew? x = some { c.setSplit k sq with spillTop := BitVec.ofNat 64 (c.setSplit k sq).spillEnd } := by
  intro sq
  let e : MaskEntry := .path tgt l sp.pc fm b
  let p : Split := { sp with mstack := [r.kept], mspill := rs }
  let w : Crew := { c.setSplit k p with spillTop := BitVec.ofNat 64 (c.setSplit k p).spillEnd }
  have due : e.dueAt sp := ⟨rfl, base, lanes⟩
  obtain ⟨g1, reads, only⟩ := spillRead_home rfl range agree bytes
  have crew1 : g1.st.crew? x = some c := by rw [only]; exact crew
  have pop : popMask (Go.start s) x k = (.ok (some e), modCrew g1 x fun c =>
      { c.setSplit k p with spillTop := BitVec.ofNat 64 (c.setSplit k p).spillEnd }) := by
    unfold popMask
    simp only [Go.start_st, crew, split, stack, spill, reads, if_true]
    rfl
  have at1 : AtCrew g1.st x w (modCrew g1 x fun c => { c.setSplit k p with spillTop := BitVec.ofNat 64 (c.setSplit k p).spillEnd }).st :=
    modCrew_at crew1 _
  have splitW : w.split? k = some p := Crew.split?_setSplit ..
  have ends : (w.setSplit k (popInto false e p)).mergeDue (popInto false e p) = false := by
    rw [Crew.mergeDue, Bool.or_eq_false_iff]
    constructor
    · show (match [r.kept] with
        | .path _ _ m _ b :: _ => m == tgt && b == sp.wbase
        | .rj m _ _ b :: _ => m == tgt && b == sp.wbase
        | [] => false) = false
      cases top : r.kept with
      | path => rw [top, MaskEntry.mergePoint] at kept; simp [kept]
      | rj => rw [top, MaskEntry.mergePoint] at kept; simp [kept]
    · show (match sp.join.bind fun j => Tab.find c.joins j with
        | some r => tgt == r.mergePc && sp.wbase == r.base && sp.depth == r.depth
        | none => false) = false
      cases join : sp.join with
      | none => rfl
      | some j =>
        cases found : Tab.find c.joins j with
        | none => simp [found]
        | some q => simp [found, (record j q join found).symm]
  obtain ⟨g', checks, at2⟩ := mergeCheck_pops (g := Go.start s) crew split stack due pop at1 splitW ends (sp.mstack.length + sp.mspill.length)
  have crewE : w.setSplit k (popInto false e p) = { c.setSplit k sq with spillTop := BitVec.ofNat 64 (c.setSplit k sq).spillEnd } := by
    rw [← Crew.spillEnd_setSplit c k (p := p) (q := sq) rfl rfl]
    simp only [w, Crew.setSplit, Tab.put_put]
    rfl
  rw [crewE] at at2
  have still := frameDeadlock_free at2.crew (free.setSplit k (q := sq) (by rw [show sq.st = .ready from ready]; decide))
  have state : g'.st = { g1.st with crews := Tab.put g1.st.crews x { c.setSplit k sq with spillTop := BitVec.ofNat 64 (c.setSplit k sq).spillEnd } } := at2
  refine ⟨g'.st, (execMerge_due crew split run ready (Crew.mergeDue_top stack due)).trans ?_, by rw [state, only], by rw [state, only],
    fun y hy => ?_, at2.crew⟩
  · rw [mergeBody, checks]
    dsimp only
    rw [still]
    rfl
  · rw [state, only]
    exact Tab.find_put_other _ _ hy

/-! ### The join record -/

/-- The split waits at its record, which counts one side less. -/
def Crew.sideIn (c : Crew) (k : Nat) (sp : Split) (j : Nat) (r : JoinRec) : Crew :=
  { c with joins := Tab.put c.joins j { r with sides := r.sides - 1 } }.setSplit k { sp with st := .mergeWait, latchA := none, latchB := none }

theorem Crew.FrameFree.sideIn (free : c.FrameFree) (k : Nat) (sp : Split) (j : Nat) (r : JoinRec) : (c.sideIn k sp j r).FrameFree :=
  Crew.FrameFree.setSplit (c := { c with joins := _ }) free k (by simp)

/-- At its record's merge point, base and depth a split comes to rest there. -/
theorem merge_reaches {j : Nat} {r : JoinRec} {w : Crew} (crew : s.crew? x = some c) (split : c.split? k = some sp) (run : c.st = .running)
    (ready : sp.st = .ready) (stack : sp.mstack = []) (join : sp.join = some j) (record : Tab.find c.joins j = some r) (pc : sp.pc = r.mergePc)
    (base : sp.wbase = r.base) (depth : sp.depth = r.depth)
    (last : (if r.sides - 1 = 0 then (c.sideIn k sp j r).mergeAt j { r with sides := r.sides - 1 } else c.sideIn k sp j r) = w) (free : w.FrameFree) :
    ∃ t, exec (.merge x k) s = .next t ∧ t = { s with crews := t.crews } ∧ t.crew? x = some w := by
  have due : c.mergeDue sp = true := by simp [Crew.mergeDue, stack, join, record, pc, base, depth]
  have at1 : AtCrew s x w ((Go.start s).put (.crew x (some w))).st := rfl
  have checks : mergeCheck (Go.start s) x k (sp.mspill.length + 1) = (.ok (), (Go.start s).put (.crew x (some w))) := by
    rw [mergeCheck]
    simp only [Go.start_st, crew, split, stack, join, Option.bind_some, record, Option.map_some, pc, base, depth, decide_true, Bool.and_self, if_true,
      Bool.false_eq_true, if_false, ← last, Crew.sideIn]
  refine ⟨_, (execMerge_due crew split run ready due).trans ?_, rfl, at1.crew⟩
  rw [mergeBody, stack, List.length_nil, Nat.zero_add, checks]
  dsimp only
  rw [frameDeadlock_free at1.crew free]
  rfl

/-- A split whose siblings are still out waits. -/
theorem merge_waits {j : Nat} {r : JoinRec} (crew : s.crew? x = some c) (split : c.split? k = some sp) (run : c.st = .running)
    (ready : sp.st = .ready) (free : c.FrameFree) (stack : sp.mstack = []) (join : sp.join = some j) (record : Tab.find c.joins j = some r)
    (pc : sp.pc = r.mergePc) (base : sp.wbase = r.base) (depth : sp.depth = r.depth) (sides : 1 < r.sides) :
    ∃ t, exec (.merge x k) s = .next t ∧ t = { s with crews := t.crews } ∧ t.crew? x = some (c.sideIn k sp j r) :=
  merge_reaches crew split run ready stack join record pc base depth (if_neg (by omega)) (free.sideIn k sp j r)

/-- Split entry `i` waits at join record `j`, or is the one that reaches it. -/
def Crew.WaitsWith (c : Crew) (k : Nat) (sp : Split) (j i : Nat) (q : Split) : Prop :=
  (i = k ∧ q = sp) ∨ (i ≠ k ∧ c.split? i = some q ∧ q.st = .mergeWait ∧ q.join = some j)

theorem Crew.sideIn_waitsAt {j : Nat} {r : JoinRec} (join : sp.join = some j) {i : Nat} {q : Split} :
    (c.sideIn k sp j r).WaitsAt j i q ↔ ∃ q0, c.WaitsWith k sp j i q0 ∧
      q = if i = k then { q0 with st := .mergeWait, latchA := none, latchB := none } else q0 := by
  unfold Crew.WaitsAt Crew.WaitsWith Crew.sideIn
  by_cases own : i = k
  case pos =>
    subst own
    rw [Crew.split?_setSplit]
    simp only [Option.some.injEq, true_and, ne_eq, not_true_eq_false, false_and, or_false, if_true, exists_eq_left]
    exact ⟨fun h => h.1.symm, fun h => by subst h; exact ⟨rfl, rfl, join⟩⟩
  case neg =>
    rw [Crew.split?_setSplit_other _ _ own]
    simp only [own, ne_eq, not_false_eq_true, false_and, true_and, false_or, if_false]
    exact ⟨fun h => ⟨q, h, rfl⟩, fun ⟨q0, h, eq⟩ => eq ▸ h⟩

/-- The last side merges all that wait into the lowest entry. -/
theorem merge_merges {j lo : Nat} {q0 : Split} {r : JoinRec} (crew : s.crew? x = some c) (split : c.split? k = some sp) (run : c.st = .running)
    (ready : sp.st = .ready) (free : c.FrameFree) (stack : sp.mstack = []) (join : sp.join = some j) (record : Tab.find c.joins j = some r)
    (pc : sp.pc = r.mergePc) (base : sp.wbase = r.base) (depth : sp.depth = r.depth) (sides : r.sides = 1) (sorted : Tab.sorted c.splits = true)
    (low : c.WaitsWith k sp j lo q0) (least : ∀ i q, c.WaitsWith k sp j i q → lo ≤ i) :
    ∃ t c' sp', exec (.merge x k) s = .next t ∧ t = { s with crews := t.crews } ∧ t.crew? x = some c' ∧ Tab.find c'.joins j = none ∧
      c'.split? lo = some sp' ∧ sp'.st = .ready ∧ sp'.fmt = r.fmt ∧ sp'.join = r.parent ∧ sp'.pc = q0.pc ∧
      (∀ l, hasLane sp'.mask l = true ↔ ∃ i q, c.WaitsWith k sp j i q ∧ hasLane q.mask l = true) ∧
      (∀ i q, c.WaitsWith k sp j i q → q.clock ≤ sp'.clock ∧ (i ≠ lo → c'.split? i = none)) ∧
      ∃ i q, c.WaitsWith k sp j i q ∧ sp'.clock = q.clock := by
  have waits : ∀ i q, (c.sideIn k sp j r).WaitsAt j i q → ∃ q0, c.WaitsWith k sp j i q0 ∧ q0.mask = q.mask ∧ q0.clock = q.clock := by
    intro i q h
    obtain ⟨p, waits, rfl⟩ := (Crew.sideIn_waitsAt join).1 h
    exact ⟨p, waits, by split <;> rfl, by split <;> rfl⟩
  have waits' : ∀ i q, c.WaitsWith k sp j i q → ∃ p, (c.sideIn k sp j r).WaitsAt j i p ∧ p.mask = q.mask ∧ p.clock = q.clock ∧ p.pc = q.pc :=
    fun i q h => ⟨_, (Crew.sideIn_waitsAt join).2 ⟨q, h, rfl⟩, by split <;> rfl, by split <;> rfl, by split <;> rfl⟩
  obtain ⟨p0, low', -, -, pc0⟩ := waits' lo q0 low
  obtain ⟨ss, sp', merges, split', st, fmt, parent, pc', lanes, each, largest, -, waitless⟩ :=
    Crew.mergeAt_merges (c := c.sideIn k sp j r) (Tab.sorted_put _ _ _ sorted) (free.sideIn k sp j r) { r with sides := r.sides - 1 } low' fun i q h => by
      obtain ⟨p, h, -⟩ := waits i q h
      exact least i p h
  obtain ⟨t, next, only, crew'⟩ := merge_reaches crew split run ready stack join record pc base depth ((if_pos (by omega)).trans merges) waitless
  refine ⟨t, _, sp', next, only, crew', Tab.find_del_same .., split', st, fmt, parent, pc'.trans pc0, fun l => ?_, fun i q h => ?_, ?_⟩
  · rw [lanes]
    constructor
    · rintro ⟨i, q, h, lane⟩
      obtain ⟨p, h, mask, -⟩ := waits i q h
      exact ⟨i, p, h, mask ▸ lane⟩
    · rintro ⟨i, q, h, lane⟩
      obtain ⟨p, h, mask, -⟩ := waits' i q h
      exact ⟨i, p, h, mask ▸ lane⟩
  · obtain ⟨p, h, -, clock, -⟩ := waits' i q h
    exact clock ▸ each i p h
  · obtain ⟨i, q, h, eq⟩ := largest
    obtain ⟨p, h, -, clock⟩ := waits i q h
    exact ⟨i, p, h, eq.trans clock.symm⟩

theorem priorityBoost_boosts (crew : s.crew? x = some c) (ready : c.ready = true) (runs : s.teamRuns c = true) (fresh : c.boosted = false)
    (passed : c.passed + 256 ≤ Tab.get 0 s.cycles (x / 8)) :
    ∃ t, exec (.priorityBoost x) s = .next t ∧ t = { s with crews := t.crews } ∧ t.crew? x = some { c with boosted := true } := by
  have at1 : AtCrew s x { c with boosted := true } (modCrew (Go.start s) x fun c => { c with boosted := true }).st := modCrew_at crew _
  refine ⟨_, ?_, by rw [show _ = _ from at1], at1.crew⟩
  show execPriorityBoost x s = _
  unfold execPriorityBoost
  simp only [crew, ready, runs, fresh, Bool.not_false, Bool.and_true, passed, decide_true, if_true]
  rfl

end Merge

end Sys2Proof.Machine
end

section
/-! THEOREM. O17: yield, exit, the merge check and the raised priority. -/

namespace Sys2Proof

open Machine

/-- Settles O17, clause by clause: what `exit` makes of its split is `exit_some`, `exit_last`, `exit_pops`, `exit_side` and `exit_merges`, what a
merge check makes of it is `merge_pops`, `merge_refills`, `merge_waits` and `merge_merges`. -/
theorem exitsMergesAndBoosts : Obligations.ExitsMergesAndBoosts := by
  unfold Obligations.ExitsMergesAndBoosts
  refine ⟨fun f s x k c sp => ⟨fun h => yield_retires h, fun h arriving free quiet => ?_⟩, fun s x k c sp crew split run ready free => ?_⟩
  · refine ⟨fun none => h.goesOn rfl (if_pos none), exit_some h arriving free quiet, exit_last h arriving free quiet, fun e ms run gone stack near => ?_,
      fun j r run gone stack join record sorted => ⟨fun alone => exit_side h arriving free quiet run gone stack join record sorted
          (alone.imp_right fun ⟨parent, no⟩ => ⟨parent, fun i q ⟨other, split, st, rec⟩ => no i q other split st rec⟩),
        fun sides lo q0 low least =>
          exit_merges h arriving free quiet run gone stack join record sorted sides low least⟩⟩
    cases e with
    | path => exact exit_pops h arriving free quiet run gone stack near
    | rj => exact exit_pops h arriving free quiet run gone stack near
  · refine ⟨fun e ms stack => ?_, fun tgt l b fm r rs ps stack base lanes _ spill record range agree bytes kept => ?_,
      fun j r stack join record pc base depth => ⟨fun sides => ?_, fun sides sorted lo q0 low least =>
        merge_merges crew split run ready free stack join record pc base depth sides sorted low least⟩,
      priorityBoost_boosts crew⟩
    · cases e with
      | path => exact fun due near => merge_pops crew split run ready free stack due near
      | rj => exact fun due near => merge_pops crew split run ready free stack due near
    · refine merge_refills crew split run ready free stack base lanes spill record range agree bytes ?_
      cases top : r.kept with
      | path => rw [top] at kept; exact kept
      | rj => rw [top] at kept; exact kept
    · obtain ⟨t, next, only, crew'⟩ := merge_waits crew split run ready free stack join record pc base depth sides
      exact ⟨t, _, _, next, only, crew', Crew.split?_setSplit .., rfl, rfl, rfl, Tab.find_put_same ..⟩

end Sys2Proof
end

section
/-! SUPPORT. Stores at home by an agent, and fault records on their way to memory (R103, R119, R381, R383). -/

namespace Sys2Proof.Machine

open Sys2Proof

variable {s0 : State}

/-! ### Stores at home -/

/-- A crew without its store queue. -/
def Crew.unstored (c : Crew) : Crew := { c with storeq := [] }

/-- The crews of `u` are those of `s` but for what their store queues hold. -/
structure StoresOnly (s u : State) : Prop where
  listed : ∀ e ∈ u.crews, ∃ d, (e.1, d) ∈ s.crews ∧ e.2.unstored = d.unstored
  found  : ∀ y, (u.crew? y).map Crew.unstored = (s.crew? y).map Crew.unstored
  sorted : Tab.sorted s.crews = true → Tab.sorted u.crews = true

theorem StoresOnly.of_eq {s u : State} (h : u.crews = s.crews) : StoresOnly s u :=
  ⟨fun e he => ⟨e.2, h ▸ he, rfl⟩, fun y => by rw [State.crew?, h, State.crew?], fun ht => h ▸ ht⟩

theorem StoresOnly.trans {s t u : State} (h : StoresOnly s t) (h' : StoresOnly t u) : StoresOnly s u :=
  ⟨fun e he => by
    obtain ⟨d, hd, eq⟩ := h'.listed e he
    obtain ⟨d', hd', eq'⟩ := h.listed _ hd
    exact ⟨d', hd', eq.trans eq'⟩, fun y => (h'.found y).trans (h.found y), h'.sorted ∘ h.sorted⟩

/-- A change of a crew's store queue. -/
theorem StoresOnly.modCrew (g : Go s0) (x : Nat) {F : Crew → Crew} (hF : ∀ c, (F c).unstored = c.unstored) : StoresOnly g.st (modCrew g x F).st := by
  cases crew : g.st.crew? x with
  | none => simp only [Machine.modCrew, crew]; exact .of_eq rfl
  | some c =>
    rw [modCrew_some g F crew, Go.put_st]
    refine ⟨fun e he => ?_, fun y => ?_, Tab.sorted_put _ _ _⟩
    · rcases Tab.mem_put he with rfl | old
      · exact ⟨c, Tab.mem_of_find crew, hF c⟩
      · exact ⟨e.2, old, rfl⟩
    · by_cases own : y = x
      case pos => subst own; rw [State.crew?_put, crew, Option.map_some, Option.map_some, hF]
      case neg => rw [State.crew?_put_other _ _ own]

theorem modCrew_only (g : Go s0) (x : Nat) (F : Crew → Crew) : (modCrew g x F).st = { g.st with crews := (modCrew g x F).st.crews } := by
  unfold modCrew
  split <;> rfl

/-- The end of a lease changes its line, and store queues. -/
structure LeasesOnly (s u : State) : Prop where
  state : u = { s with lines := u.lines, crews := u.crews }
  crews : StoresOnly s u

theorem LeasesOnly.refl (s : State) : LeasesOnly s s := ⟨rfl, .of_eq rfl⟩
theorem LeasesOnly.trans {s t u : State} (h : LeasesOnly s t) (h' : LeasesOnly t u) : LeasesOnly s u :=
  ⟨by rw [h'.state, h.state], h.crews.trans h'.crews⟩

theorem settleLease_only (g : Go s0) (ln core : Nat) : LeasesOnly g.st (settleLease g ln core).st := by
  have ends : LeasesOnly g.st (endLease g ln).st := by
    unfold endLease
    split
    case h_1 => exact .refl _
    case h_2 =>
      refine Go.each_keeps (P := LeasesOnly g.st) (fun e _ g' h => ?_) _ ⟨rfl, .of_eq rfl⟩
      exact h.trans ⟨by rw [modCrew_only], .modCrew _ _ fun c => rfl⟩
  unfold settleLease
  split
  · split
    · exact ends
    · exact .refl _
  · exact .refl _

/-- Bytes have been stored at home: of the rest nothing but what every store there changes has changed. -/
structure HomeWritten (s u : State) (cells : List (Nat × Byte)) : Prop where
  state : u = { s with mem := u.mem, poison := u.poison, wlog := u.wlog, lines := u.lines, crews := u.crews }
  mem   : u.mem = putBytes s.mem cells
  crews : StoresOnly s u

theorem homeStore_writes (g : Go s0) (by_ : By) (cells : List (Nat × Byte)) : HomeWritten g.st (homeStore g by_ cells).st cells := by
  have settled : ∀ lns : List Nat, LeasesOnly g.st (g.each lns fun ln g => settleLease g ln by_.core).st := fun lns =>
    Go.each_keeps (P := LeasesOnly g.st) (fun ln _ g' h => h.trans (settleLease_only g' ln _)) g (.refl _)
  have bytes : ∀ (cells : List (Nat × Byte)) (g : Go s0), (g.each cells fun e g => (g.put (.mem e.1 e.2)).put (.poison e.1 false)).st =
      { g.st with mem := putBytes g.st.mem cells, poison := (g.each cells fun e g => (g.put (.mem e.1 e.2)).put (.poison e.1 false)).st.poison } := by
    intro cells
    induction cells with
    | nil => exact fun _ => rfl
    | cons e cells ih => exact fun g => (ih _).trans rfl
  have stored : ∀ g : Go s0, HomeWritten g.st (homeCells g by_ cells).st cells := fun g => by
    unfold homeCells
    refine Go.each_keeps (P := fun u => HomeWritten g.st u cells) (fun _ _ g' h => ?_) _ ?_
    · exact ⟨by rw [Go.put_st, h.state]; rfl, h.mem, h.crews.trans (.of_eq rfl)⟩
    · exact ⟨by rw [bytes], by rw [bytes], .of_eq (by rw [bytes])⟩
  have first := settled (distinct (cells.map fun e => lineOf e.1))
  have second := stored (g.each (distinct (cells.map fun e => lineOf e.1)) fun ln g => settleLease g ln by_.core)
  unfold homeStore
  refine Go.each_keeps (P := fun u => HomeWritten g.st u cells) (fun _ _ g' h => ?_) _ ⟨?_, ?_, ?_⟩
  · exact ⟨by rw [Go.put_st, h.state]; rfl, h.mem, h.crews.trans (.of_eq rfl)⟩
  · rw [second.state, first.state]
  · rw [second.mem, first.state]
  · exact first.crews.trans second.crews

/-- A byte after a store of contiguous bytes. -/
theorem HomeWritten.byte {s u : State} {k : Nat} {bs : List Byte} (h : HomeWritten s u (cellsFrom k bs)) (b : Nat) :
    u.byte b = if k ≤ b ∧ b < k + bs.length then bs.getD (b - k) 0 else s.byte b := by
  unfold State.byte
  rw [h.mem, get_putBytes_cellsFrom]

end Sys2Proof.Machine
end

section
/-! SUPPORT. Attempts to write fault records to their ring, and what they leave of memory and of the crews (R379, R381, R383). -/

namespace Sys2Proof.Machine

open Sys2Proof

variable {s0 : State}

/-- Of the state nothing has changed but what the delivery of fault records does. -/
def RecordsOnly (s u : State) : Prop :=
  u = { s with mem := u.mem, poison := u.poison, wlog := u.wlog, lines := u.lines, tlbs := u.tlbs, crews := u.crews, ctxs := u.ctxs
               wctxs := u.wctxs, outbox := u.outbox }

theorem RecordsOnly.refl (s : State) : RecordsOnly s s := rfl

theorem RecordsOnly.trans {s t u : State} (h : RecordsOnly s t) (h' : RecordsOnly t u) : RecordsOnly s u := by
  unfold RecordsOnly at h h' ⊢
  rw [h', h]

theorem OnlyTlbs.records {s u : State} (h : OnlyTlbs s u) : RecordsOnly s u := by
  unfold RecordsOnly
  rw [h]

theorem RecordsOnly.modCrew (g : Go s0) (x : Nat) (F : Crew → Crew) : RecordsOnly g.st (modCrew g x F).st := by
  unfold RecordsOnly
  rw [modCrew_only]

theorem RecordsOnly.modCtx (g : Go s0) (n : Nat) (F : Ctx → Ctx) : RecordsOnly g.st (modCtx g n F).st := rfl

theorem RecordsOnly.wctx (g : Go s0) (key : Nat) (v : Wctx) : RecordsOnly g.st (g.put (.wctx key v)).st := rfl

/-- The records that contexts keep, and those that crews left them, are the same. -/
def SameKept (s u : State) : Prop := ∀ n, (u.ctx n).kept = (s.ctx n).kept ∧ (u.ctx n).left = (s.ctx n).left

theorem SameKept.of_eq {s u : State} (h : u.ctxs = s.ctxs) : SameKept s u := fun n => by
  unfold State.ctx
  rw [h]
  exact ⟨rfl, rfl⟩

theorem SameKept.trans {s t u : State} (h : SameKept s t) (h' : SameKept t u) : SameKept s u :=
  fun n => ⟨(h' n).1.trans (h n).1, (h' n).2.trans (h n).2⟩

theorem SameKept.modCtx (g : Go s0) (n : Nat) {F : Ctx → Ctx} (hF : ∀ v, (F v).kept = v.kept ∧ (F v).left = v.left) : SameKept g.st (modCtx g n F).st := by
  intro m
  unfold Machine.modCtx
  rw [Go.put_st]
  by_cases own : m = n
  case pos => subst own; rw [State.ctx_upd_same]; exact hF _
  case neg => rw [State.ctx_upd_other _ _ own]; exact ⟨rfl, rfl⟩

/-- A split that halts has been woken, or none. -/
def Waked (s u : State) : Prop :=
  u.crews = s.crews ∨ ∃ y d d' j q cyc clock vc, (y, d') ∈ s.crews ∧ (j, q) ∈ d'.splits ∧ q.wait = .halt ∧ s.crew? y = some d ∧
    u.crews = Tab.put s.crews y (d.endWait cyc clock vc j)

/-- What a refused attempt leaves: memory as it was, and at most one split woken. -/
structure Refused (s u : State) : Prop where
  only  : RecordsOnly s u
  mem   : u.mem = s.mem
  kept  : SameKept s u
  waked : Waked s u

theorem Refused.of_eq {s u : State} (only : RecordsOnly s u) (mem : u.mem = s.mem) (ctxs : u.ctxs = s.ctxs) (crews : u.crews = s.crews) : Refused s u :=
  ⟨only, mem, .of_eq ctxs, .inl crews⟩

/-- What precedes a refusal may change contexts and translations, and no crew. -/
theorem Refused.after {s t u : State} (h : Refused t u) (only : RecordsOnly s t) (mem : t.mem = s.mem) (kept : SameKept s t) (crews : t.crews = s.crews) :
    Refused s u := by
  obtain ⟨only', mem', kept', waked⟩ := h
  refine ⟨only.trans only', mem'.trans mem, kept.trans kept', ?_⟩
  unfold Waked State.crew? at *
  rwa [crews] at waked

theorem setWake_wakes (g : Go s0) (ctx : Nat) : Refused g.st (setWake g ctx).st := by
  unfold setWake
  dsimp only
  split
  case h_2 => exact ⟨.modCtx .., rfl, .modCtx _ _ fun _ => ⟨rfl, rfl⟩, .inl rfl⟩
  case h_1 found =>
    have mem := List.mem_of_getElem? found
    obtain ⟨⟨y, d'⟩, listed, first⟩ := List.mem_filterMap.1 mem
    obtain ⟨⟨j, q⟩, split, eq⟩ := Option.map_eq_some_iff.1 first
    cases eq
    have inCrew : (y, d') ∈ g.st.crews := (List.mem_filter.1 listed).1
    have halts : q.wait = .halt := by simpa using List.find?_some split
    unfold endWait
    cases crew : g.st.crew? y with
    | none =>
      rw [show modCrew g y _ = g by simp only [modCrew, crew]]
      exact .of_eq rfl rfl rfl rfl
    | some d =>
      dsimp only
      rw [modCrew_some g _ crew]
      exact ⟨rfl, rfl, .of_eq rfl, .inr ⟨y, d, d', j, q, _, _, _, inCrew, List.mem_of_find?_eq_some split, halts, crew, rfl⟩⟩

theorem notify_wakes (g : Go s0) (ctx : Nat) (vector : BitVec 8) : Refused g.st (notify g ctx vector).st := by
  unfold notify
  dsimp only
  split
  · exact (setWake_wakes _ _).after rfl rfl (.of_eq rfl) rfl
  · exact .of_eq rfl rfl rfl rfl

theorem ringBad_wakes (g : Go s0) (ctx : Nat) : Refused g.st (ringBad g ctx).st := by
  have marked : Refused g.st (modCtx g ctx fun v => { v with frBad := true }).st := ⟨.modCtx .., rfl, .modCtx _ _ fun _ => ⟨rfl, rfl⟩, .inl rfl⟩
  unfold ringBad
  dsimp only
  split
  · exact marked
  · exact (notify_wakes ..).after marked.only marked.mem marked.kept rfl

theorem State.byte_of_mem {s u : State} (h : u.mem = s.mem) (a : Nat) : u.byte a = s.byte a := by rw [State.byte, h, State.byte]

theorem modCtx_byte (g : Go s0) (n : Nat) (F : Ctx → Ctx) (a : Nat) : (modCtx g n F).st.byte a = g.st.byte a := rfl

theorem RecordsWritten.one {s u : State} {a : Nat} {r : FaultRec}
    (h : ∀ b, u.byte b = if a ≤ b ∧ b < a + 64 then r.bytes.getD (b - a) 0 else s.byte b) : RecordsWritten s u [(a, r)] := by
  intro b
  rw [h b, List.reverse_singleton, List.find?_singleton]
  by_cases inside : a ≤ b ∧ b < a + 64
  case pos => rw [if_pos inside, if_pos (decide_eq_true inside)]
  case neg => rw [if_neg inside, if_neg (by rw [decide_eq_true_iff]; exact inside)]

/-- A record has been written. -/
structure Recorded (s u : State) (r : FaultRec) : Prop where
  only  : RecordsOnly s u
  kept  : SameKept s u
  wctxs : u.wctxs = s.wctxs
  bytes : ∃ a, RecordsWritten s u [(a, r)]
  crews : StoresOnly s u

theorem FaultRec.length_bytes (r : FaultRec) : r.bytes.length = 64 := by
  unfold FaultRec.bytes
  exact length_leBytes ..

theorem placeOf_only (g : Go s0) (us : List Nat) (ctx a size : Nat) (write det : Bool) : OnlyTlbs g.st (placeOf g us ctx a size write det).2.st := by
  have translated := translate_only g us ctx a
  unfold placeOf
  split
  · exact .refl _
  split
  · exact .refl _
  split
  case h_1 eq | h_2 eq => rw [eq] at translated; exact translated
  case h_3 eq =>
    rw [eq] at translated
    split
    · exact translated
    split
    · exact translated
    split
    · split <;> exact translated
    · exact translated

/-- One attempt: the record stands in memory, or memory is as it was. -/
theorem tryRecord_tries (g : Go s0) (ctx : Nat) (r : FaultRec) :
    (tryRecord g ctx r).1 = true ∧ Recorded g.st (tryRecord g ctx r).2.st r ∨ (tryRecord g ctx r).1 = false ∧ Refused g.st (tryRecord g ctx r).2.st := by
  have full : ∀ F : Ctx → Ctx, (∀ v, (F v).kept = v.kept ∧ (F v).left = v.left) → Refused g.st (modCtx g ctx F).st :=
    fun F hF => ⟨.modCtx .., rfl, .modCtx _ _ hF, .inl rfl⟩
  unfold tryRecord
  dsimp only
  split
  case isTrue => exact .inr ⟨rfl, full _ fun _ => ⟨rfl, rfl⟩⟩
  case isFalse =>
    generalize (g.st.ctx ctx).frBase.toNat + 64 * (((g.st.ctx ctx).frProd.toNat + (g.st.ctx ctx).writing.length) % 2 ^ (g.st.ctx ctx).frSize.toNat) = a
    have placed := placeOf_only g [] ctx a 64 true false
    have before : ∀ g' : Go s0, OnlyTlbs g.st g'.st → Refused g.st (ringBad g' ctx).st := fun g' h =>
      (ringBad_wakes g' ctx).after h.records (by rw [h]) (.of_eq (by rw [h])) (by rw [h])
    split
    case h_2 eq => rw [eq] at placed; exact .inr ⟨rfl, before _ placed⟩
    case h_1 k e g' eq =>
      rw [eq] at placed
      split
      case isTrue => exact .inr ⟨rfl, before _ placed⟩
      case isFalse =>
        have written := homeStore_writes g' {} (cellsFrom k r.bytes)
        have same : g'.st.mem = g.st.mem := by rw [show g'.st = _ from placed]
        refine .inl ⟨rfl, ?_, ?_, ?_, ⟨k, ?_⟩, ?_⟩
        · refine placed.records.trans (RecordsOnly.trans ?_ (.modCtx ..))
          rw [RecordsOnly, written.state]
        · refine SameKept.trans (.of_eq ?_) (.modCtx _ _ fun _ => ⟨rfl, rfl⟩)
          rw [written.state, placed]
        · show (homeStore g' {} (cellsFrom k r.bytes)).st.wctxs = _
          rw [written.state, show g'.st = _ from placed]
        · exact .one fun b => by rw [modCtx_byte, written.byte, r.length_bytes, State.byte_of_mem same]
        · refine StoresOnly.trans (.of_eq ?_) (written.crews.trans (.of_eq rfl))
          rw [placed]

/-! ### Several records -/

theorem RecordsWritten.refl (s : State) : RecordsWritten s s [] := fun _ => rfl

theorem RecordsWritten.of_mem {s u : State} (h : u.mem = s.mem) : RecordsWritten s u [] := fun a => by
  exact State.byte_of_mem h a

theorem RecordsWritten.trans {s t u : State} {ws ws' : List (Nat × FaultRec)} (h : RecordsWritten s t ws) (h' : RecordsWritten t u ws') :
    RecordsWritten s u (ws ++ ws') := by
  intro a
  rw [h' a, h a, List.reverse_append, List.find?_append]
  cases ws'.reverse.find? fun w => decide (w.1 ≤ a ∧ a < w.1 + 64) <;> rfl

/-- Each record that `s` has in a context's queues is one of `s'`. -/
theorem keptRecords_mem {s : State} {n : Nat} {e : Keeper × FaultRec} : e ∈ s.keptRecords n ↔
    (∃ r ∈ (s.ctx n).kept, (Keeper.queue, r) = e) ∨ (∃ r ∈ (s.ctx n).left, (Keeper.gone, r) = e) ∨
      (∃ c ∈ s.crews, c.2.ctx = n ∧ ∃ r ∈ c.2.keptRecs, (Keeper.crew c.1, r) = e) ∨
      ∃ w ∈ s.wctxs, w.2.tid.toNat = n ∧ ∃ r ∈ w.2.recs, (Keeper.winch w.1, r) = e := by
  have insertion : ∀ (a e : Keeper × FaultRec) (es : List (Keeper × FaultRec)), e ∈ insertRec a es ↔ e = a ∨ e ∈ es := by
    intro a e es
    induction es with
    | nil => simp [insertRec]
    | cons f fs ih => rw [insertRec]; split <;> simp [ih, or_left_comm]
  have sorting : ∀ (e : Keeper × FaultRec) (as es : List (Keeper × FaultRec)), e ∈ as.foldr insertRec es ↔ e ∈ as ∨ e ∈ es := by
    intro e as es
    induction as with
    | nil => simp
    | cons a as ih => rw [List.foldr_cons, insertion, ih, List.mem_cons, or_assoc]
  unfold State.keptRecords
  simp only [sorting, List.mem_append, List.mem_map, List.mem_flatten, List.not_mem_nil, or_false, or_assoc]
  refine or_congr Iff.rfl (or_congr Iff.rfl (or_congr ⟨?_, ?_⟩ ⟨?_, ?_⟩))
  · rintro ⟨_, ⟨c, hc, rfl⟩, he⟩
    split at he
    case isTrue ctx => exact ⟨c, hc, ctx, List.mem_map.1 he⟩
    case isFalse => cases he
  · rintro ⟨c, hc, ctx, h⟩
    exact ⟨_, ⟨c, hc, rfl⟩, by rw [if_pos ctx]; exact List.mem_map.2 h⟩
  · rintro ⟨_, ⟨w, hw, rfl⟩, he⟩
    split at he
    case isTrue ctx => exact ⟨w, hw, ctx, List.mem_map.1 he⟩
    case isFalse => cases he
  · rintro ⟨w, hw, ctx, h⟩
    exact ⟨_, ⟨w, hw, rfl⟩, by rw [if_pos ctx]; exact List.mem_map.2 h⟩

/-- The delivery of kept records writes some of them. -/
theorem deliverKept_writes (g : Go s0) (ctx : Nat) (l : List (Keeper × FaultRec)) :
    RecordsOnly g.st (deliverKept g ctx l).st ∧ ∃ ws, RecordsWritten g.st (deliverKept g ctx l).st ws ∧ ∀ w ∈ ws, ∃ q ∈ l, w.2 = q.2 := by
  induction l generalizing g with
  | nil => exact ⟨.refl _, [], .refl _, by simp⟩
  | cons e l ih =>
    obtain ⟨keeper, r⟩ := e
    rw [deliverKept]
    rcases tryRecord_tries g ctx r with ⟨ok, done⟩ | ⟨no, refused⟩
    case inr =>
      rw [show tryRecord g ctx r = (false, (tryRecord g ctx r).2) from Prod.ext no rfl]
      exact ⟨refused.only, [], .of_mem refused.mem, by simp⟩
    case inl =>
      rw [show tryRecord g ctx r = (true, (tryRecord g ctx r).2) from Prod.ext ok rfl]
      obtain ⟨only, -, -, ⟨a, bytes⟩, -⟩ := done
      dsimp only
      have rest : ∀ g' : Go s0, RecordsOnly (tryRecord g ctx r).2.st g'.st → g'.st.mem = (tryRecord g ctx r).2.st.mem →
          RecordsOnly g.st (deliverKept g' ctx l).st ∧
            ∃ ws, RecordsWritten g.st (deliverKept g' ctx l).st ws ∧ ∀ w ∈ ws, ∃ q ∈ (keeper, r) :: l, w.2 = q.2 := by
        intro g' only' mem
        obtain ⟨later, ws, written, from_⟩ := ih g'
        refine ⟨(only.trans only').trans later, [(a, r)] ++ ([] ++ ws), bytes.trans ((RecordsWritten.of_mem mem).trans written), ?_⟩
        simp only [List.singleton_append, List.nil_append, List.forall_mem_cons, List.exists_mem_cons_iff, true_or, true_and]
        exact fun w hw => .inr (from_ w hw)
      cases keeper with
      | crew y => exact rest _ (.modCrew ..) (by rw [modCrew_only])
      | winch key => exact rest _ (.wctx ..) rfl
      | queue => exact rest _ (.modCtx ..) rfl
      | gone => exact rest _ (.modCtx ..) rfl

end Sys2Proof.Machine
end

section
/-! SUPPORT. Fault records that are sent, and faults that are taken (R67, R68, R381, R383). -/

namespace Sys2Proof.Machine

open Sys2Proof

variable {s0 : State}

/-- Where contexts and winch contexts keep what they kept, and each crew keeps nothing that one of its context did not, no record is new. -/
theorem keptRecords_from {s u : State} {n : Nat} (kept : SameKept s u) (wctxs : u.wctxs = s.wctxs)
    (crews : ∀ e ∈ u.crews, e.2.ctx = n → ∀ r ∈ e.2.keptRecs, ∃ d ∈ s.crews, d.2.ctx = n ∧ r ∈ d.2.keptRecs) :
    ∀ e ∈ u.keptRecords n, ∃ q ∈ s.keptRecords n, e.2 = q.2 := by
  intro e he
  obtain ⟨queue, left⟩ := kept n
  rcases keptRecords_mem.1 he with ⟨r, hr, rfl⟩ | ⟨r, hr, rfl⟩ | ⟨c, hc, ctx, r, hr, rfl⟩ | ⟨w, hw, ctx, r, hr, rfl⟩
  · exact ⟨_, keptRecords_mem.2 (.inl ⟨r, queue ▸ hr, rfl⟩), rfl⟩
  · exact ⟨_, keptRecords_mem.2 (.inr (.inl ⟨r, left ▸ hr, rfl⟩)), rfl⟩
  · obtain ⟨d, hd, ctx', hr'⟩ := crews c hc ctx r hr
    exact ⟨_, keptRecords_mem.2 (.inr (.inr (.inl ⟨d, hd, ctx', r, hr', rfl⟩))), rfl⟩
  · exact ⟨_, keptRecords_mem.2 (.inr (.inr (.inr ⟨w, wctxs ▸ hw, ctx, r, hr, rfl⟩))), rfl⟩

theorem Crew.kept_unstored {c d : Crew} (h : c.unstored = d.unstored) : c.ctx = d.ctx ∧ c.keptRecs = d.keptRecs := by
  have eq : c = { d with storeq := c.storeq } := by
    cases c; cases d
    simp only [Crew.unstored, Crew.mk.injEq] at h ⊢
    simp only [h, and_self]
  rw [eq]
  exact ⟨rfl, rfl⟩

/-- A record that is sent is written or kept (R383). -/
theorem sendRecord_reports (g : Go s0) (ctx : Nat) (r : FaultRec) :
    RecordsOnly g.st (sendRecord g ctx r).st ∧ Reported g.st (sendRecord g ctx r).st ctx r := by
  have keeps : ∀ g' : Go s0, Refused g.st g'.st → let u := (modCtx g' ctx fun v =>
      if v.kept.length < 64 then { v with kept := v.kept ++ [r] } else { v with frLost := true }).st
      RecordsOnly g.st u ∧ Reported g.st u ctx r := by
    intro g' refused
    obtain ⟨kept, -⟩ := refused.kept ctx
    refine ⟨refused.only.trans (.modCtx ..), .inr ⟨refused.mem, ?_⟩⟩
    unfold modCtx
    rw [Go.put_st, State.ctx_upd_same]
    by_cases room : (g.st.ctx ctx).kept.length < 64
    case pos => simp only [kept, room, if_true]
    case neg => simp only [kept, room, if_false, and_self]
  unfold sendRecord
  by_cases waits : g.st.recordWaits ctx r.id = true
  case pos =>
    rw [if_pos waits]
    exact keeps g (.of_eq (.refl _) rfl rfl rfl)
  case neg =>
    rw [if_neg waits]
    rcases tryRecord_tries g ctx r with ⟨ok, recorded⟩ | ⟨no, refused⟩
    case inr =>
      rw [show tryRecord g ctx r = (false, (tryRecord g ctx r).2) from Prod.ext no rfl]
      exact keeps _ refused
    case inl =>
      rw [show tryRecord g ctx r = (true, (tryRecord g ctx r).2) from Prod.ext ok rfl]
      obtain ⟨a, bytes⟩ := recorded.bytes
      obtain ⟨only, ws, written, later⟩ := deliverKept_writes (tryRecord g ctx r).2 ctx ((tryRecord g ctx r).2.st.keptRecords ctx)
      refine ⟨recorded.only.trans only, .inl ⟨a, ws, bytes.trans written, fun w hw => ?_⟩⟩
      obtain ⟨q, hq, eq⟩ := later w hw
      obtain ⟨p, hp, eq'⟩ := keptRecords_from recorded.kept recorded.wctxs (fun e he ctx r hr => by
        obtain ⟨d, hd, same⟩ := recorded.crews.listed e he
        obtain ⟨ctx', recs⟩ := Crew.kept_unstored same
        exact ⟨_, hd, ctx' ▸ ctx, recs ▸ hr⟩) q hq
      exact ⟨p, hp, eq.trans eq'⟩

end Sys2Proof.Machine
end

section
/-! SUPPORT. A fault that is taken: what stays of its crew while records are delivered (R67, R68, R379, R381). -/

namespace Sys2Proof.Machine

open Sys2Proof

variable {s0 : State} {c d : Crew} {k : Nat} {sp : Split} {r : FaultRec}

/-- Crew `d` is crew `c` stopped by a fault of its split `k`, with the record `r` of it. -/
structure Crew.Faulted (c : Crew) (k : Nat) (sp : Split) (r : FaultRec) (d : Crew) : Prop where
  st     : d.st = .stopped
  regs   : SameRegs d c
  sorted : Tab.sorted d.splits = true
  split  : ∃ q, d.split? k = some q ∧ q.st = .stopped ∧ q.faulted = true ∧ q.pc = sp.pc ∧ q.clock = sp.clock ∧ q.fmt = sp.fmt ∧ q.wait = .none
  frec   : d.frec = some r

theorem Crew.split?_stop (c : Crew) (k : Nat) : c.stop.split? k = (c.split? k).map stopSplit := Tab.find_map (fun _ => stopSplit) ..

theorem Crew.sorted_stop : Tab.sorted c.stop.splits = Tab.sorted c.splits := Tab.sorted_map (fun _ => stopSplit) _

/-- The end of another split's wait leaves a stopped crew stopped. -/
theorem Crew.Faulted.endWait (h : Crew.Faulted c k sp r d) {j : Nat} {p : Split} (mem : (j, p) ∈ d.splits) (waits : p.wait ≠ .none) (cyc clock : Nat)
    (vc : Table Nat) : Crew.Faulted c k sp r (d.endWait cyc clock vc j) ∧ (d.endWait cyc clock vc j).recSent = d.recSent := by
  obtain ⟨st, regs, sorted, ⟨q, split, stopped, faulted, pc, clk, fmt, wait⟩, frec⟩ := h
  have other : j ≠ k := by
    rintro rfl
    have := Tab.find_of_mem sorted mem
    rw [show Tab.find d.splits j = some q from split] at this
    cases this
    exact waits wait
  have found : d.split? j = some p := Tab.find_of_mem sorted mem
  have ended : d.endWait cyc clock vc j = ((d.setSplit j (p.goOn clock)).acquire vc).stop := by
    unfold Crew.endWait
    simp only [found, if_neg (by rw [st]; decide : ¬ d.st = .running)]
  rw [ended]
  refine ⟨⟨rfl, ⟨regs.v, regs.s, regs.p, regs.lay, regs.width, regs.wrows⟩, ?_, ⟨stopSplit q, ?_, rfl, faulted, pc, clk, fmt, wait⟩, frec⟩, rfl⟩
  · rw [Crew.sorted_stop]
    exact Tab.sorted_put _ _ _ sorted
  · rw [Crew.split?_stop, show ((d.setSplit j (p.goOn clock)).acquire vc).split? k = d.split? k from Tab.find_put_other _ _ other.symm, split]
    rfl

theorem Crew.Faulted.of_unstored {e : Crew} (h : Crew.Faulted c k sp r d) (eq : e.unstored = d.unstored) :
    Crew.Faulted c k sp r e ∧ e.recSent = d.recSent := by
  have eq : e = { d with storeq := e.storeq } := by
    cases e; cases d
    simp only [Crew.unstored, Crew.mk.injEq] at eq ⊢
    simp only [eq, and_self]
  obtain ⟨st, regs, sorted, split, frec⟩ := h
  rw [eq]
  exact ⟨⟨st, ⟨regs.v, regs.s, regs.p, regs.lay, regs.width, regs.wrows⟩, sorted, split, frec⟩, rfl⟩

theorem Crew.Faulted.recordSent (h : Crew.Faulted c k sp r d) (sent : d.recSent = true) :
    Crew.Faulted c k sp r d.recordSent ∧ d.recordSent.recSent = true := by
  obtain ⟨st, regs, sorted, split, frec⟩ := h
  unfold Crew.recordSent
  split
  · exact ⟨⟨st, ⟨regs.v, regs.s, regs.p, regs.lay, regs.width, regs.wrows⟩, sorted, split, frec⟩, rfl⟩
  · exact ⟨⟨st, ⟨regs.v, regs.s, regs.p, regs.lay, regs.width, regs.wrows⟩, sorted, split, frec⟩, sent⟩

/-- From `s` the path has reached `u`: the crew at place `x` is stopped, and its record sent or not. -/
structure FaultPath (s : State) (x : Nat) (c : Crew) (k : Nat) (sp : Split) (r : FaultRec) (sent : Bool) (u : State) : Prop where
  only   : RecordsOnly s u
  sorted : Tab.sorted u.crews = true
  crew   : ∃ d, u.crew? x = some d ∧ Crew.Faulted c k sp r d ∧ d.recSent = sent

section Path

variable {s u : State} {x : Nat} {sent : Bool} {g : Go s0}

theorem FaultPath.refused (h : FaultPath s x c k sp r sent g.st) (tried : Refused g.st u) : FaultPath s x c k sp r sent u := by
  obtain ⟨only, sorted, d, crew, faulted, isSent⟩ := h
  obtain ⟨only', -, -, waked⟩ := tried
  refine ⟨only.trans only', ?_, ?_⟩
  · rcases waked with same | ⟨y, e, e', j, q, cyc, clock, vc, -, -, -, -, put⟩
    · rw [same]; exact sorted
    · rw [put]; exact Tab.sorted_put _ _ _ sorted
  · rcases waked with same | ⟨y, e, e', j, q, cyc, clock, vc, listed, split, halts, found, put⟩
    · exact ⟨d, by rw [State.crew?, same]; exact crew, faulted, isSent⟩
    · by_cases own : x = y
      case pos =>
        subst own
        obtain rfl : d = e := Option.some.inj (crew.symm.trans found)
        obtain rfl : d = e' := Option.some.inj (crew.symm.trans (Tab.find_of_mem sorted listed))
        obtain ⟨still, same⟩ := faulted.endWait split (by rw [halts]; decide) cyc clock vc
        exact ⟨_, by rw [State.crew?, put]; exact Tab.find_put_same .., still, same.trans isSent⟩
      case neg => exact ⟨d, by rw [State.crew?, put]; exact (Tab.find_put_other _ _ own).trans crew, faulted, isSent⟩

theorem FaultPath.recorded {q : FaultRec} (h : FaultPath s x c k sp r sent g.st) (done : Recorded g.st u q) : FaultPath s x c k sp r sent u := by
  obtain ⟨only, sorted, d, crew, faulted, isSent⟩ := h
  refine ⟨only.trans done.only, done.crews.sorted sorted, ?_⟩
  have found := done.crews.found x
  rw [crew] at found
  obtain ⟨e, crew', eq⟩ := Option.map_eq_some_iff.1 found
  obtain ⟨still, same⟩ := faulted.of_unstored eq
  exact ⟨e, crew', still, same.trans isSent⟩

/-- A change of crews that leaves the stopped one as it was. -/
theorem FaultPath.modCrew (h : FaultPath s x c k sp r sent g.st) (y : Nat) {F : Crew → Crew} {sent' : Bool} (own : x ≠ y → sent' = sent)
    (hF : ∀ d, Crew.Faulted c k sp r d → d.recSent = sent → Crew.Faulted c k sp r (F d) ∧ (F d).recSent = sent') :
    FaultPath s x c k sp r sent' (modCrew g y F).st := by
  obtain ⟨only, sorted, d, crew, faulted, isSent⟩ := h
  refine ⟨only.trans (.modCrew ..), ?_, ?_⟩
  · unfold Machine.modCrew
    split
    · exact Tab.sorted_put _ _ _ sorted
    · exact sorted
  · by_cases same : x = y
    case pos =>
      subst same
      rw [modCrew_some g F crew]
      exact ⟨_, State.crew?_put .., hF d faulted isSent⟩
    case neg =>
      refine ⟨d, ?_, faulted, isSent.trans (own same).symm⟩
      unfold Machine.modCrew
      split
      · exact (State.crew?_put_other _ _ same).trans crew
      · exact crew

theorem FaultPath.deliverKept (h : FaultPath s x c k sp r true g.st) (ctx : Nat) (l : List (Keeper × FaultRec)) :
    FaultPath s x c k sp r true (deliverKept g ctx l).st := by
  induction l generalizing g with
  | nil => exact h
  | cons e l ih =>
    obtain ⟨keeper, q⟩ := e
    rw [Machine.deliverKept]
    rcases tryRecord_tries g ctx q with ⟨ok, done⟩ | ⟨no, refused⟩
    case inr =>
      rw [show tryRecord g ctx q = (false, (tryRecord g ctx q).2) from Prod.ext no rfl]
      exact h.refused refused
    case inl =>
      rw [show tryRecord g ctx q = (true, (tryRecord g ctx q).2) from Prod.ext ok rfl]
      have next := h.recorded done
      generalize (tryRecord g ctx q).2 = g' at next ⊢
      dsimp only
      have elsewhere : ∀ g'' : Go s0, RecordsOnly g'.st g''.st → g''.st.crews = g'.st.crews → FaultPath s x c k sp r true g''.st :=
        fun g'' only crews => ⟨next.only.trans only, crews ▸ next.sorted, by unfold State.crew?; rw [crews]; exact next.crew⟩
      cases keeper with
      | crew y => exact ih (next.modCrew y (fun _ => rfl) fun d faulted sent => faulted.recordSent sent)
      | winch key => exact ih (elsewhere _ (.wctx ..) rfl)
      | queue => exact ih (elsewhere _ (.modCtx ..) rfl)
      | gone => exact ih (elsewhere _ (.modCtx ..) rfl)

end Path

end Sys2Proof.Machine
end

section
/-! SUPPORT. A fault with a cause other than not-present is one of those that the obligations speak of (R67, R68, R381, R383). -/

namespace Sys2Proof.Machine

open Sys2Proof

variable {s0 : State}

/-- The crew stopped by a fault of its split `k`, whose record has not been sent. -/
def Crew.faultStop (c : Crew) (k : Nat) (sp : Split) (trapped : Bool) (r : FaultRec) : Crew :=
  { { c.stop with unsent := c.keptRecs }.setSplit k { stopSplit sp with held := .ready, wait := .none, faulted := true, trapped := trapped } with
    frec := some r, recSent := false, fb := false }

/-- Tries to send the record of a crew that has stopped. -/
def sendFault (g : Go s0) (x ctx : Nat) (waits : Bool) (r : FaultRec) : Go s0 :=
  match if waits then (false, g) else tryRecord g ctx r with
  | (true, g) => retryRing (modCrew g x fun c => { c with recSent := true }) ctx
  | (false, g) => g

section Fault

variable {g : Go s0} {x k : Nat} {c : Crew} {sp : Split}

theorem takeFault_sends (crew : g.st.crew? x = some c) (split : c.split? k = some sp) (fs : List LaneFault) (access code : Nat) (trapped : Bool)
    (present : winner fs ≠ 6) : ∃ (r : FaultRec) (waits : Bool), r.cause = winner fs ∧ r.any = faultLanes fs ∧ r.pc = sp.pc ∧ r.time = g.st.now ∧
      r.kind = 0 ∧ r.split = k ∧ r.id = crewId c.ctx x ∧
      takeFault g x k fs access code trapped = sendFault (g.put (.crew x (some (c.faultStop k sp trapped r)))) x c.ctx waits r := by
  unfold takeFault
  simp only [crew, split, if_neg present]
  exact ⟨_, _, rfl, rfl, rfl, rfl, rfl, rfl, rfl, rfl⟩

theorem Crew.faultStop_faulted (sorted : Tab.sorted c.splits = true) (trapped : Bool) (r : FaultRec) :
    Crew.Faulted c k sp r (c.faultStop k sp trapped r) := by
  refine ⟨rfl, ⟨rfl, rfl, rfl, rfl, rfl, rfl⟩, ?_, ⟨_, Tab.find_put_same .., rfl, rfl, rfl, rfl, rfl, rfl⟩, rfl⟩
  refine Tab.sorted_put _ _ _ ?_
  show Tab.sorted c.stop.splits = true
  rw [Crew.sorted_stop]
  exact sorted

/-- The crew stops, and its record waits with it or stands in memory. -/
theorem sendFault_path (crew : g.st.crew? x = some c) (crews : Tab.sorted g.st.crews = true) (splits : Tab.sorted c.splits = true) (trapped waits : Bool)
    (r : FaultRec) :
    let u := (sendFault (g.put (.crew x (some (c.faultStop k sp trapped r)))) x c.ctx waits r).st
    (FaultPath g.st x c k sp r false u ∧ u.mem = g.st.mem) ∨ (FaultPath g.st x c k sp r true u ∧ RecordDelivered g.st u c.ctx r) := by
  have start : FaultPath g.st x c k sp r false (g.put (.crew x (some (c.faultStop k sp trapped r)))).st :=
    ⟨rfl, Tab.sorted_put _ _ _ crews, _, State.crew?_put .., Crew.faultStop_faulted splits trapped r, rfl⟩
  generalize put : g.put (.crew x (some (c.faultStop k sp trapped r))) = g1 at start ⊢
  have first : g1.st = { g.st with crews := Tab.put g.st.crews x (c.faultStop k sp trapped r) } := by rw [← put]; rfl
  unfold sendFault
  cases waits with
  | true =>
    rw [if_pos rfl]
    exact .inl ⟨start, by rw [first]⟩
  | false =>
    rw [if_neg (by decide)]
    rcases tryRecord_tries g1 c.ctx r with ⟨ok, done⟩ | ⟨no, refused⟩
    case inr =>
      rw [show tryRecord g1 c.ctx r = (false, (tryRecord g1 c.ctx r).2) from Prod.ext no rfl]
      exact .inl ⟨start.refused refused, refused.mem.trans (by rw [first])⟩
    case inl =>
      rw [show tryRecord g1 c.ctx r = (true, (tryRecord g1 c.ctx r).2) from Prod.ext ok rfl]
      dsimp only
      generalize (tryRecord g1 c.ctx r).2 = g2 at done ⊢
      have stopped := start.recorded done
      have sent : FaultPath g.st x c k sp r true (modCrew g2 x fun c => { c with recSent := true }).st :=
        stopped.modCrew x (fun h => absurd rfl h) fun d faulted _ => by
          obtain ⟨st, regs, sorted, split, frec⟩ := faulted
          exact ⟨⟨st, ⟨regs.v, regs.s, regs.p, regs.lay, regs.width, regs.wrows⟩, sorted, split, frec⟩, rfl⟩
      obtain ⟨d2, crew2, -⟩ := stopped.crew
      have g3 : (modCrew g2 x fun c => { c with recSent := true }).st =
          { g2.st with crews := Tab.put g2.st.crews x { d2 with recSent := true } } := by rw [modCrew_some g2 _ crew2]; rfl
      have recs : d2.unsent = c.keptRecs := by
        have found := done.crews.found x
        rw [crew2, show g1.st.crew? x = some (c.faultStop k sp trapped r) by rw [first]; exact Tab.find_put_same ..] at found
        have eq : d2.unstored = (c.faultStop k sp trapped r).unstored := Option.some.inj found
        show d2.unstored.unsent = c.keptRecs
        rw [eq]
        rfl
      generalize (modCrew g2 x fun c => { c with recSent := true }) = g4 at sent g3 ⊢
      obtain ⟨a, bytes⟩ := done.bytes
      obtain ⟨-, ws, written, from_⟩ := deliverKept_writes g4 c.ctx (g4.st.keptRecords c.ctx)
      have before : RecordsWritten g.st g4.st ([] ++ ([(a, r)] ++ [])) :=
        (RecordsWritten.of_mem (by rw [first])).trans (bytes.trans (.of_mem (by rw [g3])))
      refine .inr ⟨sent.deliverKept .., a, ws, before.trans written, fun w hw => ?_⟩
      obtain ⟨q, hq, eq⟩ := from_ w hw
      obtain ⟨p, hp, eq'⟩ := keptRecords_from (s := g.st) ((SameKept.of_eq (by rw [first])).trans (done.kept.trans (.of_eq (by rw [g3]))))
        (by rw [g3, done.wctxs, first]) (fun e he ctx q hq => by
          have found := (Tab.mem_iff_find sent.sorted).1 he
          rw [show g4.st.crews = Tab.put g2.st.crews x { d2 with recSent := true } by rw [g3]] at found
          by_cases mine : e.1 = x
          case pos =>
            rw [mine, Tab.find_put_same] at found
            refine ⟨_, Tab.mem_of_find crew, rfl, ?_⟩
            rw [← Option.some.inj found] at hq
            simpa [Crew.keptRecs, recs] using hq
          case neg =>
            rw [Tab.find_put_other _ _ mine] at found
            have same := done.crews.found e.1
            rw [show g2.st.crew? e.1 = some e.2 from found, show g1.st.crew? e.1 = g.st.crew? e.1 by rw [first]; exact Tab.find_put_other _ _ mine] at same
            obtain ⟨d, there, eq⟩ := Option.map_eq_some_iff.1 same.symm
            obtain ⟨ctx', recs⟩ := Crew.kept_unstored eq
            exact ⟨_, Tab.mem_of_find there, ctx'.trans ctx, recs ▸ hq⟩) q hq
      exact ⟨p, hp, eq.trans eq'⟩

/-- A fault that is taken, in a state whose crews and splits are listed in order. -/
theorem takeFault_faults (crew : g.st.crew? x = some c) (split : c.split? k = some sp) (crews : Tab.sorted g.st.crews = true)
    (splits : Tab.sorted c.splits = true) {fs : List LaneFault} {cause : Nat} {lanes : Lanes} (wins : winner fs = cause) (present : cause ≠ 6)
    (all : faultLanes fs = laneSet (lanesOf lanes c.width)) (access code : Nat) (trapped : Bool) :
    Faults g.st (.next (takeFault g x k fs access code trapped).st) x k c sp cause lanes := by
  obtain ⟨r, waits, hcause, hany, hpc, htime, hkind, hsplit, hid, sends⟩ := takeFault_sends crew split fs access code trapped (wins ▸ present)
  have outcome : ∀ {sent : Bool} {u : State}, FaultPath g.st x c k sp r sent u →
      (sent = false ∧ u.mem = g.st.mem ∨ sent = true ∧ RecordDelivered g.st u c.ctx r) → Faults g.st (.next u) x k c sp cause lanes := by
    rintro sent u ⟨only, -, d, crew', ⟨st, regs, -, ⟨q, split', qst, faulted, pc, clock, fmt, -⟩, frec⟩, isSent⟩ mem
    refine ⟨u, d, q, r, rfl, crew', st, regs.v, regs.s, regs.p, regs.lay, split', qst, faulted, pc, clock, fmt, frec, hcause.trans wins,
      hany.trans all, hpc, htime, hkind, hsplit, hid, by rw [only], by rw [only], by rw [only], ?_⟩
    rw [isSent]
    exact mem
  rw [sends]
  rcases sendFault_path (k := k) (sp := sp) crew crews splits trapped waits r with ⟨path, mem⟩ | ⟨path, written⟩
  · exact outcome path (.inl ⟨rfl, mem⟩)
  · exact outcome path (.inr ⟨rfl, written⟩)

end Fault

end Sys2Proof.Machine
end

section
/-! SUPPORT. Engine operations: where they stand, their ends, and the locks they release (R122, R124, R272). -/

namespace Sys2Proof.Machine

open Sys2Proof

variable {s0 : State}

@[simp] theorem State.coreOf_upd_same (s : State) (n : Nat) (v : CoreSt) : ((Upd.core n v).apply s).coreOf n = v := Tab.get_set_same ..
theorem State.coreOf_upd_other (s : State) {n m : Nat} (v : CoreSt) (h : m ≠ n) : ((Upd.core n v).apply s).coreOf m = s.coreOf m :=
  Tab.get_set_other _ _ _ h

/-- The operations and lists of every core and engine are as before. -/
def SameOps (s u : State) : Prop := (∀ n, (u.coreOf n).ops = (s.coreOf n).ops ∧ (u.coreOf n).lists = (s.coreOf n).lists) ∧ u.engines = s.engines

theorem SameOps.of_eq {s u : State} (cores : u.cores = s.cores) (engines : u.engines = s.engines) : SameOps s u :=
  ⟨fun n => by unfold State.coreOf; rw [cores]; exact ⟨rfl, rfl⟩, engines⟩

theorem SameOps.trans {s t u : State} (h : SameOps s t) (h' : SameOps t u) : SameOps s u :=
  ⟨fun n => ⟨(h'.1 n).1.trans (h.1 n).1, (h'.1 n).2.trans (h.1 n).2⟩, h'.2.trans h.2⟩

theorem SameOps.engineOp {s u : State} (h : SameOps s u) (core op : Nat) : u.engineOp core op = s.engineOp core op := by
  unfold State.engineOp
  rw [(h.1 core).1, h.2]

theorem SameOps.modCrew (g : Go s0) (x : Nat) (F : Crew → Crew) : SameOps g.st (modCrew g x F).st :=
  .of_eq (by rw [modCrew_only]) (by rw [modCrew_only])

theorem Tab.find_upd {β : Type} (t : Table β) (k : Nat) (v : Option β) : Tab.find (Tab.upd t k v) k = v := by
  cases v with
  | none => exact Tab.find_del_same ..
  | some v => exact Tab.find_put_same ..

/-- An operation is set or removed. -/
theorem setEngine_engineOp (g : Go s0) (core op : Nat) (e : Option EngOp) : (setEngine g core op e).st.engineOp core op = e := by
  unfold setEngine State.engineOp
  by_cases own : core < 640
  case pos =>
    rw [if_pos own, if_pos own, modCore, Go.put_st, State.coreOf_upd_same]
    exact Tab.find_upd ..
  case neg =>
    rw [if_neg own, if_neg own]
    exact Tab.find_upd ..

theorem setEngine_only (g : Go s0) (core op : Nat) (e : Option EngOp) :
    (setEngine g core op e).st = { g.st with cores := (setEngine g core op e).st.cores, engines := (setEngine g core op e).st.engines } := by
  unfold setEngine
  split <;> rfl

theorem setEngine_core {g : Go s0} {core op : Nat} {e : Option EngOp} (own : core < 640) :
    (setEngine g core op e).st = { g.st with cores := (setEngine g core op e).st.cores } ∧
      ((setEngine g core op e).st.coreOf core).lists = (g.st.coreOf core).lists := by
  unfold setEngine
  rw [if_pos own]
  exact ⟨rfl, by rw [modCore, Go.put_st, State.coreOf_upd_same]⟩

/-- The locks of an operation go, and nothing else. -/
theorem unlockRanges_only (g : Go s0) (team tag : Nat) :
    (unlockRanges g team tag).st = { g.st with cores := (unlockRanges g team tag).st.cores } ∧ SameOps g.st (unlockRanges g team tag).st := by
  unfold unlockRanges
  refine Go.each_keeps (P := fun u => u = { g.st with cores := u.cores } ∧ SameOps g.st u) (fun n _ g' h => ?_) g ⟨rfl, .of_eq rfl rfl⟩
  obtain ⟨only, same⟩ := h
  refine ⟨?_, same.trans ⟨fun m => ?_, rfl⟩⟩
  · rw [modCore, Go.put_st, only]
    rfl
  · unfold modCore
    rw [Go.put_st]
    by_cases own : m = n
    case pos => subst own; rw [State.coreOf_upd_same]; exact ⟨rfl, rfl⟩
    case neg => rw [State.coreOf_upd_other _ _ own]; exact ⟨rfl, rfl⟩

theorem unlockRanges_ranges (g : Go s0) (team tag : Nat) {n : Nat} (mem : n ∈ g.st.teamCores team) :
    ∀ r ∈ ((unlockRanges g team tag).st.coreOf n).ranges, r.tag ≠ tag := by
  let F : CoreSt → CoreSt := fun v => { v with ranges := v.ranges.filter fun r => r.tag != tag }
  have all : ∀ (ns : List Nat) (g : Go s0), n ∈ ns ∨ (∀ r ∈ (g.st.coreOf n).ranges, r.tag ≠ tag) →
      ∀ r ∈ ((g.each ns fun c g => modCore g c F).st.coreOf n).ranges, r.tag ≠ tag := by
    intro ns
    induction ns with
    | nil => exact fun g h => h.resolve_left List.not_mem_nil
    | cons m ns ih =>
      intro g h
      refine ih (modCore g m F) ?_
      by_cases own : n = m
      case pos =>
        subst own
        refine .inr fun r hr => ?_
        rw [modCore, Go.put_st, State.coreOf_upd_same] at hr
        simpa using (List.mem_filter.1 hr).2
      case neg =>
        rcases h with mem | clean
        · exact .inl ((List.mem_cons.1 mem).resolve_left own)
        · rw [modCore, Go.put_st, State.coreOf_upd_other _ _ own]
          exact .inr clean
  exact all _ g (.inl mem)

/-- What the end of an operation may change. -/
def OnlyEngines (s u : State) : Prop := u = { s with cores := u.cores, engines := u.engines, crews := u.crews }

theorem OnlyEngines.trans {s t u : State} (h : OnlyEngines s t) (h' : OnlyEngines t u) : OnlyEngines s u := by
  unfold OnlyEngines at h h' ⊢
  rw [h', h]

theorem OnlyEngines.setEngine (g : Go s0) (core op : Nat) (e : Option EngOp) : OnlyEngines g.st (setEngine g core op e).st := by
  unfold OnlyEngines
  rw [setEngine_only]

theorem modCore_engineOp (g : Go s0) (core op : Nat) {F : CoreSt → CoreSt} (hF : ∀ v, (F v).ops = v.ops) :
    (modCore g core F).st.engineOp core op = g.st.engineOp core op := by
  have engines : (modCore g core F).st.engines = g.st.engines := rfl
  have ops : ((modCore g core F).st.coreOf core).ops = (g.st.coreOf core).ops := by rw [modCore, Go.put_st, State.coreOf_upd_same, hF]
  unfold State.engineOp
  rw [engines, ops]

/-- An operation that ends is gone. -/
theorem endEngine_ends (g : Go s0) (core op : Nat) (e : EngOp) :
    OnlyEngines g.st (endEngine g core op e).st ∧ (endEngine g core op e).st.engineOp core op = none := by
  obtain ⟨only, same⟩ := unlockRanges_only (setEngine g core op none) e.team op
  have gone := (same.engineOp core op).trans (setEngine_engineOp g core op none)
  have frame : OnlyEngines g.st (unlockRanges (setEngine g core op none) e.team op).st :=
    (OnlyEngines.setEngine g core op none).trans (by unfold OnlyEngines; rw [only])
  unfold endEngine
  dsimp only
  split
  case h_1 l _ =>
    exact ⟨frame.trans rfl, (modCore_engineOp _ _ _ fun v => by split <;> rfl).trans gone⟩
  case h_2 =>
    split
    · split
      · exact ⟨frame.trans rfl, gone⟩
      · exact ⟨frame, gone⟩
    · exact ⟨frame, gone⟩

/-- The end of a list element changes its core alone: the list has one element less, and the locks go. -/
theorem endEngine_element {g : Go s0} {core op l m : Nat} {e : EngOp} (own : core < 640) (list : e.list = some l)
    (found : Tab.find (g.st.coreOf core).lists l = some m) :
    (endEngine g core op e).st = { g.st with cores := (endEngine g core op e).st.cores } ∧
      Tab.find ((endEngine g core op e).st.coreOf core).lists l = (if 2 ≤ m then some (m - 1) else none) ∧
      ∀ r ∈ ((endEngine g core op e).st.coreOf core).ranges, core ∈ g.st.teamCores e.team → r.tag ≠ op := by
  obtain ⟨set, lists⟩ := setEngine_core (g := g) (op := op) (e := none) own
  obtain ⟨only, same⟩ := unlockRanges_only (setEngine g core op none) e.team op
  have team : (setEngine g core op none).st.teamCores e.team = g.st.teamCores e.team := by
    rw [State.teamCores, State.team?, set]
    rfl
  have ranges := unlockRanges_ranges (setEngine g core op none) e.team op (n := core)
  rw [team] at ranges
  have before : Tab.find ((unlockRanges (setEngine g core op none) e.team op).st.coreOf core).lists l = some m := by
    rw [(same.1 core).2, lists, found]
  unfold endEngine
  simp only [list]
  refine ⟨by rw [modCore, Go.put_st, only, set]; rfl, ?_, fun r hr mem => ?_⟩
  · rw [modCore, Go.put_st, State.coreOf_upd_same]
    rcases m with _ | _ | m
    · simp [before]
    · simp [before]
    · simp [before]
  · refine ranges mem r ?_
    rw [modCore, Go.put_st, State.coreOf_upd_same] at hr
    split at hr <;> exact hr

/-- A copy that is done ends, and any other operation stands as it was. -/
theorem engineDone_ends (g : Go s0) (core op : Nat) : OnlyEngines g.st (engineDone g core op).st ∧
    ((engineDone g core op).st.engineOp core op = g.st.engineOp core op ∨
      (engineDone g core op).st.engineOp core op = none ∧ ∃ e, g.st.engineOp core op = some e ∧ e.left = []) := by
  unfold engineDone
  split
  case h_2 => exact ⟨rfl, .inl rfl⟩
  case h_1 e found =>
    split
    case isFalse => exact ⟨rfl, .inl rfl⟩
    case isTrue done =>
      obtain ⟨only, gone⟩ := endEngine_ends g core op e
      simp only [Bool.and_eq_true, List.isEmpty_iff] at done
      obtain ⟨⟨⟨-, left⟩, -⟩, -⟩ := done
      exact ⟨only, .inr ⟨gone, e, found, left⟩⟩

theorem engineRaise_only (g : Go s0) (core : Nat) (e : EngOp) (t : Nat × Nat) (off : Bool) :
    (engineRaise g core e t off).st = { g.st with crews := (engineRaise g core e t off).st.crews } := by
  unfold engineRaise
  split
  · split
    · split <;> rfl
    · rfl
  · rfl

end Sys2Proof.Machine
end

section
/-! SUPPORT. The source units of a unit that an engine moves, read at a near place (R264, R268). -/

namespace Sys2Proof.Machine

open Sys2Proof

variable {s0 : State}

theorem State.bytesAt_eq (s : State) (k n : Nat) : s.bytesAt k n = (List.range n).map fun j => s.byte (k + j) := by
  induction n generalizing k with
  | zero => rfl
  | succ n ih =>
    rw [State.bytesAt, ih, List.range_succ_eq_map, List.map_cons, List.map_map, Nat.add_zero]
    congr 1
    exact List.map_congr_left fun j _ => by rw [Function.comp_apply, Nat.add_right_comm, Nat.add_assoc]

/-- The bytes of a near place, one by one. -/
theorem nearBytes_eq (s : State) (n i : Nat) {l : Loc} (near : Loc.isFar l = false) :
    (s.nearBytes n (Loc.plus i l)).1 = (List.range n).map fun j => nearByte s (i + j) l := by
  cases l with
  | home k =>
    show s.bytesAt (k + i) n = _
    rw [State.bytesAt_eq]
    exact List.map_congr_left fun j _ => by rw [nearByte, Nat.add_assoc]
  | scratch t off =>
    simp only [Loc.plus, State.nearBytes, nearByte]
    cases s.team? t with
    | none => simp
    | some tm =>
      dsimp only
      rw [Team.bytesAt_eq]
      exact List.map_congr_left fun j _ => by rw [Nat.add_assoc]
  | far => cases near

theorem placeIn_one {len lf : Nat} {l : Loc} {o : Nat} (h : o < len) : placeIn [{ loc := l, len := len, leaf := lf, peers := [] }] o = some (Loc.plus o l, []) :=
  if_pos h

/-- The source units of a unit cover its bytes, one after another. -/
theorem sourceUnits_cover {seg : EngSeg} {o m : Nat} (pos : 0 < m) (inside : o + m ≤ seg.len) (short : m ≤ 16) :
    (∃ lo n, sourceUnits seg o m = [(lo, n)] ∧ lo ≤ o ∧ o + m ≤ lo + n ∧ lo < seg.len) ∨
      ∃ lo n n', sourceUnits seg o m = [(lo, n), (lo + n, n')] ∧ lo ≤ o ∧ 0 < n ∧ o + m ≤ lo + n + n' ∧ lo + n < seg.len := by
  have first := Nat.div_add_mod (seg.sbase + o) 16
  have last := Nat.div_add_mod (seg.sbase + o + m - 1) 16
  have below := Nat.mod_lt (seg.sbase + o) (by decide : 0 < 16)
  have below' := Nat.mod_lt (seg.sbase + o + m - 1) (by decide : 0 < 16)
  unfold sourceUnits
  dsimp only
  generalize (seg.sbase + o) / 16 = u at *
  generalize (seg.sbase + o + m - 1) / 16 = v at *
  rcases (by omega : v = u ∨ v = u + 1) with rfl | rfl
  · refine .inl ⟨16 * v - seg.sbase, min seg.len (16 * (v + 1) - seg.sbase) - (16 * v - seg.sbase), ?_, ?_, ?_, ?_⟩
    · simp [List.range_succ]
    all_goals omega
  · refine .inr ⟨16 * u - seg.sbase, min seg.len (16 * (u + 1) - seg.sbase) - (16 * u - seg.sbase),
      min seg.len (16 * (u + 2) - seg.sbase) - (16 * (u + 1) - seg.sbase), ?_, ?_, ?_, ?_, ?_⟩
    · have next : 16 * u - seg.sbase + (min seg.len (16 * (u + 1) - seg.sbase) - (16 * u - seg.sbase)) = 16 * (u + 1) - seg.sbase := by omega
      rw [next]
      simp [List.range_succ]
    all_goals omega

section Gather

variable {g : Go s0} {core op u lf : Nat} {seg : EngSeg} {l : Loc}

/-- The units that are read stand in the operation, under their numbers. -/
theorem gatherUnits_near (near : Loc.isFar l = false) (src : seg.src = [{ loc := l, len := seg.len, leaf := lf, peers := [] }])
    (us : List (Nat × Nat)) (e : EngOp) (inside : ∀ p ∈ us, p.1 < seg.len) (fresh : ∀ p ∈ us, Tab.find e.buf (2 ^ 40 * (u / 2 ^ 40) + p.1) = none)
    (distinct : (us.map Prod.fst).Nodup) :
    ∃ b, gatherUnits g core op u e seg us = (some { e with buf := b }, g) ∧
      (∀ p ∈ us, Tab.find b (2 ^ 40 * (u / 2 ^ 40) + p.1) = some (g.st.nearBytes p.2 (Loc.plus p.1 l))) ∧
      ∀ o, o ∉ us.map Prod.fst → Tab.find b (2 ^ 40 * (u / 2 ^ 40) + o) = Tab.find e.buf (2 ^ 40 * (u / 2 ^ 40) + o) := by
  induction us generalizing e with
  | nil => exact ⟨e.buf, rfl, by simp, fun _ _ => rfl⟩
  | cons p us ih =>
    obtain ⟨o, n⟩ := p
    simp only [List.map_cons, List.nodup_cons] at distinct
    obtain ⟨new, distinct⟩ := distinct
    have place : placeIn seg.src o = some (Loc.plus o l, []) := by rw [src]; exact placeIn_one (inside _ List.mem_cons_self)
    have absent := fresh _ List.mem_cons_self
    have read : gatherUnits g core op u e seg ((o, n) :: us) =
        gatherUnits g core op u { e with buf := Tab.put e.buf (2 ^ 40 * (u / 2 ^ 40) + o) (g.st.nearBytes n (Loc.plus o l)) } seg us := by
      rw [gatherUnits]
      simp only [absent, place]
      cases l with
      | home => rfl
      | scratch => rfl
      | far => cases near
    have other : ∀ i, i ≠ o → Tab.find (Tab.put e.buf (2 ^ 40 * (u / 2 ^ 40) + o) (g.st.nearBytes n (Loc.plus o l))) (2 ^ 40 * (u / 2 ^ 40) + i) =
        Tab.find e.buf (2 ^ 40 * (u / 2 ^ 40) + i) := fun i hi => Tab.find_put_other _ _ (by omega)
    obtain ⟨b, reads, found, rest⟩ := ih { e with buf := Tab.put e.buf (2 ^ 40 * (u / 2 ^ 40) + o) (g.st.nearBytes n (Loc.plus o l)) }
      (fun p hp => inside p (List.mem_cons_of_mem _ hp))
      (fun p hp => (other p.1 (by rintro eq; exact new (eq ▸ List.mem_map_of_mem hp))).trans (fresh p (List.mem_cons_of_mem _ hp))) distinct
    refine ⟨b, read.trans reads, fun p hp => ?_, fun i hi => ?_⟩
    · rcases List.mem_cons.1 hp with rfl | hp
      · exact (rest _ new).trans (Tab.find_put_same ..)
      · exact found p hp
    · simp only [List.map_cons, List.mem_cons, not_or] at hi
      exact (rest i hi.2).trans (other i hi.1)

/-- The bytes of consecutive units, from `o` on. -/
theorem drop_take_range {A : Nat → Byte} {lo n o m : Nat} (low : lo ≤ o) (high : o + m ≤ lo + n) :
    (((List.range n).map fun j => A (lo + j)).drop (o - lo)).take m = (List.range m).map fun j => A (o + j) := by
  refine List.ext_getElem (by simp; omega) fun i _ _ => ?_
  simp only [List.getElem_take, List.getElem_drop, List.getElem_map, List.getElem_range]
  congr 1
  omega

/-- What an engine has of a unit whose source lies at one near place. -/
theorem unit_read (near : Loc.isFar l = false) (src : seg.src = [{ loc := l, len := seg.len, leaf := lf, peers := [] }]) {e : EngOp} (empty : e.buf = [])
    {o m : Nat} (pos : 0 < m) (inside : o + m ≤ seg.len) (short : m ≤ 16) :
    ∃ b, gatherUnits g core op u e seg (sourceUnits seg o m) = (some { e with buf := b }, g) ∧
      (unitBytes { e with buf := b } seg (u / 2 ^ 40) o m).1 = (List.range m).map (fun j => nearByte g.st (o + j) l) ∧
      (unitBytes { e with buf := b } seg (u / 2 ^ 40) o m).2 = (sourceUnits seg o m).any fun p => (g.st.nearBytes p.2 (Loc.plus p.1 l)).2 := by
  have fresh : ∀ p ∈ sourceUnits seg o m, Tab.find e.buf (2 ^ 40 * (u / 2 ^ 40) + p.1) = none := fun p _ => by rw [empty]; rfl
  have got : ∀ {b : Table (List Byte × Bool)} {us : List (Nat × Nat)}, sourceUnits seg o m = us →
      (∀ p ∈ us, Tab.find b (2 ^ 40 * (u / 2 ^ 40) + p.1) = some (g.st.nearBytes p.2 (Loc.plus p.1 l))) →
      (us.map fun p => (p, Tab.get ([], false) b (2 ^ 40 * (u / 2 ^ 40) + p.1))) = us.map fun p => (p, g.st.nearBytes p.2 (Loc.plus p.1 l)) :=
    fun _ found => List.map_congr_left fun p hp => by rw [Tab.get, found p hp]
  rcases sourceUnits_cover pos inside short with ⟨lo, n, units, low, high, within⟩ | ⟨lo, n, n', units, low, some, high, within⟩
  · obtain ⟨b, reads, found, -⟩ := gatherUnits_near (g := g) (core := core) (op := op) (u := u) near src (sourceUnits seg o m) e
      (by rw [units]; simpa using within) fresh (by rw [units]; simp)
    refine ⟨b, reads, ?_, ?_⟩
    · unfold unitBytes
      dsimp only
      rw [got rfl found, units]
      simp only [List.map_cons, List.map_nil, List.flatten_cons, List.flatten_nil, List.append_nil, List.headD_cons, nearBytes_eq _ _ _ near]
      exact drop_take_range (A := fun i => nearByte g.st i l) low high
    · unfold unitBytes
      dsimp only
      rw [got rfl found, List.any_map]
      rfl
  · obtain ⟨b, reads, found, -⟩ := gatherUnits_near (g := g) (core := core) (op := op) (u := u) near src (sourceUnits seg o m) e
      (by rw [units]; simp; omega) fresh (by rw [units]; simp; omega)
    refine ⟨b, reads, ?_, ?_⟩
    · unfold unitBytes
      dsimp only
      rw [got rfl found, units]
      simp only [List.map_cons, List.map_nil, List.flatten_cons, List.flatten_nil, List.append_nil, List.headD_cons, nearBytes_eq _ _ _ near]
      have join : ((List.range n).map fun j => nearByte g.st (lo + j) l) ++ ((List.range n').map fun j => nearByte g.st (lo + n + j) l) =
          (List.range (n + n')).map fun j => nearByte g.st (lo + j) l := by
        rw [List.range_add, List.map_append, List.map_map]
        simp only [Function.comp_def, Nat.add_assoc]
      rw [join]
      exact drop_take_range (A := fun i => nearByte g.st i l) low (by omega)
    · unfold unitBytes
      dsimp only
      rw [got rfl found, List.any_map]
      rfl

end Gather

end Sys2Proof.Machine
end

section
/-! SUPPORT. Writes to scratch by an agent, and bytes counted on a knot (R58, R257, R260). -/

namespace Sys2Proof.Machine

open Sys2Proof

variable {s0 : State}

/-- Crews and teams alone may have changed. -/
def OnlyTeams (s u : State) : Prop := u = { s with crews := u.crews, teams := u.teams }

theorem OnlyTeams.refl (s : State) : OnlyTeams s s := rfl

theorem OnlyTeams.trans {s t u : State} (h : OnlyTeams s t) (h' : OnlyTeams t u) : OnlyTeams s u := by
  unfold OnlyTeams at h h' ⊢
  rw [h', h]

theorem OnlyTeams.modCrew (g : Go s0) (x : Nat) (F : Crew → Crew) : OnlyTeams g.st (modCrew g x F).st := by
  unfold OnlyTeams
  rw [modCrew_only]

theorem OnlyTeams.modTeam (g : Go s0) (n : Nat) (F : Team → Team) : OnlyTeams g.st (modTeam g n F).st := by
  unfold Machine.modTeam
  split <;> rfl

theorem OnlyTeams.each {α : Type} (g : Go s0) (l : List α) {f : α → Go s0 → Go s0} (hf : ∀ a (g : Go s0), OnlyTeams g.st (f a g).st) :
    OnlyTeams g.st (g.each l f).st :=
  Go.each_keeps (P := OnlyTeams g.st) (fun a _ g' h => h.trans (hf a g')) g (.refl _)

/-- A crew and nothing else may have changed. -/
theorem endWordWait_only (g : Go s0) (x k : Nat) (loc : Loc) (cond : FlagCond) (value scope : Nat) (log : List WriteRec) :
    (endWordWait g x k loc cond value scope log).st = { g.st with crews := (endWordWait g x k loc cond value scope log).st.crews } := by
  unfold endWordWait
  split
  case h_1 => rfl
  case h_2 =>
    dsimp only
    split
    · rw [dropCopies, modCrew_only, modCrew_only, endWait, modCrew_only]
    · rw [modCrew_only, endWait, modCrew_only]

/-- A write to a team's scratch changes its bytes, and crews that wait for them. -/
theorem scratchStore_writes {g : Go s0} {n : Nat} {tm : Team} (team : g.st.team? n = some tm) (by_ : By) (cells : List (Nat × Byte)) :
    (scratchStore g n by_ cells).st =
      { g.st with crews := (scratchStore g n by_ cells).st.crews, teams := Tab.put g.st.teams n (tm.write by_ cells) } := by
  unfold scratchStore
  rw [modTeam_some g _ team]
  refine Go.each_keeps (P := fun u => u = { g.st with crews := u.crews, teams := Tab.put g.st.teams n (tm.write by_ cells) }) (fun w _ g' h => ?_) _ rfl
  split
  · rw [endWordWait_only, h]
  · exact h

theorem OnlyTeams.scratchStore (g : Go s0) (n : Nat) (by_ : By) (cells : List (Nat × Byte)) : OnlyTeams g.st (scratchStore g n by_ cells).st := by
  unfold Machine.scratchStore
  refine OnlyTeams.trans (.modTeam ..) (.each _ _ fun w g' => ?_)
  split
  · unfold OnlyTeams
    rw [endWordWait_only]
  · exact .refl _

/-! ### Knots -/

theorem OnlyTeams.endWaits (g : Go s0) (x : Nat) (w : Wait) (clock : Nat) (vc : Table Nat) : OnlyTeams g.st (endWaits g x w clock vc).st := .modCrew ..

theorem OnlyTeams.dropCopies (g : Go s0) (x : Nat) : OnlyTeams g.st (dropCopies g x).st := .modCrew ..

theorem OnlyTeams.setKnot (g : Go s0) (n off : Nat) (kn : Knot) : OnlyTeams g.st (setKnot g n off kn).st := .scratchStore ..

theorem OnlyTeams.knotArrive (g : Go s0) (n off x : Nat) (a : Arrival) : OnlyTeams g.st (knotArrive g n off x a).st := by
  unfold Machine.knotArrive
  split
  · exact ((OnlyTeams.setKnot ..).trans (.modTeam ..)).trans (.modCrew ..)
  · exact .refl _

theorem OnlyTeams.knotCheck (g : Go s0) (n off fuel : Nat) : OnlyTeams g.st (knotCheck g n off fuel).st := by
  induction fuel generalizing g with
  | zero => exact .refl _
  | succ fuel ih =>
    rw [Machine.knotCheck]
    split
    case h_1 => exact .refl _
    case h_2 tm _ =>
      dsimp only
      split
      case isFalse => exact .refl _
      case isTrue =>
        refine OnlyTeams.trans (OnlyTeams.trans ?_ (.modTeam ..)) (ih _)
        refine OnlyTeams.trans ?_ (.each _ _ fun e g' => .modCrew ..)
        refine OnlyTeams.trans ?_ (.each _ _ fun e g' => (OnlyTeams.knotArrive ..).trans (.endWaits ..))
        refine OnlyTeams.trans ((OnlyTeams.setKnot ..).trans (.modTeam ..)) (.each _ _ fun e g' => ?_)
        split
        · split
          · exact ((OnlyTeams.modCrew ..).trans (.endWaits ..)).trans (.dropCopies ..)
          · exact (OnlyTeams.modCrew ..).trans (.endWaits ..)
        · exact .modCrew ..

theorem OnlyTeams.knotSettle (g : Go s0) (n off : Nat) : OnlyTeams g.st (knotSettle g n off).st := by
  unfold Machine.knotSettle
  split
  · exact .knotCheck ..
  · exact .refl _

theorem OnlyTeams.knotPay (g : Go s0) (n off bytes clock : Nat) (vc : Table Nat) (scope : Nat) : OnlyTeams g.st (knotPay g n off bytes clock vc scope).st := by
  unfold Machine.knotPay
  split
  case h_1 => exact .refl _
  case h_2 tm _ =>
    dsimp only
    split
    case isFalse => exact .refl _
    case isTrue => exact ((OnlyTeams.setKnot ..).trans (.modTeam ..)).trans (.knotSettle ..)

/-! The bytes of a knot. -/

theorem leNat_leBytes (v n : Nat) : leNat (leBytes v n) = v % 256 ^ n := by
  induction n generalizing v with
  | zero => simp [leBytes, leNat, Nat.mod_one]
  | succ n ih =>
    have low : (BitVec.ofNat 8 (v % 256)).toNat = v % 256 := by simp
    rw [leBytes, leNat, ih, low, Nat.pow_succ', Nat.mod_mul]

theorem drop_leBytes (v a n : Nat) : (leBytes v (a + n)).drop a = leBytes (v / 256 ^ a) n := by
  induction a generalizing v with
  | zero => simp
  | succ a ih => rw [Nat.succ_add, leBytes, List.drop_succ_cons, ih, Nat.div_div_eq_div_mul, Nat.pow_succ']

theorem take_leBytes (v n m : Nat) : (leBytes v (n + m)).take n = leBytes v n := by
  induction n generalizing v with
  | zero => simp [leBytes]
  | succ n ih => rw [Nat.succ_add, leBytes, List.take_succ_cons, ih, leBytes]

/-- A word of a knot's bytes. -/
theorem leNat_word (v i : Nat) (hi : i < 4) : leNat (((leBytes v 16).drop (4 * i)).take 4) = v / 256 ^ (4 * i) % 256 ^ 4 := by
  rw [show 16 = 4 * i + (4 + (12 - 4 * i)) by omega, drop_leBytes, take_leBytes, leNat_leBytes]

theorem Knot.length_bytes (kn : Knot) : kn.bytes.length = 16 := by
  unfold Knot.bytes
  exact length_leBytes ..

theorem Team.word_write_knot {tm : Team} {off i : Nat} (aligned : off % 16 = 0) (hi : i < 4) (by_ : By) (kn : Knot) :
    (tm.write by_ (cellsFrom off kn.bytes)).word (off / 4 + i) = leNat ((kn.bytes.drop (4 * i)).take 4) := by
  have len := kn.length_bytes
  unfold Team.word
  rw [Team.bytesAt_eq, Team.scratch_write]
  congr 1
  refine List.ext_getElem (by simp [len]; omega) fun j hj _ => ?_
  have hj : j < 4 := by simpa using hj
  rw [List.getElem_map, List.getElem_range, get_putBytes_cellsFrom, if_pos (by omega), List.getElem_take, List.getElem_drop, List.getD_eq_getElem _ _ (by omega)]
  congr 1
  omega

/-- The fields of a knot fit their places. -/
structure Knot.Fits (kn : Knot) : Prop where
  expect  : kn.expect < 2 ^ 32
  arrived : kn.arrived < 2 ^ 32
  debt    : kn.debt < 2 ^ 32
  guard   : kn.guard < 2 ^ 16

theorem Team.word_lt (tm : Team) (w : Nat) : tm.word w < 2 ^ 32 := by
  have := leNat_lt (tm.bytesAt (4 * w) 4)
  rw [Team.bytesAt_eq] at this
  simpa [Team.word, Team.bytesAt_eq] using this

theorem Team.knot_fits (tm : Team) (off : Nat) : (tm.knot off).Fits :=
  ⟨tm.word_lt _, tm.word_lt _, tm.word_lt _, Nat.div_lt_of_lt_mul (by have := tm.word_lt (off / 4 + 3); omega)⟩

/-- A knot that has been written is the knot there. -/
theorem Team.knot_write {tm : Team} {off : Nat} (aligned : off % 16 = 0) (by_ : By) {kn : Knot} (fits : kn.Fits) :
    (tm.write by_ (cellsFrom off kn.bytes)).knot off = kn := by
  obtain ⟨expect, arrived, debt, guard⟩ := fits
  have word : ∀ i, i < 4 → (tm.write by_ (cellsFrom off kn.bytes)).word (off / 4 + i) = _ := fun i hi =>
    (Team.word_write_knot aligned hi by_ kn).trans (leNat_word _ i hi)
  have w0 := word 0 (by decide)
  have w1 := word 1 (by decide)
  have w2 := word 2 (by decide)
  have w3 := word 3 (by decide)
  unfold Team.knot
  dsimp only
  rw [Nat.add_zero] at w0
  rw [w0, w1, w2, w3]
  obtain ⟨e, a, d, ph, gu⟩ := kn
  dsimp only at expect arrived debt guard ⊢
  have bit : (if ph = true then 1 else 0) < 2 := by split <;> decide
  rw [Knot.mk.injEq]
  refine ⟨by omega, by omega, by omega, ?_, by omega⟩
  cases ph
  · rw [beq_eq_false_iff_ne]; simp only [Bool.false_eq_true, if_false]; omega
  · rw [beq_iff_eq]; simp only [if_true]; omega

end Sys2Proof.Machine
end

section
/-! SUPPORT. One unit that an engine writes at a near place (R106, R264, R268, R272). -/

namespace Sys2Proof.Machine

open Sys2Proof

variable {s0 : State}

/-- What the write of a unit may change. -/
def UnitOnly (s u : State) : Prop :=
  u = { s with mem := u.mem, poison := u.poison, wlog := u.wlog, lines := u.lines, cores := u.cores, engines := u.engines, crews := u.crews
               teams := u.teams, coloc := u.coloc }

theorem UnitOnly.trans {s t u : State} (h : UnitOnly s t) (h' : UnitOnly t u) : UnitOnly s u := by
  unfold UnitOnly at h h' ⊢
  rw [h', h]

theorem OnlyEngines.unit {s u : State} (h : OnlyEngines s u) : UnitOnly s u := by
  unfold UnitOnly
  rw [h]

theorem countWork_only (g : Go s0) (team ops bytes : Nat) :
    (countWork g team ops bytes).st = { g.st with coloc := (countWork g team ops bytes).st.coloc } := by
  unfold countWork
  split
  · rfl
  · dsimp only
    split <;> rfl

theorem engineRaise_engineOp (g : Go s0) (core : Nat) (e : EngOp) (t : Nat × Nat) (off : Bool) (n op : Nat) :
    (engineRaise g core e t off).st.engineOp n op = g.st.engineOp n op :=
  (SameOps.of_eq (by rw [engineRaise_only]) (by rw [engineRaise_only])).engineOp n op

/-- The unit is no longer left to write: its operation stands without it, or is gone with its last one. -/
def UnitLeft (u : State) (core op : Nat) (left : List Nat) : Prop :=
  (∃ e, u.engineOp core op = some e ∧ e.left = left) ∨ u.engineOp core op = none ∧ left = []

section Write

variable {g : Go s0} {core op n : Nat} {e : EngOp} {bs : List Byte} {bad : Bool} {ps : List Nat}

theorem writeUnit_home (k : Nat) : let u := (writeUnit g core op n e bs bad (.home k, ps)).st
    UnitOnly g.st u ∧ (∀ b, u.byte b = if k ≤ b ∧ b < k + bs.length then bs.getD (b - k) 0 else g.st.byte b) ∧
      UnitLeft u core op (e.left.filter fun v => v != n) := by
  intro u
  let e1 : EngOp := { e with left := e.left.filter fun v => v != n, poison := e.poison || bad }
  let g1 := countWork g e1.team 0 bs.length
  let g2 := homeStore g1 (e1.by_ core) (cellsFrom k bs)
  let g3 := if bad then g2.each (List.range bs.length) fun i g => g.put (.poison (k + i) true) else g2
  let t := g3.st.gwctOf [lineOf k] false
  let e2 : EngOp := { e1 with gwctMod := max e1.gwctMod (t.1 + 1), gwctFab := max e1.gwctFab (t.2 + 1) }
  have eq : u = (engineRaise (setEngine g3 core op (some e2)) core e1 t false).st := rfl
  have counted : g1.st = { g.st with coloc := g1.st.coloc } := countWork_only ..
  have stored := homeStore_writes g1 (e1.by_ core) (cellsFrom k bs)
  have marked : g3.st = { g2.st with poison := g3.st.poison } := by
    cases h : bad with
    | false => simp only [g3, h]; rfl
    | true =>
      simp only [g3, h, if_true]
      exact Go.each_keeps (P := fun u => u = { g2.st with poison := u.poison }) (fun i _ g' h => by rw [Go.put_st, h]; rfl) g2 rfl
  refine ⟨?_, fun b => ?_, .inl ⟨e2, ?_, rfl⟩⟩
  · unfold UnitOnly
    rw [eq, engineRaise_only, setEngine_only, marked, stored.state, counted]
  · have mem : u.byte b = g2.st.byte b := State.byte_of_mem (by rw [eq, engineRaise_only, setEngine_only, marked]) b
    rw [mem, stored.byte, State.byte_of_mem (s := g.st) (by rw [counted])]
  · rw [eq, engineRaise_engineOp, setEngine_engineOp]

theorem writeUnit_scratch {m off : Nat} {tm : Team} (team : g.st.team? m = some tm) (knotless : e.knot = none) :
    let u := (writeUnit g core op n e bs bad (.scratch m off, ps)).st
    UnitOnly g.st u ∧ u.mem = g.st.mem ∧ (∃ tm', u.team? m = some tm' ∧ tm'.scratch = putBytes tm.scratch (cellsFrom off bs)) ∧
      UnitLeft u core op (e.left.filter fun v => v != n) := by
  intro u
  let e1 : EngOp := { e with left := e.left.filter fun v => v != n, poison := e.poison || bad }
  let g1 := countWork g e1.team 0 bs.length
  let e2 : EngOp := { e1 with gwctMod := max e1.gwctMod (g1.st.now + 1), gwctFab := max e1.gwctFab (g1.st.now + 1) }
  let g2 := engineRaise (setEngine g1 core op (some e2)) core e2 (g1.st.now, g1.st.now) false
  let g3 := scratchStore g2 m (e2.by_ core) (cellsFrom off bs)
  let F : Team → Team := fun tm => { tm with poison := (List.range bs.length).foldl (fun (m : Table Unit) i => Tab.put m (off + i) ()) tm.poison }
  let g4 := if bad then modTeam g3 m F else g3
  let g5 := if e2.list.isSome && e2.left.isEmpty && e2.far.isEmpty then endEngine g4 core op e2 else g4
  have eq : u = g5.st := by
    show (match e2.knot with | some kn => knotPay g5 m kn bs.length e2.clock [] 0 | none => g5).st = g5.st
    rw [show e2.knot = none from knotless]
  have counted : g1.st = { g.st with coloc := g1.st.coloc } := countWork_only ..
  have raised : g2.st = { g.st with coloc := g1.st.coloc, cores := g2.st.cores, engines := g2.st.engines, crews := g2.st.crews } := by
    simp only [g2]
    rw [engineRaise_only, setEngine_only, counted]
  have team2 : g2.st.team? m = some tm := by rw [raised]; exact team
  have stored := scratchStore_writes team2 (e2.by_ core) (cellsFrom off bs)
  have team3 : g3.st.team? m = some (tm.write (e2.by_ core) (cellsFrom off bs)) := by
    rw [State.team?, show g3.st = _ from stored]
    exact Tab.find_put_same ..
  have op3 : g3.st.engineOp core op = some e2 := by
    rw [(SameOps.of_eq (s := g2.st) (by rw [show g3.st = _ from stored]) (by rw [show g3.st = _ from stored])).engineOp, engineRaise_engineOp,
      setEngine_engineOp]
  have marked : UnitOnly g.st g4.st ∧ g4.st.mem = g.st.mem ∧ (∃ tm', g4.st.team? m = some tm' ∧ tm'.scratch = putBytes tm.scratch (cellsFrom off bs)) ∧
      g4.st.engineOp core op = some e2 := by
    cases h : bad with
    | false =>
      simp only [g4, h, Bool.false_eq_true, if_false]
      refine ⟨?_, ?_, ⟨_, team3, rfl⟩, op3⟩
      · rw [UnitOnly, show g3.st = _ from stored, raised]
      · rw [show g3.st = _ from stored, raised]
    | true =>
      simp only [g4, h, if_true]
      rw [modTeam_some g3 F team3]
      refine ⟨?_, ?_, ⟨_, State.team?_put_same .., rfl⟩, op3⟩
      · rw [UnitOnly, Go.put_st, show g3.st = _ from stored, raised]
        rfl
      · rw [Go.put_st, show g3.st = _ from stored, raised]
        rfl
  obtain ⟨only, mem, ⟨tm', team4, scratch⟩, op4⟩ := marked
  rw [eq]
  by_cases done : (e2.list.isSome && e2.left.isEmpty && e2.far.isEmpty) = true
  case pos =>
    simp only [g5, if_pos done]
    obtain ⟨ends, gone⟩ := endEngine_ends g4 core op e2
    simp only [Bool.and_eq_true, List.isEmpty_iff] at done
    obtain ⟨⟨-, none_⟩, -⟩ := done
    exact ⟨only.trans ends.unit, by rw [ends, mem], ⟨tm', by rw [ends]; exact team4, scratch⟩, .inr ⟨gone, none_⟩⟩
  case neg =>
    simp only [g5, if_neg done]
    exact ⟨only, mem, ⟨tm', team4, scratch⟩, .inl ⟨e2, op4, rfl⟩⟩

/-- The end of the operation, where it is done, takes nothing back. -/
theorem UnitLeft.done {left : List Nat} (h : UnitLeft g.st core op left) : UnitLeft (engineDone g core op).st core op left := by
  obtain ⟨-, same | ⟨gone, e', found, empty⟩⟩ := engineDone_ends g core op
  · unfold UnitLeft
    rw [same]
    exact h
  · rcases h with ⟨e'', found', left'⟩ | ⟨-, none_⟩
    · obtain rfl : e' = e'' := Option.some.inj (found.symm.trans found')
      exact .inr ⟨gone, left'.symm.trans empty⟩
    · exact .inr ⟨gone, none_⟩

end Write

end Sys2Proof.Machine
end

section
/-! SUPPORT. O30: a unit from one near place to another, and the release of a list element (R58, R122, R264, R272). -/

namespace Sys2Proof.Machine

open Sys2Proof

section Transfer

variable {s : State} {core op n lf lf' : Nat} {e : EngOp} {seg : EngSeg} {sl dl : Loc}

/-- The path of a unit when it is written: a list element reports its first uncorrectable error before that. -/
def unitReported (s : State) (e : EngOp) (bad : Bool) (addr : Nat) : Go s :=
  if bad && !e.poison && e.list.isSome then elementReport (Go.start s) e addr else Go.start s

theorem unitLen_pos (seg : EngSeg) {o : Nat} (h : o < seg.len) : 0 < unitLen seg o ∧ o + unitLen seg o ≤ seg.len ∧ unitLen seg o ≤ 16 := by
  unfold unitLen
  split
  case isTrue fits =>
    simp only [Bool.and_eq_true, decide_eq_true_eq] at fits
    omega
  case isFalse => omega

/-- A transfer whose turn it is writes its unit. -/
theorem engineTransfer_writes (operation : s.engineOp core op = some e) (segment : e.segs[n / 2 ^ 40]? = some seg) (left : n ∈ e.left)
    (inside : n % 2 ^ 40 < seg.len) (empty : e.buf = []) (src : seg.src = [{ loc := sl, len := seg.len, leaf := lf, peers := [] }])
    (dst : seg.dst = [{ loc := dl, len := seg.len, leaf := lf', peers := [] }]) (near : Loc.isFar sl = false)
    (idle : ∀ p ∈ s.passes, ∀ j, p.2.origin ≠ .engine core op j) (ready : engineReady s core e = true)
    (free : unitHeld s seg (n % 2 ^ 40) (unitLen seg (n % 2 ^ 40)) = false) :
    let o := n % 2 ^ 40
    let m := unitLen seg o
    let bad := (sourceUnits seg o m).any fun p => (s.nearBytes p.2 (Loc.plus p.1 sl)).2
    ∃ b, exec (.engineTransfer core op n) s = .next (engineDone (writeUnit (unitReported s { e with buf := b } bad (seg.sbase + o)) core op n { e with buf := b }
      ((List.range m).map fun j => nearByte s (o + j) sl) bad (Loc.plus o dl, [])) core op).st := by
  intro o m bad
  obtain ⟨pos, within, short⟩ := unitLen_pos seg inside
  obtain ⟨b, reads, bytes, error⟩ := unit_read (g := Go.start s) (core := core) (op := op) (u := n) near src empty pos within short
  have quiet : (s.passes.any fun p => match p.2.origin with | .engine c o _ => c == core && o == op | _ => false) = false := by
    rw [List.any_eq_false]
    intro p hp
    have other := idle p hp
    cases origin : p.2.origin with
    | engine c i j =>
      simp only [Bool.and_eq_true, beq_iff_eq]
      rintro ⟨rfl, rfl⟩
      exact other j origin
    | _ => simp
  have going : (e.left.contains n && !(s.passes.any fun p => match p.2.origin with | .engine c o _ => c == core && o == op | _ => false) &&
      engineReady s core e && !unitHeld s seg (n % 2 ^ 40) (unitLen seg (n % 2 ^ 40))) = true := by
    rw [quiet, ready, free, List.contains_iff_mem.2 left]
    rfl
  have place : placeIn seg.dst o = some (Loc.plus o dl, []) := by rw [dst]; exact placeIn_one inside
  refine ⟨b, ?_⟩
  show execEngineTransfer core op n s = _
  unfold execEngineTransfer
  simp only [operation, segment]
  refine (if_pos going).trans ?_
  unfold engineUnit
  dsimp only
  rw [reads, place]
  dsimp only
  rw [show (unitBytes { e with buf := b } seg (n / 2 ^ 40) (n % 2 ^ 40) (unitLen seg (n % 2 ^ 40))) =
    ((List.range m).map fun j => nearByte s (o + j) sl, bad) from Prod.ext bytes error]
  rfl

/-- The unit stands at its destination, and nothing else has moved. -/
theorem writeUnit_written {g : Go s} {o m : Nat} {bad : Bool} (near : Loc.isFar dl = false) (knotless : e.knot = none)
    (teams : ∀ t, g.st.team? t = s.team? t) (there : ∀ t a, dl = .scratch t a → s.team? t ≠ none) :
    let u := (engineDone (writeUnit g core op n e ((List.range m).map fun j => nearByte s (o + j) sl) bad (Loc.plus o dl, [])) core op).st
    UnitOnly g.st u ∧ UnitWritten s g.st u o m sl dl ∧ UnitLeft u core op (e.left.filter fun j => j != n) := by
  intro u
  have byte : ∀ {a b : Nat}, a + o ≤ b → b < a + o + m →
      ((List.range m).map fun j => nearByte s (o + j) sl).getD (b - (a + o)) 0 = nearByte s (b - a) sl := fun low high => by
    rw [List.getD_eq_getElem _ _ (by simp; omega)]
    simp only [List.getElem_map, List.getElem_range]
    congr 1
    omega
  obtain ⟨done, -⟩ := engineDone_ends (writeUnit g core op n e ((List.range m).map fun j => nearByte s (o + j) sl) bad (Loc.plus o dl, [])) core op
  have same : u.mem = (writeUnit g core op n e ((List.range m).map fun j => nearByte s (o + j) sl) bad (Loc.plus o dl, [])).st.mem := by
    rw [show u = _ from done]
  cases dl with
  | home a =>
    obtain ⟨only, bytes, left⟩ := writeUnit_home (g := g) (core := core) (op := op) (n := n) (e := e)
      (bs := (List.range m).map fun j => nearByte s (o + j) sl) (bad := bad) (ps := []) (a + o)
    refine ⟨only.trans done.unit, fun b => ?_, left.done⟩
    rw [State.byte_of_mem same]
    refine (bytes b).trans ?_
    rw [List.length_map, List.length_range]
    split
    case isTrue inside => exact byte inside.1 inside.2
    case isFalse => rfl
  | scratch t a =>
    obtain ⟨tm, team⟩ := Option.ne_none_iff_exists'.1 (there t a rfl)
    obtain ⟨only, mem, ⟨tm', team', scratch⟩, left⟩ := writeUnit_scratch (g := g) (core := core) (op := op) (n := n)
      (bs := (List.range m).map fun j => nearByte s (o + j) sl) (bad := bad) (ps := []) (off := a + o) ((teams t).trans team) knotless
    refine ⟨only.trans done.unit, ⟨same.trans mem, fun tm0 h0 => ?_⟩, left.done⟩
    obtain rfl : tm = tm0 := Option.some.inj (team.symm.trans h0)
    refine ⟨tm', by rw [show u = _ from done]; exact team', fun b => ?_⟩
    rw [scratch, get_putBytes_cellsFrom, List.length_map, List.length_range]
    split
    case isTrue inside => exact byte inside.1 inside.2
    case isFalse => rfl
  | far => cases near

end Transfer

/-! ### List elements -/

theorem OnlyTeams.engineOp {s u : State} (h : OnlyTeams s u) (core op : Nat) : u.engineOp core op = s.engineOp core op :=
  (SameOps.of_eq (by rw [h]) (by rw [h])).engineOp core op

section Element

variable {s : State} {core op l m : Nat} {e : EngOp}

theorem elementDue_iff (list : e.list = some l) (left : e.left = []) (far : e.far = []) (due : (if e.off then e.gwctFab else e.gwctMod) ≤ s.now) :
    elementDue s e = true := by
  unfold elementDue
  simp only [list, left, far, due, Option.isSome_some, List.isEmpty_nil, decide_true, Bool.and_self]

/-- A due element that no knot counts here is only released. -/
theorem requestListElement_releases (operation : s.engineOp core op = some e) (own : core < 640) (due : elementDue s e = true)
    (uncounted : e.knot = none ∨ e.toScratch = true) : exec (.requestListElement core op) s = .next (endEngine (Go.start s) core op e).st := by
  show execRequestListElement core op s = _
  unfold execRequestListElement
  simp only [operation, own, due, decide_true, Bool.and_self, if_true]
  cases knot : e.knot with
  | none => rfl
  | some kn => simp only [uncounted.resolve_left (by rw [knot]; nofun), if_true]; rfl

/-- The bytes of a segmented operation. -/
def EngOp.bytes (e : EngOp) : Nat := e.segs.foldl (fun a seg => a + seg.len) 0

theorem EngOp.bytes_eq (e : EngOp) : e.bytes = (e.segs.map fun seg => seg.len).sum := by
  have all : ∀ (ss : List EngSeg) (n : Nat), ss.foldl (fun a seg => a + seg.len) n = n + (ss.map fun seg => seg.len).sum := by
    intro ss
    induction ss with
    | nil => simp
    | cons x ss ih => intro n; rw [List.foldl_cons, ih, List.map_cons, List.sum_cons, Nat.add_assoc]
  rw [EngOp.bytes, all, Nat.zero_add]

/-- A due element outside scratch is released and counted on its knot. -/
theorem requestListElement_counts (operation : s.engineOp core op = some e) (own : core < 640) (due : elementDue s e = true) {kn : Nat}
    (knot : e.knot = some kn) (outside : e.toScratch = false) : exec (.requestListElement core op) s =
      .next (knotPay (endEngine (Go.start s) core op e) e.team kn e.bytes e.clock [] (if e.off then 5 else 4)).st := by
  show execRequestListElement core op s = _
  unfold execRequestListElement
  simp only [operation, own, due, decide_true, Bool.and_self, if_true, knot, outside, Bool.false_eq_true, if_false]
  rfl

theorem setKnot_team {s0 : State} {g : Go s0} {t off : Nat} {tm : Team} (team : g.st.team? t = some tm) (kn : Knot) :
    (setKnot g t off kn).st.team? t = some (tm.write {} (cellsFrom off kn.bytes)) := by
  rw [State.team?, setKnot, scratchStore_writes team]
  exact Tab.find_put_same ..

theorem Team.knot_setKnotSt (t : Team) (off : Nat) (k : KnotSt) (o : Nat) : (t.setKnotSt off k).knot o = t.knot o := rfl

/-- A knot after bytes were counted on it (R58). -/
def Knot.paid (kn : Knot) (bytes : Nat) : Knot := { kn with debt := (kn.debt + 2 ^ 32 - bytes % 2 ^ 32) % 2 ^ 32 }

/-- Bytes counted on an active knot whose phase they do not complete come off its debt, and change nothing else. -/
theorem knotPay_debt {s0 : State} {g : Go s0} {t off : Nat} {tm : Team} (team : g.st.team? t = some tm) (active : tm.active off = true)
    (aligned : off % 16 = 0) (bytes clock : Nat) (vc : Table Nat) (scope : Nat)
    (more : ((tm.knot off).paid bytes).arrived ≠ ((tm.knot off).paid bytes).expect ∨ ((tm.knot off).paid bytes).debt ≠ 0) :
    ∃ tm', (knotPay g t off bytes clock vc scope).st.team? t = some tm' ∧ tm'.knot off = (tm.knot off).paid bytes := by
  obtain ⟨expect, arrived, -, guard⟩ := tm.knot_fits off
  have written := Team.knot_write (tm := tm) aligned {} (kn := (tm.knot off).paid bytes) ⟨expect, arrived, Nat.mod_lt _ (by decide), guard⟩
  have team1 := setKnot_team (off := off) team ((tm.knot off).paid bytes)
  unfold knotPay
  simp only [team, active, if_true]
  rw [show setKnot g t off { tm.knot off with debt := ((tm.knot off).debt + 2 ^ 32 - bytes % 2 ^ 32) % 2 ^ 32 } =
    setKnot g t off ((tm.knot off).paid bytes) from rfl, modTeam_some _ _ team1]
  unfold knotSettle
  rw [Go.put_st, State.team?_put_same]
  dsimp only
  rw [knotCheck, Go.put_st, State.team?_put_same]
  dsimp only
  rw [if_neg, Go.put_st]
  · exact ⟨_, State.team?_put_same .., (Team.knot_setKnotSt ..).trans written⟩
  · simp only [Bool.and_eq_true, decide_eq_true_eq]
    rintro ⟨⟨-, full⟩, paid⟩
    rw [Team.knot_setKnotSt, written] at full paid
    exact more.elim (absurd full) (absurd paid)

end Element

end Sys2Proof.Machine
end

section
/-! THEOREM. O30: the copy engine writes one unit at a time and counts list elements. -/

namespace Sys2Proof

open Machine

/-- Settles O30: a unit by `engineTransfer_writes` and `writeUnit_written`, the report of its error by `sendRecord_reports`, the release of a list
element by `endEngine_element` and `knotPay_debt`. -/
theorem engineMovesUnits : Obligations.EngineMovesUnits := by
  unfold Obligations.EngineMovesUnits
  intro s core op e operation
  refine ⟨fun n seg sl dl lf lf' => ?_, fun l m own list left far due found => ?_⟩
  · intro o m segment left inside empty knot src dst near near' idle ready free there clean written
    obtain ⟨b, moves⟩ := engineTransfer_writes operation segment left inside empty src dst near idle ready free
    have bad : (sourceUnits seg o m).any (fun p => (s.nearBytes p.2 (Loc.plus p.1 sl)).2) = true ↔ ¬ clean := by
      simp only [clean, List.any_eq_true, not_forall, Bool.not_eq_false, exists_prop]
    have gone : ∀ u : State, UnitLeft u core op (e.left.filter fun j => j != n) → written u := by
      rintro u (⟨e', found, left'⟩ | ⟨none_, left'⟩)
      · simp only [written, found]
        exact left'
      · simp only [written, none_]
        simpa [List.filter_eq_nil_iff] using left'
    have finish := fun (g : Go s) (teams : ∀ t, g.st.team? t = s.team? t) (bad : Bool) =>
      writeUnit_written (n := n) (core := core) (op := op) (e := { e with buf := b }) (o := o) (m := m) (sl := sl) (dl := dl) (bad := bad) (g := g) near' knot
        teams fun t a h => there t a (.inr h)
    refine ⟨fun error listed fresh => ?_, fun quiet => ?_⟩
    · rw [bad.2 error] at moves
      have reported : unitReported s { e with buf := b } true (seg.sbase + o) = elementReport (Go.start s) { e with buf := b } (seg.sbase + o) := by
        unfold unitReported
        rw [if_pos]
        simp only [fresh, Bool.not_false, Bool.and_self, Bool.true_and, Option.isSome_iff_ne_none]
        exact listed
      obtain ⟨only, record⟩ := sendRecord_reports (Go.start s) (e.ctx s)
        { FaultRec.event 1 3 (crewId (e.ctx s) e.crew) (seg.sbase + o) s.now with cause := 18 }
      rw [reported] at moves
      obtain ⟨unit, moved, left'⟩ := finish (elementReport (Go.start s) { e with buf := b } (seg.sbase + o)) (fun t => by
        rw [State.team?, show (elementReport (Go.start s) { e with buf := b } (seg.sbase + o)).st = _ from only]
        rfl) true
      exact ⟨(elementReport (Go.start s) { e with buf := b } (seg.sbase + o)).st, _, moves, record, by rw [unit], moved, gone _ left'⟩
    · have silent : ∀ error : Bool, (error = true ↔ ¬ clean) → unitReported s { e with buf := b } error (seg.sbase + o) = Go.start s := by
        intro error iff
        unfold unitReported
        rw [if_neg]
        simp only [Bool.and_eq_true, Bool.not_eq_true', Option.isSome_iff_ne_none, ne_eq]
        rintro ⟨⟨isBad, fresh⟩, listed⟩
        rcases quiet with ok | none_ | poisoned
        · exact iff.1 isBad ok
        · exact listed none_
        · rw [poisoned] at fresh; cases fresh
      rw [silent _ bad] at moves
      obtain ⟨unit, moved, left'⟩ := finish (Go.start s) (fun _ => rfl) _
      exact ⟨_, moves, unit, moved, gone _ left'⟩
  · have isDue := elementDue_iff list left far due
    obtain ⟨-, none_⟩ := endEngine_ends (Go.start s) core op e
    obtain ⟨cores, lists, locks⟩ := endEngine_element (g := Go.start s) (op := op) own list found
    have uncounted := fun h => requestListElement_releases operation own isDue h
    have counted := fun kn (h : e.knot = some kn) outside => requestListElement_counts operation own isDue h outside
    have paid : ∀ kn, let u := (knotPay (endEngine (Go.start s) core op e) e.team kn e.bytes e.clock [] (if e.off then 5 else 4)).st
        u = { s with cores := u.cores, teams := u.teams, crews := u.crews } ∧ u.engineOp core op = none := by
      intro kn u
      have only := OnlyTeams.knotPay (endEngine (Go.start s) core op e) e.team kn e.bytes e.clock [] (if e.off then 5 else 4)
      exact ⟨by rw [show u = _ from only, cores]; rfl, (only.engineOp core op).trans none_⟩
    refine ⟨?_, fun h => ⟨_, uncounted h, cores, none_, lists, locks⟩, fun kn tm knot outside team active aligned => ?_⟩
    · by_cases h : e.knot = none ∨ e.toScratch = true
      case pos => exact ⟨_, uncounted h, none_, by rw [cores]; rfl⟩
      case neg =>
        obtain ⟨some_, outside⟩ := not_or.1 h
        obtain ⟨kn, knot⟩ := Option.ne_none_iff_exists'.1 some_
        obtain ⟨only, none'⟩ := paid kn
        exact ⟨_, counted kn knot (by simpa using outside), none', by rw [only]⟩
    · intro bytes debt more
      obtain ⟨-, -, small, -⟩ := tm.knot_fits kn
      have same : (tm.knot kn).paid e.bytes = { tm.knot kn with debt := debt.toNat } := by
        have eq : ((tm.knot kn).debt + 2 ^ 32 - e.bytes % 2 ^ 32) % 2 ^ 32 = debt.toNat := by
          rw [e.bytes_eq]
          omega
        rw [Knot.paid, eq]
      obtain ⟨only, none'⟩ := paid kn
      obtain ⟨tm', team', knot'⟩ := knotPay_debt (g := endEngine (Go.start s) core op e) (t := e.team) (off := kn) (tm := tm)
        (by rw [State.team?, cores]; exact team) active aligned e.bytes e.clock [] (if e.off then 5 else 4) (by
          rw [same]
          refine more.imp id fun owed => ?_
          dsimp only
          omega)
      exact ⟨_, tm', counted kn knot outside, only, none', team', knot'.trans same⟩

end Sys2Proof
end

section
/-! SUPPORT. Barrier-class instructions: the mask they name, the agreement of splits, the fence of an arrival, and a split that blocks
(R54, R114, R115, R117, R249). -/

namespace Sys2Proof.Machine

open Sys2Proof

variable {s0 : State}

section Checks

variable {s : State} {m : Mn} {f : Fields} {x k : Nat} {c : Crew} {sp : Split} {tm : Team}

theorem memberMask_issueOf (hs : Settled c sp) : memberMask (issueOf s m f x k c sp) = members c f := by
  unfold memberMask members
  rw [issueOf_f, issueOf_cb hs, issueOf_c hs]
  cases f.b with
  | s n =>
    dsimp only
    congr 1
    apply BitVec.eq_of_toNat_eq
    have lo := (c.uni n.toNat).isLt
    have hi := (c.uni (n.toNat + 1)).isLt
    by_cases wide : c.width = 128
    case pos =>
      rw [if_pos wide, if_pos wide]
      simp only [BitVec.toNat_or, BitVec.toNat_ofNat, BitVec.toNat_setWidth, BitVec.toNat_shiftLeft]
      rw [Nat.mod_eq_of_lt (show (c.uni n.toNat).toNat < 2 ^ 128 by omega), Nat.mod_eq_of_lt (show (c.uni (n.toNat + 1)).toNat < 2 ^ 128 by omega),
        Nat.shiftLeft_eq, Nat.mod_eq_of_lt (show (c.uni (n.toNat + 1)).toNat * 2 ^ 64 < 2 ^ 128 by omega), Nat.mod_eq_of_lt (by omega), Nat.lor_comm,
        ← Nat.shiftLeft_eq, ← Nat.shiftLeft_add_eq_or_of_lt lo, Nat.shiftLeft_eq, Nat.add_comm]
    case neg =>
      rw [if_neg wide, if_neg wide]
      simp
  | _ => rfl

theorem disagrees_iff (hs : Settled c sp) (team : s.team? c.team = some tm) (w : Wait) (lanes : Lanes) (bytes : Nat) :
    disagrees s (issueOf s m f x k c sp) w lanes bytes = false ↔ agrees tm c k sp (runLanes s m f x k c sp) lanes w bytes := by
  have act : (issueOf s m f x k c sp).act = sp.mask := rfl
  have place : (issueOf s m f x k c sp).k = k := rfl
  unfold disagrees agrees
  simp only [issueOf_c hs, issueOf_sp hs, issueOf_run, act, place, team, Bool.or_eq_false_iff, bne_eq_false_iff_eq, List.any_eq_false, Bool.and_eq_true,
    Bool.not_eq_true', Bool.or_eq_true, bne_iff_ne, not_or, not_and, and_assoc, Decidable.not_not, ne_eq]

theorem fenceReady_iff (n id : Nat) : s.fenceReady x c id n = true ↔ fenceDone s x c n id := by
  have near : ∀ b : Bool, ¬ b = true ↔ b = false := fun b => by simp
  have loads : (c.loadq.all fun e => decide (id ≤ e.id) || e.back) = true ↔ ∀ e ∈ c.loadq, e.id < id → e.back = true := by
    simp only [List.all_eq_true, Bool.or_eq_true, decide_eq_true_eq, or_iff_not_imp_left, not_le]
  have stores : (c.storeq.all fun e => decide (id ≤ e.id) || s.storeSettled c (n == 5) e) = true ↔ ∀ e ∈ c.storeq, e.id < id → n ≠ 5 ∧
      (e.acked = true ∨ e.near = false) ∧ s.inPasses e.id = false ∧ ∀ f ∈ c.sent, f.store = e.id → f.near = false := by
    simp only [List.all_eq_true, Bool.or_eq_true, decide_eq_true_eq, or_iff_not_imp_left, not_le, State.storeSettled, State.windowStore, Bool.and_eq_true,
      Bool.not_eq_true', beq_eq_false_iff_ne, Bool.or_eq_false_iff, List.any_eq_false, beq_iff_eq, not_and, near, and_assoc]
  have times : (if n = 5 then decide (c.gfab < s.now) && c.sent.all (fun e => decide (id ≤ e.store)) else decide (c.gmod < s.now)) = true ↔
      (n ≠ 5 → c.gmod < s.now) ∧ (n = 5 → c.gfab < s.now ∧ ∀ e ∈ c.sent, id ≤ e.store) := by
    by_cases fab : n = 5 <;> simp [fab]
  unfold State.fenceReady fenceDone
  rw [Bool.or_eq_true, decide_eq_true_eq, Bool.and_eq_true, loads, Bool.or_eq_true, decide_eq_true_eq, Bool.and_eq_true, Bool.and_eq_true, stores, times,
    Bool.not_eq_true', or_iff_not_imp_left (a := n = 2), and_assoc]

theorem scopeOf_team (team : s.team? c.team = some tm) : s.scopeOf c 1 = scopeNo tm 1 := by
  simp only [State.scopeOf, State.pairTeam, team, scopeNo]

theorem teamFenceWaits_iff (hs : Settled c sp) (team : s.team? c.team = some tm) :
    teamFenceWaits s (issueOf s m f x k c sp) = false ↔ fenceDone s x c (scopeNo tm 1) s.seq := by
  unfold teamFenceWaits
  rw [issueOf_c hs, issueOf_x, scopeOf_team team, Bool.not_eq_false', fenceReady_iff]

/-- One cause in every lane in which the instruction takes effect. -/
theorem faultAll_faults (h : s.Executes m f x k c sp) (hs : Settled c sp) (crews : Tab.sorted s.crews = true)
    (splits : Tab.sorted c.splits = true) (some_ : lowest (runLanes s m f x k c sp) c.width ≠ none) {cause : Nat} (small : cause ≤ 22) (present : cause ≠ 6)
    (addr access : Nat) : Faults s (.next (faultAll (Go.start s) (issueOf s m f x k c sp) cause addr access).st) x k c sp cause (runLanes s m f x k c sp) := by
  obtain ⟨-, crew, split, -⟩ := State.issuer_some h.issuer
  have lanes : (issueOf s m f x k c sp).lanes = lanesOf (runLanes s m f x k c sp) c.width := by rw [Issue.lanes, issueOf_c hs, issueOf_run]
  have nonempty : lanesOf (runLanes s m f x k c sp) c.width ≠ [] := by
    intro none_
    apply some_
    rw [lowest, List.find?_eq_none]
    intro l hl lane
    have : l ∈ lanesOf (runLanes s m f x k c sp) c.width := List.mem_filter.2 ⟨hl, lane⟩
    rw [none_] at this
    cases this
  have wins : ∀ (ls : List Nat), ls ≠ [] → winner (ls.map fun l => ({ lane := l, cause := cause, addr := addr } : LaneFault)) = cause := by
    have least : ∀ (ls : List Nat) (n : Nat), cause ≤ n → (ls.map fun l => ({ lane := l, cause := cause, addr := addr } : LaneFault)).foldl
        (fun a f => min a f.cause) n = if ls = [] then n else cause := by
      intro ls
      induction ls with
      | nil => intro n _; rfl
      | cons l ls ih =>
        intro n hn
        rw [List.map_cons, List.foldl_cons, Nat.min_eq_right hn, ih cause le_rfl]
        simp
    intro ls some_
    rw [winner, least ls 22 small, if_neg some_]
  unfold faultAll
  rw [lanes]
  exact takeFault_faults (g := Go.start s) crew split crews splits (wins _ nonempty) present (by simp [faultLanes, List.map_map, Function.comp_def]) _ _ _

end Checks

end Sys2Proof.Machine
end

section
/-! SUPPORT. A split that blocks in a barrier-class instruction, and the arrival that its crew notes (R54, R59, R154). -/

namespace Sys2Proof.Machine

open Sys2Proof

variable {s0 : State}

/-- Crew `d` is crew `c` with its split `k` blocked by `w`. -/
structure Crew.Blocked (c : Crew) (k : Nat) (sp : Split) (w : Wait) (d : Crew) (q : Split) : Prop where
  split  : d.split? k = some q
  own    : q = { sp with st := .blocked, wait := w, run := q.run, windows := q.windows, latchA := q.latchA, latchB := q.latchB }
  others : ∀ j, j ≠ k → d.split? j = (c.split? j).map fun q => { q with latchA := none, latchB := none }
  crew   : d = { c with splits := d.splits, age := d.age, passed := d.passed, boosted := d.boosted, yielded := d.yielded }
  sorted : Tab.sorted c.splits = true → Tab.sorted d.splits = true

theorem park_blocks (g : Go s0) (i : Issue) (w : Wait) {c : Crew} {sp : Split} (crew : g.st.crew? i.x = some c) (split : c.split? i.k = some sp) :
    ∃ s1 d q, OnlyWork g.st s1 ∧ AtCrew s1 i.x d (park g i w).st ∧ Crew.Blocked c i.k sp w d q := by
  let g1 := countWork g i.c.team i.work.1 i.work.2
  let cyc := i.cyclesAfter g1.st
  have counted : g1.st = { g.st with coloc := g1.st.coloc } := countWork_only ..
  let F : Nat → Split → Split := fun j => latchAfter (j == i.k) []
  let p := i.blocked g1.st w sp
  let d : Crew := { c.setSplit i.k p with splits := (c.setSplit i.k p).splits.map fun e => (e.1, F e.1 e.2), age := cyc, passed := cyc, boosted := false
                                          yielded := false }
  have crew1 : g1.st.crew? i.x = some c := by rw [counted]; exact crew
  have at1 : AtCrew g1.st i.x d ((modCrew (modSplit g1 i.x i.k (i.blocked g1.st w)) i.x fun c =>
      { c with splits := c.splits.map fun e => (e.1, latchAfter (e.1 == i.k) [] e.2), age := cyc, passed := cyc, boosted := false, yielded := false }).st) :=
    (modSplit_at crew1 split (i.blocked g1.st w)).modCrew _
  have found : ∀ j, d.split? j = ((c.setSplit i.k p).split? j).map (F j) := fun j => Tab.find_map F ..
  refine ⟨{ g1.st with cycles := Tab.set 0 g1.st.cycles (i.x / 8) cyc }, d, F i.k p, ?_, ?_, ?_, ?_, fun j hj => ?_, rfl, fun h => ?_⟩
  · unfold OnlyWork
    rw [counted]
  · show (Upd.cycle (i.x / 8) cyc).apply _ = _
    rw [show (modCrew _ i.x _).st = _ from at1]
    rfl
  · rw [found, Crew.split?_setSplit]
    rfl
  · simp only [F, latchAfter, beq_self_eq_true, if_true]
    rfl
  · rw [found, Crew.split?_setSplit_other _ _ hj]
    show Option.map (latchAfter (j == i.k) []) (c.split? j) = _
    rw [beq_eq_false_iff_ne.2 hj]
    rfl
  · show Tab.sorted ((c.setSplit i.k p).splits.map fun e => (e.1, F e.1 e.2)) = true
    rw [Tab.sorted_map]
    exact Tab.sorted_put _ _ _ h

/-- The split stays on its instruction, and the registers of its crew are the same. -/
theorem Crew.Blocked.blocks {c d e : Crew} {k : Nat} {sp q : Split} {w : Wait} (h : Crew.Blocked c k sp w d q) {u : State} {x : Nat}
    {o : Host.Outcome State Fault Refusal} (next : o = .next u) (crew : u.crew? x = some e) (splits : e.splits = d.splits) (regs : SameRegs e c) :
    Blocks o u x k c e sp q w := by
  obtain ⟨split, own, -⟩ := h
  refine ⟨next, crew, by rw [Crew.split?, splits]; exact split, ?_⟩
  rw [own]
  exact ⟨rfl, rfl, rfl, rfl, rfl, rfl, regs.v, regs.s, regs.p, regs.lay⟩

theorem Crew.Blocked.regs {c d : Crew} {k : Nat} {sp q : Split} {w : Wait} (h : Crew.Blocked c k sp w d q) : SameRegs d c := by
  rw [h.crew]
  exact ⟨rfl, rfl, rfl, rfl, rfl, rfl⟩

/-- The arrival that lanes `run`, at clock `clk`, make or join (R54). -/
def Crew.arrivalOf (c : Crew) (w : Wait) (mask run : Lanes) (bytes clk : Nat) : Arrival :=
  { what := w, mask := mask, bytes := bytes, lanes := (arrivedBefore c w).1 ||| run, clock := max (arrivedBefore c w).2 clk }

theorem Crew.arrivalOf_lanes (c : Crew) (w : Wait) (mask run : Lanes) (bytes clk : Nat) :
    (c.arrivalOf w mask run bytes clk).lanes = (arrivedBefore c w).1 ||| run := rfl

/-- The crew with an arrival in the place of the one that it continues. -/
def Crew.arrive (a : Arrival) (c : Crew) : Crew := { c with arriving := (c.arriving.filter fun b => b.what != a.what || b.done) ++ [a] }

section Member

variable {s : State} {m : Mn} {f : Fields} {x k : Nat} {c : Crew} {sp : Split}

/-- The path of a barrier-class instruction: its split blocks, and where no lane is missing its crew arrives. -/
theorem member_path (h : s.Executes m f x k c sp) (hs : Settled c sp) (w : Wait) (mask : Lanes) (bytes : Nat) :
    let a := c.arrivalOf w mask (runLanes s m f x k c sp) bytes (sp.clock + 1)
    ∃ (s1 : State) (d : Crew) (q : Split) (g : Go s), OnlyWork s s1 ∧ Crew.Blocked c k sp w d q ∧ AtCrew s1 x (d.arrive a) g.st ∧
      member (Go.start s) (issueOf s m f x k c sp) w mask bytes = if mask &&& ~~~c.exited &&& ~~~a.lanes = 0 then arrived g x a else g := by
  intro a
  obtain ⟨-, crew, split, -⟩ := State.issuer_some h.issuer
  obtain ⟨s1, d, q, work, at1, blocked⟩ := park_blocks (Go.start s) (issueOf s m f x k c sp) w crew split
  refine ⟨s1, d, q, _, work, blocked, at1.modCrew (Crew.arrive a), ?_⟩
  simp only [a, Crew.arrivalOf, arrivedBefore]
  unfold member
  simp only [issueOf_c hs, issueOf_sp hs, issueOf_run, issueOf_x]
  cases c.arriving.find? (fun a => a.what == w && !a.done) <;> rfl

end Member

end Sys2Proof.Machine
end

section
/-! SUPPORT. The end of the waits of a crew, and a team barrier that every crew has reached (R54, R55, R72). -/

namespace Sys2Proof.Machine

open Sys2Proof

variable {s0 : State}

/-- A split whose wait for `w`, if it is one, has ended. -/
def Split.ended (w : Wait) (clk : Nat) (q : Split) : Split := if q.wait = w then q.goOn clk else q

theorem Split.ended_ended {w : Wait} (hw : w ≠ .none) (clk : Nat) (q : Split) : (q.ended w clk).ended w clk = q.ended w clk := by
  unfold Split.ended
  by_cases waits : q.wait = w
  case pos => rw [if_pos waits, if_neg (show (q.goOn clk).wait ≠ w from hw.symm)]
  case neg => rw [if_neg waits, if_neg waits]

/-- Crew `d` is the running crew `c` after its waits for `w` have ended. -/
structure Crew.Ended (w : Wait) (clk : Nat) (c d : Crew) : Prop where
  crew   : d = { c with splits := d.splits, vc := d.vc, passed := d.passed }
  splits : ∀ j, d.split? j = (c.split? j).map (Split.ended w clk)
  sorted : Tab.sorted d.splits = true

theorem Crew.endWait_running {c : Crew} {j : Nat} {q : Split} (run : c.st = .running) (split : c.split? j = some q) (cyc clk : Nat) (vc : Table Nat) :
    c.endWait cyc clk vc j = { c with splits := Tab.put c.splits j (q.goOn clk), vc := vcJoin c.vc vc, passed := max c.passed cyc } := by
  unfold Crew.endWait
  simp only [split, if_pos run]
  rfl

/-- The ends of the waits of listed splits. -/
theorem Crew.foldl_endWait (l : List (Nat × Split)) (c : Crew) (run : c.st = .running) (sorted : Tab.sorted c.splits = true)
    (listed : ∀ e ∈ l, c.split? e.1 = some e.2) (distinct : (l.map Prod.fst).Nodup) (cyc clk : Nat) (vc : Table Nat) :
    let d := l.foldl (fun c e => c.endWait cyc clk vc e.1) c
    d = { c with splits := d.splits, vc := d.vc, passed := d.passed } ∧ Tab.sorted d.splits = true ∧
      ∀ j, d.split? j = if j ∈ l.map Prod.fst then (c.split? j).map (Split.goOn clk) else c.split? j := by
  induction l generalizing c with
  | nil => exact ⟨rfl, sorted, fun _ => rfl⟩
  | cons e l ih =>
    obtain ⟨i, q⟩ := e
    simp only [List.map_cons, List.nodup_cons] at distinct
    obtain ⟨new, distinct⟩ := distinct
    have first := Crew.endWait_running run (listed _ List.mem_cons_self) cyc clk vc
    have other : ∀ j, j ≠ i → (c.endWait cyc clk vc i).split? j = c.split? j := fun j hj => by
      rw [first]
      exact Tab.find_put_other _ _ hj
    obtain ⟨whole, sorted', splits⟩ := ih (c.endWait cyc clk vc i) (by rw [first]; exact run) (by rw [first]; exact Tab.sorted_put _ _ _ sorted)
      (fun e he => by
        rw [other e.1 (by rintro rfl; exact new (List.mem_map_of_mem he))]
        exact listed e (List.mem_cons_of_mem _ he)) distinct
    refine ⟨?_, sorted', fun j => ?_⟩
    · rw [List.foldl_cons, whole, first]
    · rw [List.foldl_cons, splits, List.map_cons]
      by_cases own : j = i
      case pos =>
        subst own
        rw [if_neg new, if_pos List.mem_cons_self, first, listed _ List.mem_cons_self]
        exact Tab.find_put_same ..
      case neg => simp only [other j own, List.mem_cons, own, false_or]

theorem Tab.nodup_keys {β : Type} {t : Table β} (h : Tab.sorted t = true) : (t.map Prod.fst).Nodup :=
  List.pairwise_map.2 ((Tab.pairwise_of_sorted h).imp fun lt => Nat.ne_of_lt lt)

/-- The waits of a running crew for `w` end. -/
theorem endWaits_ends {g : Go s0} {x : Nat} {c : Crew} (crew : g.st.crew? x = some c) (run : c.st = .running) (sorted : Tab.sorted c.splits = true)
    (w : Wait) (clk : Nat) (vc : Table Nat) : ∃ d, AtCrew g.st x d (endWaits g x w clk vc).st ∧ Crew.Ended w clk c d := by
  obtain ⟨whole, sorted', splits⟩ := Crew.foldl_endWait (c.splits.filter fun e => e.2.wait == w) c run sorted
    (fun e he => (Tab.mem_iff_find sorted).1 (List.mem_filter.1 he).1) ((List.filter_sublist.map Prod.fst).nodup (Tab.nodup_keys sorted))
    (Tab.get 0 g.st.cycles (x / 8)) clk vc
  refine ⟨_, modCrew_at crew _, whole, fun j => ?_, sorted'⟩
  rw [splits]
  cases split : c.split? j with
  | none => simp
  | some q =>
    have listed : j ∈ (c.splits.filter fun e => e.2.wait == w).map Prod.fst ↔ q.wait = w := by
      simp only [List.mem_map, List.mem_filter, beq_iff_eq]
      constructor
      · rintro ⟨e, ⟨he, waits⟩, rfl⟩
        rw [show c.split? e.1 = some e.2 from (Tab.mem_iff_find sorted).1 he] at split
        cases split
        exact waits
      · exact fun waits => ⟨(j, q), ⟨Tab.mem_of_find split, waits⟩, rfl⟩
    rw [Option.map_some, Option.map_some, Split.ended]
    by_cases waits : q.wait = w
    case pos => rw [if_pos (listed.2 waits), if_pos waits]
    case neg => rw [if_neg (mt listed.1 waits), if_neg waits]

theorem endWaits_other (g : Go s0) {x y : Nat} (h : y ≠ x) (w : Wait) (clk : Nat) (vc : Table Nat) : (endWaits g x w clk vc).st.crew? y = g.st.crew? y := by
  unfold endWaits modCrew
  split
  · exact State.crew?_put_other _ _ h
  · rfl

theorem modCrew_other (g : Go s0) {x y : Nat} (h : y ≠ x) (F : Crew → Crew) : (modCrew g x F).st.crew? y = g.st.crew? y := by
  unfold modCrew
  split
  · exact State.crew?_put_other _ _ h
  · rfl

/-! ### A barrier -/

/-- What the completion of a barrier does for one of its crews. -/
def barRelease (b clk : Nat) (vc : Table Nat) (pair : Bool) (x : Nat) (g : Go s0) : Go s0 :=
  let g := endWaits (modCrew g x (Crew.phaseEnd (· == .bar b))) x (.bar b) clk vc
  if pair then dropCopies g x else g

/-- A crew after barriers of its team: nothing of it has changed but waits, arrivals and what orders it. -/
def Crew.PastBar (c d : Crew) : Prop :=
  d = { c with splits := d.splits, vc := d.vc, passed := d.passed, arriving := d.arriving, minGrant := d.minGrant }

theorem Crew.PastBar.trans {a b c : Crew} (h : Crew.PastBar a b) (h' : Crew.PastBar b c) : Crew.PastBar a c := by
  unfold Crew.PastBar at h h' ⊢
  rw [h', h]

section Release

variable {g : Go s0} {b clk : Nat} {vc : Table Nat} {pair : Bool} {y : Nat} {c : Crew}

theorem barRelease_own (crew : g.st.crew? y = some c) (run : c.st = .running) (sorted : Tab.sorted c.splits = true) :
    ∃ d, (barRelease b clk vc pair y g).st.crew? y = some d ∧ Crew.PastBar c d ∧ Tab.sorted d.splits = true ∧
      ∀ j, d.split? j = (c.split? j).map (Split.ended (.bar b) clk) := by
  have at1 := modCrew_at crew (Crew.phaseEnd (· == .bar b))
  obtain ⟨d, at2, whole, splits, sorted'⟩ := endWaits_ends at1.crew run sorted (.bar b) clk vc
  have past : Crew.PastBar c d := by
    unfold Crew.PastBar
    rw [whole]
    rfl
  unfold barRelease
  dsimp only
  split
  · exact ⟨_, (modCrew_at at2.crew _).crew, past.trans rfl, sorted', splits⟩
  · exact ⟨d, at2.crew, past, sorted', splits⟩

theorem barRelease_other {z : Nat} (h : y ≠ z) : (barRelease b clk vc pair z g).st.crew? y = g.st.crew? y := by
  unfold barRelease
  dsimp only
  split
  · rw [dropCopies, modCrew_other _ h, endWaits_other _ h, modCrew_other _ h]
  · rw [endWaits_other _ h, modCrew_other _ h]

theorem barRelease_only (z : Nat) : (barRelease b clk vc pair z g).st = { g.st with crews := (barRelease b clk vc pair z g).st.crews } := by
  unfold barRelease
  dsimp only
  split
  · rw [dropCopies, modCrew_only, endWaits, modCrew_only, modCrew_only]
  · rw [endWaits, modCrew_only, modCrew_only]

/-- Every crew that has arrived goes on. -/
theorem barRelease_each (xs : List Nat) (crew : g.st.crew? y = some c) (run : c.st = .running) (sorted : Tab.sorted c.splits = true) :
    ∃ d, (g.each xs (barRelease b clk vc pair)).st.crew? y = some d ∧ Crew.PastBar c d ∧
      ∀ j, d.split? j = if y ∈ xs then (c.split? j).map (Split.ended (.bar b) clk) else c.split? j := by
  induction xs generalizing g c with
  | nil => exact ⟨c, crew, rfl, fun _ => rfl⟩
  | cons z xs ih =>
    by_cases own : y = z
    case neg =>
      obtain ⟨d, crew', past, splits⟩ := ih (g := barRelease b clk vc pair z g) ((barRelease_other own).trans crew) run sorted
      exact ⟨d, crew', past, fun j => by rw [splits]; simp only [List.mem_cons, own, false_or]⟩
    case pos =>
      subst own
      obtain ⟨c1, crew1, past1, sorted1, splits1⟩ := barRelease_own (b := b) (clk := clk) (vc := vc) (pair := pair) crew run sorted
      obtain ⟨d, crew', past, splits⟩ := ih (g := barRelease b clk vc pair y g) crew1 (by rw [past1]; exact run) sorted1
      refine ⟨d, crew', past1.trans past, fun j => ?_⟩
      rw [splits, splits1, if_pos List.mem_cons_self]
      split
      · rw [Option.map_map]
        congr 1
        funext q
        exact Split.ended_ended (by simp) clk q
      · rfl

theorem barRelease_each_only (xs : List Nat) : (g.each xs (barRelease b clk vc pair)).st = { g.st with crews := (g.each xs (barRelease b clk vc pair)).st.crews } :=
  Go.each_keeps (P := fun u => u = { g.st with crews := u.crews }) (fun z _ g' h => by rw [barRelease_only, h]) g rfl

end Release

end Sys2Proof.Machine
end

section
/-! SUPPORT. O25: the arrival of a crew at a team barrier (R54, R55, R72, R249, R251). -/

namespace Sys2Proof.Machine

open Sys2Proof

variable {s0 : State}

theorem AtCrew.modTeam {s : State} {x n : Nat} {v : Crew} {tm : Team} {g : Go s0} (h : AtCrew s x v g.st) (team : s.team? n = some tm) (F : Team → Team) :
    AtCrew { s with teams := Tab.put s.teams n (F tm) } x v (modTeam g n F).st := by
  rw [modTeam_some g F ((h.team n).trans team), Go.put_st, show g.st = _ from h]
  rfl

/-- The barrier after one more crew has arrived, at clock `clk`. -/
def BarSt.joined (old : BarSt) (x clk : Nat) (vc : Table Nat) : BarSt := { crews := old.crews ++ [x], clock := max old.clock clk, vc := vcJoin old.vc vc }

section Arrive

variable {s1 : State} {x b : Nat} {v : Crew} {tm : Team} {g : Go s0} {a : Arrival}

/-- The arrival of a crew at a barrier (R55). -/
theorem arrived_bar (at1 : AtCrew s1 x v g.st) (team : s1.team? v.team = some tm) (what : a.what = .bar b) :
    let old := (Tab.find tm.bars b).getD { crews := [], clock := 0, vc := [] }
    ∃ w vc g', w = { v with arriving := w.arriving, order := w.order, epoch := w.epoch } ∧
      AtCrew { s1 with teams := Tab.put s1.teams v.team { tm with bars := Tab.put tm.bars b (old.joined x a.clock vc) } } x w g'.st ∧
      arrived g x a = barCheck g' v.team b := by
  intro old
  let phase := match g.st.team? v.team with | some tm => tm.phaseNow a.what | none => 0
  let g1 := Machine.modCrew g x (Crew.noteArrived a.what phase)
  let v1 := Crew.noteArrived a.what phase v
  have at2 : AtCrew s1 x v1 g1.st := at1.modCrew _
  have at3 := (at2.modTeam team fun tm =>
    { tm with bars := Tab.put tm.bars b (((Tab.find tm.bars b).getD { crews := [], clock := 0, vc := [] }).joined x a.clock v1.snapshot) }).modCrew Crew.released
  refine ⟨v1.released, v1.snapshot, _, rfl, at3, ?_⟩
  unfold arrived
  simp only [at1.crew]
  rw [what]
  dsimp only
  unfold barArrive
  rw [show (Machine.modCrew g x (Crew.noteArrived (.bar b) _)).st.crew? x = some v1 by rw [← what]; exact at2.crew]
  simp only [← what]
  rfl

end Arrive

section Check

variable {s2 : State} {x b n : Nat} {w : Crew} {tm : Team} {bs : BarSt} {g : Go s0}

/-- Where a crew of the team that has not exited is missing, the barrier waits. -/
theorem barCheck_waits (team : g.st.team? n = some tm) (bar : Tab.find tm.bars b = some bs) {y : Nat} {d : Crew} (crew : g.st.crew? y = some d)
    (mine : d.team = n) (live : d.st ≠ .draining) (missing : y ∉ bs.crews) : barCheck g n b = g := by
  unfold barCheck
  simp only [team, bar]
  rw [if_neg]
  simp only [List.all_eq_true, not_forall]
  refine ⟨(y, d), List.mem_filter.2 ⟨Tab.mem_of_find crew, by simp [mine, live]⟩, by simpa using missing⟩

/-- With the last crew every one goes on, and the barrier is free. -/
theorem barCheck_completes (team : g.st.team? n = some tm) (bar : Tab.find tm.bars b = some bs) (sorted : Tab.sorted g.st.crews = true)
    (all : ∀ y d, g.st.crew? y = some d → d.team = n → d.st ≠ .draining → y ∈ bs.crews) :
    barCheck g n b = (g.put (.team n (some { tm with bars := Tab.del tm.bars b }))).each bs.crews (barRelease b bs.clock bs.vc tm.pair) := by
  have here : ((g.st.liveCrews n).all fun e => bs.crews.contains e.1) = true := by
    rw [List.all_eq_true]
    intro e he
    obtain ⟨listed, live⟩ := List.mem_filter.1 he
    simp only [Bool.and_eq_true, beq_iff_eq, bne_iff_ne] at live
    exact List.contains_iff_mem.2 (all e.1 e.2 ((Tab.mem_iff_find sorted).1 listed) live.1 live.2)
  unfold barCheck
  simp only [team, bar, here, if_true]
  rw [modTeam_some _ _ team]
  rfl

end Check

end Sys2Proof.Machine
end

section
/-! SUPPORT. O25: `bar`, outcome by outcome (R54, R55, R249, R251). -/

namespace Sys2Proof.Machine

open Sys2Proof

section Bar

variable {f : Fields} {s : State} {x k : Nat} {c : Crew} {sp : Split} {tm : Team}

theorem runLanes_ne_zero {m : Mn} (some_ : lowest (runLanes s m f x k c sp) c.width ≠ none) : runLanes s m f x k c sp ≠ 0 := by
  intro zero
  apply some_
  rw [zero, lowest, List.find?_eq_none]
  simp [hasLane]

/-- The barrier that a `bar` names. -/
theorem barBody_eq (hs : Settled c sp) (some_ : lowest (runLanes s .bar f x k c sp) c.width ≠ none) :
    barBody (issueOf s .bar f x k c sp) (Go.start s) =
      if 15 < operand64 c f.a ∨ members c f = 0 then faultAll (Go.start s) (issueOf s .bar f x k c sp) 3 0 0
      else if disagrees s (issueOf s .bar f x k c sp) (.bar (operand64 c f.a)) (members c f) 0 then faultAll (Go.start s) (issueOf s .bar f x k c sp) 15 0 0
      else if teamFenceWaits s (issueOf s .bar f x k c sp) then Go.start s
      else member (Go.start s) (issueOf s .bar f x k c sp) (.bar (operand64 c f.a)) (members c f) 0 := by
  unfold barBody
  rw [issueOf_run, if_neg (runLanes_ne_zero some_)]
  simp only [memberMask_issueOf hs, issueOf_ca hs, issueOf_f, Go.start_st, Bool.or_eq_true, decide_eq_true_eq]

variable (h : s.Executes .bar f x k c sp) (hs : Settled c sp) (crews : Tab.sorted s.crews = true) (splits : Tab.sorted c.splits = true)
  (team : s.team? c.team = some tm) (some_ : lowest (runLanes s .bar f x k c sp) c.width ≠ none)

include h hs crews splits some_ in
theorem bar_refuses (bad : 15 < operand64 c f.a ∨ members c f = 0) : Faults s (exec (.bar f) s) x k c sp 3 (runLanes s .bar f x k c sp) := by
  have answers : exec (.bar f) s = .next (barBody (issueOf s .bar f x k c sp) (Go.start s)).st := crewStep_executes h _
  rw [answers, barBody_eq hs some_, if_pos bad]
  exact faultAll_faults h hs crews splits some_ (by decide) (by decide) 0 0

variable (small : operand64 c f.a ≤ 15) (named : members c f ≠ 0)

include h hs crews splits team some_ small named in
theorem bar_disagrees (differs : ¬ agrees tm c k sp (runLanes s .bar f x k c sp) (members c f) (.bar (operand64 c f.a)) 0) :
    Faults s (exec (.bar f) s) x k c sp 15 (runLanes s .bar f x k c sp) := by
  have answers : exec (.bar f) s = .next (barBody (issueOf s .bar f x k c sp) (Go.start s)).st := crewStep_executes h _
  have no : disagrees s (issueOf s .bar f x k c sp) (.bar (operand64 c f.a)) (members c f) 0 = true := by
    rw [← Bool.not_eq_false, disagrees_iff hs team]
    exact differs
  rw [answers, barBody_eq hs some_, if_neg (not_or.2 ⟨not_lt.2 small, named⟩), if_pos no]
  exact faultAll_faults h hs crews splits some_ (by decide) (by decide) 0 0

variable (same : agrees tm c k sp (runLanes s .bar f x k c sp) (members c f) (.bar (operand64 c f.a)) 0) (fence : fenceDone s x c (scopeNo tm 1) s.seq)

include h hs team some_ small named same fence in
/-- Where nothing refuses it, the split joins the barrier. -/
theorem bar_joins : exec (.bar f) s =
    .next (member (Go.start s) (issueOf s .bar f x k c sp) (.bar (operand64 c f.a)) (members c f) 0).st := by
  have answers : exec (.bar f) s = .next (barBody (issueOf s .bar f x k c sp) (Go.start s)).st := crewStep_executes h _
  have yes := (disagrees_iff (x := x) (k := k) (m := .bar) hs team (.bar (operand64 c f.a)) (members c f) 0).2 same
  have ready := (teamFenceWaits_iff (x := x) (k := k) (m := .bar) (f := f) hs team).2 fence
  rw [answers, barBody_eq hs some_, if_neg (not_or.2 ⟨not_lt.2 small, named⟩), if_neg (by rw [yes]; decide), if_neg (by rw [ready]; decide)]

include h hs team some_ small named same fence in
/-- Lanes of the mask are missing: the split waits for them. -/
theorem bar_waits_lanes
    (missing : members c f &&& ~~~c.exited &&& ~~~((arrivedBefore c (.bar (operand64 c f.a))).1 ||| runLanes s .bar f x k c sp) ≠ 0) :
    ∃ u c' sp', Blocks (exec (.bar f) s) u x k c c' sp sp' (.bar (operand64 c f.a)) ∧ OnlyCrew s u x ∧
      ∃ a ∈ c'.arriving, a.what = .bar (operand64 c f.a) ∧ a.mask = members c f ∧
        a.lanes = (arrivedBefore c (.bar (operand64 c f.a))).1 ||| runLanes s .bar f x k c sp ∧
        a.clock = max (arrivedBefore c (.bar (operand64 c f.a))).2 (sp.clock + 1) := by
  have joins := bar_joins h hs team some_ small named same fence
  obtain ⟨s1, d, q, g, work, blocked, at1, path⟩ := member_path h hs (.bar (operand64 c f.a)) (members c f) 0
  rw [path, Crew.arrivalOf_lanes, if_neg missing] at joins
  exact ⟨g.st, _, q, blocked.blocks joins at1.crew rfl (SameRegs.trans (b := d) ⟨rfl, rfl, rfl, rfl, rfl, rfl⟩ blocked.regs), at1.only work, _, List.mem_append_right _ (List.mem_singleton_self _), rfl, rfl, rfl, rfl⟩

include h hs team some_ small named same fence in
/-- The crew arrives, and the barrier is checked. -/
theorem bar_arrives
    (whole : members c f &&& ~~~c.exited &&& ~~~((arrivedBefore c (.bar (operand64 c f.a))).1 ||| runLanes s .bar f x k c sp) = 0) :
    let old := (Tab.find tm.bars (operand64 c f.a)).getD { crews := [], clock := 0, vc := [] }
    let clk := max (arrivedBefore c (.bar (operand64 c f.a))).2 (sp.clock + 1)
    ∃ (s1 : State) (d : Crew) (q : Split) (w : Crew) (vc : Table Nat) (g : Go s), OnlyWork s s1 ∧ Crew.Blocked c k sp (.bar (operand64 c f.a)) d q ∧
      w = { d with arriving := w.arriving, order := w.order, epoch := w.epoch } ∧
      AtCrew { s1 with teams := Tab.put s.teams c.team { tm with bars := Tab.put tm.bars (operand64 c f.a) (old.joined x clk vc) } } x w g.st ∧
      exec (.bar f) s = .next (barCheck g c.team (operand64 c f.a)).st := by
  intro old clk
  have joins := bar_joins h hs team some_ small named same fence
  obtain ⟨s1, d, q, g, work, blocked, at1, path⟩ := member_path h hs (.bar (operand64 c f.a)) (members c f) 0
  rw [path, Crew.arrivalOf_lanes, if_pos whole] at joins
  have mine : (d.arrive (c.arrivalOf (.bar (operand64 c f.a)) (members c f) (runLanes s .bar f x k c sp) 0 (sp.clock + 1))).team = c.team := by
    rw [blocked.crew]; rfl
  have team1 : s1.team? c.team = some tm := by rw [work]; exact team
  obtain ⟨w, vc, g', whole', at2, check⟩ := arrived_bar (b := operand64 c f.a)
    (a := c.arrivalOf (.bar (operand64 c f.a)) (members c f) (runLanes s .bar f x k c sp) 0 (sp.clock + 1)) at1 (by rw [mine]; exact team1) rfl
  rw [mine] at at2 check
  rw [check] at joins
  refine ⟨s1, d, q, w, vc, g', work, blocked, by rw [whole']; rfl, ?_, joins⟩
  rw [show s1.teams = s.teams by rw [work]] at at2
  exact at2

include h hs team some_ small named same fence in
/-- A crew of the team is missing: the barrier waits for it. -/
theorem bar_waits_crews
    (whole : members c f &&& ~~~c.exited &&& ~~~((arrivedBefore c (.bar (operand64 c f.a))).1 ||| runLanes s .bar f x k c sp) = 0) :
    let b := operand64 c f.a
    let old := (Tab.find tm.bars b).getD { crews := [], clock := 0, vc := [] }
    let clk := max (arrivedBefore c (.bar b)).2 (sp.clock + 1)
    (¬ ∀ y d, s.crew? y = some d → d.team = c.team → d.st ≠ .draining → y = x ∨ y ∈ old.crews) →
    ∃ u c' sp' tm' bs, Blocks (exec (.bar f) s) u x k c c' sp sp' (.bar b) ∧
      u = { s with crews := u.crews, cycles := u.cycles, coloc := u.coloc, teams := u.teams } ∧ u.team? c.team = some tm' ∧
      tm' = { tm with bars := tm'.bars } ∧ Tab.find tm'.bars b = some bs ∧ bs.crews = old.crews ++ [x] ∧ bs.clock = max old.clock clk ∧
      ∀ y, y ≠ x → u.crew? y = s.crew? y := by
  intro b old clk more
  obtain ⟨s1, d, q, w, vc, g, work, blocked, arrived, at2, joins⟩ := bar_arrives h hs team some_ small named same fence whole
  have missing : ∃ y d, s.crew? y = some d ∧ d.team = c.team ∧ d.st ≠ .draining ∧ y ≠ x ∧ y ∉ old.crews := by
    by_contra none_
    push Not at none_
    exact more fun y d crew mine live => or_iff_not_imp_left.2 fun other => by_contra fun absent => absent (none_ y d crew mine live other)
  obtain ⟨y, e, crew, mine, live, other, absent⟩ := missing
  have others : ∀ z, z ≠ x → g.st.crew? z = s.crew? z := fun z hz => by
    rw [show g.st = _ from at2, work]
    exact Tab.find_put_other _ _ hz
  have team2 : g.st.team? c.team = some { tm with bars := Tab.put tm.bars b (old.joined x clk vc) } := by
    rw [show g.st = _ from at2]
    exact Tab.find_put_same ..
  have stays := barCheck_waits (b := b) team2 (Tab.find_put_same ..) ((others y other).trans crew) mine live (by simp [BarSt.joined, absent, other])
  rw [stays] at joins
  exact ⟨g.st, w, q, _, _, blocked.blocks joins at2.crew (by rw [arrived]) (SameRegs.trans (b := d) (by rw [arrived]; exact ⟨rfl, rfl, rfl, rfl, rfl, rfl⟩) blocked.regs),
    by rw [show g.st = _ from at2, work], team2, rfl, Tab.find_put_same .., rfl, rfl, others⟩

include h hs crews splits team some_ small named same fence in
/-- With the last crew every one goes on. -/
theorem bar_completes
    (whole : members c f &&& ~~~c.exited &&& ~~~((arrivedBefore c (.bar (operand64 c f.a))).1 ||| runLanes s .bar f x k c sp) = 0) :
    let b := operand64 c f.a
    let old := (Tab.find tm.bars b).getD { crews := [], clock := 0, vc := [] }
    let clk := max (arrivedBefore c (.bar b)).2 (sp.clock + 1)
    (∀ y d, s.crew? y = some d → d.team = c.team → d.st ≠ .draining → y = x ∨ y ∈ old.crews) →
    ∃ u c' sp' tm', Onward (exec (.bar f) s) u x k c c' sp sp' ∧
      u = { s with crews := u.crews, cycles := u.cycles, coloc := u.coloc, teams := u.teams } ∧ u.team? c.team = some tm' ∧
      tm' = { tm with bars := tm'.bars } ∧ Tab.find tm'.bars b = none ∧ sp'.clock = max (sp.clock + 1) (max old.clock clk) ∧
      ∀ y ∈ old.crews, y ≠ x → Released s u y (.bar b) (max old.clock clk) := by
  intro b old clk all
  obtain ⟨s1, d, q, w, vc, g, work, blocked, arrived, at2, joins⟩ := bar_arrives h hs team some_ small named same fence whole
  obtain ⟨-, -, -, running, -⟩ := State.issuer_some h.issuer
  have others : ∀ z, z ≠ x → g.st.crew? z = s.crew? z := fun z hz => by
    rw [show g.st = _ from at2, work]
    exact Tab.find_put_other _ _ hz
  have team2 : g.st.team? c.team = some { tm with bars := Tab.put tm.bars b (old.joined x clk vc) } := by
    rw [show g.st = _ from at2]
    exact Tab.find_put_same ..
  have completes := barCheck_completes (b := b) team2 (Tab.find_put_same ..) (by rw [show g.st = _ from at2, work]; exact Tab.sorted_put _ _ _ crews)
    fun y e crew mine live => by
      by_cases own : y = x
      case pos => simp [BarSt.joined, own]
      case neg => simp [BarSt.joined, (all y e ((others y own).symm.trans crew) mine live).resolve_left own]
  rw [completes] at joins
  have still : ∀ y, (g.put (.team c.team (some { tm with bars := Tab.del (Tab.put tm.bars b (old.joined x clk vc)) b }))).st.crew? y = g.st.crew? y :=
    fun _ => rfl
  have wst : w.st = .running ∧ w.splits = d.splits ∧ SameRegs w d := by rw [arrived]; exact ⟨by rw [blocked.crew]; exact running, rfl, ⟨rfl, rfl, rfl, rfl, rfl, rfl⟩⟩
  obtain ⟨wrun, wsplits, wregs⟩ := wst
  obtain ⟨c', crew', past, goesOn⟩ := barRelease_each (b := b) (clk := (old.joined x clk vc).clock) (vc := (old.joined x clk vc).vc) (pair := tm.pair)
    (old.joined x clk vc).crews ((still x).trans at2.crew) wrun (by rw [wsplits]; exact blocked.sorted splits)
  have mine : x ∈ (old.joined x clk vc).crews := by simp [BarSt.joined]
  have ended : c'.split? k = some (q.ended (.bar b) (old.joined x clk vc).clock) := by
    rw [goesOn, if_pos mine, Crew.split?, wsplits, show Tab.find d.splits k = some q from blocked.split]
    rfl
  have waited : q.ended (.bar b) (old.joined x clk vc).clock = q.goOn (old.joined x clk vc).clock := if_pos (by rw [blocked.own])
  have regs : SameRegs c' c := by
    refine SameRegs.trans (b := w) ?_ (wregs.trans blocked.regs)
    rw [past]
    exact ⟨rfl, rfl, rfl, rfl, rfl, rfl⟩
  rw [waited, blocked.own] at ended
  refine ⟨_, c', _, { tm with bars := Tab.del (Tab.put tm.bars b (old.joined x clk vc)) b }, ⟨joins, crew', ended, rfl, rfl, rfl, rfl, regs.v, regs.s, regs.p, regs.lay⟩, ?_, ?_, rfl, ?_, rfl, fun y hy other => ?_⟩
  · rw [barRelease_each_only, Go.put_st, show g.st = _ from at2, work]
    rfl
  · rw [State.team?, barRelease_each_only]
    exact Tab.find_put_same ..
  · exact Tab.find_del_same ..
  · intro e j p crew run sortedE split waits
    obtain ⟨e', crew', -, goesOn⟩ := barRelease_each (b := b) (clk := (old.joined x clk vc).clock) (vc := (old.joined x clk vc).vc) (pair := tm.pair)
      (old.joined x clk vc).crews ((still y).trans ((others y other).trans crew)) run sortedE
    refine ⟨e', p.goOn (old.joined x clk vc).clock, crew', ?_, rfl, rfl, rfl⟩
    rw [goesOn, if_pos (by simp [BarSt.joined, hy]), split, Option.map_some, Split.ended, if_pos waits]

end Bar

end Sys2Proof.Machine

namespace Sys2Proof

open Machine

/-- Settles O25: the barrier's checks (`bar_refuses`, `bar_disagrees`), the wait for lanes and for crews, and the release of all. -/
theorem teamBarriers : Obligations.TeamBarriers := by
  unfold Obligations.TeamBarriers
  intro f s x k c sp tm h hs crews splits team some_ run b m before clk old last o
  exact ⟨bar_refuses h hs crews splits some_, fun small named differs => bar_disagrees h hs crews splits team some_ small named differs,
    fun small named same fence => ⟨bar_waits_lanes h hs team some_ small named same fence, bar_waits_crews h hs team some_ small named same fence,
      bar_completes h hs crews splits team some_ small named same fence⟩⟩

end Sys2Proof
end

section
/-! SUPPORT. What a write to scratch leaves of each crew: only waits for words end (R257, R260). -/

namespace Sys2Proof.Machine

open Sys2Proof

variable {s0 : State}

/-- Is it a wait for a word? -/
def Wait.isWord : Wait → Bool
  | .word .. => true
  | _ => false

/-- Crew `d` is the running crew `c` further on: waits for words may have ended. -/
structure Crew.PastWords (c d : Crew) : Prop where
  crew   : d = { c with splits := d.splits, vc := d.vc, passed := d.passed, seen := d.seen, minGrant := d.minGrant }
  sorted : Tab.sorted d.splits = true
  split  : ∀ j q, c.split? j = some q → q.wait.isWord = false → d.split? j = some q

theorem Crew.PastWords.refl {c : Crew} (sorted : Tab.sorted c.splits = true) : Crew.PastWords c c := ⟨rfl, sorted, fun _ _ h _ => h⟩

theorem Crew.PastWords.trans {a b c : Crew} (h : Crew.PastWords a b) (h' : Crew.PastWords b c) : Crew.PastWords a c :=
  ⟨by rw [h'.crew, h.crew], h'.sorted, fun j q split other => h'.split j q (h.split j q split other) other⟩

theorem Crew.PastWords.regs {c d : Crew} (h : Crew.PastWords c d) : SameRegs d c := by
  rw [h.crew]
  exact ⟨rfl, rfl, rfl, rfl, rfl, rfl⟩

/-- The end of a wait for a word. -/
theorem Crew.PastWords.endWait {c d : Crew} (h : Crew.PastWords c d) (run : c.st = .running) {j : Nat} {q : Split} (split : c.split? j = some q)
    (word : q.wait.isWord = true) (cyc clk : Nat) (vc : Table Nat) : Crew.PastWords c (d.endWait cyc clk vc j) := by
  cases found : d.split? j with
  | none =>
    unfold Crew.endWait
    simp only [found]
    exact h
  | some p =>
    have drun : d.st = .running := by rw [h.crew]; exact run
    rw [Crew.endWait_running drun found]
    refine ⟨by rw [h.crew], Tab.sorted_put _ _ _ h.sorted, fun i r there other => ?_⟩
    by_cases own : i = j
    case pos =>
      subst own
      rw [split] at there
      cases there
      rw [word] at other
      cases other
    case neg => exact (Tab.find_put_other _ _ own).trans (h.split i r there other)

/-- A listed wait is one for a word, of a listed crew. -/
theorem scratchWaiters_word {u : State} {t : Nat} {words : List Nat} {w : Nat × Nat × FlagCond × Nat × Nat × Nat} (hw : w ∈ u.scratchWaiters t words) :
    ∃ d q, (w.1, d) ∈ u.crews ∧ (w.2.1, q) ∈ d.splits ∧ q.wait.isWord = true := by
  simp only [State.scratchWaiters, List.mem_flatten, List.mem_map] at hw
  obtain ⟨_, ⟨⟨y, d⟩, hy, rfl⟩, hw⟩ := hw
  split at hw
  case isFalse => cases hw
  case isTrue =>
    obtain ⟨⟨j, q⟩, hj, hw⟩ := List.mem_filterMap.1 hw
    dsimp only at hw
    split at hw
    case h_2 => cases hw
    case h_1 wait =>
      have key : w.1 = y ∧ w.2.1 = j := by
        split at hw
        · split at hw
          · cases hw; exact ⟨rfl, rfl⟩
          · cases hw
        · cases hw
      obtain ⟨rfl, rfl⟩ := key
      exact ⟨d, q, hy, hj, by rw [wait]; rfl⟩

theorem sorted_modCrew {g : Go s0} (h : Tab.sorted g.st.crews = true) (x : Nat) (F : Crew → Crew) : Tab.sorted (modCrew g x F).st.crews = true := by
  unfold modCrew
  split
  · exact Tab.sorted_put _ _ _ h
  · exact h

section Store

variable {g : Go s0} {y n : Nat} {c : Crew}

/-- The end of a wait for a word, in the crew that waits and in every other. -/
theorem endWordWait_past {d : Crew} (crew : g.st.crew? y = some d) (past : Crew.PastWords c d) (run : c.st = .running) {z j : Nat}
    (word : z = y → ∃ q, c.split? j = some q ∧ q.wait.isWord = true) (loc : Loc) (cond : FlagCond) (value scope : Nat) (log : List WriteRec) :
    ∃ e, (endWordWait g z j loc cond value scope log).st.crew? y = some e ∧ Crew.PastWords c e := by
  unfold endWordWait
  by_cases own : y = z
  case pos =>
    subst own
    obtain ⟨q, split, isWord⟩ := word rfl
    simp only [crew]
    generalize contribution g.st y d loc _ = a
    have at1 := ((modCrew_at crew fun c => c.endWait (Tab.get 0 g.st.cycles (y / 8)) a.clock a.vc j).modCrew
      fun c => { c with seen := c.seen ++ a.seen })
    have past1 := past.endWait run split isWord (Tab.get 0 g.st.cycles (y / 8)) a.clock a.vc
    have past2 : ∀ e : Crew, Crew.PastWords c e → ∀ sn mg, Crew.PastWords c { e with seen := sn, minGrant := mg } := fun e h sn mg =>
      ⟨by rw [h.crew], h.sorted, h.split⟩
    split
    · exact ⟨_, (at1.modCrew _).crew, past2 _ past1 ..⟩
    · exact ⟨_, at1.crew, past2 _ past1 ..⟩
  case neg =>
    refine ⟨d, ?_, past⟩
    split
    · exact crew
    · dsimp only
      split
      · rw [dropCopies, modCrew_other _ own, modCrew_other _ own, endWait, modCrew_other _ own]
        exact crew
      · rw [modCrew_other _ own, endWait, modCrew_other _ own]
        exact crew

theorem endWordWait_sorted (h : Tab.sorted g.st.crews = true) (z j : Nat) (loc : Loc) (cond : FlagCond) (value scope : Nat) (log : List WriteRec) :
    Tab.sorted (endWordWait g z j loc cond value scope log).st.crews = true := by
  unfold endWordWait
  split
  · exact h
  · dsimp only
    split
    · exact sorted_modCrew (sorted_modCrew (sorted_modCrew h _ _) _ _) _ _
    · exact sorted_modCrew (sorted_modCrew h _ _) _ _

theorem scratchStore_sorted (sorted : Tab.sorted g.st.crews = true) (by_ : By) (cells : List (Nat × Byte)) :
    Tab.sorted (scratchStore g n by_ cells).st.crews = true := by
  unfold scratchStore
  refine Go.each_keeps (P := fun u => Tab.sorted u.crews = true) (fun w _ g' h => ?_) _ ?_
  · split
    · exact endWordWait_sorted h ..
    · exact h
  · unfold modTeam
    split <;> exact sorted

/-- A running crew after a write to scratch. -/
theorem scratchStore_past (crews : Tab.sorted g.st.crews = true) (crew : g.st.crew? y = some c) (run : c.st = .running)
    (sorted : Tab.sorted c.splits = true) (by_ : By) (cells : List (Nat × Byte)) :
    ∃ d, (scratchStore g n by_ cells).st.crew? y = some d ∧ Crew.PastWords c d := by
  unfold scratchStore
  have same : (modTeam g n fun tm => tm.write by_ cells).st.crews = g.st.crews := by
    unfold modTeam
    split <;> rfl
  refine Go.each_keeps (P := fun u => ∃ d, u.crew? y = some d ∧ Crew.PastWords c d) (fun w hw g' h => ?_) _
    ⟨c, by rw [State.crew?, same]; exact crew, .refl sorted⟩
  obtain ⟨d, crew', past⟩ := h
  obtain ⟨e, q, listed, split, isWord⟩ := scratchWaiters_word hw
  rw [same] at listed
  split
  · refine endWordWait_past crew' past run (fun own => ?_) ..
    rw [own] at listed
    obtain rfl : e = c := Option.some.inj ((Tab.find_of_mem crews listed).symm.trans crew)
    exact ⟨q, Tab.find_of_mem sorted split, isWord⟩
  · exact ⟨d, crew', past⟩

end Store

end Sys2Proof.Machine
end

section
/-! SUPPORT. What the operations of a knot keep while one crew arrives at it: the running crew, the waits of the others, and every byte of
scratch but the knot's (R54, R57, R58). -/

namespace Sys2Proof.Machine

open Sys2Proof

variable {s0 : State}

theorem modCrew_keeps_crew {g : Go s0} {P : Crew → Crew → Prop} {y : Nat} {c : Crew} {F : Crew → Crew} (x : Nat) (crew : g.st.crew? y = some c)
    (keep : P c c) (edit : y = x → P c (F c)) : ∃ d, (modCrew g x F).st.crew? y = some d ∧ P c d := by
  by_cases own : y = x
  case pos =>
    subst own
    exact ⟨F c, (modCrew_at crew F).crew, edit rfl⟩
  case neg => exact ⟨c, (modCrew_other g own F).trans crew, keep⟩

/-- An edit of a crew that keeps its splits, its registers and its place. -/
structure Crew.Marked (c d : Crew) : Prop where
  splits : d.splits = c.splits
  regs   : SameRegs d c
  st     : d.st = c.st
  team   : d.team = c.team
  uncov  : d.uncov = c.uncov

theorem Crew.Marked.refl (c : Crew) : Crew.Marked c c := ⟨rfl, ⟨rfl, rfl, rfl, rfl, rfl, rfl⟩, rfl, rfl, rfl⟩

theorem Crew.marked_phaseEnd (c : Crew) (of_ : Wait → Bool) : Crew.Marked c (c.phaseEnd of_) := ⟨rfl, ⟨rfl, rfl, rfl, rfl, rfl, rfl⟩, rfl, rfl, rfl⟩
theorem Crew.marked_knotPhase (c : Crew) (off n : Nat) : Crew.Marked c (c.knotPhase off n) := ⟨rfl, ⟨rfl, rfl, rfl, rfl, rfl, rfl⟩, rfl, rfl, rfl⟩
theorem Crew.marked_noteArrived (c : Crew) (w : Wait) (n : Nat) : Crew.Marked c (c.noteArrived w n) := ⟨rfl, ⟨rfl, rfl, rfl, rfl, rfl, rfl⟩, rfl, rfl, rfl⟩
theorem Crew.marked_released (c : Crew) : Crew.Marked c c.released := ⟨rfl, ⟨rfl, rfl, rfl, rfl, rfl, rfl⟩, rfl, rfl, rfl⟩
theorem Crew.marked_arrive (c : Crew) (a : Arrival) : Crew.Marked c (c.arrive a) := ⟨rfl, ⟨rfl, rfl, rfl, rfl, rfl, rfl⟩, rfl, rfl, rfl⟩
theorem Crew.marked_minGrant (c : Crew) (n : Nat) : Crew.Marked c { c with minGrant := n } := ⟨rfl, ⟨rfl, rfl, rfl, rfl, rfl, rfl⟩, rfl, rfl, rfl⟩

/-- A running crew of a team, its split `k` and its registers. -/
structure Crew.Standing (c : Crew) (k : Nat) (q : Split) (d : Crew) : Prop where
  split  : d.split? k = some q
  regs   : SameRegs d c
  st     : d.st = .running
  team   : d.team = c.team
  uncov  : d.uncov = c.uncov
  sorted : Tab.sorted d.splits = true

section Standing

variable {c d e : Crew} {k : Nat} {q : Split}

theorem Crew.Standing.mark (h : Crew.Standing c k q d) (m : Crew.Marked d e) : Crew.Standing c k q e :=
  ⟨by rw [Crew.split?, m.splits]; exact h.split, m.regs.trans h.regs, m.st.trans h.st, m.team.trans h.team, m.uncov.trans h.uncov, m.splits ▸ h.sorted⟩

/-- The split goes on where words alone have been written and it waits for none. -/
theorem Crew.Standing.past (h : Crew.Standing c k q d) (p : Crew.PastWords d e) (other : q.wait.isWord = false) : Crew.Standing c k q e :=
  ⟨p.split k q h.split other, p.regs.trans h.regs, by rw [p.crew]; exact h.st, by rw [p.crew]; exact h.team, by rw [p.crew]; exact h.uncov, p.sorted⟩

theorem Crew.Standing.ended {w : Wait} {clk : Nat} (h : Crew.Standing c k q d) (p : Crew.Ended w clk d e) : Crew.Standing c k (q.ended w clk) e :=
  ⟨by rw [p.splits, h.split]; rfl, SameRegs.trans (b := d) (by rw [p.crew]; exact ⟨rfl, rfl, rfl, rfl, rfl, rfl⟩) h.regs, by rw [p.crew]; exact h.st,
    by rw [p.crew]; exact h.team, by rw [p.crew]; exact h.uncov, p.sorted⟩

end Standing

/-- Crew `x` of state `u` stands at split `q`. -/
def StandsAt (c : Crew) (x k : Nat) (q : Split) (u : State) : Prop := ∃ d, u.crew? x = some d ∧ Crew.Standing c k q d

section Stands

variable {g : Go s0} {c : Crew} {x k : Nat} {q : Split}

theorem StandsAt.modCrew (h : StandsAt c x k q g.st) (z : Nat) {F : Crew → Crew} (mark : ∀ d, Crew.Marked d (F d)) : StandsAt c x k q (modCrew g z F).st := by
  obtain ⟨d, crew, stands⟩ := h
  obtain ⟨e, crew', m⟩ := modCrew_keeps_crew (P := Crew.Marked) z crew (.refl d) fun _ => mark d
  exact ⟨e, crew', stands.mark m⟩

theorem StandsAt.modTeam (h : StandsAt c x k q g.st) (n : Nat) (F : Team → Team) : StandsAt c x k q (modTeam g n F).st := by
  unfold Machine.modTeam
  split <;> exact h

theorem StandsAt.scratchStore (h : StandsAt c x k q g.st) (other : q.wait.isWord = false) (sorted : Tab.sorted g.st.crews = true) (n : Nat) (by_ : By)
    (cells : List (Nat × Byte)) : StandsAt c x k q (scratchStore g n by_ cells).st := by
  obtain ⟨d, crew, stands⟩ := h
  obtain ⟨e, crew', past⟩ := scratchStore_past (n := n) sorted crew stands.st stands.sorted by_ cells
  exact ⟨e, crew', stands.past past other⟩

/-- The crew's own waits end. -/
theorem StandsAt.endWaits_own (h : StandsAt c x k q g.st) (w : Wait) (clk : Nat) (vc : Table Nat) :
    StandsAt c x k (q.ended w clk) (endWaits g x w clk vc).st := by
  obtain ⟨d, crew, stands⟩ := h
  obtain ⟨e, at1, ended⟩ := endWaits_ends crew stands.st stands.sorted w clk vc
  exact ⟨e, at1.crew, stands.ended ended⟩

/-- Waits end, none of which is the split's. -/
theorem StandsAt.endWaits (h : StandsAt c x k q g.st) (z : Nat) {w : Wait} (other : q.wait ≠ w) (clk : Nat) (vc : Table Nat) :
    StandsAt c x k q (endWaits g z w clk vc).st := by
  by_cases own : x = z
  case pos =>
    subst own
    have := h.endWaits_own w clk vc
    rwa [Split.ended, if_neg other] at this
  case neg =>
    obtain ⟨d, crew, stands⟩ := h
    exact ⟨d, (endWaits_other g own w clk vc).trans crew, stands⟩

theorem StandsAt.dropCopies (h : StandsAt c x k q g.st) (z : Nat) : StandsAt c x k q (dropCopies g z).st := h.modCrew z fun d => d.marked_minGrant _

end Stands

/-- The running crews of a state, in the next one: waits for words may have ended. -/
def PastWords (s u : State) (x : Nat) : Prop :=
  ∀ y e, y ≠ x → s.crew? y = some e → e.st = .running → Tab.sorted e.splits = true → ∃ d, u.crew? y = some d ∧ Crew.PastWords e d

section Past

variable {g : Go s0} {s : State} {x : Nat}

theorem PastWords.modCrew (h : PastWords s g.st x) (F : Crew → Crew) : PastWords s (modCrew g x F).st x := fun y e other crew run sorted => by
  obtain ⟨d, crew', past⟩ := h y e other crew run sorted
  exact ⟨d, (modCrew_other g other F).trans crew', past⟩

theorem PastWords.endWaits (h : PastWords s g.st x) (w : Wait) (clk : Nat) (vc : Table Nat) : PastWords s (endWaits g x w clk vc).st x := h.modCrew _

theorem PastWords.modTeam (h : PastWords s g.st x) (n : Nat) (F : Team → Team) : PastWords s (modTeam g n F).st x := by
  unfold Machine.modTeam
  split <;> exact h

theorem PastWords.scratchStore (h : PastWords s g.st x) (crews : Tab.sorted g.st.crews = true) (n : Nat) (by_ : By) (cells : List (Nat × Byte)) :
    PastWords s (scratchStore g n by_ cells).st x := fun y e other crew run sorted => by
  obtain ⟨d, crew', past⟩ := h y e other crew run sorted
  obtain ⟨d', crew'', past'⟩ := scratchStore_past (n := n) crews crew' (by rw [past.crew]; exact run) past.sorted by_ cells
  exact ⟨d', crew'', past.trans past'⟩

end Past

/-- The state of a team's knot changes: from `s`, crews, the counts of work and the team `n` alone have changed, and of its scratch the knot's bytes. -/
structure KnotOnly (s : State) (n off : Nat) (tm : Team) (u : State) (tm' : Team) : Prop where
  state : u = { s with crews := u.crews, cycles := u.cycles, coloc := u.coloc, teams := u.teams }
  team  : u.team? n = some tm'
  others : ∀ m, m ≠ n → u.team? m = s.team? m
  frame : ∀ a, a < off ∨ off + 16 ≤ a → Tab.get 0 tm'.scratch a = Tab.get 0 tm.scratch a
  crews : Tab.sorted u.crews = true

section Only

variable {g : Go s0} {s : State} {n off : Nat} {tm tm' : Team}

theorem KnotOnly.start (team : s.team? n = some tm) (crews : Tab.sorted s.crews = true) : KnotOnly s n off tm s tm :=
  ⟨rfl, team, fun _ _ => rfl, fun _ _ => rfl, crews⟩

theorem KnotOnly.modCrew (h : KnotOnly s n off tm g.st tm') (z : Nat) (F : Crew → Crew) : KnotOnly s n off tm (modCrew g z F).st tm' := by
  refine ⟨?_, ?_, fun m hm => ?_, h.frame, sorted_modCrew h.crews z F⟩
  · rw [modCrew_only, h.state]
  · rw [modCrew_only]; exact h.team
  · rw [modCrew_only]; exact h.others m hm

theorem KnotOnly.endWaits (h : KnotOnly s n off tm g.st tm') (z : Nat) (w : Wait) (clk : Nat) (vc : Table Nat) :
    KnotOnly s n off tm (endWaits g z w clk vc).st tm' := h.modCrew ..

theorem KnotOnly.dropCopies (h : KnotOnly s n off tm g.st tm') (z : Nat) : KnotOnly s n off tm (dropCopies g z).st tm' := h.modCrew ..

theorem KnotOnly.modTeam (h : KnotOnly s n off tm g.st tm') {F : Team → Team} (scratch : (F tm').scratch = tm'.scratch) :
    KnotOnly s n off tm (modTeam g n F).st (F tm') := by
  rw [modTeam_some g F h.team]
  refine ⟨?_, Tab.find_put_same .., fun m hm => (Tab.find_put_other _ _ hm).trans (h.others m hm), fun a ha => by rw [scratch]; exact h.frame a ha, h.crews⟩
  rw [Go.put_st, h.state]
  rfl

/-- The knot's bytes are written. -/
theorem KnotOnly.write (h : KnotOnly s n off tm g.st tm') (by_ : By) (kn : Knot) :
    KnotOnly s n off tm (scratchStore g n by_ (cellsFrom off kn.bytes)).st (tm'.write by_ (cellsFrom off kn.bytes)) := by
  refine ⟨?_, ?_, fun m hm => ?_, fun a ha => ?_, scratchStore_sorted h.crews ..⟩
  · rw [scratchStore_writes h.team, h.state]
  · rw [scratchStore_writes h.team]; exact Tab.find_put_same ..
  · rw [scratchStore_writes h.team]; exact (Tab.find_put_other _ _ hm).trans (h.others m hm)
  · rw [Team.scratch_write, get_putBytes_cellsFrom, Knot.length_bytes, if_neg (by omega)]
    exact h.frame a ha

end Only

end Sys2Proof.Machine
end

section
/-! SUPPORT. O26: `knotinit` and `knotfree` (R252, R253, R256). -/

namespace Sys2Proof.Machine

open Sys2Proof

/-- What an instruction on a knot may have changed: crews, the counts of work, and of the team's scratch the knot's bytes. -/
def KnotAlone (s u : State) (n off : Nat) (tm tm' : Team) : Prop :=
  u = { s with crews := u.crews, cycles := u.cycles, coloc := u.coloc, teams := u.teams } ∧ u.team? n = some tm' ∧
    (∀ m, m ≠ n → u.team? m = s.team? m) ∧ ∀ a, a < off ∨ off + 16 ≤ a → Tab.get 0 tm'.scratch a = Tab.get 0 tm.scratch a

theorem KnotOnly.alone {s u : State} {n off : Nat} {tm tm' : Team} (h : KnotOnly s n off tm u tm') : KnotAlone s u n off tm tm' :=
  ⟨h.state, h.team, h.others, h.frame⟩

section Set

variable {s : State} {m : Mn} {f : Fields} {x k : Nat} {c : Crew} {sp : Split} {tm tm' : Team} {g : Go s} {off n : Nat}

theorem StandsAt.retires (h : StandsAt c x k sp g.st) (hs : Settled c sp) (ready : sp.st = .ready) :
    ∃ c' sp', Onward (.next (retire g (issueOf s m f x k c sp) {}).st)
      (retire g (issueOf s m f x k c sp) {}).st x k c c' sp sp' ∧ sp'.clock = sp.clock + 1 ∧
      (retire g (issueOf s m f x k c sp) {}).st = { g.st with crews := Tab.put g.st.crews x c', cycles := (retire g (issueOf s m f x k c sp) {}).st.cycles
                                                              coloc := (retire g (issueOf s m f x k c sp) {}).st.coloc } := by
  obtain ⟨d, crew, stands⟩ := h
  obtain ⟨e, q, reached, ⟨split, pc, clock, same, -⟩, fmt, regs⟩ := retire_settled g (issueOf s m f x k c sp) {} crew stands.split
    (by rw [issueOf_sp hs]; exact hs.windows) (stands.uncov.trans hs.loads)
  have kept := SameRegs.trans (b := d) regs stands.regs
  rw [issueOf_sp hs] at pc
  refine ⟨e, q, ⟨rfl, ?_, split, ?_, pc, ?_, fmt, kept.v, kept.s, kept.p, kept.lay⟩, clock, reached⟩
  · rw [reached]; exact Tab.find_put_same ..
  · rw [same]; exact ready
  · rw [same]

/-- A retirement changes nothing that a knot may not. -/
theorem KnotOnly.put (h : KnotOnly s n off tm g.st tm') {u : State} {d : Crew}
    (reached : u = { g.st with crews := Tab.put g.st.crews x d, cycles := u.cycles, coloc := u.coloc }) : KnotOnly s n off tm u tm' := by
  refine ⟨?_, ?_, fun m hm => ?_, h.frame, ?_⟩
  · rw [reached, h.state]
  · rw [reached]; exact h.team
  · rw [reached]; exact h.others m hm
  · rw [reached]; exact Tab.sorted_put _ _ _ h.crews

/-- The knot's place among a team's guards, set or cleared. -/
def Team.markKnot (off : Nat) (on : Bool) (t : Team) : Team :=
  { t with guards := if on then Tab.put t.guards (off / 16) () else Tab.del t.guards (off / 16), knots := Tab.del t.knots off }

theorem Team.active_markKnot (off : Nat) (on : Bool) (t : Team) : (t.markKnot off on).active off = on := by
  unfold Team.active Team.markKnot
  cases on
  · rw [if_neg (by decide), Tab.find_del_same]; rfl
  · rw [if_pos rfl, Tab.find_put_same]; rfl

theorem Team.knot_markKnot (off o : Nat) (on : Bool) (t : Team) : (t.markKnot off on).knot o = t.knot o := by
  simp only [Team.knot, Team.word, Team.bytesAt_eq, Team.markKnot]

theorem KnotOnly.knotSet {i : Issue} (h : KnotOnly s i.c.team off tm g.st tm') (kn : Knot) (on : Bool) (place : knotOff i = off) :
    KnotOnly s i.c.team off tm (knotSet g i kn on).st ((tm'.write (writer g.st i) (cellsFrom off kn.bytes)).markKnot off on) := by
  unfold Machine.knotSet
  simp only [place]
  refine KnotOnly.modTeam (F := Team.markKnot off on) ?_ rfl
  exact Go.each_keeps (P := fun u => KnotOnly s i.c.team off tm u _) (fun e _ g' h => h.modCrew e.1 _) _ (h.write _ kn)

theorem StandsAt.knotSet {i : Issue} (h : StandsAt c x k sp g.st) (free : sp.wait = .none) (crews : Tab.sorted g.st.crews = true) (kn : Knot) (on : Bool) :
    StandsAt c x k sp (knotSet g i kn on).st := by
  unfold Machine.knotSet
  refine StandsAt.modTeam ?_ ..
  refine Go.each_keeps (P := StandsAt c x k sp) (fun e _ g' h => h.modCrew e.1 fun d => d.marked_phaseEnd _) _ ?_
  exact h.scratchStore (by rw [free]; rfl) crews ..

end Set

section Place

variable {s : State} {m : Mn} {f : Fields} {x k : Nat} {c : Crew} {sp : Split} {tm : Team}

theorem Knot.fits_new {n : Nat} (small : n < 2 ^ 32) : Knot.Fits { expect := n, arrived := 0, debt := 0, phase := false, guard := 0x4B4E } :=
  ⟨small, Nat.two_pow_pos 32, Nat.two_pow_pos 32, by norm_num⟩

theorem knotOff_issueOf (hs : Settled c sp) : knotOff (issueOf s m f x k c sp) = operand32 c sp.wbase f.a 0 := by
  rw [knotOff, Issue.a32, issueOf_ca hs, issueOf_sp hs, issueOf_f]

theorem knotCause_none (hs : Settled c sp) (team : s.team? c.team = some tm) (place : knotPlace s x c tm (operand32 c sp.wbase f.a 0)) :
    knotCause s (issueOf s m f x k c sp) = none := by
  obtain ⟨aligned, inside, unlocked⟩ := place
  unfold knotCause
  simp only [knotOff_issueOf hs, issueOf_c hs, team, issueOf_x, placeCore]
  rw [if_neg (by simpa using aligned), if_neg (by omega), if_neg (by simpa [placeCore] using unlocked)]

theorem knotActive_issueOf (hs : Settled c sp) (team : s.team? c.team = some tm) :
    knotActive s (issueOf s m f x k c sp) = tm.active (operand32 c sp.wbase f.a 0) := by
  simp only [knotActive, knotOff_issueOf hs, issueOf_c hs, team]

theorem orderWaits_issueOf (hs : Settled c sp) (free : c.heldBack s.seq = false) : orderWaits s (issueOf s m f x k c sp) = false := by
  rw [orderWaits, issueOf_c hs, free]

end Place

section Instructions

variable {s : State} {f : Fields} {x k : Nat} {c : Crew} {sp : Split} {tm : Team}
variable (hs : Settled c sp) (crews : Tab.sorted s.crews = true) (splits : Tab.sorted c.splits = true) (free : sp.wait = .none)
  (team : s.team? c.team = some tm) (held : c.heldBack s.seq = false)

omit f in
/-- A knot that has been written and marked. -/
theorem KnotOnly.knot_set {i : Issue} {g : Go s} {off : Nat} {tm' : Team} (h : KnotOnly s i.c.team off tm g.st tm') (place : knotOff i = off)
    (aligned : off % 16 = 0) {kn : Knot} (fits : kn.Fits) (on : Bool) :
    ∃ t, KnotOnly s i.c.team off tm (Machine.knotSet g i kn on).st t ∧ t.active off = on ∧ t.knot off = kn :=
  ⟨_, h.knotSet kn on place, Team.active_markKnot .., (Team.knot_markKnot ..).trans (Team.knot_write aligned _ fits)⟩

/-- A retirement after work on a knot. -/
theorem StandsAt.retires_alone {m : Mn} {g : Go s} {off n : Nat} {tm' : Team} (stands : StandsAt c x k sp g.st) (hs : Settled c sp) (ready : sp.st = .ready)
    (only : KnotOnly s n off tm g.st tm') {o : Host.Outcome State Fault Refusal} (answers : o = .next (retire g (issueOf s m f x k c sp) {}).st) :
    ∃ u c' sp', Onward o u x k c c' sp sp' ∧ KnotAlone s u n off tm tm' ∧ sp'.clock = sp.clock + 1 := by
  obtain ⟨c', sp', onward, clock, reached⟩ := stands.retires (m := m) (f := f) hs ready
  rw [answers]
  exact ⟨_, c', sp', onward, (only.put reached).alone, clock⟩

include hs crews splits free team in
/-- An instruction that writes a knot and retires. -/
theorem knotSet_retires {m : Mn} (h : s.Executes m f x k c sp) (place : knotPlace s x c tm (operand32 c sp.wbase f.a 0)) {kn : Knot} (fits : kn.Fits)
    (on : Bool) {o : Host.Outcome State Fault Refusal}
    (answers : o = .next (retire (knotSet (Go.start s) (issueOf s m f x k c sp) kn on) (issueOf s m f x k c sp) {}).st) :
    ∃ u c' sp' tm', Onward o u x k c c' sp sp' ∧ KnotAlone s u c.team (operand32 c sp.wbase f.a 0) tm tm' ∧
      sp'.clock = sp.clock + 1 ∧ tm'.active (operand32 c sp.wbase f.a 0) = on ∧ tm'.knot (operand32 c sp.wbase f.a 0) = kn := by
  obtain ⟨-, crew, split, running, ready, -⟩ := State.issuer_some h.issuer
  have stands : StandsAt c x k sp (Go.start s).st := ⟨c, crew, split, ⟨rfl, rfl, rfl, rfl, rfl, rfl⟩, running, rfl, rfl, splits⟩
  have here : KnotOnly s (issueOf s m f x k c sp).c.team (operand32 c sp.wbase f.a 0) tm (Go.start s).st tm := by
    rw [issueOf_c hs]
    exact .start team crews
  have written := stands.knotSet (i := issueOf s m f x k c sp) free crews kn on
  obtain ⟨tm', only, active, knot⟩ := here.knot_set (knotOff_issueOf hs) place.1 fits on
  rw [issueOf_c hs] at only
  obtain ⟨u, c', sp', onward, alone, clock⟩ := written.retires_alone hs ready only answers
  exact ⟨u, c', sp', tm', onward, alone, clock, active, knot⟩

section Init

variable (h : s.Executes .knotinit f x k c sp) (some_ : lowest (runLanes s .knotinit f x k c sp) c.width ≠ none)

include h hs crews splits some_ in
theorem knotinit_refuses (bad : operand32 c sp.wbase f.b 0 = 0 ∨ 2 ^ 24 ≤ operand32 c sp.wbase f.b 0) :
    Faults s (exec (.knotinit f) s) x k c sp 3 (runLanes s .knotinit f x k c sp) := by
  have answers : exec (.knotinit f) s = .next (knotinitBody (issueOf s .knotinit f x k c sp) (Go.start s)).st := crewStep_executes h _
  have count : (issueOf s .knotinit f x k c sp).b32 0 = operand32 c sp.wbase f.b 0 := by rw [Issue.b32, issueOf_cb hs, issueOf_sp hs, issueOf_f]
  unfold knotinitBody at answers
  rw [issueOf_run, if_neg (runLanes_ne_zero some_), if_pos (by rw [count]; simp; omega)] at answers
  rw [answers]
  exact faultAll_faults h hs crews splits some_ (by decide) (by decide) 0 0

variable (low : 0 < operand32 c sp.wbase f.b 0) (high : operand32 c sp.wbase f.b 0 < 2 ^ 24) (place : knotPlace s x c tm (operand32 c sp.wbase f.a 0))

include h hs team some_ low high place in
/-- What a `knotinit` does whose count and place are in order. -/
theorem knotinit_checks : exec (.knotinit f) s = .next (
    if tm.active (operand32 c sp.wbase f.a 0) then faultAll (Go.start s) (issueOf s .knotinit f x k c sp) 12 (operand32 c sp.wbase f.a 0) 1
    else if orderWaits s (issueOf s .knotinit f x k c sp) then Go.start s
    else retire (knotSet (Go.start s) (issueOf s .knotinit f x k c sp)
      { expect := operand32 c sp.wbase f.b 0, arrived := 0, debt := 0, phase := false, guard := 0x4B4E } true) (issueOf s .knotinit f x k c sp) {}).st := by
  have answers : exec (.knotinit f) s = .next (knotinitBody (issueOf s .knotinit f x k c sp) (Go.start s)).st := crewStep_executes h _
  have count : (issueOf s .knotinit f x k c sp).b32 0 = operand32 c sp.wbase f.b 0 := by rw [Issue.b32, issueOf_cb hs, issueOf_sp hs, issueOf_f]
  unfold knotinitBody at answers
  rw [issueOf_run, if_neg (runLanes_ne_zero some_), if_neg (by rw [count]; simp; omega)] at answers
  simp only [Go.start_st, knotCause_none hs team place, knotActive_issueOf hs team, knotOff_issueOf hs, count] at answers
  exact answers

include h hs crews splits team some_ low high place in
theorem knotinit_active (active : tm.active (operand32 c sp.wbase f.a 0) = true) :
    Faults s (exec (.knotinit f) s) x k c sp 12 (runLanes s .knotinit f x k c sp) := by
  rw [knotinit_checks hs team h some_ low high place, if_pos active]
  exact faultAll_faults h hs crews splits some_ (by decide) (by decide) ..

include h hs crews splits free team held some_ low high place in
theorem knotinit_makes (idle : tm.active (operand32 c sp.wbase f.a 0) = false) :
    ∃ u c' sp' tm', Onward (exec (.knotinit f) s) u x k c c' sp sp' ∧ KnotAlone s u c.team (operand32 c sp.wbase f.a 0) tm tm' ∧
      sp'.clock = sp.clock + 1 ∧ tm'.active (operand32 c sp.wbase f.a 0) = true ∧
      tm'.knot (operand32 c sp.wbase f.a 0) = { expect := operand32 c sp.wbase f.b 0, arrived := 0, debt := 0, phase := false, guard := 0x4B4E } := by
  have answers := knotinit_checks hs team h some_ low high place
  rw [if_neg (by rw [idle]; decide), if_neg (by rw [orderWaits_issueOf hs held]; decide)] at answers
  exact knotSet_retires hs crews splits free team h place (Knot.fits_new (by omega)) true answers

end Init

section Free

variable (h : s.Executes .knotfree f x k c sp) (some_ : lowest (runLanes s .knotfree f x k c sp) c.width ≠ none)
  (place : knotPlace s x c tm (operand32 c sp.wbase f.a 0))

include h hs team some_ place in
/-- What a `knotfree` does whose place is in order. -/
theorem knotfree_checks : exec (.knotfree f) s = .next (
    if !tm.active (operand32 c sp.wbase f.a 0) || knotParked s c.team (operand32 c sp.wbase f.a 0) then
      faultAll (Go.start s) (issueOf s .knotfree f x k c sp) 12 (operand32 c sp.wbase f.a 0) 1
    else if orderWaits s (issueOf s .knotfree f x k c sp) then Go.start s
    else retire (knotSet (Go.start s) (issueOf s .knotfree f x k c sp) { tm.knot (operand32 c sp.wbase f.a 0) with guard := 0 } false)
      (issueOf s .knotfree f x k c sp) {}).st := by
  have answers : exec (.knotfree f) s = .next (knotfreeBody (issueOf s .knotfree f x k c sp) (Go.start s)).st := crewStep_executes h _
  unfold knotfreeBody at answers
  rw [issueOf_run, if_neg (runLanes_ne_zero some_)] at answers
  simp only [Go.start_st, knotCause_none hs team place, knotActive_issueOf hs team, knotOff_issueOf hs, issueOf_c hs, team] at answers
  exact answers

theorem knotParked_iff {off n : Nat} : knotParked s n off = true ↔
    ∃ e ∈ s.crews, e.2.team = n ∧ ∃ p ∈ e.2.splits, p.2.wait = .knotArrive off ∨ ∃ b, p.2.wait = .knot off b := by
  unfold knotParked
  simp only [List.any_eq_true, Bool.and_eq_true, beq_iff_eq]
  refine exists_congr fun e => and_congr_right fun _ => and_congr_right fun _ => exists_congr fun p => and_congr_right fun _ => ?_
  cases p.2.wait <;> simp

include h hs crews splits team some_ place in
theorem knotfree_refuses (bad : tm.active (operand32 c sp.wbase f.a 0) = false ∨ ∃ y d j q, s.crew? y = some d ∧ d.team = c.team ∧ d.split? j = some q ∧
      (q.wait = .knotArrive (operand32 c sp.wbase f.a 0) ∨ ∃ b, q.wait = .knot (operand32 c sp.wbase f.a 0) b)) :
    Faults s (exec (.knotfree f) s) x k c sp 12 (runLanes s .knotfree f x k c sp) := by
  have refused : (!tm.active (operand32 c sp.wbase f.a 0) || knotParked s c.team (operand32 c sp.wbase f.a 0)) = true := by
    rw [Bool.or_eq_true]
    rcases bad with idle | ⟨y, d, j, q, crew, mine, split, waits⟩
    · exact .inl (by rw [idle]; rfl)
    · exact .inr (knotParked_iff.2 ⟨(y, d), Tab.mem_of_find crew, mine, (j, q), Tab.mem_of_find split, waits⟩)
  rw [knotfree_checks hs team h some_ place, if_pos refused]
  exact faultAll_faults h hs crews splits some_ (by decide) (by decide) ..

include h hs crews splits free team held some_ place in
theorem knotfree_frees (active : tm.active (operand32 c sp.wbase f.a 0) = true)
    (none_ : ∀ e ∈ s.crews, e.2.team = c.team → ∀ q ∈ e.2.splits, q.2.wait ≠ .knotArrive (operand32 c sp.wbase f.a 0) ∧
      ∀ b, q.2.wait ≠ .knot (operand32 c sp.wbase f.a 0) b) :
    ∃ u c' sp' tm', Onward (exec (.knotfree f) s) u x k c c' sp sp' ∧ KnotAlone s u c.team (operand32 c sp.wbase f.a 0) tm tm' ∧
      sp'.clock = sp.clock + 1 ∧ tm'.active (operand32 c sp.wbase f.a 0) = false ∧
      tm'.knot (operand32 c sp.wbase f.a 0) = { tm.knot (operand32 c sp.wbase f.a 0) with guard := 0 } := by
  have unparked : ¬ knotParked s c.team (operand32 c sp.wbase f.a 0) = true := fun parked => by
    obtain ⟨e, listed, mine, p, hp, waits⟩ := knotParked_iff.1 parked
    obtain ⟨arrives, knots⟩ := none_ e listed mine p hp
    rcases waits with waits | ⟨b, waits⟩
    · exact arrives waits
    · exact knots b waits
  have answers := knotfree_checks hs team h some_ place
  rw [if_neg (by rw [active, Bool.or_eq_true]; simpa using unparked), if_neg (by rw [orderWaits_issueOf hs held]; decide)] at answers
  obtain ⟨expect, arrived, debt, -⟩ := tm.knot_fits (operand32 c sp.wbase f.a 0)
  exact knotSet_retires (kn := { tm.knot (operand32 c sp.wbase f.a 0) with guard := 0 }) hs crews splits free team h place
    ⟨expect, arrived, debt, Nat.two_pow_pos 16⟩ false answers

end Free

end Instructions

end Sys2Proof.Machine
end

section
/-! SUPPORT. O26: an arrival at a knot, and the end of a phase (R54, R58, R254). -/

namespace Sys2Proof.Machine

open Sys2Proof

/-- A crew at a knot of its team: what may have changed, where its split stands, and what became of the other crews. -/
structure KnotRun (s : State) (off : Nat) (tm : Team) (c : Crew) (x k : Nat) (q : Split) (u : State) (tm' : Team) : Prop where
  only   : KnotOnly s c.team off tm u tm'
  stands : StandsAt c x k q u
  past   : PastWords s u x

section Run

variable {s0 s : State} {off : Nat} {tm tm' : Team} {c : Crew} {x k : Nat} {q : Split} {g : Go s0}

theorem KnotRun.modCrew (h : KnotRun s off tm c x k q g.st tm') {F : Crew → Crew} (mark : ∀ d, Crew.Marked d (F d)) :
    KnotRun s off tm c x k q (modCrew g x F).st tm' := ⟨h.only.modCrew .., h.stands.modCrew x mark, h.past.modCrew F⟩

theorem KnotRun.modTeam (h : KnotRun s off tm c x k q g.st tm') {F : Team → Team} (scratch : (F tm').scratch = tm'.scratch) :
    KnotRun s off tm c x k q (modTeam g c.team F).st (F tm') := ⟨h.only.modTeam scratch, h.stands.modTeam .., h.past.modTeam _ _⟩

theorem KnotRun.setKnot (h : KnotRun s off tm c x k q g.st tm') (other : q.wait.isWord = false) (kn : Knot) :
    KnotRun s off tm c x k q (setKnot g c.team off kn).st (tm'.write {} (cellsFrom off kn.bytes)) :=
  ⟨h.only.write {} kn, h.stands.scratchStore other h.only.crews .., h.past.scratchStore h.only.crews _ _ _⟩

theorem KnotRun.endWaits (h : KnotRun s off tm c x k q g.st tm') (w : Wait) (clk : Nat) (vc : Table Nat) :
    KnotRun s off tm c x k (q.ended w clk) (endWaits g x w clk vc).st tm' := ⟨h.only.endWaits .., h.stands.endWaits_own .., h.past.endWaits _ _ _⟩

/-- What stays of a team while its knot is written: its guards, and the arrivals that wait. -/
structure Team.SameGuards (off : Nat) (t t' : Team) : Prop where
  active  : t'.active off = t.active off
  waiting : (t'.knotSt off).waiting = (t.knotSt off).waiting

theorem Team.sameGuards_write (t : Team) (by_ : By) (cells : List (Nat × Byte)) : Team.SameGuards off t (t.write by_ cells) := ⟨rfl, rfl⟩

theorem Team.knotSt_setKnotSt (t : Team) (off : Nat) (st : KnotSt) : (t.setKnotSt off st).knotSt off = st := by
  simp only [Team.knotSt, Team.setKnotSt, Tab.get, Tab.find_put_same]

/-- A knot's bookkeeping after an arrival at clock `clk`. -/
def KnotSt.joined (st : KnotSt) (clk : Nat) (vc : Table Nat) : KnotSt := { st with clock := max st.clock clk, vc := vcJoin st.vc vc }

/-- A knot after one arrival with its bytes. -/
def Knot.counted (kn : Knot) (bytes : Nat) : Knot := { kn with arrived := kn.arrived + 1, debt := (kn.debt + bytes) % 2 ^ 32 }

theorem knotArrive_eq {n : Nat} {d : Crew} (team : g.st.team? n = some tm) (crew : g.st.crew? x = some d) (a : Arrival) :
    knotArrive g n off x a = modCrew (modTeam (setKnot g n off ((tm.knot off).counted a.bytes)) n
      fun t => t.setKnotSt off ((t.knotSt off).joined a.clock d.snapshot)) x Crew.released := by
  unfold knotArrive
  simp only [team, crew]
  rfl

/-- The crew arrives: its arrival and its bytes are counted. -/
theorem KnotRun.knotArrive (h : KnotRun s off tm c x k q g.st tm') (other : q.wait.isWord = false) (aligned : off % 16 = 0)
    (room : (tm'.knot off).arrived + 1 < 2 ^ 32) (a : Arrival) :
    ∃ t, KnotRun s off tm c x k q (knotArrive g c.team off x a).st t ∧ Team.SameGuards off tm' t ∧
      t.knot off = (tm'.knot off).counted a.bytes := by
  obtain ⟨d, crew, -⟩ := h.stands
  obtain ⟨expect, -, -, guard⟩ := tm'.knot_fits off
  have written := Team.knot_write (tm := tm') aligned {} (kn := (tm'.knot off).counted a.bytes) ⟨expect, room, Nat.mod_lt _ (Nat.two_pow_pos 32), guard⟩
  have same := tm'.sameGuards_write (off := off) {} (cellsFrom off ((tm'.knot off).counted a.bytes).bytes)
  have set := h.setKnot other ((tm'.knot off).counted a.bytes)
  rw [knotArrive_eq h.only.team crew]
  generalize tm'.write {} (cellsFrom off ((tm'.knot off).counted a.bytes).bytes) = t at *
  refine ⟨t.setKnotSt off ((t.knotSt off).joined a.clock d.snapshot),
    (set.modTeam (F := fun t => t.setKnotSt off ((t.knotSt off).joined a.clock d.snapshot)) rfl).modCrew fun d => d.marked_released,
    ⟨same.active, ?_⟩, (Team.knot_setKnotSt ..).trans written⟩
  rw [Team.knotSt_setKnotSt]
  exact same.waiting

end Run

section Check

variable {s0 : State} {g : Go s0} {n off : Nat} {tm : Team}

/-- A phase that is not due does not end. -/
theorem knotCheck_idle (team : g.st.team? n = some tm) (more : ¬ ((tm.knot off).arrived = (tm.knot off).expect ∧ (tm.knot off).debt = 0)) (fuel : Nat) :
    knotCheck g n off fuel = g := by
  cases fuel with
  | zero => rfl
  | succ fuel =>
    rw [knotCheck]
    simp only [team]
    rw [if_neg]
    simp only [Bool.and_eq_true, decide_eq_true_eq]
    rintro ⟨⟨-, full⟩, paid⟩
    exact more ⟨full, paid⟩

/-- What the end of a phase of a knot does for a crew of the team, as it was when the phase ended (R58, R72). -/
def phaseRelease (off phases : Nat) (phase : Bool) (clk : Nat) (vc : Table Nat) (drop : Bool) (e : Nat × Crew) (g : Go s0) : Go s0 :=
  let woken := e.2.splits.any (fun p => p.2.wait == .knot off phase) && !e.2.awaited (.knot off phase)
  let g := modCrew g e.1 (Crew.knotPhase off phases)
  if woken then
    let g := endWaits g e.1 (.knot off phase) clk vc
    if drop then dropCopies g e.1 else g
  else g

/-- The bookkeeping of a knot after a phase at which no arrival waited. -/
def KnotSt.next (st : KnotSt) : KnotSt :=
  { clock := 0, vc := [], scope := 0, lastClock := st.clock, lastVc := st.vc, lastScope := st.scope, waiting := [], phases := st.phases + 1 }

/-- The end of a phase at which no arrival waits. -/
theorem knotCheck_due (team : g.st.team? n = some tm) (active : tm.active off = true) (full : (tm.knot off).arrived = (tm.knot off).expect)
    (paid : (tm.knot off).debt = 0) (none_ : (tm.knotSt off).waiting = []) :
    let st := tm.knotSt off
    let g1 := modTeam (setKnot g n off { tm.knot off with phase := !(tm.knot off).phase, arrived := 0 }) n fun t => t.setKnotSt off st.next
    knotCheck g n off 1 = modTeam ((g1.each (g1.st.crews.filter fun e => e.2.team == n)
      (phaseRelease off (st.phases + 1) (tm.knot off).phase st.clock st.vc (tm.pair || 3 ≤ st.scope)))) n
      fun t => t.setKnotSt off { t.knotSt off with waiting := [] } := by
  rw [knotCheck]
  simp only [team, active, full, paid, Bool.true_and, decide_true, if_true, none_, List.take_nil, List.drop_nil, List.map_nil, knotCheck, Go.each]
  rfl

end Check

section Release

variable {s0 s : State} {off phases clk : Nat} {phase drop : Bool} {vc : Table Nat} {tm tm' : Team} {c : Crew} {x k y : Nat} {q : Split} {g : Go s0}

theorem StandsAt.phaseRelease (h : StandsAt c x k q g.st) (free : q.wait = .none) (e : Nat × Crew) :
    StandsAt c x k q (phaseRelease off phases phase clk vc drop e g).st := by
  have first := h.modCrew e.1 (F := Crew.knotPhase off phases) fun d => d.marked_knotPhase off phases
  unfold Machine.phaseRelease
  dsimp only
  split
  · have ended := first.endWaits e.1 (w := .knot off phase) (by rw [free]; simp) clk vc
    split
    · exact ended.dropCopies e.1
    · exact ended
  · exact first

theorem KnotOnly.phaseRelease {n : Nat} (h : KnotOnly s n off tm g.st tm') (e : Nat × Crew) :
    KnotOnly s n off tm (phaseRelease off phases phase clk vc drop e g).st tm' := by
  unfold Machine.phaseRelease
  dsimp only
  split
  · split
    · exact ((h.modCrew ..).endWaits ..).dropCopies ..
    · exact (h.modCrew ..).endWaits ..
  · exact h.modCrew ..

theorem phaseRelease_other (e : Nat × Crew) (other : y ≠ e.1) : (phaseRelease off phases phase clk vc drop e g).st.crew? y = g.st.crew? y := by
  unfold phaseRelease
  dsimp only
  split
  · split
    · rw [dropCopies, modCrew_other _ other, endWaits_other _ other, modCrew_other _ other]
    · rw [endWaits_other _ other, modCrew_other _ other]
  · exact modCrew_other _ other _

/-- The waits of a crew all of whose lanes have executed them end. -/
theorem phaseRelease_own {d : Crew} (crew : g.st.crew? y = some d) (run : d.st = .running) (sorted : Tab.sorted d.splits = true) {j : Nat} {p : Split}
    (split : d.split? j = some p) (waits : p.wait = .knot off phase) (whole : d.awaited (.knot off phase) = false) :
    ∃ e, (phaseRelease off phases phase clk vc drop (y, d) g).st.crew? y = some e ∧ e.split? j = some (p.goOn clk) := by
  have woken : (d.splits.any (fun p => p.2.wait == .knot off phase) && !d.awaited (.knot off phase)) = true := by
    rw [whole, Bool.not_false, Bool.and_true, List.any_eq_true]
    exact ⟨(j, p), Tab.mem_of_find split, by rw [waits]; exact beq_self_eq_true _⟩
  obtain ⟨e, at1, ended⟩ := endWaits_ends (modCrew_at crew (Crew.knotPhase off phases)).crew run sorted (.knot off phase) clk vc
  have there : e.split? j = some (p.goOn clk) := by
    rw [ended.splits]
    show (d.split? j).map _ = _
    rw [split, Option.map_some, Split.ended, if_pos waits]
  unfold phaseRelease
  simp only [woken, if_true]
  split
  · exact ⟨_, (modCrew_at at1.crew _).crew, there⟩
  · exact ⟨e, at1.crew, there⟩

theorem Go.each_append {α : Type} (g : Go s0) (l l' : List α) (f : α → Go s0 → Go s0) : g.each (l ++ l') f = (g.each l f).each l' f := by
  induction l generalizing g with
  | nil => rfl
  | cons a l ih => exact ih _

/-- Every listed crew whose lanes have all executed its wait goes on. -/
theorem phaseRelease_each {l : List (Nat × Crew)} (distinct : (l.map Prod.fst).Nodup) {d : Crew} (listed : (y, d) ∈ l) (crew : g.st.crew? y = some d)
    (run : d.st = .running) (sorted : Tab.sorted d.splits = true) {j : Nat} {p : Split} (split : d.split? j = some p) (waits : p.wait = .knot off phase)
    (whole : d.awaited (.knot off phase) = false) :
    ∃ e, (g.each l (phaseRelease off phases phase clk vc drop)).st.crew? y = some e ∧ e.split? j = some (p.goOn clk) := by
  obtain ⟨l1, l2, rfl⟩ := List.append_of_mem listed
  rw [List.map_append, List.map_cons] at distinct
  have before : y ∉ l1.map Prod.fst := fun mem => (List.nodup_append.1 distinct).2.2 y mem y List.mem_cons_self rfl
  have after : y ∉ l2.map Prod.fst := (List.nodup_cons.1 (List.nodup_append.1 distinct).2.1).1
  have away : ∀ (l : List (Nat × Crew)), y ∉ l.map Prod.fst → ∀ g : Go s0,
      (g.each l (phaseRelease off phases phase clk vc drop)).st.crew? y = g.st.crew? y := fun l absent g =>
    Go.each_keeps (P := fun u => u.crew? y = g.st.crew? y)
      (fun e he g' h => (phaseRelease_other e (by rintro rfl; exact absent (List.mem_map_of_mem he))).trans h) g rfl
  obtain ⟨e, crew', there⟩ := phaseRelease_own (phases := phases) (clk := clk) (vc := vc) (drop := drop) ((away l1 before g).trans crew) run sorted split waits whole
  rw [Go.each_append]
  exact ⟨e, (away l2 after _).trans crew', there⟩

end Release

end Sys2Proof.Machine
end

section
/-! SUPPORT. O26: the end of a phase, and a crew that arrives at a knot (R54, R58, R254, R255). -/

namespace Sys2Proof.Machine

open Sys2Proof

section Complete

variable {s0 s : State} {off : Nat} {tm tm' : Team} {c : Crew} {x k : Nat} {q : Split} {g : Go s0}

/-- The knot of the next phase. -/
def Knot.next (kn : Knot) : Knot := { kn with phase := !kn.phase, arrived := 0 }

/-- The knot turns to its next phase. -/
theorem KnotRun.next (h : KnotRun s off tm c x k q g.st tm') (other : q.wait.isWord = false) (aligned : off % 16 = 0) (st : KnotSt) :
    ∃ t, KnotRun s off tm c x k q (Machine.modTeam (Machine.setKnot g c.team off (tm'.knot off).next) c.team fun t => t.setKnotSt off st).st t ∧
      t.knot off = (tm'.knot off).next := by
  obtain ⟨expect, -, debt, guard⟩ := tm'.knot_fits off
  exact ⟨_, (h.setKnot other (tm'.knot off).next).modTeam (F := fun t => t.setKnotSt off st) rfl, (Team.knot_setKnotSt ..).trans
    (Team.knot_write aligned {} ⟨expect, Nat.two_pow_pos 32, debt, guard⟩)⟩

/-- The waits of every crew of which no lane is missing are over. -/
theorem KnotRun.releases (h : KnotRun s off tm c x k q g.st tm') (free : q.wait = .none) (phases clk : Nat) (phase drop : Bool) (vc : Table Nat) :
    let u := (g.each (g.st.crews.filter fun e => e.2.team == c.team) (phaseRelease off phases phase clk vc drop)).st
    KnotOnly s c.team off tm u tm' ∧ StandsAt c x k q u ∧
      ∀ y d, y ≠ x → s.crew? y = some d → d.team = c.team → d.awaited (.knot off phase) = false → Released s u y (.knot off phase) clk := by
  refine ⟨Go.each_keeps (P := fun u => KnotOnly s c.team off tm u tm') (fun e _ g' h => h.phaseRelease e) g h.only,
    Go.each_keeps (P := StandsAt c x k q) (fun e _ g' h => h.phaseRelease free e) g h.stands, fun y d other crew mine whole d' j p crew' run sorted split waits => ?_⟩
  obtain rfl : d = d' := Option.some.inj (crew.symm.trans crew')
  obtain ⟨e, there, past⟩ := h.past y d other crew run sorted
  have eteam : e.team = c.team := by rw [past.crew]; exact mine
  have estill : e.st = .running := by rw [past.crew]; exact run
  have ewhole : e.awaited (.knot off phase) = false := by rw [past.crew]; exact whole
  have listed : (y, e) ∈ g.st.crews.filter fun e => e.2.team == c.team := List.mem_filter.2 ⟨Tab.mem_of_find there, by simp [eteam]⟩
  obtain ⟨e', there', gone⟩ := phaseRelease_each (phases := phases) (clk := clk) (vc := vc) (drop := drop)
    ((List.filter_sublist.map Prod.fst).nodup (Tab.nodup_keys h.only.crews)) listed there estill past.sorted
    (past.split j p split (by rw [waits]; rfl)) waits ewhole
  exact ⟨e', p.goOn clk, there', gone, rfl, rfl, rfl⟩

theorem modTeam_crew? (g : Go s0) (n : Nat) (F : Team → Team) (y : Nat) : (modTeam g n F).st.crew? y = g.st.crew? y := by
  unfold modTeam
  split <;> rfl

/-- The phase ends: the knot is of the next one, and the waits for the old one are over. -/
theorem KnotRun.completes (h : KnotRun s off tm c x k q g.st tm') (free : q.wait = .none) (aligned : off % 16 = 0) (active : tm'.active off = true)
    (full : (tm'.knot off).arrived = (tm'.knot off).expect) (paid : (tm'.knot off).debt = 0) (none_ : (tm'.knotSt off).waiting = []) :
    ∃ t, KnotOnly s c.team off tm (knotCheck g c.team off 1).st t ∧ StandsAt c x k q (knotCheck g c.team off 1).st ∧
      t.knot off = (tm'.knot off).next ∧
      ∀ y d, y ≠ x → s.crew? y = some d → d.team = c.team → d.awaited (.knot off (tm'.knot off).phase) = false →
        Released s (knotCheck g c.team off 1).st y (.knot off (tm'.knot off).phase) (tm'.knotSt off).clock := by
  obtain ⟨t, run, knot⟩ := h.next (by rw [free]; rfl) aligned (tm'.knotSt off).next
  obtain ⟨only, stands, released⟩ := run.releases free ((tm'.knotSt off).phases + 1) (tm'.knotSt off).clock (tm'.knot off).phase
    (tm'.pair || 3 ≤ (tm'.knotSt off).scope) (tm'.knotSt off).vc
  have due := knotCheck_due h.only.team active full paid none_
  rw [show knotCheck g c.team off 1 = _ from due]
  refine ⟨_, only.modTeam (F := fun t => t.setKnotSt off { t.knotSt off with waiting := [] }) rfl, stands.modTeam .., (Team.knot_setKnotSt ..).trans knot,
    fun y d other crew mine whole d' j p crew' run sorted split waits => ?_⟩
  rw [modTeam_crew?]
  exact released y d other crew mine whole d' j p crew' run sorted split waits

end Complete

end Sys2Proof.Machine
end

section
/-! SUPPORT. O26: a crew all of whose lanes have executed a `knotarr` or a `knotwait` (R54, R58, R254, R255). -/

namespace Sys2Proof.Machine

open Sys2Proof

/-- A knot's bookkeeping with one more arrival that waits for the next phase. -/
def KnotSt.queued (st : KnotSt) (e : Nat × Arrival) : KnotSt := { st with waiting := st.waiting ++ [e] }

section Arrived

variable {s0 s1 : State} {g : Go s0} {x off : Nat} {v : Crew} {tm : Team} {a : Arrival}

/-- At a full knot the arrival waits. -/
theorem arrived_full (crew : g.st.crew? x = some v) (team : g.st.team? v.team = some tm) (what : a.what = .knotArrive off)
    (full : (tm.knot off).expect ≤ (tm.knot off).arrived) : ∃ n b, arrived g x a = modTeam (modCrew g x (Crew.noteArrived (.knotArrive off) n)) v.team
      fun t => t.setKnotSt off ((t.knotSt off).queued (x, b)) := by
  refine ⟨tm.phaseNow a.what, { a with done := true, fence := none, phase := tm.phaseNow a.what }, ?_⟩
  have team' : (modCrew g x (Crew.noteArrived (.knotArrive off) (tm.phaseNow (.knotArrive off)))).st.team? v.team = some tm := by
    rw [State.team?, modCrew_only]
    exact team
  unfold arrived
  simp only [crew, team, what, team', if_pos full]
  rfl

/-- At a knot that is not full the crew goes on, and the knot is checked. -/
theorem arrived_room (crew : g.st.crew? x = some v) (team : g.st.team? v.team = some tm) (what : a.what = .knotArrive off)
    (room : (tm.knot off).arrived < (tm.knot off).expect) : ∃ n, arrived g x a =
      knotSettle (endWaits (knotArrive (modCrew g x (Crew.noteArrived (.knotArrive off) n)) v.team off x a) x (.knotArrive off) 0 []) v.team off := by
  refine ⟨tm.phaseNow a.what, ?_⟩
  have team' : (modCrew g x (Crew.noteArrived (.knotArrive off) (tm.phaseNow (.knotArrive off)))).st.team? v.team = some tm := by
    rw [State.team?, modCrew_only]
    exact team
  unfold arrived
  simp only [crew, team, what, team', if_neg (Nat.not_le.2 room)]

/-- Once the phase that it waits for has passed, the crew goes on. -/
theorem arrived_passed {b : Bool} (crew : g.st.crew? x = some v) (team : g.st.team? v.team = some tm) (what : a.what = .knot off b)
    (passed : (tm.knot off).phase ≠ b) : ∃ n,
      let g1 := endWaits (modCrew g x (Crew.noteArrived (.knot off b) n)) x (.knot off b) (tm.knotSt off).lastClock (tm.knotSt off).lastVc
      arrived g x a = if tm.pair || 3 ≤ (tm.knotSt off).lastScope then dropCopies g1 x else g1 := by
  refine ⟨tm.phaseNow a.what, ?_⟩
  have team' : (modCrew g x (Crew.noteArrived (.knot off b) (tm.phaseNow (.knot off b)))).st.team? v.team = some tm := by
    rw [State.team?, modCrew_only]
    exact team
  unfold arrived
  simp only [crew, team, what, team', bne_iff_ne, ne_eq, passed, not_false_eq_true, if_true]

/-- Until then it waits. -/
theorem arrived_waits {b : Bool} (crew : g.st.crew? x = some v) (team : g.st.team? v.team = some tm) (what : a.what = .knot off b)
    (running : (tm.knot off).phase = b) : ∃ n, arrived g x a = modCrew g x (Crew.noteArrived (.knot off b) n) := by
  refine ⟨tm.phaseNow a.what, ?_⟩
  have team' : (modCrew g x (Crew.noteArrived (.knot off b) (tm.phaseNow (.knot off b)))).st.team? v.team = some tm := by
    rw [State.team?, modCrew_only]
    exact team
  unfold arrived
  simp only [crew, team, what, team', bne_iff_ne, ne_eq, running, not_true_eq_false, if_false]

end Arrived

theorem Crew.arrivalOf_what (c : Crew) (w : Wait) (mask run : Lanes) (bytes clk : Nat) : (c.arrivalOf w mask run bytes clk).what = w := rfl

section Member

variable {s : State} {m : Mn} {f : Fields} {x k : Nat} {c : Crew} {sp : Split} {tm : Team} {off : Nat}

/-- Lanes of the mask are missing: the split waits for them. -/
theorem member_waits (h : s.Executes m f x k c sp) (hs : Settled c sp) (w : Wait) {mask : Lanes} (bytes : Nat) {o : Host.Outcome State Fault Refusal}
    (answers : o = .next (member (Go.start s) (issueOf s m f x k c sp) w mask bytes).st)
    (missing : mask &&& ~~~c.exited &&& ~~~((arrivedBefore c w).1 ||| runLanes s m f x k c sp) ≠ 0) :
    ∃ u c' sp', Blocks o u x k c c' sp sp' w ∧ OnlyCrew s u x := by
  obtain ⟨s1, d, q, g, work, blocked, at1, path⟩ := member_path h hs w mask bytes
  rw [path, Crew.arrivalOf_lanes, if_neg missing] at answers
  exact ⟨g.st, _, q, blocked.blocks answers at1.crew rfl ((d.marked_arrive _).regs.trans blocked.regs), at1.only work⟩

/-- No lane of the mask is missing: the split has blocked, and its crew arrives. -/
theorem member_arrives (h : s.Executes m f x k c sp) (hs : Settled c sp) (crews : Tab.sorted s.crews = true) (splits : Tab.sorted c.splits = true)
    (team : s.team? c.team = some tm) (off : Nat) (w : Wait) {mask : Lanes} (bytes : Nat) {o : Host.Outcome State Fault Refusal}
    (answers : o = .next (member (Go.start s) (issueOf s m f x k c sp) w mask bytes).st)
    (whole : mask &&& ~~~c.exited &&& ~~~((arrivedBefore c w).1 ||| runLanes s m f x k c sp) = 0) :
    ∃ (s1 : State) (d : Crew) (q : Split) (g : Go s), OnlyWork s s1 ∧ Crew.Blocked c k sp w d q ∧
      AtCrew s1 x (d.arrive (c.arrivalOf w mask (runLanes s m f x k c sp) bytes (sp.clock + 1))) g.st ∧
      KnotRun s off tm c x k q g.st tm ∧ o = .next (arrived g x (c.arrivalOf w mask (runLanes s m f x k c sp) bytes (sp.clock + 1))).st := by
  obtain ⟨-, crew, split, running, -⟩ := State.issuer_some h.issuer
  obtain ⟨s1, d, q, g, work, blocked, at1, path⟩ := member_path h hs w mask bytes
  rw [path, Crew.arrivalOf_lanes, if_pos whole] at answers
  have others : ∀ y, y ≠ x → g.st.crew? y = s.crew? y := fun y hy => (at1.only work).2 y hy
  have only : KnotOnly s c.team off tm g.st tm := by
    refine ⟨by rw [at1, work], ?_, fun n _ => ?_, fun _ _ => rfl, ?_⟩
    · rw [at1.team, work]; exact team
    · rw [at1.team, work]; rfl
    · rw [at1, work]; exact Tab.sorted_put _ _ _ crews
  have stands : Crew.Standing c k q d := ⟨blocked.split, blocked.regs, by rw [blocked.crew]; exact running, by rw [blocked.crew], by rw [blocked.crew],
    blocked.sorted splits⟩
  exact ⟨s1, d, q, g, work, blocked, at1, ⟨only, ⟨_, at1.crew, stands.mark (d.marked_arrive _)⟩,
    fun y e hy crew' _ sorted => ⟨e, (others y hy).trans crew', .refl sorted⟩⟩, answers⟩

/-- The crew's split has gone on. -/
theorem Crew.Blocked.onward {w : Wait} {d : Crew} {q : Split} (blocked : Crew.Blocked c k sp w d q) {clk : Nat} {u : State} (stands : StandsAt c x k (q.goOn clk) u)
    {o : Host.Outcome State Fault Refusal} (answers : o = .next u) :
    ∃ c' sp', Onward o u x k c c' sp sp' ∧ sp'.clock = max (sp.clock + 1) clk := by
  obtain ⟨e, crew, split, regs, -⟩ := stands
  refine ⟨e, q.goOn clk, ⟨answers, crew, split, rfl, ?_, ?_, ?_, regs.v, regs.s, regs.p, regs.lay⟩, ?_⟩ <;> rw [blocked.own] <;> rfl

/-- The crew's split waits. -/
theorem Crew.Blocked.stays {w : Wait} {d : Crew} {q : Split} (blocked : Crew.Blocked c k sp w d q) {u : State} (stands : StandsAt c x k q u)
    {o : Host.Outcome State Fault Refusal} (answers : o = .next u) : ∃ c', Blocks o u x k c c' sp q w := by
  obtain ⟨e, crew, split, regs, -⟩ := stands
  refine ⟨e, answers, crew, split, ?_, ?_, ?_, ?_, ?_, ?_, regs.v, regs.s, regs.p, regs.lay⟩ <;> rw [blocked.own]

end Member

section Arrive

variable {s : State} {m : Mn} {f : Fields} {x k : Nat} {c : Crew} {sp : Split} {tm : Team} {off bytes : Nat} {mask : Lanes} {o : Host.Outcome State Fault Refusal}
variable (h : s.Executes m f x k c sp) (hs : Settled c sp) (crews : Tab.sorted s.crews = true) (splits : Tab.sorted c.splits = true)
  (team : s.team? c.team = some tm)

section Count

variable (answers : o = .next (member (Go.start s) (issueOf s m f x k c sp) (.knotArrive off) mask bytes).st)
  (whole : mask &&& ~~~c.exited &&& ~~~((arrivedBefore c (.knotArrive off)).1 ||| runLanes s m f x k c sp) = 0)

include h hs crews splits team answers whole in
/-- A full knot: the crew waits for the next phase. -/
theorem arrival_waits (full : (tm.knot off).expect ≤ (tm.knot off).arrived) :
    ∃ u c' sp' tm', Blocks o u x k c c' sp sp' (.knotArrive off) ∧ KnotAlone s u c.team off tm tm' ∧ tm'.knot off = tm.knot off ∧
      (tm'.knotSt off).waiting.map Prod.fst = (tm.knotSt off).waiting.map Prod.fst ++ [x] := by
  obtain ⟨s1, d, q, g, work, blocked, at1, run, next⟩ := member_arrives h hs crews splits team off _ bytes answers whole
  have mine : (d.arrive (c.arrivalOf (.knotArrive off) mask (runLanes s m f x k c sp) bytes (sp.clock + 1))).team = c.team := by rw [blocked.crew]; rfl
  obtain ⟨n, b, path⟩ := arrived_full at1.crew (by rw [mine]; exact run.only.team) (c.arrivalOf_what _ mask (runLanes s m f x k c sp) bytes (sp.clock + 1)) full
  rw [mine] at path
  have run' := (run.modCrew (F := Crew.noteArrived (.knotArrive off) n) fun d => d.marked_noteArrived _ n).modTeam
    (F := fun t => t.setKnotSt off ((t.knotSt off).queued (x, b))) rfl
  rw [← path] at run'
  obtain ⟨c', blocks⟩ := blocked.stays run'.stands next
  refine ⟨_, c', q, _, blocks, run'.only.alone, Team.knot_setKnotSt .., ?_⟩
  rw [Team.knotSt_setKnotSt]
  exact List.map_append

include h hs crews splits team answers whole in
/-- A knot with room: the arrival is counted, the crew's wait is over, and the knot is checked. -/
theorem arrival_counts (aligned : off % 16 = 0) (room : (tm.knot off).arrived < (tm.knot off).expect) :
    ∃ (d : Crew) (q : Split) (t : Team) (g : Go s), Crew.Blocked c k sp (.knotArrive off) d q ∧ KnotRun s off tm c x k (q.goOn 0) g.st t ∧
      Team.SameGuards off tm t ∧ t.knot off = (tm.knot off).counted bytes ∧ o = .next (knotCheck g c.team off ((t.knotSt off).waiting.length + 1)).st := by
  obtain ⟨s1, d, q, g, work, blocked, at1, run, next⟩ := member_arrives h hs crews splits team off _ bytes answers whole
  have mine : (d.arrive (c.arrivalOf (.knotArrive off) mask (runLanes s m f x k c sp) bytes (sp.clock + 1))).team = c.team := by rw [blocked.crew]; rfl
  obtain ⟨n, path⟩ := arrived_room at1.crew (by rw [mine]; exact run.only.team) (c.arrivalOf_what _ mask (runLanes s m f x k c sp) bytes (sp.clock + 1)) room
  rw [mine] at path
  have other : q.wait = .knotArrive off := by rw [blocked.own]
  obtain ⟨expect, -⟩ := tm.knot_fits off
  obtain ⟨t, run', same, knot⟩ := (run.modCrew (F := Crew.noteArrived (.knotArrive off) n) fun d => d.marked_noteArrived _ n).knotArrive (by rw [other]; rfl) aligned (by omega)
    (c.arrivalOf (.knotArrive off) mask (runLanes s m f x k c sp) bytes (sp.clock + 1))
  have run'' := run'.endWaits (.knotArrive off) 0 []
  rw [Split.ended, if_pos other] at run''
  refine ⟨d, q, t, _, blocked, run'', same, knot, ?_⟩
  rw [next, path, knotSettle]
  simp only [run''.only.team]

include h hs crews splits team answers whole in
/-- The arrival completes no phase. -/
theorem arrival_goes_on (aligned : off % 16 = 0) (room : (tm.knot off).arrived < (tm.knot off).expect)
    (more : ¬ ((tm.knot off).arrived + 1 = (tm.knot off).expect ∧ ((tm.knot off).debt + bytes) % 2 ^ 32 = 0)) :
    ∃ u c' sp' tm', Onward o u x k c c' sp sp' ∧ KnotAlone s u c.team off tm tm' ∧ sp'.clock = sp.clock + 1 ∧
      tm'.knot off = (tm.knot off).counted bytes := by
  obtain ⟨d, q, t, g, blocked, run, same, knot, next⟩ := arrival_counts h hs crews splits team answers whole aligned room
  rw [knotCheck_idle run.only.team (by rw [knot]; exact more)] at next
  obtain ⟨c', sp', onward, clock⟩ := blocked.onward run.stands next
  exact ⟨g.st, c', sp', t, onward, run.only.alone, by omega, knot⟩

include h hs crews splits team answers whole in
/-- The arrival completes the phase. -/
theorem arrival_completes (aligned : off % 16 = 0) (active : tm.active off = true) (last : (tm.knot off).arrived + 1 = (tm.knot off).expect)
    (paid : ((tm.knot off).debt + bytes) % 2 ^ 32 = 0) (none_ : (tm.knotSt off).waiting = []) :
    ∃ u c' sp' tm' clk, Onward o u x k c c' sp sp' ∧ KnotAlone s u c.team off tm tm' ∧
      tm'.knot off = { tm.knot off with arrived := 0, debt := 0, phase := !(tm.knot off).phase } ∧
      ∀ y d, y ≠ x → s.crew? y = some d → d.team = c.team → (∀ a ∈ d.arriving, a.what = .knot off (tm.knot off).phase → a.done = true) →
        Released s u y (.knot off (tm.knot off).phase) clk := by
  obtain ⟨d, q, t, g, blocked, run, same, knot, next⟩ := arrival_counts h hs crews splits team answers whole aligned (by omega)
  have quiet : (t.knotSt off).waiting = [] := same.waiting.trans none_
  have phase : (t.knot off).phase = (tm.knot off).phase := by rw [knot]; rfl
  obtain ⟨t', only, stands, knot', released⟩ := run.completes rfl aligned (same.active.trans active) (by rw [knot]; exact last) (by rw [knot]; exact paid) quiet
  rw [quiet] at next
  obtain ⟨c', sp', onward, -⟩ := blocked.onward stands next
  refine ⟨_, c', sp', t', (t.knotSt off).clock, onward, only.alone, ?_, fun y e other crew mine whole => ?_⟩
  · rw [knot', knot, Knot.next, Knot.counted, paid]
  · rw [← phase]
    refine released y e other crew mine ?_
    rw [phase, Crew.awaited, List.any_eq_false]
    intro a ha waits
    rw [Bool.and_eq_true, beq_iff_eq, Bool.not_eq_true'] at waits
    rw [whole a ha waits.1] at waits
    exact Bool.noConfusion waits.2

end Count

section Await

variable {b : Bool} (answers : o = .next (member (Go.start s) (issueOf s m f x k c sp) (.knot off b) mask bytes).st)

include h hs crews splits team answers in
/-- The phase has passed, and no lane is missing: the crew goes on. -/
theorem await_passes (whole : mask &&& ~~~c.exited &&& ~~~((arrivedBefore c (.knot off b)).1 ||| runLanes s m f x k c sp) = 0)
    (passed : (tm.knot off).phase ≠ b) :
    ∃ u c' sp', Onward o u x k c c' sp sp' ∧ OnlyCrew s u x ∧ sp'.clock = max (sp.clock + 1) (tm.knotSt off).lastClock := by
  obtain ⟨s1, d, q, g, work, blocked, at1, run, next⟩ := member_arrives h hs crews splits team off _ bytes answers whole
  have mine : (d.arrive (c.arrivalOf (.knot off b) mask (runLanes s m f x k c sp) bytes (sp.clock + 1))).team = c.team := by rw [blocked.crew]; rfl
  obtain ⟨n, path⟩ := arrived_passed at1.crew (by rw [mine]; exact run.only.team) (c.arrivalOf_what _ mask (runLanes s m f x k c sp) bytes (sp.clock + 1)) passed
  have own : q.wait = .knot off b := by rw [blocked.own]
  have noted := at1.modCrew (Crew.noteArrived (.knot off b) n)
  have run1 := (run.modCrew (F := Crew.noteArrived (.knot off b) n) fun d => d.marked_noteArrived _ n).endWaits (.knot off b) (tm.knotSt off).lastClock (tm.knotSt off).lastVc
  have at2 : AtCrew s1 x _ (endWaits (modCrew g x (Crew.noteArrived (.knot off b) n)) x (.knot off b) (tm.knotSt off).lastClock (tm.knotSt off).lastVc).st :=
    noted.modCrew _
  rw [Split.ended, if_pos own] at run1
  rw [path] at next
  by_cases drop : tm.pair || 3 ≤ (tm.knotSt off).lastScope
  case pos =>
    rw [if_pos drop] at next
    obtain ⟨c', sp', onward, clock⟩ := blocked.onward (run1.stands.dropCopies x) next
    exact ⟨_, c', sp', onward, AtCrew.only (at2.modCrew _) work, clock⟩
  case neg =>
    rw [if_neg drop] at next
    obtain ⟨c', sp', onward, clock⟩ := blocked.onward run1.stands next
    exact ⟨_, c', sp', onward, at2.only work, clock⟩

include h hs crews splits team answers in
/-- The phase runs, or lanes are missing: the split waits. -/
theorem await_waits (not_yet : (tm.knot off).phase = b ∨ mask &&& ~~~c.exited &&& ~~~((arrivedBefore c (.knot off b)).1 ||| runLanes s m f x k c sp) ≠ 0) :
    ∃ u c' sp', Blocks o u x k c c' sp sp' (.knot off b) ∧ OnlyCrew s u x := by
  by_cases whole : mask &&& ~~~c.exited &&& ~~~((arrivedBefore c (.knot off b)).1 ||| runLanes s m f x k c sp) = 0
  case neg => exact member_waits h hs _ bytes answers whole
  case pos =>
    obtain ⟨s1, d, q, g, work, blocked, at1, run, next⟩ := member_arrives h hs crews splits team off _ bytes answers whole
    have mine : (d.arrive (c.arrivalOf (.knot off b) mask (runLanes s m f x k c sp) bytes (sp.clock + 1))).team = c.team := by rw [blocked.crew]; rfl
    obtain ⟨n, path⟩ := arrived_waits at1.crew (by rw [mine]; exact run.only.team) (c.arrivalOf_what _ mask (runLanes s m f x k c sp) bytes (sp.clock + 1)) (not_yet.resolve_right fun missing => missing whole)
    rw [path] at next
    obtain ⟨c', blocks⟩ := blocked.stays (run.modCrew (F := Crew.noteArrived (.knot off b) n) fun d => d.marked_noteArrived _ n).stands next
    exact ⟨_, c', q, blocks, (at1.modCrew _).only work⟩

end Await

end Arrive

end Sys2Proof.Machine
end

section
/-! SUPPORT. O26: `knotarr` and `knotwait`, outcome by outcome (R249, R254, R255). -/

namespace Sys2Proof.Machine

open Sys2Proof

section Knots

variable {s : State} {f : Fields} {x k : Nat} {c : Crew} {sp : Split} {tm : Team} {off : Nat}
variable (hs : Settled c sp) (crews : Tab.sorted s.crews = true) (splits : Tab.sorted c.splits = true)
  (team : s.team? c.team = some tm) (held : c.heldBack s.seq = false) (named : members c f ≠ 0)
  (here : operand32 c sp.wbase f.a 0 = off) (place : knotPlace s x c tm off)

section Arr

variable (h : s.Executes .knotarr f x k c sp) (some_ : lowest (runLanes s .knotarr f x k c sp) c.width ≠ none) {n : Nat}
  (count : knotBytes (issueOf s .knotarr f x k c sp) = n)

include hs team named here place h some_ count in
/-- What a `knotarr` does whose mask and place are in order. -/
theorem knotarr_checks : exec (.knotarr f) s = .next (
    if !tm.active off then faultAll (Go.start s) (issueOf s .knotarr f x k c sp) 12 off 1
    else if disagrees s (issueOf s .knotarr f x k c sp) (.knotArrive off) (members c f) n then faultAll (Go.start s) (issueOf s .knotarr f x k c sp) 15 0 0
    else if orderWaits s (issueOf s .knotarr f x k c sp) then Go.start s
    else member (Go.start s) (issueOf s .knotarr f x k c sp) (.knotArrive off) (members c f) n).st := by
  have answers : exec (.knotarr f) s = .next (knotarrBody (issueOf s .knotarr f x k c sp) (Go.start s)).st := crewStep_executes h _
  subst here
  unfold knotarrBody at answers
  simp only [issueOf_run, if_neg (runLanes_ne_zero some_), memberMask_issueOf hs, if_neg named, Go.start_st, knotCause_none hs team place,
    knotActive_issueOf hs team, knotOff_issueOf hs, count] at answers
  exact answers

include hs crews splits team named here place h some_ count in
theorem knotarr_inactive (idle : tm.active off = false) : Faults s (exec (.knotarr f) s) x k c sp 12 (runLanes s .knotarr f x k c sp) := by
  rw [knotarr_checks hs team named here place h some_ count, if_pos (by rw [idle]; rfl)]
  exact faultAll_faults h hs crews splits some_ (by decide) (by decide) ..

include hs crews splits team named here place h some_ count in
theorem knotarr_disagrees (active : tm.active off = true)
    (differs : ¬ agrees tm c k sp (runLanes s .knotarr f x k c sp) (members c f) (.knotArrive off) n) :
    Faults s (exec (.knotarr f) s) x k c sp 15 (runLanes s .knotarr f x k c sp) := by
  have no : disagrees s (issueOf s .knotarr f x k c sp) (.knotArrive off) (members c f) n = true := by
    rw [← Bool.not_eq_false, disagrees_iff hs team]
    exact differs
  rw [knotarr_checks hs team named here place h some_ count, if_neg (by rw [active]; decide), if_pos no]
  exact faultAll_faults h hs crews splits some_ (by decide) (by decide) ..

include hs team held named here place h some_ count in
/-- Where nothing refuses it, the split arrives. -/
theorem knotarr_arrives (active : tm.active off = true)
    (same : agrees tm c k sp (runLanes s .knotarr f x k c sp) (members c f) (.knotArrive off) n) :
    exec (.knotarr f) s = .next (member (Go.start s) (issueOf s .knotarr f x k c sp) (.knotArrive off) (members c f) n).st := by
  have yes := (disagrees_iff (x := x) (k := k) (m := .knotarr) hs team (.knotArrive off) (members c f) n).2 same
  rw [knotarr_checks hs team named here place h some_ count, if_neg (by rw [active]; decide), if_neg (by rw [yes]; decide),
    if_neg (by rw [orderWaits_issueOf hs held]; decide)]

end Arr

section Await

variable (h : s.Executes .knotwait f x k c sp) (some_ : lowest (runLanes s .knotwait f x k c sp) c.width ≠ none) {b : Bool}
  (parity : (operand32 c sp.wbase f.d 0 % 2 == 1) = b)

include hs team named here place h some_ parity in
/-- What a `knotwait` does whose mask and place are in order. -/
theorem knotwait_checks : exec (.knotwait f) s = .next (
    if !tm.active off then faultAll (Go.start s) (issueOf s .knotwait f x k c sp) 12 off 0
    else if disagrees s (issueOf s .knotwait f x k c sp) (.knot off b) (members c f) 0 then faultAll (Go.start s) (issueOf s .knotwait f x k c sp) 15 0 0
    else if orderWaits s (issueOf s .knotwait f x k c sp) || teamFenceWaits s (issueOf s .knotwait f x k c sp) then Go.start s
    else member (Go.start s) (issueOf s .knotwait f x k c sp) (.knot off b) (members c f) 0).st := by
  have answers : exec (.knotwait f) s = .next (knotwaitBody (issueOf s .knotwait f x k c sp) (Go.start s)).st := crewStep_executes h _
  have side : knotParity (issueOf s .knotwait f x k c sp) = b := by rw [knotParity, issueOf_c hs, issueOf_sp hs, issueOf_f, parity]
  subst here
  unfold knotwaitBody at answers
  simp only [issueOf_run, if_neg (runLanes_ne_zero some_), memberMask_issueOf hs, if_neg named, Go.start_st, knotCause_none hs team place,
    knotActive_issueOf hs team, knotOff_issueOf hs, side] at answers
  exact answers

include hs crews splits team named here place h some_ parity in
theorem knotwait_inactive (idle : tm.active off = false) : Faults s (exec (.knotwait f) s) x k c sp 12 (runLanes s .knotwait f x k c sp) := by
  rw [knotwait_checks hs team named here place h some_ parity, if_pos (by rw [idle]; rfl)]
  exact faultAll_faults h hs crews splits some_ (by decide) (by decide) ..

include hs crews splits team named here place h some_ parity in
theorem knotwait_disagrees (active : tm.active off = true)
    (differs : ¬ agrees tm c k sp (runLanes s .knotwait f x k c sp) (members c f) (.knot off b) 0) :
    Faults s (exec (.knotwait f) s) x k c sp 15 (runLanes s .knotwait f x k c sp) := by
  have no : disagrees s (issueOf s .knotwait f x k c sp) (.knot off b) (members c f) 0 = true := by
    rw [← Bool.not_eq_false, disagrees_iff hs team]
    exact differs
  rw [knotwait_checks hs team named here place h some_ parity, if_neg (by rw [active]; decide), if_pos no]
  exact faultAll_faults h hs crews splits some_ (by decide) (by decide) ..

include hs team held named here place h some_ parity in
/-- Where nothing refuses it, the split joins the wait. -/
theorem knotwait_joins (active : tm.active off = true)
    (same : agrees tm c k sp (runLanes s .knotwait f x k c sp) (members c f) (.knot off b) 0) (fence : fenceDone s x c (scopeNo tm 1) s.seq) :
    exec (.knotwait f) s = .next (member (Go.start s) (issueOf s .knotwait f x k c sp) (.knot off b) (members c f) 0).st := by
  have yes := (disagrees_iff (x := x) (k := k) (m := .knotwait) hs team (.knot off b) (members c f) 0).2 same
  have ready := (teamFenceWaits_iff (x := x) (k := k) (m := .knotwait) (f := f) hs team).2 fence
  rw [knotwait_checks hs team named here place h some_ parity, if_neg (by rw [active]; decide), if_neg (by rw [yes]; decide),
    if_neg (by rw [orderWaits_issueOf hs held, ready]; decide)]

end Await

end Knots

end Sys2Proof.Machine

namespace Sys2Proof

open Machine

/-- Settles O26, instruction by instruction: `knotinit` and `knotfree` write the knot, a `knotarr` waits, counts or completes the phase, and a
`knotwait` passes or waits. -/
theorem knotsCountArrivals : Obligations.KnotsCountArrivals := by
  unfold Obligations.KnotsCountArrivals
  intro f s x k c sp tm hs crews splits free team held off kn same
  refine ⟨?_, ?_, ?_, ?_⟩
  · intro h some_ n o
    exact ⟨knotinit_refuses hs crews splits h some_, fun low high place => knotinit_active hs crews splits team h some_ low high place,
      fun low high place idle => knotinit_makes hs crews splits free team held h some_ low high place idle⟩
  · intro h some_ place o parked
    exact ⟨knotfree_refuses hs crews splits team h some_ place, knotfree_frees hs crews splits free team held h some_ place⟩
  · intro h some_ place o run m n before debt named
    have count : knotBytes (issueOf s .knotarr f x k c sp) = n := by
      rw [knotBytes, issueOf_c hs, issueOf_sp hs]
      rfl
    refine ⟨knotarr_inactive hs crews splits team named rfl place h some_ count, knotarr_disagrees hs crews splits team named rfl place h some_ count,
      fun active agreed => ?_⟩
    have arrives := knotarr_arrives hs team held named rfl place h some_ count active agreed
    exact ⟨member_waits h hs _ n arrives, fun whole full => arrival_waits h hs crews splits team arrives whole full,
      fun whole room more => arrival_goes_on h hs crews splits team arrives whole place.1 room more,
      fun whole last paid none_ => arrival_completes h hs crews splits team arrives whole place.1 active last paid none_⟩
  · intro h some_ place o run m q before named
    refine ⟨knotwait_inactive hs crews splits team named rfl place h some_ rfl, knotwait_disagrees hs crews splits team named rfl place h some_ rfl,
      fun active agreed fence => ?_⟩
    have joins := knotwait_joins hs team held named rfl place h some_ rfl active agreed fence
    exact ⟨fun passed whole => await_passes h hs crews splits team joins whole passed, await_waits h hs crews splits team joins⟩

end Sys2Proof
end

section
/-! SUPPORT. The tree and the ladder of R97 over lane positions: the model's lists and the positions' values. -/

namespace Sys2Proof.Machine

open Sys2Proof

section Tree

variable (f : Nat → Nat → Nat)

@[simp] theorem combineOpt_none_left (y : Option Nat) : combineOpt f none y = y := by cases y <;> rfl
@[simp] theorem combineOpt_none_right (x : Option Nat) : combineOpt f x none = x := by cases x <;> rfl

theorem combineOpt_isSome (x y : Option Nat) : (combineOpt f x y).isSome = (x.isSome || y.isSome) := by
  cases x <;> cases y <;> rfl

/-- The values of one level of the tree. -/
def pairLevel (v : Nat → Option Nat) (l : Nat) : Option Nat := combineOpt f (v (2 * l)) (v (2 * l + 1))

theorem pairUp_range (v : Nat → Option Nat) (n : Nat) : pairUp f ((List.range (2 * n)).map v) = (List.range n).map (pairLevel f v) := by
  induction n generalizing v with
  | zero => rfl
  | succ n ih =>
    have two : List.range (2 * (n + 1)) = 0 :: 1 :: (List.range (2 * n)).map (· + 2) := by
      rw [Nat.mul_succ, List.range_succ_eq_map, List.range_succ_eq_map, List.map_cons, List.map_map]
      rfl
    rw [two, List.map_cons, List.map_cons, List.map_map, pairUp, ih, List.range_succ_eq_map, List.map_cons, List.map_map]
    rfl

theorem treeOver_pairLevel (v : Nat → Option Nat) (n lo : Nat) : treeOver f v (n + 1) (2 * lo) = treeOver f (pairLevel f v) n lo := by
  induction n generalizing lo with
  | zero => rfl
  | succ n ih =>
    rw [treeOver, ih, show 2 * lo + 2 ^ (n + 1) = 2 * (lo + 2 ^ n) by rw [Nat.pow_succ']; omega, ih]
    rfl

theorem treeReduce_singleton (d : Nat) (x : Option Nat) : treeReduce f d [x] = x := by
  induction d with
  | zero => rfl
  | succ d ih => exact ih

/-- The tree over `2 ^ n` lane positions; levels above its root change nothing. -/
theorem treeReduce_range (v : Nat → Option Nat) (n d : Nat) : treeReduce f (n + d) ((List.range (2 ^ n)).map v) = treeOver f v n 0 := by
  induction n generalizing v with
  | zero => exact (congrFun (congrArg _ (Nat.zero_add d)) _).trans (treeReduce_singleton f d (v 0))
  | succ n ih =>
    rw [Nat.succ_add, treeReduce, Nat.pow_succ', pairUp_range, ih, ← treeOver_pairLevel, Nat.mul_zero]

/-- The tree has a value where some position has one. -/
theorem treeOver_isSome (v : Nat → Option Nat) (n lo : Nat) : (treeOver f v n lo).isSome = true ↔ ∃ l, lo ≤ l ∧ l < lo + 2 ^ n ∧ (v l).isSome = true := by
  induction n generalizing lo with
  | zero =>
    rw [treeOver]
    exact ⟨fun some_ => ⟨lo, le_rfl, Nat.lt_succ_self lo, some_⟩, fun ⟨l, low, high, some_⟩ => by rwa [show lo = l by omega]⟩
  | succ n ih =>
    rw [treeOver, combineOpt_isSome, Bool.or_eq_true, ih, ih, Nat.pow_succ']
    constructor
    · rintro (⟨l, low, high, some_⟩ | ⟨l, low, high, some_⟩)
      · exact ⟨l, low, by omega, some_⟩
      · exact ⟨l, by omega, by omega, some_⟩
    · rintro ⟨l, low, high, some_⟩
      by_cases left : l < lo + 2 ^ n
      · exact .inl ⟨l, low, left, some_⟩
      · exact .inr ⟨l, by omega, by omega, some_⟩

end Tree

section Ladder

variable (f : Nat → Nat → Nat)

theorem ladderStep_range (v : Nat → Option Nat) (d w : Nat) :
    ladderStep f d ((List.range w).map v) = (List.range w).map fun l => if d ≤ l then combineOpt f (v (l - d)) (v l) else v l := by
  unfold ladderStep
  refine List.ext_getElem (by simp) fun l _ _ => ?_
  rw [List.getElem_zipWith, List.getElem_map, List.getElem_map, List.getElem_range, List.getElem_append]
  by_cases far : d ≤ l
  case pos => rw [dif_neg (by simpa using far), if_pos far, List.getElem_map, List.getElem_range, List.length_replicate]
  case neg => rw [dif_pos (by simpa using far), if_neg far, List.getElem_replicate, combineOpt_none_left]

theorem ladderStep_ladderOver (v : Nat → Option Nat) (n w : Nat) :
    ladderStep f (2 ^ n) ((List.range w).map (ladderOver f v n)) = (List.range w).map (ladderOver f v (n + 1)) :=
  ladderStep_range f (ladderOver f v n) (2 ^ n) w

/-- The ladder over the lane positions of a crew. -/
theorem ladder_range (v : Nat → Option Nat) {w : Nat} (width : w ∈ [32, 64, 128]) :
    ladder f w ((List.range w).map v) = (List.range w).map (ladderOver f v (Nat.log2 w)) := by
  have steps : ∀ w, (List.range w).map v = (List.range w).map (ladderOver f v 0) := fun _ => rfl
  have step := fun n w => ladderStep_ladderOver f v n w
  have first := step 0
  have second := step 1
  have third := step 2
  have fourth := step 3
  have fifth := step 4
  have sixth := step 5
  have seventh := step 6
  norm_num at first second third fourth fifth sixth seventh
  have log5 : Nat.log2 32 = 5 := by decide
  have log6 : Nat.log2 64 = 6 := by decide
  have log7 : Nat.log2 128 = 7 := by decide
  unfold ladder
  simp only [List.mem_cons, List.not_mem_nil, or_false] at width
  rcases width with rfl | rfl | rfl
  · simp only [List.foldl_cons, List.foldl_nil, steps, log5]
    norm_num [first, second, third, fourth, fifth]
  · simp only [List.foldl_cons, List.foldl_nil, steps, log6]
    norm_num [first, second, third, fourth, fifth, sixth]
  · simp only [List.foldl_cons, List.foldl_nil, steps, log7]
    norm_num [first, second, third, fourth, fifth, sixth, seventh]

theorem ladderOver_isSome (v : Nat → Option Nat) (n : Nat) {l : Nat} (here : (v l).isSome = true) : (ladderOver f v n l).isSome = true := by
  induction n with
  | zero => exact here
  | succ n ih =>
    rw [ladderOver]
    split
    · rw [combineOpt_isSome, ih, Bool.or_true]
    · exact ih

end Ladder

end Sys2Proof.Machine
end

section
/-! SUPPORT. Operands of the floating-point types are patterns of their formats (R138 to R141). -/

namespace Sys2Proof.Machine

open Sys2Proof

section Format

variable {F : Fmt}

theorem Fmt.withSign_lt {neg : Bool} {x : Nat} (h : x < F.signBit) : F.withSign neg x < 2 * F.signBit := by
  unfold Fmt.withSign
  split <;> omega

theorem Fmt.bias_eq (F : Fmt) : F.bias + 1 = (2 ^ (F.eb - 1) : Nat) := by
  unfold Fmt.bias
  omega

/-- An integer below the precision is a pattern of the format. -/
theorem roundF_small_lt (range : 5 ≤ F.eb) {m : Nat} (some_ : m ≠ 0) (small : Nat.log2 m ≤ F.fb) (below : Nat.log2 m < 15) (rm : Nat) (ftz neg : Bool) :
    roundF F rm ftz neg m 0 < 2 * F.signBit := by
  have top : ((bitLen m : Nat) : Int) - 1 + 0 = (Nat.log2 m : Nat) := by rw [bitLen, if_neg some_]; push_cast; omega
  have exact_ : roundAt rm neg m 0 false ((Nat.log2 m : Nat) - (F.fb : Int)) = m * 2 ^ (F.fb - Nat.log2 m) := by
    unfold roundAt
    rw [if_pos (by omega)]
    congr 2
    omega
  have high : m * 2 ^ (F.fb - Nat.log2 m) < 2 ^ (F.fb + 1) := by
    calc m * 2 ^ (F.fb - Nat.log2 m) < 2 ^ (Nat.log2 m + 1) * 2 ^ (F.fb - Nat.log2 m) := Nat.mul_lt_mul_of_pos_right Nat.lt_log2_self (Nat.two_pow_pos _)
      _ = 2 ^ (F.fb + 1) := by rw [← Nat.pow_add]; congr 1; omega
  have sixteen : 2 ^ 4 ≤ 2 ^ (F.eb - 1) := Nat.pow_le_pow_right (by decide) (by omega)
  have bias := F.bias_eq
  have double : 2 * 2 ^ (F.eb - 1) = 2 ^ F.eb := by rw [← Nat.pow_succ']; congr 1; omega
  unfold roundF
  simp only [if_neg some_, top, exact_]
  rw [show (m * 2 ^ (F.fb - Nat.log2 m) == 2 ^ (F.fb + 1)) = false from beq_eq_false_iff_ne.2 high.ne]
  simp only [Bool.false_eq_true, if_false]
  rw [if_neg (by omega), if_neg (by omega)]
  refine Fmt.withSign_lt ?_
  generalize m * 2 ^ (F.fb - Nat.log2 m) = r at *
  rw [Nat.pow_succ] at high
  calc ((Nat.log2 m : Int) + F.bias).toNat * 2 ^ F.fb + (r - 2 ^ F.fb) < (((Nat.log2 m : Int) + F.bias).toNat + 1) * 2 ^ F.fb := by
        rw [Nat.add_mul, Nat.one_mul]
        have := Nat.two_pow_pos F.fb
        omega
    _ ≤ 2 ^ F.eb * 2 ^ F.fb := Nat.mul_le_mul_right _ (by omega)
    _ = F.signBit := by rw [← Nat.pow_add]; rfl

/-- An immediate as a number of the format is one of its patterns. -/
theorem fOfInt_imm_lt (range : 5 ≤ F.eb) (precise : 14 ≤ F.fb) (rm : Nat) (ftz : Bool) (v : BitVec 15) : fOfInt F rm ftz (imm15 v) < 2 * F.signBit := by
  have low := BitVec.le_toInt v
  have high := BitVec.toInt_lt (x := v)
  norm_num at low high
  unfold fOfInt roundInt
  split
  case isTrue => exact Fmt.withSign_lt (Nat.two_pow_pos _)
  case isFalse nonzero =>
    have some_ : (imm15 v).natAbs ≠ 0 := Int.natAbs_ne_zero.2 nonzero
    have small : Nat.log2 (imm15 v).natAbs < 15 := by
      refine (Nat.log2_lt some_).2 ?_
      unfold imm15
      omega
    exact roundF_small_lt range some_ (by omega) small rm ftz _

end Format

theorem signMods_lt {n : Nat} (pos : 0 < n) (abs neg : Bool) (x : Nat) : signMods n abs neg x < 2 ^ n := by
  obtain ⟨n, rfl⟩ := Nat.exists_eq_succ_of_ne_zero pos.ne'
  have half : 2 ^ (n + 1) = 2 * 2 ^ n := Nat.pow_succ' ..
  have bound : (if abs then x % 2 ^ n else x % 2 ^ (n + 1)) < 2 ^ (n + 1) := by
    split
    · exact (Nat.mod_lt _ (Nat.two_pow_pos n)).trans (by have := Nat.two_pow_pos n; omega)
    · exact Nat.mod_lt _ (Nat.two_pow_pos _)
  unfold signMods
  simp only [Nat.succ_eq_add_one, Nat.add_sub_cancel]
  generalize (if abs then x % 2 ^ n else x % 2 ^ (n + 1)) = y at *
  split
  · split <;> omega
  · exact bound

/-- The single and double types. -/
theorem float_whole {t : Ty} (float : t.kind = .float) (whole : isHalf t = false) : t = .f32 ∨ t = .f64 := by
  revert float whole
  cases t <;> decide

/-- What a source field reads under such a type is a pattern of its format. -/
theorem operandVal_float_lt {t : Ty} (float : t.kind = .float) (whole : isHalf t = false) (c : Crew) (wbase : Nat) (o : Operand) (l : Nat) :
    operandVal c wbase t true o l < 2 ^ t.bits := by
  have bits : opBits t true = t.bits := by rw [opBits, whole]; rfl
  cases o with
  | v idx swz abs neg =>
    simp only [operandVal, srcMods, float, whole, Bool.and_false, Bool.false_eq_true, if_false]
    exact signMods_lt (bits_pos t) ..
  | s n =>
    rw [operandVal, bits]
    exact Nat.mod_lt _ (Nat.two_pow_pos _)
  | i v =>
    simp only [operandVal, immValue, float, whole, Bool.and_false, Bool.false_eq_true, if_false]
    rcases float_whole float whole with rfl | rfl
    · exact fOfInt_imm_lt (by decide) (by decide) ..
    · exact fOfInt_imm_lt (by decide) (by decide) ..
  | w x =>
    rcases float_whole float whole with rfl | rfl
    · exact Nat.mod_lt _ (Nat.two_pow_pos _)
    · show x.toNat * 2 ^ 32 < 2 ^ 64
      have := x.isLt
      omega
  | _ => exact Nat.two_pow_pos _

end Sys2Proof.Machine
end

section
/-! SUPPORT. What `redux` and `scan` of a floating-point type with F = 1 leave in D (R96, R97, R206, R207). -/

namespace Sys2Proof.Machine

open Sys2Proof

/-! ### Elements of a result -/

theorem elem_mod {x m n i : Nat} (h : n * i + n ≤ m) : elem (x % 2 ^ m) n i = elem x n i := by
  obtain ⟨r, rfl⟩ := Nat.exists_eq_add_of_le h
  unfold elem
  rw [Nat.pow_add, Nat.pow_add, Nat.mul_assoc, Nat.mod_mul_right_div_self, Nat.mod_mul_right_mod]

theorem elem_zero (x n : Nat) : elem x n 0 = x % 2 ^ n := by rw [elem, Nat.mul_zero, Nat.pow_zero, Nat.div_one]

theorem elem_joinElems_two {n a b i : Nat} (h : i < 2) : elem (joinElems n [a, b]) n i = (if i = 0 then a else b) % 2 ^ n := by
  have pos := Nat.two_pow_pos n
  rcases (by omega : i = 0 ∨ i = 1) with rfl | rfl
  · rw [elem_zero, if_pos rfl, joinElems, Nat.add_mul_mod_self_left, Nat.mod_mod]
  · rw [if_neg (by decide), elem, Nat.mul_one, joinElems, Nat.add_mul_div_left _ _ pos, Nat.div_eq_of_lt (Nat.mod_lt _ pos), Nat.zero_add, joinElems, joinElems,
      Nat.mul_zero, Nat.add_zero, Nat.mod_mod]

theorem isHalf_iff (t : Ty) : isHalf t = true ↔ t = .f16 ∨ t = .bf16 := by simp [isHalf]

section Width

variable {t : Ty}

theorem fpWidth_half (half : isHalf t = true) : fpWidth t = 16 := if_pos ((isHalf_iff t).1 half)
theorem fpWidth_whole (whole : isHalf t = false) : fpWidth t = t.bits := if_neg fun half => by rw [← isHalf_iff, whole] at half; cases half
theorem fpElements_half (half : isHalf t = true) : fpElements t = 2 := if_pos ((isHalf_iff t).1 half)
theorem fpElements_whole (whole : isHalf t = false) : fpElements t = 1 := if_neg fun half => by rw [← isHalf_iff, whole] at half; cases half

/-- The elements of a result as D takes it. -/
theorem elem_fill (float : t.kind = .float) {m : Nat} (room : 32 * t.rows ≤ m) (x : Nat) {el : Nat} (inside : el < fpElements t) :
    elem ((if isHalf t then x % 2 ^ 32 else extend t x m) % 2 ^ m) (fpWidth t) el = elem x (fpWidth t) el := by
  have unsigned : Ty.isSigned t = false := by rw [Ty.isSigned, float]; rfl
  cases half : isHalf t with
  | true =>
    rw [fpElements_half half] at inside
    have bits : 32 * t.rows = 32 := by rcases (isHalf_iff t).1 half with rfl | rfl <;> rfl
    rw [if_pos rfl, fpWidth_half half, elem_mod (by omega), elem_mod (by omega)]
  | false =>
    rw [fpElements_whole half] at inside
    have bits : 32 * t.rows = t.bits := by rcases float_whole float half with rfl | rfl <;> rfl
    obtain rfl : el = 0 := by omega
    rw [if_neg (by decide), extend, unsigned, if_neg (by decide), fpWidth_whole half, elem_mod (by omega), elem_mod (by omega)]

/-- The elements of a result of `redux` or `scan`. -/
def fpJoined (t : Ty) (r : Nat → Nat) : Nat := if isHalf t then joinElems 16 [r 0, r 1] else r 0

theorem elem_fpJoined (r : Nat → Nat) {el : Nat} (inside : el < fpElements t) : elem (fpJoined t r) (fpWidth t) el = r el % 2 ^ fpWidth t := by
  unfold fpJoined
  cases half : isHalf t with
  | true =>
    rw [fpElements_half half] at inside
    rw [if_pos rfl, fpWidth_half half, elem_joinElems_two inside]
    rcases (by omega : el = 0 ∨ el = 1) with rfl | rfl <;> rfl
  | false =>
    rw [fpElements_whole half] at inside
    obtain rfl : el = 0 := by omega
    rw [if_neg (by decide), elem_zero]

end Width

/-! ### Values of lane positions -/

/-- A contributing value as a reduction takes it (R82, R84). -/
def fpValue (f : Fields) (t : Ty) (c : Crew) (sp : Split) (el l : Nat) : Nat := fpNorm (fmtOf t) (ftzBit sp.fmt) (fpSrc c sp t f.a l el)

/-- The value at a lane position, absent outside the lanes that take effect. -/
def fpPresent (f : Fields) (t : Ty) (run : Lanes) (c : Crew) (sp : Split) (el l : Nat) : Option Nat :=
  if l < c.width ∧ hasLane run l = true then some (fpValue f t c sp el l) else none

theorem fpPresent_isSome {f : Fields} {t : Ty} {run : Lanes} {c : Crew} {sp : Split} {el l : Nat} :
    (fpPresent f t run c sp el l).isSome = true ↔ l ∈ lanesOf run c.width := by
  unfold fpPresent lanesOf
  rw [List.mem_filter, List.mem_range]
  split
  · exact iff_of_true rfl ‹_›
  · exact iff_of_false (by simp) ‹_›

section Issue

variable {s s' : State} {m : Mn} {f : Fields} {x k : Nat} {c d : Crew} {sp : Split} {t : Ty}
variable (hs : Settled c sp) (sel : f.sel = .ty t) (float : t.kind = .float) (ordered : f.f = true) (width : c.width ∈ [32, 64, 128])

include hs sel float in
theorem reduxVals_eq {el : Nat} (inside : el < fpElements t) : (issueOf s m f x k c sp).reduxVals el =
    (List.range c.width).map (fpPresent f t (runLanes s m f x k c sp) c sp el) := by
  unfold Issue.reduxVals
  rw [issueOf_c hs, issueOf_run, issueOf_ty sel]
  refine List.map_congr_left fun l hl => ?_
  have read : (if isHalf t then elem ((issueOf s m f x k c sp).a t true l) 16 el else (issueOf s m f x k c sp).a t true l) = fpSrc c sp t f.a l el := by
    rw [Issue.a, issueOf_ca hs, issueOf_sp hs, issueOf_f, fpSrc]
    cases half : isHalf t with
    | true => rw [if_pos rfl, fpWidth_half half]
    | false =>
      rw [fpElements_whole half] at inside
      obtain rfl : el = 0 := by omega
      rw [if_neg (by decide), fpWidth_whole half, elem_zero, Nat.mod_eq_of_lt (operandVal_float_lt float half ..)]
  rw [read, fpPresent, Issue.ftz, issueOf_sp hs]
  simp only [List.mem_range.1 hl, true_and]
  rfl

/-- The combination of R97. -/
def fpJoin (f : Fields) (t : Ty) (sp : Split) : Nat → Nat → Nat := fpCombine (fmtOf t) (rmode sp.fmt) (ftzBit sp.fmt) (f.ext.toNat % 8)

theorem width_log {w : Nat} (width : w ∈ [32, 64, 128]) : 2 ^ Nat.log2 w = w ∧ Nat.log2 w ≤ 7 := by
  simp only [List.mem_cons, List.not_mem_nil, or_false] at width
  rcases width with rfl | rfl | rfl <;> decide

theorem reduxIdent_float (float : t.kind = .float) (op : Nat) : reduxIdent t op = fpIdentity (fmtOf t) op := by
  unfold reduxIdent fpIdentity
  rw [float]
  dsimp only
  by_cases zero : op = 0
  · rw [if_pos zero, if_pos zero]
  · rw [if_neg zero, if_neg zero]
    by_cases one : op = 1
    · subst one; rfl
    · rw [if_neg one, show (op != 1) = true by simpa using one]

include hs sel float ordered width in
/-- One element of `redux`: the value of the tree, or the identity. -/
theorem reduxFp_eq {el : Nat} (inside : el < fpElements t) : (issueOf s m f x k c sp).reduxFp s' (f.ext.toNat % 8) el =
    (treeOver (fpJoin f t sp) (fpPresent f t (runLanes s m f x k c sp) c sp el) (Nat.log2 c.width) 0).getD (fpIdentity (fmtOf t) (f.ext.toNat % 8)) := by
  obtain ⟨power, levels⟩ := width_log width
  obtain ⟨above, levels⟩ := Nat.exists_eq_add_of_le levels
  unfold Issue.reduxFp
  dsimp only
  rw [if_pos (by rw [issueOf_f, ordered]; rfl), reduxVals_eq hs sel float inside, issueOf_ty sel, reduxIdent_float float]
  conv_lhs => rw [← power, levels, treeReduce_range]
  rw [Issue.rm, Issue.ftz, issueOf_sp hs]
  rfl

include hs sel float ordered width in
/-- One element of `scan` in a lane: the value of the ladder at the lane or at the nearest lower one, or the identity. -/
theorem scanFp_eq {el : Nat} (inside : el < fpElements t) {l : Nat} (lane : l < c.width) (excl : Bool) :
    (issueOf s m f x k c sp).scanFp s' (f.ext.toNat % 8) el l excl =
      match (if excl then ((lanesOf (runLanes s m f x k c sp) c.width).filter fun j => decide (j < l)).getLast? else some l) with
      | none => fpIdentity (fmtOf t) (f.ext.toNat % 8)
      | some j => (ladderOver (fpJoin f t sp) (fpPresent f t (runLanes s m f x k c sp) c sp el) (Nat.log2 c.width) j).getD
          (fpIdentity (fmtOf t) (f.ext.toNat % 8)) := by
  have lanes : (issueOf s m f x k c sp).lanes = lanesOf (runLanes s m f x k c sp) c.width := by rw [Issue.lanes, issueOf_c hs, issueOf_run]
  unfold Issue.scanFp
  dsimp only
  rw [lanes, issueOf_ty sel, reduxIdent_float float]
  cases source : (if excl then ((lanesOf (runLanes s m f x k c sp) c.width).filter fun j => decide (j < l)).getLast? else some l) with
  | none => rfl
  | some j =>
    have below : j < c.width := by
      cases excl with
      | false => cases source; exact lane
      | true =>
        rw [if_pos rfl] at source
        exact (lanesOf_lt (List.mem_filter.1 (List.mem_of_getLast? source)).1).2.2
    dsimp only
    rw [if_pos (by rw [issueOf_f, ordered]; rfl), reduxVals_eq hs sel float inside, issueOf_c hs, ladder_range _ _ width, Issue.rm, Issue.ftz, issueOf_sp hs,
      List.getD_eq_getElem _ _ (by simpa using below), List.getElem_map, List.getElem_range]
    rfl

/-- A reduction with F = 1 whose tree has a value exactly where some lane contributes. -/
theorem reduced_getD {g : Nat → Nat → Nat} {exact_ : Bool} (ordered : exact_ = true) {tree : Option Nat} {vals : List Nat} {ident : Nat}
    (some_ : tree.isSome = true ↔ vals ≠ []) : Reduced g exact_ tree vals ident (tree.getD ident) := by
  unfold Reduced
  rw [ordered]
  cases tree with
  | none => rw [if_pos (by simpa using some_)]; rfl
  | some r => rw [if_neg (some_.1 rfl), if_pos rfl]; rfl

end Issue

end Sys2Proof.Machine
end

section
/-! SUPPORT. What `redux` and `scan` of a floating-point type with F = 1 leave of their crew (R96, R97, R206, R207). -/

namespace Sys2Proof.Machine

open Sys2Proof

section Results

variable {s s' : State} {m : Mn} {f : Fields} {x k : Nat} {c d : Crew} {sp : Split} {t : Ty}

section Dest

variable {i : Issue} {r : Nat → Nat → Nat} (h : SameRegs d (c.putOut (i.putTy t fun l => fpJoined t (r l)))) (hw : c.wrows = i.c.wrows)
  (hn : 8 ≤ i.c.wrows) (float : t.kind = .float)

include h hw hn float

/-- What a result of elements `r` leaves in a class-v D. -/
theorem putTy_rows {idx : BitVec 8} {swz : BitVec 3} {abs neg : Bool} (hD : i.f.d = .v idx swz abs neg) {l : Nat} (hl : l ∈ i.lanes) {el : Nat}
    (inside : el < fpElements t) : elem (d.rowsVal i.sp.wbase idx.toNat t.rows l) (fpWidth t) el = r l el % 2 ^ fpWidth t := by
  simp only [Issue.putTy, hD] at h
  have holds := Issue.putD_destHolds h hw (by have := rows_le t; omega)
  simp only [DestHolds, hD] at holds
  rw [holds l hl, elem_fill float le_rfl _ inside, elem_fpJoined _ inside]

/-- What a result of elements `r` leaves in a class-s D. -/
theorem putTy_uni {n : BitVec 6} (hD : i.f.d = .s n) (nonzero : n.toNat ≠ 0) {l : Nat} (hl : lowest i.run i.c.width = some l) {el : Nat}
    (inside : el < fpElements t) : elem (d.uni n.toNat).toNat (fpWidth t) el = r l el % 2 ^ fpWidth t := by
  have wide : 32 * t.rows ≤ 64 := by
    clear h
    revert float
    cases t <;> decide
  simp only [Issue.putTy, hD] at h
  have holds := Issue.putD_destHolds h hw (by omega)
  simp only [DestHolds, hD] at holds
  rw [holds nonzero l hl, elem_fill float wide _ inside, elem_fpJoined _ inside]

end Dest

/-- The contributing values of the lanes below `j`. -/
def fpValues (f : Fields) (t : Ty) (run : Lanes) (c : Crew) (sp : Split) (el j : Nat) : List Nat :=
  ((lanesOf run c.width).filter fun l => decide (l < j)).map fun l => fpValue f t c sp el l

theorem fpValues_ne_nil {run : Lanes} {el j : Nat} : fpValues f t run c sp el j ≠ [] ↔ ∃ l ∈ lanesOf run c.width, l < j := by
  rw [fpValues, ne_eq, List.map_eq_nil_iff, List.filter_eq_nil_iff]
  simp

/-- Result `r` of element `el` in lane `l` follows the tree or the ladder. -/
def FloatResult (m : Mn) (f : Fields) (t : Ty) (run : Lanes) (c : Crew) (sp : Split) (l el r : Nat) : Prop :=
  let op := f.ext.toNat % 8
  let g := fpJoin f t sp
  if m = .redux then Reduced g (f.f || op != 0) (treeOver g (fpPresent f t run c sp el) (Nat.log2 c.width) 0) (fpValues f t run c sp el c.width)
    (fpIdentity (fmtOf t) op) r
  else if f.ext.toNat / 8 % 2 = 0 then Reduced g (f.f || op != 0) (ladderOver g (fpPresent f t run c sp el) (Nat.log2 c.width) l)
    (fpValues f t run c sp el (l + 1)) (fpIdentity (fmtOf t) op) r
  else match ((lanesOf run c.width).filter fun j => decide (j < l)).getLast? with
    | none => r = fpIdentity (fmtOf t) op
    | some j => Reduced g (f.f || op != 0) (ladderOver g (fpPresent f t run c sp el) (Nat.log2 c.width) j) (fpValues f t run c sp el (j + 1))
        (fpIdentity (fmtOf t) op) r

variable (hs : Settled c sp) (sel : f.sel = .ty t) (float : t.kind = .float) (ordered : f.f = true) (width : c.width ∈ [32, 64, 128]) (rows : 8 ≤ c.wrows)

include hs float rows in
/-- Results that follow the tree or the ladder lane by lane and element by element. -/
theorem floatReduced_of {r : Nat → Nat → Nat} (regs : SameRegs d (c.putOut ((issueOf s m f x k c sp).putTy t fun l => fpJoined t (r l))))
    (follow : ∀ l ∈ lanesOf (runLanes s m f x k c sp) c.width, ∀ el, el < fpElements t → FloatResult m f t (runLanes s m f x k c sp) c sp l el (r l el)) :
    FloatReduced m f t (runLanes s m f x k c sp) c sp d := by
  have lanes : (issueOf s m f x k c sp).lanes = lanesOf (runLanes s m f x k c sp) c.width := by rw [Issue.lanes, issueOf_c hs, issueOf_run]
  have wrows : c.wrows = (issueOf s m f x k c sp).c.wrows := by rw [issueOf_c hs]
  unfold FloatReduced
  dsimp only
  split
  case h_1 idx _ _ _ hD =>
    intro l hl el inside
    have read := putTy_rows regs wrows (by rwa [← wrows]) float (by rw [issueOf_f]; exact hD) (by rwa [lanes]) inside
    rw [issueOf_sp hs] at read
    exact ⟨r l el, read, follow l hl el inside⟩
  case h_2 n hD =>
    intro nonzero l hl el inside
    have read := putTy_uni regs wrows (by rwa [← wrows]) float (by rw [issueOf_f]; exact hD) nonzero (by rwa [issueOf_c hs, issueOf_run]) inside
    exact ⟨r l el, read, follow l (lowest_mem hl) el inside⟩
  case h_3 => trivial

include hs sel float ordered width rows in
theorem redux_reduced (regs : SameRegs d (c.putOut (reduxOut s' (issueOf s .redux f x k c sp)))) :
    FloatReduced .redux f t (runLanes s .redux f x k c sp) c sp d := by
  have out : reduxOut s' (issueOf s .redux f x k c sp) = (issueOf s .redux f x k c sp).putTy t fun _ =>
      fpJoined t ((issueOf s .redux f x k c sp).reduxFp s' (f.ext.toNat % 8)) := by
    unfold reduxOut fpJoined
    simp only [issueOf_ty sel, float, issueOf_f]
  rw [out] at regs
  refine floatReduced_of hs float rows (r := fun _ => (issueOf s .redux f x k c sp).reduxFp s' (f.ext.toNat % 8)) regs fun l _ el inside => ?_
  rw [reduxFp_eq hs sel float ordered width inside, FloatResult]
  rw [if_pos rfl]
  refine reduced_getD (by rw [ordered]; rfl) ?_
  rw [treeOver_isSome, fpValues_ne_nil, (width_log width).1, Nat.zero_add]
  simp only [fpPresent_isSome, Nat.zero_le, true_and]
  exact exists_congr fun _ => and_comm

include hs sel float ordered width rows in
theorem scan_reduced (regs : SameRegs d (c.putOut (scanOut s' (issueOf s .scan f x k c sp)))) :
    FloatReduced .scan f t (runLanes s .scan f x k c sp) c sp d := by
  have out : scanOut s' (issueOf s .scan f x k c sp) = (issueOf s .scan f x k c sp).putTy t fun l =>
      fpJoined t fun el => (issueOf s .scan f x k c sp).scanFp s' (f.ext.toNat % 8) el l (f.ext.toNat / 8 % 2 == 1) := by
    unfold scanOut fpJoined
    simp only [issueOf_ty sel, float, issueOf_f]
  rw [out] at regs
  refine floatReduced_of hs float rows (r := fun l el => (issueOf s .scan f x k c sp).scanFp s' (f.ext.toNat % 8) el l (f.ext.toNat / 8 % 2 == 1)) regs
    fun l hl el inside => ?_
  have exact_ : (f.f || f.ext.toNat % 8 != 0) = true := by rw [ordered]; rfl
  have follows : ∀ j ∈ lanesOf (runLanes s .scan f x k c sp) c.width, Reduced (fpJoin f t sp) (f.f || f.ext.toNat % 8 != 0)
      (ladderOver (fpJoin f t sp) (fpPresent f t (runLanes s .scan f x k c sp) c sp el) (Nat.log2 c.width) j)
      (fpValues f t (runLanes s .scan f x k c sp) c sp el (j + 1)) (fpIdentity (fmtOf t) (f.ext.toNat % 8))
      ((ladderOver (fpJoin f t sp) (fpPresent f t (runLanes s .scan f x k c sp) c sp el) (Nat.log2 c.width) j).getD
        (fpIdentity (fmtOf t) (f.ext.toNat % 8))) := fun j hj =>
    reduced_getD exact_ (iff_of_true (ladderOver_isSome _ _ _ (fpPresent_isSome.2 hj)) (fpValues_ne_nil.2 ⟨j, hj, Nat.lt_succ_self j⟩))
  rw [scanFp_eq hs sel float ordered width inside (lanesOf_lt hl).2.2, FloatResult]
  rw [if_neg (by decide)]
  rcases Nat.mod_two_eq_zero_or_one (f.ext.toNat / 8) with inclusive | exclusive
  · rw [if_pos inclusive, inclusive]
    exact follows l hl
  · rw [if_neg (by omega), exclusive]
    cases source : ((lanesOf (runLanes s .scan f x k c sp) c.width).filter fun j => decide (j < l)).getLast? with
    | none => simp only [beq_self_eq_true, if_true]
    | some j =>
      simp only [beq_self_eq_true, if_true]
      exact follows j (List.mem_filter.1 (List.mem_of_getLast? source)).1

end Results

end Sys2Proof.Machine
end

section
/-! SUPPORT. O20: the wait of an `.ord` operation, and its release (R71, R209). -/

namespace Sys2Proof.Machine

open Sys2Proof

section Wait

variable {m : Mn} {f : Fields} {s : State} {x k : Nat} {c : Crew} {sp : Split} {t : Ty}

/-- Where no window is open and no load uncovered, an instruction reads its crew as it is. -/
theorem issueOf_quiet (loads : c.uncov = []) (windows : sp.windows = []) : (issueOf s m f x k c sp).c = c ∧ (issueOf s m f x k c sp).sp = sp := by
  have closed : (if (m.row.lat == Latency.closing) = true then [] else sp.windows) = [] := by simp [windows]
  have view : crewView s c [] = c := by simp [crewView, loads, mixCells]
  unfold issueOf
  dsimp only
  rw [closed, view]
  exact ⟨rfl, by rw [← windows]⟩

/-- What an `.ord` form does through its gate. -/
theorem exec_ordGate (forms : (m = .redux ∨ m = .scan) ∧ t.kind = .float ∨ m ∈ ordMns) (sel : f.sel = .ty t) (h : s.Executes m f x k c sp) :
    ∃ body, exec (m.instr f) s = .next (ordGate (Go.start s) (issueOf s m f x k c sp) body).st := by
  have isOrd : t.kind = .float → (issueOf s m f x k c sp).fpOrd = true := fun float => by
    rw [Issue.fpOrd, issueOf_ty sel, float]
    rfl
  rcases forms with ⟨rfl | rfl, float⟩ | atomics
  · have answers : exec (.redux f) s = .next (if (issueOf s .redux f x k c sp).fpOrd then
        ordGate (Go.start s) (issueOf s .redux f x k c sp) (reduxBody (issueOf s .redux f x k c sp))
      else reduxBody (issueOf s .redux f x k c sp) (Go.start s)).st := crewStep_executes h _
    rw [if_pos (isOrd float)] at answers
    exact ⟨_, answers⟩
  · have answers : exec (.scan f) s = .next (if (issueOf s .scan f x k c sp).fpOrd then
        ordGate (Go.start s) (issueOf s .scan f x k c sp) (scanBody (issueOf s .scan f x k c sp))
      else scanBody (issueOf s .scan f x k c sp) (Go.start s)).st := crewStep_executes h _
    rw [if_pos (isOrd float)] at answers
    exact ⟨_, answers⟩
  · simp only [ordMns, List.mem_cons, List.not_mem_nil, or_false] at atomics
    rcases atomics with rfl | rfl | rfl | rfl
    all_goals exact ⟨_, crewStep_executes h _⟩

/-- Behind another split, the operation waits in place. -/
theorem ordGate_waits (h : s.Executes m f x k c sp) (loads : c.uncov = []) (windows : sp.windows = []) (ordered : f.f = true) (dclass : s.dclass c = true)
    (behind : s.ordFirst k c sp = false) (body : Go s → Go s) :
    AtCrew s x (c.setSplit k { sp with st := .blocked, wait := .ord m f }) (ordGate (Go.start s) (issueOf s m f x k c sp) body).st := by
  obtain ⟨-, crew, split, -⟩ := State.issuer_some h.issuer
  obtain ⟨view, same⟩ := issueOf_quiet (s := s) (m := m) (f := f) (x := x) (k := k) loads windows
  have place : (issueOf s m f x k c sp).k = k := rfl
  have waits : ordWaits s (issueOf s m f x k c sp) = true := by
    rw [ordWaits, view, same, place, issueOf_f, ordered, dclass, behind]
    rfl
  unfold ordGate
  rw [Go.start_st, if_pos waits]
  exact modSplit_at (g := Go.start s) crew split _

/-- Block of an `.ord` operation. -/
theorem ordered_waits (forms : (m = .redux ∨ m = .scan) ∧ t.kind = .float ∨ m ∈ ordMns) (sel : f.sel = .ty t) (ordered : f.f = true) (dclass : s.dclass c = true)
    (h : s.Executes m f x k c sp) (loads : c.uncov = []) (windows : sp.windows = []) (behind : s.ordFirst k c sp = false) :
    ∃ u, exec (m.instr f) s = .next u ∧ u = { s with crews := u.crews } ∧ (∀ y, y ≠ x → u.crew? y = s.crew? y) ∧
      u.crew? x = some (c.setSplit k { sp with st := .blocked, wait := .ord m f }) := by
  obtain ⟨body, answers⟩ := exec_ordGate forms sel h
  have at1 := ordGate_waits h loads windows ordered dclass behind body
  refine ⟨_, answers, ?_, fun y hy => ?_, at1.crew⟩
  · rw [show (ordGate (Go.start s) (issueOf s m f x k c sp) body).st = _ from at1]
  · rw [show (ordGate (Go.start s) (issueOf s m f x k c sp) body).st = _ from at1]
    exact Tab.find_put_other _ _ hy

end Wait

section Release

variable {m : Mn} {f : Fields} {s : State} {x k : Nat} {c : Crew} {sp : Split} {t : Ty}

/-- The split as its `.ord` operation takes it up. -/
def Split.takenUp (sp : Split) : Split := { sp with st := .ready, wait := .none }

/-- The crew with its split taken up. -/
def Crew.takenUp (c : Crew) (k : Nat) (sp : Split) : Crew := c.setSplit k sp.takenUp

/-- The state in which an `.ord` operation performs. -/
def State.takenUp (s : State) (x k : Nat) (c : Crew) (sp : Split) : State := { s with crews := Tab.put s.crews x (c.takenUp k sp) }

theorem Settled.takenUp (hs : Settled c sp) : Settled (c.takenUp k sp) sp.takenUp := ⟨hs.windows, hs.latchA, hs.latchB, hs.loads⟩

/-- The release performs the operation, and leaves a crew that runs as the operation leaves it. -/
theorem exec_ordRelease (crew : s.crew? x = some c) (split : c.split? k = some sp) (wait : sp.wait = .ord m f) (first : s.ordFirst k c sp = true) {d : Crew} {g : Go s}
    (body : ordBody m (issueOf (s.takenUp x k c sp) m f x k (c.takenUp k sp) sp.takenUp) ((Go.start s).put (.crew x (some (c.takenUp k sp)))) = g)
    (after : g.st.crew? x = some d) (run : d.st = .running) :
    exec (.ordRelease x k) s = .next { g.st with crews := Tab.put g.st.crews x d } := by
  show execOrdRelease x k s = _
  unfold execOrdRelease
  simp only [crew, split, wait, first, if_true]
  unfold ordRelease
  have idle : (if d.st = .stopped then d.stop else d) = d := if_neg (by rw [run]; decide)
  have last := modCrew_at after fun c => if c.st = .stopped then c.stop else c
  rw [← body] at last
  refine congrArg Host.Outcome.next (Eq.trans last ?_)
  rw [idle, body]

variable (hs : Settled c sp) (crew : s.crew? x = some c) (split : c.split? k = some sp) (running : c.st = .running) (wait : sp.wait = .ord m f)
  (first : s.ordFirst k c sp = true)

include hs crew split running wait first in
/-- A reduction retires with its result. -/
theorem ordRelease_retires {o : Go s → RegOut} {P : Crew → Prop} (body : ∀ g : Go s, g.st = s.takenUp x k c sp →
      ordBody m (issueOf (s.takenUp x k c sp) m f x k (c.takenUp k sp) sp.takenUp) g = retire g (issueOf (s.takenUp x k c sp) m f x k (c.takenUp k sp) sp.takenUp) (o g))
    (fmt : ∀ g, (o g).fmt = none) (result : ∀ g d, SameRegs d ((c.takenUp k sp).putOut (o g)) → P d) :
    Retires (s.takenUp x k c sp) (exec (.ordRelease x k) s) x k (c.takenUp k sp) sp.takenUp P := by
  let g0 := (Go.start s).put (.crew x (some (c.takenUp k sp)))
  have here : g0.st = s.takenUp x k c sp := rfl
  have crew0 : g0.st.crew? x = some (c.takenUp k sp) := Tab.find_put_same ..
  have hs0 := hs.takenUp (k := k)
  obtain ⟨d, q, reached, retired, keeps, regs⟩ := retire_settled g0 (issueOf (s.takenUp x k c sp) m f x k (c.takenUp k sp) sp.takenUp) (o g0) crew0
    (Crew.split?_setSplit ..) (by rw [issueOf_sp hs0]; exact hs0.windows) hs0.loads
  have there : (retire g0 (issueOf (s.takenUp x k c sp) m f x k (c.takenUp k sp) sp.takenUp) (o g0)).st.crew? x = some d := by
    rw [reached]
    exact Tab.find_put_same ..
  have answers := exec_ordRelease crew split wait first (body g0 here) there (by rw [retired.crew]; exact running)
  rw [issueOf_sp hs0] at retired
  refine ⟨_, d, q, answers, ⟨?_, fun y hy => ?_⟩, Tab.find_put_same .., retired, by rw [keeps, fmt]; rfl, result g0 d regs⟩
  · rw [reached, here]
  · refine (Tab.find_put_other _ _ hy).trans ?_
    rw [reached]
    exact Tab.find_put_other _ _ hy

include hs crew split running wait first in
theorem ordRelease_reduces (float : (m = .redux ∨ m = .scan) ∧ t.kind = .float) (sel : f.sel = .ty t) (ordered : f.f = true) (rows : 8 ≤ c.wrows)
    (width : c.width ∈ [32, 64, 128]) : Retires (s.takenUp x k c sp) (exec (.ordRelease x k) s) x k (c.takenUp k sp) sp.takenUp
      (FloatReduced m f t (runLanes (s.takenUp x k c sp) m f x k (c.takenUp k sp) sp.takenUp) (c.takenUp k sp) sp.takenUp) := by
  have hs0 := hs.takenUp (k := k)
  obtain ⟨rfl | rfl, kind⟩ := float
  · refine ordRelease_retires hs crew split running wait first (o := fun g => reduxOut g.st _) (fun g _ => rfl) (fun g => ?_)
      fun g d regs => redux_reduced hs0 sel kind ordered width rows regs
    unfold reduxOut
    dsimp only
    split <;> exact Issue.putTy_fmt ..
  · refine ordRelease_retires hs crew split running wait first (o := fun g => scanOut g.st _) (fun g _ => rfl) (fun g => ?_)
      fun g d regs => scan_reduced hs0 sel kind ordered width rows regs
    unfold scanOut
    dsimp only
    split <;> exact Issue.putTy_fmt ..

end Release

end Sys2Proof.Machine
end

section
/-! SUPPORT. Lane accesses that pass their checks at home, and what issue leaves of the translation units (R111, R220, R433). -/

namespace Sys2Proof.Machine

open Sys2Proof

variable {s0 : State}

/-- From `s`, translation units alone have changed, and they still agree with the tables of a context. -/
structure Translated (s : State) (us : List Nat) (ctx : Nat) (u : State) : Prop where
  only  : OnlyTlbs s u
  agree : u.UnitsAgree us ctx
  walks : ∀ va, u.walk ctx va = s.walk ctx va

theorem Translated.refl {s : State} {us : List Nat} {ctx : Nat} (agree : s.UnitsAgree us ctx) : Translated s us ctx s := ⟨rfl, agree, fun _ => rfl⟩

theorem Translated.translate {s : State} {us : List Nat} {ctx : Nat} {g : Go s0} (h : Translated s us ctx g.st) (a : Nat) :
    Translated s us ctx (translate g us ctx a).2.st := by
  obtain ⟨-, agree, walks⟩ := translate_agree (g := g) a h.agree
  exact ⟨h.only.trans (translate_only g us ctx a), agree, fun va => (walks va).trans (h.walks va)⟩

theorem Translated.lookPages {s : State} {core ctx : Nat} {g : Go s0} (h : Translated s (coreUnits core) ctx g.st) (size : Nat) (as : List Nat) :
    Translated s (coreUnits core) ctx (lookPages g core ctx size as).st :=
  Go.each_keeps (P := Translated s (coreUnits core) ctx) (fun _ _ _ h => h.translate _) g h

/-- An access that passes the checks of its page is at its home byte. -/
theorem placeOf_home {s : State} {us : List Nat} {ctx a n home : Nat} {write det : Bool} {g : Go s0} (h : Translated s us ctx g.st)
    (at_ : s.HomeAt ctx a n write det home) :
    ∃ e, (placeOf g us ctx a n write det).1 = .at_ (.home home) e ∧ Translated s us ctx (placeOf g us ctx a n write det).2.st := by
  obtain ⟨aligned, bits, e, p, walk, leaf, ro, tracked, tags⟩ := at_
  obtain ⟨answer, -, -⟩ := translate_agree (g := g) a h.agree
  have found : (translate g us ctx a).1 = .ok e p := by rw [answer, h.walks]; exact walk
  have after := h.translate a
  have writable : (write && pteRo e) = false := by cases write with
    | false => rfl
    | true => rw [ro rfl]; rfl
  have recorded : (det && pteType e != 2 && !pteDet e) = false := by cases det with
    | false => rfl
    | true => rw [tracked rfl]; simp
  have tagged : (pteTagen e && decide ((translate g us ctx a).2.st.tagAt home ≠ bitf a 60 4)) = false := by cases tagen : pteTagen e with
    | false => rfl
    | true =>
      have same : (translate g us ctx a).2.st.tagAt home = s.tagAt home := by rw [after.only]; rfl
      rw [same, tags tagen]
      simp [bitf]
  unfold placeOf
  rw [if_neg (by simpa using aligned), if_neg (by simpa [bitf] using bits), show translate g us ctx a = (.ok e p, (translate g us ctx a).2) from Prod.ext found rfl]
  simp only [writable, recorded, leaf, tagged, Bool.false_eq_true, if_false]
  exact ⟨e, rfl, after⟩

section Checks

variable {s : State} {x : Nat} {c : Crew} {i : Issue} {kd : AccKind}

/-- A lane access that passes its checks at home. -/
theorem checkVirt_home {g : Go s0} (place : i.x = x) (crew : i.c = c) (h : Translated s (coreUnits (x / 64)) c.ctx g.st) {a home : Nat}
    (access : s.HomeAccess x c kd a home) (lane : Nat) :
    (checkVirt g i kd lane a).1 = .ok { lane := lane, ea := a, loc := .home home } ∧ Translated s (coreUnits (x / 64)) c.ctx (checkVirt g i kd lane a).2.st := by
  obtain ⟨at_, ranges, records⟩ := access
  subst place crew
  have dclass : ∀ u, OnlyTlbs s u → u.dclass i.c = s.dclass i.c := fun u only => by rw [only]; rfl
  obtain ⟨e, found, after⟩ := placeOf_home h at_
  rw [← dclass g.st h.only] at found after
  have free : (placeOf g (coreUnits (i.x / 64)) i.c.ctx a kd.size kd.write (g.st.dclass i.c)).2.st.rangeClash (i.x / 64) true i.c.ctx i.c.team (va56 a) kd.size
      kd.write = false := by rw [after.only]; exact ranges
  have quiet : (tracks (placeOf g (coreUnits (i.x / 64)) i.c.ctx a kd.size kd.write (g.st.dclass i.c)).2.st i.c kd.exempt &&
      (placeOf g (coreUnits (i.x / 64)) i.c.ctx a kd.size kd.write (g.st.dclass i.c)).2.st.trackClash i.c
        { loc := .home home, size := kd.size, read := kd.read, write := kd.write, op := kd.op }) = false := by
    rw [tracks, dclass _ after.only]
    cases isD : s.dclass i.c with
    | false => rfl
    | true =>
      cases exempt : kd.exempt with
      | true => rfl
      | false =>
        rw [after.only]
        exact records isD exempt
  unfold checkVirt
  simp only [placeCore]
  generalize placeOf g (coreUnits (i.x / 64)) i.c.ctx a kd.size kd.write (g.st.dclass i.c) = r at *
  obtain ⟨p, g'⟩ := r
  dsimp only at found free quiet after ⊢
  subst found
  simp only [free, quiet, Bool.false_eq_true, if_false]
  exact ⟨trivial, after⟩

/-- What a list of checks answers where every access is at home. -/
theorem checkAll_home {ls : List Nat} (place : i.x = x) (crew : i.c = c) {address home : Nat → Nat} {g : Go s0}
    (h : Translated s (coreUnits (x / 64)) c.ctx g.st) (access : ∀ l ∈ ls, s.HomeAccess x c kd (address l) (home l)) :
    (checkAll g (fun g l => checkVirt g i kd l (address l)) ls).1 = ([], ls.map fun l => { lane := l, ea := address l, loc := .home (home l) }) ∧
      Translated s (coreUnits (x / 64)) c.ctx (checkAll g (fun g l => checkVirt g i kd l (address l)) ls).2.st := by
  induction ls generalizing g with
  | nil => exact ⟨rfl, h⟩
  | cons l ls ih =>
    obtain ⟨first, after⟩ := checkVirt_home place crew h (access l List.mem_cons_self) l
    obtain ⟨rest, last⟩ := ih after fun l hl => access l (List.mem_cons_of_mem _ hl)
    simp only [checkAll, first, rest]
    exact ⟨rfl, last⟩

end Checks

end Sys2Proof.Machine
end

section
/-! SUPPORT. O20: an `.ord` atomic of a D-class kernel enters the queues and waits there (R111, R236, R244, R246). -/

namespace Sys2Proof.Machine

open Sys2Proof

variable {s0 : State}

section Issue

variable {g : Go s0} {i : Issue} {a : MemAccess} {cs : List Checked} {c : Crew} {sp : Split}

theorem passesOf_home (home : ∀ d ∈ cs, ∃ h, d.loc = .home h) : passesOf a cs = [] := by
  unfold passesOf
  suffices ∀ cs : List Checked, (∀ d ∈ cs, ∃ h, d.loc = .home h) → ∀ ps : List PassOut, ps = [] → cs.foldl (fun ps c =>
      match c.loc with
      | .far _ va => c.peers.foldl (fun ps p => addPass p { lane := c.lane, addr := va, data := a.data c.lane, expect := a.expect c.lane } ps) ps
      | _ => ps) ps = [] from this cs home [] rfl
  intro cs home ps empty
  induction cs with
  | nil => exact empty
  | cons d cs ih =>
    obtain ⟨h, here⟩ := home d List.mem_cons_self
    rw [List.foldl_cons, here]
    exact ih fun e he => home e (List.mem_cons_of_mem _ he)

/-- The crew with an operation in its queues; a release ends its phase (R133). -/
def Crew.issued (c : Crew) (i : Issue) (a : MemAccess) (id : Nat) (cs : List Checked) : Crew :=
  if a.releases then (c.enqueue i a id cs).released else c.enqueue i a id cs

/-- What an operation in the queues leaves of its crew. -/
structure Crew.Issued (c : Crew) (i : Issue) (a : MemAccess) (id : Nat) (cs : List Checked) (d : Crew) : Prop where
  crew   : d = { c with loadq := d.loadq, storeq := d.storeq, uncov := d.uncov, order := d.order, epoch := d.epoch }
  loads  : d.loadq = (c.enqueue i a id cs).loadq
  stores : d.storeq = (c.enqueue i a id cs).storeq

theorem Crew.issued_issued (c : Crew) (i : Issue) (a : MemAccess) (id : Nat) (cs : List Checked) : Crew.Issued c i a id cs (c.issued i a id cs) := by
  unfold Crew.issued
  split <;> exact ⟨rfl, rfl, rfl⟩

/-- An `.ord` operation of a D-class kernel waits in the queues until it has performed. -/
theorem memIssue_parks (kind : PassKind) (tracked : List Tracked) (home : ∀ d ∈ cs, ∃ h, d.loc = .home h) (some_ : cs ≠ []) (ordered : a.ord = true)
    (dclass : g.st.dclass i.c = true) (crew : g.st.crew? i.x = some c) (split : c.split? i.k = some sp) :
    ∃ s1 d q, OnlyWork { g.st with seq := g.st.seq + 1, crews := Tab.put g.st.crews i.x (c.issued i a g.st.seq cs) } s1 ∧
      AtCrew s1 i.x d (memIssue g i a kind cs tracked).st ∧ Crew.Blocked (c.issued i a g.st.seq cs) i.k sp (.ordAtom g.st.seq) d q := by
  have untracked : tracks g.st i.c true = false := by rw [tracks, Bool.not_true, Bool.and_false]
  have entered : AtCrew { g.st with seq := g.st.seq + 1 } i.x (c.issued i a g.st.seq cs)
      (if a.releases then modCrew (modCrew (g.put .seq) i.x fun c => c.enqueue i a g.st.seq cs) i.x Crew.released
        else modCrew (g.put .seq) i.x fun c => c.enqueue i a g.st.seq cs).st := by
    have first : AtCrew { g.st with seq := g.st.seq + 1 } i.x (c.enqueue i a g.st.seq cs) (modCrew (g.put .seq) i.x fun c => c.enqueue i a g.st.seq cs).st :=
      modCrew_at (g := g.put .seq) crew _
    unfold Crew.issued
    cases a.releases with
    | true => exact first.modCrew _
    | false => exact first
  have issued := c.issued_issued i a g.st.seq cs
  have path : memIssue g i a kind cs tracked = park (if a.releases then modCrew (modCrew (g.put .seq) i.x fun c => c.enqueue i a g.st.seq cs) i.x Crew.released
      else modCrew (g.put .seq) i.x fun c => c.enqueue i a g.st.seq cs) i (.ordAtom g.st.seq) := by
    unfold memIssue
    simp only [passesOf_home home, untracked, List.isEmpty_iff, some_, if_false, if_true, Bool.false_eq_true, trackAll, Go.each, ordered, dclass, Bool.and_self]
  rw [path]
  generalize (if a.releases then modCrew (modCrew (g.put .seq) i.x fun c => c.enqueue i a g.st.seq cs) i.x Crew.released
        else modCrew (g.put .seq) i.x fun c => c.enqueue i a g.st.seq cs) = g1 at entered
  obtain ⟨s1, d, q, work, at1, blocked⟩ := park_blocks g1 i (.ordAtom g.st.seq) entered.crew
    (by rw [Crew.split?, issued.crew]; exact split : (c.issued i a g.st.seq cs).split? i.k = some sp)
  rw [show g1.st = _ from entered] at work
  exact ⟨s1, d, q, work, at1, blocked⟩

end Issue

end Sys2Proof.Machine
end

section
/-! SUPPORT. O20: the atomics of group 9 as memory operations, and their release (R71, R218, R243 to R246). -/

namespace Sys2Proof.Machine

open Sys2Proof

section Atomic

variable {s : State} {m : Mn} {f : Fields} {t : Ty} {x k : Nat} {c : Crew} {sp : Split}

/-- The address of an atomic in a lane (R218). -/
theorem virtAddrA_eq (hs : Settled c sp) (atomics : m ∈ ordMns) (l : Nat) : virtAddrA (issueOf s m f x k c sp) l = addressFor m f c sp l := by
  have base : addressFor m f c sp l = match f.a with
      | .v idx .. => c.rowsVal sp.wbase idx.toNat 2 l
      | .s n => (c.uni n.toNat).toNat
      | _ => 0 := by
    simp only [ordMns, List.mem_cons, List.not_mem_nil, or_false] at atomics
    rcases atomics with rfl | rfl | rfl | rfl <;> rfl
  rw [base]
  unfold virtAddrA virtAddr
  simp only [issueOf_f, issueOf_ca hs, issueOf_sp hs, Nat.add_zero]
  cases f.a with
  | v idx swz abs neg => exact Nat.mod_eq_of_lt (c.rowsVal_two_lt ..)
  | s n => exact Nat.mod_eq_of_lt (BitVec.isLt _)
  | _ => rfl

/-- The operation that an atomic performs. -/
theorem ordBody_atomic {s0 : State} (atomics : m ∈ ordMns) (sel : f.sel = .ty t) (g : Go s0) : ∃ op, opFor m t f = some op ∧ op ≠ .store ∧
    ordBody m (issueOf s m f x k c sp) g = atomPerform op (issueOf s m f x k c sp) g := by
  have four : f.ext.toNat / 8 % 4 = f.ext.toNat / 8 := Nat.mod_eq_of_lt (by have := f.ext.isLt; omega)
  have named : opFor .red t f = some (opOf t (extHigh f.ext)) := by
    unfold opFor opOf extHigh
    rw [four]
    generalize f.ext.toNat / 8 = n
    cases t.kind <;> rcases n with _ | _ | _ | n <;> rfl
  have stores : opOf t (extHigh f.ext) ≠ .store := by
    unfold opOf
    split <;> split <;> decide
  have typed : (issueOf s m f x k c sp).ty = t := issueOf_ty sel
  simp only [ordMns, List.mem_cons, List.not_mem_nil, or_false] at atomics
  rcases atomics with rfl | rfl | rfl | rfl
  · exact ⟨_, named, stores, by rw [← typed]; rfl⟩
  · exact ⟨_, named, stores, by rw [← typed]; rfl⟩
  · exact ⟨.cas, rfl, by decide, rfl⟩
  · exact ⟨_, named, stores, by rw [← typed]; rfl⟩

/-- Its checks are those of the specification. -/
theorem atomAccess_kind (sel : f.sel = .ty t) {op : MemOp} (operation : opFor m t f = some op) (atomic : op ≠ .store) :
    (atomAccess (issueOf s m f x k c sp) op).kind = kindFor m t f := by
  have typed : (issueOf s m f x k c sp).ty = t := issueOf_ty sel
  unfold MemAccess.kind kindFor atomAccess
  simp only [operation, typed, issueOf_f, Option.isNone_some, Option.isSome_some, Bool.false_or, ne_eq, reduceCtorEq, not_false_eq_true, false_or, Option.some.injEq,
    atomic, true_and, decide_true, decide_false, if_false, Option.map_some, Bool.decide_eq_true, AccKind.mk.injEq]
  refine ⟨?_, ?_, ?_⟩
  · rw [bne, decide_not]
    rfl
  · simpa using atomic
  · cases op <;> simp_all

end Atomic

end Sys2Proof.Machine
end

section
/-! SUPPORT. O20: the release of an `.ord` atomic of a D-class kernel (R71, R111, R246). -/

namespace Sys2Proof.Machine

open Sys2Proof

section Enter

variable {s0 u : State} {m : Mn} {i : Issue} {a : MemAccess} {home : Nat → Nat} {cs : List Checked}

/-- The accesses of an instruction's lanes, as they have passed their checks. -/
def homeChecked (i : Issue) (m : Mn) (home : Nat → Nat) : List Checked :=
  (accLanes i).map fun l => { lane := l, ea := addressFor m i.f i.c i.sp (evalLane l), loc := .home (home l) }

theorem homeChecked_home (i : Issue) (m : Mn) (home : Nat → Nat) : ∀ d ∈ homeChecked i m home, (∃ h, d.loc = .home h) ∧ d.peers = [] := by
  intro d hd
  obtain ⟨l, -, rfl⟩ := List.mem_map.1 hd
  exact ⟨⟨home l, rfl⟩, rfl⟩

/-- A test of what leaves the module fails at home. -/
theorem any_home (near : ∀ d ∈ cs, ∃ h, d.loc = .home h) {Q : Checked → Bool} (far : ∀ d h, d.loc = .home h → Q d = false) : cs.any Q = false := by
  rw [List.any_eq_false]
  intro d hd
  obtain ⟨h, here⟩ := near d hd
  rw [far d h here]
  decide

theorem behindFlit_home (near : ∀ d ∈ cs, ∃ h, d.loc = .home h) : u.behindFlit i cs = false := by
  unfold State.behindFlit
  rw [List.any_eq_false]
  intro r _
  split
  · rw [any_home near fun d h here => by simp only [here], Bool.and_false]
    decide
  · decide

theorem behindPasses_home (near : ∀ d ∈ cs, ∃ h, d.loc = .home h) : u.behindPasses i cs = false := by
  unfold State.behindPasses
  rw [← Bool.not_eq_true]
  simp only [Bool.and_eq_true, List.any_eq_true]
  rintro ⟨e, -, -, o, -, l, -, d, hd, far⟩
  obtain ⟨h, here⟩ := near d hd
  rw [here] at far
  cases far

/-- With room in the queues and no lane that leaves the module, nothing holds an operation back. -/
theorem mustWait_home (near : ∀ d ∈ cs, (∃ h, d.loc = .home h) ∧ d.peers = []) (loads : i.c.loadq.length < 16) (stores : i.c.storeq.length < 16) :
    u.mustWait i a cs (cs.map fun d => d.peers).flatten = false := by
  have peers : (cs.map fun d => d.peers).flatten = [] := by
    rw [List.flatten_eq_nil_iff]
    intro ps hps
    obtain ⟨d, hd, rfl⟩ := List.mem_map.1 hps
    exact (near d hd).2
  have room : waitsInIssue u i a [] = false := by
    unfold waitsInIssue Crew.roomFor
    simp [loads, stores]
  rw [State.mustWait, peers, room, behindFlit_home fun d hd => (near d hd).1, behindPasses_home fun d hd => (near d hd).1]
  rfl

end Enter

section Release

/-- What an operation would record of its accesses (R74). -/
def MemAccess.records (a : MemAccess) (cs : List Checked) : List Tracked :=
  cs.map fun d => { loc := d.loc, size := a.kind.size, read := a.kind.read, write := a.kind.write, op := a.kind.op }

variable {s0 s : State} {m : Mn} {f : Fields} {t : Ty} {x k : Nat} {c : Crew} {sp : Split} {home : Nat → Nat} {g : Go s0}
variable (hs : Settled c sp) (atomics : m ∈ ordMns) (sel : f.sel = .ty t) (here : g.st = s) (agree : s.UnitsAgree (coreUnits (x / 64)) c.ctx)
  (lanes : LanesAtHome s m f t x k c sp home) (loads : c.loadq.length < 16) (stores : c.storeq.length < 16)

include hs atomics sel here agree lanes loads stores in
/-- The operation passes its checks and is issued. -/
theorem virtAccess_issues {op : MemOp} (operation : opFor m t f = some op) (atomic : op ≠ .store) :
    ∃ (g1 : Go s0) (tracked : List Tracked), Translated s (coreUnits (x / 64)) c.ctx g1.st ∧
      virtAccess g (issueOf s m f x k c sp) (atomAccess (issueOf s m f x k c sp) op)
        (fun l => virtAddrA (issueOf s m f x k c sp) (evalLane l)) (accLanes (issueOf s m f x k c sp)) =
      memIssue g1 (issueOf s m f x k c sp) (atomAccess (issueOf s m f x k c sp) op) (farKind (atomAccess (issueOf s m f x k c sp) op))
        (homeChecked (issueOf s m f x k c sp) m home) tracked := by
  have address : (fun l => virtAddrA (issueOf s m f x k c sp) (evalLane l)) = fun l => addressFor m f c sp (evalLane l) :=
    funext fun l => virtAddrA_eq hs atomics _
  have checked : homeChecked (issueOf s m f x k c sp) m home =
      (accLanes (issueOf s m f x k c sp)).map fun l => { lane := l, ea := addressFor m f c sp (evalLane l), loc := .home (home l) } := by
    unfold homeChecked
    rw [issueOf_f, issueOf_c hs, issueOf_sp hs]
  have start : Translated s (coreUnits (x / 64)) c.ctx g.st := by rw [here]; exact .refl agree
  have looked := start.lookPages (atomAccess (issueOf s m f x k c sp) op).kind.size
    ((accLanes (issueOf s m f x k c sp)).map fun l => addressFor m f c sp (evalLane l))
  obtain ⟨passes, after⟩ := checkAll_home (i := issueOf s m f x k c sp) (kd := (atomAccess (issueOf s m f x k c sp) op).kind)
    (address := fun l => addressFor m f c sp (evalLane l)) (home := home) (ls := accLanes (issueOf s m f x k c sp)) rfl (issueOf_c hs) looked
    fun l hl => by rw [atomAccess_kind sel operation atomic]; exact (lanes l hl).1
  rw [← checked] at passes
  have free := fun u => mustWait_home (u := u) (i := issueOf s m f x k c sp) (a := atomAccess (issueOf s m f x k c sp) op)
    (homeChecked_home (issueOf s m f x k c sp) m home) (by rwa [issueOf_c hs]) (by rwa [issueOf_c hs])
  refine ⟨_, (atomAccess (issueOf s m f x k c sp) op).records (homeChecked (issueOf s m f x k c sp) m home), after, ?_⟩
  unfold virtAccess
  rw [address]
  simp only [issueOf_x, issueOf_c hs, placeCore, passes, free, List.isEmpty_nil, Bool.not_true, Bool.false_eq_true, if_false]
  rfl

end Release


end Sys2Proof.Machine
end

section
/-! SUPPORT. O20: what the release of an `.ord` atomic leaves, and the obligation (R71, R209, R246). -/

namespace Sys2Proof.Machine

open Sys2Proof

section Parked

variable {s : State} {m : Mn} {f : Fields} {t : Ty} {x k : Nat} {c : Crew} {sp : Split} {home : Nat → Nat} {op : MemOp}

/-- A lane of an atomic as it enters the queues. -/
def atomLane (f : Fields) (t : Ty) (c : Crew) (sp : Split) (home : Nat → Nat) (l : Nat) : LaneAcc :=
  { lane := l, loc := .home (home l), data := operandVal c sp.wbase t true f.b (evalLane l), expect := operandVal c sp.wbase t true f.d (evalLane l) }

theorem laneAccs_atomic (hs : Settled c sp) (sel : f.sel = .ty t) :
    laneAccs (atomAccess (issueOf s m f x k c sp) op) (homeChecked (issueOf s m f x k c sp) m home) =
      (accLanes (issueOf s m f x k c sp)).map (atomLane f t c sp home) := by
  unfold laneAccs homeChecked
  rw [List.map_map]
  refine List.map_congr_left fun l _ => ?_
  simp only [Function.comp_apply, atomAccess, atomData, Issue.b, Issue.dv, issueOf_cb hs, issueOf_c hs, issueOf_sp hs, issueOf_f, issueOf_ty sel, atomLane]

/-- A crew that waits with an `.ord` atomic of a D-class kernel in its queues. -/
theorem entersQueues_parked (hs : Settled c sp) (sel : f.sel = .ty t) (operation : opFor m t f = some op) (atomic : op ≠ .store) (ordered : f.f = true)
    (dclass : s.dclass c = true) (running : c.st = .running) {o : Host.Outcome State Fault Refusal} {v : State} {e d : Crew} {q : Split} (next : o = .next v)
    (state : v = { s with crews := v.crews, cycles := v.cycles, coloc := v.coloc, tlbs := v.tlbs, seq := s.seq + 1 })
    (others : ∀ y, y ≠ x → v.crew? y = s.crew? y) (crew : v.crew? x = some d)
    (issued : Crew.Issued c (issueOf s m f x k c sp) (atomAccess (issueOf s m f x k c sp) op) s.seq (homeChecked (issueOf s m f x k c sp) m home) e)
    (blocked : Crew.Blocked e k sp (.ordAtom s.seq) d q) : EntersQueues s o m f t x k c sp home := by
  have isAtomic : decide (some op ≠ none ∧ some op ≠ some MemOp.store) = true := by simpa using atomic
  have parks : decide (some op ≠ none ∧ some op ≠ some MemOp.store) = true ∧ f.f = true ∧ s.dclass c = true := ⟨isAtomic, ordered, dclass⟩
  have whole := blocked.crew
  rw [issued.crew] at whole
  have accs := laneAccs_atomic (s := s) (m := m) (x := x) (k := k) (home := home) (op := op) hs sel
  have loadq : d.loadq = (c.enqueue (issueOf s m f x k c sp) (atomAccess (issueOf s m f x k c sp) op) s.seq (homeChecked (issueOf s m f x k c sp) m home)).loadq := by
    rw [blocked.crew]; exact issued.loads
  have storeq : d.storeq = (c.enqueue (issueOf s m f x k c sp) (atomAccess (issueOf s m f x k c sp) op) s.seq (homeChecked (issueOf s m f x k c sp) m home)).storeq := by
    rw [blocked.crew]; exact issued.stores
  unfold EntersQueues
  simp only [operation]
  refine ⟨v, d, q, next, ?_, others, crew, ?_⟩
  · rw [if_neg fun h => h.2.2 parks]
    rw [state]
  · have frame : d.v = c.v ∧ d.s = c.s ∧ d.p = c.p ∧ d.lay = c.lay ∧ d.gmod = c.gmod ∧ d.gfab = c.gfab ∧ d.handles = c.handles ∧ d.st = .running := by
      rw [whole]
      exact ⟨rfl, rfl, rfl, rfl, rfl, rfl, rfl, running⟩
    have stays : q.mask = sp.mask ∧ q.fmt = sp.fmt ∧ q.wbase = sp.wbase ∧ q.frames = sp.frames ∧ q.st = .blocked ∧ q.wait = .ordAtom s.seq ∧ q.pc = sp.pc ∧
        q.clock = sp.clock := by
      rw [blocked.own]
      exact ⟨rfl, rfl, rfl, rfl, rfl, rfl, rfl, rfl⟩
    obtain ⟨rv, rs, rp, rlay, gmod, gfab, handles, st⟩ := frame
    obtain ⟨mask, fmt, wbase, frames, qst, qwait, pc, clock⟩ := stays
    refine ⟨rv, rs, rp, rlay, gmod, gfab, handles, st, blocked.split, mask, fmt, wbase, frames, ?_, ?_, ?_⟩
    · rw [if_pos parks]
      exact ⟨qst, qwait, pc, clock⟩
    · by_cases returns : f.d.cls = .none
      case pos =>
        rw [if_neg (by simp [returns])]
        exact loadq.trans (if_neg (by simp [atomAccess, returns]))
      case neg =>
        rw [if_pos (by simp [returns, atomic])]
        refine ⟨_, loadq.trans (if_pos (by simp [atomAccess, returns])), rfl, issueOf_ty sel, rfl, ?_, rfl, rfl, ?_, ?_, ?_⟩
        · rw [accs]
          simp only [isAtomic]
          rfl
        · rw [isAtomic]; rfl
        · simp [MemAccess.acquires, atomAccess, extScope, atomic]
        · show destOf (issueOf s m f x k c sp) (issueOf s m f x k c sp).ty = _
          rw [issueOf_ty sel]
          cases hD : f.d <;> simp only [destOf, issueOf_f, issueOf_sp hs, hD]
    · rw [if_neg (by simp)]
      refine ⟨_, storeq.trans (if_pos (c := (atomAccess (issueOf s m f x k c sp) op).op.isSome = true) (e := c.storeq) rfl), rfl, issueOf_ty sel, rfl, rfl, ?_, ?_, ?_, ?_, rfl⟩
      · rw [accs]
        simp only [isAtomic]
        rfl
      · rw [accs]
        simp only [isAtomic]
        rfl
      · show (f.d.cls != .none) = _
        rw [Bool.eq_iff_iff]
        simp [atomic]
      · simp [MemAccess.releases, atomAccess, extScope]

end Parked

section Perform

variable {s0 s : State} {m : Mn} {f : Fields} {t : Ty} {x k : Nat} {c : Crew} {sp : Split} {home : Nat → Nat} {op : MemOp} {g : Go s0}

/-- A blocked split is not past its instruction. -/
theorem past_blocked {u : State} {i : Issue} {d : Crew} {q : Split} (crew : u.crew? i.x = some d) (split : d.split? i.k = some q) (blocked : q.st = .blocked) :
    i.past u = false := by
  unfold Issue.past
  rw [crew, Option.bind_some, split]
  dsimp only
  rw [blocked]
  rfl

/-- An `.ord` atomic of a D-class kernel at home enters the queues, and its split waits. -/
theorem atomPerform_parks (hs : Settled c sp) (atomics : m ∈ ordMns) (sel : f.sel = .ty t) (here : g.st = s) (agree : s.UnitsAgree (coreUnits (x / 64)) c.ctx)
    (lanes : LanesAtHome s m f t x k c sp home) (loads : c.loadq.length < 16) (stores : c.storeq.length < 16) (operation : opFor m t f = some op)
    (atomic : op ≠ .store) (ordered : f.f = true) (dclass : s.dclass c = true) (crew : s.crew? x = some c) (split : c.split? k = some sp)
    (some_ : accLanes (issueOf s m f x k c sp) ≠ []) :
    ∃ d q, Crew.Blocked (c.issued (issueOf s m f x k c sp) (atomAccess (issueOf s m f x k c sp) op) s.seq (homeChecked (issueOf s m f x k c sp) m home)) k sp
        (.ordAtom s.seq) d q ∧
      (atomPerform op (issueOf s m f x k c sp) g).st = { s with crews := Tab.put s.crews x d, cycles := (atomPerform op (issueOf s m f x k c sp) g).st.cycles
                                                                coloc := (atomPerform op (issueOf s m f x k c sp) g).st.coloc
                                                                tlbs := (atomPerform op (issueOf s m f x k c sp) g).st.tlbs, seq := s.seq + 1 } := by
  obtain ⟨g1, tracked, after, issues⟩ := virtAccess_issues hs atomics sel here agree lanes loads stores operation atomic
  have only : g1.st = { s with tlbs := g1.st.tlbs } := after.only
  have same : ∀ y, g1.st.crew? y = s.crew? y := fun y => by rw [only]; rfl
  have seq : g1.st.seq = s.seq := by rw [only]
  obtain ⟨s1, d, q, work, at1, blocked⟩ := memIssue_parks (g := g1) (i := issueOf s m f x k c sp) (a := atomAccess (issueOf s m f x k c sp) op)
    (cs := homeChecked (issueOf s m f x k c sp) m home) (farKind (atomAccess (issueOf s m f x k c sp) op)) tracked
    (fun d hd => (homeChecked_home (issueOf s m f x k c sp) m home d hd).1) (by simpa [homeChecked] using some_) ordered
    (by rw [issueOf_c hs, only]; exact dclass) ((same x).trans crew) split
  have waits : q.st = .blocked := by rw [blocked.own]
  have stays : atomPerform op (issueOf s m f x k c sp) g = memIssue g1 (issueOf s m f x k c sp) (atomAccess (issueOf s m f x k c sp) op)
      (farKind (atomAccess (issueOf s m f x k c sp) op)) (homeChecked (issueOf s m f x k c sp) m home) tracked := by
    unfold atomPerform
    dsimp only
    rw [issues, past_blocked at1.crew blocked.split waits]
    rfl
  rw [seq] at work blocked
  refine ⟨d, q, blocked, ?_⟩
  rw [stays]
  generalize memIssue g1 (issueOf s m f x k c sp) (atomAccess (issueOf s m f x k c sp) op)
      (farKind (atomAccess (issueOf s m f x k c sp) op)) (homeChecked (issueOf s m f x k c sp) m home) tracked = g2 at at1
  rw [show g2.st = _ from at1, work, only]
  simp only [Tab.put_put]
  rfl

end Perform

section Release

variable {s : State} {m : Mn} {f : Fields} {t : Ty} {x k : Nat} {c : Crew} {sp : Split} {home : Nat → Nat}

/-- The release enters the atomic into the queues. -/
theorem ordRelease_enters (hs : Settled c sp) (crew : s.crew? x = some c) (split : c.split? k = some sp) (running : c.st = .running)
    (wait : sp.wait = .ord m f) (first : s.ordFirst k c sp = true) (atomics : m ∈ ordMns) (sel : f.sel = .ty t) (ordered : f.f = true)
    (dclass : s.dclass c = true) (agree : (s.takenUp x k c sp).UnitsAgree (coreUnits (x / 64)) c.ctx)
    (lanes : LanesAtHome (s.takenUp x k c sp) m f t x k (c.takenUp k sp) sp.takenUp home)
    (some_ : accLanes (issueOf (s.takenUp x k c sp) m f x k (c.takenUp k sp) sp.takenUp) ≠ []) (loads : c.loadq.length < 16)
    (stores : c.storeq.length < 16) :
    EntersQueues (s.takenUp x k c sp) (exec (.ordRelease x k) s) m f t x k (c.takenUp k sp) sp.takenUp home := by
  have hs0 := hs.takenUp (k := k)
  have crew0 : (s.takenUp x k c sp).crew? x = some (c.takenUp k sp) := Tab.find_put_same ..
  have dclass0 : (s.takenUp x k c sp).dclass (c.takenUp k sp) = true := dclass
  obtain ⟨op, operation, atomic, performs⟩ := ordBody_atomic (s := s.takenUp x k c sp) (x := x) (k := k) (c := c.takenUp k sp) (sp := sp.takenUp) atomics sel
    ((Go.start s).put (.crew x (some (c.takenUp k sp))))
  obtain ⟨d, q, blocked, reached⟩ := atomPerform_parks (s := s.takenUp x k c sp) (g := (Go.start s).put (.crew x (some (c.takenUp k sp)))) hs0 atomics sel rfl
    agree lanes loads stores operation atomic ordered dclass0 crew0 (Crew.split?_setSplit ..) some_
  have issued := Crew.issued_issued (c.takenUp k sp) (issueOf (s.takenUp x k c sp) m f x k (c.takenUp k sp) sp.takenUp)
    (atomAccess (issueOf (s.takenUp x k c sp) m f x k (c.takenUp k sp) sp.takenUp) op) (s.takenUp x k c sp).seq
    (homeChecked (issueOf (s.takenUp x k c sp) m f x k (c.takenUp k sp) sp.takenUp) m home)
  have runs : d.st = .running := by
    rw [blocked.crew, issued.crew]
    exact running
  have answers := exec_ordRelease crew split wait first performs (by rw [reached]; exact Tab.find_put_same ..) runs
  refine entersQueues_parked hs0 sel operation atomic ordered dclass0 running answers ?_ (fun y hy => ?_) (Tab.find_put_same ..) issued blocked
  · rw [reached]
  · refine (Tab.find_put_other _ _ hy).trans ?_
    rw [reached]
    exact Tab.find_put_other _ _ hy

end Release

end Sys2Proof.Machine

namespace Sys2Proof

open Machine

/-- Settles O20: the gate blocks the split behind another one, and the release retires the reduction or enters the atomic. -/
theorem orderedOperationsWait : Obligations.OrderedOperationsWait := by
  unfold Obligations.OrderedOperationsWait
  intro m f t s x k c sp ordered sel dclass forms
  refine ⟨fun h loads windows behind => ordered_waits forms sel ordered dclass h loads windows behind, fun crew split running _ wait hs first => ?_⟩
  intro sp0 c0 s0
  refine ⟨fun plain rows width => ?_, fun atomics home agree lanes some_ loads stores => ?_⟩
  · exact ordRelease_reduces hs crew split running wait first (forms.resolve_right plain) sel ordered rows width
  · exact ordRelease_enters hs crew split running wait first atomics sel ordered dclass agree lanes some_ loads stores

end Sys2Proof
end

section
/-! SUPPORT. An `mma` whose checks fail in a crew whose split table lists one number twice: as in `State.twice`, the interrupt of the record that no ring
entry takes wakes the second entry, and the faulting split goes on (R67, R280, R379, R383). -/

namespace Sys2Proof.Machine

open Sys2Proof

/-- A single-core `.f16` operation on tile 0, which the team does not hold. -/
def strayMma : Fields := { fromS8 with sel := .ty .f16, f := true, d := .m 0, a := .v 0 0 false false, b := .x 0x100 }

theorem strayMma_executes : State.twice.Executes .mma strayMma 0 0 twiceListed firstSplit :=
  ⟨twice_issuer, by decide +kernel, by decide +kernel, by decide +kernel⟩

/-- The tile that is not held and the empty layout record are one cause 3 (R280). -/
theorem strayMma_causes : mmaCauses State.twice (issueOf State.twice .mma strayMma 0 0 twiceListed firstSplit)
    (matOpOf (issueOf State.twice .mma strayMma 0 0 twiceListed firstSplit) (Mn.mma == .mmaw)) = [{ cause := 3 }] := by decide +kernel

end Sys2Proof.Machine

namespace Sys2Proof

open Machine

/-- Refutes O33: the clause of an `mma` whose checks fail asks of no state that its split table lists a number once. -/
theorem not_matrixOperationsRun : ¬ Obligations.MatrixOperationsRun := by
  intro h
  obtain ⟨issue, -⟩ := h
  obtain ⟨-, refused⟩ := issue .mma strayMma .f16 State.twice 0 0 twiceListed firstSplit (placedTeam 0) (.inl rfl) rfl strayMma_executes twice_settled
    (by decide +kernel) (by decide +kernel) rfl rfl
  exact not_faults_of_pc (by decide +kernel) _ _ (refused _ _ strayMma_causes (by simp))

end Sys2Proof
end

section
/-! SUPPORT. O18: reductions whose order is left open combine the contributing values in some order; all others follow the tree or the ladder
(R96, R97, R206, R207, R209). -/

namespace Sys2Proof.Machine

open Sys2Proof

/-! ### An order that is left open -/

/-- Two values at a time, wherever they stand, leave a combination of all in some order. -/
theorem freeReduce_anyOrder (s : State) (salt : Nat) (g : Nat → Nat → Nat) (n : Nat) {xs : List Nat} (some_ : xs ≠ []) (fuel : xs.length ≤ n + 1) :
    ∃ r, freeReduce s salt g n xs = some r ∧ AnyOrder g xs r := by
  induction n generalizing xs with
  | zero =>
    obtain ⟨y, rfl⟩ := List.length_eq_one_iff.1 (le_antisymm fuel (List.length_pos_iff.2 some_))
    exact ⟨y, rfl, .one y⟩
  | succ n ih =>
    match xs, some_ with
    | [y], _ => exact ⟨y, rfl, .one y⟩
    | y :: z :: ys, _ =>
      let i := Config.freeNat (s.salt 40 (salt + 2 * n)) % (y :: z :: ys).length
      let rest := (y :: z :: ys).eraseIdx i
      let j := Config.freeNat (s.salt 40 (salt + 2 * n + 1)) % rest.length
      have first : i < (y :: z :: ys).length := Nat.mod_lt _ (Nat.zero_lt_succ _)
      have left : rest.length = ys.length + 1 := by
        rw [List.length_eraseIdx, if_pos first]; rfl
      have second : j < rest.length := Nat.mod_lt _ (by omega)
      have order : (y :: z :: ys).Perm ((y :: z :: ys).getD i 0 :: rest.getD j 0 :: rest.eraseIdx j) := by
        rw [List.getD_eq_getElem _ _ first, List.getD_eq_getElem _ _ second]
        exact (List.getElem_cons_eraseIdx_perm first).symm.trans ((List.getElem_cons_eraseIdx_perm second).symm.cons _)
      have shorter : (rest.eraseIdx j).length + 1 = rest.length := by rw [List.length_eraseIdx, if_pos second]; omega
      obtain ⟨r, value, combined⟩ := ih (xs := g ((y :: z :: ys).getD i 0) (rest.getD j 0) :: rest.eraseIdx j) (by simp)
        (by rw [List.length_cons, shorter, left]; simpa using fuel)
      exact ⟨r, value, .step order combined⟩

/-! ### Elements -/

section Element

variable {s s' : State} {m : Mn} {f : Fields} {x k : Nat} {c d : Crew} {sp : Split} {t : Ty} {run : Lanes} {el n : Nat}

/-- The values present at lane positions are those of the lanes that take effect. -/
theorem fpPresent_filterMap {ls : List Nat} (inside : ∀ l ∈ ls, l < c.width) :
    ls.filterMap (fpPresent f t run c sp el) = (ls.filter fun l => hasLane run l).map (fpValue f t c sp el) := by
  induction ls with
  | nil => rfl
  | cons l ls ih =>
    have rest := ih fun j hj => inside j (List.mem_cons_of_mem _ hj)
    have lane : l < c.width := inside l List.mem_cons_self
    cases runs : hasLane run l <;> simp [fpPresent, lane, runs, rest]

/-- The lanes of a set below `n` among those below `w`. -/
theorem lanesOf_filter_lt {n w : Nat} (le : n ≤ w) : (lanesOf run w).filter (fun l => decide (l < n)) = (List.range n).filter fun l => hasLane run l := by
  obtain ⟨more, rfl⟩ := Nat.exists_eq_add_of_le le
  have above : ∀ j : Nat, ¬ n + j < n := fun j => by omega
  have below : (List.range n).filter (fun l => decide (l < n)) = List.range n := List.filter_eq_self.2 fun l hl => by simpa using hl
  unfold lanesOf
  rw [List.filter_filter, List.filter_congr fun l _ => Bool.and_comm .., ← List.filter_filter, List.range_add, List.filter_append, below,
    List.filter_map]
  simp [above]

/-- The contributing values, in the order of the lanes below `n`. -/
theorem fpValues_eq {n : Nat} (inside : n ≤ c.width) :
    ((List.range n).map (fpPresent f t run c sp el)).filterMap id = fpValues f t run c sp el n := by
  rw [List.filterMap_map, Function.id_comp, fpPresent_filterMap fun l hl => (List.mem_range.1 hl).trans_le inside, fpValues, lanesOf_filter_lt inside]

/-- A reduction over lane positions, as the tree or ladder gives it or in a free order, is one of R96 and R97. -/
theorem reduced_of {exact_ : Bool} {g : Nat → Nat → Nat} {tree : Option Nat} {vals : List Nat} {ident salt fuel : Nat} (some_ : tree.isSome = true ↔ vals ≠ [])
    (short : vals.length ≤ fuel + 1) :
    Reduced g exact_ tree vals ident ((if exact_ = true then tree else freeReduce s salt g fuel vals).getD ident) := by
  cases exact_ with
  | true => exact reduced_getD rfl some_
  | false =>
    unfold Reduced
    split
    case isTrue none =>
      subst none
      rw [if_neg (by decide)]
      cases fuel <;> rfl
    case isFalse some_ =>
      obtain ⟨r, value, combined⟩ := freeReduce_anyOrder s salt g fuel some_ short
      simpa [value] using combined

theorem fpValues_length {n : Nat} : (fpValues f t run c sp el n).length ≤ c.width := by
  rw [fpValues, List.length_map]
  exact ((List.length_filter_le ..).trans (List.length_filter_le ..)).trans (List.length_range).le

/-- The forms that R97 fixes, as the model and as the statements name them. -/
theorem fixedOrder_eq (f : Fields) : (f.f || decide (f.ext.toNat % 8 ≠ 0)) = (f.f || f.ext.toNat % 8 != 0) := by
  rw [decide_not]
  rfl

variable (hs : Settled c sp) (sel : f.sel = .ty t) (float : t.kind = .float) (width : c.width ∈ [32, 64, 128])

include hs sel float width in
/-- One element of `redux`: the tree's value, one in a free order, or the identity. -/
theorem reduxFp_value (inside : el < fpElements t) : (issueOf s m f x k c sp).reduxFp s' (f.ext.toNat % 8) el =
    (if (f.f || f.ext.toNat % 8 != 0) = true then treeOver (fpJoin f t sp) (fpPresent f t (runLanes s m f x k c sp) c sp el) (Nat.log2 c.width) 0
      else freeReduce s' (1000 * el) (fpJoin f t sp) c.width (fpValues f t (runLanes s m f x k c sp) c sp el c.width)).getD
      (fpIdentity (fmtOf t) (f.ext.toNat % 8)) := by
  obtain ⟨power, levels⟩ := width_log width
  obtain ⟨above, levels⟩ := Nat.exists_eq_add_of_le levels
  have tree : treeReduce (fpJoin f t sp) 7 ((List.range c.width).map (fpPresent f t (runLanes s m f x k c sp) c sp el)) =
      treeOver (fpJoin f t sp) (fpPresent f t (runLanes s m f x k c sp) c sp el) (Nat.log2 c.width) 0 := by
    conv_lhs => rw [← power, levels, treeReduce_range]
  unfold Issue.reduxFp
  dsimp only
  rw [issueOf_f, fixedOrder_eq, reduxVals_eq hs sel float inside, issueOf_c hs, issueOf_ty sel, reduxIdent_float float, fpValues_eq le_rfl, Issue.rm,
    Issue.ftz, issueOf_sp hs, ← tree]
  rfl

include hs sel float width in
/-- An element of `redux` follows the tree or some order. -/
theorem reduxFp_result (inside : el < fpElements t) {l : Nat} : FloatResult .redux f t (runLanes s .redux f x k c sp) c sp l el
    ((issueOf s .redux f x k c sp).reduxFp s' (f.ext.toNat % 8) el) := by
  rw [reduxFp_value hs sel float width inside, FloatResult, if_pos rfl]
  refine reduced_of ?_ (fpValues_length.trans (Nat.le_succ _))
  rw [treeOver_isSome, fpValues_ne_nil, (width_log width).1, Nat.zero_add]
  simp only [fpPresent_isSome, Nat.zero_le, true_and]
  exact exists_congr fun _ => and_comm

include hs sel float width in
/-- One element of `scan` up to lane `j`: the ladder's value there, one in a free order, or the identity. -/
theorem scanFp_upTo (inside : el < fpElements t) {j l : Nat} (lane : j < c.width) {excl : Bool}
    (source : (if excl then ((lanesOf (runLanes s m f x k c sp) c.width).filter fun j => decide (j < l)).getLast? else some l) = some j) :
    (issueOf s m f x k c sp).scanFp s' (f.ext.toNat % 8) el l excl =
      (if (f.f || f.ext.toNat % 8 != 0) = true then ladderOver (fpJoin f t sp) (fpPresent f t (runLanes s m f x k c sp) c sp el) (Nat.log2 c.width) j
        else freeReduce s' (100000 * (el + 1) + 1000 * j) (fpJoin f t sp) c.width (fpValues f t (runLanes s m f x k c sp) c sp el (j + 1))).getD
        (fpIdentity (fmtOf t) (f.ext.toNat % 8)) := by
  have lanes : (issueOf s m f x k c sp).lanes = lanesOf (runLanes s m f x k c sp) c.width := by rw [Issue.lanes, issueOf_c hs, issueOf_run]
  have rung : (ladder (fpJoin f t sp) c.width ((List.range c.width).map (fpPresent f t (runLanes s m f x k c sp) c sp el))).getD j none =
      ladderOver (fpJoin f t sp) (fpPresent f t (runLanes s m f x k c sp) c sp el) (Nat.log2 c.width) j := by
    rw [ladder_range _ _ width, List.getD_eq_getElem _ _ (by simpa using lane), List.getElem_map, List.getElem_range]
  unfold Issue.scanFp
  dsimp only
  rw [lanes, source]
  dsimp only
  rw [issueOf_f, fixedOrder_eq, reduxVals_eq hs sel float inside, issueOf_c hs, issueOf_ty sel, reduxIdent_float float, ← List.map_take, List.take_range,
    min_eq_left (show j + 1 ≤ c.width from lane), fpValues_eq (show j + 1 ≤ c.width from lane), Issue.rm, Issue.ftz, issueOf_sp hs, ← rung]
  rfl

include hs sel float width in
/-- An element of `scan` in a lane that takes effect follows the ladder or some order. -/
theorem scanFp_result (inside : el < fpElements t) {l : Nat} (hl : l ∈ lanesOf (runLanes s .scan f x k c sp) c.width) :
    FloatResult .scan f t (runLanes s .scan f x k c sp) c sp l el
      ((issueOf s .scan f x k c sp).scanFp s' (f.ext.toNat % 8) el l (f.ext.toNat / 8 % 2 == 1)) := by
  have follows : ∀ j ∈ lanesOf (runLanes s .scan f x k c sp) c.width, ∀ salt, Reduced (fpJoin f t sp) (f.f || f.ext.toNat % 8 != 0)
      (ladderOver (fpJoin f t sp) (fpPresent f t (runLanes s .scan f x k c sp) c sp el) (Nat.log2 c.width) j)
      (fpValues f t (runLanes s .scan f x k c sp) c sp el (j + 1)) (fpIdentity (fmtOf t) (f.ext.toNat % 8))
      ((if (f.f || f.ext.toNat % 8 != 0) = true then
          ladderOver (fpJoin f t sp) (fpPresent f t (runLanes s .scan f x k c sp) c sp el) (Nat.log2 c.width) j
        else freeReduce s' salt (fpJoin f t sp) c.width (fpValues f t (runLanes s .scan f x k c sp) c sp el (j + 1))).getD
        (fpIdentity (fmtOf t) (f.ext.toNat % 8))) := fun j hj _ =>
    reduced_of (iff_of_true (ladderOver_isSome _ _ _ (fpPresent_isSome.2 hj)) (fpValues_ne_nil.2 ⟨j, hj, Nat.lt_succ_self j⟩))
      (fpValues_length.trans (Nat.le_succ _))
  rw [FloatResult, if_neg (by decide)]
  rcases Nat.mod_two_eq_zero_or_one (f.ext.toNat / 8) with inclusive | exclusive
  · rw [if_pos inclusive, scanFp_upTo hs sel float width inside (lanesOf_lt hl).2.2 (by rw [inclusive]; rfl)]
    exact follows l hl _
  · rw [if_neg (by omega)]
    cases source : ((lanesOf (runLanes s .scan f x k c sp) c.width).filter fun j => decide (j < l)).getLast? with
    | none =>
      have lanes : (issueOf s .scan f x k c sp).lanes = lanesOf (runLanes s .scan f x k c sp) c.width := by rw [Issue.lanes, issueOf_c hs, issueOf_run]
      unfold Issue.scanFp
      dsimp only
      rw [exclusive, lanes, if_pos (beq_self_eq_true 1), source, issueOf_ty sel]
      exact reduxIdent_float float _
    | some j =>
      have lower := (List.mem_filter.1 (List.mem_of_getLast? source)).1
      rw [scanFp_upTo hs sel float width inside (lanesOf_lt lower).2.2 (by rw [exclusive]; exact source)]
      exact follows j lower _

end Element

/-! ### The crew -/

section Crew

variable {s s' : State} {f : Fields} {x k : Nat} {c d : Crew} {sp : Split} {t : Ty}
variable (hs : Settled c sp) (sel : f.sel = .ty t) (float : t.kind = .float) (width : c.width ∈ [32, 64, 128]) (rows : 8 ≤ c.wrows)

include hs sel float width rows

/-- What `redux` of a floating-point type leaves, whatever F. -/
theorem redux_floatReduced (regs : SameRegs d (c.putOut (reduxOut s' (issueOf s .redux f x k c sp)))) :
    FloatReduced .redux f t (runLanes s .redux f x k c sp) c sp d := by
  have out : reduxOut s' (issueOf s .redux f x k c sp) = (issueOf s .redux f x k c sp).putTy t fun _ =>
      fpJoined t ((issueOf s .redux f x k c sp).reduxFp s' (f.ext.toNat % 8)) := by
    unfold reduxOut fpJoined
    simp only [issueOf_ty sel, float, issueOf_f]
  rw [out] at regs
  exact floatReduced_of hs float rows (r := fun _ => (issueOf s .redux f x k c sp).reduxFp s' (f.ext.toNat % 8)) regs
    fun _ _ _ inside => reduxFp_result hs sel float width inside

/-- What `scan` of a floating-point type leaves, whatever F. -/
theorem scan_floatReduced (regs : SameRegs d (c.putOut (scanOut s' (issueOf s .scan f x k c sp)))) :
    FloatReduced .scan f t (runLanes s .scan f x k c sp) c sp d := by
  have out : scanOut s' (issueOf s .scan f x k c sp) = (issueOf s .scan f x k c sp).putTy t fun l =>
      fpJoined t fun el => (issueOf s .scan f x k c sp).scanFp s' (f.ext.toNat % 8) el l (f.ext.toNat / 8 % 2 == 1) := by
    unfold scanOut fpJoined
    simp only [issueOf_ty sel, float, issueOf_f]
  rw [out] at regs
  exact floatReduced_of hs float rows (r := fun l el => (issueOf s .scan f x k c sp).scanFp s' (f.ext.toNat % 8) el l (f.ext.toNat / 8 % 2 == 1)) regs
    fun _ hl _ inside => scanFp_result hs sel float width inside hl

end Crew

/-! ### Performing at once -/

theorem reduxOut_fmt (s : State) (i : Issue) : (reduxOut s i).fmt = none := by
  unfold reduxOut
  dsimp only
  split <;> exact Issue.putTy_fmt ..

theorem scanOut_fmt (s : State) (i : Issue) : (scanOut s i).fmt = none := by
  unfold scanOut
  dsimp only
  split <;> exact Issue.putTy_fmt ..

section Perform

variable {m : Mn} {f : Fields} {s : State} {x k : Nat} {c : Crew} {sp : Split} {t : Ty}

/-- The result function of `redux` or `scan`. -/
def reductionOut (m : Mn) : State → Issue → RegOut := if m = .redux then reduxOut else scanOut

theorem reductionOut_fmt (m : Mn) (s : State) (i : Issue) : (reductionOut m s i).fmt = none := by
  unfold reductionOut
  split
  · exact reduxOut_fmt s i
  · exact scanOut_fmt s i

/-- A reduction that need not wait is a register instruction. -/
theorem exec_reduction (forms : m = .redux ∨ m = .scan) (sel : f.sel = .ty t) (hs : Settled c sp) (h : s.Executes m f x k c sp)
    (first : t.kind = .float → f.f = true → s.dclass c = true → s.ordFirst k c sp = true) : exec (m.instr f) s = regStep m f s (reductionOut m s) := by
  have ready : (issueOf s m f x k c sp).fpOrd = true → ordWaits s (issueOf s m f x k c sp) = false := fun isOrd => by
    have float : t.kind = .float := by simpa [Issue.fpOrd, issueOf_ty sel] using isOrd
    have ahead := first float
    rw [ordWaits, issueOf_f, issueOf_c hs, issueOf_sp hs, show (issueOf s m f x k c sp).k = k from rfl]
    cases ordered : f.f <;> cases dclass : s.dclass c <;> simp_all
  have gate : ∀ body : Go s → Go s,
      (if (issueOf s m f x k c sp).fpOrd then ordGate (Go.start s) (issueOf s m f x k c sp) body else body (Go.start s)) = body (Go.start s) := fun body => by
    split
    case isFalse => rfl
    case isTrue isOrd => rw [ordGate, Go.start_st, if_neg (by rw [ready isOrd]; decide)]
  have performs : exec (m.instr f) s = .next (retire (Go.start s) (issueOf s m f x k c sp) (reductionOut m s (issueOf s m f x k c sp))).st := by
    rcases forms with rfl | rfl
    · exact (crewStep_executes h _).trans (congrArg (fun g : Go s => Host.Outcome.next g.st) (gate (reduxBody (issueOf s .redux f x k c sp))))
    · exact (crewStep_executes h _).trans (congrArg (fun g : Go s => Host.Outcome.next g.st) (gate (scanBody (issueOf s .scan f x k c sp))))
  exact performs.trans (crewStep_executes h fun i g => retire g i (reductionOut m s i)).symm

end Perform

end Sys2Proof.Machine

namespace Sys2Proof

open Machine

/-- Settles O18: no split is ahead, so the reduction performs at once, and each element follows the tree, the ladder or some order. -/
theorem floatReductionResults : Obligations.FloatReductionResults := by
  intro m f t s x k c sp forms float h hs rows width sel first
  refine regStep_retires h hs (exec_reduction forms sel hs h fun _ => first) (reductionOut_fmt m s _) fun d regs => ?_
  rw [issueOf_c hs] at regs
  rcases forms with rfl | rfl
  · exact redux_floatReduced hs sel float width rows regs
  · exact scan_floatReduced hs sel float width rows regs

end Sys2Proof
end

section
/-! SUPPORT. O10: integer and bit reductions give the exact combination of the contributing lanes, fitted once (R77, R96, R206, R207). -/

namespace Sys2Proof.Machine

open Sys2Proof

/-! ### Further checks of the decoder -/

section Decoded

variable {s : State} {m : Mn} {f : Fields} {x k : Nat} {c : Crew} {sp : Split}

/-- Only the bits of EXT that the row defines are set (R146). -/
theorem State.Executes.extBits (h : s.Executes m f x k c sp) : f.ext.toNat &&& (31 - m.row.extMask) = 0 := by
  have e := h.encoded
  simp only [encodingOk, Bool.and_eq_true, beq_iff_eq] at e
  tauto

theorem State.Executes.special (h : s.Executes m f x k c sp) : specialOk m f = true := by
  have e := h.encoded
  simp only [encodingOk, Bool.and_eq_true] at e
  tauto

/-- The immediate operands are in the range that the instruction gives them. -/
theorem State.Executes.specialOperand (h : s.Executes m f x k c sp) : specialOperandOk m f c.width = true :=
  operandOk_special h.operands

end Decoded

/-! ### Integers as bits of a type -/

theorem intVal_operand (c : Crew) (sp : Split) (t : Ty) (o : Operand) (l : Nat) : intVal t (operandVal c sp.wbase t false o l) = srcInt c sp t o l := by
  unfold intVal srcInt src Ty.isSigned
  by_cases signed : t.kind = .signed
  · simp only [signed, beq_self_eq_true, if_true]
    exact sext_eq_toInt (bits_pos t) _
  · simp [signed]

theorem ofNat_trunc (n : Nat) (v : Int) : BitVec.ofNat n (trunc v n) = BitVec.ofInt n v := by
  have pos : (0 : Int) < (2 ^ n : Nat) := by exact_mod_cast Nat.two_pow_pos n
  refine BitVec.eq_of_toNat_eq ?_
  rw [BitVec.toNat_ofNat, BitVec.toNat_ofInt, trunc]
  exact Nat.mod_eq_of_lt ((Int.toNat_lt (Int.emod_nonneg _ pos.ne')).2 (Int.emod_lt_of_pos _ pos))

theorem clamped_eq (t : Ty) (v : Int) : max (tyMin t) (min (tyMax t) v) = clamped t v := by
  unfold tyMin tyMax clamped Ty.isSigned
  by_cases signed : t.kind = .signed
  · simp [signed]
  · simp [signed]

/-- An exact value fitted to its type, as bits (R77). -/
theorem ofNat_fit (sat : Bool) (t : Ty) (v : Int) : BitVec.ofNat t.bits (fit sat t v) = BitVec.ofInt t.bits (if sat then clamped t v else v) := by
  rw [fit, ofNat_trunc, clamped_eq]

/-! ### Exact combinations -/

/-- The bit operation of OP 3 to 5 on bits of a type, and its identity (R206, R207). -/
def bitReduce {n : Nat} (op : Nat) (a b : BitVec n) : BitVec n := if op = 3 then a &&& b else if op = 4 then a ||| b else a ^^^ b
def bitIdent (n op : Nat) : BitVec n := if op = 3 then BitVec.allOnes n else 0

theorem ofNat_reduxBits (n op a b : Nat) : BitVec.ofNat n (reduxBits op a b) = bitReduce op (BitVec.ofNat n a) (BitVec.ofNat n b) := by
  unfold reduxBits bitReduce
  split
  · exact BitVec.ofNat_and
  · split
    · exact BitVec.ofNat_or
    · exact BitVec.ofNat_xor

theorem bitReduce_ident {n : Nat} (op : Nat) (a : BitVec n) : bitReduce op (bitIdent n op) a = a := by
  unfold bitReduce bitIdent
  by_cases and : op = 3
  · simp [and]
  · by_cases or : op = 4 <;> simp [and, or]

theorem ofNat_foldl_reduxBits (n op x : Nat) (xs : List Nat) :
    BitVec.ofNat n (xs.foldl (reduxBits op) x) = (xs.map (BitVec.ofNat n)).foldl (bitReduce op) (BitVec.ofNat n x) := by
  induction xs generalizing x with
  | nil => rfl
  | cons y xs ih => rw [List.foldl_cons, ih, ofNat_reduxBits]; rfl

/-- The combination under OP 0 to 2 of integers of a type, fitted; the identity of none (R206, R207). -/
def intReduced (t : Ty) (sat : Bool) (op : Nat) (xs : List Int) : BitVec t.bits :=
  match combined op xs with
  | some v => BitVec.ofInt t.bits (if sat then clamped t v else v)
  | none => BitVec.ofInt t.bits (if op = 0 then 0 else if op = 1 then clamped t (2 ^ 64) else clamped t (-(2 ^ 64)))

/-- An integer or bit operation that the type has (R201). -/
def opFits (t : Ty) (op : Nat) : Prop := if t.kind = .bits then op = 0 ∨ 3 ≤ op else op ≤ 2

/-- Values past the range are clamped to its ends. -/
theorem clamped_ends (t : Ty) (small : t.bits ≤ 64) : tyMax t = clamped t (2 ^ 64) ∧ tyMin t = clamped t (-(2 ^ 64)) := by
  revert small
  cases t <;> decide

theorem reduxIdent_int {t : Ty} (whole : t.kind ≠ .float) (small : t.bits ≤ 64) {op : Nat} (fits : opFits t op) :
    BitVec.ofNat t.bits (reduxIdent t op) = if 3 ≤ op then bitIdent t.bits op else intReduced t false op [] := by
  obtain ⟨top, bottom⟩ := clamped_ends t small
  unfold opFits at fits
  by_cases bits : t.kind = .bits
  · rw [if_pos bits] at fits
    rw [reduxIdent, bits]
    rcases fits with rfl | bitwise
    · simp [intReduced, combined]
    · rw [if_pos bitwise, bitIdent]
      dsimp only
      split
      · exact BitVec.eq_of_toNat_eq (by simp [BitVec.toNat_ofNat])
      · rfl
  · rw [if_neg bits] at fits
    have ident : reduxIdent t op = if op = 0 then 0 else trunc (if op = 1 then tyMax t else tyMin t) t.bits := by
      unfold reduxIdent
      split
      case h_1 float => exact absurd float whole
      case h_2 kind => exact absurd kind bits
      case h_3 => rfl
    rw [ident, top, bottom, if_neg (show ¬ 3 ≤ op by omega)]
    have : op = 0 ∨ op = 1 ∨ op = 2 := by omega
    rcases this with rfl | rfl | rfl
    · simp [intReduced, combined]
    · exact ofNat_trunc ..
    · exact ofNat_trunc ..

/-- The model's combination of values: exact, then fitted. -/
theorem reduxExact_eq {t : Ty} (whole : t.kind ≠ .float) (small : t.bits ≤ 64) {op : Nat} (fits : opFits t op) (sat : Bool) (xs : List Nat) :
    BitVec.ofNat t.bits (reduxExact t sat op xs) = if 3 ≤ op then (xs.map (BitVec.ofNat t.bits)).foldl (bitReduce op) (bitIdent t.bits op)
      else intReduced t sat op (xs.map (intVal t)) := by
  cases xs with
  | nil => exact reduxIdent_int whole small fits
  | cons x xs =>
    unfold reduxExact
    dsimp only
    split
    · rw [ofNat_foldl_reduxBits, List.map_cons, List.foldl_cons, bitReduce_ident]
    · rw [ofNat_fit]
      rfl

/-! ### The instructions -/

section Reduce

variable {s : State} {m : Mn} {f : Fields} {x k : Nat} {c : Crew} {sp : Split} {t : Ty}

/-- The lanes whose values a lane's result combines (R206, R207). -/
def reducedLanes (m : Mn) (f : Fields) (run : Lanes) (w l : Nat) : List Nat :=
  (lanesOf run w).filter fun j => m = .redux || j < l || (!decide (8 ≤ f.ext.toNat) && j == l)

theorem reducedLanes_redux (f : Fields) (run : Lanes) (w l : Nat) : reducedLanes .redux f run w l = lanesOf run w :=
  List.filter_eq_self.2 fun _ _ => rfl

/-- EXCL is the only bit of EXT above OP (R207). -/
theorem excl_eq : ∀ e : BitVec 5, e.toNat &&& 16 = 0 → (e.toNat / 8 % 2 == 1) = decide (8 ≤ e.toNat) := by decide

/-- What a reduction of a type other than a floating-point one gives in a lane. -/
theorem reductionOut_int (forms : m = .redux ∨ m = .scan) (sel : f.sel = .ty t) (whole : t.kind ≠ .float) (h : s.Executes m f x k c sp) (hs : Settled c sp) :
    reductionOut m s (issueOf s m f x k c sp) = (issueOf s m f x k c sp).putTy t fun l => reduxExact t f.f (f.ext.toNat % 8)
      ((reducedLanes m f (runLanes s m f x k c sp) c.width l).map fun j => operandVal c sp.wbase t false f.a j) := by
  have lanes : (issueOf s m f x k c sp).lanes = lanesOf (runLanes s m f x k c sp) c.width := by rw [Issue.lanes, issueOf_c hs, issueOf_run]
  have value : ∀ l, (issueOf s m f x k c sp).a t false l = operandVal c sp.wbase t false f.a l := fun l => by
    rw [Issue.a, issueOf_ca hs, issueOf_sp hs, issueOf_f]
  rcases forms with rfl | rfl
  · unfold reductionOut
    rw [if_pos rfl]
    unfold reduxOut
    dsimp only
    rw [issueOf_ty sel]
    split
    case h_1 float => exact absurd float whole
    case h_2 => simp only [lanes, value, issueOf_f, reducedLanes_redux]
  · have excl := excl_eq f.ext h.extBits
    unfold reductionOut
    rw [if_neg (by decide)]
    unfold scanOut
    dsimp only
    rw [issueOf_ty sel]
    split
    case h_1 float => exact absurd float whole
    case h_2 => simp only [lanes, value, issueOf_f, excl, reducedLanes]; rfl

/-- The types of reductions fit one uniform register (R201). -/
theorem reduxTypes_le (types : t ∈ Mn.redux.row.types) : t.bits ≤ 64 := by
  simp only [Mn.row, List.mem_cons, List.not_mem_nil, or_false] at types
  rcases types with rfl | rfl | rfl | rfl | rfl | rfl | rfl | rfl | rfl | rfl <;> decide

/-- The decoder checks OP against the type (R201). -/
theorem reduxOp_fits (sel : f.sel = .ty t) (special : specialOk .redux f = true) : opFits t (f.ext.toNat % 8) := by
  simp only [specialOk, sel, Sel.kind?, Sel.ty?, Option.map_some, Bool.and_eq_true] at special
  obtain ⟨op, -⟩ := special
  unfold opFits
  split
  case isTrue bits => simp [bits] at op; omega
  case isFalse other => simpa [other] using op

theorem half_float (half : isHalf t = true) : t.kind = .float := by
  rcases (isHalf_iff t).1 half with rfl | rfl <;> rfl

end Reduce

end Sys2Proof.Machine

namespace Sys2Proof

open Machine

/-- Settles O10: a reduction of integers or bits retires at once, with the exact combination of each lane's contributors. -/
theorem reductionResults : Obligations.ReductionResults := by
  intro m f t s x k c sp forms whole h hs rows sel
  have types : t ∈ Mn.redux.row.types := by rcases forms with rfl | rfl <;> exact h.type sel
  have special : specialOk .redux f = true := by rcases forms with rfl | rfl <;> exact h.special
  refine regStep_retires h hs (exec_reduction forms sel hs h fun float => absurd float whole) (reductionOut_fmt m s _) fun d regs => ?_
  rw [issueOf_c hs, reductionOut_int forms sel whole h hs] at regs
  have holds := Issue.putTy_typedDest regs (by rw [issueOf_c hs]) (by rwa [issueOf_c hs]) fun half => absurd (half_float half) whole
  rw [issueOf_c hs, issueOf_sp hs] at holds
  refine typedDest_congr holds fun l _ => ?_
  rw [reduxExact_eq whole (reduxTypes_le types) (reduxOp_fits sel special)]
  simp only [List.map_map, Function.comp_def, intVal_operand]
  rfl

end Sys2Proof
end

section
/-! SUPPORT. The order of floating-point patterns: unpacked values compare as sign and magnitude do (R82, R83, R189). -/

namespace Sys2Proof.Machine

open Sys2Proof

/-! ### Magnitudes -/

/-- The value of a magnitude in units of the smallest denormal; infinity takes the place after the largest finite value. -/
def Fmt.units (F : Fmt) (mag : Nat) : Nat :=
  if mag / 2 ^ F.fb = 0 then mag % 2 ^ F.fb else (2 ^ F.fb + mag % 2 ^ F.fb) * 2 ^ (mag / 2 ^ F.fb - 1)

theorem Fmt.units_lt_succ (F : Fmt) (mag : Nat) : F.units mag < F.units (mag + 1) := by
  have pos := Nat.two_pow_pos F.fb
  have split := Nat.div_add_mod mag (2 ^ F.fb)
  have low := Nat.mod_lt mag pos
  unfold Fmt.units
  generalize mag / 2 ^ F.fb = ex at *
  generalize mag % 2 ^ F.fb = fr at *
  subst split
  by_cases carry : fr + 1 = 2 ^ F.fb
  · have next : 2 ^ F.fb * ex + fr + 1 = 2 ^ F.fb * (ex + 1) := by rw [Nat.mul_succ]; omega
    rw [next, Nat.mul_div_cancel_left _ pos, Nat.mul_mod_right, if_neg (Nat.succ_ne_zero ex), Nat.add_zero, Nat.add_sub_cancel]
    split
    case isTrue zero => subst zero; omega
    case isFalse normal =>
      obtain ⟨n, rfl⟩ := Nat.exists_eq_succ_of_ne_zero normal
      rw [Nat.succ_sub_one, Nat.pow_succ', ← Nat.mul_assoc]
      exact Nat.mul_lt_mul_of_pos_right (by omega) (Nat.two_pow_pos n)
  · have below : fr + 1 < 2 ^ F.fb := by omega
    rw [Nat.add_assoc, Nat.mul_add_div pos, Nat.div_eq_of_lt below, Nat.add_zero, Nat.mul_add_mod, Nat.mod_eq_of_lt below]
    split
    · omega
    · exact Nat.mul_lt_mul_of_pos_right (by omega) (Nat.two_pow_pos _)

theorem Fmt.units_strictMono (F : Fmt) : StrictMono F.units := strictMono_nat_of_lt_succ F.units_lt_succ

@[simp] theorem Fmt.units_zero (F : Fmt) : F.units 0 = 0 := by simp [Fmt.units]

/-! ### Signed values -/

/-- The place of a number in the order, from its sign and magnitude. -/
def Fmt.signedUnits (F : Fmt) (z : Int) : Int := if z < 0 then -(F.units z.natAbs) else F.units z.natAbs

theorem Fmt.signedUnits_strictMono (F : Fmt) : StrictMono F.signedUnits := by
  intro y z less
  unfold Fmt.signedUnits
  have zero := F.units_zero
  have mono : ∀ {m n : Nat}, m < n → F.units m < F.units n := fun h => F.units_strictMono h
  split <;> split
  · have := mono (show z.natAbs < y.natAbs by omega)
    omega
  · have := mono (show 0 < y.natAbs by omega)
    omega
  · omega
  · have := mono (show y.natAbs < z.natAbs by omega)
    omega

/-- The place of an unpacked number in the order; no NaN has one. -/
def FVal.units (F : Fmt) : FVal → Int
  | .nan _ => 0
  | .zero _ => 0
  | .inf n => signed n (F.units F.infBits)
  | .fin n m e => signed n (m * 2 ^ (e - (1 - F.bias - F.fb)).toNat)

/-- An unpacked number of the format: a finite one lies on the grid of the denormals, below infinity. -/
def FVal.Within (F : Fmt) : FVal → Prop
  | .nan _ => False
  | .fin _ m e => 0 < m ∧ 1 - F.bias - F.fb ≤ e ∧ m * 2 ^ (e - (1 - F.bias - F.fb)).toNat < F.units F.infBits
  | _ => True

theorem signed_lt_zero {n : Bool} {m : Nat} (pos : 0 < m) : signed n m < 0 ↔ n = true := by
  unfold signed
  cases n <;> simp
  omega

theorem zero_lt_signed {n : Bool} {m : Nat} (pos : 0 < m) : 0 < signed n m ↔ (!n) = true := by
  unfold signed
  cases n <;> simp
  omega

/-- A signed bound against what lies between the bounds. -/
theorem signed_bound_lt {n : Bool} {m : Nat} {u : Int} (above : u < m) (below : -(m : Int) < u) : signed n m < u ↔ n = true := by
  unfold signed
  cases n <;> simp <;> omega

theorem lt_signed_bound {n : Bool} {m : Nat} {u : Int} (above : u < m) (below : -(m : Int) < u) : u < signed n m ↔ (!n) = true := by
  unfold signed
  cases n <;> simp <;> omega

theorem signed_not (n : Bool) (m : Nat) : signed (!n) m = -signed n m := by cases n <;> simp [signed]

theorem signed_mul (n : Bool) (m k : Nat) : signed n (m * k) = signed n m * (k : Nat) := by cases n <;> simp [signed]

/-- Two finite numbers on the grid compare as their units. -/
theorem addExact_neg {base e1 e2 : Int} (h1 : base ≤ e1) (h2 : base ≤ e2) (n1 n2 : Bool) (m1 m2 : Nat) :
    (addExact n1 m1 e1 (!n2) m2 e2).1 < 0 ↔ signed n1 (m1 * 2 ^ (e1 - base).toNat) < signed n2 (m2 * 2 ^ (e2 - base).toNat) := by
  have scale : (0 : Int) < (2 ^ (min e1 e2 - base).toNat : Nat) := by exact_mod_cast Nat.two_pow_pos _
  have shift : ∀ {e}, min e1 e2 ≤ e → (2 ^ (e - base).toNat : Nat) = 2 ^ (e - min e1 e2).toNat * 2 ^ (min e1 e2 - base).toNat := fun {e} le => by
    rw [← Nat.pow_add]
    congr 1
    omega
  rw [shift (min_le_left ..), shift (min_le_right ..), ← Nat.mul_assoc, ← Nat.mul_assoc, signed_mul n1 _ (2 ^ (min e1 e2 - base).toNat),
    signed_mul n2 _ (2 ^ (min e1 e2 - base).toNat), mul_lt_mul_iff_of_pos_right scale, signed_mul, signed_mul, addExact, signed_not]
  dsimp only
  rw [Int.neg_mul]
  omega

theorem ltV_iff {F : Fmt} (top : 0 < F.units F.infBits) {v w : FVal} (hv : v.Within F) (hw : w.Within F) : ltV v w = true ↔ v.units F < w.units F := by
  have big : ∀ {n m e}, (FVal.fin n m e).Within F → signed n (m * 2 ^ (e - (1 - F.bias - F.fb)).toNat) < F.units F.infBits ∧
      -(F.units F.infBits : Int) < signed n (m * 2 ^ (e - (1 - F.bias - F.fb)).toNat) ∧ 0 < m * 2 ^ (e - (1 - F.bias - F.fb)).toNat := by
    intro n m e within
    obtain ⟨pos, -, below⟩ := within
    have here := Nat.mul_pos pos (Nat.two_pow_pos (e - (1 - F.bias - F.fb)).toNat)
    cases n <;> simp only [signed, if_true, Bool.false_eq_true, if_false] <;> omega
  cases v with
  | nan => exact hv.elim
  | inf n1 =>
    cases w with
    | nan => exact hw.elim
    | inf n2 => 
      cases n1 <;> cases n2 <;> simp [ltV, FVal.units, signed]
      omega
    | zero n2 => exact (signed_lt_zero top).symm
    | fin n2 m2 e2 => exact (signed_bound_lt (big hw).1 (big hw).2.1).symm
  | zero n1 =>
    cases w with
    | nan => exact hw.elim
    | inf n2 => exact (zero_lt_signed top).symm
    | zero n2 => simp [ltV, FVal.units]
    | fin n2 m2 e2 => exact (zero_lt_signed (big hw).2.2).symm
  | fin n1 m1 e1 =>
    cases w with
    | nan => exact hw.elim
    | inf n2 => exact (lt_signed_bound (big hv).1 (big hv).2.1).symm
    | zero n2 => exact (signed_lt_zero (big hv).2.2).symm
    | fin n2 m2 e2 => rw [ltV, decide_eq_true_eq]; exact addExact_neg hv.2.1 hw.2.1 n1 n2 m1 m2

/-! ### Patterns -/

section Pattern

variable {F : Fmt} {ftz : Bool} {x : Nat}

/-- The sign, exponent and fraction of a pattern from its sign and magnitude. -/
theorem exponent_eq (F : Fmt) (x : Nat) : x / 2 ^ F.fb % 2 ^ F.eb = x % F.signBit / 2 ^ F.fb := by
  rw [Fmt.signBit, Nat.add_comm, Nat.pow_add, Nat.mod_mul_right_div_self]

theorem fraction_eq (F : Fmt) (x : Nat) : x % 2 ^ F.fb = x % F.signBit % 2 ^ F.fb := by
  rw [Fmt.signBit, Nat.add_comm, Nat.pow_add, Nat.mod_mul_right_mod]

/-- The magnitude that an instruction takes a pattern for (R82). -/
def Fmt.magnitude (F : Fmt) (ftz : Bool) (x : Nat) : Nat := if ftz = true ∧ x % F.signBit < 2 ^ F.fb then 0 else x % F.signBit

theorem fpOrder_eq (F : Fmt) (ftz : Bool) (x : Nat) : fpOrder F ftz x = signed (x / F.signBit % 2 == 1) (F.magnitude ftz x) := by
  unfold fpOrder Fmt.magnitude signed
  by_cases neg : x / F.signBit % 2 = 1 <;> by_cases tiny : ftz = true ∧ x % F.signBit < 2 ^ F.fb <;> simp [neg, tiny]

theorem signedUnits_signed (F : Fmt) (n : Bool) (mag : Nat) : F.signedUnits (signed n mag) = signed n (F.units mag) := by
  have zero := F.units_zero
  unfold Fmt.signedUnits signed
  cases n with
  | false => rw [if_neg (by simp)]; simp
  | true =>
    by_cases none : mag = 0
    · subst none; simp
    · rw [if_pos (by simp; omega)]; simp

/-- A magnitude is that of a NaN where the exponent is the largest and the fraction is not 0. -/
theorem fpIsNan_iff (F : Fmt) (x : Nat) : fpIsNan F x ↔ x / 2 ^ F.fb % 2 ^ F.eb = 2 ^ F.eb - 1 ∧ x % 2 ^ F.fb ≠ 0 := by
  have pos := Nat.two_pow_pos F.fb
  have room := Nat.mod_lt (x / 2 ^ F.fb) (Nat.two_pow_pos F.eb)
  have low := Nat.mod_lt (x % F.signBit) pos
  have parts := Nat.div_add_mod (x % F.signBit) (2 ^ F.fb)
  rw [fpIsNan, Fmt.infBits, exponent_eq, fraction_eq]
  rw [exponent_eq] at room
  generalize x % F.signBit / 2 ^ F.fb = ex at *
  generalize x % F.signBit % 2 ^ F.fb = fr at *
  rw [Nat.mul_comm] at parts
  rw [← parts]
  replace room : ex ≤ 2 ^ F.eb - 1 := by omega
  generalize 2 ^ F.eb - 1 = top at *
  constructor
  · intro above
    have full : ex = top := by
      by_contra other
      have : (ex + 1) * 2 ^ F.fb ≤ top * 2 ^ F.fb := Nat.mul_le_mul_right _ (by omega)
      rw [Nat.succ_mul] at this
      omega
    subst full
    exact ⟨rfl, by omega⟩
  · rintro ⟨rfl, some_⟩
    omega

theorem unpack_isNan (F : Fmt) (ftz : Bool) (x : Nat) : (unpack F ftz x).isNan = true ↔ fpIsNan F x := by
  rw [fpIsNan_iff]
  unfold unpack
  dsimp only
  split
  · split <;> simp_all [FVal.isNan]
  · split
    · split <;> simp_all [FVal.isNan]
    · simp_all [FVal.isNan]

/-- What a number unpacks to lies on the grid, at the place of its sign and magnitude. -/
theorem unpack_units (wide : 1 ≤ F.eb) (number : ¬ fpIsNan F x) :
    (unpack F ftz x).Within F ∧ (unpack F ftz x).units F = signed (x / F.signBit % 2 == 1) (F.units (F.magnitude ftz x)) := by
  have pos := Nat.two_pow_pos F.fb
  have finite : x % F.signBit ≠ F.infBits → F.units (x % F.signBit) < F.units F.infBits := fun other =>
    F.units_strictMono (lt_of_le_of_ne (not_lt.1 number) other)
  have parts := Nat.div_add_mod (x % F.signBit) (2 ^ F.fb)
  have low := Nat.mod_lt (x % F.signBit) pos
  have largest : F.infBits = 2 ^ F.fb * (2 ^ F.eb - 1) := Nat.mul_comm ..
  have infinite : x % F.signBit = F.infBits → x % F.signBit / 2 ^ F.fb = 2 ^ F.eb - 1 := fun same => by
    rw [same, largest, Nat.mul_div_cancel_left _ pos]
  rw [fpIsNan_iff] at number
  unfold unpack Fmt.magnitude
  dsimp only
  rw [exponent_eq F x, fraction_eq F x] at number ⊢
  have units : F.units (x % F.signBit) = if x % F.signBit / 2 ^ F.fb = 0 then x % F.signBit % 2 ^ F.fb
    else (2 ^ F.fb + x % F.signBit % 2 ^ F.fb) * 2 ^ (x % F.signBit / 2 ^ F.fb - 1) := rfl
  have tiny : x % F.signBit < 2 ^ F.fb ↔ x % F.signBit / 2 ^ F.fb = 0 := (Nat.div_eq_zero_iff_lt pos).symm
  have some_ : 2 ^ F.eb - 1 ≠ 0 := by
    have : 2 ^ 1 ≤ 2 ^ F.eb := Nat.pow_le_pow_right (by decide) wide
    omega
  simp only [tiny]
  generalize x % F.signBit / 2 ^ F.fb = ex at *
  generalize x % F.signBit % 2 ^ F.fb = fr at *
  generalize (x / F.signBit % 2 == 1) = neg at *
  split
  case isTrue top =>
    have whole : fr = 0 := by
      by_contra other
      exact number ⟨top, other⟩
    subst whole top
    rw [if_pos rfl, if_neg (by simp [some_]), ← parts, ← largest]
    exact ⟨trivial, rfl⟩
  case isFalse top =>
    have below := finite fun same => top (infinite same)
    rw [units] at below
    split
    case isTrue zero =>
      rw [if_pos zero] at below
      have place : (1 - F.bias - (F.fb : Int) - (1 - F.bias - (F.fb : Int))).toNat = 0 := by rw [Int.sub_self]; rfl
      by_cases none : fr = 0 ∨ ftz = true
      · rw [if_pos (by simpa using none)]
        have nothing : F.units (if ftz = true ∧ ex = 0 then 0 else x % F.signBit) = 0 := by
          split
          case isTrue => exact F.units_zero
          case isFalse keep => rw [units, if_pos zero, none.resolve_right fun flush => keep ⟨flush, zero⟩]
        rw [nothing]
        exact ⟨trivial, by cases neg <;> rfl⟩
      · obtain ⟨some_, keep⟩ := not_or.1 none
        rw [if_neg (by simp [some_, keep]), if_neg (by simp [keep]), units, if_pos zero]
        simp only [FVal.Within, FVal.units, place, Nat.pow_zero, Nat.mul_one]
        exact ⟨⟨by omega, le_rfl, below⟩, trivial⟩
    case isFalse normal =>
      rw [if_neg normal] at below
      have place : ((ex : Int) - F.bias - (F.fb : Int) - (1 - F.bias - (F.fb : Int))).toNat = ex - 1 := by omega
      rw [if_neg (by simp [normal]), units, if_neg normal]
      simp only [FVal.Within, FVal.units, place]
      exact ⟨⟨by omega, by omega, below⟩, trivial⟩

/-- No NaN is below another value, and none is above one. -/
theorem ltV_of_nan {v w : FVal} (un : v.isNan = true ∨ w.isNan = true) : ltV v w = false := by
  cases v <;> cases w <;> simp_all [FVal.isNan, ltV]

variable {a b : Nat} (wide : 1 ≤ F.eb)

include wide

theorem ltV_unpack (numberA : ¬ fpIsNan F a) (numberB : ¬ fpIsNan F b) :
    ltV (unpack F ftz a) (unpack F ftz b) = true ↔ fpOrder F ftz a < fpOrder F ftz b := by
  obtain ⟨withinA, unitsA⟩ := unpack_units (ftz := ftz) wide numberA
  obtain ⟨withinB, unitsB⟩ := unpack_units (ftz := ftz) wide numberB
  have large : 2 ^ 1 ≤ 2 ^ F.eb := Nat.pow_le_pow_right (by decide) wide
  have top : F.units 0 < F.units F.infBits := F.units_strictMono (Nat.mul_pos (by omega) (Nat.two_pow_pos F.fb))
  rw [F.units_zero] at top
  rw [ltV_iff top withinA withinB, unitsA, unitsB, ← signedUnits_signed, ← signedUnits_signed, F.signedUnits_strictMono.lt_iff_lt, fpOrder_eq, fpOrder_eq]

theorem eqV_unpack (numberA : ¬ fpIsNan F a) (numberB : ¬ fpIsNan F b) :
    eqV (unpack F ftz a) (unpack F ftz b) = true ↔ fpOrder F ftz a = fpOrder F ftz b := by
  have nanA : (unpack F ftz a).isNan = false := by simpa using (unpack_isNan F ftz a).not.2 numberA
  have nanB : (unpack F ftz b).isNan = false := by simpa using (unpack_isNan F ftz b).not.2 numberB
  have below := ltV_unpack (ftz := ftz) wide numberA numberB
  have above := ltV_unpack (ftz := ftz) wide numberB numberA
  simp only [eqV, nanA, nanB, Bool.not_false, Bool.true_and, Bool.and_eq_true, Bool.not_eq_true']
  rw [← Bool.not_eq_true, ← Bool.not_eq_true, below, above]
  omega

/-- The comparisons of R189. -/
theorem fCmp_iff {cc : Nat} (small : cc < 8) : fCmp F ftz cc a b = true ↔ fpCondition F ftz cc a b := by
  have un : ((unpack F ftz a).isNan || (unpack F ftz b).isNan) = true ↔ fpIsNan F a ∨ fpIsNan F b := by
    rw [Bool.or_eq_true, unpack_isNan, unpack_isNan]
  unfold fCmp fpCondition
  by_cases none : fpIsNan F a ∨ fpIsNan F b
  case pos =>
    have either : (unpack F ftz a).isNan = true ∨ (unpack F ftz b).isNan = true := by simpa using un.2 none
    have below := ltV_of_nan either
    have above := ltV_of_nan either.symm
    have equal : eqV (unpack F ftz a) (unpack F ftz b) = false := by
      unfold eqV
      rcases either with h | h <;> simp [h]
    interval_cases cc <;> simp [un.2 none, none, below, above, equal]
  case neg =>
    obtain ⟨numberA, numberB⟩ := not_or.1 none
    have neither : ((unpack F ftz a).isNan || (unpack F ftz b).isNan) = false := by simpa using un.not.2 none
    have below := ltV_unpack (ftz := ftz) wide numberA numberB
    have above := ltV_unpack (ftz := ftz) wide numberB numberA
    have equal := eqV_unpack (ftz := ftz) wide numberA numberB
    have differs : eqV (unpack F ftz a) (unpack F ftz b) = false ↔ ¬ fpOrder F ftz a = fpOrder F ftz b := by rw [← equal, Bool.not_eq_true]
    have atMost : fpOrder F ftz a < fpOrder F ftz b ∨ fpOrder F ftz a = fpOrder F ftz b ↔ fpOrder F ftz a ≤ fpOrder F ftz b := le_iff_lt_or_eq.symm
    have atLeast : fpOrder F ftz b < fpOrder F ftz a ∨ fpOrder F ftz a = fpOrder F ftz b ↔ fpOrder F ftz b ≤ fpOrder F ftz a := by omega
    interval_cases cc <;> simp [neither, none, below, above, equal, differs, atMost, atLeast, intCondition]

end Pattern

end Sys2Proof.Machine
end

section
/-! SUPPORT. O7: groups 2 and 3 compute element by element (R79, R187 to R193). -/

namespace Sys2Proof.Machine

open Sys2Proof

/-- The instructions that compute elements are those of `floatMns`. -/
theorem fpElement_mem {m : Mn} {F : Fmt} {rm : Nat} {ftz : Bool} {ext a b d r : Nat} (h : fpElement m F rm ftz ext a b d = some r) : m ∈ floatMns := by
  unfold fpElement at h
  split at h
  case h_25 => cases h
  all_goals decide

/-- Their types are the floating-point ones, and D is a vector or a uniform register (R186, R193). -/
theorem floatMns_types : ∀ m ∈ floatMns, (∀ t ∈ m.row.types, t.kind = .float) ∧ ∀ cls ∈ m.row.d, cls = .v ∨ cls = .s := by decide

/-- A floating-point value takes at most two rows, and its elements lie in them. -/
theorem float_rows {t : Ty} (float : t.kind = .float) : 32 * t.rows ≤ 64 := by
  revert float
  cases t <;> decide

theorem fpElements_room {t : Ty} (float : t.kind = .float) {n el : Nat} (room : 32 * t.rows ≤ n) (inside : el < fpElements t) :
    fpWidth t * el + fpWidth t ≤ n := by
  have whole : fpWidth t * fpElements t ≤ 32 * t.rows := by
    revert float
    cases t <;> decide
  have : fpWidth t * (el + 1) ≤ fpWidth t * fpElements t := Nat.mul_le_mul_left _ inside
  rw [Nat.mul_succ] at this
  omega

section Elements

variable {s : State} {m : Mn} {f : Fields} {x k : Nat} {c : Crew} {sp : Split} {t : Ty} {res : Nat → Nat → Nat}
variable (hs : Settled c sp) (sel : f.sel = .ty t) (float : t.kind = .float)

theorem issueOf_rm (hs : Settled c sp) : (issueOf s m f x k c sp).rm = rmode sp.fmt := by rw [Issue.rm, issueOf_sp hs]
theorem issueOf_ftz (hs : Settled c sp) : (issueOf s m f x k c sp).ftz = ftzBit sp.fmt := by rw [Issue.ftz, issueOf_sp hs]

/-- The whole value of a source of a single or double type is its one element. -/
theorem fpSrc_zero (float : t.kind = .float) (whole : isHalf t = false) (o : Operand) (l : Nat) : fpSrc c sp t o l 0 = operandVal c sp.wbase t true o l := by
  rw [fpSrc, fpWidth_whole whole, elem_zero, Nat.mod_eq_of_lt (operandVal_float_lt float whole ..)]

theorem fpSrc_half (half : isHalf t = true) (o : Operand) (l el : Nat) : fpSrc c sp t o l el = elem (operandVal c sp.wbase t true o l) 16 el := by
  rw [fpSrc, fpWidth_half half]

include hs sel float

/-- An operation on one source element gives the elements of D. -/
theorem fp1_joined {op : Fmt → Nat → Nat} (each : ∀ l el, op (fmtOf t) (fpSrc c sp t f.a l el) = res l el) :
    (issueOf s m f x k c sp).fp1 op = (issueOf s m f x k c sp).putD t.rows fun l => fpJoined t (res l) := by
  unfold Issue.fp1 onElems fpJoined
  rw [issueOf_ty sel]
  congr 1
  funext l
  rw [Issue.a, issueOf_ca hs, issueOf_sp hs, issueOf_f]
  cases half : isHalf t with
  | true => simp only [if_true, ← each, fpSrc_half half]
  | false => simp only [Bool.false_eq_true, if_false, ← each, fpSrc_zero float half]

theorem fp2_joined {op : Fmt → Nat → Nat → Nat} (each : ∀ l el, op (fmtOf t) (fpSrc c sp t f.a l el) (fpSrc c sp t f.b l el) = res l el) :
    (issueOf s m f x k c sp).fp2 op = (issueOf s m f x k c sp).putD t.rows fun l => fpJoined t (res l) := by
  unfold Issue.fp2 onElems2 fpJoined
  rw [issueOf_ty sel]
  congr 1
  funext l
  rw [Issue.a, Issue.b, issueOf_ca hs, issueOf_cb hs, issueOf_sp hs, issueOf_f]
  cases half : isHalf t with
  | true => simp only [if_true, ← each, fpSrc_half half]
  | false => simp only [Bool.false_eq_true, if_false, ← each, fpSrc_zero float half]

theorem fp3_joined {op : Fmt → Nat → Nat → Nat → Nat}
    (each : ∀ l el, op (fmtOf t) (fpSrc c sp t f.a l el) (fpSrc c sp t f.b l el) (fpSrc c sp t f.d l el) = res l el) :
    (issueOf s m f x k c sp).fp3 op = (issueOf s m f x k c sp).putD t.rows fun l => fpJoined t (res l) := by
  unfold Issue.fp3 onElems3 fpJoined
  rw [issueOf_ty sel]
  congr 1
  funext l
  rw [Issue.a, Issue.b, Issue.dv, issueOf_ca hs, issueOf_cb hs, issueOf_c hs, issueOf_sp hs, issueOf_f]
  cases half : isHalf t with
  | true => simp only [if_true, ← each, fpSrc_half half]
  | false => simp only [Bool.false_eq_true, if_false, ← each, fpSrc_zero float half]

omit sel in
/-- D holds the elements of the results. -/
theorem fpRetires (h : s.Executes m f x k c sp) (mem : m ∈ floatMns) (rows : 8 ≤ c.wrows) {out : Issue → RegOut} (he : exec (m.instr f) s = regStep m f s out)
    (joined : out (issueOf s m f x k c sp) = (issueOf s m f x k c sp).putD t.rows fun l => fpJoined t (res l)) :
    RetiresWith s m f x k c sp fun c' => match f.d with
      | .v idx .. => ∀ l ∈ lanesOf (runLanes s m f x k c sp) c.width, ∀ el, el < fpElements t →
          elem (c'.rowsVal sp.wbase idx.toNat t.rows l) (fpWidth t) el = res l el % 2 ^ fpWidth t
      | .s r => r.toNat ≠ 0 → ∀ l, lowest (runLanes s m f x k c sp) c.width = some l → ∀ el, el < fpElements t →
          elem (c'.uni r.toNat).toNat (fpWidth t) el = res l el % 2 ^ fpWidth t
      | _ => False := by
  have few := rows_le t
  refine regStep_retires h hs he (by rw [joined]; exact Issue.putD_fmt ..) fun d regs => ?_
  rw [joined] at regs
  have holds := Issue.putD_destHolds regs rfl (by rw [issueOf_c hs]; omega)
  rw [issueOf_c hs, issueOf_sp hs] at holds
  have cls := (floatMns_types m mem).2 _ h.dClass
  cases hD : f.d with
  | v idx swz abs neg =>
    simp only [DestHolds, issueOf_f, hD] at holds
    intro l hl el inside
    rw [holds l hl, elem_mod (fpElements_room float le_rfl inside), elem_fpJoined _ inside]
  | s r =>
    simp only [DestHolds, issueOf_f, hD] at holds
    intro nonzero l hl el inside
    rw [holds nonzero l hl, elem_mod (fpElements_room float (float_rows float) inside), elem_fpJoined _ inside]
  | _ => simp [hD, Operand.cls] at cls

end Elements

/-! ### The instructions -/

/-- `frnd` has no bit of EXT above RM (R191). -/
theorem frndMode_eq : ∀ e : BitVec 5, e.toNat &&& 24 = 0 → e.toNat % 8 = e.toNat := by decide

/-- What each instruction computes in D. -/
theorem fpOut_joined {s : State} {m : Mn} {f : Fields} {x k : Nat} {c : Crew} {sp : Split} {t : Ty} {res : Nat → Nat → Nat}
    (h : s.Executes m f x k c sp) (hs : Settled c sp) (sel : f.sel = .ty t) (float : t.kind = .float) (mem : m ∈ floatMns)
    (each : ∀ l el, fpElement m (fmtOf t) (rmode sp.fmt) (ftzBit sp.fmt) f.ext.toNat (fpSrc c sp t f.a l el) (fpSrc c sp t f.b l el)
      (fpSrc c sp t f.d l el) = some (res l el)) :
    ∃ out, exec (m.instr f) s = regStep m f s out ∧
      out (issueOf s m f x k c sp) = (issueOf s m f x k c sp).putD t.rows fun l => fpJoined t (res l) := by
  have value := fun l el => (congrArg (·.getD 0) (each l el)).trans rfl
  simp only [← issueOf_rm (s := s) (m := m) (f := f) (x := x) (k := k) hs, ← issueOf_ftz (s := s) (m := m) (f := f) (x := x) (k := k) hs] at value
  have sources : m ∈ [Mn.fma, .dfma] ∨ m ∈ [Mn.fadd, .fsub, .fmul, .fmin, .fmax, .fdiv, .dadd, .dsub, .dmul, .dmin, .dmax, .ddiv] ∨
      m ∈ [Mn.fsqrt, .frcp, .frsq, .fexp2, .flog2, .fsin, .fcos, .fclass, .dsqrt] ∨ m = .frnd := by
    revert mem
    clear h each value
    revert m
    decide
  rcases sources with three | two | one | rfl
  · simp only [List.mem_cons, List.not_mem_nil, or_false] at three
    rcases three with rfl | rfl
    all_goals exact ⟨_, rfl, fp3_joined hs sel float value⟩
  · simp only [List.mem_cons, List.not_mem_nil, or_false] at two
    rcases two with rfl | rfl | rfl | rfl | rfl | rfl | rfl | rfl | rfl | rfl | rfl | rfl
    all_goals exact ⟨_, rfl, fp2_joined hs sel float value⟩
  · simp only [List.mem_cons, List.not_mem_nil, or_false] at one
    rcases one with rfl | rfl | rfl | rfl | rfl | rfl | rfl | rfl | rfl
    all_goals exact ⟨_, rfl, fp1_joined hs sel float value⟩
  · refine ⟨_, rfl, fp1_joined hs sel float fun l el => Eq.trans ?_ (value l el)⟩
    rw [frndMode, issueOf_f, frndMode_eq f.ext h.extBits]
    rfl

/-! ### Comparisons -/

theorem hasLane_laneSet {ls : List Nat} {l : Nat} (small : l < 128) (lanes : ∀ j ∈ ls, j < 128) : hasLane (laneSet ls) l = decide (l ∈ ls) := by
  induction ls with
  | nil => simp [laneSet, hasLane]
  | cons j ls ih =>
    have one : (lane1 j).getLsbD l = decide (l = j) := by
      rw [lane1, BitVec.getLsbD_ofNat, Nat.testBit_two_pow, decide_eq_true small, Bool.true_and]
      exact decide_eq_decide.2 eq_comm
    have rest := ih fun i hi => lanes i (List.mem_cons_of_mem _ hi)
    unfold hasLane at rest ⊢
    rw [laneSet, BitVec.getLsbD_or, one, rest, ← Bool.decide_or]
    exact decide_eq_decide.2 List.mem_cons.symm

/-- A predicate D after a condition: `p0` as it was, any other one with the condition in the lanes that take effect (R33). -/
theorem Issue.putP_holds {i : Issue} {c d : Crew} {y : Nat → Bool} (h : SameRegs d (c.putOut (i.putP y))) {n : BitVec 3} {neg : Bool} (hD : i.f.d = .p n neg) :
    if n.toNat = 0 then ∀ l, d.pred 0 l = c.pred 0 l else ∀ l ∈ i.lanes, d.pred n.toNat l = y l := by
  have width : d.width = c.width := by rw [h.width, Crew.putOut_frame]; rfl
  split
  case isTrue zero =>
    intro l
    rw [Crew.pred, Crew.pred, Crew.predSet, Crew.predSet, if_pos rfl, if_pos rfl, width]
  case isFalse nonzero =>
    intro l hl
    obtain ⟨small, runs, -⟩ := lanesOf_lt hl
    have lanes : ∀ j ∈ i.lanes.filter y, j < 128 := fun j hj => (lanesOf_lt (List.mem_filter.1 hj).1).1
    rw [Crew.pred, Crew.predSet_of_p h.p h.width, Issue.putP_pred i c y hD nonzero]
    have chosen := hasLane_laneSet small lanes
    unfold hasLane at runs chosen ⊢
    rw [BitVec.getLsbD_or, BitVec.getLsbD_and, BitVec.getLsbD_and, BitVec.getLsbD_not, runs, chosen]
    simp [hl]

/-- `dcmp` has no bit of EXT above CC (R193). -/
theorem lowElement : ∀ e : BitVec 5, e.toNat &&& 24 = 0 → e.toNat / 8 % 2 = 0 := by decide

theorem Operand.eq_p {o : Operand} (h : o.cls = .p) : ∃ n neg, o = .p n neg := by cases o <;> simp [Operand.cls] at h ⊢

@[simp] theorem Issue.putP_fmt (i : Issue) (y : Nat → Bool) : (i.putP y).fmt = none := by
  unfold Issue.putP
  split <;> rfl

/-- The element that EL names is one of the type's (R189). -/
theorem comparedElement {s : State} {m : Mn} {f : Fields} {x k : Nat} {c : Crew} {sp : Split} {t : Ty} (h : s.Executes m f x k c sp) (sel : f.sel = .ty t)
    (forms : m = .fcmp ∨ m = .dcmp) : f.ext.toNat / 8 % 2 < fpElements t ∧ (m = .dcmp → f.ext.toNat / 8 % 2 = 0) := by
  have types := h.type sel
  have special := h.special
  have bits := h.extBits
  rcases forms with rfl | rfl
  · refine ⟨?_, fun other => by cases other⟩
    simp only [Mn.row, List.mem_cons, List.not_mem_nil, or_false] at types
    rcases types with rfl | rfl | rfl
    · simp [specialOk, sel] at special
      rw [show fpElements .f32 = 1 from rfl]
      omega
    · exact Nat.mod_lt _ (by decide)
    · exact Nat.mod_lt _ (by decide)
  · have none := lowElement f.ext bits
    simp only [Mn.row, List.mem_cons, List.not_mem_nil, or_false] at types
    subst types
    exact ⟨by rw [none]; decide, fun _ => none⟩

/-- The comparison of elements is that of R189. -/
theorem fcmpCond_iff {c : Crew} {sp : Split} {t : Ty} (float : t.kind = .float) {el cc : Nat} (inside : el < fpElements t) (small : cc < 8) (ftz : Bool)
    (a b : Operand) (l : Nat) : fcmpCond t ftz cc el (operandVal c sp.wbase t true a l) (operandVal c sp.wbase t true b l) = true ↔
      fpCondition (fmtOf t) ftz cc (fpSrc c sp t a l el) (fpSrc c sp t b l el) := by
  have wide : 1 ≤ (fmtOf t).eb := by cases t <;> decide
  unfold fcmpCond
  cases half : isHalf t with
  | true => rw [if_pos rfl, fCmp_iff wide small, fpSrc_half half, fpSrc_half half]
  | false =>
    rw [fpElements_whole half] at inside
    obtain rfl : el = 0 := by omega
    rw [if_neg (by decide), fCmp_iff wide small, fpSrc_zero float half, fpSrc_zero float half]

/-- What `fcmp` and `dcmp` compare, and where they put it. -/
theorem comparison_out {s : State} {m : Mn} {f : Fields} {x k : Nat} {c : Crew} {sp : Split} {t : Ty}
    (h : s.Executes m f x k c sp) (hs : Settled c sp) (sel : f.sel = .ty t) (forms : m = .fcmp ∨ m = .dcmp) :
    ∃ out y, exec (m.instr f) s = regStep m f s out ∧ out (issueOf s m f x k c sp) = (issueOf s m f x k c sp).putP y ∧
      ∀ l, y l = true ↔ fpCondition (fmtOf t) (ftzBit sp.fmt) (f.ext.toNat % 8) (fpSrc c sp t f.a l (f.ext.toNat / 8 % 2))
        (fpSrc c sp t f.b l (f.ext.toNat / 8 % 2)) := by
  have float : t.kind = .float := by
    have types : ∀ m ∈ [Mn.fcmp, .dcmp], ∀ t ∈ m.row.types, t.kind = .float := by decide
    exact types m (by simpa using forms) t (h.type sel)
  obtain ⟨inside, first⟩ := comparedElement h sel forms
  have compares := fun l => fcmpCond_iff (c := c) (sp := sp) float inside (Nat.mod_lt f.ext.toNat (by decide : 0 < 8)) (ftzBit sp.fmt) f.a f.b l
  rcases forms with rfl | rfl
  · refine ⟨_, _, rfl, rfl, fun l => ?_⟩
    rw [issueOf_ty sel, issueOf_ftz hs, issueOf_f, Issue.a, Issue.b, issueOf_ca hs, issueOf_cb hs, issueOf_sp hs, issueOf_f]
    exact compares l
  · refine ⟨_, _, rfl, rfl, fun l => ?_⟩
    rw [first rfl] at compares ⊢
    rw [issueOf_ty sel, issueOf_ftz hs, issueOf_f, Issue.a, Issue.b, issueOf_ca hs, issueOf_cb hs, issueOf_sp hs, issueOf_f]
    exact compares l

end Sys2Proof.Machine

namespace Sys2Proof

open Machine

/-- Settles O7: D takes the results element by element (`fpOut_joined`), and a predicate D the order of sign and magnitude (`fCmp_iff`). -/
theorem floatingPointResults : Obligations.FloatingPointResults := by
  refine ⟨fun m f t s x k c sp res h hs rows sel each => ?_, fun m f t s x k c sp forms h hs rows sel => ?_⟩
  · have mem := fpElement_mem (each 0 0)
    have float := (floatMns_types m mem).1 t (h.type sel)
    obtain ⟨out, he, joined⟩ := fpOut_joined h hs sel float mem each
    exact fpRetires hs float h mem rows he joined
  · obtain ⟨out, y, he, put, compares⟩ := comparison_out h hs sel forms
    obtain ⟨n, neg, hD⟩ := Operand.eq_p (show f.d.cls = .p by rcases forms with rfl | rfl <;> simpa [Mn.row] using h.dClass)
    refine regStep_retires h hs he (by rw [put]; exact Issue.putP_fmt ..) fun d regs => ?_
    rw [put, issueOf_c hs] at regs
    have holds := Issue.putP_holds regs (n := n) (neg := neg) hD
    rw [Issue.lanes, issueOf_c hs] at holds
    simp only [hD, ← compares]
    split
    case isTrue zero => rwa [if_pos zero] at holds
    case isFalse nonzero =>
      rw [if_neg nonzero] at holds
      exact fun l hl => by rw [holds l hl]

end Sys2Proof
end

section
/-! SUPPORT. O8: conversions of single values between types (R77, R87, R195 to R197). -/

namespace Sys2Proof.Machine

open Sys2Proof

/-! ### Patterns longer than their format -/

theorem fmtOf_width {t : Ty} (float : t.kind = .float) : (fmtOf t).width = t.bits := by
  revert float
  cases t <;> decide

/-- Only the bits of the format count. -/
theorem unpack_mod (F : Fmt) (ftz : Bool) (x : Nat) : unpack F ftz (x % 2 ^ F.width) = unpack F ftz x := by
  have power : 2 ^ F.width = F.signBit * 2 := by rw [Fmt.width, Fmt.signBit, ← Nat.pow_succ]; congr 1; omega
  have mag : x % 2 ^ F.width % F.signBit = x % F.signBit := by rw [power, Nat.mod_mul_right_mod]
  have sign : x % 2 ^ F.width / F.signBit % 2 = x / F.signBit % 2 := by rw [power, Nat.mod_mul_right_div_self, Nat.mod_mod]
  unfold unpack
  rw [sign, exponent_eq F (x % 2 ^ F.width), fraction_eq F (x % 2 ^ F.width), mag, ← exponent_eq, ← fraction_eq]

/-- The flush leaves infinities and NaNs as they are. -/
theorem unpack_of_special {F : Fmt} {x : Nat} (ftz : Bool) (special : (∃ q, unpack F false x = .nan q) ∨ ∃ n, unpack F false x = .inf n) :
    unpack F ftz x = unpack F false x := by
  unfold unpack at *
  dsimp only at *
  split
  case isTrue => rfl
  case isFalse finite =>
    rw [if_neg finite] at special
    exfalso
    rcases special with ⟨q, h⟩ | ⟨n, h⟩
    all_goals
      split at h
      · split at h <;> cases h
      · cases h

section Sources

variable {c : Crew} {sp : Split} {t : Ty} {o : Operand} {l : Nat}

theorem src_toNat : (src c sp t o l).toNat = operandVal c sp.wbase t false o l % 2 ^ t.bits := BitVec.toNat_ofNat ..

/-- A floating-point source stands for the value that its bits unpack to. -/
theorem unpack_src (float : t.kind = .float) (ftz : Bool) :
    unpack (fmtOf t) ftz (src c sp t o l).toNat = unpack (fmtOf t) ftz (operandVal c sp.wbase t false o l) := by
  rw [src_toNat, ← fmtOf_width float, unpack_mod]

theorem fConv_src (float : t.kind = .float) (G : Fmt) (rm : Nat) (ftz : Bool) :
    fConv (fmtOf t) G rm ftz (src c sp t o l).toNat = fConv (fmtOf t) G rm ftz (operandVal c sp.wbase t false o l) := by
  rw [fConv, fConv, unpack_src float]

theorem fToInt_src (float : t.kind = .float) (rm : Nat) (ftz : Bool) (td : Ty) :
    fToInt (fmtOf t) rm ftz td (src c sp t o l).toNat = fToInt (fmtOf t) rm ftz td (operandVal c sp.wbase t false o l) := by
  rw [fToInt, fToInt, unpack_src float]

end Sources

/-- A number rounded to an integer type: 0 for a NaN, the end of the range for an infinity (R87). -/
theorem ofNat_fToInt {td : Ty} (small : td.bits ≤ 64) (F : Fmt) (rm : Nat) (ftz : Bool) (x : Nat) :
    BitVec.ofNat td.bits (fToInt F rm ftz td x) = match unpack F false x with
      | .nan _ => 0
      | .inf neg => BitVec.ofInt td.bits (if neg then clamped td (-(2 ^ 64)) else clamped td (2 ^ 64))
      | _ => BitVec.ofNat td.bits (fToInt F rm ftz td x) := by
  obtain ⟨top, bottom⟩ := clamped_ends td small
  split
  case h_1 q nan =>
    rw [fToInt, unpack_of_special ftz (.inl ⟨q, nan⟩), nan]
    rfl
  case h_2 neg inf =>
    rw [fToInt, unpack_of_special ftz (.inr ⟨neg, inf⟩), inf]
    dsimp only
    rw [ofNat_trunc, top, bottom]
  case h_3 => rfl

/-! ### cvt -/

theorem isInteger_iff (t : Ty) : isInteger t = true ↔ t.kind = .signed ∨ t.kind = .natural := by simp [isInteger]

/-- The types of `cvt`, in MOD and in EXT, are integers or floating-point (R194, R195). -/
theorem cvt_destTypes : ∀ t ∈ Mn.cvt.row.types, t.bits ≤ 64 ∧ (isInteger t = true ∧ isHalf t = false ∨ isInteger t = false ∧ t.kind = .float) := by decide

theorem cvt_codes {f : Fields} (special : specialOk .cvt f = true) : f.ext.toNat < 8 ∨ 13 ≤ f.ext.toNat ∧ f.ext.toNat ≤ 16 := by
  simp only [specialOk] at special
  split at special
  case h_13 => cases special
  all_goals omega

theorem cvt_sourceType {n : Nat} (codes : n < 8 ∨ 13 ≤ n ∧ n ≤ 16) {t : Ty} (code : tyOfCode n = some t) :
    isInteger t = true ∨ isInteger t = false ∧ t.kind = .float := by
  rcases codes with low | ⟨from_, upTo⟩
  · interval_cases n <;> (cases code; decide)
  · interval_cases n <;> (cases code; decide)

/-- The rounding mode that B names is one of the four (R195). -/
theorem cvtMode_eq (b : Operand) (rm : Nat) :
    immOk b (fun v => 0 ≤ v && v ≤ 3) = true → cvtMode b rm = match b with | .i v => v.toNat | _ => rm := by
  intro ok
  cases b with
  | i v =>
    have range : (decide (0 ≤ v.toInt) && decide (v.toInt ≤ 3)) = true := ok
    rw [Bool.and_eq_true, decide_eq_true_eq, decide_eq_true_eq] at range
    have cond := BitVec.toInt_eq_toNat_cond v
    have small := v.isLt
    have : v.toNat < 4 := by split at cond <;> omega
    exact Nat.mod_eq_of_lt this
  | _ => rfl

section Values

variable {td ts : Ty} (sat : Bool) (rm : Nat) (ftz : Bool) (x : Nat)

theorem cvtVal_int_int (is : isInteger ts = true) (id : isInteger td = true) : cvtVal td ts sat rm ftz x = fit sat td (intVal ts x) := by
  rw [isInteger_iff] at is id
  unfold cvtVal
  rcases is with is | is <;> rcases id with id | id <;> rw [is, id]

theorem cvtVal_float_int (is : ts.kind = .float) (id : isInteger td = true) : cvtVal td ts sat rm ftz x = fToInt (fmtOf ts) rm ftz td x := by
  rw [isInteger_iff] at id
  unfold cvtVal
  rcases id with id | id <;> rw [is, id]

theorem cvtVal_int_float (is : isInteger ts = true) (id : td.kind = .float) : cvtVal td ts sat rm ftz x = fOfInt (fmtOf td) rm ftz (intVal ts x) := by
  rw [isInteger_iff] at is
  unfold cvtVal
  rcases is with is | is <;> rw [is, id]

theorem cvtVal_float_float (is : ts.kind = .float) (id : td.kind = .float) : cvtVal td ts sat rm ftz x = fConv (fmtOf ts) (fmtOf td) rm ftz x := by
  unfold cvtVal
  rw [is, id]

end Values

theorem Operand.eq_v {o : Operand} (h : o.cls = .v) : ∃ idx swz abs neg, o = .v idx swz abs neg := by cases o <;> simp [Operand.cls] at h ⊢

/-- Rows of a class-v D hold a value that agrees with the result in every lane. -/
theorem destHolds_rows {c d : Crew} {sp : Split} {f : Fields} {run : Lanes} {n : Nat} {y y' z z' : Nat → Nat} (h : DestHolds c d sp f run n y z)
    (cls : f.d.cls = .v) (eq : ∀ l ∈ lanesOf run c.width, y l = y' l) : DestHolds c d sp f run n y' z' := by
  unfold DestHolds at *
  cases hD : f.d <;> simp only [hD, Operand.cls, reduceCtorEq] at cls h ⊢
  exact fun l hl => (h l hl).trans (eq l hl)

/-- A floating-point result fills its rows (R76). -/
theorem float_fill {t : Ty} (float : t.kind = .float) (v : Nat) :
    (if isHalf t then v % 2 ^ 32 else extend t v (32 * t.rows)) % 2 ^ (32 * t.rows) = v % 2 ^ (32 * t.rows) := by
  cases half : isHalf t with
  | true =>
    have rows : t.rows = 1 := by rcases (isHalf_iff t).1 half with rfl | rfl <;> rfl
    rw [rows, if_pos rfl]
    exact Nat.mod_mod ..
  | false =>
    have bits : 32 * t.rows = t.bits := by rcases float_whole float half with rfl | rfl <;> rfl
    rw [if_neg (by decide), extend, Ty.isSigned, float, if_neg (by decide), bits, Nat.mod_mod]

section Cvt

variable {s : State} {f : Fields} {x k : Nat} {c d : Crew} {sp : Split} {ts td : Ty}

/-- `cvt` gives the converted value of A. -/
theorem cvtOut_eq (h : s.Executes .cvt f x k c sp) (hs : Settled c sp) (sel : f.sel = .ty td) (code : tyOfCode f.ext.toNat = some ts) :
    cvtOut (issueOf s .cvt f x k c sp) = (issueOf s .cvt f x k c sp).putTy td fun l => cvtVal td ts f.f
      (match f.b with | .i v => v.toNat | _ => rmode sp.fmt) (ftzBit sp.fmt) (operandVal c sp.wbase ts false f.a l) := by
  have source : cvtSource f.ext = ts := by rw [cvtSource, code]
  have mode := cvtMode_eq f.b (rmode sp.fmt) h.specialOperand
  unfold cvtOut
  dsimp only
  rw [issueOf_ty sel, issueOf_f, source, issueOf_rm hs, issueOf_ftz hs, mode]
  congr 1
  funext l
  rw [Issue.a, issueOf_ca hs, issueOf_sp hs, issueOf_f]

/-- `cvt` to an integer type. -/
theorem cvt_toInteger {rm : Nat} {ftz : Bool} (kind : isInteger ts = true ∨ isInteger ts = false ∧ ts.kind = .float) (id : isInteger td = true)
    (small : td.bits ≤ 64) (l : Nat) :
    BitVec.ofNat td.bits (cvtVal td ts f.f rm ftz (operandVal c sp.wbase ts false f.a l)) =
      if isInteger ts then BitVec.ofInt td.bits (if f.f then clamped td (srcInt c sp ts f.a l) else srcInt c sp ts f.a l)
      else match unpack (fmtOf ts) false (src c sp ts f.a l).toNat with
        | .nan _ => 0
        | .inf neg => BitVec.ofInt td.bits (if neg then clamped td (-(2 ^ 64)) else clamped td (2 ^ 64))
        | _ => BitVec.ofNat td.bits (fToInt (fmtOf ts) rm ftz td (src c sp ts f.a l).toNat) := by
  rcases kind with is | ⟨notInt, is⟩
  · rw [if_pos is, cvtVal_int_int _ _ _ _ is id, ofNat_fit, intVal_operand]
  · rw [if_neg (by simp [notInt]), cvtVal_float_int _ _ _ _ is id, ← fToInt_src is]
    exact ofNat_fToInt small ..

/-- `cvt` to a floating-point type. -/
theorem cvt_toFloat {rm : Nat} {ftz : Bool} (kind : isInteger ts = true ∨ isInteger ts = false ∧ ts.kind = .float) (id : td.kind = .float) (l : Nat) :
    cvtVal td ts f.f rm ftz (operandVal c sp.wbase ts false f.a l) = if isInteger ts then fOfInt (fmtOf td) rm ftz (srcInt c sp ts f.a l)
      else fConv (fmtOf ts) (fmtOf td) rm ftz (src c sp ts f.a l).toNat := by
  rcases kind with is | ⟨notInt, is⟩
  · rw [if_pos is, cvtVal_int_float _ _ _ _ is id, intVal_operand]
  · rw [if_neg (by simp [notInt]), cvtVal_float_float _ _ _ _ is id, fConv_src is]

/-- `cvt` retires with the converted value. -/
theorem cvt_retires (h : s.Executes .cvt f x k c sp) (hs : Settled c sp) (rows : 8 ≤ c.wrows) (sel : f.sel = .ty td)
    (code : tyOfCode f.ext.toNat = some ts) :
    RetiresWith s .cvt f x k c sp fun c' =>
      let run := runLanes s .cvt f x k c sp
      let rm := match f.b with | .i v => v.toNat | _ => rmode sp.fmt
      let ftz := ftzBit sp.fmt
      if isInteger td then TypedDest c c' sp f run td fun l =>
        if isInteger ts then BitVec.ofInt td.bits (if f.f then clamped td (srcInt c sp ts f.a l) else srcInt c sp ts f.a l)
        else match unpack (fmtOf ts) false (src c sp ts f.a l).toNat with
          | .nan _ => 0
          | .inf neg => BitVec.ofInt td.bits (if neg then clamped td (-(2 ^ 64)) else clamped td (2 ^ 64))
          | _ => BitVec.ofNat td.bits (fToInt (fmtOf ts) rm ftz td (src c sp ts f.a l).toNat)
      else DestHolds c c' sp f run td.rows (fun l =>
        (if isInteger ts then fOfInt (fmtOf td) rm ftz (srcInt c sp ts f.a l)
        else fConv (fmtOf ts) (fmtOf td) rm ftz (src c sp ts f.a l).toNat) % 2 ^ (32 * td.rows)) fun _ => 0 := by
  obtain ⟨small, kind⟩ := cvt_destTypes td (h.type sel)
  have source := cvt_sourceType (cvt_codes h.special) code
  have few := rows_le td
  refine regStep_retires h hs rfl (by unfold cvtOut; exact Issue.putTy_fmt ..) fun d regs => ?_
  rw [issueOf_c hs, cvtOut_eq h hs sel code] at regs
  dsimp only
  rcases kind with ⟨id, whole⟩ | ⟨notInt, id⟩
  · rw [if_pos id]
    have holds := Issue.putTy_typedDest regs (by rw [issueOf_c hs]) (by rwa [issueOf_c hs]) fun half => by rw [whole] at half; cases half
    rw [issueOf_c hs, issueOf_sp hs] at holds
    exact typedDest_congr holds fun l _ => cvt_toInteger source id small l
  · rw [if_neg (by simp [notInt])]
    have cls : f.d.cls = .v := by simpa [Mn.row] using h.dClass
    obtain ⟨idx, swz, abs, neg, hD⟩ := Operand.eq_v cls
    simp only [Issue.putTy, issueOf_f, hD] at regs
    have holds := Issue.putD_destHolds regs (by rw [issueOf_c hs]) (by rw [issueOf_c hs]; omega)
    rw [issueOf_c hs, issueOf_sp hs] at holds
    exact destHolds_rows holds cls fun l _ => by rw [float_fill id, cvt_toFloat source id]

end Cvt

end Sys2Proof.Machine
end

section
/-! SUPPORT. O8: pack2 and unpack2 (R196, R197). -/

namespace Sys2Proof.Machine

open Sys2Proof

section Pack

variable {s : State} {f : Fields} {x k : Nat} {c d : Crew} {sp : Split} {t : Ty}

/-- Two halves side by side. -/
theorem joinElems_two (n a b : Nat) : joinElems n [a, b] = a % 2 ^ n + 2 ^ n * (b % 2 ^ n) := rfl

theorem joinElems_two_lt (n a b : Nat) : joinElems n [a, b] < 2 ^ (n + n) := by
  have low := Nat.mod_lt a (Nat.two_pow_pos n)
  have high := Nat.mod_lt b (Nat.two_pow_pos n)
  rw [joinElems_two, Nat.pow_add]
  calc a % 2 ^ n + 2 ^ n * (b % 2 ^ n) < 2 ^ n * (b % 2 ^ n + 1) := by rw [Nat.mul_succ]; omega
    _ ≤ 2 ^ n * 2 ^ n := Nat.mul_le_mul_left _ high

/-- The low 16 bits of a value fitted to a 16-bit type. -/
theorem fit_mod (t : Ty) (sat : Bool) (v : Int) : fit sat t v % 2 ^ t.bits = (BitVec.ofInt t.bits (if sat then clamped t v else v)).toNat := by
  rw [← ofNat_fit, BitVec.toNat_ofNat]

/-- One half of `pack2`, by the type (R196). -/
def packedHalf (f : Fields) (t : Ty) (c : Crew) (sp : Split) (o : Operand) (l : Nat) : Nat :=
  match t with
  | .f16 | .bf16 => fConv (fmtOf .f32) (fmtOf t) (rmode sp.fmt) (ftzBit sp.fmt) (src c sp .f32 o l).toNat % 2 ^ 16
  | .s16 | .n16 => (BitVec.ofInt 16 (if f.f then clamped t (src c sp .s32 o l).toInt else (src c sp .s32 o l).toInt)).toNat
  | _ => (src c sp .b32 o l).toNat % 2 ^ 16

theorem packElem_eq (types : t ∈ Mn.pack2.row.types) (o : Operand) (l : Nat) :
    packElem t f.f (rmode sp.fmt) (ftzBit sp.fmt) (operandVal c sp.wbase (packSource t) false o l) % 2 ^ 16 = packedHalf f t c sp o l := by
  have int : sext (operandVal c sp.wbase .s32 false o l) 32 = (src c sp .s32 o l).toInt := sext_eq_toInt (by decide) _
  simp only [Mn.row, List.mem_cons, List.not_mem_nil, or_false] at types
  rcases types with rfl | rfl | rfl | rfl | rfl
  · have low := src_toNat (c := c) (sp := sp) (t := .b32) (o := o) (l := l)
    simp only [packElem, packedHalf, packSource, low]
    rw [Nat.mod_mod, Nat.mod_mod_of_dvd _ (by decide : 2 ^ 16 ∣ 2 ^ Ty.b32.bits)]
  · simp only [packElem, packedHalf, packSource, fConv_src (t := .f32) rfl]
  · simp only [packElem, packedHalf, packSource, fConv_src (t := .f32) rfl]
  · simp only [packElem, packedHalf, packSource, int]
    exact fit_mod .s16 f.f _
  · simp only [packElem, packedHalf, packSource, int]
    exact fit_mod .n16 f.f _

/-- `pack2` retires with the two halves. -/
theorem pack2_retires (h : s.Executes .pack2 f x k c sp) (hs : Settled c sp) (rows : 8 ≤ c.wrows) (sel : f.sel = .ty t) :
    RetiresWith s .pack2 f x k c sp fun c' => DestHolds c c' sp f (runLanes s .pack2 f x k c sp) 1
      (fun l => packedHalf f t c sp f.a l + 2 ^ 16 * packedHalf f t c sp f.b l) fun _ => 0 := by
  refine regStep_retires h hs rfl (by unfold pack2Out; exact Issue.putD_fmt ..) fun d regs => ?_
  have holds := Issue.putD_destHolds regs rfl (by rw [issueOf_c hs]; omega)
  rw [issueOf_c hs, issueOf_sp hs] at holds
  refine destHolds_rows holds (by simpa [Mn.row] using h.dClass) fun l _ => ?_
  rw [Nat.mod_eq_of_lt (joinElems_two_lt 16 _ _), joinElems_two, issueOf_ty sel, issueOf_rm hs, issueOf_ftz hs, issueOf_f, Issue.a, Issue.b, issueOf_ca hs,
    issueOf_cb hs, issueOf_sp hs, issueOf_f, packElem_eq (h.type sel), packElem_eq (h.type sel)]

/-- One row of `unpack2` from a half (R197). -/
def unpackedHalf (t : Ty) (sp : Split) (e : Nat) : Nat :=
  match t with
  | .f16 | .bf16 => fConv (fmtOf t) (fmtOf .f32) (rmode sp.fmt) (ftzBit sp.fmt) e % 2 ^ 32
  | .s16 => ((BitVec.ofNat 16 e).signExtend 32).toNat
  | _ => e

theorem unpackElem_eq (types : t ∈ Mn.unpack2.row.types) {e : Nat} (half : e < 2 ^ 16) :
    unpackElem t (rmode sp.fmt) (ftzBit sp.fmt) e % 2 ^ 32 = unpackedHalf t sp e := by
  simp only [Mn.row, List.mem_cons, List.not_mem_nil, or_false] at types
  rcases types with rfl | rfl | rfl | rfl
  · exact Nat.mod_eq_of_lt (half.trans (by decide))
  · exact extend_eq_filled .s16 e 32
  · rfl
  · rfl

/-- `unpack2` retires with the two rows. -/
theorem unpack2_retires (h : s.Executes .unpack2 f x k c sp) (hs : Settled c sp) (rows : 8 ≤ c.wrows) (sel : f.sel = .ty t) :
    RetiresWith s .unpack2 f x k c sp fun c' => DestHolds c c' sp f (runLanes s .unpack2 f x k c sp) 2
      (fun l => unpackedHalf t sp (operand32 c sp.wbase f.a l % 2 ^ 16) + 2 ^ 32 * unpackedHalf t sp (operand32 c sp.wbase f.a l / 2 ^ 16 % 2 ^ 16))
      fun _ => 0 := by
  refine regStep_retires h hs rfl (by unfold unpack2Out; exact Issue.putD_fmt ..) fun d regs => ?_
  have holds := Issue.putD_destHolds regs rfl (by rw [issueOf_c hs]; omega)
  rw [issueOf_c hs, issueOf_sp hs] at holds
  refine destHolds_rows holds (by simpa [Mn.row] using h.dClass) fun l _ => ?_
  dsimp only
  rw [Nat.mod_eq_of_lt (joinElems_two_lt 32 _ _), joinElems_two, issueOf_ty sel, issueOf_rm hs, issueOf_ftz hs, Issue.a32, issueOf_ca hs, issueOf_sp hs,
    issueOf_f, unpackElem_eq (h.type sel) (elem_lt ..), unpackElem_eq (h.type sel) (elem_lt ..), elem_zero, elem, Nat.mul_one]

end Pack

end Sys2Proof.Machine
end

section
/-! SUPPORT. O8: block floating point, packed, unpacked and exponents (R88 to R91, R198 to R200). -/

namespace Sys2Proof.Machine

open Sys2Proof

/-! ### Strings of elements -/

/-- Bits of elements laid side by side. -/
theorem testBit_joinElems {n : Nat} (pos : 0 < n) (xs : List Nat) (i : Nat) : (joinElems n xs).testBit i = (xs.getD (i / n) 0).testBit (i % n) := by
  induction xs generalizing i with
  | nil => simp [joinElems]
  | cons x xs ih =>
    rw [joinElems, Nat.add_comm, Nat.testBit_two_pow_mul_add _ (Nat.mod_lt _ (Nat.two_pow_pos n))]
    split
    case isTrue low => rw [Nat.testBit_mod_two_pow, Nat.div_eq_of_lt low, Nat.mod_eq_of_lt low]; simp [low]
    case isFalse high =>
      obtain ⟨k, rfl⟩ := Nat.exists_eq_add_of_le (not_lt.1 high)
      rw [ih, Nat.add_sub_cancel_left, Nat.add_div_left k pos, Nat.add_mod_left, List.getD_cons_succ]

theorem elem_joinElems {n : Nat} (pos : 0 < n) (xs : List Nat) (i : Nat) : elem (joinElems n xs) n i = xs.getD i 0 % 2 ^ n := by
  refine Nat.eq_of_testBit_eq fun j => ?_
  rw [elem, Nat.testBit_mod_two_pow, Nat.testBit_mod_two_pow, Nat.testBit_div_two_pow, testBit_joinElems pos]
  by_cases inside : j < n
  · rw [Nat.add_comm j, Nat.mul_add_div pos, Nat.div_eq_of_lt inside, Nat.add_zero, Nat.mul_add_mod, Nat.mod_eq_of_lt inside]
  · simp [inside]

/-- The bits of a string of words, as the model and as R89 count them. -/
theorem laneBits_eq (words : List Nat) (lo n : Nat) : laneBits words lo n = joinElems 32 words / 2 ^ lo % 2 ^ n := by
  induction n with
  | zero => rw [Nat.pow_zero, Nat.mod_one]; rfl
  | succ n ih =>
    have last : laneBits words lo (n + 1) =
        laneBits words lo n + if (words.getD ((lo + n) / 32) 0).testBit ((lo + n) % 32) then 2 ^ n else 0 := by
      rw [laneBits, List.range_succ, List.foldl_append]
      rfl
    rw [last, ih, Nat.mod_pow_succ, ← testBit_joinElems (by decide), Nat.add_comm lo n, ← Nat.testBit_div_two_pow, Nat.testBit_eq_decide_div_mod_eq]
    rcases Nat.mod_two_eq_zero_or_one (joinElems 32 words / 2 ^ lo / 2 ^ n) with bit | bit <;> simp [bit]

/-- Only the low `n` bits of each element count. -/
theorem joinElems_congr {n : Nat} {g h : Nat → Nat} (eq : ∀ j, g j % 2 ^ n = h j % 2 ^ n) (js : List Nat) :
    joinElems n (js.map g) = joinElems n (js.map h) := by
  induction js with
  | nil => rfl
  | cons j js ih => rw [List.map_cons, List.map_cons, joinElems, joinElems, eq, ih]

/-! ### Blocks -/

theorem bfpExp_lt (xs : List Nat) : bfpExp xs < 2 ^ 8 := by
  unfold bfpExp
  dsimp only
  split
  · decide
  · split <;> omega

section Blocks

variable {s : State} {m : Mn} {f : Fields} {x k : Nat} {c d : Crew} {sp : Split} (hs : Settled c sp) (rows : 8 ≤ c.wrows)
  (width : c.width ∈ [32, 64, 128])

/-- The exponents of a crew's blocks (R90). -/
def blockExp (c : Crew) (sp : Split) (f : Fields) (run : Lanes) (q : Nat) : Nat := bfpExp (blockInputs c sp f run q)

include hs in
theorem block_eq (q : Nat) : (issueOf s m f x k c sp).block q = blockInputs c sp f (runLanes s m f x k c sp) q := by
  have value : ∀ l, operandVal c sp.wbase .f32 false f.a l = (src c sp .f32 f.a l).toNat := fun l =>
    (src_toNat.trans (Nat.mod_eq_of_lt (operandVal_float_lt (t := .f32) rfl rfl c sp.wbase f.a l))).symm
  unfold Issue.block blockInputs
  simp only [Issue.a, issueOf_ca hs, issueOf_sp hs, issueOf_f, issueOf_run, value]

include hs in
theorem blockExps_eq : (issueOf s m f x k c sp).blockExps = (List.range (c.width / 32)).map (blockExp c sp f (runLanes s m f x k c sp)) := by
  unfold Issue.blockExps
  rw [issueOf_c hs]
  exact List.map_congr_left fun q _ => by rw [block_eq hs]; rfl

include hs in
theorem bfpWidth_eq : (issueOf s m f x k c sp).bfpWidth = blockWidth f sp := by
  unfold Issue.bfpWidth blockWidth fmtAw fmtBw bitf
  rw [issueOf_sp hs]
  rfl

/-- The exponents of a crew, one per byte; the bytes above are 0. -/
theorem exponents_elem (run : Lanes) (q : Nat) :
    elem (joinElems 8 ((List.range (c.width / 32)).map (blockExp c sp f run))) 8 q = if q < c.width / 32 then blockExp c sp f run q else 0 := by
  rw [elem_joinElems (by decide)]
  split
  case isTrue inside =>
    rw [List.getD_eq_getElem _ _ (by simpa using inside), List.getElem_map, List.getElem_range]
    exact Nat.mod_eq_of_lt (bfpExp_lt _)
  case isFalse outside => rw [List.getD_eq_default _ _ (by simpa using outside)]; rfl

/-- A lane of a crew lies in one of its blocks. -/
theorem block_lt (width : c.width ∈ [32, 64, 128]) {l : Nat} (lane : l < c.width) : l / 32 < c.width / 32 := by
  simp only [List.mem_cons, List.not_mem_nil, or_false] at width
  rcases width with w | w | w <;> omega

/-- The row of a class-v D after an instruction that writes one row. -/
theorem row_of_putD {d : Crew} {o : RegOut} {y : Nat → Nat} {idx : BitVec 8} {swz : BitVec 3} {abs neg : Bool} (hs : Settled c sp) (rows : 8 ≤ c.wrows)
    (hD : f.d = .v idx swz abs neg) (regs : SameRegs d ((issueOf s m f x k c sp).c.putOut o)) (same : o.v = ((issueOf s m f x k c sp).putD 1 y).v)
    {l : Nat} (hl : l ∈ lanesOf (runLanes s m f x k c sp) c.width) : d.row (physRow sp.wbase c.wrows idx.toNat) l = BitVec.ofNat 32 (y l) := by
  have row := Issue.putD_row (issueOf s m f x k c sp) c 1 y hD (by rwa [Issue.lanes, issueOf_c hs, issueOf_run]) (j := 0) (by decide)
    (by rw [issueOf_c hs]; omega)
  rw [issueOf_c hs, issueOf_sp hs, Nat.add_zero, elem_zero, Crew.row_putOut] at row
  rw [Crew.row_of_v regs.v, Crew.row_putOut, issueOf_c hs, same, row]
  exact BitVec.eq_of_toNat_eq (by simp)

include hs rows width in
/-- `bfexp` retires with the exponents. -/
theorem bfexp_retires (h : s.Executes .bfexp f x k c sp) : RetiresWith s .bfexp f x k c sp fun c' => match f.d with
    | .v idx .. => ∀ l ∈ lanesOf (runLanes s .bfexp f x k c sp) c.width,
        (c'.row (physRow sp.wbase c.wrows idx.toNat) l).toNat = blockExp c sp f (runLanes s .bfexp f x k c sp) (l / 32)
    | .s r => r.toNat ≠ 0 → lowest (runLanes s .bfexp f x k c sp) c.width ≠ none → ∀ q, q < 8 →
        elem (c'.uni r.toNat).toNat 8 q = if q < c.width / 32 then blockExp c sp f (runLanes s .bfexp f x k c sp) q else 0
    | _ => False := by
  have cls := h.dClass
  simp only [Mn.row, List.mem_cons, List.not_mem_nil, or_false] at cls
  refine regStep_retires h hs rfl (by unfold bfexpOut; split <;> exact Issue.putD_fmt ..) fun d regs => ?_
  cases hD : f.d with
  | v idx swz abs neg =>
    simp only [bfexpOut, issueOf_f, hD, blockExps_eq hs] at regs
    intro l hl
    have inside := block_lt width (lanesOf_lt hl).2.2
    have small : blockExp c sp f (runLanes s .bfexp f x k c sp) (l / 32) < 2 ^ 32 := (bfpExp_lt _).trans (by decide)
    rw [row_of_putD hs rows hD regs rfl hl, List.getD_eq_getElem _ _ (by simpa using inside), List.getElem_map, List.getElem_range, BitVec.toNat_ofNat,
      Nat.mod_eq_of_lt small]
  | s r =>
    simp only [bfexpOut, issueOf_f, hD, blockExps_eq hs] at regs
    intro nonzero some_ q small
    obtain ⟨l, low⟩ := Option.ne_none_iff_exists'.1 some_
    have holds := Issue.putD_destHolds regs rfl (by rw [issueOf_c hs]; omega)
    rw [issueOf_c hs] at holds
    simp only [DestHolds, issueOf_f, hD] at holds
    rw [holds nonzero l low, elem_mod (by omega), exponents_elem]
  | _ => simp [hD, Operand.cls] at cls

/-- The mantissa strings of a crew's blocks (R89). -/
def blockWord (c : Crew) (sp : Split) (f : Fields) (run : Lanes) (q : Nat) : Nat :=
  joinElems (blockWidth f sp) ((blockInputs c sp f run q).map (bfpMant (blockWidth f sp) (blockExp c sp f run q)))

/-- A bit of a block's mantissa string. -/
theorem testBit_blockWord {run : Lanes} {q i : Nat} (pos : 0 < blockWidth f sp) (inside : i / blockWidth f sp < 32) :
    (blockWord c sp f run q).testBit i = (bfpMant (blockWidth f sp) (blockExp c sp f run q) ((blockInputs c sp f run q).getD (i / blockWidth f sp) 0)).testBit
      (i % blockWidth f sp) := by
  have len : i / blockWidth f sp < (blockInputs c sp f run q).length := by simpa [blockInputs] using inside
  rw [blockWord, testBit_joinElems pos, List.getD_eq_getElem _ _ (by simpa using len), List.getElem_map, List.getD_eq_getElem _ _ len]

/-- Lane j of a block holds word j of the block's mantissa string, below the width. -/
def packedWord (c : Crew) (sp : Split) (f : Fields) (run : Lanes) (l : Nat) : Nat :=
  if l % 32 < blockWidth f sp then elem (blockWord c sp f run (l / 32)) 32 (l % 32) else 0

theorem testBit_packedWord {run : Lanes} {l j : Nat} (pos : 0 < blockWidth f sp) (small : j < 32) :
    (packedWord c sp f run l).testBit j = (decide (l % 32 < blockWidth f sp) &&
      (bfpMant (blockWidth f sp) (blockExp c sp f run (l / 32)) ((blockInputs c sp f run (l / 32)).getD ((32 * (l % 32) + j) / blockWidth f sp) 0)).testBit
        ((32 * (l % 32) + j) % blockWidth f sp)) := by
  unfold packedWord
  split
  case isTrue low =>
    have inside : (32 * (l % 32) + j) / blockWidth f sp < 32 := Nat.div_lt_of_lt_mul (by rw [Nat.mul_comm]; omega)
    rw [elem, Nat.testBit_mod_two_pow, Nat.testBit_div_two_pow, Nat.add_comm j, testBit_blockWord pos inside]
    simp [low, small]
  case isFalse high => simp [high]

/-- The mantissa strings as the model lists them. -/
theorem blockWords_getD (hs : Settled c sp) {q : Nat} (inside : q < c.width / 32) :
    (((issueOf s m f x k c sp).blockExps.zipIdx.map fun e =>
      joinElems (issueOf s m f x k c sp).bfpWidth (((issueOf s m f x k c sp).block e.2).map (bfpMant (issueOf s m f x k c sp).bfpWidth e.1))).getD q 0) =
      blockWord c sp f (runLanes s m f x k c sp) q := by
  rw [List.getD_eq_getElem _ _ (by simpa [blockExps_eq hs] using inside)]
  simp only [List.getElem_map, List.getElem_zipIdx, Nat.zero_add, blockExps_eq hs, List.getElem_range, bfpWidth_eq hs, block_eq hs]
  rfl

/-- The rows that `bfpack` writes. -/
theorem bfpackOut_rows (i : Issue) : (bfpackOut i).v = (i.putD 1 fun l => if l % 32 < i.bfpWidth then
    elem ((i.blockExps.zipIdx.map fun e => joinElems i.bfpWidth ((i.block e.2).map (bfpMant i.bfpWidth e.1))).getD (l / 32) 0) 32 (l % 32) else 0).v := by
  unfold bfpackOut
  dsimp only
  split
  · split <;> rfl
  · rfl

theorem bfpackOut_fmt (i : Issue) : (bfpackOut i).fmt = none := by
  unfold bfpackOut
  dsimp only
  split
  · split <;> exact Issue.putD_fmt ..
  · exact Issue.putD_fmt ..

/-- The uniform register that `bfpack` writes. -/
theorem bfpackOut_unis {i : Issue} {r : BitVec 6} (hB : i.f.b = .s r) (some_ : i.run ≠ 0) : (bfpackOut i).s = [(r.toNat, joinElems 8 i.blockExps)] := by
  simp only [bfpackOut, hB, if_neg some_]

include hs rows width in
/-- `bfpack` retires with the mantissa strings and the exponents. -/
theorem bfpack_retires (pos : 0 < blockWidth f sp) (h : s.Executes .bfpack f x k c sp) : RetiresWith s .bfpack f x k c sp fun c' =>
    let run := runLanes s .bfpack f x k c sp
    let ex := fun q => bfpExp (blockInputs c sp f run q)
    (match f.d with
    | .v idx .. => ∀ l ∈ lanesOf run c.width, ∀ j, j < 32 → (c'.row (physRow sp.wbase c.wrows idx.toNat) l).getLsbD j = (decide (l % 32 < blockWidth f sp) &&
        (bfpMant (blockWidth f sp) (ex (l / 32)) ((blockInputs c sp f run (l / 32)).getD ((32 * (l % 32) + j) / blockWidth f sp) 0)).testBit
          ((32 * (l % 32) + j) % blockWidth f sp))
    | _ => False) ∧
    (match f.b with
    | .s r => r.toNat ≠ 0 → lowest run c.width ≠ none → ∀ q, q < 8 →
        elem (c'.uni r.toNat).toNat 8 q = if q < c.width / 32 then ex q else 0
    | _ => True) := by
  refine regStep_retires h hs rfl (bfpackOut_fmt _) fun d regs => ⟨?_, ?_⟩
  · obtain ⟨idx, swz, abs, neg, hD⟩ := Operand.eq_v (by simpa [Mn.row] using h.dClass : f.d.cls = .v)
    rw [hD]
    intro l hl j small
    rw [row_of_putD hs rows hD regs (bfpackOut_rows _) hl, blockWords_getD hs (block_lt width (lanesOf_lt hl).2.2), bfpWidth_eq hs, BitVec.getLsbD_ofNat,
      decide_eq_true small, Bool.true_and]
    exact testBit_packedWord pos small
  · cases hB : f.b with
    | s r =>
      intro nonzero some_ q small
      obtain ⟨l, low⟩ := Option.ne_none_iff_exists'.1 some_
      rw [Crew.uni_of_s regs.s, Crew.uni_putOut, bfpackOut_unis hB (lowest_run low), blockExps_eq hs, Crew.putUnis, Crew.putUnis, Crew.uni_setUni_same _ _ nonzero,
        BitVec.toNat_ofNat, elem_mod (by omega), exponents_elem]
      rfl
    | _ => trivial

include hs rows in
/-- `bfunpack` retires with the values of the mantissas. -/
theorem bfunpack_retires (h : s.Executes .bfunpack f x k c sp) : RetiresWith s .bfunpack f x k c sp fun c' =>
    let b := blockWidth f sp
    DestHolds c c' sp f (runLanes s .bfunpack f x k c sp) 1 (fun l =>
      let q := l / 32
      let ex := match f.b with
        | .s r => elem (c.uni r.toNat).toNat 8 q
        | o => operand32 c sp.wbase o (32 * q) % 256
      let mant := laneBits ((List.range b).map fun j => (src c sp .b32 f.a (32 * q + j)).toNat) (b * (l % 32)) b
      bfpValue b ex mant % 2 ^ 32) fun _ => 0 := by
  refine regStep_retires h hs rfl (by unfold bfunpackOut; exact Issue.putD_fmt ..) fun d regs => ?_
  have holds := Issue.putD_destHolds regs rfl (by rw [issueOf_c hs]; omega)
  rw [issueOf_c hs, issueOf_sp hs] at holds
  refine destHolds_rows holds (by simpa [Mn.row] using h.dClass) fun l _ => ?_
  have string : joinElems 32 ((List.range (blockWidth f sp)).map fun j => operandVal c sp.wbase .b32 false f.a (32 * (l / 32) + j)) =
      joinElems 32 ((List.range (blockWidth f sp)).map fun j => (src c sp .b32 f.a (32 * (l / 32) + j)).toNat) :=
    joinElems_congr (fun j => by rw [src_toNat]; exact (Nat.mod_mod ..).symm) _
  dsimp only
  rw [laneBits_eq, ← string, bfpWidth_eq hs]
  simp only [Issue.a, issueOf_ca hs, issueOf_cb hs, issueOf_sp hs, issueOf_f]
  rfl

end Blocks

end Sys2Proof.Machine

namespace Sys2Proof

open Machine

/-- Settles O8: each conversion's result is read off the registers it retires with. -/
theorem conversionAndPackResults : Obligations.ConversionAndPackResults := by
  unfold Obligations.ConversionAndPackResults
  refine ⟨fun f ts td s x k c sp h hs rows sel code => cvt_retires h hs rows sel code, fun f t s x k c sp hs rows sel => ?_,
    fun f s x k c sp hs rows width low _ => ?_⟩
  · exact ⟨fun h => pack2_retires h hs rows sel, fun h => unpack2_retires h hs rows sel⟩
  · exact ⟨bfpack_retires hs rows width (Nat.zero_lt_of_lt low), bfexp_retires hs rows width, bfunpack_retires hs rows⟩

end Sys2Proof
end

section
/-! SUPPORT. Faults of an `ldc`, of a `copy`, of a `bwait`, of a remote load, of the reply to its pass and of a `claim` in a crew whose split table lists
one number twice: as in `State.twice`, the interrupt of the record that no ring entry takes wakes the second entry, and the faulting split goes on (R67,
R379, R383). -/

namespace Sys2Proof.Machine
open Sys2Proof

/-- The bank of the team's kernel in the twice-listed split's object: one word. -/
def bankObject : Obj :=
  { ctx := 4095, textBase := 0x10000, textSize := 0x10000, kernels := [placedKd], funcs := [], banks := [[7, 7, 7, 7]], database := 0, portable := 0
    svn := 0, retired := false }
def State.twiceBanked : State := { State.twice with objs := [(0, bankObject)] }

/-- A copy of 2^24 + 1 bytes, whose length is in `s8`. -/
def longCopier : Crew := { twiceListed with s := [(8, 2 ^ 24 + 1)] }
def longCopy : Fields := { fromS8 with d := .s 8, b := .s 8 }

/-- A wait for batch 1, whose number is in `s8`, where no batch is closed. -/
def batchWaiter : Crew := { twiceListed with s := [(8, 1)] }

/-- A word access at address 1 of peer 0. -/
def oddRemoteCrew : Crew := { twiceListed with s := [(8, 1)] }
def oddRemote : Fields := { bare with sel := .ty .b32, d := .v 0 0 false false, a := .s 9, b := .s 8 }

/-- The first split waits for the pass of a remote load of lane 0, sent at time 0 (the time is 0). -/
def passWaiter : Split := { firstSplit with st := .blocked, wait := .passes 0 }
def passCrew : Crew := { twiceListed with splits := [(0, passWaiter), (0, haltedSplit)] }
def loadPass : PassIn :=
  { src := 0, id := 0, kind := .rld, ctx := 4095, ty := .b32, op := .store, scope := 0, ordered := false, crew := passCrew.inst, ident := 0, clock := 0
    dclass := false, gang := 0, rank := 0, track := none, vc := [], launch := none, mirror := none, wait := none, lanes := [] }
def sentPass : PassOut := { peer := 0, lanes := [], st := .sent 0 }
def loadPasses : PassSet :=
  { crew := 0, split := 0, eas := [], passes := [sentPass], origin := .instr (some 0) none, access := 4, twice := false, pass := loadPass }
def State.twicePassing : State := { State.twiceWith passCrew with passes := [(0, loadPasses)] }

/-- A claim of no bytes. -/
def emptyClaim : Fields := { fromS8 with d := .s 10, b := .s 8 }

end Sys2Proof.Machine

namespace Sys2Proof

open Machine

/-- Refutes O22: the clause of a misaligned `ldc` asks of no state that its split table lists a number once. -/
theorem not_constantsPrefetchAndQwait : ¬ Obligations.ConstantsPrefetchAndQwait := by
  intro h
  obtain ⟨ldc, -⟩ := h oddLoad .twiceBanked 0 0 twiceListed firstSplit
  obtain ⟨-, misaligned, -⟩ := ldc .b32 (placedTeam 0) bankObject rfl ⟨by decide +kernel, by decide +kernel, by decide +kernel, by decide +kernel⟩
    twice_settled rfl rfl (by decide +kernel)
  exact not_faults_of_pc (by decide +kernel) _ _ (misaligned (by decide +kernel))

/-- Refutes O28: the clause of a `copy` of more than 2^24 bytes asks of no state that its split table lists a number once. -/
theorem not_copiesStart : ¬ Obligations.CopiesStart := by
  intro h
  obtain ⟨copy, -⟩ := h longCopy (.twiceWith longCopier) 0 0 longCopier firstSplit (placedTeam 0) ⟨rfl, rfl, rfl, rfl⟩ rfl
  obtain ⟨-, long, -⟩ := copy ⟨by decide +kernel, by decide +kernel, by decide +kernel, by decide +kernel⟩ (by decide +kernel)
  exact not_faults_of_pc (by decide +kernel) _ _ (long (.inl (by decide +kernel)))

/-- Refutes O29: the clause of a `bwait` for a batch that is not closed asks of no state that its split table lists a number once. -/
theorem not_batchesCloseAndComplete : ¬ Obligations.BatchesCloseAndComplete := by
  intro h
  obtain ⟨-, bwait, -⟩ := h fromS8 (.twiceWith batchWaiter) 0 0 batchWaiter firstSplit
  obtain ⟨early, -⟩ := bwait ⟨by decide +kernel, by decide +kernel, by decide +kernel, by decide +kernel⟩ ⟨rfl, rfl, rfl, rfl⟩ (by decide +kernel)
  exact not_faults_of_pc (by decide +kernel) _ _ (early (by decide +kernel))

/-- Refutes O34: the clause of a lane that fails stage 1 asks of no state that its split table lists a number once. -/
theorem not_remoteAccessesSendPasses : ¬ Obligations.RemoteAccessesSendPasses := by
  intro h
  obtain ⟨refused, -⟩ := h .rld oddRemote .b32 (.twiceWith oddRemoteCrew) 0 0 oddRemoteCrew firstSplit (placedTeam 0) (by decide)
    ⟨by decide +kernel, by decide +kernel, by decide +kernel, by decide +kernel⟩ ⟨rfl, rfl, rfl, rfl⟩ rfl rfl (by decide +kernel)
  exact not_faults_of_pc (by decide +kernel) _ _ (refused _ _ ⟨_, rfl⟩ (by decide +kernel))

/-- Refutes O37: the clause of a refused pass asks of no state that its split table lists a number once. -/
theorem not_sourcesFinishPasses : ¬ Obligations.SourcesFinishPasses := by
  intro h
  obtain ⟨reply, -⟩ := h .twicePassing 0 loadPasses sentPass passCrew passWaiter
  obtain ⟨-, -, refused, -⟩ := reply rfl rfl (by decide) rfl rfl rfl (by decide +kernel) rfl rfl
  exact not_faults_of_pc (by decide +kernel) _ _
    (refused (some 0) none 0 [] [] 0 [] (0, 1) [] rfl (by decide) rfl (by decide) (by decide) (by decide) (by decide +kernel) (by decide +kernel))

/-- Refutes O38: the clause of a `claim` of invalid words asks of no state that its split table lists a number once. -/
theorem not_claimInstructions : ¬ Obligations.ClaimInstructions := by
  intro h
  obtain ⟨claim, -⟩ := h emptyClaim .twice 0 0 twiceListed firstSplit (placedTeam 0) twice_settled rfl
  obtain ⟨invalid, -⟩ := claim ⟨twice_issuer, by decide +kernel, by decide +kernel, by decide +kernel⟩ (by decide +kernel)
  exact not_faults_of_pc (by decide +kernel) _ _ (invalid fun ⟨_, timed, _⟩ => absurd timed (by decide +kernel))

end Sys2Proof
end

section
/-! SUPPORT. O24: `fence` retires at once, or blocks its split until what its scope names has happened (R114, R115, R250). -/

namespace Sys2Proof.Machine

open Sys2Proof

section Fence

variable {s : State} {f : Fields} {x k : Nat} {c : Crew} {sp : Split} {tm : Team}

/-- What a fence looks at is no register. -/
theorem fenceReady_issueOf {m : Mn} (n id : Nat) : s.fenceReady x (issueOf s m f x k c sp).c id n = true ↔ fenceDone s x c n id := by
  rw [← fenceReady_iff]
  unfold issueOf
  dsimp only
  rw [crewView_frame]
  rfl

/-- The scope of an issued instruction. -/
theorem scopeOf_issueOf {m : Mn} (team : s.team? c.team = some tm) (n : Nat) : s.scopeOf (issueOf s m f x k c sp).c n = scopeNo tm n := by
  simp only [State.scopeOf, State.pairTeam, issueOf_team, team, scopeNo]

/-- A fence with nothing to wait for is an instruction without results. -/
theorem fenceBody_plain (team : s.team? c.team = some tm) (plain : runLanes s .fence f x k c sp = 0 ∨ scopeNo tm (f.ext.toNat % 8) = 0) :
    fenceBody (issueOf s .fence f x k c sp) (Go.start s) = retire (Go.start s) (issueOf s .fence f x k c sp) {} := by
  have scope : (Go.start s).st.scopeOf (issueOf s .fence f x k c sp).c (extScope f.ext) = scopeNo tm (f.ext.toNat % 8) := scopeOf_issueOf team _
  unfold fenceBody
  rw [issueOf_f, scope, issueOf_run, if_pos (by simpa using plain)]

section Waiting

variable (team : s.team? c.team = some tm) (some_ : runLanes s .fence f x k c sp ≠ 0) (wide : scopeNo tm (f.ext.toNat % 8) ≠ 0)

include team some_ wide

/-- A fence whose scope's events have happened: copies are not used from `.die` on. -/
theorem fenceBody_ready (done : fenceDone s x c (scopeNo tm (f.ext.toNat % 8)) s.seq) :
    fenceBody (issueOf s .fence f x k c sp) (Go.start s) =
      if 3 ≤ scopeNo tm (f.ext.toNat % 8) then dropCopies (retire (Go.start s) (issueOf s .fence f x k c sp) {}) x
      else retire (Go.start s) (issueOf s .fence f x k c sp) {} := by
  have scope : (Go.start s).st.scopeOf (issueOf s .fence f x k c sp).c (extScope f.ext) = scopeNo tm (f.ext.toNat % 8) := scopeOf_issueOf team _
  unfold fenceBody
  rw [issueOf_f, scope, issueOf_run, issueOf_x, if_neg (by simpa using ⟨some_, wide⟩), if_pos (by exact (fenceReady_issueOf ..).2 done)]

/-- The crew whose later accesses wait for access `id`. -/
def Crew.holdAfter (id : Nat) (c : Crew) : Crew := { c with order := c.order ++ [id] }

/-- Any other fence parks its split. -/
theorem fenceBody_waits (more : ¬ fenceDone s x c (scopeNo tm (f.ext.toNat % 8)) s.seq) :
    fenceBody (issueOf s .fence f x k c sp) (Go.start s) =
      modCrew (park ((Go.start s).put .seq) (issueOf s .fence f x k c sp) (.fence s.seq (scopeNo tm (f.ext.toNat % 8)) s.now)) x (Crew.holdAfter s.seq) := by
  have scope : (Go.start s).st.scopeOf (issueOf s .fence f x k c sp).c (extScope f.ext) = scopeNo tm (f.ext.toNat % 8) := scopeOf_issueOf team _
  unfold fenceBody
  rw [issueOf_f, scope, issueOf_run, issueOf_x, if_neg (by simpa using ⟨some_, wide⟩), if_neg (by exact fun h => more ((fenceReady_issueOf ..).1 h))]
  rfl

end Waiting

/-- The split that a retirement without results leaves has gone on. -/
theorem RetiredAt.onward {c' : Crew} {sp' : Split} (h : RetiredAt c c' k sp sp' (sp.pc + 12)) (ready : sp.st = .ready) (fmt : sp'.fmt = sp.fmt)
    (regs : SameRegs c' c) {o : Host.Outcome State Fault Refusal} {u : State} (next : o = .next u) {d : Crew} (crew : u.crew? x = some d)
    (same : d = { c' with minGrant := d.minGrant }) : Onward o u x k c d sp sp' := by
  obtain ⟨split, pc, -, kept, -⟩ := h
  refine ⟨next, crew, by rw [Crew.split?, same]; exact split, ?_⟩
  rw [same, kept]
  exact ⟨ready, rfl, rfl, fmt, regs.v, regs.s, regs.p, regs.lay⟩

/-- A fence retires and leaves what copies its crew may use, and the fences before it. -/
theorem fence_plain (h : s.Executes .fence f x k c sp) (team : s.team? c.team = some tm)
    (plain : runLanes s .fence f x k c sp = 0 ∨ scopeNo tm (f.ext.toNat % 8) = 0) :
    ∃ u c' sp', Onward (exec (.fence f) s) u x k c c' sp sp' ∧ OnlyCrew s u x ∧ sp'.clock = sp.clock + 1 ∧ c'.minGrant = c.minGrant ∧ c'.order = c.order := by
  obtain ⟨-, -, -, -, ready, -⟩ := State.issuer_some h.issuer
  obtain ⟨s1, d, sp', work, reached, retired, fmt, regs, -⟩ := h.retires
  have next : exec (.fence f) s = .next (retire (Go.start s) (issueOf s .fence f x k c sp) {}).st :=
    (crewStep_executes h fenceBody).trans (by rw [fenceBody_plain team plain])
  exact ⟨_, d, sp', retired.onward ready fmt regs next reached.crew rfl, reached.only work, retired.clock, by rw [retired.crew], by rw [retired.crew]⟩

/-- A fence with nothing left to wait for retires; from `.die` on its crew uses no copy granted before now. -/
theorem fence_ready (h : s.Executes .fence f x k c sp) (team : s.team? c.team = some tm) (some_ : runLanes s .fence f x k c sp ≠ 0)
    (wide : scopeNo tm (f.ext.toNat % 8) ≠ 0) (done : fenceDone s x c (scopeNo tm (f.ext.toNat % 8)) s.seq) :
    ∃ u c' sp', Onward (exec (.fence f) s) u x k c c' sp sp' ∧ OnlyCrew s u x ∧ sp'.clock = sp.clock + 1 ∧
      c'.minGrant = (if 3 ≤ scopeNo tm (f.ext.toNat % 8) then max c.minGrant s.now else c.minGrant) ∧ c'.order = c.order := by
  obtain ⟨-, -, -, -, ready, -⟩ := State.issuer_some h.issuer
  obtain ⟨s1, d, sp', work, reached, retired, fmt, regs, -⟩ := h.retires
  have next := (crewStep_executes h fenceBody).trans (by rw [fenceBody_ready team some_ wide done])
  have order : d.order = c.order := by rw [retired.crew]
  have grant : d.minGrant = c.minGrant := by rw [retired.crew]
  by_cases die : 3 ≤ scopeNo tm (f.ext.toNat % 8)
  case pos =>
    rw [if_pos die] at next ⊢
    have now : (retire (Go.start s) (issueOf s .fence f x k c sp) {}).st.now = s.now := by rw [show _ = _ from reached, show s1 = _ from work]
    have dropped : AtCrew s1 x { d with minGrant := max c.minGrant s.now } (dropCopies (retire (Go.start s) (issueOf s .fence f x k c sp) {}) x).st := by
      rw [← grant, ← now]
      exact reached.modCrew _
    exact ⟨_, _, sp', retired.onward ready fmt regs next dropped.crew rfl, dropped.only work, retired.clock, rfl, order⟩
  case neg =>
    rw [if_neg die] at next ⊢
    exact ⟨_, d, sp', retired.onward ready fmt regs next reached.crew rfl, reached.only work, retired.clock, grant, order⟩

/-- Any other fence blocks its split, and the crew's later accesses wait for it. -/
theorem fence_blocks (h : s.Executes .fence f x k c sp) (team : s.team? c.team = some tm) (some_ : runLanes s .fence f x k c sp ≠ 0)
    (wide : scopeNo tm (f.ext.toNat % 8) ≠ 0) (more : ¬ fenceDone s x c (scopeNo tm (f.ext.toNat % 8)) s.seq) :
    ∃ u c' sp', Blocks (exec (.fence f) s) u x k c c' sp sp' (.fence s.seq (scopeNo tm (f.ext.toNat % 8)) s.now) ∧ c'.order = c.order ++ [s.seq] ∧
      u = { s with crews := u.crews, cycles := u.cycles, coloc := u.coloc, seq := s.seq + 1 } ∧ ∀ y, y ≠ x → u.crew? y = s.crew? y := by
  obtain ⟨-, crew, split, -⟩ := State.issuer_some h.issuer
  have next := (crewStep_executes h fenceBody).trans (by rw [fenceBody_waits team some_ wide more])
  obtain ⟨s1, d, q, work, reached, blocked⟩ := park_blocks ((Go.start s).put .seq) (issueOf s .fence f x k c sp)
    (.fence s.seq (scopeNo tm (f.ext.toNat % 8)) s.now) crew split
  have held := reached.modCrew (Crew.holdAfter s.seq)
  obtain ⟨v, u, p, lay, width, rows⟩ := blocked.regs
  exact ⟨_, _, q, blocked.blocks next held.crew rfl ⟨v, u, p, lay, width, rows⟩, by rw [blocked.crew]; rfl, held.only work⟩

/-- The crew whose fence `id`, of scope `n` and begun at `start`, has ended: its later accesses are free. -/
def Crew.fenceEnded (id n start : Nat) (c : Crew) : Crew :=
  { c with order := c.order.filter fun o => o != id, minGrant := if 3 ≤ n then max c.minGrant start else c.minGrant }

/-- A fence whose scope's events have happened ends, and the split goes on. -/
theorem fenceComplete_ends {id n start : Nat} (crew : s.crew? x = some c) (split : c.split? k = some sp) (run : c.st = .running)
    (wait : sp.wait = .fence id n start) (done : fenceDone s x c n id) :
    ∃ u c' sp', Onward (exec (.fenceComplete x k) s) u x k c c' sp sp' ∧ sp'.clock = sp.clock + 1 ∧
      c'.minGrant = (if 3 ≤ n then max c.minGrant start else c.minGrant) ∧ c'.order = c.order.filter (fun j => j != id) ∧
      u = { s with crews := u.crews } ∧ ∀ y, y ≠ x → u.crew? y = s.crew? y := by
  let d := c.endWait (Tab.get 0 s.cycles (x / 8)) 0 [] k
  have next : exec (.fenceComplete x k) s = .next (fenceEnd (Go.start s) x k id n start).st := by
    show execFenceComplete x k s = _
    unfold execFenceComplete
    simp only [crew, split, wait, if_pos ((fenceReady_iff n id).2 done)]
    rfl
  have ended : d = { c with splits := Tab.put c.splits k (sp.goOn 0), vc := vcJoin c.vc [], passed := max c.passed (Tab.get 0 s.cycles (x / 8)) } :=
    Crew.endWait_running run split ..
  have reached : AtCrew s x (d.fenceEnded id n start) (fenceEnd (Go.start s) x k id n start).st :=
    (modCrew_at (g := Go.start s) crew (Crew.endWait (Tab.get 0 s.cycles (x / 8)) 0 [] k)).modCrew (Crew.fenceEnded id n start)
  refine ⟨_, _, sp.goOn 0, ⟨next, reached.crew, ?_⟩, Nat.max_zero _, ?_⟩
  all_goals rw [ended]
  · exact ⟨Tab.find_put_same .., rfl, rfl, rfl, rfl, rfl, rfl, rfl, rfl⟩
  · refine ⟨rfl, rfl, ?_, fun y hy => ?_⟩
    · rw [show _ = _ from reached]
    · rw [show _ = _ from reached]
      exact Tab.find_put_other _ _ hy

end Fence

end Sys2Proof.Machine

namespace Sys2Proof

open Machine

/-- Settles O24: each way a `fence` can go is a retirement, with or without the copies dropped, or a parking that its completion ends. -/
theorem fencesWaitForTheirScope : Obligations.FencesWaitForTheirScope := by
  unfold Obligations.FencesWaitForTheirScope
  intro f s x k c sp tm team
  refine ⟨fun h => ?_, fun id n start crew split run wait done => fenceComplete_ends crew split run wait done⟩
  exact ⟨fence_plain h team, fence_ready h team, fence_blocks h team⟩

end Sys2Proof
end

section
/-! SUPPORT. Bytes at home after cells were written one after another, each under its own key or as contiguous values (R103, R223). -/

namespace Sys2Proof.Machine

open Sys2Proof

variable {s0 : State}

/-- Each byte is what the last cell of its key holds. -/
theorem get_putBytes (t : Table Byte) (cells : List (Nat × Byte)) (b : Nat) :
    Tab.get 0 (putBytes t cells) b = ((cells.reverse.find? fun e => e.1 == b).map Prod.snd).getD (Tab.get 0 t b) := by
  induction cells using List.reverseRecOn with
  | nil => rfl
  | append_singleton cells e ih =>
    have step : putBytes t (cells ++ [e]) = Tab.set 0 (putBytes t cells) e.1 e.2 := List.foldl_append ..
    rw [step, List.reverse_append, List.reverse_singleton, List.singleton_append, List.find?_cons]
    by_cases own : b = e.1
    case pos => subst own; simp [Tab.get_set_same]
    case neg => rw [Tab.get_set_other _ _ _ own, ih, beq_eq_false_iff_ne.2 (Ne.symm own)]

/-- The table of cells listed one after another. -/
def cellTable (cells : List (Nat × Byte)) : Table Byte := cells.foldl (fun (t : Table Byte) e => Tab.put t e.1 e.2) []

theorem cellTable_append (cells : List (Nat × Byte)) (e : Nat × Byte) : cellTable (cells ++ [e]) = Tab.put (cellTable cells) e.1 e.2 := List.foldl_append ..

theorem cellTable_sorted (cells : List (Nat × Byte)) : Tab.sorted (cellTable cells) = true := by
  induction cells using List.reverseRecOn with
  | nil => rfl
  | append_singleton cells e ih => rw [cellTable_append]; exact Tab.sorted_put _ _ _ ih

theorem find_cellTable (cells : List (Nat × Byte)) (b : Nat) :
    Tab.find (cellTable cells) b = (cells.reverse.find? fun e => e.1 == b).map Prod.snd := by
  induction cells using List.reverseRecOn with
  | nil => rfl
  | append_singleton cells e ih =>
    rw [cellTable_append, List.reverse_append, List.reverse_singleton, List.singleton_append, List.find?_cons]
    by_cases own : b = e.1
    case pos => subst own; simp
    case neg => rw [Tab.find_put_other _ _ own, ih, beq_eq_false_iff_ne.2 (Ne.symm own)]

/-- In a table, the only cell of a key is the last. -/
theorem find?_reverse_table {β : Type} {t : Table β} (sorted : Tab.sorted t = true) (b : Nat) :
    (t.reverse.find? fun e => e.1 == b).map Prod.snd = Tab.find t b := by
  cases found : t.reverse.find? fun e => e.1 == b with
  | some e =>
    have mem : e ∈ t := List.mem_reverse.1 (List.mem_of_find?_eq_some found)
    obtain rfl : e.1 = b := by simpa using List.find?_some found
    exact ((Tab.mem_iff_find sorted).1 mem).symm
  | none =>
    cases listed : Tab.find t b with
    | none => rfl
    | some v => exact absurd (List.find?_eq_none.1 found _ (List.mem_reverse.2 (Tab.mem_of_find listed))) (by simp)

/-- Cells gathered into a table write what they write one after another. -/
theorem get_putBytes_cellTable (t : Table Byte) (cells : List (Nat × Byte)) (b : Nat) :
    Tab.get 0 (putBytes t (cellTable cells)) b = Tab.get 0 (putBytes t cells) b := by
  rw [get_putBytes, get_putBytes, find?_reverse_table (cellTable_sorted cells), find_cellTable]

theorem putBytes_append (t : Table Byte) (xs ys : List (Nat × Byte)) : putBytes t (xs ++ ys) = putBytes (putBytes t xs) ys := List.foldl_append ..

/-- Values of `n` bytes written one after another. -/
theorem get_putBytes_values (n : Nat) (ws : List (Nat × Nat)) (t : Table Byte) (b : Nat) :
    Tab.get 0 (putBytes t (ws.map fun w => cellsFrom w.1 (leBytes w.2 n)).flatten) b = lastWritten n ws (fun b => Tab.get 0 t b) b := by
  induction ws generalizing t with
  | nil => rfl
  | cons w ws ih =>
    rw [List.map_cons, List.flatten_cons, putBytes_append, ih, lastWritten_cons]
    simp only [get_putBytes_cellsFrom, length_leBytes]

end Sys2Proof.Machine
end

section
/-! SUPPORT. What a junction die does for a pass: leases it ends and grants, the bytes and old values of a lane group, and its messages
(R104, R119, R223, R295, R297). -/

namespace Sys2Proof.Machine

open Sys2Proof

variable {s0 : State}

/-- The state differs from `s` only in memory with its records, leases, crews and copies, held passes and the groups that came, what translation
units hold, and keepers' counts. -/
def DieOnly (s u : State) : Prop :=
  u = { s with mem := u.mem, poison := u.poison, wlog := u.wlog, lines := u.lines, crews := u.crews, cores := u.cores, held := u.held, groups := u.groups
               tlbs := u.tlbs, jds := u.jds }

theorem DieOnly.refl (s : State) : DieOnly s s := rfl

theorem DieOnly.trans {s t u : State} (h : DieOnly s t) (h' : DieOnly t u) : DieOnly s u := by
  unfold DieOnly at h h' ⊢
  rw [h', h]

theorem OnlyTlbs.dieOnly {s u : State} (h : OnlyTlbs s u) : DieOnly s u := by
  unfold DieOnly
  rw [h]

/-- The same with bytes `mem`, the passes held as before. -/
structure DieWork (s u : State) (mem : Table Byte) : Prop where
  only : DieOnly s u
  mem  : u.mem = mem
  held : u.held = s.held

theorem DieWork.refl (s : State) : DieWork s s s.mem := ⟨rfl, rfl, rfl⟩

theorem DieWork.trans {s t u : State} {m m' : Table Byte} (h : DieWork s t m) (h' : DieWork t u m') : DieWork s u m' :=
  ⟨h.only.trans h'.only, h'.mem, h'.held.trans h.held⟩

/-- Parts that leave memory leave it together. -/
theorem DieWork.each {α : Type} {s : State} {m : Table Byte} {l : List α} {f : α → Go s0 → Go s0} {g : Go s0} (h : DieWork s g.st m)
    (hf : ∀ a ∈ l, ∀ g : Go s0, DieWork g.st (f a g).st g.st.mem) : DieWork s (g.each l f).st m :=
  Go.each_keeps (P := fun u => DieWork s u m) (fun a ha g' h' => by
    have next := h'.trans (hf a ha g')
    rwa [h'.mem] at next) g h

/-- Parts that change nothing change nothing together. -/
theorem Go.each_same {α : Type} {l : List α} {f : α → Go s0 → Go s0} (hf : ∀ a ∈ l, ∀ g : Go s0, f a g = g) (g : Go s0) : g.each l f = g := by
  induction l with
  | nil => rfl
  | cons a l ih =>
    rw [Go.each, hf a List.mem_cons_self]
    exact ih fun b hb => hf b (List.mem_cons_of_mem a hb)

/-! ### Leases -/

/-- Ending a lease is settling it for another core. -/
theorem endLease_eq_settleLease (g : Go s0) (ln : Nat) : ∃ core, endLease g ln = settleLease g ln core := by
  cases excl : (g.st.lineAt ln).excl with
  | none => exact ⟨0, by simp only [endLease, settleLease, excl]⟩
  | some e => exact ⟨e.1 + 1, by simp [settleLease, excl]⟩

theorem LeasesOnly.dieWork {s u : State} (h : LeasesOnly s u) : DieWork s u s.mem := by
  have state := h.state
  refine ⟨?_, by rw [state], by rw [state]⟩
  unfold DieOnly
  rw [state]

theorem endLeases_work (g : Go s0) (lns : List Nat) : DieWork g.st (endLeases g lns).st g.st.mem :=
  (DieWork.refl g.st).each fun ln _ g' => by
    obtain ⟨core, eq⟩ := endLease_eq_settleLease g' ln
    rw [eq]
    exact (settleLease_only g' ln core).dieWork

theorem remoteLease_work (g : Go s0) (ln : Nat) : DieWork g.st (remoteLease g ln).st g.st.mem := by
  unfold remoteLease
  dsimp only
  split <;> exact ⟨rfl, rfl, rfl⟩

/-! ### Stores -/

/-- Home memory has become `mem`, with its records, leases and copies, and nothing else has changed. -/
def HomeWork (s u : State) (mem : Table Byte) : Prop :=
  u = { s with mem := mem, poison := u.poison, wlog := u.wlog, lines := u.lines, cores := u.cores }

theorem HomeWork.refl (s : State) : HomeWork s s s.mem := rfl

theorem HomeWork.mem {s u : State} {m : Table Byte} (h : HomeWork s u m) : u.mem = m := by
  rw [show u = _ from h]

theorem HomeWork.trans {s t u : State} {m m' : Table Byte} (h : HomeWork s t m) (h' : HomeWork t u m') : HomeWork s u m' := by
  unfold HomeWork at h h' ⊢
  rw [h', h]

theorem HomeWork.each {α : Type} {s : State} {m : Table Byte} {l : List α} {f : α → Go s0 → Go s0} {g : Go s0} (h : HomeWork s g.st m)
    (hf : ∀ a ∈ l, ∀ g : Go s0, HomeWork g.st (f a g).st g.st.mem) : HomeWork s (g.each l f).st m :=
  Go.each_keeps (P := fun u => HomeWork s u m) (fun a ha g' h' => by
    have next := h'.trans (hf a ha g')
    rwa [h'.mem] at next) g h

theorem HomeWork.dieWork {s u : State} {m : Table Byte} (h : HomeWork s u m) : DieWork s u m := by
  unfold HomeWork at h
  refine ⟨?_, by rw [h], by rw [h]⟩
  unfold DieOnly
  rw [h]

theorem homeCells_writes (g : Go s0) (by_ : By) (cells : List (Nat × Byte)) :
    HomeWork g.st (homeCells g by_ cells).st (putBytes g.st.mem cells) := by
  have bytes : ∀ (cells : List (Nat × Byte)) (g : Go s0),
      HomeWork g.st (g.each cells fun e g => (g.put (.mem e.1 e.2)).put (.poison e.1 false)).st (putBytes g.st.mem cells) := by
    intro cells
    induction cells with
    | nil => exact fun g => .refl _
    | cons e cells ih => exact fun g => HomeWork.trans (t := ((g.put (.mem e.1 e.2)).put (.poison e.1 false)).st) rfl (ih _)
  exact (bytes cells g).each fun _ _ _ => rfl

theorem dieCells_writes (g : Go s0) (by_ : By) (cells : List (Nat × Byte)) : HomeWork g.st (dieCells g by_ cells).st (putBytes g.st.mem cells) :=
  (homeCells_writes g by_ cells).each fun _ _ _ => rfl

theorem updateCopies_work (g : Go s0) (core : Nat) (cells : List (Nat × Byte)) : HomeWork g.st (updateCopies g core cells).st g.st.mem :=
  (HomeWork.refl g.st).each fun _ _ _ => by
    split <;> rfl

/-- The copies of the crew that made a pass, where it runs here. -/
def ownCopies (p : PassIn) (cells : List (Nat × Byte)) (g : Go s0) : Go s0 :=
  match g.st.ownCrew p with
  | some (x, _) => updateCopies g (placeCore x) cells
  | none => g

theorem ownCopies_work (p : PassIn) (cells : List (Nat × Byte)) (g : Go s0) : HomeWork g.st (ownCopies p cells g).st g.st.mem := by
  unfold ownCopies
  split
  · exact updateCopies_work ..
  · exact .refl _

/-- A lane at a home byte, as the statements list it: its number, the byte, its datum and its expected value. -/
def homeLane (e : PassLane × Loc) : Option (Nat × Nat × Nat × Nat) :=
  match e.2 with
  | .home a => some (e.1.lane, a, e.1.data, e.1.expect)
  | _ => none

/-- The cells that lanes at home store. -/
def laneCells (n : Nat) (ls : List (PassLane × Loc)) : List (Nat × Byte) :=
  (ls.map fun e => match e.2 with | .home k => cellsFrom k (leBytes e.1.data n) | _ => []).flatten

theorem laneCells_eq (n : Nat) {ls : List (PassLane × Loc)} (home : ∀ e ∈ ls, ∃ a, e.2 = .home a) :
    laneCells n ls = (((ls.filterMap homeLane).map fun q => (q.2.1, q.2.2.1)).map fun w => cellsFrom w.1 (leBytes w.2 n)).flatten := by
  unfold laneCells
  induction ls with
  | nil => rfl
  | cons e ls ih =>
    obtain ⟨l, loc⟩ := e
    obtain ⟨a, rfl⟩ := home _ List.mem_cons_self
    simp only [List.map_cons, List.flatten_cons, List.filterMap_cons, homeLane, ih fun e he => home e (List.mem_cons_of_mem _ he)]

/-- A store pass whose lanes are at home: the bytes as the last lane that covers each stored them (R223). -/
theorem performStores_writes (g : Go s0) (p : PassIn) {ls : List (PassLane × Loc)} (home : ∀ e ∈ ls, ∃ a, e.2 = .home a) :
    ∃ mem, HomeWork g.st (performStores g p ls).st mem ∧ ∀ b, Tab.get 0 mem b =
      lastWritten (accBytes p.ty) ((ls.filterMap homeLane).map fun q => (q.2.1, q.2.2.1)) g.st.byte b := by
  let cells := laneCells (accBytes p.ty) ls
  let g1 := dieCells g (passBy g.st p) (cellTable cells)
  let g2 := if p.poison then g1.each cells fun e g => g.put (.poison e.1 true) else g1
  have written : HomeWork g.st g1.st (putBytes g.st.mem (cellTable cells)) := dieCells_writes ..
  have marked : HomeWork g.st g2.st (putBytes g.st.mem (cellTable cells)) := by
    unfold g2
    split
    · exact written.each fun _ _ _ => rfl
    · exact written
  have all : performStores g p ls = ownCopies p cells g2 := by
    show ownCopies p cells (g2.each ls _) = _
    rw [Go.each_same fun e he g => by obtain ⟨a, at_⟩ := home e he; simp only [at_]]
  have copied := ownCopies_work p cells g2
  rw [marked.mem] at copied
  refine ⟨_, all ▸ marked.trans copied, fun b => ?_⟩
  rw [get_putBytes_cellTable, show cells = _ from laneCells_eq _ home, get_putBytes_values]
  rfl

/-- The first of atomics in turn, and then the others. -/
theorem atomsInTurn_cons (t : Ty) (op : MemOp) (n : Nat) (q : Nat × Nat × Nat × Nat) (ls : List (Nat × Nat × Nat × Nat)) (m : Nat → Byte) :
    atomsInTurn t op n (q :: ls) m = ((atomsInTurn t op n [q] m).1 ++ (atomsInTurn t op n ls (atomsInTurn t op n [q] m).2).1,
      (atomsInTurn t op n ls (atomsInTurn t op n [q] m).2).2) := rfl

/-- One atomic on home bytes (R118). -/
theorem atomicAt_writes (g : Go s0) (by_ : By) (t : Ty) (op : MemOp) (l k b e : Nat) :
    let r := atomsInTurn t op (accBytes t) [(l, k, b, e)] g.st.byte
    r.1 = [(l, (atomicAt g by_ t op k b e).1.1)] ∧ ∃ mem, HomeWork g.st (atomicAt g by_ t op k b e).2.st mem ∧ (fun b => Tab.get 0 mem b) = r.2 := by
  simp only [atomsInTurn, ← State.bytesAt_eq]
  unfold atomicAt
  dsimp only
  generalize atomicNew t op (leNat (g.st.bytesAt k (accBytes t))) b e = new
  cases new with
  | none => exact ⟨rfl, _, .refl _, rfl⟩
  | some v =>
    refine ⟨rfl, _, homeCells_writes g by_ _, funext fun b => ?_⟩
    rw [get_putBytes_cellsFrom, length_leBytes]
    rfl

/-- An atomic pass whose lanes are at home performs lane by lane (R118, R223). -/
theorem performAtomics_writes (g : Go s0) (p : PassIn) {ls : List (PassLane × Loc)} (home : ∀ e ∈ ls, ∃ a, e.2 = .home a) :
    let r := atomsInTurn p.ty p.op (accBytes p.ty) (ls.filterMap homeLane) g.st.byte
    (performAtomics g p ls).1 = r.1 ∧ ∃ mem, HomeWork g.st (performAtomics g p ls).2.st mem ∧ (fun b => Tab.get 0 mem b) = r.2 := by
  induction ls generalizing g with
  | nil => exact ⟨rfl, _, .refl _, rfl⟩
  | cons e ls ih =>
    obtain ⟨l, loc⟩ := e
    obtain ⟨k, rfl⟩ := home _ List.mem_cons_self
    obtain ⟨old, mem, written, bytes⟩ := atomicAt_writes g (passBy g.st p) p.ty p.op l.lane k l.data l.expect
    let r := atomicAt g (passBy g.st p) p.ty p.op k l.data l.expect
    let g1 := ownCopies p r.1.2 (r.2.put (.line (lineOf k) (some ((r.2.st.lineAt (lineOf k)).afterStore r.2.st.now 640))))
    have marked : HomeWork g.st g1.st mem := by
      have noted : HomeWork g.st (r.2.put (.line (lineOf k) (some ((r.2.st.lineAt (lineOf k)).afterStore r.2.st.now 640)))).st mem :=
        written.trans (by rw [← written.mem]; rfl)
      have copied := ownCopies_work p r.1.2 (r.2.put (.line (lineOf k) (some ((r.2.st.lineAt (lineOf k)).afterStore r.2.st.now 640))))
      rw [noted.mem] at copied
      exact noted.trans copied
    obtain ⟨olds, mem', after, bytes'⟩ := ih g1 fun e he => home e (List.mem_cons_of_mem _ he)
    have now : g1.st.byte = (atomsInTurn p.ty p.op (accBytes p.ty) [(l.lane, k, l.data, l.expect)] g.st.byte).2 := by
      rw [← bytes, ← marked.mem]
      rfl
    rw [now] at olds bytes'
    rw [show ((l, Loc.home k) :: ls).filterMap homeLane = (l.lane, k, l.data, l.expect) :: ls.filterMap homeLane from rfl, atomsInTurn_cons, old]
    refine ⟨?_, mem', marked.trans after, bytes'⟩
    show (l.lane, r.1.1) :: (performAtomics g1 p ls).1 = _
    rw [olds]
    rfl

end Sys2Proof.Machine
end

section
/-! SUPPORT. O36: passes that a target holds, refuses, lets go and performs (R296, R297, R301, R363, R364). -/

namespace Sys2Proof.Machine

open Sys2Proof

variable {s0 : State}

/-- A message goes out, or its event comes to this module. -/
theorem toPeer_sent (g : Go s0) {s : State} (peer : Nat) (m : Msg) (ev : Instr) (agenda : g.st.agenda = s.agenda) (outbox : g.st.outbox = s.outbox)
    (mod : g.st.mod.modid = s.mod.modid) : Sent s (toPeer g peer m ev).st peer m ev := by
  unfold toPeer Sent
  rw [mod]
  split
  · exact ⟨by rw [← agenda]; rfl, outbox⟩
  · exact ⟨by rw [← outbox]; rfl, agenda⟩

/-- A message changes nothing else. -/
theorem toPeer_rest (g : Go s0) (peer : Nat) (m : Msg) (ev : Instr) :
    (toPeer g peer m ev).st = { g.st with agenda := (toPeer g peer m ev).st.agenda, outbox := (toPeer g peer m ev).st.outbox } := by
  unfold toPeer
  split <;> rfl

section Arrive

variable {s : State} {p : PassIn}

/-- The answer to a pass leaves a state that has only done a junction die's work. -/
theorem DieOnly.replies {g : Go s0} (h : DieOnly s g.st) (refused data : List (Nat × Nat)) (bad : List Nat) (clk : Nat) (vc : Table Nat) :
    (replyPass g p refused data bad clk vc).st.mem = g.st.mem ∧ (replyPass g p refused data bad clk vc).st.held = g.st.held ∧
      Sent s (replyPass g p refused data bad clk vc).st p.src (.reply p.src p.id refused data bad clk vc) (.passReply p.id refused data bad clk vc) := by
  unfold replyPass
  refine ⟨by rw [toPeer_rest], by rw [toPeer_rest], toPeer_sent g _ _ _ ?_ ?_ ?_⟩ <;> rw [show g.st = _ from h]

theorem passPlaces_only (us : List Nat) (p : PassIn) (ls : List PassLane) (g : Go s0) : OnlyTlbs g.st (passPlaces g us p ls).2.st := by
  induction ls generalizing g with
  | nil => exact .refl _
  | cons l ls ih =>
    have all := (placeOf_only g us p.ctx l.addr.toNat (accBytes p.ty) (p.kind != .rld) p.dclass).trans (ih _)
    simp only [passPlaces]
    split <;> exact all

/-- A pass whose lanes are all at homes of this module finds them there. -/
theorem passPlaces_home {us : List Nat} {home : Nat → Nat} {ls : List PassLane} {g : Go s0} (h : Translated s us p.ctx g.st)
    (lanes : ∀ l ∈ ls, s.HomeAt p.ctx l.addr.toNat (accBytes p.ty) (p.kind != .rld) p.dclass (home l.lane)) :
    (passPlaces g us p ls).1 = ([], ls.map fun l => (l.lane, .home (home l.lane))) := by
  induction ls generalizing g with
  | nil => rfl
  | cons l ls ih =>
    obtain ⟨e, place, after⟩ := placeOf_home h (lanes l List.mem_cons_self)
    have rest := ih after fun l hl => lanes l (List.mem_cons_of_mem _ hl)
    simp only [passPlaces, place, rest, List.map_cons]

/-- What a remote load that is held answers with: the bytes at home of each lane. -/
def loadData (u : State) (p : PassIn) (ps : List (Nat × Loc)) : List (Nat × Nat) :=
  if p.kind = .rld then ps.filterMap fun e => match e.2 with
    | .home k => some (e.1, leNat (u.bytesAt k (accBytes p.ty)))
    | _ => none else []

theorem loadData_home {u : State} (load : p.kind = .rld) (home : Nat → Nat) (ls : List PassLane) :
    loadData u p (ls.map fun l => (l.lane, .home (home l.lane))) =
      ls.map fun l => (l.lane, leNat ((List.range (accBytes p.ty)).map fun j => u.byte (home l.lane + j))) := by
  simp only [loadData, load, if_true, List.filterMap_map, Function.comp_def, State.bytesAt_eq, ← List.filterMap_eq_map]

/-- The leases that a held remote pass ends and takes (R104, R119). -/
def passLeases (g : Go s0) (p : PassIn) (ps : List (Nat × Loc)) : Go s0 :=
  let g := endLeases g (placeLines ps)
  if p.kind = .rld && p.src != g.st.mod.modid then g.each (placeLines ps) fun ln g => remoteLease g ln else g

theorem passLeases_work (g : Go s0) (p : PassIn) (ps : List (Nat × Loc)) : DieWork g.st (passLeases g p ps).st g.st.mem := by
  have ended := endLeases_work g (placeLines ps)
  unfold passLeases
  dsimp only
  split
  · exact ended.each fun ln _ g => remoteLease_work g ln
  · exact ended

/-- A held pass with nothing performed. -/
def passHeldAt (p : PassIn) (ps : List (Nat × Loc)) : HeldPass := { pass := p, locs := ps, lines := passLines p, flags := [] }

theorem remoteArrive_holds {g g1 : Go s0} {ps : List (Nat × Loc)}
    (places : passPlaces g (jdUnits (Config.freeNat (g.st.salt 61 p.id) % 4)) p p.lanes = (([], ps), g1)) :
    let g2 := passLeases g1 p ps
    ∃ bad clk vc, remoteArrive g p = replyPass (g2.put (.held (g2.st.held ++ [passHeldAt p ps]))) p [] (loadData g2.st p ps) bad clk vc := by
  unfold remoteArrive
  dsimp only
  rw [places]
  exact ⟨_, _, _, rfl⟩

theorem remoteArrive_refuses {g g1 : Go s0} {fs : List LaneFault} {ps : List (Nat × Loc)} (some_ : fs ≠ []) (mapped : ∀ e ∈ fs, e.cause ≠ 6)
    (places : passPlaces g (jdUnits (Config.freeNat (g.st.salt 61 p.id) % 4)) p p.lanes = ((fs, ps), g1)) :
    remoteArrive g p = replyPass g1 p (fs.map fun e => (e.lane, e.cause)) [] [] 0 [] := by
  have absent : fs.filter (fun e => e.cause == 6) = [] := List.filter_eq_nil_iff.2 fun e he => by simpa using mapped e he
  unfold remoteArrive
  dsimp only
  rw [places]
  dsimp only
  rw [if_pos (by simpa using some_), absent]
  rfl

/-- A remote pass that does not wait behind a flag arrives. -/
theorem exec_remotePassArrive (free : p.kind = .rld → s.behindFlag p = false) :
    exec (.remotePassArrive p) s = .next (remoteArrive (Go.start s) p).st := by
  show execRemotePassArrive p s = _
  unfold execRemotePassArrive
  rw [if_neg (by simpa using free)]
  rfl

/-- Lanes at homes are held there, and a load answers with their bytes. -/
theorem remotePass_held (free : p.kind = .rld → s.behindFlag p = false) (home : Nat → Nat) (agree : ∀ j, j < 4 → s.UnitsAgree (jdUnits j) p.ctx)
    (lanes : ∀ l ∈ p.lanes, s.HomeAt p.ctx l.addr.toNat (accBytes p.ty) (p.kind != .rld) p.dclass (home l.lane)) :
    ∃ u data bad clk vc, exec (.remotePassArrive p) s = .next u ∧ u.mem = s.mem ∧
      u.held = s.held ++ [passHeldAt p (p.lanes.map fun l => (l.lane, .home (home l.lane)))] ∧
      Sent s u p.src (.reply p.src p.id [] data bad clk vc) (.passReply p.id [] data bad clk vc) ∧
      (p.kind = .rld → data = p.lanes.map fun l => (l.lane, leNat ((List.range (accBytes p.ty)).map fun j => s.byte (home l.lane + j)))) := by
  let us := jdUnits (Config.freeNat ((Go.start s).st.salt 61 p.id) % 4)
  let ps := p.lanes.map fun l => (l.lane, Loc.home (home l.lane))
  let g1 := (passPlaces (Go.start s) us p p.lanes).2
  let g2 := passLeases g1 p ps
  let g3 := g2.put (.held (g2.st.held ++ [passHeldAt p ps]))
  have only : OnlyTlbs s g1.st := passPlaces_only us p p.lanes (Go.start s)
  have places : passPlaces (Go.start s) us p p.lanes = (([], ps), g1) :=
    Prod.ext (passPlaces_home (g := Go.start s) (.refl (agree _ (Nat.mod_lt _ (by decide)))) lanes) rfl
  obtain ⟨bad, clk, vc, arrives⟩ := remoteArrive_holds places
  have looked : DieWork s g1.st s.mem := ⟨only.dieOnly, by rw [show g1.st = _ from only], by rw [show g1.st = _ from only]⟩
  have leased : DieWork s g2.st s.mem := by
    have leases := passLeases_work g1 p ps
    rw [looked.mem] at leases
    exact looked.trans leases
  have bytes : g2.st.byte = s.byte := by
    unfold State.byte
    rw [leased.mem]
  obtain ⟨mem, held, sent⟩ := DieOnly.replies (g := g3) (p := p) (leased.only.trans rfl) [] (loadData g2.st p ps) bad clk vc
  refine ⟨_, _, bad, clk, vc, (exec_remotePassArrive free).trans (by rw [arrives]), mem.trans leased.mem, ?_, sent, fun load => ?_⟩
  · rw [held, ← leased.held]
    rfl
  · rw [loadData_home load, bytes]

/-- A lane that fails refuses the pass: its causes go back. -/
theorem remotePass_refused (free : p.kind = .rld → s.behindFlag p = false) {fs : List LaneFault} {locs : List (Nat × Loc)}
    (places : ∀ j, j < 4 → ∃ g : Go s, passPlaces (Go.start s) (jdUnits j) p p.lanes = ((fs, locs), g)) (some_ : fs ≠ [])
    (mapped : ∀ e ∈ fs, e.cause ≠ 6) :
    ∃ u, exec (.remotePassArrive p) s = .next u ∧ u.mem = s.mem ∧ u.held = s.held ∧
      Sent s u p.src (.reply p.src p.id (fs.map fun e => (e.lane, e.cause)) [] [] 0 [])
        (.passReply p.id (fs.map fun e => (e.lane, e.cause)) [] [] 0 []) := by
  obtain ⟨g1, found⟩ := places (Config.freeNat ((Go.start s).st.salt 61 p.id) % 4) (Nat.mod_lt _ (by decide))
  have only : OnlyTlbs s g1.st := by
    have looked := passPlaces_only (jdUnits (Config.freeNat ((Go.start s).st.salt 61 p.id) % 4)) p p.lanes (Go.start s)
    rw [found] at looked
    exact looked
  obtain ⟨mem, held, sent⟩ := only.dieOnly.replies (p := p) (fs.map fun e => (e.lane, e.cause)) [] [] 0 []
  refine ⟨_, (exec_remotePassArrive free).trans (by rw [remoteArrive_refuses some_ mapped found]), mem.trans ?_, held.trans ?_, sent⟩
  all_goals rw [show g1.st = _ from only]

end Arrive

section Window

variable {s : State} {p : PassIn}

/-- A window pass that its member's core accepts is held there, and a load answers with the member's scratch. -/
theorem windowPass_held {gg : Gang} {n : Nat} {tm : Team} (gang : Tab.find s.gangs p.gang = some gg) (rank : p.rank ∉ gg.lost)
    (member : Tab.find gg.teams p.rank = some n) (team : s.team? n = some tm) (lanes : ∀ l ∈ p.lanes, memberCause s p n tm l = none) :
    ∃ u data bad, exec (.windowPassArrive p) s = .next u ∧ u.mem = s.mem ∧
      u.held = s.held ++ [passHeldAt p (p.lanes.map fun l => (l.lane, .scratch n l.addr.toNat))] ∧
      Sent s u p.src (.reply p.src p.id [] data bad 0 []) (.passReply p.id [] data bad 0 []) ∧ (tm.poison = [] → bad = []) ∧
      (p.kind = .gld → ∀ l ∈ p.lanes, (l.lane, leNat ((List.range (accBytes p.ty)).map fun j => Tab.get 0 tm.scratch (l.addr.toNat + j))) ∈ data) := by
  let held := passHeldAt p (p.lanes.map fun l => (l.lane, Loc.scratch n l.addr.toNat))
  have clean : (p.lanes.filterMap fun l => (memberCause s p n tm l).map fun c => (l.lane, c)) = [] :=
    List.filterMap_eq_nil_iff.2 fun l hl => by rw [lanes l hl]; rfl
  have arrives : ∃ data bad, windowArrive (Go.start s) p = replyPass ((Go.start s).put (.held (s.held ++ [held]))) p [] data bad 0 [] ∧
      (tm.poison = [] → bad = []) ∧ (p.kind = .gld → data = p.lanes.map fun l => (l.lane, leNat (tm.bytesAt l.addr.toNat (accBytes p.ty)))) := by
    unfold windowArrive
    simp only [Go.start_st, gang, Option.bind_some, List.contains_eq_mem, rank, decide_false, Bool.false_eq_true, if_false, member, team, Option.map_some,
      clean, List.isEmpty_nil, Bool.not_true]
    refine ⟨_, _, rfl, fun none => ?_, fun load => by simp [load]⟩
    simp [none]
  obtain ⟨data, bad, arrives, clear, loaded⟩ := arrives
  obtain ⟨mem, held, sent⟩ := DieOnly.replies (g := (Go.start s).put (.held (s.held ++ [held]))) (s := s) (p := p) rfl [] data bad 0 []
  refine ⟨_, data, bad, congrArg (fun g : Go s => g.done) arrives, mem, held, sent, clear, fun load l hl => ?_⟩
  rw [loaded load]
  simp only [← Team.bytesAt_eq]
  exact List.mem_map_of_mem hl

/-- A window pass of a gang that this module does not know is refused in every lane. -/
theorem windowPass_refused (gang : Tab.find s.gangs p.gang = none) :
    ∃ u, exec (.windowPassArrive p) s = .next u ∧ u.held = s.held ∧ u.mem = s.mem ∧
      Sent s u p.src (.reply p.src p.id (p.lanes.map fun l => (l.lane, 10)) [] [] 0 [])
        (.passReply p.id (p.lanes.map fun l => (l.lane, 10)) [] [] 0 []) := by
  have arrives : windowArrive (Go.start s) p = replyPass (Go.start s) p (p.lanes.map fun l => (l.lane, 10)) [] [] 0 [] := by
    unfold windowArrive
    simp only [Go.start_st, gang, Option.bind_none]
  obtain ⟨mem, held, sent⟩ := DieOnly.replies (g := Go.start s) (s := s) (p := p) rfl (p.lanes.map fun l => (l.lane, 10)) [] [] 0 []
  exact ⟨_, congrArg (fun g : Go s => g.done) arrives, held, mem, sent⟩

end Window

end Sys2Proof.Machine
end

section
/-! SUPPORT. O36: commits, cancels and the release of ordered flags, at the target (R126, R223, R297, R363, R364). -/

namespace Sys2Proof.Machine

open Sys2Proof

variable {s0 : State}

/-- The held passes without those of a number. -/
def heldWithout (s : State) (p : PassIn) : List HeldPass := s.held.filter fun q => !(q.pass.src == p.src && q.pass.id == p.id)

theorem Tab.find_eq_find? {β : Type} (t : Table β) (k : Nat) : Tab.find t k = (t.find? fun e => e.1 == k).map Prod.snd := by
  induction t with
  | nil => rfl
  | cons e t ih =>
    rw [Tab.find_cons, List.find?_cons, ih]
    by_cases own : k = e.1
    case pos => simp [own]
    case neg => rw [if_neg own, beq_eq_false_iff_ne.2 (Ne.symm own)]

section Held

variable {s : State} {h : HeldPass}

/-- The lanes of a group as the statements list them. -/
theorem heldLanes_eq (ln : Nat) : heldLanes h ln = (h.group (some ln)).filterMap homeLane := by
  unfold heldLanes HeldPass.group
  rw [List.filterMap_filterMap]
  refine congrArg (fun f => List.filterMap f _) (funext fun l => ?_)
  rw [Tab.find_eq_find?]
  cases h.locs.find? fun e => e.1 == l.lane with
  | none => rfl
  | some e => obtain ⟨n, loc⟩ := e; cases loc <;> rfl

theorem HeldPass.group_home (home : ∀ e ∈ h.locs, ∃ a, e.2 = .home a) (line : Option Nat) : ∀ e ∈ h.group line, ∃ a, e.2 = .home a := by
  intro e he
  obtain ⟨l, -, found⟩ := List.mem_filterMap.1 he
  obtain ⟨q, hq, rfl⟩ := Option.map_eq_some_iff.1 found
  exact home q (List.mem_of_find?_eq_some hq)

/-- Lanes at home are recorded for no window. -/
theorem trackLanes_home (g : Go s0) (p : PassIn) {ls : List (PassLane × Loc)} (home : p.track = none ∨ ∀ e ∈ ls, ∃ a, e.2 = .home a) :
    trackLanes g p ls = g := by
  unfold trackLanes
  cases track : p.track with
  | none => rfl
  | some b =>
    have near := home.resolve_left (by rw [track]; simp)
    exact Go.each_same (fun e he g => by obtain ⟨a, at_⟩ := near e he; simp only [at_]) g

section Found

variable (found : s.held.find? (fun q => q.pass.src == h.pass.src && q.pass.id == h.pass.id) = some h)

include found

/-- A cancelled pass is gone. -/
theorem exec_passCancel : exec (.passCancel h.pass.src h.pass.id) s = .next { s with held := heldWithout s h.pass } := by
  have some_ : (s.held.any fun q => q.pass.src == h.pass.src && q.pass.id == h.pass.id) = true :=
    List.any_eq_true.2 ⟨h, List.mem_of_find?_eq_some found, by simp⟩
  show execPassCancel _ _ s = _
  unfold execPassCancel
  rw [if_pos some_]
  rfl

/-- A committed load pass is gone. -/
theorem exec_passCommit_load (load : h.pass.kind = .rld ∨ h.pass.kind = .gld) (home : h.pass.track = none ∨ ∀ e ∈ h.locs, ∃ a, e.2 = .home a)
    (grp : Option (Nat × Nat)) (before : List Nat) :
    exec (.passCommit h.pass.src h.pass.id grp before) s = .next { s with held := heldWithout s h.pass } := by
  show execPassCommit _ _ grp before s = _
  unfold execPassCommit
  simp only [found]
  rw [if_pos (by simpa using load), trackLanes_home _ _ (home.imp_right fun near => HeldPass.group_home near none)]
  rfl

/-- The state in which a group of the pass has come by a path. -/
theorem exec_passCommit_group (store : h.pass.kind = .rst ∨ h.pass.kind = .ratom) (ln path : Nat) (before : List Nat) :
    exec (.passCommit h.pass.src h.pass.id (some (ln, path)) before) s =
      let came := s.groupsOf h.pass path
      let g := (Go.start s).put (.groups (groupKey h.pass path) (came ++ [0]))
      if h.pass.ordered then (holdGroup g h ⟨before, path, ln, came.length⟩).done
      else if s.behindFlag { h.pass with lanes := (h.group (some ln)).map Prod.fst } then (holdGroup g h ⟨[0, 0, 0, 0], path, ln, came.length⟩).done
      else (performGroup g h (some (ln, path, came.length))).done := by
  have kinds : h.pass.kind ≠ .rld ∧ h.pass.kind ≠ .gld ∧ h.pass.kind ≠ .gst := by rcases store with k | k <;> simp [k]
  obtain ⟨rld, gld, gst⟩ := kinds
  show execPassCommit h.pass.src h.pass.id (some (ln, path)) before s = _
  unfold execPassCommit
  simp only [found]
  rw [if_neg (by simp [rld, gld])]
  simp only [groupArrives, gst, if_false]
  rfl

end Found

/-- A group that waits has come, and stands among the waiting ones of its pass. -/
theorem holdGroup_waits (path : Nat) (f : HeldGroup) :
    ∃ u, (holdGroup ((Go.start s).put (.groups (groupKey h.pass path) (s.groupsOf h.pass path ++ [0]))) h f).done = .next u ∧
      u.groupsOf h.pass path = s.groupsOf h.pass path ++ [0] ∧
      u = { s with groups := u.groups, held := s.held.map fun q => if q.pass.src = h.pass.src && q.pass.id = h.pass.id then
        { q with flags := q.flags ++ [f] } else q } := by
  refine ⟨_, rfl, Tab.get_set_same .., rfl⟩

/-- The passes that are held after a group of one has performed. -/
def heldAfter (held : List HeldPass) (h : HeldPass) (ln : Nat) : List HeldPass :=
  let left := h.lines.filter fun n => n != ln
  held.filterMap fun o => if o.pass.src = h.pass.src && o.pass.id = h.pass.id then
    (if left.isEmpty then none else some { h with lines := left, flags := h.flags.filter fun f => f.line != ln }) else some o

theorem heldAfter_lines {held : List HeldPass} {ln : Nat} : ∀ q ∈ heldAfter held h ln, q.pass.src = h.pass.src → q.pass.id = h.pass.id → ln ∉ q.lines := by
  intro q hq src id
  obtain ⟨o, -, eq⟩ := List.mem_filterMap.1 hq
  split at eq
  case isTrue =>
    split at eq
    · cases eq
    · obtain rfl := Option.some.inj eq
      simp
  case isFalse other =>
    obtain rfl := Option.some.inj eq
    exact absurd (by simp [src, id]) other

/-- The accesses of a group: the old values, and the path on. -/
def groupAccesses (p : PassIn) (ls : List (PassLane × Loc)) (g : Go s0) : List (Nat × Nat) × Go s0 :=
  if p.kind = .ratom then performAtomics g p ls else ([], performStores g p ls)

theorem groupAccesses_writes {p : PassIn} {ls : List (PassLane × Loc)} (home : ∀ e ∈ ls, ∃ a, e.2 = .home a) (g : Go s0) :
    let accs := ls.filterMap homeLane
    let n := accBytes p.ty
    ∃ mem, HomeWork g.st (groupAccesses p ls g).2.st mem ∧ (p.kind = .ratom → (groupAccesses p ls g).1 = (atomsInTurn p.ty p.op n accs g.st.byte).1) ∧
      ∀ b, Tab.get 0 mem b = if p.kind = .ratom then (atomsInTurn p.ty p.op n accs g.st.byte).2 b
        else lastWritten n (accs.map fun q => (q.2.1, q.2.2.1)) g.st.byte b := by
  unfold groupAccesses
  by_cases atomic : p.kind = .ratom
  case pos =>
    obtain ⟨olds, mem, written, bytes⟩ := performAtomics_writes g p home
    simp only [if_pos atomic]
    exact ⟨mem, written, fun _ => olds, fun b => congrFun bytes b⟩
  case neg =>
    obtain ⟨mem, written, bytes⟩ := performStores_writes g p home
    simp only [if_neg atomic]
    exact ⟨mem, written, fun h => absurd h atomic, bytes⟩

/-- The path of a group up to its accesses. -/
def groupStart (g : Go s0) (h : HeldPass) (ln : Nat) : Go s0 :=
  endLeases (g.put (.held (heldAfter g.st.held h ln))) (placeLines ((h.group (some ln)).map fun e => (e.1.lane, e.2)))

/-- A group at home is acknowledged once its accesses are made. -/
theorem performGroup_acks (g : Go s0) (store : h.pass.kind = .rst ∨ h.pass.kind = .ratom) (mirror : h.pass.mirror = none)
    (home : ∀ e ∈ h.locs, ∃ a, e.2 = .home a) (ln path no : Nat) :
    let r := groupAccesses h.pass (h.group (some ln)) (groupStart g h ln)
    ∃ t a, performGroup g h (some (ln, path, no)) = ackPass (groupDone r.2 h.pass path no t) h.pass.src h.pass.id a ∧ a.line = ln ∧
      a.olds = r.1 ∧ a.peer = (groupDone r.2 h.pass path no t).st.mod.modid := by
  unfold performGroup
  simp only [Option.map_some, trackLanes_home g h.pass (.inr (HeldPass.group_home home (some ln))), mirror]
  rcases store with kind | kind
  all_goals
    simp only [groupAccesses, kind]
    refine ⟨_, _, rfl, ?_, ?_, ?_⟩ <;> rfl

theorem groupDone_only (g : Go s0) (p : PassIn) (path no t : Nat) : (groupDone g p path no t).st = { g.st with groups := (groupDone g p path no t).st.groups } := by
  unfold groupDone
  split <;> rfl

/-- A group whose lanes are at home performs and is acknowledged. -/
theorem performGroup_performs {g : Go s0} (came : g.st = { s with groups := g.st.groups }) (store : h.pass.kind = .rst ∨ h.pass.kind = .ratom)
    (mirror : h.pass.mirror = none) (home : ∀ e ∈ h.locs, ∃ a, e.2 = .home a) (ln path no : Nat) :
    GroupPerforms s (performGroup g h (some (ln, path, no))).done h ln := by
  let g1 := groupStart g h ln
  let r := groupAccesses h.pass (h.group (some ln)) g1
  obtain ⟨t, a, acks, line, olds, peer⟩ := performGroup_acks g store mirror home ln path no
  let g2 := groupDone r.2 h.pass path no t
  have started : DieOnly s g1.st ∧ g1.st.mem = s.mem ∧ g1.st.held = heldAfter s.held h ln := by
    obtain ⟨only, mem, held⟩ := endLeases_work (g.put (.held (heldAfter g.st.held h ln))) (placeLines ((h.group (some ln)).map fun e => (e.1.lane, e.2)))
    refine ⟨DieOnly.trans ?_ only, mem.trans ?_, held.trans ?_⟩
    · unfold DieOnly
      rw [Go.put_st, came]
      rfl
    · rw [Go.put_st, came]
      rfl
    · rw [Go.put_st, came]
      rfl
  obtain ⟨only, mem, held⟩ := started
  obtain ⟨mem', written, old, bytes⟩ := groupAccesses_writes (HeldPass.group_home home (some ln)) g1
  have same : g1.st.byte = s.byte := by
    unfold State.byte
    rw [mem]
  rw [same, ← heldLanes_eq] at old bytes
  have done : DieOnly s g2.st := (only.trans written.dieWork.only).trans (by unfold DieOnly; rw [groupDone_only])
  refine ⟨_, a, congrArg (fun g : Go s0 => g.done) acks, fun b => ?_, line, ?_, fun atomic => olds.trans (old atomic), ?_, ?_⟩
  · show Tab.get 0 (ackPass g2 h.pass.src h.pass.id a).st.mem b = _
    rw [← bytes, ackPass, toPeer_rest, groupDone_only, written.mem]
  · rw [peer, show g2.st = _ from done]
  · exact toPeer_sent g2 _ _ _ (by rw [show g2.st = _ from done]) (by rw [show g2.st = _ from done]) (by rw [show g2.st = _ from done])
  · show (ackPass g2 h.pass.src h.pass.id a).st.now = _ ∧ (ackPass g2 h.pass.src h.pass.id a).st.launches = _ ∧ (ackPass g2 h.pass.src h.pass.id a).st.ctxs = _ ∧
      ∀ q ∈ (ackPass g2 h.pass.src h.pass.id a).st.held, _
    have after : g2.st.held = heldAfter s.held h ln := by
      rw [groupDone_only]
      exact written.dieWork.held.trans held
    rw [ackPass, toPeer_rest]
    refine ⟨?_, ?_, ?_, by rw [after]; exact heldAfter_lines⟩
    all_goals rw [show g2.st = _ from done]

/-- The release of the first group that waits, once the groups before it have performed. -/
theorem exec_orderedFlagRelease (found : s.held.find? (fun q => q.pass.src == h.pass.src && q.pass.id == h.pass.id) = some h) {f : HeldGroup}
    {rest : List HeldGroup} (flags : h.flags = f :: rest) (ready : flagReady s h f.before = true) (first : s.earlierGroup h f.line = false) :
    exec (.orderedFlagRelease h.pass.src h.pass.id) s = (performGroup (Go.start s) h (some (f.line, f.path, f.no))).done := by
  have group : s.readyGroup h = some (f.line, f.path, f.no) := by
    unfold State.readyGroup
    rw [flags, List.find?_cons]
    simp [ready, first]
  have release : s.held.find? (fun q => q.pass.src == h.pass.src && q.pass.id == h.pass.id && (s.readyGroup q).isSome) = some h := by
    obtain ⟨own, before, after, held, others⟩ := List.find?_eq_some_iff_append.1 found
    refine List.find?_eq_some_iff_append.2 ⟨by simp [group], before, after, held, fun q hq => ?_⟩
    have other := others q hq
    simp only [Bool.not_eq_eq_eq_not, Bool.not_true] at other ⊢
    simp [other]
  show execOrderedFlagRelease h.pass.src h.pass.id s = _
  unfold execOrderedFlagRelease
  simp only [release, group]

/-- The lanes of a group, as the statement of the lanes behind a flag names them. -/
theorem group_lanes (ln : Nat) : (h.group (some ln)).map Prod.fst =
    h.pass.lanes.filter fun l => l.addr.toNat % 2 ^ 60 / 64 == ln && (h.locs.find? fun e => e.1 == l.lane).isSome := by
  unfold HeldPass.group
  have placed : (fun l : PassLane => ((h.locs.find? fun e => e.1 == l.lane).map fun e => (l, e.2)).map Prod.fst) =
      Option.guard fun l => (h.locs.find? fun e => e.1 == l.lane).isSome := funext fun l => by
    cases found : h.locs.find? fun e => e.1 == l.lane <;> simp [Option.guard, found]
  rw [List.map_filterMap, placed, List.filterMap_eq_filter, List.filter_filter]
  exact congrArg (fun f => List.filter f _) (funext fun l => Bool.and_comm ..)

end Held

end Sys2Proof.Machine

namespace Sys2Proof

open Machine

/-- Settles O36: arrivals are read off their answers; what a commit or a release performs is what the group's accesses write. -/
theorem targetsHoldAndPerformPasses : Obligations.TargetsHoldAndPerformPasses := by
  unfold Obligations.TargetsHoldAndPerformPasses
  intro s
  refine ⟨fun p free => ⟨fun home agree lanes => remotePass_held free home agree lanes, fun fs locs places some_ mapped => remotePass_refused free places some_ mapped⟩,
    fun p gg n tm gang rank member team lanes => windowPass_held gang rank member team lanes, fun p gang => windowPass_refused gang,
    fun h before found => ⟨exec_passCancel found, fun load near grp => exec_passCommit_load found load near grp before, fun ln path store mirror home => ?_⟩⟩
  have commits := exec_passCommit_group found store ln path before
  rw [group_lanes] at commits
  dsimp only at commits ⊢
  refine ⟨fun plain free => ?_, fun plain behind => ?_, fun ordered => ?_, fun no rest flags ready first => ?_⟩
  · rw [commits, if_neg (by simp [plain]), if_neg (by rw [free]; exact Bool.false_ne_true)]
    exact performGroup_performs rfl store mirror home ..
  · rw [commits, if_neg (by simp [plain]), if_pos behind]
    exact holdGroup_waits ..
  · rw [commits, if_pos ordered]
    exact holdGroup_waits ..
  · rw [exec_orderedFlagRelease found flags ready first]
    exact performGroup_performs rfl store mirror home ..

end Sys2Proof
end

section
/-! SUPPORT. The lines of a core that holds no copy of them, as it reads them: the bytes at home (R104, R119). -/

namespace Sys2Proof.Machine

open Sys2Proof

variable {s0 : State}

/-! ### Leases that an access leaves -/

/-- No lease on the line ends when the core accesses it: what there is is the core's own and runs on. -/
def State.lineFree (s : State) (core ln : Nat) : Prop := ∀ j e, (s.lineAt ln).excl = some (j, e) → j = core ∧ s.now < e

theorem lineFree_of_heldLine {s : State} {core ln : Nat} (held : s.heldLine ln core = false)
    (live : ∀ j e, (s.lineAt ln).excl = some (j, e) → s.now < e) : s.lineFree core ln := by
  intro j e excl
  have now := live j e excl
  simp only [State.heldLine, excl, now, decide_true, Bool.and_true, bne_eq_false_iff_eq] at held
  exact ⟨held, now⟩

theorem settleLease_free {g : Go s0} {core ln : Nat} (free : g.st.lineFree core ln) : settleLease g ln core = g := by
  unfold settleLease
  split
  case h_1 j e excl =>
    obtain ⟨own, now⟩ := free j e excl
    rw [if_neg (by simp [own, now])]
  case h_2 => rfl

/-! ### Lines -/

theorem State.lineAt_line_same (s : State) (ln : Nat) (l : Line) : ((Upd.line ln (some l)).apply s).lineAt ln = l := by
  unfold State.lineAt
  rw [show Tab.find ((Upd.line ln (some l)).apply s).lines ln = some l from Tab.find_put_same ..]

theorem State.lineAt_line_other (s : State) {ln j : Nat} (l : Line) (h : j ≠ ln) : ((Upd.line ln (some l)).apply s).lineAt j = s.lineAt j := by
  unfold State.lineAt
  rw [show Tab.find ((Upd.line ln (some l)).apply s).lines j = Tab.find s.lines j from Tab.find_put_other _ _ h]

/-- Nothing but leases and copies has changed, those of the lines `P` not. -/
structure LinesRead (core : Nat) (P : Nat → Prop) (s u : State) : Prop where
  only  : u = { s with lines := u.lines, cores := u.cores }
  lines : ∀ j, P j → u.lineAt j = s.lineAt j ∧ Tab.find (u.coreOf core).copies j = Tab.find (s.coreOf core).copies j

/-- A line of which the core holds no copy is read at home. -/
theorem coreLine_home {g : Go s0} {core ln : Nat} (free : g.st.lineFree core ln) (none : Tab.find (g.st.coreOf core).copies ln = none)
    (minGrant : Nat) (alloc : Bool) :
    (coreLine g core ln minGrant alloc).1 = g.st.bytesAt (64 * ln) 64 ∧
      LinesRead core (fun j => j ≠ ln) g.st (coreLine g core ln minGrant alloc).2.st := by
  have dead : g.st.liveCopy core ln minGrant = Option.none := by simp only [State.liveCopy, none]
  unfold coreLine
  simp only [dead, settleLease_free free]
  cases alloc with
  | false =>
    refine ⟨rfl, rfl, fun j hj => ⟨rfl, ?_⟩⟩
    simp only [modCore, Bool.false_eq_true, if_false, Go.put_st, State.coreOf_upd_same]
    exact Tab.find_del_other _ hj
  | true =>
    refine ⟨rfl, rfl, fun j hj => ⟨State.lineAt_line_other _ _ hj, ?_⟩⟩
    simp only [modCore, if_true, Go.put_st, State.coreOf_upd_same]
    exact Tab.find_put_other _ _ hj

/-- So are lines one after another. -/
theorem readLines_home {g : Go s0} {core : Nat} {lns : List Nat} (nodup : lns.Nodup)
    (free : ∀ ln ∈ lns, g.st.lineFree core ln ∧ Tab.find (g.st.coreOf core).copies ln = none) (minGrant : Nat) (alloc : Bool) :
    (readLines g core minGrant alloc lns).1 = (lns.map fun ln => (ln, g.st.bytesAt (64 * ln) 64)) ∧
      (readLines g core minGrant alloc lns).2.st = { g.st with lines := (readLines g core minGrant alloc lns).2.st.lines
                                                               cores := (readLines g core minGrant alloc lns).2.st.cores } := by
  induction lns generalizing g with
  | nil => exact ⟨rfl, rfl⟩
  | cons ln lns ih =>
    obtain ⟨other, nodup⟩ := List.nodup_cons.1 nodup
    obtain ⟨first, absent⟩ := free ln List.mem_cons_self
    obtain ⟨bytes, only, rest⟩ := coreLine_home first absent minGrant alloc
    let g1 := (coreLine g core ln minGrant alloc).2
    have now : g1.st.now = g.st.now := by rw [only]
    have mem : g1.st.mem = g.st.mem := by rw [only]
    obtain ⟨values, reads⟩ := ih (g := g1) nodup fun j hj => by
      obtain ⟨line, copy⟩ := rest j fun eq => other (eq ▸ hj)
      obtain ⟨free, none⟩ := free j (List.mem_cons_of_mem _ hj)
      exact ⟨fun c e excl => by rw [now]; exact free c e (line ▸ excl), copy.trans none⟩
    simp only [State.bytesAt_of_mem mem] at values
    have split : readLines g core minGrant alloc (ln :: lns) =
        ((ln, (coreLine g core ln minGrant alloc).1) :: (readLines g1 core minGrant alloc lns).1, (readLines g1 core minGrant alloc lns).2) := rfl
    rw [split, bytes, values]
    refine ⟨rfl, ?_⟩
    dsimp only
    rw [reads, only]

theorem distinct_nodup (l : List Nat) : (distinct l).Nodup := by
  induction l with
  | nil => exact List.nodup_nil
  | cons x xs ih => exact List.nodup_cons.2 ⟨by simp, ih.filter _⟩

theorem mem_distinct {l : List Nat} {x : Nat} : x ∈ distinct l ↔ x ∈ l := by
  induction l with
  | nil => exact Iff.rfl
  | cons y ys ih =>
    rw [distinct, List.mem_cons, List.mem_cons, List.mem_filter, ih]
    by_cases own : x = y <;> simp [own]

/-- An access that stays in its line reads the bytes at home from it. -/
theorem lineBytes_home (s : State) {k n : Nat} (inside : k % 64 + n ≤ 64) :
    ((s.bytesAt (64 * lineOf k) 64).drop (k % 64)).take n = s.bytesAt k n := by
  have base : 64 * lineOf k + k % 64 = k := Nat.div_add_mod k 64
  have bytes := drop_take_range (A := s.byte) (lo := 64 * lineOf k) (n := 64) (o := k) (m := n) (by omega) (by omega)
  rw [State.bytesAt_eq, State.bytesAt_eq, ← bytes, show k - 64 * lineOf k = k % 64 by omega]

end Sys2Proof.Machine
end

section
/-! SUPPORT. A head load that returns, in its crew: what its destination takes, and the `qwait`s that end (R111, R112, R217). -/

namespace Sys2Proof.Machine

open Sys2Proof

variable {s0 : State}

/-! ### The destination -/

/-- The value of an access of `n` bytes at home byte `a`. -/
def State.homeVal (s : State) (n a : Nat) : Nat := leNat ((List.range n).map fun j => s.byte (a + j))

theorem State.homeVal_lt (s : State) (n a : Nat) : s.homeVal n a < 2 ^ (8 * n) := by
  have bound := leNat_lt ((List.range n).map fun j => s.byte (a + j))
  rwa [List.length_map, List.length_range] at bound

/-- What a register of `m` bits takes of a value of the type. -/
def loadReg (t : Ty) (m v : Nat) : Nat := if isHalf t then v % 2 ^ 32 else filled t m (BitVec.ofNat t.bits v)

/-- A loaded value as it goes to its destination. -/
def loadFill (t : Ty) (m v : Nat) : Nat := if isHalf t then v else extend t v m

theorem loadFill_mod (t : Ty) {m v : Nat} (h : isHalf t = true → v < 2 ^ 32 ∧ 32 ≤ m) : loadFill t m v % 2 ^ m = loadReg t m v := by
  unfold loadFill loadReg
  by_cases half : isHalf t = true
  case pos =>
    obtain ⟨small, wide⟩ := h half
    have fits : v < 2 ^ m := lt_of_lt_of_le small (Nat.pow_le_pow_right (by decide) wide)
    rw [if_pos half, if_pos half, Nat.mod_eq_of_lt fits, Nat.mod_eq_of_lt small]
  case neg => rw [if_neg half, if_neg half, extend_eq_filled]

/-- Row `j` of the destination takes its 32 bits. -/
theorem loadFill_elem (t : Ty) {n j v : Nat} (h : isHalf t = true → v < 2 ^ 32) (hj : j < n) :
    elem (loadFill t (32 * n) v) 32 j = loadReg t (32 * n) v / 2 ^ (32 * j) % 2 ^ 32 := by
  rw [← loadFill_mod t fun half => ⟨h half, by omega⟩]
  exact (elem_mod (by omega)).symm

section Out

variable {e : LoadEntry} {c : Crew} {r n w : Nat}

theorem LoadEntry.out_rows (dest : e.dest = .rows r n) : e.out w =
    { v := (e.got.map fun p => (List.range n).map fun j => ((r + j) % w, p.1, elem (loadFill e.ty (32 * n) p.2) 32 j)).flatten } := by
  simp only [LoadEntry.out, dest, loadFill]

theorem LoadEntry.out_uni (dest : e.dest = .uni n) : e.out w = { s := e.got.map fun p => (n, loadFill e.ty 64 p.2) } := by
  simp only [LoadEntry.out, dest, loadFill]

/-- Each lane's rows take its value. -/
theorem row_loaded (dest : e.dest = .rows r n) (lanes : ∀ p ∈ e.got, p.1 < 128) (nodup : (e.got.map Prod.fst).Nodup) (rows : n ≤ c.wrows) {l v j : Nat}
    (got : (l, v) ∈ e.got) (hj : j < n) :
    (c.putOut (e.out c.wrows)).row ((r + j) % c.wrows) l = BitVec.ofNat 32 (elem (loadFill e.ty (32 * n) v) 32 j) := by
  rw [Crew.row_putOut, LoadEntry.out_rows dest]
  have hl := lanes _ got
  refine Crew.row_putRows_same _ _ _ _ _ (fun q hq key => ?_) (.inl ⟨((r + j) % c.wrows, l, elem (loadFill e.ty (32 * n) v) 32 j), ?_, rfl⟩)
  · obtain ⟨ws, hws, hq⟩ := List.mem_flatten.1 hq
    obtain ⟨p, hp, rfl⟩ := List.mem_map.1 hws
    obtain ⟨i, hi, rfl⟩ := List.mem_map.1 hq
    have hi := List.mem_range.1 hi
    have hp' := lanes p hp
    dsimp only at key hl ⊢
    obtain rfl : p.1 = l := by omega
    obtain rfl : i = j := physRow_inj (wbase := r) (wrows := c.wrows) (by omega) (by omega) (by unfold physRow; omega)
    rw [List.inj_on_of_nodup_map nodup hp got rfl]
  · exact List.mem_flatten.2 ⟨_, List.mem_map.2 ⟨_, got, rfl⟩, List.mem_map.2 ⟨j, List.mem_range.2 hj, rfl⟩⟩

theorem row_unloaded (dest : e.dest = .rows r n) (lanes : ∀ p ∈ e.got, p.1 < 128) {row l : Nat} (hl : l < 128)
    (other : (∀ j, j < n → row ≠ (r + j) % c.wrows) ∨ ∀ p ∈ e.got, p.1 ≠ l) : (c.putOut (e.out c.wrows)).row row l = c.row row l := by
  rw [Crew.row_putOut, LoadEntry.out_rows dest]
  refine Crew.row_putRows_other _ _ _ _ fun q hq key => ?_
  obtain ⟨ws, hws, hq⟩ := List.mem_flatten.1 hq
  obtain ⟨p, hp, rfl⟩ := List.mem_map.1 hws
  obtain ⟨i, hi, rfl⟩ := List.mem_map.1 hq
  have hp' := lanes p hp
  dsimp only at key
  rcases other with other | other
  · exact other i (List.mem_range.1 hi) (by omega)
  · exact other p hp (by omega)

theorem uni_loaded (dest : e.dest = .uni n) (some_ : n ≠ 0) {l v : Nat} (got : e.got = [(l, v)]) :
    (c.putOut (e.out w)).uni n = BitVec.ofNat 64 (loadFill e.ty 64 v) := by
  rw [Crew.uni_putOut, LoadEntry.out_uni dest, got]
  exact Crew.uni_setUni_same _ _ some_

theorem uni_unloaded (dest : e.dest = .uni n) {m : Nat} (other : m ≠ n) : (c.putOut (e.out w)).uni m = c.uni m := by
  rw [Crew.uni_putOut, LoadEntry.out_uni dest]
  refine Crew.uni_putUnis_other _ _ _ fun q hq => ?_
  obtain ⟨p, -, rfl⟩ := List.mem_map.1 hq
  exact other.symm

end Out

end Sys2Proof.Machine
end

section
/-! SUPPORT. A head load that returns: its crew's queue, and the `qwait`s that end (R111, R112). -/

namespace Sys2Proof.Machine

open Sys2Proof

variable {s0 : State}

/-! ### The queue -/

theorem LoadEntry.spoilt_clean (s : State) {e : LoadEntry} (clean : e.poison = 0) : e.spoilt s = e := by
  have none : ∀ l, hasLane e.poison l = false := fun l => by simp [clean, hasLane]
  simp [LoadEntry.spoilt, none]

/-- The cells written since a load left, and the crew in which they may keep what was written (R112). -/
def Crew.wroteSince (c : Crew) (id : Nat) : List Nat := match c.uncov.find? fun u => u.id == id with | some u => u.wrote | none => []
def Crew.keepWritten (s : State) (c : Crew) (wrote cells : List Nat) (d : Crew) : Crew :=
  cells.foldl (fun (d : Crew) k => if wrote.contains k && c.cell k != d.cell k && Config.freeBit (s.salt 16 k) then d.setCell k (c.cell k) else d) d

theorem Crew.wroteSince_nothing {c : Crew} {id : Nat} (wrote : ∀ w ∈ c.uncov, w.id = id → w.wrote = []) : c.wroteSince id = [] := by
  unfold Crew.wroteSince
  split
  case h_1 u found => exact wrote u (List.mem_of_find?_eq_some found) (by simpa using List.find?_some found)
  case h_2 => rfl

theorem Crew.keepWritten_nothing (s : State) (c : Crew) (cells : List Nat) (d : Crew) : c.keepWritten s [] cells d = d := by
  induction cells with
  | nil => rfl
  | cons k cells ih => exact ih

/-- A crew whose loads all met no error (R241). -/
def Crew.Clean (c : Crew) : Prop := ∀ w ∈ c.uncov, w.poison = 0

/-- The crew without a load entry. -/
def Crew.withoutLoad (id : Nat) (c : Crew) : Crew := { c with loadq := c.loadq.filter fun q => q.id != id }

/-- The head load of a running crew, with its data: its values go to the registers, and it leaves the queue. -/
theorem Crew.retireLoad_clean (s : State) {c : Crew} {e : LoadEntry} (run : c.st = .running) (clean : e.poison = 0)
    (wrote : ∀ w ∈ c.uncov, w.id = e.id → w.wrote = []) (all : c.Clean) :
    SameRegs (c.retireLoad s e) ((c.withoutLoad e.id).putOut (e.out c.wrows)) ∧ (c.retireLoad s e).loadq = (c.withoutLoad e.id).loadq ∧
      (c.retireLoad s e).st = .running ∧ (c.retireLoad s e).Clean := by
  let d := c.withoutLoad e.id
  have retires : ∃ us ss, c.retireLoad s e =
      { d.keepWritten s (d.wroteSince (e.spoilt s).id) (((e.spoilt s).out d.wrows).cells d.width) (d.putOut ((e.spoilt s).out d.wrows)) with
        uncov := us, splits := ss } ∧ ∀ w ∈ us, w.poison = 0 := by
    unfold Crew.retireLoad
    dsimp only
    rw [if_neg (by rw [run]; decide)]
    refine ⟨_, _, rfl, fun w hw => ?_⟩
    obtain ⟨v, hv, rfl⟩ := List.mem_map.1 hw
    split
    · exact clean
    · exact all v hv
  obtain ⟨us, ss, retires, poison⟩ := retires
  rw [LoadEntry.spoilt_clean s clean, Crew.wroteSince_nothing (c := d) wrote, Crew.keepWritten_nothing] at retires
  rw [retires]
  refine ⟨⟨rfl, rfl, rfl, rfl, rfl, rfl⟩, ?_, ?_, poison⟩ <;> rw [Crew.putOut_frame]
  · rfl
  · exact run

theorem Crew.retireLoads_waits (s : State) {c : Crew} (none : ∀ q ∈ c.loadq, q.back = false) (n : Nat) : c.retireLoads s n = c := by
  cases n with
  | zero => rfl
  | succ n =>
    unfold Crew.retireLoads
    split
    case h_1 e rest queue => rw [if_neg (by rw [none e (by rw [queue]; exact List.mem_cons_self)]; exact Bool.false_ne_true)]
    case h_2 => rfl

/-- Of a queue whose head alone is back, the head retires. -/
theorem Crew.retireLoads_head (s : State) {c : Crew} {e : LoadEntry} {rest : List LoadEntry} (queue : c.loadq = e :: rest) (back : e.back = true)
    (others : ∀ q ∈ rest, q.back = false ∧ q.id ≠ e.id) (run : c.st = .running) (clean : e.poison = 0)
    (wrote : ∀ w ∈ c.uncov, w.id = e.id → w.wrote = []) (all : c.Clean) :
    let d := c.retireLoads s c.loadq.length
    SameRegs d ((c.withoutLoad e.id).putOut (e.out c.wrows)) ∧ d.loadq = rest ∧ d.st = .running ∧ d.Clean := by
  obtain ⟨regs, left, run', clean'⟩ := Crew.retireLoad_clean s run clean wrote all
  have remain : (c.withoutLoad e.id).loadq = rest := by
    unfold Crew.withoutLoad
    rw [queue, List.filter_cons_of_neg (by simp)]
    exact List.filter_eq_self.2 fun q hq => bne_iff_ne.2 (others q hq).2
  have retires : c.retireLoads s c.loadq.length = c.retireLoad s e := by
    rw [queue, List.length_cons, Crew.retireLoads]
    simp only [queue, back, if_true]
    exact Crew.retireLoads_waits s (fun q hq => (others q (by rwa [left, remain] at hq)).1) _
  intro d
  rw [show d = c.retireLoad s e from retires]
  exact ⟨regs, left.trans remain, run', clean'⟩

/-! ### The `qwait`s -/

/-- Crew `d` is crew `c` after waits have ended: its registers and its load queue are the same, and it runs. -/
structure Crew.Waited (c d : Crew) : Prop where
  regs  : SameRegs d c
  loadq : d.loadq = c.loadq
  run   : d.st = .running
  clean : d.Clean

theorem Crew.Waited.endWait {c d : Crew} (h : Crew.Waited c d) (cyc clk : Nat) (vc : Table Nat) (k : Nat) : Crew.Waited c (d.endWait cyc clk vc k) := by
  obtain ⟨⟨v, u, p, lay, width, rows⟩, loadq, run, clean⟩ := h
  cases split : d.split? k with
  | none =>
    unfold Crew.endWait
    simp only [split]
    exact ⟨⟨v, u, p, lay, width, rows⟩, loadq, run, clean⟩
  | some q =>
    rw [Crew.endWait_running run split]
    exact ⟨⟨v, u, p, lay, width, rows⟩, loadq, run, clean⟩

/-- The crew without uncovered loads of a list (R112). -/
def Crew.uncover (cov : List Uncovered) (c : Crew) : Crew := { c with uncov := c.uncov.filter fun u => !cov.contains u }

theorem Crew.Waited.uncover {c d : Crew} (h : Crew.Waited c d) (cov : List Uncovered) : Crew.Waited c (d.uncover cov) := by
  obtain ⟨⟨v, u, p, lay, width, rows⟩, loadq, run, clean⟩ := h
  exact ⟨⟨v, u, p, lay, width, rows⟩, loadq, run, fun w hw => clean w (List.mem_of_mem_filter hw)⟩

/-- Where no load met an error, the `qwait`s whose condition holds end. -/
theorem endQwaits_waits {s1 : State} {x : Nat} {c : Crew} {g : Go s0} (h : AtCrew s1 x c g.st) (run : c.st = .running) (clean : c.Clean) :
    ∃ d, AtCrew s1 x d (endQwaits g x).st ∧ Crew.Waited c d := by
  unfold endQwaits
  simp only [h.crew]
  refine Go.each_keeps (P := fun u => ∃ d, AtCrew s1 x d u ∧ Crew.Waited c d) (fun e _ g' h' => ?_) g ⟨c, h, .refl c, rfl, run, clean⟩
  obtain ⟨d, at_, waited⟩ := h'
  split
  case h_2 => exact ⟨d, at_, waited⟩
  case h_1 n d' wait crew =>
    obtain rfl : d = d' := Option.some.inj (at_.crew.symm.trans crew)
    split
    case isFalse => exact ⟨d, at_, waited⟩
    case isTrue =>
      have good : ((d.covered n).filter fun u => u.poison != 0) = [] :=
        List.filter_eq_nil_iff.2 fun u hu => by simp [waited.clean u (List.mem_of_mem_take hu)]
      rw [good, if_neg (by decide)]
      exact ⟨_, (at_.modCrew (Crew.uncover (d.covered n))).modCrew _, (waited.uncover _).endWait ..⟩

end Sys2Proof.Machine
end

section
/-! SUPPORT. O23: a load of home bytes that returns (R104, R111, R112, R116). -/

namespace Sys2Proof.Machine

open Sys2Proof

variable {s0 : State}

/-- What a lane at home loads, by the bytes as they stand. -/
def State.laneGot (s : State) (n : Nat) (l : LaneAcc) : Option (Nat × Nat) :=
  match l.loc with
  | .home a => some (l.lane, s.homeVal n a)
  | _ => none

/-- Lanes at home, each in its line and free of errors. -/
def State.lanesHome (s : State) (n : Nat) (ls : List LaneAcc) : Prop :=
  ∀ q ∈ ls, q.lane < 128 ∧ ∃ a, q.loc = .home a ∧ a % 64 + n ≤ 64 ∧ s.poisoned a n = false

section Values

variable {s : State} {n : Nat} {ls : List LaneAcc} (home : s.lanesHome n ls)

include home

theorem laneGot_home : ls.filterMap (s.laneGot n) = ls.map fun q => (q.lane, ((s.laneGot n q).map Prod.snd).getD 0) := by
  rw [← List.filterMap_eq_map]
  refine List.filterMap_congr fun q hq => ?_
  obtain ⟨-, a, loc, -⟩ := home q hq
  simp [State.laneGot, loc]

theorem laneGot_lanes : (ls.filterMap (s.laneGot n)).map Prod.fst = ls.map fun q => q.lane := by
  rw [laneGot_home home, List.map_map]
  rfl

theorem poisonLanes_home (w : Nat) : s.poisonLanes n w ls = 0 := by
  unfold State.poisonLanes
  induction ls with
  | nil => rfl
  | cons q ls ih =>
    obtain ⟨-, a, loc, -, clean⟩ := home q List.mem_cons_self
    rw [List.foldl_cons]
    simp only [loc, clean, Bool.false_eq_true, if_false]
    exact ih fun q hq => home q (List.mem_cons_of_mem _ hq)

/-- Without held stores, a load takes the bytes of its lines. -/
theorem loadValues_home {u : State} (mem : u.mem = s.mem) {core : Nat} (path : u.storePath core = []) (c : Crew) {e : LoadEntry} (size : accBytes e.ty = n)
    (lanes : e.lanes = ls) :
    loadValues u core c e ((homeLines ls).map fun ln => (ln, u.bytesAt (64 * ln) 64)) = ls.filterMap (s.laneGot n) := by
  subst lanes size
  unfold loadValues
  refine List.filterMap_congr fun q hq => ?_
  obtain ⟨-, a, loc, inside, -⟩ := home q hq
  have line : lineOf a ∈ homeLines e.lanes := mem_distinct.2 (List.mem_filterMap.2 ⟨q, hq, by simp only [loc]⟩)
  have found : ((homeLines e.lanes).map fun ln => (ln, u.bytesAt (64 * ln) 64)).find? (fun p => p.1 == lineOf a) =
      some (lineOf a, u.bytesAt (64 * lineOf a) 64) := by
    have listed : ((homeLines e.lanes).find? fun ln => ln == lineOf a).isSome = true := List.find?_isSome.2 ⟨_, line, beq_self_eq_true _⟩
    obtain ⟨ln, first⟩ := Option.isSome_iff_exists.1 listed
    obtain rfl : ln = lineOf a := by simpa using List.find?_some first
    rw [List.find?_map, show ((fun p : Nat × List Byte => p.1 == lineOf a) ∘ fun ln => (ln, u.bytesAt (64 * ln) 64)) = fun ln => ln == lineOf a from rfl, first]
    rfl
  have held : u.heldBytes core c e.id q (lineOf a) = [] := by rw [State.heldBytes, path]; rfl
  simp only [loc, found, held, State.laneGot, Option.map_some, State.homeVal]
  rw [show overlay (u.bytesAt (64 * lineOf a) 64) [] = u.bytesAt (64 * lineOf a) 64 from rfl, lineBytes_home u inside, State.bytesAt_of_mem mem, State.bytesAt_eq]

end Values

/-- An acquire that has performed changes what its crew waits for and which copies it uses (R116). -/
theorem acquired_at {s1 : State} {x : Nat} {c : Crew} {g : Go s0} (h : AtCrew s1 x c g.st) (id scope : Nat) :
    ∃ d, AtCrew s1 x d (acquired g x id scope).st ∧ d = { c with order := d.order, minGrant := d.minGrant } := by
  let F : Crew → Crew := fun c => { c with order := c.order.filter fun o => o != id }
  have freed := h.modCrew F
  unfold acquired
  dsimp only
  rw [show (modCrew g x fun c => { c with order := c.order.filter fun o => o != id }) = modCrew g x F from rfl]
  split
  case h_2 => exact ⟨_, freed, rfl⟩
  case h_1 =>
    split
    · exact ⟨_, freed.modCrew _, rfl⟩
    · exact ⟨_, freed, rfl⟩

/-- The entry of a load with its data from home. -/
def LoadEntry.returned (s : State) (e : LoadEntry) : LoadEntry := { e with got := e.lanes.filterMap (s.laneGot (accBytes e.ty)), back := true }

/-- The crew with the returned entry in its queue. -/
def Crew.loadBack (e : LoadEntry) (c : Crew) : Crew := { c with loadq := c.loadq.map fun (q : LoadEntry) => if q.id = e.id then e else q }

/-- The entry of a load with its data, from the lines as its core read them. -/
def LoadEntry.answered (u : State) (core : Nat) (c : Crew) (lines : List (Nat × List Byte)) (e : LoadEntry) : LoadEntry :=
  { e with
    got := if e.atomic then e.got else e.got ++ loadValues u core c e lines
    poison := if e.atomic then e.poison else e.poison ||| u.poisonLanes (accBytes e.ty) c.width e.lanes
    back := true }

theorem Crew.loadBack_head {c : Crew} {e f : LoadEntry} {rest : List LoadEntry} (queue : c.loadq = e :: rest) (id : f.id = e.id)
    (others : ∀ q ∈ rest, q.id ≠ e.id) : (c.loadBack f).loadq = f :: rest := by
  have kept : ∀ q ∈ rest, (if q.id = f.id then f else q) = q := fun q hq => if_neg (id ▸ others q hq)
  show c.loadq.map (fun q => if q.id = f.id then f else q) = _
  rw [queue, List.map_cons, if_pos id.symm, List.map_congr_left kept, List.map_id']

theorem LoadEntry.answered_home {s u : State} (mem : u.mem = s.mem) (poison : u.poison = s.poison) {core : Nat} (path : u.storePath core = []) (c : Crew)
    {e : LoadEntry} (atomic : e.atomic = false) (clean : e.poison = 0) (empty : e.got = []) (home : s.lanesHome (accBytes e.ty) e.lanes) :
    e.answered u core c ((homeLines e.lanes).map fun ln => (ln, u.bytesAt (64 * ln) 64)) = e.returned s := by
  have values := loadValues_home home mem path c (e := e) rfl rfl
  have good : u.poisonLanes (accBytes e.ty) c.width e.lanes = 0 := by
    have same : ∀ a, u.poisoned a (accBytes e.ty) = s.poisoned a (accBytes e.ty) := fun a => by simp only [State.poisoned, poison]
    exact poisonLanes_home (fun q hq => by simpa only [same] using home q hq) _
  unfold LoadEntry.answered LoadEntry.returned
  simp [atomic, clean, empty, values, good]

/-- A load that is no atomic's reads its lines, and goes on. -/
theorem loadReturn_eq (g : Go s0) (x : Nat) (c : Crew) {e : LoadEntry} (atomic : e.atomic = false) :
    let r := readLines g (x / 64) c.minGrant (!e.noAlloc) (homeLines e.lanes)
    let g2 := modCrew r.2 x (Crew.loadBack (e.answered r.2.st (x / 64) c r.1))
    let g3 := if e.acquire then acquired g2 x e.id e.scope else g2
    loadReturn g x c e = endQwaits (modCrew g3 x fun c => c.retireLoads g3.st c.loadq.length) x := by
  have plain : (if e.atomic = true then ([], g) else readLines g (x / 64) c.minGrant (!e.noAlloc) (homeLines e.lanes)) =
      readLines g (x / 64) c.minGrant (!e.noAlloc) (homeLines e.lanes) := if_neg (by simp [atomic])
  intro r g2 g3
  unfold loadReturn placeCore
  dsimp only
  rw [plain]
  rfl

section Return

variable {s : State} {x : Nat} {c : Crew} {e : LoadEntry} {rest : List LoadEntry}

/-- What a ready load asks of its lines. -/
theorem loadReady_lines (ready : loadReady s x c e = true) (atomic : e.atomic = false) : ∀ ln ∈ homeLines e.lanes, s.heldLine ln (x / 64) = false := by
  unfold loadReady at ready
  simp only [atomic, Bool.false_or, Bool.and_eq_true, List.all_eq_true, Bool.not_eq_true'] at ready
  exact ready.2.1.1

/-- A head load that returns retires, and its values go to the registers. -/
theorem loadReturn_retires (crew : s.crew? x = some c) (queue : c.loadq = e :: rest) (run : c.st = .running) (atomic : e.atomic = false) (clean : e.poison = 0)
    (empty : e.got = []) (ready : loadReady s x c e = true) (home : s.lanesHome (accBytes e.ty) e.lanes)
    (live : ∀ ln ∈ homeLines e.lanes, ∀ core end_, (s.lineAt ln).excl = some (core, end_) → s.now < end_)
    (nothing : nothingHeld s (x / 64) (homeLines e.lanes)) (others : ∀ q ∈ rest, q.back = false ∧ q.id ≠ e.id)
    (uncov : ∀ w ∈ c.uncov, w.poison = 0 ∧ (w.id = e.id → w.wrote = [])) :
    ∃ u c' b, exec (.loadReturn x e.id) s = .next u ∧ u = { s with crews := u.crews, lines := u.lines, cores := u.cores } ∧
      (∀ y, y ≠ x → u.crew? y = s.crew? y) ∧ u.crew? x = some c' ∧ c'.loadq = rest ∧ c'.st = .running ∧ SameRegs b c ∧
      SameRegs c' (b.putOut ((e.returned s).out c.wrows)) := by
  obtain ⟨path, absent⟩ := nothing
  have lines := loadReady_lines ready atomic
  obtain ⟨values, only⟩ := readLines_home (g := Go.start s) (core := x / 64) (lns := homeLines e.lanes) (distinct_nodup _) (fun ln hln => ⟨lineFree_of_heldLine (lines ln hln) (live ln hln), absent ln hln⟩)
    c.minGrant (!e.noAlloc)
  let g1 := (readLines (Go.start s) (x / 64) c.minGrant (!e.noAlloc) (homeLines e.lanes)).2
  replace only : g1.st = { s with lines := g1.st.lines, cores := g1.st.cores } := only
  have mem : g1.st.mem = s.mem := by rw [only]
  have crews : g1.st.crews = s.crews := by rw [only]
  simp only [Go.start_st, ← State.bytesAt_of_mem mem] at values
  have next : exec (.loadReturn x e.id) s = .next (loadReturn (Go.start s) x c e).st := by
    show execLoadReturn x e.id s = _
    unfold execLoadReturn
    simp only [crew, queue, List.find?_cons, beq_self_eq_true, ready, if_true]
    rfl
  have entered : (Crew.loadBack (e.returned s) c).loadq = e.returned s :: rest := Crew.loadBack_head queue rfl fun q hq => (others q hq).2
  have at1 : AtCrew g1.st x (Crew.loadBack (e.returned s) c) (modCrew g1 x (Crew.loadBack (e.returned s))).st :=
    modCrew_at (by rw [State.crew?, crews]; exact crew) _
  let g2 := modCrew g1 x (Crew.loadBack (e.returned s))
  let g3 := if e.acquire then acquired g2 x e.id e.scope else g2
  have returns : loadReturn (Go.start s) x c e = endQwaits (modCrew g3 x fun c => c.retireLoads g3.st c.loadq.length) x := by
    have reads := loadReturn_eq (Go.start s) x c atomic
    dsimp only at reads
    rwa [values, LoadEntry.answered_home mem (by rw [only]) (by rw [State.storePath, crews]; exact path) c atomic clean empty home] at reads
  obtain ⟨d, at2, acq⟩ : ∃ d, AtCrew g1.st x d g3.st ∧
      d = { Crew.loadBack (e.returned s) c with order := d.order, minGrant := d.minGrant } := by
    by_cases acquires : e.acquire = true
    case pos => simp only [g3, if_pos acquires]; exact acquired_at at1 ..
    case neg => simp only [g3, if_neg acquires]; exact ⟨_, at1, rfl⟩
  have queue2 : d.loadq = e.returned s :: rest := by rw [acq]; exact entered
  have run2 : d.st = .running := by rw [acq]; exact run
  have uncov2 : d.uncov = c.uncov := by rw [acq]; rfl
  have rows2 : d.wrows = c.wrows := by rw [acq]; rfl
  have regs2 : SameRegs (d.withoutLoad e.id) c := by rw [acq]; exact ⟨rfl, rfl, rfl, rfl, rfl, rfl⟩
  obtain ⟨regs3, left, run3, clean3⟩ := Crew.retireLoads_head g3.st queue2 rfl others run2 clean (fun w hw => (uncov w (uncov2 ▸ hw)).2)
    fun w hw => (uncov w (uncov2 ▸ hw)).1
  have at3 := at2.modCrew fun c => c.retireLoads g3.st c.loadq.length
  obtain ⟨c', at4, waited⟩ := endQwaits_waits at3 run3 clean3
  rw [rows2] at regs3
  refine ⟨_, c', _, next, ?_, fun y hy => ?_, ?_, waited.loadq.trans left, waited.run, regs2, waited.regs.trans regs3⟩
  all_goals rw [returns]
  · rw [show _ = _ from at4, only]
  · rw [show _ = _ from at4, State.crew?, State.crew?, Tab.find_put_other _ _ hy, crews]
  · exact at4.crew

end Return

end Sys2Proof.Machine
end

section
/-! SUPPORT. O23: the registers of a crew after its head load has returned (R76, R217). -/

namespace Sys2Proof.Machine

open Sys2Proof

theorem Crew.putOut_v {c : Crew} {o : RegOut} (none : o.v = []) : (c.putOut o).v = c.v := by
  unfold Crew.putOut
  rw [Crew.putLays_frame, Crew.putPreds_frame, Crew.putUnis_frame, none]
  rfl

theorem Crew.putOut_s {c : Crew} {o : RegOut} (none : o.s = []) : (c.putOut o).s = c.s := by
  unfold Crew.putOut
  rw [Crew.putLays_frame, Crew.putPreds_frame, none, show ((c.putRows o.v).putUnis []) = c.putRows o.v from rfl, Crew.putRows_frame]

theorem Crew.putOut_p {c : Crew} {o : RegOut} (none : o.p = []) : (c.putOut o).p = c.p := by
  unfold Crew.putOut
  rw [Crew.putLays_frame, none, show (((c.putRows o.v).putUnis o.s).putPreds []) = (c.putRows o.v).putUnis o.s from rfl, Crew.putUnis_frame, Crew.putRows_frame]

/-- A load writes no predicate. -/
theorem LoadEntry.out_p (e : LoadEntry) (w : Nat) : (e.out w).p = [] := by
  unfold LoadEntry.out
  split <;> rfl

/-- A half's loaded value is a row's. -/
theorem half_small (s : State) {t : Ty} (half : isHalf t = true) (a : Nat) : s.homeVal (accBytes t) a < 2 ^ 32 := by
  rw [show accBytes t = 4 from if_pos half]
  exact s.homeVal_lt 4 a

theorem got_lanes {s : State} {e : LoadEntry} (home : s.lanesHome (accBytes e.ty) e.lanes) : ∀ p ∈ (e.returned s).got, ∃ q ∈ e.lanes, q.lane = p.1 := by
  intro p hp
  have listed : p.1 ∈ e.lanes.map fun q => q.lane := laneGot_lanes home ▸ List.mem_map_of_mem hp
  exact List.mem_map.1 listed

section Dest

variable {s : State} {b c c' : Crew} {e : LoadEntry} (home : s.lanesHome (accBytes e.ty) e.lanes) (before : SameRegs b c)
  (after : SameRegs c' (b.putOut ((e.returned s).out c.wrows)))

include before after

theorem returned_p : c'.p = c.p := by
  rw [after.p, Crew.putOut_p (LoadEntry.out_p ..), before.p]

theorem returned_none (dest : e.dest = .none) : c'.v = c.v ∧ c'.s = c.s := by
  have nothing : (e.returned s).out c.wrows = {} := by simp only [LoadEntry.out, show (e.returned s).dest = .none from dest]
  rw [nothing, Crew.putOut_nothing] at after
  exact ⟨after.v.trans before.v, after.s.trans before.s⟩

theorem returned_uni {n : Nat} (dest : e.dest = .uni n) :
    c'.v = c.v ∧ (n ≠ 0 → ∀ q a, e.lanes = [q] → q.loc = .home a → (c'.uni n).toNat = loadReg e.ty 64 (s.homeVal (accBytes e.ty) a)) ∧
      ∀ m, m ≠ n → c'.uni m = c.uni m := by
  refine ⟨?_, fun some_ q a one loc => ?_, fun m other => ?_⟩
  · rw [after.v, Crew.putOut_v (by rw [LoadEntry.out_uni (e := e.returned s) dest]), before.v]
  · have got : (e.returned s).got = [(q.lane, s.homeVal (accBytes e.ty) a)] := by
      simp [LoadEntry.returned, one, State.laneGot, loc]
    rw [Crew.uni_of_s after.s, uni_loaded (e := e.returned s) dest some_ got, BitVec.toNat_ofNat]
    exact loadFill_mod _ fun half => ⟨half_small s half a, by decide⟩
  · rw [Crew.uni_of_s after.s, uni_unloaded (e := e.returned s) dest other, Crew.uni_of_s before.s]

include home

theorem returned_rows {r n : Nat} (nodup : (e.lanes.map fun q => q.lane).Nodup) (dest : e.dest = .rows r n) :
    c'.s = c.s ∧ (n ≤ c.wrows → ∀ q ∈ e.lanes, ∀ a, q.loc = .home a → ∀ j, j < n →
      (c'.row ((r + j) % c.wrows) q.lane).toNat = loadReg e.ty (32 * n) (s.homeVal (accBytes e.ty) a) / 2 ^ (32 * j) % 2 ^ 32) ∧
      ∀ row l, l < 128 → ((∀ j, j < n → row ≠ (r + j) % c.wrows) ∨ ∀ q ∈ e.lanes, q.lane ≠ l) → c'.row row l = c.row row l := by
  have lanes : ∀ p ∈ (e.returned s).got, p.1 < 128 := fun p hp => by
    obtain ⟨q, hq, eq⟩ := got_lanes home p hp
    exact eq ▸ (home q hq).1
  rw [← before.wrows] at after ⊢
  refine ⟨?_, fun rows q hq a loc j hj => ?_, fun row l hl other => ?_⟩
  · rw [after.s, Crew.putOut_s (by rw [LoadEntry.out_rows (e := e.returned s) dest]), before.s]
  · have got : (q.lane, s.homeVal (accBytes e.ty) a) ∈ (e.returned s).got := List.mem_filterMap.2 ⟨q, hq, by simp only [State.laneGot, loc]⟩
    have listed : ((e.returned s).got.map Prod.fst).Nodup := by rw [show (e.returned s).got.map Prod.fst = _ from laneGot_lanes home]; exact nodup
    rw [Crew.row_of_v after.v, row_loaded (e := e.returned s) dest lanes listed rows got hj, BitVec.toNat_ofNat, Nat.mod_eq_of_lt (elem_lt ..)]
    exact loadFill_elem _ (fun half => half_small s half a) hj
  · rw [Crew.row_of_v after.v, row_unloaded (e := e.returned s) dest lanes hl ?_, Crew.row_of_v before.v]
    refine other.imp id fun absent p hp => ?_
    obtain ⟨q, hq, eq⟩ := got_lanes home p hp
    exact eq ▸ absent q hq

end Dest

end Sys2Proof.Machine
end

section
/-! SUPPORT. O23: a line of a store entry that performs: its bytes and old values (R103, R105, R118, R119, R223). -/

namespace Sys2Proof.Machine

open Sys2Proof

variable {s0 : State}

/-- The lane accesses of a list on a line. -/
def lineLanes (ls : List LaneAcc) (ln : Nat) : List LaneAcc := ls.filter fun l => match l.loc with | .home k => lineOf k == ln | _ => false

/-- An access at home as the statements list it. -/
def homeAcc (q : LaneAcc) : Option (Nat × Nat × Nat × Nat) :=
  match q.loc with
  | .home a => some (q.lane, a, q.data, q.expect)
  | _ => none

theorem lineLanes_home {ls : List LaneAcc} {ln : Nat} : ∀ q ∈ lineLanes ls ln, ∃ a, q.loc = .home a ∧ lineOf a = ln := by
  intro q hq
  have on := (List.mem_filter.1 hq).2
  cases loc : q.loc with
  | home a => rw [loc] at on; exact ⟨a, rfl, by simpa using on⟩
  | scratch => rw [loc] at on; cases on
  | far => rw [loc] at on; cases on

theorem homeAccs_eq (ls : List LaneAcc) (ln : Nat) : homeAccs ls ln = (lineLanes ls ln).filterMap homeAcc := by
  unfold homeAccs lineLanes
  rw [← List.filterMap_eq_filter, List.filterMap_filterMap]
  refine congrArg (fun f => List.filterMap f ls) (funext fun q => ?_)
  unfold homeAcc
  cases loc : q.loc with
  | home a =>
    by_cases on : a / 64 = ln
    case pos => simp [loc, on, lineOf, Option.guard]
    case neg => simp [loc, on, lineOf, Option.guard]
  | scratch => simp [loc, Option.guard]
  | far => simp [loc, Option.guard]

/-! ### Bytes -/

theorem mem_cellTable {cells : List (Nat × Byte)} {e : Nat × Byte} (h : e ∈ cellTable cells) : e ∈ cells := by
  induction cells using List.reverseRecOn with
  | nil => exact h
  | append_singleton cells f ih =>
    rw [cellTable_append] at h
    rcases Tab.mem_put h with rfl | old
    · exact List.mem_append_right _ (List.mem_singleton.2 rfl)
    · exact List.mem_append_left _ (ih old)

theorem mem_cellsFrom {k : Nat} {bs : List Byte} {e : Nat × Byte} (h : e ∈ cellsFrom k bs) : k ≤ e.1 ∧ e.1 < k + bs.length := by
  induction bs generalizing k with
  | nil => cases h
  | cons b bs ih =>
    rw [List.length_cons]
    rcases List.mem_cons.1 h with rfl | h
    · exact ⟨le_rfl, by omega⟩
    · obtain ⟨low, high⟩ := ih h
      omega

/-- The cells that accesses store. -/
def accCells (n : Nat) (ls : List LaneAcc) : List (Nat × Byte) :=
  (ls.map fun l => match l.loc with | .home k => cellsFrom k (leBytes l.data n) | _ => []).flatten

theorem accCells_eq (n : Nat) {ls : List LaneAcc} (home : ∀ q ∈ ls, ∃ a, q.loc = .home a) :
    accCells n ls = (((ls.filterMap homeAcc).map fun q => (q.2.1, q.2.2.1)).map fun w => cellsFrom w.1 (leBytes w.2 n)).flatten := by
  unfold accCells
  induction ls with
  | nil => rfl
  | cons q ls ih =>
    obtain ⟨a, loc⟩ := home q List.mem_cons_self
    have one : homeAcc q = some (q.lane, a, q.data, q.expect) := by simp only [homeAcc, loc]
    simp only [List.map_cons, List.flatten_cons, List.filterMap_cons, one, loc, ih fun e he => home e (List.mem_cons_of_mem _ he)]

/-- Settling free lines changes nothing. -/
theorem settleLeases_free {g : Go s0} {core : Nat} {lns : List Nat} (free : ∀ ln ∈ lns, g.st.lineFree core ln) :
    (g.each lns fun ln g => settleLease g ln core) = g := by
  induction lns with
  | nil => rfl
  | cons ln lns ih =>
    rw [Go.each, settleLease_free (free ln List.mem_cons_self)]
    exact ih fun l hl => free l (List.mem_cons_of_mem _ hl)

/-- A store on a line that is free writes its bytes, and no lease ends. -/
theorem homeStore_free {g : Go s0} {by_ : By} {cells : List (Nat × Byte)} {ln : Nat} (free : g.st.lineFree by_.core ln) (line : ∀ e ∈ cells, lineOf e.1 = ln) :
    HomeWork g.st (homeStore g by_ cells).st (putBytes g.st.mem cells) := by
  unfold homeStore
  dsimp only
  rw [settleLeases_free fun l hl => by
    obtain ⟨e, he, rfl⟩ := List.mem_map.1 (mem_distinct.1 hl)
    rw [line e he]
    exact free]
  exact (homeCells_writes g by_ cells).each fun _ _ _ => rfl

/-- The atomics of an entry at home, one after another (R118, R223). -/
theorem atomicLanes_writes (g : Go s0) (by_ : By) (e : StoreEntry) {ls : List LaneAcc} (home : ∀ q ∈ ls, ∃ a, q.loc = .home a) :
    let r := atomsInTurn e.ty e.op (accBytes e.ty) (ls.filterMap homeAcc) g.st.byte
    (atomicLanes g by_ e ls).1.1 = r.1 ∧ ∃ mem, HomeWork g.st (atomicLanes g by_ e ls).2.st mem ∧ (fun b => Tab.get 0 mem b) = r.2 := by
  induction ls generalizing g with
  | nil => exact ⟨rfl, _, .refl _, rfl⟩
  | cons q ls ih =>
    obtain ⟨k, loc⟩ := home q List.mem_cons_self
    obtain ⟨old, mem, written, bytes⟩ := atomicAt_writes g by_ e.ty e.op q.lane k q.data q.expect
    let r := atomicAt g by_ e.ty e.op k q.data q.expect
    obtain ⟨olds, mem', after, bytes'⟩ := ih r.2 fun q hq => home q (List.mem_cons_of_mem _ hq)
    have now : r.2.st.byte = (atomsInTurn e.ty e.op (accBytes e.ty) [(q.lane, k, q.data, q.expect)] g.st.byte).2 := by
      rw [← bytes, ← written.mem]
      rfl
    rw [now] at olds bytes'
    have one : homeAcc q = some (q.lane, k, q.data, q.expect) := by simp only [homeAcc, loc]
    rw [List.filterMap_cons, one]
    dsimp only
    rw [atomsInTurn_cons, old]
    have steps : atomicLanes g by_ e (q :: ls) =
        (((q.lane, r.1.1) :: (atomicLanes r.2 by_ e ls).1.1, r.1.2 ++ (atomicLanes r.2 by_ e ls).1.2), (atomicLanes r.2 by_ e ls).2) := by
      rw [atomicLanes]
      simp only [loc]
      rfl
    rw [steps]
    refine ⟨?_, mem', written.trans after, bytes'⟩
    dsimp only
    rw [olds]
    rfl

end Sys2Proof.Machine
end

section
/-! SUPPORT. O23: what a line of a store entry leaves of its crew and of its team, once it has performed (R103, R116, R232). -/

namespace Sys2Proof.Machine

open Sys2Proof

variable {s0 : State}

/-- The registers and the queues of `d` are those of `c`. -/
structure Crew.Queued (c d : Crew) : Prop where
  regs   : SameRegs d c
  storeq : d.storeq = c.storeq
  loadq  : d.loadq = c.loadq

theorem Crew.Queued.refl (c : Crew) : Crew.Queued c c := ⟨.refl c, rfl, rfl⟩
theorem Crew.Queued.trans {a b c : Crew} (h : Crew.Queued a b) (h' : Crew.Queued b c) : Crew.Queued a c :=
  ⟨h'.regs.trans h.regs, h'.storeq.trans h.storeq, h'.loadq.trans h.loadq⟩

theorem Crew.queued_endWait (c : Crew) (cyc clk : Nat) (vc : Table Nat) (k : Nat) : Crew.Queued c (c.endWait cyc clk vc k) := by
  unfold Crew.endWait
  split
  · exact .refl c
  · dsimp only
    split <;> exact ⟨⟨rfl, rfl, rfl, rfl, rfl, rfl⟩, rfl, rfl⟩

theorem Crew.queued_endWaits (l : List (Nat × Split)) (c : Crew) (cyc clk : Nat) (vc : Table Nat) :
    Crew.Queued c (l.foldl (fun c e => c.endWait cyc clk vc e.1) c) := by
  induction l generalizing c with
  | nil => exact .refl c
  | cons e l ih => exact (c.queued_endWait cyc clk vc e.1).trans (ih _)

/-- The crew of a place stands in a state that has its registers and queues. -/
def StandsQueued (s : State) (x : Nat) (c : Crew) (u : State) : Prop := ∃ d, AtCrew s x d u ∧ Crew.Queued c d

theorem StandsQueued.endWaits {s : State} {x : Nat} {c : Crew} {g : Go s0} (h : StandsQueued s x c g.st) (w : Wait) (clk : Nat) (vc : Table Nat) :
    StandsQueued s x c (endWaits g x w clk vc).st := by
  obtain ⟨d, at_, queued⟩ := h
  exact ⟨_, at_.modCrew _, queued.trans (Crew.queued_endWaits ..)⟩

theorem StandsQueued.acquired {s : State} {x : Nat} {c : Crew} {g : Go s0} (h : StandsQueued s x c g.st) (id scope : Nat) :
    StandsQueued s x c (acquired g x id scope).st := by
  obtain ⟨d, at_, queued⟩ := h
  obtain ⟨d', at', eq⟩ := acquired_at at_ id scope
  refine ⟨d', at', queued.trans ?_⟩
  rw [eq]
  exact ⟨⟨rfl, rfl, rfl, rfl, rfl, rfl⟩, rfl, rfl⟩

/-- The teams, one of them no longer relaunch-eligible (R232). -/
def relaunchLost (s : State) (t : Nat) : Table Team :=
  match s.team? t with
  | some tm => Tab.put s.teams t { tm with relaunchOk := false }
  | none => s.teams

theorem StandsQueued.noRelaunch {s : State} {x : Nat} {c : Crew} {g : Go s0} (h : StandsQueued s x c g.st) (t : Nat) :
    StandsQueued { s with teams := relaunchLost s t } x c (noRelaunch g t).st := by
  obtain ⟨d, at_, queued⟩ := h
  refine ⟨d, ?_, queued⟩
  have teams := at_.team t
  unfold AtCrew at at_ ⊢
  unfold Machine.noRelaunch modTeam relaunchLost
  cases team : s.team? t with
  | none =>
    rw [team] at teams
    simp only [teams]
    exact at_
  | some tm =>
    rw [team] at teams
    simp only [teams, Go.put_st]
    rw [at_]
    rfl

/-- The end of an entry that has no line left: an acquire has performed, the team is not relaunch-eligible where a result returns, and the split that
waits for the atomic goes on. -/
def storeEnd (g : Go s0) (x team : Nat) (acquires ret : Bool) (id scope : Nat) : Go s0 :=
  let g := if acquires then acquired g x id scope else g
  endWaits (if ret then noRelaunch g team else g) x (.ordAtom id) 0 []

theorem StandsQueued.storeEnd {s : State} {x : Nat} {c : Crew} {g : Go s0} (h : StandsQueued s x c g.st) (team : Nat) (acquires ret : Bool) (id scope : Nat) :
    StandsQueued { s with teams := if ret = true then relaunchLost s team else s.teams } x c (storeEnd g x team acquires ret id scope).st := by
  have acq : StandsQueued s x c (if acquires then Machine.acquired g x id scope else g).st := by
    cases acquires with
    | false => exact h
    | true => exact h.acquired id scope
  cases ret with
  | false => exact acq.endWaits ..
  | true => exact (acq.noRelaunch team).endWaits ..

/-- The crew after a line of its entry `id` has performed. -/
def Crew.linePerformed (id : Nat) (left : List Nat) (t : Nat × Nat) (ret : Bool) (olds : List (Nat × Nat)) (bad : Lanes) (c : Crew) : Crew :=
  { c with
    storeq := c.storeq.map fun (q : StoreEntry) => if q.id = id then
      { q with left := left, gwctMod := max q.gwctMod t.1, gwctFab := max q.gwctFab t.2 } else q
    loadq := if ret then c.loadq.map fun (q : LoadEntry) =>
      if q.id = id then { q with got := q.got ++ olds, poison := q.poison ||| bad } else q else c.loadq }

theorem Crew.linePerformed_entry {c : Crew} {e : StoreEntry} (found : c.storeq.find? (fun q => q.id == e.id) = some e) (left : List Nat) (t : Nat × Nat)
    (ret : Bool) (olds : List (Nat × Nat)) (bad : Lanes) :
    ∃ e', (c.linePerformed e.id left t ret olds bad).storeq.find? (fun q => q.id == e.id) = some e' ∧ e'.left = left := by
  let F : StoreEntry → StoreEntry := fun q => if q.id = e.id then { q with left := left, gwctMod := max q.gwctMod t.1, gwctFab := max q.gwctFab t.2 } else q
  have same : (fun q => q.id == e.id) ∘ F = fun q : StoreEntry => q.id == e.id := funext fun q => by
    by_cases own : q.id = e.id <;> simp [F, own]
  refine ⟨F e, ?_, by simp [F]⟩
  show (c.storeq.map F).find? _ = _
  rw [List.find?_map, same, found]
  rfl

theorem Crew.linePerformed_load {c : Crew} {id : Nat} {q : LoadEntry} (hq : q ∈ c.loadq) (own : q.id = id) (left : List Nat) (t : Nat × Nat)
    (olds : List (Nat × Nat)) (bad : Lanes) :
    ∃ q' ∈ (c.linePerformed id left t true olds bad).loadq, q'.id = id ∧ q'.got = q.got ++ olds := by
  refine ⟨_, List.mem_map.2 ⟨q, hq, rfl⟩, ?_⟩
  rw [if_pos own]
  exact ⟨own, rfl⟩

/-- The accesses of a line of an entry: the old values, the bytes stored, and the path on. -/
def storeAccesses (g : Go s0) (core : Nat) (by_ : By) (e : StoreEntry) (ln : Nat) (quiet : Bool) : List (Nat × Nat) × List (Nat × Byte) × Go s0 :=
  if e.op = .store then
    ([], cellTable (accCells (accBytes e.ty) (lineLanes e.lanes ln)), homeStore g by_ (cellTable (accCells (accBytes e.ty) (lineLanes e.lanes ln))))
  else
    let r := atomicLanes g by_ e (lineLanes e.lanes ln)
    (r.1.1, r.1.2, exclusive (r.2.put (.line ln (some ((r.2.st.lineAt ln).afterStore r.2.st.now core)))) core ln (quiet && !e.home))

theorem storeAccesses_writes {g : Go s0} {by_ : By} {e : StoreEntry} {ln : Nat} (free : g.st.lineFree by_.core ln)
    (inside : ∀ q ∈ homeAccs e.lanes ln, q.2.1 % 64 + accBytes e.ty ≤ 64) (core : Nat) (quiet : Bool) :
    let accs := homeAccs e.lanes ln
    let n := accBytes e.ty
    let r := storeAccesses g core by_ e ln quiet
    ∃ mem, HomeWork g.st r.2.2.st mem ∧ (e.op ≠ .store → r.1 = (atomsInTurn e.ty e.op n accs g.st.byte).1) ∧
      ∀ b, Tab.get 0 mem b = if e.op = .store then lastWritten n (accs.map fun q => (q.2.1, q.2.2.1)) g.st.byte b
        else (atomsInTurn e.ty e.op n accs g.st.byte).2 b := by
  have home : ∀ q ∈ lineLanes e.lanes ln, ∃ a, q.loc = .home a := fun q hq => (lineLanes_home q hq).imp fun _ h => h.1
  unfold storeAccesses
  by_cases store : e.op = .store
  case pos =>
    simp only [if_pos store]
    refine ⟨_, homeStore_free free fun p hp => ?_, fun h => absurd store h, fun b => ?_⟩
    · obtain ⟨cs, hcs, hp⟩ := List.mem_flatten.1 (mem_cellTable hp)
      obtain ⟨q, hq, rfl⟩ := List.mem_map.1 hcs
      obtain ⟨a, loc, line⟩ := lineLanes_home q hq
      have room := inside (q.lane, a, q.data, q.expect) (by
        rw [homeAccs_eq]
        exact List.mem_filterMap.2 ⟨q, hq, by simp only [homeAcc, loc]⟩)
      simp only [loc] at hp
      obtain ⟨low, high⟩ := mem_cellsFrom hp
      rw [length_leBytes] at high
      unfold lineOf at line ⊢
      dsimp only at room
      omega
    · rw [get_putBytes_cellTable, accCells_eq _ home, get_putBytes_values, homeAccs_eq]
      rfl
  case neg =>
    obtain ⟨olds, mem, written, bytes⟩ := atomicLanes_writes g by_ e home
    simp only [if_neg store, homeAccs_eq]
    refine ⟨mem, written.trans (m' := mem) ?_, fun _ => olds, fun b => congrFun bytes b⟩
    unfold exclusive
    dsimp only
    split
    · rw [← written.mem]; rfl
    · split <;> (rw [← written.mem]; rfl)

end Sys2Proof.Machine
end

section
/-! SUPPORT. O23: store entries and their acknowledgements, copies and leases (R103, R104, R106, R119). -/

namespace Sys2Proof.Machine

open Sys2Proof

variable {s0 : State}

section Store

variable {s : State} {x : Nat} {c : Crew} {e : StoreEntry} {ln : Nat}

/-- What a ready line asks of its lease. -/
theorem storeReady_line (ready : storeReady s x c e ln = true) : s.heldLine ln (x / 64) = false := by
  unfold storeReady at ready
  simp only [Bool.and_eq_true, Bool.not_eq_true'] at ready
  obtain ⟨⟨⟨-, held⟩, -⟩, -⟩ := ready
  exact held

/-- The path of a line whose lease runs on. -/
theorem storePerform_eq {g : Go s0} (free : g.st.lineFree (x / 64) ln) :
    let r := storeAccesses g (x / 64) (e.by_ g.st x c) e ln ((g.st.lineAt ln).quiet g.st.now (x / 64))
    let g1 := updateCopies r.2.2 (x / 64) r.2.1
    let left := e.left.filter fun n => n != ln
    ∃ t bad acquires, storePerform g x c e ln =
      let g2 := modCrew g1 x (Crew.linePerformed e.id left t e.ret r.1 bad)
      if left.isEmpty then storeEnd g2 x c.team acquires e.ret e.id e.scope else g2 := by
  intro r g1 left
  refine ⟨g1.st.gwctOf [ln] false, g.st.poisonLanes (accBytes e.ty) c.width (lineLanes e.lanes ln), e.op != .store && e.release && !e.ret && !e.home &&
    e.lanes.all (fun l => match l.loc with | .home _ => true | _ => false), ?_⟩
  unfold storePerform placeCore
  dsimp only
  rw [settleLease_free free]
  rfl

/-- A line that performs works at home with the accesses of its lanes and leaves its entry without the line. -/
theorem storePerform_stands (crew : s.crew? x = some c) (free : s.lineFree (x / 64) ln)
    (inside : ∀ q ∈ homeAccs e.lanes ln, q.2.1 % 64 + accBytes e.ty ≤ 64) :
    let accs := homeAccs e.lanes ln
    let n := accBytes e.ty
    let r := atomsInTurn e.ty e.op n accs s.byte
    let left := e.left.filter fun m => m != ln
    ∃ u mem got t bad, HomeWork s u mem ∧ (e.op ≠ .store → got = r.1) ∧
      (∀ b, Tab.get 0 mem b = if e.op = .store then lastWritten n (accs.map fun q => (q.2.1, q.2.2.1)) s.byte b else r.2 b) ∧
      StandsQueued { u with teams := if e.ret = true ∧ left = [] then relaunchLost s c.team else s.teams } x
        (c.linePerformed e.id left t e.ret got bad) (storePerform (Go.start s) x c e ln).st := by
  intro accs n r left
  let quiet := (s.lineAt ln).quiet s.now (x / 64)
  let w := storeAccesses (Go.start s) (x / 64) (e.by_ s x c) e ln quiet
  let g1 := updateCopies w.2.2 (x / 64) w.2.1
  obtain ⟨mem, written, old, bytes⟩ := storeAccesses_writes (g := Go.start s) (by_ := e.by_ s x c) free inside (x / 64) quiet
  obtain ⟨t, bad, acquires, performs⟩ := storePerform_eq (g := Go.start s) (c := c) (e := e) free
  have copied : HomeWork s g1.st mem := by
    have copies := updateCopies_work w.2.2 (x / 64) w.2.1
    rw [written.mem] at copies
    exact written.trans copies
  refine ⟨g1.st, mem, w.1, t, bad, copied, old, bytes, ?_⟩
  let g2 := modCrew g1 x (Crew.linePerformed e.id left t e.ret w.1 bad)
  have crews : g1.st.crews = s.crews := by rw [show g1.st = _ from copied]
  have teams : g1.st.teams = s.teams := by rw [show g1.st = _ from copied]
  have stands : StandsQueued g1.st x (c.linePerformed e.id left t e.ret w.1 bad) g2.st :=
    ⟨_, modCrew_at (by rw [State.crew?, crews]; exact crew) _, .refl _⟩
  have lost : relaunchLost g1.st c.team = relaunchLost s c.team := by simp only [relaunchLost, State.team?, teams]
  rw [show storePerform (Go.start s) x c e ln = if left.isEmpty then storeEnd g2 x c.team acquires e.ret e.id e.scope else g2 from performs]
  by_cases all : left = []
  case pos =>
    have ended := stands.storeEnd c.team acquires e.ret e.id e.scope
    rw [lost, teams] at ended
    rw [if_pos (List.isEmpty_iff.2 all)]
    simpa only [all, and_true] using ended
  case neg =>
    rw [if_neg (fun h => all h.2), ← teams, if_neg (mt List.isEmpty_iff.1 all)]
    exact stands

/-- A line that performs: its bytes, its old values, and its entry without the line. -/
theorem storePerform_performs (crew : s.crew? x = some c) (found : c.storeq.find? (fun q => q.id == e.id) = some e) (ready : storeReady s x c e ln = true)
    (inside : ∀ q ∈ homeAccs e.lanes ln, q.2.1 % 64 + accBytes e.ty ≤ 64) (live : ∀ core end_, (s.lineAt ln).excl = some (core, end_) → s.now < end_) :
    let accs := homeAccs e.lanes ln
    let n := accBytes e.ty
    let r := atomsInTurn e.ty e.op n accs s.byte
    ∃ u c' e', exec (.storePerform x e.id ln) s = .next u ∧
      u = { s with crews := u.crews, mem := u.mem, poison := u.poison, wlog := u.wlog, lines := u.lines, cores := u.cores
                   teams := if e.ret = true ∧ e.left.filter (fun m => m != ln) = [] then relaunchLost s c.team else s.teams } ∧
      (∀ y, y ≠ x → u.crew? y = s.crew? y) ∧ u.crew? x = some c' ∧ SameRegs c' c ∧
      (∀ a, u.byte a = if e.op = .store then lastWritten n (accs.map fun q => (q.2.1, q.2.2.1)) s.byte a else r.2 a) ∧
      c'.storeq.find? (fun q => q.id == e.id) = some e' ∧ e'.left = e.left.filter (fun m => m != ln) ∧
      (e.op ≠ .store → e.ret = true → ∀ q ∈ c.loadq, q.id = e.id → ∃ q' ∈ c'.loadq, q'.id = e.id ∧ q'.got = q.got ++ r.1) := by
  intro accs n r
  have free : s.lineFree (x / 64) ln := lineFree_of_heldLine (storeReady_line ready) live
  obtain ⟨v, mem, got, t, bad, work, old, bytes, c', at_, ⟨regs, storeq, loadq⟩⟩ := storePerform_stands (e := e) crew free inside
  obtain ⟨e', entry, less⟩ := Crew.linePerformed_entry found (e.left.filter fun m => m != ln) t e.ret got bad
  have next : exec (.storePerform x e.id ln) s = .next (storePerform (Go.start s) x c e ln).st := by
    show execStorePerform x e.id ln s = _
    unfold execStorePerform
    simp only [crew, found, ready, if_true]
    rfl
  refine ⟨_, c', e', next, ?_, fun y hy => ?_, at_.crew, ?_, fun a => ?_, by rw [storeq]; exact entry, less, fun atomic ret q hq own => ?_⟩
  · rw [show _ = _ from at_, show v = _ from work]
  · rw [show _ = _ from at_, State.crew?, State.crew?, Tab.find_put_other _ _ hy, show v = _ from work]
  · obtain ⟨v, u, p, lay, width, rows⟩ := regs
    exact ⟨v, u, p, lay, width, rows⟩
  · refine Eq.trans ?_ (bytes a)
    rw [show _ = _ from at_]
    exact congrArg (fun t => Tab.get 0 t a) work.mem
  · obtain ⟨q', hq', id, got_⟩ := Crew.linePerformed_load hq own (e.left.filter fun m => m != ln) t got bad
    refine ⟨q', ?_, id, by rw [got_, show got = r.1 from old atomic]⟩
    rw [loadq, ret]
    exact hq'

end Store

/-- An acknowledgement raises the crew's completion times to the entry's (R106). -/
theorem storeAck_raises {s : State} {x : Nat} {c : Crew} {e : StoreEntry} (crew : s.crew? x = some c) (found : c.storeq.find? (fun q => q.id == e.id) = some e)
    (left : e.left = []) (near : e.near = true) (acked : e.acked = false) (leased : e.leased s (x / 64) = false) (decided : s.undecided e.id = false) :
    ∃ u c', exec (.storeAck x e.id none) s = .next u ∧ u = { s with crews := u.crews } ∧ (∀ y, y ≠ x → u.crew? y = s.crew? y) ∧
      u.crew? x = some c' ∧ c' = { c with gmod := max c.gmod e.gwctMod, gfab := max c.gfab e.gwctFab, storeq := c'.storeq } ∧
      ∀ q ∈ c'.storeq, q.id = e.id → q.acked = true := by
  have next : exec (.storeAck x e.id none) s = .next (nearAck (Go.start s) x e).st := by
    show storeAckNear x e.id s = _
    unfold storeAckNear
    simp only [crew, found, left, near, acked, show e.leased s (placeCore x) = false from leased, decided]
    rfl
  have at_ : AtCrew s x _ (nearAck (Go.start s) x e).st := modCrew_at (g := Go.start s) crew _
  refine ⟨_, _, next, by rw [show _ = _ from at_], fun y hy => ?_, at_.crew, rfl, fun q hq own => ?_⟩
  · rw [show _ = _ from at_]
    exact Tab.find_put_other _ _ hy
  · obtain ⟨p, -, rfl⟩ := List.mem_map.1 (List.mem_of_mem_filter hq)
    by_cases same : p.id = e.id
    · rw [if_pos same]
    · exact absurd ((if_neg same : ite (p.id = e.id) _ p = p) ▸ own) same

/-- An expired copy is dropped (R104). -/
theorem leaseExpiry_drops {s : State} {core ln : Nat} {cp : Copy} (copy : Tab.find (s.coreOf core).copies ln = some cp) (late : cp.expiry ≤ s.now) :
    ∃ u, exec (.leaseExpiry core ln) s = .next u ∧ u = { s with cores := u.cores } ∧
      u.coreOf core = { s.coreOf core with copies := Tab.del (s.coreOf core).copies ln } ∧ ∀ j, j ≠ core → u.coreOf j = s.coreOf j := by
  have next : exec (.leaseExpiry core ln) s =
      .next (modCore (Go.start s) core fun v => { v with copies := Tab.del v.copies ln }).st := by
    show execLeaseExpiry core ln s = _
    unfold execLeaseExpiry
    simp only [copy, late, if_true]
    rfl
  exact ⟨_, next, rfl, State.coreOf_upd_same .., fun j hj => State.coreOf_upd_other _ _ hj⟩

/-- An exclusive lease that ends is gone (R119). -/
theorem endLease_ends (g : Go s0) {core ln e : Nat} (excl : (g.st.lineAt ln).excl = some (core, e)) :
    (endLease g ln).st.lineAt ln = { g.st.lineAt ln with excl := none } ∧ ∀ j, j ≠ ln → (endLease g ln).st.lineAt j = g.st.lineAt j := by
  let g1 := g.put (.line ln (some { g.st.lineAt ln with excl := none }))
  have lines : (endLease g ln).st.lines = g1.st.lines := by
    unfold endLease
    simp only [excl]
    exact Go.each_keeps (P := fun u => u.lines = g1.st.lines) (fun e _ g' h => by rw [modCrew_only]; exact h) g1 rfl
  have same : ∀ j, (endLease g ln).st.lineAt j = g1.st.lineAt j := fun j => by simp only [State.lineAt, lines]
  exact ⟨(same ln).trans (State.lineAt_line_same ..), fun j hj => (same j).trans (State.lineAt_line_other _ _ hj)⟩

theorem exclusiveLeaseEnd_ends {s : State} {core ln e : Nat} (excl : (s.lineAt ln).excl = some (core, e)) :
    ∃ u, exec (.exclusiveLeaseEnd core ln) s = .next u ∧ u = { s with lines := u.lines, crews := u.crews } ∧
      u.lineAt ln = { s.lineAt ln with excl := none } ∧ ∀ j, j ≠ ln → u.lineAt j = s.lineAt j := by
  have next : exec (.exclusiveLeaseEnd core ln) s = .next (endLease (Go.start s) ln).st := by
    show execExclusiveLeaseEnd core ln s = _
    unfold execExclusiveLeaseEnd
    simp only [excl, if_true]
    rfl
  obtain ⟨other, eq⟩ := endLease_eq_settleLease (Go.start s) ln
  exact ⟨_, next, by rw [eq]; exact (settleLease_only (Go.start s) ln other).state, endLease_ends (Go.start s) excl⟩

end Sys2Proof.Machine

namespace Sys2Proof

open Machine

/-- Settles O23: a returned load's entry holds the bytes at home, and a line's accesses write what the lanes store in turn. -/
theorem queuedOperationsPerform : Obligations.QueuedOperationsPerform := by
  unfold Obligations.QueuedOperationsPerform
  intro s x c crew
  refine ⟨fun e rest queue run atomic clean empty ready home live nodup nothing others uncov => ?_,
    fun e ln found ready inside live => ?_, fun e found left near acked leased decided => storeAck_raises crew found left near acked leased decided,
    fun core ln cp copy late => leaseExpiry_drops copy late, fun core ln e excl => exclusiveLeaseEnd_ends excl⟩
  · obtain ⟨u, c', b, next, only, rest', crew', queue', run', before, after⟩ :=
      loadReturn_retires crew queue run atomic clean empty ready home live nothing others uncov
    refine ⟨u, c', next, only, rest', crew', queue', run', returned_p before after, ?_⟩
    split
    case h_1 r n dest => exact returned_rows home before after nodup dest
    case h_2 n dest => exact returned_uni before after dest
    case h_3 dest => exact returned_none before after dest
  · obtain ⟨u, c', e', next, only, others, crew', ⟨v, uni, p, -⟩, performed⟩ := storePerform_performs crew found ready inside live
    exact ⟨u, c', e', next, only, others, crew', v, uni, p, performed⟩

end Sys2Proof
end
